-- ==== Sys2Proof/Word.lean ====
section
/-! DEFINITION. The word types and fixed-length tables of the model, with their plainest operations. -/

namespace Sys2Proof

abbrev Byte := BitVec 8
abbrev U16 := BitVec 16
abbrev U32 := BitVec 32
abbrev U40 := BitVec 40
abbrev U48 := BitVec 48
abbrev U64 := BitVec 64
abbrev U80 := BitVec 80
/-- One data-memory row of 16 bytes, byte k in bits [8k+7:8k]. -/
abbrev Row := BitVec 128

/-- The table with entry `i` changed by `f`. -/
def upd {α : Type} {n : Nat} (v : Vector α n) (i : Fin n) (f : α → α) : Vector α n :=
  v.set i.val (f v[i.val]) i.isLt

/-- The table with `f` applied to every entry and its number. -/
def vmap {α β : Type} {n : Nat} (v : Vector α n) (f : Nat → α → β) : Vector β n :=
  ⟨⟨v.toList.zipIdx.map (fun p => f p.2 p.1)⟩, by simp⟩

/-- A table of `n` entries, entry `i` being `f i`. -/
def vgen {β : Type} (n : Nat) (f : Nat → β) : Vector β n :=
  ⟨⟨(List.range n).map f⟩, by simp⟩

/-- Every number below `n`, rising. -/
def fins (n : Nat) : List (Fin n) := List.finRange n

end Sys2Proof
end

