-- ==== Sys2Proof/Syntax.lean ====
section
/-! DEFINITION. The commands of the block: one constructor of `Instr` for every row of
spec/opcode_table.json, in the table's order, with the operands the model gives them (the table gives none). -/

namespace Sys2Proof

/-- Who makes a register access: host software over APB, the debugger over its bus master, or sequencer thread n
(law code, or the headworks where the thread runs at machine privilege; R95, R906). -/
inductive Who where
  | host
  | debugger
  | thread (n : Fin 16)
deriving DecidableEq, Repr

/-- Where a command of the command set executes from: submission ring r, or the link (R718). -/
inductive Slot where
  | sq (r : Fin 4)
  | link
deriving DecidableEq, Repr

/-- What comes back for a load or an atomic access outside data memory (R259, R263, R271). -/
inductive LoadResp where
  | okay (data : BitVec 128)
  | exokay (data : BitVec 128)
  | error
  | uncorrectable
deriving DecidableEq, Repr

/-- What comes back for a block of host memory that the block reads: its bytes, or an error response. -/
inductive HostRead where
  | okay (bytes : List Byte)
  | error
deriving DecidableEq, Repr

/-- The slot of a command that copies data to host memory, and whether a write of them ends with an error response (R555). -/
structure CopySlot where
  slot : Slot
  err : Bool := false
deriving DecidableEq, Repr

/-- What the far end of a lane shows in training: its MOD and NEAR (R652). -/
structure FarEnd where
  mod : BitVec 2
  near : Bool
deriving DecidableEq, Repr

/-- A write into gate k's table or configuration (R411). -/
inductive GateReg where
  | ctl
  | isel0
  | isel1
  | omap0
  | omap1
  | table (word : BitVec 11)
deriving DecidableEq, Repr

/-- The configuration registers of a flume that R190 protects. -/
inductive FlumeReg where
  | ctl
  | trefl
  | trefh
  | wopen
  | wclose
deriving DecidableEq, Repr

/-- A sample mailbox access (R197, R205). -/
inductive Mailbox where
  | mb1
  | mb2
  | mbt8
deriving DecidableEq, Repr

/-- Timer registers with a live value and a preload (R464). -/
inductive TimerReg where
  | per
  | cmpa
  | cmpb
  | cmpc
deriving DecidableEq, Repr

/-- Timer compare channels (R461). -/
inductive Chan where
  | a
  | b
  | c
deriving DecidableEq, Repr

inductive Instr where
  -- power, reset, boot
  | powerOnReset
  | warmReset
  | debugReset
  | rstNAssert
  | rstctlWarm (w : Who) (v : U32)
  | pllLoss
  | pllLossResetRequest
  | bootStart
  | pllLock
  | bootctlGo (w : Who) (v : U32)
  | bootReady
  | powerState (k : Slot)
  | wakePin (level : Bool)
  | tallyWake
  | pwrctlWake (w : Who) (v : U32)
  | dozeWake
  | sleepReturn
  | padHoldRelease (n : Fin 96)
  | holdrel (w : Who) (v : U32)
  | ratioWindow (ratio : U48)
  -- ports, gates, shut, watchdog
  | sampleLanding (port : Fin 32) (data : BitVec 24) (tag : BitVec 4)
  | tripInputChange (m : Fin 64) (level : Bool)
  | shutInputChange (level : Bool)
  | gateEvaluate
  | gateEnable (w : Who) (k : Fin 8) (v : U32)
  | gateRestart (w : Who) (k : Fin 8) (v : U32)
  | gateTableStore (w : Who) (k : Fin 8) (r : GateReg) (v : U32)
  | shutreqSet (w : Who) (v : U32)
  | shutreqClear (w : Who) (v : U32)
  | shutctlRearm (w : Who) (v : U32)
  | watchdogEnable (w : Who) (v : U32)
  | watchdogLock (w : Who) (v : U32)
  | watchdogService (w : Who) (v : U32)
  | watchdogWindowOpen
  | watchdogExpiry
  | watchdogResetRequest
  -- sequencer
  | operationMicroword (n : Fin 16)
  | loadDataReturn (n : Fin 16) (resp : LoadResp)
  | postedStoreError (n : Fin 16) (addr : U32)
  | br (n : Fin 16)
  | call (n : Fin 16)
  | ret (n : Fin 16)
  | retExc (n : Fin 16)
  | rep (n : Fin 16)
  | repn (n : Fin 16)
  | li (n : Fin 16)
  | lr (n : Fin 16)
  | sc (n : Fin 16)
  | reservationExpiry (n : Fin 16)
  | sys (n : Fin 16)
  | mode (n : Fin 16)
  | wait (n : Fin 16)
  | waitEnd (n : Fin 16)
  | waitTimeout (n : Fin 16)
  | fence (n : Fin 16)
  | fenceComplete (n : Fin 16)
  | exceptionEntry (n : Fin 16)
  | eventDispatch (n : Fin 16)
  | threadStart (k : Slot)
  | threadStop (k : Slot)
  | threadReset (k : Slot)
  -- Headgate
  | doorbell (w : Who) (r : Fin 4) (v : U32)
  | ringEnable (w : Who) (v : U32)
  | headShadowEnable (w : Who) (v : U32)
  | headShadowWrite
  | cqHeadWrite (w : Who) (eq : Bool) (v : U32)
  | ringResume (w : Who) (v : U32)
  | submissionFetch (entry : BitVec 512)
  | entryReadError
  | completionWrite (k : Slot)
  | nop (k : Slot)
  | query (k : Slot)
  | imageLoad (k : Slot) (pass1 pass2 : HostRead)
  | imageActivate (k : Slot)
  | patchApply (k : Slot) (patch : HostRead)
  | coefWrite (k : Slot)
  | setpoint (k : Slot)
  | arm (k : Slot)
  | disarm (k : Slot)
  | rearm (k : Slot)
  | linkEnum (k : Slot)
  | linkRole (k : Slot)
  | linkSend (k : Slot) (payload : HostRead)
  | ledgerRead (k : CopySlot)
  | ledgerBind (k : Slot)
  | nvmErase (k : Slot)
  | nvmProgram (k : Slot) (src : HostRead)
  | nvmRead (k : CopySlot)
  | bistRun (k : Slot)
  | debugPolicy (k : Slot)
  | logicBistDone (misr : U64)
  | memoryBistDone (misr : U64) (mfail : BitVec 8) (ms : BitVec 8)
  | postBistReset
  | dbist (v : U32)
  -- outlets
  | postlStage (w : Who) (n : Fin 96) (v : U32)
  | posthPost (w : Who) (n : Fin 96) (v : U32)
  | entryMove (n : Fin 96)
  | edgeRetire (n : Fin 96)
  | holdRetire (n : Fin 96)
  | flush (w : Who) (n : Fin 96)
  | ownerWrite (w : Who) (n : Fin 96) (v : BitVec 2)
  | staticLevelWrite (w : Who) (n : Fin 96) (v : Bool)
  | outputEnableWrite (w : Who) (n : Fin 96) (v : Bool)
  | outputEnableRaise (n : Fin 96)
  | pairWrite (w : Who) (n : Fin 96) (v : Bool)
  | calibrationUpdate (rawtap : BitVec 8) (trkerr : Bool)
  -- flumes
  | flumeArm (w : Who) (n : Fin 32) (v : U32)
  | flumeDisarm (w : Who) (n : Fin 32) (v : U32)
  | flumeConfigWrite (w : Who) (n : Fin 32) (r : FlumeReg) (v : U32)
  | pendingBankWrite (w : Who) (n : Fin 32) (v : U32)
  | pbdataRead (w : Who) (n : Fin 32)
  | bankSeal (w : Who) (n : Fin 32) (v : U32)
  | carrierBoundary (n : Fin 32)
  | windowCloseMiss (n : Fin 32)
  | crossingFallback (n : Fin 32)
  | mailboxRead (w : Who) (n : Fin 32) (m : Mailbox)
  | smpctlWrite (w : Who) (v : U32)
  -- timers
  | timerTick (n : Fin 32)
  | timerWrap (n : Fin 32)
  | compareMatch (n : Fin 32) (ch : Chan)
  | timerTrigger (n : Fin 32)
  | timerStart (w : Who) (n : Fin 32)
  | timerStop (w : Who) (n : Fin 32)
  | cntWrite (w : Who) (n : Fin 32) (v : U32)
  | preloadWrite (t : Fin 16) (n : Fin 32) (r : TimerReg) (v : U32)
  | liveWrite (w : Who) (n : Fin 32) (r : TimerReg) (v : U32)
  | capture (n : Fin 32)
  | capRead (w : Who) (n : Fin 32)
  | atenArm (w : Who) (n : Fin 32)
  | gaugeTimedStart (n : Fin 32)
  -- Rider
  | riderTurn (n : Fin 32)
  | riderBr (n : Fin 32)
  | loop (n : Fin 32)
  | shift (n : Fin 32)
  | waitpin (n : Fin 32)
  | waitt (n : Fin 32)
  | setat (n : Fin 32)
  | ld (n : Fin 32)
  | mov (n : Fin 32)
  | sig (n : Fin 32)
  | riderInstructionComplete (n : Fin 32)
  | setatFire (n : Fin 32)
  | txdPush (w : Who) (n : Fin 32) (v : U32)
  | rxdRead (w : Who) (n : Fin 32)
  | injection (w : Who) (n : Fin 32) (v : U32)
  | programMemoryWrite (w : Who) (i : BitVec 11) (v : U32)
  | channelRun (w : Who) (n : Fin 32) (v : U32)
  | channelStop (w : Who) (n : Fin 32) (v : U32)
  | channelReset (w : Who) (n : Fin 32) (v : U32)
  | pinMapWrite (w : Who) (n : Fin 32) (hi : Bool) (v : U32)
  | syncArm (w : Who) (v : U32)
  | synchronisedStart
  -- Culvert
  | culvertStart (w : Who) (n : Fin 16) (v : U32)
  | descriptorLoad (n : Fin 16) (resp : HostRead)
  | culvertTrigger (n : Fin 16)
  | burstGrant
  | burstComplete (n : Fin 16) (resp : HostRead) (writeError : Option (Fin 16))
  | descriptorComplete (n : Fin 16)
  | culvertError (n : Fin 16) (code : BitVec 4)
  | culvertPause (w : Who) (n : Fin 16) (v : U32)
  | pauseDrained (n : Fin 16)
  | culvertResume (w : Who) (n : Fin 16) (v : U32)
  | culvertAbort (w : Who) (n : Fin 16) (v : U32)
  -- event ring and Turnout
  | eventRecordWritten
  | claim (w : Who) (t : Fin 8)
  | complete (w : Who) (t : Fin 8) (v : U32)
  | tdpoll (n : Fin 16)
  | swev (w : Who) (v : U32)
  | sourceConfigWrite (w : Who) (src : Fin 512) (v : U32)
  | scondset (w : Who) (v : U32)
  | scondclr (w : Who) (v : U32)
  -- link: lanes and coding
  | laneDetectLock (l : Fin 4) (inverted : Bool)
  | trainingReady (l : Fin 4) (far : FarEnd) (ffe : BitVec 18)
  | portUp (p : Fin 4) (aseq : BitVec 8) (lidx : BitVec 8) (skew : U32)
  | trainingTimeout (l : Fin 4)
  | lossOfLock (p : Fin 4)
  | retrain (w : Who) (l : Fin 4) (v : U32)
  | laneGroupWrite (w : Who) (v : U32)
  | codewordReceive (p : Fin 4) (bits : BitVec 680)
  | codewordSend (p : Fin 4)
  | orderedSetReceive (p : Fin 4) (sub : BitVec 6) (c0 c1 c2 c3 : U64)
  | alignSend (p : Fin 4)
  | shutOrderReceive (p : Fin 4) (origin : BitVec 14) (seq : BitVec 8) (hops : BitVec 5)
  | trickleLock
  -- link: network
  | timeExchange (p : Fin 4) (sub : BitVec 6)
  | timeMarkerReply (p : Fin 4) (sub : BitVec 6)
  | timeFrameReceive (p : Fin 4)
  | advSend
  | adv (p : Fin 4)
  | masterElection
  | electionRestart
  | count (p : Fin 4)
  | assign (p : Fin 4)
  | reroute (p : Fin 4)
  | wake (p : Fin 4)
  | regreq (p : Fin 4)
  | regrsp (p : Fin 4)
  | cresync (p : Fin 4)
  | cmdFrameReceive (p : Fin 4)
  | receiveRingWrite (p : Fin 4)
  | sampFrameReceive (p : Fin 4)
  | receiveRingEnable (w : Who) (v : U32)
  -- ledger
  | temperatureWrite (w : Who) (c : Fin 16) (v : U32)
  | temperatureProcess (c : Fin 16)
  | ageingTick
  | persistenceStart
  | persistenceCommit
  | ledgerLoad (w : Who) (v : U32)
  | lgmdataAccess (w : Who) (v : Option U32)
  | dmglRead (w : Who) (c : Fin 16)
  -- NVM
  | erasePulseEnd (pass : Bool)
  | programPulseEnd (pass : Bool)
  | nvmSuspend
  | nvmResume
  | nvmSuspWrite (w : Who) (v : U32)
  | nvmcntRead (w : Who)
  -- reads with side effects
  | hgevlostRead (w : Who)
  | cerrRead (w : Who) (l : Fin 4)
  | codewordCounterRead (w : Who) (p : Fin 4) (which : Fin 3)
  | frdropRead (w : Who) (p : Fin 4)
  | netdropRead (w : Who)
  | nrxlostRead (w : Who)
  -- register writes and windows
  | registerWrite (w : Who) (off : BitVec 20) (v : U32) (strb : BitVec 4)
  | storeWindowWrite (w : Who) (off : BitVec 20) (v : U32) (strb : BitVec 4)
  | groupApertureAccess (w : Who) (off : BitVec 20) (wr : Option U32) (strb : BitVec 4)
  -- inspection port
  | rd (op : BitVec 4) (addr : BitVec 24)
  | wr (op : BitVec 4) (addr : BitVec 24) (v : U32) (crc : BitVec 4)
  | challenge (v : U32) (noise : U32)
  | check
  | lockoutExpiry
  | drop
  | dbdataRead
  | dbdataWrite (v : U32)
  | debugBusComplete (resp : LoadResp)
  | halt (n : Fin 16)
  | monitorEntry (n : Fin 16)
  | monitorRequest (n : Fin 16)
  | resume (n : Fin 16)
  | stepEntry (n : Fin 16)
  | freezeBegin
  | thaw
  | dctlWake
  -- clocks
  | gaugeAdvance (rdrI : U64)
  | watchdogCount
  | tallyCount
  | trickleLockLoss (p : Fin 4)
  | portReturnToIdle
deriving DecidableEq, Repr

end Sys2Proof
end

