-- ==== Sys2Proof/Decode.lean ====
section
/-! DEFINITION. The commands that a word spells by the opcode table's bits: the table gives no row any bits. -/

namespace Sys2Proof

/-- spec/opcode_table.json gives none of its rows a width, a mask or a pattern, so no word spells a command
(log entry 1). -/
def decodeTableWord (_nbits _w : Nat) : Option Instr := none

end Sys2Proof
end

