-- ==== Sys2Proof/Config.lean ====
section
/-! DEFINITION. What the spec leaves open: the free values. Each is an opaque constant applied to a counter that
State holds, so nothing in Lean can see its value. -/

namespace Sys2Proof

/-- The k-th free value, as wide as any value the model leaves open: a too-early read (R248), an edge of a crossing
interpolation within its bounds (R179), the contents that a failed erase or a cut pulse leaves (R789, R795). -/
opaque Config.freeValue : Nat → BitVec 512

/-- The k-th free choice between two behaviours that a rule allows. -/
opaque Config.freeBit : Nat → Bool

/-- The check symbols that the block stores with a microword, with a nanoword or a unit of the NVM, and with a row of data memory
(R282, R767): the spec gives neither the field's polynomial nor the generator. -/
opaque Config.checkMicro : BitVec 32 → BitVec 16
opaque Config.checkNano : BitVec 256 → BitVec 32
opaque Config.checkRow : BitVec 128 → BitVec 32

end Sys2Proof
end

