-- ==== Sys2Proof/Machine/State.lean ====
section
/-! DEFINITION. The state of the block as plain data, unit by unit, with the value of every field at reset; the
reasons a step can stop; and the state right after power-on reset. -/

namespace Sys2Proof.Machine

/-- No meaning of this model ends in a fault: the spec gives every command of the table an effect in every state
(NOTES.md, '## Stops'). -/
inductive Fault where
  /-- Raised by nothing; kept so that the type has a name for a stop. Safe. -/
  | stopped
deriving DecidableEq, Repr

/-- Why a command has no meaning here. -/
inductive Refusal where
  /-- Raised by Dispatch for a command without a meaning in this model, by its table name. Safe. -/
  | notModelled (mnemonic : String)
deriving DecidableEq, Repr

/-! ## Time -/

/-- The fast clock and the Gauge (R23, R85). `fc` counts the fc edges of `gaugeAdvance`: the model's own count. -/
structure Clk where
  gauge : U64 := 0
  fc : Nat := 0
  /-- R86: counts from PLL lock; held in SLEEP, DEEP and before the lock. -/
  running : Bool := false
  /-- R705: the sub-ticks by which the next fc edge advances the Gauge. -/
  adv : BitVec 8 := 64
deriving DecidableEq, Repr

/-! ## Ports (02) -/

/-- smp_clk_o[k] (R40, R41, R44, R45). -/
structure SmpClk where
  /-- fc of the high time still to come, this one included; 0: low. -/
  high : BitVec 3 := 0
  /-- fc from the last fall to the fc edge before the last rise or, while low, to now, saturating at 3. -/
  low : BitVec 2 := 3
  /-- Host software has enabled the group since HGSTAT.READY was set (R80). -/
  live : Bool := false
  /-- fc that must still pass before a first rise after an enable (R45). -/
  wait : BitVec 4 := 0
deriving DecidableEq, Repr

/-- What nvm_clk_o runs at (R69, R73). -/
inductive NvmClk where
  | idle
  | sc
  | fc16
deriving DecidableEq, Repr

structure Ports where
  /-- The level of por_n: while it is low PREADY is 0, the inputs are ignored and the outputs are idle (R32, R79). -/
  porN : Bool := true
  /-- HGSTAT.READY has been set since the last power-on reset (R80). -/
  live : Bool := false
  nvmClk : NvmClk := .sc
  smpEn : BitVec 4 := 0
  smpPh : Vector (BitVec 3) 4 := Vector.replicate 4 0
  smpClk : Vector SmpClk 4 := Vector.replicate 4 {}
  /-- Ports whose sample of this fc has landed. -/
  landed : U32 := 0
  smpSeen : U32 := 0
  phign : Bool := false
  sreqmrg : Bool := false
  /-- sreq_o[n] is high from fc edge `sreqRise` up to fc edge `sreqFall` (R51, R52). -/
  sreqRise : Vector Nat 32 := Vector.replicate 32 0
  sreqFall : Vector Nat 32 := Vector.replicate 32 0
  trip : U64 := 0
  shutI : Bool := false
  wakeI : Bool := false
  /-- rdr_i after its synchroniser (R64), and its level one fc before. -/
  rdrI : U64 := 0
  rdrIPrev : U64 := 0
  irqO : Byte := 0
deriving DecidableEq, Repr

/-! ## Outlets (03) -/

/-- R94, R96. -/
inductive EdgeOp where
  | set
  | clear
  | toggle
  | hold
deriving DecidableEq, Repr

/-- An entry of an edge queue (R94, R99): untrimmed time, operation (a TOGGLE of a pair already resolved, R114), tag. -/
structure QEntry where
  t : U40
  op : EdgeOp
  tag : Byte
deriving DecidableEq, Repr

/-- An edge in a delay line: its trimmed time, its operation, and, for a delayed rise, its untrimmed time (R104, R117). -/
structure LineEdge where
  t : U40
  op : EdgeOp
  rise : Option U40
deriving DecidableEq, Repr

structure Outlet where
  owner : BitVec 2 := 0
  /-- An OWNER written in this fc, in force from the next fc edge (R122). -/
  ownerNext : Option (BitVec 2) := none
  latepol : BitVec 2 := 0
  defper : U32 := 0
  /-- LATEPOL and DEFPER before the writes of fc `polAt - 1` (R113); `polAt` 0: none. -/
  polAt : Nat := 0
  latepolOld : BitVec 2 := 0
  defperOld : U32 := 0
  safe : Bool := false
  lvl : Bool := false
  /-- LVL before the change of fc `lvlAt - 1`; `lvlAt` 0: none (R125). -/
  lvlAt : Nat := 0
  lvlOld : Bool := false
  /-- The fc after that of the last claim that took the outlet (R123), and of the last side-set that claimed it, taken
  or dropped (R125); 0: none. -/
  claimAt : Nat := 0
  riderAt : Nat := 0
  oen : Bool := false
  /-- fc + 1 of the write that set OEN, which takes effect at the next fc edge (R131); 0: none. -/
  oenAt : Nat := 0
  /-- OEN was written 1 with HGSTAT.READY set since power-on (R80). -/
  oenLive : Bool := false
  shutg : Bool := true
  pair : Bool := false
  rpen : Bool := false
  rpin : BitVec 6 := 0
  outtrim : Byte := 0
  dte : BitVec 20 := 0
  dto : BitVec 20 := 0
  /-- STAT[5:0]: LATE, DEFDROP, QOVF, CONF, OWNCHG, PAIRIGN (R143). -/
  stat : BitVec 6 := 0
  queue : List QEntry := []
  line : List LineEdge := []
  /-- Pending delayed rises of the pair on this outlet: untrimmed times r (R117). -/
  rises : List U40 := []
  /-- The untrimmed time of the last accepted action that is not a HOLD (R101): p; and whether that action commands 1
  (R114). -/
  last : Option U40 := none
  lastSet : Bool := false
  /-- R903. -/
  shadow : Bool := false
  /-- fc + 1 of the last fc in which an edge behind its first sub-tick was placed, 0: none; and the shadow level before the
  first such edge (R62). -/
  retAt : Nat := 0
  retOld : Bool := false
  oe : Bool := false
  /-- fc + 1 of the last flush (R108); 0: none. -/
  flushAt : Nat := 0
  /-- POSTL staging words (R97): threads 0-15, the headworks 16, host software 17, the debugger 18. -/
  postl : Vector U32 19 := Vector.replicate 19 0
  /-- The calibration that its delay line uses: raw taps per fc (R135). -/
  tap : Byte := 0
  /-- Pad hold (R808, R815): the level held on out_o. -/
  padHold : Option Bool := none
deriving DecidableEq, Repr

/-- OUTCAL (R146). -/
structure OutCal where
  valid : Bool := false
  trkerr : Bool := false
  rawtap : Byte := 0
deriving DecidableEq, Repr

/-! ## Turnout (13) -/

/-- Who serves a source: host target t, or thread n after a dispatch with the DEPTH recorded (R634, R635). -/
inductive Service where
  | target (t : BitVec 3)
  | thread (n : BitVec 4) (depth : Byte)
deriving DecidableEq, Repr

structure Source where
  pri : BitVec 4 := 0
  set : Bool := false
  tgt : BitVec 4 := 0
  dthr : BitVec 4 := 0
  tset : Byte := 0
  cnt : BitVec 4 := 0
  satf : Bool := false
  service : Option Service := none
  /-- The target the source is routed to while it can be claimed (R623, R624): none until the end of the fc in which
  it becomes claimable. -/
  route : Option (BitVec 4) := none
deriving DecidableEq, Repr

structure Target where
  tpri : BitVec 4 := 0
  cerr : Bool := false
  /-- fc + 1 of the last read of CLAIM that has claimed a source, and its place in the order of R630. -/
  claimAt : Nat := 0
  claimRank : Nat := 0
deriving DecidableEq, Repr

/-- What became of an event (R621, R622): its source is off, it was counted, or it found CNT at 15 (with SATF as it
stood before). -/
inductive RaiseResult where
  | silent
  | counted
  | lost (satf : Bool)
deriving DecidableEq, Repr

/-- What hardware has set in this fc of the RC fields of the register at `off`: their value before the fc, less what a
read has taken, and what the fc has added (R13). -/
structure RcSet where
  off : Nat
  before : U32
  now : U32
deriving DecidableEq, Repr

/-- A source raised in this fc, with the data of its event where the cause gives it (R583). -/
structure Raised where
  src : BitVec 9
  data : U32
  res : RaiseResult
deriving DecidableEq, Repr

structure Turnout where
  src : Vector Source 512 := Vector.replicate 512 {}
  tgt : Vector Target 8 := Vector.replicate 8 {}
  lastChosen : BitVec 3 := 7
  /-- The sources raised in this fc, each once (R621). -/
  raised : List Raised := []
  /-- The W1C bits that hardware has set in this fc, by register offset (R12), and the RC fields (R13). -/
  w1cSet : List (Nat × U32) := []
  rcSet : List RcSet := []
  /-- The writes of TSRC[s].CFG made in this fc, which take effect from the next (R627), oldest first. -/
  cfgw : List (BitVec 9 × U32) := []
deriving DecidableEq, Repr

/-! ## Check gates, shut, watchdog (08) -/

structure Gate where
  en : Bool := false
  shuten : Bool := false
  rar : Bool := false
  init : BitVec 4 := 0
  isel : Vector Byte 8 := Vector.replicate 8 0xFE
  omap : Vector (BitVec 7) 8 := Vector.replicate 8 0x7F
  state : BitVec 4 := 0
  inputs : Byte := 0
  /-- The applied entry: FEN, FSAFE, EV (R401, R402). -/
  fen : Byte := 0
  fsafe : Bool := false
  ev : Bool := false
  evf : Bool := false
  wign : Bool := false
  /-- The inputs and the entry that the gate has read in this fc, which it applies at the next fc edge (R400). -/
  entry : Option (Byte × U16) := none
  /-- A restart or an enable in this fc discards the entry read in it (R406). -/
  restart : Bool := false
  /-- A warm reset in this fc replaces NEXT by INIT (R412). -/
  toInit : Bool := false
deriving DecidableEq, Repr

structure Shut where
  req : Bool := false
  /-- Latched sources (R413). -/
  link : Bool := false
  wdog : Bool := false
  /-- fc + 1 of their last assertion (R424); 0: none. -/
  linkAt : Nat := 0
  wdogAt : Nat := 0
  active : Bool := false
  rfail : Bool := false
  first : BitVec 5 := 0
  count : U16 := 0
  orig : BitVec 4 := 0
  accept : Bool := true
  /-- The shut has been handed to the link (R416, R421). -/
  sent : Bool := false
  /-- fc of S of the current or last shut (R416). -/
  sAt : Nat := 0
  /-- fc edge at which an accepted REARM releases the shut (R422). -/
  releaseAt : Option Nat := none
  /-- fc + 1 of the last release, 0: none; the shut group leaves SAFE one fc edge after it (R423). -/
  freedAt : Nat := 0
deriving DecidableEq, Repr

structure Wdog where
  en : Bool := false
  lock : Bool := false
  wrst : Bool := false
  dbgfrz : Bool := false
  svcthr : BitVec 4 := 15
  per : BitVec 24 := 0
  cls : BitVec 24 := 0
  cnt : BitVec 24 := 0
  armed : Bool := false
  exp : Bool := false
  cause : BitVec 2 := 0
  foreign : Bool := false
  frozen : Bool := false
  /-- The window-open event of this count has been raised (R426). -/
  opened : Bool := false
  stopped : Bool := false
  /-- fc at which the warm reset of R430 is requested. -/
  resetAt : Option Nat := none
deriving DecidableEq, Repr

/-! ## Flumes (04) -/

/-- A sample mailbox (R205). -/
structure Mb where
  sample : BitVec 24 := 0
  tag : BitVec 4 := 0
  ovr : Bool := false
  new : Bool := false
deriving DecidableEq, Repr

/-- A write of the pending bank, its index and its seal (R159, R160, R207-R209). -/
inductive BankOp where
  /-- A coefficient port, with its own index (R334). -/
  | port (i : BitVec 3) (v : U32)
  /-- A write of PBDATA, and a read of it. -/
  | data (v : U32)
  | read
  | index (v : BitVec 5)
  | seal
deriving DecidableEq, Repr

/-- The pending bank with its index register and RDY. -/
structure PendBank where
  pend : Vector U32 8 := Vector.replicate 8 0
  rdy : Bool := false
  idx : BitVec 3 := 0
  act : Bool := false
  ainc : Bool := false
deriving DecidableEq, Repr

structure Flume where
  arm : Bool := false
  mode : BitVec 2 := 0
  sfmt : Bool := false
  cpol : Bool := false
  misspol : Bool := false
  p2en : Bool := false
  tmren : Bool := false
  port1 : BitVec 5 := 0
  port2 : BitVec 5 := 0
  out : BitVec 7 := 0
  tmr : BitVec 5 := 0
  peri : U32 := 0
  perf : U16 := 0
  /-- Tref of the current period, or the first Tref as written, 40 integer and 16 fraction bits (R152, R201). -/
  tref : BitVec 56 := 0
  /-- Tref of the next period (R154). -/
  next : BitVec 56 := 0
  wopen : U32 := 0
  wclose : U32 := 0
  /-- STAT[11:0] (R203). -/
  stat : BitVec 12 := 0
  gclamp : Bool := false
  gmiss : Bool := false
  glate : Bool := false
  gxfall : Bool := false
  ien : BitVec 12 := 0
  mbt : U32 := 0
  mb1 : Mb := {}
  mb2 : Mb := {}
  lastl : U32 := 0
  /-- The pending bank, PBIDX and PBCTL (R207-R209). -/
  pb : PendBank := {}
  /-- The pending bank before the writes of fc `pbAt - 1`, and those writes with the ranks of their agents, in the order in
  which they are applied (R337); `pbAt` 0: none. -/
  pbAt : Nat := 0
  pbOld : PendBank := {}
  pbLog : List (Nat × BankOp) := []
  bank : Vector U32 8 := Vector.replicate 8 0
  /-- A carrier period is running; its boundary fc (R153). -/
  inPeriod : Bool := false
  boundaryFc : Nat := 0
  /-- A move of the Gauge has passed over the next Tref (R905). -/
  passed : Bool := false
  /-- The sample of the window has been taken, or the crossing found (R165, R176). -/
  taken : Bool := false
  /-- The miss test, or the crossing fallback, of this period is over (R170, R183). -/
  closed : Bool := false
  /-- Latest sample on PORT2 since arming (R167). -/
  x2 : Option (BitVec 24) := none
  /-- The previous compared sample of the period: its error in 1/65536 and its Gauge value (R175, R177). -/
  prev : Option (Int × U64) := none
deriving DecidableEq, Repr

/-! ## General timers and the Gauge page (09) -/

structure Timer where
  run : Bool := false
  src : BitVec 2 := 0
  latewrap : Bool := false
  edge : BitVec 2 := 0
  pin : BitVec 6 := 0
  lnk : BitVec 5 := 0
  trgmode : BitVec 2 := 0
  aten : Bool := false
  psc : U16 := 0
  pre : U16 := 0
  cnt : U32 := 0
  /-- CNT at the fc edge that began this fc, before any change at it (R470). -/
  cntPrev : U32 := 0
  per : U32 := 0xFFFFFFFF
  cmpa : U32 := 0
  cmpb : U32 := 0
  cmpc : U32 := 0
  /-- Pending preloads (R464). -/
  perPre : Option U32 := none
  cmpaPre : Option U32 := none
  cmpbPre : Option U32 := none
  cmpcPre : Option U32 := none
  /-- For PER and CMPA-CMPC, fc + 1 of the last preload write, 0: none, and the preload that it replaced (R465). -/
  preAt : Vector Nat 4 := Vector.replicate 4 0
  preOld : Vector (Option U32) 4 := Vector.replicate 4 none
  /-- CMPA-CMPC before the live writes of fc `cmpAt - 1` (R461); `cmpAt` 0: none. -/
  cmpAt : Nat := 0
  cmpOld : Vector U32 3 := Vector.replicate 3 0
  cap : U32 := 0
  capf : Bool := false
  /-- CAP, CAPF and CAPOV before the capture of fc `capAt - 1` (R471); `capAt` 0: none. -/
  capAt : Nat := 0
  capOld : U32 := 0
  capfOld : Bool := false
  capovOld : Bool := false
  /-- fc + 1 of the last read of CAP, 0: none; a capture that met it, which lands at the next fc edge, and whether it is still
  to raise its source (R471, R473). -/
  capReadAt : Nat := 0
  capLate : Option (U32 × Bool) := none
  acta : BitVec 11 := 0
  actb : BitVec 11 := 0
  actc : BitVec 11 := 0
  acto : BitVec 11 := 0
  csrc : BitVec 2 := 0
  cedge : BitVec 2 := 0
  csel : BitVec 6 := 0
  capIrq : Bool := false
  mata : Bool := false
  matb : Bool := false
  matc : Bool := false
  ovf : Bool := false
  capov : Bool := false
  capuf : Bool := false
  pskip : Bool := false
  aterr : Bool := false
  synct : U40 := 0
  /-- fc + 1 of the move of the Gauge that has passed over SYNCT (R905); 0: none. -/
  passedAt : Nat := 0
  /-- fc + 1 of the last restart or write of CNT, which absorbs a tick of its fc edge (R458, R460); 0: none. -/
  absorbAt : Nat := 0
  /-- The flume that owns the timer (R150). -/
  flume : Option (BitVec 5) := none
  /-- fc + 1 of the claim that made it the owner (R150); 0: none. -/
  claimAt : Nat := 0
  /-- A count event of this fc edge waits to be counted (R452). -/
  tick : Bool := false
  /-- Channels whose compare has matched at this fc edge: A, B, C in bits 0-2 (R461). -/
  hit : BitVec 3 := 0
  /-- A capture event of this fc edge (R469). -/
  capEv : Bool := false
  /-- fc edges at which received triggers act (R463). -/
  trigAt : List Nat := []
  /-- fc + 1 of the last pulse of its Culvert request (R462, R463); 0: none. -/
  culAt : Nat := 0
  /-- fc + 1 of the last start, 0: none: a stop at the same edge does not undo it (R463). -/
  startAt : Nat := 0
deriving DecidableEq, Repr

structure GaugePage where
  tally : U48 := 0
  tsat : Bool := false
  ratio : U48 := 0x400000
  rvalid : Bool := false
  /-- fc at which the present window of 65,536 sc began (R478). -/
  winStart : Nat := 0
  mkup : U64 := 0
deriving DecidableEq, Repr

/-! ## Rider (10) -/

/-- How far the latched instruction of a channel has come (R506). -/
inductive RiderPhase where
  /-- Fetched in the turn; its own effect is still to come in this fc. -/
  | fetched
  /-- SHIFT: waits for a TX FIFO word (FILL). -/
  | fill
  /-- SHIFT: waits for its first bit edge (R502), or for the edges of an external clock (R503). -/
  | align
  /-- SHIFT: runs the bit that began at fc edge `start` (R502). -/
  | bit (start : Nat)
  /-- SHIFT: all bits are shifted; drains if it must. -/
  | shifted
  /-- Waits for its completion condition: WAITPIN, WAITT, SETAT, MOV and SIG. -/
  | waiting
deriving DecidableEq, Repr

structure RiderLatch where
  word : U32
  phase : RiderPhase
  /-- fc in which it executes, and whether WAITPIN has seen its level or edge. -/
  exec : Nat
  seen : Bool
  /-- T of a SETAT, or the fc-time of the execution fc (R511, R513). -/
  time : U32
deriving DecidableEq, Repr

/-- A pending SETAT: slot, operation, time, the fc-time at which it became pending, and its fc (R513, R514). -/
structure PendSet where
  slot : BitVec 3
  op : BitVec 2
  t : U32
  e : U32
  fc : Nat
deriving DecidableEq, Repr

structure RiderSlot where
  pin : BitVec 6 := 0
  mode : BitVec 2 := 0
  /-- The slot's output claim holds its pin (R496). -/
  held : Bool := false
  level : Bool := false
  /-- The level that it takes at the fc edge that ends this fc, and whether a side-set gives it (R499). -/
  next : Option Bool := none
  nextSide : Bool := false
  /-- fc + 1 of the claim that took its pin (R496); 0: none. -/
  claimAt : Nat := 0
deriving DecidableEq, Repr

structure RiderCh where
  run : Bool := false
  abortstall : Bool := false
  pc : BitVec 11 := 0
  entry : BitVec 11 := 0
  bt : U16 := 0
  smp : U16 := 0
  doslot : BitVec 3 := 0
  doen : Bool := false
  dislot : BitVec 3 := 0
  dien : Bool := false
  ckslot : BitVec 3 := 0
  cken : Bool := false
  ckpol : Bool := false
  ckext : Bool := false
  ckedge : BitVec 2 := 0
  ss : Vector (BitVec 3) 4 := #v[4, 5, 6, 7]
  slots : Vector RiderSlot 8 := Vector.replicate 8 {}
  x : U32 := 0
  y : U32 := 0
  lc : U16 := 0
  osr : U32 := 0
  isr : U32 := 0
  icnt : BitVec 6 := 0
  scnt : BitVec 6 := 0
  tx : List U32 := []
  rx : List U32 := []
  /-- Words pushed in this fc, which land behind the pops of the fc (R517). -/
  txIn : List U32 := []
  rxIn : List U32 := []
  div : U16 := 0
  latch : Option RiderLatch := none
  setat : Option PendSet := none
  inj : Option U32 := none
  /-- STAT[8:0] (R538). -/
  stat : BitVec 9 := 0
  ien : BitVec 9 := 0
deriving DecidableEq, Repr

structure RiderSel where
  ch : BitVec 5 := 0
  en : Bool := true
deriving DecidableEq, Repr

structure Rider where
  sync : Bool := false
  serr : Bool := false
  mask : U32 := 0
  synct : U40 := 0
  /-- fc + 1 of the move of the Gauge that has passed over RSYNCT (R905); 0: none. -/
  passedAt : Nat := 0
  slot : Vector RiderSel 32 := vgen 32 (fun i => { ch := BitVec.ofNat 5 i })
  /-- RSLOT before the writes of fc `slotAt - 1` (R492); `slotAt` 0: none. -/
  slotAt : Nat := 0
  slotOld : Vector RiderSel 32 := vgen 32 (fun i => { ch := BitVec.ofNat 5 i })
  ch : Vector RiderCh 32 := Vector.replicate 32 {}
  /-- Slot number of the fc before (R493), and whether this fc's turn has been taken. -/
  slotPrev : Option (BitVec 5) := none
  turnDone : Bool := false
  /-- Program memory: word number, instruction; an unlisted word is 0 (R523). -/
  prog : List (Nat × U32) := []
  /-- Words with an uncorrectable error (R523). -/
  bad : List Nat := []
deriving DecidableEq, Repr

/-! ## Culvert (12) -/

/-- A loaded descriptor (R594), with the address it was fetched from. -/
structure CulDesc where
  nsp : Bool
  ends : Bool
  next : U48
  tag : U16
  ssp : Bool
  src : U48
  scirc : BitVec 5
  dsp : Bool
  dst : U48
  dcirc : BitVec 5
  len : BitVec 25
  mode : BitVec 2
  nstr : BitVec 4
  esz : Bool
  trg : BitVec 2
  tsel : BitVec 5
  step : Bool
  burst : BitVec 2
  pri : BitVec 2
  crc : Bool
  record : Bool
  irq : Bool
deriving DecidableEq, Repr

/-- Where a channel stands in the walk of its list. -/
inductive CulPhase where
  | idle
  /-- The descriptor at DESC is to be fetched and checked (R597, R598). -/
  | fetch
  /-- A descriptor is loaded: it waits for its trigger, moves, or completes (R599, R602, R608). -/
  | loaded
deriving DecidableEq, Repr

/-- A burst between the issue of its reads and the response to its writes: first payload byte, bytes, and the data
of a source in data memory (none: it comes from host memory) (R603). -/
structure CulBurst where
  at_ : Nat
  size : Nat
  data : Option (List Byte)
deriving DecidableEq, Repr

structure CulCh where
  en : Bool := false
  pause : Bool := false
  sp : Bool := false
  /-- DESCH:DESCL, a multiple of 32. -/
  desc : U48 := 0
  /-- Space and address of the descriptor to be fetched (R597, R598). -/
  nextSp : Bool := false
  next : U48 := 0
  /-- The descriptor's fetch, or the write of a record, has been granted (R603). -/
  asked : Bool := false
  /-- fc + 1 of the load of the descriptor (R601); 0: none. -/
  loadAt : Nat := 0
  phase : CulPhase := .idle
  cur : Option CulDesc := none
  /-- Payload bytes whose reads are issued, and whose writes are answered. -/
  issued : Nat := 0
  done : Nat := 0
  bursts : List CulBurst := []
  crc : U32 := 0xFFFFFFFF
  donecnt : U32 := 0
  /-- A trigger is latched; the movement has been started by one (R600, R601). -/
  trig : Bool := false
  started : Bool := false
  /-- Trigger pulses that have arrived and are not yet latched or lost (R599, R601). -/
  pulses : Nat := 0
  /-- An error met by a fetch, a burst or a check, which stops the channel (R606, R607). -/
  fail : Option (BitVec 4) := none
  /-- The descriptor that failed its check (R606, R607). -/
  failed : Option CulDesc := none
  paused : Bool := false
  cqwait : Bool := false
  doneF : Bool := false
  err : Bool := false
  trgov : Bool := false
  reclost : Bool := false
  ecode : BitVec 4 := 0
deriving DecidableEq, Repr

structure Culvert where
  ch : Vector CulCh 16 := Vector.replicate 16 {}
  /-- Channel last granted at each priority (R603). -/
  last : Vector (BitVec 4) 4 := Vector.replicate 4 15
deriving DecidableEq, Repr

/-! ## Headgate (11) -/

/-- How far a command in execution has come. -/
inductive CmdStage where
  /-- Read, not begun (R559 holds a FENCE here). -/
  | fetched
  /-- Begun; `acc` is what its RESULT needs from its beginning. -/
  | running (acc : U64)
  /-- Forwarded to a member under that MSGID; its RESP is awaited (R728). -/
  | forwarded (msgid : Byte)
  /-- Carried out; its completion waits to be written (R554). -/
  | done (status : Byte) (detail : U16) (result : U64)
deriving DecidableEq, Repr

/-- A command in execution: its entry (R551), HEAD after it was read, its place in the order of reads (R559). -/
structure CmdSlot where
  entry : BitVec 512
  sqhead : U16
  seq : Nat
  stage : CmdStage
  /-- For a command that came over the link: port, source node and tag word of its CMD frame (R718). -/
  origin : Option (BitVec 2 × BitVec 14 × U32) := none
deriving DecidableEq, Repr

/-- A completion that waits for CQEN (R907): the 16 bytes without PHASE, and whether it raises source 328 (R556). -/
structure HeldCq where
  body : Row
  irq : Bool
deriving DecidableEq, Repr

structure Ring where
  en : Bool := false
  base : U48 := 0
  k : BitVec 4 := 4
  head : BitVec 14 := 0
  tail : BitVec 14 := 0
  phase : Bool := true
deriving DecidableEq, Repr

structure Headgate where
  ready : Bool := false
  staged : Bool := false
  cqfull : Bool := false
  eqovf : Bool := false
  proch : Bool := true
  bistp : Bool := false
  rerr : BitVec 4 := 0
  stgver : Byte := 0
  shen : Bool := false
  shad : U48 := 0
  errCause : BitVec 3 := 0
  errRing : BitVec 3 := 0
  err : Bool := false
  evlost : U32 := 0
  sq : Vector Ring 4 := Vector.replicate 4 { phase := false }
  cq : Ring := {}
  eq : Ring := {}
  even : Vector U32 16 := Vector.replicate 16 0
  /-- Commands in execution, one for each submission ring (R558). -/
  slot : Vector (Option CmdSlot) 4 := Vector.replicate 4 none
  /-- A command that came over the link (R718). -/
  linkSlot : Option CmdSlot := none
  /-- Number of the next command to be read. -/
  nextSeq : Nat := 0
  held : List HeldCq := []
  /-- Event records whose write response is still to come (R584). -/
  evOwed : Nat := 0
  /-- A value that the head shadow reports has changed since it was last written (R549). -/
  shadDirty : Bool := false
  /-- The staged image: the slot it was programmed into, and its autostart sections P0-P5 (R579, R580). -/
  stagedSlot : Option Bool := none
  autostart : List (Vector U32 6) := []
  /-- The autostart sections of the image that is being loaded (R579). -/
  loadAuto : List (Vector U32 6) := []
deriving DecidableEq, Repr

/-! ## Sequencer (05, 06, 07) -/

/-- Who makes an access, with the privilege it has: the agents that R97, R337, R361 and R411 tell apart. -/
inductive Agent where
  | host
  | debugger
  | law (n : BitVec 4)
  | sup (n : BitVec 4)
  /-- Headworks code at machine privilege on thread n (T15, or the spillway or monitor on T0-T14; R360). -/
  | mach (n : BitVec 4)
deriving DecidableEq, Repr

/-- The kinds of access that park a thread: a load by its size code (R328), LR, and SC (R268, R269). -/
inductive LoadKind where
  | plain (lsz : BitVec 3)
  | lr
  /-- SC with its data (R269). -/
  | sc (data : U32)
deriving DecidableEq, Repr

/-- What a result still owed will write (R246): a general register, an accumulator, a saturation flag (cleared
first, then set), SCF or FMAX. -/
inductive Owed where
  | g (r : BitVec 5) (v : U32)
  | acc (k : BitVec 2) (v : U80)
  | sat (k : BitVec 2) (clr set : Bool)
  | scf (v : Bool)
  | fmax (v : Bool)
deriving DecidableEq, Repr

/-- A result of word `word` that lands at the end of fc `due` (R247, R249); in safe mode a load lands after the next
word (R255), whatever its `due`. -/
structure PendWrite where
  what : Owed
  due : Nat
  word : Nat
  safe : Bool
  /-- The result of a load or LR (R266). -/
  load : Bool := false
deriving DecidableEq, Repr

/-- What a producer of R246 produces, for the distance check (R252). -/
inductive Prod where
  | g (r : BitVec 5)
  | acc (k : BitVec 2)
  | sat (k : BitVec 2)
  | scf
  | fmax
  | row (r : BitVec 16)
deriving DecidableEq, Repr

structure Producer where
  what : Prod
  word : Nat
  dist : Nat
deriving DecidableEq, Repr

/-- What a taken CALL or RET did to the return stack, to be undone when its slot faults (R382). -/
inductive SlotUndo where
  | nothing
  | pushed
  | popped (a : U16)
deriving DecidableEq, Repr

/-- The next word is the delay slot of the transfer at `branch` (R225). -/
structure DelaySlot where
  branch : U16
  target : Option U16
  undo : SlotUndo
deriving DecidableEq, Repr

/-- A MODE whose change applies after `left` more words (R246, R273). -/
structure ModeShadow where
  left : BitVec 2
  setp : Bool
  priv : BitVec 2
  setm : Bool
  mask : BitVec 3
deriving DecidableEq, Repr

/-- A repeat in progress (R244): the prefix's address, and the repetitions not yet issued. -/
structure Repeat where
  repn : Bool
  addr : U16
  left : Nat
  /-- No repetition has issued yet (R373). -/
  first : Bool
deriving DecidableEq, Repr

/-- An exception return under way: its status word applies when the word at the return address issues (R379). -/
structure RetPend where
  status : U32
  /-- The delay slot has still to issue. -/
  slot : Bool
deriving DecidableEq, Repr

/-- A reservation (R268): address of its granule, in data memory or in host memory, and the fc of its LR. -/
structure Reservation where
  host : Bool
  granule : U64
  fc : Nat
deriving DecidableEq, Repr

/-- A WAIT in progress (R277, R278). -/
structure Waiting where
  cond : Byte
  inv : Bool
  evt : Bool
  deadline : Option Nat
deriving DecidableEq, Repr

/-- A condition input of a unit that the thread's own store has changed: the thread still reads `was` until it has made a
FENCE, while the input is at `now` (R232). -/
structure StaleInput where
  input : BitVec 8
  was : Bool
  now : Bool
deriving DecidableEq, Repr

/-- The part of a thread that its words read and write, and that a word which faults leaves as it was (R367). -/
structure Ctx where
  g : Vector U32 32 := Vector.replicate 32 0
  a : Vector U80 4 := Vector.replicate 4 0
  sat : BitVec 4 := 0
  nzcv : BitVec 4 := 0
  fmax : Bool := false
  scf : Bool := false
  wto : Bool := false
  priv : BitVec 2 := 0
  mask : BitVec 3 := 0
  /-- Address of the next word to issue (R289). -/
  pc : U16 := 0
  /-- Return-stack entries in hardware, oldest first (R233). -/
  hw : List U16 := []
  /-- RSP, RSLO and RSHI as row numbers (R291). -/
  rsp : U16 := 0
  rslo : U16 := 0
  rshi : U16 := 0
  dsl : U32 := 0
  ds : Option DelaySlot := none
  msh : Option ModeShadow := none
  rep : Option Repeat := none
  /-- Completed steps of the long word in progress, and its number of steps (R345, R347). -/
  prog : BitVec 12 := 0
  long : Option Nat := none
  /-- REPC of the status word just returned to: the count that a prefix at this address uses (R245). -/
  resume : Byte := 0
  ret : Option RetPend := none
  resv : Option Reservation := none
  pw : List PendWrite := []
  prod : List Producer := []
  /-- Condition inputs that the thread's own stores have changed since its last FENCE (R232). -/
  stale : List StaleInput := []
deriving DecidableEq, Repr

/-- A posted store: the word that made it and its address (R264). -/
structure Posted where
  pc : U16
  addr : U32
deriving DecidableEq, Repr

/-- Why a thread is parked (R213 ff): a load (its register, its word's number and fc), an LR or SC outside data memory, a spill or fill, a FENCE. -/
inductive Park where
  | load (kind : LoadKind) (addr : U32) (x : BitVec 5) (word : Nat) (at_ : Nat)
  | until (fc : Nat)
  | fence (kind : BitVec 2)
deriving DecidableEq, Repr

inductive RunState where
  | stopped
  | ready
  | waiting (w : Waiting)
  | parked (p : Park)
  | dry
deriving DecidableEq, Repr

/-- An entry that escalates and waits for safe mode to become free (R254, R389): vector, return address, status
word, XPC and XADDR. -/
structure Escalation where
  vec : BitVec 6
  ret : U16
  status : U32
  xpc : U16
  xaddr : U32
deriving DecidableEq, Repr

/-- What is due at a later fc edge: the stages of a flume (R168, R181), the ports of a nanoword (R301), posted
register stores (R264), timer actions of the next edge (R463), the lowering of an output enable (R131). -/
inductive Act where
  /-- Stage 1 of an affine computation with x1 (R168). -/
  | flumeAffine (n : BitVec 5) (x1 : BitVec 24)
  | flumeClamp (n : BitVec 5) (hi : Bool)
  /-- The commit of the computation of the period whose boundary fc was `per`. -/
  | flumeCommit (n : BitVec 5) (t : U40) (edge start : BitVec 2) (next : U40) (per : Nat)
  | flumeStart (n : BitVec 5) (op : BitVec 2) (t : U40)
  /-- The test of an action posted in fc `made` (R101, R108). -/
  | flumePost (n : BitVec 5) (out : BitVec 7) (op : BitVec 2) (t : U40) (made : Nat)
  | coef (ag : Agent) (fl : BitVec 5) (idx : BitVec 3) (v : U32)
  | seal (ag : Agent) (fl : BitVec 5)
  /-- A nanoword's edge-post port posts (R339). -/
  | edgePost (ag : Agent) (out : BitVec 7) (op : BitVec 2) (t : U40)
  /-- The test of an agent's action posted in fc `made` (R98, R101, R108). -/
  | outPost (ag : Agent) (out : BitVec 7) (op : BitVec 2) (t : U40) (made : Nat)
  | raise (src : BitVec 9)
  | regStore (ag : Agent) (pc : U16) (addr : U32) (v : U32)
  | timerStop (n : BitVec 5)
  | timerRestart (n : BitVec 5)
  | oeLower (n : BitVec 7)
  /-- The dry shut source of a thread asserts (R392). -/
  | dryShut (n : BitVec 4)
deriving DecidableEq, Repr

structure Due where
  at_ : Nat
  /-- Place within the fc (R98, R337, R463). -/
  rank : Nat
  act : Act
deriving DecidableEq, Repr

/-- A posted store to a register that waits behind a member store (R264, R727). -/
structure Blocked where
  agent : Agent
  posted : Posted
  v : U32
deriving DecidableEq, Repr

/-- A thread (R211, R286-R295, R398, R875, R876). -/
structure Thread where
  ctx : Ctx := {}
  run : RunState := .stopped
  /-- In safe mode (R253). -/
  safe : Bool := false
  escal : Option Escalation := none
  /-- The thread issues nothing before this fc (R375, R277, R263). -/
  holdUntil : Nat := 0
  /-- The thread as it was before the load it is parked on, for a load that faults (R367). -/
  before : Option Ctx := none
  /-- What the other units of the word with that load are to do, and its arithmetic causes: they come about when its data
  returns (R367; log entry 37). -/
  heldActs : List Due := []
  heldImp : List (Nat × U16) := []
  /-- The host address of the access that the thread is parked on (R260, R297). -/
  haddr : U48 := 0
  /-- A load that a reset left behind: its result still lands (R286). -/
  owing : Option Park := none
  owingAddr : U48 := 0
  /-- Pending imprecise causes (R366): vectors 5 and 12 with the word that stored and its address, vector 11 with the fcs
  in which its causes arise and their words (R354). -/
  imp5 : Option Posted := none
  imp11 : List (Nat × U16) := []
  imp12 : Option Posted := none
  /-- THREAD_STOP has named the thread (R573). -/
  stopReq : Bool := false
  hazchk : Bool := false
  maxmask : BitVec 3 := 0
  issue : U32 := 0
  /-- Words issued, the model's own count for distances (R242). -/
  words : Nat := 0
  /-- Stores to host memory and to members whose responses are still to come, oldest first (R264). -/
  stores : List Posted := []
  /-- Register stores that wait for room among the member stores, oldest first (R264, R727). -/
  blocked : List Blocked := []
  /-- XCTX[n] (R398): XSP, XRSP, XRSLO, XRSHI, XDSL. -/
  xctx : Vector U32 5 := Vector.replicate 5 0
  xvec : BitVec 6 := 0
  depth : Byte := 0
  xsw : Bool := false
  spill : Bool := false
  mon : Bool := false
  xpc : U16 := 0
  xaddr : U32 := 0
  /-- DTHR[n] (R875), MPC and MSTAT of the monitor entry (R861). -/
  halt : Bool := false
  cause : BitVec 4 := 0
  cmp : BitVec 3 := 0
  mpc : U16 := 0
  mstat : U32 := 0
  /-- DTHR[n].STEP; after a return with STEP = 1, one more than the words issued since (R865), otherwise 0. -/
  step : Bool := false
  stepWords : Nat := 0
  /-- RESUME is asked for (R864). -/
  resume : Bool := false
  /-- The next word, and a word it repeats, matches no comparator (R857). -/
  passOver : Bool := false
  /-- MONREQ and MONDATA (R876). -/
  monreq : U32 := 0
  mondata : U32 := 0
  /-- Parts 0 and 1 of an accumulator that the debugger has written since the monitor was entered (R876). -/
  part0 : Option U32 := none
  part1 : Option U32 := none
deriving DecidableEq, Repr

/-- A row of data memory stored to: what it held before, and the fc from which the store is seen by all (R246, R250). -/
structure RecentRow where
  row : Nat
  old : Row
  seen : Nat
deriving DecidableEq, Repr

/-- STWSEL of one requester and its staged nanoword (R893, R896). -/
structure Window where
  space : BitVec 2 := 0
  page : BitVec 2 := 0
  staged : Option (BitVec 12 × Vector U32 8) := none
deriving DecidableEq, Repr

structure Seq where
  thr : Vector Thread 16 := Vector.replicate 16 {}
  /-- The thread that last issued at each mask level (R215). -/
  last : Vector (BitVec 4) 8 := Vector.replicate 8 15
  /-- fc + 1 of the last issue, 0: none; and of the idle fc that R217 sets. -/
  issuedAt : Nat := 0
  idleAt : Nat := 0
  /-- The thread in safe mode (R300), and fc + 1 of its last issue (R253). -/
  safeThr : Option (BitVec 4) := some 15
  safeAt : Nat := 0
  hwin : BitVec 17 := 0
  /-- HWIN before the writes of fc `hwinAt - 1` (R297); `hwinAt` 0: none. -/
  hwinAt : Nat := 0
  hwinOld : BitVec 17 := 0
  scond : U16 := 0
  /-- SCOND as written directly in fc `scondAt - 1`, or before it, and what that fc sets and clears (R299); `scondAt` 0:
  none. -/
  scondAt : Nat := 0
  scondBase : U16 := 0
  scondSet : U16 := 0
  scondClr : U16 := 0
  excbase : BitVec 10 := 0
  spillpc : U16 := 0
  spilldsp : U32 := 0
  spillBase : U16 := 0
  spillRows : BitVec 12 := 0
  spilldsl : U32 := 0
  spActive : Bool := false
  spThr : BitVec 4 := 0
  spVec : BitVec 6 := 0
  spCount : U16 := 0
  spx : Vector U32 5 := Vector.replicate 5 0
  /-- PATCHVER (R284). -/
  verImg : Byte := 0
  verPatch : Byte := 0
  verLib : Byte := 0
  verHw : Byte := 0
deriving DecidableEq, Repr

/-- The control stores and memories: lists of what differs from the value of an unlisted place (0 for all of them),
in the canonical form of `Memory.wf`, and the places that hold an uncorrectable error (R31). -/
structure Stores where
  micro : List (Nat × U32) := []
  nano : List (Nat × BitVec 256) := []
  /-- Data memory, 1 MiB of bytes (R257). -/
  data : List Host.Cell := []
  badMicro : List Nat := []
  badNano : List Nat := []
  /-- Rows of data memory. -/
  badRow : List Nat := []
  recent : List RecentRow := []
  winApb : Window := {}
  winSeq : Window := {}
  winDbg : Window := {}
  /-- Gate tables: entry i of gate k at 4096 k + i (R410). -/
  gate : List (Nat × U16) := []
  /-- Ledger memory, 0x2_5000 bytes (R895). -/
  ledger : List Host.Cell := []
  /-- fc + 1 of the last access of a thread to data memory (R604); 0: none. -/
  accAt : Nat := 0
  /-- What the block has written to host memory, and what its exclusive accesses read there (R34). -/
  host : List Host.Cell := []
deriving DecidableEq, Repr

/-! ## Neran link (14, 15) -/

/-- A frame (R683) with its type and virtual lane (R661); `content` has LEN bytes. -/
structure Frame where
  ftype : BitVec 3
  vl : BitVec 2
  dst : BitVec 14 := 0
  bc : Bool := false
  src : BitVec 14 := 0
  part : Bool := false
  msgid : Byte := 0
  hops : BitVec 5 := 0
  sub : BitVec 3 := 0
  content : List Byte := []
  /-- The Gauge at the arrival of the last block (R719). -/
  came : U64 := 0
deriving DecidableEq, Repr

/-- A block waiting to be sent (R661): type, position in its frame, its 78 payload bytes; `cmd`: the LINK_SEND
(by its place in the order of reads) that this block, the last of its message, ends (R688). -/
structure TxBlock where
  ftype : BitVec 3
  pos : BitVec 2
  payload : List Byte
  cmd : Option Nat
deriving DecidableEq, Repr

/-- A frame under assembly on one virtual lane: its type, its payload bytes so far, its blocks so far; `bad`: a
codeword of it had a non-zero syndrome in near mode (R674, R685). -/
structure RxAsm where
  ftype : BitVec 3
  bytes : List Byte
  blocks : Nat
  bad : Bool
deriving DecidableEq, Repr

structure Lane where
  ffeovr : Bool := false
  st : BitVec 3 := 0
  pol : Bool := false
  lidx : BitVec 2 := 0
  skew : Byte := 0
  pre : BitVec 6 := 0
  main : BitVec 6 := 0x3F
  post : BitVec 6 := 0
  cerr : U32 := 0
  /-- The far end's MOD asks for PAM4, and its NEAR (R652). -/
  farPam4 : Bool := false
  farNear : Bool := false
  /-- The fc in which the lane entered DETECT (R653). -/
  detAt : Nat := 0
deriving DecidableEq, Repr

/-- A time exchange this block has begun on a port (R702). -/
structure Exchange where
  s : Byte
  t1 : U64
  t4 : Option U64
deriving DecidableEq, Repr

structure LinkPort where
  mod : BitVec 2 := 0
  near : Bool := false
  /-- MOD and NEAR with which the present training has begun (R656). -/
  tMod : BitVec 2 := 0
  tNear : Bool := false
  aint : BitVec 4 := 4
  st : BitVec 3 := 0
  pam4 : Bool := false
  nearact : Bool := false
  /-- ASEQ last received, and ASEQ last sent (R664, R669). -/
  aseq : Byte := 0
  txAseq : Byte := 0
  cwtot : U32 := 0
  cwcor : U32 := 0
  cwunc : U32 := 0
  oserr : U32 := 0
  corthr : U32 := 0
  txadj : U16 := 0
  rxadj : U16 := 0
  evt : Byte := 0
  shutrxn : U32 := 0
  /-- SEQ of the next codeword sent, and expected (R662, R670). -/
  txSeq : BitVec 3 := 0
  rxSeq : BitVec 3 := 0
  /-- Uncorrectable codewords in a row (R670). -/
  uncRun : BitVec 5 := 0
  /-- Units sent since the last align sent, and received since the last align received (R669, R670). -/
  txUnits : Nat := 0
  rxUnits : Nat := 0
  txLfsr : BitVec 31 := 0
  rxLfsr : BitVec 31 := 0
  /-- What the port last put on its lanes: the 680 bits of a codeword in sending order, and the copies of an ordered set
  on each logical lane (R658, R665); which of the two came last. -/
  txLine : BitVec 680 := 0
  txSet : Vector (List U64) 4 := Vector.replicate 4 []
  setLast : Bool := false
  /-- The Gauge at the last time exchange that this port began (R702). -/
  exchAt : Option U64 := none
  /-- Blocks waiting on each virtual lane (R685). -/
  txq : Vector (List TxBlock) 4 := Vector.replicate 4 []
  asm : Vector (Option RxAsm) 4 := Vector.replicate 4 none
  /-- Complete frames for this block, oldest first. -/
  inbox : List Frame := []
  /-- Credits held, credits owed to the far end, SENT and FREED (R689, R691). -/
  cred : Vector Byte 4 := Vector.replicate 4 0
  owed : Vector Nat 4 := Vector.replicate 4 0
  sent : Vector U16 4 := Vector.replicate 4 0
  freed : Vector U16 4 := Vector.replicate 4 0
  /-- Bit i: the codeword i before the last one carried a VL3 block (R690). -/
  vl3hist : U64 := 0
  prole : BitVec 2 := 0
  ndist : BitVec 5 := 0x1F
  nbrup : Bool := false
  /-- The neighbour's advertised group index, and whether its ADV has come (R725). -/
  ngidx : Option (BitVec 3) := none
  rlo : BitVec 14 := 0
  rhi : BitVec 14 := 0
  tdly : U32 := 0
  frtx : U32 := 0
  frrx : U32 := 0
  frdrop : U32 := 0
  /-- The candidate that the neighbour advertised last (R693). -/
  nrole : BitVec 2 := 0
  nkey : U32 := 0
  /-- What the down port's last COUNT reported: nodes of its subtree, its height, its nodes within depth 12 (R696). -/
  count : Option (Nat × Nat × Nat) := none
  /-- Sequence number of the next time marker; the exchange in progress; a neighbour's marker to be answered. -/
  tseq : Byte := 0
  exch : Option Exchange := none
  reply : Option (Byte × U64) := none
  /-- A CRESYNC is to be sent; one has been sent and its answer is awaited (R691). -/
  resync : Bool := false
  resyncWait : Bool := false
deriving DecidableEq, Repr

structure Pub where
  port : BitVec 5 := 0
  bc : Bool := false
  en : Bool := false
  chan : BitVec 12 := 0
  div : BitVec 4 := 0
  dst : BitVec 14 := 0
  /-- Samples landed since the last publication, and publications made modulo 16 (R721). -/
  skip : BitVec 4 := 0
  num : BitVec 4 := 0
deriving DecidableEq, Repr

structure Sub where
  src : BitVec 14 := 0
  any : Bool := false
  en : Bool := false
  chan : BitVec 12 := 0
  sig : Bool := false
  row : U16 := 0
  sbit : BitVec 4 := 0
deriving DecidableEq, Repr

/-- A route exception (R701, R730). -/
structure RouteExc where
  lo : BitVec 14 := 0
  hi : BitVec 14 := 0
  port : BitVec 2 := 0
  v : Bool := false
deriving DecidableEq, Repr

/-- A register access forwarded to a member and not yet answered (R726, R727). -/
structure Forwarded where
  agent : Agent
  member : BitVec 3
  addr : BitVec 20
  wr : Option U32
  strb : BitVec 4
  inspect : Bool
  msgid : Byte
deriving DecidableEq, Repr

structure Link where
  group : BitVec 3 := 4
  laneEn : BitVec 4 := 0
  cfgign : Bool := false
  lane : Vector Lane 4 := Vector.replicate 4 {}
  port : Vector LinkPort 4 := Vector.replicate 4 {}
  role : BitVec 2 := 0
  synt : Bool := true
  shrelay : Bool := true
  vl3max : BitVec 6 := 0x10
  kps : BitVec 3 := 1
  kis : BitVec 3 := 3
  cmden : Bool := true
  trapen : Bool := true
  netkey : U32 := 0
  node : BitVec 14 := 0
  valid : Bool := false
  depth : BitVec 4 := 0
  subhi : BitVec 14 := 0
  /-- The parent's node ID, of the last ASSIGN (R687). -/
  parent : BitVec 14 := 0
  master : Bool := false
  disc : Bool := false
  dupkey : Bool := false
  deep : Bool := false
  rtxfull : Bool := false
  stepblk : Bool := false
  noroute : Bool := false
  failover : Bool := false
  upport : Option (BitVec 2) := none
  netdrop : U32 := 0
  toffs : U32 := 0
  tdelay : U32 := 0
  stepthr : BitVec 24 := 0x10000
  lockthr : Byte := 8
  gidx : BitVec 3 := 0
  grpen : Bool := false
  aper : BitVec 4 := 0
  present : Byte := 0
  fwderr : Bool := false
  nrxBase : U16 := 0
  nrxK : BitVec 4 := 1
  nrxEn : Bool := false
  nrxHead : Byte := 0
  nrxTail : Byte := 0
  nrxLost : U32 := 0
  exc : Vector RouteExc 8 := Vector.replicate 8 {}
  pub : Vector Pub 8 := Vector.replicate 8 {}
  sub : Vector Sub 8 := Vector.replicate 8 {}
  /-- Best-ranked candidate known, and the distance to it (0x1F none) (R693). -/
  bestRole : BitVec 2 := 0
  bestKey : U32 := 0
  dist : BitVec 5 := 0x1F
  /-- Gauge value of the last change seen in the election, and of the loss of a valid distance (R693, R694). -/
  changedAt : U64 := 0
  lostAt : Option U64 := none
  /-- An enumeration runs; last result: nodes and depth (R696, R697). -/
  enumRun : Bool := false
  /-- The COUNT last sent up and its port (R696). -/
  sentCount : Option (Nat × Nat × Nat × Nat) := none
  /-- The ROLE and KEY with which the block stands in the present election (R694). -/
  eRole : BitVec 2 := 0
  eKey : U32 := 0
  enumNodes : BitVec 15 := 0
  enumDepth : BitVec 4 := 0
  /-- Time discipline (R703, R705): pend, freq, fraction accumulator, waiting carries. -/
  pend : U64 := 0
  freq : U64 := 0
  frac : U32 := 0
  carries : U64 := 0
  /-- Exchanges in a row within LOCKTHR, up to 8; DISC of the last TIME frame (R708). -/
  lockRun : BitVec 4 := 0
  upDisc : Bool := false
  /-- Shut sequence number; the recent shut orders: origin, sequence number, Gauge (R713, R716). -/
  shutSeq : Byte := 0
  recentShut : List (BitVec 14 × Byte × U64) := []
  /-- MSGID of the next message of this block (R683). -/
  msgid : Byte := 0
  fwd : List Forwarded := []
  /-- The Gauge at the last round of ADVs (R687). -/
  advAt : Option U64 := none
  /-- A WAKE frame to relay once awake (R712). -/
  wakeRelay : List Frame := []
deriving DecidableEq, Repr

/-! ## Life ledger (16) -/

structure LgCh where
  en : Bool := false
  mode : Bool := false
  record : BitVec 6 := 0
  bound : Bool := false
  dtw : U16 := 0x0100
  hyst : U16 := 0x0080
  tm0 : U16 := 0
  tmw : U16 := 0x0280
  /-- STAT[4:0] (R764). -/
  stat : BitVec 5 := 0
  ien : BitVec 5 := 0
  /-- A temperature written and not yet processed (R735); the last processed since binding (R744). -/
  tj : Option U16 := none
  last : Option U16 := none
  /-- DMG[63:32] as the last read of DMGL latched it, for the next read of DMGH (R764). -/
  dmgh : Option U32 := none
deriving DecidableEq, Repr

/-- Where a persistence stands (R752, R753). -/
inductive Persist where
  | idle
  /-- The area is being written: area, next record; the records are staged one by one. -/
  | writing (area : Nat) (next : Nat)
  /-- All records are programmed; the commit unit is being programmed. -/
  | committing (area : Nat)
deriving DecidableEq, Repr

structure Ledger where
  en : Bool := false
  shutp : Bool := true
  slpp : Bool := true
  pint : U16 := 0x0258
  first : BitVec 11 := 0
  narea : BitVec 4 := 1
  thr : Vector U16 4 := #v[0x0800, 0x0CCD, 0x0F33, 0x1000]
  loaded : Bool := false
  ppend : Bool := false
  perr : Bool := false
  loaderr : Bool := false
  wign : Bool := false
  area : BitVec 4 := 0
  seq : U32 := 0
  maddr : BitVec 18 := 0
  mainc : Bool := false
  ch : Vector LgCh 16 := Vector.replicate 16 {}
  persist : Persist := .idle
  /-- A persistence is due and has not begun; Gauge at the last one (R752). -/
  due : Bool := false
  lastAt : U64 := 0
  /-- Areas passed over by persistences that failed since the last commit (R755). -/
  skip : Nat := 0
  /-- Multiples of 2^27 sub-ticks that the Gauge has passed and whose tick has not run (R744). -/
  ticks : Nat := 0
deriving DecidableEq, Repr

/-! ## NVM controller (17) -/

/-- The content of an option copy (R773), with the defaults of a part without a valid copy. -/
structure Opt where
  gen : U32 := 0
  rolelock : Bool := false
  actlock : Bool := false
  optbad : BitVec 3 := 0
  slotaFirst : BitVec 11 := 0
  slotaLen : BitVec 11 := 0
  slotbFirst : BitVec 11 := 0
  slotbLen : BitVec 11 := 0
  active : Bool := false
  actv : Bool := false
  fwFirst : BitVec 11 := 0
  fwLen : BitVec 11 := 0
  refsel : BitVec 2 := 2
  role : BitVec 2 := 0
  gidx : BitVec 3 := 0
  grpen : Bool := false
  netkey : U32 := 0xFFFFFFFF
  nbank : BitVec 3 := 4
  sect : BitVec 10 := 512
  spr : BitVec 5 := 0
  trd : BitVec 4 := 15
  tvf : Byte := 255
  trcv : U16 := 1250
  tpp : U16 := 10000
  tep : U16 := 10000
  npmax : Byte := 8
  nemax : Byte := 16
  wearthr : Byte := 8
  spused : U32 := 0
  dkey : Vector (BitVec 128) 3 := Vector.replicate 3 0
  bistLogic : U64 := 0
  bistMem : U64 := 0
  spmap : Vector U32 128 := Vector.replicate 128 0
deriving DecidableEq, Repr

/-- A place in the macro (R769): bank and physical sector. -/
structure NvmPlace where
  bank : BitVec 2
  phys : BitVec 10
deriving DecidableEq, Repr

/-- One step of a job. A place of none is where the logical sector lies when the step begins (R765, R787). -/
inductive NvmOp where
  | erase (at_ : Option NvmPlace) (sector : Nat)
  /-- Programs a unit; `blank`: it must be erased (R782); `bad`: a copy of an uncorrectable unit (R787). -/
  | program (at_ : Option NvmPlace) (unit : BitVec 9) (data : BitVec 256) (blank bad : Bool) (sector : Nat)
  /-- The spare of that index holds the sector: the spare map is to record it (R787). -/
  | retired (sector : Nat) (spare : Nat)
  /-- Option copy c is to be rewritten; option copy c is to be read back and checked (R776). -/
  | copy (c : Nat)
  | check (c : Nat)
deriving DecidableEq, Repr

/-- What an option change changes (R776, R777): the active slot, the role, a spare-map entry with its state, nothing. -/
inductive OptChange where
  | active (slot : Bool)
  | role (r : BitVec 2)
  | map (sector : Nat) (spare : Nat) (state : BitVec 2)
  | repair
deriving DecidableEq, Repr

/-- Whose job it is: the command with that place in the order of reads, a ledger persistence, the background erase of
the ledger's next area, an option change. -/
inductive NvmWho where
  | cmd (seq : Nat)
  | persist
  | ledgerErase
  | option (change : OptChange)
deriving DecidableEq, Repr

structure NvmJob where
  who : NvmWho
  ops : List NvmOp := []
  /-- Sectors erased or bytes programmed, or option copies written and checked; sectors retired; largest excess over
  WEARTHR and its sector (R781, R782). -/
  done : Nat := 0
  retired : Nat := 0
  excess : Nat := 0
  excessAt : Nat := 0
  /-- The job is at work on a spare: for this failed logical sector, and what the step it replaces adds to `done`
  (R787). -/
  retiring : Option (Nat × Nat) := none
  /-- A copied unit of the failed sector was uncorrectable (R787). -/
  badCopy : Bool := false
  /-- Units of the failed sector that are copied with their correctable errors, as their 36 stored bytes (R787). -/
  weakCopy : List (BitVec 9) := []
  /-- The job waits for the option change that records its retirement (R787). -/
  waits : Bool := false
  /-- The content that an option change writes, once it has begun (R776). -/
  content : Option Opt := none
deriving DecidableEq, Repr

/-- The running erase or program (R785, R786): whole pulses so far, fc of its start or last resume, suspended. -/
structure NvmRun where
  pulses : Nat
  since : Nat
  susp : Bool
deriving DecidableEq, Repr

structure Nvm where
  /-- The macro's units that are not erased: bank * 2^19 + physical sector * 2^9 + unit, and its 32 data bytes. -/
  units : List (Nat × BitVec 256) := []
  /-- Units with an uncorrectable error, and with a correctable one (R31, R767). -/
  bad : List Nat := []
  weak : List Nat := []
  /-- Sectors and units whose contents are undefined: under a pulse, cut short, or failed (R789, R795, R798). -/
  undefSec : List Nat := []
  undefUnit : List Nat := []
  opt : Opt := {}
  minrun : U16 := 0x0190
  wearthr : Byte := 8
  suspReq : Bool := false
  prov : Bool := false
  optok : BitVec 3 := 0
  wear : Bool := false
  retire : Bool := false
  exh : Bool := false
  uncor : Bool := false
  optrep : Bool := false
  optweak : Bool := false
  pref : Bool := false
  corr : U16 := 0
  unc : U16 := 0
  failSector : BitVec 11 := 0
  failCause : BitVec 4 := 0
  failPulses : Byte := 0
  /-- Jobs in the order in which their next operations were requested; the first is under way (R784). -/
  jobs : List NvmJob := []
  run : Option NvmRun := none
  /-- Uncorrectable reads of boot stages 1-3, whose source 387 is raised at stage 8 (R796). -/
  bootUnc : Bool := false
deriving DecidableEq, Repr

/-! ## Power, reset and boot (18) -/

/-- PWRSTAT.STATE (R804). -/
inductive PowerState where
  | run
  | doze
  | sleep
  | deep
deriving DecidableEq, Repr

structure Power where
  st : PowerState := .run
  woen : Bool := false
  plllock : Bool := false
  trans : Bool := false
  pllloss : Bool := false
  wakeen : BitVec 6 := 0
  wakesrc : BitVec 7 := 0
  wakeTally : U48 := 0
  linken : Bool := false
  rstcause : Byte := 1
  fwok : Bool := false
  fwfail : Bool := false
  imgok : Bool := false
  imgfail : Bool := false
  noimg : Bool := false
  direct : Bool := false
  stage : BitVec 4 := 1
  /-- Boot duration (R835): a free value from the end of the boot on. -/
  time : U16 := 0
  /-- Warm resets requested and not yet recognised, by their RSTCAUSE bits (R819-R821, R430, R76). -/
  rstReq : Byte := 0
  /-- Every outlet is held at SAFE: by a power-on reset until READY (R80), by another reset until the boot starts (R63). -/
  rstSafe : Bool := true
  /-- A wake is under way from SLEEP or DEEP (R812). -/
  waking : Bool := false
  /-- The Gauge at PLL lock comes from AO retention (R813, R885). -/
  restore : Bool := false
  /-- Rider pins held over SLEEP (R808): values and enables of rdr_o. -/
  riderHold : Option (U64 × U64) := none
  /-- At the release of pad hold out_oe_o takes the value that OEN gives (R816); after SLEEP it keeps its own. -/
  oeHold : Bool := false
  /-- The reset under way is a warm reset: the link keeps its configuration (R673). -/
  warm : Bool := false
  /-- dbg_por_n has fallen while BIST ran: the debug reset is held until BIST completes (R883). -/
  dbgHeld : Bool := false
  /-- AO retention (R813, R880): Gauge, RATIO, WDOG[7:0], WDPER, WDCLS. -/
  aoGauge : U64 := 0
  aoRatio : U48 := 0
  aoWdog : Option (Byte × BitVec 24 × BitVec 24) := none
  /-- HOLDREL has been written (R816). -/
  holdrel : Bool := false
  /-- A PLL loss waits for its reset request (R821). -/
  pllDue : Bool := false
deriving DecidableEq, Repr

/-! ## Inspection port and debug (19) -/

/-- An address comparator (R874). -/
structure Cmp where
  kind : BitVec 2 := 0
  act : BitVec 2 := 0
  rw : BitVec 2 := 0
  tmask : U16 := 0
  vall : U32 := 0
  valh : U16 := 0
  mask : U32 := 0
deriving DecidableEq, Repr

/-- A debug bus master access that has not completed (R851): a write's data, or a read. -/
structure DbAccess where
  wr : Option U32
deriving DecidableEq, Repr

structure Debug where
  level : BitVec 2 := 0
  polmax : BitVec 2 := 3
  pollock : Bool := false
  keyv : Bool := false
  key : Vector (BitVec 128) 3 := Vector.replicate 3 0
  noncev : Bool := false
  nonce : U64 := 0
  /-- Counter in AO behind NONCEL (R847). -/
  nonceCnt : U32 := 0
  chal : BitVec 2 := 0
  lockout : Bool := false
  fails : Byte := 0
  mac : Vector U32 4 := Vector.replicate 4 0
  nosleep : Bool := false
  frzTmr : Bool := false
  frzRider : Bool := false
  frzCul : Bool := false
  frzLedger : Bool := false
  frzEdge : Bool := false
  frzForce : Bool := false
  frzMask : U16 := 0
  /-- A freeze is active (R868). -/
  frozen : Bool := false
  dbal : U32 := 0
  dbah : U16 := 0
  space : BitVec 2 := 0
  size : BitVec 2 := 2
  ainc : Bool := false
  data : U32 := 0
  /-- A completed read whose data a later read of DBDATA returns (R851). -/
  ready : Bool := false
  access : Option DbAccess := none
  err : Bool := false
  cause : BitVec 3 := 0
  cmp : Vector Cmp 8 := Vector.replicate 8 {}
  /-- The last response frame sent: status and data (R840, R844), with its CRC (R842). -/
  rspStatus : BitVec 4 := 0
  rspData : U32 := 0
  rspCrc : BitVec 4 := 0
  /-- The response to a read of DBDATA that has started an access is still to be sent (R851). -/
  frame : Bool := false
deriving DecidableEq, Repr

/-! ## Built-in self-test (20) -/

inductive BistPhase where
  | idle
  | logic
  | memory
  /-- The tests are over; the post-BIST reset is due (R885). -/
  | reset
deriving DecidableEq, Repr

structure Bist where
  valid : Bool := false
  lrun : Bool := false
  mrun : Bool := false
  lmis : Bool := false
  mmis : Bool := false
  lnoref : Bool := false
  mnoref : Bool := false
  dbg : Bool := false
  refd : Bool := false
  mfail : Byte := 0
  time : Byte := 0
  cid : U16 := 0
  ring : BitVec 2 := 0
  member : BitVec 3 := 0
  irq : Bool := false
  pend : Bool := false
  logicSig : U64 := 0
  memSig : U64 := 0
  phase : BistPhase := .idle
  /-- A start is accepted and steps 1-4 of R880 are under way. -/
  starting : Bool := false
  /-- LOGIC and MEMORY of the start: memory BIST follows logic BIST (R883). -/
  wantLogic : Bool := false
  wantMem : Bool := false
  /-- The owed completion goes to the link, as the RESP to that CMD frame (R881): port, source node, tag word. -/
  origin : Option (BitVec 2 × BitVec 14 × U32) := none
deriving DecidableEq, Repr

/-! ## Whole -/

/-- What the last APB access answered (R37, R38): PRDATA and PSLVERR. -/
structure Apb where
  rdata : U32 := 0
  slverr : Bool := false
deriving DecidableEq, Repr

/-- The state of the block. -/
structure State where
  /-- The commands that are waiting, first in, first out. -/
  pending : List Instr := []
  clk : Clk := {}
  ports : Ports := {}
  out : Vector Outlet 96 := Vector.replicate 96 {}
  outcal : OutCal := {}
  tur : Turnout := {}
  gate : Vector Gate 8 := Vector.replicate 8 {}
  shut : Shut := {}
  wdog : Wdog := {}
  fl : Vector Flume 32 := Vector.replicate 32 {}
  tmr : Vector Timer 32 := Vector.replicate 32 {}
  gp : GaugePage := {}
  rider : Rider := {}
  cul : Culvert := {}
  hg : Headgate := {}
  seq : Seq := {}
  mem : Stores := {}
  link : Link := {}
  lg : Ledger := {}
  nvm : Nvm := {}
  pwr : Power := {}
  dbg : Debug := {}
  bist : Bist := {}
  /-- What is due at later fc edges. -/
  due : List Due := []
  apb : Apb := {}
  /-- The model's own counter of free values drawn (Config.freeValue, Config.freeBit). -/
  free : Nat := 0
deriving DecidableEq, Repr

/-- The block right after power-on reset (R818): every field at its reset value, nothing listed in any memory, no command
waiting. Boot stage 4 starts T15 (R823). -/
def State.reset : State := {}

end Sys2Proof.Machine
end

