-- ==== Sys2Proof/Machine/Bits.lean ====
section
/-! DEFINITION. Bit fields, tables, byte order and the 40-bit timestamps of R91-R93. -/

namespace Sys2Proof.Machine

/-! ## Tables -/

/-- Entry `i` of a table, or `d` past its end. -/
def vget {α : Type} {n : Nat} (v : Vector α n) (i : Nat) (d : α) : α :=
  if h : i < n then v[i] else d

/-- The table with entry `i` changed by `f`; unchanged when there is no such entry. -/
def vmod {α : Type} {n : Nat} (v : Vector α n) (i : Nat) (f : α → α) : Vector α n :=
  if h : i < n then v.set i (f v[i]) h else v

def vset {α : Type} {n : Nat} (v : Vector α n) (i : Nat) (x : α) : Vector α n :=
  vmod v i (fun _ => x)

/-! ## Fields -/

/-- Bits [lo + len - 1:lo] of a word. -/
def fd {w : Nat} (v : BitVec w) (lo len : Nat) : BitVec len := v.extractLsb' lo len

/-- Bit i of a word. -/
def bit {w : Nat} (v : BitVec w) (i : Nat) : Bool := v.getLsbD i

def b1 (b : Bool) : Nat := if b then 1 else 0

/-- The 32-bit word with each value at its place: (lowest bit, value). -/
def pk (fs : List (Nat × Nat)) : U32 :=
  BitVec.ofNat 32 (fs.foldl (fun a p => a ||| (p.2 <<< p.1)) 0)

/-- The word with bit `i` set or cleared. -/
def setBit {w : Nat} (v : BitVec w) (i : Nat) (b : Bool) : BitVec w :=
  if b then v ||| (1#w <<< i) else v &&& ~~~(1#w <<< i)

/-- The numbers of the bits that are 1, rising. -/
def bitsOf {w : Nat} (v : BitVec w) : List Nat := (List.range w).filter (fun i => v.getLsbD i)

/-- The word whose bit i is `f i`. -/
def bitsFrom (w : Nat) (f : Nat → Bool) : BitVec w :=
  BitVec.ofNat w ((List.range w).foldl (fun a i => if f i then a + 2 ^ i else a) 0)

/-- W1C (R11): the flags that the written ones clear. -/
def w1c {w : Nat} (old new : BitVec w) : BitVec w := old &&& ~~~new

/-- Two's-complement reading of the low `w` bits. -/
def sx {w : Nat} (v : BitVec w) : Int := v.toInt

/-- `x` held within `[lo, hi]`. -/
def clampI (lo hi x : Int) : Int := if x < lo then lo else if hi < x then hi else x

/-- Floor division by 2^k, exact on integers of both signs. -/
def shrI (x : Int) (k : Nat) : Int := x / (2 ^ k : Int)

/-- Byte i (0 lowest) of a value. -/
def byteOf {w : Nat} (v : BitVec w) (i : Nat) : Byte := v.extractLsb' (8 * i) 8

/-- The `n` low bytes of a value, lowest first. -/
def bytesLE {w : Nat} (v : BitVec w) (n : Nat) : List Byte := (List.range n).map (byteOf v)

/-- The value of little-endian bytes. -/
def natLE (l : List Byte) : Nat := l.foldr (fun b a => a * 256 + b.toNat) 0

def ofLE (w : Nat) (l : List Byte) : BitVec w := BitVec.ofNat w (natLE l)

/-- Byte `i` of a list, zero past its end. -/
def lget (l : List Byte) (i : Nat) : Byte := l.getD i 0

/-- The list cut or padded with zeros to `n` bytes. -/
def padTo (n : Nat) (l : List Byte) : List Byte := l.take n ++ List.replicate (n - l.length) 0

/-- The bytes written with their strobes over a word. -/
def strobed (old new : U32) (strb : BitVec 4) : U32 :=
  ofLE 32 ((List.range 4).map (fun i => if bit strb i then byteOf new i else byteOf old i))

/-- A list cut into pieces of `n` (at most `fuel` of them). -/
def chunksF {α : Type} (n : Nat) : Nat → List α → List (List α)
  | 0, _ => []
  | fuel + 1, l => if l.isEmpty then [] else l.take n :: chunksF n fuel (l.drop n)

def chunks {α : Type} (n : Nat) (l : List α) : List (List α) := chunksF n (l.length + 1) l

/-- The least element of a list by a measure, the first of equals. -/
def leastBy {α : Type} (f : α → Nat) : List α → Option α
  | [] => none
  | a :: l =>
    match leastBy f l with
    | none => some a
    | some b => if f b < f a then some b else some a

/-- The first number from `start` upward, modulo `n`, for which `p` holds. -/
def firstFrom (n start : Nat) (p : Nat → Bool) : Option Nat :=
  ((List.range n).map (fun k => (start + k) % n)).find? p

/-! ## Timestamps (R91-R93) -/

/-- The lead of a timestamp (R92). -/
def lead40 (t : U40) (g : U64) : Nat := (t - g.truncate 40).toNat

def inFuture (t : U40) (g : U64) : Bool := let d := lead40 t g; d != 0 && decide (d < 2 ^ 39)

def inPast (t : U40) (g : U64) : Bool := decide (2 ^ 39 ≤ lead40 t g)

/-- Order of two timestamps from one Gauge value (R93): a past one ranks below every other. -/
def rank40 (t : U40) (g : U64) : Nat :=
  let d := lead40 t g
  if 2 ^ 39 ≤ d then 0 else d + 1

/-- The later of two timestamps (R93). -/
def later40 (a b : U40) (g : U64) : U40 := if rank40 a g < rank40 b g then b else a

/-- The fc that begins at Gauge g and lasts `adv` sub-ticks contains the timestamp, or it lies in the past. -/
def reached40 (t : U40) (g : U64) (adv : Nat) : Bool :=
  let d := lead40 t g
  decide (d < adv) || decide (2 ^ 39 ≤ d)

/-- R905: a move of m sub-ticks from g passes over the timestamp. -/
def passedBy (t : U40) (g : U64) (m : Nat) : Bool :=
  decide (2 ^ 40 ≤ m) || (decide (1 ≤ lead40 t g) && decide (lead40 t g ≤ m))

/-- Sign-extended to 40 bits. -/
def sx40 {w : Nat} (v : BitVec w) : U40 := v.signExtend 40

end Sys2Proof.Machine
end

