-- ==== Sys2Proof/Machine/Codes.lean ====
section
/-! DEFINITION. The codes that several units use: CRC-32C (R609), the CRC-4 of the inspection port (R842), the codeword
RS(68,64) of the link (R660), its scrambler (R663), and AES-128 with CMAC (R845). -/

namespace Sys2Proof.Machine

/-! ## CRCs -/

def crc32cBits (b : Byte) : Nat → U32 → U32
  | 0, c => c
  | k + 1, c => crc32cBits b k (if bit c 0 then (c >>> 1) ^^^ 0x82F63B78#32 else c >>> 1)

/-- One byte into a running CRC-32C: 0x1EDC_6F41, reflected (R609). -/
def crc32cByte (c : U32) (b : Byte) : U32 := crc32cBits b 8 (c ^^^ b.zeroExtend 32)

/-- The running CRC-32C over more bytes, before the final XOR. -/
def crc32cRun (c : U32) (l : List Byte) : U32 := l.foldl crc32cByte c

/-- CRC-32C of bytes (R609). -/
def crc32c (l : List Byte) : U32 := ~~~(crc32cRun 0xFFFFFFFF#32 l)

/-- One bit into the CRC-4 with x^4 + x + 1 (R842). -/
def crc4Bit (c : BitVec 4) (b : Bool) : BitVec 4 :=
  if (bit c 3) != b then (c <<< 1) ^^^ 0x3#4 else c <<< 1

/-- CRC-4 of bits in sending order, from 0b0000 (R842). -/
def crc4 (l : List Bool) : BitVec 4 := l.foldl crc4Bit 0

/-! ## GF(2^10) and RS(68,64) -/

def gf10MulF : Nat → Nat → Nat → Nat → Nat
  | 0, _, _, r => r
  | k + 1, a, b, r =>
    gf10MulF k (if a.testBit 9 then (a * 2) ^^^ 0x409 else a * 2) (b / 2) (if b % 2 = 1 then r ^^^ a else r)

/-- Product in GF(2^10) with x^10 + x^3 + 1 (R660). -/
def gf10Mul (a b : Nat) : Nat := gf10MulF 10 a b 0

def gf10PowF : Nat → Nat → Nat → Nat → Nat
  | 0, _, _, r => r
  | k + 1, a, e, r => gf10PowF k (gf10Mul a a) (e / 2) (if e % 2 = 1 then gf10Mul r a else r)

def gf10Pow (a e : Nat) : Nat := gf10PowF 10 a e 1

/-- The inverse of a non-zero element. -/
def gf10Inv (a : Nat) : Nat := gf10Pow a 1022

/-- α^e, with α = 2. -/
def gf10Alpha (e : Nat) : Nat := gf10Pow 2 e

/-- One message symbol into the remainder by the generator (highest coefficient first). -/
def rsStep (g : List Nat) (r : List Nat) (m : Nat) : List Nat :=
  let fb := r.headD 0 ^^^ m
  List.zipWith (fun x c => x ^^^ gf10Mul fb c) (r.drop 1 ++ [0]) g

/-- The generator (x − α^0)(x − α^1)(x − α^2)(x − α^3) without its leading 1, highest coefficient first (R660). -/
def rsGen : List Nat :=
  let mulBy (p : List Nat) (a : Nat) : List Nat := List.zipWith (· ^^^ ·) (p ++ [0]) (0 :: p.map (gf10Mul a))
  (([1, 2, 4, 8].foldl mulBy [1])).drop 1

/-- The four check symbols of 64 message symbols (R660). -/
def rsCheck (msg : List Nat) : List Nat := msg.foldl (rsStep rsGen) [0, 0, 0, 0]

/-- Syndrome j of the 68 symbols. -/
def rsSyn (w : List Nat) (j : Nat) : Nat :=
  let a := gf10Alpha j
  w.foldl (fun s c => gf10Mul s a ^^^ c) 0

/-- What the decoder finds: the corrected symbols and the places of the errors; none: more than two errors. -/
def rsDecode (w : List Nat) : Option (List Nat × List Nat) :=
  let s0 := rsSyn w 0; let s1 := rsSyn w 1; let s2 := rsSyn w 2; let s3 := rsSyn w 3
  let fix (l : List (Nat × Nat)) : List Nat :=
    w.zipIdx.map (fun p => l.foldl (fun v e => if e.1 = p.2 then v ^^^ e.2 else v) p.1)
  let loc (k : Nat) : Nat := gf10Alpha (67 - k)
  if s0 = 0 && s1 = 0 && s2 = 0 && s3 = 0 then some (w, [])
  else
    let det := gf10Mul s1 s1 ^^^ gf10Mul s0 s2
    if det = 0 then
      match (List.range 68).find? (fun k =>
          s0 != 0 && gf10Mul s0 (loc k) = s1 && gf10Mul s1 (loc k) = s2 && gf10Mul s2 (loc k) = s3) with
      | some k => some (fix [(k, s0)], [k])
      | none => none
    else
      let di := gf10Inv det
      let a := gf10Mul (gf10Mul s2 s1 ^^^ gf10Mul s0 s3) di
      let b := gf10Mul (gf10Mul s1 s3 ^^^ gf10Mul s2 s2) di
      match (List.range 68).filter (fun k => gf10Mul (loc k) (loc k) ^^^ gf10Mul a (loc k) ^^^ b = 0) with
      | [k1, k2] =>
        let y1 := gf10Mul (s1 ^^^ gf10Mul s0 (loc k2)) (gf10Inv (loc k1 ^^^ loc k2))
        some (fix [(k1, y1), (k2, s0 ^^^ y1)], [k1, k2])
      | _ => none

/-- The 64 symbols of a block's 80 bytes (R659). -/
def blockSymbols (b : List Byte) : List Nat :=
  let v := ofLE 640 b
  (List.range 64).map (fun k => (fd v (10 * k) 10).toNat)

/-- The 80 bytes of 64 symbols (R659). -/
def symbolsBlock (l : List Nat) : List Byte :=
  let v : BitVec 640 := BitVec.ofNat 640 ((l.take 64).foldr (fun x a => a * 1024 + x) 0)
  bytesLE v 80

/-! ## Scrambler -/

/-- One step of the additive LFSR x^31 + x^28 + 1 (R663): the next state and the bit it gives (log entry 5). -/
def lfsrStep (s : BitVec 31) : BitVec 31 × Bool :=
  let b := (bit s 30) != (bit s 27)
  ((s <<< 1) ||| (if b then 1#31 else 0#31), b)

def scrambleF : Nat → Nat → BitVec 31 → BitVec 680 → BitVec 680 × BitVec 31
  | 0, _, s, v => (v, s)
  | k + 1, i, s, v =>
    let p := lfsrStep s
    scrambleF k (i + 1) p.1 (if p.2 then v ^^^ (1#680 <<< i) else v)

/-- The 680 bits of a codeword through the scrambler, in sending order (R663). -/
def scramble (s : BitVec 31) (v : BitVec 680) : BitVec 680 × BitVec 31 := scrambleF 680 0 s v

/-! ## AES-128 and CMAC (R845) -/

def gf8MulF : Nat → Nat → Nat → Nat → Nat
  | 0, _, _, r => r
  | k + 1, a, b, r =>
    gf8MulF k (if a.testBit 7 then ((a * 2) ^^^ 0x11B) else a * 2) (b / 2) (if b % 2 = 1 then r ^^^ a else r)

def gf8Mul (a b : Nat) : Nat := gf8MulF 8 a b 0

def gf8PowF : Nat → Nat → Nat → Nat → Nat
  | 0, _, _, r => r
  | k + 1, a, e, r => gf8PowF k (gf8Mul a a) (e / 2) (if e % 2 = 1 then gf8Mul r a else r)

/-- The byte substitution of AES. -/
def aesSub (x : Nat) : Nat :=
  let y := BitVec.ofNat 8 (gf8PowF 8 x 254 1)
  (y ^^^ y.rotateLeft 1 ^^^ y.rotateLeft 2 ^^^ y.rotateLeft 3 ^^^ y.rotateLeft 4 ^^^ 0x63#8).toNat

def natXor : List Nat → List Nat → List Nat := List.zipWith (· ^^^ ·)

/-- The next round key: 16 bytes. -/
def aesNextKey (k : List Nat) (rcon : Nat) : List Nat :=
  let l := k.drop 12
  let t := (l.drop 1 ++ l.take 1).map aesSub
  let w0 := natXor (k.take 4) (natXor t [rcon, 0, 0, 0])
  let w1 := natXor ((k.drop 4).take 4) w0
  let w2 := natXor ((k.drop 8).take 4) w1
  w0 ++ w1 ++ w2 ++ natXor l w2

def aesShiftRows (s : List Nat) : List Nat :=
  (List.range 16).map (fun i => s.getD ((i + 4 * (i % 4)) % 16) 0)

def aesMixCol (c : List Nat) : List Nat :=
  let a (i : Nat) := c.getD (i % 4) 0
  (List.range 4).map (fun i => gf8Mul 2 (a i) ^^^ gf8Mul 3 (a (i + 1)) ^^^ a (i + 2) ^^^ a (i + 3))

def aesMix (s : List Nat) : List Nat :=
  aesMixCol (s.take 4) ++ aesMixCol ((s.drop 4).take 4) ++ aesMixCol ((s.drop 8).take 4) ++ aesMixCol (s.drop 12)

def aesRounds : Nat → List Nat → Nat → List Nat → List Nat
  | 0, k, rc, s => natXor (aesShiftRows (s.map aesSub)) (aesNextKey k rc)
  | n + 1, k, rc, s =>
    let k' := aesNextKey k rc
    aesRounds n k' (gf8Mul 2 rc) (natXor (aesMix (aesShiftRows (s.map aesSub))) k')

/-- AES-128 of one block: key and block as 16 bytes, first byte first. -/
def aesEncrypt (key blk : List Nat) : List Nat := aesRounds 9 key 1 (natXor blk key)

/-- 16 bytes as one number, first byte most significant. -/
def natBE (l : List Nat) : Nat := l.foldl (fun a b => a * 256 + b) 0

def bytesBE (n v : Nat) : List Nat := (List.range n).map (fun i => v / 256 ^ (n - 1 - i) % 256)

/-- The doubling of CMAC's subkeys. -/
def cmacDbl (l : List Nat) : List Nat :=
  let v := natBE l
  bytesBE 16 (((v * 2) % 2 ^ 128) ^^^ (if v / 2 ^ 127 % 2 = 1 then 0x87 else 0))

/-- AES-128 CMAC of a message of 1-16 bytes, first byte first. -/
def cmac16 (key msg : List Nat) : List Nat :=
  let k1 := cmacDbl (aesEncrypt key (List.replicate 16 0))
  let m :=
    if msg.length = 16 then natXor msg k1
    else natXor (msg ++ [0x80] ++ List.replicate (15 - msg.length) 0) (cmacDbl k1)
  aesEncrypt key m

end Sys2Proof.Machine
end

