-- ==== Sys2Proof/Machine/Memory.lean ====
section
/-! DEFINITION. Memories as lists of what differs from the value of an unlisted place, in one canonical form: places
rising, none listed with the value that an unlisted place reads as. -/

namespace Sys2Proof.Machine

/-- What place `k` holds; `d` when it is not listed. -/
def sget {β : Type} (d : β) (k : Nat) : List (Nat × β) → β
  | [] => d
  | (a, x) :: t => if a = k then x else sget d k t

/-- Place `k` holds `x` from now on. -/
def sput {β : Type} [DecidableEq β] (d : β) (k : Nat) (x : β) : List (Nat × β) → List (Nat × β)
  | [] => if x = d then [] else [(k, x)]
  | (a, y) :: t =>
    if k < a then (if x = d then (a, y) :: t else (k, x) :: (a, y) :: t)
    else if k = a then (if x = d then t else (k, x) :: t)
    else (a, y) :: sput d k x t

/-- The places rise strictly from `lo` on and none holds `d`. -/
def swfFrom {β : Type} [DecidableEq β] (d : β) (lo : Nat) : List (Nat × β) → Bool
  | [] => true
  | (a, x) :: t => decide (lo ≤ a) && decide (x ≠ d) && swfFrom d (a + 1) t

/-- The canonical form. -/
def Memory.wf {β : Type} [DecidableEq β] (d : β) (l : List (Nat × β)) : Bool := swfFrom d 0 l

/-- A set of places, as a rising list: place `k` is in it or not from now on. -/
def mark (k : Nat) (b : Bool) : List Nat → List Nat
  | [] => if b then [k] else []
  | a :: t =>
    if k < a then (if b then k :: a :: t else a :: t)
    else if k = a then (if b then a :: t else t)
    else a :: mark k b t

def marked (k : Nat) (l : List Nat) : Bool := l.contains k

/-- Byte `a` of a byte memory; an unlisted byte is 0 (log entry 4). -/
def memByte (m : List Host.Cell) (a : Nat) : Byte := sget 0 a m

def memPut (m : List Host.Cell) (a : Nat) (b : Byte) : List Host.Cell := sput 0 a b m

/-- `n` bytes from `a`. -/
def memRead (m : List Host.Cell) (a n : Nat) : List Byte := (List.range n).map (fun i => memByte m (a + i))

/-- The bytes of `l` from `a` on. -/
def memWrite (m : List Host.Cell) (a : Nat) : List Byte → List Host.Cell
  | [] => m
  | b :: t => memWrite (memPut m a b) (a + 1) t

/-- Row r of data memory (R257). -/
def dataRow (s : State) (r : Nat) : Row := ofLE 128 (memRead s.mem.data (16 * r) 16)

/-- Word i of Rider program memory (R523). -/
def progWord (s : State) (i : Nat) : U32 := sget 0 i s.rider.prog

end Sys2Proof.Machine
end

