-- ==== Sys2Proof/Machine/Ops.lean ====
section
/-! DEFINITION. The operations that every unit uses: reading and changing an instance, agents and what they see of an
access, host memory, free values, the raising of Turnout sources, and moves of the Gauge. -/

namespace Sys2Proof.Machine

/-! ## Instances -/

def State.outlet (s : State) (n : Nat) : Outlet := vget s.out n {}
def State.modOut (s : State) (n : Nat) (f : Outlet → Outlet) : State := { s with out := vmod s.out n f }
def State.flume (s : State) (n : Nat) : Flume := vget s.fl n {}
def State.modFl (s : State) (n : Nat) (f : Flume → Flume) : State := { s with fl := vmod s.fl n f }
def State.timer (s : State) (n : Nat) : Timer := vget s.tmr n {}
def State.modTmr (s : State) (n : Nat) (f : Timer → Timer) : State := { s with tmr := vmod s.tmr n f }
def State.getGate (s : State) (k : Nat) : Gate := vget s.gate k {}
def State.modGate (s : State) (k : Nat) (f : Gate → Gate) : State := { s with gate := vmod s.gate k f }
def State.rch (s : State) (n : Nat) : RiderCh := vget s.rider.ch n {}
def State.modRch (s : State) (n : Nat) (f : RiderCh → RiderCh) : State :=
  { s with rider := { s.rider with ch := vmod s.rider.ch n f } }
def State.culCh (s : State) (n : Nat) : CulCh := vget s.cul.ch n {}
def State.modCul (s : State) (n : Nat) (f : CulCh → CulCh) : State :=
  { s with cul := { s.cul with ch := vmod s.cul.ch n f } }
def State.thr (s : State) (n : Nat) : Thread := vget s.seq.thr n {}
def State.modThr (s : State) (n : Nat) (f : Thread → Thread) : State :=
  { s with seq := { s.seq with thr := vmod s.seq.thr n f } }
def State.modCtx (s : State) (n : Nat) (f : Ctx → Ctx) : State := s.modThr n (fun t => { t with ctx := f t.ctx })
/-- A change of a thread's registers that stays when the load that the thread is parked on faults (R367). -/
def State.modCtxBoth (s : State) (n : Nat) (f : Ctx → Ctx) : State :=
  s.modThr n (fun t => { t with ctx := f t.ctx, before := t.before.map f })
def State.source (s : State) (n : Nat) : Source := vget s.tur.src n {}
def State.modSrc (s : State) (n : Nat) (f : Source → Source) : State :=
  { s with tur := { s.tur with src := vmod s.tur.src n f } }
def State.port (s : State) (p : Nat) : LinkPort := vget s.link.port p {}
def State.modPort (s : State) (p : Nat) (f : LinkPort → LinkPort) : State :=
  { s with link := { s.link with port := vmod s.link.port p f } }
def State.lane (s : State) (l : Nat) : Lane := vget s.link.lane l {}
def State.modLane (s : State) (l : Nat) (f : Lane → Lane) : State :=
  { s with link := { s.link with lane := vmod s.link.lane l f } }
def State.lgch (s : State) (c : Nat) : LgCh := vget s.lg.ch c {}
def State.modLg (s : State) (c : Nat) (f : LgCh → LgCh) : State :=
  { s with lg := { s.lg with ch := vmod s.lg.ch c f } }

/-- `f` over the numbers below `n`, in ascending order. -/
def State.each (s : State) (n : Nat) (f : State → Nat → State) : State := (List.range n).foldl f s

/-! ## Agents -/

/-- Privilege codes (R287): law 0, supervisor 1, machine 3. -/
def isMach (p : BitVec 2) : Bool := decide (2 ≤ p.toNat)

/-- The agent that a thread is at this moment. -/
def threadAgent (s : State) (n : Nat) : Agent :=
  let t := s.thr n
  if t.safe || t.mon || isMach t.ctx.priv then .mach (BitVec.ofNat 4 n)
  else if t.ctx.priv = 1 then .sup (BitVec.ofNat 4 n)
  else .law (BitVec.ofNat 4 n)

/-- The agent behind a register access (R95, R361, R906). -/
def agentOf (s : State) : Who → Agent
  | .host => .host
  | .debugger => .debugger
  | .thread n => threadAgent s n

/-- Place of an agent's POSTL staging word (R97). -/
def Agent.postl : Agent → Nat
  | .law n => n.toNat
  | .sup n => n.toNat
  | .mach _ => 16
  | .host => 17
  | .debugger => 18

/-- TAG of an agent's posts (R95). -/
def Agent.tag : Agent → Byte
  | .law n => 0x40#8 ||| n.zeroExtend 8
  | .sup n => 0x40#8 ||| n.zeroExtend 8
  | .mach n => if n = 15 then 0x80#8 else 0x80#8 ||| (16#8 + n.zeroExtend 8)
  | .host => 0xC0#8
  | .debugger => 0xC1#8

/-- Headworks code at machine privilege (R360, R361). -/
def Agent.isHeadworks : Agent → Bool
  | .mach _ => true
  | _ => false

/-- Headworks code at machine privilege, or the debugger at machine level (R361, R363, R411). -/
def atMachine (s : State) : Agent → Bool
  | .mach _ => true
  | .debugger => s.dbg.level = 3
  | _ => false

/-- Place of a thread's acts among those of one fc (R98, R337). -/
def agentRank : Agent → Nat
  | .law n => 64 + n.toNat
  | .sup n => 64 + n.toNat
  | .mach n => if n = 15 then 80 else 81 + n.toNat
  | .host => 97
  | .debugger => 98

/-- What an access answers: its data, whether it ends with an error response, and whether an uncorrectable error is the
cause (R899). -/
structure Resp where
  data : U32 := 0
  err : Bool := false
  unc : Bool := false
deriving DecidableEq, Repr

/-- Host software sees the answer of its APB access (R37, R38). -/
def answer (s : State) (w : Who) (r : Resp) : State :=
  match w with
  | .host => { s with apb := { rdata := if r.err then 0 else r.data, slverr := r.err } }
  | _ => s

/-! ## Clocks of CORE (R830, R838, R882) -/

/-- PREADY is 0 and every input is ignored: por_n is low (R32, R79). -/
def porLow (s : State) : Bool := !s.ports.porN

/-- CORE is off, its clocks are stopped, or BIST has it. -/
def coreOff (s : State) : Bool :=
  porLow s || s.bist.phase != .idle || s.pwr.st = .sleep || (s.pwr.st = .deep && !s.pwr.plllock)

/-- What becomes of an access to a register outside AO: `t`, unless CORE is off: then host software is answered
PSLVERR with 0 (R830, R882), and nobody else makes the access. -/
def onCore (s : State) (w : Who) (t : State) : State :=
  if porLow s then s
  else if coreOff s then
    match w with
    | .host => { s with apb := { rdata := 0, slverr := true } }
    | _ => s
  else t

/-- An event of CORE, EDGE or LINK logic: it cannot come about while CORE is off. -/
def inCore (s : State) (t : State) : State := if coreOff s then s else t

/-- In RUN and DOZE smp_clk_o and sreq_o are live (R73). -/
def portsOn (s : State) : Bool := s.bist.phase = .idle && (s.pwr.st = .run || s.pwr.st = .doze)

/-- T15 runs: the block issues and serves rings (R804). -/
def inRun (s : State) : Bool := s.pwr.st = .run && s.bist.phase = .idle

/-- The sequencer issues: in RUN, and from PLL lock on in the boot that leads there from DEEP (R804, R823). -/
def issuing (s : State) : Bool :=
  s.bist.phase = .idle && (s.pwr.st = .run || (s.pwr.st = .deep && s.pwr.plllock))

/-! ## Free values -/

/-- Draws a free value of width `w`. -/
def drawFree (w : Nat) (s : State) : BitVec w × State :=
  ((Config.freeValue s.free).truncate w, { s with free := s.free + 1 })

/-! ## W1C and RC fields that hardware sets (R12, R13) -/

/-- Hardware sets W1C bits of the register at `off` in this fc; no write of this fc clears them (R12). Without a running
fast clock there is no fc. -/
def hwSet (off : Nat) (bits : U32) (s : State) : State :=
  if s.clk.running then { s with tur := { s.tur with w1cSet := (off, bits) :: s.tur.w1cSet } } else s

def hwSetIf (c : Bool) (off : Nat) (bits : U32) (s : State) : State := if c then hwSet off bits s else s

/-- The W1C bits of the register at `off` that hardware has set in this fc. -/
def hwFresh (s : State) (off : Nat) : U32 :=
  (s.tur.w1cSet.filter (fun p => p.1 = off)).foldl (fun a p => a ||| p.2) 0

/-- Hardware sets RC fields of the register at `off`, whose value before is `before`; `f` adds what it sets to what the fc
has set before (R13). -/
def rcSet (off : Nat) (before : U32) (f : U32 → U32) (s : State) : State :=
  if !s.clk.running then s
  else if s.tur.rcSet.any (fun r => r.off = off) then
    { s with tur := { s.tur with
        rcSet := s.tur.rcSet.map (fun (r : RcSet) => if r.off = off then { r with now := f r.now } else r) } }
  else { s with tur := { s.tur with rcSet := { off := off, before := before, now := f 0 } :: s.tur.rcSet } }

/-- What a read of the RC fields of the register at `off` returns, which hold `cur`: the value from before this fc (R13). -/
def rcShown (s : State) (off : Nat) (cur : U32) : U32 :=
  match s.tur.rcSet.find? (fun r => r.off = off) with
  | some r => r.before
  | none => cur

/-- What the RC fields of the register at `off` hold after a read of this fc: what hardware has set in it (R11, R13). -/
def rcLeft (s : State) (off : Nat) : U32 :=
  match s.tur.rcSet.find? (fun r => r.off = off) with
  | some r => r.now
  | none => 0

/-- A read has taken what the RC fields of the register at `off` held before this fc. -/
def rcTaken (off : Nat) (s : State) : State :=
  { s with tur := { s.tur with
      rcSet := s.tur.rcSet.map (fun (r : RcSet) => if r.off = off then { r with before := 0 } else r) } }

/-! ## Host memory (R34) -/

def hostWrite (s : State) (a : U48) (l : List Byte) : State :=
  { s with mem := { s.mem with host := memWrite s.mem.host a.toNat l } }

/-! ## Turnout sources (R620-R623) -/

/-- Raises source `src` in this fc; `data` is the DATA of the event where the cause gives it (R583). One event counts
in an fc however many causes raise the source (R621); a source of PRI 0 counts nothing; an event at CNT 15 is lost and
sets SATF (R622). -/
def raiseData (src : Nat) (data : U32) (s : State) : State :=
  let k := BitVec.ofNat 9 src
  if s.tur.raised.any (fun r => r.src = k) then
    { s with tur := { s.tur with
        raised := s.tur.raised.map (fun (r : Raised) => if r.src = k then { r with data := data } else r) } }
  else
    let c := s.source src
    let res : RaiseResult :=
      if c.pri = 0 then .silent else if c.cnt = 15 then .lost c.satf else .counted
    let s := { s with tur := { s.tur with raised := s.tur.raised ++ [{ src := k, data := data, res := res }] } }
    match res with
    | .silent => s
    | .lost _ => s.modSrc src (fun c => { c with satf := true })
    | .counted => s.modSrc src (fun c => { c with cnt := c.cnt + 1 })

def raise (src : Nat) (s : State) : State := raiseData src 0 s

def raiseIf (b : Bool) (src : Nat) (s : State) : State := if b then raise src s else s

/-- A source can be claimed (R623). -/
def claimable (c : Source) : Bool := c.cnt != 0 && c.service.isNone

/-- Takes the count of a claim (R622, R629): an event of this fc that had found CNT at 15 is kept by it. -/
def takeCount (src : Nat) (s : State) : State :=
  let k := BitVec.ofNat 9 src
  match s.tur.raised.find? (fun r => r.src = k) with
  | some ⟨_, _, .lost satf⟩ =>
    let s := { s with tur := { s.tur with
        raised := s.tur.raised.map (fun (r : Raised) => if r.src = k then { r with res := .counted } else r) } }
    s.modSrc src (fun c => { c with satf := satf, route := none })
  | _ => s.modSrc src (fun c => { c with cnt := c.cnt - 1, route := none })

/-- Raises `src` when `now` has a bit that `was` lacks. -/
def raiseRising {w : Nat} (was now : BitVec w) (src : Nat) (s : State) : State :=
  raiseIf (now &&& ~~~was != 0) src s

/-! ## Wake sources (R811) -/

/-- Wake source `b` is seen: when it is enabled and wakes from the present state, or an entry is under way, it is
recorded and the block wakes (R810, R811). -/
def wakeRequest (b : Nat) (s : State) : State :=
  let may : Bool := match s.pwr.st with
    | .run => s.pwr.trans
    | .doze => b != 2
    | .sleep => decide (b ≤ 2)
    | .deep => b = 0 || b = 2
  if bit s.pwr.wakeen b && may then
    hwSet 0x100C (1#32 <<< b) { s with pwr := { s.pwr with wakesrc := setBit s.pwr.wakesrc b true, waking := true } }
  else s

/-! ## Due acts -/

/-- `act` comes about at the fc edge `fc`, in the place `rank` of that fc. -/
def schedule (s : State) (fc rank : Nat) (act : Act) : State :=
  { s with due := s.due ++ [{ at_ := fc, rank := rank, act := act }] }

/-! ## The Gauge -/

/-- The signed direction of a count. -/
def signOf (v : Int) : Int := if 0 < v then 1 else if v < 0 then -1 else 0

/-- The network's correction of an fc: what is left of it, and how far the next fc edge moves the Gauge (R705). -/
def disciplineFc (s : State) : State :=
  let sum : Int := s.link.frac.toNat + s.link.freq.toInt
  let carries := s.link.carries + BitVec.ofInt 64 (shrI sum 32)
  let byPend := s.link.pend != 0
  let c := if byPend then signOf s.link.pend.toInt else signOf carries.toInt
  { s with
    clk := { s.clk with adv := BitVec.ofInt 8 (64 + c) }
    link := { s.link with
      frac := BitVec.ofInt 32 sum
      pend := if byPend then s.link.pend - BitVec.ofInt 64 c else s.link.pend
      carries := if byPend then carries else carries - BitVec.ofInt 64 c } }

/-- The sub-ticks of this fc and of the next two, as the network's discipline stands now (R104, R705). -/
def nextAdvs (s : State) : Nat × Nat × Nat :=
  let t := disciplineFc s
  (s.clk.adv.toNat, t.clk.adv.toNat, (disciplineFc t).clk.adv.toNat)

/-- Time as the low 40 bits of the Gauge. -/
def now40 (s : State) : U40 := s.clk.gauge.truncate 40

/-- The phase of the sample clocks: the Gauge divided by 64, modulo 8 (R40). -/
def phaseOf (g : U64) : BitVec 3 := fd g 6 3

/-- A rise of a group clock at this fc edge, where it may rise (R40, R41, R45). -/
def clkRise (c : SmpClk) : SmpClk := if c.high = 0 && c.low = 3 && c.wait = 0 then { c with high := 4 } else c

/-- The group clocks at an fc edge at which the Gauge moves to `g` other than by an ordinary advance (R40). -/
def moveClocks (g : U64) (p : Ports) : Ports :=
  { p with smpClk := vmap p.smpClk (fun k c =>
      let c := if c.high = 4 then { c with high := 0 } else c
      if bit p.smpEn k && c.live && vget p.smpPh k 0 = phaseOf g then clkRise c else c) }

/-- The Gauge takes the value `g`. When the move carries it forward, every time it passes over counts as reached in
this fc (R905): a flume's Tref, a timer's and a Rider synchronised start. -/
def moveGauge (g : U64) (forward : Nat) (s : State) : State :=
  let g0 := s.clk.gauge
  let hit (t : U40) : Bool := passedBy t g0 forward
  { s with
    clk := { s.clk with gauge := g }
    ports := if portsOn s then moveClocks g s.ports else s.ports
    fl := vmap s.fl (fun _ f =>
      { f with passed := f.passed || (f.arm && hit ((if f.inPeriod then f.next else f.tref).extractLsb' 16 40)) })
    tmr := vmap s.tmr (fun _ t => if t.aten && hit t.synct then { t with passedAt := s.clk.fc + 1 } else t)
    rider := if s.rider.sync && hit s.rider.synct then { s.rider with passedAt := s.clk.fc + 1 } else s.rider }

/-- Address of the next word to issue (R289): behind the WAIT that has issued. -/
def pcShown (t : Thread) : U16 :=
  match t.run with
  | .waiting _ => t.ctx.pc + 1
  | _ => t.ctx.pc

end Sys2Proof.Machine
end

