-- ==== Sys2Proof/Machine/Frames.lean ====
section
/-! DEFINITION. What the link sends: ports and their lanes, ordered sets, frames cut into blocks, and routes (R655,
R664, R683-R685, R698, R699). -/

namespace Sys2Proof.Machine

/-- The lanes of port p under GROUP (R655). -/
def lanesOf (g : BitVec 3) (p : Nat) : List Nat :=
  let table : List (List Nat) :=
    match g.toNat with
    | 0 => [[0, 1, 2, 3], [], [], []]
    | 1 => [[0, 1], [2, 3], [], []]
    | 2 => [[0, 1], [2], [3], []]
    | 3 => [[0], [1], [2, 3], []]
    | _ => [[0], [1], [2], [3]]
  table.getD p []

/-- GROUP forms the port. -/
def portFormed (s : State) (p : Nat) : Bool := !(lanesOf s.link.group p).isEmpty

/-- The port of a lane. -/
def portOfLane (s : State) (l : Nat) : Nat :=
  ((List.range 4).find? (fun p => (lanesOf s.link.group p).contains l)).getD 0

/-- Lanes on which the port runs: all of its lanes, in trickle lane 0 alone (R658, R676). -/
def portWidth (s : State) (p : Nat) : Nat := if (s.port p).st = 4 then 1 else (lanesOf s.link.group p).length

/-- WIDTH code of a port (R664). -/
def widthCode (s : State) (p : Nat) : Nat :=
  match (lanesOf s.link.group p).length with
  | 4 => 2
  | 2 => 1
  | _ => 0

def portUp (s : State) (p : Nat) : Bool := (s.port p).st = 3
def portTrickle (s : State) (p : Nat) : Bool := (s.port p).st = 4

/-- A saturating increment. -/
def satInc {w : Nat} (v : BitVec w) : BitVec w := if v = BitVec.allOnes w then v else v + 1

/-! ## Ordered sets (R664) -/

/-- The word of an ordered set: TYPE and CONTENT. -/
def setWord (type : Nat) (content : Nat) : U64 :=
  BitVec.ofNat 64 (0xC396A5 + type * 2 ^ 24 + content * 2 ^ 28)

def idleWord : U64 := setWord 1 0
def alignWord (lidx width : Nat) (aseq : Byte) : U64 := setWord 2 (lidx + 4 * width + 16 * aseq.toNat)
def markerWord (seq : Byte) : U64 := setWord 3 seq.toNat
def shutWord (origin : BitVec 14) (seq : Byte) (hops : BitVec 5) : U64 :=
  setWord 4 (origin.toNat + seq.toNat * 2 ^ 14 + hops.toNat * 2 ^ 22)

/-- The four copies of an ordered set on the logical lanes of a port of width w: copy c on lane c mod w (R665). -/
def setCopies (w : Nat) (word : U64) : Vector (List U64) 4 :=
  vgen 4 (fun j => ((List.range 4).filter (fun c => c % w = j)).map (fun _ => word))

/-- The port puts an ordered set on its lanes: one unit of R669. -/
def sendSet (p : Nat) (word : U64) (s : State) : State :=
  let w := portWidth s p
  s.modPort p (fun q => { q with txSet := setCopies w word, setLast := true, txUnits := q.txUnits + 1 })

/-! ## What the lanes carry (R646, R647, R658, R665) -/

/-- What a lane carries: nothing, the training frames, or the bits or PAM4 symbols of the port's last unit. -/
inductive LaneSignal where
  | idle
  | training
  | nrz (bits : List Bool)
  | pam4 (levels : List Int)
deriving DecidableEq, Repr

/-- The level of a PAM4 symbol, its earlier bit first (R647). -/
def pam4Level : Bool → Bool → Int
  | false, false => -3
  | false, true => -1
  | true, true => 1
  | true, false => 3

def pam4Levels : List Bool → List Int
  | a :: b :: l => pam4Level a b :: pam4Levels l
  | _ => []

/-- A word as it is sent, bit 0 first. -/
def sentBits {w : Nat} (v : BitVec w) : List Bool := (List.range w).map (fun i => bit v i)

/-- The bits of a codeword that logical lane j of a port of width w carries: symbol k goes on lane k mod w (R658). -/
def laneSymbols (w j : Nat) (v : BitVec 680) : List Bool :=
  ((List.range 68).filter (fun k => k % w = j)).flatMap (fun k => sentBits (fd v (10 * k) 10 : BitVec 10))

/-- The bits of the port's last unit on its logical lane j. -/
def laneBits (s : State) (p j : Nat) : List Bool :=
  let q := s.port p
  if q.setLast then (vget q.txSet j []).flatMap sentBits else laneSymbols (portWidth s p) j q.txLine

/-- What lane l carries (R646, R647, R650, R651). -/
def laneSignal (s : State) (l : Nat) : LaneSignal :=
  let p := portOfLane s l
  let j := ((lanesOf s.link.group p).findIdx? (fun i => i = l)).getD 0
  if (s.lane l).st = 0 then .idle
  else if (s.lane l).st.toNat < 4 then .training
  else if (s.port p).pam4 then .pam4 (pam4Levels (laneBits s p j))
  else .nrz (laneBits s p j)

/-- The symbol rate of a lane in MBd (R646). -/
def symbolRate (s : State) (l : Nat) : Nat :=
  match (s.lane l).st.toNat with
  | 0 => 0
  | 6 => 1750
  | _ => 28000

/-! ## Frames (R683-R685) -/

/-- The 8-byte frame header (R683). -/
def frameHeader (f : Frame) : List Byte :=
  let h : Nat := f.dst.toNat + b1 f.bc * 2 ^ 14 + f.src.toNat * 2 ^ 16 + f.content.length % 2048 * 2 ^ 32
    + b1 f.part * 2 ^ 43 + f.msgid.toNat * 2 ^ 48 + f.hops.toNat * 2 ^ 56 + f.sub.toNat * 2 ^ 61
  bytesLE (BitVec.ofNat 64 h) 8

/-- The frame that a block sequence's bytes spell: its header and LEN content bytes. -/
def parseFrame (ftype : BitVec 3) (vl : BitVec 2) (l : List Byte) : Frame :=
  let h := ofLE 64 (l.take 8)
  { ftype := ftype, vl := vl, dst := fd h 0 14, bc := bit h 14, src := fd h 16 14, part := bit h 43
    msgid := fd h 48 8, hops := fd h 56 5, sub := fd h 61 3
    content := padTo (fd h 32 11).toNat ((l.drop 8).take (fd h 32 11).toNat) }

/-- POS of block i of n (R661). -/
def posOf (i n : Nat) : BitVec 2 := if n ≤ 1 then 0 else if i = 0 then 1 else if i + 1 = n then 3 else 2

/-- The blocks of a frame (R684); the last one ends command `cmd`, if it ends one (R688). -/
def frameBlocks (f : Frame) (cmd : Option Nat) : List TxBlock :=
  let cs := chunks 78 (frameHeader f ++ f.content)
  cs.zipIdx.map (fun c =>
    { ftype := f.ftype, pos := posOf c.2 cs.length, payload := padTo 78 c.1
      cmd := if c.2 + 1 = cs.length then cmd else none })

/-- Puts a frame behind those that wait on its virtual lane of port p (R685). -/
def queueFrame (p : Nat) (f : Frame) (cmd : Option Nat) (s : State) : State :=
  s.modPort p (fun q => { q with txq := vmod q.txq f.vl.toNat (fun l => l ++ frameBlocks f cmd) })

/-- Puts a frame into the input of port p, for this block. -/
def keepFrame (p : Nat) (f : Frame) (s : State) : State :=
  s.modPort p (fun q => { q with inbox := q.inbox ++ [{ f with came := s.clk.gauge }] })

/-- The port of the tree for a destination: an exception, a down port, the up port (R698). -/
def routeOf (s : State) (dst : BitVec 14) : Option Nat :=
  match (s.link.exc.toList).find? (fun e => e.v && decide (e.lo ≤ dst) && decide (dst ≤ e.hi)) with
  | some e => some e.port.toNat
  | none =>
    match (List.range 4).find? (fun p =>
        let q := s.port p
        q.prole = 2 && decide (q.rlo ≤ dst) && decide (dst ≤ q.rhi)) with
    | some p => some p
    | none => s.link.upport.map (fun p => p.toNat)

def dropFrame (s : State) : State :=
  rcSet 0x23034 s.link.netdrop satInc { s with link := { s.link with netdrop := satInc s.link.netdrop } }

/-- A W1C bit of NETSTAT is set (R730). -/
def netFlag (b : Bool) (i : Nat) (s : State) : State := hwSetIf b 0x23030 (1#32 <<< i) s

/-- The up port and the down ports (R699). -/
def treePorts (s : State) : List Nat :=
  (List.range 4).filter (fun p => s.link.upport.map (fun u => u.toNat) = some p || (s.port p).prole = 2)

/-- Where a frame goes that is not hop-local: kept at port `at_`, sent on, or discarded (R698, R699); `arrived`: the
port it came in on. -/
def forward (at_ : Nat) (arrived : Option Nat) (f : Frame) (cmd : Option Nat) (s : State) : State :=
  if f.bc then
    ((treePorts s).filter (fun p => some p != arrived)).foldl (fun s p => queueFrame p f none s) (keepFrame at_ f s)
  else if f.dst = s.link.node then keepFrame at_ f s
  else match routeOf s f.dst with
    | some p => queueFrame p f cmd s
    | none => dropFrame (netFlag true 6 { s with link := { s.link with noroute := true } })

/-- A frame of this block sets out (log entry 6): only with a node ID, unless it is hop-local (R698). -/
def originate (f : Frame) (cmd : Option Nat) (s : State) : State :=
  if s.link.valid then forward 0 none { f with src := s.link.node, hops := 0 } cmd s else s

/-- A frame that came in on port p and is not hop-local (R698). -/
def relay (p : Nat) (f : Frame) (s : State) : State :=
  if !s.link.valid then dropFrame s
  else if 24 < f.hops.toNat + 1 then dropFrame s
  else forward p (some p) { f with hops := f.hops + 1 } none s

/-- The next MSGID of this block (R683). -/
def nextMsg (s : State) : Byte × State :=
  (s.link.msgid, { s with link := { s.link with msgid := s.link.msgid + 1 } })

/-- A hop-local MGMT frame with its content on port p (R686, R687). -/
def sendMgmt (p : Nat) (sub : BitVec 3) (content : List Byte) (s : State) : State :=
  queueFrame p { ftype := 6, vl := 0, src := s.link.node, sub := sub, content := content } none s

/-! ## The group window (R723, R726, R900) -/

def groupMaster (s : State) : Bool := s.link.grpen && s.link.gidx = 0

/-- Where an offset of the register window lands. -/
inductive Reach where
  | own (off : Nat)
  | member (m off : Nat)
  | nowhere
deriving DecidableEq, Repr

/-- Offsets below 0x8_0000 are the block's own; on a group master the aperture shows one half of a register window in
the group window, where member 0 is the block itself, and otherwise it is unassigned (R726, R900). -/
def routeOff (s : State) (off : Nat) : Reach :=
  if off < 0x80000 then .own off
  else if !groupMaster s then .nowhere
  else
    let a := s.link.aper.toNat * 0x80000 + (off - 0x80000)
    if a < 0x80000 then .own a
    else if a < 0x100000 then .nowhere
    else .member (a / 0x100000) (a % 0x100000)

/-! ## Shut orders (R713, R714) -/

/-- A locally sourced shut is handed to the ports of SHUTFWD.ORIG (R416, R713). -/
def sendShut (s : State) : State :=
  let n := s.link.shutSeq + 1
  let id := if s.link.valid then s.link.node else 0
  let s := { s with link := { s.link with shutSeq := n } }
  s.each 4 (fun s p =>
    if bit s.shut.orig p && (portUp s p || portTrickle s p) then sendSet p (shutWord id n 0) s else s)

end Sys2Proof.Machine
end

