-- ==== Sys2Proof/Machine/Outlet.lean ====
section
/-! DEFINITION. Outlets: levels and ownership, the edge queue, late actions, pairs, and the commands that act on them
(03, and R62, R63). -/

namespace Sys2Proof.Machine

/-! ## Who drives an outlet -/

/-- Outlet n is the complement of a pair (R114). -/
def isComplement (s : State) (n : Nat) : Bool := n % 2 = 1 && (s.outlet (n - 1)).pair

/-- Outlet n is the primary of a pair. -/
def isPrimary (s : State) (n : Nat) : Bool := n % 2 = 0 && (s.outlet n).pair

/-- The outlet whose OWNER, LATEPOL and DEFPER count for n (R119). -/
def lead (s : State) (n : Nat) : Nat := if isComplement s n then n - 1 else n

def ownerOf (s : State) (n : Nat) : BitVec 2 := (s.outlet (lead s n)).owner

/-- The owner that drives the outlet in this fc: a side-set that takes a static outlet drives it from the next fc edge, at
which the slot takes its level (R123, R499). -/
def driver (s : State) (n : Nat) : BitVec 2 :=
  let o := s.outlet (lead s n)
  if o.owner = 1 && o.claimAt = s.clk.fc + 1 then 0 else o.owner

/-- Level of the output slot that holds Rider pin p (R122, R496); 0 when none does. -/
def pinLevel (s : State) (p : Nat) : Bool :=
  s.rider.ch.toList.any (fun c =>
    c.slots.toList.any (fun sl => bit sl.mode 1 && sl.held && sl.pin.toNat = p && sl.level))

/-- LVL as it drives in this fc. The spec gives no time for LVL: DESIGN CHOICE, a change drives from the next fc edge, as a
change of OWNER does (log entry 34). -/
def lvlNow (s : State) (o : Outlet) : Bool := if o.lvlAt = s.clk.fc + 1 then o.lvlOld else o.lvl

/-- The level of the outlet's owner (R122). -/
def ownerLevel (s : State) (n : Nat) : Bool :=
  let o := s.outlet n
  match (driver s n).toNat with
  | 2 => o.shadow
  | 1 => pinLevel s o.rpin.toNat
  | _ => lvlNow s o

/-- FSAFE of the gates whose applied entries force outlet n (R402, R403, R408). -/
def gateForce (s : State) (n : Nat) : Option Bool :=
  let fs := s.gate.toList.filter (fun g =>
    g.en && (List.range 8).any (fun j => bit g.fen j && (vget g.omap j 0x7F).toNat = n))
  if fs.isEmpty then none else some (fs.any (fun g => g.fsafe))

/-- A shut drives outlet n (R416, R418, R423). -/
def shutDrives (s : State) (n : Nat) : Bool :=
  (s.outlet n).shutg &&
    ((s.shut.active && decide (s.shut.sAt + 2 ≤ s.clk.fc)) || s.shut.freedAt = s.clk.fc + 1)

/-- The level driven on out_o[n] (R63, R80, R121, R122, R126, R403, R418, R808). -/
def outLevel (s : State) (n : Nat) : Bool :=
  let o := s.outlet n
  match o.padHold with
  | some b => b
  | none =>
    if shutDrives s n || s.pwr.rstSafe then o.safe
    else match gateForce s n with
      | some fsafe => if fsafe then o.safe else !o.safe
      | none => ownerLevel s n

/-- The shadow level at the fc edge that began this fc, counting an edge that the delay line places at that edge's own
sub-tick (R62). -/
def edgeShadow (s : State) (o : Outlet) : Bool :=
  if o.retAt = s.clk.fc + 1 then o.retOld
  else match o.line.find? (fun e => lead40 e.t s.clk.gauge = 0 || inPast e.t s.clk.gauge) with
    | some e => (match e.op with | .set => true | .clear => false | .toggle => !o.shadow | .hold => o.shadow)
    | none => o.shadow

/-- The level that out_o[n] takes at the fc edge that began this fc (R62). -/
def edgeLevel (s : State) (n : Nat) : Bool :=
  outLevel (s.modOut n (fun o => { o with shadow := edgeShadow s o })) n

/-- A force or shut is active on the outlet (R143). -/
def forced (s : State) (n : Nat) : Bool :=
  (gateForce s n).isSome || (s.shut.active && (s.outlet n).shutg) || shutDrives s n

/-- R904. -/
def outIdle (s : State) (n : Nat) : Bool :=
  let o := s.outlet n
  let mate := s.outlet (if n % 2 = 0 then n + 1 else n - 1)
  o.queue.isEmpty && o.line.isEmpty && o.rises.isEmpty
    && ((!isComplement s n && !isPrimary s n) || mate.rises.isEmpty)

/-! ## Flags -/

/-- Sets bit b of OUT[n].STAT; its change from 0 to 1 raises the pair's source (R129). -/
def outFlag (n b : Nat) (s : State) : State :=
  let old := bit (s.outlet n).stat b
  raiseIf (!old) (160 + n / 2)
    (hwSet (0x8014 + 0x20 * n) (1#32 <<< b) (s.modOut n (fun o => { o with stat := setBit o.stat b true })))

def outFlagIf (c : Bool) (n b : Nat) (s : State) : State := if c then outFlag n b s else s

/-! ## Claims (R121-R125) -/

/-- The outlet's shadow level takes the level on out_o (R903, R122, R123). -/
def shadowFromLevel (n : Nat) (s : State) : State :=
  let l := outLevel s n
  s.modOut n (fun o => { o with shadow := l, retAt := 0 })

/-- The edge queue takes the outlet when a lower owner has it (R123); a side-set and a static-level claim of the same fc
are dropped, whichever came first (R125). -/
def queueClaim (n : Nat) (s : State) : State :=
  if (s.outlet n).owner = 2 then s
  else
    let o := s.outlet n
    let below := o.riderAt = s.clk.fc + 1 || (o.owner = 0 && o.lvlAt = s.clk.fc + 1)
    let s := shadowFromLevel n s
    let s := if isPrimary s n then shadowFromLevel (n + 1) s else s
    let s := s.modOut n (fun o => { o with owner := 2, ownerNext := none, claimAt := s.clk.fc + 1 })
    outFlagIf below n 3 (outFlag n 4 s)

/-- A side-set of Rider pin p: its claim on every outlet that RPIN and RPEN bind to the pin (R121-R125). A complement has
the owner of its primary (R119): a side-set bound to it takes the pair and sets OWNCHG of the complement (DESIGN CHOICE, log
entry 34). -/
def riderClaim (p : Nat) (s : State) : State :=
  s.each 96 (fun s n =>
    let o := s.outlet n
    if o.rpen && o.rpin.toNat = p then
      let s := s.modOut (lead s n) (fun o => { o with riderAt := s.clk.fc + 1 })
      match (ownerOf s n).toNat with
      | 2 => outFlag n 3 s
      | 1 => s
      | _ =>
        let s := s.modOut (lead s n) (fun o => { o with owner := 1, ownerNext := none, claimAt := s.clk.fc + 1 })
        outFlagIf (o.lvlAt = s.clk.fc + 1) n 3 (outFlag n 4 s)
    else s)

/-! ## Derived edges of a pair (R114-R117) -/

/-- A dead time as the block uses it (R115). -/
def deadTime (d : BitVec 20) : U40 := if d.toNat < 64 then 64 else d.zeroExtend 40

/-- The level that the primary will hold once every accepted action has retired (R114): that of the last one accepted while
one is pending, otherwise its shadow level. -/
def commanded (o : Outlet) : Bool :=
  if o.queue.any (fun q => q.op != .hold) || !o.line.isEmpty || !o.rises.isEmpty then o.lastSet else o.shadow

/-- The operation as the queue keeps it: a TOGGLE of a pair is resolved at acceptance (R114). -/
def resolveOp (s : State) (n : Nat) (op : EdgeOp) : EdgeOp :=
  if isPrimary s n && op = .toggle then (if commanded (s.outlet n) then .clear else .set) else op

/-- Offset of the earliest derived edge from t (R100, R116). -/
def earliest (s : State) (n : Nat) (op : EdgeOp) : Int :=
  let o := s.outlet n
  let tp := o.outtrim.toInt
  if isPrimary s n then
    let tc := (s.outlet (n + 1)).outtrim.toInt
    match op with
    | .set => min tc (tp + (deadTime o.dte).toNat)
    | .clear => min tp (tc + (deadTime o.dto).toNat)
    | _ => tp
  else tp

/-! ## Acceptance (R101-R103, R109-R112) -/

/-- t moved by a signed number of sub-ticks. -/
def addT (t : U40) (d : Int) : U40 := t + BitVec.ofInt 40 d

/-- The conditions of R101 for time t, with the earliest derived edge d after it; times are ordered as R93 says. -/
def onTime (s : State) (o : Outlet) (op : EdgeOp) (d : Int) (t : U40) : Bool :=
  let l := lead40 (addT t d) s.clk.gauge
  let spaced : Bool :=
    match o.last with
    | none => true
    | some p => decide (rank40 (p + 64) s.clk.gauge ≤ rank40 t s.clk.gauge)
  decide (128 ≤ l) && decide (l < 2 ^ 39) && (op = .hold || spaced)

/-- The smallest time that meets both conditions of R101: the move of FIRE (R93, R110). -/
def fireTime (s : State) (o : Outlet) (op : EdgeOp) (d : Int) : U40 :=
  let a : U40 := addT (now40 s) (128 - d)
  match o.last with
  | none => a
  | some p => if op = .hold then a else later40 a (p + 64) s.clk.gauge

/-- Drops the HOLDs whose time falls in this fc, which fire before an acceptance (R109). -/
def dropDueHolds (n : Nat) (s : State) : State :=
  s.modOut n (fun o => { o with
    queue := o.queue.filter (fun q =>
      !(q.op = .hold && reached40 (q.t + sx40 o.outtrim) s.clk.gauge s.clk.adv.toNat)) })

/-- Cancels, at Gauge value g, the pending delayed rises that a later action at t2 forestalls (R93, R117). -/
def cancelRises (t2 : U40) (g : U64) (o : Outlet) : Outlet :=
  let keep (r : U40) : Bool := decide (rank40 (r + 64) g ≤ rank40 t2 g)
  { o with
    rises := o.rises.filter keep
    line := o.line.filter (fun e => match e.rise with | some r => keep r | none => true) }

/-- Accepts an action at time t into the queue of outlet n (R99, R101, R114, R117). The delay of a derived rise is DTE or DTO
as it stands at the acceptance (DESIGN CHOICE, log entry 34). -/
def accept (n : Nat) (op : EdgeOp) (tag : Byte) (t : U40) (s : State) : State :=
  let e : QEntry := { t := t, op := op, tag := tag }
  if op = .hold then s.modOut n (fun o => { o with queue := o.queue ++ [e] })
  else
    let enter (o : Outlet) : Outlet := { o with queue := o.queue ++ [e], last := some t, lastSet := op = .set }
    if isPrimary s n then
      let g := s.clk.gauge
      let s := (s.modOut n (fun o => enter (cancelRises t g o))).modOut (n + 1) (cancelRises t g)
      if op = .set then s.modOut n (fun o => { o with rises := o.rises ++ [t + deadTime o.dte] })
      else
        let r := t + deadTime (s.outlet n).dto
        s.modOut (n + 1) (fun o => { o with rises := o.rises ++ [r] })
    else s.modOut n enter

/-- LATEPOL and DEFPER that apply to an action posted in fc `made` (R113). -/
def lateRule (made : Nat) (o : Outlet) : BitVec 2 × U32 :=
  if made < o.polAt then (o.latepolOld, o.defperOld) else (o.latepol, o.defper)

/-- What the late policy makes of a late action (R110-R112). -/
def late (n : Nat) (op : EdgeOp) (tag : Byte) (t : U40) (d : Int) (made : Nat) (s : State) : State :=
  let s := outFlag n 0 s
  let o := s.outlet n
  let r := lateRule made o
  match r.1.toNat with
  | 0 => accept n op tag (fireTime s o op d) s
  | 2 =>
    if r.2 = 0 then s
    else
      let t2 := t + r.2.zeroExtend 40
      if onTime s o op d t2 then accept n op tag t2 s else outFlag n 1 s
  | _ => s

/-- A post of this fc to outlet n: is it discarded (R118, R419, R868), or does it claim the outlet (R123-R125) and go to
the outlet's test? -/
def postClaim (n : Nat) (s : State) : State × Bool :=
  if 96 ≤ n then (s, false)
  else if s.dbg.frozen && s.dbg.frzEdge then (s, false)
  else if s.shut.active && (s.outlet n).shutg then (s, false)
  else if isComplement s n then (outFlag n 3 s, false)
  else (queueClaim n s, true)

/-- An action posted in fc `made` to outlet n is tested in this fc; was it late? (R98, R101-R103, R108, R118, R419,
R868) -/
def postR (n : Nat) (op : EdgeOp) (tag : Byte) (t : U40) (made : Nat) (s : State) : State × Bool :=
  let o := s.outlet n
  if s.dbg.frozen && s.dbg.frzEdge then (s, false)
  else if made < o.flushAt then (s, false)
  else if s.shut.active && o.shutg then (s, false)
  else if isComplement s n then (outFlag n 3 s, false)
  else
    let s := dropDueHolds n s
    let o := s.outlet n
    let op := resolveOp s n op
    let d := earliest s n op
    if 8 ≤ o.queue.length then (outFlag n 2 s, false)
    else if onTime s o op d t then (accept n op tag t s, false)
    else (late n op tag t d made s, true)

def edgeOpOf (v : BitVec 2) : EdgeOp :=
  match v.toNat with | 0 => .set | 1 => .clear | 2 => .toggle | _ => .hold

/-- An agent posts an action to outlet n in this fc; the outlet tests it at the next fc edge, in the order of R98. -/
def post (ag : Agent) (n : Nat) (op : BitVec 2) (t : U40) (s : State) : State :=
  let r := postClaim n s
  if r.2 then schedule r.1 (s.clk.fc + 1) (agentRank ag) (.outPost ag (BitVec.ofNat 7 n) op t s.clk.fc) else r.1

/-! ## Moving, placing, flushing (R104-R108) -/

/-- The outlet on which an entry's undelayed edge lies (R114). -/
def edgeOutlet (s : State) (n : Nat) (op : EdgeOp) : Nat := if isPrimary s n && op = .set then n + 1 else n

/-- An edge with untrimmed time t goes into the delay line of outlet m, with OUTTRIM as it stands; one that is now
less than 2 fc ahead fires at the Gauge plus 128 and counts as LATE of outlet n (R104, R106). -/
def intoLine (n m : Nat) (op : EdgeOp) (t : U40) (rise : Option U40) (s : State) : State :=
  let tt := t + sx40 (s.outlet m).outtrim
  let l := lead40 tt s.clk.gauge
  let a := nextAdvs s
  if a.1 + a.2.1 ≤ l && l < 2 ^ 39 then
    s.modOut m (fun o => { o with line := o.line ++ [{ t := tt, op := op, rise := rise }] })
  else
    let tt := now40 s + 128
    outFlag n 0 (s.modOut m (fun o => { o with line := o.line ++ [{ t := tt, op := op, rise := rise }] }))

/-- A trimmed time for which this is the move edge or later: it lies before the end of the fc after the next one (R104). -/
def moveDue (s : State) (t : U40) : Bool :=
  let a := nextAdvs s
  reached40 t s.clk.gauge (a.1 + a.2.1 + a.2.2)

/-- The first queued entry that is no HOLD, and the queue without it (R99). -/
def firstMove : List QEntry → Option (QEntry × List QEntry)
  | [] => none
  | q :: t => if q.op = .hold then (firstMove t).map (fun r => (r.1, q :: r.2)) else some (q, t)

/-- ENTRY_MOVE: the next entry of the queue, or a delayed rise of outlet n, moves when its time has come. -/
def entryMove (n : Nat) (s : State) : State :=
  let o := s.outlet n
  let queued : Option State :=
    match firstMove o.queue with
    | none => none
    | some (q, rest) =>
      let m := edgeOutlet s n q.op
      if moveDue s (q.t + sx40 (s.outlet m).outtrim) then
        let op : EdgeOp := if isPrimary s n then .clear else q.op
        some (intoLine n m op q.t none (s.modOut n (fun o => { o with queue := rest })))
      else none
  match queued with
  | some s => s
  | none =>
    match o.rises.find? (fun r => moveDue s (r + sx40 o.outtrim)) with
    | none => s
    | some r => intoLine n n .set r (some r) (s.modOut n (fun o => { o with rises := o.rises.erase r }))

/-- EDGE_RETIRE: the earliest edge of the delay line whose time lies in this fc is placed (R96, R903). -/
def edgeRetire (n : Nat) (s : State) : State :=
  let o := s.outlet n
  let due := o.line.filter (fun e => reached40 e.t s.clk.gauge s.clk.adv.toNat)
  match leastBy (fun (e : LineEdge) => rank40 e.t s.clk.gauge) due with
  | none => s
  | some e =>
    let l := match e.op with | .set => true | .clear => false | .toggle => !o.shadow | .hold => o.shadow
    let first := rank40 e.t s.clk.gauge ≤ 1 || o.retAt = s.clk.fc + 1
    s.modOut n (fun o => { o with
      shadow := l, line := o.line.erase e
      retAt := if first then o.retAt else s.clk.fc + 1
      retOld := if first then o.retOld else o.shadow })

/-- HOLD_RETIRE: the first HOLD whose time lies in this fc leaves the queue (R105). -/
def holdRetire (n : Nat) (s : State) : State :=
  s.modOut n (fun o =>
    match o.queue.find? (fun q => q.op = .hold && reached40 (q.t + sx40 o.outtrim) s.clk.gauge s.clk.adv.toNat) with
    | none => o
    | some q => { o with queue := o.queue.erase q })

/-- Discards what is pending of the delayed rises of an outlet, those in its delay line included. -/
def dropRises (o : Outlet) : Outlet := { o with rises := [], line := o.line.filter (fun e => e.rise.isNone) }

/-- Flushes the queue of outlet n, with every pending delayed rise of its pair (R107, R108). A write of CTL.FLUSH takes effect
in the fc of the write, edges of that fc not yet placed included (DESIGN CHOICE, log entry 34). -/
def flushOut (n : Nat) (s : State) : State :=
  let s := if isPrimary s n then s.modOut (n + 1) dropRises
    else if isComplement s n then s.modOut (n - 1) dropRises else s
  s.modOut n (fun o => { o with queue := [], rises := [], line := [], flushAt := s.clk.fc + 1 })

/-! ## Register fields -/

/-- A write of OWNER (R122, R139): 0b11 leaves it; a change acts at the next fc edge. A claim that takes the outlet in
the same fc outlives the write (R123, R125; DEDUCED). -/
def writeOwner (n : Nat) (v : BitVec 2) (s : State) : State :=
  if v = 3 || (s.outlet (lead s n)).claimAt = s.clk.fc + 1 then s
  else s.modOut n (fun o => { o with ownerNext := if v = o.owner then none else some v })

/-- A write of LVL (R121, R124, R125): only a change is a claim. -/
def writeLvl (n : Nat) (v : Bool) (s : State) : State :=
  let o := s.outlet n
  if v = o.lvl then s
  else
    let s1 := s.modOut n (fun o =>
      { o with lvl := v, lvlOld := lvlNow s o, lvlAt := s.clk.fc + 1 })
    outFlagIf (ownerOf s n != 0) n 3 s1

/-- A write of OEN (R80, R131). -/
def writeOen (n : Nat) (v : Bool) (s : State) : State :=
  let was := (s.outlet n).oen
  let s := s.modOut n (fun o => { o with
    oen := v
    oenAt := if v && !o.oen then s.clk.fc + 1 else o.oenAt
    oenLive := v && (o.oenLive || s.ports.live) })
  if was && !v then schedule s (s.clk.fc + 1) 90 (.oeLower (BitVec.ofNat 7 n)) else s

/-- A write of PAIR (R120, R139): none on an odd outlet; refused while either outlet is not idle. -/
def writePair (n : Nat) (v : Bool) (s : State) : State :=
  if n % 2 = 1 || v = (s.outlet n).pair then s
  else if outIdle s n && outIdle s (n + 1) then s.modOut n (fun o => { o with pair := v })
  else outFlag n 5 s

/-- A write of LATEPOL and DEFPER: they apply from the next fc on (R113). -/
def writeLate (n : Nat) (lp : BitVec 2) (dp : U32) (s : State) : State :=
  s.modOut n (fun o =>
    let r := lateRule s.clk.fc o
    { o with latepol := lp, defper := dp, polAt := s.clk.fc + 1, latepolOld := r.1, defperOld := r.2 })

def stagePostl (ag : Agent) (n : Nat) (v : U32) (s : State) : State :=
  s.modOut n (fun o => { o with postl := vset o.postl ag.postl v })

/-- The post that a write of POSTH makes of the writer's staged POSTL (R97, R145). -/
def writePosth (ag : Agent) (n : Nat) (v : U32) (s : State) : State :=
  let lo := vget (s.outlet n).postl ag.postl 0
  let t : U40 := (fd v 0 8) ++ lo
  post ag n (fd v 8 2) t s

/-- A write of OUT[n].CTL (R139). -/
def writeOutCtl (n : Nat) (v : U32) (s : State) : State :=
  let s := writeOwner n (fd v 0 2) s
  let s := writeLate n (fd v 2 2) (s.outlet n).defper s
  let s := s.modOut n (fun o => { o with
    safe := bit v 4, shutg := bit v 7, rpen := bit v 9, rpin := fd v 10 6 })
  let s := writeLvl n (bit v 5) s
  let s := writeOen n (bit v 6) s
  let s := writePair n (bit v 8) s
  if bit v 16 then flushOut n s else s

/-- A write of a register of OUT[n] (R138-R145). -/
def outWrite (ag : Agent) (n r : Nat) (v : U32) (s : State) : State :=
  match r with
  | 0x00 => writeOutCtl n v s
  | 0x04 => s.modOut n (fun o => { o with outtrim := if fd v 0 8 = 0x80 then 0x81 else fd v 0 8 })
  | 0x08 => if n % 2 = 0 then s.modOut n (fun o => { o with dte := fd v 0 20 }) else s
  | 0x0C => if n % 2 = 0 then s.modOut n (fun o => { o with dto := fd v 0 20 }) else s
  | 0x10 => writeLate n (s.outlet n).latepol v s
  | 0x14 => s.modOut n (fun o => { o with stat := w1c o.stat (fd v 0 6) })
  | 0x18 => stagePostl ag n v s
  | 0x1C => writePosth ag n v s
  | _ => s

/-- OUT[n].STAT (R143). -/
def outStat (s : State) (n : Nat) : U32 :=
  let o := s.outlet n
  pk [(0, o.stat.toNat), (8, o.queue.length), (12, b1 (outLevel s n)), (13, b1 (forced s n)), (14, b1 o.oe)]

/-- A register of OUT[n] (R138-R145). OWNER, LATEPOL and DEFPER of the complement of a pair read as they were written to it
(DESIGN CHOICE, log entry 34). -/
def outRead (s : State) (n r : Nat) : U32 :=
  let o := s.outlet n
  match r with
  | 0x00 => pk [(0, o.owner.toNat), (2, o.latepol.toNat), (4, b1 o.safe), (5, b1 o.lvl),
      (6, b1 o.oen), (7, b1 o.shutg), (8, b1 o.pair), (9, b1 o.rpen), (10, o.rpin.toNat)]
  | 0x04 => o.outtrim.zeroExtend 32
  | 0x08 => if n % 2 = 0 then o.dte.zeroExtend 32 else 0
  | 0x0C => if n % 2 = 0 then o.dto.zeroExtend 32 else 0
  | 0x10 => o.defper
  | 0x14 => outStat s n
  | _ => 0

/-- OUTCAL (R146). -/
def outcalRead (s : State) : U32 :=
  pk [(0, b1 s.outcal.valid), (1, b1 s.outcal.trkerr), (8, s.outcal.rawtap.toNat)]

/-! ## Commands -/

def execEntryMove (n : Fin 96) (s : State) : Host.Outcome State Fault Refusal := .next (inCore s (entryMove n s))

def execEdgeRetire (n : Fin 96) (s : State) : Host.Outcome State Fault Refusal := .next (inCore s (edgeRetire n s))

def execHoldRetire (n : Fin 96) (s : State) : Host.Outcome State Fault Refusal := .next (inCore s (holdRetire n s))

/-- out_oe_o[n] may rise at the fc edge that began this fc (R62, R80, R131). -/
def mayRaise (s : State) (n : Nat) : Bool :=
  let o := s.outlet n
  o.oen && o.oenLive && !o.oe && o.padHold.isNone && o.oenAt != s.clk.fc + 1 && edgeLevel s n = o.safe

/-- OUTPUT_ENABLE_RAISE: out_oe_o[n] rises at an fc edge at which out_o[n] equals SAFE (R62, R131). -/
def execOutputEnableRaise (n : Fin 96) (s : State) : Host.Outcome State Fault Refusal :=
  .next (inCore s (if mayRaise s n then s.modOut n (fun o => { o with oe := true }) else s))

/-- The latest measurement goes to every outlet whose delay line holds no edge (R135). -/
def applyTaps (s : State) : State :=
  { s with out := vmap s.out (fun _ o => if o.line.isEmpty then { o with tap := s.outcal.rawtap } else o) }

/-- CALIBRATION_UPDATE: a measurement of the replica line after PLL lock in RUN or DOZE, or in the boot that leads there
(R133-R137). -/
def execCalibrationUpdate (rawtap : BitVec 8) (trkerr : Bool) (s : State) : Host.Outcome State Fault Refusal :=
  .next (inCore s (if s.pwr.plllock then
    applyTaps (hwSetIf trkerr 0x8C00 2
      { s with outcal := { valid := true, trkerr := s.outcal.trkerr || trkerr, rawtap := rawtap } })
  else s))

end Sys2Proof.Machine
end

