-- ==== Sys2Proof/Machine/Timer.lean ====
section
/-! DEFINITION. General timers, sample requests and the Gauge page (09, and R51, R52). -/

namespace Sys2Proof.Machine

/-- RUN or DOZE: fc runs and the units act (R477, R807). -/
def awake (s : State) : Bool :=
  s.bist.phase = .idle && (s.pwr.st = .run || s.pwr.st = .doze || (s.pwr.st = .deep && s.pwr.plllock))

/-- The timers are frozen by the debugger (R868). -/
def tmrFrozen (s : State) : Bool := s.dbg.frozen && s.dbg.frzTmr

/-- A request for sreq_o[l] (R51, R52), once READY has been set (R80); requests of one fc edge make one (R463). -/
def sampleRequest (l : Nat) (s : State) : State :=
  if !portsOn s || !s.ports.live then s else
  let t := s.clk.fc
  let rise := vget s.ports.sreqRise l 0
  let fall := vget s.ports.sreqFall l 0
  if rise = t + 1 then s
  else if rise ≤ t && t < fall then
    hwSetIf (fall != t + 9) 0x1808 2 { s with ports := { s.ports with
        sreqFall := vset s.ports.sreqFall l (t + 9)
        sreqmrg := s.ports.sreqmrg || fall != t + 9 } }
  else
    { s with ports := { s.ports with
        sreqRise := vset s.ports.sreqRise l (t + 1), sreqFall := vset s.ports.sreqFall l (t + 9) } }

/-- sreq_o[l] in this fc. -/
def sreqLevel (s : State) (l : Nat) : Bool :=
  decide (vget s.ports.sreqRise l 0 ≤ s.clk.fc) && decide (s.clk.fc < vget s.ports.sreqFall l 0)

/-- A trigger pulse reaches every channel whose loaded descriptor selects it, from the fc after the load until the payload is
complete (R462, R599, R601). -/
def culPulse (trg : BitVec 2) (sel : Nat) (s : State) : State :=
  { s with cul := { s.cul with
      ch := vmap s.cul.ch (fun _ c =>
        match c.cur with
        | some d =>
          if c.en && c.phase = .loaded && c.loadAt != s.clk.fc + 1 && decide (c.done < d.len.toNat) && d.trg = trg
              && d.tsel.toNat = sel then { c with pulses := c.pulses + 1 } else c
        | none => c) } }

/-- Timer n pulses its Culvert request, once at an fc edge (R462, R463). -/
def timerPulse (n : Nat) (s : State) : State :=
  if (s.timer n).culAt = s.clk.fc + 1 then s
  else culPulse 1 n (s.modTmr n (fun t => { t with culAt := s.clk.fc + 1 }))

/-- A trigger is sent to timer m (R463). -/
def sendTrigger (m : Nat) (s : State) : State :=
  s.modTmr m (fun t => if t.trigAt.contains (s.clk.fc + 1) then t else { t with trigAt := t.trigAt ++ [s.clk.fc + 1] })

/-- The actions of ACTA-ACTO (R462, R463). -/
def timerActs (n : Nat) (a : BitVec 11) (s : State) : State :=
  let s := if bit a 0 then sampleRequest (fd a 1 5).toNat s else s
  let s := if bit a 6 then timerPulse n s else s
  let s := if bit a 7 then sendTrigger (s.timer n).lnk.toNat s else s
  let s := if bit a 8 then schedule s (s.clk.fc + 1) 11 (.timerRestart (BitVec.ofNat 5 n)) else s
  let s := if bit a 9 then schedule s (s.clk.fc + 1) 10 (.timerStop (BitVec.ofNat 5 n)) else s
  raiseIf (bit a 10) (96 + 2 * n) s

/-- Pending preload i at the fc edge `now - 1`: a write that lands at that edge waits for the next copy (R465). -/
def preloadOf (now : Nat) (t : Timer) (i : Nat) : Option U32 :=
  if vget t.preAt i 0 = now then vget t.preOld i none
  else match i with
    | 0 => t.perPre
    | 1 => t.cmpaPre
    | 2 => t.cmpbPre
    | _ => t.cmpcPre

/-- Every pending preload becomes live (R464). -/
def copyPreloads (now : Nat) (t : Timer) : Timer :=
  let live (i : Nat) (old : U32) : U32 := (preloadOf now t i).getD old
  let left (i : Nat) (p : Option U32) : Option U32 := if vget t.preAt i 0 = now then p else none
  { t with
    per := live 0 t.per, cmpa := live 1 t.cmpa, cmpb := live 2 t.cmpb, cmpc := live 3 t.cmpc
    perPre := left 0 t.perPre, cmpaPre := left 1 t.cmpaPre, cmpbPre := left 2 t.cmpbPre, cmpcPre := left 3 t.cmpcPre
    preOld := Vector.replicate 4 none
    cmpOld := vgen 3 (fun i => (preloadOf now t (i + 1)).getD (vget t.cmpOld i 0)) }

/-- CMPA, CMPB or CMPC (0-2). -/
def cmpOf (t : Timer) (i : Nat) : U32 := match i with | 0 => t.cmpa | 1 => t.cmpb | _ => t.cmpc

/-- The value that channel i compares with at the fc edge `now - 1`: as it stood before a live write of that edge (R461). -/
def cmpUsed (now : Nat) (t : Timer) (i : Nat) : U32 := if t.cmpAt = now then vget t.cmpOld i 0 else cmpOf t i

/-- The channels that CNT now equals have matched at this fc edge (R461). -/
def matchNow (now : Nat) (t : Timer) : Timer :=
  { t with hit := t.hit ||| bitsFrom 3 (fun i => t.cnt = cmpUsed now t i) }

/-- A restart (R458). -/
def timerRestart (n : Nat) (s : State) : State :=
  s.modTmr n (fun t =>
    matchNow (s.clk.fc + 1) (copyPreloads (s.clk.fc + 1) { t with
      cnt := 0, pre := 0, tick := false, absorbAt := s.clk.fc + 1 }))

/-- A start (R456): a count event of its own fc edge is not counted. -/
def timerStart (n : Nat) (s : State) : State :=
  s.modTmr n (fun t => copyPreloads (s.clk.fc + 1) { t with
    run := true, pre := 0, tick := false, startAt := s.clk.fc + 1 })

/-- A stop (R457); a start of the same fc edge is not undone (R463). -/
def timerStop (n : Nat) (s : State) : State :=
  s.modTmr n (fun t => if t.startAt = s.clk.fc + 1 then t else { t with run := false })

/-- A tick would wrap the counter (R453). -/
def wouldWrap (t : Timer) : Bool :=
  t.cnt = t.per || (decide (t.per < t.cnt) && t.latewrap) || t.cnt = 0xFFFFFFFF

/-- Hardware sets W1C bits of TMR[n].STAT (R12). -/
def tmrSet (n : Nat) (bits : U32) (s : State) : State := hwSet (0x6134 + 0x40 * n) bits s

/-- No start, restart or write of CNT falls on the fc edge `now - 1` (R456, R458, R460). -/
def takesTick (t : Timer) (now : Nat) : Bool := t.startAt != now && t.absorbAt != now

/-- A wrap: CNT 0, OVF, ACTO, preloads, and the neighbour's count event (R453-R455, R464). -/
def timerWrap (n : Nat) (s : State) : State :=
  let t := s.timer n
  let skip := t.cnt != t.per && decide (t.per < t.cnt) && t.latewrap
  let s := s.modTmr n (fun t => matchNow (s.clk.fc + 1) (copyPreloads (s.clk.fc + 1) { t with
    cnt := 0, ovf := true, pskip := t.pskip || skip }))
  let s := tmrSet n (if skip then 0x88 else 0x8) s
  let s := if n + 1 < 32 then
      s.modTmr (n + 1) (fun u =>
        if u.src = 3 && u.run && takesTick u (s.clk.fc + 1) then { u with tick := true } else u)
    else s
  timerActs n t.acto s

/-- A tick (R453). -/
def timerTick (n : Nat) (s : State) : State :=
  let s := s.modTmr n (fun t => { t with tick := false })
  if wouldWrap (s.timer n) then timerWrap n s
  else s.modTmr n (fun t => matchNow (s.clk.fc + 1) { t with cnt := t.cnt + 1 })

/-- A count event of timer n is here and is counted: it runs, and neither its start nor a restart or write of CNT
falls on this fc edge (R452, R456, R458, R460, R477, R868). -/
def canTick (s : State) (n : Nat) : Bool :=
  let t := s.timer n
  t.run && awake s && !tmrFrozen s && (t.tick || t.src = 1)
    && takesTick t (s.clk.fc + 1)

/-- A capture takes its place in CAP (R470). -/
def putCapture (v : U32) (t : Timer) : Timer := { t with cap := v, capf := true, capov := t.capov || t.capf }

/-- A capture (R470, R473); one that meets a read of its fc edge lands one fc later (R471). -/
def capture (n : Nat) (s : State) : State :=
  let t := s.timer n
  if t.capReadAt = s.clk.fc + 1 then s.modTmr n (fun t => { t with capEv := false, capLate := some (t.cntPrev, t.capIrq) })
  else
    let s := s.modTmr n (fun t =>
      { putCapture t.cntPrev t with
        capEv := false, capAt := s.clk.fc + 1, capOld := t.cap, capfOld := t.capf, capovOld := t.capov })
    let s := if t.capf then tmrSet n 0x20 s else s
    if t.capIrq then raiseData (97 + 2 * n) t.cntPrev s else s

/-- A capture that has waited for a read lands (R471). -/
def lateCapture (s : State) (n : Nat) : State :=
  match (s.timer n).capLate with
  | none => s
  | some (v, irq) =>
    let s := if (s.timer n).capf then tmrSet n 0x20 s else s
    let s := s.modTmr n (fun t => { putCapture v t with capLate := none })
    if irq then raiseData (97 + 2 * n) v s else s

/-- A capture event of source `csrc` with selector `sel` reaches every timer that selects it (R469). -/
def captureEvents (csrc : BitVec 2) (sel : Nat) (s : State) : State :=
  if tmrFrozen s then s
  else { s with tmr := vmap s.tmr (fun _ t =>
    if t.csrc = csrc && t.csel.toNat % 32 = sel then { t with capEv := true } else t) }

/-- A match of channel X: MATX and ACTX (R462); match A is a capture event (R469). -/
def compareMatch (n : Nat) (ch : Chan) (s : State) : State :=
  let t := s.timer n
  let s := tmrSet n (match ch with | .a => 1 | .b => 2 | .c => 4) s
  match ch with
  | .a => captureEvents 3 n (timerActs n t.acta (s.modTmr n (fun t => { t with mata := true, hit := setBit t.hit 0 false })))
  | .b => timerActs n t.actb (s.modTmr n (fun t => { t with matb := true, hit := setBit t.hit 1 false }))
  | .c => timerActs n t.actc (s.modTmr n (fun t => { t with matc := true, hit := setBit t.hit 2 false }))

/-- Place of a channel's bit. -/
def chanBit : Chan → Nat
  | .a => 0
  | .b => 1
  | .c => 2

/-! ## Register fields -/

/-- A write of RUN (R456, R457). -/
def writeRun (n : Nat) (v : Bool) (s : State) : State :=
  let r := (s.timer n).run
  if v && !r then timerStart n s else if r && !v then timerStop n s else s

/-- A write of ATEN (R474, R475). -/
def writeAten (n : Nat) (v : Bool) (s : State) : State :=
  let t := s.timer n
  if !v then s.modTmr n (fun t => { t with aten := false, passedAt := 0 })
  else if t.aten then s
  else if inFuture t.synct s.clk.gauge then s.modTmr n (fun t => { t with aten := true, passedAt := 0 })
  else tmrSet n 0x100 (s.modTmr n (fun t => { t with aterr := true }))

/-- A write of CTL (R484). -/
def writeTmrCtl (n : Nat) (v : U32) (s : State) : State :=
  let s := s.modTmr n (fun t =>
    { t with src := fd v 1 2, latewrap := bit v 3, edge := fd v 4 2, pin := fd v 6 6, lnk := fd v 12 5
             trgmode := fd v 17 2 })
  writeAten n (bit v 19) (writeRun n (bit v 0) s)

/-- A write of CNT (R460). -/
def writeCnt (n : Nat) (v : U32) (s : State) : State :=
  s.modTmr n (fun t => { t with cnt := v, tick := false, absorbAt := s.clk.fc + 1 })

/-- Place of a register among PER, CMPA, CMPB, CMPC. -/
def regPlace : TimerReg → Nat
  | .per => 0
  | .cmpa => 1
  | .cmpb => 2
  | .cmpc => 3

/-- A preload write of PER or CMPX (R464, R465). -/
def writePreload (n : Nat) (r : TimerReg) (v : U32) (s : State) : State :=
  let now := s.clk.fc + 1
  s.modTmr n (fun t =>
    let i := regPlace r
    let t := { t with preOld := vset t.preOld i (preloadOf now t i), preAt := vset t.preAt i now }
    match r with
    | .per => { t with perPre := some v }
    | .cmpa => { t with cmpaPre := some v }
    | .cmpb => { t with cmpbPre := some v }
    | .cmpc => { t with cmpcPre := some v })

/-- A live write of PER or CMPX, which cancels its preload (R466). The comparisons of its fc edge still use the old value
(R461). -/
def writeLive (n : Nat) (r : TimerReg) (v : U32) (s : State) : State :=
  let now := s.clk.fc + 1
  s.modTmr n (fun t =>
    let t := { t with
      preOld := vset t.preOld (regPlace r) none
      cmpAt := now, cmpOld := vgen 3 (fun i => cmpUsed now t i) }
    match r with
    | .per => { t with per := v, perPre := none }
    | .cmpa => { t with cmpa := v, cmpaPre := none }
    | .cmpb => { t with cmpb := v, cmpbPre := none }
    | .cmpc => { t with cmpc := v, cmpcPre := none })

/-- The sequencer reaches the preload, APB and the debug bus master the live value (R464, R466). -/
def writeTimerReg (ag : Agent) (n : Nat) (r : TimerReg) (v : U32) (s : State) : State :=
  match ag with
  | .host => writeLive n r v s
  | .debugger => writeLive n r v s
  | _ => writePreload n r v s

/-- A read of CAP pops it (R471, R472). A capture of the same fc has not landed for it, and lands one fc later. -/
def readCap (n : Nat) (s : State) : U32 × State :=
  let t := s.timer n
  let now := s.clk.fc + 1
  let met := t.capAt = now
  let full := if met then t.capfOld else t.capf
  let s := s.modTmr n (fun t =>
    let t := { t with capReadAt := now }
    if met then
      { t with cap := t.capOld, capf := false, capov := t.capovOld, capAt := 0, capLate := some (t.cap, false) }
    else { t with capf := false })
  if full then (if met then t.capOld else t.cap, s)
  else (0, tmrSet n 0x40 (s.modTmr n (fun t => { t with capuf := true })))

/-- TMR[n].STAT (R488). -/
def tmrStat (t : Timer) : U32 :=
  pk [(0, b1 t.mata), (1, b1 t.matb), (2, b1 t.matc), (3, b1 t.ovf), (4, b1 t.capf), (5, b1 t.capov), (6, b1 t.capuf),
    (7, b1 t.pskip), (8, b1 t.aterr), (12, b1 t.perPre.isSome), (13, b1 t.cmpaPre.isSome), (14, b1 t.cmpbPre.isSome),
    (15, b1 t.cmpcPre.isSome), (16, b1 t.flume.isSome), (17, (t.flume.getD 0).toNat)]

/-- A write of a register of TMR[n] (R483-R489). -/
def tmrWrite (ag : Agent) (n r : Nat) (v : U32) (s : State) : State :=
  match r with
  | 0x00 => writeTmrCtl n v s
  | 0x04 => s.modTmr n (fun t => { t with psc := fd v 0 16 })
  | 0x08 => writeCnt n v s
  | 0x0C => writeTimerReg ag n .per v s
  | 0x10 => writeTimerReg ag n .cmpa v s
  | 0x14 => writeTimerReg ag n .cmpb v s
  | 0x18 => writeTimerReg ag n .cmpc v s
  | 0x20 => s.modTmr n (fun t => { t with acta := fd v 0 11 })
  | 0x24 => s.modTmr n (fun t => { t with actb := fd v 0 11 })
  | 0x28 => s.modTmr n (fun t => { t with actc := fd v 0 11 })
  | 0x2C => s.modTmr n (fun t => { t with acto := fd v 0 11 })
  | 0x30 => s.modTmr n (fun t => { t with csrc := fd v 0 2, cedge := fd v 2 2, csel := fd v 4 6, capIrq := bit v 10 })
  | 0x34 => s.modTmr n (fun t =>
      { t with mata := t.mata && !bit v 0, matb := t.matb && !bit v 1, matc := t.matc && !bit v 2
               ovf := t.ovf && !bit v 3, capov := t.capov && !bit v 5, capuf := t.capuf && !bit v 6
               pskip := t.pskip && !bit v 7, aterr := t.aterr && !bit v 8 })
  | 0x38 => s.modTmr n (fun t => { t with synct := fd t.synct 32 8 ++ v })
  | 0x3C => s.modTmr n (fun t => { t with synct := fd v 0 8 ++ fd t.synct 0 32 })
  | _ => s

/-- A register of TMR[n] as an inspect read returns it (R483-R489). -/
def tmrRead (s : State) (n r : Nat) : U32 :=
  let t := s.timer n
  match r with
  | 0x00 => pk [(0, b1 t.run), (1, t.src.toNat), (3, b1 t.latewrap), (4, t.edge.toNat), (6, t.pin.toNat),
      (12, t.lnk.toNat), (17, t.trgmode.toNat), (19, b1 t.aten)]
  | 0x04 => t.psc.zeroExtend 32
  | 0x08 => t.cnt
  | 0x0C => t.per
  | 0x10 => t.cmpa
  | 0x14 => t.cmpb
  | 0x18 => t.cmpc
  | 0x1C => (readCap n s).1
  | 0x20 => t.acta.zeroExtend 32
  | 0x24 => t.actb.zeroExtend 32
  | 0x28 => t.actc.zeroExtend 32
  | 0x2C => t.acto.zeroExtend 32
  | 0x30 => pk [(0, t.csrc.toNat), (2, t.cedge.toNat), (4, t.csel.toNat), (10, b1 t.capIrq)]
  | 0x34 => tmrStat t
  | 0x38 => fd t.synct 0 32
  | 0x3C => (fd t.synct 32 8).zeroExtend 32
  | _ => 0

/-- The Gauge page (R88, R89, R482). -/
def gaugeRead (s : State) (r : Nat) : U32 :=
  match r with
  | 0x00 => fd s.clk.gauge 0 32
  | 0x04 => fd s.clk.gauge 32 32
  | 0x08 => fd s.gp.tally 0 32
  | 0x0C => pk [(0, (fd s.gp.tally 32 16).toNat), (16, b1 s.gp.tsat)]
  | 0x10 => fd s.gp.ratio 16 32
  | 0x14 => pk [(0, (fd s.gp.ratio 0 16).toNat), (16, b1 s.gp.rvalid)]
  | 0x18 => fd s.gp.mkup 0 32
  | 0x1C => fd s.gp.mkup 32 32
  | _ => 0

/-! ## Commands -/

def execTimerTick (n : Fin 32) (s : State) : Host.Outcome State Fault Refusal :=
  .next (inCore s (if canTick s n then timerTick n s else s))

/-- TIMER_WRAP: a tick that wraps (R453, R454). -/
def execTimerWrap (n : Fin 32) (s : State) : Host.Outcome State Fault Refusal :=
  .next (inCore s (if canTick s n && wouldWrap (s.timer n) then timerTick n s else s))

def execCompareMatch (n : Fin 32) (ch : Chan) (s : State) : Host.Outcome State Fault Refusal :=
  .next (inCore s (if bit (s.timer n).hit (chanBit ch) && awake s && !tmrFrozen s then compareMatch n ch s else s))

/-- TIMER_TRIGGER: a trigger acts on the linked timer one fc edge after it was sent (R463). -/
def execTimerTrigger (n : Fin 32) (s : State) : Host.Outcome State Fault Refusal :=
  let t := s.timer n
  .next (inCore s (if t.trigAt.any (fun f => decide (f ≤ s.clk.fc)) then
    let s := s.modTmr n (fun t => { t with trigAt := t.trigAt.filter (fun f => decide (s.clk.fc < f)) })
    let s := if bit t.trgmode 1 then timerRestart n s else s
    if bit t.trgmode 0 then timerStart n s else s
  else s))

def execPreloadWrite (_t : Fin 16) (n : Fin 32) (r : TimerReg) (v : U32) (s : State) : Host.Outcome State Fault Refusal :=
  .next (inCore s (writePreload n r v s))

def execCapture (n : Fin 32) (s : State) : Host.Outcome State Fault Refusal :=
  .next (inCore s (if (s.timer n).capEv && awake s && !tmrFrozen s then capture n s else s))

/-- GAUGE_TIMED_START: at the fc edge that ends the fc of SYNCT the timer restarts and starts (R474, R905). -/
def execGaugeTimedStart (n : Fin 32) (s : State) : Host.Outcome State Fault Refusal :=
  let t := s.timer n
  let isOver : Bool :=
    if t.passedAt = 0 then inPast t.synct s.clk.gauge else decide (t.passedAt ≤ s.clk.fc)
  .next (inCore s (if t.aten && isOver && awake s && !tmrFrozen s then
    (timerStart n (timerRestart n s)).modTmr n (fun t => { t with aten := false, passedAt := 0 })
  else s))

end Sys2Proof.Machine
end

