-- ==== Sys2Proof/Machine/Flume.lean ====
section
/-! DEFINITION. Flume units: banks, boundaries, the affine and crossing computations, misses and fallbacks, arming and
disarming, mailboxes (04). -/

namespace Sys2Proof.Machine

/-! ## Flags -/

/-- Sets bit b of FL[n].STAT; its change from 0 to 1 raises the flume's source when IEN enables it (R187). -/
def flFlag (n b : Nat) (s : State) : State :=
  let f := s.flume n
  raiseIf (!bit f.stat b && bit f.ien b) (208 + n)
    (hwSet (0x901C + 0x40 * n) (1#32 <<< b) (s.modFl n (fun f => { f with stat := setBit f.stat b true })))

def flFlagIf (c : Bool) (n b : Nat) (s : State) : State := if c then flFlag n b s else s

/-- Sets gate flag k (R186). -/
def gateFlag (n k : Nat) (s : State) : State :=
  s.modFl n (fun f =>
    { f with gclamp := f.gclamp || k = 0, gmiss := f.gmiss || k = 1, glate := f.glate || k = 2
             gxfall := f.gxfall || k = 3 })

/-- FL[n].STAT (R203). -/
def flStat (s : State) (n : Nat) : U32 :=
  let f := s.flume n
  let town := (s.timer f.tmr.toNat).flume = some (BitVec.ofNat 5 n)
  pk [(0, f.stat.toNat), (16, b1 f.gclamp), (17, b1 f.gmiss), (18, b1 f.glate), (19, b1 f.gxfall), (20, b1 town)]

/-! ## Tref, window and banks -/

/-- Integer bits of a Tref (R152). -/
def trefInt (t : BitVec 56) : U40 := fd t 16 40

/-- The first or next Tref lies in this fc, or a move of the Gauge has passed over it (R153, R905). -/
def boundaryDue (s : State) (n : Nat) : Bool :=
  let f := s.flume n
  f.arm && awake s &&
    (f.passed || reached40 (trefInt (if f.inPeriod then f.next else f.tref)) s.clk.gauge s.clk.adv.toNat)

/-- Fc of the current period, the boundary fc being 0 (R165). -/
def periodFc (s : State) (n : Nat) : Nat := s.clk.fc - (s.flume n).boundaryFc

def bankWord (f : Flume) (i : Nat) : U32 := vget f.bank i 0

/-- A sample in the format of SFMT (R161). -/
def sampleVal (sfmt : Bool) (v : BitVec 24) : Int := if sfmt then v.toNat else v.toInt

/-- The boundary of a carrier period (R154, R155, R172): the copy, the gate flags, the owned timer, the window. -/
def boundary (n : Nat) (s : State) : State :=
  let f := s.flume n
  let t : BitVec 56 := if f.inPeriod then f.next else f.tref
  let per : BitVec 56 := (f.peri.zeroExtend 56 <<< 16) ||| f.perf.zeroExtend 56
  let s := if f.pb.rdy then
      s.modFl n (fun f => { f with bank := f.pb.pend, pb := { f.pb with rdy := false }, pbAt := 0 })
    else flFlag n 6 s
  let s := s.modFl n (fun f =>
    { f with tref := t, next := t + per, gclamp := false, gmiss := false, glate := false, gxfall := false
             inPeriod := true, boundaryFc := s.clk.fc, passed := false, taken := false, closed := false, prev := none })
  if (s.timer f.tmr.toNat).flume = some (BitVec.ofNat 5 n) then
    schedule s (s.clk.fc + 1) 12 (.timerRestart f.tmr)
  else s

/-- A boundary of this fc precedes what else falls on the flume in this fc (R156, R186, R338). -/
def withBoundary (n : Nat) (s : State) : State := if boundaryDue s n then boundary n s else s

/-! ## Computing (R161-R164, R168, R175-R181) -/

/-- The rounded offset clamped to Lmin and Lmax: the value and which limit changed it (R162, R163). -/
def clampOffset (f : Flume) (v : Int) : Int × Option Bool :=
  let lo := (bankWord f 5).toInt
  let hi := (bankWord f 6).toInt
  let a := if v < lo then lo else v
  let b := if hi < a then hi else a
  (b, if b = v then none else some (decide (hi < a)))

def edgeOf (f : Flume) : BitVec 2 := fd (bankWord f 7) 0 2
def startOf (f : Flume) : BitVec 2 := fd (bankWord f 7) 2 2

/-- The clamp and commit stages of a computation that ends at `commit`, its clamp at `clampAt` (R168, R181). -/
def finish (n : Nat) (v : Int) (clampAt commit : Nat) (s : State) : State :=
  let f := s.flume n
  let c := clampOffset f v
  let t := addT (trefInt f.tref) c.1
  let k := BitVec.ofNat 5 n
  let s := match c.2 with
    | none => s
    | some hi => schedule s clampAt 20 (.flumeClamp k hi)
  schedule s commit 21 (.flumeCommit k t (edgeOf f) (startOf f) (trefInt f.next) f.boundaryFc)

/-- The affine sum rounded to a sub-tick (R161, R162). -/
def affineSum (f : Flume) (x1 x2 : Int) : Int :=
  let q1 := sampleVal f.sfmt (fd (bankWord f 3) 0 24)
  let q2 := sampleVal f.sfmt (fd (bankWord f 4) 0 24)
  shrI ((bankWord f 0).toInt * 65536 + (bankWord f 1).toInt * (x1 - q1) + (bankWord f 2).toInt * (x2 - q2) + 32768) 16

/-- Stage 1 of the affine computation, at `land` + 1 (R167, R168). -/
def affine (n : Nat) (x1 : BitVec 24) (s : State) : State :=
  let f := s.flume n
  let q2 := sampleVal f.sfmt (fd (bankWord f 4) 0 24)
  let x2 : Int := match f.x2 with
    | some v => if f.p2en then sampleVal f.sfmt v else q2
    | none => q2
  finish n (affineSum f (sampleVal f.sfmt x1) x2) (s.clk.fc + 4) (s.clk.fc + 6) s

/-- Rounded to the nearest integer, halves up. -/
def roundDiv (a b : Int) : Int := (2 * a + b) / (2 * b)

/-- The interpolated part of a crossing within its bounds: exact value num/den over Δ sub-ticks (R178, R179). -/
def interpolate (num den : Int) (delta : Nat) (k : Nat) : Int :=
  let pick (lo hi : Int) : Int :=
    lo + ((Config.freeValue k).toNat : Int) % (hi - lo + 1)
  if delta ≤ 4096 then
    let r := roundDiv num den
    pick (r - 1) (r + 1)
  else pick (roundDiv (4096 * num - den * delta) (4096 * den)) (roundDiv (4096 * num + den * delta) (4096 * den))

/-- A sample of a crossing flume lands in the window (R175-R181). -/
def crossing (n : Nat) (x : BitVec 24) (s : State) : State :=
  let f := s.flume n
  let j := periodFc s n
  let h : Int := sampleVal f.sfmt (fd (bankWord f 3) 0 24) * 65536 - (bankWord f 1).toInt * j
  let e : Int := sampleVal f.sfmt x * 65536 - h
  let cdly := (bankWord f 0).toInt
  let fromTref (g : U64) : Int := (g.truncate 40 - trefInt f.tref).toInt
  let commit (v : Int) (s : State) : State :=
    finish n v (s.clk.fc + 8) (s.clk.fc + 9) (s.modFl n (fun f => { f with taken := true }))
  let isOver : Bool := if f.cpol then decide (e ≤ 0) else decide (0 ≤ e)
  match f.prev with
  | none =>
    if isOver then commit (fromTref s.clk.gauge + cdly) s
    else s.modFl n (fun f => { f with prev := some (e, s.clk.gauge) })
  | some (e0, g0) =>
    let before : Bool := if f.cpol then decide (0 < e0) else decide (e0 < 0)
    if before && isOver then
      let delta := (s.clk.gauge - g0).toNat
      let r := interpolate (e0.natAbs * delta) (e - e0).natAbs delta s.free
      commit (fromTref g0 + r + cdly) { s with free := s.free + 1 }
    else s.modFl n (fun f => { f with prev := some (e, s.clk.gauge) })

/-- A valid sample on PORT1 of flume n (R165, R166, R174-R176). -/
def sample1 (n : Nat) (x : BitVec 24) (s : State) : State :=
  let s := withBoundary n s
  let f := s.flume n
  let j := periodFc s n
  if f.arm && f.inPeriod && decide (f.wopen.toNat ≤ j) then
    match f.mode.toNat with
    | 1 =>
      if j ≤ f.wclose.toNat then
        if f.taken then flFlag n 7 s
        else schedule (s.modFl n (fun f => { f with taken := true })) (s.clk.fc + 1) 19 (.flumeAffine (BitVec.ofNat 5 n) x)
      else s
    | 2 => if f.taken || f.closed then s else crossing n x s
    | _ => s
  else s

/-- A mailbox takes a sample (R195, R196). -/
def mailbox (m : Mb) (x : BitVec 24) (tag : BitVec 4) : Mb := { sample := x, tag := tag, ovr := m.ovr || m.new, new := true }

/-- Offset of a mailbox register. -/
def mbOff (n : Nat) (second : Bool) : Nat := 0x9028 + 0x40 * n + (if second then 4 else 0)

/-- A landing sets NEW of a mailbox, and OVR where it held an unread sample (R13, R195, R196). -/
def mbLand (n : Nat) (second : Bool) (s : State) : State :=
  let m := if second then (s.flume n).mb2 else (s.flume n).mb1
  rcSet (mbOff n second) (pk [(30, b1 m.ovr), (31, b1 m.new)]) (fun v => v ||| pk [(30, b1 m.new), (31, 1)]) s

/-- A valid sample on port p reaches flume n (R147, R148, R174, R195). -/
def flumeSample (n p : Nat) (x : BitVec 24) (tag : BitVec 4) (s : State) : State :=
  let f := s.flume n
  let s := if f.port1.toNat = p then
      (mbLand n false s).modFl n (fun f => { f with mb1 := mailbox f.mb1 x tag, mbt := fd s.clk.gauge 0 32 }) else s
  let s := if f.p2en && f.port2.toNat = p then
      (mbLand n true s).modFl n (fun f => { f with mb2 := mailbox f.mb2 x tag, x2 := if f.arm then some x else f.x2 }) else s
  if f.port1.toNat = p then sample1 n x s else s

/-! ## Commits and posts (R168-R171, R181-R185) -/

/-- The action code of OPS (R157): 0b11 posts nothing. -/
def opsAction (v : BitVec 2) : Option EdgeOp := if v = 3 then none else some (edgeOpOf v)

/-- Flume n posts an action in this fc; the outlet tests it at the next fc edge (R149, R168). -/
def flumePosts (n : Nat) (op : BitVec 2) (t : U40) (s : State) : State :=
  let out := (s.flume n).out
  let r := postClaim out.toNat s
  if r.2 then schedule r.1 (s.clk.fc + 1) (30 + n) (.flumePost (BitVec.ofNat 5 n) out op t s.clk.fc) else r.1

/-- A commit in this fc: DONE, LASTL, the post, the start action one fc later (R168, R169, R171). -/
def commit (n : Nat) (t : U40) (edge start : BitVec 2) (next : U40) (s : State) : State :=
  let s := flFlag n 0 (s.modFl n (fun f => { f with lastl := fd t 0 32 }))
  let s := if edge = 3 then s else flumePosts n edge t s
  if start = 3 then s else schedule s (s.clk.fc + 1) 22 (.flumeStart (BitVec.ofNat 5 n) start next)

/-- The start action is posted in this fc (R171). -/
def startAction (n : Nat) (op : BitVec 2) (t : U40) (s : State) : State := flumePosts n op t s

/-- The outlet tests a flume's post; a late one sets LATE and GLATE (R185). -/
def flumePostTest (n out : Nat) (op : BitVec 2) (t : U40) (made : Nat) (s : State) : State :=
  let r := postR out (edgeOpOf op) (BitVec.ofNat 8 n) t made (withBoundary n s)
  if r.2 then flFlag n 1 (gateFlag n 2 r.1) else r.1

/-- The clamp has changed the value (R163). -/
def flumeClamped (n : Nat) (hi : Bool) (s : State) : State :=
  flFlag n (if hi then 4 else 3) (gateFlag n 0 (withBoundary n s))

/-- Stage 7 or 9: the commit of the computation of the period that began in fc `per`. -/
def flumeCommitStage (n : Nat) (t : U40) (edge start : BitVec 2) (next : U40) (per : Nat) (s : State) : State :=
  let s := withBoundary n s
  commit n t edge start next
    (s.modFl n (fun f => if f.boundaryFc = per && f.mode = 2 then { f with closed := true } else f))

/-- An act of flume n, in whatever stage. -/
def ofFlume (n : Nat) : Act → Bool
  | .flumeAffine k _ => k.toNat = n
  | .flumeClamp k _ => k.toNat = n
  | .flumeCommit k _ _ _ _ _ => k.toNat = n
  | .flumeStart k _ _ => k.toNat = n
  | .flumePost k _ _ _ _ => k.toNat = n
  | _ => false

/-- A crossing computation of flume n that has not committed (R183). -/
def crossingInFlight (n : Nat) : Act → Bool
  | .flumeClamp k _ => k.toNat = n
  | .flumeCommit k _ _ _ _ _ => k.toNat = n
  | _ => false

def dropActs (p : Act → Bool) (s : State) : State := { s with due := s.due.filter (fun d => !p d.act) }

/-! ## Arming and disarming (R188-R192) -/

/-- R188's conditions on a flume. -/
def canArm (s : State) (f : Flume) : Bool :=
  (f.mode = 1 || f.mode = 2) && f.pb.rdy && decide (0x400 ≤ f.peri.toNat) && decide (f.out.toNat ≤ 95)
    && decide (f.wopen ≤ f.wclose) && decide (f.wclose.toNat + 16 ≤ f.peri.toNat / 64)
    && decide (1024 ≤ lead40 (trefInt f.tref) s.clk.gauge) && decide (lead40 (trefInt f.tref) s.clk.gauge < 2 ^ 39)

/-- The claim of a flume that arms on its timer: an owner keeps it, and of the claims of one fc on an unowned timer that of
the lowest-numbered flume holds (R150). -/
def claimTimer (n : Nat) (s : State) : State :=
  let f := s.flume n
  let take (s : State) : State :=
    s.modTmr f.tmr.toNat (fun t => { t with flume := some (BitVec.ofNat 5 n), claimAt := s.clk.fc + 1 })
  if f.tmren then
    match (s.timer f.tmr.toNat).flume with
    | none => take s
    | some m =>
      if (s.timer f.tmr.toNat).claimAt = s.clk.fc + 1 && decide (n < m.toNat) then flFlag m.toNat 11 (take s)
      else flFlag n 11 s
  else s

/-- Arms flume n if R188 allows it, else ARMERR (R188, R189). -/
def armFlume (n : Nat) (s : State) : State :=
  if canArm s (s.flume n) then
    claimTimer n (s.modFl n (fun f =>
      { f with arm := true, tref := f.tref &&& ~~~0xFFFF#56, inPeriod := false, passed := false, x2 := none
               taken := false, closed := false, prev := none }))
  else flFlag n 10 s

/-- Disarms flume n (R192). -/
def disarm (n : Nat) (s : State) : State :=
  if (s.flume n).arm then
    let s := dropActs (ofFlume n) s
    let s := s.modFl n (fun f =>
      { f with arm := false, gclamp := false, gmiss := false, glate := false, gxfall := false, inPeriod := false
               passed := false, taken := false, closed := false, prev := none })
    { s with tmr := vmap s.tmr (fun _ t => if t.flume = some (BitVec.ofNat 5 n) then { t with flume := none } else t) }
  else s

/-- The configuration bits of CTL (R199). -/
def flCtl (f : Flume) : U32 :=
  pk [(1, f.mode.toNat), (3, b1 f.sfmt), (4, b1 f.cpol), (5, b1 f.misspol), (6, b1 f.p2en), (7, b1 f.tmren),
    (8, f.port1.toNat), (13, f.port2.toNat), (18, f.out.toNat), (25, f.tmr.toNat)]

/-- A write of FL[n].CTL (R188-R191, R199). -/
def writeFlCtl (n : Nat) (v : U32) (s : State) : State :=
  let f := s.flume n
  if f.arm then
    let s := flFlagIf (flCtl f != (v &&& 0x3FFFFFFE#32)) n 9 s
    if bit v 0 then s else disarm n s
  else
    let s := s.modFl n (fun f =>
      { f with mode := fd v 1 2, sfmt := bit v 3, cpol := bit v 4, misspol := bit v 5, p2en := bit v 6
               tmren := bit v 7, port1 := fd v 8 5, port2 := fd v 13 5, out := fd v 18 7, tmr := fd v 25 5 })
    if bit v 0 then armFlume n s else s

/-- A write of a field that an armed flume protects (R190). -/
def writeGuarded (n : Nat) (changes : Bool) (f : Flume → Flume) (s : State) : State :=
  if (s.flume n).arm then flFlagIf changes n 9 s else s.modFl n f

def writeFlReg (n : Nat) (r : FlumeReg) (v : U32) (s : State) : State :=
  let f := s.flume n
  let t := trefInt f.tref
  match r with
  | .ctl => writeFlCtl n v s
  | .trefl => writeGuarded n (fd t 0 32 != v)
      (fun f => { f with tref := (fd t 32 8 ++ v) ++ fd f.tref 0 16 }) s
  | .trefh => writeGuarded n (fd t 32 8 != fd v 0 8)
      (fun f => { f with tref := (fd v 0 8 ++ fd t 0 32) ++ fd f.tref 0 16 }) s
  | .wopen => writeGuarded n (f.wopen != v) (fun f => { f with wopen := v }) s
  | .wclose => writeGuarded n (f.wclose != v) (fun f => { f with wclose := v }) s

/-! ## Banks (R157-R160) -/

/-- One write of a pending bank, its index or its seal (R159, R160, R207-R209, R334): the bank after it, and whether a word
was lost because RDY was 1. A read of PBDATA and a write of it move the index on. -/
def bankStep (b : PendBank) (op : BankOp) : PendBank × Bool :=
  let next : PendBank := if b.ainc then { b with idx := b.idx + 1 } else b
  match op with
  | .port i v => if b.rdy then (b, true) else ({ b with pend := vset b.pend i.toNat v }, false)
  | .data v =>
    if b.act then (next, false)
    else if b.rdy then (next, true)
    else ({ next with pend := vset b.pend b.idx.toNat v }, false)
  | .read => (next, false)
  | .index v => ({ b with idx := fd v 0 3, act := bit v 3, ainc := bit v 4 }, false)
  | .seal => ({ b with rdy := true }, false)

/-- The writes of one fc from the bank before them, and whether a word is lost. -/
def bankReplay (b : PendBank) (l : List (Nat × BankOp)) : PendBank × Bool :=
  l.foldl (fun a p => let r := bankStep a.1 p.2; (r.1, a.2 || r.2)) (b, false)

/-- A write of rank `k` takes its place among those of its fc: behind every write of its rank or a lower one (R337). -/
def bankInsert (k : Nat) (op : BankOp) : List (Nat × BankOp) → List (Nat × BankOp)
  | [] => [(k, op)]
  | p :: t => if p.1 ≤ k then p :: bankInsert k op t else (k, op) :: p :: t

/-- Agent `ag` writes the pending bank of flume n. The writes of one fc take effect in the order of R337, whatever the order
in which they come. -/
def bankOp (ag : Agent) (n : Nat) (op : BankOp) (s : State) : State :=
  let s := withBoundary n s
  let f := s.flume n
  let now := s.clk.fc + 1
  let old := if f.pbAt = now then f.pbOld else f.pb
  let log := bankInsert (agentRank ag) op (if f.pbAt = now then f.pbLog else [])
  let r := bankReplay old log
  flFlagIf r.2 n 8 (s.modFl n (fun f => { f with pb := r.1, pbAt := now, pbOld := old, pbLog := log }))

/-- A coefficient port writes word i (R334). -/
def writePend (ag : Agent) (n i : Nat) (v : U32) (s : State) : State := bankOp ag n (.port (BitVec.ofNat 3 i) v) s

/-- RDY is set (R160, R209, R338). -/
def sealBank (ag : Agent) (n : Nat) (s : State) : State := bankOp ag n .seal s

/-- A write of PBDATA (R159, R207, R208). -/
def writePbdata (ag : Agent) (n : Nat) (v : U32) (s : State) : State := bankOp ag n (.data v) s

/-- The bank word that PBDATA reads (R207). -/
def pbdata (f : Flume) : U32 := vget (if f.pb.act then f.bank else f.pb.pend) f.pb.idx.toNat 0

/-! ## Registers -/

/-- A mailbox as a read shows it: OVR and NEW as they stood before a landing of this fc (R13, R205). -/
def mbShown (s : State) (n : Nat) (second : Bool) : U32 :=
  let m := if second then (s.flume n).mb2 else (s.flume n).mb1
  let rc := rcShown s (mbOff n second) (pk [(30, b1 m.ovr), (31, b1 m.new)])
  pk [(0, m.sample.toNat), (24, m.tag.toNat)] ||| rc

/-- What a read of a mailbox clears: OVR and NEW, except what a landing of this fc has set (R13, R205). -/
def mbClear (n : Nat) (second : Bool) (s : State) : State :=
  let left := rcLeft s (mbOff n second)
  let read (m : Mb) : Mb := { m with ovr := bit left 30, new := bit left 31 }
  rcTaken (mbOff n second) (s.modFl n (fun f =>
    if second then { f with mb2 := read f.mb2 } else { f with mb1 := read f.mb1 }))

/-- A write of a register of FL[n] (R198-R209). -/
def flWrite (ag : Agent) (n r : Nat) (v : U32) (s : State) : State :=
  match r with
  | 0x00 => writeFlReg n .ctl v s
  | 0x04 => (withBoundary n s).modFl n (fun f => { f with peri := v })
  | 0x08 => (withBoundary n s).modFl n (fun f => { f with perf := fd v 0 16 })
  | 0x0C => writeFlReg n .trefl v s
  | 0x10 => writeFlReg n .trefh v s
  | 0x14 => writeFlReg n .wopen v s
  | 0x18 => writeFlReg n .wclose v s
  | 0x1C => s.modFl n (fun f => { f with stat := w1c f.stat (fd v 0 12) })
  | 0x20 => s.modFl n (fun f => { f with ien := fd v 0 12 })
  | 0x34 => bankOp ag n (.index (fd v 0 5)) s
  | 0x38 => writePbdata ag n v s
  | 0x3C => if bit v 0 then sealBank ag n s else s
  | _ => s

/-- A register of FL[n] as an inspect read returns it (R198-R209). -/
def flRead (s : State) (n r : Nat) : U32 :=
  let f := s.flume n
  match r with
  | 0x00 => flCtl f ||| pk [(0, b1 f.arm)]
  | 0x04 => f.peri
  | 0x08 => f.perf.zeroExtend 32
  | 0x0C => fd (trefInt f.tref) 0 32
  | 0x10 => (fd (trefInt f.tref) 32 8).zeroExtend 32
  | 0x14 => f.wopen
  | 0x18 => f.wclose
  | 0x1C => flStat s n
  | 0x20 => f.ien.zeroExtend 32
  | 0x24 => f.mbt
  | 0x28 => mbShown s n false
  | 0x2C => mbShown s n true
  | 0x30 => f.lastl
  | 0x34 => pk [(0, f.pb.idx.toNat), (3, b1 f.pb.act), (4, b1 f.pb.ainc)]
  | 0x38 => pbdata f
  | 0x3C => pk [(0, b1 f.pb.rdy)]
  | _ => 0

/-- What a read of a register of FL[n] does beside (R197, R205, R207). -/
def flReadEffect (ag : Agent) (n r : Nat) (s : State) : State :=
  match r with
  | 0x28 => mbClear n false s
  | 0x2C => mbClear n true s
  | 0x38 => bankOp ag n .read s
  | _ => s

/-! ## Commands -/

def execCarrierBoundary (n : Fin 32) (s : State) : Host.Outcome State Fault Refusal := .next (inCore s (withBoundary n s))

/-- WINDOW_CLOSE_MISS: no sample landed in the window of an affine period (R170, R171). -/
def execWindowCloseMiss (n : Fin 32) (s : State) : Host.Outcome State Fault Refusal :=
  let f := s.flume n
  .next (inCore s (if f.arm && awake s && f.mode = 1 && f.inPeriod && !f.taken && !f.closed && !boundaryDue s n
      && decide (f.wclose.toNat < periodFc s n) then
    let s := flFlag n 2 (gateFlag n 1 (s.modFl n (fun f => { f with closed := true })))
    if f.misspol then
      finish n (affineSum f (sampleVal f.sfmt (fd (bankWord f 3) 0 24)) (sampleVal f.sfmt (fd (bankWord f 4) 0 24)))
        (s.clk.fc + 4) (s.clk.fc + 6) s
    else if startOf f = 3 then s else startAction n (startOf f) (trefInt f.next) s
  else s))

/-- CROSSING_FALLBACK: no crossing has committed by Tref + Lmax − 192 (R183, R184). A point that lies in or past the boundary fc
of the next period is not reached: the boundary has ended the period (DESIGN CHOICE, log entry 35). -/
def execCrossingFallback (n : Fin 32) (s : State) : Host.Outcome State Fault Refusal :=
  let s0 := s
  let s := withBoundary n s
  let f := s.flume n
  let lmax := (bankWord f 6).toInt
  .next (inCore s0 (if f.arm && awake s && f.mode = 2 && f.inPeriod && !f.closed
      && reached40 (addT (trefInt f.tref) (lmax - 192)) s.clk.gauge s.clk.adv.toNat then
    let s := dropActs (crossingInFlight n) s
    let s := flFlag n 5 (gateFlag n 3 (s.modFl n (fun f => { f with taken := true, closed := true })))
    commit n (addT (trefInt f.tref) lmax) (edgeOf f) (startOf f) (trefInt f.next) s
  else s0))

end Sys2Proof.Machine
end

