-- ==== Sys2Proof/Machine/Protect.lean ====
section
/-! DEFINITION. Check gates, the shut and the watchdog (08), and the trip and shut inputs (R53-R57). -/

namespace Sys2Proof.Machine

/-! ## Shut sources and the shut (R413-R424) -/

/-- The gate's shut source is asserted (R413). -/
def gateSource (g : Gate) : Bool := g.en && g.ev && g.shuten

/-- SHUTSRC (R446): the sources asserted now. -/
def shutSources (s : State) : U32 :=
  bitsFrom 32 (fun i =>
    match i with
    | 0 => s.ports.shutI
    | 1 => s.shut.req
    | 2 => s.shut.link
    | 3 => s.shut.wdog
    | i => if i < 12 then gateSource (s.getGate (i - 4))
           else if i < 28 then (s.thr (i - 12)).run = .dry else false)

/-- The level sources of R413 as a REARM tests them: with the EV of the gates that it restarts read as 0 (R422). -/
def levelSources (s : State) : U32 :=
  shutSources { s with gate := vmap s.gate (fun _ g => if g.rar then { g with ev := false } else g) } &&& ~~~0xC#32

/-- A locally sourced shut sets out on the link, once (R416, R713). -/
def handShut (loc : Bool) (s : State) : State :=
  if loc && !s.shut.sent then sendShut { s with shut := { s.shut with sent := true } } else s

/-- A persistence trigger of the ledger: due, or latched while a persistence runs (R752). -/
def lgTrigger (on : Bool) (s : State) : State :=
  if on && s.lg.en then
    { s with lg := if s.lg.persist = .idle then { s.lg with due := true } else { s.lg with ppend := true } }
  else s

/-- The source with SHUTSRC bit `b` asserts in this fc: it begins a shut, or adds to the one that is active (R415, R416,
R420); `loc`: it is a source that originates shut orders (R421, R713). -/
def shutAssert (b : Nat) (loc : Bool) (s : State) : State :=
  if !s.shut.active then
    let s := { s with shut := { s.shut with
        active := true, first := BitVec.ofNat 5 b, count := satInc s.shut.count, sAt := s.clk.fc, sent := false
        releaseAt := none } }
    handShut loc (raise 426 (lgTrigger s.lg.shutp s))
  else if s.shut.sAt = s.clk.fc then
    let s := if b < s.shut.first.toNat then { s with shut := { s.shut with first := BitVec.ofNat 5 b } } else s
    handShut loc s
  else s

/-- A shut order is received (R413): the link source latches. -/
def latchLink (s : State) : State :=
  shutAssert 2 false { s with shut := { s.shut with link := true, linkAt := s.clk.fc + 1 } }

def shutAssertIf (c : Bool) (b : Nat) (loc : Bool) (s : State) : State := if c then shutAssert b loc s else s

/-- S + 1 of R416: the shut group's queues are flushed and its flumes disarmed. -/
def shutFlush (s : State) : State :=
  let s := s.each 96 (fun s n => if (s.outlet n).shutg then flushOut n s else s)
  s.each 32 (fun s n =>
    let f := s.flume n
    if f.arm && decide (f.out.toNat < 96) && (s.outlet f.out.toNat).shutg then disarm n s else s)

/-- A REARM (R422). A latched source that has asserted in its fc is kept, and with it the shut (R424). -/
def rearm (s : State) : State :=
  if !s.shut.active then s
  else
    let now := s.clk.fc + 1
    let s := { s with gate := vmap s.gate (fun _ g => if g.en && g.rar then { g with restart := true } else g) }
    if levelSources s = 0 then
      { s with shut := { s.shut with
          link := s.shut.link && s.shut.linkAt = now, wdog := s.shut.wdog && s.shut.wdogAt = now
          releaseAt := some (max now (s.shut.sAt + 2)) } }
    else raise 428 (hwSet 0xE408 2 { s with shut := { s.shut with rfail := true } })

/-- The watchdog counts from 0 again: its window has closed, unless WDCLS is 0 (R426). -/
def wdogZero (w : Wdog) : Wdog := { w with cnt := 0, opened := w.opened && w.cls = 0 }

/-- The release due at this fc edge, unless a source has asserted since (R423, R424, R431). -/
def shutRelease (s : State) : State :=
  match s.shut.releaseAt with
  | none => s
  | some f =>
    if s.clk.fc < f then s
    else
      let s := { s with shut := { s.shut with releaseAt := none } }
      if shutSources s != 0 then s
      else
        raise 427 { s with
          shut := { s.shut with active := false, freedAt := s.clk.fc + 1 }
          wdog := { wdogZero s.wdog with stopped := false } }

/-- A write of SHUTREQ (R414): the source asserts when REQ goes from 0 to 1 (R413). -/
def writeShutreq (v : U32) (s : State) : State :=
  if bit v 0 then shutAssertIf (!s.shut.req) 1 true { s with shut := { s.shut with req := true } }
  else if fd v 16 16 = 0xA55A then { s with shut := { s.shut with req := false } }
  else s

/-- SHUTSTAT (R447). -/
def shutStat (s : State) : U32 :=
  pk [(0, b1 s.shut.active), (1, b1 s.shut.rfail), (8, s.shut.first.toNat), (16, s.shut.count.toNat)]

/-- A write of a shut register (R445-R448); `err`: the agent is refused (R411). -/
def shutWrite (ag : Agent) (r : Nat) (v : U32) (s : State) : State × Resp :=
  match r with
  | 0x00 => (writeShutreq v s, {})
  | 0x08 =>
    ({ s with shut := { s.shut with rfail := s.shut.rfail && !bit v 1, count := fd v 16 16 } }, {})
  | 0x0C => if atMachine s ag then (if bit v 0 then rearm s else s, {}) else (s, { err := true })
  | 0x10 =>
    if atMachine s ag then ({ s with shut := { s.shut with orig := fd v 0 4, accept := bit v 4 } }, {})
    else (s, { err := true })
  | _ => (s, {})

def shutRead (s : State) (r : Nat) : U32 :=
  match r with
  | 0x00 => pk [(0, b1 s.shut.req)]
  | 0x04 => shutSources s
  | 0x08 => shutStat s
  | 0x10 => pk [(0, s.shut.orig.toNat), (4, b1 s.shut.accept)]
  | _ => 0

/-! ## Check gates (R400-R412) -/

/-- Place of entry i of gate k's table (R410). -/
def gateEntry (s : State) (k i : Nat) : U16 := sget 0 (4096 * k + i) s.mem.gate

/-- A gate flag of a flume in this fc (R186, R404). -/
def gateFlagSeen (s : State) (n f : Nat) : Bool :=
  let fl := (withBoundary n s).flume n
  match f with
  | 0 => fl.gclamp
  | 1 => fl.gmiss
  | 2 => fl.glate
  | _ => fl.gxfall

/-- The input that selector `v` names, with the values of the fc of evaluation (R404, R405). -/
def gateInput (s : State) (v : Nat) : Bool :=
  if v < 0x40 then bit s.ports.trip v
  else if v < 0xC0 then gateFlagSeen s ((v - 0x40) / 4) ((v - 0x40) % 4)
  else if v < 0xE0 then bit (s.getGate ((v - 0xC0) / 4)).state ((v - 0xC0) % 4)
  else if v < 0xE8 then (s.getGate (v - 0xE0)).ev
  else if v = 0xE8 then s.shut.active
  else if v = 0xE9 then s.ports.shutI
  else v = 0xFF

/-- An enabled gate forms its index from the values of this fc and reads its entry (R400), once in an fc. -/
def gateLook (s : State) (k : Nat) (g : Gate) : Gate :=
  if g.en && !g.restart && g.entry.isNone then
    let ins : Byte := bitsFrom 8 (fun i => gateInput s (vget g.isel i 0xFE).toNat)
    { g with inputs := ins, entry := some (ins, gateEntry s k (g.state.toNat * 256 + ins.toNat)) }
  else g

/-- GATE_EVALUATE: every enabled gate that has not yet evaluated in this fc does (R400, R404, R405). -/
def gateEvaluate (s : State) : State := { s with gate := vmap s.gate (fun k g => gateLook s k g) }

/-- What a gate becomes at the fc edge that ends an fc (R400, R401, R406, R412), and whether its EV rises (R407). -/
def gateApply (g : Gate) : Gate × Bool :=
  if !g.en then ({ g with entry := none }, false)
  else if g.restart then
    ({ g with state := g.init, fen := 0, fsafe := false, ev := false, restart := false, toInit := false, entry := none },
      false)
  else match g.entry with
    | none => (g, false)
    | some (_, e) =>
      let next : BitVec 4 := if g.toInit then g.init else fd e 12 4
      let rise := bit e 2 && !g.ev
      ({ g with state := next, fen := fd e 4 8, fsafe := bit e 3, ev := bit e 2, evf := g.evf || rise, toInit := false
                entry := none }, rise)

/-- An fc edge: every enabled gate applies the entry it has read (R400-R409), and gates whose EV asserts a shut source do so
(R413, R415). -/
def gatesEdge (s : State) : State :=
  let t := { s with gate := vmap s.gate (fun _ g => (gateApply g).1) }
  let t := t.each 8 (fun t k =>
    if (gateApply (s.getGate k)).2 then raise (272 + k) (hwSet (0xE014 + 0x40 * k) 0x10000 t) else t)
  t.each 8 (fun t k => shutAssertIf (gateSource (t.getGate k)) (4 + k) true t)

/-- The entry forces at least one outlet (R444). -/
def gateForcing (g : Gate) : Bool :=
  g.en && (List.range 8).any (fun j => bit g.fen j && decide ((vget g.omap j 0x7F).toNat < 96))

/-- A write of GATE[k].CTL (R406, R441). -/
def writeGateCtl (k : Nat) (v : U32) (s : State) : State :=
  let s := s.modGate k (fun g =>
    let g' := { g with en := bit v 0, shuten := bit v 1, rar := bit v 2, init := fd v 4 4 }
    if !bit v 0 then { g' with state := fd v 4 4, fen := 0, fsafe := false, ev := false, restart := false, entry := none }
    else if !g.en then { g' with state := fd v 4 4, restart := true }
    else if bit v 3 then { g' with restart := true }
    else g')
  shutAssertIf (gateSource (s.getGate k)) (4 + k) true s

/-- One half of ISEL or OMAP: four fields from `base` on. -/
def fields4 {w n : Nat} (v : Vector (BitVec w) n) (base : Nat) (x : U32) : Vector (BitVec w) n :=
  (List.range 4).foldl (fun v i => vset v (base + i) (fd x (8 * i) w)) v

def word4 {w n : Nat} (v : Vector (BitVec w) n) (base : Nat) : U32 :=
  pk ((List.range 4).map (fun i => (8 * i, (vget v (base + i) 0).toNat)))

/-- A store of R411 (bits [1:0] of a table entry are reserved, R401): to a table word or a configuration register of gate k. -/
def gateStore (ag : Agent) (k : Nat) (r : GateReg) (v : U32) (s : State) : State × Resp :=
  if !ag.isHeadworks then (s, { err := true })
  else match r with
    | .ctl => (writeGateCtl k v s, {})
    | .isel0 => (s.modGate k (fun g => { g with isel := fields4 g.isel 0 v }), {})
    | .isel1 => (s.modGate k (fun g => { g with isel := fields4 g.isel 4 v }), {})
    | .omap0 => (s.modGate k (fun g => { g with omap := fields4 g.omap 0 v }), {})
    | .omap1 => (s.modGate k (fun g => { g with omap := fields4 g.omap 4 v }), {})
    | .table w =>
      if (s.getGate k).en then (hwSet (0xE014 + 0x40 * k) 0x20000 (s.modGate k (fun g => { g with wign := true })), {})
      else
        let a := 4096 * k + 2 * w.toNat
        ({ s with mem := { s.mem with gate := sput 0 (a + 1) (fd v 16 16 &&& 0xFFFC) (sput 0 a (fd v 0 16 &&& 0xFFFC) s.mem.gate) } }, {})

/-- GATE[k].STAT (R444). -/
def gateStat (g : Gate) : U32 :=
  pk [(0, g.state.toNat), (4, g.inputs.toNat), (12, b1 (gateForcing g)), (13, b1 g.ev), (16, b1 g.evf), (17, b1 g.wign)]

def gateWrite (ag : Agent) (k r : Nat) (v : U32) (s : State) : State × Resp :=
  match r with
  | 0x00 => gateStore ag k .ctl v s
  | 0x04 => gateStore ag k .isel0 v s
  | 0x08 => gateStore ag k .isel1 v s
  | 0x0C => gateStore ag k .omap0 v s
  | 0x10 => gateStore ag k .omap1 v s
  | 0x14 => (s.modGate k (fun g => { g with evf := g.evf && !bit v 16, wign := g.wign && !bit v 17 }), {})
  | _ => (s, {})

def gateRead (s : State) (k r : Nat) : U32 :=
  let g := s.getGate k
  match r with
  | 0x00 => pk [(0, b1 g.en), (1, b1 g.shuten), (2, b1 g.rar), (4, g.init.toNat)]
  | 0x04 => word4 g.isel 0
  | 0x08 => word4 g.isel 4
  | 0x0C => word4 g.omap 0
  | 0x10 => word4 g.omap 4
  | 0x14 => gateStat g
  | _ => 0

/-- Word w of gate k's table (R410). -/
def gateTableRead (s : State) (k w : Nat) : U32 := gateEntry s k (2 * w + 1) ++ gateEntry s k (2 * w)

/-! ## Watchdog (R426-R438) -/

/-- A warm reset is requested; `b` is its RSTCAUSE bit (R818-R822). -/
def requestReset (b : Nat) (s : State) : State :=
  if porLow s then s else { s with pwr := { s.pwr with rstReq := setBit s.pwr.rstReq b true } }

/-- The watchdog expires (R430). -/
def wdogExpire (cause : BitVec 2) (s : State) : State :=
  let s := { s with
    wdog := { s.wdog with
      exp := true, cause := cause, stopped := true, armed := s.wdog.armed && cause = 0
      resetAt := if s.wdog.wrst then some (s.clk.fc + 64) else s.wdog.resetAt }
    shut := { s.shut with wdog := true, wdogAt := s.clk.fc + 1 } }
  shutAssert 3 true (raise 425 (hwSet 0x26010 0x4000000 s))

/-- The watchdog counts: enabled, not expired, the boot over, not paused (R426, R430, R434-R436). -/
def wdogCounts (s : State) : Bool :=
  s.wdog.en && !s.wdog.stopped && !s.wdog.frozen && s.hg.ready && awake s

/-- A store to WDSVC (R427-R429). -/
def wdogService (ag : Agent) (v : U32) (s : State) : State :=
  match ag with
  | .sup n =>
    if n = s.wdog.svcthr && s.wdog.en && !s.wdog.stopped then
      let k : Byte := fd v 0 8
      if k = 0x5A && !s.wdog.armed then { s with wdog := { s.wdog with armed := true } }
      else if k = 0xA5 && s.wdog.armed then
        if s.wdog.cnt < s.wdog.cls then wdogExpire 1 s
        else { s with wdog := { wdogZero s.wdog with armed := false } }
      else wdogExpire 2 s
    else s
  | .law _ => s
  | _ => hwSet 0x26010 0x20000000 { s with wdog := { s.wdog with foreign := true } }

/-- FROZEN follows the monitor of the serviced thread; a resumed count is moved into the window (R436, R437). -/
def wdogFreeze (s : State) : State :=
  let now := s.wdog.en && s.wdog.dbgfrz && (s.thr s.wdog.svcthr.toNat).mon
  if now then { s with wdog := { s.wdog with frozen := true } }
  else if s.wdog.frozen then
    let w := s.wdog
    let eighth := (w.per.toNat - w.cls.toNat) / 8
    let cnt := if !w.stopped && decide (w.per.toNat - w.cnt.toNat < eighth) then BitVec.ofNat 24 (w.per.toNat - eighth) else w.cnt
    { s with wdog := { w with frozen := false, cnt := cnt } }
  else s

/-- A write of WDOG (R432, R433, R449). Below machine level the debugger writes
DBGFRZ alone (R855). -/
def writeWdog (ag : Agent) (v : U32) (s : State) : State :=
  let w := s.wdog
  if ag = .debugger && (w.lock || s.dbg.level != 3) then
    wdogFreeze { s with wdog := { w with dbgfrz := bit v 3 } }
  else if w.lock then wdogFreeze s
  else
    let thr : BitVec 4 := fd v 4 4
    let ok := w.per != 0 && decide (w.cls < w.per) && thr != 15
    if bit v 0 && !w.en && !ok then s
    else wdogFreeze { s with wdog := { w with
      en := w.en || bit v 0, lock := bit v 1, wrst := bit v 2, dbgfrz := bit v 3, svcthr := thr } }

/-- WDSTAT (R451). -/
def wdStat (s : State) : U32 :=
  let w := s.wdog
  pk [(0, w.cnt.toNat), (24, b1 (w.en && decide (w.cls ≤ w.cnt))), (25, b1 w.armed), (26, b1 w.exp), (27, w.cause.toNat),
    (29, b1 w.foreign), (30, b1 w.frozen)]

def wdogWrite (ag : Agent) (r : Nat) (v : U32) (s : State) : State :=
  match r with
  | 0x00 => writeWdog ag v s
  | 0x04 => if s.wdog.lock then s else { s with wdog := { s.wdog with per := fd v 0 24 } }
  | 0x08 =>
    if s.wdog.lock then s
    else { s with wdog := { s.wdog with cls := fd v 0 24, opened := s.wdog.opened && decide (fd v 0 24 ≤ s.wdog.cnt) } }
  | 0x0C => wdogService ag v s
  | 0x10 => { s with wdog := { s.wdog with exp := s.wdog.exp && !bit v 26, foreign := s.wdog.foreign && !bit v 29 } }
  | _ => s

def wdogRead (s : State) (r : Nat) : U32 :=
  let w := s.wdog
  match r with
  | 0x00 => pk [(0, b1 w.en), (1, b1 w.lock), (2, b1 w.wrst), (3, b1 w.dbgfrz), (4, w.svcthr.toNat)]
  | 0x04 => w.per.zeroExtend 32
  | 0x08 => w.cls.zeroExtend 32
  | 0x10 => wdStat s
  | _ => 0

/-! ## Commands -/

/-- TRIP_INPUT_CHANGE: trip_i[m] after its synchroniser has a new level (R57). -/
def execTripInputChange (m : Fin 64) (level : Bool) (s : State) : Host.Outcome State Fault Refusal :=
  .next (inCore s (if bit s.ports.trip m != level then
    raiseData (32 + m) (pk [(0, b1 level)]) { s with ports := { s.ports with trip := setBit s.ports.trip m level } }
  else s))

/-- SHUT_INPUT_CHANGE: shut_i after its synchroniser has a new level (R55, R56, R413). -/
def execShutInputChange (level : Bool) (s : State) : Host.Outcome State Fault Refusal :=
  .next (inCore s (shutAssertIf (level && !s.ports.shutI) 0 true { s with ports := { s.ports with shutI := level } }))

/-- GATE_EVALUATE: in an fc of the running fast clock (R400). A gate that gets none in an fc evaluates at its end. -/
def execGateEvaluate (s : State) : Host.Outcome State Fault Refusal :=
  .next (inCore s (if s.clk.running then gateEvaluate s else s))

/-- WATCHDOG_COUNT: 64 sc have passed (R426). -/
def execWatchdogCount (s : State) : Host.Outcome State Fault Refusal :=
  .next (inCore s (if wdogCounts s && decide (s.wdog.cnt < s.wdog.per) then
    { s with wdog := { s.wdog with cnt := s.wdog.cnt + 1 } } else s))

/-- WATCHDOG_WINDOW_OPEN: CNT has reached WDCLS (R426). -/
def execWatchdogWindowOpen (s : State) : Host.Outcome State Fault Refusal :=
  .next (inCore s (if wdogCounts s && !s.wdog.opened && decide (s.wdog.cls ≤ s.wdog.cnt) then
    raise 424 { s with wdog := { s.wdog with opened := true } } else s))

/-- WATCHDOG_EXPIRY: CNT has reached WDPER (R428, R430). -/
def execWatchdogExpiry (s : State) : Host.Outcome State Fault Refusal :=
  .next (inCore s (if wdogCounts s && decide (s.wdog.per ≤ s.wdog.cnt) then wdogExpire 0 s else s))

/-- WATCHDOG_RESET_REQUEST: 64 fc after an expiry with WRST = 1 (R430). -/
def execWatchdogResetRequest (s : State) : Host.Outcome State Fault Refusal :=
  .next (inCore s (match s.wdog.resetAt with
    | some f => if f ≤ s.clk.fc then requestReset 3 { s with wdog := { s.wdog with resetAt := none } } else s
    | none => s))

end Sys2Proof.Machine
end

