-- ==== Sys2Proof/Machine/Turnout.lean ====
section
/-! DEFINITION. The Turnout: routing, claims, completions, the dispatcher and its registers (13). -/

namespace Sys2Proof.Machine

/-! ## Routing (R624-R627) -/

/-- The host target of a SET = 1 assignment (R624): the lowest TPRI, ties by the order after the last chosen. -/
def chooseTarget (s : State) (tset : Byte) : Option Nat :=
  let ts := (List.range 8).filter (fun t => bit tset t)
  let tpri (t : Nat) : Nat := (vget s.tur.tgt t {}).tpri.toNat
  match ts with
  | [] => none
  | t0 :: _ =>
    let low := ts.foldl (fun a t => min a (tpri t)) (tpri t0)
    firstFrom 8 (s.tur.lastChosen.toNat + 1) (fun t => bit tset t && tpri t = low)

/-- Routes source k at the end of the fc in which it has become claimable (R623, R624, R626). -/
def routeOne (s : State) (k : Nat) : State :=
  let c := s.source k
  if claimable c && c.route.isNone then
    if c.set then
      match chooseTarget s c.tset with
      | none => s
      | some t =>
        let s := s.modSrc k (fun c => { c with route := some (BitVec.ofNat 4 t) })
        { s with tur := { s.tur with lastChosen := BitVec.ofNat 3 t } }
    else s.modSrc k (fun c => { c with route := some c.tgt })
  else s

def routeAll (s : State) : State := s.each 512 routeOne

/-- irq_o after this fc (R628). -/
def irqLevels (s : State) : Byte :=
  bitsFrom 8 (fun t =>
    s.tur.src.toList.any (fun c =>
      claimable c && c.route = some (BitVec.ofNat 4 t) && decide ((vget s.tur.tgt t {}).tpri < c.pri)))

/-! ## Claims (R629-R639) -/

/-- Of the sources for which `p` holds, the one with the highest PRI, the lowest number among equals (R629, R633). -/
def bestSource (s : State) (p : Source → Bool) : Option Nat :=
  leastBy (fun k => 15 - (s.source k).pri.toNat) ((List.range 512).filter (fun k => p (s.source k)))

/-- The source that a claim by target t takes (R629). -/
def claimFor (s : State) (t : Nat) : Option Nat :=
  bestSource s (fun c => claimable c && c.route = some (BitVec.ofNat 4 t))

/-- What CLAIM, TDISP and TDPOLL show of a source (R642, R643). -/
def claimWord (s : State) (valid : Bool) : Option Nat → U32
  | none => 0xFFFF
  | some k => pk [(0, k), (16, (s.source k).pri.toNat), (31, b1 valid)]

/-- A claim by target t (R629). -/
def claimTarget (t : Nat) (s : State) : U32 × State :=
  match claimFor s t with
  | none => (0xFFFF, s)
  | some k =>
    (claimWord s false (some k),
      (takeCount k s).modSrc k (fun c => { c with service := some (.target (BitVec.ofNat 3 t)) }))

/-- Priorities in service on thread n (R633). -/
def servicePri (s : State) (n : Nat) : Nat :=
  s.tur.src.toList.foldl (fun a c =>
    match c.service with
    | some (.thread k _) => if k.toNat = n then max a c.pri.toNat else a
    | _ => a) 0

/-- The highest claimable source that the dispatcher holds for thread n (R633, R639). -/
def dispatchable (s : State) (n : Nat) : Option Nat :=
  bestSource s (fun c => claimable c && c.route = some 8 && c.dthr.toNat = n)

/-- The source that the dispatcher offers thread n (R633). -/
def offered (s : State) (n : Nat) : Option Nat :=
  match dispatchable s n with
  | none => none
  | some k => if servicePri s n < (s.source k).pri.toNat then some k else none

/-- TDPOLL of thread n (R639). -/
def tdpoll (n : Nat) (s : State) : U32 × State :=
  match dispatchable s n with
  | none => (0xFFFF, s)
  | some k => (claimWord s true (some k), takeCount k s)

/-- Claims a source for thread n at the entry that makes its DEPTH `depth` (R634). -/
def dispatchClaim (n k : Nat) (depth : Byte) (s : State) : State :=
  (takeCount k s).modSrc k (fun c => { c with service := some (.thread (BitVec.ofNat 4 n) depth) })

/-- The return of thread n that brings DEPTH to `depth` ends the services recorded above it (R635). -/
def endServices (n : Nat) (depth : Byte) (s : State) : State :=
  { s with tur := { s.tur with src := vmap s.tur.src (fun _ c =>
      match c.service with
      | some (.thread k d) => if k.toNat = n && decide (depth < d) then { c with service := none, route := none } else c
      | _ => c) } }

/-- A reset of thread n ends every service on it (R637). -/
def endThreadServices (n : Nat) (s : State) : State :=
  { s with tur := { s.tur with src := vmap s.tur.src (fun _ c =>
      match c.service with
      | some (.thread k _) => if k.toNat = n then { c with service := none, route := none } else c
      | _ => c) } }

/-- The innermost dispatched source in service on thread n (R635, R643). -/
def innermost (s : State) (n : Nat) : Option Nat :=
  let here := (List.range 512).filterMap (fun k =>
    match (s.source k).service with
    | some (.thread j d) => if j.toNat = n then some (k, d.toNat) else none
    | _ => none)
  (leastBy (fun (p : Nat × Nat) => 255 - p.2) here).map (fun p => p.1)

/-- TDISP[n] (R643). -/
def tdisp (s : State) (n : Nat) : U32 := claimWord s true (innermost s n)

/-! ## Register fields -/

/-- A write to TGT[t].COMPLETE (R631). -/
def completeWrite (t : Nat) (v : U32) (s : State) : State :=
  let k := (fd v 0 9).toNat
  if (s.source k).service = some (.target (BitVec.ofNat 3 t)) then
    s.modSrc k (fun c => { c with service := none, route := none })
  else hwSet (0x300C + 0x10 * t) 1 { s with tur := { s.tur with tgt := vmod s.tur.tgt t (fun g => { g with cerr := true }) } }

/-- A write to SWEV (R640). -/
def swevWrite (v : U32) (s : State) : State :=
  let k := (fd v 0 9).toNat
  if 448 ≤ k then raise k s else s

/-- A write to TSRC[k].CFG is taken and takes effect from the next fc (R627). -/
def sourceConfig (k : Nat) (v : U32) (s : State) : State :=
  { s with tur := { s.tur with cfgw := s.tur.cfgw ++ [(BitVec.ofNat 9 k, v)] } }

/-- What a write to TSRC[k].CFG does once it takes effect (R626, R627). -/
def applyConfig (k : Nat) (v : U32) (s : State) : State :=
  s.modSrc k (fun c =>
    let tgt : BitVec 4 := if (fd v 5 4).toNat ≤ 8 then fd v 5 4 else c.tgt
    let c' := { c with pri := fd v 0 4, set := bit v 4, tgt := tgt, dthr := fd v 9 4, tset := fd v 16 8 }
    if c'.pri = 0 then { c' with cnt := 0, route := none }
    else if c'.set = c.set && c'.tgt = c.tgt && c'.dthr = c.dthr && c'.tset = c.tset then c'
    else { c' with route := none })

/-- The writes of the fc that ends take effect in their order, and what they move has its new route (R624, R627). -/
def applyConfigs (s : State) : State :=
  let ws := s.tur.cfgw
  let s := { s with tur := { s.tur with cfgw := [] } }
  let s := ws.foldl (fun s w => applyConfig w.1.toNat w.2 s) s
  if ws.isEmpty then s else routeAll s

/-- TSRC[k].ST (R645). -/
def sourceStat (c : Source) : U32 :=
  let curt : Nat :=
    match c.service with
    | some (.target t) => t.toNat
    | some (.thread _ _) => 8
    | none => match c.route with | some t => t.toNat | none => 15
  pk [(0, c.cnt.toNat), (4, b1 c.service.isSome), (5, b1 c.satf), (8, curt)]

/-- A write of 1 to TSRC[k].ST.SATF (R12, R622). SATF that an event of this fc has set stays; if a claim of this fc still keeps that
event, SATF is 0. -/
def clearSatf (k : Nat) (s : State) : State :=
  let src := BitVec.ofNat 9 k
  let lostNow (r : Raised) : Bool := r.src = src && (match r.res with | .lost _ => true | _ => false)
  if s.tur.raised.any lostNow then
    { s with tur := { s.tur with
        raised := s.tur.raised.map (fun (r : Raised) => if lostNow r then { r with res := .lost false } else r) } }
  else s.modSrc k (fun c => { c with satf := false })

/-- A write of a Turnout register at offset `r` of 0x0_3000-0x0_4FFF (R642-R645). -/
def turnoutWrite (r : Nat) (v : U32) (s : State) : State :=
  if 0x1000 ≤ r then
    let k := (r - 0x1000) / 8
    if r % 8 = 0 then sourceConfig k v s else if bit v 5 then clearSatf k s else s
  else if r < 0x80 then
    let t := r / 0x10
    match r % 0x10 with
    | 0x0 => { s with tur := { s.tur with tgt := vmod s.tur.tgt t (fun g => { g with tpri := fd v 0 4 }) } }
    | 0x8 => completeWrite t v s
    | 0xC => { s with tur := { s.tur with tgt := vmod s.tur.tgt t (fun g => { g with cerr := g.cerr && !bit v 0 }) } }
    | _ => s
  else if r = 0x180 then swevWrite v s
  else s

/-- A Turnout register as an inspect read returns it; `thread`: the thread that reads, for TDSELF and TDPOLL (R638,
R639, R643). -/
def turnoutRead (s : State) (thread : Option Nat) (r : Nat) : U32 :=
  if 0x1000 ≤ r then
    let c := s.source ((r - 0x1000) / 8)
    if r % 8 = 0 then
      pk [(0, c.pri.toNat), (4, b1 c.set), (5, c.tgt.toNat), (9, c.dthr.toNat), (16, c.tset.toNat)]
    else sourceStat c
  else if r < 0x80 then
    let t := r / 0x10
    let g := vget s.tur.tgt t {}
    match r % 0x10 with
    | 0x0 => g.tpri.zeroExtend 32
    | 0x4 => (claimTarget t s).1
    | 0xC => pk [(0, b1 g.cerr), (1, b1 (bit s.ports.irqO t))]
    | _ => 0
  else if r < 0x140 then (if 0x100 ≤ r then tdisp s ((r - 0x100) / 4) else 0)
  else if r = 0x140 then (match thread with | some n => tdisp s n | none => 0xFFFF)
  else if r = 0x144 then (match thread with | some n => (tdpoll n s).1 | none => 0xFFFF)
  else 0

/-- The place of a reader of CLAIM in the order of R630: the APB read, then the threads in ascending number. -/
def claimPlace (thread : Option Nat) : Nat :=
  match thread with
  | some n => n + 1
  | none => 0

/-- A read of the register at offset `off` may be served in this fc: of the reads of one CLAIM, none with a later place has
claimed a source in it (R630). One that comes too late is served in the next fc. -/
def claimTurn (s : State) (thread : Option Nat) (off : Nat) : Bool :=
  let g := vget s.tur.tgt ((off - 0x3000) / 0x10) {}
  !(decide (0x3000 ≤ off) && decide (off < 0x3080) && off % 0x10 / 4 = 1 && g.claimAt = s.clk.fc + 1
    && decide (claimPlace thread < g.claimRank))

/-- A read of TGT[t].CLAIM (R629, R630). -/
def claimRead (thread : Option Nat) (t : Nat) (s : State) : State :=
  if (claimFor s t).isNone then s
  else
    let s := (claimTarget t s).2
    { s with tur := { s.tur with
        tgt := vmod s.tur.tgt t (fun g => { g with claimAt := s.clk.fc + 1, claimRank := claimPlace thread }) } }

/-- What a read of a Turnout register does beside (R632). -/
def turnoutReadEffect (thread : Option Nat) (r : Nat) (s : State) : State :=
  if r < 0x80 && r % 0x10 = 4 then claimRead thread (r / 0x10) s
  else if r = 0x144 then (match thread with | some n => (tdpoll n s).2 | none => s)
  else s

/-! ## Commands -/

end Sys2Proof.Machine
end

