-- ==== Sys2Proof/Machine/Ports.lean ====
section
/-! DEFINITION. Sample ports and the landing of a sample (R39-R50), and the publication of samples (R721). -/

namespace Sys2Proof.Machine

/-- A write of SMPCTL (R44-R47, R80). -/
def smpctlWrite (v : U32) (s : State) : State :=
  let p := s.ports
  let en : BitVec 4 := fd v 0 4
  let ph (k : Nat) : BitVec 3 := fd v (8 + 4 * k) 3
  let refused (k : Nat) : Bool := bit p.smpEn k && bit en k && ph k != vget p.smpPh k 0
  hwSetIf ((List.range 4).any refused) 0x1808 1 { s with ports := { p with
      smpEn := en
      smpPh := vmap p.smpPh (fun k o => if refused k then o else ph k)
      smpClk := vmap p.smpClk (fun k c =>
        let c := { c with live := bit en k && (p.live || c.live) }
        if bit en k && !bit p.smpEn k then { c with wait := 8 } else c)
      phign := p.phign || (List.range 4).any refused } }

/-- A group clock at an fc edge of an ordinary advance from `g0` to `g1` (R40, R41, R44, R45). -/
def clkEdge (en : Bool) (ph : BitVec 3) (g0 g1 : U64) (c : SmpClk) : SmpClk :=
  let c : SmpClk :=
    if c.high = 1 then { c with high := 0, low := 0 }
    else if c.high != 0 then { c with high := c.high - 1 }
    else { c with low := satInc c.low }
  let c := { c with wait := if c.wait = 0 then 0 else c.wait - 1 }
  let steps := (g1.toNat / 64 + 2 ^ 58 - g0.toNat / 64) % 2 ^ 58
  if en && c.live && (List.range steps).any (fun i => phaseOf g1 - BitVec.ofNat 3 i = ph) then clkRise c else c

/-- smp_clk_o[k] in this fc. -/
def smpClkLevel (s : State) (k : Nat) : Bool := (vget s.ports.smpClk k {}).high != 0

/-- A landed sample on a published port (R721). -/
def publish (port : Nat) (x : BitVec 24) (tag : BitVec 4) (s : State) : State :=
  s.each 8 (fun s i =>
    let p := vget s.link.pub i {}
    if p.en && p.port.toNat = port then
      let set (f : Pub → Pub) (s : State) : State := { s with link := { s.link with pub := vmod s.link.pub i f } }
      if p.skip = p.div then
        let c : List Byte := bytesLE (p.chan.zeroExtend 16) 2
          ++ bytesLE (pk [(0, x.toNat), (24, tag.toNat), (28, p.num.toNat)]) 4 ++ bytesLE (now40 s) 5
        originate { ftype := 2, vl := 1, dst := p.dst, bc := p.bc, content := c } none
          (set (fun p => { p with skip := 0, num := p.num + 1 }) s)
      else set (fun p => { p with skip := p.skip + 1 }) s
    else s)

/-- A valid sample lands on port n (R39, R48, R49, R147, R195, R469, R721). -/
def landSample (n : Nat) (x : BitVec 24) (tag : BitVec 4) (s : State) : State :=
  let s := hwSet 0x1804 (1#32 <<< n) { s with ports := { s.ports with
      landed := setBit s.ports.landed n true, smpSeen := setBit s.ports.smpSeen n true } }
  let s := raiseData n (pk [(0, x.toNat), (24, tag.toNat)]) s
  let s := s.each 32 (fun s k => flumeSample k n x tag s)
  let s := s.each 32 (fun s k =>
    let t := s.timer k
    if t.csrc = 2 && t.csel.toNat % 32 = n && !tmrFrozen s then capture k s else s)
  publish n x tag s

def smpWrite (r : Nat) (v : U32) (s : State) : State :=
  match r with
  | 0x0 => smpctlWrite v s
  | 0x4 => { s with ports := { s.ports with smpSeen := w1c s.ports.smpSeen v } }
  | 0x8 => { s with ports := { s.ports with
      phign := s.ports.phign && !bit v 0, sreqmrg := s.ports.sreqmrg && !bit v 1 } }
  | _ => s

def smpRead (s : State) (r : Nat) : U32 :=
  match r with
  | 0x0 => pk ((0, s.ports.smpEn.toNat) :: (List.range 4).map (fun k => (8 + 4 * k, (vget s.ports.smpPh k 0).toNat)))
  | 0x4 => s.ports.smpSeen
  | 0x8 => pk [(0, b1 s.ports.phign), (1, b1 s.ports.sreqmrg)]
  | _ => 0

/-! ## Commands -/

/-- SAMPLE_LANDING: a valid sample at the fc edge at which the port's group clock rises (R39, R44). -/
def execSampleLanding (port : Fin 32) (x : BitVec 24) (tag : BitVec 4) (s : State) : Host.Outcome State Fault Refusal :=
  .next (inCore s (if awake s && bit s.ports.smpEn (port / 8) && (vget s.ports.smpClk (port / 8) {}).high = 4
      && !bit s.ports.landed port then landSample port x tag s
    else s))

end Sys2Proof.Machine
end

