-- ==== Sys2Proof/Machine/Rider.lean ====
section
/-! DEFINITION. The Rider: turns, pins, the shift unit, the instructions, SETAT, injection and the synchronised start
(10). -/

namespace Sys2Proof.Machine

/-! ## Pins (R495-R500) -/

def riderFrozen (s : State) : Bool := s.dbg.frozen && s.dbg.frzRider

def rslot (c : RiderCh) (j : Nat) : RiderSlot := vget c.slots j {}

/-- An output slot that holds its pin (R495, R496). -/
def drives (sl : RiderSlot) : Bool := bit sl.mode 1 && sl.held

/-- The slot is in use: an output slot whose claim was dropped acts as unused (R495, R496). -/
def inUse (sl : RiderSlot) : Bool := sl.mode != 0 && (!bit sl.mode 1 || sl.held)

/-- The level that slot j reads (R498); an unused slot reads 0. -/
def slotReads (s : State) (c : RiderCh) (j : Nat) : Bool :=
  let sl := rslot c j
  inUse sl && bit s.ports.rdrI sl.pin.toNat

/-- The same in the fc before. -/
def slotRead0 (s : State) (c : RiderCh) (j : Nat) : Bool :=
  let sl := rslot c j
  inUse sl && bit s.ports.rdrIPrev sl.pin.toNat

/-- An edge as CTL.EDGE, CEDGE and CKEDGE select it. -/
def edgeSel (e : BitVec 2) (was now : Bool) : Bool :=
  match e.toNat with
  | 0 => !was && now
  | 1 => was && !now
  | 2 => was != now
  | _ => false

/-- Sets bit b of RCH[n].STAT; its change from 0 to 1 raises the channel's source when IEN enables it (R529). -/
def rchFlag (n b : Nat) (s : State) : State :=
  let c := s.rch n
  raiseIf (!bit c.stat b && bit c.ien b) (240 + n)
    (hwSet (0xA034 + 0x40 * n) (1#32 <<< b) (s.modRch n (fun c => { c with stat := setBit c.stat b true })))

def modSlot (n j : Nat) (f : RiderSlot → RiderSlot) (s : State) : State :=
  s.modRch n (fun c => { c with slots := vmod c.slots j f })

/-- The level of output slot j of channel n becomes `b` at this fc edge: a change is a side-set of its pin (R500). -/
def driveSlot (n j : Nat) (b : Bool) (s : State) : State :=
  let sl := rslot (s.rch n) j
  if drives sl && sl.level != b then riderClaim sl.pin.toNat (modSlot n j (fun sl => { sl with level := b }) s) else s

/-- The level that a slot takes at the next fc edge (R499); `claim`: by a side-set, which claims its pin even where the level
stays. -/
def nextLevel (n j : Nat) (b claim : Bool) (s : State) : State :=
  let sl := rslot (s.rch n) j
  if drives sl then
    let s := modSlot n j (fun sl => { sl with next := some b, nextSide := claim }) s
    if claim || sl.level != b then riderClaim sl.pin.toNat s else s
  else s

/-- rdr_o and rdr_oe_o of pin p (R495, R497, R808). -/
def pinOut (s : State) (p : Nat) : Bool × Bool :=
  match s.pwr.riderHold with
  | some (v, oe) => (bit v p, bit oe p)
  | none =>
    let on (f : RiderSlot → Bool) : Bool :=
      s.rider.ch.toList.any (fun c => c.slots.toList.any (fun sl => drives sl && sl.pin.toNat = p && f sl))
    (on (fun sl => sl.mode = 2 && sl.level), on (fun sl => sl.mode = 2 || !sl.level))

/-! ## Instructions (R507-R512) -/

def opcOf (w : U32) : Nat := (fd w 28 4).toNat

/-- The instruction is legal (R509-R512). -/
def legal (w : U32) : Bool :=
  match opcOf w with
  | 0 => fd w 11 2 = 0 && decide ((fd w 16 4).toNat ≤ 0xD)
  | 1 => fd w 11 9 = 0
  | 2 => fd w 5 10 = 0
  | 3 => fd w 16 4 = 0 && fd w 0 11 = 0
  | 4 => true
  | 5 => fd w 16 4 = 0 && fd w 0 10 = 0 && fd w 11 2 != 3
  | 6 => !bit w 16 && decide ((fd w 17 3).toNat ≤ 4)
  | 7 =>
    let d := (fd w 16 4).toNat
    (d ≤ 6 || d = 8) && decide ((fd w 12 4).toNat ≤ 8) && fd w 9 3 != 7
  | 8 => fd w 1 19 = 0
  | _ => false

/-- The side-set actions (R507, R508): of the lanes that name one slot, the highest acts, be it that it keeps the level. -/
def sideSet (n : Nat) (w : U32) (s : State) : State :=
  let c := s.rch n
  (List.range 4).foldl (fun s k =>
    let j := (vget c.ss k 0).toNat
    if (List.range 4).any (fun m => decide (k < m) && vget c.ss m 0 = vget c.ss k 0) then s
    else match (fd w (20 + 2 * k) 2).toNat with
    | 1 => nextLevel n j false true s
    | 2 => nextLevel n j true true s
    | 3 => nextLevel n j (!(rslot c j).level) true s
    | _ => s) s

/-- fc-time (R513). -/
def fcTime (s : State) : U32 := fd s.clk.gauge 6 32

def slotNow (s : State) : BitVec 5 := fd s.clk.gauge 6 5

/-- The instruction is over; the channel may take its next turn. -/
def complete (n : Nat) (s : State) : State := s.modRch n (fun c => { c with latch := none })

/-- The latched instruction of channel n goes on in another phase. -/
def setPhase (n : Nat) (p : RiderPhase) (s : State) : State :=
  s.modRch n (fun c => { c with latch := c.latch.map (fun l => { l with phase := p }) })

/-- Channel n has this slot and an instruction to execute (R490-R493, R506, R519); a write of RSLOT counts from the next fc on
(R492). -/
def hasTurn (s : State) (n : Nat) : Bool :=
  let table := if s.rider.slotAt = s.clk.fc + 1 then s.rider.slotOld else s.rider.slot
  let sl := vget table (slotNow s).toNat {}
  let c := s.rch n
  awake s && !riderFrozen s && !s.rider.turnDone && s.rider.slotPrev != some (slotNow s)
    && sl.en && sl.ch.toNat = n && c.latch.isNone && (c.inj.isSome || c.run)

/-- RIDER_TURN: the channel takes its injection, or fetches; side-sets; latches (R506, R508, R512, R519, R523). -/
def riderTurn (n : Nat) (s : State) : State :=
  let c := s.rch n
  let s := { s with rider := { s.rider with turnDone := true } }
  let take (w : U32) (s : State) : State :=
    if legal w then
      sideSet n w (s.modRch n (fun c => { c with
        latch := some { word := w, phase := .fetched, exec := s.clk.fc, seen := false, time := fcTime s } }))
    else rchFlag n 6 (s.modRch n (fun c => { c with run := false }))
  match c.inj with
  | some w => take w (s.modRch n (fun c => { c with inj := none }))
  | none =>
    let s := s.modRch n (fun c => { c with pc := c.pc + 1 })
    if marked c.pc.toNat s.rider.bad then rchFlag n 7 (s.modRch n (fun c => { c with run := false }))
    else take (progWord s c.pc.toNat) s

/-- Channel n has latched an instruction of opcode `opc` in this turn and not begun it. -/
def fetchedOp (s : State) (n opc : Nat) : Option U32 :=
  match (s.rch n).latch with
  | some l => if l.phase = .fetched && opcOf l.word = opc then some l.word else none
  | none => none

/-- The RX FIFO has room behind what has been pushed in this fc. -/
def rxRoom (c : RiderCh) : Bool := decide (c.rx.length + c.rxIn.length < 4)

/-- A word goes onto the RX FIFO, behind the pops of this fc (R517). -/
def pushRx (v : U32) (c : RiderCh) : RiderCh := { c with rxIn := c.rxIn ++ [v] }

/-- COND of BR (R510). -/
def riderCond (s : State) (c : RiderCh) (cond pslot : Nat) : Bool :=
  match cond with
  | 0x0 => true
  | 0x1 => c.x = 0
  | 0x2 => c.x != 0
  | 0x3 => c.x = c.y
  | 0x4 => c.x != c.y
  | 0x5 => decide (c.x < c.y)
  | 0x6 => !c.tx.isEmpty
  | 0x7 => rxRoom c
  | 0x8 => slotReads s c pslot
  | 0x9 => !slotReads s c pslot
  | 0xA => c.icnt = 32
  | 0xB => bit c.x 0
  | 0xC => c.y = 0
  | 0xD => c.y != 0
  | _ => false

/-- XF of MOV (R511). -/
def xform (xf : Nat) (v : U32) : U32 :=
  match xf with
  | 1 => v + 1
  | 2 => v - 1
  | 3 => ~~~v
  | 4 => v.reverse
  | 5 => fd v 0 8 ++ fd v 8 8 ++ fd v 16 8 ++ fd v 24 8
  | 6 => fd v 0 16 ++ fd v 16 16
  | _ => v

/-- SRC of MOV as it stands (R511). -/
def movSource (s : State) (c : RiderCh) (l : RiderLatch) : U32 :=
  match (fd l.word 12 4).toNat with
  | 0 => c.x
  | 1 => c.y
  | 2 => c.isr
  | 3 => c.osr
  | 4 => bitsFrom 32 (fun j => decide (j < 8) && slotReads s c j)
  | 5 => (fd l.word 0 9).zeroExtend 32
  | 6 => l.time
  | 7 => c.tx.headD 0
  | _ => c.lc.zeroExtend 32

/-- MOV can complete: a TX FIFO word for its source, room in the RX FIFO for its destination (R511). -/
def movReady (c : RiderCh) (w : U32) : Bool :=
  (fd w 12 4 != 7 || !c.tx.isEmpty) && (fd w 16 4 != 5 || rxRoom c)

/-- MOV's transfer (R499, R511). -/
def movDo (n : Nat) (l : RiderLatch) (s : State) : State :=
  let c := s.rch n
  let v := xform (fd l.word 9 3).toNat (movSource s c l)
  let s := if fd l.word 12 4 = 7 then s.modRch n (fun c => { c with tx := c.tx.tail }) else s
  let s := match (fd l.word 16 4).toNat with
    | 0 => s.modRch n (fun c => { c with x := v })
    | 1 => s.modRch n (fun c => { c with y := v })
    | 2 => s.modRch n (fun c => { c with isr := v, icnt := 0 })
    | 3 => s.modRch n (fun c => { c with osr := v })
    | 4 => (List.range 8).foldl (fun s j =>
        if (rslot (s.rch n) j).nextSide then s else nextLevel n j (bit v j) false s) s
    | 5 => s.modRch n (pushRx v)
    | 6 => s.modRch n (fun c => { c with pc := fd v 0 11 })
    | 8 => s.modRch n (fun c => { c with lc := fd v 0 16 })
    | _ => s
  complete n s

/-- A SETAT becomes pending (R513). -/
def setatDo (n : Nat) (l : RiderLatch) (s : State) : State :=
  complete n (s.modRch n (fun c => { c with
    setat := some { slot := fd l.word 13 3, op := fd l.word 11 2, t := l.time, e := fcTime s, fc := s.clk.fc } }))

/-! ## The shift unit (R501-R505) -/

/-- BTe (R501). -/
def bitTime (c : RiderCh) : Nat := if c.bt.toNat < 2 then 2 else c.bt.toNat

/-- SMPe (R502). -/
def samplePoint (c : RiderCh) : Nat := if c.smp.toNat < bitTime c then c.smp.toNat else bitTime c - 1

/-- The next output bit goes out (R502, R504, R535): at this fc edge, or with an external clock at the fc edge that ends this fc
(R499, R503). -/
def shiftOut (n : Nat) (w : U32) (s : State) : State :=
  if bit w 19 then
    let c := s.rch n
    let b := if bit w 15 then bit c.osr 31 else bit c.osr 0
    let s := s.modRch n (fun c => { c with osr := if bit w 15 then c.osr <<< 1 else c.osr >>> 1 })
    if !c.doen then s
    else if c.ckext then nextLevel n c.doslot.toNat b false s
    else driveSlot n c.doslot.toNat b s
  else s

/-- An input bit is taken (R502, R504). -/
def shiftIn (n : Nat) (w : U32) (s : State) : State :=
  if bit w 18 then
    s.modRch n (fun c =>
      let b := c.dien && slotReads s c c.dislot.toNat
      let isr := if bit w 15 then (c.isr <<< 1) ||| BitVec.ofNat 32 (b1 b)
        else if c.icnt.toNat < 32 then setBit c.isr c.icnt.toNat b else c.isr
      { c with isr := isr, icnt := if c.icnt.toNat < 32 then c.icnt + 1 else c.icnt })
  else s

def clockTo (n : Nat) (active : Bool) (s : State) : State :=
  let c := s.rch n
  if c.cken && !c.ckext then driveSlot n c.ckslot.toNat (c.ckpol != active) s else s

/-- Bit k begins at this fc edge (R502). -/
def beginBit (n : Nat) (w : U32) (s : State) : State :=
  let s := clockTo n true (shiftOut n w s)
  let s := if samplePoint (s.rch n) = 0 then shiftIn n w s else s
  setPhase n (.bit s.clk.fc) s

/-- A bit is over: the count, and the end of the SHIFT after its last bit; was it the last? -/
def endBit (n : Nat) (w : U32) (s : State) : State × Bool :=
  let s := s.modRch n (fun c => { c with scnt := c.scnt + 1 })
  let last := decide ((fd w 0 5).toNat + 1 ≤ (s.rch n).scnt.toNat)
  (if last then setPhase n .shifted s else s, last)

/-- The shift unit of channel n at the fc edge that begins this fc (R501-R505). -/
def shiftUnit (n : Nat) (s : State) : State :=
  let c := s.rch n
  match c.latch with
  | some l =>
    if opcOf l.word = 2 then
      match l.phase with
      | .align =>
        if c.ckext then s
        else if c.div = 0 then beginBit n l.word s
        else s
      | .bit b =>
        let d := s.clk.fc - b
        if bitTime c ≤ d then
          let r := endBit n l.word s
          if r.2 then clockTo n false r.1 else beginBit n l.word r.1
        else
          let s := if d = bitTime c / 2 then clockTo n false s else s
          if d = samplePoint c then shiftIn n l.word s else s
      | _ => clockTo n false s
    else clockTo n false s
  | none => clockTo n false s

/-- A SHIFT on an external clock: in an fc in which CKSLOT reads the edge it drives a bit and takes one (R503). -/
def shiftExternal (n : Nat) (s : State) : State :=
  let c := s.rch n
  match c.latch with
  | some l =>
    if opcOf l.word = 2 && l.phase = .align && c.ckext
        && edgeSel c.ckedge (slotRead0 s c c.ckslot.toNat) (slotReads s c c.ckslot.toNat) then
      (endBit n l.word (shiftIn n l.word (shiftOut n l.word s))).1
    else s
  | none => s

/-- FILL: a TX FIFO word goes into OSR (R502, R509). -/
def fillOsr (n : Nat) (s : State) : State :=
  match (s.rch n).tx with
  | v :: rest => setPhase n .align (s.modRch n (fun c => { c with osr := v, tx := rest }))
  | [] => setPhase n .fill s

/-- A SHIFT that has waited for a TX FIFO word takes the one that has landed. -/
def waitedFill (n : Nat) (s : State) : State :=
  match (s.rch n).latch with
  | some l => if opcOf l.word = 2 && l.phase = .fill then fillOsr n s else s
  | none => s

/-- A channel at the fc edge that begins this fc: its divider, its shift unit, the levels of MOV and side-sets, an external clock's
edge, a FILL, and what WAITPIN sees (R499, R501-R503, R509). -/
def channelEdge (n : Nat) (s : State) : State :=
  let s := s.modRch n (fun c =>
    { c with div := if c.run && decide (c.div.toNat + 1 < bitTime c) then c.div + 1 else if c.run then 0 else c.div })
  let s := shiftUnit n s
  let s := s.modRch n (fun c => { c with
    slots := vmap c.slots (fun _ sl => match sl.next with
      | some b => { sl with level := b, next := none, nextSide := false }
      | none => sl)
    latch := c.latch.map (fun l =>
      if opcOf l.word = 3 && l.phase = .waiting then
        let j := (fd l.word 13 3).toNat
        let now := slotReads s c j = bit l.word 12
        let was := slotRead0 s c j = bit l.word 12
        { l with seen := l.seen || (now && (!bit l.word 11 || !was)) }
      else l) })
  waitedFill n (shiftExternal n s)

/-- Abandons the latched instruction (R521). -/
def abandon (n : Nat) (s : State) : State := s.modRch n (fun c => { c with latch := none })

/-- Empties channel n (R527). -/
def emptyChannel (c : RiderCh) : RiderCh :=
  { c with tx := [], rx := [], txIn := [], rxIn := [], osr := 0, isr := 0, icnt := 0, scnt := 0, setat := none, inj := none }

/-- Stops channel n (R526). -/
def stopChannel (n : Nat) (s : State) : State := s.modRch n (fun c => { c with run := false, latch := none, setat := none })

/-! ## SETAT (R513, R514) -/

/-- The pending SETAT is to fire at this fc edge; late? (R514) -/
def setatDue (s : State) (p : PendSet) : Option Bool :=
  let ahead := (p.t - p.e).toNat
  if s.clk.fc ≤ p.fc then none
  else if 1 ≤ ahead && ahead < 2 ^ 31 then (if (fcTime s - p.t).toNat < 2 ^ 31 then some false else none)
  else some true

def setatFire (n : Nat) (late : Bool) (s : State) : State :=
  match (s.rch n).setat with
  | none => s
  | some p =>
    let j := p.slot.toNat
    let lvl := (rslot (s.rch n) j).level
    let b := match p.op.toNat with | 0 => true | 1 => false | _ => !lvl
    let s := driveSlot n j b (s.modRch n (fun c => { c with setat := none }))
    if late then rchFlag n 5 s else s

/-- At a thaw every SETAT whose time has passed fires late (R868). -/
def setatThaw (s : State) : State :=
  s.each 32 (fun s n =>
    match (s.rch n).setat with
    | some p => if (setatDue s p).isSome && fcTime s != p.t then setatFire n true s else s
    | none => s)

/-! ## Register fields -/

/-- The pushes of an fc land, behind its pops (R517); a word that finds the TX FIFO full is discarded (R515). -/
def landFifos (s : State) (n : Nat) : State :=
  let c := s.rch n
  if c.txIn.isEmpty && c.rxIn.isEmpty then s
  else
    let room := 4 - c.tx.length
    let s := s.modRch n (fun c =>
      { c with tx := c.tx ++ c.txIn.take room, rx := c.rx ++ c.rxIn, txIn := [], rxIn := [] })
    if room < c.txIn.length then rchFlag n 1 s else s

/-- A write to TXD (R515): the word lands at the end of the fc (R517), and at once while the fast clock stands. -/
def pushTx (n : Nat) (v : U32) (s : State) : State :=
  let s := s.modRch n (fun c => { c with txIn := c.txIn ++ [v] })
  if s.clk.running then s else landFifos s n

/-- An RP read of RXD (R516). -/
def popRx (n : Nat) (s : State) : U32 × State :=
  match (s.rch n).rx with
  | v :: rest => (v, s.modRch n (fun c => { c with rx := rest }))
  | [] => (0, rchFlag n 2 s)

/-- An injection abandons a stall (R521). -/
def abortStall (n : Nat) (s : State) : State :=
  let c := s.rch n
  if c.abortstall && c.inj.isSome && c.latch.isSome then rchFlag n 8 (abandon n s) else s

/-- A write to INJ (R518, R521). -/
def writeInj (n : Nat) (v : U32) (s : State) : State :=
  if (s.rch n).inj.isSome then rchFlag n 3 s else abortStall n (s.modRch n (fun c => { c with inj := some v }))

/-- A write of RCH[n].CTL (R501, R521, R526, R527, R534). -/
def writeRchCtl (n : Nat) (v : U32) (s : State) : State :=
  let run := (s.rch n).run
  let s := if bit v 2 && !run then s.modRch n emptyChannel else s
  let s := s.modRch n (fun c => { c with abortstall := bit v 1 })
  let s := abortStall n s
  if bit v 0 && !run then s.modRch n (fun c => { c with run := true, div := 0 })
  else if !bit v 0 then stopChannel n s
  else s

/-- Another channel's output slot holds pin p against a claim of channel n in this fc: one of an earlier fc, or a lower channel's of
this fc (R496). -/
def pinTaken (s : State) (n p : Nat) : Bool :=
  s.rider.ch.toList.zipIdx.any (fun c => c.2 != n && c.1.slots.toList.any (fun sl =>
    drives sl && sl.pin.toNat = p && (sl.claimAt != s.clk.fc + 1 || decide (c.2 < n))))

/-- A claim of channel n on pin p drops those of this fc that other channels have made on it (R496). -/
def dropClaims (n p : Nat) (s : State) : State :=
  s.each 32 (fun s m =>
    if m != n && (s.rch m).slots.toList.any (fun sl => drives sl && sl.pin.toNat = p) then
      rchFlag m 4 (s.modRch m (fun c => { c with
        slots := vmap c.slots (fun _ sl => if sl.pin.toNat = p then { sl with held := false } else sl) }))
    else s)

/-- Slot j of channel n names a pin and a mode (R495-R497). -/
def mapSlot (n j : Nat) (pin : BitVec 6) (mode : BitVec 2) (s : State) : State :=
  let sl := rslot (s.rch n) j
  let out := bit mode 1
  let keeps := out && drives sl && sl.pin = pin
  let taken := out && !keeps && pinTaken s n pin.toNat
  let level := if out && !drives sl then mode = 3 else sl.level
  let s := modSlot n j (fun _ =>
    { pin := pin, mode := mode, held := out && !taken, level := level, next := if keeps then sl.next else none
      nextSide := keeps && sl.nextSide, claimAt := if keeps then sl.claimAt else s.clk.fc + 1 }) s
  if taken then rchFlag n 4 s else if out && !keeps then dropClaims n pin.toNat s else s

/-- A write of MAP0 or MAP1 (R536). -/
def writeMap (n : Nat) (hi : Bool) (v : U32) (s : State) : State :=
  (List.range 4).foldl (fun s i => mapSlot n (i + if hi then 4 else 0) (fd v (8 * i) 6) (fd v (8 * i + 6) 2) s) s

/-- A write of RIDER (R524, R525, R530). -/
def writeRider (v : U32) (s : State) : State :=
  let s := { s with rider := { s.rider with serr := s.rider.serr && !bit v 1 } }
  if bit v 0 && !s.rider.sync then
    if inFuture s.rider.synct s.clk.gauge then { s with rider := { s.rider with sync := true, passedAt := 0 } }
    else hwSet 0xB000 2 { s with rider := { s.rider with serr := true } }
  else s

/-- A synchronised start (R524). -/
def syncStart (s : State) : State :=
  { s with rider := { s.rider with
      sync := false, passedAt := 0
      ch := vmap s.rider.ch (fun n c =>
        if bit s.rider.mask n then { c with latch := none, setat := none, pc := c.entry, div := 0, run := true } else c) } }

/-- A write of program word i (R522, R540). -/
def writeProg (i : Nat) (v : U32) (s : State) : State :=
  { s with rider := { s.rider with prog := sput 0 i v s.rider.prog, bad := mark i false s.rider.bad } }

def rchWrite (n r : Nat) (v : U32) (s : State) : State :=
  match r with
  | 0x00 => writeRchCtl n v s
  | 0x04 => s.modRch n (fun c => { c with pc := if c.run then c.pc else fd v 0 11, entry := fd v 16 11 })
  | 0x08 => s.modRch n (fun c => { c with bt := fd v 0 16, smp := fd v 16 16 })
  | 0x0C => s.modRch n (fun c => { c with
      doslot := fd v 0 3, doen := bit v 3, dislot := fd v 4 3, dien := bit v 7, ckslot := fd v 8 3, cken := bit v 11
      ckpol := bit v 12, ckext := bit v 13, ckedge := fd v 14 2
      ss := vgen 4 (fun k => fd v (16 + 3 * k) 3) })
  | 0x10 => writeMap n false v s
  | 0x14 => writeMap n true v s
  | 0x18 => s.modRch n (fun c => if c.run then c else { c with x := v })
  | 0x1C => s.modRch n (fun c => if c.run then c else { c with y := v })
  | 0x28 => pushTx n v s
  | 0x30 => writeInj n v s
  | 0x34 => s.modRch n (fun c => { c with stat := w1c c.stat (fd v 0 9) })
  | 0x3C => s.modRch n (fun c => { c with ien := fd v 0 9 })
  | _ => s

/-- RCH[n].STAT (R538). -/
def rchStat (c : RiderCh) : U32 :=
  pk [(0, c.stat.toNat), (16, c.tx.length), (20, c.rx.length), (23, b1 c.latch.isSome), (24, b1 c.inj.isSome)]

def mapWord (c : RiderCh) (base : Nat) : U32 :=
  pk ((List.range 4).map (fun i => (8 * i, (rslot c (base + i)).pin.toNat + 64 * (rslot c (base + i)).mode.toNat)))

def rchRead (s : State) (n r : Nat) : U32 :=
  let c := s.rch n
  match r with
  | 0x00 => pk [(0, b1 c.run), (1, b1 c.abortstall)]
  | 0x04 => pk [(0, c.pc.toNat), (16, c.entry.toNat)]
  | 0x08 => pk [(0, c.bt.toNat), (16, c.smp.toNat)]
  | 0x0C => pk [(0, c.doslot.toNat), (3, b1 c.doen), (4, c.dislot.toNat), (7, b1 c.dien), (8, c.ckslot.toNat),
      (11, b1 c.cken), (12, b1 c.ckpol), (13, b1 c.ckext), (14, c.ckedge.toNat), (16, (vget c.ss 0 0).toNat),
      (19, (vget c.ss 1 0).toNat), (22, (vget c.ss 2 0).toNat), (25, (vget c.ss 3 0).toNat)]
  | 0x10 => mapWord c 0
  | 0x14 => mapWord c 4
  | 0x18 => c.x
  | 0x1C => c.y
  | 0x20 => c.isr
  | 0x24 => c.osr
  | 0x2C => c.rx.headD 0
  | 0x34 => rchStat c
  | 0x38 => pk [(0, c.scnt.toNat), (8, c.icnt.toNat), (16, c.lc.toNat)]
  | 0x3C => c.ien.zeroExtend 32
  | _ => 0

/-- A write of a Rider-wide register at offset `r` of 0x0_B000 (R530-R532). -/
def riderWrite (r : Nat) (v : U32) (s : State) : State :=
  match r with
  | 0x00 => writeRider v s
  | 0x04 => { s with rider := { s.rider with mask := v } }
  | 0x08 => { s with rider := { s.rider with synct := fd s.rider.synct 32 8 ++ v } }
  | 0x0C => { s with rider := { s.rider with synct := fd v 0 8 ++ fd s.rider.synct 0 32 } }
  | r =>
    if 0x40 ≤ r then
      let w := (r - 0x40) / 4
      let one (t : Vector RiderSel 32) (i : Nat) := vset t (4 * w + i) { ch := fd v (8 * i) 5, en := bit v (8 * i + 7) }
      { s with rider := { s.rider with
          slot := (List.range 4).foldl one s.rider.slot
          slotAt := s.clk.fc + 1
          slotOld := if s.rider.slotAt = s.clk.fc + 1 then s.rider.slotOld else s.rider.slot } }
    else s

def riderRead (s : State) (r : Nat) : U32 :=
  match r with
  | 0x00 => pk [(0, b1 s.rider.sync), (1, b1 s.rider.serr)]
  | 0x04 => s.rider.mask
  | 0x08 => fd s.rider.synct 0 32
  | 0x0C => (fd s.rider.synct 32 8).zeroExtend 32
  | r =>
    if 0x40 ≤ r then
      let w := (r - 0x40) / 4
      pk ((List.range 4).map (fun i =>
        let x := vget s.rider.slot (4 * w + i) {}
        (8 * i, x.ch.toNat + 128 * b1 x.en)))
    else 0

/-! ## Commands -/

def execRiderTurn (n : Fin 32) (s : State) : Host.Outcome State Fault Refusal :=
  .next (inCore s (if hasTurn s n then riderTurn n s else s))

def execRiderBr (n : Fin 32) (s : State) : Host.Outcome State Fault Refusal :=
  .next (inCore s (match fetchedOp s n 0 with
    | some w =>
      let c := s.rch n
      complete n (if riderCond s c (fd w 16 4).toNat (fd w 13 3).toNat then
        s.modRch n (fun c => { c with pc := fd w 0 11 }) else s)
    | none => s))

def execLoop (n : Fin 32) (s : State) : Host.Outcome State Fault Refusal :=
  .next (inCore s (match fetchedOp s n 1 with
    | some w =>
      let lc := (s.rch n).lc - 1
      complete n (s.modRch n (fun c => { c with lc := lc, pc := if lc = 0 then c.pc else fd w 0 11 }))
    | none => s))

/-- SHIFT (R502, R509): its FILL, then the bits on the bit edges that follow. -/
def execShift (n : Fin 32) (s : State) : Host.Outcome State Fault Refusal :=
  .next (inCore s (match fetchedOp s n 2 with
    | some w =>
      let s := s.modRch n (fun c => { c with scnt := 0 })
      if bit w 17 then fillOsr n s else setPhase n .align s
    | none => s))

def execWaitpin (n : Fin 32) (s : State) : Host.Outcome State Fault Refusal :=
  .next (inCore s (match fetchedOp s n 3 with
    | some w =>
      if !bit w 11 && slotReads s (s.rch n) (fd w 13 3).toNat = bit w 12 then complete n s else setPhase n .waiting s
    | none => s))

def execWaitt (n : Fin 32) (s : State) : Host.Outcome State Fault Refusal :=
  .next (inCore s (match fetchedOp s n 4 with
    | some _ => setPhase n .waiting s
    | none => s))

/-- SETAT (R513). -/
def execSetat (n : Fin 32) (s : State) : Host.Outcome State Fault Refusal :=
  .next (inCore s (match fetchedOp s n 5, (s.rch n).latch with
    | some w, some l =>
      let x := (s.rch n).x
      let l := { l with time := x, phase := .waiting }
      let s := s.modRch n (fun c => { c with x := if bit w 10 then c.x + c.y else c.x, latch := some l })
      if (s.rch n).setat.isNone then setatDo n l s else s
    | _, _ => s))

def execLd (n : Fin 32) (s : State) : Host.Outcome State Fault Refusal :=
  .next (inCore s (match fetchedOp s n 6 with
    | some w =>
      let i : U16 := fd w 0 16
      complete n (s.modRch n (fun c =>
        match (fd w 17 3).toNat with
        | 0 => { c with x := i.zeroExtend 32 }
        | 1 => { c with y := i.zeroExtend 32 }
        | 2 => { c with x := i ++ fd c.x 0 16 }
        | 3 => { c with y := i ++ fd c.y 0 16 }
        | _ => { c with lc := i }))
    | none => s))

def execMov (n : Fin 32) (s : State) : Host.Outcome State Fault Refusal :=
  .next (inCore s (match fetchedOp s n 7, (s.rch n).latch with
    | some w, some l => if movReady (s.rch n) w then movDo n l s else setPhase n .waiting s
    | _, _ => s))

/-- SIG (R509). -/
def execSig (n : Fin 32) (s : State) : Host.Outcome State Fault Refusal :=
  .next (inCore s (match fetchedOp s n 8 with
    | some w =>
      let s := rchFlag n 0 s
      if bit w 0 then setPhase n .waiting s else complete n s
    | none => s))

/-- RIDER_INSTRUCTION_COMPLETE: a stalled instruction whose condition has come completes (R506, R509). -/
def execRiderInstructionComplete (n : Fin 32) (s : State) : Host.Outcome State Fault Refusal :=
  let c := s.rch n
  .next (inCore s (if riderFrozen s then s
  else match c.latch with
    | some l =>
      match opcOf l.word, l.phase with
      | 2, .shifted =>
        if bit l.word 16 then
          if rxRoom c then
            complete n (s.modRch n (fun c => { pushRx c.isr c with isr := 0, icnt := 0 }))
          else s
        else complete n s
      | 3, .waiting => if l.seen then complete n s else s
      | 4, .waiting => if l.exec + (fd l.word 0 20).toNat + 1 ≤ s.clk.fc then complete n s else s
      | 5, .waiting => if c.setat.isNone then setatDo n l s else s
      | 7, .waiting => if movReady c l.word then movDo n l s else s
      | 8, .waiting => if bit c.stat 0 then s else complete n s
      | _, _ => s
    | none => s))

def execSetatFire (n : Fin 32) (s : State) : Host.Outcome State Fault Refusal :=
  .next (inCore s (if riderFrozen s then s
  else match (s.rch n).setat with
    | some p => match setatDue s p with | some late => setatFire n late s | none => s
    | none => s))

/-- SYNCHRONISED_START: at the fc edge that ends the fc of the time (R524, R905). -/
def execSynchronisedStart (s : State) : Host.Outcome State Fault Refusal :=
  let isOver : Bool :=
    if s.rider.passedAt = 0 then inPast s.rider.synct s.clk.gauge else decide (s.rider.passedAt ≤ s.clk.fc)
  .next (inCore s (if s.rider.sync && isOver && awake s then syncStart s else s))

end Sys2Proof.Machine
end

