-- ==== Sys2Proof/Machine/Rows.lean ====
section
/-! DEFINITION. Stores to data memory as every agent makes them: the descriptor table, reservations, and when a
thread's store is seen (R250, R257, R261, R270, R363). -/

namespace Sys2Proof.Machine

/-- First byte of the descriptor table (R363, R394). -/
def excTable (s : State) : Nat := s.seq.excbase.toNat * 1024

/-- `len` bytes from `a` meet the descriptor table. -/
def inExcTable (s : State) (a len : Nat) : Bool :=
  decide (a < excTable s + 1024) && decide (excTable s < a + len)

/-- Granule numbers of `len` bytes from `a`. -/
def granules (a len : Nat) : List Nat := (List.range ((a % 16 + len + 15) / 16)).map (fun i => a / 16 + i)

/-- A store to granule `g` ends every reservation on it (R270). -/
def dropResv (host : Bool) (g : Nat) (s : State) : State :=
  { s with seq := { s.seq with thr := vmap s.seq.thr (fun _ t =>
      match t.ctx.resv with
      | some r => if r.host = host && r.granule.toNat = g then { t with ctx := { t.ctx with resv := none } } else t
      | none => t) } }

/-- A store of Culvert, the debugger or a thread to host memory: it ends reservations on what it writes (R270). -/
def storeHost (a : U48) (l : List Byte) (s : State) : State :=
  (granules a.toNat l.length).foldl (fun s g => dropResv true g s) (hostWrite s a l)

/-- Bytes of a row changed from place `k` on. -/
def patchRow (r : Row) (k : Nat) (l : List Byte) : Row :=
  ofLE 128 ((List.range 16).map (fun i => if k ≤ i && decide (i < k + l.length) then lget l (i - k) else byteOf r i))

/-- Stores bytes that lie within one row of data memory, seen by all at once. A whole row is stored with fresh check
symbols (R282). -/
def storeRow (a : Nat) (l : List Byte) (s : State) : State :=
  let r := a / 16
  let s := dropResv false r s
  { s with mem := { s.mem with
      data := memWrite s.mem.data a l
      badRow := if l.length = 16 then mark r false s.mem.badRow else s.mem.badRow
      recent := s.mem.recent.map (fun (x : RecentRow) =>
        if x.row = r then { x with old := patchRow x.old (a % 16) l } else x) } }

def storeRowsF : Nat → Nat → List Byte → State → State
  | 0, _, _, s => s
  | fuel + 1, a, l, s =>
    if l.isEmpty then s
    else
      let n := 16 - a % 16
      storeRowsF fuel (a + n) (l.drop n) (storeRow a (l.take n) s)

/-- Stores bytes to data memory, row by row. -/
def storeData (a : Nat) (l : List Byte) (s : State) : State := storeRowsF (l.length + 1) a l s

/-- Some row of the range holds an uncorrectable error. -/
def rowsBad (s : State) (a len : Nat) : Bool := (granules a len).any (fun r => marked r s.mem.badRow)

/-- Some row that a store of the range changes in part holds an uncorrectable error (R262). -/
def partBad (s : State) (a len : Nat) : Bool :=
  (granules a len).any (fun r => marked r s.mem.badRow && !(decide (a ≤ 16 * r) && decide (16 * r + 16 ≤ a + len)))

/-- A microword, a nanoword and a row of data memory as the block stores them, with their check symbols (R282). -/
def storedMicro (w : BitVec 32) : BitVec 48 := Config.checkMicro w ++ w
def storedNano (w : BitVec 256) : BitVec 288 := Config.checkNano w ++ w
def storedRow (w : BitVec 128) : BitVec 160 := Config.checkRow w ++ w

/-- A thread accesses data memory in this fc; the other agents keep out of it (R604, R722). -/
def threadAccess (s : State) : State := { s with mem := { s.mem with accAt := s.clk.fc + 1 } }

/-- No thread has accessed data memory in this fc (R604, R722). -/
def memFree (s : State) : Bool := s.mem.accAt != s.clk.fc + 1

/-- A thread's store in this fc: others, and its own next word, may still see the row as it was (R246, R250). -/
def storeThread (a : Nat) (l : List Byte) (s : State) : State :=
  let r := a / 16
  let old := dataRow s r
  let s := storeRow a l (threadAccess s)
  { s with mem := { s.mem with recent := s.mem.recent ++ [{ row := r, old := old, seen := s.clk.fc + 2 }] } }

/-- The row as an access of this fc sees it: of the stores not yet seen by all, those up to a free choice (R248). -/
def seenRowF (now : Row) : List RecentRow → State → Row × State
  | [], s => (now, s)
  | x :: t, s =>
    let b := Config.freeBit s.free
    let s := { s with free := s.free + 1 }
    if b then seenRowF now t s else (x.old, s)

def seenRow (r : Nat) (s : State) : Row × State :=
  seenRowF (dataRow s r) (s.mem.recent.filter (fun x => x.row = r && decide (s.clk.fc < x.seen))) s

/-- `len` bytes within one row as an access of this fc sees them. -/
def seenBytes (a len : Nat) (s : State) : List Byte × State :=
  let (r, s) := seenRow (a / 16) s
  ((List.range len).map (fun i => byteOf r (a % 16 + i)), s)

def seenDataF : Nat → Nat → Nat → State → List Byte × State
  | 0, _, _, s => ([], s)
  | fuel + 1, a, len, s =>
    if len = 0 then ([], s)
    else
      let n := min len (16 - a % 16)
      let (l, s) := seenBytes a n s
      let (t, s) := seenDataF fuel (a + n) (len - n) s
      (l ++ t, s)

/-- Bytes of data memory as an access of this fc sees them. -/
def seenData (a len : Nat) (s : State) : List Byte × State := seenDataF (len + 1) a len s

/-- Bytes of data memory as a thread's load in this fc sees them. -/
def loadData (a len : Nat) (s : State) : List Byte × State := seenData a len (threadAccess s)

end Sys2Proof.Machine
end

