-- ==== Sys2Proof/Machine/Headgate.lean ====
section
/-! DEFINITION. The Headgate rings: indices and phases, doorbells, the completion and event rings, the head shadow,
and the Headgate registers (11). -/

namespace Sys2Proof.Machine

/-! ## Rings (R541-R547) -/

def ringSize (r : Ring) : Nat := 2 ^ r.k.toNat

/-- The next index (R542). -/
def ringNext (r : Ring) (i : BitVec 14) : BitVec 14 := BitVec.ofNat 14 ((i.toNat + 1) % ringSize r)

/-- Entries between HEAD and TAIL (R542). -/
def ringUsed (r : Ring) : Nat := (r.tail.toNat + ringSize r - r.head.toNat) % ringSize r

/-- Entries that may still be written before the ring is full (R544). -/
def ringRoom (r : Ring) : Nat := ringSize r - 1 - ringUsed r

def entryAddr (r : Ring) (i : BitVec 14) (size : Nat) : U48 := r.base + BitVec.ofNat 48 (i.toNat * size)

/-- TAIL after an entry, and the phase (R547). -/
def ringPush (r : Ring) : Ring :=
  let t := ringNext r r.tail
  { r with tail := t, phase := if t = 0 then !r.phase else r.phase }

def State.sqr (s : State) (r : Nat) : Ring := vget s.hg.sq r { phase := false }

def dirty (s : State) : State := { s with hg := { s.hg with shadDirty := true } }

/-- Commands in execution from the submission rings: each holds one entry of the CQ (R560). -/
def reserved (s : State) : Nat := (s.hg.slot.toList.filter (fun c => c.isSome)).length

/-- The CQ has room for one entry more than those reserved (R560, R611). -/
def cqRoom (s : State) : Bool := decide (reserved s + 1 ≤ ringRoom s.hg.cq)

/-- T15 serves the rings (R563). -/
def serving (s : State) : Bool :=
  let t := s.thr 15
  t.run != .stopped && t.run != .dry && !t.safe && !t.spill && !t.mon

/-- Keeps CQFULL and PROCH and raises their sources when they rise (R560, R563, R564). -/
def hgUpdate (s : State) : State :=
  let full := s.hg.cq.en && !cqRoom s
  let s := raiseIf (full && !s.hg.cqfull) 331 s
  let proch := !serving s
  let s := raiseIf (proch && !s.hg.proch) 336 s
  { s with hg := { s.hg with cqfull := full, proch := proch } }

/-- Writes a completion or a Culvert record at the CQ's TAIL: the 16 bytes with PHASE in bit 24 (R547, R554, R610);
`irq`: source 328 follows its write response (R556). -/
def cqWrite (body : Row) (irq : Bool) (s : State) : State :=
  let q := s.hg.cq
  let s := hostWrite s (entryAddr q q.tail 16) (bytesLE (setBit body 24 q.phase) 16)
  raiseIf irq 328 (dirty { s with hg := { s.hg with cq := ringPush q } })

/-- A completion entry without its PHASE (R554). -/
def completion (cid : U16) (status : Byte) (ring : BitVec 2) (member : BitVec 3) (sqhead detail : U16)
    (result : U64) : Row :=
  BitVec.ofNat 128 (cid.toNat + status.toNat * 2 ^ 16 + ring.toNat * 2 ^ 25 + member.toNat * 2 ^ 29
    + sqhead.toNat * 2 ^ 32 + detail.toNat * 2 ^ 48 + result.toNat * 2 ^ 64)

/-- A completion of the headworks: written, or held while CQEN is 0 (R907). -/
def writeCompletion (body : Row) (irq : Bool) (s : State) : State :=
  if s.hg.cq.en then cqWrite body irq s
  else { s with hg := { s.hg with held := s.hg.held ++ [{ body := body, irq := irq }] } }

/-- Held completions become the first entries of the CQ (R907). -/
def writeHeld (s : State) : State :=
  s.hg.held.foldl (fun s c => cqWrite c.body c.irq s) { s with hg := { s.hg with held := [] } }

/-! ## The event ring (R582-R584) -/

/-- Event records are made for source `src` (R582). -/
def evEnabled (s : State) (src : Nat) : Bool := s.hg.eq.en && bit (vget s.hg.even (src / 32) 0) (src % 32)

/-- A count of HGEVLOST (R584, R588). -/
def loseRecord (s : State) : State :=
  rcSet 0x200C s.hg.evlost satInc (dirty { s with hg := { s.hg with evlost := satInc s.hg.evlost } })

/-- An event record is lost (R584). Source 330 is raised as EQOVF becomes 1, in the fc that loses the record, and its own
record finds the EQ as full. -/
def loseEvent (s : State) : State :=
  let first := !s.hg.eqovf
  let own := first && (s.source 330).pri != 0 && (s.source 330).cnt != 15
    && !s.tur.raised.any (fun r => r.src = 330) && evEnabled s 330
  let s := raiseIf first 330 (hwSet 0x2000 8 { s with hg := { s.hg with eqovf := true } })
  let s := loseRecord s
  if own then loseRecord s else s

/-- An event record, or its loss. -/
def appendEvent (src : BitVec 9) (member : BitVec 3) (gauge : U64) (data : U32) (s : State) : State :=
  let q := s.hg.eq
  if ringRoom q = 0 then loseEvent s
  else
    let body : Row := BitVec.ofNat 128 (src.toNat + member.toNat * 2 ^ 16 + b1 q.phase * 2 ^ 24
      + (gauge.toNat % 2 ^ 48) * 2 ^ 32 + data.toNat * 2 ^ 96)
    let s := hostWrite s (entryAddr q q.tail 16) (bytesLE body 16)
    dirty { s with hg := { s.hg with eq := ringPush q, evOwed := s.hg.evOwed + 1 } }

/-! ## Set-up and doorbells (R545-R550) -/

def hgErr (cause : BitVec 3) (ring : Nat) (s : State) : State :=
  hwSet 0x2008 0x80 { s with hg := { s.hg with errCause := cause, errRing := BitVec.ofNat 3 ring, err := true } }

/-- The ring with number j: SQ0-SQ3, CQ, EQ (R590). -/
def getRing (s : State) (j : Nat) : Ring := if j < 4 then s.sqr j else if j = 4 then s.hg.cq else s.hg.eq

def setRing (j : Nat) (r : Ring) (s : State) : State :=
  if j < 4 then { s with hg := { s.hg with sq := vset s.hg.sq j r } }
  else if j = 4 then { s with hg := { s.hg with cq := r } }
  else { s with hg := { s.hg with eq := r } }

/-- The STATUS, DETAIL and RESULT of an owed BIST_RUN (R886). -/
def bistOutcome (b : Bist) : Byte × U16 × U64 :=
  (if b.lmis || b.mmis then 0x13 else 0,
   BitVec.ofNat 16 (b1 b.lmis + 2 * b1 b.mmis + 4 * b1 b.lnoref + 8 * b1 b.mnoref + 256 * b.mfail.toNat),
   if b.lrun then b.logicSig else b.memSig)

/-- A BIST_RUN's completion is no longer owed. -/
def bistPaid (s : State) : State :=
  { s with bist := { s.bist with pend := false, origin := none }, hg := { s.hg with bistp := false } }

/-- The completion of BIST_RUN is CQ entry 0 (R886). -/
def writeBistOwed (s : State) : State :=
  let b := s.bist
  if s.hg.bistp && b.pend && b.origin.isNone then
    let r := bistOutcome b
    cqWrite (completion b.cid r.1 b.ring b.member 0 r.2.1 r.2.2) (b.irq || r.1 != 0) (bistPaid s)
  else s

/-- A write of a ring's enable bit (R545). -/
def enableRing (s : State) (j : Nat) (on : Bool) : State :=
  let r := getRing s j
  if !on then setRing j { r with en := false } s
  else if r.en then s
  else if r.base.toNat % (if j < 4 then 64 else 16) != 0 then hgErr 1 j s
  else if r.k.toNat < 4 || decide ((if j < 4 then 12 else 14) < r.k.toNat) then hgErr 2 j s
  else
    let s := dirty (setRing j { r with en := true, head := 0, tail := 0, phase := decide (4 ≤ j) } s)
    if j = 4 then writeHeld (writeBistOwed s) else s

/-- A write of HGCTL (R545, R550, R587, R907). -/
def writeHgctl (v : U32) (s : State) : State :=
  let s := s.each 6 (fun s j => enableRing s j (bit v j))
  let on := bit v 6 && (s.hg.shen || fd s.hg.shad 0 5 = 0)
  let s := { s with hg := { s.hg with shadDirty := s.hg.shadDirty || (on && !s.hg.shen), shen := on } }
  hgUpdate s

/-- A write of HGDB[r] (R548). -/
def writeDoorbell (r : Nat) (v : U32) (s : State) : State :=
  let s := wakeRequest 5 s
  let q := s.sqr r
  if !q.en then raise 337 (hgErr 4 r s)
  else if (fd v 0 14).toNat < ringSize q then setRing r { q with tail := fd v 0 14 } s
  else raise 337 (hgErr 3 r s)

/-- A write of CQ.HEAD or EQ.HEAD (R544). -/
def writeRingHead (j : Nat) (v : U32) (s : State) : State :=
  hgUpdate (setRing j { getRing s j with head := fd v 0 14 } s)

/-- A write of HGSTAT: EQOVF and RERR (R562, R586). -/
def writeHgstat (v : U32) (s : State) : State :=
  { s with hg := { s.hg with eqovf := s.hg.eqovf && !bit v 3, rerr := w1c s.hg.rerr (fd v 8 4) } }

/-! ## Selection (R557-R563) -/

/-- Opcode, parameter word and fields of an entry (R551). -/
def cmdOp (e : BitVec 512) : Byte := fd e 0 8
def cmdP (e : BitVec 512) (i : Nat) : U32 := fd e (64 + 32 * i) 32
def cmdIrq (e : BitVec 512) : Bool := bit e 8
def cmdFence (e : BitVec 512) : Bool := bit e 9
def cmdQuiet (e : BitVec 512) : Bool := bit e 10
def cmdCid (e : BitVec 512) : U16 := fd e 16 16
def cmdMember (e : BitVec 512) : BitVec 3 := fd e 32 3

/-- The class of an opcode: a long command (R567). -/
def isLong (op : Byte) : Bool := [0x10, 0x12, 0x50, 0x52, 0x60, 0x70, 0x71, 0x72, 0x90].contains op.toNat

/-- A listed opcode (R567). -/
def isListed (op : Byte) : Bool :=
  [0x01, 0x02, 0x10, 0x11, 0x12, 0x20, 0x21, 0x22, 0x30, 0x31, 0x40, 0x41, 0x42, 0x50, 0x51, 0x52, 0x60, 0x61,
    0x70, 0x71, 0x72, 0x80, 0x90, 0xA0].contains op.toNat

/-- A slot keeps its ring from being selected as a long command or a FENCE does (R558, R559, R586). -/
def holds (c : CmdSlot) : Bool :=
  isLong (cmdOp c.entry) || (cmdFence c.entry && c.stage = .fetched)

/-- Byte offset of the first reserved field of an entry's header that is not 0, or of a reserved CID (R551, R552): bytes
5-7 are one field. -/
def headerBad (e : BitVec 512) : Option Nat :=
  if fd e 11 5 != (0 : BitVec 5) then some 1
  else if cmdCid e = 0xFFFF then some 2
  else if fd e 35 5 != (0 : BitVec 5) then some 4
  else if fd e 40 24 != (0 : BitVec 24) then some 5
  else none

/-- The stage in which a command that has been read stands (R552, R555). -/
def firstStage (e : BitVec 512) : CmdStage :=
  if !isListed (cmdOp e) then .done 1 0 0
  else match headerBad e with
    | some d => .done 2 (BitVec.ofNat 16 d) 0
    | none => .fetched

/-- Every command in execution, that which came over the link among them. -/
def slots (s : State) : List (Option CmdSlot) := s.hg.slot.toList ++ [s.hg.linkSlot]

/-- A short command is in execution (R558). -/
def shortBusy (s : State) : Bool := (slots s).any (fun c =>
  match c with
  | some c => !holds c
  | none => false)

/-- The ring that the headworks reads next (R557, R560, R563). -/
def selectedRing (s : State) : Option Nat :=
  if s.hg.ready && serving s && s.hg.cq.en && cqRoom s && !shortBusy s then
    (List.range 4).find? (fun r =>
      let q := s.sqr r
      q.en && !bit s.hg.rerr r && (vget s.hg.slot r none).isNone && q.head != q.tail)
  else none

/-! ## Registers (R586-R592) -/

def hgstat (s : State) : U32 :=
  let h := s.hg
  let held := bitsFrom 4 (fun r =>
    match vget h.slot r none with
    | some c => holds c
    | none => false)
  pk [(0, b1 h.ready), (1, b1 h.staged), (2, b1 h.cqfull), (3, b1 h.eqovf), (4, b1 (!serving s)), (5, b1 h.bistp),
    (8, h.rerr.toNat), (12, held.toNat), (16, h.stgver.toNat)]

def hgctl (s : State) : U32 :=
  pk ((List.range 6).map (fun j => (j, b1 (getRing s j).en)) ++ [(6, b1 s.hg.shen)])

/-- A Headgate register at offset `r` from 0x0_2000, as an inspect read returns it. -/
def hgRead (s : State) (r : Nat) : U32 :=
  let h := s.hg
  if 0x200 ≤ r then vget h.even ((r - 0x200) / 4) 0
  else if 0x40 ≤ r && r < 0x100 then
    let q := getRing s ((r - 0x40) / 0x20)
    match (r - 0x40) % 0x20 with
    | 0x00 => fd q.base 0 32
    | 0x04 => (fd q.base 32 16).zeroExtend 32
    | 0x08 => q.k.zeroExtend 32
    | 0x0C => q.head.zeroExtend 32
    | 0x10 => pk [(0, q.tail.toNat), (14, b1 q.phase)]
    | _ => 0
  else match r with
    | 0x00 => hgstat s
    | 0x04 => hgctl s
    | 0x08 => pk [(0, h.errCause.toNat), (4, h.errRing.toNat), (7, b1 h.err)]
    | 0x0C => rcShown s 0x200C h.evlost
    | 0x10 => fd h.shad 0 32
    | 0x14 => (fd h.shad 32 16).zeroExtend 32
    | _ => 0

/-- What a read of HGEVLOST does beside: what this fc has lost stays for the next read (R11, R13, R588). -/
def hgReadEffect (r : Nat) (s : State) : State :=
  if r = 0x0C then rcTaken 0x200C (dirty { s with hg := { s.hg with evlost := rcLeft s 0x200C } }) else s

/-- A write of a Headgate register at offset `r` from 0x0_2000. -/
def hgWrite (r : Nat) (v : U32) (s : State) : State :=
  if 0x200 ≤ r then { s with hg := { s.hg with even := vset s.hg.even ((r - 0x200) / 4) v } }
  else if 0x100 ≤ r then writeDoorbell ((r - 0x100) / 4) v s
  else if 0x40 ≤ r then
    let j := (r - 0x40) / 0x20
    let q := getRing s j
    match (r - 0x40) % 0x20 with
    | 0x00 => if q.en then s else setRing j { q with base := fd q.base 32 16 ++ v } s
    | 0x04 => if q.en then s else setRing j { q with base := fd v 0 16 ++ fd q.base 0 32 } s
    | 0x08 => if q.en then s else setRing j { q with k := fd v 0 4 } s
    | 0x0C => if j < 4 then s else writeRingHead j v s
    | _ => s
  else match r with
    | 0x00 => writeHgstat v s
    | 0x04 => writeHgctl v s
    | 0x08 => { s with hg := { s.hg with err := s.hg.err && !bit v 7 } }
    | 0x10 => { s with hg := { s.hg with shad := fd s.hg.shad 32 16 ++ v } }
    | 0x14 => { s with hg := { s.hg with shad := fd v 0 16 ++ fd s.hg.shad 0 32 } }
    | _ => s

/-! ## Commands -/

/-- HEAD_SHADOW_WRITE (R549). -/
def execHeadShadowWrite (s : State) : Host.Outcome State Fault Refusal :=
  .next (inCore s (if s.hg.shen && s.hg.shadDirty && s.hg.evOwed = 0 then
    let heads := (List.range 4).flatMap (fun r => bytesLE ((s.sqr r).head.zeroExtend 16) 2)
    let l := heads ++ bytesLE ((s.hg.cq.tail).zeroExtend 16) 2 ++ bytesLE ((s.hg.eq.tail).zeroExtend 16) 2
      ++ bytesLE s.hg.evlost 4 ++ bytesLE s.clk.gauge 8 ++ List.replicate 8 0
    let s := hostWrite s s.hg.shad l
    { s with hg := { s.hg with shadDirty := false } }
  else s))

/-- ENTRY_READ_ERROR: the read of the selected ring's entry ends with an error response (R562). -/
def execEntryReadError (s : State) : Host.Outcome State Fault Refusal :=
  .next (inCore s (match selectedRing s with
    | none => s
    | some r =>
      let q := s.sqr r
      let s := hwSet 0x2000 (0x100#32 <<< r) { s with hg := { s.hg with rerr := setBit s.hg.rerr r true } }
      let body := completion 0xFFFF 4 (BitVec.ofNat 2 r) 0 (q.head.zeroExtend 16) 0 (q.head.zeroExtend 64)
      hgUpdate (raise (332 + r) (cqWrite body true s))))

/-- EVENT_RECORD_WRITTEN: an event record has received its write response (R584). -/
def execEventRecordWritten (s : State) : Host.Outcome State Fault Refusal :=
  .next (inCore s (if s.hg.evOwed = 0 then s else raise 329 { s with hg := { s.hg with evOwed := s.hg.evOwed - 1 } }))

end Sys2Proof.Machine
end

