-- ==== Sys2Proof/Machine/Culvert.lean ====
section
/-! DEFINITION. The Culvert: descriptors, triggers, bursts, reshaping, records, pause and abort, and its registers
(12). -/

namespace Sys2Proof.Machine

def culFrozen (s : State) : Bool := s.dbg.frozen && s.dbg.frzCul

/-! ## Descriptors (R593-R596, R606) -/

/-- The fields of a descriptor's 32 bytes (R594). -/
def parseDesc (l : List Byte) : CulDesc :=
  let w (i : Nat) : U32 := ofLE 32 ((l.drop (4 * i)).take 4)
  let addr (i : Nat) : U48 := fd (w (i + 1)) 0 16 ++ (fd (w i) 4 28 ++ 0#4)
  { nsp := bit (w 0) 0, ends := bit (w 0) 1, next := fd (w 1) 0 16 ++ (fd (w 0) 5 27 ++ 0#5), tag := fd (w 1) 16 16
    ssp := bit (w 2) 0, src := addr 2, scirc := fd (w 3) 16 5
    dsp := bit (w 4) 0, dst := addr 4, dcirc := fd (w 5) 16 5
    len := fd (w 6) 0 25, mode := fd (w 7) 0 2, nstr := fd (w 7) 2 4, esz := bit (w 7) 6, trg := fd (w 7) 7 2
    tsel := fd (w 7) 9 5, step := bit (w 7) 14, burst := fd (w 7) 15 2, pri := fd (w 7) 17 2, crc := bit (w 7) 19
    record := bit (w 7) 20, irq := bit (w 7) 21 }

/-- A reserved field of a descriptor is not 0 (R594). -/
def descReserved (l : List Byte) : Bool :=
  let w (i : Nat) : U32 := ofLE 32 ((l.drop (4 * i)).take 4)
  fd (w 0) 2 3 != 0 || fd (w 2) 1 3 != 0 || fd (w 3) 21 11 != 0 || fd (w 4) 1 3 != 0 || fd (w 5) 21 11 != 0
    || fd (w 6) 25 7 != 0 || fd (w 7) 22 10 != 0

/-- Streams of MODE 0b01 and 0b10 (R595). -/
def CulDesc.streams (d : CulDesc) : Nat := d.nstr.toNat + 1

/-- The side that holds the streams one after another (R595). -/
def CulDesc.planarSrc (d : CulDesc) : Bool := d.mode = 1
def CulDesc.planarDst (d : CulDesc) : Bool := d.mode = 2

/-- LEN must be a multiple of this (R595). -/
def CulDesc.unit (d : CulDesc) : Nat := if d.mode = 0 then 16 else if d.mode = 3 then 32 else 16 * d.streams

/-- Bytes of a full burst (R595, R602). -/
def CulDesc.burstBytes (d : CulDesc) : Nat :=
  if d.mode = 1 || d.mode = 2 then 16 * d.streams
  else 16 * (match d.burst.toNat with | 0 => 1 | 1 => 4 | 2 => 8 | _ => 16)

def badCirc (k : BitVec 5) : Bool := k != 0 && (k.toNat < 6 || decide (24 < k.toNat))

/-- A data-memory side whose payload or region lies outside data memory (R606 causes 6 and 7). -/
def sideOutside (space : Bool) (a : U48) (circ : BitVec 5) (len : Nat) (circular : Bool) : Bool :=
  !space && (if circ = 0 then !circular && decide (2 ^ 20 < a.toNat + len)
    else circular && decide (2 ^ 20 < a.toNat / 2 ^ circ.toNat * 2 ^ circ.toNat + 2 ^ circ.toNat))

/-- The lowest-numbered of causes 2-7 that applies to a descriptor (R606). -/
def descCause (l : List Byte) : Option (BitVec 4) :=
  let d := parseDesc l
  let n := d.len.toNat
  if descReserved l || d.trg = 3 || (d.trg = 2 && decide (15 < d.tsel.toNat)) then some 2
  else if n = 0 || decide (16777216 < n) || n % d.unit != 0 then some 3
  else if badCirc d.scirc || badCirc d.dcirc || (d.mode = 3 && d.burst = 0)
      || (d.planarSrc && d.scirc != 0) || (d.planarDst && d.dcirc != 0) then some 4
  else if sideOutside d.ssp d.src d.scirc n false || sideOutside d.dsp d.dst d.dcirc n false then some 6
  else if sideOutside d.ssp d.src d.scirc n true || sideOutside d.dsp d.dst d.dcirc n true then some 7
  else none

/-- STATUS of a stop (R606). -/
def stopStatus (code : BitVec 4) : Byte :=
  match code.toNat with
  | 8 | 9 | 10 => 4
  | 11 => 6
  | 12 => 7
  | 13 => 8
  | _ => 2

/-! ## Addresses and reshaping (R595, R596) -/

/-- The address `o` bytes on from a side's start (R596). -/
def sideAddr (a : U48) (circ : BitVec 5) (o : Nat) : U48 :=
  let m : U48 := BitVec.ofNat 48 (2 ^ circ.toNat - 1)
  let b := a + BitVec.ofNat 48 o
  if circ = 0 then b else (a &&& ~~~m) ||| (b &&& m)

/-- Offset on a side of beat `i` of the burst at payload byte `at_`: beat i of stream i on the planar side. -/
def beatOffset (d : CulDesc) (planar : Bool) (at_ i : Nat) : Nat :=
  if planar then i * (d.len.toNat / d.streams) + at_ / d.streams else at_ + 16 * i

def srcAddr (d : CulDesc) (at_ i : Nat) : U48 := sideAddr d.src d.scirc (beatOffset d d.planarSrc at_ i)
def dstAddr (d : CulDesc) (at_ i : Nat) : U48 := sideAddr d.dst d.dcirc (beatOffset d d.planarDst at_ i)

/-- A 32-byte block with bit j of halfword i and bit i of halfword j exchanged (MODE 0b11). -/
def transpose (l : List Byte) : List Byte :=
  (List.range 32).map (fun k =>
    let i := k / 2
    bitsFrom 8 (fun b => let j := 8 * (k % 2) + b; bit (lget l (2 * j + i / 8)) (i % 8)))

/-- A burst's source bytes, in the order of its beats, as destination bytes in the order of its beats (R595). -/
def reshape (d : CulDesc) (l : List Byte) : List Byte :=
  let n := d.streams
  let e := if d.esz then 4 else 2
  match d.mode.toNat with
  | 1 => (List.range (16 * n)).map (fun k => let el := k / e; lget l (16 * (el % n) + el / n * e + k % e))
  | 2 => (List.range (16 * n)).map (fun k => let st := k / 16; let el := k % 16 / e; lget l ((el * n + st) * e + k % e))
  | 3 => (chunks 32 l).flatMap transpose
  | _ => l

/-! ## Stops and records (R607, R610, R611) -/

/-- A Culvert record without its PHASE (R610). -/
def culRecord (n : Nat) (tag : U16) (status : Byte) (crc : U32) (bytes : Nat) (code : BitVec 4) (ends crcv : Bool) :
    Row :=
  BitVec.ofNat 128 (tag.toNat + status.toNat * 2 ^ 16 + 2 ^ 27 + crc.toNat * 2 ^ 32 + bytes * 2 ^ 64
    + n * 2 ^ 96 + code.toNat * 2 ^ 100 + b1 ends * 2 ^ 104 + b1 crcv * 2 ^ 105)

/-- Hardware sets W1C bits of CUL[n].STAT (R12, R619). -/
def culSet (n : Nat) (bits : U32) (s : State) : State := hwSet (0x20024 + 0x40 * n) bits s

/-- What becomes of a record that the channel is to write. -/
inductive RecordPlace where
  /-- CQEN is 0: it is lost (R611). -/
  | lost
  /-- The CQ has no room for it (R611). -/
  | noRoom
  /-- It waits for its grant (R603). -/
  | toGrant
  | ready
deriving DecidableEq, Repr

def recordPlace (s : State) (n : Nat) : RecordPlace :=
  if !s.hg.cq.en then .lost
  else if !cqRoom s then .noRoom
  else if (s.culCh n).asked then .ready else .toGrant

/-- Writes a record, or loses it; none while it waits (R603, R611). -/
def putRecord (n : Nat) (body : Row) (s : State) : Option State :=
  match recordPlace s n with
  | .lost => some (culSet n 0x80 (s.modCul n (fun c => { c with reclost := true, cqwait := false, asked := false })))
  | .ready => some (hgUpdate (cqWrite body false (s.modCul n (fun c => { c with cqwait := false, asked := false }))))
  | _ => none

/-- The descriptor that a stop of the channel concerns: the one that failed its check, or the one that is loaded. -/
def stopDesc (c : CulCh) : Option CulDesc := if c.failed.isSome then c.failed else c.cur

/-- A stop with cause `code` writes a record (R607): on a fetch causes 1 and 8 do so whatever REC holds. -/
def stopRecord (c : CulCh) (code : BitVec 4) : Bool :=
  (c.phase = .fetch && (code = 1 || code = 8)) || (stopDesc c).any (fun d => d.record)

/-- The record of a stop (R607, R610): of a fetch that failed with cause 1 or 8 the descriptor is unknown. -/
def stopBody (n : Nat) (code : BitVec 4) (c : CulCh) : Row :=
  let fetch := c.phase = .fetch
  let known := (stopDesc c).filter (fun _ => !(fetch && (code = 1 || code = 8)))
  let tag : U16 := match known with | some d => d.tag | none => 0xFFFF
  let ends := known.any (fun d => d.ends && (c.failed.isSome || !fetch))
  let crcOn := known.any (fun d => d.crc && (c.failed.isSome || !fetch))
  culRecord n tag (stopStatus code) (if crcOn && !fetch then ~~~c.crc else 0) (if fetch then 0 else c.done) code ends
    crcOn

/-- The stop of channel n with cause `code` (R607, R613); it waits while its record must wait. -/
def culStop (n : Nat) (code : BitVec 4) (s : State) : State :=
  let c := s.culCh n
  match (if stopRecord c code then putRecord n (stopBody n code c) s else some s) with
  | none => s.modCul n (fun c =>
      { c with cqwait := recordPlace s n = .noRoom, fail := some code, bursts := [] })
  | some s =>
    raise (281 + 2 * n) (culSet n 0x20 (s.modCul n (fun c =>
      { c with en := false, phase := .idle, fail := none, failed := none, bursts := [], trig := false, started := false
               pulses := 0, cqwait := false, asked := false, err := true, ecode := code })))

def culFail (n : Nat) (code : BitVec 4) (s : State) : State := s.modCul n (fun c => { c with fail := some code })

/-! ## Walking a list (R597, R598) -/

/-- A descriptor's bytes have come (R597, R606). -/
def loadDesc (n : Nat) (l : List Byte) (s : State) : State :=
  let d := parseDesc l
  match descCause l with
  | some k => s.modCul n (fun c => { c with fail := some k, failed := some d })
  | none => s.modCul n (fun c =>
      { c with cur := some d, phase := .loaded, issued := 0, done := 0, bursts := [], crc := 0xFFFFFFFF
               trig := false, started := false, pulses := 0, loadAt := s.clk.fc + 1 })

/-- The channel may issue reads: it runs, is neither paused nor frozen, and has met no error (R607, R612). -/
def culRuns (s : State) (n : Nat) : Bool :=
  let c := s.culCh n
  c.en && !c.pause && c.fail.isNone && !culFrozen s

/-- The channel's next act is the fetch of a descriptor. -/
def fetching (c : CulCh) : Bool := c.en && c.phase = .fetch && c.fail.isNone

/-- A granted fetch of the descriptor ends (R593, R597); `resp` is what host memory answers. Of data memory it takes two rows in
an fc without an access of a thread (R604). -/
def fetchDesc (n : Nat) (resp : HostRead) (s : State) : State :=
  let c := s.culCh n
  if fetching c && c.asked && (c.nextSp || memFree s) then
    let s := s.modCul n (fun c => { c with asked := false })
    if c.nextSp then
      match resp with
      | .okay l => loadDesc n (padTo 32 l) s
      | .error => culFail n 8 s
    else if 2 ^ 20 ≤ c.next.toNat then culFail n 1 s
    else if rowsBad s c.next.toNat 32 then culFail n 11 s
    else
      let (l, s) := seenData c.next.toNat 32 s
      loadDesc n l s
  else s

/-! ## Triggers and bursts (R599-R604) -/

/-- A loaded descriptor that waits for a trigger (R599, R601). -/
def waitTrg (c : CulCh) : Bool :=
  match c.cur with
  | some d => c.en && c.phase = .loaded && d.trg != 0 && !c.trig && !c.started && decide (c.issued < d.len.toNat)
  | none => false

/-- The payload is written and answered, and the completion sequence is still to come. -/
def completing (c : CulCh) : Bool :=
  match c.cur with
  | some d => c.en && c.phase = .loaded && c.fail.isNone && decide (c.done = d.len.toNat)
  | none => false

/-- The channel has a burst of data ready (R603): one whose source lies in data memory, in an fc without an access of a thread
(R604). -/
def dataReady (s : State) (n : Nat) : Bool :=
  let c := s.culCh n
  match c.cur with
  | some d =>
    culRuns s n && c.phase = .loaded && decide (c.issued < d.len.toNat) && decide (c.bursts.length < 2)
      && (d.trg = 0 || c.trig || c.started) && (d.ssp || memFree s)
  | none => false

/-- The channel has a record to write: of a completion, or of a stop once the bursts before it are complete. -/
def recordReady (s : State) (n : Nat) : Bool :=
  let c := s.culCh n
  recordPlace s n = .toGrant &&
    (match c.fail with
     | some k => c.en && c.bursts.isEmpty && stopRecord c k
     | none => completing c && culRuns s n && c.cur.any (fun d => d.record))

/-- The channel asks for a grant: for a burst, a descriptor's fetch, or a record's write (R603). -/
def burstReady (s : State) (n : Nat) : Bool :=
  dataReady s n || (fetching (s.culCh n) && culRuns s n && !(s.culCh n).asked) || recordReady s n

/-- PRI of the descriptor that is loaded or, before the next is loaded, of the last; 0 before the first (DESIGN CHOICE, log entry
39). -/
def culPri (s : State) (n : Nat) : Nat :=
  match (s.culCh n).cur with
  | some d => d.pri.toNat
  | none => 0

/-- The channel that arbitration grants (R603). -/
def granted (s : State) : Option Nat :=
  match (List.range 16).filter (burstReady s) with
  | [] => none
  | c0 :: t =>
    let p := (c0 :: t).foldl (fun a n => max a (culPri s n)) 0
    firstFrom 16 ((vget s.cul.last p 15).toNat + 1) (fun n => burstReady s n && culPri s n = p)

/-- The source beats of a burst in data memory, as the block sees them in this fc. -/
def readBeats (d : CulDesc) (at_ : Nat) : Nat → Nat → State → List Byte × State
  | 0, _, s => ([], s)
  | k + 1, i, s =>
    let (l, s) := seenBytes (srcAddr d at_ i).toNat 16 s
    let (t, s) := readBeats d at_ k (i + 1) s
    (l ++ t, s)

/-- The reads of a burst are issued (R600, R602). -/
def issueReads (n : Nat) (s : State) : State :=
  let c := s.culCh n
  match c.cur with
  | none => s
  | some d =>
    let size := min d.burstBytes (d.len.toNat - c.issued)
    let used (c : CulCh) : CulCh :=
      if d.trg = 0 then c else if d.step then { c with trig := false } else { c with started := true }
    if d.ssp then
      s.modCul n (fun c => { used c with
        issued := c.issued + size, bursts := c.bursts ++ [{ at_ := c.issued, size := size, data := none }] })
    else if (List.range (size / 16)).any (fun i => marked ((srcAddr d c.issued i).toNat / 16) s.mem.badRow) then
      (s.modCul n used).modCul n (fun c => { c with fail := some 11 })
    else
      let (l, s) := readBeats d c.issued (size / 16) 0 s
      s.modCul n (fun c => { used c with
        issued := c.issued + size, bursts := c.bursts ++ [{ at_ := c.issued, size := size, data := some l }] })

/-- The grant of channel n (R603): the reads of its burst, its fetch, or its record. -/
def grantBurst (n : Nat) (s : State) : State :=
  let s := { s with cul := { s.cul with last := vset s.cul.last (culPri s n) (BitVec.ofNat 4 n) } }
  if dataReady s n then issueReads n s else s.modCul n (fun c => { c with asked := true })

/-- Beat `i` of a burst begins an AXI transaction of the writes to host memory (R602): at the burst's start, at a 4 KiB boundary,
and where the addresses do not go on in steps of 16, as at a circular wrap. -/
def beginsWrite (d : CulDesc) (at_ i : Nat) : Bool :=
  i = 0 || (dstAddr d at_ i).toNat % 4096 = 0 || dstAddr d at_ i != dstAddr d at_ (i - 1) + 16

/-- Beats of a burst of `k` beats that lie in the transactions before number `t` (R602). -/
def beatsBefore (d : CulDesc) (at_ k t : Nat) : Nat := ((List.range k).filter (beginsWrite d at_)).getD t k

/-- Writes the beats of a burst from beat `i` on; stops with cause 12 at the descriptor table (R363, R607). -/
def writeBeats (n : Nat) (d : CulDesc) (at_ : Nat) : Nat → Nat → List Byte → State → State × Option (BitVec 4)
  | 0, _, _, s => (s, none)
  | k + 1, i, l, s =>
    let a := dstAddr d at_ i
    let beat := l.take 16
    let put (s : State) : State :=
      s.modCul n (fun c => { c with done := c.done + 16, crc := if d.crc then crc32cRun c.crc beat else c.crc })
    if d.dsp then writeBeats n d at_ k (i + 1) (l.drop 16) (put (storeHost a beat s))
    else if inExcTable s a.toNat 16 then (s, some 12)
    else writeBeats n d at_ k (i + 1) (l.drop 16) (put (storeRow a.toNat beat s))

/-- The data of the oldest burst are written and its writes answered (R602, R603, R605); `writeError`: the number of the first
transaction of writes to host memory that ends with an error response; those before it are written (R607). Writes to data
memory take an fc without an access of a thread (R604). -/
def completeBurst (n : Nat) (resp : HostRead) (writeError : Option (Fin 16)) (s : State) : State :=
  let c := s.culCh n
  match c.cur, c.bursts with
  | some d, b :: rest =>
    if !d.dsp && !memFree s then s else
    let data : Option (List Byte) :=
      match b.data, resp with
      | some l, _ => some l
      | none, .okay l => some (padTo b.size l)
      | none, .error => none
    let stop (k : BitVec 4) (s : State) : State := s.modCul n (fun c => { c with fail := some k, bursts := [] })
    match data with
    | none => stop 9 s
    | some l =>
      let k := b.size / 16
      let good := match writeError with
        | some t => if d.dsp then beatsBefore d b.at_ k t else k
        | none => k
      let (s, e) := writeBeats n d b.at_ good 0 (reshape d l) s
      if good < k then stop 10 s
      else
        match e with
        | some k => stop k s
        | none => s.modCul n (fun c =>
            { c with bursts := rest
                     trig := if c.done = d.len.toNat then false else c.trig
                     started := if c.done = d.len.toNat then false else c.started })
  | _, _ => s

/-! ## Completion (R608) -/

/-- The completion sequence (R608): the read-back of data memory takes an fc without an access of a thread (R604), and the record
its grant. -/
def completeDesc (n : Nat) (s : State) : State :=
  let c := s.culCh n
  match c.cur with
  | none => s
  | some d =>
    if completing c && culRuns s n && (d.dsp || memFree s) then
      let body := culRecord n d.tag 0 (if d.crc then ~~~c.crc else 0) c.done 0 d.ends d.crc
      match (if d.record then putRecord n body s else some s) with
      | none => s.modCul n (fun c => { c with cqwait := recordPlace s n = .noRoom })
      | some s =>
        let s := culSet n 0x10 (s.modCul n (fun c =>
          { c with doneF := true, donecnt := c.donecnt + 1, pulses := 0, cqwait := false, asked := false }))
        let s := culPulse 2 n (raiseIf d.irq (280 + 2 * n) s)
        if d.ends then s.modCul n (fun c => { c with en := false, phase := .idle })
        else s.modCul n (fun c => { c with nextSp := d.nsp, next := d.next, desc := d.next, phase := .fetch })
    else s

/-! ## Registers (R613-R619) -/

/-- Warm reset (R615). -/
def culWarm (c : CulCh) : CulCh := { sp := c.sp, desc := c.desc, donecnt := c.donecnt }

/-- A write of CUL[n].CTL (R597, R612-R614). -/
def writeCulCtl (n : Nat) (v : U32) (s : State) : State :=
  let s := s.modCul n (fun c =>
    let c := { c with pause := bit v 1, paused := c.paused && bit v 1 }
    if bit v 0 && !c.en then
      { c with en := true, phase := .fetch, nextSp := c.sp, next := c.desc, cur := none, issued := 0, done := 0
               bursts := [], fail := none, failed := none, trig := false, started := false, pulses := 0
               cqwait := false, asked := false }
    else c)
  if bit v 2 && (s.culCh n).en then culStop n 13 (s.modCul n (fun c => { c with bursts := [], asked := false })) else s

def culStat (c : CulCh) : U32 :=
  pk [(0, b1 c.en), (1, b1 (waitTrg c)), (2, b1 c.paused), (3, b1 c.cqwait), (4, b1 c.doneF), (5, b1 c.err),
    (6, b1 c.trgov), (7, b1 c.reclost), (8, c.ecode.toNat)]

/-- The address that SRC or DST shows (R612, R618). -/
def sideNext (d : CulDesc) (src : Bool) (o : Nat) : U48 :=
  if src then srcAddr d o 0 else dstAddr d o 0

def culRead (s : State) (n r : Nat) : U32 :=
  let c := s.culCh n
  let src : U48 := match c.cur with | some d => sideNext d true c.issued ||| (b1 d.ssp : Nat) | none => 0
  let dst : U48 := match c.cur with | some d => sideNext d false c.done ||| (b1 d.dsp : Nat) | none => 0
  match r with
  | 0x00 => pk [(0, b1 c.en), (1, b1 c.pause)]
  | 0x04 => fd c.desc 0 32 ||| pk [(0, b1 c.sp)]
  | 0x08 => (fd c.desc 32 16).zeroExtend 32
  | 0x0C => fd src 0 32
  | 0x10 => (fd src 32 16).zeroExtend 32
  | 0x14 => fd dst 0 32
  | 0x18 => (fd dst 32 16).zeroExtend 32
  | 0x1C => match c.cur with | some d => BitVec.ofNat 32 (d.len.toNat - c.done) | none => 0
  | 0x20 => c.crc
  | 0x24 => culStat c
  | 0x28 => c.donecnt
  | _ => 0

def culWrite (n r : Nat) (v : U32) (s : State) : State :=
  match r with
  | 0x00 => writeCulCtl n v s
  | 0x04 => s.modCul n (fun c =>
      { c with sp := bit v 0, desc := if c.en then c.desc else fd c.desc 32 16 ++ (fd v 5 27 ++ 0#5) })
  | 0x08 => s.modCul n (fun c => { c with desc := fd v 0 16 ++ fd c.desc 0 32 })
  | 0x24 => s.modCul n (fun c =>
      { c with doneF := c.doneF && !bit v 4, err := c.err && !bit v 5, trgov := c.trgov && !bit v 6
               reclost := c.reclost && !bit v 7 })
  | _ => s

/-! ## Commands -/

def execDescriptorLoad (n : Fin 16) (resp : HostRead) (s : State) : Host.Outcome State Fault Refusal :=
  .next (inCore s (fetchDesc n resp s))

/-- CULVERT_TRIGGER: a trigger pulse reaches the channel (R599-R601). -/
def execCulvertTrigger (n : Fin 16) (s : State) : Host.Outcome State Fault Refusal :=
  .next (inCore s (let c := s.culCh n
    if c.pulses = 0 then s
    else
      let open_ : Bool := match c.cur with
        | some d => c.en && c.phase = .loaded && decide (c.done < d.len.toNat)
        | none => false
      let s := s.modCul n (fun c =>
        let c := { c with pulses := c.pulses - 1 }
        if open_ then (if c.trig then { c with trgov := true } else { c with trig := true }) else c)
      hwSetIf (open_ && c.trig) (0x20024 + 0x40 * n) 0x40 s))

def execBurstGrant (s : State) : Host.Outcome State Fault Refusal :=
  .next (inCore s (match granted s with
    | some n => grantBurst n s
    | none => s))

def execBurstComplete (n : Fin 16) (resp : HostRead) (writeError : Option (Fin 16)) (s : State) :
    Host.Outcome State Fault Refusal :=
  .next (inCore s (completeBurst n resp writeError s))

def execDescriptorComplete (n : Fin 16) (s : State) : Host.Outcome State Fault Refusal := .next (inCore s (completeDesc n s))

/-- CULVERT_ERROR: the stop for an error that the channel has met, once the bursts before it are complete; or an error
response to the read-back (9) or to the write of the record (10) of a completion (R606-R608). -/
def execCulvertError (n : Fin 16) (code : BitVec 4) (s : State) : Host.Outcome State Fault Refusal :=
  .next (inCore s (let c := s.culCh n
    let late : Bool := completing c && (match c.cur with
      | some d => (code = 9 && d.dsp) || (code = 10 && d.record)
      | none => false)
    if c.en && c.bursts.isEmpty && (c.fail = some code || late) then culStop n code s else s))

/-- PAUSE_DRAINED (R612). -/
def execPauseDrained (n : Fin 16) (s : State) : Host.Outcome State Fault Refusal :=
  .next (inCore s (let c := s.culCh n
    if c.pause && c.bursts.isEmpty && !(fetching c && c.asked) && !c.paused then s.modCul n (fun c => { c with paused := true }) else s))

end Sys2Proof.Machine
end

