-- ==== Sys2Proof/Machine/LedgerMem.lean ====
section
/-! DEFINITION. The records of the ledger, cycle counting, binning and damage, and the staging of records for NVM
(R733-R747, R753). -/

namespace Sys2Proof.Machine

def lgFrozen (s : State) : Bool := s.dbg.frozen && s.dbg.frzLedger

/-! ## Ledger memory (R747) -/

def lgGet (s : State) (a n : Nat) : Nat := natLE (memRead s.mem.ledger a n)

def lgPut (a n v : Nat) (s : State) : State :=
  { s with mem := { s.mem with ledger := memWrite s.mem.ledger a (bytesLE (BitVec.ofNat (8 * n) v) n) } }

/-- First byte of record r. -/
def recAt (r : Nat) : Nat := 2304 * r

def recId (s : State) (r : Nat) : U64 := BitVec.ofNat 64 (lgGet s (recAt r) 8)
/-- DMG with DFRAC below it (R742). -/
def recDmg (s : State) (r : Nat) : Nat := lgGet s (recAt r + 8) 8 * 2 ^ 24 + lgGet s (recAt r + 16) 3
def recFlags (s : State) (r : Nat) : Byte := memByte s.mem.ledger (recAt r + 19)
def recPos (s : State) (r : Nat) : Byte := memByte s.mem.ledger (recAt r + 20)
def recState (s : State) (r : Nat) : BitVec 2 := fd (recPos s r) 4 2
def recNres (s : State) (r : Nat) : Nat := lgGet s (recAt r + 21) 1
def recSaved (s : State) (r : Nat) : Nat := lgGet s (recAt r + 32) 8
/-- A 16-bit temperature of a record. -/
def recTemp (s : State) (r off : Nat) : Int := (BitVec.ofNat 16 (lgGet s (recAt r + off) 2)).toInt
def recRes (s : State) (r : Nat) : List Int := (List.range (min 64 (recNres s r))).map (fun i => recTemp s r (40 + 2 * i))

def putFlags (r : Nat) (v : Byte) (s : State) : State := lgPut (recAt r + 19) 1 v.toNat s
def putPos (r : Nat) (ch : BitVec 4) (st dir : BitVec 2) (s : State) : State :=
  lgPut (recAt r + 20) 1 ((dir ++ st ++ ch : Byte).toNat) s

/-- The residue, oldest first. -/
def putRes (r : Nat) (l : List Int) (s : State) : State :=
  let s := lgPut (recAt r + 21) 1 l.length s
  { s with mem := { s.mem with
      ledger := memWrite s.mem.ledger (recAt r + 40) (l.flatMap (fun x => bytesLE (BitVec.ofInt 16 x) 2)) } }

/-! ## Flags (R746, R764) -/

/-- Sets STAT bit `b` of channel c; an enabled bit that rises raises source 400 + c. -/
def lgFlag (c b : Nat) (s : State) : State :=
  let ch := s.lgch c
  raiseIf (!bit ch.stat b && bit ch.ien b) (400 + c)
    (hwSet (0x24110 + 0x20 * c) (1#32 <<< b) (s.modLg c (fun ch => { ch with stat := setBit ch.stat b true })))

/-! ## Damage (R741, R742, R745) -/

def thrLg (s : State) (k : Nat) : U16 := vget s.lg.thr k 0

/-- Adds `x` units of 2^-24 to the record's damage and tests its thresholds. -/
def addDamage (c r x : Nat) (s : State) : State :=
  let sum := recDmg s r + x
  let s :=
    if sum < 2 ^ 88 then lgPut (recAt r + 16) 3 (sum % 2 ^ 24) (lgPut (recAt r + 8) 8 (sum / 2 ^ 24) s)
    else
      let (f, s) := drawFree 24 s
      lgPut (recAt r + 16) 3 f.toNat (lgPut (recAt r + 8) 8 (2 ^ 64 - 1) s)
  let dmg := recDmg s r / 2 ^ 24
  s.each 4 (fun s k =>
    if !bit (recFlags s r) k && decide ((thrLg s k).toNat * 2 ^ 36 ≤ dmg) then
      lgFlag c 0 (putFlags r (setBit (recFlags s r) k true) s)
    else s)

/-- The damage of a table entry at byte `a` for `h` halves, in units of 2^-24 (R741). -/
def entryDamage (s : State) (a h : Nat) : Nat :=
  let e : U32 := BitVec.ofNat 32 (lgGet s a 4)
  (fd e 0 27).toNat * 2 ^ (fd e 27 5).toNat * 2 ^ 7 * h

/-- Adds `h` to histogram bin `i` of the record (R739, R740). -/
def addBin (c r i h : Nat) (s : State) : State :=
  let a := recAt r + 168 + 4 * i
  let v := lgGet s a 4 + h
  if v < 2 ^ 32 - 1 then lgPut a 4 v s
  else lgFlag c 2 (putFlags r (setBit (recFlags s r) 6 true) (lgPut a 4 (2 ^ 32 - 1) s))

def binWidth (w : U16) : Int := if w = 0 then 1 else w.toNat

/-- The mean or ageing bin of a temperature (R739, R744). -/
def tempBin (ch : LgCh) (t : Int) (top : Int) : Nat := (clampI 0 top ((t - ch.tm0.toInt) / binWidth ch.tmw)).toNat

/-- close(p, q, h) (R739). -/
def closeCycle (c r : Nat) (p q : Int) (h : Nat) (s : State) : State :=
  let ch := s.lgch c
  let dt : Int := (p - q).natAbs
  let tm : Int := shrI (p + q) 1
  let d := (clampI 0 31 (dt / binWidth ch.dtw)).toNat
  let i := 16 * d + tempBin ch tm 15
  let s := addBin c r i h s
  addDamage c r (entryDamage s (0x24000 + 4 * i) h) s

/-! ## Rainflow (R736-R738) -/

/-- The four-point rule on the residue, newest first: what it closes, and the residue left (R737). -/
def fourPoint : Nat → List Int → List (Int × Int) × List Int
  | 0, l => ([], l)
  | fuel + 1, d :: c :: b :: a :: t =>
    let x := (b - c).natAbs
    if (a - b).natAbs < x || (c - d).natAbs < x then ([], d :: c :: b :: a :: t)
    else let (cs, l) := fourPoint fuel (d :: a :: t); ((b, c) :: cs, l)
  | _, l => ([], l)

/-- push(x): a full stack first closes its oldest range as a half cycle (R738). -/
def pushRes (c r : Nat) (x : Int) (s : State) : State :=
  match recRes s r with
  | r0 :: r1 :: t =>
    if 64 ≤ (r0 :: r1 :: t).length then
      let s := closeCycle c r r0 r1 1 s
      lgFlag c 1 (putFlags r (setBit (recFlags s r) 5 true) (putRes r (r1 :: t ++ [x]) s))
    else putRes r (r0 :: r1 :: t ++ [x]) s
  | l => putRes r (l ++ [x]) s

def rainflow (c r : Nat) (s : State) : State :=
  let (cs, l) := fourPoint 64 (recRes s r).reverse
  let s := cs.foldl (fun s p => closeCycle c r p.1 p.2 2 s) s
  putRes r l.reverse s

/-- on_sample(t) (R736). -/
def onSample (c r : Nat) (t : Int) (s : State) : State :=
  let ch := s.lgch c
  let pos := recPos s r
  let hyst : Int := ch.hyst.toNat
  let dir := fd pos 6 2
  let put (st : State) (d : BitVec 2) : State := putPos r (fd pos 0 4) (fd pos 4 2) d st
  let putE (x : Int) (st : State) : State := lgPut (recAt r + 22) 2 (BitVec.ofInt 16 x).toNat st
  match (recRes s r).getLast? with
  | none => put (pushRes c r t s) 0
  | some tp =>
    if dir = 0 then
      if hyst < t - tp then put (putE t s) 1
      else if hyst < tp - t then put (putE t s) 3
      else s
    else
      let sign : Int := if dir = 1 then 1 else -1
      let e := recTemp s r 22
      if 0 < (t - e) * sign then putE t s
      else if hyst < (e - t) * sign then
        let s := pushRes c r e s
        let s := putE t s
        rainflow c r (put s (if dir = 1 then 3 else 1))
      else s

/-- Channel c processes its temperature (R735, R736, R744); a channel that has been disabled meanwhile discards it. -/
def processTemp (c : Nat) (s : State) : State :=
  let ch := s.lgch c
  match ch.tj with
  | none => s
  | some t =>
    let s := s.modLg c (fun ch => { ch with tj := none })
    if !ch.bound || !ch.en then lgFlag c 3 s
    else
      let s := s.modLg c (fun ch => { ch with last := some t })
      if ch.mode then s else onSample c ch.record.toNat t.toInt s

/-- The ageing tick of channel c (R744). -/
def ageChannel (s : State) (c : Nat) : State :=
  let ch := s.lgch c
  match ch.last with
  | some t =>
    if ch.en && ch.bound && ch.mode then
      let r := ch.record.toNat
      let i := tempBin ch t.toInt 511
      let s := addBin c r i 1 s
      addDamage c r (entryDamage s (0x24800 + 4 * i) 2) s
    else s
  | none => s

/-! ## Staging (R753) -/

/-- Areas (R760). -/
def lgAreas (s : State) : Nat := (if s.lg.narea = 0 then 1 else s.lg.narea.toNat) + 1

/-- First sector of an area. -/
def areaSector (s : State) (a : Nat) : Nat := s.lg.first.toNat + 10 * a

/-- Stages record r: writes SAVED and CRC; the bytes to program. -/
def stageRecord (r : Nat) (s : State) : List Byte × State :=
  let s := lgPut (recAt r + 32) 8 s.clk.gauge.toNat s
  let crc := crc32c (memRead s.mem.ledger (recAt r) 2300)
  let s := lgPut (recAt r + 2300) 4 crc.toNat s
  (memRead s.mem.ledger (recAt r) 2304, s)

/-- The commit unit of a persistence (R753). -/
def commitUnit (s : State) : BitVec 256 :=
  let map := bitsFrom 64 (fun r => recState s r != 0)
  let body := bytesLE 0x4C454447#32 4 ++ bytesLE (s.lg.seq + 1) 4 ++ bytesLE s.clk.gauge 8 ++ bytesLE map 8
    ++ List.replicate 4 0
  ofLE 256 (body ++ bytesLE (crc32c body) 4)

end Sys2Proof.Machine
end

