-- ==== Sys2Proof/Machine/Nvm.lean ====
section
/-! DEFINITION. The NVM controller: places and units of the macro, the option area, erase and program jobs with
verify, sparing and wear, suspension, and its registers (17). -/

namespace Sys2Proof.Machine

/-! ## Places and units (R765-R767) -/

def NvmPlace.sec (p : NvmPlace) : Nat := p.bank.toNat * 1024 + p.phys.toNat
def NvmPlace.key (p : NvmPlace) (u : Nat) : Nat := p.sec * 512 + u

/-- Entry `k` of a rising list. -/
def aget {β : Type} (k : Nat) : List (Nat × β) → Option β
  | [] => none
  | (a, x) :: t => if a = k then some x else aget k t

def aput {β : Type} (k : Nat) (x : β) : List (Nat × β) → List (Nat × β)
  | [] => [(k, x)]
  | (a, y) :: t =>
    if k < a then (k, x) :: (a, y) :: t else if k = a then (k, x) :: t else (a, y) :: aput k x t

/-- Spares of each bank (R766). -/
def sprOf (o : Opt) : Nat := if o.spr = 0 then max 4 ((o.sect.toNat + 49) / 50) else o.spr.toNat

/-- Logical sectors (R765). -/
def sectorsOf (o : Opt) : Nat := o.nbank.toNat * o.sect.toNat

def nvmBytes (s : State) : Nat := sectorsOf s.nvm.opt * 16384

/-- The spare-map entry of a logical sector: its place in the map and its word (R788). -/
def mapEntry (o : Opt) (sector : Nat) : Option (Nat × U32) :=
  (o.spmap.toList.zipIdx.find? (fun e => fd e.1 28 2 != 0 && (fd e.1 0 11).toNat = sector)).map (fun e => (e.2, e.1))

/-- Copy c of the option area lies in physical sector c of bank 0. -/
def copyPlace (c : Nat) : NvmPlace := { bank := 0, phys := BitVec.ofNat 10 c }

/-- Where a logical sector lies (R765, R772, R787). -/
def placeOf (o : Opt) (sector : Nat) : NvmPlace :=
  if sector < 3 then copyPlace sector
  else
    let bank : BitVec 2 := BitVec.ofNat 2 (sector / o.sect.toNat)
    match mapEntry o sector with
    | some (_, e) =>
      if fd e 28 2 = 1 then { bank := bank, phys := BitVec.ofNat 10 (o.sect.toNat + (fd e 11 5).toNat) }
      else { bank := bank, phys := BitVec.ofNat 10 (sector % o.sect.toNat) }
    | none => { bank := bank, phys := BitVec.ofNat 10 (sector % o.sect.toNat) }

/-- The sector is read-only-retired (R789). -/
def roRetired (o : Opt) (sector : Nat) : Bool :=
  match mapEntry o sector with
  | some (_, e) => fd e 28 2 = 2
  | none => false

/-- A unit as it is read (R767): its data bytes, and whether it is erased, corrected, uncorrectable. -/
structure UnitRead where
  data : BitVec 256
  erased : Bool
  cor : Bool
  unc : Bool
deriving DecidableEq, Repr

/-- Reads a unit of the macro; what is undefined is free (R789, R795). -/
def readUnit (p : NvmPlace) (u : Nat) (s : State) : UnitRead × State :=
  let k := p.key u
  if marked k s.nvm.undefUnit || (marked p.sec s.nvm.undefSec && (aget k s.nvm.units).isNone) then
    let n := s.free
    ({ data := (Config.freeValue n).truncate 256, erased := Config.freeBit n
       cor := Config.freeBit (n + 1), unc := Config.freeBit (n + 2) }, { s with free := n + 3 })
  else
    match aget k s.nvm.units with
    | none => ({ data := BitVec.allOnes 256, erased := true, cor := false, unc := false }, s)
    | some d =>
      let unc := marked k s.nvm.bad
      ({ data := d, erased := false, cor := !unc && marked k s.nvm.weak, unc := unc }, s)

/-- NVMCNT (R803). -/
def nvmCnt (s : State) : U32 := pk [(0, s.nvm.corr.toNat), (16, s.nvm.unc.toNat)]

/-- What a read of a unit counts and reports (R796, R803); during boot stages 1-3 source 387 waits. -/
def countUnit (r : UnitRead) (s : State) : State :=
  if r.unc then
    let s := rcSet 0x25018 (nvmCnt s) (fun v => satInc (fd v 16 16 : U16) ++ (fd v 0 16 : U16))
      (hwSet 0x25008 0x800 { s with nvm := { s.nvm with uncor := true, unc := satInc s.nvm.unc } })
    if s.pwr.stage.toNat ≤ 3 then { s with nvm := { s.nvm with bootUnc := true } } else raise 387 s
  else if r.cor then
    rcSet 0x25018 (nvmCnt s) (fun v => (fd v 16 16 : U16) ++ satInc (fd v 0 16 : U16))
      { s with nvm := { s.nvm with corr := satInc s.nvm.corr } }
  else s

/-- The debug keys of an option copy read 0 (R778). -/
def hideKeys (sector u : Nat) (d : BitVec 256) : BitVec 256 :=
  if sector < 3 && u = 4 then 0
  else if sector < 3 && u = 5 then d &&& ~~~(BitVec.ofNat 256 (2 ^ 128 - 1))
  else d

/-- Reads unit `u` of a logical sector for an agent that may not see the keys. -/
def readLogical (sector u : Nat) (s : State) : UnitRead × State :=
  let (r, s) := readUnit (placeOf s.nvm.opt sector) u s
  ({ r with data := hideKeys sector u r.data }, countUnit r s)

/-! ## The option area (R772-R778) -/

/-- The content that a copy's bytes give (R773). -/
def parseOpt (l : List Byte) : Opt :=
  let w (a : Nat) : U32 := ofLE 32 ((l.drop a).take 4)
  { gen := w 0x4, rolelock := bit (w 0x8) 0, actlock := bit (w 0x8) 1, optbad := fd (w 0xC) 0 3
    slotaFirst := fd (w 0x10) 0 11, slotaLen := fd (w 0x10) 16 11
    slotbFirst := fd (w 0x14) 0 11, slotbLen := fd (w 0x14) 16 11
    active := bit (w 0x18) 0, actv := bit (w 0x18) 1
    fwFirst := fd (w 0x1C) 0 11, fwLen := fd (w 0x1C) 16 11, refsel := fd (w 0x20) 0 2
    role := fd (w 0x28) 0 2, gidx := fd (w 0x28) 2 3, grpen := bit (w 0x28) 5, netkey := w 0x2C
    nbank := fd (w 0x40) 0 3, sect := fd (w 0x40) 3 10, spr := fd (w 0x40) 13 5
    trd := fd (w 0x44) 0 4, tvf := fd (w 0x44) 4 8, trcv := fd (w 0x44) 12 16
    tpp := fd (w 0x48) 0 16, tep := fd (w 0x48) 16 16
    npmax := fd (w 0x4C) 0 8, nemax := fd (w 0x4C) 8 8, wearthr := fd (w 0x4C) 16 8, spused := w 0x50
    dkey := vgen 3 (fun i => ofLE 128 ((l.drop (0x80 + 16 * i)).take 16))
    bistLogic := ofLE 64 ((l.drop 0xB0).take 8), bistMem := ofLE 64 ((l.drop 0xB8).take 8)
    spmap := vgen 128 (fun i => w (0x100 + 4 * i)) }

/-- The 4,096 bytes of a copy (R773). -/
def optBytes (o : Opt) : List Byte :=
  let w (fs : List (Nat × Nat)) : List Byte := bytesLE (pk fs) 4
  let body : List Byte :=
    bytesLE 0x4F505441#32 4 ++ bytesLE o.gen 4 ++ w [(0, b1 o.rolelock), (1, b1 o.actlock)] ++ w [(0, o.optbad.toNat)]
    ++ w [(0, o.slotaFirst.toNat), (16, o.slotaLen.toNat)] ++ w [(0, o.slotbFirst.toNat), (16, o.slotbLen.toNat)]
    ++ w [(0, b1 o.active), (1, b1 o.actv)] ++ w [(0, o.fwFirst.toNat), (16, o.fwLen.toNat)]
    ++ w [(0, o.refsel.toNat)] ++ w []
    ++ w [(0, o.role.toNat), (2, o.gidx.toNat), (5, b1 o.grpen)] ++ bytesLE o.netkey 4
    ++ List.replicate 16 0
    ++ w [(0, o.nbank.toNat), (3, o.sect.toNat), (13, o.spr.toNat)]
    ++ w [(0, o.trd.toNat), (4, o.tvf.toNat), (12, o.trcv.toNat)] ++ w [(0, o.tpp.toNat), (16, o.tep.toNat)]
    ++ w [(0, o.npmax.toNat), (8, o.nemax.toNat), (16, o.wearthr.toNat)] ++ bytesLE o.spused 4
    ++ List.replicate 44 0
    ++ o.dkey.toList.flatMap (fun k => bytesLE k 16) ++ bytesLE o.bistLogic 8 ++ bytesLE o.bistMem 8
    ++ List.replicate 64 0 ++ o.spmap.toList.flatMap (fun e => bytesLE e 4)
  let body := padTo 4092 body
  body ++ bytesLE (crc32c body) 4

/-- The 128 units of a copy as the block reads them: their bytes, and whether one is uncorrectable. -/
def readCopyF (c : Nat) : Nat → Nat → State → (List Byte × Bool) × State
  | 0, _, s => (([], false), s)
  | k + 1, u, s =>
    let (r, s) := readUnit (copyPlace c) u s
    let ((t, b), s) := readCopyF c k (u + 1) (countUnit r s)
    ((bytesLE r.data 32 ++ t, r.unc || b), s)

/-- Reads copy c and tells its content when it is valid (R774). -/
def readCopy (c : Nat) (s : State) : Option Opt × State :=
  let ((l, bad), s) := readCopyF c 128 0 s
  (if ofLE 32 (l.take 4) = 0x4F505441#32 && !bad && ofLE 32 (l.drop 4092) = crc32c (l.take 4092) then
    some (parseOpt l) else none, s)

/-- Takes a content into force: the registers that come from the option area (R773, R799). -/
def takeOpt (o : Opt) (s : State) : State :=
  { s with
    nvm := { s.nvm with opt := o, wearthr := o.wearthr }
    link := { s.link with role := o.role, gidx := o.gidx, grpen := o.grpen, netkey := o.netkey }
    dbg := { s.dbg with key := o.dkey, keyv := true } }

/-- The option area is read at a power-on or warm reset (R774, R775, R777). -/
def loadOptions (s : State) : State :=
  let (c0, s) := readCopy 0 s
  let (c1, s) := readCopy 1 s
  let (c2, s) := readCopy 2 s
  let cs : List (Option Opt) := [c0, c1, c2]
  let best := cs.foldl (fun (a : Option Opt) (c : Option Opt) =>
    match a, c with
    | none, c => c
    | some x, some y => if x.gen < y.gen then some y else some x
    | a, none => a) none
  match best with
  | none =>
    let s := takeOpt {} { s with nvm := { s.nvm with prov := true, optok := 0, optweak := true } }
    raise 389 (raise 390 s)
  | some o =>
    let ok := bitsFrom 3 (fun c => (cs.getD c none).isSome)
    let same := bitsFrom 3 (fun c => cs.getD c none = some o)
    let weak := decide ((bitsOf same).length < 2)
    let s := takeOpt o { s with nvm := { s.nvm with prov := false, optok := ok, optweak := weak } }
    raiseIf weak 389 s

/-! ## Jobs (R784) -/

/-- Puts an option change before every waiting operation, behind earlier ones and the operation that runs (R784). -/
def addOption (c : OptChange) (s : State) : State :=
  let j : NvmJob := { who := .option c }
  let isOpt (j : NvmJob) : Bool := match j.who with | .option _ => true | _ => false
  let (head, rest) := if s.nvm.run.isSome then (s.nvm.jobs.take 1, s.nvm.jobs.drop 1) else ([], s.nvm.jobs)
  { s with nvm := { s.nvm with jobs := head ++ rest.takeWhile isOpt ++ [j] ++ rest.dropWhile isOpt } }

def addJob (j : NvmJob) (s : State) : State := { s with nvm := { s.nvm with jobs := s.nvm.jobs ++ [j] } }

def modJob (f : NvmJob → NvmJob) (s : State) : State :=
  match s.nvm.jobs with
  | [] => s
  | j :: t => { s with nvm := { s.nvm with jobs := f j :: t } }

/-- The stage of the command with that place in the order of reads. -/
def setStage (seq : Nat) (st : CmdStage) (s : State) : State :=
  let f (c : Option CmdSlot) : Option CmdSlot :=
    match c with
    | some c => if c.seq = seq then some { c with stage := st } else some c
    | none => none
  { s with hg := { s.hg with slot := vmap s.hg.slot (fun _ c => f c), linkSlot := f s.hg.linkSlot } }

def slotOfSeq (s : State) (seq : Nat) : Option CmdSlot :=
  match s.hg.slot.toList.findSome? (fun c =>
      match c with
      | some c => if c.seq = seq then some c else none
      | none => none) with
  | some c => some c
  | none => match s.hg.linkSlot with
    | some c => if c.seq = seq then some c else none
    | none => none

/-- The end of an IMAGE_LOAD (R577, R580): `acc` has the sections applied in [31:0], IMGVER in [39:32]; `slot`: where it
has been programmed. Until then the image staged before stays as it was. -/
def imageDone (seq : Nat) (status : Byte) (acc : U64) (slot : Option Bool) (s : State) : State :=
  if status = 0 then
    setStage seq (.done 0 0 (acc &&& 0xFFFFFFFF)) { s with
      hg := { s.hg with
        staged := true, stgver := fd acc 32 8, stagedSlot := slot, autostart := s.hg.loadAuto, loadAuto := [] } }
  else
    setStage seq (.done status 0 (acc &&& 0xFFFFFFFF)) { s with
      hg := { s.hg with staged := false }, seq := { s.seq with verImg := 0 } }

/-- A command's job has ended (R781, R782, R577). -/
def cmdDone (seq : Nat) (j : NvmJob) (status : Byte) (sector : Nat) (s : State) : State :=
  match slotOfSeq s seq with
  | none => s
  | some c =>
    let op := (cmdOp c.entry).toNat
    if op = 0x10 then
      imageDone seq status (match c.stage with | .running acc => acc | _ => 0)
        (if bit (cmdP c.entry 4) 0 then some (bit (cmdP c.entry 4) 1) else none) s
    else
      let detail := if status != 0 then sector else j.excessAt
      let result : Nat :=
        if op = 0x70 then j.done % 2 ^ 16 + j.retired % 2 ^ 16 * 2 ^ 16 + j.excess % 2 ^ 16 * 2 ^ 32
        else j.done % 2 ^ 32 + j.retired % 2 ^ 16 * 2 ^ 32
      setStage seq (.done status (BitVec.ofNat 16 detail) (BitVec.ofNat 64 result)) s

/-- Copies that hold the content in force: valid, with its GEN (R777). -/
def holders (s : State) : Nat :=
  ((List.range 3).filter (fun c =>
    match (readCopy c s).1 with
    | some o => o.gen = s.nvm.opt.gen
    | none => false)).length

/-- The first job ends with a status, for the logical sector it failed at. -/
def endJob (status : Byte) (sector : Nat) (s : State) : State :=
  match s.nvm.jobs with
  | [] => s
  | j :: t =>
    let s := { s with nvm := { s.nvm with jobs := t, run := none } }
    match j.who with
    | .cmd seq => cmdDone seq j status sector s
    | .persist =>
      if status = 0 then s
      else hwSet 0x24014 8 { s with lg := { s.lg with persist := .idle, perr := true, skip := s.lg.skip + 1 } }
    | .ledgerErase => s
    | .option _ =>
      let weak := decide (holders s < 2)
      raiseIf weak 389 { s with nvm := { s.nvm with optweak := weak } }

/-- The first job's first step is over: the job makes way for the others that wait (R784). -/
def popOp (s : State) : State :=
  match s.nvm.jobs with
  | [] => s
  | j :: t =>
    let j := { j with ops := j.ops.tail }
    let jobs := match j.who, j.waits, j.retiring with
      | .option _, _, _ => j :: t
      | _, false, none => t ++ [j]
      | _, _, _ => j :: t
    { s with nvm := { s.nvm with jobs := jobs, run := none } }

/-- NVMFAIL (R803). -/
def setFail (sector : Nat) (cause : BitVec 4) (pulses : Nat) (s : State) : State :=
  { s with nvm := { s.nvm with
      failSector := BitVec.ofNat 11 sector, failCause := cause, failPulses := BitVec.ofNat 8 pulses } }

/-! ## Option changes (R776, R777, R788, R790) -/

/-- The word of a spare-map entry. -/
def mapWord32 (sector spare : Nat) (state : BitVec 2) : U32 :=
  pk [(0, sector % 2048), (11, spare % 32), (28, state.toNat)]

/-- The content that a change makes of the loaded one (R776). -/
def changed (c : OptChange) (o : Opt) : Opt :=
  match c with
  | .repair => o
  | .active b => { o with gen := o.gen + 1, active := b, actv := true }
  | .role r => { o with gen := o.gen + 1, role := r }
  | .map sector spare st =>
    let i := match mapEntry o sector with
      | some (i, _) => some i
      | none => (o.spmap.toList.zipIdx.find? (fun e => fd e.1 28 2 = 0)).map (fun e => e.2)
    { o with gen := o.gen + 1
             spmap := match i with
               | some i => vset o.spmap i (mapWord32 sector spare st)
               | none => o.spmap }

/-- The copies to write, in order (R776 step 2, R777). -/
def copyOrder (c : OptChange) (ok bad : BitVec 3) : List Nat :=
  let live := [0, 1, 2].filter (fun i => !bit bad i)
  match c with
  | .repair => live.filter (fun i => !bit ok i)
  | _ => live.filter (fun i => !bit ok i) ++ live.filter (fun i => bit ok i)

/-- A copy has failed: it is marked in the content of the copies after it (R776 step 4, R790). -/
def copyFailed (c : Nat) (s : State) : State :=
  let isCheck (x : NvmOp) : Bool := match x with | .check _ => true | _ => false
  let s := modJob (fun j =>
    { j with
      ops := (j.ops.dropWhile (fun x => !isCheck x)).tail
      content := j.content.map (fun (o : Opt) => { o with optbad := setBit o.optbad c true }) }) s
  raise 388 <| hwSet 0x25008 0x1000 { s with nvm := { s.nvm with
    optrep := true, run := none, optok := setBit s.nvm.optok c false
    opt := { s.nvm.opt with optbad := setBit s.nvm.opt.optbad c true } } }

/-- A copy has been written and read back (R776 step 3): the first one brings the change into force. -/
def checkCopy (c : Nat) (s : State) : State :=
  let (r, s) := readCopy c s
  match s.nvm.jobs with
  | [] => s
  | j :: _ =>
    match r, j.content with
    | some o, some want =>
      if o = want then
        let first := j.done = 0 && j.who != .option .repair
        let s := popOp (modJob (fun j => { j with done := j.done + 1 }) s)
        let ok : BitVec 3 := if first then 0 else s.nvm.optok
        { s with nvm := { s.nvm with opt := { want with optbad := s.nvm.opt.optbad }, optok := setBit ok c true } }
      else copyFailed c s
    | _, _ => copyFailed c s

/-! ## Verify failures and sparing (R787-R789) -/

/-- Spares of a bank that SPUSED shows as unused. -/
def sparesLeft (o : Opt) (bank : Nat) : Nat := sprOf o - (fd o.spused (8 * bank) 8).toNat

/-- Takes the lowest unused spare of a bank: its index. -/
def takeSpare (bank : Nat) (s : State) : Option (Nat × State) :=
  let o := s.nvm.opt
  if sparesLeft o bank = 0 then none
  else
    let k := (fd o.spused (8 * bank) 8).toNat
    some (k, { s with nvm := { s.nvm with opt := { o with spused := o.spused + BitVec.ofNat 32 (2 ^ (8 * bank)) } } })

/-- The units of a failed sector to be copied to a spare, all but unit `skip` and the erased ones (R787). -/
def copyUnits (p sp : NvmPlace) (skip sector : Nat) : Nat → Nat → State → List NvmOp × State
  | 0, _, s => ([], s)
  | k + 1, u, s =>
    if u = skip then copyUnits p sp skip sector k (u + 1) s
    else
      let (r, s) := readUnit p u s
      let (t, s) := copyUnits p sp skip sector k (u + 1) (if r.erased then s else countUnit r s)
      (if r.erased then t else .program (some sp) (BitVec.ofNat 9 u) r.data false r.unc sector :: t, s)

/-- The units of a sector that hold a correctable error. -/
def weakUnits (p : NvmPlace) (s : State) : List (BitVec 9) :=
  ((List.range 512).filter (fun u => marked (p.key u) s.nvm.weak)).map (BitVec.ofNat 9)

/-- The failed program step that a list of steps is about, up to the record: its unit and data (R787). -/
def failedUnit : List NvmOp → Option (BitVec 9 × BitVec 256 × Bool)
  | [] => none
  | .retired _ _ :: _ => none
  | .program _ u d _ b _ :: t => match failedUnit t with | some x => some x | none => some (u, d, b)
  | _ :: t => failedUnit t

/-- The steps after the record of the retirement in progress. -/
def afterRetired : List NvmOp → List NvmOp
  | [] => []
  | .retired _ _ :: t => t
  | _ :: t => afterRetired t

/-- A verify failure of the first job's first step (R785-R790): the sector goes to a spare, or the job ends. -/
def verifyFail (sector : Nat) (cause : BitVec 4) (pulses : Nat) (s : State) : State :=
  match s.nvm.jobs with
  | [] => s
  | j :: _ =>
    let s := setFail sector cause pulses { s with nvm := { s.nvm with run := none } }
    match j.who with
    | .option _ =>
      match j.ops with
      | .erase _ c :: _ => copyFailed c s
      | .program _ _ _ _ _ c :: _ => copyFailed c s
      | _ => s
    | _ =>
      if s.nvm.prov then endJob 0x10 sector s
      else
        let p := placeOf s.nvm.opt sector
        match takeSpare p.bank.toNat s with
        | none =>
          let s := endJob 0x11 sector (raise 386 (hwSet 0x25008 0x400 { s with nvm := { s.nvm with exh := true } }))
          if (mapEntry s.nvm.opt sector).isSome || s.nvm.opt.spmap.toList.any (fun e => fd e 28 2 = 0) then
            addOption (.map sector 0 2) s
          else s
        | some (k, s) =>
          let sp : NvmPlace := { bank := p.bank, phys := BitVec.ofNat 10 (s.nvm.opt.sect.toNat + k) }
          let again := j.retiring.isSome
          let extra := if again then failedUnit j.ops else failedUnit (j.ops.take 1)
          let rest := if again then afterRetired j.ops else j.ops.tail
          let (copies, s) : List NvmOp × State :=
            match extra with
            | some (u, _, _) => copyUnits p sp u.toNat sector 512 0 s
            | none => ([], s)
          let bad := copies.any (fun o => match o with | .program _ _ _ _ b _ => b | _ => false)
          let last := match extra with
            | some (u, d, b) => [NvmOp.program (some sp) u d false b sector]
            | none => []
          modJob (fun j =>
            { j with
              ops := .erase (some sp) sector :: copies ++ last ++ [.retired sector k] ++ rest
              badCopy := j.badCopy || bad
              weakCopy := match extra with
                | some (u, _, _) => (weakUnits p s).filter (fun k => k != u)
                | none => []
              retiring := match j.retiring with
                | some r => some r
                | none => some (sector, if extra.isSome then 32 else 1) }) s

/-- Program steps for data bytes from logical byte offset `o` on. -/
def programOps (o : Nat) (l : List Byte) (blank : Bool) : List NvmOp :=
  (chunks 32 l).zipIdx.map (fun e =>
    let u := o / 32 + e.2
    NvmOp.program none (BitVec.ofNat 9 (u % 512)) (ofLE 256 (padTo 32 e.1)) blank false (u / 512))

/-- A persistence goes on: the next record is staged and programmed, or its commit is over and the following area is
erased in the background (R753). -/
def persistNext (s : State) : State :=
  let drop (s : State) : State := { s with nvm := { s.nvm with jobs := s.nvm.jobs.tail } }
  match s.lg.persist with
  | .writing a r =>
    if r < 64 then
      let (l, s) := stageRecord r s
      modJob (fun j => { j with ops := programOps (areaSector s a * 16384 + 2304 * r) l false })
        { s with lg := { s.lg with persist := .writing a (r + 1) } }
    else drop s
  | .committing a =>
    let s := drop s
    let s := { s with lg := { s.lg with
      persist := .idle, area := BitVec.ofNat 4 a, seq := s.lg.seq + 1, skip := 0 } }
    let b := (a + 1) % lgAreas s
    addJob { who := .ledgerErase, ops := (List.range 10).map (fun i => NvmOp.erase none (areaSector s b + i)) } s
  | .idle => drop s

/-! ## Beginning and ending steps (R782, R785, R786) -/

def opPlace (o : Opt) (at_ : Option NvmPlace) (sector : Nat) : NvmPlace := at_.getD (placeOf o sector)

/-- An erase begins: until it passes, the sector's contents are undefined (R789, R795, R798). -/
def beginErase (p : NvmPlace) (s : State) : State :=
  { s with nvm := { s.nvm with
      units := s.nvm.units.filter (fun e => e.1 / 512 != p.sec)
      bad := s.nvm.bad.filter (fun k => k / 512 != p.sec)
      weak := s.nvm.weak.filter (fun k => k / 512 != p.sec)
      undefUnit := s.nvm.undefUnit.filter (fun k => k / 512 != p.sec)
      undefSec := mark p.sec true s.nvm.undefSec
      run := some { pulses := 0, since := s.clk.fc, susp := false } } }

def beginProgram (k : Nat) (s : State) : State :=
  { s with nvm := { s.nvm with
      undefUnit := mark k true s.nvm.undefUnit
      run := some { pulses := 0, since := s.clk.fc, susp := false } } }

/-- The step `.retired`: the record, then its effects once the change is made (R787). -/
def finishRetire (s : State) : State :=
  match s.nvm.jobs with
  | [] => s
  | j :: _ =>
    match j.ops, j.retiring with
    | .retired sector spare :: _, some (_, n) =>
      if !j.waits then addOption (.map sector spare 1) (modJob (fun j => { j with waits := true }) s)
      else
        let s := raise 385 (hwSet 0x25008 0x200 { s with nvm := { s.nvm with retire := true } })
        let s := modJob (fun j => { j with retired := j.retired + 1, retiring := none, weakCopy := [], waits := false }) s
        if j.badCopy then endJob 0x10 sector (setFail sector 5 0 s)
        else popOp (modJob (fun j => { j with done := j.done + n }) s)
    | _, _ => s

/-- Begins the next step while none runs; `fuel` bounds the steps that need no pulse. -/
def pumpF : Nat → State → State
  | 0, s => s
  | fuel + 1, s =>
    if s.nvm.run.isSome then s
    else
      match s.nvm.jobs with
      | [] => s
      | j :: _ =>
        match j.ops with
        | [] =>
          match j.who, j.content with
          | .option c, none =>
            let o := changed c s.nvm.opt
            let cs := copyOrder c s.nvm.optok s.nvm.opt.optbad
            if cs.isEmpty then pumpF fuel (endJob 0 0 s)
            else pumpF fuel (modJob (fun j => { j with content := some o, ops := cs.map NvmOp.copy }) s)
          | .persist, _ => pumpF fuel (persistNext s)
          | _, _ => pumpF fuel (endJob 0 0 s)
        | .copy c :: rest =>
          let o := j.content.getD s.nvm.opt
          let units := (chunks 32 (optBytes o)).zipIdx.map (fun e =>
            NvmOp.program (some (copyPlace c)) (BitVec.ofNat 9 e.2) (ofLE 256 e.1) false false c)
          pumpF fuel (modJob (fun j => { j with ops := .erase (some (copyPlace c)) c :: units ++ (.check c :: rest) })
            { s with nvm := { s.nvm with optok := if j.who = .option .repair then s.nvm.optok
                                                  else setBit s.nvm.optok c false } })
        | .check c :: _ => pumpF fuel (checkCopy c s)
        | .retired _ _ :: _ => pumpF fuel (finishRetire s)
        | .erase at_ sector :: _ =>
          if at_.isNone && roRetired s.nvm.opt sector then
            pumpF fuel (endJob 0x11 sector (setFail sector 4 0 s))
          else beginErase (opPlace s.nvm.opt at_ sector) s
        | .program at_ u _ blank _ sector :: _ =>
          let p := opPlace s.nvm.opt at_ sector
          if at_.isNone && roRetired s.nvm.opt sector then
            pumpF fuel (endJob 0x11 sector (setFail sector 4 0 s))
          else if blank then
            let (r, s) := readUnit p u.toNat s
            if r.erased then beginProgram (p.key u.toNat) s
            else pumpF fuel (endJob 0x10 sector (setFail sector 3 0 (countUnit r s)))
          else beginProgram (p.key u.toNat) s

def pump (s : State) : State := pumpF (16 + 8 * s.nvm.jobs.length) s

/-- The excess of a pulse count over WEARTHR is reported (R785, R781). -/
def reportWear (sector n : Nat) (s : State) : State :=
  let isOver := n - s.nvm.wearthr.toNat
  if isOver = 0 then s
  else
    let s := raise 384 (hwSet 0x25008 0x100 { s with nvm := { s.nvm with wear := true } })
    let led : Bool := match s.nvm.jobs with
      | j :: _ => j.who = .persist || j.who = .ledgerErase
      | [] => false
    let s := modJob (fun j => if j.excess < isOver then { j with excess := isOver, excessAt := sector } else j) s
    if led then setFail sector 6 n s else s

/-- The first step is done: what it adds to the job's count (R781, R782). -/
def opDone (n : Nat) (s : State) : State :=
  let s := modJob (fun j =>
    match j.who, j.retiring with
    | .option _, _ => j
    | _, some _ => j
    | _, none => { j with done := j.done + n }) s
  pump (popOp s)

/-- ERASE_PULSE_END: a whole erase pulse is over and EVFY answers (R785). -/
def erasePulse (pass : Bool) (s : State) : State :=
  match s.nvm.run, s.nvm.jobs with
  | some r, j :: _ =>
    match j.ops with
    | .erase at_ sector :: _ =>
      if r.susp then s
      else
        let n := r.pulses + 1
        if pass then
          let p := opPlace s.nvm.opt at_ sector
          let s := { s with nvm := { s.nvm with undefSec := mark p.sec false s.nvm.undefSec } }
          opDone 1 (reportWear sector n s)
        else if s.nvm.opt.nemax.toNat ≤ n then pump (verifyFail sector 1 n (reportWear sector n s))
        else { s with nvm := { s.nvm with run := some { r with pulses := n } } }
    | _ => s
  | _, _ => s

/-- PROGRAM_PULSE_END: a whole program pulse is over and PVFY answers (R786). -/
def programPulse (pass : Bool) (s : State) : State :=
  match s.nvm.run, s.nvm.jobs with
  | some r, j :: _ =>
    match j.ops with
    | .program at_ u d _ bad sector :: _ =>
      if r.susp then s
      else
        let n := r.pulses + 1
        let k := (opPlace s.nvm.opt at_ sector).key u.toNat
        if pass then
          opDone 32 { s with nvm := { s.nvm with
            units := aput k d s.nvm.units
            bad := mark k bad s.nvm.bad
            weak := mark k (j.retiring.isSome && j.weakCopy.contains u) s.nvm.weak
            undefUnit := mark k false s.nvm.undefUnit } }
        else if s.nvm.opt.npmax.toNat ≤ n then pump (verifyFail sector 2 n s)
        else { s with nvm := { s.nvm with run := some { r with pulses := n } } }
    | _ => s
  | _, _ => s

/-! ## Suspension (R791-R794) -/

/-- Bank of the running operation. -/
def runBank (s : State) : Nat :=
  match s.nvm.jobs with
  | j :: _ =>
    match j.ops with
    | .erase a sec :: _ => (opPlace s.nvm.opt a sec).bank.toNat
    | .program a _ _ _ _ sec :: _ => (opPlace s.nvm.opt a sec).bank.toNat
    | _ => 0
  | [] => 0

/-- Logical sector of a sequencer address in the NVM window (R768). -/
def windowSector (a : U32) : Option Nat :=
  if 0x20000000 ≤ a.toNat && decide (a.toNat < 0x22000000) then some ((a.toNat - 0x20000000) / 16384) else none

/-- The sequencer address lies in that bank. -/
def inBank (s : State) (bank : Nat) (a : U32) : Bool :=
  match windowSector a with
  | some sec => (placeOf s.nvm.opt sec).bank.toNat = bank
  | none => false

/-- A command in execution reads that bank: an NVM_READ of a range that meets it (R783). -/
def cmdReads (s : State) (bank : Nat) (c : CmdSlot) : Bool :=
  let waits := match c.stage with
    | .fetched => true
    | .running _ => true
    | _ => false
  let o := (cmdP c.entry 0).toNat
  let n := (cmdP c.entry 3).toNat
  waits && cmdOp c.entry = 0x72 && (List.range ((o + n + 16383) / 16384 - o / 16384)).any (fun i =>
    (placeOf s.nvm.opt (o / 16384 + i)).bank.toNat = bank)

/-- A read of that bank waits: of a thread, of a command or of the debugger (R784, R792). -/
def nvmWaiting (s : State) (bank : Nat) : Bool :=
  s.seq.thr.toList.any (fun t =>
    (match t.run with
    | .parked (.load _ a _ _ _) => inBank s bank a
    | _ => false)
    || (match t.owing with
    | some (.load _ a _ _ _) => inBank s bank a
    | _ => false))
  || (s.hg.slot.toList ++ [s.hg.linkSlot]).any (fun c => match c with
    | some c => cmdReads s bank c
    | none => false)
  || (s.dbg.access.isSome && s.dbg.space = 0 && inBank s bank s.dbg.dbal)

/-- A read of that bank must wait for the running operation (R792). -/
def bankBusy (s : State) (bank : Nat) : Bool :=
  match s.nvm.run with
  | some r => !r.susp && runBank s = bank
  | none => false

/-! ## The macro port (R769, R770) -/

/-- The outputs of the nvm_* port. -/
structure NvmPort where
  req : Bool := false
  op : BitVec 3 := 0
  bank : BitVec 2 := 0
  addr : BitVec 19 := 0
  wdata : BitVec 288 := 0
deriving DecidableEq, Repr

/-- The 36 stored bytes of a unit, byte k in bits [8k+7:8k] (R767). -/
def storedUnit (d : BitVec 256) : BitVec 288 := Config.checkNano d ++ d

/-- What the port drives while a pulse lasts (R770); reads and verifies are over within the command that makes them. -/
def nvmPort (s : State) : NvmPort :=
  match s.nvm.run, s.nvm.jobs with
  | some r, j :: _ =>
    if r.susp || !s.ports.porN then {}
    else match j.ops with
    | .erase a sec :: _ =>
      let p := opPlace s.nvm.opt a sec
      { req := true, op := 3, bank := p.bank, addr := p.phys ++ (0 : BitVec 9) }
    | .program a u d _ _ sec :: _ =>
      let p := opPlace s.nvm.opt a sec
      { req := true, op := 2, bank := p.bank, addr := p.phys ++ u, wdata := storedUnit d }
    | _ => {}
  | _, _ => {}

/-- MINRUN has passed since the operation began or last resumed (R792); 2,000 fc are 1 µs. -/
def minRun (s : State) (r : NvmRun) : Bool := decide (s.nvm.minrun.toNat * 2000 ≤ s.clk.fc - r.since)

def nvmSuspend (s : State) : State :=
  match s.nvm.run with
  | some r =>
    if !r.susp && (s.nvm.suspReq || nvmWaiting s (runBank s)) && minRun s r then
      { s with nvm := { s.nvm with run := some { r with susp := true } } }
    else s
  | none => s

def nvmResume (s : State) : State :=
  match s.nvm.run with
  | some r =>
    if r.susp && !s.nvm.suspReq && !nvmWaiting s (runBank s) then
      { s with nvm := { s.nvm with run := some { r with susp := false, since := s.clk.fc } } }
    else s
  | none => s

/-! ## Protected ranges and what commands ask (R779, R781-R783) -/

/-- Two ranges of sectors, first and length, meet. -/
def meets (a la b lb : Nat) : Bool := decide (a < b + lb) && decide (b < a + la) && la != 0 && lb != 0

/-- A sector range that NVM_ERASE and NVM_PROGRAM must leave alone (R779). -/
def protectedRange (s : State) (a n : Nat) : Bool :=
  let o := s.nvm.opt
  (!s.nvm.prov && (meets a n 0 3 || meets a n o.fwFirst.toNat o.fwLen.toNat))
    || (o.actv && (if o.active then meets a n o.slotbFirst.toNat o.slotbLen.toNat
                   else meets a n o.slotaFirst.toNat o.slotaLen.toNat))
    || (s.lg.en && meets a n s.lg.first.toNat (10 * ((if s.lg.narea = 0 then 1 else s.lg.narea.toNat) + 1)))

/-- The refusal of R779. -/
def refuseProtected (s : State) : State := raise 391 (hwSet 0x25008 0x8000 { s with nvm := { s.nvm with pref := true } })

/-- Reads `n` units from logical unit `u` on: bytes, units corrected, units uncorrectable, the first sector of one. -/
def readUnits : Nat → Nat → State → (List Byte × Nat × Nat × Option Nat) × State
  | 0, _, s => (([], 0, 0, none), s)
  | k + 1, u, s =>
    let (r, s) := readLogical (u / 512) (u % 512) s
    let ((t, c, x, f), s) := readUnits k (u + 1) s
    ((bytesLE r.data 32 ++ t, c + b1 r.cor, x + b1 r.unc, if r.unc then some (u / 512) else f), s)

/-! ## Warm reset and registers (R798-R803) -/

/-- Warm reset ends the running operation and every job (R798). -/
def nvmWarm (s : State) : State :=
  { s with nvm := { s.nvm with
      jobs := [], run := none, wear := false, retire := false, exh := false, uncor := false, optrep := false
      pref := false, corr := 0, unc := 0, failSector := 0, failCause := 0, failPulses := 0 } }

def nvmStat (s : State) : U32 :=
  let n := s.nvm
  let susp := match n.run with | some r => r.susp | none => false
  let exhb := bitsFrom 4 (fun b => decide (b < n.opt.nbank.toNat) && sparesLeft n.opt b = 0)
  pk [(0, b1 n.run.isSome), (1, b1 susp), (2, if n.run.isSome then runBank s else 0), (4, b1 n.prov),
    (5, n.optok.toNat), (8, b1 n.wear), (9, b1 n.retire), (10, b1 n.exh), (11, b1 n.uncor), (12, b1 n.optrep),
    (13, b1 n.optweak), (14, b1 (n.run.isSome && !susp && nvmWaiting s (runBank s))), (15, b1 n.pref),
    (16, exhb.toNat)]

/-- An NVM register at offset `r` from 0x2_5000, as an inspect read returns it. -/
def nvmReg (s : State) (r : Nat) : U32 :=
  let n := s.nvm
  let o := n.opt
  match r with
  | 0x00 => pk [(0, n.minrun.toNat), (16, n.wearthr.toNat)]
  | 0x04 => pk [(0, b1 n.suspReq)]
  | 0x08 => nvmStat s
  | 0x0C => pk [(0, o.nbank.toNat), (3, o.sect.toNat), (13, sprOf o % 32)]
  | 0x10 => pk [(0, o.slotaFirst.toNat), (16, o.slotaLen.toNat), (30, b1 (o.actv && !o.active)), (31, b1 (!o.active))]
  | 0x14 => pk [(0, o.slotbFirst.toNat), (16, o.slotbLen.toNat), (30, b1 (o.actv && o.active)), (31, b1 o.active)]
  | 0x18 => rcShown s 0x25018 (nvmCnt s)
  | 0x1C => pk [(0, n.failSector.toNat), (12, n.failCause.toNat), (16, n.failPulses.toNat)]
  | 0x20 => pk ((List.range 4).map (fun b => (8 * b, if b < o.nbank.toNat then sparesLeft o b % 32 else 0)))
  | _ => 0

/-- What a read of NVMCNT does beside (R803). -/
def nvmReadEffect (r : Nat) (s : State) : State :=
  if r = 0x18 then
    let left := rcLeft s 0x25018
    rcTaken 0x25018 { s with nvm := { s.nvm with corr := fd left 0 16, unc := fd left 16 16 } }
  else s

def nvmWrite (r : Nat) (v : U32) (s : State) : State :=
  let n := s.nvm
  match r with
  | 0x00 => { s with nvm := { n with minrun := fd v 0 16, wearthr := fd v 16 8 } }
  | 0x04 => { s with nvm := { n with suspReq := bit v 0 } }
  | 0x08 => { s with nvm := { n with
      wear := n.wear && !bit v 8, retire := n.retire && !bit v 9, exh := n.exh && !bit v 10
      uncor := n.uncor && !bit v 11, optrep := n.optrep && !bit v 12, pref := n.pref && !bit v 15 } }
  | _ => s

/-! ## Commands -/

def execErasePulseEnd (pass : Bool) (s : State) : Host.Outcome State Fault Refusal := .next (inCore s (erasePulse pass s))

def execProgramPulseEnd (pass : Bool) (s : State) : Host.Outcome State Fault Refusal := .next (inCore s (programPulse pass s))

def execNvmSuspend (s : State) : Host.Outcome State Fault Refusal := .next (inCore s (nvmSuspend s))

def execNvmResume (s : State) : Host.Outcome State Fault Refusal := .next (inCore s (nvmResume s))

end Sys2Proof.Machine
end

