-- ==== Sys2Proof/Machine/Ledger.lean ====
section
/-! DEFINITION. The life ledger: temperatures, ageing, binding, persistence in NVM, the load, and its registers (16). -/

namespace Sys2Proof.Machine

/-! ## Temperatures (R734, R735) -/

/-- A write of LGCH[c].TJ (R735). -/
def writeTj (c : Nat) (v : U32) (s : State) : State :=
  let ch := s.lgch c
  if !ch.en || !ch.bound then lgFlag c 3 (s.modLg c (fun ch => { ch with tj := none }))
  else
    let s := if ch.tj.isSome then lgFlag c 3 s else s
    s.modLg c (fun ch => { ch with tj := some (fd v 0 16) })

/-! ## Binding (R748-R750) -/

def records : List Nat := List.range 64

/-- Leaves the record that channel c is bound to: its residue closes as half cycles and it is parked (R748 step 2). -/
def leaveRecord (c : Nat) (s : State) : State :=
  let ch := s.lgch c
  let r := ch.record.toNat
  let res := recRes s r
  let s := (res.zip res.tail).foldl (fun s p => closeCycle c r p.1 p.2 1 s) s
  let s := lgPut (recAt r + 21) 1 0 s
  let s := putPos r (fd (recPos s r) 0 4) 2 0 s
  s.modLg c (fun ch => { ch with bound := false, last := none, dmgh := none })

def bindRecord (c r : Nat) (s : State) : State :=
  let s := putPos r (BitVec.ofNat 4 c) 1 (fd (recPos s r) 6 2) s
  s.modLg c (fun ch => { ch with bound := true, record := BitVec.ofNat 6 r, last := none, dmgh := none })

/-- The slot for a new record, and whether a parked one is evicted for it (R749). -/
def newSlot (s : State) : Option (Nat × Bool) :=
  let of (st : BitVec 2) : List Nat := records.filter (fun r => recState s r = st)
  match of 0 with
  | r :: _ => some (r, false)
  | [] =>
    match leastBy (recSaved s) (of 3) with
    | some r => some (r, false)
    | none => (leastBy (recSaved s) (of 2)).map (fun r => (r, true))

/-- Opens a record for channel c in slot r (R749). -/
def openRecord (c r : Nat) (id : U64) (s : State) : State :=
  let s := { s with mem := { s.mem with ledger := memWrite s.mem.ledger (recAt r) (List.replicate 2304 0) } }
  let s := lgPut (recAt r) 8 id.toNat (lgPut (recAt r + 24) 8 s.clk.gauge.toNat s)
  bindRecord c r (putFlags r (if (s.lgch c).mode then 0x10 else 0) s)

/-- LEDGER_BIND (R748-R750): its status and RESULT. -/
def ledgerBind (c : Nat) (fresh : Bool) (id : U64) (s : State) : (Byte × U64) × State :=
  if !s.lg.loaded then ((3, 0), s)
  else
    let s := processTemp c s
    let ch := s.lgch c
    if ch.bound && recId s ch.record.toNat = id && !fresh then ((0, ch.record.zeroExtend 64), s)
    else
      let s := if ch.bound then leaveRecord c s else s
      if id = 0 then ((0, 0xFF), s)
      else if records.any (fun r => recState s r = 1 && recId s r = id) then ((3, 0), s)
      else
        let parked := records.filter (fun r => recState s r = 2 && recId s r = id)
        match fresh, parked with
        | false, r :: _ =>
          if bit (recFlags s r) 4 != (s.lgch c).mode then ((3, 0), s)
          else ((0, BitVec.ofNat 64 r), bindRecord c r s)
        | _, _ =>
          let s := if fresh then
              parked.foldl (fun s r => putPos r (fd (recPos s r) 0 4) 3 (fd (recPos s r) 6 2) s) s else s
          match newSlot s with
          | none => ((3, 0), s)
          | some (r, evict) =>
            let s := if evict then lgFlag c 4 s else s
            ((0, BitVec.ofNat 64 r), openRecord c r id s)

/-! ## Persistence (R752-R755) -/

/-- PINT seconds have passed since the last persistence (R752); the Gauge counts 128 * 10^9 sub-ticks a second. -/
def pintDue (s : State) : Bool :=
  s.lg.pint != 0 && decide (s.lg.pint.toNat * 128000000000 ≤ (s.clk.gauge - s.lg.lastAt).toNat)

/-- The sector is erased. -/
def sectorErased (s : State) (sector : Nat) : Bool :=
  let p := placeOf s.nvm.opt sector
  !marked p.sec s.nvm.undefSec && !s.nvm.units.any (fun e => e.1 / 512 = p.sec)
    && !s.nvm.undefUnit.any (fun k => k / 512 = p.sec)

/-- Drops the background erase of the ledger, but for a step that runs (R753). -/
def dropLedgerErase (s : State) : State :=
  let running := s.nvm.run.isSome
  { s with nvm := { s.nvm with jobs :=
      match s.nvm.jobs with
      | [] => []
      | j :: t =>
        let t := t.filter (fun (x : NvmJob) => x.who != .ledgerErase)
        if j.who = .ledgerErase then (if running then { j with ops := j.ops.take 1 } :: t else t) else j :: t } }

/-- PERSISTENCE_START (R752, R753). -/
def persistStart (s : State) : State :=
  let s := if pintDue s then lgTrigger true { s with lg := { s.lg with lastAt := s.clk.gauge } } else s
  if !s.lg.en || !s.lg.loaded || lgFrozen s || s.lg.persist != .idle || !(s.lg.due || s.lg.ppend) then s
  else
    let a := (s.lg.area.toNat + 1 + s.lg.skip) % lgAreas s
    let s := dropLedgerErase { s with lg := { s.lg with
      due := false, ppend := false, lastAt := s.clk.gauge, persist := .writing a 0 } }
    let sectors := ((List.range 10).map (fun i => areaSector s a + i)).filter (fun x => !sectorErased s x)
    pump (addJob { who := .persist, ops := sectors.map (fun x => NvmOp.erase none x) } s)

/-- PERSISTENCE_COMMIT: the last record is programmed, and the commit unit follows (R753). -/
def persistCommit (s : State) : State :=
  match s.lg.persist with
  | .writing a r =>
    if r = 64 && !s.nvm.jobs.any (fun j => j.who = .persist) then
      let s := { s with lg := { s.lg with persist := .committing a } }
      pump (addJob { who := .persist, ops := [.program none 0 (commitUnit s) false false (areaSector s a + 9)] } s)
    else s
  | _ => s

/-! ## The load (R756) -/

/-- The commit unit of an area: its SEQ when it is valid. -/
def readCommit (a : Nat) (s : State) : Option U32 × State :=
  let (r, s) := readUnit (placeOf s.nvm.opt (areaSector s a + 9)) 0 s
  let s := countUnit r s
  let l := bytesLE r.data 32
  (if ofLE 32 (l.take 4) = 0x4C454447#32 && !r.unc && ofLE 32 (l.drop 28) = crc32c (l.take 28) then
    some (ofLE 32 ((l.drop 4).take 4)) else none, s)

/-- The valid areas with their SEQ. -/
def readCommits : Nat → Nat → State → List (Nat × U32) × State
  | 0, _, s => ([], s)
  | k + 1, a, s =>
    let (r, s) := readCommit a s
    let (t, s) := readCommits k (a + 1) s
    (match r with | some q => (a, q) :: t | none => t, s)

/-- The valid areas, the highest SEQ first. -/
def bySeq (l : List (Nat × U32)) : List (Nat × U32) :=
  let rec ins (x : Nat × U32) : List (Nat × U32) → List (Nat × U32)
    | [] => [x]
    | y :: t => if y.2 < x.2 then x :: y :: t else y :: ins x t
  l.foldl (fun a x => ins x a) []

/-- The copy of record r in the first of the areas in which it passes its CRC. -/
def loadRecord (r : Nat) : List (Nat × U32) → State → Option (List Byte) × State
  | [], s => (none, s)
  | (a, _) :: t, s =>
    let ((l, _, bad, _), s) := readUnits 72 (areaSector s a * 512 + 72 * r) s
    if bad = 0 && ofLE 32 (l.drop 2300) = crc32c (l.take 2300) then (some l, s) else loadRecord r t s

/-- Sets EN from 0 to 1 (R756). -/
def ledgerLoad (s : State) : State :=
  let (areas, s) := readCommits (lgAreas s) 0 s
  let areas := bySeq areas
  let s := s.each 64 (fun s r =>
    match loadRecord r areas s with
    | (some l, s) =>
      let s := { s with mem := { s.mem with ledger := memWrite s.mem.ledger (recAt r) l } }
      if recState s r = 1 then putPos r (fd (recPos s r) 0 4) 2 (fd (recPos s r) 6 2) s else s
    | (none, s) =>
      hwSet 0x24014 0x10 { s with
        mem := { s.mem with ledger := memWrite s.mem.ledger (recAt r) (List.replicate 2304 0) }
        lg := { s.lg with loaderr := true } })
  { s with lg := { s.lg with
      ch := vmap s.lg.ch (fun _ c => { c with bound := false, last := none, tj := none, dmgh := none })
      area := match areas with | x :: _ => BitVec.ofNat 4 x.1 | [] => s.lg.area
      seq := match areas with | x :: _ => x.2 | [] => s.lg.seq
      loaded := true, lastAt := s.clk.gauge, skip := 0 } }

/-- A write of LGCFG (R756, R759). -/
def writeLgcfg (v : U32) (s : State) : State :=
  let was := s.lg.en
  let s := { s with lg := { s.lg with en := bit v 0, shutp := bit v 1, slpp := bit v 2 } }
  if bit v 0 && !was then ledgerLoad s else s

/-! ## Ledger memory through LGMADDR (R763) -/

def nextMaddr (s : State) : State :=
  if s.lg.mainc then { s with lg := { s.lg with maddr := s.lg.maddr + 4 } } else s

def lgmAt (s : State) : Nat := s.lg.maddr.toNat / 4 * 4

def lgmRead (s : State) : U32 := if lgmAt s < 0x25000 then BitVec.ofNat 32 (lgGet s (lgmAt s) 4) else 0

/-- A word of ledger memory is written, whoever asks (R763, R895). -/
def lgmPut (a : Nat) (v : U32) (s : State) : State :=
  if 0x25000 ≤ a then s
  else if a < 0x24000 && s.lg.en then hwSet 0x24014 0x20 { s with lg := { s.lg with wign := true } }
  else lgPut a 4 v.toNat s

def lgmWrite (v : U32) (s : State) : State := nextMaddr (lgmPut (lgmAt s) v s)

/-! ## Registers (R759-R764) -/

def lgchStat (s : State) (c : Nat) : U32 :=
  let ch := s.lgch c
  let r := ch.record.toNat
  pk [(0, ch.stat.toNat), (8, if ch.bound then (fd (recFlags s r) 0 4).toNat else 0),
    (12, if ch.bound then recNres s r % 128 else 0)]

/-- A ledger register at offset `r` from 0x2_4000, as an inspect read returns it. -/
def lgRead (s : State) (r : Nat) : U32 :=
  let g := s.lg
  if 0x100 ≤ r then
    let c := (r - 0x100) / 0x20
    let ch := s.lgch c
    match r % 0x20 with
    | 0x00 => pk [(0, b1 ch.en), (1, b1 ch.mode), (8, ch.record.toNat), (14, b1 ch.bound)]
    | 0x08 => pk [(0, ch.dtw.toNat), (16, ch.hyst.toNat)]
    | 0x0C => pk [(0, ch.tm0.toNat), (16, ch.tmw.toNat)]
    | 0x10 => lgchStat s c
    | 0x14 => ch.ien.zeroExtend 32
    | 0x18 => if ch.bound then BitVec.ofNat 32 (lgGet s (recAt ch.record.toNat + 8) 4) else 0
    | 0x1C => match ch.dmgh with
      | some v => v
      | none => if ch.bound then BitVec.ofNat 32 (lgGet s (recAt ch.record.toNat + 12) 4) else 0
    | _ => 0
  else match r with
    | 0x00 => pk [(0, b1 g.en), (1, b1 g.shutp), (2, b1 g.slpp)]
    | 0x04 => g.pint.zeroExtend 32
    | 0x08 => pk [(0, g.first.toNat), (12, g.narea.toNat)]
    | 0x0C => pk [(0, (thrLg s 0).toNat), (16, (thrLg s 1).toNat)]
    | 0x10 => pk [(0, (thrLg s 2).toNat), (16, (thrLg s 3).toNat)]
    | 0x14 => pk [(0, b1 g.loaded), (1, b1 (g.persist != .idle)), (2, b1 (g.ppend || (lgFrozen s && g.due))),
        (3, b1 g.perr), (4, b1 g.loaderr), (5, b1 g.wign), (8, g.area.toNat)]
    | 0x18 => g.seq
    | 0x1C => pk [(0, g.maddr.toNat), (31, b1 g.mainc)]
    | 0x20 => lgmRead s
    | _ => 0

/-- What a read of a ledger register does beside (R763, R764). -/
def lgReadEffect (r : Nat) (s : State) : State :=
  if r = 0x20 then nextMaddr s
  else if 0x100 ≤ r && r % 0x20 = 0x18 then
    let c := (r - 0x100) / 0x20
    let ch := s.lgch c
    let hi : U32 := if ch.bound then BitVec.ofNat 32 (lgGet s (recAt ch.record.toNat + 12) 4) else 0
    s.modLg c (fun ch => { ch with dmgh := some hi })
  else if 0x100 ≤ r && r % 0x20 = 0x1C then s.modLg ((r - 0x100) / 0x20) (fun ch => { ch with dmgh := none })
  else s

def lgWrite (r : Nat) (v : U32) (s : State) : State :=
  let g := s.lg
  if 0x100 ≤ r then
    let c := (r - 0x100) / 0x20
    match r % 0x20 with
    | 0x00 => s.modLg c (fun ch => { ch with en := bit v 0, mode := if ch.en then ch.mode else bit v 1 })
    | 0x04 => writeTj c v s
    | 0x08 => s.modLg c (fun ch => { ch with dtw := fd v 0 16, hyst := fd v 16 16 })
    | 0x0C => s.modLg c (fun ch => { ch with tm0 := fd v 0 16, tmw := fd v 16 16 })
    | 0x10 => s.modLg c (fun ch => { ch with stat := w1c ch.stat (fd v 0 5) })
    | 0x14 => s.modLg c (fun ch => { ch with ien := fd v 0 5 })
    | _ => s
  else match r with
    | 0x00 => writeLgcfg v s
    | 0x04 => { s with lg := { g with pint := fd v 0 16 } }
    | 0x08 => if g.en then s else { s with lg := { g with first := fd v 0 11, narea := fd v 12 4 } }
    | 0x0C => { s with lg := { g with thr := vset (vset g.thr 0 (fd v 0 16)) 1 (fd v 16 16) } }
    | 0x10 => { s with lg := { g with thr := vset (vset g.thr 2 (fd v 0 16)) 3 (fd v 16 16) } }
    | 0x14 => { s with lg := { g with
        perr := g.perr && !bit v 3, loaderr := g.loaderr && !bit v 4, wign := g.wign && !bit v 5 } }
    | 0x1C => { s with lg := { g with maddr := fd v 0 18, mainc := bit v 31 } }
    | 0x20 => lgmWrite v s
    | _ => s

/-- Warm reset (R758). -/
def lgWarm (s : State) : State :=
  { s with lg := { s.lg with
      persist := .idle, due := false, ppend := false, perr := false, loaderr := false, wign := false
      lastAt := s.clk.gauge
      ch := vmap s.lg.ch (fun _ c => { c with tj := none, stat := 0 }) } }

/-! ## Commands -/

/-- TEMPERATURE_PROCESS: a written temperature is processed (R735, R868). -/
def execTemperatureProcess (c : Fin 16) (s : State) : Host.Outcome State Fault Refusal :=
  .next (inCore s (if lgFrozen s then s else processTemp c s))

/-- AGEING_TICK (R744, R868). -/
def execAgeingTick (s : State) : Host.Outcome State Fault Refusal :=
  .next (inCore s (if s.lg.ticks = 0 then s
    else
      let s := { s with lg := { s.lg with ticks := s.lg.ticks - 1 } }
      s.each 16 ageChannel))

def execPersistenceStart (s : State) : Host.Outcome State Fault Refusal := .next (inCore s (persistStart s))

def execPersistenceCommit (s : State) : Host.Outcome State Fault Refusal := .next (inCore s (persistCommit s))

end Sys2Proof.Machine
end

