-- ==== Sys2Proof/Machine/LinkTree.lean ====
section
/-! DEFINITION. The tree of the link: election, distances and port roles, failover, enumeration, and what a port does
when it leaves UP (R672, R692-R701, R723-R725). The layouts of the frames' contents are the model's (log entry 7). -/

namespace Sys2Proof.Machine

/-! ## Port events (R672) -/

/-- NPORT[p].STAT (R682). -/
def portStat (s : State) (p : Nat) : U32 :=
  let q := s.port p
  pk [(0, q.st.toNat), (3, widthCode s p), (5, b1 q.pam4), (6, b1 q.nearact), (8, q.aseq.toNat)]

/-- Event e of port p occurs (R672). -/
def portEvent (p e : Nat) (s : State) : State :=
  raise (344 + 8 * p + e) (hwSet (0x23220 + 0x200 * p) (1#32 <<< e) (s.modPort p (fun q => { q with evt := setBit q.evt e true })))

/-! ## Counters that a read clears (R13, R681, R682, R732) -/

/-- CWUNC of port p counts. -/
def countUnc (p : Nat) (s : State) : State :=
  rcSet (0x23210 + 0x200 * p) (s.port p).cwunc satInc (s.modPort p (fun q => { q with cwunc := satInc q.cwunc }))

/-- CWCOR of port p counts. -/
def countCor (p : Nat) (s : State) : State :=
  rcSet (0x2320C + 0x200 * p) (s.port p).cwcor satInc (s.modPort p (fun q => { q with cwcor := satInc q.cwcor }))

/-- OSERR of port p counts. -/
def countOserr (p : Nat) (s : State) : State :=
  rcSet (0x23214 + 0x200 * p) (s.port p).oserr satInc (s.modPort p (fun q => { q with oserr := satInc q.oserr }))

/-- FRDROP of port p counts. -/
def countDrop (p : Nat) (s : State) : State :=
  rcSet (0x23318 + 0x200 * p) (s.port p).frdrop satInc (s.modPort p (fun q => { q with frdrop := satInc q.frdrop }))

/-- CERR of lane l counts. -/
def countCerr (l : Nat) (s : State) : State :=
  rcSet (0x2310C + 0x20 * l) (s.lane l).cerr satInc (s.modLane l (fun x => { x with cerr := satInc x.cerr }))

def portLive (s : State) (p : Nat) : Bool := portUp s p || portTrickle s p

/-! ## Roles and distances (R693, R695, R725) -/

/-- Candidates rank by higher ROLE, then by lower KEY (R692). -/
def outranks (r1 : BitVec 2) (k1 : U32) (r2 : BitVec 2) (k2 : U32) : Bool :=
  decide (r2 < r1) || (r1 = r2 && decide (k1 < k2))

/-- A ROLE that stands for election (R692). -/
def candidate (r : BitVec 2) : Bool := r = 1 || r = 2

/-- The best-ranked candidate that this block knows: its own or a neighbour's (R693). -/
def bestKnown (s : State) : BitVec 2 × U32 :=
  let own : BitVec 2 × U32 := if candidate s.link.eRole then (s.link.eRole, s.link.eKey) else (0, 0)
  (List.range 4).foldl (fun a p =>
    let q := s.port p
    if portLive s p && candidate q.nrole && outranks q.nrole q.nkey a.1 a.2 then (q.nrole, q.nkey) else a) own

/-- The block's own candidacy is the best it knows. -/
def ownBest (s : State) : Bool :=
  candidate s.link.eRole && s.link.bestRole = s.link.eRole && s.link.bestKey = s.link.eKey

/-- Ports whose neighbour advertises a distance to the best candidate, with that distance. A neighbour that has its up port
here is below the block, so its distance is none that the block could take (R695; log entry 41). -/
def distPorts (s : State) : List (Nat × Nat) :=
  (List.range 4).filterMap (fun p =>
    let q := s.port p
    if portLive s p && !q.nbrup && q.ndist != 0x1F && q.nrole = s.link.bestRole && q.nkey = s.link.bestKey && candidate q.nrole then
      some (p, q.ndist.toNat) else none)

/-- PROLE of every port (R695). -/
def setRoles (s : State) : State :=
  s.each 4 (fun s p =>
    let role : BitVec 2 :=
      if !portLive s p then 0
      else if s.link.upport.map (fun u => u.toNat) = some p then 1
      else if (s.port p).nbrup then 2 else 3
    s.modPort p (fun q => { q with prole := role, count := if role = 2 then q.count else none }))

/-- PRESENT of the package group (R725). -/
def setPresent (s : State) : State :=
  let now : Byte :=
    if s.link.grpen && s.link.gidx = 0 then
      bitsFrom 8 (fun m => m != 0 && (List.range 4).any (fun p =>
        let q := s.port p
        portUp s p && q.nearact && q.ngidx = some (BitVec.ofNat 3 m)))
    else 0
  raiseIf (now != s.link.present) 376 { s with link := { s.link with present := now } }

/-- Takes the best candidate, the distance, the up port and the roles anew (R693, R695). -/
def electUpdate (s : State) : State :=
  let b := bestKnown s
  let changed := b.1 != s.link.bestRole || b.2 != s.link.bestKey
  let s := { s with link := { s.link with
    bestRole := b.1, bestKey := b.2, changedAt := if changed then s.clk.gauge else s.link.changedAt } }
  let own := ownBest s
  let near := leastBy (fun (e : Nat × Nat) => e.2) (distPorts s)
  let dist : BitVec 5 :=
    if own then 0 else match near with | some (_, d) => BitVec.ofNat 5 (min 31 (d + 1)) | none => 0x1F
  let up : Option (BitVec 2) := if own then none else near.map (fun e => BitVec.ofNat 2 e.1)
  let lost : Option U64 := if dist = 0x1F then some (s.link.lostAt.getD s.clk.gauge) else none
  let same := own || s.link.upport = up
  setPresent (setRoles { s with link := { s.link with
    dist := dist, upport := up, lostAt := lost, master := s.link.master && own
    disc := s.link.disc && same, lockRun := if same then s.link.lockRun else 0, upDisc := s.link.upDisc && same } })

/-! ## Failover (R700) -/

def nodeBytes (n : BitVec 14) : List Byte := bytesLE (n.zeroExtend 16) 2

/-- Content of a REROUTE: moved range, old parent, direction (R687). -/
def rerouteContent (lo hi old : BitVec 14) (down : Bool) : List Byte :=
  nodeBytes lo ++ nodeBytes hi ++ nodeBytes old ++ [if down then 1 else 0]

/-- The up port has left UP (R700). -/
def failover (s : State) : State :=
  let old := s.link.dist.toNat
  let ok := (List.range 4).filterMap (fun p =>
    let q := s.port p
    if portLive s p && q.prole = 3 && q.ndist != 0x1F && decide (q.ndist.toNat ≤ old) && decide (q.ndist.toNat + 1 ≤ 12)
    then some (p, q.ndist.toNat) else none)
  let s := { s with link := { s.link with disc := false, lockRun := 0, upDisc := false } }
  match leastBy (fun (e : Nat × Nat) => e.2) ok with
  | some (p, d) =>
    let s := setRoles { s with link := { s.link with
      upport := some (BitVec.ofNat 2 p), dist := BitVec.ofNat 5 (d + 1), depth := BitVec.ofNat 4 (d + 1)
      failover := true, lostAt := none } }
    let s := netFlag true 7 s
    let (m, s) := nextMsg s
    originate { ftype := 6, vl := 0, dst := 0, msgid := m, sub := 3
                content := rerouteContent s.link.node s.link.subhi s.link.parent false } none s
  | none =>
    setRoles { s with link := { s.link with upport := none, dist := 0x1F, lostAt := some s.clk.gauge } }

/-! ## Leaving UP or TRICKLE -/

/-- The LINK_SENDs whose blocks a port drops end with LINK_FAIL (R555). -/
def failSends (bs : List TxBlock) (s : State) : State :=
  bs.foldl (fun s b => match b.cmd with | some q => setStage q (.done 0x12 0 0) s | none => s) s

/-- Port p leaves UP or TRICKLE for state `st`; `write`: by a write (R670, R672, R700). -/
def portLeave (p : Nat) (st : BitVec 3) (write : Bool) (s : State) : State :=
  if !portLive s p then s.modPort p (fun q => { q with st := st, pam4 := false, nearact := false })
  else
    let s := failSends ((s.port p).txq.toList.flatMap id) s
    let s := s.modPort p (fun q =>
      { q with st := st, pam4 := false, nearact := false, txq := Vector.replicate 4 [], asm := Vector.replicate 4 none
               ndist := 0x1F, nbrup := false, ngidx := none, nrole := 0, nkey := 0, prole := 0, count := none
               exch := none, reply := none, resync := false, resyncWait := false })
    let s := if write then s else portEvent p 1 s
    let s := if s.link.upport.map (fun u => u.toNat) = some p then failover s else setRoles s
    setPresent s

/-! ## Enumeration (R696, R697) -/

def downPorts (s : State) : List Nat := (List.range 4).filter (fun p => (s.port p).prole = 2)

/-- Nodes, height, and nodes within depth 12 of the own subtree, once every down port has reported (R696). -/
def subtree (s : State) : Option (Nat × Nat × Nat) :=
  let ds := downPorts s
  if ds.all (fun p => (s.port p).count.isSome) then
    some (ds.foldl (fun (a : Nat × Nat × Nat) p =>
      let c := (s.port p).count.getD (0, 0, 0)
      (a.1 + c.1, max a.2.1 (c.2.1 + 1), a.2.2 + c.2.2)) (1, 0, if s.link.dist.toNat ≤ 12 then 1 else 0))
  else none

def assignContent (node hi parent : BitVec 14) (depth : Nat) : List Byte :=
  nodeBytes node ++ nodeBytes hi ++ nodeBytes parent ++ [BitVec.ofNat 8 depth]

/-- Gives each down port its range and its ASSIGN (R696, R697). -/
def assignDown (s : State) : State :=
  let step (a : State × Nat) (p : Nat) : State × Nat :=
    let (s, id) := a
    let size := ((s.port p).count.getD (0, 0, 0)).1
    let hi := id + size - 1
    if size = 0 then (s, id)
    else if id ≤ 16383 && s.link.depth.toNat + 1 ≤ 12 then
      let lo14 := BitVec.ofNat 14 id
      let hi14 := BitVec.ofNat 14 (min hi 16383)
      let s := s.modPort p (fun q => { q with rlo := lo14, rhi := hi14 })
      (sendMgmt p 2 (assignContent lo14 hi14 s.link.node (s.link.depth.toNat + 1)) s, hi + 1)
    else (s.modPort p (fun q => { q with rlo := 0x3FFF, rhi := 0 }), hi + 1)
  ((downPorts s).foldl step (s, s.link.node.toNat + 1)).1

/-- The water master ends phase 1 and begins phase 2, and LINK_ENUM completes (R696, R697). -/
def finishEnum (s : State) : State :=
  match subtree s with
  | none => s
  | some (n, h, within) =>
    let deep := decide (12 < h) || decide (16384 < n)
    let s := { s with link := { s.link with
      enumRun := false, enumNodes := BitVec.ofNat 15 (min within 16384), enumDepth := BitVec.ofNat 4 (min h 12)
      node := 0, valid := true, depth := 0, subhi := BitVec.ofNat 14 (min (n - 1) 16383)
      deep := s.link.deep || deep, exc := Vector.replicate 8 {} } }
    let s := assignDown (netFlag deep 3 s)
    let result : U64 := s.link.enumNodes.zeroExtend 64 ||| (s.link.enumDepth.zeroExtend 64 <<< 16)
    (slots s).foldl (fun s c =>
      match c with
      | some c =>
        if cmdOp c.entry = 0x50 && (match c.stage with | .running _ => true | _ => false) then
          setStage c.seq (.done (if deep then 0x12 else 0) 0 result) s
        else s
      | none => s) s

/-- A COUNT goes up when all down ports have reported and it says something new; at the water master the enumeration
that runs goes on (R696). -/
def reportCount (s : State) : State :=
  if s.link.master then (if s.link.enumRun then finishEnum s else s)
  else
    match subtree s, s.link.upport with
    | some (n, h, w), some u =>
      if s.link.sentCount = some (n, h, w, u.toNat) then s
      else
        sendMgmt u.toNat 1 (bytesLE (BitVec.ofNat 16 n) 2 ++ [BitVec.ofNat 8 h] ++ bytesLE (BitVec.ofNat 16 w) 2)
          { s with link := { s.link with sentCount := some (n, h, w, u.toNat) } }
    | _, _ => s

end Sys2Proof.Machine
end

