-- ==== Sys2Proof/Machine/LinkPhy.lean ====
section
/-! DEFINITION. Lanes, training, ports, codewords, credits, ordered sets and shut orders (14, R685, R689-R691,
R713-R716). -/

namespace Sys2Proof.Machine

/-! ## Lanes and training (R651-R656) -/

/-- Buffer sizes of the virtual lanes in blocks (R689). -/
def vlBuffer (vl : Nat) : Nat := match vl with | 0 => 8 | 1 => 32 | 2 => 32 | _ => 64

/-- Lane l enters DETECT (R651, R653). The port's training begins with the MOD and NEAR of this moment unless another of its lanes
trains already (R656). -/
def laneStart (l : Nat) (s : State) : State :=
  let p := portOfLane s l
  let s := s.modLane l (fun x => { x with st := 1, farPam4 := false, farNear := false, detAt := s.clk.fc })
  if (lanesOf s.link.group p).all (fun i => decide ((s.lane i).st.toNat ≤ 1)) then
    s.modPort p (fun q => { q with tMod := q.mod, tNear := q.near })
  else s

/-- The enabled lanes of the port go to DETECT. -/
def startPort (p : Nat) (s : State) : State :=
  (lanesOf s.link.group p).foldl (fun s l => if bit s.link.laneEn l then laneStart l s else s) s

/-- The enabled lanes of the port go to electrical idle. -/
def idlePort (p : Nat) (s : State) : State :=
  (lanesOf s.link.group p).foldl (fun s l =>
    s.modLane l (fun x => if bit s.link.laneEn l then { x with st := 0, farPam4 := false, farNear := false } else x)) s

/-- The port's lanes go back to DETECT (R651, R670). -/
def toDetect (p : Nat) (write : Bool) (s : State) : State :=
  startPort p (portLeave p (if (lanesOf s.link.group p).any (fun l => bit s.link.laneEn l) then 1 else 0) write s)

/-- The mode of a port from both ends' requests (R652, R656). -/
def modeOf (s : State) (p : Nat) : Bool × Bool :=
  let q := s.port p
  let ls := lanesOf s.link.group p
  (q.tMod = 0 && ls.all (fun l => (s.lane l).farPam4), q.tNear && ls.all (fun l => (s.lane l).farNear))

/-- An align ordered set goes out: on every lane its own word, all four copies of it; it sets the scrambler (R663, R665, R669). -/
def sendAlign (p : Nat) (s : State) : State :=
  let w := portWidth s p
  let code := match w with | 4 => 2 | 2 => 1 | _ => 0
  s.modPort p (fun q =>
    let a := q.txAseq + 1
    { q with
      txAseq := a, txLfsr := 0x7FFFFF00#31 ||| a.zeroExtend 31, txUnits := 0, setLast := true
      txSet := vgen 4 (fun j => if j < w then List.replicate 4 (alignWord j code a) else []) })

/-- A port all of whose lanes have reached ALIGN is aligning, and sends its first align (R651, R669). -/
def portAlign (p : Nat) (s : State) : State :=
  let ls := lanesOf s.link.group p
  if !ls.isEmpty && ls.all (fun l => (s.lane l).st = 4) then
    let m := modeOf s p
    sendAlign p (s.modPort p (fun q => { q with st := 2, pam4 := m.1, nearact := m.2 }))
  else s

def laneDetect (l : Nat) (inverted : Bool) (s : State) : State :=
  if bit s.link.laneEn l && (s.lane l).st = 1 then
    s.modLane l (fun x => { x with st := 2, pol := inverted })
  else s

/-- Both ends have shown ready (R651): from NRZ training to PAM4 training where both ask for it, else to ALIGN. `ffe`: the taps
that the far end's requests have set, in the layout of NLANE[l].FFE; with FFEOVR they are without effect (R681). -/
def trainReady (l : Nat) (farMod : BitVec 2) (farNear : Bool) (ffe : BitVec 18) (s : State) : State :=
  let p := portOfLane s l
  let x := s.lane l
  let pam4 := farMod = 0 && (s.port p).tMod = 0
  if x.st = 2 || x.st = 3 then
    portAlign p (s.modLane l (fun y =>
      { y with
        st := if x.st = 2 && pam4 then 3 else 4, farPam4 := farMod = 0, farNear := farNear
        pre := if x.ffeovr then x.pre else fd ffe 0 6
        main := if x.ffeovr then x.main else fd ffe 6 6
        post := if x.ffeovr then x.post else fd ffe 12 6 }))
  else s

/-- The taps in force on a lane: magnitude of the pre-cursor, main tap and magnitude of the post-cursor, in 1/64 (R648, R681). -/
def laneTaps (x : Lane) : Nat × Nat × Nat := (x.pre.toNat, max 0x1F x.main.toNat + 1, min 0x19 x.post.toNat)

/-- Every lane has received the align: the port enters UP (R651, R657, R663, R689). -/
def portComesUp (p : Nat) (aseq lidx : Byte) (skew : U32) (s : State) : State :=
  if (s.port p).st = 2 then
    let s := (lanesOf s.link.group p).zipIdx.foldl (fun s e =>
      s.modLane e.1 (fun x => { x with st := 5, lidx := fd lidx (2 * e.2) 2, skew := fd skew (8 * e.2) 8 })) s
    let s := s.modPort p (fun q =>
      { q with st := 3, aseq := aseq, rxLfsr := 0x7FFFFF00#31 ||| aseq.zeroExtend 31
               cred := vgen 4 (fun v => BitVec.ofNat 8 (vlBuffer v)), owed := Vector.replicate 4 0
               sent := Vector.replicate 4 0, freed := Vector.replicate 4 0, txSeq := 0, rxSeq := 0, uncRun := 0
               rxUnits := 0, vl3hist := 0, ndist := 0x1F, nbrup := false, ngidx := none, nrole := 0 })
    setRoles (portEvent p 0 s)
  else s

/-- A write of LNKCFG (R655, R656, R680). -/
def writeLnkcfg (v : U32) (s : State) : State :=
  let busy := s.link.laneEn != 0
  let s := { s with link := { s.link with
    group := if busy then s.link.group else fd v 0 3, cfgign := s.link.cfgign || busy } }
  let s := hwSetIf busy 0x23004 0x200 s
  let was := s.link.laneEn
  let now : BitVec 4 := fd v 4 4
  let s := { s with link := { s.link with laneEn := now } }
  s.each 4 (fun s l =>
    if bit was l && !bit now l then
      let p := portOfLane s l
      let s := s.modLane l (fun x => { x with st := 0 })
      startPort p (portLeave p (if (lanesOf s.link.group p).any (fun i => bit now i) then 1 else 0) true s)
    else if !bit was l && bit now l then
      let p := portOfLane s l
      (laneStart l s).modPort p (fun q => if q.st = 0 then { q with st := 1 } else q)
    else s)

/-! ## Codewords received (R659-R663, R670, R671, R674, R676, R685) -/

def portFreed (p vl : Nat) (s : State) : State :=
  s.modPort p (fun q => { q with owed := vmod q.owed vl (· + 1), freed := vmod q.freed vl (· + 1) })

/-- A forwarded command's RESP ends it (R728). -/
def memberResp (f : Frame) (s : State) : Option State :=
  let hit (c : Option CmdSlot) : Bool :=
    match c with
    | some c => (match c.stage with | .forwarded m => m = f.msgid | _ => false)
    | none => false
  if f.ftype = 4 && f.sub = 1 && (slots s).any hit then
    let e : Row := ofLE 128 (padTo 16 f.content)
    let put (c : Option CmdSlot) : Option CmdSlot :=
      if hit c then c.map (fun c => { c with stage := .done (fd e 16 8) (fd e 48 16) (fd e 64 64) }) else c
    some { s with hg := { s.hg with slot := vmap s.hg.slot (fun _ c => put c), linkSlot := put s.hg.linkSlot } }
  else none

/-- A TRAP of subtype 1 brings the group master the event of a member (R729, log entry 40): its count and its record. -/
def memberEventIn (f : Frame) (s : State) : State :=
  let c := f.content
  let m : BitVec 3 := fd (lget c 2) 0 3
  let flags := lget c 3
  let s := raiseIf (bit flags 0) (376 + m.toNat) s
  if bit flags 1 && s.hg.eq.en then
    appendEvent (fd (ofLE 16 (c.take 2)) 0 9) m (ofLE 64 ((c.drop 4).take 6)) (ofLE 32 ((c.drop 12).take 4)) s
  else s

/-- Frames that the neighbour consumes (R686, R687). -/
def hopLocal (f : Frame) : Bool := f.ftype = 1 || (f.ftype = 6 && [0, 1, 2, 7].contains f.sub.toNat)

/-- A frame is complete at port p (R676, R686, R698). -/
def arrive (p : Nat) (f : Frame) (bad : Bool) (s : State) : State :=
  if bad then countUnc p s
  else
    let s := s.modPort p (fun q => { q with frrx := q.frrx + 1 })
    let wakeF := f.ftype = 6 && f.sub = 4
    if portTrickle s p && !(f.ftype = 1 || wakeF) then countUnc p s
    else if hopLocal f then keepFrame p f s
    else if !s.link.valid || decide (24 < f.hops.toNat + 1) then dropFrame s
    else if wakeF || (f.ftype = 6 && f.sub = 3) then keepFrame p f s
    else if !f.bc && f.dst = s.link.node then
      if f.ftype = 7 && f.sub = 1 && groupMaster s then memberEventIn f s
      else match memberResp f s with
        | some s => s
        | none => relay p f s
    else relay p f s

/-- A block of a frame (R684, R685). -/
def takeBlock (p : Nat) (ftype : BitVec 3) (vl : BitVec 2) (pos : BitVec 2) (payload : List Byte) (bad : Bool)
    (s : State) : State :=
  let old := vget (s.port p).asm vl.toNat none
  let setAsm (a : Option RxAsm) (s : State) : State := s.modPort p (fun q => { q with asm := vset q.asm vl.toNat a })
  let broken (s : State) : State := setAsm none (countDrop p s)
  let first := pos = 0 || pos = 1
  let s := if first && old.isSome then broken s else s
  match (if first then none else old) with
  | none =>
    if !first then broken (portFreed p vl.toNat s)
    else if pos = 0 then
      let f := parseFrame ftype vl payload
      let s := if f.ftype = 6 && f.sub = 7 then s else portFreed p vl.toNat s
      arrive p f bad s
    else setAsm (some { ftype := ftype, bytes := payload, blocks := 1, bad := bad }) (portFreed p vl.toNat s)
  | some a =>
    let a := { a with bytes := a.bytes ++ payload, blocks := a.blocks + 1, bad := a.bad || bad }
    let s := portFreed p vl.toNat s
    if pos = 3 then arrive p (parseFrame a.ftype vl a.bytes) a.bad (setAsm none s)
    else if 16 ≤ a.blocks then broken s
    else setAsm (some a) s

/-- An uncorrectable codeword (R670, R691). -/
def uncorrectable (p : Nat) (seq : BitVec 3) (s : State) : State :=
  portEvent p 2 ((countUnc p s).modPort p (fun q =>
    { q with asm := Vector.replicate 4 none, rxSeq := seq + 1
             uncRun := satInc q.uncRun, resync := true }))

/-- Symbols corrected, counted on the lanes that carried them (R658, R671). -/
def countErrors (p : Nat) (places : List Nat) (s : State) : State :=
  let ls := lanesOf s.link.group p
  let s := places.foldl (fun s k =>
    match ls.find? (fun l => (s.lane l).lidx.toNat = k % ls.length) with
    | some l => countCerr l s
    | none => s) s
  if places.isEmpty then s
  else
    let was := (s.port p).cwcor
    let s := countCor p s
    let q := s.port p
    if q.cwcor = q.corthr && q.cwcor != was then portEvent p 3 s else s

/-- CODEWORD_RECEIVE: the 680 bits of a codeword in the order of sending (R658). -/
def codewordReceive (p : Nat) (bits : BitVec 680) (s : State) : State :=
  if !portLive s p then s
  else
    let q := s.port p
    let (v, lf) := scramble q.rxLfsr bits
    let w := (List.range 68).map (fun k => (fd v (10 * k) 10).toNat)
    let s := s.modPort p (fun q => { q with cwtot := q.cwtot + 1, rxUnits := q.rxUnits + 1, rxLfsr := lf })
    let clean := (List.range 4).all (fun j => rsSyn w j = 0)
    let raw := symbolsBlock w
    let decoded : Option (List Nat × List Nat) := if q.nearact then some (w, []) else rsDecode w
    match decoded with
    | none => uncorrectable p (fd (lget raw 1) 5 3) s
    | some (sym, errs) =>
      let s := countErrors p errs s
      let b := symbolsBlock sym
      let h0 := lget b 0
      let h1 := lget b 1
      if fd h1 5 3 != q.rxSeq then uncorrectable p (fd h1 5 3) s
      else
        let cvl := (fd h1 0 2).toNat
        let s := s.modPort p (fun q =>
          { q with uncRun := 0, rxSeq := q.rxSeq + 1, cred := vmod q.cred cvl (· + (fd h1 2 3).zeroExtend 8) })
        if fd h0 0 3 = 0 then s
        else takeBlock p (fd h0 0 3) (fd h0 3 2) (fd h0 5 2) (b.drop 2) (q.nearact && !clean) s

/-! ## Codewords sent (R662, R685, R688, R690, R691) -/

def popcount (v : U64) : Nat := (bitsOf v).length

/-- The virtual lane whose block is sent next (R690); in trickle only TIME and WAKE (R676). -/
def pickLane (s : State) (p : Nat) : Option Nat :=
  let q := s.port p
  let cap := if s.link.vl3max = 0 then 64 else s.link.vl3max.toNat
  (List.range 4).find? (fun v =>
    match vget q.txq v [] with
    | [] => false
    | b :: _ =>
      vget q.cred v 0 != 0 && (v != 3 || decide (popcount q.vl3hist < cap))
        && (portUp s p || (v = 0 && (b.ftype = 1 || (b.ftype = 6 && (lget b.payload 7).toNat / 32 = 4)))))

/-- Content of a CRESYNC: SENT and FREED of each virtual lane (R687, R691). -/
def resyncContent (q : LinkPort) : List Byte :=
  (List.range 4).flatMap (fun v => bytesLE (vget q.sent v 0) 2 ++ bytesLE (vget q.freed v 0) 2)

/-- Sends a codeword with a block's byte 0 and payload (R661-R663). -/
def sendCodeword (p : Nat) (h0 : Byte) (payload : List Byte) (s : State) : State :=
  let q := s.port p
  let cvl := (leastBy (fun v => 1000000 - vget q.owed v 0) (List.range 4)).getD 0
  let give := min 7 (vget q.owed cvl 0)
  let h1 : Byte := BitVec.ofNat 8 (cvl + give * 4 + q.txSeq.toNat * 32)
  let m := blockSymbols (h0 :: h1 :: padTo 78 payload)
  let v : BitVec 680 := BitVec.ofNat 680 ((m ++ rsCheck m).foldr (fun x a => a * 1024 + x) 0)
  let (v, lf) := scramble q.txLfsr v
  s.modPort p (fun q =>
    { q with txLine := v, txLfsr := lf, txSeq := q.txSeq + 1, txUnits := q.txUnits + 1
             owed := vmod q.owed cvl (· - give), setLast := false
             vl3hist := (q.vl3hist <<< 1) ||| (if fd h0 0 3 != 0 && fd h0 3 2 = 3 then 1 else 0) })

def byte0 (ftype : BitVec 3) (vl : Nat) (pos : BitVec 2) : Byte :=
  BitVec.ofNat 8 (ftype.toNat + vl * 8 + pos.toNat * 32)

/-- CODEWORD_SEND (R690). -/
def codewordSend (p : Nat) (s : State) : State :=
  if !portLive s p then s
  else
    let q := s.port p
    let midFrame := match vget q.txq 0 [] with | b :: _ => b.pos = 2 || b.pos = 3 | [] => false
    let lane := pickLane s p
    if portUp s p && q.resync && !(midFrame && lane = some 0) then
      let f : Frame := { ftype := 6, vl := 0, src := s.link.node, sub := 7, content := resyncContent q }
      let s := s.modPort p (fun q => { q with resync := false, resyncWait := true, frtx := q.frtx + 1 })
      sendCodeword p (byte0 6 0 0) (frameHeader f ++ f.content) s
    else
      match lane with
      | none => sendCodeword p 0 [] s
      | some v =>
        match vget q.txq v [] with
        | [] => sendCodeword p 0 [] s
        | b :: rest =>
          let last := b.pos = 0 || b.pos = 3
          let s := s.modPort p (fun q =>
            { q with txq := vset q.txq v rest, cred := vmod q.cred v (· - 1), sent := vmod q.sent v (· + 1)
                     frtx := if last then q.frtx + 1 else q.frtx })
          let s := sendCodeword p (byte0 b.ftype v b.pos) b.payload s
          match b.cmd with
          | some seq =>
            match slotOfSeq s seq with
            | some c => setStage seq (.done 0 0 ((cmdP c.entry 3).zeroExtend 64)) s
            | none => s
          | none => s

/-! ## Shut orders (R713-R716) -/

/-- Ports on which shut orders go out in the present power state (R714). -/
def shutPorts (s : State) : List Nat :=
  match s.pwr.st with
  | .deep => []
  | .sleep => (List.range 4).filter (portTrickle s)
  | _ => if s.bist.phase = .idle then (List.range 4).filter (portLive s) else []

def sameOrder (s : State) (origin : BitVec 14) (seq : Byte) : Bool :=
  s.link.recentShut.any (fun e => e.1 = origin && e.2.1 = seq && decide ((s.clk.gauge - e.2.2).toNat ≤ 8192000))

/-- A shut order recognised at port p (R714, R716, R413). -/
def shutOrder (p : Nat) (origin : BitVec 14) (seq : Byte) (hops : BitVec 5) (s : State) : State :=
  if !(shutPorts s).contains p then s
  else
    let s := portEvent p 5 (s.modPort p (fun q => { q with shutrxn := q.shutrxn + 1 }))
    if sameOrder s origin seq then s
    else
      let s := { s with link := { s.link with
        recentShut := ((origin, seq, s.clk.gauge) :: s.link.recentShut).take 16 } }
      let s := if s.link.shrelay && hops != 31 then
          ((shutPorts s).filter (fun r => r != p)).foldl (fun s r => sendSet r (shutWord origin seq (hops + 1)) s) s
        else s
      if s.shut.accept then latchLink s else s

/-! ## Ordered sets (R664-R669, R702) -/

/-- A stamp of R669 at sub-tick `sub` of this fc, with the port's adjustment. -/
def stampAt (s : State) (sub : BitVec 6) (adj : U16) : U64 := s.clk.gauge + sub.zeroExtend 64 + adj.signExtend 64

/-- A time marker is received (R702): the answer to the exchange under way, or the neighbour's own. -/
def markerReceive (p : Nat) (seq : Byte) (sub : BitVec 6) (s : State) : State :=
  if s.pwr.st = .sleep then s
  else s.modPort p (fun q =>
    let t := stampAt s sub q.rxadj
    match q.exch with
    | some e =>
      if e.s = seq && e.t4.isNone then { q with exch := some { e with t4 := some t } } else { q with reply := some (seq, t) }
    | none => { q with reply := some (seq, t) })

/-- An align is received (R657, R663, R670). -/
def alignReceive (p : Nat) (w : U64) (s : State) : State :=
  s.modPort p (fun q => { q with
    aseq := fd w 32 8, rxLfsr := 0x7FFFFF00#31 ||| (fd w 32 8 : Byte).zeroExtend 31, rxUnits := 0 })

/-- Majority of each bit over the copies, and whether some bit ties (R666). -/
def majority (cs : List U64) : U64 × Bool :=
  let n (i : Nat) : Nat := (cs.filter (fun c => bit c i)).length
  (bitsFrom 64 (fun i => decide (3 ≤ n i)), (List.range 64).any (fun i => 24 ≤ i && n i = 2))

/-- ORDERED_SET_RECEIVE: four consecutive copies (R666). -/
def orderedSet (p : Nat) (sub : BitVec 6) (cs : List U64) (s : State) : State :=
  if !portLive s p || (cs.filter (fun c => fd c 0 24 = 0xC396A5#24)).length < 3 then s
  else
    let s := s.modPort p (fun q => { q with rxUnits := q.rxUnits + 1 })
    let (w, tie) := majority cs
    let type := (fd w 24 4).toNat
    if tie || type = 0 || 4 < type then
      portEvent p 4 (countOserr p s)
    else match type with
      | 2 => alignReceive p w s
      | 3 => markerReceive p (fd w 28 8) sub s
      | 4 => shutOrder p (fd w 28 14) (fd w 42 8) (fd w 50 5) s
      | _ => s

/-- ALIGN_SEND (R669, R663). What a port sends between two aligns while it is in ALIGN the spec does not say: there the command
itself is the end of the interval (log entry 41). -/
def alignSend (p : Nat) (s : State) : State :=
  let q := s.port p
  let due := decide (2 ^ ((if 8 < q.aint.toNat then 8 else q.aint.toNat) + 8) ≤ q.txUnits)
  if q.st = 2 || (portLive s p && due) then sendAlign p s else s

/-! ## Loss of lock, trickle (R670, R677) -/

/-- LOSS_OF_LOCK (R670). -/
def lossOfLock (p : Nat) (s : State) : State :=
  let q := s.port p
  let interval := 2 ^ ((if 8 < q.aint.toNat then 8 else q.aint.toNat) + 8)
  if portLive s p && (16 ≤ q.uncRun.toNat || decide (3 * interval < q.rxUnits)) then toDetect p false s else s

/-- TRICKLE_LOCK: lane 0, in DETECT, locks at trickle rate (R677). -/
def trickleLock (s : State) : State :=
  let p := portOfLane s 0
  if bit s.link.laneEn 0 && (s.lane 0).st = 1 then
    (s.modLane 0 (fun x => { x with st := 6 })).modPort p (fun q =>
      { q with st := 4, aseq := 0, txSeq := 0, rxSeq := 0, uncRun := 0, rxUnits := 0
               cred := vgen 4 (fun v => BitVec.ofNat 8 (vlBuffer v)) })
  else s

/-! ## Commands -/

def execLaneDetectLock (l : Fin 4) (inverted : Bool) (s : State) : Host.Outcome State Fault Refusal :=
  .next (laneDetect l inverted s)

def execTrainingReady (l : Fin 4) (far : FarEnd) (ffe : BitVec 18) (s : State) : Host.Outcome State Fault Refusal :=
  .next (trainReady l far.mod far.near ffe s)

def execPortUp (p : Fin 4) (aseq lidx : BitVec 8) (skew : U32) (s : State) : Host.Outcome State Fault Refusal :=
  .next (portComesUp p aseq lidx skew s)

/-- The lane has not reached ALIGN 200 µs, 400,000 fc, after it entered DETECT (R653). -/
def trainingTimeout (l : Nat) (s : State) : State :=
  let x := s.lane l
  if 1 ≤ x.st.toNat && x.st.toNat ≤ 3 && decide (x.detAt + 400000 ≤ s.clk.fc) then
    portEvent (portOfLane s l) 7 (laneStart l s)
  else s

def execTrainingTimeout (l : Fin 4) (s : State) : Host.Outcome State Fault Refusal := .next (trainingTimeout l s)

def execLossOfLock (p : Fin 4) (s : State) : Host.Outcome State Fault Refusal := .next (lossOfLock p s)

/-- A write of NLANE[l].CTL (R681). -/
def writeLaneCtl (l : Nat) (v : U32) (s : State) : State :=
  let s := s.modLane l (fun x => { x with ffeovr := bit v 1 })
  if bit v 0 then toDetect (portOfLane s l) true s else s

def execCodewordReceive (p : Fin 4) (bits : BitVec 680) (s : State) : Host.Outcome State Fault Refusal :=
  .next (codewordReceive p bits s)

def execCodewordSend (p : Fin 4) (s : State) : Host.Outcome State Fault Refusal := .next (codewordSend p s)

def execOrderedSetReceive (p : Fin 4) (sub : BitVec 6) (c0 c1 c2 c3 : U64) (s : State) :
    Host.Outcome State Fault Refusal :=
  .next (orderedSet p sub [c0, c1, c2, c3] s)

def execAlignSend (p : Fin 4) (s : State) : Host.Outcome State Fault Refusal := .next (alignSend p s)

def execShutOrderReceive (p : Fin 4) (origin : BitVec 14) (seq : BitVec 8) (hops : BitVec 5) (s : State) :
    Host.Outcome State Fault Refusal :=
  .next (shutOrder p origin seq hops s)

def execTrickleLock (s : State) : Host.Outcome State Fault Refusal := .next (trickleLock s)

/-- TRICKLE_LOCK_LOSS (R677). -/
def execTrickleLockLoss (p : Fin 4) (s : State) : Host.Outcome State Fault Refusal :=
  .next (if portTrickle s p then toDetect p false s else s)

end Sys2Proof.Machine
end

