-- ==== Sys2Proof/Machine/LinkNet.lean ====
section
/-! DEFINITION. The network layer: time, election, enumeration, routed management frames, the receive ring, samples
from the network, and the link registers (15, R680-R682). -/

namespace Sys2Proof.Machine

/-- Takes the first frame of a kind from the frames kept at port p. -/
def takeFrame (p : Nat) (want : Frame → Bool) (s : State) : Option (Frame × State) :=
  let box := (s.port p).inbox
  match box.find? want with
  | none => none
  | some f => some (f, s.modPort p (fun q => { q with inbox := box.erase f }))

def isMgmt (sub : BitVec 3) (f : Frame) : Bool := f.ftype = 6 && f.sub = sub

/-! ## Network time (R702-R708) -/

/-- The Gauge may be stepped (R704). -/
def steppable (s : State) : Bool :=
  !s.fl.toList.any (fun f => f.arm) && (List.range 96).all (outIdle s) && !s.tmr.toList.any (fun t => t.aten)
    && !s.rider.sync

/-- 125 µs by the Gauge have passed since the last time, if there was one (R687, R702). -/
def intervalOver (s : State) (last : Option U64) : Bool :=
  match last with
  | none => true
  | some g => decide (16000000 ≤ (s.clk.gauge - g).toNat)

/-- TIME_EXCHANGE: the block sends a time marker on port p and stamps it (R702 step 1). -/
def timeExchange (p : Nat) (sub : BitVec 6) (s : State) : State :=
  let q := s.port p
  let early := s.pwr.st != .sleep && !intervalOver s q.exchAt
  if !portLive s p || !(q.prole = 1 || q.prole = 3) || early then s
  else
    let s := sendSet p (markerWord q.tseq) s
    if s.pwr.st = .sleep then s.modPort p (fun q => { q with tseq := q.tseq + 1, exch := none })
    else s.modPort p (fun q =>
      { q with
        tseq := q.tseq + 1, exchAt := some s.clk.gauge
        exch := some { s := q.tseq, t1 := stampAt s sub q.txadj, t4 := none } })

/-- TIME_MARKER_REPLY: the answer to a neighbour's marker, and its TIME frame (R702 steps 3 and 5). -/
def timeReply (p : Nat) (sub : BitVec 6) (s : State) : State :=
  match (s.port p).reply with
  | none => s
  | some (seq, t2) =>
    if !portLive s p then s
    else
      let t3 := stampAt s sub (s.port p).txadj
      let s := sendSet p (markerWord seq) (s.modPort p (fun q => { q with reply := none }))
      let content := [seq] ++ bytesLE t2 8 ++ bytesLE t3 8 ++ [if s.link.disc then 1 else 0]
      queueFrame p { ftype := 1, vl := 0, src := s.link.node, content := content } none s

/-- Arithmetic shift right by a field. -/
def sar (v : Int) (k : BitVec 3) : Int := shrI v k.toNat

/-- The loop of R703 for an offset θ. -/
def discipline (theta : Int) (s : State) : State :=
  let thr : Int := s.link.stepthr.toNat
  let isOver := decide (thr < theta.natAbs)
  let s :=
    if isOver && steppable s then
      let s := moveGauge (s.clk.gauge + BitVec.ofInt 64 theta) theta.toNat s
      { s with link := { s.link with pend := 0, carries := 0, disc := false, lockRun := 0 } }
    else
      let th := clampI (-thr) thr theta
      let s := netFlag isOver 5 s
      { s with link := { s.link with
        pend := s.link.pend + BitVec.ofInt 64 (sar th s.link.kps)
        freq := s.link.freq + BitVec.ofInt 64 (sar ((th * 2 ^ 32).tdiv 250000) s.link.kis)
        stepblk := s.link.stepblk || isOver
        lockRun := if theta.natAbs ≤ s.link.lockthr.toNat then (if s.link.lockRun = 8 then 8 else s.link.lockRun + 1)
                   else 0 } }
  { s with link := { s.link with
    toffs := BitVec.ofInt 32 (clampI (-2147483648) 2147483647 theta)
    disc := s.link.master || (s.link.lockRun = 8 && s.link.upDisc) } }

/-- A TIME frame from the up-port neighbour carries its DISC (R708). -/
def upDiscSet (d : Bool) (s : State) : State :=
  { s with link := { s.link with upDisc := d, disc := s.link.master || (s.link.lockRun = 8 && d) } }

/-- TIME_FRAME_RECEIVE (R702, R703, R708, R711). -/
def timeFrame (p : Nat) (s : State) : State :=
  match takeFrame p (fun f => f.ftype = 1) s with
  | none => s
  | some (f, s) =>
    let q := s.port p
    let up := q.prole = 1
    let seq := lget f.content 0
    let t2 : U64 := ofLE 64 ((f.content.drop 1).take 8)
    let t3 : U64 := ofLE 64 ((f.content.drop 9).take 8)
    if s.pwr.st = .sleep then s
    else
      let s := if up then upDiscSet (bit (lget f.content 17) 0) s else s
      let s := s.modPort p (fun q => { q with exch := none })
      match q.exch with
      | some ⟨es, t1, some t4⟩ =>
        if es != seq then s
        else
          let theta := shrI ((t2 - t1) + (t3 - t4)).toInt 1
          let d := shrI ((t4 - t1) - (t3 - t2)).toInt 1
          let s := s.modPort p (fun q => { q with tdly := BitVec.ofInt 32 d })
          if up then discipline theta { s with link := { s.link with tdelay := BitVec.ofInt 32 d } } else s
      | _ => s

/-! ## Election (R687, R693, R694) -/

/-- Content of an ADV (R687): best candidate, distance, UPFLAG, GIDX. -/
def advContent (s : State) (p : Nat) : List Byte :=
  [(s.link.bestRole.zeroExtend 8)] ++ bytesLE s.link.bestKey 4 ++ [s.link.dist.zeroExtend 8]
    ++ [if s.link.upport.map (fun u => u.toNat) = some p then 1 else 0] ++ [s.link.gidx.zeroExtend 8]

/-- ADV_SEND, every 125 µs (R687). -/
def advSend (s : State) : State :=
  if intervalOver s s.link.advAt then
    { s with link := { s.link with advAt := some s.clk.gauge } }.each 4 (fun s p =>
      if portUp s p then sendMgmt p 0 (advContent s p) s else s)
  else s

/-- ADV (R693, R695, R725). When the up-port neighbour has lost its distance, the block seeks a standby port in its turn (R700). An
equal candidate is one that a neighbour advertises at distance 0. -/
def advReceive (p : Nat) (s : State) : State :=
  match takeFrame p (isMgmt 0) s with
  | none => s
  | some (f, s) =>
    let c := f.content
    let role : BitVec 2 := fd (lget c 0) 0 2
    let key : U32 := ofLE 32 ((c.drop 1).take 4)
    let dist : BitVec 5 := fd (lget c 5) 0 5
    let lost := dist = 0x1F && (s.port p).ndist != 0x1F && s.link.upport.map (fun u => u.toNat) = some p
    let s := s.modPort p (fun q =>
      { q with nrole := role, nkey := key, ndist := dist, nbrup := bit (lget c 6) 0, ngidx := some (fd (lget c 7) 0 3) })
    let dup := dist = 0 && candidate s.link.eRole && role = s.link.eRole && key = s.link.eKey
    let s := if dup then { s with link := { s.link with dupkey := true, master := false } } else s
    let s := netFlag dup 2 s
    if lost then reportCount (failover s) else reportCount (electUpdate s)

/-- A neighbour advertises an equal candidate. -/
def equalCandidate (s : State) : Bool :=
  (List.range 4).any (fun p =>
    let q := s.port p
    portLive s p && q.ndist = 0 && q.nrole = s.link.eRole && q.nkey = s.link.eKey)

/-- MASTER_ELECTION: 1 ms after the last change (R693, R708). -/
def masterElection (s : State) : State :=
  if candidate s.link.eRole && !s.link.master && bestKnown s = (s.link.eRole, s.link.eKey) && !equalCandidate s
      && decide (128000000 ≤ (s.clk.gauge - s.link.changedAt).toNat) then
    let s := electUpdate s
    finishEnum { s with link := { s.link with
      master := true, node := 0, valid := true, dist := 0, depth := 0, disc := true, enumRun := true } }
  else s

/-- ELECTION_RESTART: 10 ms without a valid distance (R694). -/
def electionRestart (s : State) : State :=
  match s.link.dist = 0x1F, s.link.lostAt with
  | _, some t =>
    if s.link.dist = 0x1F && decide (1280000000 ≤ (s.clk.gauge - t).toNat) then
      let s := s.each 4 (fun s p => s.modPort p (fun q => { q with nrole := 0, nkey := 0, ndist := 0x1F, nbrup := false }))
      electUpdate { s with link := { s.link with
        eRole := s.link.role, eKey := s.link.netkey, lostAt := some s.clk.gauge, bestRole := 0, bestKey := 0
        changedAt := s.clk.gauge } }
    else s
  | _, none => s

/-! ## Enumeration (R696) -/

/-- COUNT from a down port. -/
def countReceive (p : Nat) (s : State) : State :=
  match takeFrame p (isMgmt 1) s with
  | none => s
  | some (f, s) =>
    let n := natLE (f.content.take 2)
    let h := (lget f.content 2).toNat
    let w := natLE ((f.content.drop 3).take 2)
    reportCount (s.modPort p (fun q => if q.prole = 2 then { q with count := some (n, h, w) } else q))

/-- ASSIGN from the parent (R696). -/
def assignReceive (p : Nat) (s : State) : State :=
  match takeFrame p (isMgmt 2) s with
  | none => s
  | some (f, s) =>
    let n14 (i : Nat) : BitVec 14 := fd (ofLE 16 ((f.content.drop i).take 2)) 0 14
    if (s.port p).prole != 1 then s
    else
      assignDown { s with link := { s.link with
        node := n14 0, subhi := n14 2, parent := n14 4, depth := fd (lget f.content 6) 0 4, valid := true
        exc := Vector.replicate 8 {} } }

/-! ## Routed management frames (R701, R712, R820) -/

/-- Installs a route exception (R701). -/
def addException (lo hi : BitVec 14) (port : BitVec 2) (keep : Bool) (s : State) : State :=
  let es := s.link.exc.toList
  match es.findIdx? (fun e => e.v && e.lo = lo && e.hi = hi) with
  | some i =>
    if keep then s
    else { s with link := { s.link with exc := vset s.link.exc i { lo := lo, hi := hi, port := port, v := true } } }
  | none =>
    match es.findIdx? (fun e => !e.v) with
    | some i => { s with link := { s.link with exc := vset s.link.exc i { lo := lo, hi := hi, port := port, v := true } } }
    | none => netFlag true 4 { s with link := { s.link with rtxfull := true } }

/-- REROUTE (R701). -/
def reroute (p : Nat) (s : State) : State :=
  match takeFrame p (isMgmt 3) s with
  | none => s
  | some (f, s) =>
    let n14 (i : Nat) : BitVec 14 := fd (ofLE 16 ((f.content.drop i).take 2)) 0 14
    let lo := n14 0
    let hi := n14 2
    let old := n14 4
    let down := bit (lget f.content 6) 0
    let own := f.dst = s.link.node
    if down then
      let s := match s.link.upport with
        | some u => addException lo hi u true s
        | none => s
      if own then s else relay p f s
    else
      let s := addException lo hi (BitVec.ofNat 2 p) false s
      if own then
        if old = s.link.node then s
        else
          let (m, s) := nextMsg s
          originate { ftype := 6, vl := 0, dst := old, msgid := m, sub := 3
                      content := rerouteContent lo hi old true } none s
      else relay p f s

/-- WAKE (R712, R820): content bytes 0-1 name the node, byte 2 bit 0 asks for a warm reset. -/
def wakeFrame (p : Nat) (s : State) : State :=
  match takeFrame p (isMgmt 4) s with
  | none => s
  | some (f, s) =>
    let n := f.dst
    let own := s.link.valid && n = s.link.node
    let below := s.link.valid && decide (s.link.node ≤ n) && decide (n ≤ s.link.subhi)
    let s := if own && s.pwr.linken && bit (lget f.content 2) 0 then requestReset 4 s else s
    let s := if own || below then wakeRequest 1 s else s
    if own then s
    else if s.pwr.st = .sleep then { s with link := { s.link with wakeRelay := s.link.wakeRelay ++ [f] } }
    else relay p f s

/-- Frames kept over SLEEP go on after waking (R712). -/
def relayWakes (s : State) : State :=
  s.link.wakeRelay.foldl (fun s f => relay 4 f s) { s with link := { s.link with wakeRelay := [] } }

/-- CRESYNC (R691). -/
def cresync (p : Nat) (s : State) : State :=
  match takeFrame p (isMgmt 7) s with
  | none => s
  | some (f, s) =>
    s.modPort p (fun q =>
      let freed (v : Nat) : U16 := ofLE 16 ((f.content.drop (4 * v + 2)).take 2)
      { q with
        cred := vgen 4 (fun v => BitVec.ofNat 8 (vlBuffer v) - (vget q.sent v 0 - freed v).truncate 8)
        resync := q.resync || !q.resyncWait, resyncWait := false })

/-! ## The receive ring and samples (R718, R719, R722) -/

def nrxSlots (s : State) : Nat := 2 ^ (if 1 ≤ s.link.nrxK.toNat && s.link.nrxK.toNat ≤ 8 then s.link.nrxK.toNat else 1)

/-- Rows of a receive slot: those that lie in the descriptor table stay as they are (R363, R719). -/
def storeSlot (a : Nat) (l : List Byte) (s : State) : State :=
  (chunks 16 l).zipIdx.foldl (fun s c => if inExcTable s (a + 16 * c.2) 16 then s else storeRow (a + 16 * c.2) c.1 s) s

/-- RECEIVE_RING_WRITE (R719). -/
def receiveRing (p : Nat) (s : State) : State :=
  match takeFrame p (fun f => f.ftype = 5 || f.ftype = 4 || f.ftype = 7) s with
  | none => s
  | some (f, s) =>
    let next := (s.link.nrxTail.toNat + 1) % nrxSlots s
    if f.ftype = 7 && s.link.node != 0 then dropFrame s
    else if !s.link.nrxEn || next = s.link.nrxHead.toNat then
      rcSet 0x2305C s.link.nrxLost satInc { s with link := { s.link with nrxLost := satInc s.link.nrxLost } }
    else
      let a := s.link.nrxBase.toNat * 16 + 1280 * s.link.nrxTail.toNat
      let l := frameHeader f ++ bytesLE f.came 6 ++ [byte0 f.ftype f.vl.toNat 0, 0] ++ f.content
      let l := l ++ List.replicate ((16 - l.length % 16) % 16) 0
      let s := if a + l.length ≤ 2 ^ 20 then storeSlot a l s else s
      portEvent p 6 { s with link := { s.link with nrxTail := BitVec.ofNat 8 next } }

/-- The row that a SAMP frame gives a subscriber (R722). -/
def sampRow (f : Frame) : List Byte :=
  (List.range 9).map (fun i => lget f.content (i + 2)) ++ [0] ++ nodeBytes f.src ++ [lget f.content 0, lget f.content 1 &&& 0xF]
    ++ [0, 0]

/-- SAMP_FRAME_RECEIVE (R722, R363): in an fc in which no thread accesses data memory. -/
def sampFrame (p : Nat) (s : State) : State :=
  if !memFree s then s else
  match takeFrame p (fun f => f.ftype = 2) s with
  | none => s
  | some (f, s) =>
    let chan : BitVec 12 := fd (ofLE 16 (f.content.take 2)) 0 12
    s.each 8 (fun s j =>
      let sb := vget s.link.sub j {}
      if sb.en && sb.chan = chan && (sb.any || sb.src = f.src) then
        let a := sb.row.toNat * 16
        let s := if inExcTable s a 16 then dropFrame s else storeRow a (sampRow f) s
        if sb.sig then { s with seq := { s.seq with
            scond := setBit s.seq.scond sb.sbit.toNat true
            scondBase := setBit s.seq.scondBase sb.sbit.toNat true } } else s
      else s)

/-- The link commands come after SQ0 and before the other rings (R718). -/
def linkMayRun (s : State) : Bool :=
  inRun s && s.hg.ready && serving s && s.hg.linkSlot.isNone && !shortBusy s
    && (match selectedRing s with | some r => decide (r != 0) | none => true)

/-- CMD_FRAME_RECEIVE (R718, R728). -/
def cmdFrame (p : Nat) (s : State) : State :=
  match (s.port p).inbox.find? (fun f => f.ftype = 3) with
  | none => s
  | some f =>
    if f.content.length != 64 then
      match takeFrame p (fun f => f.ftype = 3) s with
      | some (_, s) => dropFrame s
      | none => s
    else if !linkMayRun s then s
    else
      match takeFrame p (fun f => f.ftype = 3) s with
      | none => s
      | some (f, s) =>
        let e : BitVec 512 := ofLE 512 f.content
        let tag : U32 := pk [(0, f.msgid.toNat), (8, f.vl.toNat), (16, f.sub.toNat)]
        let refuse := !s.link.cmden && f.sub != 1
        let stage : CmdStage := if refuse then .done 7 0 0 else firstStage e
        { s with hg := { s.hg with
          linkSlot := some { entry := e, sqhead := 0, seq := s.hg.nextSeq, stage := stage
                             origin := some (BitVec.ofNat 2 p, f.src, tag) }
          nextSeq := s.hg.nextSeq + 1 } }

/-- The RESP of a command that came over the link (R718, R728). -/
def sendResp (c : CmdSlot) (body : Row) (s : State) : State :=
  match c.origin with
  | none => s
  | some (_, src, tag) =>
    originate { ftype := 4, vl := fd tag 8 2, dst := src, msgid := fd tag 0 8, sub := fd tag 16 3
                content := bytesLE body 16 } none s

/-! ## Package groups (R726-R728) -/

/-- Node ID of member m, as the tree knows the neighbour that advertised it (R725). -/
def memberNode (s : State) (m : Nat) : Option (BitVec 14) :=
  match (List.range 4).find? (fun p =>
      let q := s.port p
      portUp s p && q.nearact && q.ngidx = some (BitVec.ofNat 3 m)) with
  | some p =>
    let q := s.port p
    if q.prole = 2 then some q.rlo else if q.prole = 1 then some s.link.parent else none
  | none => none

/-- The group master can reach member m (R553, R727). -/
def memberPresent (s : State) (m : Nat) : Bool :=
  s.link.grpen && s.link.gidx = 0 && bit s.link.present m && s.link.valid && (memberNode s m).isSome

/-- An event that a member counts: the count of its source 376 + m at the group master where its route names a host target, and its
record where the member's HGEVEN asks for one (R729). It travels as a TRAP of subtype 1 (log entry 40). -/
def memberEvent (src : BitVec 9) (data : U32) (s : State) : State :=
  let c := s.source src.toNat
  let k := s.link
  let counts := if c.set then c.tset != 0 else decide (c.tgt.toNat < 8)
  let records := bit (vget s.hg.even (src.toNat / 32) 0) (src.toNat % 32)
  match (if k.grpen && k.gidx != 0 && (counts || records) then memberNode s 0 else none) with
  | none => s
  | some d =>
    let content := bytesLE (src.zeroExtend 16) 2 ++ [k.gidx.zeroExtend 8, BitVec.ofNat 8 (b1 counts + 2 * b1 records)]
      ++ bytesLE s.clk.gauge 6 ++ [0, 0] ++ bytesLE data 4
    originate { ftype := 7, vl := 0, dst := d, sub := 1, content := content } none s

/-! ## Registers (R680-R682, R730-R732) -/

def lnkstat (s : State) : U32 :=
  let lact := bitsFrom 4 (fun l => decide (5 ≤ (s.lane l).st.toNat))
  let pup := bitsFrom 4 (fun p => portUp s p)
  pk [(0, lact.toNat), (4, pup.toNat), (8, b1 ((s.lane 0).st = 6)), (9, b1 s.link.cfgign)]

def netstat (s : State) : U32 :=
  let k := s.link
  pk [(0, b1 k.master), (1, b1 k.disc), (2, b1 k.dupkey), (3, b1 k.deep), (4, b1 k.rtxfull), (5, b1 k.stepblk),
    (6, b1 k.noroute), (7, b1 k.failover), (8, match k.upport with | some u => u.toNat | none => 0),
    (10, b1 k.upport.isSome)]

def excWord (e : RouteExc) : U32 := pk [(0, e.lo.toNat), (14, e.hi.toNat), (28, e.port.toNat), (31, b1 e.v)]

def pubWord (x : Pub) (second : Bool) : U32 :=
  if second then x.dst.zeroExtend 32
  else pk [(0, x.port.toNat), (5, b1 x.bc), (6, b1 x.en), (8, x.chan.toNat), (20, x.div.toNat)]

def subWord (x : Sub) (second : Bool) : U32 :=
  if second then pk [(4, x.row.toNat), (20, x.sbit.toNat)]
  else pk [(0, x.src.toNat), (14, b1 x.any), (15, b1 x.en), (16, x.chan.toNat), (28, b1 x.sig)]

/-- A register of NPORT[p] (R682, R732); a port that GROUP does not form reads 0. The counters that a read clears show their value
from before this fc (R13). -/
def portRead (s : State) (p r : Nat) : U32 :=
  let q := s.port p
  let base := 0x23200 + 0x200 * p
  if !portFormed s p then 0
  else match r with
    | 0x00 => pk [(0, q.mod.toNat), (2, b1 q.near), (8, q.aint.toNat)]
    | 0x04 => portStat s p
    | 0x08 => q.cwtot
    | 0x0C => rcShown s (base + 0x0C) q.cwcor
    | 0x10 => rcShown s (base + 0x10) q.cwunc
    | 0x14 => rcShown s (base + 0x14) q.oserr
    | 0x18 => q.corthr
    | 0x1C => pk [(0, q.txadj.toNat), (16, q.rxadj.toNat)]
    | 0x20 => q.evt.zeroExtend 32
    | 0x24 => q.shutrxn
    | 0x100 => pk [(0, q.prole.toNat), (2, q.ndist.toNat), (7, b1 q.nbrup)]
    | 0x104 => pk [(0, q.rlo.toNat), (16, q.rhi.toNat)]
    | 0x108 => pk ((List.range 4).map (fun v => (8 * v, (vget q.cred v 0).toNat)))
    | 0x10C => q.tdly
    | 0x110 => q.frtx
    | 0x114 => q.frrx
    | 0x118 => rcShown s (base + 0x118) q.frdrop
    | _ => 0

/-- A link register at offset `r` from 0x2_3000, as an inspect read returns it. -/
def linkRead (s : State) (r : Nat) : U32 :=
  let k := s.link
  if 0x200 ≤ r then portRead s ((r - 0x200) / 0x200) ((r - 0x200) % 0x200)
  else if 0x180 ≤ r then 0
  else if 0x100 ≤ r then
    let x := s.lane ((r - 0x100) / 0x20)
    match r % 0x20 with
    | 0x00 => pk [(1, b1 x.ffeovr)]
    | 0x04 => pk [(0, x.st.toNat), (3, b1 x.pol), (4, x.lidx.toNat), (16, x.skew.toNat)]
    | 0x08 => pk [(0, x.pre.toNat), (6, x.main.toNat), (12, x.post.toNat)]
    | 0x0C => rcShown s (0x23000 + r) x.cerr
    | _ => 0
  else if 0xC0 ≤ r then subWord (vget k.sub ((r - 0xC0) / 8) {}) (r % 8 = 4)
  else if 0x80 ≤ r then pubWord (vget k.pub ((r - 0x80) / 8) {}) (r % 8 = 4)
  else if 0x60 ≤ r then excWord (vget k.exc ((r - 0x60) / 4) {})
  else match r with
    | 0x00 => pk [(0, k.group.toNat), (4, k.laneEn.toNat)]
    | 0x04 => lnkstat s
    | 0x20 => pk [(0, k.role.toNat), (2, b1 k.synt), (3, b1 k.shrelay), (4, k.vl3max.toNat), (10, k.kps.toNat),
        (13, k.kis.toNat), (16, b1 k.cmden), (17, b1 k.trapen)]
    | 0x24 => k.netkey
    | 0x28 => pk [(0, k.node.toNat), (14, b1 k.valid), (16, k.depth.toNat)]
    | 0x2C => k.subhi.zeroExtend 32
    | 0x30 => netstat s
    | 0x34 => rcShown s 0x23034 k.netdrop
    | 0x38 => k.toffs
    | 0x3C => k.tdelay
    | 0x40 => fd k.freq 0 32
    | 0x44 => pk [(0, k.stepthr.toNat), (24, k.lockthr.toNat)]
    | 0x48 => pk [(0, k.gidx.toNat), (3, b1 k.grpen), (8, k.aper.toNat)]
    | 0x4C => pk [(0, k.present.toNat), (8, b1 k.fwderr)]
    | 0x50 => pk [(4, k.nrxBase.toNat), (20, k.nrxK.toNat), (24, b1 k.nrxEn)]
    | 0x54 => k.nrxHead.zeroExtend 32
    | 0x58 => k.nrxTail.zeroExtend 32
    | 0x5C => rcShown s 0x2305C k.nrxLost
    | _ => 0

/-- What a read of a link register does beside (R11, R13: CERR, CWCOR, CWUNC, OSERR, FRDROP, NETDROP, NRXLOST). -/
def linkReadEffect (r : Nat) (s : State) : State :=
  let left := rcLeft s (0x23000 + r)
  rcTaken (0x23000 + r) <|
  if 0x200 ≤ r then
    let p := (r - 0x200) / 0x200
    if !portFormed s p then s
    else match (r - 0x200) % 0x200 with
      | 0x0C => s.modPort p (fun q => { q with cwcor := left })
      | 0x10 => s.modPort p (fun q => { q with cwunc := left })
      | 0x14 => s.modPort p (fun q => { q with oserr := left })
      | 0x118 => s.modPort p (fun q => { q with frdrop := left })
      | _ => s
  else if 0x100 ≤ r && r < 0x180 && r % 0x20 = 0x0C then s.modLane ((r - 0x100) / 0x20) (fun x => { x with cerr := left })
  else if r = 0x34 then { s with link := { s.link with netdrop := left } }
  else if r = 0x5C then { s with link := { s.link with nrxLost := left } }
  else s

/-- A write of NRXCFG (R730). -/
def writeNrxcfg (v : U32) (s : State) : State :=
  let rise := bit v 24 && !s.link.nrxEn
  { s with link := { s.link with
    nrxBase := fd v 4 16, nrxK := fd v 20 4, nrxEn := bit v 24
    nrxHead := if rise then 0 else s.link.nrxHead, nrxTail := if rise then 0 else s.link.nrxTail } }

/-- A write of NPORT[p] (R682). It acts on a port that GROUP does not form too, which only reads 0 (R11, R906). -/
def portWrite (p r : Nat) (v : U32) (s : State) : State :=
  s.modPort p (fun q =>
    match r with
    | 0x00 => { q with mod := fd v 0 2, near := bit v 2, aint := fd v 8 4 }
    | 0x18 => { q with corthr := v }
    | 0x1C => { q with txadj := fd v 0 16, rxadj := fd v 16 16 }
    | 0x20 => { q with evt := w1c q.evt (fd v 0 8) }
    | _ => q)

def linkWrite (r : Nat) (v : U32) (s : State) : State :=
  let k := s.link
  if 0x200 ≤ r then portWrite ((r - 0x200) / 0x200) ((r - 0x200) % 0x200) v s
  else if 0x180 ≤ r then s
  else if 0x100 ≤ r then
    let l := (r - 0x100) / 0x20
    match r % 0x20 with
    | 0x00 => writeLaneCtl l v s
    | 0x08 => s.modLane l (fun x => { x with pre := fd v 0 6, main := fd v 6 6, post := fd v 12 6 })
    | _ => s
  else if 0xC0 ≤ r then
    { s with link := { k with sub := vmod k.sub ((r - 0xC0) / 8) (fun x =>
      if r % 8 = 4 then { x with row := fd v 4 16, sbit := fd v 20 4 }
      else { x with src := fd v 0 14, any := bit v 14, en := bit v 15, chan := fd v 16 12, sig := bit v 28 }) } }
  else if 0x80 ≤ r then
    { s with link := { k with pub := vmod k.pub ((r - 0x80) / 8) (fun x =>
      if r % 8 = 4 then { x with dst := fd v 0 14 }
      else { x with port := fd v 0 5, bc := bit v 5, en := bit v 6, chan := fd v 8 12, div := fd v 20 4 }) } }
  else match r with
    | 0x00 => writeLnkcfg v s
    | 0x04 => { s with link := { k with cfgign := k.cfgign && !bit v 9 } }
    | 0x20 => { s with link := { k with
        role := fd v 0 2, synt := bit v 2, shrelay := bit v 3, vl3max := fd v 4 6, kps := fd v 10 3
        kis := fd v 13 3, cmden := bit v 16, trapen := bit v 17 } }
    | 0x24 => { s with link := { k with netkey := v } }
    | 0x30 => { s with link := { k with
        dupkey := k.dupkey && !bit v 2, deep := k.deep && !bit v 3, rtxfull := k.rtxfull && !bit v 4
        stepblk := k.stepblk && !bit v 5, noroute := k.noroute && !bit v 6, failover := k.failover && !bit v 7 } }
    | 0x44 => { s with link := { k with stepthr := fd v 0 24, lockthr := fd v 24 8 } }
    | 0x48 => { s with link := { k with aper := fd v 8 4 } }
    | 0x4C => { s with link := { k with fwderr := k.fwderr && !bit v 8 } }
    | 0x50 => writeNrxcfg v s
    | 0x54 => { s with link := { k with nrxHead := fd v 0 8 } }
    | _ => s

/-- Warm reset clears the counters, EVT and the RC and W1C fields (R673, R730). -/
def linkWarm (s : State) : State :=
  let s := s.each 4 (fun s p => s.modPort p (fun q =>
    { q with cwtot := 0, cwcor := 0, cwunc := 0, oserr := 0, shutrxn := 0, evt := 0, frtx := 0, frrx := 0, frdrop := 0 }))
  let s := s.each 4 (fun s l => s.modLane l (fun x => { x with cerr := 0 }))
  { s with link := { s.link with
    cfgign := false, dupkey := false, deep := false, rtxfull := false, stepblk := false, noroute := false
    failover := false, fwderr := false, netdrop := 0, nrxLost := 0 } }

/-! ## Commands -/

def execTimeExchange (p : Fin 4) (sub : BitVec 6) (s : State) : Host.Outcome State Fault Refusal :=
  .next (timeExchange p sub s)

def execTimeMarkerReply (p : Fin 4) (sub : BitVec 6) (s : State) : Host.Outcome State Fault Refusal :=
  .next (timeReply p sub s)

def execTimeFrameReceive (p : Fin 4) (s : State) : Host.Outcome State Fault Refusal := .next (timeFrame p s)

def execAdvSend (s : State) : Host.Outcome State Fault Refusal := .next (advSend s)

def execAdv (p : Fin 4) (s : State) : Host.Outcome State Fault Refusal := .next (advReceive p s)

def execMasterElection (s : State) : Host.Outcome State Fault Refusal := .next (masterElection s)

def execElectionRestart (s : State) : Host.Outcome State Fault Refusal := .next (electionRestart s)

def execCount (p : Fin 4) (s : State) : Host.Outcome State Fault Refusal := .next (countReceive p s)

def execAssign (p : Fin 4) (s : State) : Host.Outcome State Fault Refusal := .next (assignReceive p s)

def execReroute (p : Fin 4) (s : State) : Host.Outcome State Fault Refusal := .next (reroute p s)

def execWake (p : Fin 4) (s : State) : Host.Outcome State Fault Refusal := .next (wakeFrame p s)

def execCresync (p : Fin 4) (s : State) : Host.Outcome State Fault Refusal := .next (cresync p s)

def execCmdFrameReceive (p : Fin 4) (s : State) : Host.Outcome State Fault Refusal := .next (cmdFrame p s)

def execReceiveRingWrite (p : Fin 4) (s : State) : Host.Outcome State Fault Refusal := .next (inCore s (receiveRing p s))

def execSampFrameReceive (p : Fin 4) (s : State) : Host.Outcome State Fault Refusal := .next (inCore s (sampFrame p s))

end Sys2Proof.Machine
end

