-- ==== Sys2Proof/Machine/Flags.lean ====
section
/-! DEFINITION. What the arithmetic units of a nanoword compute, and the flags they give: the ALUs (R307), rounding and
reduction of the MAC writeback (R320-R322), and the binary32 lane (R323-R327). -/

namespace Sys2Proof.Machine

/-! ## The ALUs (R307, R308) -/

structure AluOut where
  r : U32
  c : Bool
  v : Bool
deriving DecidableEq, Repr

def i32Min : Int := -2147483648
def i32Max : Int := 2147483647

/-- A + B + carry in: the sum, its carry out and its signed overflow. -/
def addCarry (a b : U32) (c : Bool) : AluOut :=
  let u := a.toNat + b.toNat + b1 c
  let i := a.toInt + b.toInt + (b1 c : Nat)
  { r := BitVec.ofNat 32 u, c := decide (2 ^ 32 ≤ u), v := decide (i < i32Min) || decide (i32Max < i) }

/-- The last bit shifted out by a shift of k places; 0 when k is 0. -/
def lastOut (a : U32) (k : Nat) (left : Bool) : Bool :=
  k != 0 && (if left then bit a (32 - k) else bit a (k - 1))

def leadingZeros (a : U32) : Nat := 32 - (((List.range 32).filter (fun i => bit a i)).getLast?.map (· + 1)).getD 0

/-- The result of an ALU operation with its C and V (R307). -/
def aluOp (op : BitVec 5) (a b : U32) (cin : Bool) : AluOut :=
  let plain (r : U32) : AluOut := { r := r, c := false, v := false }
  let k := (fd b 0 5).toNat
  match op.toNat with
  | 0x00 => plain a
  | 0x01 => addCarry a b false
  | 0x02 => addCarry a (~~~b) true
  | 0x03 =>
    let o := addCarry a b false
    { o with r := BitVec.ofInt 32 (clampI i32Min i32Max (a.toInt + b.toInt)) }
  | 0x04 =>
    let o := addCarry a (~~~b) true
    { o with r := BitVec.ofInt 32 (clampI i32Min i32Max (a.toInt - b.toInt)) }
  | 0x05 => plain (a &&& b)
  | 0x06 => plain (a ||| b)
  | 0x07 => plain (a ^^^ b)
  | 0x08 => plain (a &&& ~~~b)
  | 0x09 => { r := a <<< k, c := lastOut a k true, v := false }
  | 0x0A => { r := a >>> k, c := lastOut a k false, v := false }
  | 0x0B => { r := a.sshiftRight k, c := lastOut a k false, v := false }
  | 0x0C => let r := a.rotateRight k; { r := r, c := bit r 31, v := false }
  | 0x0D => plain (if a.toInt < b.toInt then a else b)
  | 0x0E => plain (if a.toInt < b.toInt then b else a)
  | 0x0F => plain (if a < b then a else b)
  | 0x10 => plain (if a < b then b else a)
  | 0x11 => { r := if a = 0x80000000 then 0x7FFFFFFF else BitVec.ofInt 32 a.toInt.natAbs, c := false, v := a = 0x80000000 }
  | 0x12 => plain (BitVec.ofNat 32 (leadingZeros a))
  | 0x13 => addCarry a b cin
  | 0x14 => addCarry a (~~~b) cin
  | 0x15 => plain (BitVec.ofNat 32 ((a.toNat / 2 ^ k) % 2 ^ ((fd b 5 5).toNat + 1)))
  | 0x16 => plain (BitVec.ofInt 32 ((BitVec.ofNat (k + 1) a.toNat).toInt))
  | _ => plain 0

/-- NZCV of an ALU result: N [3], Z [2], C [1], V [0] (R307, R377). -/
def nzcvOf (o : AluOut) : BitVec 4 :=
  bitsFrom 4 (fun i => match i with
    | 0 => o.v
    | 1 => o.c
    | 2 => o.r = 0
    | _ => bit o.r 31)

/-! ## The MAC lanes and the writeback (R311, R316, R320, R321) -/

/-- A 32-bit or 16-bit operand read signed or unsigned (R311). -/
def asInt {w : Nat} (signed : Bool) (x : BitVec w) : Int := if signed then x.toInt else (x.toNat : Int)

/-- The product of a lane (R311). -/
def lanePro (two neg xs ys : Bool) (x y : U32) : Int :=
  let p : Int :=
    if two then asInt xs (fd x 0 16) * asInt ys (fd y 0 16) + asInt xs (fd x 16 16) * asInt ys (fd y 16 16)
    else asInt xs x * asInt ys y
  if neg then -p else p

def i80Min : Int := -(2 ^ 79)
def i80Max : Int := 2 ^ 79 - 1

/-- A new accumulator value, and whether it saturates (R316). -/
def accSat (x : Int) : U80 × Bool :=
  (BitVec.ofInt 80 (clampI i80Min i80Max x), decide (x < i80Min) || decide (i80Max < x))

/-- x / 2^k rounded by WRND (R320). -/
def roundShift (mode : BitVec 2) (k : Nat) (x : Int) : Int :=
  if k = 0 then x
  else
    let q := shrI x k
    let rest := x - q * (2 ^ k : Int)
    let half : Int := 2 ^ (k - 1)
    match mode.toNat with
    | 0 => q
    | 1 => shrI (x + half) k
    | 2 => if rest < half then q else if half < rest then q + 1 else if q % 2 = 0 then q else q + 1
    | _ => if x < 0 && rest != 0 then q + 1 else q

/-- The 32-bit value written by WSAT, and whether WSAT changed the value (R321, R322). -/
def reduceSat (mode : BitVec 2) (lo hi : U32) (v : Int) : U32 × Bool :=
  let fit (w : Int) : U32 × Bool := (BitVec.ofInt 32 w, decide (w ≠ v))
  match mode.toNat with
  | 0 => (BitVec.ofInt 32 v, false)
  | 1 => fit (clampI i32Min i32Max v)
  | 2 => fit (clampI (-32768) 32767 v)
  | _ => fit (min (max v lo.toInt) hi.toInt)

/-! ## The binary32 lane (R323-R327) -/

/-- A binary32 operand: a NaN and whether it signals, an infinity, or (-1)^neg * m * 2^e. A subnormal operand is a
zero of its sign (R324). -/
inductive Flt where
  | nan (signals : Bool)
  | inf (neg : Bool)
  | fin (neg : Bool) (m : Nat) (e : Int)
deriving DecidableEq, Repr

def unpackF (x : U32) : Flt :=
  let neg := bit x 31
  let e := (fd x 23 8).toNat
  let m := (fd x 0 23).toNat
  if e = 255 then (if m = 0 then .inf neg else .nan (!bit x 22))
  else if e = 0 then .fin neg 0 0
  else .fin neg (m + 2 ^ 23) ((e : Int) - 150)

/-- A result of the lane with the exceptions that FMAX and the trap see. -/
structure FltOut where
  r : U32
  exc : Bool
deriving DecidableEq, Repr

def fNan : U32 := 0x7FC00000
def fZero (neg : Bool) : U32 := if neg then 0x80000000 else 0
def fInf (neg : Bool) : U32 := if neg then 0xFF800000 else 0x7F800000

/-- Rounding of a magnitude: does a non-zero remainder `rest` of `unit` round the quotient away from zero (R326)? -/
def roundsUp (rm : BitVec 2) (neg : Bool) (odd : Bool) (rest unit : Nat) : Bool :=
  match rm.toNat with
  | 0 => decide (unit < 2 * rest) || (decide (2 * rest = unit) && odd)
  | 1 => false
  | 2 => !neg && rest != 0
  | _ => neg && rest != 0

/-- The magnitude m * 2^e as an integer multiple of 2^t, rounded. -/
def roundTo (rm : BitVec 2) (neg : Bool) (m : Nat) (e t : Int) : Nat :=
  if t ≤ e then m * 2 ^ (e - t).toNat
  else
    let unit := 2 ^ (t - e).toNat
    let q := m / unit
    if roundsUp rm neg (q % 2 = 1) (m % unit) unit then q + 1 else q

/-- (-1)^neg * m * 2^e, m not 0, as a binary32 value: correctly rounded, a subnormal result replaced by a zero of its
sign, with its overflow (R323, R324). -/
def packF (rm : BitVec 2) (neg : Bool) (m : Nat) (e : Int) : FltOut :=
  let top : Int := e + (Nat.log2 m : Nat)
  let t : Int := max (top - 23) (-149)
  let q := roundTo rm neg m e t
  let (q, t) := if q = 2 ^ 24 then (2 ^ 23, t + 1) else (q, t)
  if q < 2 ^ 23 then { r := fZero neg, exc := false }
  else if 104 < t then
    let away := match rm.toNat with
      | 0 => true
      | 1 => false
      | 2 => !neg
      | _ => neg
    { r := if away then fInf neg else fInf neg - 1, exc := true }
  else { r := BitVec.ofNat 32 (b1 neg * 2 ^ 31 + (t + 150).toNat * 2 ^ 23 + (q - 2 ^ 23)), exc := false }

/-- A sum of two exact values, rounded; an exact zero takes the sign of IEEE 754 (R323). -/
def sumF (rm : BitVec 2) (n1 : Bool) (m1 : Nat) (e1 : Int) (n2 : Bool) (m2 : Nat) (e2 : Int) : FltOut :=
  let e := min e1 e2
  let x : Int := (if n1 then -1 else 1) * (m1 * 2 ^ (e1 - e).toNat : Nat)
  let y : Int := (if n2 then -1 else 1) * (m2 * 2 ^ (e2 - e).toNat : Nat)
  let z := x + y
  if z = 0 then
    let neg := if m1 = 0 && m2 = 0 && n1 = n2 then n1 else rm.toNat = 3
    { r := fZero neg, exc := false }
  else packF rm (decide (z < 0)) z.natAbs e

def negF : Flt → Flt
  | .nan s => .nan s
  | .inf n => .inf (!n)
  | .fin n m e => .fin (!n) m e

def isSig : Flt → Bool
  | .nan s => s
  | _ => false

def isNan : Flt → Bool
  | .nan _ => true
  | _ => false

/-- a * b + c with one rounding; `open_` decides whether 0 * infinity with a quiet NaN signals, which IEEE 754 leaves
open. -/
def fmaF (rm : BitVec 2) (open_ : Bool) (a b c : Flt) : FltOut :=
  let bad : FltOut := { r := fNan, exc := true }
  let zero : Flt → Bool := fun x => match x with
    | .fin _ m _ => m = 0
    | _ => false
  let infinite : Flt → Bool := fun x => match x with
    | .inf _ => true
    | _ => false
  let zeroInf := (zero a && infinite b) || (infinite a && zero b)
  if isSig a || isSig b || isSig c then bad
  else if isNan a || isNan b then { r := fNan, exc := false }
  else if isNan c then { r := fNan, exc := zeroInf && open_ }
  else if zeroInf then bad
  else
    let sign : Flt → Bool := fun x => match x with
      | .nan _ => false
      | .inf n => n
      | .fin n _ _ => n
    let n := sign a != sign b
    if infinite a || infinite b then
      if infinite c && sign c != n then bad else { r := fInf n, exc := false }
    else match a, b, c with
      | .fin _ m1 e1, .fin _ m2 e2, .fin n3 m3 e3 => sumF rm n (m1 * m2) (e1 + e2) n3 m3 e3
      | _, _, .inf n3 => { r := fInf n3, exc := false }
      | _, _, _ => bad

/-- a * b, rounded. -/
def mulF (rm : BitVec 2) (a b : Flt) : FltOut :=
  match a, b with
  | .fin n1 m1 e1, .fin n2 m2 e2 =>
    if m1 = 0 || m2 = 0 then { r := fZero (n1 != n2), exc := false } else packF rm (n1 != n2) (m1 * m2) (e1 + e2)
  | _, _ =>
    let z := match a, b with
      | .nan _, _ => fmaF rm false a b (.fin false 0 0)
      | _, .nan _ => fmaF rm false a b (.fin false 0 0)
      | .inf n1, .inf n2 => { r := fInf (n1 != n2), exc := false }
      | .inf n1, .fin n2 m _ => if m = 0 then { r := fNan, exc := true } else { r := fInf (n1 != n2), exc := false }
      | .fin n1 m _, .inf n2 => if m = 0 then { r := fNan, exc := true } else { r := fInf (n1 != n2), exc := false }
      | _, _ => { r := fNan, exc := true }
    z

/-- a + b, rounded. -/
def addF (rm : BitVec 2) (a b : Flt) : FltOut :=
  match a, b with
  | .fin n1 m1 e1, .fin n2 m2 e2 => sumF rm n1 m1 e1 n2 m2 e2
  | .nan x, _ => { r := fNan, exc := x || isSig b }
  | _, .nan y => { r := fNan, exc := y }
  | .inf n1, .inf n2 => if n1 = n2 then { r := fInf n1, exc := false } else { r := fNan, exc := true }
  | .inf n1, _ => { r := fInf n1, exc := false }
  | _, .inf n2 => { r := fInf n2, exc := false }

/-- An operand as a value of the lane's format: subnormals are zeros, NaNs are the one NaN (R324). -/
def canonF (x : U32) : U32 :=
  match unpackF x with
  | .nan _ => fNan
  | .fin n 0 _ => fZero n
  | _ => x

/-- Position of a value that is no NaN in the order -inf ... -0 = +0 ... +inf. -/
def orderF (x : U32) : Int :=
  let c := canonF x
  if bit c 31 then -((fd c 0 31).toNat : Int) else ((fd c 0 31).toNat : Int)

/-- minimumNumber and maximumNumber (R325): -0 is below +0, a number is taken over a NaN. -/
def minMaxF (big : Bool) (x y : U32) : FltOut :=
  let a := unpackF x
  let b := unpackF y
  let exc := isSig a || isSig b
  let r :=
    if isNan a then (if isNan b then fNan else canonF y)
    else if isNan b then canonF x
    else if orderF x = orderF y then (if bit x 31 != big then canonF x else canonF y)
    else if decide (orderF x < orderF y) != big then canonF x else canonF y
  { r := r, exc := exc }

/-- Signed integer times 2^scale as binary32 (R325, FCVTF). -/
def cvtF (rm : BitVec 2) (scale : Int) (x : U32) : FltOut :=
  let i := x.toInt
  if i = 0 then { r := 0, exc := false } else packF rm (decide (i < 0)) i.natAbs scale

/-- binary32 times 2^scale as a signed integer (R325, FCVTI). -/
def cvtI (rm : BitVec 2) (scale : Int) (x : U32) : FltOut :=
  match unpackF x with
  | .nan _ => { r := 0, exc := true }
  | .inf n => { r := if n then 0x80000000 else 0x7FFFFFFF, exc := true }
  | .fin n m e =>
    let q := roundTo rm n m (e + scale) 0
    let i : Int := if n then -(q : Int) else (q : Int)
    { r := BitVec.ofInt 32 (clampI i32Min i32Max i), exc := decide (i < i32Min) || decide (i32Max < i) }

/-- compareQuietOrdered as FCMP reports it (R325). -/
def cmpF (x y : U32) : FltOut :=
  let a := unpackF x
  let b := unpackF y
  let r : U32 :=
    if isNan a || isNan b then 3
    else if orderF x = orderF y then 0
    else if orderF x < orderF y then 1 else 2
  { r := r, exc := isSig a || isSig b }

/-- The operations of the FMA lane but FCLRX (R325). -/
def fmaOp (op : BitVec 4) (rm : BitVec 2) (scale : Int) (open_ : Bool) (x y z : U32) : FltOut :=
  let a := unpackF x
  let b := unpackF y
  let c := unpackF z
  match op.toNat with
  | 0x1 => fmaF rm open_ a b c
  | 0x2 => fmaF rm open_ a b (negF c)
  | 0x3 => fmaF rm open_ (negF a) b c
  | 0x4 => addF rm a b
  | 0x5 => addF rm a (negF b)
  | 0x6 => mulF rm a b
  | 0x7 => minMaxF false x y
  | 0x8 => minMaxF true x y
  | 0x9 => cvtF rm scale x
  | 0xA => cvtI rm scale x
  | 0xB => { r := if isNan a then fNan else canonF x &&& 0x7FFFFFFF, exc := false }
  | 0xC => { r := if isNan a then fNan else canonF x ^^^ 0x80000000, exc := false }
  | 0xD => cmpF x y
  | 0xE =>
    let m := minMaxF true x y
    let r := minMaxF false m.r z
    { r := r.r, exc := m.exc || r.exc }
  | _ => { r := 0, exc := false }

end Sys2Proof.Machine
end

