-- ==== Sys2Proof/Machine/Operands.lean ====
section
/-! DEFINITION. What a word of a thread reads: registers with results still owed (R246-R249), condition inputs (R230),
the fields and operand sources of a nanoword (R305, R306, R312, R329-R330, R342), addresses and who may access them
(R257-R260, R267). -/

namespace Sys2Proof.Machine

/-! ## Registers with results still owed (R246-R249, R255) -/

/-- A read while results are owed: for each of them, in the order in which they land, the value before it or the one
it writes; `k` numbers the free choices (R248). -/
def chooseFrom {α : Type} (k : Nat) (v : α) : List (α → α) → α
  | [] => v
  | f :: t => chooseFrom (k + 1) (if Config.freeBit k then f v else v) t

/-- The owed results in the order in which they land (R249). -/
def landLt (a b : PendWrite) : Bool := decide (a.due < b.due) || (a.due = b.due && decide (a.word ≤ b.word))

def insPw (p : PendWrite) : List PendWrite → List PendWrite
  | [] => [p]
  | q :: t => if landLt q p then q :: insPw p t else p :: q :: t

/-- Adds an owed result; the list stays in landing order. -/
def owe (p : PendWrite) (c : Ctx) : Ctx := { c with pw := insPw p c.pw }

/-- General register r as operand `slot` of a word reads it. -/
def readG (k slot : Nat) (c : Ctx) (r : BitVec 5) : U32 :=
  chooseFrom (k + 64 * slot) (vget c.g r.toNat 0) (c.pw.filterMap (fun p =>
    match p.what with
    | .g q v => if q = r && !p.safe then some (fun _ => v) else none
    | _ => none))

/-- Accumulator j as a read of R246 finds it. -/
def readAcc (k slot : Nat) (c : Ctx) (j : BitVec 2) : U80 :=
  chooseFrom (k + 64 * slot) (vget c.a j.toNat 0) (c.pw.filterMap (fun p =>
    match p.what with
    | .acc q v => if q = j then some (fun _ => v) else none
    | _ => none))

/-- Accumulator j with every accumulation made so far (R315). -/
def newestAcc (c : Ctx) (j : BitVec 2) : U80 :=
  c.pw.foldl (fun v p =>
    match p.what with
    | .acc q w => if q = j then w else v
    | _ => v) (vget c.a j.toNat 0)

def readSat (k slot : Nat) (c : Ctx) (j : BitVec 2) : Bool :=
  chooseFrom (k + 64 * slot) (bit c.sat j.toNat) (c.pw.filterMap (fun p =>
    match p.what with
    | .sat q clr set => if q = j then some (fun b => (b && !clr) || set) else none
    | _ => none))

def readScf (k slot : Nat) (c : Ctx) : Bool :=
  chooseFrom (k + 64 * slot) c.scf (c.pw.filterMap (fun p =>
    match p.what with
    | .scf v => if p.safe then none else some (fun _ => v)
    | _ => none))

def readFmax (k slot : Nat) (c : Ctx) : Bool :=
  chooseFrom (k + 64 * slot) c.fmax (c.pw.filterMap (fun p =>
    match p.what with
    | .fmax v => some (fun _ => v)
    | _ => none))

/-- Writes an owed result to its destination. -/
def landOne (c : Ctx) (p : PendWrite) : Ctx :=
  match p.what with
  | .g r v => { c with g := vset c.g r.toNat v }
  | .acc k v => { c with a := vset c.a k.toNat v }
  | .sat k clr set => { c with sat := setBit c.sat k.toNat ((bit c.sat k.toNat && !clr) || set) }
  | .scf v => { c with scf := v }
  | .fmax v => { c with fmax := v }

/-- Lands the owed results for which `p` holds, in order. -/
def landWhere (p : PendWrite → Bool) (c : Ctx) : Ctx :=
  let hit := c.pw.filter p
  hit.foldl landOne { c with pw := c.pw.filter (fun q => !p q) }

/-- Every result of words issued before lands (R375, R286). -/
def landAll (c : Ctx) : Ctx := landWhere (fun _ => true) c

/-- A write of a general register in fc `now`: it is the later word's result where both land in this fc (R249). -/
def setG (now : Nat) (r : BitVec 5) (v : U32) (c : Ctx) : Ctx :=
  { c with
    g := vset c.g r.toNat v
    pw := c.pw.filter (fun p =>
      match p.what with
      | .g q _ => !(q = r && p.due = now && !p.safe)
      | _ => true) }

/-! ## Condition inputs (R230) -/

/-- Holds a reservation that has not expired (R268, R270). -/
def heldResv (s : State) (c : Ctx) : Option Reservation :=
  match c.resv with
  | some r => if s.clk.fc < r.fc + 256 then some r else none
  | none => none

/-- Condition input i, 0x20 and above, as the units stand (R230). -/
def unitInput (s : State) (i : Nat) : Bool :=
  if i < 0x40 then bit (s.flume (i % 32)).stat 0
  else if i < 0x60 then (s.flume (i % 32)).pb.rdy
  else if i < 0x80 then (s.flume (i % 32)).mb1.new
  else if i < 0xA0 then (s.timer (i % 32)).mata
  else if i < 0xC0 then !(s.rch (i % 32)).rx.isEmpty
  else if i < 0xC8 then gateForcing (s.getGate (i % 8))
  else if i < 0xD0 then false
  else if i < 0xE0 then (s.culCh (i % 16)).en
  else if i < 0xF0 then bit s.seq.scond (i % 16)
  else match i with
    | 0xF0 => s.shut.active
    | 0xF1 => s.outcal.valid
    | 0xF2 => s.link.disc
    | _ => false

/-- The input as a thread with registers c reads it: an effect of its own store stays hidden until a FENCE (R232). -/
def shownInput (s : State) (c : Ctx) (i : Nat) : Bool :=
  let v := unitInput s i
  match c.stale.find? (fun x => x.input.toNat = i) with
  | some x => if v = x.now then x.was else v
  | none => v

/-- Notes the inputs that the thread's own store has changed, from state s to state t (R232). -/
def noteStore (s t : State) (c : Ctx) : Ctx :=
  let changed := ((List.range 0xD3).map (fun k => k + 0x20)).filter (fun i => unitInput s i != unitInput t i)
  let new (i : Nat) : StaleInput := { input := BitVec.ofNat 8 i, was := shownInput s c i, now := unitInput t i }
  { c with stale := (c.stale.filter (fun x => !changed.contains x.input.toNat)
      ++ changed.map new).filter (fun x => x.was != x.now) }

/-- An input that has changed again since the store shows as it is (R232). -/
def freshInputs (s : State) (c : Ctx) : Ctx :=
  { c with stale := c.stale.filter (fun x => unitInput s x.input.toNat = x.now) }

/-- Condition input `cond` for thread n with registers c (R230). -/
def condInput (s : State) (k slot : Nat) (c : Ctx) (cond : BitVec 8) : Bool :=
  let nf := bit c.nzcv 3
  let zf := bit c.nzcv 2
  let cf := bit c.nzcv 1
  let vf := bit c.nzcv 0
  let i := cond.toNat
  if i < 0x10 then
    match i with
    | 0x00 => true
    | 0x01 => zf
    | 0x02 => !zf
    | 0x03 => cf
    | 0x04 => !cf
    | 0x05 => nf
    | 0x06 => !nf
    | 0x07 => vf
    | 0x08 => !vf
    | 0x09 => cf && !zf
    | 0x0A => !cf || zf
    | 0x0B => nf = vf
    | 0x0C => nf != vf
    | 0x0D => !zf && nf = vf
    | 0x0E => zf || nf != vf
    | _ => false
  else if i < 0x14 then bit (readAcc k slot c (BitVec.ofNat 2 i)) 79
  else if i < 0x18 then readSat k slot c (BitVec.ofNat 2 i)
  else if i < 0x20 then
    match i with
    | 0x18 => (heldResv s c).isSome
    | 0x19 => readScf k slot c
    | 0x1A => c.wto
    | 0x1B => c.hw.isEmpty && c.rsp = c.rslo
    | 0x1C => readFmax k slot c
    | _ => false
  else shownInput s c i

/-- What a read of a condition input reads, for the distance check (R246, R252). -/
def condReads (cond : BitVec 8) : List Prod :=
  let i := cond.toNat
  if 0x10 ≤ i && i < 0x14 then [.acc (BitVec.ofNat 2 i)]
  else if 0x14 ≤ i && i < 0x18 then [.sat (BitVec.ofNat 2 i)]
  else if i = 0x19 then [.scf]
  else if i = 0x1C then [.fmax]
  else []

/-! ## An operation word -/

/-- An operation microword, its nanoword, the number of its first free choice, and the registers as it finds them. -/
structure Op where
  w : U32
  nw : BitVec 256
  k : Nat
  c : Ctx
deriving DecidableEq, Repr

def Op.index (o : Op) : BitVec 12 := fd o.w 19 12
def Op.dst (o : Op) : BitVec 5 := fd o.w 14 5
def Op.sa (o : Op) : BitVec 5 := fd o.w 9 5
def Op.sb (o : Op) : BitVec 5 := fd o.w 4 5
def Op.mod (o : Op) : BitVec 4 := fd o.w 0 4
def Op.imm (o : Op) : U32 := fd o.nw 224 32
def Op.flags (o : Op) : BitVec 2 := fd o.nw 0 2
def Op.modsel (o : Op) : BitVec 3 := fd o.nw 2 3
def Op.trap (o : Op) : Bool := bit o.nw 5
def Op.long (o : Op) : BitVec 2 := fd o.nw 6 2

/-- Read of general register r as operand `slot`. -/
def Op.g (o : Op) (slot : Nat) (r : BitVec 5) : U32 := readG o.k slot o.c r

/-- The register that an operand code names (R306). -/
def Op.srcReg (o : Op) (code : BitVec 3) : Option (BitVec 5) :=
  match code.toNat with
  | 0 => some o.sa
  | 1 => some o.sb
  | 2 => some o.dst
  | 4 => some (o.sa + 1)
  | 5 => some (o.sb + 1)
  | _ => none

/-- The operand that a code selects (R306). -/
def Op.src (o : Op) (slot : Nat) (code : BitVec 3) : U32 :=
  match o.srcReg code with
  | some r => o.g slot r
  | none =>
    match code.toNat with
    | 3 => o.imm
    | 7 => o.mod.zeroExtend 32
    | _ => 0

/-- The register that A0D, A1D and FD name (R309). -/
def Op.destReg (o : Op) (code : BitVec 2) : Option (BitVec 5) :=
  match code.toNat with
  | 1 => some o.dst
  | 2 => some (o.dst + 1)
  | 3 => some o.sa
  | _ => none

/-! ### Fields that MOD changes (R342) -/

/-- CFL and EOUT, with MOD under MODSEL 0b010. -/
def Op.cfl (o : Op) : Nat := (fd o.nw 137 5).toNat + (if o.modsel = 2 then o.mod.toNat else 0)
def Op.eout (o : Op) : Nat := (fd o.nw 149 7).toNat + (if o.modsel = 2 then o.mod.toNat else 0)
/-- WRND and FRND, with MOD under MODSEL 0b100. -/
def Op.wrnd (o : Op) : BitVec 2 := if o.modsel = 4 then fd o.mod 0 2 else fd o.nw 81 2
def Op.frnd (o : Op) : BitVec 2 := if o.modsel = 4 then fd o.mod 0 2 else fd o.nw 100 2
/-- EVN, with MOD under MODSEL 0b101. -/
def Op.evn (o : Op) : BitVec 6 := if o.modsel = 5 then fd o.nw 165 2 ++ o.mod else fd o.nw 161 6
/-- The accumulator that lane k works into. -/
def Op.laneAcc (o : Op) (k : Nat) : BitVec 2 :=
  BitVec.ofNat 2 (k + (if o.modsel = 3 then (fd o.mod 0 2).toNat else 0))

/-! ### Lanes (R305, R312) -/

def Op.lane (o : Op) (k : Nat) : BitVec 9 := fd o.nw (34 + 9 * k) 9
def laneMop (l : BitVec 9) : BitVec 2 := fd l 0 2
def laneNeg (l : BitVec 9) : Bool := bit l 2
def laneXs (l : BitVec 9) : BitVec 2 := fd l 3 2
def laneYs (l : BitVec 9) : BitVec 2 := fd l 5 2
def laneAdd (l : BitVec 9) : BitVec 2 := fd l 7 2

/-- A lane multiplies. -/
def laneMul (l : BitVec 9) : Bool := laneMop l = 1 || laneMop l = 2

def Op.laneXReg (o : Op) (k : Nat) : Option (BitVec 5) :=
  match (laneXs (o.lane k)).toNat with
  | 0 => some (o.sa + BitVec.ofNat 5 k)
  | 1 => some o.sa
  | 2 => some (o.sa + 1)
  | _ => none

def Op.laneYReg (o : Op) (k : Nat) : Option (BitVec 5) :=
  match (laneYs (o.lane k)).toNat with
  | 0 => some (o.sb + BitVec.ofNat 5 k)
  | 1 => some o.sb
  | 2 => some (o.sb + 1)
  | _ => none

/-! ### The load/store port (R328-R330, R342) -/

def Op.lsop (o : Op) : BitVec 2 := fd o.nw 108 2
def Op.lsz (o : Op) : BitVec 3 := fd o.nw 110 3
def Op.lbase (o : Op) : BitVec 2 := fd o.nw 113 2
def Op.lam (o : Op) : BitVec 2 := fd o.nw 115 2

/-- Access size in bytes of a size code (R328). -/
def lsSize (z : BitVec 3) : Nat :=
  match z.toNat with
  | 0 => 1
  | 1 => 2
  | 2 => 4
  | 3 => 8
  | 4 => 16
  | 5 => 1
  | 6 => 2
  | _ => 4

def Op.baseReg (o : Op) : Option (BitVec 5) :=
  match o.lbase.toNat with
  | 0 => some o.sa
  | 1 => some o.sb
  | 2 => some 31
  | _ => none

def Op.base (o : Op) : U32 :=
  match o.baseReg with
  | some r => o.g 7 r
  | none => o.imm

def Op.loff (o : Op) : U32 := (fd o.nw 117 12).signExtend 32

/-- The access address (R330, R342). -/
def Op.addr (o : Op) : U32 :=
  let extra : U32 := if o.modsel = 1 then BitVec.ofNat 32 (o.mod.toNat * lsSize o.lsz) else 0
  match o.lam.toNat with
  | 0 => o.base + o.loff + extra
  | 2 => o.base + o.loff + extra
  | _ => o.base

/-- The new base value, where the mode changes it (R330). -/
def Op.newBase (o : Op) : Option U32 :=
  let low : U32 := BitVec.ofNat 32 (2 ^ (fd o.nw 129 5).toNat - 1)
  match o.lam.toNat with
  | 0 => none
  | 3 => some ((o.base &&& ~~~low) ||| ((o.base + o.loff) &&& low))
  | _ => some (o.base + o.loff)

/-- X, the first register of the data group (R329). -/
def Op.x (o : Op) : BitVec 5 :=
  match (fd o.nw 134 2).toNat with
  | 0 => o.dst
  | 1 => o.sa
  | 2 => o.sb
  | _ => o.dst + 4

/-- Registers that an access of that size code moves. -/
def lsRegs (z : BitVec 3) (x : BitVec 5) : List (BitVec 5) :=
  match z.toNat with
  | 3 => [x, x + 1]
  | 4 => [x, x + 1, x + 2, x + 3]
  | _ => [x]

/-- The register values that loaded bytes give (R328). -/
def lsValues (z : BitVec 3) (x : BitVec 5) (l : List Byte) : List (BitVec 5 × U32) :=
  match z.toNat with
  | 0 => [(x, ofLE 32 (l.take 1))]
  | 1 => [(x, ofLE 32 (l.take 2))]
  | 5 => [(x, (ofLE 8 (l.take 1)).signExtend 32)]
  | 6 => [(x, (ofLE 16 (l.take 2)).signExtend 32)]
  | _ => (lsRegs z x).zipIdx.map (fun p => (p.1, ofLE 32 ((l.drop (4 * p.2)).take 4)))

/-- The bytes that a store takes from the data group. -/
def Op.storeBytes (o : Op) : List Byte :=
  (((lsRegs o.lsz o.x).zipIdx).flatMap (fun p => bytesLE (o.g (8 + p.2) p.1) 4)).take (lsSize o.lsz)

/-! ### The predicate (R343) -/

def Op.pen (o : Op) : Bool := bit o.nw 176
def Op.pcond (o : Op) : BitVec 8 := fd o.nw 167 8

/-- The word acts: it is not predicated, a step of it has passed its predicate, or its condition holds (R343, R346). -/
def Op.acts (o : Op) (s : State) : Bool :=
  !o.pen || (o.long != 0 && (o.c.long.isSome || o.c.prog != 0)) || (condInput s o.k 38 o.c o.pcond != bit o.nw 175)

/-! ## Addresses (R257) -/

/-- Where a sequencer address lies. -/
inductive Region where
  | data
  | regs
  | member
  | nvm
  | host
  | none
deriving DecidableEq, Repr

def regionOf (a : U32) : Region :=
  let n := a.toNat
  if n < 0x100000 then .data
  else if 0x10000000 ≤ n && n < 0x10100000 then .regs
  else if 0x10100000 ≤ n && n < 0x10800000 then .member
  else if 0x20000000 ≤ n && n < 0x22000000 then .nvm
  else if 0x80000000 ≤ n then .host
  else .none

/-- The 8-byte loads of R90 and R197: GAUGE_LO with GAUGE_HI, MBT with MB1. -/
def pairLoad (a : U32) : Bool :=
  let n := a.toNat
  n = 0x10006000 || (decide (0x10009000 ≤ n) && decide (n < 0x10009800) && n % 0x40 = 0x24)

/-- The size is allowed there (R257). -/
def sizeOk (a : U32) (size : Nat) (store : Bool) : Bool :=
  match regionOf a with
  | .data => true
  | .regs => size = 4 || (size = 8 && !store && pairLoad a)
  | .member => size = 4
  | .nvm => !store && decide (4 ≤ size)
  | .host => true
  | .none => false

def aligned (a : U32) (size : Nat) (store : Bool) : Bool :=
  a.toNat % size = 0 || (size = 8 && !store && pairLoad a && a.toNat % 4 = 0)

/-- R267: a thread at privilege `priv` may access the register at that offset. -/
def regAllowed (priv : BitVec 2) (off : Nat) (store : Bool) : Bool :=
  isMach priv ||
  (let sup := priv = 1
   let within (lo hi : Nat) : Bool := decide (lo ≤ off) && decide (off ≤ hi)
   if within 0x6100 0xBFFF || within 0x22804 0x2280F then true
   else if within 0x21000 0x21FFF && off % 0x100 / 4 = 9 then !store
   else if within 0xE000 0x1FFFF || within 0x22000 0x22803 || within 0x26000 0x26FFF then !store
   else if within 0x40000 0x7FFFF then false
   else sup || !store)

/-- HWIN as an access issued in this fc finds it: a write of this fc applies from the next fc on (R297). -/
def hwinNow (s : State) : BitVec 17 := if s.seq.hwinAt = s.clk.fc + 1 then s.seq.hwinOld else s.seq.hwin

/-- The host address behind a sequencer address, for an access issued in this fc (R260). -/
def hostAddr (s : State) (a : U32) : U48 :=
  BitVec.ofNat 48 ((hwinNow s).toNat * 2 ^ 31 + (a.toNat - 0x80000000))

end Sys2Proof.Machine
end

