-- ==== Sys2Proof/Machine/Threads.lean ====
section
/-! DEFINITION. Taking an entry and returning from it: the return stack, the status word, entries through the descriptor
table, the spillway, the dry state, the monitor, and the exception return (05, 07, 19). -/

namespace Sys2Proof.Machine

/-! ## Boundaries and what they save (R373, R377, R378, R382-R388) -/

/-- A boundary at which imprecise entries, events, halts and stops are allowed (R373). -/
def boundaryOpen (c : Ctx) : Bool :=
  c.ds.isNone && c.msh.isNone &&
  (match c.rep with
   | some r => !r.first && !r.repn
   | none => true)

/-- The status word (R377). -/
def statusWord (c : Ctx) (ds repn : Bool) (repc prog : Nat) : U32 :=
  pk [(0, c.nzcv.toNat), (4, c.priv.toNat), (6, c.mask.toNat), (9, b1 c.msh.isSome), (10, b1 ds), (11, b1 repn),
    (12, repc % 256), (20, prog % 4096)]

/-- THR[n].STATUS (R290): the present status word. REPC has 8 bits, so before the first repetition of 256 it shows 0 (DESIGN
CHOICE, log entry 36). -/
def statusNow (c : Ctx) : U32 :=
  match c.rep with
  | some r => statusWord c c.ds.isSome r.repn r.left c.prog.toNat
  | none => statusWord c c.ds.isSome false c.resume.toNat c.prog.toNat

/-- Return address and status of an entry between words (R386, R388). -/
def resumePoint (c : Ctx) : U16 × U32 :=
  match c.rep with
  | some r => (r.addr, statusWord c false r.repn (if r.left < 256 then r.left else 0) 0)
  | none => (c.pc, statusWord c false false c.resume.toNat c.prog.toNat)

/-- Return address and status of a fault of the next word (R366, R382, R383, R387, R388). -/
def faultPoint (c : Ctx) : U16 × U32 :=
  match c.ds with
  | some d => (d.branch, statusWord c true false 0 0)
  | none =>
    match c.rep with
    | some r =>
      if r.left ≤ 1 then (c.pc + 1, statusWord c false false 0 0)
      else (r.addr, statusWord c false r.repn (r.left - 1) 0)
    | none => (c.pc, statusWord c false false c.resume.toNat c.prog.toNat)

/-- Return address and status of a monitor entry before the next word (R861): that word has still to issue. -/
def monitorPoint (c : Ctx) : U16 × U32 :=
  match c.ds with
  | some d => (d.branch, statusWord c true false 0 0)
  | none => resumePoint c

/-- What a branch did to the return stack is undone when its slot faults (R382). -/
def undoSlot (c : Ctx) : Ctx :=
  match c.ds with
  | some d =>
    match d.undo with
    | .nothing => c
    | .pushed => { c with hw := c.hw.dropLast }
    | .popped a => { c with hw := c.hw ++ [a] }
  | none => c

/-- The reservation, a repeat, a long word, a slot and a MODE shadow end at an entry (R375, R861). -/
def clearFlow (c : Ctx) : Ctx :=
  { c with resv := none, ds := none, msh := none, rep := none, long := none, prog := 0, resume := 0, ret := none }

/-- What an entry finds of the words before it: their results are written, and its first word reads them without a distance
(R375). -/
def entryFlow (c : Ctx) : Ctx := { clearFlow (landAll c) with prod := [] }

/-! ## The return stack (R233-R237) -/

def needsSpill (c : Ctx) : Bool := decide (16 ≤ c.hw.length)

/-- The vector of a push that cannot be made (R236, R363). -/
def pushFault (s : State) (c : Ctx) : Option (BitVec 6) :=
  if !needsSpill c then none
  else if (if c.rshi = 0 then 65536 else c.rshi.toNat) < c.rsp.toNat + 1 then some 6
  else if inExcTable s (16 * c.rsp.toNat) 16 && !isMach c.priv then some 3
  else none

/-- Pushes a return address, with its spill (R226, R233). RSP holds 16 row bits, so a spill into the last row of data memory leaves
row 0 in it (DESIGN CHOICE, log entry 36). -/
def pushRet (n : Nat) (a : U16) (s : State) : State :=
  let c := (s.thr n).ctx
  let s :=
    if needsSpill c then
      let s := storeThread (16 * c.rsp.toNat) ((c.hw.take 8).flatMap (fun h => bytesLE h 2)) s
      s.modCtx n (fun c => { c with rsp := c.rsp + 1, hw := c.hw.drop 8 })
    else s
  s.modCtx n (fun c => { c with hw := c.hw ++ [a] })

def needsFill (c : Ctx) : Bool := c.hw.isEmpty

/-- The vector and address of a pop that cannot be made (R236, R237). -/
def popFault (s : State) (c : Ctx) : Option (BitVec 6 × U32) :=
  if !needsFill c then none
  else if c.rsp ≤ c.rslo then some (6, 0)
  else if marked (c.rsp.toNat - 1) s.mem.badRow then some (5, BitVec.ofNat 32 (16 * (c.rsp.toNat - 1)))
  else none

/-- The return stack after its fill (R234). -/
def filled (s : State) (c : Ctx) : Ctx :=
  if needsFill c then
    let row := dataRow s (c.rsp.toNat - 1)
    { c with rsp := c.rsp - 1, hw := (List.range 8).map (fun i => fd row (16 * i) 16) }
  else c

/-! ## Dry state and spillway (R389-R393) -/

/-- The thread leaves safe mode. -/
def leaveSafe (n : Nat) (s : State) : State :=
  let s := s.modThr n (fun t => { t with safe := false })
  if s.seq.safeThr = some (BitVec.ofNat 4 n) then { s with seq := { s.seq with safeThr := none } } else s

/-- A fault in the spillway (R392). -/
def goDry (n : Nat) (s : State) : State :=
  let s := s.modThr n (fun t => { t with run := .dry, escal := none })
  let s := leaveSafe n s
  schedule (raise (312 + n) s) (s.clk.fc + 1) 95 (.dryShut (BitVec.ofNat 4 n))

/-- The status word can be stored at `sp` (R238, R257, R258, R262, R363). -/
def statusStoreOk (s : State) (c : Ctx) (sp dsl : U32) : Bool :=
  sp.toNat % 4 = 0 && regionOf sp = .data && decide (dsl ≤ sp) && !partBad s sp.toNat 4
    && (isMach c.priv || !inExcTable s sp.toNat 4)

/-- Stack registers loaded with a region of `rows` rows from `base`, kept when there are none (R376, R390). -/
def withRegion (base : U16) (rows : BitVec 12) (c : Ctx) : Ctx :=
  if rows = 0 then c else { c with rsp := base, rslo := base, rshi := base + rows.zeroExtend 16 }

/-- A stack register as XCTX and SPX hold it (R291). -/
def rowWord (r : U16) : U32 := r.zeroExtend 32 <<< 4

/-- g31, RSP, RSLO, RSHI and DSL. -/
def stackWords (c : Ctx) : Vector U32 5 :=
  #v[vget c.g 31 0, rowWord c.rsp, rowWord c.rslo, rowWord c.rshi, c.dsl]

def loadStacks (v : Vector U32 5) (c : Ctx) : Ctx :=
  { c with
    g := vset c.g 31 (vget v 0 0)
    rsp := fd (vget v 1 0) 4 16
    rslo := fd (vget v 2 0) 4 16
    rshi := fd (vget v 3 0) 4 16
    dsl := vget v 4 0 }

/-- The thread issues its first word of an entry decided now `wait` fc from now; a spill parks it for 2 fc more (R235, R375). -/
def holdEntry (n wait : Nat) (spills : Bool) (s : State) : State :=
  let at_ := s.clk.fc + wait
  s.modThr n (fun t =>
    if spills then { t with run := .parked (.until (at_ + 2)), holdUntil := at_ + 2 }
    else { t with run := .ready, holdUntil := at_ })

/-- Enters the spillway (R389, R390); a fault in a step of it leaves the thread dry (R392). -/
def enterSpillway (n : Nat) (e : Escalation) (s : State) : State :=
  let k := BitVec.ofNat 4 n
  let s := s.modThr n (fun t => { t with
    escal := none, safe := true, spill := true, run := .ready, xvec := e.vec, xpc := e.xpc, xaddr := e.xaddr })
  let s := raise (312 + n) { s with seq := { s.seq with
    safeThr := some k, spActive := true, spThr := k, spVec := e.vec, spCount := satInc s.seq.spCount
    spx := stackWords (landAll (s.thr n).ctx) } }
  let s := s.modCtx n (fun c =>
    let c := withRegion s.seq.spillBase s.seq.spillRows (entryFlow c)
    { c with g := vset c.g 31 s.seq.spilldsp, dsl := s.seq.spilldsl, priv := 3 })
  let c := (s.thr n).ctx
  let sp := s.seq.spilldsp - 4
  if (pushFault s c).isSome || !statusStoreOk s c sp c.dsl then goDry n s
  else
    let slow := needsSpill c
    let s := pushRet n e.ret s
    let s := storeThread sp.toNat (bytesLE e.status 4) s
    holdEntry n 4 slow (s.modCtx n (fun c => { c with g := vset c.g 31 sp, mask := 7, pc := s.seq.spillpc }))

/-- An entry that escalates: at once where safe mode is free, otherwise it waits (R254, R374, R389, R392). -/
def escalate (n : Nat) (e : Escalation) (s : State) : State :=
  if (s.thr n).spill then goDry n s
  else if s.seq.safeThr.isNone || s.seq.safeThr = some (BitVec.ofNat 4 n) then enterSpillway n e s
  else s.modThr n (fun t => { t with
    ctx := entryFlow t.ctx, run := .ready, escal := some e, xvec := e.vec, xpc := e.xpc, xaddr := e.xaddr })

/-! ## Entries through the descriptor table (R370-R376) -/

/-- The descriptor is invalid for thread n at privilege `priv` (R372). -/
def badDescriptor (n : Nat) (priv : BitVec 2) (d : Row) : Bool :=
  let npriv : BitVec 2 := fd d 16 2
  let ndsp := (fd d 32 32).toNat
  let rows := (fd d 84 12).toNat
  !bit d 31 || fd d 24 7 != 0 || fd d 64 4 != 0 || npriv = 2 || decide (npriv < priv)
    || (npriv = 3 && n != 15)
    || (decide ((fd d 0 16).toNat < 8192) && npriv != 3)
    || (ndsp != 0 && (ndsp % 4 != 0 || decide (0x100000 < ndsp)))
    || (rows != 0 && decide (65536 < (fd d 68 16).toNat + rows))

/-- The descriptor of a vector. -/
def descriptor (s : State) (vec : BitVec 6) : Row := dataRow s (excTable s / 16 + vec.toNat)

/-- The entry without escalation: stacks, return address, status, privilege, mask, DEPTH (R375, R376); none when it
escalates (R374). The return address goes to the stack that the entry switches to (R376). -/
def tableEntry (n : Nat) (isFault : Bool) (e : Escalation) (s : State) : Option State :=
  let d := descriptor s e.vec
  let t := s.thr n
  let c0 := entryFlow t.ctx
  let switch := t.depth = 0 && fd d 32 32 != 0
  let c1 := if switch then
      withRegion (fd d 68 16) (fd d 84 12) { c0 with g := vset c0.g 31 (fd d 32 32), dsl := fd d 96 32 }
    else c0
  let sp := vget c1.g 31 0 - 4
  if marked (excTable s / 16 + e.vec.toNat) s.mem.badRow || badDescriptor n t.ctx.priv d
      || (isFault && decide (fd d 21 3 ≤ t.ctx.mask)) || t.depth = 255
      || (pushFault s c1).isSome || !statusStoreOk s c1 sp c1.dsl then none
  else
    let s := pushRet n e.ret (s.modCtx n (fun _ => c1))
    let s := storeThread sp.toNat (bytesLE e.status 4) s
    some (holdEntry n 4 (needsSpill c1) (s.modThr n (fun t => { t with
      ctx := { t.ctx with
        g := vset t.ctx.g 31 sp, priv := fd d 16 2, mask := if c1.mask < fd d 18 3 then fd d 18 3 else c1.mask
        pc := fd d 0 16 }
      depth := t.depth + 1
      xsw := t.xsw || switch
      xctx := if switch then stackWords c0 else t.xctx
      xvec := e.vec, xpc := e.xpc, xaddr := e.xaddr })))

/-- TAKING AN EXCEPTION: an entry of thread n decided at this boundary (R366, R374, R375). -/
def takeEntry (n : Nat) (isFault : Bool) (e : Escalation) (s : State) : State :=
  if isFault && (s.thr n).spill then goDry n s
  else if isFault && (s.thr n).mon then escalate n e s
  else match tableEntry n isFault e s with
    | some s => s
    | none => escalate n e s

/-- A precise fault of the next word (R366, R382). -/
def takeFault (n : Nat) (vec : BitVec 6) (addr : U32) (s : State) : State :=
  let c := (s.thr n).ctx
  let p := faultPoint c
  let s := s.modCtx n undoSlot
  takeEntry n true { vec := vec, ret := p.1, status := p.2, xpc := c.pc, xaddr := addr } s

/-! ## The monitor (R860-R866) -/

/-- Enters the monitor before the next word (R861). -/
def enterMonitor (n : Nat) (cause : BitVec 4) (cmp : BitVec 3) (s : State) : State :=
  let c := (s.thr n).ctx
  let p := monitorPoint c
  let s := s.modThr n (fun t => { t with
    ctx := { clearFlow (undoSlot t.ctx) with priv := 3, pc := 8 }
    run := .ready, mon := true, halt := false, cause := cause, cmp := cmp, mpc := p.1, mstat := p.2
    stepWords := 0, holdUntil := s.clk.fc + 2, part0 := none, part1 := none })
  wdogFreeze (raise (312 + n) s)

/-- The word of the microstore is a MODE. -/
def isModeWord (w : U32) : Bool := fd w 27 5 = 0x19

/-- The shadow of a MODE word with `left` words to go (R273). -/
def modeShadow (w : U32) (left : BitVec 2) : ModeShadow :=
  { left := left, setp := bit w 21, priv := fd w 25 2, setm := bit w 20, mask := fd w 22 3 }

def microWord (s : State) (a : U16) : U32 := sget 0 a.toNat s.mem.micro

/-- The MODE that a returned status with MSH = 1 applies again (R384). -/
def modeAgain (s : State) (pc : U16) : Option ModeShadow :=
  if isModeWord (microWord s (pc - 1)) then some (modeShadow (microWord s (pc - 1)) 2)
  else if isModeWord (microWord s (pc - 2)) then some (modeShadow (microWord s (pc - 2)) 1)
  else none

/-- RETURNING FROM AN EXCEPTION: the part of the return that comes about when the word at the return address issues
(R379, R384, R391, R863). -/
def applyRet (n : Nat) (s : State) : State :=
  let t := s.thr n
  match t.ctx.ret with
  | some ⟨st, false⟩ =>
    let s := s.modThr n (fun t => { t with
      ctx := { t.ctx with
        nzcv := fd st 0 4, priv := fd st 4 2, mask := fd st 6 3, resume := fd st 12 8, prog := fd st 20 12
        ret := none, msh := if bit st 9 then modeAgain s t.ctx.pc else none }
      passOver := true })
    if t.spill then
      let s := s.modThr n (fun t => { t with spill := false, ctx := loadStacks s.seq.spx t.ctx })
      leaveSafe n { s with seq := { s.seq with spActive := false } }
    else if t.mon then
      wdogFreeze (s.modThr n (fun t =>
        { t with mon := false, resume := false, stepWords := if t.step then 1 else 0 }))
    else
      let d := t.depth - 1
      let s := s.modThr n (fun t =>
        let c := { t.ctx with g := vset t.ctx.g 31 (vget t.ctx.g 31 0 + 4) }
        if d = 0 && t.xsw then { t with depth := d, xsw := false, ctx := loadStacks t.xctx c }
        else { t with depth := d, ctx := c })
      endServices n d.toNat s
  | _ => s

/-- The return from the monitor (R863, R864). -/
def returnMonitor (n : Nat) (s : State) : State :=
  let t := s.thr n
  if t.mon && !t.spill then
    applyRet n (s.modThr n (fun t => { t with
      ctx := { clearFlow (undoSlot t.ctx) with pc := t.mpc, ret := some { status := t.mstat, slot := false } } }))
  else s

/-- The debugger lets a thread out of the monitor, as a return with STEP = 0 does (R839, R850). -/
def releaseMonitor (n : Nat) (s : State) : State :=
  returnMonitor n (if (s.thr n).mon then s.modThr n (fun t => { t with step := false }) else s)

/-! ## Thread reset (R286, R393, R399) -/

/-- The reset of one thread. A load it is parked on is still owed to its destination, and so is a load of safe mode, at its time
(R247). -/
def resetThread (n : Nat) (s : State) : State :=
  let s := leaveSafe n { s with due := s.due ++ (s.thr n).heldActs }
  let s := s.modThr n (fun t => { t with
    ctx := { clearFlow t.ctx with
      hw := [], prod := [], pc := pcShown t
      pw := t.ctx.pw.map (fun (p : PendWrite) => { p with safe := false }) }
    owing := match t.run with
      | .parked p => (match p with | .load _ _ _ _ _ => some p | _ => t.owing)
      | _ => t.owing
    owingAddr := match t.run with
      | .parked _ => t.haddr
      | _ => t.owingAddr
    run := .stopped, escal := none, before := none, stopReq := false
    imp5 := none, imp11 := [], imp12 := none, heldActs := [], heldImp := []
    issue := 0, depth := 0, xsw := false, spill := false, mon := false, stepWords := 0 })
  wdogFreeze (endThreadServices n s)

end Sys2Proof.Machine
end

