-- ==== Sys2Proof/Machine/Datapath.lean ====
section
/-! DEFINITION. Operation words: their legality (R356), their faults in the order of R368, the comparators they match
(R856-R859), and what their units do (06). -/

namespace Sys2Proof.Machine

/-! ## Legality (R356) -/

/-- The nanoword is illegal for this microword. -/
def Op.illegal (o : Op) : Bool :=
  let nw := o.nw
  let lane (k : Nat) : BitVec 9 := o.lane k
  let lcirc := (fd nw 129 5).toNat
  let cwe := bit nw 136
  let cseal := bit nw 147
  let epe := bit nw 148
  let ets : BitVec 2 := fd nw 158 2
  fd nw 182 42 != 0 || o.flags = 3 || o.long = 3
    || decide (0x17 ≤ (fd nw 8 5).toNat) || decide (0x17 ≤ (fd nw 21 5).toNat)
    || decide (2 ≤ (laneAdd (lane 0)).toNat) || decide (2 ≤ (laneAdd (lane 2)).toNat)
    || (List.range 4).any (fun k => laneMop (lane k) = 3 && fd (lane k) 2 7 != 0)
    || o.lsop = 3 || o.lsz = 7 || (o.lbase = 3 && o.lam != 0)
    || (o.lam = 3 && (decide (lcirc < 4) || decide (20 < lcirc))) || (lcirc != 0 && o.lam != 3)
    || (fd nw 145 2 = 2 && fd nw 72 3 = 0) || ets = 3 || decide (6 ≤ o.modsel.toNat)
    || (o.modsel = 3 && fd o.mod 2 2 != 0)
    || (decide (31 < o.cfl) && (cwe || cseal || (epe && ets = 2)))
    || (decide (95 < o.eout) && epe)
    || (o.long = 2 && (o.lsop != 0 || cwe || epe))

/-- The word names a base-library template that is private to the headworks (R357). -/
def Op.private_ (o : Op) : Bool := decide (0x2C0 ≤ o.index.toNat) && decide (o.index.toNat ≤ 0x3FF)

/-! ## What the word reads (R246, R252) -/

/-- ALU0's result is used: written, for flags, or forwarded (R303). -/
def Op.usesAlu0 (o : Op) : Bool :=
  fd o.nw 19 2 != (0 : BitVec 2) || o.flags = 1
    || (List.range 4).any (fun k => laneMul (o.lane k) && laneXs (o.lane k) = 3)
    || (bit o.nw 136 && fd o.nw 145 2 = (1 : BitVec 2))

def Op.usesAlu1 (o : Op) : Bool := fd o.nw 32 2 != (0 : BitVec 2) || o.flags = 2

/-- FOP reads that many operands. -/
def fopArity (op : BitVec 4) : Nat :=
  match op.toNat with
  | 0x0 => 0
  | 0x1 => 3
  | 0x2 => 3
  | 0x3 => 3
  | 0x9 => 1
  | 0xA => 1
  | 0xB => 1
  | 0xC => 1
  | 0xE => 3
  | 0xF => 0
  | _ => 2

/-- The lanes whose accumulators WBSEL writes, with the registers they go to (R319). -/
def Op.wbList (o : Op) : List (Nat × BitVec 5) :=
  match (fd o.nw 72 3).toNat with
  | 0 => []
  | 5 => [(1, o.dst), (3, o.dst + 1)]
  | 6 => [(0, o.dst), (1, o.dst + 1)]
  | 7 => (List.range 4).map (fun k => (k, o.dst + BitVec.ofNat 5 k))
  | n => [(n - 1, o.dst)]

/-- General registers, accumulators, flags and rows that the word reads. -/
def Op.reads (o : Op) (s : State) : List Prod :=
  let reg (r : Option (BitVec 5)) : List Prod := match r with
    | some r => [.g r]
    | none => []
  let pred : List Prod := if o.pen && !(o.long != 0 && (o.c.long.isSome || o.c.prog != 0)) then condReads o.pcond else []
  if !o.acts s then pred
  else
    let code (lo : Nat) : List Prod := reg (o.srcReg (fd o.nw lo 3))
    let alu0 := if o.usesAlu0 then code 13 ++ code 16 else []
    let alu1 := if o.usesAlu1 then code 26 ++ code 29 else []
    let fma := ((List.range (fopArity (fd o.nw 85 4))).flatMap (fun i => code (89 + 3 * i)))
    let lanes := (List.range 4).flatMap (fun k =>
      let l := o.lane k
      if laneMul l then
        reg (o.laneXReg k) ++ reg (o.laneYReg k)
          ++ (if laneAdd l = 3 && laneMop (o.lane (k - 1)) = 0 then [.acc (o.laneAcc (k - 1))] else [])
      else if laneMop l = 3 then [.g o.sa, .g (o.sa + 1), .g o.sb] else [])
    let wb := o.wbList.flatMap (fun p => if laneMop (o.lane p.1) = 0 then [Prod.acc (o.laneAcc p.1)] else [])
    let clamp := if o.wbList != [] && fd o.nw 83 2 = (3 : BitVec 2) then [Prod.g (o.sb + 2), .g (o.sb + 3)] else []
    let ls := if o.lsop = 0 then [] else
      reg o.baseReg ++ (if o.lsop = 2 then (lsRegs o.lsz o.x).map Prod.g else
        if regionOf o.addr = .data then [.row (BitVec.ofNat 16 (o.addr.toNat / 16))] else [])
    let cds := if bit o.nw 136 && fd o.nw 145 2 = (0 : BitVec 2) then [Prod.g o.dst] else []
    let edge := if bit o.nw 148 then
      (if fd o.nw 158 2 = (0 : BitVec 2) then [Prod.g o.sb, .g (o.sb + 1)] else [.g o.sb]) else []
    let long := if o.long != 0 && o.c.long.isNone then reg (some (fd o.nw 177 5)) else []
    let move := if o.long = 2 then
      [Prod.g o.sa, .g o.sb, .row (BitVec.ofNat 16 ((o.g 40 o.sa).toNat / 16 + o.c.prog.toNat))] else []
    pred ++ alu0 ++ alu1 ++ fma ++ lanes ++ wb ++ clamp ++ ls ++ cds ++ edge ++ long ++ move

/-- Some read lies nearer to its producer than R246 asks (R252); `word` is the number of the word that reads. -/
def tooNear (c : Ctx) (word : Nat) (reads : List Prod) : Bool :=
  reads.any (fun r => c.prod.any (fun p => p.what = r && decide (word - p.word < p.dist)))

/-! ## Comparators (R856-R859) -/

/-- What stops a word: a fault with its access address, or a monitor entry by a comparator. -/
inductive Stop where
  | fault (vec : BitVec 6) (addr : U32)
  | monitor (cmp : BitVec 3)
deriving DecidableEq, Repr

/-- Comparator i matches value `a` of its kind for thread n; `ld`, `st`: the access loads, stores (R856). -/
def cmpMatches (d : Cmp) (n : Nat) (kind : BitVec 2) (a : U48) (ld st : Bool) : Bool :=
  d.kind = kind && d.act != 0 && bit d.tmask n
    && (if bit kind 0 then (ld && bit d.rw 0) || (st && bit d.rw 1) else true)
    && (let m : U48 := ~~~(d.mask.zeroExtend 48)
        let v : U48 := if kind = 3 then d.valh ++ d.vall else d.vall.zeroExtend 48
        (a &&& m) = (v &&& m))

/-- Comparators that match one of the values: (kind, value, loads, stores). -/
def cmpHits (s : State) (n : Nat) (vs : List (BitVec 2 × U48 × Bool × Bool)) : List Nat :=
  let t := s.thr n
  let again := match t.ctx.rep with
    | some r => !r.first
    | none => false
  if t.safe || t.spill || t.mon || t.passOver || again then []
  else (List.range 8).filter (fun i => vs.any (fun v => cmpMatches (vget s.dbg.cmp i {}) n v.1 v.2.1 v.2.2.1 v.2.2.2))

/-- The stop that matches ask for: the monitor before vector 9 (R858). -/
def cmpStop (s : State) (hits : List Nat) : Option Stop :=
  match hits.find? (fun i => (vget s.dbg.cmp i {}).act = 1) with
  | some i => some (.monitor (BitVec.ofNat 3 i))
  | none => if hits.any (fun i => (vget s.dbg.cmp i {}).act = 2) then some (.fault 9 0) else none

/-- The events that matches count (R858). -/
def cmpEvents (s : State) (hits : List Nat) : List Nat := hits.filter (fun i => (vget s.dbg.cmp i {}).act = 3)

/-- An access as the comparators of kinds 0b01 and 0b11 see it. -/
def accessValues (s : State) (a : U32) (ld st : Bool) : List (BitVec 2 × U48 × Bool × Bool) :=
  (1, a.zeroExtend 48, ld, st) :: (if regionOf a = .host then [(3, hostAddr s a, ld, st)] else [])

/-! ## The causes of a word (R368) -/

/-- What a word meets before it has any effect: the comparators it matches, in two places of the order of R368, and
the first cause that stops it. The causes are given by their vectors, as R368 lists them: those before the comparators
of kinds 0b01 and 0b11 and those after them. -/
def firstStop (s : State) (early : List Nat) (c1 : List (Bool × BitVec 6 × U32)) (late : List Nat)
    (c2 : List (Bool × BitVec 6 × U32)) : List Nat × Option Stop :=
  let hit (l : List (Bool × BitVec 6 × U32)) : Option Stop :=
    (l.find? (fun c => c.1)).map (fun c => .fault c.2.1 c.2.2)
  match hit c1 with
  | some f =>
    (cmpEvents s early, match cmpStop s early with
      | some e => some e
      | none => some f)
  | none =>
    let all := early ++ late
    (cmpEvents s all, match cmpStop s all with
      | some e => some e
      | none => hit c2)

/-- A thread's access to the block's own register at that offset is refused (R267); WDSVC takes the serviced thread at
supervisor privilege (R429). -/
def regRefused (s : State) (n : Nat) (priv : BitVec 2) (off : Nat) (store : Bool) : Bool :=
  match routeOff s off with
  | .own off =>
    if off = 0x2600C && store && !isMach priv then !(priv = 1 && n = s.wdog.svcthr.toNat)
    else !regAllowed priv off store
  | .member _ off => !regAllowed priv off store
  | .nowhere => !regAllowed priv off store

/-- Number of steps of a long word: as at its first step, or as LCR gives it (R345). -/
def Op.steps (o : Op) : Nat := o.c.long.getD (o.g 37 (fd o.nw 177 5)).toNat

/-- A block move's rows at its present step (R349). -/
def Op.moveFrom (o : Op) : Nat := (o.g 40 o.sa).toNat + 16 * o.c.prog.toNat
def Op.moveTo (o : Op) : Nat := (o.g 41 o.sb).toNat + 16 * o.c.prog.toNat

/-- The stop of an operation word, after its fetch (R368). -/
def Op.stop (o : Op) (n word : Nat) (hazchk : Bool) (early : List Nat) (s : State) : List Nat × Option Stop :=
  let c := o.c
  let act := o.acts s
  let priv := c.priv
  let starts := o.long != 0 && c.long.isNone
  let acc := act && o.lsop != 0
  let move := act && o.long = 2
  let a := o.addr
  let size := lsSize o.lsz
  let store := o.lsop = 2
  let from_ := o.moveFrom
  let to_ := o.moveTo
  let left := 16 * (o.steps - c.prog.toNat)
  let out := decide (0x100000 < from_ + left) || decide (0x100000 < to_ + left)
  let c1 : List (Bool × BitVec 6 × U32) :=
    [(o.illegal || (o.long != 0 && (c.ds.isSome || c.msh.isSome)), 2, 0),
     (act && starts && (o.steps = 0 || decide (4096 < o.steps)), 14, 0),
     (hazchk && tooNear c word (o.reads s), 10, 0),
     (o.private_ && !isMach priv, 3, 0),
     (acc && regionOf a = .regs && regRefused s n priv (a.toNat - 0x10000000) store, 3, 0),
     (acc && regionOf a = .member && !regAllowed priv (a.toNat % 0x100000) store, 3, 0),
     (acc && store && regionOf a = .data && !isMach priv && inExcTable s a.toNat size, 3, 0),
     (move && !out && !isMach priv && inExcTable s to_ 16, 3, 0),
     (acc && !aligned a size store, 4, a),
     (move && from_ % 16 != 0, 4, BitVec.ofNat 32 from_),
     (move && to_ % 16 != 0, 4, BitVec.ofNat 32 to_)]
  let vs := (if acc then accessValues s a (!store) store else [])
    ++ (if move && !out then accessValues s (BitVec.ofNat 32 from_) true false
          ++ accessValues s (BitVec.ofNat 32 to_) false true else [])
  let c2 : List (Bool × BitVec 6 × U32) :=
    [(acc && o.lbase = 2 && decide (a < c.dsl), 7, a),
     (acc && (!sizeOk a size store || (regionOf a = .nvm && decide (nvmBytes s ≤ a.toNat - 0x20000000))), 12, a),
     (move && out, 12, BitVec.ofNat 32 (if 0x100000 < from_ + left then from_ else to_)),
     (acc && !store && regionOf a = .data && rowsBad s a.toNat size, 5, a),
     (move && marked (from_ / 16) s.mem.badRow, 5, BitVec.ofNat 32 from_)]
  firstStop s early c1 (cmpHits s n vs) c2

/-! ## What the units do -/

/-- When results of a class of R246 land: at the end of fc i + D - 1, at once in safe mode (R249, R255). -/
def oweAt (safe : Bool) (now word dist : Nat) (what : Owed) (c : Ctx) : Ctx :=
  if safe then landOne c { what := what, due := now, word := word, safe := false }
  else owe { what := what, due := now + dist - 1, word := word, safe := false } c

/-- The result of a load: in safe mode it lands after the next word (R255). -/
def oweLoad (safe : Bool) (now word : Nat) (what : Owed) (c : Ctx) : Ctx :=
  owe { what := what, due := now + 2, word := word, safe := safe, load := true } c

def produce (word dist : Nat) (what : Prod) (c : Ctx) : Ctx :=
  { c with prod := { what := what, word := word, dist := dist } :: c.prod.filter (fun p => word ≤ p.word + 5) }

/-- The lanes of a word (R311-R318): for each lane that works, its new accumulator, whether it clears the sticky flag,
and whether it saturates. -/
def Op.laneVal (o : Op) (alu0 : U32) (k : Nat) (partner : Option (Int × U80 × Bool)) : Option (Int × U80 × Bool) :=
  let l := o.lane k
  let rd (r : Option (BitVec 5)) (slot : Nat) (other : U32) : U32 := match r with
    | some r => o.g slot r
    | none => other
  if laneMop l = 0 then none
  else if laneMop l = 3 then
    some (0, fd (o.g (22 + 3 * k) o.sb) 0 16 ++ (o.g (21 + 3 * k) (o.sa + 1) ++ o.g (20 + 3 * k) o.sa), false)
  else
    let x := rd (o.laneXReg k) (12 + 2 * k) alu0
    let y := rd (o.laneYReg k) (13 + 2 * k) o.imm
    let p := lanePro (laneMop l = 2) (laneNeg l) (bit o.nw 70) (bit o.nw 71) x y
    let pk := laneMop (o.lane (k - 1))
    let add : Int := match (laneAdd l).toNat with
      | 0 => (newestAcc o.c (o.laneAcc k)).toInt
      | 1 => 0
      | 2 => if pk = 3 then 0 else match partner with
        | some q => q.1
        | none => 0
      | _ => match partner with
        | some q => q.2.1.toInt
        | none => (readAcc o.k (42 + k) o.c (o.laneAcc (k - 1))).toInt
    let r := accSat (add + p)
    some (p, r.1, r.2)

/-- The four lanes. -/
def Op.lanes (o : Op) (alu0 : U32) : List (Option (Int × U80 × Bool)) :=
  let l0 := o.laneVal alu0 0 none
  let l2 := o.laneVal alu0 2 none
  [l0, o.laneVal alu0 1 l0, l2, o.laneVal alu0 3 l2]

/-- The words that the writeback writes (R319-R322): lane, register, value, and whether WSAT changed it. -/
def Op.writeback (o : Op) (lanes : List (Option (Int × U80 × Bool))) : List (Nat × BitVec 5 × U32 × Bool) :=
  let lo := o.g 32 (o.sb + 2)
  let hi := o.g 33 (o.sb + 3)
  o.wbList.map (fun p =>
    let a : U80 := match lanes.getD p.1 none with
      | some q => q.2.1
      | none => readAcc o.k (46 + p.1) o.c (o.laneAcc p.1)
    let r := reduceSat (fd o.nw 83 2) lo hi (roundShift o.wrnd (fd o.nw 75 6).toNat a.toInt)
    (p.1, p.2, r.1, r.2))

/-- The time that an edge post names (R340). -/
def Op.postTime (o : Op) (s : State) : U40 :=
  match (fd o.nw 158 2).toNat with
  | 0 => fd (o.g 36 (o.sb + 1)) 0 8 ++ o.g 35 o.sb
  | 1 => now40 s + sx40 (o.g 35 o.sb)
  | _ => ((withBoundary o.cfl s).flume o.cfl).tref.extractLsb' 16 40 + sx40 (o.g 35 o.sb)

/-- A posted store of the thread: by region (R261, R262, R264). -/
def postStore (n : Nat) (pc : U16) (a : U32) (l : List Byte) (s : State) : State :=
  match regionOf a with
  | .data =>
    if partBad s a.toNat l.length then
      s.modThr n (fun t => if t.imp5.isSome then t else { t with imp5 := some { pc := pc, addr := a } })
    else storeThread a.toNat l s
  | .regs | .member =>
    let ag := threadAgent s n
    schedule s (s.clk.fc + 2) (agentRank ag) (.regStore ag pc a (ofLE 32 l))
  | .host =>
    let s := storeHost (hostAddr s a) l s
    s.modThr n (fun t => { t with stores := t.stores ++ [{ pc := pc, addr := a }] })
  | _ => s

/-- The units of an operation word that issues in this fc (R301). A load that parks is left to the caller. -/
def Op.run (o : Op) (n word : Nat) (safe : Bool) (s : State) : State :=
  let now := s.clk.fc
  let pc := o.c.pc
  let ag := threadAgent s n
  let rank := agentRank ag
  let later (d : Nat) (act : Act) (s : State) : State := schedule s (now + d) rank act
  -- ALUs (R307-R310)
  let cin := bit o.c.nzcv 1
  let a0 := aluOp (fd o.nw 8 5) (o.src 0 (fd o.nw 13 3)) (o.src 1 (fd o.nw 16 3)) cin
  let a1 := aluOp (fd o.nw 21 5) (o.src 2 (fd o.nw 26 3)) (o.src 3 (fd o.nw 29 3)) cin
  let d0 := o.destReg (fd o.nw 19 2)
  let d1 := o.destReg (fd o.nw 32 2)
  -- MAC lanes, writeback, FMA
  let lanes := o.lanes a0.r
  let wb := o.writeback lanes
  let fop : BitVec 4 := fd o.nw 85 4
  let f := fmaOp fop o.frnd (sx (fd o.nw 102 6)) (Config.freeBit (o.k + 64 * 52)) (o.src 4 (fd o.nw 89 3))
    (o.src 5 (fd o.nw 92 3)) (o.src 6 (fd o.nw 95 3))
  let fd_ := if fop = 0 || fop = 0xF then none else o.destReg (fd o.nw 98 2)
  let fexc := fop != 0 && fop != 0xF && f.exc
  -- the load/store port
  let a := o.addr
  let acc := o.lsop != 0
  let stored := o.storeBytes
  let (loaded, s) := if o.lsop = 1 && regionOf a = .data then loadData a.toNat (lsSize o.lsz) s else ([], s)
  -- results of this fc (R304)
  let put (r : Option (BitVec 5)) (v : U32) (c : Ctx) : Ctx := match r with
    | some r => setG now r v c
    | none => c
  let s := s.modCtx n (fun c =>
    let c := put d1 a1.r (put d0 a0.r c)
    let c := match acc, o.newBase with
      | true, some b => put o.baseReg b c
      | _, _ => c
    { c with nzcv := if o.flags = 1 then nzcvOf a0 else if o.flags = 2 then nzcvOf a1 else c.nzcv })
  -- results still owed (R246, R301)
  let s := s.modCtx n (fun c =>
    let c := (lsValues o.lsz o.x loaded).foldl (fun c p =>
      if loaded.isEmpty then c else produce word 3 (.g p.1) (oweLoad safe now word (.g p.1 p.2) c)) c
    let c := (List.range 4).foldl (fun c k =>
      match lanes.getD k none with
      | none => c
      | some q =>
        let j := o.laneAcc k
        let l := o.lane k
        let clr := laneMop l = 3 || laneAdd l = 1
        produce word 4 (.sat j) (produce word 4 (.acc j)
          (oweAt safe now word 4 (.sat j clr q.2.2) (oweAt safe now word 4 (.acc j q.2.1) c)))) c
    let c := wb.foldl (fun c p =>
      let c := produce word 4 (.g p.2.1) (oweAt safe now word 4 (.g p.2.1 p.2.2.1) c)
      if p.2.2.2 then produce word 4 (.sat (o.laneAcc p.1)) (oweAt safe now word 4 (.sat (o.laneAcc p.1) false true) c)
      else c) c
    let c := match fd_ with
      | some r => produce word 5 (.g r) (oweAt safe now word 5 (.g r f.r) c)
      | none => c
    let c := if fexc then oweAt safe now word 5 (.fmax true) c
      else if fop = 0xF then oweAt safe now word 5 (.fmax false) c else c
    let c := if fop != 0 then produce word 5 .fmax c else c
    if o.lsop = 2 && regionOf a = .data then produce word 2 (.row (BitVec.ofNat 16 (a.toNat / 16))) c else c)
  -- the ports (R334-R341)
  let k5 := BitVec.ofNat 5 o.cfl
  let cdata : U32 := match (fd o.nw 145 2).toNat with
    | 0 => o.g 34 o.dst
    | 1 => a0.r
    | 2 => (wb.head?.map (fun p => p.2.2.1)).getD 0
    | _ => o.imm
  let cwe := bit o.nw 136
  let cat := if fd o.nw 145 2 = (2 : BitVec 2) then 4 else 1
  let time := o.postTime s
  let s := if cwe then later cat (.coef ag k5 (fd o.nw 142 3) cdata) s else s
  let s := if bit o.nw 147 then later (if cwe then cat else 1) (.seal ag k5) s else s
  let s := if bit o.nw 148 then later 1 (.edgePost ag (BitVec.ofNat 7 o.eout) (fd o.nw 156 2) time) s else s
  let s := if bit o.nw 160 then later 1 (.raise (BitVec.ofNat 9 (448 + o.evn.toNat))) s else s
  let s := if o.lsop = 2 then postStore n pc a stored s else s
  -- the arithmetic trap (R353, R354)
  let v := (a0.v && (d0.isSome || o.flags = 1)) || (a1.v && (d1.isSome || o.flags = 2))
  let sat := lanes.any (fun q => match q with
    | some q => q.2.2
    | none => false)
  let at_ : Option Nat := if v then some now else if sat then some (now + 3) else if fexc then some (now + 4) else none
  match o.trap, at_ with
  | true, some f => s.modThr n (fun t => { t with imp11 := t.imp11 ++ [(if safe then now else f, pc)] })
  | _, _ => s

/-- A step of a block move (R349): copies its row. -/
def Op.moveRow (o : Op) (n : Nat) (s : State) : State :=
  let (l, s) := loadData o.moveFrom 16 s
  let word := (s.thr n).words
  (postStore n o.c.pc (BitVec.ofNat 32 o.moveTo) l s).modCtx n
    (produce word 2 (.row (BitVec.ofNat 16 (o.moveTo / 16))))

/-- The addresses that a block move leaves after its last step (R349). -/
def Op.moveEnd (o : Op) (n : Nat) (s : State) : State :=
  let m : U32 := BitVec.ofNat 32 (16 * o.steps)
  s.modCtx n (fun c => setG s.clk.fc o.sb (o.g 41 o.sb + m) (setG s.clk.fc o.sa (o.g 40 o.sa + m) c))

end Sys2Proof.Machine
end

