-- ==== Sys2Proof/Machine/Images.lean ====
section
/-! DEFINITION. Starting threads (R571, R572), images and their sections (R577-R579, R826), patches (R581), and the
firmware region (R824). -/

namespace Sys2Proof.Machine

/-! ## THREAD_START (R571, R572) -/

/-- Parameters P0-P5 of a THREAD_START. -/
abbrev StartParams := Vector U32 6

def startThreadNo (p : StartParams) : Nat := (fd (vget p 0 0) 0 4).toNat

/-- For each parameter P0-P5, whether R571 or its reserved bits do not allow it (R552). -/
def startFaults (p : StartParams) : List Bool :=
  let w (i : Nat) : U32 := vget p i 0
  [w 0 &&& 0xFFFFE000 != 0 || fd (w 0) 0 4 = (15 : BitVec 4) || bit (w 0) 5,
   w 1 &&& 0xFFFF0000 != 0 || decide ((w 1).toNat < 0x2000),
   false, false,
   (w 4).toNat % 16 != 0 || decide (0x100000 ≤ (w 4).toNat),
   (w 5).toNat % 16 != 0 || decide (0x100000 < (w 5).toNat) || decide (w 5 ≤ w 4)]

def startAllowed (p : StartParams) : Bool := (startFaults p).all (fun b => !b)

/-- The thread is not stopped or has entries not yet returned (R572, R580). -/
def startRefused (s : State) (p : StartParams) : Bool :=
  let t := s.thr (startThreadNo p)
  t.run != .stopped || t.depth != 0

/-- Starts the thread. -/
def startThread (p : StartParams) (s : State) : State :=
  let w (i : Nat) : U32 := vget p i 0
  s.modThr (startThreadNo p) (fun t => { t with
    maxmask := fd (w 0) 9 3, hazchk := bit (w 0) 12, run := .ready, stopReq := false
    ctx := { t.ctx with
      priv := fd (w 0) 4 2, mask := fd (w 0) 6 3, pc := fd (w 1) 0 16, g := vset t.ctx.g 31 (w 2), dsl := w 3
      rslo := fd (w 4) 4 16, rsp := fd (w 4) 4 16, rshi := fd (w 5) 4 16 } })

/-! ## Images (R577-R579) -/

/-- A section-table entry (R578). -/
structure Section where
  ty : Nat
  index : Nat
  reserved : Nat
  off : Nat
  dest : Nat
  size : Nat
deriving DecidableEq, Repr

/-- A little-endian field of an image. -/
def leAt (l : List Byte) (off len : Nat) : Nat := natLE ((l.drop off).take len)

def sectionAt (l : List Byte) (i : Nat) : Section :=
  let o := 64 + 16 * i
  { ty := leAt l o 1, index := leAt l (o + 1) 1, reserved := leAt l (o + 2) 2, off := leAt l (o + 4) 4
    dest := leAt l (o + 8) 4, size := leAt l (o + 12) 4 }

def sectionsOf (l : List Byte) : List Section := (List.range (leAt l 6 2)).map (sectionAt l)

/-- The entry breaks R578; its DEST lies within its target also where its SIZE is 0. -/
def badSection (len : Nat) (e : Section) : Bool :=
  let gateNo := e.ty = 3 || e.ty = 4
  e.reserved != 0 || (if gateNo then decide (7 < e.index) else e.index != 0) || e.off % 16 != 0
    || decide (len < e.off + e.size)
    || (match e.ty with
        | 1 => e.size % 4 != 0 || decide (e.dest < 8192) || decide (65535 < e.dest) || decide (65536 < e.dest + e.size / 4)
        | 2 => e.size % 32 != 0 || decide (e.dest < 1024) || decide (4095 < e.dest) || decide (4096 < e.dest + e.size / 32)
        | 3 => e.size != 8192 || e.dest != 0
        | 4 => e.size != 20 || e.dest != 0
        | 5 => e.size % 16 != 0 || decide (0xFFFFF < e.dest) || decide (0x100000 < e.dest + e.size)
        | 6 => e.size % 4 != 0 || decide (2047 < e.dest) || decide (2048 < e.dest + e.size / 4)
        | 7 => e.size != 24 || e.dest != 0
        | _ => true)

/-- What the first pass finds wrong (R577): status and DETAIL. -/
def imageFault (l : List Byte) (len : Nat) (crc : U32) (lib : Byte) : Option (Byte × U16) :=
  if crc32c l != crc then some (5, 0)
  else if leAt l 8 4 != len then some (2, 16)
  else if leAt l 0 4 != 0x42474D31 || leAt l 4 1 = 0 || decide (lib.toNat < leAt l 5 1)
      || leAt l 6 2 = 0 || decide (64 < leAt l 6 2) || leAt l 12 52 != 0
      || (sectionsOf l).any (badSection len) then some (2, 8)
  else none

/-- Writes microwords from word `a` on. -/
def putMicro : Nat → List U32 → State → State
  | _, [], s => s
  | a, w :: t, s =>
    putMicro (a + 1) t { s with mem := { s.mem with
      micro := sput 0 a w s.mem.micro, badMicro := mark a false s.mem.badMicro } }

def putNano : Nat → List (BitVec 256) → State → State
  | _, [], s => s
  | a, w :: t, s =>
    putNano (a + 1) t { s with mem := { s.mem with
      nano := sput 0 a w s.mem.nano, badNano := mark a false s.mem.badNano } }

def putProg : Nat → List U32 → State → State
  | _, [], s => s
  | a, w :: t, s => putProg (a + 1) t (writeProg a w s)

def words32 (l : List Byte) : List U32 := (chunks 4 l).map (ofLE 32)

/-- Clears a gate's CTL.EN (R406, R579). -/
def gateOff (k : Nat) (s : State) : State := writeGateCtl k (gateRead s k 0 &&& ~~~1#32) s

/-- Applies a section to its target (R579). -/
def applySection (l : List Byte) (s : State) (e : Section) : State :=
  let data := (l.drop e.off).take e.size
  match e.ty with
  | 1 => putMicro e.dest (words32 data) s
  | 2 => putNano e.dest ((chunks 32 data).map (ofLE 256)) s
  | 3 =>
    ((words32 data).zipIdx).foldl (fun s p =>
      (gateStore (.mach 15) e.index (.table (BitVec.ofNat 11 p.2)) p.1 s).1) (gateOff e.index s)
  | 4 =>
    let w := words32 data
    let put (r : GateReg) (i : Nat) (s : State) : State := (gateStore (.mach 15) e.index r (w.getD i 0) s).1
    put .ctl 0 (put .omap1 4 (put .omap0 3 (put .isel1 2 (put .isel0 1 (gateOff e.index s)))))
  | 5 => storeData e.dest data s
  | 6 => putProg e.dest (words32 data) s
  | 7 =>
    let w := words32 data
    { s with hg := { s.hg with loadAuto := s.hg.loadAuto ++ [vgen 6 (fun i => w.getD i 0)] } }
  | _ => s

/-- The second pass (R577). -/
def applyImage (secs : List Section) (l : List Byte) (s : State) : State :=
  secs.foldl (applySection l) { s with hg := { s.hg with loadAuto := [] } }

/-- First sector and sectors of image slot A (false) or B (true). -/
def slotRegion (s : State) (b : Bool) : Nat × Nat :=
  let o := s.nvm.opt
  if b then (o.slotbFirst.toNat, o.slotbLen.toNat) else (o.slotaFirst.toNat, o.slotaLen.toNat)

/-- The slot does not hold the image and its trailer (R780, R826). -/
def slotShort (s : State) (b : Bool) (len : Nat) : Bool :=
  decide ((slotRegion s b).2 * 16384 < (len + 31) / 32 * 32 + 32)

/-- The trailer of a slot (R826). -/
def trailer (len : Nat) (crc : U32) (ver : Byte) : List Byte :=
  let body := bytesLE (0x54524C52#32) 4 ++ bytesLE (BitVec.ofNat 32 len) 4 ++ bytesLE crc 4 ++ [ver]
    ++ List.replicate 15 0
  body ++ bytesLE (crc32c body) 4

/-- The steps that program an image into a slot (R780, R826). -/
def imageOps (s : State) (b : Bool) (l : List Byte) (crc : U32) : List NvmOp :=
  let (first, n) := slotRegion s b
  let len := l.length
  let used := (len + 16383) / 16384
  let last := first + n - 1
  (List.range used).map (fun i => NvmOp.erase none (first + i))
    ++ (if used < n then [NvmOp.erase none last] else [])
    ++ programOps (first * 16384) l true
    ++ programOps (last * 16384 + 16384 - 32) (trailer len crc (lget l 4)) true

/-! ## The image at boot (R825) -/

/-- Reads `len` bytes from NVM sector `first` on; tells whether every unit was read. -/
def readSlot (first len : Nat) (s : State) : (List Byte × Bool) × State :=
  let ((l, _, unc, _), s) := readUnits ((len + 31) / 32) (first * 512) s
  ((l.take len, unc = 0), s)

/-- The headworks loads the active image (R825). -/
def bootImage (s : State) : State :=
  let o := s.nvm.opt
  if !o.actv then { s with pwr := { s.pwr with noimg := true } }
  else
    let (first, n) := slotRegion s o.active
    let fail (s : State) : State :=
      { s with pwr := { s.pwr with imgfail := true }, seq := { s.seq with verImg := 0 }
               hg := { s.hg with loadAuto := [] } }
    if n = 0 then fail s
    else
      let ((t, _, unc, _), s) := readUnits 1 ((first + n) * 512 - 1) s
      let len := leAt t 4 4
      if unc != 0 || leAt t 0 4 != 0x54524C52 || ofLE 32 (t.drop 28) != crc32c (t.take 28)
          || slotShort s o.active len then fail s
      else
        let ((l, ok), s) := readSlot first len s
        if !ok || (imageFault l len (ofLE 32 ((t.drop 8).take 4)) s.seq.verLib).isSome then fail s
        else
          let s := applyImage (sectionsOf l) l s
          { s with pwr := { s.pwr with imgok := true }, seq := { s.seq with verImg := lget l 4 } }

/-! ## The firmware region (R824) -/

/-- Reads, checks and loads the headworks and the base library; false when the region fails. -/
def loadFirmware (s : State) : Bool × State :=
  let o := s.nvm.opt
  if o.fwLen.toNat < 4 then (false, s)
  else
    let ((l, ok), s) := readSlot o.fwFirst.toNat 63552 s
    if ok && leAt l 0 4 = 0x4657524D && leAt l 8 4 = (crc32c (l.drop 64)).toNat then
      let s := putMicro 0 (words32 ((l.drop 64).take 30720)) s
      let s := putNano 0 ((chunks 32 (l.drop 30784)).map (ofLE 256)) s
      (true, { s with seq := { s.seq with verHw := lget l 4, verLib := lget l 5 } })
    else (false, s)

end Sys2Proof.Machine
end

