-- ==== Sys2Proof/Machine/Power.lean ====
section
/-! DEFINITION. Power states, resets and boot (18): what every reset leaves, the steps of the boot, the ways into and out
of DOZE, SLEEP and DEEP, pad hold, and the power, clock and reset registers. -/

namespace Sys2Proof.Machine

/-! ## Make-up (R480) -/

def makeup (tally ratio : U48) : U64 := BitVec.ofNat 64 ((tally.toNat * ratio.toNat * 64 + 0x8000) / 65536)

/-! ## Debug accesses and resets -/

/-- An access of the debug bus master that finds CORE stopped ends with FAULT and CAUSE POWER (R838, R855). -/
def dropDebugAccess (s : State) : State :=
  if s.dbg.access.isSome then
    raise 444 { s with dbg := { s.dbg with access := none, ready := false, err := true, cause := 4 } }
  else s

/-- From the start of a reset to boot stage 6 SEQSTAT shows T15 in safe mode (R300). -/
def bootThread (s : State) : State := { s with seq := { s.seq with safeThr := some 15 } }

/-- T15 starts at word 0, in safe mode (R253, R369, R823). -/
def startT15 (s : State) : State :=
  (bootThread s).modThr 15 (fun t => { t with
    safe := true, run := .ready, ctx := { t.ctx with priv := 3, mask := 7, pc := 0 } })

/-- Bits of BOOTSTAT at the start of a boot (R823, R835). -/
def bootStage1 (p : Power) : Power :=
  { p with fwok := false, fwfail := false, imgok := false, imgfail := false, noimg := false, direct := false
           stage := 1, time := 0, rstReq := 0, pllDue := false }

/-- Every register outside AO and DBG at its power-on value and every SRAM lost (R818): the NVM's contents, the DBG
domain, AO, the held pads and the tally stay. -/
def coldReset (s : State) : State :=
  let n := s.nvm
  bootThread { State.reset with
    pending := s.pending, free := s.free, apb := s.apb, bist := s.bist, dbg := s.dbg
    clk := { fc := s.clk.fc }
    ports := { wakeI := s.ports.wakeI, live := s.ports.live }
    out := vmap s.out (fun _ o => { padHold := o.padHold, oe := o.padHold.isSome && o.oe })
    gp := { tally := s.gp.tally, tsat := s.gp.tsat }
    seq := { thr := vmap s.seq.thr (fun _ t =>
      { halt := t.halt, cause := t.cause, cmp := t.cmp, mpc := t.mpc, mstat := t.mstat, step := t.step
        resume := t.resume }) }
    mem := { host := s.mem.host, winDbg := s.mem.winDbg }
    nvm := { units := n.units, bad := n.bad, weak := n.weak, undefSec := n.undefSec, undefUnit := n.undefUnit }
    pwr := bootStage1 { s.pwr with plllock := false, warm := false } }

/-- A return from DEEP: WDOG, WDPER and WDCLS stay, since only power-on reset clears EN and LOCK (R433). -/
def deepReset (s : State) : State :=
  let w := s.wdog
  { coldReset s with wdog := {
      en := w.en, lock := w.lock, wrst := w.wrst, dbgfrz := w.dbgfrz, svcthr := w.svcthr, per := w.per, cls := w.cls } }

/-! ## Warm reset, unit by unit: what a unit's chapter does not say it leaves goes to its reset value (00, the register
tables) -/

/-- Outlets: queues are flushed, the shadow level is SAFE, STAT and the staged words are cleared (R63, R107, R138, R903);
OUTCAL. -/
def outletsWarm (s : State) : State :=
  let s := s.each 96 (fun s n => flushOut n s)
  { s with
    out := vmap s.out (fun _ o => { o with shadow := o.safe, stat := 0, postl := Vector.replicate 19 0 })
    outcal := {} }

/-- Flumes (R191, R194). -/
def flumesWarm (s : State) : State :=
  let s := s.each 32 (fun s n => disarm n s)
  { s with fl := vmap s.fl (fun _ f => { f with
      pb := { pend := f.pb.pend }, pbAt := 0, stat := 0, tref := 0, next := 0, mbt := 0, mb1 := {}, mb2 := {}
      lastl := 0 }) }

/-- A timer (R481). -/
def timerWarm (t : Timer) : Timer :=
  { t with
    run := false, aten := false, cnt := 0, cntPrev := 0, perPre := none, cmpaPre := none, cmpbPre := none
    cmpcPre := none, cap := 0, capf := false, capAt := 0, mata := false, matb := false, matc := false, ovf := false
    capov := false, capuf := false, pskip := false, aterr := false, passedAt := 0, absorbAt := 0, tick := false
    hit := 0, capEv := false, trigAt := [], startAt := 0, claimAt := 0, preAt := Vector.replicate 4 0, cmpAt := 0, capReadAt := 0
    capLate := none, culAt := 0 }

/-- The Rider stops and its channels are emptied (R527, R528). -/
def riderStop (s : State) : State :=
  let s := s.each 32 (fun s n => stopChannel n s)
  { s with rider := { s.rider with sync := false, ch := vmap s.rider.ch (fun _ c => emptyChannel c) } }

/-- Rider registers that a warm reset clears beside (R528, R530, R531, R534). -/
def riderWarm (s : State) : State :=
  { s with rider := { s.rider with
      serr := false, synct := 0
      ch := vmap s.rider.ch (fun _ c => { c with stat := 0, abortstall := false }) } }

/-- Headgate (R565). -/
def headgateWarm (h : Headgate) : Headgate :=
  let off (phase : Bool) (r : Ring) : Ring := { r with en := false, head := 0, tail := 0, phase := phase }
  { h with
    loadAuto := []
    ready := false, cqfull := false, eqovf := false, proch := true, bistp := false, errCause := 0, errRing := 0
    err := false, evlost := 0, staged := false, stgver := 0, rerr := 0, shen := false, shadDirty := false
    sq := vmap h.sq (fun _ r => off false r), cq := off true h.cq, eq := off true h.eq
    slot := Vector.replicate 4 none, linkSlot := none, held := [], evOwed := 0, stagedSlot := none, autostart := [] }

/-- A source (R637, R641). -/
def sourceWarm (c : Source) : Source := { c with cnt := 0, satf := false, service := none, route := none }

/-- Turnout (R641). -/
def turnoutWarm (t : Turnout) : Turnout :=
  { src := vmap t.src (fun _ c => sourceWarm c), tgt := vmap t.tgt (fun _ g => { g with cerr := false }), lastChosen := 7
    raised := [], cfgw := t.cfgw }

/-- A gate keeps evaluating if it is enabled; its state goes to INIT, at the fc edge while the fast clock runs (R412). -/
def gateWarm (running : Bool) (g : Gate) : Gate :=
  if g.en && running then { g with evf := false, wign := false, toInit := true }
  else { g with evf := false, wign := false, state := g.init, entry := none }

/-- The sequencer's registers (R284, R298, R299, R395-R399, R893): EXCBASE, SPILLPC, SPILLDSP, SPILLRS, SPILLDSL and
the stack words of XCTX stay. -/
def seqWarm (q : Seq) : Seq :=
  { q with
    spActive := false, spThr := 0, spVec := 0, spCount := 0, spx := Vector.replicate 5 0, hwin := 0, scond := 0
    verImg := 0, verPatch := 0, verLib := 0, verHw := 0
    thr := vmap q.thr (fun _ t => { t with xvec := 0, xpc := 0, xaddr := 0 }) }

def isTimerAct : Act → Bool
  | .timerStop _ => true
  | .timerRestart _ => true
  | _ => false

/-- WARM_RESET (R818, R822): the requests are recognised. From SLEEP the Gauge comes back with its make-up at PLL lock;
from DEEP, CORE has lost its state. -/
def warmReset (s : State) : State :=
  let cause := s.pwr.rstcause ||| s.pwr.rstReq
  let wasOff : Bool := s.pwr.st != .run
  if s.pwr.st = .deep then
    let s := deepReset (dropDebugAccess s)
    { s with pwr := { s.pwr with rstcause := cause, rstSafe := true, waking := false, restore := true } }
  else
    let fromSleep : Bool := s.pwr.st = .sleep
    let s := s.each 16 (fun s n => resetThread n s)
    let s := outletsWarm (flumesWarm (riderWarm (riderStop (nvmWarm (lgWarm (linkWarm s))))))
    let s := dropActs isTimerAct s
    let s := { s with
      tmr := vmap s.tmr (fun _ t => timerWarm t)
      cul := { s.cul with ch := vmap s.cul.ch (fun _ c => culWarm c) }
      hg := headgateWarm s.hg
      tur := turnoutWarm s.tur
      gate := vmap s.gate (fun _ g => gateWarm s.clk.running g)
      wdog := { s.wdog with
        cnt := 0, stopped := false, armed := false, opened := false, foreign := false, resetAt := none }
      seq := seqWarm s.seq
      mem := { s.mem with winApb := {}, winSeq := {} }
      ports := { s.ports with nvmClk := if fromSleep then .sc else s.ports.nvmClk }
      bist := { s.bist with starting := false }
      pwr := { bootStage1 s.pwr with
        st := .run, trans := wasOff, waking := false, warm := true, rstSafe := true, rstcause := cause
        restore := fromSleep || s.pwr.restore
        holdrel := fromSleep || s.pwr.holdrel
        aoGauge := if fromSleep then s.clk.gauge else s.pwr.aoGauge
        aoRatio := if fromSleep then s.gp.ratio else s.pwr.aoRatio } }
    let s := hwSet 0x101C (cause.zeroExtend 32) (bootThread (wdogFreeze s))
    shutAssert 1 false { s with shut := { s.shut with req := true } }

/-- DEBUG_RESET (R77, R837, R839): the DBG domain; POLMAX, LOCK and the challenge counter lie in AO. The STWSEL and the staged
nanoword of the debug bus master (R894) are taken to lie in the DBG domain (DESIGN CHOICE, log entry 38). -/
def debugReset (s : State) : State :=
  let s := s.each 16 (fun s n => releaseMonitor n s)
  let s := { s with
    seq := { s.seq with thr := vmap s.seq.thr (fun _ t => { t with
      halt := false, cause := 0, cmp := 0, step := false, stepWords := 0, resume := false
      mpc := 0, mstat := 0 }) }
    mem := { s.mem with winDbg := {} }
    dbg := { polmax := s.dbg.polmax, pollock := s.dbg.pollock, nonceCnt := s.dbg.nonceCnt }
    pwr := { s.pwr with dbgHeld := false } }
  wdogFreeze s

/-- POWER_ON_RESET: por_n falls (R32, R74, R77, R79, R80, R86, R818, R822): everything but the DBG domain and the NVM's
contents. A fall of dbg_por_n that BIST has held back acts now, as por_n ends BIST (R883). -/
def powerOn (s : State) : State :=
  let c := coldReset (dropDebugAccess s)
  let t := { c with
    clk := {}, ports := { porN := false, nvmClk := .idle }, out := Vector.replicate 96 {}, gp := {}, pwr := {}, bist := {}
    due := [], dbg := { c.dbg with polmax := 3, pollock := false, nonceCnt := 0 } }
  if s.pwr.dbgHeld then debugReset t else t

/-! ## Boot (R823-R827) -/

/-- Lanes that are enabled and idle start to train (R651, R823). -/
def startLanes (s : State) : State :=
  s.each 4 (fun s l =>
    if bit s.link.laneEn l && (s.lane l).st = 0 then
      let p := portOfLane s l
      (laneStart l s).modPort p (fun q => if q.st = 0 then { q with st := 1 } else q)
    else s)

/-- por_n rises, and with it nvm_clk_o at sc (R69, R79). -/
def releasePor (s : State) : State :=
  if porLow s then { s with ports := { s.ports with porN := true, nvmClk := .sc } } else s

/-- Stage 1: the option copies are read and one is loaded, and the PLL is started (R774, R823). While por_n is low, the boot
starts with its release. A warm reset leaves the link's configuration as it stands (R673). -/
def bootStart (s : State) : State :=
  let s := releasePor s
  let s :=
    if s.pwr.st = .deep && s.pwr.waking && s.pwr.stage = 9 then
      let s := deepReset s
      { s with pwr := { s.pwr with rstcause := setBit s.pwr.rstcause 7 true, restore := true } }
    else s
  if s.pwr.stage = 1 && s.bist.phase = .idle then
    let link := s.link
    let s := loadOptions s
    let s := if s.pwr.warm then { s with link := link }
      else { s with link := { s.link with eRole := s.link.role, eKey := s.link.netkey } }
    { s with pwr := { s.pwr with stage := 2, rstSafe := !s.ports.live } }
  else s

/-- Stages 4 to 7, the headworks' part (R421, R823, R825, R827): T15 starts and sets SHUTREQ.REQ, which a warm reset has set
before; the image, PATCHVER, run mode, and the autostart threads. T15 then waits for its first command. -/
def bootHeadworks (s : State) : State :=
  let s := writeShutreq 1 (startT15 s)
  let s := { s with seq := { s.seq with verPatch := 0, verImg := 0 } }
  let s := leaveSafe 15 (bootImage s)
  let s := s.modThr 15 (fun t => { t with
    run := .waiting { cond := 0, inv := false, evt := true, deadline := none } })
  let s := s.hg.loadAuto.foldl (fun s p =>
    if startAllowed p && !startRefused s p then startThread p s else s) s
  { s with hg := { s.hg with loadAuto := [] }, pwr := { s.pwr with stage := 7 } }

/-- The fast clock starts: this is its first fc (R86, R480), and the first window of R478 begins. -/
def startClock (s : State) : State :=
  let fc := if s.clk.running then s.clk.fc else s.clk.fc + 1
  { s with
    clk := { s.clk with running := true, fc := fc }
    ports := { s.ports with nvmClk := .fc16 }
    gp := { s.gp with winStart := fc } }

/-- The Gauge at PLL lock (R86, R480, R813, R885): kept, or loaded from AO with its make-up. The reload carries the Gauge
forward from what it held before (R905). -/
def lockGauge (s : State) : State :=
  if s.pwr.restore then
    let m := makeup s.gp.tally s.pwr.aoRatio
    let g := s.pwr.aoGauge + m
    let s := moveGauge g (g - s.clk.gauge).toInt.toNat { s with gp := { s.gp with mkup := m } }
    { s with pwr := { s.pwr with restore := false } }
  else s

/-- WDOG, WDPER and WDCLS come back after BIST (R885). -/
def lockWdog (s : State) : State :=
  match s.pwr.aoWdog with
  | none => s
  | some (w, per, cls) =>
    { s with
      wdog := { s.wdog with
        en := bit w 0, lock := bit w 1, wrst := bit w 2, dbgfrz := bit w 3, svcthr := fd w 4 4, per := per, cls := cls }
      pwr := { s.pwr with aoWdog := none } }

/-- PLL_LOCK: stages 2 and 3, and the headworks' stages when the firmware region passes (R823, R824, R827). -/
def pllLock (s : State) : State :=
  if s.pwr.stage = 2 then
    let s := lockWdog (lockGauge (startClock s))
    let s := startLanes { s with
      pwr := { s.pwr with plllock := true, stage := 3, riderHold := none } }
    let (ok, s) := loadFirmware s
    if ok then bootHeadworks { s with pwr := { s.pwr with fwok := true } }
    else raise 418 { s with pwr := { s.pwr with fwfail := true } }
  else s

/-- A write of BOOTCTL (R827). -/
def writeBootctl (v : U32) (s : State) : State :=
  if bit v 0 && s.pwr.fwfail && s.pwr.stage = 3 then
    bootHeadworks { s with pwr := { s.pwr with direct := true } }
  else s

/-- After a load, copies that are not valid and not marked are written again (R776, R777). -/
def repairCopies (s : State) : State :=
  if !s.nvm.prov && (copyOrder .repair s.nvm.optok s.nvm.opt.optbad) != [] then pump (addOption .repair s) else s

/-- BOOT_READY: stage 8 (R434, R796, R823, R825, R836, R886, R887). -/
def bootReady (s : State) : State :=
  if s.pwr.stage = 7 && s.outcal.valid && s.clk.running then
    let (time, s) := drawFree 16 s
    let back := s.pwr.trans || s.pwr.st != .run
    let s := repairCopies s
    let s := { s with
      hg := { s.hg with ready := true, bistp := s.bist.pend }
      ports := { s.ports with live := true }
      pwr := { s.pwr with
        stage := 9, time := time, trans := false, waking := false, warm := false, rstSafe := false
        st := if s.pwr.st = .deep then .run else s.pwr.st } }
    let s := raiseIf back 416 (raiseIf s.pwr.imgfail 418 s)
    let s := raiseIf s.nvm.bootUnc 387 { s with nvm := { s.nvm with bootUnc := false } }
    let bad := s.bist.lmis || s.bist.mmis
    let s := raiseIf (s.bist.valid && bad) 430 (raiseIf (s.bist.valid && !bad) 429 s)
    hgUpdate s
  else s

/-! ## Into SLEEP and DEEP (R808) -/

/-- Steps 1-3 have been begun and have ended, and nothing is outstanding on AXI (R808 steps 1-4). -/
def quiet (s : State) : Bool :=
  s.lg.persist = .idle && !s.lg.due && !s.lg.ppend && s.nvm.jobs.isEmpty
    && s.cul.ch.toList.all (fun c => c.paused)
    && s.hg.evOwed = 0 && s.dbg.access.isNone
    && s.seq.thr.toList.all (fun t => t.stores.isEmpty && t.owing.isNone &&
      (match t.run with
       | .parked (.load _ _ _ _ _) => false
       | _ => true))

/-- Step 3: every Culvert channel pauses (R615). -/
def pauseCulvert (s : State) : State :=
  { s with cul := { s.cul with ch := vmap s.cul.ch (fun _ c => { c with pause := true }) } }

/-- Steps 6 and 7: queues, flumes and the Rider stop, every outlet is held at SAFE, and the Rider's pins are held
(R73, R808). -/
def holdPads (s : State) : State :=
  let pins : U64 := bitsFrom 64 (fun p => (pinOut s p).1)
  let oes : U64 := bitsFrom 64 (fun p => (pinOut s p).2)
  let s := s.each 96 (fun s n => flushOut n s)
  let s := s.each 32 (fun s n => disarm n s)
  let s := riderStop s
  { s with
    out := vmap s.out (fun _ o => { o with padHold := some o.safe })
    pwr := { s.pwr with riderHold := some (pins, oes) } }

/-- The ports of CORE in SLEEP, in DEEP and while BIST runs (R73, R882). -/
def quietPorts (p : Ports) : Ports :=
  { p with smpClk := Vector.replicate 4 {}, landed := 0, sreqRise := Vector.replicate 32 0
           sreqFall := Vector.replicate 32 0, irqO := 0 }

/-- Lanes at SLEEP entry: lane 0 in trickle, the others idle (R676); `all`: every lane is idle (R73, R882). -/
def idleLanes (all : Bool) (s : State) : State :=
  let p0 := portOfLane s 0
  let keep := !all && bit s.link.laneEn 0
  let s := s.each 4 (fun s p =>
    if portFormed s p && !(keep && p = p0) then idlePort p (portLeave p 0 true s) else s)
  if keep then
    let live := portLive s p0
    let s := s.each 4 (fun s l =>
      if portOfLane s l = p0 && bit s.link.laneEn l then s.modLane l (fun x => { x with st := if l = 0 then 6 else 0 })
      else s)
    s.modPort p0 (fun q =>
      if live then { q with st := 4, pam4 := false, nearact := false }
      else { q with st := 4, pam4 := false, nearact := false, aseq := 0, txSeq := 0, rxSeq := 0, uncRun := 0
                    rxUnits := 0, cred := vgen 4 (fun v => BitVec.ofNat 8 (vlBuffer v)) })
  else s

/-- Steps 8-10: the Gauge stops and the tally starts (R477, R479, R435). -/
def stopClocks (s : State) : State :=
  { s with
    clk := { s.clk with running := false }
    ports := { quietPorts s.ports with nvmClk := .idle }
    tur := { s.tur with w1cSet := [], rcSet := [] }
    gp := { s.gp with tally := 0, tsat := false }
    wdog := { s.wdog with cnt := 0, opened := false }
    pwr := { s.pwr with plllock := false } }

/-- Steps 6-10 (R808, R813). A wake source seen during entry wakes the block at once (R810), as does wake_i at high
(R811). -/
def enterSleep (deep : Bool) (s : State) : State :=
  let s := stopClocks (idleLanes deep (holdPads s))
  let s := { s with pwr := { s.pwr with
    st := if deep then .deep else .sleep, trans := false, holdrel := false, oeHold := s.pwr.oeHold || deep
    riderHold := if deep then some (0, 0) else s.pwr.riderHold
    aoGauge := if deep then s.clk.gauge else s.pwr.aoGauge
    aoRatio := if deep then s.gp.ratio else s.pwr.aoRatio } }
  if s.ports.wakeI then wakeRequest 0 s else s

/-- DOZE is entered (R807). -/
def enterDoze (s : State) : State :=
  let s := { s with pwr := { s.pwr with st := .doze, trans := false } }
  if s.ports.wakeI then wakeRequest 0 s else s

/-! ## Out of DOZE and SLEEP -/

/-- DOZE_WAKE (R811, R812, R836). -/
def dozeWake (s : State) : State :=
  if s.pwr.st = .doze && s.pwr.waking then
    raise 416 { s with pwr := { s.pwr with st := .run, waking := false } }
  else s

/-- The port that kept trickle trains to full rate; idle lanes train from DETECT (R677, R812, R814). -/
def wakeLanes (s : State) : State :=
  let p0 := portOfLane s 0
  let s := if portFormed s p0 && (s.port p0).st = 4 then toDetect p0 true s else s
  startLanes s

/-- SLEEP_RETURN: PLL lock after SLEEP (R137, R480, R708, R712, R814, R815). -/
def sleepReturn (s : State) : State :=
  if s.pwr.st = .sleep && s.pwr.waking && s.bist.phase = .idle then
    let m := makeup s.gp.tally s.gp.ratio
    let s := startClock { s with gp := { s.gp with mkup := m }, pwr := { s.pwr with st := .run } }
    let s := moveGauge (s.clk.gauge + m) m.toNat s
    let s := { s with
      out := vmap s.out (fun _ o => { o with shadow := o.safe })
      outcal := { s.outcal with valid := false }
      link := { s.link with disc := false, lockRun := 0 }
      pwr := { s.pwr with waking := false, plllock := true, riderHold := none, holdrel := true } }
    raise 416 (relayWakes (wakeLanes s))
  else s

/-- PAD_HOLD_RELEASE (R815, R816): an enable that the release would raise waits, as R62 asks, for SAFE. -/
def padRelease (n : Nat) (s : State) : State :=
  if s.pwr.holdrel && s.clk.running then
    match (s.outlet n).padHold with
    | none => s
    | some held =>
      let t := s.modOut n (fun o => { o with
        padHold := none
        oe := if s.pwr.oeHold then o.oen && (o.oe || (o.oenLive && held == o.safe)) else o.oe })
      if outLevel t n = held then
        if t.out.toList.any (fun o => o.padHold.isSome) then t
        else { t with pwr := { t.pwr with holdrel := false, oeHold := false } }
      else s
  else s

/-! ## Registers (R830-R835) -/

/-- wake_o from the next sc edge on (R68, R817); the sc edges of RUN and DOZE are not counted (log entry 13). -/
def wakeOut (s : State) : Bool := s.pwr.woen && s.pwr.wakesrc != 0

/-- PWRSTAT.STATE. -/
def PowerState.code : PowerState → Nat
  | .run => 0
  | .doze => 1
  | .sleep => 2
  | .deep => 3

/-- PWRSTAT (R831). -/
def pwrstat (s : State) : U32 :=
  pk [(0, s.pwr.st.code), (2, b1 s.pwr.plllock), (3, b1 (s.out.toList.any (fun o => o.padHold.isSome))),
    (4, b1 (s.pwr.trans || (s.pwr.waking && s.pwr.st != .run))), (5, b1 s.pwr.pllloss), (6, s.nvm.opt.refsel.toNat)]

/-- BOOTSTAT (R835). -/
def bootstat (s : State) : U32 :=
  let p := s.pwr
  pk [(0, b1 p.fwok), (1, b1 p.fwfail), (2, b1 p.imgok), (3, b1 p.imgfail), (4, b1 p.noimg), (5, b1 p.direct),
    (8, p.stage.toNat), (16, p.time.toNat)]

/-- HOLDREL (R816): after READY, it lets go of what pad hold holds, with the shadow levels at SAFE (R903). -/
def writeHoldrel (s : State) : State :=
  if s.hg.ready && s.out.toList.any (fun o => o.padHold.isSome) then
    { s with
      out := vmap s.out (fun _ o => if o.padHold.isSome then { o with shadow := o.safe } else o)
      pwr := { s.pwr with holdrel := true } }
  else s

/-- PWRCTL.WAKE wakes the block in every state (R811, R869). -/
def pwrctlWake (s : State) : State :=
  hwSet 0x100C 0x40 { s with pwr := { s.pwr with
      wakesrc := setBit s.pwr.wakesrc 6 true
      waking := s.pwr.waking || s.pwr.st != .run || s.pwr.trans } }

/-- A write of PWRCTL (R811, R816, R831). -/
def writePwrctl (v : U32) (s : State) : State :=
  let s := { s with pwr := { s.pwr with woen := bit v 2 } }
  let s := if bit v 0 then pwrctlWake s else s
  if bit v 1 then writeHoldrel s else s

/-- A write of RSTCTL (R819, R834). -/
def writeRstctl (v : U32) (s : State) : State :=
  let s := { s with pwr := { s.pwr with linken := bit v 1 } }
  if bit v 0 && fd v 16 16 = (0x5AA5 : BitVec 16) then requestReset 2 s else s

def pwrRead (s : State) (r : Nat) : U32 :=
  let p := s.pwr
  match r with
  | 0x00 => pk [(2, b1 p.woen)]
  | 0x04 => pwrstat s
  | 0x08 => p.wakeen.zeroExtend 32
  | 0x0C => p.wakesrc.zeroExtend 32
  | 0x10 => fd p.wakeTally 0 32
  | 0x14 => (fd p.wakeTally 32 16).zeroExtend 32
  | 0x18 => pk [(1, b1 p.linken)]
  | 0x1C => p.rstcause.zeroExtend 32
  | 0x20 => bootstat s
  | _ => 0

def pwrWrite (r : Nat) (v : U32) (s : State) : State :=
  let p := s.pwr
  match r with
  | 0x00 => writePwrctl v s
  | 0x04 => { s with pwr := { p with pllloss := p.pllloss && !bit v 5 } }
  | 0x08 => { s with pwr := { p with wakeen := fd v 0 6 } }
  | 0x0C => { s with pwr := { p with wakesrc := w1c p.wakesrc (fd v 0 7) } }
  | 0x10 => { s with pwr := { p with wakeTally := fd p.wakeTally 32 16 ++ v } }
  | 0x14 => { s with pwr := { p with wakeTally := fd v 0 16 ++ fd p.wakeTally 0 32 } }
  | 0x18 => writeRstctl v s
  | 0x1C => { s with pwr := { p with rstcause := w1c p.rstcause (fd v 0 8) } }
  | 0x24 => writeBootctl v s
  | _ => s

/-! ## Commands -/

def execPowerOnReset (s : State) : Host.Outcome State Fault Refusal := .next (powerOn s)

/-- WARM_RESET: recognised once requested; a request made while BIST runs is held (R883). -/
def execWarmReset (s : State) : Host.Outcome State Fault Refusal :=
  .next (if s.pwr.rstReq != 0 && s.bist.phase = .idle then warmReset s else s)

/-- DEBUG_RESET: dbg_por_n falls; held until BIST completes (R883). -/
def execDebugReset (s : State) : Host.Outcome State Fault Refusal :=
  .next (if s.bist.phase = .idle then debugReset s else { s with pwr := { s.pwr with dbgHeld := true } })

def execRstNAssert (s : State) : Host.Outcome State Fault Refusal := .next (requestReset 1 s)

/-- PLL_LOSS (R821). -/
def execPllLoss (s : State) : Host.Outcome State Fault Refusal :=
  .next (if s.pwr.plllock && awake s then
    raise 417 <| hwSet 0x1004 0x20 { s with pwr := { s.pwr with plllock := false, pllloss := true, pllDue := true } }
  else s)

/-- PLL_LOSS_RESET_REQUEST (R821). -/
def execPllLossResetRequest (s : State) : Host.Outcome State Fault Refusal :=
  .next (if s.pwr.pllDue then requestReset 5 { s with pwr := { s.pwr with pllDue := false } } else s)

def execBootStart (s : State) : Host.Outcome State Fault Refusal := .next (bootStart s)

def execPllLock (s : State) : Host.Outcome State Fault Refusal := .next (pllLock s)

def execBootReady (s : State) : Host.Outcome State Fault Refusal := .next (bootReady s)

/-- WAKE_PIN: wake_i has a level (R67, R811); BIST ignores it (R882), as does a block whose por_n is low (R32). -/
def execWakePin (level : Bool) (s : State) : Host.Outcome State Fault Refusal :=
  .next (if s.bist.phase = .idle && !porLow s then
    let s := { s with ports := { s.ports with wakeI := level } }
    if level then wakeRequest 0 s else s
  else s)

/-- TALLY_WAKE (R811). -/
def execTallyWake (s : State) : Host.Outcome State Fault Refusal :=
  .next (if s.bist.phase = .idle && decide (s.pwr.wakeTally ≤ s.gp.tally) then wakeRequest 2 s else s)

def execDozeWake (s : State) : Host.Outcome State Fault Refusal := .next (dozeWake s)

def execSleepReturn (s : State) : Host.Outcome State Fault Refusal := .next (sleepReturn s)

def execPadHoldRelease (n : Fin 96) (s : State) : Host.Outcome State Fault Refusal := .next (padRelease n s)

/-- The fc that the present window of 65,536 sc has had: as a UQ32.16 number, the fc per sc (R478). -/
def windowCount (s : State) : U48 := BitVec.ofNat 48 (s.clk.fc - s.gp.winStart)

/-- RATIO_WINDOW: a window of 65,536 sc ends with `ratio` fc per sc (R478). The block counts its own fc edges, so a window with
another count does not end here. -/
def execRatioWindow (ratio : U48) (s : State) : Host.Outcome State Fault Refusal :=
  .next (if awake s && s.pwr.plllock && ratio = windowCount s then
    { s with gp := { s.gp with ratio := ratio, rvalid := true, winStart := s.clk.fc } }
  else s)

/-- TALLY_COUNT: an sc edge while the Gauge stands still after SLEEP, DEEP or BIST entry (R479, R880). -/
def execTallyCount (s : State) : Host.Outcome State Fault Refusal :=
  .next (if !s.clk.running && (s.pwr.st = .sleep || s.pwr.st = .deep || s.pwr.restore || s.bist.phase != .idle) then
    if s.gp.tally = BitVec.allOnes 48 then { s with gp := { s.gp with tsat := true } }
    else { s with gp := { s.gp with tally := s.gp.tally + 1 } }
  else s)

end Sys2Proof.Machine
end

