-- ==== Sys2Proof/Machine/Bus.lean ====
section
/-! DEFINITION. The register window (21): which offsets hold registers, reads and writes of every agent, the sequencer's
own registers (05, 07), the store windows, and the package-group aperture. -/

namespace Sys2Proof.Machine

/-! ## Requesters -/

/-- The thread behind an access, if one is. -/
def Agent.thread : Agent → Option Nat
  | .law n => some n.toNat
  | .sup n => some n.toNat
  | .mach n => some n.toNat
  | _ => none

/-- The STWSEL and staged nanoword of a requester (R894). -/
def winOf (s : State) : Agent → Window
  | .host => s.mem.winApb
  | .debugger => s.mem.winDbg
  | _ => s.mem.winSeq

def modWin (ag : Agent) (f : Window → Window) (s : State) : State :=
  match ag with
  | .host => { s with mem := { s.mem with winApb := f s.mem.winApb } }
  | .debugger => { s with mem := { s.mem with winDbg := f s.mem.winDbg } }
  | _ => { s with mem := { s.mem with winSeq := f s.mem.winSeq } }

/-! ## Threads (R285-R295) -/

/-- THR[n].STATE (R288). Of several that hold at once, ST shows safe mode first and then the monitor (DESIGN CHOICE, log
entry 36). -/
def threadState (s : State) (n : Nat) : U32 :=
  let t := s.thr n
  let st : Nat :=
    if t.safe then 6
    else if t.mon then 4
    else match t.run with
      | .stopped => 0
      | .ready => 1
      | .waiting _ => 2
      | .parked _ => 3
      | .dry => 5
  pk [(0, st), (3, b1 (heldResv s t.ctx).isSome), (4, t.ctx.priv.toNat), (6, t.ctx.mask.toNat),
    (9, t.ctx.hw.length), (14, b1 t.ctx.rep.isSome)]

def thrRead (s : State) (n r : Nat) : U32 :=
  let t := s.thr n
  match r with
  | 0x00 => pk [(0, b1 t.hazchk)]
  | 0x04 => threadState s n
  | 0x08 => (pcShown t).zeroExtend 32
  | 0x0C => statusNow t.ctx
  | 0x10 => rowWord t.ctx.rsp
  | 0x14 => rowWord t.ctx.rslo
  | 0x18 => rowWord t.ctx.rshi
  | 0x1C => t.ctx.dsl
  | 0x20 => t.issue
  | 0x24 => t.maxmask.zeroExtend 32
  | _ => 0

def thrWrite (n r : Nat) (v : U32) (s : State) : State :=
  match r with
  | 0x00 => s.modThr n (fun t => { t with hazchk := bit v 0 })
  | 0x10 => s.modCtxBoth n (fun c => { c with rsp := fd v 4 16 })
  | 0x14 => s.modCtxBoth n (fun c => { c with rslo := fd v 4 16 })
  | 0x18 => s.modCtxBoth n (fun c => { c with rshi := fd v 4 16 })
  | 0x1C => s.modCtxBoth n (fun c => { c with dsl := v })
  | 0x24 => s.modThr n (fun t => { t with maxmask := fd v 0 3 })
  | _ => s

/-! ## The privilege and exceptions page (R296-R300, R394-R398, R876) -/

/-- XINFO (R398). -/
def xinfo (t : Thread) : U32 :=
  pk [(0, t.xvec.toNat), (8, t.depth.toNat), (16, b1 t.xsw), (17, b1 t.spill), (18, b1 (t.run = .dry)), (19, b1 t.mon)]

/-- A register at offset `r` from 0x2_2000. -/
def excRead (s : State) (r : Nat) : U32 :=
  let q := s.seq
  if 0x400 ≤ r && r < 0x480 then
    let t := s.thr ((r - 0x400) / 8)
    if r % 8 = 0 then t.monreq else t.mondata
  else if 0x100 ≤ r && r < 0x300 then
    let t := s.thr ((r - 0x100) / 0x20)
    match r % 0x20 with
    | 0x14 => xinfo t
    | 0x18 => t.xpc.zeroExtend 32
    | 0x1C => t.xaddr
    | k => vget t.xctx (k / 4) 0
  else match r with
    | 0x000 => pk [(10, q.excbase.toNat)]
    | 0x004 => q.spillpc.zeroExtend 32
    | 0x008 => q.spilldsp
    | 0x00C => pk [(4, q.spillBase.toNat), (20, q.spillRows.toNat)]
    | 0x010 => q.spilldsl
    | 0x014 => pk [(0, b1 q.spActive), (1, q.spThr.toNat), (5, q.spVec.toNat), (16, q.spCount.toNat)]
    | 0x800 => q.hwin.zeroExtend 32
    | 0x804 => q.scond.zeroExtend 32
    | 0x810 => pk [(0, b1 q.safeThr.isSome), (1, (q.safeThr.getD 15).toNat)]
    | r => if 0x020 ≤ r && r < 0x034 then vget q.spx ((r - 0x020) / 4) 0 else 0

/-- MONREQ and MONDATA take writes only from the debugger and from the thread itself in its monitor (R876). -/
def monWriter (s : State) (n : Nat) : Agent → Bool
  | .debugger => true
  | .mach m => m.toNat = n && (s.thr n).mon
  | _ => false

/-- HWIN is written: the accesses issued in this fc still find the old value (R297). -/
def writeHwin (v : BitVec 17) (s : State) : State :=
  { s with seq := { s.seq with hwin := v, hwinAt := s.clk.fc + 1, hwinOld := hwinNow s } }

/-- A write of SCOND, SCONDSET or SCONDCLR: of the writes of one fc the direct ones come first, then the sets, then the clears
(R298, R299). -/
def writeScond (base : Option U16) (set clr : U16) (s : State) : State :=
  let q := s.seq
  let fresh : Bool := q.scondAt = s.clk.fc + 1
  let b := base.getD (if fresh then q.scondBase else q.scond)
  let st := set ||| (if fresh then q.scondSet else 0)
  let cl := clr ||| (if fresh then q.scondClr else 0)
  { s with seq := { q with
      scond := (b ||| st) &&& ~~~cl, scondAt := s.clk.fc + 1, scondBase := b, scondSet := st, scondClr := cl } }

def excWrite (ag : Agent) (r : Nat) (v : U32) (s : State) : State :=
  let q := s.seq
  if 0x400 ≤ r && r < 0x480 then
    let n := (r - 0x400) / 8
    if !monWriter s n ag then s
    else if r % 8 = 0 then s.modThr n (fun t => { t with monreq := v &&& 0x3FF })
    else s.modThr n (fun t => { t with mondata := v })
  else if 0x100 ≤ r && r < 0x300 then
    let k := r % 0x20 / 4
    if k < 5 then s.modThr ((r - 0x100) / 0x20) (fun t => { t with
      xctx := vset t.xctx k (if 1 ≤ k && k ≤ 3 then v &&& 0xFFFF0 else v) })
    else s
  else match r with
    | 0x000 => { s with seq := { q with excbase := fd v 10 10 } }
    | 0x004 => { s with seq := { q with spillpc := fd v 0 16 } }
    | 0x008 => { s with seq := { q with spilldsp := v } }
    | 0x00C => { s with seq := { q with spillBase := fd v 4 16, spillRows := fd v 20 12 } }
    | 0x010 => { s with seq := { q with spilldsl := v } }
    | 0x014 => { s with seq := { q with spCount := fd v 16 16 } }
    | 0x800 => writeHwin (fd v 0 17) s
    | 0x804 => writeScond (some (fd v 0 16)) 0 0 s
    | 0x808 => writeScond none (fd v 0 16) 0 s
    | 0x80C => writeScond none 0 (fd v 0 16) s
    | r => if 0x020 ≤ r && r < 0x034 then { s with seq := { q with spx := vset q.spx ((r - 0x020) / 4) v } } else s

/-! ## BIST registers (R888-R890) -/

/-- BISTSTAT (R888). -/
def biststat (s : State) : U32 :=
  let b := s.bist
  pk [(0, b1 b.valid), (1, b1 b.lrun), (2, b1 b.mrun), (3, b1 b.lmis), (4, b1 b.mmis), (5, b1 b.lnoref), (6, b1 b.mnoref),
    (7, b1 b.dbg), (8, b1 b.refd), (16, b.mfail.toNat), (24, b.time.toNat)]

def bistRead (s : State) (r : Nat) : U32 :=
  let b := s.bist
  match r with
  | 0x00 => biststat s
  | 0x04 => pk [(0, b.cid.toNat), (16, b.ring.toNat), (18, b.member.toNat), (21, b1 b.irq), (22, b1 b.pend)]
  | 0x08 => fd b.logicSig 0 32
  | 0x0C => fd b.logicSig 32 32
  | 0x10 => fd b.memSig 0 32
  | 0x14 => fd b.memSig 32 32
  | _ => 0

/-! ## The map (R892) -/

/-- The offset holds a register, an instance or a word of a memory array (R37, R892): everything else in the window is
unassigned or reserved. -/
def assigned (off : Nat) : Bool :=
  let within (lo hi : Nat) : Bool := decide (lo ≤ off) && decide (off < hi)
  let one (l : List Nat) (r : Nat) : Bool := l.contains (r / 4 * 4)
  within 0 0x10 || within 0x1000 0x1028 || within 0x1800 0x180C || within 0x2000 0x2018
    || (within 0x2040 0x2100 && decide (off % 0x20 < 0x14)) || within 0x2100 0x2110 || within 0x2200 0x2240
    || within 0x3000 0x3080 || within 0x3100 0x3148 || within 0x3180 0x3184 || within 0x4000 0x5000
    || within 0x6000 0x6020 || within 0x6100 0x6900 || within 0x8000 0x8C04 || within 0x9000 0x9800
    || within 0xA000 0xA800 || within 0xB000 0xB010 || within 0xB040 0xB060 || within 0xC000 0xE000
    || (within 0xE000 0xE200 && decide (off % 0x40 < 0x18)) || within 0xE400 0xE414 || within 0x10000 0x20000
    || (within 0x20000 0x20400 && decide (off % 0x40 < 0x2C))
    || (within 0x21000 0x22000 && decide (off % 0x100 < 0x28))
    || within 0x22000 0x22018 || within 0x22020 0x22034 || within 0x22100 0x22300 || within 0x22400 0x22480
    || within 0x22800 0x22814 || within 0x23000 0x23008 || within 0x23020 0x23100
    || (within 0x23100 0x23180 && decide (off % 0x20 < 0x10))
    || (within 0x23200 0x23A00 && (let r := (off - 0x23200) % 0x200
          decide (r < 0x28) || (decide (0x100 ≤ r) && decide (r < 0x11C))))
    || within 0x24000 0x24024 || within 0x24100 0x24300 || within 0x25000 0x25024
    || within 0x26000 0x26014 || one [0x26020, 0x26024, 0x26028, 0x2602C, 0x26030, 0x26034] off

/-- The value of the register at `off` as a read returns it, with no side effect (R892, R901). -/
def regValue (s : State) (ag : Agent) (off : Nat) : U32 :=
  if !assigned off then 0
  else if off < 0x1000 then
    match off with
    | 0x0 => 0x00030001
    | 0x4 => pk [(0, s.seq.verImg.toNat), (8, s.seq.verPatch.toNat), (16, s.seq.verLib.toNat), (24, s.seq.verHw.toNat)]
    | 0x8 => pk [(0, 96), (7, 32), (13, 16), (18, 8), (22, 4), (25, 8)]
    | 0xC => pk [(0, (winOf s ag).space.toNat), (2, (winOf s ag).page.toNat)]
    | _ => 0
  else if off < 0x1800 then pwrRead s (off - 0x1000)
  else if off < 0x2000 then smpRead s (off - 0x1800)
  else if off < 0x3000 then hgRead s (off - 0x2000)
  else if off < 0x6000 then turnoutRead s ag.thread (off - 0x3000)
  else if off < 0x6100 then gaugeRead s (off - 0x6000)
  else if off < 0x8000 then tmrRead s ((off - 0x6100) / 0x40) (off % 0x40)
  else if off < 0x8C00 then outRead s ((off - 0x8000) / 0x20) (off % 0x20)
  else if off < 0x9000 then outcalRead s
  else if off < 0xA000 then flRead s ((off - 0x9000) / 0x40) (off % 0x40)
  else if off < 0xB000 then rchRead s ((off - 0xA000) / 0x40) (off % 0x40)
  else if off < 0xC000 then riderRead s (off - 0xB000)
  else if off < 0xE000 then progWord s ((off - 0xC000) / 4)
  else if off < 0xE400 then gateRead s ((off - 0xE000) / 0x40) (off % 0x40)
  else if off < 0x10000 then shutRead s (off - 0xE400)
  else if off < 0x20000 then gateTableRead s ((off - 0x10000) / 0x2000) (off % 0x2000 / 4)
  else if off < 0x21000 then culRead s ((off - 0x20000) / 0x40) (off % 0x40)
  else if off < 0x22000 then thrRead s ((off - 0x21000) / 0x100) (off % 0x100)
  else if off < 0x23000 then excRead s (off - 0x22000)
  else if off < 0x24000 then linkRead s (off - 0x23000)
  else if off < 0x25000 then lgRead s (off - 0x24000)
  else if off < 0x26000 then nvmReg s (off - 0x25000)
  else if off < 0x26020 then wdogRead s (off - 0x26000)
  else bistRead s (off - 0x26020)

/-- What a read of the register at `off` does beside (R901). -/
def regEffect (ag : Agent) (off : Nat) (s : State) : State :=
  if !assigned off then s
  else if 0x2000 ≤ off && off < 0x3000 then hgReadEffect (off - 0x2000) s
  else if 0x3000 ≤ off && off < 0x4000 then turnoutReadEffect ag.thread (off - 0x3000) s
  else if 0x6100 ≤ off && off < 0x6900 && off % 0x40 = 0x1C then (readCap ((off - 0x6100) / 0x40) s).2
  else if 0x9000 ≤ off && off < 0x9800 then flReadEffect ag ((off - 0x9000) / 0x40) (off % 0x40) s
  else if 0xA000 ≤ off && off < 0xA800 && off % 0x40 = 0x2C then (popRx ((off - 0xA000) / 0x40) s).2
  else if 0x23000 ≤ off && off < 0x24000 then linkReadEffect (off - 0x23000) s
  else if 0x24000 ≤ off && off < 0x25000 then lgReadEffect (off - 0x24000) s
  else if 0x25000 ≤ off && off < 0x26000 then nvmReadEffect (off - 0x25000) s
  else s

/-- Only headworks code at machine privilege and the debugger at machine level write there (R361, R362). -/
def hostRefused (off : Nat) : Bool :=
  let within (lo hi : Nat) : Bool := decide (lo ≤ off) && decide (off < hi)
  within 0x22000 0x22018 || within 0x22020 0x22034 || within 0x22100 0x22300
    || (within 0x21000 0x22000 && off % 0x100 / 4 = 9)

/-- A write of a whole register (R11, R892). A W1C bit that hardware has set in this fc stays (R12). -/
def regStore (ag : Agent) (off : Nat) (v : U32) (s : State) : State × Resp :=
  let v := v &&& ~~~(hwFresh s off)
  if !atMachine s ag && hostRefused off then (s, { err := true })
  else if !assigned off then (s, {})
  else if off < 0x1000 then
    (if off = 0xC then modWin ag (fun w => { w with space := fd v 0 2, page := fd v 2 2 }) s else s, {})
  else if off < 0x1800 then (pwrWrite (off - 0x1000) v s, {})
  else if off < 0x2000 then (smpWrite (off - 0x1800) v s, {})
  else if off < 0x3000 then (hgWrite (off - 0x2000) v s, {})
  else if off < 0x6000 then (turnoutWrite (off - 0x3000) v s, {})
  else if off < 0x6100 then (s, {})
  else if off < 0x8000 then (tmrWrite ag ((off - 0x6100) / 0x40) (off % 0x40) v s, {})
  else if off < 0x8C00 then (outWrite ag ((off - 0x8000) / 0x20) (off % 0x20) v s, {})
  else if off < 0x9000 then ({ s with outcal := { s.outcal with trkerr := s.outcal.trkerr && !bit v 1 } }, {})
  else if off < 0xA000 then (flWrite ag ((off - 0x9000) / 0x40) (off % 0x40) v s, {})
  else if off < 0xB000 then (rchWrite ((off - 0xA000) / 0x40) (off % 0x40) v s, {})
  else if off < 0xC000 then (riderWrite (off - 0xB000) v s, {})
  else if off < 0xE000 then (writeProg ((off - 0xC000) / 4) v s, {})
  else if off < 0xE400 then gateWrite ag ((off - 0xE000) / 0x40) (off % 0x40) v s
  else if off < 0x10000 then shutWrite ag (off - 0xE400) v s
  else if off < 0x20000 then
    gateStore ag ((off - 0x10000) / 0x2000) (.table (BitVec.ofNat 11 (off % 0x2000 / 4))) v s
  else if off < 0x21000 then (culWrite ((off - 0x20000) / 0x40) (off % 0x40) v s, {})
  else if off < 0x22000 then (thrWrite ((off - 0x21000) / 0x100) (off % 0x100) v s, {})
  else if off < 0x23000 then (excWrite ag (off - 0x22000) v s, {})
  else if off < 0x24000 then (linkWrite (off - 0x23000) v s, {})
  else if off < 0x25000 then (lgWrite (off - 0x24000) v s, {})
  else if off < 0x26000 then (nvmWrite (off - 0x25000) v s, {})
  else if off < 0x26020 then (wdogWrite ag (off - 0x26000) v s, {})
  else if off = 0x26020 then ({ s with bist := { s.bist with refd := s.bist.refd && !bit v 8 } }, {})
  else (s, {})

/-! ## Store windows (R893-R899) -/

def nanoWord (s : State) (i : Nat) : BitVec 256 := sget 0 i s.mem.nano

/-- Byte size of a window space from its start (R895). -/
def winSize (space : BitVec 2) : Nat :=
  match space.toNat with
  | 0 => 0x40000
  | 1 => 0x20000
  | 2 => 0x40000
  | _ => 0x25000

/-- A read of data memory through the store window (R281, R896). -/
def winData (a : Nat) (s : State) : Resp × State :=
  if rowsBad s a 4 then ({ err := true, unc := true }, s)
  else
    let (l, s) := seenData a 4 s
    ({ data := ofLE 32 l }, s)

/-- What a window read at byte `w` returns (R895, R899). -/
def winRead (ag : Agent) (w : Nat) (s : State) : Resp × State :=
  let x := winOf s ag
  if winSize x.space ≤ w then ({}, s)
  else match x.space.toNat with
    | 0 => if marked (w / 4) s.mem.badMicro then ({ err := true, unc := true }, s)
      else ({ data := microWord s (BitVec.ofNat 16 (w / 4)) }, s)
    | 1 => if marked (w / 32) s.mem.badNano then ({ err := true, unc := true }, s)
      else ({ data := fd (nanoWord s (w / 32)) (32 * (w / 4 % 8)) 32 }, s)
    | 2 => winData (x.page.toNat * 0x40000 + w / 4 * 4) s
    | _ => ({ data := BitVec.ofNat 32 (lgGet s (w / 4 * 4) 4) }, s)

/-- APB writes reach the headworks and the base library while the boot stops at stage 3 (R827, R897). -/
def directLoad (s : State) (ag : Agent) : Bool := ag = .host && s.pwr.fwfail && s.pwr.stage = 3

/-- Writes microword `i` whole, where the partition admits it (R280, R281, R897). -/
def winMicro (ag : Agent) (i : Nat) (v : U32) (s : State) : State :=
  if 8192 ≤ i || (directLoad s ag && decide (i < 7680)) then putMicro i [v] s else s

/-- Writes nanoword `i` whole (R280, R281, R897). -/
def winNano (ag : Agent) (i : Nat) (v : BitVec 256) (s : State) : State :=
  if 1024 ≤ i || directLoad s ag then putNano i [v] s else s

/-- Stages word `j` of nanoword `i`, and writes the nanoword with word 7 (R852, R896). -/
def stageNano (ag : Agent) (i j : Nat) (v : U32) (strb : BitVec 4) (s : State) : State :=
  let cur := nanoWord s i
  let base : Vector U32 8 := match (winOf s ag).staged with
    | some (k, ws) => if k.toNat = i then ws else vgen 8 (fun m => fd cur (32 * m) 32)
    | none => vgen 8 (fun m => fd cur (32 * m) 32)
  let ws := vset base j (strobed (fd cur (32 * j) 32) v strb)
  if j = 7 then
    modWin ag (fun w => { w with staged := none })
      (winNano ag i (BitVec.ofNat 256 ((List.range 8).foldl (fun a m => a + (vget ws m 0).toNat * 2 ^ (32 * m)) 0)) s)
  else modWin ag (fun w => { w with staged := some (BitVec.ofNat 12 i, ws) }) s

/-- Bytes that the strobes select, each with its place. -/
def strobedBytes (v : U32) (strb : BitVec 4) : List (Nat × Byte) :=
  (List.range 4).filterMap (fun i => if bit strb i then some (i, byteOf v i) else none)

/-- A window write at byte `w` (R363, R896-R898). -/
def winWrite (ag : Agent) (w : Nat) (v : U32) (strb : BitVec 4) (s : State) : State × Resp :=
  let x := winOf s ag
  if winSize x.space ≤ w || strb = 0 then (s, {})
  else match x.space.toNat with
    | 0 =>
      let i := w / 4
      if marked i s.mem.badMicro && strb != 0xF then (s, {})
      else (winMicro ag i (strobed (microWord s (BitVec.ofNat 16 i)) v strb) s, {})
    | 1 => (stageNano ag (w / 32) (w / 4 % 8) v strb s, {})
    | 2 =>
      let a := x.page.toNat * 0x40000 + w / 4 * 4
      let l := strobedBytes v strb
      if !atMachine s ag && l.any (fun p => inExcTable s (a + p.1) 1) then (s, { err := true })
      else if partBad s a 4 then (s, {})
      else (l.foldl (fun s p => storeRow (a + p.1) [p.2] s) s, {})
    | _ =>
      let a := w / 4 * 4
      (lgmPut a (strobed (BitVec.ofNat 32 (lgGet s a 4)) v strb) s, {})

/-! ## Accesses of the block's own registers -/

/-- A write at offset `off` < 0x8_0000 (R17, R37). -/
def busWrite (ag : Agent) (off : Nat) (v : U32) (strb : BitVec 4) (s : State) : State × Resp :=
  let off := off / 4 * 4
  if 0x40000 ≤ off then winWrite ag (off - 0x40000) v strb s
  else if strb != 0xF then (s, { err := assigned off })
  else regStore ag off v s

/-- A read at offset `off` < 0x8_0000; an inspect read has no side effect (R854, R901). -/
def busRead (ag : Agent) (inspect : Bool) (off : Nat) (s : State) : Resp × State :=
  let off := off / 4 * 4
  if 0x40000 ≤ off then winRead ag (off - 0x40000) s
  else ({ data := regValue s ag off }, if inspect then s else regEffect ag off s)

/-- The 8-byte loads of R90 and R197: two words as they stand in one fc. -/
def busRead8 (ag : Agent) (off : Nat) (s : State) : (U32 × U32) × State :=
  let lo := regValue s ag off
  let hi := regValue s ag (off + 4)
  ((lo, hi), regEffect ag (off + 4) s)

/-! ## The group window (R723-R727, R900) -/

/-- Same requester: host, debugger, or one thread (R727). -/
def sameRequester (a b : Agent) : Bool :=
  match a.thread, b.thread with
  | some m, some n => m = n
  | none, none => a = b
  | _, _ => false

/-- Sends an access to member `m` as a REGREQ; the answer tells whether it is refused because the member is not
present (R727), and nothing happens while four of the requester's accesses are outstanding. -/
def forwardAccess (ag : Agent) (m : Nat) (off : Nat) (wr : Option U32) (strb : BitVec 4) (inspect : Bool) (s : State) :
    State × Bool :=
  if !memberPresent s m then (hwSet 0x2304C 0x100 { s with link := { s.link with fwderr := true } }, true)
  else if 4 ≤ (s.link.fwd.filter (fun f => sameRequester f.agent ag)).length then (s, false)
  else
    let (id, s) := nextMsg s
    let flags : Byte := BitVec.ofNat 8 (b1 wr.isSome + 2 * b1 inspect + 16 * strb.toNat)
    let content := bytesLE (BitVec.ofNat 32 off) 4 ++ [flags] ++ bytesLE (wr.getD 0) 4
    let rec_ : Forwarded :=
      { agent := ag, member := BitVec.ofNat 3 m, addr := BitVec.ofNat 20 off, wr := wr, strb := strb, inspect := inspect
        msgid := id }
    let f : Frame :=
      { ftype := 6, vl := 0, sub := 5, src := s.link.node, dst := (memberNode s m).getD 0, msgid := id
        content := content }
    (originate f none { s with link := { s.link with fwd := s.link.fwd ++ [rec_] } }, false)

end Sys2Proof.Machine
end

