-- ==== Sys2Proof/Machine/Issue.lean ====
section
/-! DEFINITION. Issue: which thread issues (R214-R217, R253), what stops a word before it has any effect (R222, R228,
R229, R274, R368, R380), what every word leaves, and the words (05, 06). -/

namespace Sys2Proof.Machine

/-! ## Entries that wait at a boundary (R366, R368, R373) -/

/-- The imprecise entry that is due, lowest vector first: its vector, the word that caused it and its address. -/
def impreciseDue (s : State) (t : Thread) : Option (BitVec 6 × Posted) :=
  match t.imp5 with
  | some p => some (5, p)
  | none =>
    let late : Option (BitVec 6 × Posted) := t.imp12.map (fun p => (12, p))
    match t.imp11.find? (fun p => decide (p.1 ≤ s.clk.fc)) with
    | some p => some (11, { pc := p.2, addr := 0 })
    | none => late

/-- Entry level of the descriptor of vector `v` (R365, R371). -/
def entryLevel (s : State) (v : BitVec 6) : BitVec 3 := fd (descriptor s v) 21 3

/-- The offered source that may enter thread n, with its vector (R364, R365, R633, R862). -/
def eventDue (s : State) (n : Nat) : Option (Nat × BitVec 6) :=
  let t := s.thr n
  match offered s n with
  | none => none
  | some k =>
    let v : BitVec 6 := 16 + (s.source k).pri.zeroExtend 6
    if !t.mon && decide (t.ctx.mask < entryLevel s v) then some (k, v) else none

/-- A monitor entry by HALT or STEP is due (R860, R865). -/
def debugDue (t : Thread) : Bool := !t.mon && !t.spill && (t.halt || decide (2 ≤ t.stepWords))

/-! ## Microwords (R218-R221) -/

/-- Bit 31 is 0: an operation word. -/
def isOp (w : U32) : Bool := !bit w 31

/-- The command that carries the word out: 16 an operation word, 17 an exception return, otherwise its subclass. -/
def rowOf (w : U32) : Nat :=
  if isOp w then 16
  else if fd w 27 4 = (2 : BitVec 4) && bit w 17 then 17
  else (fd w 27 4).toNat

def wCond (w : U32) : BitVec 8 := fd w 19 8
def wDst (w : U32) : BitVec 5 := fd w 22 5
def wAreg (w : U32) : BitVec 5 := fd w 17 5
def wSreg (w : U32) : BitVec 5 := fd w 12 5
def wCreg (w : U32) : BitVec 5 := fd w 8 5

/-- Reserved bits of a control word that must be 0 (R221). -/
def wReserved (w : U32) : U32 :=
  match (fd w 27 4).toNat with
  | 0x0 => if bit w 17 then w &&& 0x1FFE0 else w &&& 0x10000
  | 0x1 => if bit w 17 then w &&& 0x1FFE0 else w &&& 0x10000
  | 0x2 => w &&& 0x1FFFF
  | 0x3 => w &&& 0x7FFC000
  | 0x4 => w &&& 0x7FFC0C0
  | 0x5 => if fd w 20 2 = (2 : BitVec 2) then w &&& 0xF0000 else 0
  | 0x6 => w &&& 0x1FFFF
  | 0x7 => w &&& 0xFFF
  | 0x8 => w &&& 0x7FFFFE0
  | 0x9 => w &&& 0xFFFFF
  | 0xA => w &&& 0x10000
  | 0xB => w &&& 0x7FFFFFC
  | _ => 0

/-- The operation word at pc as thread n finds it. -/
def opOf (s : State) (n : Nat) (w : U32) : Op :=
  { w := w, nw := nanoWord s (fd w 19 12 : BitVec 12).toNat, k := s.free, c := (s.thr n).ctx }

/-- The transfer of a BR, CALL or RET is taken (R224). -/
def taken (s : State) (c : Ctx) (w : U32) : Bool := condInput s s.free 39 c (wCond w) != bit w 18

/-- Target of a BR or CALL (R221). -/
def target (s : State) (c : Ctx) (w : U32) : U16 :=
  if bit w 17 then fd (readG s.free 53 c (fd w 0 5)) 0 16 else fd w 0 16

/-- The address in AREG, and the data in SREG (R268, R269). -/
def aregOf (s : State) (c : Ctx) (w : U32) : U32 := readG s.free 54 c (wAreg w)
def sregOf (s : State) (c : Ctx) (w : U32) : U32 := readG s.free 55 c (wSreg w)

/-- The count of a repeat prefix: that of the status word returned to, CNT, or CREG (R239, R245). -/
def repCount (s : State) (c : Ctx) (w : U32) : Nat :=
  if c.resume != 0 then c.resume.toNat
  else if bit w 13 then (readG s.free 56 c (wCreg w)).toNat
  else if fd w 27 4 = (3 : BitVec 4) then (fd w 0 8).toNat + 1 else (fd w 0 6).toNat + 1

/-- The word after a repeat prefix is no operation word, or is a long word (R241, R352). -/
def badRepeat (s : State) (pc : U16) : Bool :=
  let w := microWord s (pc + 1)
  !marked (pc + 1).toNat s.mem.badMicro
    && (!isOp w || fd (nanoWord s (fd w 19 12 : BitVec 12).toNat) 6 2 != (0 : BitVec 2))

/-- The status word that an exception return of thread n restores, as the return reads it (R379, R863). -/
def retStatus (s : State) (n : Nat) : U32 × State :=
  let t := s.thr n
  if t.mon && !t.spill then (t.mstat, s)
  else
    let a := readG s.free 57 t.ctx 31
    if a.toNat % 4 = 0 && regionOf a = .data then
      let (l, s) := loadData a.toNat 4 s
      (ofLE 32 l, s)
    else (0, s)

/-- The word reserves, or stores under, a granule that it holds (R269). -/
def holdsGranule (s : State) (c : Ctx) (a : U32) : Bool :=
  match heldResv s c with
  | some r =>
    if regionOf a = .host then r.host && r.granule.toNat = (hostAddr s a).toNat / 16
    else !r.host && r.granule.toNat = a.toNat / 16
  | none => false

/-! ## What stops a word (R222, R228, R229, R240, R241, R272, R274, R368, R380, R385) -/

/-- The registers, flags and rows that a control word reads (R246, R252). -/
def controlReads (s : State) (n : Nat) (w : U32) : List Prod :=
  let c := (s.thr n).ctx
  match (fd w 27 4).toNat with
  | 0x0 => condReads (wCond w) ++ (if bit w 17 then [.g (fd w 0 5)] else [])
  | 0x1 => condReads (wCond w) ++ (if bit w 17 then [.g (fd w 0 5)] else [])
  | 0x2 =>
    let sp := readG s.free 57 c 31
    condReads (wCond w) ++ (if bit w 17 && !((s.thr n).mon && !(s.thr n).spill) then
      .g 31 :: (if regionOf sp = .data then [.row (BitVec.ofNat 16 (sp.toNat / 16))] else []) else [])
  | 0x3 => if bit w 13 && c.resume = 0 then [.g (wCreg w)] else []
  | 0x4 => if bit w 13 && c.resume = 0 then [.g (wCreg w)] else []
  | 0x5 => if fd w 20 2 = (2 : BitVec 2) then [.g (wDst w)] else []
  | 0x6 => .g (wAreg w) ::
    (if regionOf (aregOf s c w) = .data then [.row (BitVec.ofNat 16 ((aregOf s c w).toNat / 16))] else [])
  | 0x7 => [.g (wAreg w), .g (wSreg w)]
  | 0xA => condReads (wCond w)
  | _ => []

/-- The stop of a control word, after its fetch (R368). -/
def controlStop (s : State) (n : Nat) (w : U32) (early : List Nat) : List Nat × Option Stop :=
  let t := s.thr n
  let c := t.ctx
  let sub := (fd w 27 4).toNat
  let slot := c.ds.isSome
  let go := taken s c w
  let isCall := sub = 1 && go
  let isRet := sub = 2 && !bit w 17 && go
  let isExc := sub = 2 && bit w 17 && go
  let inMon := t.mon && !t.spill
  let sp := readG s.free 57 c 31
  let st := (retStatus s n).1
  let readable := inMon || (sp.toNat % 4 = 0 && regionOf sp = .data && !rowsBad s sp.toNat 4)
  let push := if isCall then pushFault s c else none
  let pop := if isRet || (isExc && !inMon) then popFault s c else none
  let a := aregOf s c w
  let atomic := sub = 6 || sub = 7
  let stores := sub = 7 && holdsGranule s c a
  let rep := sub = 3 || sub = 4
  let setp := bit w 21
  let setm := bit w 20
  let npriv : BitVec 2 := fd w 25 2
  let nmask : BitVec 3 := fd w 22 3
  let illegal := decide (0xC ≤ sub) || wReserved w != 0
    || (sub = 5 && fd w 20 2 = (3 : BitVec 2)) || (sub = 0xB && fd w 0 2 = (3 : BitVec 2))
    || (sub = 9 && ((setp && npriv = 2) || c.msh.isSome))
    || (slot && (decide (sub ≤ 2) || (decide (8 ≤ sub) && decide (sub ≤ 0xA))))
    || (isExc && t.depth = 0 && !t.spill && !t.mon)
  let count := repCount s c w
  let modeBad := sub = 9 && ((setp && decide (c.priv < npriv))
    || (setm && c.priv = 0 && nmask != c.mask) || (setm && c.priv = 1 && decide (t.maxmask < nmask)))
  let statusBad := isExc && readable && (fd st 4 2 = (2 : BitVec 2) || decide (c.priv < fd st 4 2)
    || (decide (c.mask < fd st 6 3) && !isMach c.priv))
  let c1 : List (Bool × BitVec 6 × U32) :=
    [(illegal, 2, 0),
     (rep && (slot || (bit w 13 && c.resume = 0 && (count = 0 || decide ((if sub = 3 then 256 else 64) < count)))
        || badRepeat s c.pc), 14, 0),
     (t.hazchk && !t.safe && tooNear c t.words (controlReads s n w), 10, 0),
     (modeBad || statusBad || push = some 3 || (stores && regionOf a = .data && !isMach c.priv && inExcTable s a.toNat 4),
        3, 0),
     (atomic && a.toNat % 4 != 0, 4, a),
     (isExc && !inMon && sp.toNat % 4 != 0, 4, sp)]
  let late := if atomic then cmpHits s n (accessValues s a (sub = 6) (sub = 7)) else []
  let c2 : List (Bool × BitVec 6 × U32) :=
    [(atomic && wAreg w = 31 && decide (a < c.dsl), 7, a),
     (isExc && !inMon && decide (sp < c.dsl), 7, sp),
     (push = some 6 || (match pop with | some (6, _) => true | _ => false), 6, 0),
     (atomic && regionOf a != .data && regionOf a != .host, 13, a),
     (isExc && !inMon && regionOf sp != .data, 12, sp),
     (sub = 6 && regionOf a = .data && rowsBad s a.toNat 4, 5, a),
     (isExc && !readable, 5, sp),
     (match pop with | some (5, _) => true | _ => false, 5, match pop with | some (_, x) => x | none => 0)]
  firstStop s early c1 late c2

/-- What stops the next word of thread n, and the comparators that count an event (R368, R859). -/
def wordStop (s : State) (n : Nat) (w : U32) : List Nat × Option Stop :=
  let t := s.thr n
  let c := t.ctx
  let nano := (fd w 19 12 : BitVec 12).toNat
  if marked c.pc.toNat s.mem.badMicro || (isOp w && marked nano s.mem.badNano) then ([], some (.fault 5 0))
  else if c.pc.toNat < 8192 && !isMach c.priv then ([], some (.fault 3 0))
  else
    let early := cmpHits s n ((0, c.pc.zeroExtend 48, false, false)
      :: (if isOp w then [(2, BitVec.ofNat 48 nano, false, false)] else []))
    if isOp w then (opOf s n w).stop n t.words (t.hazchk && !t.safe) early s
    else controlStop s n w early

/-! ## What comes before the next word (R368, R373) -/

/-- The next word of thread n, the return before it applied, meets a precise fault: it comes before any event (R368). The WAIT of
a waiting thread has issued, and meets no fault any more. -/
def wordFaults (s : State) (n : Nat) : Bool :=
  match (s.thr n).run with
  | .waiting _ => false
  | _ =>
    let s := applyRet n s
    (wordStop s n (microWord s (s.thr n).ctx.pc)).2.isSome

/-- Something other than the next word comes first at the present boundary (R368, R373). -/
def boundaryTaken (s : State) (n : Nat) : Bool :=
  let t := s.thr n
  boundaryOpen t.ctx && ((impreciseDue s t).isSome || debugDue t || (t.stopReq && !t.mon) || ((eventDue s n).isSome && !wordFaults s n))

/-! ## Selection (R214-R217, R253, R254) -/

/-- The thread may issue a word in this fc. One that takes an entry, or has one to take at this boundary, is not ready to issue, and a
lower mask level may issue in these fc (DESIGN CHOICE, log entry 36). -/
def mayIssue (s : State) (n : Nat) : Bool :=
  let t := s.thr n
  t.run = .ready && t.escal.isNone && decide (t.holdUntil ≤ s.clk.fc) && !boundaryTaken s n

/-- The thread that issues in this fc. -/
def selected (s : State) : Option Nat :=
  if !issuing s || s.seq.issuedAt = s.clk.fc + 1 || s.seq.idleAt = s.clk.fc + 1 then none
  else match s.seq.safeThr with
    | some k => if mayIssue s k.toNat && decide (s.seq.safeAt ≤ s.clk.fc - 3) then some k.toNat else none
    | none =>
      match (List.range 8).reverse.find? (fun m =>
          (List.range 16).any (fun n => mayIssue s n && (s.thr n).ctx.mask.toNat = m)) with
      | none => none
      | some m => firstFrom 16 ((vget s.seq.last m 15).toNat + 1) (fun n => mayIssue s n && (s.thr n).ctx.mask.toNat = m)

/-! ## What every word leaves -/

/-- The MODE shadow after a word (R273). -/
def modeStep (c : Ctx) : Ctx :=
  match c.msh with
  | none => c
  | some m =>
    if m.left ≤ 1 then
      { c with msh := none, priv := if m.setp then m.priv else c.priv, mask := if m.setm then m.mask else c.mask }
    else { c with msh := some { m with left := m.left - 1 } }

/-- The word's place in the stream: a slot goes to its target, a repeated word counts down, any other goes on. -/
def nextPc (c : Ctx) : Ctx :=
  match c.ds with
  | some d =>
    { c with pc := d.target.getD (c.pc + 1), ds := none, ret := c.ret.map (fun r => { r with slot := false }) }
  | none =>
    match c.rep with
    | some r =>
      if r.left ≤ 1 then { c with rep := none, pc := c.pc + 1 }
      else { c with rep := some { r with left := r.left - 1, first := false } }
    | none => { c with pc := c.pc + 1 }

/-- The word's own place is settled by `f`; the count of a return and the MODE shadow move on. -/
def afterCtx (f : Ctx → Ctx) (c : Ctx) : Ctx := modeStep { f c with resume := 0 }

/-- What every issued word leaves: counts, rotation, the idle fc of R217, loads of safe mode that land now (R255), the
comparators' pass (R857), a stop that was asked for (R573). -/
def counted (n : Nat) (isPrefix : Bool) (s : State) : State :=
  let t := s.thr n
  let now := s.clk.fc
  let s := { s with seq := { s.seq with
    issuedAt := now + 1
    idleAt := if t.hazchk && !t.safe then now + 2 else s.seq.idleAt
    safeAt := if t.safe then now + 1 else s.seq.safeAt
    last := vset s.seq.last t.ctx.mask.toNat (BitVec.ofNat 4 n) } }
  s.modThr n (fun t =>
    { t with
      ctx := landWhere (fun p => p.safe && decide (p.word < t.words)) t.ctx
      issue := t.issue + 1, words := t.words + 1
      passOver := t.passOver && isPrefix
      stepWords := if t.stepWords = 0 then 0 else t.stepWords + 1 })

/-- A thread that THREAD_STOP names stops at the first boundary that R373 allows, and at once while it waits (R573). One whose entry
waits for safe mode has left its boundary (R254). -/
def stopIfAsked (n : Nat) (s : State) : State :=
  let t := s.thr n
  let free : Bool := match t.run with
    | .ready => boundaryOpen t.ctx && decide (t.holdUntil ≤ s.clk.fc)
    | .waiting _ => true
    | _ => false
  if t.stopReq && free && !t.mon && t.escal.isNone then
    (applyRet n s).modThr n (fun t =>
      { t with run := .stopped, stopReq := false, ctx := { clearFlow t.ctx with resv := t.ctx.resv, pc := pcShown t } })
  else s

/-- The effects of a word that is not stopped: its units `f`, then its place by `place`. -/
def finishWord (n : Nat) (isPrefix : Bool) (place : Ctx → Ctx) (f : State → State) (s : State) : State :=
  let mask := (s.thr n).ctx.mask
  let s := f { s with free := s.free + 4096 }
  let m := (s.thr n).ctx.mask
  let s := (counted n isPrefix (s.modCtx n (fun c => { c with mask := mask }))).modCtx n (fun c => { c with mask := m })
  stopIfAsked n (s.modCtx n (afterCtx place))

/-! ## Operation words (R301, R345-R349) -/

/-- Parks thread n on a load of the word `c` that it issues (R263); `c` comes back if the load fails (R367). -/
def parkLoad (n : Nat) (kind : LoadKind) (a : U32) (x : BitVec 5) (c : Ctx) (s : State) : State :=
  s.modThr n (fun t => { t with
    run := .parked (.load kind a x t.words s.clk.fc), before := some c, haddr := hostAddr s a })

/-- Every earlier register store of thread n has taken effect, those to members with their answers (R265, R266). -/
def storesTaken (s : State) (n : Nat) : Bool :=
  !s.due.any (fun (d : Due) => match d.act with
    | .regStore ag _ _ _ => ag.thread = some n
    | _ => false)
  && (s.thr n).blocked.isEmpty
  && !s.link.fwd.any (fun (f : Forwarded) => f.wr.isSome && f.agent.thread = some n)

/-- A load that parks, with its producers for the distance check, and its request to a member (R246, R263, R726). -/
def loadOut (n : Nat) (o : Op) (s : State) : State :=
  let a := o.addr
  let word := (s.thr n).words
  let s := parkLoad n (.plain o.lsz) a o.x o.c s
  let s := s.modCtx n (fun c => (lsRegs o.lsz o.x).foldl (fun c r => produce word 3 (.g r) c) c)
  if regionOf a = .member && storesTaken s n then
    (forwardAccess (threadAgent s n) ((a.toNat - 0x10000000) / 0x100000) (a.toNat % 0x100000) none 0xF false s).1
  else s

/-- What the units of a word that parks on a load are to do later, and its arithmetic causes, wait for the data: a load that fails
leaves no effect of its word (R367; log entry 37). `s0` is the state before the word. -/
def holdActs (n : Nat) (s0 s : State) : State :=
  let k := s0.due.length
  let old := (s0.thr n).imp11
  { s with due := s.due.take k }.modThr n (fun t =>
    { t with heldActs := s.due.drop k, heldImp := t.imp11.drop old.length, imp11 := old })

/-- The units of an operation word (R301, R343, R344). -/
def runOp (n : Nat) (o : Op) (s : State) : State :=
  if !o.acts s then s
  else
    let t := s.thr n
    let s0 := s
    let s := o.run n t.words t.safe s
    let s := if o.long = 2 then o.moveRow n s else s
    let s := if o.long = 2 && decide (o.steps ≤ o.c.prog.toNat + 1) then o.moveEnd n s else s
    if o.lsop = 1 && regionOf o.addr != .data then loadOut n o (holdActs n s0 s) else s

/-- The place after an operation word: a long word stays until its last step (R347). -/
def wordPlace (acts : Bool) (o : Op) (c : Ctx) : Ctx :=
  if o.long != 0 && acts && decide (c.prog.toNat + 1 < o.steps) then
    { c with long := some o.steps, prog := c.prog + 1 }
  else nextPc { c with long := none, prog := 0 }

/-! ## Control words -/

/-- A result of an LR or SC of word `word` (R246, R255). -/
def atomicResult (n : Nat) (dst : BitVec 5) (v : U32) (isLoad : Bool) (s : State) : State :=
  let t := s.thr n
  s.modCtx n (fun c =>
    let c := produce t.words 3 (.g dst) c
    if isLoad then oweLoad t.safe s.clk.fc t.words (.g dst v) c else oweAt t.safe s.clk.fc t.words 3 (.g dst v) c)

/-- SC's answer: DST and SCF (R269). -/
def scAnswer (n : Nat) (dst : BitVec 5) (fail : Bool) (s : State) : State :=
  let t := s.thr n
  (atomicResult n dst (if fail then 1 else 0) false s).modCtx n (fun c =>
    produce t.words 3 .scf (oweAt t.safe s.clk.fc t.words 3 (.scf fail) c))

/-- LR (R268, R271). -/
def runLr (n : Nat) (w : U32) (s0 : State) (s : State) : State :=
  let c := (s0.thr n).ctx
  let a := aregOf s0 c w
  if regionOf a = .data then
    let (l, s) := loadData a.toNat 4 s
    let s := s.modCtx n (fun c => { c with
      resv := some { host := false, granule := BitVec.ofNat 64 (a.toNat / 16), fc := s.clk.fc } })
    atomicResult n (wDst w) (ofLE 32 l) true s
  else
    let word := (s.thr n).words
    (parkLoad n .lr a (wDst w) c s).modCtx n (fun c => produce word 3 (.g (wDst w)) { c with resv := none })

/-- SC (R269-R271). -/
def runSc (n : Nat) (w : U32) (s0 : State) (s : State) : State :=
  let c := (s0.thr n).ctx
  let a := aregOf s0 c w
  let d := sregOf s0 c w
  let held := holdsGranule s0 c a
  let s := s.modCtx n (fun c => { c with resv := none })
  if !held then scAnswer n (wDst w) true s
  else if regionOf a = .data then
    let word := (s.thr n).words
    let s := scAnswer n (wDst w) false (postStore n c.pc a (bytesLE d 4) s)
    s.modCtx n (fun c => produce word 2 (.row (BitVec.ofNat 16 (a.toNat / 16))) c)
  else
    let word := (s.thr n).words
    (parkLoad n (.sc d) a (wDst w) c s).modCtx n (fun c => produce word 3 .scf (produce word 3 (.g (wDst w)) c))

/-- The place after a BR, CALL or RET: its slot follows (R225). -/
def branchTo (t : Option U16) (undo : SlotUndo) (c : Ctx) : Ctx :=
  { c with ds := some { branch := c.pc, target := t, undo := undo }, pc := c.pc + 1 }

/-- A spill or a fill parks the thread for 2 fc (R235). -/
def parkStack (slow : Bool) (n : Nat) (s : State) : State :=
  if slow then s.modThr n (fun t => { t with run := .parked (.until (s.clk.fc + 3)) }) else s

/-- The word issues (R223-R245, R266-R279). -/
def runControl (n : Nat) (w : U32) (s : State) : State :=
  let t := s.thr n
  let c := t.ctx
  let go := taken s c w
  match (fd w 27 4).toNat with
  | 0x0 => finishWord n false (branchTo (if go then some (target s c w) else none) .nothing) id s
  | 0x1 =>
    if go then
      finishWord n false (branchTo (some (target s c w)) .pushed)
        (fun s => parkStack (needsSpill c) n (pushRet n (c.pc + 2) s)) s
    else finishWord n false (branchTo none .nothing) id s
  | 0x2 =>
    if !go then finishWord n false (branchTo none .nothing) id s
    else
      let (st, s) := if bit w 17 then retStatus s n else (0, s)
      let toMon := bit w 17 && t.mon && !t.spill
      let c' := if toMon then c else filled s c
      let a := if toMon then t.mpc else (c'.hw.getLast?).getD 0
      let place (c : Ctx) : Ctx :=
        let c := branchTo (some a) (if toMon then .nothing else .popped a) c
        if bit w 17 then { c with ret := some { status := st, slot := true } } else c
      finishWord n false place (fun s =>
        if toMon then s
        else parkStack (needsFill c) n (s.modCtx n (fun _ => { c' with hw := c'.hw.dropLast }))) s
  | 0x3 =>
    let r : Repeat := { repn := false, addr := c.pc, left := repCount s c w, first := true }
    finishWord n true (fun c => { c with rep := some r, pc := c.pc + 1 }) id s
  | 0x4 =>
    let r : Repeat := { repn := true, addr := c.pc, left := repCount s c w, first := true }
    finishWord n true (fun c => { c with rep := some r, pc := c.pc + 1 }) id s
  | 0x5 =>
    let imm : BitVec 20 := fd w 0 20
    let old := readG s.free 58 c (wDst w)
    let v : U32 := match (fd w 20 2).toNat with
      | 0 => imm.signExtend 32
      | 1 => imm.zeroExtend 32
      | _ => fd imm 0 16 ++ fd old 0 16
    finishWord n false nextPc (fun s => s.modCtx n (fun c => setG s.clk.fc (wDst w) v c)) s
  | 0x6 => finishWord n false nextPc (runLr n w s) s
  | 0x7 => finishWord n false nextPc (runSc n w s) s
  | 0x8 =>
    let s := finishWord n false nextPc id s
    let p := resumePoint (s.thr n).ctx
    let s := takeEntry n true
      { vec := 32 + (fd w 0 5 : BitVec 5).zeroExtend 6, ret := p.1, status := p.2, xpc := c.pc, xaddr := 0 } s
    -- the entry is decided at the boundary behind SYS, one fc after its issue (R366, R375)
    s.modThr n (fun t => { t with
      holdUntil := t.holdUntil + 1
      run := match t.run with
        | .parked (.until f) => .parked (.until (f + 1))
        | r => r })
  | 0x9 => finishWord n false (fun c => { nextPc c with msh := some (modeShadow w 3) }) id s
  | 0xA =>
    let tmo := (fd w 0 16 : BitVec 16).toNat
    let x : Waiting :=
      { cond := wCond w, inv := bit w 18, evt := bit w 17
        deadline := if tmo = 0 then none else some (s.clk.fc + 16 * tmo) }
    finishWord n false id (fun s => s.modThr n (fun t => { t with run := .waiting x })) s
  | 0xB =>
    finishWord n false nextPc (fun s => s.modThr n (fun t => { t with run := .parked (.fence (fd w 0 2)) })) s
  | _ => s

/-! ## The issue of a word -/

/-- A stop of the next word takes its entry (R366, R858). -/
def takeStop (n : Nat) (st : Stop) (s : State) : State :=
  match st with
  | .fault v a => takeFault n v a s
  | .monitor i => enterMonitor n 2 i s

/-- Thread n issues its next word when it is its turn and the word is of the row asked for; a word that is stopped
takes its entry, whatever its row when none is asked for. -/
def issue (n : Nat) (row : Option Nat) (s0 : State) : State :=
  if selected s0 != some n then s0
  else
    let s := applyRet n s0
    let c := (s.thr n).ctx
    let w := microWord s c.pc
    if row.any (fun r => r != rowOf w) then s0
    else
      let (events, stop) := wordStop s n w
      let s' := events.foldl (fun s i => raise (434 + i) s) s
      match stop with
      | some st => takeStop n st s'
      | none =>
        if row.isNone then s0
        else if isOp w then
          let o := opOf s n w
          finishWord n false (wordPlace (o.acts s) o) (runOp n o) s'
        else runControl n w s'

/-! ## Commands -/

def execOperationMicroword (n : Fin 16) (s : State) : Host.Outcome State Fault Refusal := .next (issue n (some 16) s)
def execBr (n : Fin 16) (s : State) : Host.Outcome State Fault Refusal := .next (issue n (some 0) s)
def execCall (n : Fin 16) (s : State) : Host.Outcome State Fault Refusal := .next (issue n (some 1) s)
def execRet (n : Fin 16) (s : State) : Host.Outcome State Fault Refusal := .next (issue n (some 2) s)
def execRetExc (n : Fin 16) (s : State) : Host.Outcome State Fault Refusal := .next (issue n (some 17) s)
def execRep (n : Fin 16) (s : State) : Host.Outcome State Fault Refusal := .next (issue n (some 3) s)
def execRepn (n : Fin 16) (s : State) : Host.Outcome State Fault Refusal := .next (issue n (some 4) s)
def execLi (n : Fin 16) (s : State) : Host.Outcome State Fault Refusal := .next (issue n (some 5) s)
def execLr (n : Fin 16) (s : State) : Host.Outcome State Fault Refusal := .next (issue n (some 6) s)
def execSc (n : Fin 16) (s : State) : Host.Outcome State Fault Refusal := .next (issue n (some 7) s)
def execSys (n : Fin 16) (s : State) : Host.Outcome State Fault Refusal := .next (issue n (some 8) s)
def execMode (n : Fin 16) (s : State) : Host.Outcome State Fault Refusal := .next (issue n (some 9) s)
def execWait (n : Fin 16) (s : State) : Host.Outcome State Fault Refusal := .next (issue n (some 10) s)
def execFence (n : Fin 16) (s : State) : Host.Outcome State Fault Refusal := .next (issue n (some 11) s)

end Sys2Proof.Machine
end

