-- ==== Sys2Proof/Machine/Loads.lean ====
section
/-! DEFINITION. What ends a thread's park, wait or reservation, and the entries taken between words: data of loads,
LR and SC, errors of posted stores, FENCE, WAIT, imprecise and escalated entries, event dispatch (05, 07, 13). -/

namespace Sys2Proof.Machine

/-! ## Parked accesses (R263, R265, R271, R302, R366-R368) -/

/-- The access that waits for its data: of a load that a reset left behind (R286), otherwise of the parked thread; the
first component tells which. -/
def awaited (t : Thread) : Option (Bool × LoadKind × U32 × BitVec 5 × Nat × Nat) :=
  match t.owing with
  | some (.load k a x w f) => some (true, k, a, x, w, f)
  | _ => match t.run with
    | .parked (.load k a x w f) => some (false, k, a, x, w, f)
    | _ => none

/-- The thread goes on, from the next fc on (R263), and the rest of its word comes about (log entry 37). -/
def unpark (n : Nat) (s : State) : State :=
  { s with due := s.due ++ (s.thr n).heldActs }.modThr n (fun t => { t with
    run := .ready, before := none, holdUntil := s.clk.fc + 1, heldActs := [], imp11 := t.imp11 ++ t.heldImp, heldImp := [] })

/-- Registers take loaded values; in safe mode the word after a load or LR still finds the old ones (R255). -/
def writeLoaded (n : Nat) (kind : LoadKind) (owing : Bool) (word : Nat) (vals : List (BitVec 5 × U32)) (s : State) : State :=
  let t := s.thr n
  let now := s.clk.fc
  let isLoad : Bool := match kind with
    | .sc _ => false
    | _ => true
  let put (c : Ctx) (v : BitVec 5 × U32) : Ctx :=
    if t.safe && isLoad && !owing then oweLoad true now word (.g v.1 v.2) c else setG now v.1 v.2 c
  s.modCtx n (fun c => vals.foldl put c)

/-- The result of a load, LR or SC lands and the thread goes on. -/
def loadDone (n : Nat) (kind : LoadKind) (owing : Bool) (word : Nat) (vals : List (BitVec 5 × U32)) (s : State) : State :=
  let s := writeLoaded n kind owing word vals s
  if owing then s.modThr n (fun t => { t with owing := none }) else unpark n s

/-- The imprecise cause with vector `vec` is entered and no longer waits; of vector 11, every cause that has arisen. -/
def takeImprecise (n : Nat) (vec : BitVec 6) (p : Posted) (s : State) : State :=
  let s := applyRet n s
  let r := resumePoint (s.thr n).ctx
  let s := s.modThr n (fun t => { t with
    imp5 := if vec = 5 then none else t.imp5
    imp11 := if vec = 11 then t.imp11.filter (fun p => decide (s.clk.fc < p.1)) else t.imp11
    imp12 := if vec = 12 then none else t.imp12 })
  takeEntry n true { vec := vec, ret := r.1, status := r.2, xpc := p.pc, xaddr := p.addr } s

/-- An access that fails takes its vector, without any effect of its word (R366, R367). An imprecise entry that is due comes before
it, and the word issues again after that (R368). A load that a reset left behind has no word to fault and ends. -/
def loadFault (n : Nat) (owing : Bool) (vec : BitVec 6) (a : U32) (s : State) : State :=
  if owing then s.modThr n (fun t => { t with owing := none })
  else
    let s := s.modThr n (fun t => { t with
      ctx := t.before.getD t.ctx, before := none, run := .ready, heldActs := [], heldImp := [] })
    match boundaryOpen (s.thr n).ctx, impreciseDue s (s.thr n) with
    | true, some (v, p) => takeImprecise n v p s
    | _, _ => takeFault n vec a s

/-- The registers that a load of that size code writes from a 128-bit answer whose lowest byte is the first loaded. -/
def loadVals (lsz : BitVec 3) (x : BitVec 5) (v : BitVec 128) : List (BitVec 5 × U32) :=
  lsValues lsz x (bytesLE v (lsSize lsz))

/-- A load of the block's own register at `off` (R90, R197, R302). -/
def ownLoad (n : Nat) (owing : Bool) (lsz : BitVec 3) (a : U32) (off : Nat) (x : BitVec 5) (word : Nat) (s : State) :
    State :=
  let ag := threadAgent s n
  if lsSize lsz = 8 then
    let (v, s) := busRead8 ag off s
    loadDone n (.plain lsz) owing word [(x, v.1), (x + 1, v.2)] s
  else
    let (r, s) := busRead ag false off s
    if r.err then loadFault n owing (if r.unc then 5 else 12) a s
    else loadDone n (.plain lsz) owing word [(x, r.data)] s

/-- A load of a member's register that has not been sent yet is sent; one that has waits for its answer (R265, R726,
R727). -/
def memberLoad (n : Nat) (owing : Bool) (a : U32) (m off : Nat) (s : State) : State :=
  if s.link.fwd.any (fun (f : Forwarded) => f.wr.isNone && f.agent.thread = some n) then s
  else
    let r := forwardAccess (threadAgent s n) m off none 0xF false s
    if r.2 then loadFault n owing 12 a r.1 else r.1

/-- A load of the register window, through the aperture too (R302, R726, R900). -/
def regLoad (n : Nat) (owing : Bool) (lsz : BitVec 3) (a : U32) (x : BitVec 5) (word at_ : Nat) (s : State) : State :=
  if s.clk.fc < at_ + 4 || !storesTaken s n then s
  else match routeOff s (a.toNat - 0x10000000) with
    | .own off => if claimTurn s (some n) off then ownLoad n owing lsz a off x word s else s
    | .member m off => memberLoad n owing a m off s
    | .nowhere => loadDone n (.plain lsz) owing word [(x, 0)] s

/-- A load of the NVM window (R768). -/
def nvmLoad (n : Nat) (owing : Bool) (lsz : BitVec 3) (a : U32) (x : BitVec 5) (word : Nat) (s : State) : State :=
  let o := a.toNat - 0x20000000
  let sector := o / 16384
  if bankBusy s (placeOf s.nvm.opt sector).bank.toNat then s
  else
    let (u, s) := readLogical sector (o / 32 % 512) s
    if u.unc then loadFault n owing 5 a s
    else loadDone n (.plain lsz) owing word (loadVals lsz x ((u.data >>> (8 * (o % 32))).truncate 128)) s

/-- The posted stores whose write responses host memory owes have received them. -/
def hostStoresDone (t : Thread) : List Posted := t.stores.filter (fun p => regionOf p.addr != .host)

/-- Host memory answers a load, LR or SC (R35, R263, R265, R271). -/
def hostAnswer (n : Nat) (owing : Bool) (kind : LoadKind) (a : U32) (x : BitVec 5) (word at_ : Nat) (resp : LoadResp)
    (s : State) : State :=
  let h := if owing then (s.thr n).owingAddr else (s.thr n).haddr
  let g := h.toNat / 16
  let vals (v : BitVec 128) : List (BitVec 5 × U32) := match kind with
    | .plain lsz => loadVals lsz x v
    | _ => [(x, v.truncate 32)]
  let isSc := match kind with
    | .sc _ => true
    | _ => false
  let s := if isSc then s else s.modThr n (fun t => { t with stores := hostStoresDone t })
  match resp with
  | .error => loadFault n owing 12 a s
  | .uncorrectable => loadFault n owing 5 a s
  | .okay v =>
    match kind with
    | .sc _ => (loadDone n kind owing word [(x, 1)] s).modCtx n (fun c => { c with scf := true })
    | _ => loadDone n kind owing word (vals v) s
  | .exokay v =>
    match kind with
    | .plain _ => loadDone n kind owing word (vals v) s
    | .lr =>
      let s := loadDone n kind owing word (vals v) s
      if owing then s
      else s.modCtx n (fun c => { c with resv := some { host := true, granule := BitVec.ofNat 64 g, fc := at_ } })
    | .sc d =>
      let s := dropResv true g (hostWrite s h (bytesLE d 4))
      (loadDone n kind owing word [(x, 0)] s).modCtx n (fun c => { c with scf := false })

/-- The data of the access that thread n waits for comes back. -/
def loadReturn (n : Nat) (resp : LoadResp) (s : State) : State :=
  match awaited (s.thr n) with
  | none => s
  | some (owing, kind, a, x, word, at_) =>
    match regionOf a, kind with
    | .regs, .plain lsz => regLoad n owing lsz a x word at_ s
    | .nvm, .plain lsz => nvmLoad n owing lsz a x word s
    | .member, .plain _ =>
      if storesTaken s n then memberLoad n owing a ((a.toNat - 0x10000000) / 0x100000) (a.toNat % 0x100000) s else s
    | .host, _ => hostAnswer n owing kind a x word at_ resp s
    | _, _ => s

/-! ## Posted stores, fences, reservations, waits (R264, R266, R270, R277-R279) -/

/-- An error response to a posted store (R366). -/
def storeError (n : Nat) (addr : U32) (s : State) : State :=
  let t := s.thr n
  match t.stores.find? (fun p => p.addr = addr && regionOf p.addr = .host) with
  | none => s
  | some p =>
    s.modThr n (fun t => { t with stores := t.stores.erase p, imp12 := if t.imp12.isSome then t.imp12 else some p })

/-- Everything that a FENCE of that KIND waits for in the block has come about (R266). Host stores wait for their write
responses, which this command stands for. -/
def fenceDone (s : State) (n : Nat) (kind : BitVec 2) : Bool :=
  kind = 1 ||
  ((kind != 0 || !(s.thr n).ctx.pw.any (fun p => p.load)) && storesTaken s n && !s.due.any (fun (d : Due) => match d.act with
    | .coef ag _ _ _ => ag.thread = some n
    | .seal ag _ => ag.thread = some n
    | .edgePost ag _ _ _ => ag.thread = some n
    | _ => false))

/-- A FENCE ends, and the thread goes on (R266). -/
def fenceComplete (n : Nat) (s : State) : State :=
  match (s.thr n).run with
  | .parked (.fence kind) =>
    if fenceDone s n kind then
      s.modThr n (fun t => { t with
        run := .ready, before := none, stores := if kind = 2 then t.stores else hostStoresDone t
        ctx := { t.ctx with stale := if kind = 1 then t.ctx.stale else [] } })
    else s
  | _ => s

/-- A reservation ends 256 fc after its LR (R270). -/
def reservationExpiry (n : Nat) (s : State) : State :=
  s.modCtx n (fun c => match c.resv with
    | some r => if r.fc + 256 ≤ s.clk.fc then { c with resv := none } else c
    | none => c)

/-- The wait of thread n is over: it goes on behind the WAIT, in the next fc when a condition or a wake ends it (R277), at once
when its time does (R278). -/
def endWait (n : Nat) (timeout : Bool) (s : State) : State :=
  s.modThr n (fun t => { t with
    ctx := { t.ctx with pc := t.ctx.pc + 1, wto := timeout }, run := .ready, holdUntil := if timeout then s.clk.fc else s.clk.fc + 1 })

/-- The wake or the condition of a WAIT is seen (R277, R365, R636). -/
def waitSeen (s : State) (n : Nat) (w : Waiting) : Bool :=
  if w.evt then (offered s n).isSome && (eventDue s n).isNone
  else condInput s s.free 39 (s.thr n).ctx w.cond != w.inv

def waitEnd (n : Nat) (s : State) : State :=
  match (s.thr n).run with
  | .waiting w => if issuing s && waitSeen s n w then endWait n false { s with free := s.free + 4096 } else s
  | _ => s

def waitTimeout (n : Nat) (s : State) : State :=
  match (s.thr n).run with
  | .waiting w =>
    match w.deadline with
    | some d => if issuing s && decide (d ≤ s.clk.fc) then endWait n true s else s
    | none => s
  | _ => s

/-! ## Entries between words (R254, R366, R373-R375, R389, R634) -/

/-- Thread n is at a boundary at which an imprecise entry or an event may be taken (R373). -/
def entryOpen (s : State) (n : Nat) : Bool :=
  let t := s.thr n
  let live : Bool := match t.run with
    | .ready => true
    | .waiting _ => true
    | _ => false
  issuing s && live && t.escal.isNone && boundaryOpen t.ctx && decide (t.holdUntil ≤ s.clk.fc)
    && (s.seq.safeThr.isNone || s.seq.safeThr = some (BitVec.ofNat 4 n))

/-- Thread n is the lowest one whose escalated entry waits for safe mode, and safe mode is free (R254). -/
def mayEscalate (s : State) (n : Nat) : Bool :=
  s.seq.safeThr.isNone && (s.thr n).escal.isSome && (List.range n).all (fun k => (s.thr k).escal.isNone)

/-- An entry of thread n: an escalated one that waits for safe mode, an imprecise one, or the precise fault of its next
word. -/
def exceptionEntry (n : Nat) (s : State) : State :=
  match (s.thr n).escal with
  | some e => if issuing s && mayEscalate s n then enterSpillway n e s else s
  | none =>
    match impreciseDue s (s.thr n) with
    | some (v, p) => if entryOpen s n then takeImprecise n v p s else issue n none s
    | none => issue n none s

/-- An event enters thread n and its source is claimed (R365, R634). -/
def eventDispatch (n : Nat) (s : State) : State :=
  match eventDue s n with
  | none => s
  | some (k, v) =>
    let t := s.thr n
    if !entryOpen s n || (impreciseDue s t).isSome || debugDue t || (t.stopReq && !t.mon) || wordFaults s n then s
    else
      let s := applyRet n s
      let t := s.thr n
      let p := resumePoint t.ctx
      let s := takeEntry n false { vec := v, ret := p.1, status := p.2, xpc := t.xpc, xaddr := 0 } s
      dispatchClaim n k (s.thr n).depth s

/-! ## Commands -/

def execLoadDataReturn (n : Fin 16) (resp : LoadResp) (s : State) : Host.Outcome State Fault Refusal :=
  .next (inCore s (loadReturn n resp s))
def execPostedStoreError (n : Fin 16) (addr : U32) (s : State) : Host.Outcome State Fault Refusal :=
  .next (inCore s (storeError n addr s))
def execReservationExpiry (n : Fin 16) (s : State) : Host.Outcome State Fault Refusal :=
  .next (inCore s (reservationExpiry n s))
def execWaitEnd (n : Fin 16) (s : State) : Host.Outcome State Fault Refusal := .next (inCore s (waitEnd n s))
def execWaitTimeout (n : Fin 16) (s : State) : Host.Outcome State Fault Refusal := .next (inCore s (waitTimeout n s))
def execFenceComplete (n : Fin 16) (s : State) : Host.Outcome State Fault Refusal :=
  .next (inCore s (fenceComplete n s))
def execExceptionEntry (n : Fin 16) (s : State) : Host.Outcome State Fault Refusal :=
  .next (inCore s (exceptionEntry n s))
def execEventDispatch (n : Fin 16) (s : State) : Host.Outcome State Fault Refusal :=
  .next (inCore s (eventDispatch n s))

end Sys2Proof.Machine
end

