-- ==== Sys2Proof/Machine/Commands.lean ====
section
/-! DEFINITION. The command set of the Headgate (11), with what the other chapters add to its commands: reading an entry,
executing each command, writing its completion. Image, patch and thread commands, flumes and shut, link, ledger, NVM,
power states. -/

namespace Sys2Proof.Machine

/-! ## Slots (R552, R553, R557-R560, R728) -/

def slotAt (s : State) : Slot → Option CmdSlot
  | .sq r => vget s.hg.slot r none
  | .link => s.hg.linkSlot

def clearSlot (k : Slot) (s : State) : State :=
  match k with
  | .sq r => { s with hg := { s.hg with slot := vset s.hg.slot r none } }
  | .link => { s with hg := { s.hg with linkSlot := none } }

def done (c : CmdSlot) (status : Byte) (result : U64) (s : State) : State := setStage c.seq (.done status 0 result) s

def doneDetail (c : CmdSlot) (status : Byte) (detail : Nat) (s : State) : State :=
  setStage c.seq (.done status (BitVec.ofNat 16 detail) 0) s

/-- A FENCE starts only after every command read before it has completed (R559). -/
def fenceFree (s : State) (c : CmdSlot) : Bool :=
  !cmdFence c.entry || (slots s).all (fun d => match d with
    | some d => decide (c.seq ≤ d.seq)
    | none => true)

/-- The command goes to a member of the group (R553, R728). -/
def goesOn (c : CmdSlot) : Bool :=
  cmdMember c.entry != 0 && (match c.origin with
    | some (_, _, tag) => fd tag 16 3 != (1 : BitVec 3)
    | none => true)

/-- Sends the command to its member (R553, R728). -/
def forwardCmd (c : CmdSlot) (s : State) : State :=
  let m := (cmdMember c.entry).toNat
  if !memberPresent s m then done c 0x20 0 s
  else
    let (id, s) := nextMsg s
    let f : Frame :=
      { ftype := 3, vl := 2, sub := 1, msgid := id, dst := (memberNode s m).getD 0, content := bytesLE c.entry 64 }
    setStage c.seq (.forwarded id) (originate f none s)

/-- The resources of R558: NVM 1, link transmission 2, BIST 3, none 0. -/
def resource (e : BitVec 512) : Nat :=
  match (cmdOp e).toNat with
  | 0x10 => if bit (cmdP e 4) 0 then 1 else 0
  | 0x50 => 2
  | 0x52 => 2
  | 0x70 => 1
  | 0x71 => 1
  | 0x72 => 1
  | 0x90 => 3
  | _ => 0

/-- Another command in execution uses the resource that this one needs (R558). -/
def resourceBusy (s : State) (c : CmdSlot) : Bool :=
  resource c.entry != 0 && (slots s).any (fun d => match d with
    | some d => d.seq != c.seq && resource d.entry = resource c.entry && (match d.stage with
      | .running _ => true
      | _ => false)
    | none => false)

/-- Byte offset of the first parameter word with a bit outside its mask or a value outside its range (R552). -/
def firstBad (e : BitVec 512) (masks : List U32) (bad : List Bool) : Option Nat :=
  ((List.range 14).find? (fun i => cmdP e i &&& ~~~(masks.getD i 0) != 0 || bad.getD i false)).map (fun i => 8 + 4 * i)

/-- Executes the command in slot k, if it is the one with that opcode: begins it with `f` once R552, R558 and R559
let it begin, or goes on with it by `again`. T15 serves the rings only in RUN (R563, R804). -/
def runCmd (op : Nat) (k : Slot) (masks : BitVec 512 → List U32) (bad : BitVec 512 → List Bool)
    (f again : CmdSlot → State → State) (s : State) : State :=
  match slotAt s k with
  | none => s
  | some c =>
    if !(inRun s && serving s) || (cmdOp c.entry).toNat != op then s
    else match c.stage with
      | .fetched =>
        if !fenceFree s c then s
        else if goesOn c then forwardCmd c s
        else match firstBad c.entry (masks c.entry) (bad c.entry) with
          | some d => doneDetail c 2 d s
          | none => if resourceBusy s c then s else f c s
      | .running _ => again c s
      | _ => s

/-- A command that is over in one go. -/
def runShort (op : Nat) (k : Slot) (masks : BitVec 512 → List U32) (bad : BitVec 512 → List Bool)
    (f : CmdSlot → State → State) (s : State) : State :=
  runCmd op k masks bad f (fun _ s => s) s

/-- Writes the completion of slot k, unless QUIET keeps it back, and frees the slot (R551, R554, R556, R718). -/
def finishSlot (k : Slot) (c : CmdSlot) (status : Byte) (detail : U16) (result : U64) (s : State) : State :=
  let quietly := cmdQuiet c.entry && status = 0
  let ring : BitVec 2 := match k with
    | .sq r => BitVec.ofNat 2 r
    | .link => 0
  let body := completion (cmdCid c.entry) status ring (cmdMember c.entry) c.sqhead detail result
  let s := if quietly then s
    else match k with
      | .sq _ => writeCompletion body (cmdIrq c.entry || status != 0) s
      | .link => sendResp c body s
  hgUpdate (clearSlot k s)

/-! ## Reading and completing -/

/-- A CMD frame waits for the headworks (R718). -/
def linkPending (s : State) : Bool :=
  s.hg.linkSlot.isNone && s.link.port.toList.any (fun q => q.inbox.any (fun f => f.ftype = 3))

/-- SUBMISSION_FETCH: the entry of the selected ring is read (R557, R718). -/
def submissionFetch (entry : BitVec 512) (s : State) : State :=
  match selectedRing s with
  | none => s
  | some r =>
    if !inRun s || (r != 0 && linkPending s) then s
    else
      let q := s.sqr r
      let head := ringNext q q.head
      let s := dirty (setRing r { q with head := head } s)
      let c : CmdSlot :=
        { entry := entry, sqhead := head.zeroExtend 16, seq := s.hg.nextSeq, stage := firstStage entry }
      hgUpdate { s with hg := { s.hg with slot := vset s.hg.slot r (some c), nextSeq := s.hg.nextSeq + 1 } }

/-- COMPLETION_WRITE. -/
def completionWrite (k : Slot) (s : State) : State :=
  match slotAt s k with
  | none => s
  | some c =>
    match c.stage with
    | .done st d r => if inRun s && serving s then finishSlot k c st d r s else s
    | _ => s

/-! ## NOP, QUERY -/

def queryResult (s : State) (item : Nat) : U64 :=
  let reg (off : Nat) : U32 := regValue s .host off
  match item with
  | 0 => reg 0x0 ++ reg 0x4
  | 1 => (reg 0x8).zeroExtend 64
  | 2 => reg 0xE408 ++ reg 0xE404
  | 3 => BitVec.ofNat 64 ((List.range 16).foldl (fun a n => a + (fd (threadState s n) 0 3 : BitVec 3).toNat * 8 ^ n) 0)
  | 4 => s.clk.gauge
  | _ => (reg 0x26010).zeroExtend 64

/-! ## Images and patches (R577-R581, R780) -/

/-- Threads T0-T14 are all stopped (R577). -/
def lawStopped (s : State) : Bool := (List.range 15).all (fun n => (s.thr n).run = .stopped)

/-- An image loads no further: what the second pass wrote, `n` sections, stays (R567, R577). -/
def loadFails (c : CmdSlot) (status : Byte) (n : Nat) (s : State) : State :=
  done c status (BitVec.ofNat 64 n) { s with hg := { s.hg with staged := false }, seq := { s.seq with verImg := 0 } }

/-- The second pass (R577, R580, R780). Where it meets an error response, a free number of the sections have been
applied. -/
def secondPass (c : CmdSlot) (l1 : List Byte) (pass2 : HostRead) (s : State) : State :=
  let len := (cmdP c.entry 2).toNat
  let secs := sectionsOf l1
  match pass2 with
  | .error =>
    let (n, s) := drawFree 7 s
    let done := secs.take n.toNat
    loadFails c 4 done.length (applyImage done l1 s)
  | .okay b =>
    let l := padTo len b
    let s := applyImage secs l s
    if crc32c l != cmdP c.entry 3 then loadFails c 5 secs.length s
    else
      let acc : U64 := BitVec.ofNat 64 (secs.length + (lget l 4).toNat * 2 ^ 32)
      let slot := bit (cmdP c.entry 4) 1
      if bit (cmdP c.entry 4) 0 then
        let s := setStage c.seq (.running acc) s
        pump (addJob { who := .cmd c.seq, ops := imageOps s slot l (cmdP c.entry 3) } s)
      else imageDone c.seq 0 acc none s

/-- IMAGE_LOAD (R577). -/
def imageLoad (pass1 pass2 : HostRead) (c : CmdSlot) (s : State) : State :=
  let prog := bit (cmdP c.entry 4) 0
  let slot := bit (cmdP c.entry 4) 1
  let len := (cmdP c.entry 2).toNat
  if !lawStopped s then done c 3 0 s
  else if prog && s.nvm.opt.actv && s.nvm.opt.active = slot then done c 7 0 s
  else match pass1 with
    | .error => done c 4 0 s
    | .okay b =>
      let l := padTo len b
      match imageFault l len (cmdP c.entry 3) s.seq.verLib with
      | some (st, d) => doneDetail c st d.toNat s
      | none => if prog && slotShort s slot len then doneDetail c 2 16 s else secondPass c l pass2 s

/-- IMAGE_ACTIVATE (R580, R773). -/
def imageActivate (c : CmdSlot) (s : State) : State :=
  let persist := bit (cmdP c.entry 0) 0
  let h := s.hg
  if !h.staged || (persist && h.stagedSlot.isNone) || h.autostart.any (fun p => startRefused s p) then done c 3 0 s
  else if persist && s.nvm.opt.actlock then done c 7 0 s
  else
    let s := { s with seq := { s.seq with verImg := h.stgver }, hg := { h with staged := false, autostart := [] } }
    let s := h.autostart.foldl (fun s p => if startAllowed p then startThread p s else s) s
    let s := match persist, h.stagedSlot with
      | true, some b => pump (addOption (.active b) s)
      | _, _ => s
    done c 0 (h.stgver.zeroExtend 64) s

/-- PATCH_APPLY (R581). -/
def patchApply (patch : HostRead) (c : CmdSlot) (s : State) : State :=
  match patch with
  | .error => done c 4 0 s
  | .okay b =>
    let l := padTo (cmdP c.entry 2).toNat b
    if crc32c l != cmdP c.entry 3 then done c 5 0 s
    else if lget l 1 != s.seq.verHw || lget l 0 ≤ s.seq.verPatch then done c 7 0 s
    else
      let s := putMicro 7680 (words32 (l.drop 4)) s
      done c 0 ((lget l 0).zeroExtend 64) { s with seq := { s.seq with verPatch := lget l 0 } }

/-! ## Threads (R571-R574) -/

def startParams (e : BitVec 512) : StartParams := vgen 6 (cmdP e)

/-- THREAD_START (R571, R572). -/
def threadStart (c : CmdSlot) (s : State) : State :=
  let p := startParams c.entry
  if startRefused s p then done c 3 0 s else done c 0 0 (startThread p s)

/-- Threads of the mask that `p` picks. -/
def maskOf (s : State) (m : U32) (p : Thread → Bool) : U64 :=
  bitsFrom 64 (fun n => decide (n < 15) && bit m n && p (s.thr n))

/-- THREAD_STOP goes on: each thread of the mask stops where it may, and the command ends when none runs. A dry thread
issues no more and is not waited for. -/
def threadStopOn (c : CmdSlot) (s : State) : State :=
  let m := cmdP c.entry 0
  let s := s.each 15 (fun s n => if bit m n then stopIfAsked n s else s)
  let live := maskOf s m (fun t => t.run != .stopped && t.run != .dry)
  match c.stage with
  | .running acc => if live = 0 then done c 0 acc s else s
  | _ => s

def threadStop (c : CmdSlot) (s : State) : State :=
  let m := cmdP c.entry 0
  let acc := maskOf s m (fun t => t.run != .stopped)
  let s := s.each 15 (fun s n =>
    if bit m n then s.modThr n (fun t => { t with stopReq := t.run != .stopped && t.run != .dry }) else s)
  threadStopOn { c with stage := .running acc } (setStage c.seq (.running acc) s)

/-- THREAD_RESET (R574). -/
def threadReset (c : CmdSlot) (s : State) : State :=
  let m := cmdP c.entry 0
  let acc := maskOf s m (fun t => t.run = .dry)
  done c 0 acc (s.each 15 (fun s n => if bit m n then resetThread n s else s))

/-! ## COEF_WRITE, SETPOINT, ARM, DISARM, REARM (R568-R570, R575, R576) -/

def coefCount (e : BitVec 512) : Nat := (fd (cmdP e 0) 8 4).toNat

/-- COEF_WRITE (R575). -/
def coefCommand (c : CmdSlot) (s : State) : State :=
  let p := cmdP c.entry 0
  let n := (fd p 0 5).toNat
  let first := (fd p 5 3).toNat
  let count := coefCount c.entry
  let s := withBoundary n s
  if 8 < first + count || (s.flume n).pb.rdy then done c 3 0 s
  else
    let s := (List.range count).foldl (fun s i => writePend (.mach 15) n (first + i) (cmdP c.entry (1 + i)) s) s
    done c 0 0 (if bit p 12 then sealBank (.mach 15) n s else s)

/-- Bytes of a SETPOINT and where they go. -/
def setpointBytes (e : BitVec 512) : List Byte :=
  (List.range (fd (cmdP e 1) 0 4).toNat).flatMap (fun i => bytesLE (cmdP e (2 + i)) 4)

/-- SETPOINT (R262, R576): words behind an uncorrectable row are not stored. -/
def setpointCommand (c : CmdSlot) (s : State) : State :=
  let a := (cmdP c.entry 0).toNat
  let l := setpointBytes c.entry
  if inExcTable s a l.length then done c 7 0 s
  else match (granules a l.length).find? (fun r =>
      marked r s.mem.badRow && !(decide (a ≤ 16 * r) && decide (16 * r + 16 ≤ a + l.length))) with
    | some r => done c 6 0 (storeData a (l.take (16 * r - a)) s)
    | none =>
      let s := storeData a l s
      let p1 := cmdP c.entry 1
      let s := if bit p1 4 then writeScond none (1#16 <<< (fd p1 8 4 : BitVec 4).toNat) 0 s else s
      done c 0 0 s

/-- Flumes of a mask, ascending. -/
def flumesOf (m : U32) : List Nat := (List.range 32).filter (fun n => bit m n)

/-- ARM takes flume `nk.1`, the one at place `nk.2` of its mask (R568). -/
def armOne (e : BitVec 512) (s : State) (nk : Nat × Nat) : State :=
  let n := nk.1
  if (s.flume n).arm then s
  else
    let v : U40 := fd (cmdP e 2) 0 8 ++ cmdP e 1 + BitVec.ofInt 40 (nk.2 * (cmdP e 3).toInt)
    let s := writeFlReg n .trefh ((fd v 32 8 : BitVec 8).zeroExtend 32) (writeFlReg n .trefl (fd v 0 32) s)
    writeFlCtl n (flCtl (s.flume n) ||| 1) s

/-- ARM (R568). -/
def armCommand (c : CmdSlot) (s : State) : State :=
  if s.shut.active then done c 3 0 s
  else
    let m := cmdP c.entry 0
    let r := ((flumesOf m).zipIdx).foldl (armOne c.entry) s
    let armed (n : Nat) : Bool := !(s.flume n).arm && (r.flume n).arm
    done c (if (flumesOf m).all armed then 0 else 3)
      (bitsFrom 64 (fun i => if i < 32 then bit m i && armed i else bit m (i - 32) && !armed (i - 32))) r

/-- DISARM (R569). -/
def disarmCommand (c : CmdSlot) (s : State) : State :=
  let m := cmdP c.entry 0
  let were : U64 := bitsFrom 64 (fun n => decide (n < 32) && bit m n && (s.flume n).arm)
  let s := (flumesOf m).foldl (fun s n => disarm n s) s
  let s := if bit (cmdP c.entry 1) 0 then
      (flumesOf m).foldl (fun s n =>
        let o := (s.flume n).out.toNat
        if o < 96 then flushOut o s else s) s
    else s
  done c 0 were s

/-- REARM (R570): it ends when the shut is released, or refused. -/
def rearmCommand (c : CmdSlot) (s : State) : State :=
  if !s.shut.active then done c 0 0 s
  else
    let s := rearm s
    if s.shut.releaseAt.isSome then setStage c.seq (.running 0) s
    else done c 3 ((shutSources s).zeroExtend 64) s

/-- The release has come about, or a source that has asserted since has put it off (R422, R570). -/
def rearmOn (c : CmdSlot) (s : State) : State :=
  if !s.shut.active then done c 0 0 s
  else if s.shut.releaseAt.isNone then done c 3 ((shutSources s).zeroExtend 64) s
  else s

/-! ## Link (R688, R694, R696, R697, R773) -/

/-- LINK_ENUM. -/
def linkEnum (c : CmdSlot) (s : State) : State :=
  let last : U64 := s.link.enumNodes.zeroExtend 64 ||| (s.link.enumDepth.zeroExtend 64 <<< 16)
  if !s.link.master then done c 3 0 s
  else if !bit (cmdP c.entry 0) 0 then done c 0 last s
  else finishEnum (setStage c.seq (.running 0) { s with link := { s.link with enumRun := true } })

/-- LINK_ROLE. -/
def linkRole (c : CmdSlot) (s : State) : State :=
  let r : BitVec 2 := fd (cmdP c.entry 0) 0 2
  let persist := bit (cmdP c.entry 0) 8
  if persist && s.nvm.opt.rolelock then done c 7 0 s
  else
    let old := s.link.role
    let s := { s with link := { s.link with role := r } }
    let s := if persist then pump (addOption (.role r) s) else s
    done c 0 (old.zeroExtend 64) s

/-- LINK_SEND. -/
def linkSend (payload : HostRead) (c : CmdSlot) (s : State) : State :=
  let p0 := cmdP c.entry 0
  let dst : BitVec 14 := fd p0 0 14
  let len := (cmdP c.entry 3).toNat
  let here := dst = s.link.node
  if !s.link.valid || (!here && (routeOf s dst).isNone) then done c 0x12 0 s
  else match payload with
    | .error => done c 4 0 s
    | .okay b =>
      let l := padTo len b
      let (id, s) := nextMsg s
      let frame (part : Bool) (l : List Byte) : Frame :=
        { ftype := fd p0 16 3, vl := fd p0 20 2, dst := dst, part := part, msgid := id, content := l }
      let two := 1240 < len
      let s := setStage c.seq (.running 0) s
      let s := originate (frame false (l.take 1240)) (if two then none else some c.seq) s
      let s := if two then originate (frame true (l.drop 1240)) (some c.seq) s else s
      if here then done c 0 (BitVec.ofNat 64 len) s else s

/-! ## Ledger (R748-R751) -/

/-- LEDGER_READ (R751); `err`: its writes end with an error response, and leave host memory as it was (R555). -/
def ledgerRead (err : Bool) (c : CmdSlot) (s : State) : State :=
  let a : U48 := fd (cmdP c.entry 2) 0 16 ++ cmdP c.entry 1
  if err then done c 4 0 s
  else done c 0 2304 (hostWrite s a (memRead s.mem.ledger (recAt (fd (cmdP c.entry 0) 0 6 : BitVec 6).toNat) 2304))

def ledgerBindCommand (c : CmdSlot) (s : State) : State :=
  let p0 := cmdP c.entry 0
  let r := ledgerBind (fd p0 0 4 : BitVec 4).toNat (bit p0 8) (cmdP c.entry 2 ++ cmdP c.entry 1) s
  done c r.1.1 r.1.2 r.2

/-! ## NVM (R779, R781-R783) -/

/-- NVM_ERASE. -/
def nvmErase (c : CmdSlot) (s : State) : State :=
  let a := (cmdP c.entry 0).toNat / 16384
  let n := (cmdP c.entry 1).toNat
  if sectorsOf s.nvm.opt < a + n then doneDetail c 2 8 s
  else if protectedRange s a n then done c 7 0 (refuseProtected s)
  else
    let s := setStage c.seq (.running 0) s
    pump (addJob { who := .cmd c.seq, ops := (List.range n).map (fun i => NvmOp.erase none (a + i)) } s)

/-- NVM_PROGRAM. -/
def nvmProgram (src : HostRead) (c : CmdSlot) (s : State) : State :=
  let o := (cmdP c.entry 0).toNat
  let len := (cmdP c.entry 3).toNat
  let first := o / 16384
  if nvmBytes s < o + len then doneDetail c 2 8 s
  else if protectedRange s first ((o + len + 16383) / 16384 - first) then done c 7 0 (refuseProtected s)
  else match src with
    | .error => done c 4 0 s
    | .okay b =>
      let s := setStage c.seq (.running 0) s
      pump (addJob { who := .cmd c.seq, ops := programOps o (padTo len b) true } s)

/-- Some unit of the range lies in a bank under an operation (R791, R792). -/
def rangeBusy (s : State) (o len : Nat) : Bool :=
  (List.range ((o + len + 16383) / 16384 - o / 16384)).any (fun i =>
    bankBusy s (placeOf s.nvm.opt (o / 16384 + i)).bank.toNat)

/-- NVM_READ: waits while its bank is under an operation; `err`: its writes to host memory end with an error response, and
leave it as it was (R555). -/
def nvmRead (err : Bool) (c : CmdSlot) (s : State) : State :=
  let o := (cmdP c.entry 0).toNat
  let len := (cmdP c.entry 3).toNat
  let a : U48 := fd (cmdP c.entry 2) 0 16 ++ cmdP c.entry 1
  if nvmBytes s < o + len then doneDetail c 2 8 s
  else if rangeBusy s o len then s
  else
    let ((l, cor, unc, sec), s) := readUnits (len / 32) (o / 32) s
    let result := len + cor % 2 ^ 16 * 2 ^ 32 + unc % 2 ^ 16 * 2 ^ 48
    if err then done c 4 0 s
    else setStage c.seq (.done (if unc = 0 then 0 else 6) (BitVec.ofNat 16 (sec.getD 0)) (BitVec.ofNat 64 result))
      (hostWrite s a l)

/-! ## POWER_STATE (R566, R805-R809, R867) -/

/-- The long commands in execution, with their slots. -/
def longSlots (s : State) : List (Slot × CmdSlot) :=
  ([Slot.sq 0, .sq 1, .sq 2, .sq 3, .link]).filterMap (fun k =>
    match slotAt s k with
    | some c => if isLong (cmdOp c.entry) then some (k, c) else none
    | none => none)

/-- Every long command in execution completes with ABORTED (R566, R798). -/
def abortLong (s : State) : State :=
  let jobs := s.nvm.jobs
  let cut := match jobs with
    | { who := .cmd _, .. } :: _ => true
    | _ => false
  let isCmd (j : NvmJob) : Bool := match j.who with
    | .cmd _ => true
    | _ => false
  let bist := (longSlots s).any (fun p => (cmdOp p.2.entry).toNat = 0x90)
  let s := { s with bist := { s.bist with starting := s.bist.starting && !bist } }
  let s := (longSlots s).foldl (fun s p => match p.2.stage with
    | .done _ _ _ => s
    | .running acc => done p.2 8 (if (cmdOp p.2.entry).toNat = 0x10 then acc &&& 0xFFFFFFFF else 0) s
    | _ => done p.2 8 0 s) s
  let s := jobs.foldl (fun s j => match j.who with
    | .cmd seq => cmdDone seq j 8 0 s
    | _ => s) s
  let s := { s with nvm := { s.nvm with
    jobs := s.nvm.jobs.filter (fun j => !isCmd j), run := if cut then none else s.nvm.run } }
  pump ((longSlots s).foldl (fun s p => match p.2.stage with
    | .done st d r => finishSlot p.1 p.2 st d r s
    | _ => s) s)

/-- SLEEP and DEEP are refused (R809, R867). -/
def sleepRefused (s : State) : Bool :=
  (!s.shut.active && s.out.toList.any (fun o => o.shutg && o.oen)) || s.dbg.nosleep
    || s.seq.thr.toList.any (fun t => t.mon)

/-- Steps 4-10 of R808, once steps 1-3 have ended. -/
def powerOnward (k : Slot) (c : CmdSlot) (s : State) : State :=
  if quiet s then
    enterSleep (fd (cmdP c.entry 0) 0 2 = (3 : BitVec 2)) (finishSlot k c 0 0 0 s)
  else s

def powerState (k : Slot) (c : CmdSlot) (s : State) : State :=
  let wake (s : State) : State := { s with pwr := { s.pwr with wakeen := fd (cmdP c.entry 1) 0 6 } }
  match (fd (cmdP c.entry 0) 0 2 : BitVec 2).toNat with
  | 0 => done c 0 0 s
  | 1 => enterDoze (finishSlot k c 0 0 0 (wake s))
  | _ =>
    if sleepRefused s then done c 3 0 s
    else
      let s := wake { s with pwr := { s.pwr with trans := true } }
      let s := setStage c.seq (.running 0) (pauseCulvert (lgTrigger s.lg.slpp (abortLong s)))
      powerOnward k c s

/-! ## Commands -/

def noBad (_ : BitVec 512) : List Bool := []

/-- A host address of data in P(i) and P(i + 1) is a multiple of 16 (R567). -/
def badAddr (e : BitVec 512) (i : Nat) : Bool := fd (cmdP e i) 0 4 != (0 : BitVec 4)

def all32 : U32 := 0xFFFFFFFF

/-- `n` parameter words of any value after `head`. -/
def wordsAfter (head : List U32) (n : Nat) : List U32 := head ++ List.replicate n all32

def execSubmissionFetch (entry : BitVec 512) (s : State) : Host.Outcome State Fault Refusal :=
  .next (submissionFetch entry s)
def execCompletionWrite (k : Slot) (s : State) : Host.Outcome State Fault Refusal := .next (completionWrite k s)
def execNop (k : Slot) (s : State) : Host.Outcome State Fault Refusal :=
  .next (runShort 0x01 k (fun _ => []) noBad (fun c s => done c 0 0 s) s)
def execQuery (k : Slot) (s : State) : Host.Outcome State Fault Refusal :=
  .next (runShort 0x02 k (fun _ => [0xFF]) (fun e => [decide (5 < (cmdP e 0).toNat)])
    (fun c s => done c 0 (queryResult s (cmdP c.entry 0).toNat) s) s)
def execImageLoad (k : Slot) (pass1 pass2 : HostRead) (s : State) : Host.Outcome State Fault Refusal :=
  .next (runShort 0x10 k (fun _ => [all32, 0xFFFF, all32, all32, 3]) (fun e => [badAddr e 0]) (imageLoad pass1 pass2) s)
def execImageActivate (k : Slot) (s : State) : Host.Outcome State Fault Refusal :=
  .next (runShort 0x11 k (fun _ => [1]) noBad imageActivate s)
def execPatchApply (k : Slot) (patch : HostRead) (s : State) : Host.Outcome State Fault Refusal :=
  .next (runShort 0x12 k (fun _ => [all32, 0xFFFF, all32, all32])
    (fun e =>
      let n := (cmdP e 2).toNat
      [badAddr e 0, false, n % 4 != 0 || decide (n < 8) || decide (2052 < n)]) (patchApply patch) s)
def execThreadStart (k : Slot) (s : State) : Host.Outcome State Fault Refusal :=
  .next (runShort 0x20 k (fun _ => wordsAfter [] 6) (fun e => startFaults (startParams e)) threadStart s)
def execThreadStop (k : Slot) (s : State) : Host.Outcome State Fault Refusal :=
  .next (runCmd 0x21 k (fun _ => [0x7FFF]) noBad threadStop threadStopOn s)
def execThreadReset (k : Slot) (s : State) : Host.Outcome State Fault Refusal :=
  .next (runShort 0x22 k (fun _ => [0x7FFF]) noBad threadReset s)
def execCoefWrite (k : Slot) (s : State) : Host.Outcome State Fault Refusal :=
  .next (runShort 0x30 k (fun e => wordsAfter [0x1FFF] (coefCount e))
    (fun e => [coefCount e = 0 || decide (8 < coefCount e)]) coefCommand s)
def execSetpoint (k : Slot) (s : State) : Host.Outcome State Fault Refusal :=
  .next (runShort 0x31 k (fun e => wordsAfter [all32, 0xF1F] (fd (cmdP e 1) 0 4 : BitVec 4).toNat)
    (fun e =>
      let n := (fd (cmdP e 1) 0 4 : BitVec 4).toNat
      let a := (cmdP e 0).toNat
      [a % 4 != 0 || decide (0x100000 < a + 4 * n), n = 0 || decide (12 < n)]) setpointCommand s)
def execArm (k : Slot) (s : State) : Host.Outcome State Fault Refusal :=
  .next (runShort 0x40 k (fun _ => [all32, all32, 0xFF, all32]) noBad armCommand s)
def execDisarm (k : Slot) (s : State) : Host.Outcome State Fault Refusal :=
  .next (runShort 0x41 k (fun _ => [all32, 1]) noBad disarmCommand s)
def execRearm (k : Slot) (s : State) : Host.Outcome State Fault Refusal :=
  .next (runCmd 0x42 k (fun _ => []) noBad rearmCommand rearmOn s)
def execLinkEnum (k : Slot) (s : State) : Host.Outcome State Fault Refusal :=
  .next (runShort 0x50 k (fun _ => [1]) noBad linkEnum s)
def execLinkRole (k : Slot) (s : State) : Host.Outcome State Fault Refusal :=
  .next (runShort 0x51 k (fun _ => [0x103]) noBad linkRole s)
def execLinkSend (k : Slot) (payload : HostRead) (s : State) : Host.Outcome State Fault Refusal :=
  .next (runShort 0x52 k (fun _ => [0x373FFF, all32, 0xFFFF, all32])
    (fun e =>
      let t : BitVec 3 := fd (cmdP e 0) 16 3
      let n := (cmdP e 3).toNat
      [(t != 3 && t != 5) || fd (cmdP e 0) 20 2 = (0 : BitVec 2), badAddr e 1, false, n = 0 || decide (1248 < n)])
    (linkSend payload) s)
def execLedgerRead (k : CopySlot) (s : State) : Host.Outcome State Fault Refusal :=
  .next (runShort 0x60 k.slot (fun _ => [0x3F, all32, 0xFFFF]) (fun e => [false, badAddr e 1]) (ledgerRead k.err) s)
def execLedgerBind (k : Slot) (s : State) : Host.Outcome State Fault Refusal :=
  .next (runShort 0x61 k (fun _ => [0x10F, all32, all32]) noBad ledgerBindCommand s)
def execNvmErase (k : Slot) (s : State) : Host.Outcome State Fault Refusal :=
  .next (runShort 0x70 k (fun _ => [all32, all32])
    (fun e =>
      let n := (cmdP e 1).toNat
      [fd (cmdP e 0) 0 14 != (0 : BitVec 14), n = 0 || decide (2048 < n)]) nvmErase s)

/-- The parameters of NVM_PROGRAM and NVM_READ (R567). -/
def badTransfer (e : BitVec 512) : List Bool :=
  let n := (cmdP e 3).toNat
  [fd (cmdP e 0) 0 5 != (0 : BitVec 5), badAddr e 1, false, n % 32 != 0 || n = 0 || decide (0x1000000 < n)]

def execNvmProgram (k : Slot) (src : HostRead) (s : State) : Host.Outcome State Fault Refusal :=
  .next (runShort 0x71 k (fun _ => [all32, all32, 0xFFFF, all32]) badTransfer (nvmProgram src) s)
def execNvmRead (k : CopySlot) (s : State) : Host.Outcome State Fault Refusal :=
  .next (runShort 0x72 k.slot (fun _ => [all32, all32, 0xFFFF, all32]) badTransfer (nvmRead k.err) s)
def execPowerState (k : Slot) (s : State) : Host.Outcome State Fault Refusal :=
  .next (runCmd 0x80 k (fun _ => [3, 0x3F]) noBad (powerState k) (powerOnward k) s)

end Sys2Proof.Machine
end

