-- ==== Sys2Proof/Machine/Bist.lean ====
section
/-! DEFINITION. Built-in self-test (20): its start by BIST_RUN or by the debugger, the end of each test, the reset that
follows, and the completion it owes. -/

namespace Sys2Proof.Machine

/-! ## Starting (R879, R880) -/

/-- The state refuses a start (R879). One BIST runs at a time (R558). -/
def bistRefused (s : State) : Bool :=
  !s.shut.active || s.out.toList.any (fun o => o.oen && !o.shutg) || s.seq.thr.toList.any (fun t => t.mon)
    || s.bist.starting || coreOff s

/-- The BIST_RUN that is in execution, with its slot. -/
def bistCmd (s : State) : Option (Slot × CmdSlot) :=
  (longSlots s).find? (fun p => (cmdOp p.2.entry).toNat = 0x90 && (match p.2.stage with
    | .running _ => true
    | _ => false))

/-- BISTCMD of the BIST_RUN, with PEND (R880, R881). -/
def bistOwe (k : Slot) (c : CmdSlot) (b : Bist) : Bist :=
  { b with
    cid := cmdCid c.entry, member := cmdMember c.entry, irq := cmdIrq c.entry, pend := true, origin := c.origin
    ring := (match k with
      | .sq r => BitVec.ofNat 2 r
      | .link => 0) }

/-- WDOG[7:0] (R880). -/
def wdogByte (w : Wdog) : Byte :=
  BitVec.ofNat 8 (b1 w.en + 2 * b1 w.lock + 4 * b1 w.wrst + 8 * b1 w.dbgfrz + 16 * w.svcthr.toNat)

/-- T15 enters safe mode (R254, R880). -/
def enterSafe15 (s : State) : State := (bootThread s).modThr 15 (fun t => { t with safe := true })

/-- Steps 6 and 7 of R808, the copies into AO retention, and the hand-over to the BIST controller (R880, R882). -/
def bistEnter (s : State) : State :=
  let cmd := bistCmd s
  let dbg := cmd.isNone
  let s := idleLanes true (holdPads (enterSafe15 s))
  let b : Bist := { s.bist with
    starting := false, valid := false, lrun := false, mrun := false, lmis := false, mmis := false, lnoref := false
    mnoref := false, mfail := 0, dbg := dbg, phase := if s.bist.wantLogic then .logic else .memory }
  { s with
    clk := { s.clk with running := false }
    ports := quietPorts s.ports
    tur := { s.tur with w1cSet := [], rcSet := [] }
    gp := { s.gp with tally := 0, tsat := false }
    wdog := { s.wdog with cnt := 0, opened := false }
    bist := match cmd with
      | some (k, c) => bistOwe k c b
      | none => b
    pwr := { s.pwr with
      aoGauge := s.clk.gauge, aoRatio := s.gp.ratio, aoWdog := some (wdogByte s.wdog, s.wdog.per, s.wdog.cls)
      oeHold := true, holdrel := false } }

/-- Steps 5 to 7, once steps 1-4 have ended and no other thread is in safe mode (R254). -/
def bistOnward (s : State) : State :=
  if s.bist.starting && quiet s && s.seq.safeThr.isNone then bistEnter s else s

/-- Steps 2 and 3 of an accepted start: the persistence, whatever SLPP holds, and the pause of Culvert (R880). -/
def bistBegin (logic memory : Bool) (s : State) : State :=
  bistOnward (pauseCulvert (lgTrigger true { s with bist := { s.bist with
    starting := true, wantLogic := logic, wantMem := memory } }))

/-- BIST_RUN. -/
def bistRun (k : Slot) (c : CmdSlot) (s : State) : State :=
  if bistRefused s then done c 3 0 s
  else
    let put (c : CmdSlot) (s : State) : State := match k with
      | .sq r => { s with hg := { s.hg with slot := vset s.hg.slot r (some c) } }
      | .link => { s with hg := { s.hg with linkSlot := some c } }
    let s := put { c with stage := .running 0 } (abortLong (clearSlot k s))
    bistBegin (bit (cmdP c.entry 0) 0) (bit (cmdP c.entry 0) 1) s

/-- A write of DBIST (R879, R891). -/
def bistByDebugger (v : U32) (s : State) : State :=
  if !bit v 2 then s
  else if bistRefused s || (bistCmd s).isSome || fd v 0 2 = (0 : BitVec 2) then
    let s := hwSet 0x26020 0x100 { s with bist := { s.bist with refd := true } }
    if coreOff s then s else raise 431 s
  else bistBegin (bit v 0) (bit v 1) (abortLong s)

/-! ## The tests and their end (R883-R885) -/

/-- The tests are over (R885). -/
def bistOver (time : Byte) (s : State) : State :=
  { s with bist := { s.bist with valid := true, time := time, phase := .reset } }

/-- The end of logic BIST, with its MISR. -/
def logicDone (misr : U64) (s : State) : State :=
  if s.bist.phase != .logic then s
  else
    let want := s.nvm.opt.bistLogic
    let s := { s with bist := { s.bist with
      logicSig := misr, lrun := true, lnoref := want = 0, lmis := want != 0 && misr != want } }
    if s.bist.wantMem then { s with bist := { s.bist with phase := .memory } }
    else
      let (time, s) := drawFree 8 s
      bistOver time s

/-- The end of memory BIST, with its MISR, the groups that failed and the duration of the tests in ms. -/
def memoryDone (misr : U64) (mfail ms : Byte) (s : State) : State :=
  if s.bist.phase != .memory then s
  else
    let want := s.nvm.opt.bistMem
    bistOver ms { s with bist := { s.bist with
      memSig := misr, mrun := true, mfail := mfail, mnoref := want = 0
      mmis := mfail != 0 || (want != 0 && misr != want) } }

/-- The reset after BIST (R818, R885); a debug reset and an rst_n request that BIST held come after it (R883). -/
def postBist (s : State) : State :=
  if s.bist.phase != .reset then s
  else
    let held := s.pwr.dbgHeld
    let req := s.pwr.rstReq
    let s := coldReset (dropDebugAccess s)
    let s := { s with
      bist := { s.bist with phase := .idle }
      pwr := { s.pwr with
        rstcause := setBit s.pwr.rstcause 6 true, rstReq := req, rstSafe := true, restore := true
        holdrel := true, waking := false, trans := false } }
    if held then debugReset s else s

/-- A BIST_RUN that came over the link is answered once the block has its place in the tree again (R881, R886). -/
def bistReply (s : State) : State :=
  let b := s.bist
  match b.origin with
  | none => s
  | some (p, src, tag) =>
    if s.hg.bistp && b.pend && s.link.valid && portUp s p.toNat then
      let r := bistOutcome b
      let f : Frame :=
        { ftype := 4, vl := fd tag 8 2, dst := src, msgid := fd tag 0 8, sub := fd tag 16 3
          content := bytesLE (completion b.cid r.1 b.ring b.member 0 r.2.1 r.2.2) 16 }
      originate f none (bistPaid s)
    else s

/-! ## Commands -/

def execBistRun (k : Slot) (s : State) : Host.Outcome State Fault Refusal :=
  .next (runCmd 0x90 k (fun _ => [3]) (fun e => [fd (cmdP e 0) 0 2 = (0 : BitVec 2)]) (bistRun k)
    (fun _ s => bistOnward s) s)
def execLogicBistDone (misr : U64) (s : State) : Host.Outcome State Fault Refusal := .next (logicDone misr s)
def execMemoryBistDone (misr : U64) (mfail : BitVec 8) (ms : BitVec 8) (s : State) :
    Host.Outcome State Fault Refusal := .next (memoryDone misr mfail ms s)
def execPostBistReset (s : State) : Host.Outcome State Fault Refusal := .next (postBist s)

end Sys2Proof.Machine
end

