-- ==== Sys2Proof/Machine/Debug.lean ====
section
/-! DEFINITION. The inspection port (19): frames, authorisation, the debug bus master, comparators, the monitor and its
requests, freezes, the debug space, and DEBUG_POLICY. -/

namespace Sys2Proof.Machine

/-! ## Responses (R840, R842, R844) -/

/-- Bits of a field, the most significant first. -/
def msb {w : Nat} (v : BitVec w) : List Bool := (List.range w).map (fun i => bit v (w - 1 - i))

/-- The block sends a response frame. -/
def respond (status : BitVec 4) (data : U32) (s : State) : State :=
  { s with dbg := { s.dbg with
      rspStatus := status, rspData := data, rspCrc := crc4 (msb status ++ msb data), frame := false } }

/-- Turnout counts only while CORE runs. -/
def raiseOn (src : Nat) (s : State) : State := if coreOff s then s else raise src s

/-! ## Level (R846-R850) -/

/-- The granted level becomes `l` (R850). -/
def setLevel (l : BitVec 2) (s : State) : State :=
  let old := s.dbg.level
  if l = old then s
  else
    let s := raiseOn 432 { s with dbg := { s.dbg with level := l } }
    if 2 ≤ old.toNat && l.toNat < 2 then
      let s := { s with dbg := { s.dbg with
        cmp := vmap s.dbg.cmp (fun _ d => { d with act := 0 }), frzForce := false, frzMask := 0 } }
      s.each 16 (fun s n => releaseMonitor n s)
    else s

/-- A write of DPOL (R850): a set LOCK stays set (DESIGN CHOICE, log entry 42). -/
def debugPolicy (c : CmdSlot) (s : State) : State :=
  let p0 := cmdP c.entry 0
  let new : BitVec 2 := fd p0 0 2
  let old := s.dbg.polmax
  let lock := s.dbg.pollock || bit p0 8
  if s.dbg.pollock && decide (old < new) then done c 7 (old.zeroExtend 64) s
  else
    let s := raiseIf (new != old || lock != s.dbg.pollock) 445 { s with dbg := { s.dbg with polmax := new, pollock := lock } }
    done c 0 (old.zeroExtend 64) (if new < s.dbg.level then setLevel new s else s)

/-- A challenge for level `l` (R847); `noise` comes from the noise source. -/
def challenge (l : BitVec 2) (noise : U32) (s : State) : State :=
  let d := s.dbg
  if l = 0 then s
  else if d.polmax < l || !d.keyv || d.lockout then { s with dbg := { d with noncev := false } }
  else
    let n := d.nonceCnt + 1
    { s with dbg := { d with noncev := true, nonce := noise ++ n, nonceCnt := n, chal := l } }

/-- The tag that answers the outstanding challenge (R848). -/
def expectedTag (d : Debug) : List Nat :=
  let key : BitVec 128 := vget d.key (d.chal.toNat - 1) 0
  cmac16 ((bytesLE key 16).map (fun b => b.toNat)) ((bytesLE d.nonce 8).map (fun b => b.toNat))

/-- A check of MAC0-MAC3 (R848). -/
def checkTag (s : State) : State :=
  let d := s.dbg
  let tag := d.mac.toList.flatMap (fun m => (bytesLE m 4).map (fun b => b.toNat))
  let ok := d.noncev && tag = expectedTag d
  let s := { s with dbg := { d with noncev := false } }
  if ok then setLevel d.chal s
  else raiseOn 433 { s with dbg := { s.dbg with fails := satInc s.dbg.fails, lockout := true } }

/-- A write of DAUTH (R847, R848, R850). -/
def writeDauth (v noise : U32) (s : State) : State :=
  let s := if bit v 4 then setLevel 0 s else s
  let s := if bit v 3 then checkTag s else s
  if bit v 2 then challenge (fd v 0 2) noise s else s

/-! ## The debug bus master (R849, R851-R855) -/

/-- An access ends with an error (R855). -/
def dbFail (cause : BitVec 3) (s : State) : State :=
  let s := raiseOn 444 { s with dbg := { s.dbg with access := none, ready := false, err := true, cause := cause } }
  if s.dbg.frame then respond 2 0 s else s

/-- The size of an access in bytes. -/
def dbSize (d : Debug) : Nat := 2 ^ d.size.toNat

/-- An access ends well (R851). -/
def dbDone (v : U32) (s : State) : State :=
  let d := s.dbg
  let wr := d.access.any (fun a => a.wr.isSome)
  let a : U48 := (d.dbah ++ d.dbal) + BitVec.ofNat 48 (if d.ainc then dbSize d else 0)
  let s := { s with dbg := { d with
    access := none, data := v, ready := !wr && !d.frame, dbal := fd a 0 32, dbah := fd a 32 16 } }
  if d.frame && !wr then respond 0 v s else s

/-- A store of the debug bus master to the block's own register at `off` below machine level is allowed (R849). -/
def controlStore (off : Nat) : Bool :=
  regAllowed 1 off true || (decide (0x22400 ≤ off) && decide (off < 0x22480)) || off / 4 = 0x9800

/-- Level, then size and place, refuse an access: its cause (R849, R855). -/
def dbRefused (s : State) (wr : Bool) : Option (BitVec 3) :=
  let d := s.dbg
  let a : U32 := d.dbal
  let lvl := d.level.toNat
  let low := lvl < 3
  let n := dbSize d
  let level : Bool := lvl = 0 || (wr && decide (lvl < 2)) || (match d.space.toNat with
    | 0 => wr && low && (match regionOf a with
      | .regs => (match routeOff s (a.toNat - 0x10000000) with
        | .own off => !controlStore off
        | .member _ off => !regAllowed 1 off true
        | .nowhere => false)
      | .member => !regAllowed 1 (a.toNat % 0x100000) true
      | .data => inExcTable s a.toNat n
      | _ => false)
    | 1 => false
    | 2 => (low && wr) || ((low || wr) && decide ((fd a 0 16 : BitVec 16).toNat < 8192))
    | _ => (low && wr) || ((low || wr) && decide ((fd a 3 12 : BitVec 12).toNat < 1024)))
  let addr : U48 := d.dbah ++ d.dbal
  let size : Bool := d.size = 3 || (match d.space.toNat with
    | 0 => decide (a.toNat % n != 0) || (match regionOf a with
      | .regs => n != 4
      | .member => n != 4
      | .nvm => n != 4
      | _ => false)
    | 1 => addr.toNat % n != 0
    | _ => d.size != 2)
  let unmapped : Bool := d.space = 0 && (match regionOf a with
    | .none => true
    | .nvm => wr || decide (nvmBytes s ≤ a.toNat - 0x20000000)
    | _ => false)
  let ao := d.space = 0 && decide (0x10001000 ≤ a.toNat) && decide (a.toNat < 0x10001028)
  if level then some 3
  else if size then some 5
  else if unmapped then some 6
  else if coreOff s && !ao then some 4
  else none

/-- An access to the block's own register (R849, R853, R854). -/
def dbRegister (off : Nat) (wr : Option U32) (s : State) : State :=
  match wr with
  | none =>
    let (r, s) := busRead .debugger true off s
    if r.err then dbFail (if r.unc then 2 else 1) s else dbDone r.data s
  | some v =>
    let r := busWrite .debugger off v 0xF s
    if r.2.err then dbFail 3 r.1 else dbDone v r.1

/-- An access to data memory. -/
def dbData (a n : Nat) (wr : Option U32) (s : State) : State :=
  match wr with
  | none =>
    if rowsBad s a n then dbFail 2 s
    else
      let (l, s) := seenData a n s
      dbDone (ofLE 32 l) s
  | some v => if partBad s a n then dbFail 2 s else dbDone v (storeRow a (bytesLE v n) s)

/-- An access to host memory. -/
def dbHost (a : U48) (n : Nat) (wr : Option U32) (resp : LoadResp) (s : State) : State :=
  match wr, resp with
  | _, .error => dbFail 1 s
  | _, .uncorrectable => dbFail 2 s
  | none, .okay v => dbDone (ofLE 32 (bytesLE v n)) s
  | none, .exokay v => dbDone (ofLE 32 (bytesLE v n)) s
  | some v, _ => dbDone v (storeHost a (bytesLE v n) s)

/-- An access to a member's register, sent once (R726, R853). -/
def dbMember (m off : Nat) (wr : Option U32) (s : State) : State :=
  if s.link.fwd.any (fun (f : Forwarded) => f.agent = .debugger) then s
  else
    let r := forwardAccess .debugger m off wr 0xF wr.isNone s
    if r.2 then dbFail 1 r.1 else r.1

/-- An access to the register window (R726, R853, R900). -/
def dbWindow (off : Nat) (wr : Option U32) (s : State) : State :=
  match routeOff s off with
  | .own off => dbRegister off wr s
  | .member m off => dbMember m off wr s
  | .nowhere => dbDone (wr.getD 0) s

/-- An access to the control stores (R852). -/
def dbStore (a : U32) (nano : Bool) (wr : Option U32) (s : State) : State :=
  let i : BitVec 16 := fd a 0 16
  let k := (fd a 3 12 : BitVec 12).toNat
  let j := (fd a 0 3 : BitVec 3).toNat
  match nano, wr with
  | false, none => if marked i.toNat s.mem.badMicro then dbFail 2 s else dbDone (microWord s i) s
  | false, some v => dbDone v (winMicro .debugger i.toNat v s)
  | true, none => if marked k s.mem.badNano then dbFail 2 s else dbDone (fd (nanoWord s k) (32 * j) 32) s
  | true, some v => dbDone v (stageNano .debugger k j v 0xF s)

/-- The access of the debug bus master comes to its end, or is sent to a member. -/
def dbComplete (resp : LoadResp) (s : State) : State :=
  match s.dbg.access with
  | none => s
  | some x =>
    match dbRefused s x.wr.isSome with
    | some c => dbFail c s
    | none =>
      let a : U32 := s.dbg.dbal
      let n := dbSize s.dbg
      match s.dbg.space.toNat with
      | 0 =>
        match regionOf a with
        | .data => dbData a.toNat n x.wr s
        | .regs => dbWindow (a.toNat - 0x10000000) x.wr s
        | .member => dbMember ((a.toNat - 0x10000000) / 0x100000) (a.toNat % 0x100000) x.wr s
        | .nvm =>
          let o := a.toNat - 0x20000000
          if bankBusy s (placeOf s.nvm.opt (o / 16384)).bank.toNat then s
          else
            let (u, s) := readLogical (o / 16384) (o / 32 % 512) s
            if u.unc then dbFail 2 s else dbDone (fd u.data (8 * (o % 32)) 32) s
        | .host => dbHost (hostAddr s a) n x.wr resp s
        | .none => s
      | 1 => dbHost (s.dbg.dbah ++ s.dbg.dbal) n x.wr resp s
      | 2 => dbStore a false x.wr s
      | _ => dbStore a true x.wr s

/-- A read of DBDATA (R851, R855). -/
def readDbdata (s : State) : State :=
  let d := s.dbg
  if d.level = 0 then respond 3 0 s
  else if d.err then respond 2 0 s
  else if d.ready then respond 0 d.data { s with dbg := { d with ready := false } }
  else if d.access.isSome then respond 1 0 s
  else
    let s := respond 1 0 { s with dbg := { d with access := some { wr := none } } }
    { s with dbg := { s.dbg with frame := true } }

/-- A write of DBDATA (R851, R855). -/
def writeDbdata (v : U32) (s : State) : State :=
  let d := s.dbg
  if d.level.toNat < 2 then respond 3 v s
  else if d.err then respond 2 v s
  else if d.access.isSome then respond 1 v s
  else respond 0 v { s with dbg := { d with access := some { wr := some v }, data := v, ready := false } }

/-! ## Halts, returns and freezes (R860-R868) -/

/-- DTHR[n] at offset 0 (R875). -/
def dthr (t : Thread) : U32 :=
  pk [(0, b1 t.halt), (1, b1 t.resume), (2, b1 t.step), (3, b1 t.mon), (4, t.cause.toNat), (8, t.cmp.toNat)]

/-- The monitor serves a return that has been asked for (R863, R864). -/
def serveResume (n : Nat) (s : State) : State :=
  if issuing s && (s.thr n).mon && !(s.thr n).spill && (s.thr n).resume then returnMonitor n s else s

/-- A write of DTHR[n] (R864, R875). -/
def writeDthr (n : Nat) (v : U32) (s : State) : State :=
  serveResume n
    (s.modThr n (fun t => { t with halt := t.halt || bit v 0, resume := t.resume || bit v 1, step := bit v 2 }))

/-- A write of MPC or MSTAT (R866). -/
def writeSaved (n : Nat) (stat : Bool) (v : U32) (s : State) : State :=
  let t := s.thr n
  let priv : BitVec 2 := fd v 4 2
  let bad : Bool :=
    if stat then (if n = 15 then priv = 2 else decide (2 ≤ priv.toNat))
    else s.dbg.level = 2 && n != 15 && decide ((fd v 0 16 : BitVec 16).toNat < 0x2000)
  if !t.mon || bad then s
  else s.modThr n (fun t => if stat then { t with mstat := v } else { t with mpc := fd v 0 16 })

/-- The debug space asks for a freeze (R868). -/
def freezeAsked (s : State) : Bool :=
  s.dbg.frzForce || (List.range 16).any (fun n => bit s.dbg.frzMask n && (s.thr n).mon)

/-- FREEZE_BEGIN (R868). -/
def freezeBegin (s : State) : State :=
  if freezeAsked s && !s.dbg.frozen then raise 442 { s with dbg := { s.dbg with frozen := true } } else s

/-- THAW (R868): Gauge-timed starts and SETATs whose times have passed come about. -/
def thaw (s : State) : State :=
  if s.dbg.frozen && !freezeAsked s then
    let tmr := s.dbg.frzTmr
    let rider := s.dbg.frzRider
    let s := raise 443 { s with dbg := { s.dbg with frozen := false } }
    let s := if tmr then
        { s with tmr := vmap s.tmr (fun _ t =>
            if t.aten && inPast t.synct s.clk.gauge then { t with passedAt := s.clk.fc + 1 } else t) }
      else s
    if rider then setatThaw s else s
  else s

/-! ## The debug space (R870-R875) -/

/-- DSTAT (R870). -/
def dstat (s : State) : U32 :=
  let d := s.dbg
  pk [(0, d.level.toNat), (2, d.polmax.toNat), (4, b1 d.pollock), (5, b1 d.keyv), (6, b1 d.noncev), (7, b1 d.lockout),
    (9, b1 (!coreOff s)), (10, s.pwr.st.code), (12, b1 d.frozen), (16, d.fails.toNat)]

/-- DFRZ (R872). -/
def dfrz (s : State) : U32 :=
  let d := s.dbg
  pk [(0, b1 d.frzTmr), (1, b1 d.frzRider), (2, b1 d.frzCul), (3, b1 d.frzLedger), (4, b1 s.wdog.dbgfrz),
    (5, b1 d.frzEdge), (6, b1 d.frzForce), (16, d.frzMask.toNat)]

def cmpWord (c : Cmp) (k : Nat) : U32 :=
  match k with
  | 0 => pk [(0, c.kind.toNat), (2, c.act.toNat), (4, c.rw.toNat), (16, c.tmask.toNat)]
  | 1 => c.vall
  | 2 => c.valh.zeroExtend 32
  | _ => c.mask

/-- A comparator after a write of its word k (R874). -/
def cmpPut (c : Cmp) (k : Nat) (v : U32) : Cmp :=
  match k with
  | 0 => { c with kind := fd v 0 2, act := fd v 2 2, rw := fd v 4 2, tmask := fd v 16 16 }
  | 1 => { c with vall := v }
  | 2 => { c with valh := fd v 0 16 }
  | _ => { c with mask := v }

/-- A comparator that needs machine level (R849). -/
def cmpMachine (c : Cmp) : Bool := bit c.tmask 15 || (c.kind = 0 && decide (c.vall.toNat < 8192))

/-- The level that a read of the debug space needs (R849). -/
def readLevel (s : State) (a : Nat) : Nat :=
  if a = 0 || a = 4 || a = 0x10 || a = 0x14 then 0
  else if 0x100 ≤ a && a < 0x180 then (if cmpMachine (vget s.dbg.cmp ((a - 0x100) / 0x10) {}) then 3 else 1)
  else if 0x2F0 ≤ a && a < 0x300 then 3
  else 1

/-- The level that a write of the debug space needs (R849). -/
def writeLevel (s : State) (a : Nat) (v : U32) : Nat :=
  if a = 8 || (0x18 ≤ a && a < 0x28) then 0
  else if 0x100 ≤ a && a < 0x180 then
    let c := vget s.dbg.cmp ((a - 0x100) / 0x10) {}
    if (c.act != 0 && cmpMachine c) || cmpMachine (cmpPut c (a % 0x10 / 4) v) then 3 else 2
  else if 0x2F0 ≤ a && a < 0x300 then 3
  else 2

/-- A register of the debug space. -/
def spaceRead (s : State) (a : Nat) : U32 :=
  let d := s.dbg
  if a % 4 != 0 then 0
  else if 0x200 ≤ a && a < 0x300 then
    let t := s.thr ((a - 0x200) / 0x10)
    match a % 0x10 with
    | 0 => dthr t
    | 4 => t.mpc.zeroExtend 32
    | 8 => t.mstat
    | _ => 0
  else if 0x100 ≤ a && a < 0x180 then cmpWord (vget d.cmp ((a - 0x100) / 0x10) {}) (a % 0x10 / 4)
  else match a with
    | 0x00 => 0x00030001
    | 0x04 => dstat s
    | 0x10 => fd d.nonce 0 32
    | 0x14 => fd d.nonce 32 32
    | 0x30 => pk [(1, b1 d.nosleep)]
    | 0x34 => dfrz s
    | 0x40 => d.dbal
    | 0x44 => d.dbah.zeroExtend 32
    | 0x48 => pk [(0, d.space.toNat), (2, d.size.toNat), (4, b1 d.ainc)]
    | 0x50 => pk [(0, b1 d.access.isSome), (1, b1 d.err), (4, d.cause.toNat)]
    | _ => 0

/-- A write of DCTL (R869, R872). -/
def writeDctl (v : U32) (s : State) : State :=
  let s := { s with dbg := { s.dbg with nosleep := bit v 1 } }
  if bit v 0 then pwrctlWake s else s

/-- A write of the debug space. -/
def spaceWrite (a : Nat) (v noise : U32) (s : State) : State :=
  let d := s.dbg
  if a % 4 != 0 then s
  else if 0x200 ≤ a && a < 0x300 then
    let n := (a - 0x200) / 0x10
    match a % 0x10 with
    | 0 => writeDthr n v s
    | 4 => writeSaved n false v s
    | 8 => writeSaved n true v s
    | _ => s
  else if 0x100 ≤ a && a < 0x180 then
    { s with dbg := { d with cmp := vmod d.cmp ((a - 0x100) / 0x10) (fun c => cmpPut c (a % 0x10 / 4) v) } }
  else if 0x18 ≤ a && a < 0x28 then { s with dbg := { d with mac := vset d.mac ((a - 0x18) / 4) v } }
  else match a with
    | 0x08 => writeDauth v noise s
    | 0x30 => writeDctl v s
    | 0x34 =>
      { s with dbg := { d with
          frzTmr := bit v 0, frzRider := bit v 1, frzCul := bit v 2, frzLedger := bit v 3, frzEdge := bit v 5
          frzForce := bit v 6, frzMask := fd v 16 16 } }
    | 0x38 => bistByDebugger v s
    | 0x40 => { s with dbg := { d with dbal := v } }
    | 0x44 => { s with dbg := { d with dbah := fd v 0 16 } }
    | 0x48 => { s with dbg := { d with space := fd v 0 2, size := fd v 2 2, ainc := bit v 4 } }
    | 0x50 => { s with dbg := { d with err := d.err && !bit v 1 } }
    | _ => s

/-! ## Frames (R840-R844) -/

/-- A read frame (R840, R843, R849). -/
def readFrame (op : BitVec 4) (a : Nat) (s : State) : State :=
  if op != 1 then (if op = 2 then s else respond 5 0 s)
  else if a = 0x4C then readDbdata s
  else if s.dbg.level.toNat < readLevel s a then respond 3 0 s
  else respond 0 (spaceRead s a) s

/-- A write that a frame carries, once its CRC has matched. -/
def writeSpace (a : Nat) (v noise : U32) (s : State) : State :=
  if a = 0x4C then writeDbdata v s
  else if s.dbg.level.toNat < writeLevel s a v then respond 3 v s
  else respond 0 v (spaceWrite a v noise s)

/-- A write frame (R842, R843). -/
def writeFrame (op : BitVec 4) (a : BitVec 24) (v : U32) (crc : BitVec 4) (s : State) : State :=
  if op != 2 then (if op = 1 then s else respond 5 0 s)
  else if crc4 (msb op ++ msb a ++ msb v) != crc then respond 4 v s
  else
    let (noise, s) := drawFree 32 s
    writeSpace a.toNat v noise s

/-! ## The monitor at work (R860-R866, R876) -/

/-- A monitor entry by halt or step may be taken in this fc: of a waiting thread at once, of a ready one at a boundary that R373
allows (R860, R865). -/
def debugOpen (s : State) (n : Nat) : Bool :=
  let t := s.thr n
  let live : Bool := match t.run with
    | .ready => boundaryOpen t.ctx && decide (t.holdUntil ≤ s.clk.fc)
    | .waiting _ => true
    | _ => false
  issuing s && live && t.escal.isNone && !t.mon && !t.spill

/-- MONITOR_ENTRY: by HALT, or by a comparator that the next word matches (R858, R860). -/
def monitorEntry (n : Nat) (s : State) : State :=
  if (s.thr n).halt && debugOpen s n then enterMonitor n 1 0 (applyRet n s)
  else
    let s' := applyRet n s
    match (wordStop s' n (microWord s' (s'.thr n).ctx.pc)).2 with
    | some (.monitor _) => issue n none s
    | _ => s

/-- STEP_ENTRY (R865). -/
def stepEntry (n : Nat) (s : State) : State :=
  if 2 ≤ (s.thr n).stepWords && debugOpen s n then enterMonitor n 3 0 (applyRet n s) else s

/-- Entry `i` of the return stack from its top: in hardware, then in its spill region. -/
def stackEntry (s : State) (c : Ctx) (i : Nat) : Option U16 :=
  if i < c.hw.length then c.hw[c.hw.length - 1 - i]?
  else
    let j := i - c.hw.length
    let row := c.rsp.toNat - 1 - j / 8
    if j / 8 < c.rsp.toNat - c.rslo.toNat then some (fd (dataRow s row) (16 * (7 - j % 8)) 16) else none

/-- What a request does (R876): the data it leaves in MONDATA, or nothing when it is illegal, and the thread. -/
def monServe (s : State) (t : Thread) : Option (U32 × Thread) :=
  let idx : BitVec 5 := fd t.monreq 4 5
  let k := (fd idx 0 2 : BitVec 2).toNat
  let part := (fd idx 2 2 : BitVec 2).toNat
  let a := vget t.ctx.a k 0
  match (fd t.monreq 1 3 : BitVec 3).toNat with
  | 0 => some (vget t.ctx.g idx.toNat 0, t)
  | 1 => some (t.mondata, { t with ctx := { t.ctx with g := vset t.ctx.g idx.toNat t.mondata } })
  | 2 => if part = 3 then none else some (fd a (32 * part) 32, t)
  | 3 =>
    match part with
    | 0 => some (t.mondata, { t with part0 := some t.mondata })
    | 1 => some (t.mondata, { t with part1 := some t.mondata })
    | 2 =>
      let v : U80 := fd t.mondata 0 16 ++ (t.part1.getD (fd a 32 32) ++ t.part0.getD (fd a 0 32))
      some (t.mondata, { t with ctx := { t.ctx with a := vset t.ctx.a k v } })
    | _ => none
  | 4 => (stackEntry s t.ctx idx.toNat).map (fun e => (e.zeroExtend 32, t))
  | 5 =>
    some (pk [(0, (fd t.mstat 0 4 : BitVec 4).toNat), (4, t.ctx.sat.toNat), (8, b1 t.ctx.fmax), (9, b1 t.ctx.scf),
      (10, b1 t.ctx.wto), (11, b1 (heldResv s t.ctx).isSome)], t)
  | 6 => some (t.mondata, { t with mstat := fd t.mstat 4 28 ++ fd t.mondata 0 4 })
  | _ => none

/-- MONITOR_REQUEST: the headworks serves a request with GO = 1, and a return that was asked for while no thread could issue (R864). -/
def monitorRequest (n : Nat) (s : State) : State :=
  let t := s.thr n
  if issuing s && t.mon && !t.spill && bit t.monreq 0 then
    serveResume n <| s.modThr n (fun t =>
      let t := { t with ctx := landAll t.ctx }
      match monServe s t with
      | some (v, t) => { t with mondata := v, monreq := setBit (setBit t.monreq 0 false) 9 false }
      | none => { t with monreq := setBit (setBit t.monreq 0 false) 9 true })
  else serveResume n s

/-! ## Commands -/

def execRd (op : BitVec 4) (addr : BitVec 24) (s : State) : Host.Outcome State Fault Refusal :=
  .next (readFrame op addr.toNat s)
def execWr (op : BitVec 4) (addr : BitVec 24) (v : U32) (crc : BitVec 4) (s : State) :
    Host.Outcome State Fault Refusal :=
  .next (writeFrame op addr v crc s)
/-- CHALLENGE: a write of DAUTH with CHAL = 1. -/
def execChallenge (v : U32) (noise : U32) (s : State) : Host.Outcome State Fault Refusal :=
  .next (respond 0 v (challenge (fd v 0 2) noise s))
/-- CHECK: a write of DAUTH with CHECK = 1. -/
def execCheck (s : State) : Host.Outcome State Fault Refusal := .next (respond 0 8 (checkTag s))
def execLockoutExpiry (s : State) : Host.Outcome State Fault Refusal :=
  .next { s with dbg := { s.dbg with lockout := false } }
/-- DROP: a write of DAUTH with DROP = 1. -/
def execDrop (s : State) : Host.Outcome State Fault Refusal := .next (respond 0 16 (setLevel 0 s))
def execDbdataRead (s : State) : Host.Outcome State Fault Refusal := .next (readDbdata s)
def execDbdataWrite (v : U32) (s : State) : Host.Outcome State Fault Refusal := .next (writeDbdata v s)
def execDebugBusComplete (resp : LoadResp) (s : State) : Host.Outcome State Fault Refusal := .next (dbComplete resp s)
/-- HALT: a write of DTHR[n] with HALT = 1. -/
def execHalt (n : Fin 16) (s : State) : Host.Outcome State Fault Refusal :=
  .next (writeSpace (0x200 + 0x10 * n) (pk [(0, 1), (2, b1 (s.thr n).step)]) 0 s)
def execMonitorEntry (n : Fin 16) (s : State) : Host.Outcome State Fault Refusal := .next (inCore s (monitorEntry n s))
def execMonitorRequest (n : Fin 16) (s : State) : Host.Outcome State Fault Refusal := .next (monitorRequest n s)
/-- RESUME: a write of DTHR[n] with RESUME = 1 (R849, R864). -/
def execResume (n : Fin 16) (s : State) : Host.Outcome State Fault Refusal :=
  .next (writeSpace (0x200 + 0x10 * n) (pk [(1, 1), (2, b1 (s.thr n).step)]) 0 s)
def execStepEntry (n : Fin 16) (s : State) : Host.Outcome State Fault Refusal := .next (inCore s (stepEntry n s))
def execFreezeBegin (s : State) : Host.Outcome State Fault Refusal := .next (inCore s (freezeBegin s))
def execThaw (s : State) : Host.Outcome State Fault Refusal := .next (inCore s (thaw s))
/-- DCTL_WAKE: a write of DCTL with WAKE = 1 (R869). -/
def execDctlWake (s : State) : Host.Outcome State Fault Refusal :=
  .next (writeSpace 0x30 (pk [(0, 1), (1, b1 s.dbg.nosleep)]) 0 s)
/-- DBIST: a write of DBIST (R891). -/
def execDbist (v : U32) (s : State) : Host.Outcome State Fault Refusal := .next (writeSpace 0x38 v 0 s)
/-- PORT_RETURN_TO_IDLE: dio at 1 for 64 cycles of a request (R841): the frame is discarded. -/
def execPortReturnToIdle (s : State) : Host.Outcome State Fault Refusal :=
  .next { s with dbg := { s.dbg with frame := false } }
def execDebugPolicy (k : Slot) (s : State) : Host.Outcome State Fault Refusal :=
  .next (runShort 0xA0 k (fun _ => [0x103]) noBad debugPolicy s)

end Sys2Proof.Machine
end

