-- ==== Sys2Proof/Machine/Stores.lean ====
section
/-! DEFINITION. The commands that write one register: who may write it (R361, R362, R411, R855, R906), and what a refused
writer meets. -/

namespace Sys2Proof.Machine

/-! ## Who may write -/

/-- The privilege code that a thread's store is tested with (R287, R361): machine in safe mode and in the monitor. -/
def storePriv (s : State) (n : Nat) : BitVec 2 :=
  if (s.thr n).safe || (s.thr n).mon then 3 else (s.thr n).ctx.priv

/-- `w` may not write the register at `off`: a thread by R361 and R429, the debugger by its level (R855). What host
software may not write, the register itself answers with an error response (R362). -/
def writeRefused (s : State) (w : Who) (off : Nat) : Bool :=
  match w with
  | .host => false
  | .thread n => regRefused s n (storePriv s n) off true
  | .debugger => decide (s.dbg.level.toNat < 2) || (s.dbg.level != 3 && !controlStore off)

/-- What a refused writer meets: a thread, vector 3 for the word that stores (R361); the debugger, cause 3 (R855). -/
def refuseWrite (w : Who) (s : State) : State :=
  match w with
  | .host => s
  | .thread n =>
    if coreOff s || (s.thr n).run != .ready || (s.thr n).escal.isSome then s else takeFault n 3 0 s
  | .debugger => if s.dbg.access.isNone then dbFail 3 s else s

/-- The answer to a write that was made: host software sees it on APB, the debugger sees an error response as cause 3
(R855). -/
def writeAnswer (w : Who) (r : State × Resp) : State :=
  match w with
  | .host => answer r.1 .host r.2
  | .thread _ => r.1
  | .debugger => if r.2.err then refuseWrite .debugger r.1 else r.1

/-- The write `r` of the register at `off`, a register outside AO, by `w`. -/
def regCommand (w : Who) (off : Nat) (r : State × Resp) (s : State) : State :=
  if writeRefused s w off then refuseWrite w s else onCore s w (writeAnswer w r)

/-- The write `r` of the AO register at `off` by `w`: AO works while CORE is off (R830). -/
def aoCommand (w : Who) (off : Nat) (r : State × Resp) (s : State) : State :=
  if porLow s then s
  else if writeRefused s w off then refuseWrite w s else writeAnswer w r

/-- Offset of a flume's configuration register (R190). -/
def FlumeReg.off : FlumeReg → Nat
  | .ctl => 0
  | .trefl => 0x0C
  | .trefh => 0x10
  | .wopen => 0x14
  | .wclose => 0x18

/-- Offset of a timer register with a preload (R464). -/
def TimerReg.off : TimerReg → Nat
  | .per => 0x0C
  | .cmpa => 0x10
  | .cmpb => 0x14
  | .cmpc => 0x18

/-- Offset of what a store of R411 reaches in gate `k`. -/
def GateReg.off (k : Nat) : GateReg → Nat
  | .ctl => 0xE000 + 0x40 * k
  | .isel0 => 0xE004 + 0x40 * k
  | .isel1 => 0xE008 + 0x40 * k
  | .omap0 => 0xE00C + 0x40 * k
  | .omap1 => 0xE010 + 0x40 * k
  | .table w => 0x10000 + 0x2000 * k + 4 * w.toNat

/-! ## Power, reset, boot (18) -/

/-- RSTCTL_WARM: a write of RSTCTL (R819, R834). -/
def execRstctlWarm (w : Who) (v : U32) (s : State) : Host.Outcome State Fault Refusal :=
  .next (aoCommand w 0x1018 (writeRstctl v s, {}) s)

/-- BOOTCTL_GO: a write of BOOTCTL with GO = 1 (R827). -/
def execBootctlGo (w : Who) (v : U32) (s : State) : Host.Outcome State Fault Refusal :=
  .next (aoCommand w 0x1024 (writeBootctl (v ||| 1) s, {}) s)

/-- PWRCTL_WAKE: a write of PWRCTL with WAKE = 1 (R811). -/
def execPwrctlWake (w : Who) (v : U32) (s : State) : Host.Outcome State Fault Refusal :=
  .next (aoCommand w 0x1000 (writePwrctl (v ||| 1) s, {}) s)

/-- HOLDREL: a write of PWRCTL with HOLDREL = 1 (R816). -/
def execHoldrel (w : Who) (v : U32) (s : State) : Host.Outcome State Fault Refusal :=
  .next (aoCommand w 0x1000 (writePwrctl (v ||| 2) s, {}) s)

/-! ## Outlets (03) -/

def execPostlStage (w : Who) (n : Fin 96) (v : U32) (s : State) : Host.Outcome State Fault Refusal :=
  .next (regCommand w (0x8018 + 0x20 * n) (stagePostl (agentOf s w) n v s, {}) s)

def execPosthPost (w : Who) (n : Fin 96) (v : U32) (s : State) : Host.Outcome State Fault Refusal :=
  .next (regCommand w (0x801C + 0x20 * n) (writePosth (agentOf s w) n v s, {}) s)

def execFlush (w : Who) (n : Fin 96) (s : State) : Host.Outcome State Fault Refusal :=
  .next (regCommand w (0x8000 + 0x20 * n) (flushOut n s, {}) s)

def execOwnerWrite (w : Who) (n : Fin 96) (v : BitVec 2) (s : State) : Host.Outcome State Fault Refusal :=
  .next (regCommand w (0x8000 + 0x20 * n) (writeOwner n v s, {}) s)

def execStaticLevelWrite (w : Who) (n : Fin 96) (v : Bool) (s : State) : Host.Outcome State Fault Refusal :=
  .next (regCommand w (0x8000 + 0x20 * n) (writeLvl n v s, {}) s)

def execOutputEnableWrite (w : Who) (n : Fin 96) (v : Bool) (s : State) : Host.Outcome State Fault Refusal :=
  .next (regCommand w (0x8000 + 0x20 * n) (writeOen n v s, {}) s)

def execPairWrite (w : Who) (n : Fin 96) (v : Bool) (s : State) : Host.Outcome State Fault Refusal :=
  .next (regCommand w (0x8000 + 0x20 * n) (writePair n v s, {}) s)

/-! ## Flume units (04) -/

/-- FLUME_ARM: a write of CTL with ARM = 1 (R188). -/
def execFlumeArm (w : Who) (n : Fin 32) (v : U32) (s : State) : Host.Outcome State Fault Refusal :=
  .next (regCommand w (0x9000 + 0x40 * n) (writeFlCtl n (v ||| 1) s, {}) s)

/-- FLUME_DISARM: a write of CTL with ARM = 0 (R191). -/
def execFlumeDisarm (w : Who) (n : Fin 32) (v : U32) (s : State) : Host.Outcome State Fault Refusal :=
  .next (regCommand w (0x9000 + 0x40 * n) (writeFlCtl n (v &&& ~~~1) s, {}) s)

def execFlumeConfigWrite (w : Who) (n : Fin 32) (r : FlumeReg) (v : U32) (s : State) : Host.Outcome State Fault Refusal :=
  .next (regCommand w (0x9000 + 0x40 * n + FlumeReg.off r) (writeFlReg n r v s, {}) s)

def execPendingBankWrite (w : Who) (n : Fin 32) (v : U32) (s : State) : Host.Outcome State Fault Refusal :=
  .next (regCommand w (0x9038 + 0x40 * n) (writePbdata (agentOf s w) n v s, {}) s)

/-- BANK_SEAL: a write of PBCTL (R160, R209). -/
def execBankSeal (w : Who) (n : Fin 32) (v : U32) (s : State) : Host.Outcome State Fault Refusal :=
  .next (regCommand w (0x903C + 0x40 * n) (flWrite (agentOf s w) n 0x3C v s, {}) s)

/-! ## Sample ports (02) -/

def execSmpctlWrite (w : Who) (v : U32) (s : State) : Host.Outcome State Fault Refusal :=
  .next (regCommand w 0x1800 (smpctlWrite v s, {}) s)

/-! ## The Turnout (13) and SCOND (05) -/

def execComplete (w : Who) (t : Fin 8) (v : U32) (s : State) : Host.Outcome State Fault Refusal :=
  .next (regCommand w (0x3008 + 0x10 * t) (completeWrite t v s, {}) s)

def execSwev (w : Who) (v : U32) (s : State) : Host.Outcome State Fault Refusal :=
  .next (regCommand w 0x3180 (swevWrite v s, {}) s)

def execSourceConfigWrite (w : Who) (k : Fin 512) (v : U32) (s : State) : Host.Outcome State Fault Refusal :=
  .next (regCommand w (0x4000 + 8 * k) (sourceConfig k v s, {}) s)

def execScondset (w : Who) (v : U32) (s : State) : Host.Outcome State Fault Refusal :=
  .next (regCommand w 0x22808 (writeScond none (fd v 0 16) 0 s, {}) s)

def execScondclr (w : Who) (v : U32) (s : State) : Host.Outcome State Fault Refusal :=
  .next (regCommand w 0x2280C (writeScond none 0 (fd v 0 16) s, {}) s)

/-! ## Check gates, the shut, the watchdog (08) -/

/-- GATE_ENABLE: a store to CTL with EN = 1 (R406, R411). -/
def execGateEnable (w : Who) (k : Fin 8) (v : U32) (s : State) : Host.Outcome State Fault Refusal :=
  .next (regCommand w (0xE000 + 0x40 * k) (gateStore (agentOf s w) k .ctl (v ||| 1) s) s)

/-- GATE_RESTART: a store to CTL with RESTART = 1 (R406, R411). -/
def execGateRestart (w : Who) (k : Fin 8) (v : U32) (s : State) : Host.Outcome State Fault Refusal :=
  .next (regCommand w (0xE000 + 0x40 * k) (gateStore (agentOf s w) k .ctl (v ||| 8) s) s)

def execGateTableStore (w : Who) (k : Fin 8) (g : GateReg) (v : U32) (s : State) : Host.Outcome State Fault Refusal :=
  .next (regCommand w (GateReg.off k g) (gateStore (agentOf s w) k g v s) s)

def execShutreqSet (w : Who) (v : U32) (s : State) : Host.Outcome State Fault Refusal :=
  .next (regCommand w 0xE400 (writeShutreq (v ||| 1) s, {}) s)

def execShutreqClear (w : Who) (v : U32) (s : State) : Host.Outcome State Fault Refusal :=
  .next (regCommand w 0xE400 (writeShutreq (v &&& ~~~1) s, {}) s)

def execShutctlRearm (w : Who) (v : U32) (s : State) : Host.Outcome State Fault Refusal :=
  .next (regCommand w 0xE40C (shutWrite (agentOf s w) 0x0C v s) s)

def execWatchdogEnable (w : Who) (v : U32) (s : State) : Host.Outcome State Fault Refusal :=
  .next (regCommand w 0x26000 (writeWdog (agentOf s w) (v ||| 1) s, {}) s)

def execWatchdogLock (w : Who) (v : U32) (s : State) : Host.Outcome State Fault Refusal :=
  .next (regCommand w 0x26000 (writeWdog (agentOf s w) (v ||| 2) s, {}) s)

def execWatchdogService (w : Who) (v : U32) (s : State) : Host.Outcome State Fault Refusal :=
  .next (regCommand w 0x2600C (wdogService (agentOf s w) v s, {}) s)

/-! ## Timers (09) -/

def execTimerStart (w : Who) (n : Fin 32) (s : State) : Host.Outcome State Fault Refusal :=
  .next (regCommand w (0x6100 + 0x40 * n) (writeRun n true s, {}) s)

def execTimerStop (w : Who) (n : Fin 32) (s : State) : Host.Outcome State Fault Refusal :=
  .next (regCommand w (0x6100 + 0x40 * n) (writeRun n false s, {}) s)

def execCntWrite (w : Who) (n : Fin 32) (v : U32) (s : State) : Host.Outcome State Fault Refusal :=
  .next (regCommand w (0x6108 + 0x40 * n) (writeCnt n v s, {}) s)

def execLiveWrite (w : Who) (n : Fin 32) (r : TimerReg) (v : U32) (s : State) : Host.Outcome State Fault Refusal :=
  .next (regCommand w (0x6100 + 0x40 * n + TimerReg.off r) (writeTimerReg (agentOf s w) n r v s, {}) s)

def execAtenArm (w : Who) (n : Fin 32) (s : State) : Host.Outcome State Fault Refusal :=
  .next (regCommand w (0x6100 + 0x40 * n) (writeAten n true s, {}) s)

/-! ## The Rider (10) -/

def execTxdPush (w : Who) (n : Fin 32) (v : U32) (s : State) : Host.Outcome State Fault Refusal :=
  .next (regCommand w (0xA028 + 0x40 * n) (pushTx n v s, {}) s)

def execInjection (w : Who) (n : Fin 32) (v : U32) (s : State) : Host.Outcome State Fault Refusal :=
  .next (regCommand w (0xA030 + 0x40 * n) (writeInj n v s, {}) s)

def execProgramMemoryWrite (w : Who) (i : BitVec 11) (v : U32) (s : State) : Host.Outcome State Fault Refusal :=
  .next (regCommand w (0xC000 + 4 * i.toNat) (writeProg i.toNat v s, {}) s)

/-- CHANNEL_RUN: a write of CTL with RUN = 1 (R501). -/
def execChannelRun (w : Who) (n : Fin 32) (v : U32) (s : State) : Host.Outcome State Fault Refusal :=
  .next (regCommand w (0xA000 + 0x40 * n) (writeRchCtl n (v ||| 1) s, {}) s)

/-- CHANNEL_STOP: a write of CTL with RUN = 0 (R526). -/
def execChannelStop (w : Who) (n : Fin 32) (v : U32) (s : State) : Host.Outcome State Fault Refusal :=
  .next (regCommand w (0xA000 + 0x40 * n) (writeRchCtl n (v &&& ~~~1) s, {}) s)

/-- CHANNEL_RESET: a write of CTL with RST = 1 (R527). -/
def execChannelReset (w : Who) (n : Fin 32) (v : U32) (s : State) : Host.Outcome State Fault Refusal :=
  .next (regCommand w (0xA000 + 0x40 * n) (writeRchCtl n (v ||| 4) s, {}) s)

def execPinMapWrite (w : Who) (n : Fin 32) (hi : Bool) (v : U32) (s : State) : Host.Outcome State Fault Refusal :=
  .next (regCommand w (0xA010 + 0x40 * n + (if hi then 4 else 0)) (writeMap n hi v s, {}) s)

/-- SYNC_ARM: a write of RIDER with SYNC = 1 (R525). -/
def execSyncArm (w : Who) (v : U32) (s : State) : Host.Outcome State Fault Refusal :=
  .next (regCommand w 0xB000 (writeRider (v ||| 1) s, {}) s)

/-! ## Headgate rings (11) -/

def execDoorbell (w : Who) (r : Fin 4) (v : U32) (s : State) : Host.Outcome State Fault Refusal :=
  .next (regCommand w (0x2100 + 4 * r) (writeDoorbell r v s, {}) s)

def execRingEnable (w : Who) (v : U32) (s : State) : Host.Outcome State Fault Refusal :=
  .next (regCommand w 0x2004 (writeHgctl v s, {}) s)

def execHeadShadowEnable (w : Who) (v : U32) (s : State) : Host.Outcome State Fault Refusal :=
  .next (regCommand w 0x2004 (writeHgctl (v ||| 0x40) s, {}) s)

def execCqHeadWrite (w : Who) (eq : Bool) (v : U32) (s : State) : Host.Outcome State Fault Refusal :=
  .next (regCommand w (if eq then 0x20EC else 0x20CC) (writeRingHead (if eq then 5 else 4) v s, {}) s)

/-- RING_RESUME: a write of HGSTAT; a bit set in this fc stays (R12). -/
def execRingResume (w : Who) (v : U32) (s : State) : Host.Outcome State Fault Refusal :=
  .next (regCommand w 0x2000 (writeHgstat (v &&& ~~~(hwFresh s 0x2000)) s, {}) s)

/-! ## Culvert (12) -/

/-- CULVERT_START: a write of CTL with EN = 1 (R597). -/
def execCulvertStart (w : Who) (n : Fin 16) (v : U32) (s : State) : Host.Outcome State Fault Refusal :=
  .next (regCommand w (0x20000 + 0x40 * n) (writeCulCtl n (v ||| 1) s, {}) s)

def execCulvertPause (w : Who) (n : Fin 16) (v : U32) (s : State) : Host.Outcome State Fault Refusal :=
  .next (regCommand w (0x20000 + 0x40 * n) (writeCulCtl n (v ||| 2) s, {}) s)

def execCulvertResume (w : Who) (n : Fin 16) (v : U32) (s : State) : Host.Outcome State Fault Refusal :=
  .next (regCommand w (0x20000 + 0x40 * n) (writeCulCtl n (v &&& ~~~2) s, {}) s)

def execCulvertAbort (w : Who) (n : Fin 16) (v : U32) (s : State) : Host.Outcome State Fault Refusal :=
  .next (regCommand w (0x20000 + 0x40 * n) (writeCulCtl n (v ||| 4) s, {}) s)

/-! ## Lanes (14) -/

def execRetrain (w : Who) (l : Fin 4) (v : U32) (s : State) : Host.Outcome State Fault Refusal :=
  .next (regCommand w (0x23100 + 0x20 * l) (writeLaneCtl l (v ||| 1) s, {}) s)

def execLaneGroupWrite (w : Who) (v : U32) (s : State) : Host.Outcome State Fault Refusal :=
  .next (regCommand w 0x23000 (writeLnkcfg v s, {}) s)

/-! ## Receive ring (15) -/

/-- RECEIVE_RING_ENABLE: a write of NRXCFG with EN = 1 (R730). -/
def execReceiveRingEnable (w : Who) (v : U32) (s : State) : Host.Outcome State Fault Refusal :=
  .next (regCommand w 0x23050 (writeNrxcfg (v ||| 0x1000000) s, {}) s)

/-! ## The Ledger (16) -/

def execTemperatureWrite (w : Who) (c : Fin 16) (v : U32) (s : State) : Host.Outcome State Fault Refusal :=
  .next (regCommand w (0x24104 + 0x20 * c) (writeTj c v s, {}) s)

/-- LEDGER_LOAD: a write of LGCFG with EN = 1 (R756). -/
def execLedgerLoad (w : Who) (v : U32) (s : State) : Host.Outcome State Fault Refusal :=
  .next (regCommand w 0x24000 (writeLgcfg (v ||| 1) s, {}) s)

/-! ## NVM (17) -/

def execNvmSuspWrite (w : Who) (v : U32) (s : State) : Host.Outcome State Fault Refusal :=
  .next (regCommand w 0x25004 (nvmWrite 0x04 v s, {}) s)

/-- LGMDATA_ACCESS with a write of `v` (R762). -/
def lgmdataWrite (w : Who) (v : U32) (s : State) : State :=
  regCommand w 0x24020 (busWrite (agentOf s w) 0x24020 v 0xF s) s

/-! ## Any register, and the store windows -/

/-- REGISTER_WRITE: a write below 0x4_0000 (R11, R17, R37). -/
def execRegisterWrite (w : Who) (off : BitVec 20) (v : U32) (strb : BitVec 4) (s : State) :
    Host.Outcome State Fault Refusal :=
  let r := busWrite (agentOf s w) off.toNat v strb s
  .next (if 0x40000 ≤ off.toNat then s
    else if 0x1000 ≤ off.toNat && decide (off.toNat < 0x1028) then aoCommand w off.toNat r s
    else regCommand w off.toNat r s)

/-- STORE_WINDOW_WRITE (R896-R898). -/
def execStoreWindowWrite (w : Who) (off : BitVec 20) (v : U32) (strb : BitVec 4) (s : State) :
    Host.Outcome State Fault Refusal :=
  .next (if 0x40000 ≤ off.toNat && decide (off.toNat < 0x80000) then
    regCommand w off.toNat (busWrite (agentOf s w) off.toNat v strb s) s
  else s)

end Sys2Proof.Machine
end

