-- ==== Sys2Proof/Machine/Group.lean ====
section
/-! DEFINITION. The package-group aperture and its forwarded accesses (15, 21), and the reads of registers that have
side effects (R901). -/

namespace Sys2Proof.Machine

/-! ## Reads with side effects (R901, R902) -/

/-- Thread n waits for the data of a load at register offset `off`. -/
def awaitsReg (s : State) (n off : Nat) : Bool :=
  match awaited (s.thr n) with
  | some (_, _, a, _) => a.toNat = 0x10000000 + off
  | none => false

/-- The debug bus master has that access to register offset `off` under way. -/
def debugPending (s : State) (off : Nat) (wr : Bool) : Bool :=
  s.dbg.space = 0 && s.dbg.dbal.toNat = 0x10000000 + off && s.dbg.access.any (fun x => x.wr.isSome = wr)

/-- The register at `off` is read by `w`: host software is answered over APB, a thread gets the data it is parked for,
and the debug bus master's read is an inspect read. -/
def readRow (w : Who) (off : Nat) (s : State) : State :=
  match w with
  | .host =>
    let r := busRead .host false off s
    if claimTurn s none off then onCore s w (answer r.2 w r.1) else s
  | .thread n => if awaitsReg s n off then loadReturn n (.okay 0) s else s
  | .debugger => if debugPending s off false then dbComplete (.okay 0) s else s

/-! ## Forwarded accesses (R726, R727) -/

/-- An error response to a store of thread n (R366). -/
def storeFault (n : Nat) (p : Posted) (s : State) : State :=
  s.modThr n (fun t => { t with imp12 := if t.imp12.isSome then t.imp12 else some p })

/-- Where a sequencer address of a posted store lands. -/
def reachOf (s : State) (a : U32) : Reach :=
  match regionOf a with
  | .regs => routeOff s (a.toNat - 0x10000000)
  | .member => .member ((a.toNat - 0x10000000) / 0x100000) (a.toNat % 0x100000)
  | _ => .nowhere

/-- A register store waits behind those of its thread that wait already (R264). -/
def blockStore (ag : Agent) (pc : U16) (a v : U32) (s : State) : State :=
  s.modThr ((ag.thread).getD 0) (fun t =>
    { t with blocked := t.blocked ++ [{ agent := ag, posted := { pc := pc, addr := a }, v := v }] })

/-- The flume whose boundary a register store meets first (R154). -/
def boundaryFirst (off : Nat) (s : State) : State :=
  if 0x9000 ≤ off && off < 0x9800 then withBoundary ((off - 0x9000) / 0x40) s else s

/-- A store to a member's register goes out, in issue order, once fewer than four of the thread's accesses are
outstanding (R727). -/
def memberStore (ag : Agent) (pc : U16) (a : U32) (m off : Nat) (v : U32) (s : State) : State :=
  let n := (ag.thread).getD 0
  if memberPresent s m && decide (4 ≤ (s.link.fwd.filter (fun f => sameRequester f.agent ag)).length) then
    blockStore ag pc a v s
  else
    let r := forwardAccess ag m off (some v) 0xF false s
    if r.2 then storeFault n { pc := pc, addr := a } r.1
    else r.1.modThr n (fun t => { t with stores := t.stores ++ [{ pc := pc, addr := a }] })

/-- A posted store to the block's own register: condition inputs that it changes stay hidden from its thread (R232). -/
def ownStore (ag : Agent) (pc : U16) (a : U32) (off : Nat) (v : U32) (s : State) : State :=
  let n := (ag.thread).getD 0
  let s0 := boundaryFirst off s
  let r := busWrite ag off v 0xF s0
  let s := r.1.modCtxBoth n (noteStore s0 r.1)
  if r.2.err then storeFault n { pc := pc, addr := a } s else s

/-- A posted store to the register window comes about (R264, R366, R726, R900). -/
def postedStore (ag : Agent) (pc : U16) (a v : U32) (s : State) : State :=
  match reachOf s a with
  | .own off => ownStore ag pc a off v s
  | .member m off => memberStore ag pc a m off v s
  | .nowhere => s

/-- A posted register store is due: it comes about, in program order, unless an earlier one of its thread still waits (R264). -/
def registerStore (ag : Agent) (pc : U16) (a v : U32) (s : State) : State :=
  if (s.thr ((ag.thread).getD 0)).blocked.isEmpty then postedStore ag pc a v s else blockStore ag pc a v s

/-- The register stores of thread n that wait, tried again in their order (R264, R727). -/
def retryStores (s : State) (n : Nat) : State :=
  let l := (s.thr n).blocked
  l.foldl (fun s b => registerStore b.agent b.posted.pc b.posted.addr b.v s) (s.modThr n (fun t => { t with blocked := [] }))

/-- Host software's access to the aperture (R17, R37, R726, R727, R900). -/
def hostAperture (off : Nat) (wr : Option U32) (strb : BitVec 4) (s : State) : State :=
  match routeOff s off, wr with
  | .own off, some v =>
    let r := busWrite .host off v strb s
    answer r.1 .host r.2
  | .own off, none =>
    let r := busRead .host false off s
    if claimTurn s none off then answer r.2 .host r.1 else s
  | .member m off, wr =>
    let r := forwardAccess .host m off wr strb false s
    if r.2 then answer r.1 .host { err := true } else r.1
  | .nowhere, _ => answer s .host {}

/-- GROUP_APERTURE_ACCESS at an offset of 0x8_0000 or above. -/
def apertureAccess (w : Who) (off : Nat) (wr : Option U32) (strb : BitVec 4) (s : State) : State :=
  if off < 0x80000 then s
  else match w, wr with
  | .host, wr => onCore s w (hostAperture off wr strb s)
  | .thread n, none => if awaitsReg s n off then inCore s (loadReturn n (.okay 0) s) else s
  | .thread n, some v =>
    if writeRefused s w off then refuseWrite w s
    else onCore s w (registerStore (threadAgent s n) (s.thr n).ctx.pc (BitVec.ofNat 32 (0x10000000 + off)) v s)
  | .debugger, wr => if debugPending s off wr.isSome then dbComplete (.okay 0) s else s

/-- What a member answers to an access at its own offset: its error flag and data, and the access's effect (R37,
R726). -/
def memberAccess (off : Nat) (wr : Option U32) (strb : BitVec 4) (inspect : Bool) (s : State) : Resp × State :=
  if coreOff s then ({ err := true }, s)
  else match routeOff s off, wr with
    | .own off, some v =>
      let r := busWrite .host off v strb s
      (r.2, r.1)
    | .own off, none => busRead .host inspect off s
    | _, _ => ({}, s)

/-- REGREQ: a member performs the access and answers with a REGRSP (R687, R726). -/
def regRequest (p : Nat) (s : State) : State :=
  match takeFrame p (isMgmt 5) s with
  | none => s
  | some (f, s) =>
    let c := f.content
    let off := natLE (c.take 4) % 0x100000
    let flags := lget c 4
    let wr : Option U32 := if bit flags 0 then some (ofLE 32 ((c.drop 5).take 4)) else none
    let (r, s) := memberAccess off wr (fd flags 4 4) (bit flags 1) s
    let content : List Byte := [if r.err then 1 else 0] ++ bytesLE (if r.err then 0 else r.data) 4
    originate { ftype := 6, vl := 0, dst := f.src, msgid := f.msgid, sub := 6, content := content } none s

/-- The posted store of thread n that a member has answered. -/
def answeredStore (s : State) (n m off : Nat) : Option Posted :=
  let l := (s.thr n).stores.filter (fun p => regionOf p.addr != .host)
  match l.find? (fun p => reachOf s p.addr = .member m off) with
  | some p => some p
  | none => l.head?

/-- A member's answer to a thread's access (R265, R366). -/
def threadAnswered (n : Nat) (r : Forwarded) (err : Bool) (v : U32) (s : State) : State :=
  if r.wr.isSome then
    match answeredStore s n r.member.toNat r.addr.toNat with
    | none => s
    | some p =>
      let s := s.modThr n (fun t => { t with stores := t.stores.erase p })
      if err then storeFault n p s else s
  else match awaited (s.thr n) with
    | some (owing, .plain lsz, a, x, word, _) =>
      if err then loadFault n owing 12 a s
      else loadDone n (.plain lsz) owing word (loadVals lsz x (v.zeroExtend 128)) s
    | _ => s

/-- REGRSP: the answer goes to the requester of the access (R726, R727). -/
def regResponse (p : Nat) (s : State) : State :=
  match takeFrame p (isMgmt 6) s with
  | none => s
  | some (f, s) =>
    match s.link.fwd.find? (fun (r : Forwarded) => r.msgid = f.msgid) with
    | none => s
    | some r =>
      let s := { s with link := { s.link with fwd := s.link.fwd.erase r } }
      let err := bit (lget f.content 0) 0
      let v : U32 := ofLE 32 ((f.content.drop 1).take 4)
      match r.agent with
      | .host => answer s .host { data := v, err := err }
      | .debugger => if err then dbFail 1 s else dbDone (r.wr.getD v) s
      | .law n => threadAnswered n.toNat r err v s
      | .sup n => threadAnswered n.toNat r err v s
      | .mach n => threadAnswered n.toNat r err v s

/-! ## Commands -/

def execGroupApertureAccess (w : Who) (off : BitVec 20) (wr : Option U32) (strb : BitVec 4) (s : State) :
    Host.Outcome State Fault Refusal := .next (apertureAccess w off.toNat wr strb s)
def execRegreq (p : Fin 4) (s : State) : Host.Outcome State Fault Refusal := .next (regRequest p s)
def execRegrsp (p : Fin 4) (s : State) : Host.Outcome State Fault Refusal := .next (regResponse p s)

def execCapRead (w : Who) (n : Fin 32) (s : State) : Host.Outcome State Fault Refusal :=
  .next (readRow w (0x611C + 0x40 * n) s)
def execRxdRead (w : Who) (n : Fin 32) (s : State) : Host.Outcome State Fault Refusal :=
  .next (readRow w (0xA02C + 0x40 * n) s)
def execPbdataRead (w : Who) (n : Fin 32) (s : State) : Host.Outcome State Fault Refusal :=
  .next (readRow w (0x9038 + 0x40 * n) s)

/-- Offset of a mailbox access in its flume (R197, R205). -/
def Mailbox.off : Mailbox → Nat
  | .mb1 => 0x28
  | .mb2 => 0x2C
  | .mbt8 => 0x24

def execMailboxRead (w : Who) (n : Fin 32) (m : Mailbox) (s : State) : Host.Outcome State Fault Refusal :=
  .next (readRow w (0x9000 + 0x40 * n + Mailbox.off m) s)
def execClaim (w : Who) (t : Fin 8) (s : State) : Host.Outcome State Fault Refusal :=
  .next (readRow w (0x3004 + 0x10 * t) s)
def execTdpoll (n : Fin 16) (s : State) : Host.Outcome State Fault Refusal := .next (readRow (.thread n) 0x3144 s)
def execHgevlostRead (w : Who) (s : State) : Host.Outcome State Fault Refusal := .next (readRow w 0x200C s)
def execCerrRead (w : Who) (l : Fin 4) (s : State) : Host.Outcome State Fault Refusal :=
  .next (readRow w (0x2310C + 0x20 * l) s)
/-- CODEWORD_COUNTER_READ: CWCOR, CWUNC or OSERR. -/
def execCodewordCounterRead (w : Who) (p : Fin 4) (which : Fin 3) (s : State) : Host.Outcome State Fault Refusal :=
  .next (readRow w (0x2320C + 0x200 * p + 4 * which) s)
def execFrdropRead (w : Who) (p : Fin 4) (s : State) : Host.Outcome State Fault Refusal :=
  .next (readRow w (0x23318 + 0x200 * p) s)
def execNetdropRead (w : Who) (s : State) : Host.Outcome State Fault Refusal := .next (readRow w 0x23034 s)
def execNrxlostRead (w : Who) (s : State) : Host.Outcome State Fault Refusal := .next (readRow w 0x2305C s)
def execDmglRead (w : Who) (c : Fin 16) (s : State) : Host.Outcome State Fault Refusal :=
  .next (readRow w (0x24118 + 0x20 * c) s)
def execNvmcntRead (w : Who) (s : State) : Host.Outcome State Fault Refusal := .next (readRow w 0x25018 s)
/-- LGMDATA_ACCESS: a read, or a write of `v`. -/
def execLgmdataAccess (w : Who) (v : Option U32) (s : State) : Host.Outcome State Fault Refusal :=
  .next (match v with
    | none => readRow w 0x24020 s
    | some v => lgmdataWrite w v s)

end Sys2Proof.Machine
end

