-- ==== Sys2Proof/Machine/Clock.lean ====
section
/-! DEFINITION. GAUGE_ADVANCE: what comes about at the end of an fc and at the fc edge that begins the next one. -/

namespace Sys2Proof.Machine

/-! ## The end of an fc: event records, traps, routes (R582-R584, R623-R628, R720) -/

/-- DATA of an event of source `r.src` at the end of its fc (R583 and the chapters it names). -/
def eventData (s : State) (r : Raised) : U32 :=
  let k := r.src.toNat
  if k < 32 then r.data
  else if k < 96 then pk [(0, b1 (bit s.ports.trip (k - 32)))]
  else if k < 160 then (if k % 2 = 0 then tmrStat (s.timer ((k - 96) / 2)) else r.data)
  else if k < 208 then
    let o := 2 * (k - 160)
    (fd (outStat s (o + 1)) 0 16 : BitVec 16) ++ (fd (outStat s o) 0 16 : BitVec 16)
  else if k < 240 then flStat s (k - 208)
  else if k < 272 then rchStat (s.rch (k - 240))
  else if k < 280 then gateStat (s.getGate (k - 272))
  else if k < 312 then culStat (s.culCh ((k - 280) / 2))
  else if k < 328 then xinfo (s.thr (k - 312))
  else if k < 344 then hgstat s
  else if k < 376 then portStat s ((k - 344) / 8)
  else if k < 384 then linkRead s 0x4C
  else if k < 392 then nvmStat s
  else if k < 400 then 0
  else if k < 416 then lgchStat s (k - 400)
  else if k < 424 then (fd (bootstat s) 0 16 : BitVec 16) ++ (fd (pwrstat s) 0 16 : BitVec 16)
  else if k < 426 then wdStat s
  else if k < 429 then shutStat s
  else if k < 432 then biststat s
  else if k < 448 then dstat s
  else 0

/-- A raise that sends a TRAP (R720). -/
def trapSource (k : Nat) : Bool :=
  (decide (312 ≤ k) && decide (k < 328)) || k = 425 || k = 426
    || (decide (344 ≤ k) && decide (k < 376) && (k - 344) % 8 = 1)

/-- A TRAP with its event record (R582, R720). -/
def sendTrap (k : BitVec 9) (data : U32) (s : State) : State :=
  if s.link.trapen then
    let content := bytesLE (k.zeroExtend 16) 2 ++ [0, 0] ++ bytesLE s.clk.gauge 6 ++ [0, 0] ++ bytesLE data 4
    originate { ftype := 7, vl := 0, dst := 0, content := content } none s
  else s

/-- The events of the fc that ends are recorded and trapped in ascending source number (R582, R720). -/
def fcEvents (s : State) : State :=
  let rs := s.tur.raised.map (fun (r : Raised) => (r, eventData s r))
  let order := (List.range 512).filterMap (fun k => rs.find? (fun p => p.1.src.toNat = k))
  let s := order.foldl (fun s p =>
    let k := p.1.src.toNat
    let s := if trapSource k then sendTrap p.1.src p.2 s else s
    if p.1.res = .counted then memberEvent p.1.src p.2
      (if evEnabled s k then appendEvent p.1.src 0 s.clk.gauge p.2 s else s)
    else s) s
  let old (r : Raised) : Bool := rs.any (fun p => p.1.src = r.src) || r.src = 330
  { s with tur := { s.tur with raised := s.tur.raised.filter (fun r => !old r), w1cSet := [], rcSet := [] } }

/-- Routes are given and irq_o takes its levels; both can end DOZE (R623-R628, R811). -/
def fcRoutes (s : State) : State :=
  let was := s.ports.irqO
  let idle (s : State) (k : Nat) : Bool := (s.source k).route != some 8
  let t := routeAll s
  let disp := (List.range 512).any (fun k => idle s k && !idle t k)
  let irq := irqLevels t
  let t := { t with ports := { t.ports with irqO := irq } }
  let t := applyConfigs t
  let t := if disp then wakeRequest 3 t else t
  if irq &&& ~~~was != 0 then wakeRequest 4 t else t

/-! ## The Gauge (R85, R705) -/

/-- The Gauge advances; the ledger sees the multiples of 2^27 that it passes (R23, R744, R868). -/
def gaugeStep (s : State) : State :=
  let g0 := s.clk.gauge
  let g1 := g0 + s.clk.adv.zeroExtend 64
  let passed := (g1.toNat / 2 ^ 27 + 2 ^ 37 - g0.toNat / 2 ^ 27) % 2 ^ 37
  { s with
    clk := { s.clk with gauge := g1, fc := s.clk.fc + 1 }
    lg := if lgFrozen s then s.lg else { s.lg with ticks := s.lg.ticks + passed }
    ports := { s.ports with
      landed := 0
      smpClk := vmap s.ports.smpClk (fun k c => clkEdge (portsOn s && bit s.ports.smpEn k) (vget s.ports.smpPh k 0) g0 g1 c) } }

/-! ## Timers at the fc edge (R452, R456, R469, R470) -/

/-- The prescaler: every (PSC + 1)th fc edge is a count event. -/
def prescale (t : Timer) : Timer :=
  if t.run && t.src = 0 then
    if t.psc ≤ t.pre then { t with pre := 0, tick := true } else { t with pre := t.pre + 1 }
  else t

/-- A timer at an fc edge, with the Rider pins before and now. -/
def timerEdge (was now : U64) (t : Timer) : Timer :=
  let t := prescale { t with cntPrev := t.cnt }
  let pin (p : BitVec 6) (e : BitVec 2) : Bool := edgeSel e (bit was p.toNat) (bit now p.toNat)
  let t := if t.run && t.src = 2 && pin t.pin t.edge then { t with tick := true } else t
  if t.csrc = 1 && pin t.csel t.cedge then { t with capEv := true } else t

/-- The Rider pins take their levels behind the synchroniser, captures that waited for a read land, and the timers see the edge (R64,
R471, R868). -/
def pinsAndTimers (rdrI : U64) (s : State) : State :=
  let was := s.ports.rdrI
  let s := { s with ports := { s.ports with rdrIPrev := was, rdrI := rdrI } }
  let s := s.each 32 lateCapture
  if tmrFrozen s then { s with tmr := vmap s.tmr (fun _ t => { t with cntPrev := t.cnt }) }
  else { s with tmr := vmap s.tmr (fun _ t => timerEdge was rdrI t) }

/-- The Rider at an fc edge (R493, R499, R501, R868). -/
def riderEdge (slotWas : BitVec 5) (s : State) : State :=
  let s := { s with rider := { s.rider with slotPrev := some slotWas, turnDone := false } }
  if riderFrozen s then s else s.each 32 (fun s n => channelEdge n s)

/-! ## Outlets, the shut and threads at the fc edge -/

/-- At the end of an fc a written OWNER takes force: a queue that becomes the owner begins at the level that the outlet had in
that fc (R122, R903). The OWNER of a complement changes nothing on it (R119). -/
def ownersStep (s : State) : State :=
  s.each 96 (fun s n =>
    match (s.outlet n).ownerNext with
    | none => s
    | some v =>
      let s := if v = 2 && !isComplement s n then
          let s := shadowFromLevel n s
          if isPrimary s n then shadowFromLevel (n + 1) s else s
        else s
      s.modOut n (fun o => { o with owner := v, ownerNext := none }))

/-- The phases of a shut (R416, R423). -/
def shutStep (s : State) : State :=
  shutRelease (if s.shut.active && s.clk.fc = s.shut.sAt + 1 then shutFlush s else s)

/-- The results that land at the end of fc `fc` (R247). -/
def landEnd (fc : Nat) (s : State) : State :=
  { s with seq := { s.seq with thr := vmap s.seq.thr (fun _ t =>
      { t with ctx := landWhere (fun p => !p.safe && decide (p.due ≤ fc)) t.ctx }) } }

/-- Threads parked until an fc go on, and condition inputs that have changed again show as they are (R232, R235); rows stored to are seen
by all (R250). -/
def threadsStep (s : State) : State :=
  let now := s.clk.fc
  { s with
    seq := { s.seq with thr := vmap s.seq.thr (fun _ t =>
      let t := { t with ctx := freshInputs s t.ctx, before := t.before.map (freshInputs s) }
      match t.run with
      | .parked (.until f) => if f ≤ now then { t with run := .ready } else t
      | _ => t) }
    mem := { s.mem with recent := s.mem.recent.filter (fun (r : RecentRow) => decide (now < r.seen)) } }

/-! ## Due acts (R98, R337, R463) -/

def runAct (s : State) (a : Act) : State :=
  match a with
  | .flumeAffine n x1 => affine n.toNat x1 s
  | .flumeClamp n hi => flumeClamped n.toNat hi s
  | .flumeCommit n t edge start next per => flumeCommitStage n.toNat t edge start next per s
  | .flumeStart n op t => startAction n.toNat op t s
  | .flumePost n out op t made => flumePostTest n.toNat out.toNat op t made s
  | .coef ag fl idx v => writePend ag fl.toNat idx.toNat v s
  | .seal ag fl => sealBank ag fl.toNat s
  | .edgePost ag out op t => post ag out.toNat op t s
  | .outPost ag out op t made => (postR out.toNat (edgeOpOf op) ag.tag t made s).1
  | .raise src => raise src.toNat s
  | .regStore ag pc addr v => registerStore ag pc addr v s
  | .timerStop n => if tmrFrozen s then schedule s (s.clk.fc + 1) 10 a else timerStop n.toNat s
  | .timerRestart n => if tmrFrozen s then schedule s (s.clk.fc + 1) 11 a else timerRestart n.toNat s
  | .oeLower n => s.modOut n.toNat (fun o => if o.oen || o.padHold.isSome then o else { o with oe := false })
  | .dryShut n => shutAssertIf ((s.thr n.toNat).run = .dry) (12 + n.toNat) true s

/-- The order of due acts: by fc, then by their place in it. -/
def dueBefore (a b : Due) : Bool := decide (a.at_ < b.at_) || (a.at_ = b.at_ && decide (a.rank ≤ b.rank))

def insertDue (d : Due) : List Due → List Due
  | [] => [d]
  | e :: l => if dueBefore e d then e :: insertDue d l else d :: e :: l

/-- What is due by this fc comes about, behind the stores that wait (R264). -/
def runDue (s : State) : State :=
  let now := s.clk.fc
  let ready := (s.due.filter (fun (d : Due) => decide (d.at_ ≤ now))).foldl (fun l d => insertDue d l) []
  let s := { s with due := s.due.filter (fun (d : Due) => decide (now < d.at_)) }
  ready.foldl (fun s d => runAct s d.act) (s.each 16 retryStores)

/-! ## The whole edge -/

/-- The fc ends, and the next one begins with the Rider pins at `rdrI`. Posts are tested before any entry of that edge moves
to its delay line, so an entry that moves at the edge still fills its slot for the full test (DESIGN CHOICE, log
entry 34). -/
def gaugeAdvance (rdrI : U64) (s : State) : State :=
  let fc := s.clk.fc
  let slot := slotNow s
  let s := landEnd fc (fcRoutes (fcEvents (hgUpdate (s.each 32 landFifos))))
  let s := gatesEdge (disciplineFc (gaugeStep (gateEvaluate (ownersStep s))))
  let s := threadsStep (shutStep (riderEdge slot (pinsAndTimers rdrI (applyTaps s))))
  bistReply (bistOnward (runDue s))

/-! ## Commands -/

/-- GAUGE_ADVANCE: an fc edge. While the fast clock stands, nothing advances (R86, R477). -/
def execGaugeAdvance (rdrI : U64) (s : State) : Host.Outcome State Fault Refusal :=
  .next (if s.clk.running && s.bist.phase = .idle then gaugeAdvance rdrI s else s)

end Sys2Proof.Machine
end

