-- ==== Sys2Proof/Machine/Dispatch.lean ====
section
/-! DEFINITION. What each command does: one arm per constructor of `Instr`. -/

namespace Sys2Proof.Machine

def exec (i : Instr) (s : State) : Host.Outcome State Fault Refusal :=
  match i with
  | .powerOnReset => Sys2Proof.Machine.execPowerOnReset s
  | .warmReset => Sys2Proof.Machine.execWarmReset s
  | .debugReset => Sys2Proof.Machine.execDebugReset s
  | .rstNAssert => Sys2Proof.Machine.execRstNAssert s
  | .rstctlWarm w v => Sys2Proof.Machine.execRstctlWarm w v s
  | .pllLoss => Sys2Proof.Machine.execPllLoss s
  | .pllLossResetRequest => Sys2Proof.Machine.execPllLossResetRequest s
  | .bootStart => Sys2Proof.Machine.execBootStart s
  | .pllLock => Sys2Proof.Machine.execPllLock s
  | .bootctlGo w v => Sys2Proof.Machine.execBootctlGo w v s
  | .bootReady => Sys2Proof.Machine.execBootReady s
  | .powerState k => Sys2Proof.Machine.execPowerState k s
  | .wakePin level => Sys2Proof.Machine.execWakePin level s
  | .tallyWake => Sys2Proof.Machine.execTallyWake s
  | .pwrctlWake w v => Sys2Proof.Machine.execPwrctlWake w v s
  | .dozeWake => Sys2Proof.Machine.execDozeWake s
  | .sleepReturn => Sys2Proof.Machine.execSleepReturn s
  | .padHoldRelease n => Sys2Proof.Machine.execPadHoldRelease n s
  | .holdrel w v => Sys2Proof.Machine.execHoldrel w v s
  | .ratioWindow ratio => Sys2Proof.Machine.execRatioWindow ratio s
  | .sampleLanding port data tag => Sys2Proof.Machine.execSampleLanding port data tag s
  | .tripInputChange m level => Sys2Proof.Machine.execTripInputChange m level s
  | .shutInputChange level => Sys2Proof.Machine.execShutInputChange level s
  | .gateEvaluate => Sys2Proof.Machine.execGateEvaluate s
  | .gateEnable w k v => Sys2Proof.Machine.execGateEnable w k v s
  | .gateRestart w k v => Sys2Proof.Machine.execGateRestart w k v s
  | .gateTableStore w k r v => Sys2Proof.Machine.execGateTableStore w k r v s
  | .shutreqSet w v => Sys2Proof.Machine.execShutreqSet w v s
  | .shutreqClear w v => Sys2Proof.Machine.execShutreqClear w v s
  | .shutctlRearm w v => Sys2Proof.Machine.execShutctlRearm w v s
  | .watchdogEnable w v => Sys2Proof.Machine.execWatchdogEnable w v s
  | .watchdogLock w v => Sys2Proof.Machine.execWatchdogLock w v s
  | .watchdogService w v => Sys2Proof.Machine.execWatchdogService w v s
  | .watchdogWindowOpen => Sys2Proof.Machine.execWatchdogWindowOpen s
  | .watchdogExpiry => Sys2Proof.Machine.execWatchdogExpiry s
  | .watchdogResetRequest => Sys2Proof.Machine.execWatchdogResetRequest s
  | .operationMicroword n => Sys2Proof.Machine.execOperationMicroword n s
  | .loadDataReturn n resp => Sys2Proof.Machine.execLoadDataReturn n resp s
  | .postedStoreError n addr => Sys2Proof.Machine.execPostedStoreError n addr s
  | .br n => Sys2Proof.Machine.execBr n s
  | .call n => Sys2Proof.Machine.execCall n s
  | .ret n => Sys2Proof.Machine.execRet n s
  | .retExc n => Sys2Proof.Machine.execRetExc n s
  | .rep n => Sys2Proof.Machine.execRep n s
  | .repn n => Sys2Proof.Machine.execRepn n s
  | .li n => Sys2Proof.Machine.execLi n s
  | .lr n => Sys2Proof.Machine.execLr n s
  | .sc n => Sys2Proof.Machine.execSc n s
  | .reservationExpiry n => Sys2Proof.Machine.execReservationExpiry n s
  | .sys n => Sys2Proof.Machine.execSys n s
  | .mode n => Sys2Proof.Machine.execMode n s
  | .wait n => Sys2Proof.Machine.execWait n s
  | .waitEnd n => Sys2Proof.Machine.execWaitEnd n s
  | .waitTimeout n => Sys2Proof.Machine.execWaitTimeout n s
  | .fence n => Sys2Proof.Machine.execFence n s
  | .fenceComplete n => Sys2Proof.Machine.execFenceComplete n s
  | .exceptionEntry n => Sys2Proof.Machine.execExceptionEntry n s
  | .eventDispatch n => Sys2Proof.Machine.execEventDispatch n s
  | .threadStart k => Sys2Proof.Machine.execThreadStart k s
  | .threadStop k => Sys2Proof.Machine.execThreadStop k s
  | .threadReset k => Sys2Proof.Machine.execThreadReset k s
  | .doorbell w r v => Sys2Proof.Machine.execDoorbell w r v s
  | .ringEnable w v => Sys2Proof.Machine.execRingEnable w v s
  | .headShadowEnable w v => Sys2Proof.Machine.execHeadShadowEnable w v s
  | .headShadowWrite => Sys2Proof.Machine.execHeadShadowWrite s
  | .cqHeadWrite w eq v => Sys2Proof.Machine.execCqHeadWrite w eq v s
  | .ringResume w v => Sys2Proof.Machine.execRingResume w v s
  | .submissionFetch entry => Sys2Proof.Machine.execSubmissionFetch entry s
  | .entryReadError => Sys2Proof.Machine.execEntryReadError s
  | .completionWrite k => Sys2Proof.Machine.execCompletionWrite k s
  | .nop k => Sys2Proof.Machine.execNop k s
  | .query k => Sys2Proof.Machine.execQuery k s
  | .imageLoad k pass1 pass2 => Sys2Proof.Machine.execImageLoad k pass1 pass2 s
  | .imageActivate k => Sys2Proof.Machine.execImageActivate k s
  | .patchApply k patch => Sys2Proof.Machine.execPatchApply k patch s
  | .coefWrite k => Sys2Proof.Machine.execCoefWrite k s
  | .setpoint k => Sys2Proof.Machine.execSetpoint k s
  | .arm k => Sys2Proof.Machine.execArm k s
  | .disarm k => Sys2Proof.Machine.execDisarm k s
  | .rearm k => Sys2Proof.Machine.execRearm k s
  | .linkEnum k => Sys2Proof.Machine.execLinkEnum k s
  | .linkRole k => Sys2Proof.Machine.execLinkRole k s
  | .linkSend k payload => Sys2Proof.Machine.execLinkSend k payload s
  | .ledgerRead k => Sys2Proof.Machine.execLedgerRead k s
  | .ledgerBind k => Sys2Proof.Machine.execLedgerBind k s
  | .nvmErase k => Sys2Proof.Machine.execNvmErase k s
  | .nvmProgram k src => Sys2Proof.Machine.execNvmProgram k src s
  | .nvmRead k => Sys2Proof.Machine.execNvmRead k s
  | .bistRun k => Sys2Proof.Machine.execBistRun k s
  | .debugPolicy k => Sys2Proof.Machine.execDebugPolicy k s
  | .logicBistDone misr => Sys2Proof.Machine.execLogicBistDone misr s
  | .memoryBistDone misr mfail ms => Sys2Proof.Machine.execMemoryBistDone misr mfail ms s
  | .postBistReset => Sys2Proof.Machine.execPostBistReset s
  | .dbist v => Sys2Proof.Machine.execDbist v s
  | .postlStage w n v => Sys2Proof.Machine.execPostlStage w n v s
  | .posthPost w n v => Sys2Proof.Machine.execPosthPost w n v s
  | .entryMove n => Sys2Proof.Machine.execEntryMove n s
  | .edgeRetire n => Sys2Proof.Machine.execEdgeRetire n s
  | .holdRetire n => Sys2Proof.Machine.execHoldRetire n s
  | .flush w n => Sys2Proof.Machine.execFlush w n s
  | .ownerWrite w n v => Sys2Proof.Machine.execOwnerWrite w n v s
  | .staticLevelWrite w n v => Sys2Proof.Machine.execStaticLevelWrite w n v s
  | .outputEnableWrite w n v => Sys2Proof.Machine.execOutputEnableWrite w n v s
  | .outputEnableRaise n => Sys2Proof.Machine.execOutputEnableRaise n s
  | .pairWrite w n v => Sys2Proof.Machine.execPairWrite w n v s
  | .calibrationUpdate rawtap trkerr => Sys2Proof.Machine.execCalibrationUpdate rawtap trkerr s
  | .flumeArm w n v => Sys2Proof.Machine.execFlumeArm w n v s
  | .flumeDisarm w n v => Sys2Proof.Machine.execFlumeDisarm w n v s
  | .flumeConfigWrite w n r v => Sys2Proof.Machine.execFlumeConfigWrite w n r v s
  | .pendingBankWrite w n v => Sys2Proof.Machine.execPendingBankWrite w n v s
  | .pbdataRead w n => Sys2Proof.Machine.execPbdataRead w n s
  | .bankSeal w n v => Sys2Proof.Machine.execBankSeal w n v s
  | .carrierBoundary n => Sys2Proof.Machine.execCarrierBoundary n s
  | .windowCloseMiss n => Sys2Proof.Machine.execWindowCloseMiss n s
  | .crossingFallback n => Sys2Proof.Machine.execCrossingFallback n s
  | .mailboxRead w n m => Sys2Proof.Machine.execMailboxRead w n m s
  | .smpctlWrite w v => Sys2Proof.Machine.execSmpctlWrite w v s
  | .timerTick n => Sys2Proof.Machine.execTimerTick n s
  | .timerWrap n => Sys2Proof.Machine.execTimerWrap n s
  | .compareMatch n ch => Sys2Proof.Machine.execCompareMatch n ch s
  | .timerTrigger n => Sys2Proof.Machine.execTimerTrigger n s
  | .timerStart w n => Sys2Proof.Machine.execTimerStart w n s
  | .timerStop w n => Sys2Proof.Machine.execTimerStop w n s
  | .cntWrite w n v => Sys2Proof.Machine.execCntWrite w n v s
  | .preloadWrite t n r v => Sys2Proof.Machine.execPreloadWrite t n r v s
  | .liveWrite w n r v => Sys2Proof.Machine.execLiveWrite w n r v s
  | .capture n => Sys2Proof.Machine.execCapture n s
  | .capRead w n => Sys2Proof.Machine.execCapRead w n s
  | .atenArm w n => Sys2Proof.Machine.execAtenArm w n s
  | .gaugeTimedStart n => Sys2Proof.Machine.execGaugeTimedStart n s
  | .riderTurn n => Sys2Proof.Machine.execRiderTurn n s
  | .riderBr n => Sys2Proof.Machine.execRiderBr n s
  | .loop n => Sys2Proof.Machine.execLoop n s
  | .shift n => Sys2Proof.Machine.execShift n s
  | .waitpin n => Sys2Proof.Machine.execWaitpin n s
  | .waitt n => Sys2Proof.Machine.execWaitt n s
  | .setat n => Sys2Proof.Machine.execSetat n s
  | .ld n => Sys2Proof.Machine.execLd n s
  | .mov n => Sys2Proof.Machine.execMov n s
  | .sig n => Sys2Proof.Machine.execSig n s
  | .riderInstructionComplete n => Sys2Proof.Machine.execRiderInstructionComplete n s
  | .setatFire n => Sys2Proof.Machine.execSetatFire n s
  | .txdPush w n v => Sys2Proof.Machine.execTxdPush w n v s
  | .rxdRead w n => Sys2Proof.Machine.execRxdRead w n s
  | .injection w n v => Sys2Proof.Machine.execInjection w n v s
  | .programMemoryWrite w idx v => Sys2Proof.Machine.execProgramMemoryWrite w idx v s
  | .channelRun w n v => Sys2Proof.Machine.execChannelRun w n v s
  | .channelStop w n v => Sys2Proof.Machine.execChannelStop w n v s
  | .channelReset w n v => Sys2Proof.Machine.execChannelReset w n v s
  | .pinMapWrite w n hi v => Sys2Proof.Machine.execPinMapWrite w n hi v s
  | .syncArm w v => Sys2Proof.Machine.execSyncArm w v s
  | .synchronisedStart => Sys2Proof.Machine.execSynchronisedStart s
  | .culvertStart w n v => Sys2Proof.Machine.execCulvertStart w n v s
  | .descriptorLoad n resp => Sys2Proof.Machine.execDescriptorLoad n resp s
  | .culvertTrigger n => Sys2Proof.Machine.execCulvertTrigger n s
  | .burstGrant => Sys2Proof.Machine.execBurstGrant s
  | .burstComplete n resp writeError => Sys2Proof.Machine.execBurstComplete n resp writeError s
  | .descriptorComplete n => Sys2Proof.Machine.execDescriptorComplete n s
  | .culvertError n code => Sys2Proof.Machine.execCulvertError n code s
  | .culvertPause w n v => Sys2Proof.Machine.execCulvertPause w n v s
  | .pauseDrained n => Sys2Proof.Machine.execPauseDrained n s
  | .culvertResume w n v => Sys2Proof.Machine.execCulvertResume w n v s
  | .culvertAbort w n v => Sys2Proof.Machine.execCulvertAbort w n v s
  | .eventRecordWritten => Sys2Proof.Machine.execEventRecordWritten s
  | .claim w t => Sys2Proof.Machine.execClaim w t s
  | .complete w t v => Sys2Proof.Machine.execComplete w t v s
  | .tdpoll n => Sys2Proof.Machine.execTdpoll n s
  | .swev w v => Sys2Proof.Machine.execSwev w v s
  | .sourceConfigWrite w src v => Sys2Proof.Machine.execSourceConfigWrite w src v s
  | .scondset w v => Sys2Proof.Machine.execScondset w v s
  | .scondclr w v => Sys2Proof.Machine.execScondclr w v s
  | .laneDetectLock l inverted => Sys2Proof.Machine.execLaneDetectLock l inverted s
  | .trainingReady l far ffe => Sys2Proof.Machine.execTrainingReady l far ffe s
  | .portUp p aseq lidx skew => Sys2Proof.Machine.execPortUp p aseq lidx skew s
  | .trainingTimeout l => Sys2Proof.Machine.execTrainingTimeout l s
  | .lossOfLock p => Sys2Proof.Machine.execLossOfLock p s
  | .retrain w l v => Sys2Proof.Machine.execRetrain w l v s
  | .laneGroupWrite w v => Sys2Proof.Machine.execLaneGroupWrite w v s
  | .codewordReceive p bits => Sys2Proof.Machine.execCodewordReceive p bits s
  | .codewordSend p => Sys2Proof.Machine.execCodewordSend p s
  | .orderedSetReceive p sub c0 c1 c2 c3 => Sys2Proof.Machine.execOrderedSetReceive p sub c0 c1 c2 c3 s
  | .alignSend p => Sys2Proof.Machine.execAlignSend p s
  | .shutOrderReceive p origin seq hops => Sys2Proof.Machine.execShutOrderReceive p origin seq hops s
  | .trickleLock => Sys2Proof.Machine.execTrickleLock s
  | .timeExchange p sub => Sys2Proof.Machine.execTimeExchange p sub s
  | .timeMarkerReply p sub => Sys2Proof.Machine.execTimeMarkerReply p sub s
  | .timeFrameReceive p => Sys2Proof.Machine.execTimeFrameReceive p s
  | .advSend => Sys2Proof.Machine.execAdvSend s
  | .adv p => Sys2Proof.Machine.execAdv p s
  | .masterElection => Sys2Proof.Machine.execMasterElection s
  | .electionRestart => Sys2Proof.Machine.execElectionRestart s
  | .count p => Sys2Proof.Machine.execCount p s
  | .assign p => Sys2Proof.Machine.execAssign p s
  | .reroute p => Sys2Proof.Machine.execReroute p s
  | .wake p => Sys2Proof.Machine.execWake p s
  | .regreq p => Sys2Proof.Machine.execRegreq p s
  | .regrsp p => Sys2Proof.Machine.execRegrsp p s
  | .cresync p => Sys2Proof.Machine.execCresync p s
  | .cmdFrameReceive p => Sys2Proof.Machine.execCmdFrameReceive p s
  | .receiveRingWrite p => Sys2Proof.Machine.execReceiveRingWrite p s
  | .sampFrameReceive p => Sys2Proof.Machine.execSampFrameReceive p s
  | .receiveRingEnable w v => Sys2Proof.Machine.execReceiveRingEnable w v s
  | .temperatureWrite w c v => Sys2Proof.Machine.execTemperatureWrite w c v s
  | .temperatureProcess c => Sys2Proof.Machine.execTemperatureProcess c s
  | .ageingTick => Sys2Proof.Machine.execAgeingTick s
  | .persistenceStart => Sys2Proof.Machine.execPersistenceStart s
  | .persistenceCommit => Sys2Proof.Machine.execPersistenceCommit s
  | .ledgerLoad w v => Sys2Proof.Machine.execLedgerLoad w v s
  | .lgmdataAccess w v => Sys2Proof.Machine.execLgmdataAccess w v s
  | .dmglRead w c => Sys2Proof.Machine.execDmglRead w c s
  | .erasePulseEnd pass => Sys2Proof.Machine.execErasePulseEnd pass s
  | .programPulseEnd pass => Sys2Proof.Machine.execProgramPulseEnd pass s
  | .nvmSuspend => Sys2Proof.Machine.execNvmSuspend s
  | .nvmResume => Sys2Proof.Machine.execNvmResume s
  | .nvmSuspWrite w v => Sys2Proof.Machine.execNvmSuspWrite w v s
  | .nvmcntRead w => Sys2Proof.Machine.execNvmcntRead w s
  | .hgevlostRead w => Sys2Proof.Machine.execHgevlostRead w s
  | .cerrRead w l => Sys2Proof.Machine.execCerrRead w l s
  | .codewordCounterRead w p which => Sys2Proof.Machine.execCodewordCounterRead w p which s
  | .frdropRead w p => Sys2Proof.Machine.execFrdropRead w p s
  | .netdropRead w => Sys2Proof.Machine.execNetdropRead w s
  | .nrxlostRead w => Sys2Proof.Machine.execNrxlostRead w s
  | .registerWrite w off v strb => Sys2Proof.Machine.execRegisterWrite w off v strb s
  | .storeWindowWrite w off v strb => Sys2Proof.Machine.execStoreWindowWrite w off v strb s
  | .groupApertureAccess w off wr strb => Sys2Proof.Machine.execGroupApertureAccess w off wr strb s
  | .rd op addr => Sys2Proof.Machine.execRd op addr s
  | .wr op addr v crc => Sys2Proof.Machine.execWr op addr v crc s
  | .challenge v noise => Sys2Proof.Machine.execChallenge v noise s
  | .check => Sys2Proof.Machine.execCheck s
  | .lockoutExpiry => Sys2Proof.Machine.execLockoutExpiry s
  | .drop => Sys2Proof.Machine.execDrop s
  | .dbdataRead => Sys2Proof.Machine.execDbdataRead s
  | .dbdataWrite v => Sys2Proof.Machine.execDbdataWrite v s
  | .debugBusComplete resp => Sys2Proof.Machine.execDebugBusComplete resp s
  | .halt n => Sys2Proof.Machine.execHalt n s
  | .monitorEntry n => Sys2Proof.Machine.execMonitorEntry n s
  | .monitorRequest n => Sys2Proof.Machine.execMonitorRequest n s
  | .resume n => Sys2Proof.Machine.execResume n s
  | .stepEntry n => Sys2Proof.Machine.execStepEntry n s
  | .freezeBegin => Sys2Proof.Machine.execFreezeBegin s
  | .thaw => Sys2Proof.Machine.execThaw s
  | .dctlWake => Sys2Proof.Machine.execDctlWake s
  | .gaugeAdvance rdrI => Sys2Proof.Machine.execGaugeAdvance rdrI s
  | .watchdogCount => Sys2Proof.Machine.execWatchdogCount s
  | .tallyCount => Sys2Proof.Machine.execTallyCount s
  | .trickleLockLoss p => Sys2Proof.Machine.execTrickleLockLoss p s
  | .portReturnToIdle => Sys2Proof.Machine.execPortReturnToIdle s

end Sys2Proof.Machine
end

