-- ==== Sys2Proof/WellFormed.lean ====
section
/-! DEFINITION. Which commands are well formed: those whose operands the spec lets arise. `exec` is total on the others
too. -/

namespace Sys2Proof

/-- A block of at most `most` bytes, in units of `unit` bytes, or an error. -/
def HostRead.fits (most unit : Nat) : HostRead → Bool
  | .okay l => decide (l.length ≤ most) && l.length % unit = 0
  | .error => true

/-- The operands are within what the spec gives: a descriptor has 32 bytes (R594), a burst at most 256 (R603), images,
patches, payloads and NVM data have the lengths of R567, a register access names a word in its part of the window (R17,
R37, R900), a frame with OP = 2 is a WR and one with OP = 1 an RD (R840). -/
def Instr.wf (i : Instr) : Bool :=
  match i with
  | .powerOnReset | .warmReset | .debugReset | .rstNAssert | .rstctlWarm .. | .pllLoss | .pllLossResetRequest
  | .bootStart | .pllLock | .bootctlGo .. | .bootReady | .powerState .. | .wakePin .. | .tallyWake
  | .pwrctlWake .. | .dozeWake | .sleepReturn | .padHoldRelease .. | .holdrel .. | .ratioWindow .. => true
  | .sampleLanding .. | .tripInputChange .. | .shutInputChange .. | .gateEvaluate | .gateEnable ..
  | .gateRestart .. | .gateTableStore .. | .shutreqSet .. | .shutreqClear .. | .shutctlRearm ..
  | .watchdogEnable .. | .watchdogLock .. | .watchdogService .. | .watchdogWindowOpen | .watchdogExpiry
  | .watchdogResetRequest | .operationMicroword .. | .loadDataReturn .. | .postedStoreError .. | .br ..
  | .call .. | .ret .. | .retExc .. | .rep .. | .repn .. | .li .. | .lr .. | .sc .. | .reservationExpiry ..
  | .sys .. | .mode .. | .wait .. | .waitEnd .. | .waitTimeout .. | .fence .. | .fenceComplete ..
  | .exceptionEntry .. | .eventDispatch .. | .threadStart .. | .threadStop .. | .threadReset .. | .doorbell ..
  | .ringEnable .. | .headShadowEnable .. | .headShadowWrite | .cqHeadWrite .. | .ringResume ..
  | .submissionFetch .. | .entryReadError | .completionWrite .. | .nop .. | .query .. => true
  | .imageLoad _ p1 p2 => p1.fits 0x400000 4 && p2.fits 0x400000 4
  | .imageActivate .. => true
  | .patchApply _ patch => patch.fits 2052 4
  | .coefWrite .. | .setpoint .. | .arm .. | .disarm .. | .rearm .. | .linkEnum .. | .linkRole .. => true
  | .linkSend _ payload => payload.fits 1248 1
  | .ledgerRead .. | .ledgerBind .. | .nvmErase .. => true
  | .nvmProgram _ src => src.fits 0x1000000 32
  | .nvmRead .. | .bistRun .. | .debugPolicy .. | .logicBistDone .. | .memoryBistDone .. | .postBistReset
  | .dbist .. | .postlStage .. | .posthPost .. | .entryMove .. | .edgeRetire .. | .holdRetire .. | .flush ..
  | .ownerWrite .. | .staticLevelWrite .. | .outputEnableWrite .. | .outputEnableRaise .. | .pairWrite ..
  | .calibrationUpdate .. | .flumeArm .. | .flumeDisarm .. | .flumeConfigWrite .. | .pendingBankWrite ..
  | .pbdataRead .. | .bankSeal .. | .carrierBoundary .. | .windowCloseMiss .. | .crossingFallback ..
  | .mailboxRead .. | .smpctlWrite .. | .timerTick .. | .timerWrap .. | .compareMatch .. | .timerTrigger ..
  | .timerStart .. | .timerStop .. | .cntWrite .. | .preloadWrite .. | .liveWrite .. | .capture ..
  | .capRead .. | .atenArm .. | .gaugeTimedStart .. | .riderTurn .. | .riderBr .. | .loop .. | .shift ..
  | .waitpin .. | .waitt .. | .setat .. | .ld .. | .mov .. | .sig .. | .riderInstructionComplete ..
  | .setatFire .. | .txdPush .. | .rxdRead .. | .injection .. | .programMemoryWrite .. | .channelRun ..
  | .channelStop .. | .channelReset .. | .pinMapWrite .. | .syncArm .. | .synchronisedStart | .culvertStart .. => true
  | .descriptorLoad _ resp => resp.fits 32 32
  | .culvertTrigger .. | .burstGrant => true
  | .burstComplete _ resp _ => resp.fits 256 16
  | .descriptorComplete .. | .culvertError .. | .culvertPause .. | .pauseDrained .. | .culvertResume ..
  | .culvertAbort .. | .eventRecordWritten | .claim .. | .complete .. | .tdpoll .. | .swev ..
  | .sourceConfigWrite .. | .scondset .. | .scondclr .. | .laneDetectLock .. | .trainingReady .. | .portUp ..
  | .trainingTimeout .. | .lossOfLock .. | .retrain .. | .laneGroupWrite .. | .codewordReceive ..
  | .codewordSend .. | .orderedSetReceive .. | .alignSend .. | .shutOrderReceive .. | .trickleLock
  | .timeExchange .. | .timeMarkerReply .. | .timeFrameReceive .. | .advSend | .adv .. | .masterElection
  | .electionRestart | .count .. | .assign .. | .reroute .. | .wake .. | .regreq .. | .regrsp .. | .cresync ..
  | .cmdFrameReceive .. | .receiveRingWrite .. | .sampFrameReceive .. | .receiveRingEnable ..
  | .temperatureWrite .. | .temperatureProcess .. | .ageingTick | .persistenceStart | .persistenceCommit
  | .ledgerLoad .. | .lgmdataAccess .. | .dmglRead .. | .erasePulseEnd .. | .programPulseEnd .. | .nvmSuspend
  | .nvmResume | .nvmSuspWrite .. | .nvmcntRead .. | .hgevlostRead .. | .cerrRead .. | .codewordCounterRead ..
  | .frdropRead .. | .netdropRead .. | .nrxlostRead .. => true
  | .registerWrite _ off _ _ => decide (off.toNat < 0x40000) && off.toNat % 4 = 0
  | .storeWindowWrite _ off _ _ => decide (0x40000 ≤ off.toNat) && decide (off.toNat < 0x80000) && off.toNat % 4 = 0
  | .groupApertureAccess _ off _ _ => decide (0x80000 ≤ off.toNat) && off.toNat % 4 = 0
  | .rd op _ => op != 2
  | .wr op _ _ _ => op != 1
  | .challenge .. | .check | .lockoutExpiry | .drop | .dbdataRead | .dbdataWrite .. | .debugBusComplete ..
  | .halt .. | .monitorEntry .. | .monitorRequest .. | .resume .. | .stepEntry .. | .freezeBegin | .thaw
  | .dctlWake | .gaugeAdvance .. | .watchdogCount | .tallyCount | .trickleLockLoss .. | .portReturnToIdle => true

end Sys2Proof
end

