-- ==== Sys2Proof/Safety.lean ====
section
/-! DEFINITION. What claims call a safe state and a completed command. -/

namespace Sys2Proof.Machine

/-- The places of a table rise strictly from `lo` on. -/
def rising {β : Type} : Nat → List (Nat × β) → Bool
  | _, [] => true
  | lo, (a, _) :: t => decide (lo ≤ a) && rising (a + 1) t

/-- Every memory of the Sequencer, the Turnout tables, the Ledger and the host is in its canonical form. -/
def Stores.ok (m : Stores) : Prop :=
  Memory.wf 0 m.micro ∧ Memory.wf 0 m.nano ∧ Memory.wf 0 m.data ∧ Memory.wf 0 m.gate ∧ Memory.wf 0 m.ledger ∧
    Memory.wf 0 m.host

/-- Every memory of the block is in its canonical form: those of Stores, Rider program memory and the programmed units of
the NVM. -/
def State.ok (s : State) : Prop := s.mem.ok ∧ Memory.wf 0 s.rider.prog ∧ rising 0 s.nvm.units

/-- The parts of the state. -/
inductive Part where
  | pending | clk | ports | out | outcal | tur | gate | shut | wdog | fl | tmr | gp | rider | cul | hg | seq | mem | link
  | lg | nvm | pwr | dbg | bist | due | apb | free
deriving DecidableEq, Repr

/-- Part `p` holds the same in both states. -/
def Part.same (p : Part) (s t : State) : Prop :=
  match p with
  | .pending => t.pending = s.pending
  | .clk => t.clk = s.clk
  | .ports => t.ports = s.ports
  | .out => t.out = s.out
  | .outcal => t.outcal = s.outcal
  | .tur => t.tur = s.tur
  | .gate => t.gate = s.gate
  | .shut => t.shut = s.shut
  | .wdog => t.wdog = s.wdog
  | .fl => t.fl = s.fl
  | .tmr => t.tmr = s.tmr
  | .gp => t.gp = s.gp
  | .rider => t.rider = s.rider
  | .cul => t.cul = s.cul
  | .hg => t.hg = s.hg
  | .seq => t.seq = s.seq
  | .mem => t.mem = s.mem
  | .link => t.link = s.link
  | .lg => t.lg = s.lg
  | .nvm => t.nvm = s.nvm
  | .pwr => t.pwr = s.pwr
  | .dbg => t.dbg = s.dbg
  | .bist => t.bist = s.bist
  | .due => t.due = s.due
  | .apb => t.apb = s.apb
  | .free => t.free = s.free

/-- The frame of a command: `t` differs from `s` in the parts `ps` only. -/
structure Only (ps : List Part) (s t : State) : Prop where
  same : ∀ p, ps.contains p = false → p.same s t

def Part.within (a b : List Part) : Bool := a.all b.contains

/-- Command `c` completes in `s` with a next state that has the property `P`. -/
def Runs (c : Instr) (s : State) (P : State → Prop) : Prop := ∃ t, exec c s = .next t ∧ P t

/-- The state in which word `w` of thread `n` issues: the return before it applied and the comparators' events of it raised
(R379, R859). -/
def atIssue (s : State) (n : Nat) (w : U32) : State :=
  (wordStop (applyRet n s) n w).1.foldl (fun s i => raise (434 + i) s) (applyRet n s)

/-- Thread `n` issues word `w` in this fc: it is its turn, the word stands at its pc, nothing stops the word before it has
any effect (R368), and no THREAD_STOP waits for its end (R573). -/
structure Issues (s : State) (n : Nat) (w : U32) : Prop where
  turn : selected s = some n
  word : microWord (applyRet n s) ((applyRet n s).thr n).ctx.pc = w
  clear : (wordStop (applyRet n s) n w).2 = none
  goesOn : (s.thr n).stopReq = false

/-- `w` may write the CORE register at `off`, and CORE is on (R361, R830, R855). -/
abbrev MayWrite (w : Who) (off : Nat) (s : State) : Prop := coreOff s = false ∧ writeRefused s w off = false

/-- `w` may write the AO register at `off`: AO works while CORE is off (R361, R830, R855). -/
abbrev MayWriteAo (w : Who) (off : Nat) (s : State) : Prop := porLow s = false ∧ writeRefused s w off = false

/-- The register that a register-write command writes, with its writer. -/
def regWritten : Instr → Option (Who × Nat)
  | .rstctlWarm w _ => some (w, 0x1018)
  | .bootctlGo w _ => some (w, 0x1024)
  | .pwrctlWake w _ => some (w, 0x1000)
  | .holdrel w _ => some (w, 0x1000)
  | .postlStage w n _ => some (w, 0x8018 + 0x20 * n)
  | .posthPost w n _ => some (w, 0x801C + 0x20 * n)
  | .flush w n => some (w, 0x8000 + 0x20 * n)
  | .ownerWrite w n _ => some (w, 0x8000 + 0x20 * n)
  | .staticLevelWrite w n _ => some (w, 0x8000 + 0x20 * n)
  | .outputEnableWrite w n _ => some (w, 0x8000 + 0x20 * n)
  | .pairWrite w n _ => some (w, 0x8000 + 0x20 * n)
  | .flumeArm w n _ => some (w, 0x9000 + 0x40 * n)
  | .flumeDisarm w n _ => some (w, 0x9000 + 0x40 * n)
  | .flumeConfigWrite w n r _ => some (w, 0x9000 + 0x40 * n + FlumeReg.off r)
  | .pendingBankWrite w n _ => some (w, 0x9038 + 0x40 * n)
  | .bankSeal w n _ => some (w, 0x903C + 0x40 * n)
  | .smpctlWrite w _ => some (w, 0x1800)
  | .complete w t _ => some (w, 0x3008 + 0x10 * t)
  | .swev w _ => some (w, 0x3180)
  | .sourceConfigWrite w k _ => some (w, 0x4000 + 8 * k)
  | .scondset w _ => some (w, 0x22808)
  | .scondclr w _ => some (w, 0x2280C)
  | .gateEnable w k _ => some (w, 0xE000 + 0x40 * k)
  | .gateRestart w k _ => some (w, 0xE000 + 0x40 * k)
  | .gateTableStore w k g _ => some (w, GateReg.off k g)
  | .shutreqSet w _ => some (w, 0xE400)
  | .shutreqClear w _ => some (w, 0xE400)
  | .shutctlRearm w _ => some (w, 0xE40C)
  | .watchdogEnable w _ => some (w, 0x26000)
  | .watchdogLock w _ => some (w, 0x26000)
  | .watchdogService w _ => some (w, 0x2600C)
  | .timerStart w n => some (w, 0x6100 + 0x40 * n)
  | .timerStop w n => some (w, 0x6100 + 0x40 * n)
  | .cntWrite w n _ => some (w, 0x6108 + 0x40 * n)
  | .liveWrite w n r _ => some (w, 0x6100 + 0x40 * n + TimerReg.off r)
  | .atenArm w n => some (w, 0x6100 + 0x40 * n)
  | .txdPush w n _ => some (w, 0xA028 + 0x40 * n)
  | .injection w n _ => some (w, 0xA030 + 0x40 * n)
  | .programMemoryWrite w i _ => some (w, 0xC000 + 4 * i.toNat)
  | .channelRun w n _ => some (w, 0xA000 + 0x40 * n)
  | .channelStop w n _ => some (w, 0xA000 + 0x40 * n)
  | .channelReset w n _ => some (w, 0xA000 + 0x40 * n)
  | .pinMapWrite w n hi _ => some (w, 0xA010 + 0x40 * n + (if hi then 4 else 0))
  | .syncArm w _ => some (w, 0xB000)
  | .doorbell w r _ => some (w, 0x2100 + 4 * r)
  | .ringEnable w _ => some (w, 0x2004)
  | .headShadowEnable w _ => some (w, 0x2004)
  | .cqHeadWrite w eq _ => some (w, if eq then 0x20EC else 0x20CC)
  | .ringResume w _ => some (w, 0x2000)
  | .culvertStart w n _ => some (w, 0x20000 + 0x40 * n)
  | .culvertPause w n _ => some (w, 0x20000 + 0x40 * n)
  | .culvertResume w n _ => some (w, 0x20000 + 0x40 * n)
  | .culvertAbort w n _ => some (w, 0x20000 + 0x40 * n)
  | .retrain w l _ => some (w, 0x23100 + 0x20 * l)
  | .laneGroupWrite w _ => some (w, 0x23000)
  | .receiveRingEnable w _ => some (w, 0x23050)
  | .temperatureWrite w c _ => some (w, 0x24104 + 0x20 * c)
  | .ledgerLoad w _ => some (w, 0x24000)
  | .nvmSuspWrite w _ => some (w, 0x25004)
  | .registerWrite w off _ _ => if off.toNat < 0x40000 then some (w, off.toNat) else none
  | .storeWindowWrite w off _ _ => if 0x40000 ≤ off.toNat ∧ off.toNat < 0x80000 then some (w, off.toNat) else none
  | .lgmdataAccess w (some _) => some (w, 0x24020)
  | _ => none

/-- Flume `g` is what `f` becomes when others arm: unchanged, or with TCONF for a timer lost to a lower-numbered flume (R150). -/
def LosesTimer (f g : Flume) : Prop := g = f ∨ g = { f with stat := setBit f.stat 11 true }

/-- Turnout source `src` is raised in this fc. -/
def SrcRaised (src : Nat) (s : State) : Prop := ∃ r ∈ s.tur.raised, r.src = BitVec.ofNat 9 src

/-- Turnout source `src` is raised in this fc with the event data `data`. -/
def SrcRaisedWith (src : Nat) (data : U32) (s : State) : Prop :=
  ∃ r ∈ s.tur.raised, r.src = BitVec.ofNat 9 src ∧ r.data = data

/-- A command with opcode `op` stands in slot `k` and may begin: T15 serves the rings in RUN, no FENCE keeps it back, it is not
for another member, and the resource it needs is free (R552, R553, R558, R559, R563). -/
structure Begins (op : Nat) (k : Slot) (c : CmdSlot) (s : State) : Prop where
  held : slotAt s k = some c
  run : inRun s = true
  served : serving s = true
  opcode : (cmdOp c.entry).toNat = op
  fresh : c.stage = .fetched
  free : fenceFree s c = true
  own : goesOn c = false
  idle : resourceBusy s c = false

/-- The command in slot `k` has ended with that status, detail and result, and its completion is to be written. -/
def Ended (k : Slot) (c : CmdSlot) (status : Byte) (detail : U16) (result : U64) (t : State) : Prop :=
  slotAt t k = some { c with stage := .done status detail result }

/-- Thread `n` may stop now (R573): it waits, or it is ready at a boundary that R373 leaves open; it is outside the monitor and
does not wait for safe mode. -/
def MayStop (s : State) (n : Nat) : Prop :=
  (((s.thr n).run = .ready ∧ boundaryOpen (s.thr n).ctx = true ∧ (s.thr n).holdUntil ≤ s.clk.fc) ∨ ∃ w, (s.thr n).run = .waiting w) ∧
    (s.thr n).mon = false ∧ (s.thr n).escal = none

end Sys2Proof.Machine
end

