-- ==== Sys2Proof/Certificates/Slice0/Obligations.lean ====
section
/-! DEFINITION. The statements for the provers. -/

open Sys2Proof Sys2Proof.Machine

/-- Power-on, warm and debug reset take effect. A power-on reset holds por_n low, leaves the Gauge, the power registers, the outlets, the timers, the Turnout, the link and the ledger at their reset values and keeps the programmed NVM units and, unless a debug reset is held back, the debug level; a recognised warm reset moves its requests into RSTCAUSE, starts the boot at stage 1 with READY clear and keeps the Gauge (but from DEEP); a debug reset leaves of the DBG registers only POLMAX, LOCK and the challenge counter and withdraws every HALT request and its cause, and one that falls during BIST is held. -/
def Obligations.ResetsComplete : Prop :=
  (∀ s, Runs .powerOnReset s fun t =>
    t.clk = {} ∧ t.pwr = {} ∧ t.out = State.reset.out ∧ t.tmr = State.reset.tmr ∧ t.tur = {} ∧ t.link = {} ∧ t.lg = {} ∧
      t.nvm.units = s.nvm.units ∧ t.ports.porN = false ∧ (s.pwr.dbgHeld = false → t.dbg.level = s.dbg.level)) ∧
  (∀ s, s.pwr.rstReq ≠ 0 → s.bist.phase = .idle → Runs .warmReset s fun t =>
    t.pwr.rstcause = s.pwr.rstcause ||| s.pwr.rstReq ∧ t.pwr.rstReq = 0 ∧ t.pwr.stage = 1 ∧ t.hg.ready = false ∧
      (s.pwr.st ≠ .deep → t.clk = s.clk)) ∧
  (∀ s, s.bist.phase = .idle → Runs .debugReset s fun t =>
    t.dbg = { polmax := s.dbg.polmax, pollock := s.dbg.pollock, nonceCnt := s.dbg.nonceCnt } ∧ t.pwr.dbgHeld = false ∧
      ∀ n : Fin 16, (t.thr n).halt = false ∧ (t.thr n).cause = 0) ∧
  (∀ s, s.bist.phase ≠ .idle →
    exec .debugReset s = .next { s with pwr := { s.pwr with dbgHeld := true } })

/-- Every source of a warm reset sets its own request bit. With por_n high, rst_n held low sets request bit 1; a permitted write of RSTCTL stores LINKEN and with WARM = 1 and KEY 0x5AA5 sets bit 2, otherwise none; a PLL loss in RUN or DOZE clears the lock, sets PLLLOSS, raises source 417 and arms the request that then sets bit 5; the request that a watchdog expiry has set for an fc sets bit 3 when that fc has come. -/
def Obligations.ResetRequests : Prop :=
  (∀ s, porLow s = false → exec .rstNAssert s = .next { s with pwr := { s.pwr with rstReq := setBit s.pwr.rstReq 1 true } }) ∧
  (∀ w v s, MayWriteAo w 0x1018 s → Runs (.rstctlWarm w v) s fun t =>
    t.pwr = { s.pwr with
      linken := bit v 1
      rstReq := if bit v 0 = true ∧ fd v 16 16 = 0x5AA5 then setBit s.pwr.rstReq 2 true else s.pwr.rstReq }) ∧
  (∀ s, s.pwr.plllock = true → awake s = true → Runs .pllLoss s fun t =>
    t.pwr = { s.pwr with plllock := false, pllloss := true, pllDue := true } ∧ SrcRaised 417 t) ∧
  (∀ s, porLow s = false → s.pwr.pllDue = true → exec .pllLossResetRequest s =
    .next { s with pwr := { s.pwr with pllDue := false, rstReq := setBit s.pwr.rstReq 5 true } }) ∧
  (∀ s f, coreOff s = false → s.wdog.resetAt = some f → f ≤ s.clk.fc → exec .watchdogResetRequest s =
    .next { s with wdog := { s.wdog with resetAt := none }
                   pwr := { s.pwr with rstReq := setBit s.pwr.rstReq 3 true } })

/-- The boot advances through its stages. BOOT_START at stage 1 outside BIST goes to stage 2 with por_n high, the outlets at their reset values unless READY has been reached since power-on, and on a warm boot the link as it was; PLL_LOCK at stage 2 starts the fast clock and leaves the boot at stage 7, or at stage 3 with FWFAIL, PLLLOCK and source 418; BOOTCTL.GO with FWFAIL at stage 3 takes it to stage 7 with the clock as it was; BOOT_READY at stage 7 with OUTCAL.VALID and the fast clock running ends at stage 9 with READY, the outlets live, no state DEEP and no wake under way. -/
def Obligations.BootSteps : Prop :=
  (∀ s, s.pwr.stage = 1 → s.bist.phase = .idle → Runs .bootStart s fun t =>
    t.pwr.stage = 2 ∧ t.ports.porN = true ∧ t.pwr.rstSafe = (!s.ports.live) ∧ (s.pwr.warm = true → t.link = s.link)) ∧
  (∀ s, s.pwr.stage = 2 → Runs .pllLock s fun t =>
    t.clk.running = true ∧
      (t.pwr.stage = 7 ∨ t.pwr.stage = 3 ∧ t.pwr.fwfail = true ∧ t.pwr.plllock = true ∧ SrcRaised 418 t)) ∧
  (∀ w v s, MayWriteAo w 0x1024 s → s.pwr.fwfail = true → s.pwr.stage = 3 → Runs (.bootctlGo w v) s fun t =>
    t.pwr.stage = 7 ∧ t.clk = s.clk) ∧
  (∀ s, s.pwr.stage = 7 → s.outcal.valid = true → s.clk.running = true → Runs .bootReady s fun t =>
    t.pwr.stage = 9 ∧ t.hg.ready = true ∧ t.ports.live = true ∧ t.pwr.rstSafe = false ∧ t.pwr.st ≠ .deep ∧
      t.pwr.waking = false)

/-- Wake sources and the return to RUN. Outside BIST a high wake_i that WAKEEN enables records WAKESRC bit 0 and starts the wake from any state but RUN, and a low one is only stored; the tally at WAKETALLY, where enabled, does so with bit 2 from SLEEP and DEEP; a permitted PWRCTL.WAKE outside RUN does so with bit 6 whatever WAKEEN holds; a waking block returns from DOZE, or with the Gauge made up by the tally from SLEEP, to RUN and raises source 416. -/
def Obligations.WakesAndReturn : Prop :=
  (∀ s, s.bist.phase = .idle → porLow s = false → bit s.pwr.wakeen 0 = true → s.pwr.st ≠ .run →
    Runs (.wakePin true) s fun t => t.ports = { s.ports with wakeI := true } ∧
      t.pwr = { s.pwr with wakesrc := setBit s.pwr.wakesrc 0 true, waking := true }) ∧
  (∀ s, s.bist.phase = .idle → porLow s = false → exec (.wakePin false) s = .next { s with ports := { s.ports with wakeI := false } }) ∧
  (∀ s, s.bist.phase = .idle → s.pwr.wakeTally ≤ s.gp.tally → bit s.pwr.wakeen 2 = true →
    s.pwr.st = .sleep ∨ s.pwr.st = .deep → Runs .tallyWake s fun t =>
    t.pwr = { s.pwr with wakesrc := setBit s.pwr.wakesrc 2 true, waking := true }) ∧
  (∀ w v s, MayWriteAo w 0x1000 s → s.pwr.st ≠ .run → Runs (.pwrctlWake w v) s fun t =>
    t.pwr.wakesrc = setBit s.pwr.wakesrc 6 true ∧ t.pwr.waking = true ∧ t.pwr.woen = bit v 2) ∧
  (∀ s, s.pwr.st = .doze → s.pwr.waking = true → Runs .dozeWake s fun t =>
    t.pwr = { s.pwr with st := .run, waking := false } ∧ SrcRaised 416 t) ∧
  (∀ s, s.pwr.st = .sleep → s.pwr.waking = true → s.bist.phase = .idle → Runs .sleepReturn s fun t =>
    t.pwr.st = .run ∧ t.pwr.waking = false ∧ t.clk.running = true ∧ t.gp.mkup = makeup s.gp.tally s.gp.ratio ∧
      t.clk.gauge = s.clk.gauge + makeup s.gp.tally s.gp.ratio ∧ SrcRaised 416 t)

/-- Pad hold, the ratio window and the tally. An outlet lets go of its pad hold once HOLDREL is under way and what it drives equals what is held, the other outlets as they were; a permitted HOLDREL after READY starts this with the shadow level of every held outlet at SAFE; the end of a window in RUN or DOZE with the PLL locked writes the number of its fc into RATIO, sets RVALID and begins the next window; in SLEEP the tally counts sc edges while the Gauge stands still and saturates with TSAT. -/
def Obligations.PadsAndRatio : Prop :=
  (∀ (n : Fin 96) s held, s.pwr.holdrel = true → s.clk.running = true → (s.outlet n).padHold = some held →
    outLevel (s.modOut n fun o =>
      { o with
        padHold := none
        oe := if s.pwr.oeHold then o.oen && (o.oe || (o.oenLive && held == o.safe)) else o.oe }) n = held →
    Runs (.padHoldRelease n) s fun t => (t.outlet n).padHold = none ∧ ∀ m, m ≠ n.val → t.outlet m = s.outlet m) ∧
  (∀ w v s, MayWriteAo w 0x1000 s → s.hg.ready = true → (s.out.toList.any fun o => o.padHold.isSome) = true → Runs (.holdrel w v) s fun t =>
    t.pwr.holdrel = true ∧ ∀ n : Fin 96, (s.outlet n).padHold.isSome = true → (t.outlet n).shadow = (s.outlet n).safe) ∧
  (∀ r s, awake s = true → s.pwr.plllock = true → r = BitVec.ofNat 48 (s.clk.fc - s.gp.winStart) →
    exec (.ratioWindow r) s = .next { s with gp := { s.gp with ratio := r, rvalid := true, winStart := s.clk.fc } }) ∧
  (∀ s, s.clk.running = false → s.pwr.st = .sleep → exec .tallyCount s =
    .next { s with gp := if s.gp.tally = BitVec.allOnes 48 then { s.gp with tsat := true }
                         else { s.gp with tally := s.gp.tally + 1 } })

/-- Trip and shut inputs, SHUTREQ and REARM. A trip level change stores the level and raises source 32 + m with the level as its data; a rise of shut_i, or SHUTREQ.REQ going from 0 to 1, has a shut active, which it begins with its SHUTSRC bit as FIRST and source 426 unless one is active; REQ written 1 again changes nothing and is cleared only with KEY 0xA55A; a REARM at machine privilege of an active shut restarts the enabled RAR gates and then, when no level source is asserted, sets the fc of the release and clears each latched source that has not asserted in this fc, or otherwise sets RFAIL and raises source 428. -/
def Obligations.InputsAndShut : Prop :=
  (∀ (m : Fin 64) b s, coreOff s = false → bit s.ports.trip m ≠ b → Runs (.tripInputChange m b) s fun t =>
    t.ports.trip = setBit s.ports.trip m b ∧ SrcRaisedWith (32 + m) (pk [(0, b1 b)]) t) ∧
  (∀ b s, coreOff s = false → Runs (.shutInputChange b) s fun t =>
    t.ports.shutI = b ∧ (b = true → s.ports.shutI = false →
      t.shut.active = true ∧ (s.shut.active = false → t.shut.first = 0 ∧ SrcRaised 426 t))) ∧
  (∀ w v s, MayWrite w 0xE400 s → s.shut.req = false → Runs (.shutreqSet w v) s fun t =>
    t.shut.req = true ∧ t.shut.active = true ∧ (s.shut.active = false → t.shut.first = 1 ∧ SrcRaised 426 t)) ∧
  (∀ w v s, MayWrite w 0xE400 s → s.shut.req = true → exec (.shutreqSet w v) s = .next (answer s w {})) ∧
  (∀ w v s, MayWrite w 0xE400 s → Runs (.shutreqClear w v) s fun t =>
    t.shut = { s.shut with req := if fd v 16 16 = 0xA55A then false else s.shut.req }) ∧
  (∀ w v s g, MayWrite w 0xE40C s → atMachine s (agentOf s w) = true → bit v 0 = true → s.shut.active = true →
    g = vmap s.gate (fun _ g => if g.en && g.rar then { g with restart := true } else g) →
    Runs (.shutctlRearm w v) s fun t =>
      t.gate = g ∧
      (levelSources { s with gate := g } = 0 → t.shut = { s.shut with
        link := s.shut.link && s.shut.linkAt = s.clk.fc + 1, wdog := s.shut.wdog && s.shut.wdogAt = s.clk.fc + 1
        releaseAt := some (max (s.clk.fc + 1) (s.shut.sAt + 2)) }) ∧
      (levelSources { s with gate := g } ≠ 0 → t.shut = { s.shut with rfail := true } ∧ SrcRaised 428 t))

/-- Check gates evaluate, apply, start, restart and take stores. An evaluation in an fc of the running fast clock leaves in every enabled gate that is not restarted and has not evaluated in that fc its inputs and the table entry that state and inputs index, and every other gate as it is; the edge applies that entry's forces and EV and takes its NEXT, or INIT where the gate is sent there, and a restarted gate goes to INIT with EV and forces clear; a permitted store of the headworks with EN from 0 to 1 puts the gate in the written INIT to be evaluated from the next fc, one with RESTART on an enabled gate stores the fields and restarts it, the other gates as they were; a table store writes both entries of its word with their reserved bits 0 and no other entry while EN is 0, and writes nothing with WIGN while EN is 1; a store of host software gets an error response, one of the debugger is refused. -/
def Obligations.GatesComplete : Prop :=
  (∀ (k : Fin 8) s ins, coreOff s = false → s.clk.running = true →
    ins = (bitsFrom 8 fun i => gateInput s (vget (s.getGate k).isel i 0xFE).toNat : Byte) → Runs .gateEvaluate s fun t =>
    ((s.getGate k).en = true → (s.getGate k).restart = false → (s.getGate k).entry = none → t.getGate k = { s.getGate k with
      inputs := ins, entry := some (ins, gateEntry s k ((s.getGate k).state.toNat * 256 + ins.toNat)) }) ∧
    ((s.getGate k).en = false ∨ (s.getGate k).restart = true ∨ (s.getGate k).entry ≠ none → t.getGate k = s.getGate k)) ∧
  (∀ (g : Gate) ins e, g.en = true → g.restart = false → g.entry = some (ins, e) →
    ((gateApply g).1.state = if g.toInit then g.init else fd e 12 4) ∧ (gateApply g).1.fen = fd e 4 8 ∧
      (gateApply g).1.fsafe = bit e 3 ∧ (gateApply g).1.ev = bit e 2 ∧ (gateApply g).1.entry = none) ∧
  (∀ (g : Gate), g.en = true → g.restart = true → (gateApply g).1.state = g.init ∧ (gateApply g).1.ev = false ∧
    (gateApply g).1.fen = 0 ∧ (gateApply g).1.restart = false ∧ (gateApply g).2 = false) ∧
  (∀ w (k : Fin 8) v s, MayWrite w (0xE000 + 0x40 * k.val) s → (agentOf s w).isHeadworks = true → (s.getGate k).en = false →
    Runs (.gateEnable w k v) s fun t =>
      (t.getGate k).en = true ∧ (t.getGate k).state = fd v 4 4 ∧ (t.getGate k).restart = true ∧
        ∀ j, j ≠ k.val → t.getGate j = s.getGate j) ∧
  (∀ w (k : Fin 8) v s, MayWrite w (0xE000 + 0x40 * k.val) s → (agentOf s w).isHeadworks = true → (s.getGate k).en = true →
    bit v 0 = true → Runs (.gateRestart w k v) s fun t =>
      t.getGate k = { s.getGate k with
        en := true, shuten := bit v 1, rar := bit v 2, init := fd v 4 4, restart := true } ∧
        ∀ j, j ≠ k.val → t.getGate j = s.getGate j) ∧
  (∀ w (k : Fin 8) (x : BitVec 11) v s, MayWrite w (GateReg.off k (.table x)) s → (agentOf s w).isHeadworks = true →
    Memory.wf 0 s.mem.gate = true → Runs (.gateTableStore w k (.table x) v) s fun t =>
      ((s.getGate k).en = true → t.mem = s.mem ∧ (t.getGate k).wign = true) ∧
      ((s.getGate k).en = false →
        gateEntry t k (2 * x.toNat) = (fd v 0 16 : U16) &&& 0xFFFC ∧
          gateEntry t k (2 * x.toNat + 1) = (fd v 16 16 : U16) &&& 0xFFFC ∧
          ∀ a, a ≠ 4096 * k + 2 * x.toNat → a ≠ 4096 * k + 2 * x.toNat + 1 →
            sget 0 a t.mem.gate = sget 0 a s.mem.gate)) ∧
  (∀ (k : Fin 8) r v s, coreOff s = false →
    exec (.gateTableStore .host k r v) s = .next (answer s .host { err := true }) ∧
    exec (.gateTableStore .debugger k r v) s = .next (refuseWrite .debugger s))

/-- The watchdog starts, locks, is serviced, opens its window and expires. A permitted write of WDOG while it is not locked, by the debugger at machine level only, starts the watchdog with EN = 1 and its fields when WDPER, WDCLS and SVCTHR are valid, and locks it with LOCK = 1 unless it would start an invalid one; the serviced supervisor thread arms it with 0x5A and, with CNT at WDCLS or above, restarts CNT with 0xA5; 0xA5 below WDCLS expires it with cause 1, and any other value or order with cause 2, each with the shut active and source 425; CNT counts; at WDCLS the window opens with source 424; at WDPER the watchdog expires: EXP, CAUSE 0, its shut source, source 425 and, with WRST, the reset request 64 fc later. -/
def Obligations.WatchdogComplete : Prop :=
  (∀ w v s, MayWrite w 0x26000 s → (w = .debugger → s.dbg.level = 3) → s.wdog.lock = false → s.wdog.per ≠ 0 → s.wdog.cls < s.wdog.per → fd v 4 4 ≠ 15 →
    Runs (.watchdogEnable w v) s fun t =>
      t.wdog.en = true ∧ t.wdog.lock = bit v 1 ∧ t.wdog.wrst = bit v 2 ∧ t.wdog.dbgfrz = bit v 3 ∧
        t.wdog.svcthr = fd v 4 4) ∧
  (∀ w v s, MayWrite w 0x26000 s → (w = .debugger → s.dbg.level = 3) → s.wdog.lock = false →
    (s.wdog.en = true ∨ bit v 0 = false ∨ s.wdog.per ≠ 0 ∧ s.wdog.cls < s.wdog.per ∧ fd v 4 4 ≠ 15) →
    Runs (.watchdogLock w v) s fun t =>
    t.wdog.lock = true ∧ t.wdog.per = s.wdog.per ∧ t.wdog.cls = s.wdog.cls) ∧
  (∀ w v s, MayWrite w 0x2600C s → agentOf s w = .sup s.wdog.svcthr → s.wdog.en = true → s.wdog.stopped = false →
    Runs (.watchdogService w v) s fun t =>
      (fd v 0 8 = 0x5A → s.wdog.armed = false → t.wdog = { s.wdog with armed := true }) ∧
      (fd v 0 8 = 0xA5 → s.wdog.armed = true → s.wdog.cls ≤ s.wdog.cnt →
        t.wdog = { s.wdog with cnt := 0, armed := false, opened := s.wdog.opened && s.wdog.cls = 0 }) ∧
      (fd v 0 8 = 0xA5 → s.wdog.armed = true → s.wdog.cnt < s.wdog.cls →
        t.wdog.exp = true ∧ t.wdog.cause = 1 ∧ t.shut.active = true ∧ SrcRaised 425 t) ∧
      (¬(fd v 0 8 = 0x5A ∧ s.wdog.armed = false) → ¬(fd v 0 8 = 0xA5 ∧ s.wdog.armed = true) →
        t.wdog.exp = true ∧ t.wdog.cause = 2 ∧ t.shut.active = true ∧ SrcRaised 425 t)) ∧
  (∀ s, coreOff s = false → wdogCounts s = true → s.wdog.opened = false → s.wdog.cls ≤ s.wdog.cnt →
    Runs .watchdogWindowOpen s fun t => t.wdog = { s.wdog with opened := true } ∧ SrcRaised 424 t) ∧
  (∀ s, coreOff s = false → wdogCounts s = true → s.wdog.per ≤ s.wdog.cnt → Runs .watchdogExpiry s fun t =>
    t.wdog.exp = true ∧ t.wdog.cause = 0 ∧ t.wdog.stopped = true ∧ t.shut.wdog = true ∧ t.shut.active = true ∧
      SrcRaised 425 t ∧ (s.wdog.wrst = true → t.wdog.resetAt = some (s.clk.fc + 64))) ∧
  (∀ s, coreOff s = false → wdogCounts s = true → s.wdog.cnt < s.wdog.per → exec .watchdogCount s =
    .next { s with wdog := { s.wdog with cnt := s.wdog.cnt + 1 } })

/-- BR, CALL, RET and the exception return issue. A BR, CALL or RET that issues leaves its delay slot pending with the target that its condition gives; a taken CALL pushes its address plus two; a taken RET pops the filled return stack and continues at what it popped; an exception return leaves its status word pending for the word behind its slot. ISSUE counts the word and the next word is the slot. -/
def Obligations.TransferWords : Prop :=
  (∀ (n : Fin 16) s w c, Issues s n w → rowOf w = 0 → c = ((atIssue s n w).thr n).ctx → Runs (.br n) s fun t =>
    (t.thr n).ctx.pc = c.pc + 1 ∧ (t.thr n).ctx.ds = some {
      branch := c.pc, undo := .nothing
      target := if taken (atIssue s n w) c w then some (target (atIssue s n w) c w) else none } ∧
    (t.thr n).issue = ((atIssue s n w).thr n).issue + 1) ∧
  (∀ (n : Fin 16) s w c, Issues s n w → rowOf w = 1 → c = ((atIssue s n w).thr n).ctx → Runs (.call n) s fun t =>
    (t.thr n).ctx.pc = c.pc + 1 ∧ (t.thr n).issue = ((atIssue s n w).thr n).issue + 1 ∧
    (taken (atIssue s n w) c w = false → (t.thr n).ctx.ds = some { branch := c.pc, target := none, undo := .nothing } ∧
      (t.thr n).ctx.hw = c.hw) ∧
    (taken (atIssue s n w) c w = true →
      (t.thr n).ctx.ds = some { branch := c.pc, target := some (target (atIssue s n w) c w), undo := .pushed } ∧
      (t.thr n).ctx.hw = (if needsSpill c then c.hw.drop 8 else c.hw) ++ [c.pc + 2])) ∧
  (∀ (n : Fin 16) s w c, Issues s n w → rowOf w = 2 → c = ((atIssue s n w).thr n).ctx → Runs (.ret n) s fun t =>
    (t.thr n).ctx.pc = c.pc + 1 ∧ (t.thr n).issue = ((atIssue s n w).thr n).issue + 1 ∧
    (taken (atIssue s n w) c w = false → (t.thr n).ctx.ds = some { branch := c.pc, target := none, undo := .nothing } ∧
      (t.thr n).ctx.hw = c.hw) ∧
    (taken (atIssue s n w) c w = true → ∀ a, a = ((filled (atIssue s n w) c).hw.getLast?).getD 0 →
      (t.thr n).ctx.ds = some { branch := c.pc, target := some a, undo := .popped a } ∧
      (t.thr n).ctx.hw = (filled (atIssue s n w) c).hw.dropLast ∧ (t.thr n).ctx.rsp = (filled (atIssue s n w) c).rsp)) ∧
  (∀ (n : Fin 16) s w c, Issues s n w → rowOf w = 17 → c = ((atIssue s n w).thr n).ctx → Runs (.retExc n) s fun t =>
    (t.thr n).ctx.pc = c.pc + 1 ∧ (t.thr n).issue = ((atIssue s n w).thr n).issue + 1 ∧
    (taken (atIssue s n w) c w = false → (t.thr n).ctx.ds = some { branch := c.pc, target := none, undo := .nothing } ∧
      (t.thr n).ctx.hw = c.hw) ∧
    (taken (atIssue s n w) c w = true →
      (t.thr n).ctx.ret = some { status := (retStatus (atIssue s n w) n).1, slot := true } ∧
      (((atIssue s n w).thr n).mon = true → ((atIssue s n w).thr n).spill = false →
        (t.thr n).ctx.ds = some { branch := c.pc, target := some ((atIssue s n w).thr n).mpc, undo := .nothing }) ∧
      (((atIssue s n w).thr n).mon = false → ∀ a, a = ((filled (retStatus (atIssue s n w) n).2 c).hw.getLast?).getD 0 →
        (t.thr n).ctx.ds = some { branch := c.pc, target := some a, undo := .popped a } ∧
        (t.thr n).ctx.hw = (filled (retStatus (atIssue s n w) n).2 c).hw.dropLast)))

/-- REP, REPN and LI issue. A repeat prefix goes on to the next word with the count of the status returned to, of CREG or of its own field, interruptible for REP and not for REPN; an LI issued while no result is owed in safe mode leaves in DST the sign-extended, the zero-extended or the upper-half immediate by LM. -/
def Obligations.RepeatAndImmediateWords : Prop :=
  (∀ (n : Fin 16) s w c, Issues s n w → rowOf w = 3 → c = ((atIssue s n w).thr n).ctx → Runs (.rep n) s fun t =>
    (t.thr n).ctx.pc = c.pc + 1 ∧ (t.thr n).ctx.rep = some {
      repn := false, addr := c.pc, left := repCount (atIssue s n w) c w, first := true } ∧
    (t.thr n).issue = ((atIssue s n w).thr n).issue + 1) ∧
  (∀ (n : Fin 16) s w c, Issues s n w → rowOf w = 4 → c = ((atIssue s n w).thr n).ctx → Runs (.repn n) s fun t =>
    (t.thr n).ctx.pc = c.pc + 1 ∧ (t.thr n).ctx.rep = some {
      repn := true, addr := c.pc, left := repCount (atIssue s n w) c w, first := true } ∧
    (t.thr n).issue = ((atIssue s n w).thr n).issue + 1) ∧
  (∀ (n : Fin 16) s w c old, Issues s n w → rowOf w = 5 → c = ((atIssue s n w).thr n).ctx → old = readG (atIssue s n w).free 58 c (wDst w) → (∀ p ∈ c.pw, p.safe = false) → Runs (.li n) s fun t =>
    (fd w 20 2 = (0 : BitVec 2) → vget (t.thr n).ctx.g (wDst w).toNat 0 = (fd w 0 20 : BitVec 20).signExtend 32) ∧
    (fd w 20 2 = (1 : BitVec 2) → vget (t.thr n).ctx.g (wDst w).toNat 0 = (fd w 0 20 : BitVec 20).zeroExtend 32) ∧
    (fd w 20 2 = (2 : BitVec 2) →
      vget (t.thr n).ctx.g (wDst w).toNat 0 = (fd w 0 16 : BitVec 16) ++ (fd old 0 16 : BitVec 16)) ∧
    (t.thr n).issue = ((atIssue s n w).thr n).issue + 1)

/-- LR and SC issue. An LR in data memory reserves the 16-byte granule of its address in the fc of issue and owes DST the word seen there, elsewhere it parks the thread with no reservation; an SC whose granule is not held stores nothing and owes DST and SCF a 1, one whose granule is held in data memory stores SREG at the address and owes DST and SCF a 0, one held in host memory parks the thread on its exclusive write; every SC ends the reservation. -/
def Obligations.ReservedAndConditionalWords : Prop :=
  (∀ (n : Fin 16) s w u c a, Issues s n w → rowOf w = 6 → u = atIssue s n w → c = (u.thr n).ctx → a = aregOf u c w → Runs (.lr n) s fun t =>
    (regionOf a = .data → (t.thr n).ctx.resv = some {
        host := false, granule := BitVec.ofNat 64 (a.toNat / 16), fc := u.clk.fc } ∧
      ∃ p ∈ (t.thr n).ctx.pw, p.what = .g (wDst w) (ofLE 32 (loadData a.toNat 4 { u with free := u.free + 4096 }).1)) ∧
    (regionOf a ≠ .data → (t.thr n).ctx.resv = none ∧
      (t.thr n).run = .parked (.load .lr a (wDst w) (u.thr n).words u.clk.fc) ∧ (t.thr n).before = some c) ∧
    (t.thr n).ctx.pc = (nextPc c).pc ∧ (t.thr n).issue = (u.thr n).issue + 1) ∧
  (∀ (n : Fin 16) s w u c a, Issues s n w → rowOf w = 7 → u = atIssue s n w → c = (u.thr n).ctx → a = aregOf u c w → (u.thr n).safe = false →
    Runs (.sc n) s fun t =>
    (t.thr n).ctx.resv = none ∧ (t.thr n).ctx.pc = (nextPc c).pc ∧ (t.thr n).issue = (u.thr n).issue + 1 ∧
    (holdsGranule u c a = false → t.mem = u.mem ∧
      (∃ p ∈ (t.thr n).ctx.pw, p.what = .g (wDst w) 1) ∧ ∃ p ∈ (t.thr n).ctx.pw, p.what = .scf true) ∧
    (holdsGranule u c a = true → regionOf a = .data →
      t.mem.data = (if partBad u a.toNat 4 then u.mem.data else memWrite u.mem.data a.toNat (bytesLE (sregOf u c w) 4)) ∧
      (∃ p ∈ (t.thr n).ctx.pw, p.what = .g (wDst w) 0) ∧ ∃ p ∈ (t.thr n).ctx.pw, p.what = .scf false) ∧
    (holdsGranule u c a = true → regionOf a ≠ .data →
      t.mem = u.mem ∧ (t.thr n).run = .parked (.load (.sc (sregOf u c w)) a (wDst w) (u.thr n).words u.clk.fc)))

/-- MODE, WAIT, FENCE and SYS issue. A MODE leaves its new privilege and mask in the shadow for the two words behind it; a WAIT leaves the ready set with its condition and its deadline of TMO times 16 fc and stays at its address; a FENCE parks the thread on the accesses of its kind; an entry of SYS through a valid descriptor leaves the vector 32 + N, the address of the SYS, DEPTH + 1 and the descriptor's pc and privilege, and where the entry parks the thread on a spill, that park one fc later. -/
def Obligations.ModeWaitFenceSysWords : Prop :=
  (∀ (n : Fin 16) s w u c, Issues s n w → rowOf w = 9 → u = atIssue s n w → c = (u.thr n).ctx → Runs (.mode n) s fun t =>
    (t.thr n).ctx.msh = some { modeShadow w 3 with left := 2 } ∧
    (t.thr n).ctx.priv = c.priv ∧ (t.thr n).ctx.mask = c.mask ∧ (t.thr n).ctx.pc = (nextPc c).pc ∧ (t.thr n).issue = (u.thr n).issue + 1) ∧
  (∀ (n : Fin 16) s w u c, Issues s n w → rowOf w = 10 → u = atIssue s n w → c = (u.thr n).ctx → Runs (.wait n) s fun t =>
    (t.thr n).run = .waiting {
      cond := wCond w, inv := bit w 18, evt := bit w 17
      deadline := if (fd w 0 16 : BitVec 16).toNat = 0 then none else some (u.clk.fc + 16 * (fd w 0 16 : BitVec 16).toNat) } ∧
    (t.thr n).ctx.pc = c.pc ∧ (t.thr n).issue = (u.thr n).issue + 1) ∧
  (∀ (n : Fin 16) s w u c, Issues s n w → rowOf w = 11 → u = atIssue s n w → c = (u.thr n).ctx → Runs (.fence n) s fun t =>
    (t.thr n).run = .parked (.fence (fd w 0 2)) ∧ (t.thr n).ctx.pc = (nextPc c).pc ∧ (t.thr n).issue = (u.thr n).issue + 1) ∧
  (∀ (n : Fin 16) s w u c v e v2, Issues s n w → rowOf w = 8 → u = atIssue s n w → c = (u.thr n).ctx → v = finishWord n false nextPc id u → (v.thr n).mon = false → (v.thr n).spill = false →
    e = { vec := 32 + (fd w 0 5 : BitVec 5).zeroExtend 6, ret := (resumePoint (v.thr n).ctx).1
          status := (resumePoint (v.thr n).ctx).2, xpc := c.pc, xaddr := 0 } →
    tableEntry n true e v = some v2 → Runs (.sys n) s fun t =>
    (t.thr n).xvec = 32 + (fd w 0 5 : BitVec 5).zeroExtend 6 ∧ (t.thr n).xpc = c.pc ∧ (t.thr n).xaddr = 0 ∧
    (t.thr n).depth = (u.thr n).depth + 1 ∧ (t.thr n).ctx.pc = fd (descriptor v e.vec) 0 16 ∧
    (t.thr n).ctx.priv = fd (descriptor v e.vec) 16 2 ∧ t.mem = v2.mem ∧
    (t.thr n).run = (match (v2.thr n).run with | .parked (.until f) => .parked (.until (f + 1)) | r => r))

/-- An operation microword issues and its units work. An operation word whose predicate is false leaves memory and flags alone and goes on; one that acts and is no block move loads NZCV from the ALU that FLAGS names and from nothing else, writes the result of each ALU to its destination in the fc of issue, and stores exactly the bytes of its posted store into data memory; its place is that of a repeat, a slot or a long word. -/
def Obligations.OperationWord : Prop :=
  (∀ (n : Fin 16) s w u o a0 a1, Issues s n w → isOp w = true → u = atIssue s n w → o = opOf (applyRet n s) n w →
    (u.thr n).safe = false →
    a0 = aluOp (fd o.nw 8 5) (o.src 0 (fd o.nw 13 3)) (o.src 1 (fd o.nw 16 3)) (bit o.c.nzcv 1) →
    a1 = aluOp (fd o.nw 21 5) (o.src 2 (fd o.nw 26 3)) (o.src 3 (fd o.nw 29 3)) (bit o.c.nzcv 1) →
    Runs (.operationMicroword n) s fun t =>
      (t.thr n).issue = (u.thr n).issue + 1 ∧
      (t.thr n).ctx.pc = (wordPlace (o.acts (applyRet n s)) o o.c).pc ∧
      (o.acts (applyRet n s) = false → t.mem = u.mem ∧ (t.thr n).ctx.nzcv = o.c.nzcv) ∧
      (o.acts (applyRet n s) = true → o.long ≠ 2 →
        (o.flags = 1 → (t.thr n).ctx.nzcv = nzcvOf a0) ∧ (o.flags = 2 → (t.thr n).ctx.nzcv = nzcvOf a1) ∧
        (o.flags ≠ 1 → o.flags ≠ 2 → (t.thr n).ctx.nzcv = o.c.nzcv) ∧
        (o.lsop = 2 → regionOf o.addr = .data → partBad u o.addr.toNat o.storeBytes.length = false →
          t.mem.data = memWrite u.mem.data o.addr.toNat o.storeBytes) ∧
        (o.lsop ≠ 2 ∨ regionOf o.addr ≠ .data → t.mem.data = u.mem.data) ∧
        ((∀ p ∈ o.c.pw, p.safe = false) → o.lsop = 0 → ∀ r, o.destReg (fd o.nw 32 2) = some r →
          vget (t.thr n).ctx.g r.toNat 0 = a1.r) ∧
        ((∀ p ∈ o.c.pw, p.safe = false) → o.lsop = 0 → ∀ r, o.destReg (fd o.nw 19 2) = some r →
          o.destReg (fd o.nw 32 2) = none → vget (t.thr n).ctx.g r.toNat 0 = a0.r)))

/-- Load data, store errors, reservations, fences and waits. Data of a host load with one destination returns into it and the thread goes on from the next fc; an EXOKAY answer to an LR also makes the reservation of the granule that its access had, and to an SC stores its data there and answers 0; an error response to a posted store leaves the imprecise vector 12 pending for it unless one is; a reservation ends 256 fc after its LR; a FENCE whose accesses have completed ends; a WAIT ends with its condition or wake, the thread going on from the next fc, or at its deadline with WTO set. -/
def Obligations.LoadsFencesWaitsEnd : Prop :=
  (∀ (n : Fin 16) s a lsz x word at_ v r z, coreOff s = false → (s.thr n).owing = none → (s.thr n).safe = false →
    (s.thr n).run = .parked (.load (.plain lsz) a x word at_) → regionOf a = .host → loadVals lsz x v = [(r, z)] →
    Runs (.loadDataReturn n (.okay v)) s fun t =>
      (t.thr n).run = .ready ∧ (t.thr n).holdUntil = s.clk.fc + 1 ∧ vget (t.thr n).ctx.g r.toNat 0 = z ∧
        (t.thr n).ctx.pc = (s.thr n).ctx.pc ∧ t.mem = s.mem) ∧
  (∀ (n : Fin 16) s a x word at_ v, coreOff s = false → (s.thr n).owing = none → (s.thr n).safe = false →
    (s.thr n).run = .parked (.load .lr a x word at_) → regionOf a = .host →
    Runs (.loadDataReturn n (.exokay v)) s fun t =>
      (t.thr n).run = .ready ∧ vget (t.thr n).ctx.g x.toNat 0 = v.truncate 32 ∧
        (t.thr n).ctx.resv = some { host := true, granule := BitVec.ofNat 64 ((s.thr n).haddr.toNat / 16), fc := at_ } ∧
        t.mem = s.mem) ∧
  (∀ (n : Fin 16) s a x word at_ v d, coreOff s = false → (s.thr n).owing = none → (s.thr n).safe = false →
    (s.thr n).run = .parked (.load (.sc d) a x word at_) → regionOf a = .host →
    Runs (.loadDataReturn n (.exokay v)) s fun t =>
      (t.thr n).run = .ready ∧ vget (t.thr n).ctx.g x.toNat 0 = 0 ∧ (t.thr n).ctx.scf = false ∧
        t.mem = (hostWrite s (s.thr n).haddr (bytesLE d 4)).mem) ∧
  (∀ (n : Fin 16) a s p, coreOff s = false →
    (s.thr n).stores.find? (fun p => p.addr = a && regionOf p.addr = .host) = some p →
    Runs (.postedStoreError n a) s fun t => t.thr n = { s.thr n with
      stores := (s.thr n).stores.erase p
      imp12 := if (s.thr n).imp12.isSome then (s.thr n).imp12 else some p }) ∧
  (∀ (n : Fin 16) s r, coreOff s = false → (s.thr n).ctx.resv = some r → r.fc + 256 ≤ s.clk.fc →
    Runs (.reservationExpiry n) s fun t => t.thr n = { s.thr n with ctx := { (s.thr n).ctx with resv := none } }) ∧
  (∀ (n : Fin 16) s kind, coreOff s = false → (s.thr n).run = .parked (.fence kind) → fenceDone s n kind = true →
    Runs (.fenceComplete n) s fun t => (t.thr n).run = .ready ∧ 
      (t.thr n).ctx = { (s.thr n).ctx with stale := if kind = 1 then (s.thr n).ctx.stale else [] } ∧
      (kind ≠ 2 → (t.thr n).stores = hostStoresDone (s.thr n))) ∧
  (∀ (n : Fin 16) s w, coreOff s = false → (s.thr n).run = .waiting w → issuing s = true → waitSeen s n w = true →
    Runs (.waitEnd n) s fun t => (t.thr n).run = .ready ∧ (t.thr n).ctx.pc = (s.thr n).ctx.pc + 1 ∧
      (t.thr n).ctx.wto = false ∧ (t.thr n).holdUntil = s.clk.fc + 1) ∧
  (∀ (n : Fin 16) s w d, coreOff s = false → (s.thr n).run = .waiting w → issuing s = true → w.deadline = some d →
    d ≤ s.clk.fc → Runs (.waitTimeout n) s fun t => (t.thr n).run = .ready ∧ (t.thr n).ctx.pc = (s.thr n).ctx.pc + 1 ∧
      (t.thr n).ctx.wto = true)

/-- Exception entries and event dispatch. An imprecise cause at an open boundary, the precise fault of the next word, and an offered source whose entry level exceeds the mask enter through a valid descriptor: the vector, the cause address and the pc and privilege of the descriptor, DEPTH + 1, in the memory that the entry leaves; the source of the event is in service on the thread at the new depth. -/
def Obligations.EntriesBetweenWords : Prop :=
  (∀ (n : Fin 16) s u v2 vec p e, coreOff s = false → (s.thr n).escal = none → impreciseDue s (s.thr n) = some (vec, p) →
    entryOpen s n = true → u = (applyRet n s).modThr n (fun t => { t with
      imp5 := if vec = 5 then none else t.imp5
      imp11 := if vec = 11 then t.imp11.filter (fun p => decide ((applyRet n s).clk.fc < p.1)) else t.imp11
      imp12 := if vec = 12 then none else t.imp12 }) →
    e = { vec := vec, ret := (resumePoint ((applyRet n s).thr n).ctx).1
          status := (resumePoint ((applyRet n s).thr n).ctx).2, xpc := p.pc, xaddr := p.addr } →
    (u.thr n).mon = false → (u.thr n).spill = false → tableEntry n true e u = some v2 →
    Runs (.exceptionEntry n) s fun t =>
      (t.thr n).xvec = vec ∧ (t.thr n).xpc = p.pc ∧ (t.thr n).xaddr = p.addr ∧ (t.thr n).depth = (u.thr n).depth + 1 ∧
        (t.thr n).ctx.pc = fd (descriptor u vec) 0 16 ∧ (t.thr n).ctx.priv = fd (descriptor u vec) 16 2 ∧ t.mem = v2.mem) ∧
  (∀ (n : Fin 16) s u v2 vec a w e, coreOff s = false → (s.thr n).escal = none → impreciseDue s (s.thr n) = none →
    selected s = some n.val → w = microWord (applyRet n s) ((applyRet n s).thr n).ctx.pc →
    (wordStop (applyRet n s) n w).2 = some (.fault vec a) → u = (atIssue s n w).modCtx n undoSlot →
    e = { vec := vec, ret := (faultPoint ((atIssue s n w).thr n).ctx).1
          status := (faultPoint ((atIssue s n w).thr n).ctx).2, xpc := ((atIssue s n w).thr n).ctx.pc, xaddr := a } →
    (u.thr n).mon = false → (u.thr n).spill = false → tableEntry n true e u = some v2 →
    Runs (.exceptionEntry n) s fun t =>
      (t.thr n).xvec = vec ∧ (t.thr n).xpc = ((atIssue s n w).thr n).ctx.pc ∧ (t.thr n).xaddr = a ∧
        (t.thr n).depth = (u.thr n).depth + 1 ∧ (t.thr n).ctx.pc = fd (descriptor u vec) 0 16 ∧
        (t.thr n).ctx.priv = fd (descriptor u vec) 16 2 ∧ t.mem = v2.mem) ∧
  (∀ (n : Fin 16) s u v2 (k : Fin 512) vec e, coreOff s = false → eventDue s n = some (k.val, vec) → entryOpen s n = true →
    impreciseDue s (s.thr n) = none → debugDue (s.thr n) = false → (s.thr n).stopReq = false → wordFaults s n = false →
    u = applyRet n s →
    e = { vec := vec, ret := (resumePoint (u.thr n).ctx).1, status := (resumePoint (u.thr n).ctx).2
          xpc := (u.thr n).xpc, xaddr := 0 } →
    (u.thr n).mon = false → (u.thr n).spill = false → tableEntry n false e u = some v2 →
    Runs (.eventDispatch n) s fun t =>
      (t.thr n).xvec = vec ∧ (t.thr n).xaddr = 0 ∧ (t.thr n).depth = (u.thr n).depth + 1 ∧
        (t.thr n).ctx.pc = fd (descriptor u vec) 0 16 ∧ (t.thr n).ctx.priv = fd (descriptor u vec) 16 2 ∧
        (t.source k).service = some (.thread (BitVec.ofNat 4 n) ((u.thr n).depth + 1)) ∧ t.mem = v2.mem)

/-- Posts, moves, retirements and flushes of an outlet queue. POSTL stages the low word of the writer; POSTH posts the action of both words, tested one fc later, and claims the outlet of no pair for the queue with OWNCHG when a lower owner has it; a post while a shut gates the outlet or the queues are frozen is discarded, one to a complement sets CONF; a queue entry whose move is due goes into the delay line with its trim, or, with less than the sub-ticks of two fc before it, at the Gauge plus 128 with LATE; the earliest edge of the fc sets the shadow level and leaves the line; a HOLD leaves without any level; a flush empties queue, rises and line of the outlet and takes the pending delayed rises of its pair's other outlet. -/
def Obligations.PostsAndEdges : Prop :=
  (∀ w (n : Fin 96) v s, MayWrite w (0x8018 + 0x20 * n.val) s → Runs (.postlStage w n v) s fun t =>
    t.outlet n = { s.outlet n with postl := vset (s.outlet n).postl (agentOf s w).postl v } ∧
    ∀ m, m ≠ n.val → t.outlet m = s.outlet m) ∧
  (∀ w (n : Fin 96) v s, MayWrite w (0x801C + 0x20 * n.val) s → (s.dbg.frozen && s.dbg.frzEdge) = false →
    (s.shut.active && (s.outlet n).shutg) = false → isComplement s n = false → Runs (.posthPost w n v) s fun t =>
    { at_ := s.clk.fc + 1, rank := agentRank (agentOf s w)
      act := .outPost (agentOf s w) (BitVec.ofNat 7 n) (fd v 8 2)
        ((fd v 0 8 : Byte) ++ vget (s.outlet n).postl (agentOf s w).postl 0) s.clk.fc } ∈ t.due ∧
    ((s.outlet n).owner = 2 → t.out = s.out) ∧
    ((s.outlet n).owner ≠ 2 → isPrimary s n = false → (t.outlet n).owner = 2 ∧ (t.outlet n).shadow = outLevel s n ∧
      bit (t.outlet n).stat 4 = true)) ∧
  (∀ w (n : Fin 96) v s, MayWrite w (0x801C + 0x20 * n.val) s →
    ((s.dbg.frozen && s.dbg.frzEdge) = true ∨ (s.shut.active && (s.outlet n).shutg) = true →
      exec (.posthPost w n v) s = .next (answer s w {})) ∧
    ((s.dbg.frozen && s.dbg.frzEdge) = false → (s.shut.active && (s.outlet n).shutg) = false → isComplement s n = true →
      exec (.posthPost w n v) s = .next (answer (outFlag n 3 s) w {}))) ∧
  (∀ (n : Fin 96) s q rest m tt a, coreOff s = false → a = nextAdvs s → firstMove (s.outlet n).queue = some (q, rest) →
    m = edgeOutlet s n q.op → tt = q.t + sx40 (s.outlet m).outtrim → moveDue s tt = true → Runs (.entryMove n) s fun t =>
      (t.outlet n).queue = rest ∧ (t.outlet n).shadow = (s.outlet n).shadow ∧
      (a.1 + a.2.1 ≤ lead40 tt s.clk.gauge → lead40 tt s.clk.gauge < 2 ^ 39 → (t.outlet m).line = (s.outlet m).line ++
        [{ t := tt, op := if isPrimary s n then .clear else q.op, rise := none }]) ∧
      (¬(a.1 + a.2.1 ≤ lead40 tt s.clk.gauge ∧ lead40 tt s.clk.gauge < 2 ^ 39) → (t.outlet m).line = (s.outlet m).line ++
        [{ t := now40 s + 128, op := if isPrimary s n then .clear else q.op, rise := none }] ∧
        (t.outlet n).stat = setBit (s.outlet n).stat 0 true)) ∧
  (∀ (n : Fin 96) s e, coreOff s = false → leastBy (fun (e : LineEdge) => rank40 e.t s.clk.gauge)
      ((s.outlet n).line.filter fun e => reached40 e.t s.clk.gauge s.clk.adv.toNat) = some e →
    Runs (.edgeRetire n) s fun t => t.outlet n = { s.outlet n with
      shadow := (match e.op with | .set => true | .clear => false | .toggle => !(s.outlet n).shadow | .hold => (s.outlet n).shadow)
      line := (s.outlet n).line.erase e, retAt := (t.outlet n).retAt, retOld := (t.outlet n).retOld } ∧ ∀ m, m ≠ n.val → t.outlet m = s.outlet m) ∧
  (∀ (n : Fin 96) s q, coreOff s = false → (s.outlet n).queue.find? (fun q => q.op = .hold &&
      reached40 (q.t + sx40 (s.outlet n).outtrim) s.clk.gauge s.clk.adv.toNat) = some q →
    Runs (.holdRetire n) s fun t => t.outlet n = { s.outlet n with queue := (s.outlet n).queue.erase q } ∧
      ∀ m, m ≠ n.val → t.outlet m = s.outlet m) ∧
  (∀ w (n : Fin 96) s, MayWrite w (0x8000 + 0x20 * n.val) s → Runs (.flush w n) s fun t =>
    t.outlet n = { s.outlet n with queue := [], rises := [], line := [], flushAt := s.clk.fc + 1 } ∧
    (isPrimary s n = true → t.outlet (n + 1) = dropRises (s.outlet (n + 1))) ∧
    (isComplement s n = true → t.outlet (n - 1) = dropRises (s.outlet (n - 1))) ∧
    ∀ m, m ≠ n.val → (m ≠ n.val + 1 ∨ isPrimary s n = false) → (m + 1 ≠ n.val ∨ isComplement s n = false) →
      t.outlet m = s.outlet m)

/-- Owner, level, enable, pair and calibration of an outlet. A permitted write of OWNER other than 3 on an outlet not claimed in the fc is the owner of the next fc; a changed LVL drives from the next fc and sets CONF where another owner has the outlet, with the pair's source at its rise; OEN is stored with the fc of its rise, an enable of no outlet before READY, and its clearing lowers out_oe_o at the next edge; a write that names no change, OWNER = 3, PAIR on an odd outlet, or OWNER in the fc of a claim changes nothing; out_oe_o rises when the level at the edge equals SAFE; PAIR changes only while both outlets are idle and otherwise sets PAIRIGN; a calibration with the PLL locked is held with VALID and goes to every outlet whose delay line is empty. -/
def Obligations.OutletRegisters : Prop :=
  (∀ w (n : Fin 96) v s, MayWrite w (0x8000 + 0x20 * n.val) s → v ≠ 3 → (s.outlet (lead s n)).claimAt ≠ s.clk.fc + 1 →
    Runs (.ownerWrite w n v) s fun t =>
      t.outlet n = { s.outlet n with ownerNext := if v = (s.outlet n).owner then none else some v } ∧
        ∀ m, m ≠ n.val → t.outlet m = s.outlet m) ∧
  (∀ w (n : Fin 96) v s, MayWrite w (0x8000 + 0x20 * n.val) s → v ≠ (s.outlet n).lvl → Runs (.staticLevelWrite w n v) s fun t =>
    (ownerOf s n = 0 → t.outlet n = { s.outlet n with
      lvl := v, lvlOld := lvlNow s (s.outlet n), lvlAt := s.clk.fc + 1 }) ∧
    (ownerOf s n ≠ 0 → t.outlet n = { s.outlet n with
      lvl := v, lvlOld := lvlNow s (s.outlet n), lvlAt := s.clk.fc + 1, stat := setBit (s.outlet n).stat 3 true } ∧
      (bit (s.outlet n).stat 3 = false → SrcRaised (160 + n / 2) t))) ∧
  (∀ w (n : Fin 96) v s, MayWrite w (0x8000 + 0x20 * n.val) s → Runs (.outputEnableWrite w n v) s fun t =>
    t.outlet n = { s.outlet n with
      oen := v, oenAt := if v && !(s.outlet n).oen then s.clk.fc + 1 else (s.outlet n).oenAt
      oenLive := v && ((s.outlet n).oenLive || s.ports.live) } ∧
      ((s.outlet n).oen = true → v = false →
        { at_ := s.clk.fc + 1, rank := 90, act := .oeLower (BitVec.ofNat 7 n) } ∈ t.due)) ∧
  (∀ w (n : Fin 96) s, MayWrite w (0x8000 + 0x20 * n.val) s →
    ((s.outlet (lead s n)).claimAt = s.clk.fc + 1 → ∀ v, exec (.ownerWrite w n v) s = .next (answer s w {})) ∧
    exec (.ownerWrite w n 3) s = .next (answer s w {}) ∧
    exec (.staticLevelWrite w n (s.outlet n).lvl) s = .next (answer s w {}) ∧
    (∀ v, n.val % 2 = 1 ∨ v = (s.outlet n).pair → exec (.pairWrite w n v) s = .next (answer s w {}))) ∧
  (∀ (n : Fin 96) s, coreOff s = false → (s.outlet n).oen = true → (s.outlet n).oenLive = true → (s.outlet n).oe = false →
    (s.outlet n).padHold = none → (s.outlet n).oenAt ≠ s.clk.fc + 1 → edgeLevel s n = (s.outlet n).safe → exec (.outputEnableRaise n) s = .next (s.modOut n fun o => { o with oe := true })) ∧
  (∀ w (n : Fin 96) v s, MayWrite w (0x8000 + 0x20 * n.val) s → n.val % 2 = 0 → v ≠ (s.outlet n).pair → Runs (.pairWrite w n v) s fun t =>
    (outIdle s n = true → outIdle s (n + 1) = true → t.outlet n = { s.outlet n with pair := v }) ∧
    ((outIdle s n = false ∨ outIdle s (n + 1) = false) →
      t.outlet n = { s.outlet n with stat := setBit (s.outlet n).stat 5 true } ∧
      (bit (s.outlet n).stat 5 = false → SrcRaised (160 + n / 2) t))) ∧
  (∀ r e s, coreOff s = false → s.pwr.plllock = true → Runs (.calibrationUpdate r e) s fun t =>
    t.outcal = { valid := true, trkerr := s.outcal.trkerr || e, rawtap := r } ∧
    ∀ n : Fin 96, t.outlet n = if (s.outlet n).line.isEmpty then { s.outlet n with tap := r } else s.outlet n)

/-- Flumes arm, disarm, are configured and take bank words. A permitted write of CTL with ARM = 1 to a disarmed flume that meets the arming conditions arms it, and one that does not sets ARMERR; after one with ARM = 0 the flume is disarmed, a flume that was disarmed takes the configuration, an armed one written without a change of it loses its gate flags, its computations and its timer; a configuration write of CTL is one of the two; TREF, WOPEN and WCLOSE take writes only while disarmed and otherwise set CFGIGN on a change; outside a boundary fc PBDATA writes the pending bank while RDY is 0, is lost with its flag while RDY is 1, writes nothing while ACT selects the active bank, and advances IDX with AINC; writes of one fc take effect in the order of their agents; RDY = 1 seals the bank. -/
def Obligations.FlumesArmAndBanks : Prop :=
  (∀ w (n : Fin 32) v s c, MayWrite w (0x9000 + 0x40 * n.val) s → (s.flume n).arm = false → c = s.modFl n (fun f => { f with
      mode := fd v 1 2, sfmt := bit v 3, cpol := bit v 4, misspol := bit v 5, p2en := bit v 6, tmren := bit v 7
      port1 := fd v 8 5, port2 := fd v 13 5, out := fd v 18 7, tmr := fd v 25 5 }) →
    Runs (.flumeArm w n v) s fun t =>
      (canArm c (c.flume n) = true → (t.flume n).arm = true ∧ (t.flume n).inPeriod = false ∧
        (t.flume n).tref = (s.flume n).tref &&& ~~~0xFFFF#56 ∧ (t.flume n).mode = fd v 1 2) ∧
      (canArm c (c.flume n) = false → t.flume n = { c.flume n with stat := setBit (s.flume n).stat 10 true })) ∧
  (∀ w (n : Fin 32) v s, MayWrite w (0x9000 + 0x40 * n.val) s → Runs (.flumeDisarm w n v) s fun t =>
    (t.flume n).arm = false ∧ ((s.flume n).arm = false → t.flume n = (fun f => { f with
      mode := fd v 1 2, sfmt := bit v 3, cpol := bit v 4, misspol := bit v 5, p2en := bit v 6, tmren := bit v 7
      port1 := fd v 8 5, port2 := fd v 13 5, out := fd v 18 7, tmr := fd v 25 5 }) (s.flume n))) ∧
  (∀ w (n : Fin 32) v s, MayWrite w (0x9000 + 0x40 * n.val) s → (s.flume n).arm = true → flCtl (s.flume n) = (v &&& 0x3FFFFFFE#32) →
    Runs (.flumeDisarm w n v) s fun t => t.flume n = { s.flume n with
      arm := false, gclamp := false, gmiss := false, glate := false, gxfall := false, inPeriod := false
      passed := false, taken := false, closed := false, prev := none } ∧
      t.due = s.due.filter (fun d => !ofFlume n d.act) ∧
      ∀ k, k < 32 → (t.timer k).flume = if (s.timer k).flume = some (BitVec.ofNat 5 n) then none else (s.timer k).flume) ∧
  (∀ w (n : Fin 32) v s, exec (.flumeConfigWrite w n .ctl v) s =
    if bit v 0 then exec (.flumeArm w n v) s else exec (.flumeDisarm w n v) s) ∧
  (∀ w (n : Fin 32) v s, coreOff s = false → (∀ r, writeRefused s w (0x9000 + 0x40 * n.val + FlumeReg.off r) = false) →
    ((s.flume n).arm = false →
      (Runs (.flumeConfigWrite w n .wopen v) s fun t => t.flume n = { s.flume n with wopen := v }) ∧
      (Runs (.flumeConfigWrite w n .wclose v) s fun t => t.flume n = { s.flume n with wclose := v }) ∧
      (Runs (.flumeConfigWrite w n .trefl v) s fun t => fd (trefInt (t.flume n).tref) 0 32 = v) ∧
      (Runs (.flumeConfigWrite w n .trefh v) s fun t => fd (trefInt (t.flume n).tref) 32 8 = (fd v 0 8 : Byte))) ∧
    ((s.flume n).arm = true →
      (Runs (.flumeConfigWrite w n .wopen v) s fun t => t.flume n =
        if (s.flume n).wopen = v then s.flume n else { s.flume n with stat := setBit (s.flume n).stat 9 true }) ∧
      (Runs (.flumeConfigWrite w n .wclose v) s fun t => t.flume n =
        if (s.flume n).wclose = v then s.flume n else { s.flume n with stat := setBit (s.flume n).stat 9 true }) ∧
      (Runs (.flumeConfigWrite w n .trefl v) s fun t => t.flume n =
        if fd (trefInt (s.flume n).tref) 0 32 = v then s.flume n else { s.flume n with stat := setBit (s.flume n).stat 9 true }) ∧
      (Runs (.flumeConfigWrite w n .trefh v) s fun t => t.flume n =
        if fd (trefInt (s.flume n).tref) 32 8 = (fd v 0 8 : Byte) then s.flume n
        else { s.flume n with stat := setBit (s.flume n).stat 9 true }))) ∧
  (∀ w (n : Fin 32) v s f b, MayWrite w (0x9038 + 0x40 * n.val) s → boundaryDue s n = false →
    (s.flume n).pbAt ≠ s.clk.fc + 1 → b = (s.flume n).pb →
    f = { s.flume n with
      pbAt := s.clk.fc + 1, pbOld := b, pbLog := [(agentRank (agentOf s w), .data v)] } →
    Runs (.pendingBankWrite w n v) s fun t =>
    (b.act = false → b.rdy = false → t.flume n = { f with pb := { b with
      pend := vset b.pend b.idx.toNat v, idx := if b.ainc then b.idx + 1 else b.idx } }) ∧
    (b.act = false → b.rdy = true → t.flume n = { f with
      stat := setBit (s.flume n).stat 8 true, pb := { b with idx := if b.ainc then b.idx + 1 else b.idx } }) ∧
    (b.act = true → t.flume n = { f with pb := { b with idx := if b.ainc then b.idx + 1 else b.idx } })) ∧
  (∀ w (n : Fin 32) v s, MayWrite w (0x9038 + 0x40 * n.val) s → boundaryDue s n = false →
    (s.flume n).pbAt = s.clk.fc + 1 → Runs (.pendingBankWrite w n v) s fun t => (t.flume n).pb =
      (bankReplay (s.flume n).pbOld (bankInsert (agentRank (agentOf s w)) (.data v) (s.flume n).pbLog)).1) ∧
  (∀ w (n : Fin 32) v s, MayWrite w (0x903C + 0x40 * n.val) s → boundaryDue s n = false →
    (s.flume n).pbAt ≠ s.clk.fc + 1 → Runs (.bankSeal w n v) s fun t =>
    t.flume n = if bit v 0 then { s.flume n with
      pb := { (s.flume n).pb with rdy := true }, pbAt := s.clk.fc + 1, pbOld := (s.flume n).pb
      pbLog := [(agentRank (agentOf s w), .seal)] } else s.flume n)

/-- Carrier boundaries, misses, fallbacks and landing samples. At a boundary the sealed bank becomes the active one and RDY clears, with an unsealed one STALE is set; Tref moves on by the period, the gate flags clear and the period begins; a window closed without a sample sets MISS and GMISS and, with MISSPOL, commits the affine value of its reference samples 6 fc later; a crossing not met sets XFALL, GXFALL and DONE and commits at Tref + Lmax; SMPCTL sets the enables, and keeps a phase changed on an enabled group and sets PHIGN; a sample at the rise of its group's clock lands in the mailbox of every flume on its port, OVR for an unread one, and raises its source. -/
def Obligations.FlumePeriodsAndSamples : Prop :=
  (∀ (n : Fin 32) s tr, coreOff s = false → boundaryDue s n = true →
    tr = (if (s.flume n).inPeriod then (s.flume n).next else (s.flume n).tref) → Runs (.carrierBoundary n) s fun t =>
      (t.flume n).tref = tr ∧
      (t.flume n).next = tr + (((s.flume n).peri.zeroExtend 56 <<< 16) ||| (s.flume n).perf.zeroExtend 56) ∧
      (t.flume n).inPeriod = true ∧ (t.flume n).boundaryFc = s.clk.fc ∧ (t.flume n).taken = false ∧
      (t.flume n).gclamp = false ∧ (t.flume n).gmiss = false ∧ (t.flume n).glate = false ∧ (t.flume n).gxfall = false ∧
      ((s.flume n).pb.rdy = true → (t.flume n).bank = (s.flume n).pb.pend ∧ (t.flume n).pb.rdy = false) ∧
      ((s.flume n).pb.rdy = false → (t.flume n).bank = (s.flume n).bank ∧ bit (t.flume n).stat 6 = true) ∧
      ∀ k, k ≠ n.val → t.flume k = s.flume k) ∧
  (∀ (n : Fin 32) s, coreOff s = false → (s.flume n).arm = true → awake s = true → (s.flume n).mode = 1 →
    (s.flume n).inPeriod = true → (s.flume n).taken = false → (s.flume n).closed = false → boundaryDue s n = false →
    (s.flume n).wclose.toNat < periodFc s n → (s.flume n).misspol = false →
    Runs (.windowCloseMiss n) s fun t =>
      (t.flume n).closed = true ∧ (t.flume n).gmiss = true ∧ bit (t.flume n).stat 2 = true ∧
        (startOf (s.flume n) = 3 → t.due = s.due)) ∧
  (∀ (n : Fin 32) s, coreOff s = false → (s.flume n).arm = true → awake s = true → (s.flume n).mode = 1 →
    (s.flume n).inPeriod = true → (s.flume n).taken = false → (s.flume n).closed = false → boundaryDue s n = false →
    (s.flume n).wclose.toNat < periodFc s n → (s.flume n).misspol = true → Runs (.windowCloseMiss n) s fun t =>
      (t.flume n).closed = true ∧ (t.flume n).gmiss = true ∧ bit (t.flume n).stat 2 = true ∧
      ∀ v c, v = affineSum (s.flume n) (sampleVal (s.flume n).sfmt (fd (bankWord (s.flume n) 3) 0 24))
          (sampleVal (s.flume n).sfmt (fd (bankWord (s.flume n) 4) 0 24)) →
        c = clampOffset (s.flume n) v →
        { at_ := s.clk.fc + 6, rank := 21
          act := .flumeCommit (BitVec.ofNat 5 n) (addT (trefInt (s.flume n).tref) c.1) (edgeOf (s.flume n)) (startOf (s.flume n)) (trefInt (s.flume n).next)
            (s.flume n).boundaryFc } ∈ t.due) ∧
  (∀ (n : Fin 32) s, coreOff s = false → (s.flume n).arm = true → awake s = true → (s.flume n).mode = 2 →
    (s.flume n).inPeriod = true → (s.flume n).closed = false → boundaryDue s n = false →
    reached40 (addT (trefInt (s.flume n).tref) ((bankWord (s.flume n) 6).toInt - 192)) s.clk.gauge s.clk.adv.toNat = true →
    Runs (.crossingFallback n) s fun t =>
      (t.flume n).closed = true ∧ (t.flume n).gxfall = true ∧ bit (t.flume n).stat 5 = true ∧ bit (t.flume n).stat 0 = true ∧
      (t.flume n).lastl = fd (addT (trefInt (s.flume n).tref) (bankWord (s.flume n) 6).toInt) 0 32) ∧
  (∀ w v s, MayWrite w 0x1800 s → Runs (.smpctlWrite w v) s fun t =>
    t.ports.smpEn = fd v 0 4 ∧
    (∀ k : Fin 4, (bit s.ports.smpEn k && bit (fd v 0 4 : BitVec 4) k) = false →
      vget t.ports.smpPh k 0 = fd v (8 + 4 * k) 3) ∧
    (∀ k : Fin 4, (bit s.ports.smpEn k && bit (fd v 0 4 : BitVec 4) k) = true →
      vget t.ports.smpPh k 0 = vget s.ports.smpPh k 0 ∧
      ((fd v (8 + 4 * k) 3 : BitVec 3) ≠ vget s.ports.smpPh k 0 → t.ports.phign = true))) ∧
  (∀ (n : Fin 32) x tag s, coreOff s = false → awake s = true → bit s.ports.smpEn (n / 8) = true →
    (vget s.ports.smpClk (n / 8) {}).high = 4 → bit s.ports.landed n = false → Runs (.sampleLanding n x tag) s fun t =>
      t.ports.landed = setBit s.ports.landed n true ∧ t.ports.smpSeen = setBit s.ports.smpSeen n true ∧ SrcRaised n t ∧
      ∀ k : Fin 32, (t.flume k).mb1 = if (s.flume k).port1.toNat = n.val then
        { sample := x, tag := tag, ovr := (s.flume k).mb1.ovr || (s.flume k).mb1.new, new := true } else (s.flume k).mb1)

/-- Ticks, wraps, matches, triggers and captures. A tick advances CNT by one unless it wraps; a wrap sets CNT to 0 and OVF, copies every pending preload that was not written in the fc, raises its event where ACTO asks and gives a running chained neighbour its count event unless a start, restart or write of CNT absorbs it; a match sets its flag and raises the event of its action; a trigger that is due restarts and starts the timer as TRGMODE says and is used up; a capture stores CNT as it stood before the fc with CAPF, and CAPOV where CAPF was set, and raises its event where enabled, or waits for the next fc where CAP has been read in this one. -/
def Obligations.TimerCounts : Prop :=
  (∀ (n : Fin 32) s, coreOff s = false → canTick s n = true → wouldWrap (s.timer n) = false → Runs (.timerTick n) s fun t =>
    t.timer n = { s.timer n with
      tick := false, cnt := (s.timer n).cnt + 1, hit := (matchNow (s.clk.fc + 1) { s.timer n with cnt := (s.timer n).cnt + 1 }).hit } ∧
    ∀ k, k ≠ n.val → t.timer k = s.timer k) ∧
  (∀ (n : Fin 32) s, coreOff s = false → canTick s n = true → wouldWrap (s.timer n) = true →
    (∀ i, i < 4 → vget (s.timer n).preAt i 0 ≠ s.clk.fc + 1) → Runs (.timerWrap n) s fun t =>
    exec (.timerTick n) s = .next t ∧ (t.timer n).cnt = 0 ∧ (t.timer n).ovf = true ∧
      (t.timer n).per = (s.timer n).perPre.getD (s.timer n).per ∧ (t.timer n).perPre = none ∧
      (t.timer n).cmpa = (s.timer n).cmpaPre.getD (s.timer n).cmpa ∧ (t.timer n).cmpaPre = none ∧
      (t.timer n).cmpb = (s.timer n).cmpbPre.getD (s.timer n).cmpb ∧ (t.timer n).cmpbPre = none ∧
      (t.timer n).cmpc = (s.timer n).cmpcPre.getD (s.timer n).cmpc ∧ (t.timer n).cmpcPre = none ∧
      (bit (s.timer n).acto 10 = true → SrcRaised (96 + 2 * n) t) ∧
      (n.val + 1 < 32 → (s.timer (n + 1)).src = 3 → (s.timer (n + 1)).run = true →
        takesTick (s.timer (n + 1)) (s.clk.fc + 1) = true → (t.timer (n + 1)).tick = true)) ∧
  (∀ (n : Fin 32) s, coreOff s = false → awake s = true → tmrFrozen s = false →
    (bit (s.timer n).hit 0 = true → Runs (.compareMatch n .a) s fun t =>
      (t.timer n).mata = true ∧ (t.timer n).cnt = (s.timer n).cnt ∧ (bit (s.timer n).acta 10 = true → SrcRaised (96 + 2 * n) t)) ∧
    (bit (s.timer n).hit 1 = true → Runs (.compareMatch n .b) s fun t =>
      (t.timer n).matb = true ∧ (t.timer n).cnt = (s.timer n).cnt ∧ (bit (s.timer n).actb 10 = true → SrcRaised (96 + 2 * n) t)) ∧
    (bit (s.timer n).hit 2 = true → Runs (.compareMatch n .c) s fun t =>
      (t.timer n).matc = true ∧ (t.timer n).cnt = (s.timer n).cnt ∧ (bit (s.timer n).actc 10 = true → SrcRaised (96 + 2 * n) t))) ∧
  (∀ (n : Fin 32) s, coreOff s = false → ((s.timer n).trigAt.any fun f => decide (f ≤ s.clk.fc)) = true → Runs (.timerTrigger n) s fun t =>
    (t.timer n).trigAt = (s.timer n).trigAt.filter (fun f => decide (s.clk.fc < f)) ∧ (bit (s.timer n).trgmode 1 = true → (t.timer n).cnt = 0) ∧
    (bit (s.timer n).trgmode 1 = false → (t.timer n).cnt = (s.timer n).cnt) ∧
    (bit (s.timer n).trgmode 0 = true → (t.timer n).run = true ∧ (t.timer n).pre = 0) ∧
    (bit (s.timer n).trgmode 0 = false → (t.timer n).run = (s.timer n).run)) ∧
  (∀ (n : Fin 32) s, coreOff s = false → (s.timer n).capEv = true → awake s = true → tmrFrozen s = false →
    ((s.timer n).capReadAt = s.clk.fc + 1 → Runs (.capture n) s fun t =>
      t.timer n = { s.timer n with capEv := false, capLate := some ((s.timer n).cntPrev, (s.timer n).capIrq) }) ∧
    ((s.timer n).capReadAt ≠ s.clk.fc + 1 → Runs (.capture n) s fun t =>
      (t.timer n).cap = (s.timer n).cntPrev ∧ (t.timer n).capf = true ∧
      (t.timer n).capov = ((s.timer n).capov || (s.timer n).capf) ∧
      ((s.timer n).capIrq = true → SrcRaisedWith (97 + 2 * n) (s.timer n).cntPrev t)))

/-- RUN, CNT, preloads, live writes and the Gauge-timed start of a timer. A permitted RUN from 0 to 1 starts the timer with the prescaler at 0 and the pending preloads copied, RUN = 0 stops it and keeps its state unless it started at this edge, and a RUN that is as written changes nothing; a write of CNT sets the count and absorbs the tick of its edge; the sequencer writes the preload of PER or CMPX, and the block keeps that it was written in this fc; APB and the debugger write the live value, which cancels the preload, the comparisons of its edge keeping the old one; ATEN with a time in the future arms the start, otherwise it sets ATERR; after SYNCT the timer restarts and starts, ATEN clears and an earlier preload of PER is live. -/
def Obligations.TimerRegisters : Prop :=
  (∀ w (n : Fin 32) s, MayWrite w (0x6100 + 0x40 * n.val) s → (s.timer n).run = false → Runs (.timerStart w n) s fun t =>
    t.timer n = copyPreloads (s.clk.fc + 1) { s.timer n with run := true, pre := 0, tick := false, startAt := s.clk.fc + 1 } ∧
    (t.timer n).cnt = (s.timer n).cnt ∧ (vget (s.timer n).preAt 0 0 ≠ s.clk.fc + 1 → (t.timer n).perPre = none) ∧ ∀ k, k ≠ n.val → t.timer k = s.timer k) ∧
  (∀ w (n : Fin 32) s, MayWrite w (0x6100 + 0x40 * n.val) s →
    ((s.timer n).run = true → (s.timer n).startAt ≠ s.clk.fc + 1 → Runs (.timerStop w n) s fun t =>
      t.timer n = { s.timer n with run := false } ∧ ∀ k, k ≠ n.val → t.timer k = s.timer k) ∧
    ((s.timer n).run = false → exec (.timerStop w n) s = .next (answer s w {})) ∧
    ((s.timer n).run = true → exec (.timerStart w n) s = .next (answer s w {}))) ∧
  (∀ w (n : Fin 32) v s, MayWrite w (0x6108 + 0x40 * n.val) s → Runs (.cntWrite w n v) s fun t =>
    t.timer n = { s.timer n with cnt := v, tick := false, absorbAt := s.clk.fc + 1 } ∧ canTick t n = false ∧
    ∀ k, k ≠ n.val → t.timer k = s.timer k) ∧
  (∀ (j : Fin 16) (n : Fin 32) v s, coreOff s = false →
    (Runs (.preloadWrite j n .per v) s fun t => t.timer n = { s.timer n with
      perPre := some v, preOld := vset (s.timer n).preOld 0 (preloadOf (s.clk.fc + 1) (s.timer n) 0)
      preAt := vset (s.timer n).preAt 0 (s.clk.fc + 1) }) ∧
    (Runs (.preloadWrite j n .cmpa v) s fun t => t.timer n = { s.timer n with
      cmpaPre := some v, preOld := vset (s.timer n).preOld 1 (preloadOf (s.clk.fc + 1) (s.timer n) 1)
      preAt := vset (s.timer n).preAt 1 (s.clk.fc + 1) }) ∧
    (Runs (.preloadWrite j n .cmpb v) s fun t => t.timer n = { s.timer n with
      cmpbPre := some v, preOld := vset (s.timer n).preOld 2 (preloadOf (s.clk.fc + 1) (s.timer n) 2)
      preAt := vset (s.timer n).preAt 2 (s.clk.fc + 1) }) ∧
    (Runs (.preloadWrite j n .cmpc v) s fun t => t.timer n = { s.timer n with
      cmpcPre := some v, preOld := vset (s.timer n).preOld 3 (preloadOf (s.clk.fc + 1) (s.timer n) 3)
      preAt := vset (s.timer n).preAt 3 (s.clk.fc + 1) })) ∧
  (∀ w (n : Fin 32) v s, coreOff s = false → (∀ r, writeRefused s w (0x6100 + 0x40 * n.val + TimerReg.off r) = false) →
    w = .host ∨ w = .debugger →
    (Runs (.liveWrite w n .per v) s fun t => t.timer n = { s.timer n with
      per := v, perPre := none, preOld := vset (s.timer n).preOld 0 none, cmpAt := s.clk.fc + 1
      cmpOld := vgen 3 (fun i => cmpUsed (s.clk.fc + 1) (s.timer n) i) }) ∧
    (Runs (.liveWrite w n .cmpa v) s fun t => t.timer n = { s.timer n with
      cmpa := v, cmpaPre := none, preOld := vset (s.timer n).preOld 1 none, cmpAt := s.clk.fc + 1
      cmpOld := vgen 3 (fun i => cmpUsed (s.clk.fc + 1) (s.timer n) i) }) ∧
    (Runs (.liveWrite w n .cmpb v) s fun t => t.timer n = { s.timer n with
      cmpb := v, cmpbPre := none, preOld := vset (s.timer n).preOld 2 none, cmpAt := s.clk.fc + 1
      cmpOld := vgen 3 (fun i => cmpUsed (s.clk.fc + 1) (s.timer n) i) }) ∧
    (Runs (.liveWrite w n .cmpc v) s fun t => t.timer n = { s.timer n with
      cmpc := v, cmpcPre := none, preOld := vset (s.timer n).preOld 3 none, cmpAt := s.clk.fc + 1
      cmpOld := vgen 3 (fun i => cmpUsed (s.clk.fc + 1) (s.timer n) i) })) ∧
  (∀ (j : Fin 16) (n : Fin 32) r v s, MayWrite (.thread j) (0x6100 + 0x40 * n.val + TimerReg.off r) s →
    exec (.liveWrite (.thread j) n r v) s = exec (.preloadWrite j n r v) s) ∧
  (∀ w (n : Fin 32) s, MayWrite w (0x6100 + 0x40 * n.val) s → (s.timer n).aten = false → Runs (.atenArm w n) s fun t =>
    (inFuture (s.timer n).synct s.clk.gauge = true → t.timer n = { s.timer n with aten := true, passedAt := 0 }) ∧
    (inFuture (s.timer n).synct s.clk.gauge = false → t.timer n = { s.timer n with aterr := true })) ∧
  (∀ (n : Fin 32) s, coreOff s = false → (s.timer n).aten = true → awake s = true → tmrFrozen s = false →
    ((s.timer n).passedAt = 0 ∧ inPast (s.timer n).synct s.clk.gauge = true ∨
      (s.timer n).passedAt ≠ 0 ∧ (s.timer n).passedAt ≤ s.clk.fc) → Runs (.gaugeTimedStart n) s fun t =>
      (t.timer n).run = true ∧ (t.timer n).cnt = 0 ∧ (t.timer n).aten = false ∧
        (vget (s.timer n).preAt 0 0 ≠ s.clk.fc + 1 → (t.timer n).per = (s.timer n).perPre.getD (s.timer n).per))

/-- The Rider instructions BR, LOOP, SHIFT, WAITPIN, WAITT, SETAT, LD and SIG. BR sets PC to TGT exactly when COND holds; LOOP decrements LC and branches while it is not 0; SHIFT clears SCNT, fills OSR from the TX FIFO or waits for a word, and waits for its first bit edge; WAITPIN ends at once at its level or waits; WAITT waits; SETAT takes X as its time, advances X by Y with ADV and becomes pending where none is; LD writes the immediate to X, Y, their high halves or LC; SIG sets IRQF and ends, or waits. -/
def Obligations.RiderInstructions : Prop :=
  (∀ (n : Fin 32) s l, coreOff s = false → (s.rch n).latch = some l → l.phase = .fetched → opcOf l.word = 0 → Runs (.riderBr n) s fun t =>
    t.rch n = { s.rch n with
      latch := none, pc := if riderCond s (s.rch n) (fd l.word 16 4).toNat (fd l.word 13 3).toNat then fd l.word 0 11 else (s.rch n).pc }) ∧
  (∀ (n : Fin 32) s l, coreOff s = false → (s.rch n).latch = some l → l.phase = .fetched → opcOf l.word = 1 → Runs (.loop n) s fun t =>
    t.rch n = { s.rch n with
      latch := none, lc := (s.rch n).lc - 1, pc := if (s.rch n).lc - 1 = 0 then (s.rch n).pc else fd l.word 0 11 }) ∧
  (∀ (n : Fin 32) s l, coreOff s = false → (s.rch n).latch = some l → l.phase = .fetched → opcOf l.word = 2 → Runs (.shift n) s fun t =>
    t.rch n = match bit l.word 17, (s.rch n).tx with
      | false, _ => { s.rch n with scnt := 0, latch := some { l with phase := .align } }
      | true, [] => { s.rch n with scnt := 0, latch := some { l with phase := .fill } }
      | true, v :: rest => { s.rch n with scnt := 0, osr := v, tx := rest, latch := some { l with phase := .align } }) ∧
  (∀ (n : Fin 32) s l, coreOff s = false → (s.rch n).latch = some l → l.phase = .fetched → opcOf l.word = 3 → Runs (.waitpin n) s fun t =>
    t.rch n = { s.rch n with
      latch := if bit l.word 11 = false ∧ slotReads s (s.rch n) (fd l.word 13 3).toNat = bit l.word 12 then none
        else some { l with phase := .waiting } }) ∧
  (∀ (n : Fin 32) s l, coreOff s = false → (s.rch n).latch = some l → l.phase = .fetched → opcOf l.word = 4 → Runs (.waitt n) s fun t =>
    t.rch n = { s.rch n with latch := some { l with phase := .waiting } }) ∧
  (∀ (n : Fin 32) s l, coreOff s = false → (s.rch n).latch = some l → l.phase = .fetched → opcOf l.word = 5 → Runs (.setat n) s fun t =>
    (t.rch n).x = (if bit l.word 10 then (s.rch n).x + (s.rch n).y else (s.rch n).x) ∧
    ((s.rch n).setat = none → (t.rch n).latch = none ∧ (t.rch n).setat =
      some { slot := fd l.word 13 3, op := fd l.word 11 2, t := (s.rch n).x, e := fcTime s, fc := s.clk.fc }) ∧
    (∀ p, (s.rch n).setat = some p →
      (t.rch n).latch = some { l with time := (s.rch n).x, phase := .waiting } ∧ (t.rch n).setat = some p)) ∧
  (∀ (n : Fin 32) s l, coreOff s = false → (s.rch n).latch = some l → l.phase = .fetched → opcOf l.word = 6 → Runs (.ld n) s fun t =>
    t.rch n = match (fd l.word 17 3).toNat with
      | 0 => { s.rch n with latch := none, x := (fd l.word 0 16 : U16).zeroExtend 32 }
      | 1 => { s.rch n with latch := none, y := (fd l.word 0 16 : U16).zeroExtend 32 }
      | 2 => { s.rch n with latch := none, x := (fd l.word 0 16 : U16) ++ (fd (s.rch n).x 0 16 : U16) }
      | 3 => { s.rch n with latch := none, y := (fd l.word 0 16 : U16) ++ (fd (s.rch n).y 0 16 : U16) }
      | _ => { s.rch n with latch := none, lc := fd l.word 0 16 }) ∧
  (∀ (n : Fin 32) s l, coreOff s = false → (s.rch n).latch = some l → l.phase = .fetched → opcOf l.word = 8 → Runs (.sig n) s fun t =>
    t.rch n = { s.rch n with
      stat := setBit (s.rch n).stat 0 true, latch := if bit l.word 0 then some { l with phase := .waiting } else none } ∧
    (bit (s.rch n).stat 0 = false → bit (s.rch n).ien 0 = true → SrcRaised (240 + n) t))

/-- The turn of a channel, MOV, the end of a stall and the firing of a SETAT. In its slot a channel takes its injection, or fetches at PC, which moves on, and latches a legal instruction with its execution fc; an illegal one stops the channel with ILL and an uncorrectable program word with PERR. MOV ends with its transformed value at its destination, the RX FIFO behind the pops of the fc and output slots without a side-set at the next edge, or waits for its FIFO. A stalled instruction ends when its condition has come. At its time the pending SETAT is taken off and drives its slot, late with SLATE. -/
def Obligations.RiderTurnsAndMoves : Prop :=
  (∀ (n : Fin 32) s, coreOff s = false → hasTurn s n = true →
    (∀ w, (s.rch n).inj = some w → legal w = true → Runs (.riderTurn n) s fun t =>
      (t.rch n).latch = some { word := w, phase := .fetched, exec := s.clk.fc, seen := false, time := fcTime s } ∧
      (t.rch n).inj = none ∧ (t.rch n).pc = (s.rch n).pc ∧ t.rider.turnDone = true) ∧
    (∀ w, (s.rch n).inj = some w → legal w = false → Runs (.riderTurn n) s fun t =>
      (t.rch n).run = false ∧ bit (t.rch n).stat 6 = true ∧ (t.rch n).inj = none) ∧
    ((s.rch n).inj = none → marked (s.rch n).pc.toNat s.rider.bad = false → legal (progWord s (s.rch n).pc.toNat) = true →
      Runs (.riderTurn n) s fun t =>
        (t.rch n).latch = some { word := progWord s (s.rch n).pc.toNat, phase := .fetched, exec := s.clk.fc, seen := false, time := fcTime s } ∧
        (t.rch n).pc = (s.rch n).pc + 1 ∧ t.rider.turnDone = true) ∧
    ((s.rch n).inj = none → marked (s.rch n).pc.toNat s.rider.bad = false → legal (progWord s (s.rch n).pc.toNat) = false →
      Runs (.riderTurn n) s fun t => (t.rch n).run = false ∧ bit (t.rch n).stat 6 = true ∧ (t.rch n).latch = none) ∧
    ((s.rch n).inj = none → marked (s.rch n).pc.toNat s.rider.bad = true →
      Runs (.riderTurn n) s fun t => (t.rch n).run = false ∧ bit (t.rch n).stat 7 = true ∧ (t.rch n).latch = none)) ∧
  (∀ (n : Fin 32) s l v, coreOff s = false → (s.rch n).latch = some l → l.phase = .fetched → opcOf l.word = 7 → v = xform (fd l.word 9 3).toNat (movSource s (s.rch n) l) →
    (movReady (s.rch n) l.word = false → Runs (.mov n) s fun t => t.rch n = { s.rch n with latch := some { l with phase := .waiting } }) ∧
    (movReady (s.rch n) l.word = true → fd l.word 16 4 ≠ (4 : BitVec 4) → Runs (.mov n) s fun t =>
      ∀ tx, tx = (if fd l.word 12 4 = (7 : BitVec 4) then (s.rch n).tx.tail else (s.rch n).tx) →
        t.rch n = match (fd l.word 16 4).toNat with
          | 0 => { s.rch n with latch := none, tx := tx, x := v }
          | 1 => { s.rch n with latch := none, tx := tx, y := v }
          | 2 => { s.rch n with latch := none, tx := tx, isr := v, icnt := 0 }
          | 3 => { s.rch n with latch := none, tx := tx, osr := v }
          | 5 => { s.rch n with latch := none, tx := tx, rxIn := (s.rch n).rxIn ++ [v] }
          | 6 => { s.rch n with latch := none, tx := tx, pc := fd v 0 11 }
          | 8 => { s.rch n with latch := none, tx := tx, lc := fd v 0 16 }
          | _ => { s.rch n with latch := none, tx := tx }) ∧
    (movReady (s.rch n) l.word = true → fd l.word 16 4 = (4 : BitVec 4) → Runs (.mov n) s fun t =>
      (t.rch n).latch = none ∧ ∀ j : Fin 8, drives (rslot (s.rch n) j) = true → (rslot (s.rch n) j).nextSide = false →
        (rslot (t.rch n) j).next = some (bit v j))) ∧
  (∀ (n : Fin 32) s l, coreOff s = false → riderFrozen s = false → (s.rch n).latch = some l →
    (opcOf l.word = 2 → l.phase = .shifted → bit l.word 16 = true → rxRoom (s.rch n) = true →
      Runs (.riderInstructionComplete n) s fun t =>
        t.rch n = { s.rch n with latch := none, rxIn := (s.rch n).rxIn ++ [(s.rch n).isr], isr := 0, icnt := 0 }) ∧
    (opcOf l.word = 7 → l.phase = .waiting → movReady (s.rch n) l.word = true →
      Runs (.riderInstructionComplete n) s fun t => (t.rch n).latch = none) ∧
    ((opcOf l.word = 2 ∧ l.phase = .shifted ∧ bit l.word 16 = false) ∨ (opcOf l.word = 3 ∧ l.phase = .waiting ∧ l.seen = true) ∨
      (opcOf l.word = 4 ∧ l.phase = .waiting ∧ l.exec + (fd l.word 0 20).toNat + 1 ≤ s.clk.fc) ∨
      (opcOf l.word = 8 ∧ l.phase = .waiting ∧ bit (s.rch n).stat 0 = false) →
      Runs (.riderInstructionComplete n) s fun t => t.rch n = { s.rch n with latch := none }) ∧
    (opcOf l.word = 5 → l.phase = .waiting → (s.rch n).setat = none → Runs (.riderInstructionComplete n) s fun t =>
      t.rch n = { s.rch n with
        latch := none
        setat := some { slot := fd l.word 13 3, op := fd l.word 11 2, t := l.time, e := fcTime s, fc := s.clk.fc } })) ∧
  (∀ (n : Fin 32) s p late, coreOff s = false → riderFrozen s = false → (s.rch n).setat = some p → setatDue s p = some late →
    Runs (.setatFire n) s fun t => (t.rch n).setat = none ∧ (late = true → bit (t.rch n).stat 5 = true) ∧
      (drives (rslot (s.rch n) p.slot.toNat) = true → (rslot (t.rch n) p.slot.toNat).level =
        match p.op.toNat with | 0 => true | 1 => false | _ => !(rslot (s.rch n) p.slot.toNat).level))

/-- Writes of the FIFOs, CTL, PC, the program memory and RIDER, and the synchronised start. A permitted TXD write gives a word that lands at the end of the fc behind its pops, with TXOVF where it finds the FIFO full, and at once while the fast clock stands; INJ makes a pending injection, or sets INJOVF, and abandons a stall with ABORTSTALL; a program word is replaced; RUN from 0 to 1 starts the channel with its divider at 0; RUN = 0 stops it, abandons its instruction and cancels SETAT; RST empties a stopped channel and not a running one; a MAP write gives four slots their pins and modes and claims a pin that no other channel holds, claims of the same fc by higher channels being dropped with PINCONF; SYNC arms a start in the future, otherwise it sets SERR; the start puts the masked channels at their ENTRY with RUN = 1. -/
def Obligations.RiderRegisters : Prop :=
  (∀ w (n : Fin 32) v s, MayWrite w (0xA028 + 0x40 * n.val) s →
    (s.clk.running = true → Runs (.txdPush w n v) s fun t => t.rch n = { s.rch n with txIn := (s.rch n).txIn ++ [v] }) ∧
    (s.clk.running = false → (s.rch n).txIn = [] → (s.rch n).rxIn = [] →
      (4 ≤ (s.rch n).tx.length → Runs (.txdPush w n v) s fun t =>
        t.rch n = { s.rch n with stat := setBit (s.rch n).stat 1 true }) ∧
      ((s.rch n).tx.length < 4 → Runs (.txdPush w n v) s fun t => t.rch n = { s.rch n with tx := (s.rch n).tx ++ [v] }))) ∧
  (∀ (n : Fin 32) s t, t = landFifos s n →
    (t.rch n).tx = (s.rch n).tx ++ (s.rch n).txIn.take (4 - (s.rch n).tx.length) ∧
    (t.rch n).rx = (s.rch n).rx ++ (s.rch n).rxIn ∧ (t.rch n).txIn = [] ∧ (t.rch n).rxIn = [] ∧
    (4 - (s.rch n).tx.length < (s.rch n).txIn.length → bit (t.rch n).stat 1 = true)) ∧
  (∀ w (n : Fin 32) v s, MayWrite w (0xA030 + 0x40 * n.val) s →
    (∀ x, (s.rch n).inj = some x → Runs (.injection w n v) s fun t =>
      t.rch n = { s.rch n with stat := setBit (s.rch n).stat 3 true }) ∧
    ((s.rch n).inj = none → (s.rch n).abortstall = false ∨ (s.rch n).latch = none → Runs (.injection w n v) s fun t =>
      t.rch n = { s.rch n with inj := some v }) ∧
    (∀ l, (s.rch n).inj = none → (s.rch n).abortstall = true → (s.rch n).latch = some l → Runs (.injection w n v) s fun t =>
      t.rch n = { s.rch n with inj := some v, latch := none, stat := setBit (s.rch n).stat 8 true })) ∧
  (∀ w i v s, MayWrite w (0xC000 + 4 * i.toNat) s → Memory.wf 0 s.rider.prog → Runs (.programMemoryWrite w i v) s fun t =>
    progWord t i.toNat = v ∧ t.rider.bad = mark i.toNat false s.rider.bad ∧ (∀ k, k ≠ i.toNat → progWord t k = progWord s k) ∧
    t.rider.ch = s.rider.ch) ∧
  (∀ w (n : Fin 32) v s, MayWrite w (0xA000 + 0x40 * n.val) s → (s.rch n).run = false → bit v 2 = false →
    Runs (.channelRun w n v) s fun t =>
      (t.rch n).run = true ∧ (t.rch n).div = 0 ∧ (t.rch n).abortstall = bit v 1 ∧
      (bit v 1 = false → t.rch n = { s.rch n with run := true, div := 0, abortstall := false }) ∧
      ∀ k, k ≠ n.val → t.rch k = s.rch k) ∧
  (∀ w (n : Fin 32) v s, MayWrite w (0xA000 + 0x40 * n.val) s → bit v 1 = false → bit v 2 = false ∨ (s.rch n).run = true →
    Runs (.channelStop w n v) s fun t =>
    t.rch n = { s.rch n with run := false, latch := none, setat := none, abortstall := false } ∧ ∀ k, k ≠ n.val → t.rch k = s.rch k) ∧
  (∀ w (n : Fin 32) v s, MayWrite w (0xA000 + 0x40 * n.val) s → bit v 1 = false →
    ((s.rch n).run = false → bit v 0 = false → Runs (.channelReset w n v) s fun t =>
      t.rch n = { s.rch n with
        tx := [], rx := [], txIn := [], rxIn := [], osr := 0, isr := 0, icnt := 0, scnt := 0, setat := none, inj := none
        abortstall := false, latch := none }) ∧
    ((s.rch n).run = true → bit v 0 = true → Runs (.channelReset w n v) s fun t =>
      t.rch n = { s.rch n with abortstall := false })) ∧
  (∀ w (n : Fin 32) hi v (i : Fin 4) s j pin mode, MayWrite w (0xA010 + 0x40 * n.val + (if hi then 4 else 0)) s → j = i.val + (if hi then 4 else 0) →
    pin = (fd v (8 * i) 6 : BitVec 6) → mode = (fd v (8 * i + 6) 2 : BitVec 2) → Runs (.pinMapWrite w n hi v) s fun t =>
      (rslot (t.rch n) j).pin = pin ∧ (rslot (t.rch n) j).mode = mode ∧
      (rslot (t.rch n) j).held = (bit mode 1 &&
        ((drives (rslot (s.rch n) j) && (rslot (s.rch n) j).pin = pin) || !pinTaken s n pin.toNat)) ∧
      (bit mode 1 = true → ¬ (drives (rslot (s.rch n) j) = true ∧ (rslot (s.rch n) j).pin = pin) →
        pinTaken s n pin.toNat = true → bit (t.rch n).stat 4 = true) ∧
      ∀ k, k ≠ n.val → t.rch k = s.rch k ∨ bit (t.rch k).stat 4 = true ∧
        t.rch k = { s.rch k with slots := (t.rch k).slots, stat := (t.rch k).stat }) ∧
  (∀ w v s, MayWrite w 0xB000 s → s.rider.sync = false →
    (inFuture s.rider.synct s.clk.gauge = true → Runs (.syncArm w v) s fun t =>
      t.rider.sync = true ∧ t.rider.serr = (s.rider.serr && !bit v 1) ∧ t.rider.ch = s.rider.ch) ∧
    (inFuture s.rider.synct s.clk.gauge = false → Runs (.syncArm w v) s fun t =>
      t.rider.sync = false ∧ t.rider.serr = true ∧ t.rider.ch = s.rider.ch)) ∧
  (∀ s, coreOff s = false → s.rider.sync = true → awake s = true →
    (s.rider.passedAt = 0 ∧ inPast s.rider.synct s.clk.gauge = true ∨ s.rider.passedAt ≠ 0 ∧ s.rider.passedAt ≤ s.clk.fc) →
    Runs .synchronisedStart s fun t => t.rider.sync = false ∧ ∀ n : Fin 32, t.rch n =
      if bit s.rider.mask n then { s.rch n with latch := none, setat := none, pc := (s.rch n).entry, div := 0, run := true }
      else s.rch n)

/-- Descriptors, triggers, grants, bursts, completions and errors of the Culvert. The fetched descriptor is loaded with nothing issued or done, or its first failing check, a host error, an address above data memory or a bad row becomes the error to stop with; a pulse latches a trigger, or sets TRGOV where one is latched; the granted channel issues its next burst from host memory, or without data to move makes its fetch or writes its record next; a burst to host memory is written whole and leaves the list, with an error response on its read it fails with cause 9, and with one on a write with cause 10, the transactions before that one counted; the completion sets DONE, counts, and stops at END or goes on to NEXT; a stop whose record can be written or is lost clears EN and sets ERR, ECODE and source 281 + 2n. -/
def Obligations.CulvertWalk : Prop :=
  (∀ (n : Fin 16) s resp c, coreOff s = false → fetching (s.culCh n) = true → (s.culCh n).asked = true →
    c = { s.culCh n with asked := false } →
    (∀ l, c.nextSp = true → resp = .okay l → descCause (padTo 32 l) = none → Runs (.descriptorLoad n resp) s fun t =>
      t.culCh n = { c with
        cur := some (parseDesc (padTo 32 l)), phase := .loaded, issued := 0, done := 0, bursts := [], crc := 0xFFFFFFFF
        trig := false, started := false, pulses := 0, loadAt := s.clk.fc + 1 }) ∧
    (∀ l k, c.nextSp = true → resp = .okay l → descCause (padTo 32 l) = some k → Runs (.descriptorLoad n resp) s fun t =>
      t.culCh n = { c with fail := some k, failed := some (parseDesc (padTo 32 l)) }) ∧
    (c.nextSp = true → resp = .error → Runs (.descriptorLoad n resp) s fun t => t.culCh n = { c with fail := some 8 }) ∧
    (c.nextSp = false → memFree s = true → 2 ^ 20 ≤ c.next.toNat →
      Runs (.descriptorLoad n resp) s fun t => t.culCh n = { c with fail := some 1 }) ∧
    (c.nextSp = false → memFree s = true → c.next.toNat < 2 ^ 20 → rowsBad s c.next.toNat 32 = true →
      Runs (.descriptorLoad n resp) s fun t => t.culCh n = { c with fail := some 11 })) ∧
  (∀ (n : Fin 16) s d, coreOff s = false → (s.culCh n).pulses ≠ 0 → (s.culCh n).cur = some d → (s.culCh n).en = true →
    (s.culCh n).phase = .loaded → (s.culCh n).done < d.len.toNat → Runs (.culvertTrigger n) s fun t =>
      t.culCh n = if (s.culCh n).trig then { s.culCh n with pulses := (s.culCh n).pulses - 1, trgov := true }
        else { s.culCh n with pulses := (s.culCh n).pulses - 1, trig := true }) ∧
  (∀ n s d, n < 16 → coreOff s = false → granted s = some n → dataReady s n = true → (s.culCh n).cur = some d →
    d.ssp = true → Runs .burstGrant s fun t =>
    (t.culCh n).issued = (s.culCh n).issued + min d.burstBytes (d.len.toNat - (s.culCh n).issued) ∧
    (t.culCh n).bursts = (s.culCh n).bursts ++
      [{ at_ := (s.culCh n).issued, size := min d.burstBytes (d.len.toNat - (s.culCh n).issued), data := none }] ∧
    vget t.cul.last d.pri.toNat 15 = BitVec.ofNat 4 n ∧ ∀ k, k ≠ n → t.culCh k = s.culCh k) ∧
  (∀ n s, n < 16 → coreOff s = false → granted s = some n → dataReady s n = false → Runs .burstGrant s fun t =>
    t.culCh n = { s.culCh n with asked := true } ∧ vget t.cul.last (culPri s n) 15 = BitVec.ofNat 4 n ∧
      ∀ k, k ≠ n → t.culCh k = s.culCh k) ∧
  (∀ (n : Fin 16) s d b rest l, coreOff s = false → (s.culCh n).cur = some d → (s.culCh n).bursts = b :: rest → d.dsp = true →
    (Runs (.burstComplete n .error none) s fun t => b.data = none → (t.culCh n).fail = some 9 ∧ (t.culCh n).bursts = []) ∧
    (∀ w : Fin 16, beatsBefore d b.at_ (b.size / 16) w < b.size / 16 → Runs (.burstComplete n (.okay l) (some w)) s fun t =>
      (t.culCh n).fail = some 10 ∧ (t.culCh n).bursts = [] ∧
      (t.culCh n).done = (s.culCh n).done + 16 * beatsBefore d b.at_ (b.size / 16) w) ∧
    (Runs (.burstComplete n (.okay l) none) s fun t =>
      (t.culCh n).bursts = rest ∧ (t.culCh n).done = (s.culCh n).done + 16 * (b.size / 16) ∧
      (d.crc = false → (t.culCh n).crc = (s.culCh n).crc) ∧ (t.culCh n).fail = (s.culCh n).fail)) ∧
  (∀ (n : Fin 16) s d, coreOff s = false → (s.culCh n).cur = some d → completing (s.culCh n) = true → culRuns s n = true →
    (d.dsp = true ∨ memFree s = true) → (d.record = true → recordPlace s n = .lost ∨ recordPlace s n = .ready) → Runs (.descriptorComplete n) s fun t =>
      (t.culCh n).doneF = true ∧ (t.culCh n).donecnt = (s.culCh n).donecnt + 1 ∧
      (d.ends = true → (t.culCh n).en = false ∧ (t.culCh n).phase = .idle) ∧
      (d.ends = false → (t.culCh n).en = true ∧ (t.culCh n).phase = .fetch ∧ 
        (t.culCh n).nextSp = d.nsp ∧ (t.culCh n).next = d.next ∧ (t.culCh n).desc = d.next) ∧
      (d.irq = true → SrcRaised (280 + 2 * n) t)) ∧
  (∀ (n : Fin 16) s code, coreOff s = false → (s.culCh n).en = true → (s.culCh n).bursts = [] → (s.culCh n).fail = some code →
    (stopRecord (s.culCh n) code = true → recordPlace s n = .lost ∨ recordPlace s n = .ready) → Runs (.culvertError n code) s fun t =>
      (t.culCh n).en = false ∧ (t.culCh n).phase = .idle ∧ (t.culCh n).err = true ∧ (t.culCh n).ecode = code ∧
      SrcRaised (281 + 2 * n) t)

/-- Start, pause, resume and abort of a Culvert channel, and the event record written. A permitted write of EN = 1 to a stopped channel starts it at its first descriptor; a running one is not restarted. PAUSE is kept as written; PAUSED is set once no burst and no fetch is under way and cleared with PAUSE. ABORT drops the bursts of a running channel and stops it with cause 13, at once where it has no record to write, otherwise once the record is granted; of a stopped channel it keeps PAUSE as written and no more. Each write response of an event record raises source 329. -/
def Obligations.CulvertControl : Prop :=
  (∀ w (n : Fin 16) v s, MayWrite w (0x20000 + 0x40 * n.val) s → bit v 2 = false →
    ((s.culCh n).en = false → Runs (.culvertStart w n v) s fun t =>
      t.culCh n = { s.culCh n with
        en := true, pause := bit v 1, paused := (s.culCh n).paused && bit v 1, phase := .fetch, nextSp := (s.culCh n).sp
        next := (s.culCh n).desc, cur := none, issued := 0, done := 0, bursts := [], fail := none, failed := none
        trig := false, started := false, pulses := 0, cqwait := false, asked := false }) ∧
    ((s.culCh n).en = true → Runs (.culvertStart w n v) s fun t =>
      t.culCh n = { s.culCh n with pause := bit v 1, paused := (s.culCh n).paused && bit v 1 })) ∧
  (∀ w (n : Fin 16) v s, MayWrite w (0x20000 + 0x40 * n.val) s → bit v 2 = false → bit v 0 = false ∨ (s.culCh n).en = true →
    (Runs (.culvertPause w n v) s fun t => t.culCh n = { s.culCh n with pause := true }) ∧
    (Runs (.culvertResume w n v) s fun t => t.culCh n = { s.culCh n with pause := false, paused := false })) ∧
  (∀ (n : Fin 16) s, coreOff s = false → (s.culCh n).pause = true → (s.culCh n).paused = false → (s.culCh n).bursts = [] →
    (fetching (s.culCh n) = false ∨ (s.culCh n).asked = false) → Runs (.pauseDrained n) s fun t => t.culCh n = { s.culCh n with paused := true }) ∧
  (∀ w (n : Fin 16) v s, MayWrite w (0x20000 + 0x40 * n.val) s → (s.culCh n).en = true →
    Runs (.culvertAbort w n v) s fun t =>
      (t.culCh n).bursts = [] ∧ (t.culCh n).pause = bit v 1 ∧
      (s.hg.cq.en = false ∨ stopRecord (s.culCh n) 13 = false →
        (t.culCh n).en = false ∧ (t.culCh n).err = true ∧ (t.culCh n).ecode = 13 ∧ SrcRaised (281 + 2 * n) t) ∧
      (s.hg.cq.en = true → stopRecord (s.culCh n) 13 = true → (t.culCh n).en = true ∧ (t.culCh n).fail = some 13)) ∧
  (∀ w (n : Fin 16) v s, MayWrite w (0x20000 + 0x40 * n.val) s → (s.culCh n).en = false → bit v 0 = false → Runs (.culvertAbort w n v) s fun t =>
    t.culCh n = { s.culCh n with pause := bit v 1, paused := (s.culCh n).paused && bit v 1 } ∧ t.tur = s.tur ∧ t.mem = s.mem) ∧
  (∀ s, coreOff s = false → s.hg.evOwed ≠ 0 → Runs .eventRecordWritten s fun t => SrcRaised 329 t ∧ t.hg.evOwed = s.hg.evOwed - 1)

/-- Reads of the unit registers that have a side effect. A read by host software answers the register and then: CAP clears CAPF, or sets CAPUF and answers 0 where none is held, and answers the older value where a capture of the same fc meets it, which waits; RXD takes the oldest word, or answers 0 and sets RXUF; PBDATA moves the index on with AINC; MB1 and MB2 clear their NEW and OVR and MBT clears nothing; HGEVLOST, CERR, CWCOR, CWUNC, OSERR, FRDROP, NETDROP, NRXLOST and NVMCNT answer what they held before the fc and keep what hardware has set in it, which without such an event is the value and 0; DMGL keeps the high half for DMGH; LGMDATA reads the word at LGMADDR, which moves on with AINC, and a write stores it. -/
def Obligations.ReadsThatClear : Prop :=
  (∀ (n : Fin 32) s, coreOff s = false →
    ((s.timer n).capAt ≠ s.clk.fc + 1 → (s.timer n).capf = true → Runs (.capRead .host n) s fun t =>
      t.apb = { rdata := (s.timer n).cap, slverr := false } ∧
      t.timer n = { s.timer n with capReadAt := s.clk.fc + 1, capf := false }) ∧
    ((s.timer n).capAt ≠ s.clk.fc + 1 → (s.timer n).capf = false → Runs (.capRead .host n) s fun t =>
      t.apb = { rdata := 0, slverr := false } ∧
      t.timer n = { s.timer n with capReadAt := s.clk.fc + 1, capuf := true }) ∧
    ((s.timer n).capAt = s.clk.fc + 1 → Runs (.capRead .host n) s fun t =>
      t.apb = { rdata := if (s.timer n).capfOld then (s.timer n).capOld else 0, slverr := false } ∧
      (t.timer n).capf = false ∧ (t.timer n).capLate = some ((s.timer n).cap, false))) ∧
  (∀ (n : Fin 32) s, coreOff s = false →
    (∀ v rest, (s.rch n).rx = v :: rest → Runs (.rxdRead .host n) s fun t =>
      t.apb = { rdata := v, slverr := false } ∧ t.rch n = { s.rch n with rx := rest }) ∧
    ((s.rch n).rx = [] → Runs (.rxdRead .host n) s fun t =>
      t.apb = { rdata := 0, slverr := false } ∧ t.rch n = { s.rch n with stat := setBit (s.rch n).stat 2 true })) ∧
  (∀ (n : Fin 32) s b, coreOff s = false → boundaryDue s n = false → (s.flume n).pbAt ≠ s.clk.fc + 1 → b = (s.flume n).pb →
    Runs (.pbdataRead .host n) s fun t =>
    t.apb = { rdata := vget (if b.act then (s.flume n).bank else b.pend) b.idx.toNat 0, slverr := false } ∧
    t.flume n = { s.flume n with
      pb := { b with idx := if b.ainc then b.idx + 1 else b.idx }, pbAt := s.clk.fc + 1, pbOld := b
      pbLog := [(agentRank .host, .read)] }) ∧
  (∀ (n : Fin 32) s, coreOff s = false →
    (Runs (.mailboxRead .host n .mb1) s fun t => t.apb = { rdata := mbShown s n false, slverr := false } ∧
      t.flume n = { s.flume n with mb1 := { (s.flume n).mb1 with
        ovr := bit (rcLeft s (mbOff n false)) 30, new := bit (rcLeft s (mbOff n false)) 31 } }) ∧
    (Runs (.mailboxRead .host n .mb2) s fun t => t.apb = { rdata := mbShown s n true, slverr := false } ∧
      t.flume n = { s.flume n with mb2 := { (s.flume n).mb2 with
        ovr := bit (rcLeft s (mbOff n true)) 30, new := bit (rcLeft s (mbOff n true)) 31 } }) ∧
    (Runs (.mailboxRead .host n .mbt8) s fun t => t.apb = { rdata := (s.flume n).mbt, slverr := false } ∧ t.fl = s.fl)) ∧
  (∀ s off cur, (∀ r ∈ s.tur.rcSet, r.off ≠ off) → rcShown s off cur = cur ∧ rcLeft s off = 0) ∧
  (∀ s, coreOff s = false →
    (Runs (.hgevlostRead .host) s fun t => t.apb = { rdata := rcShown s 0x200C s.hg.evlost, slverr := false } ∧
      t.hg = { s.hg with evlost := rcLeft s 0x200C, shadDirty := true }) ∧
    (Runs (.netdropRead .host) s fun t => t.apb = { rdata := rcShown s 0x23034 s.link.netdrop, slverr := false } ∧
      t.link = { s.link with netdrop := rcLeft s 0x23034 }) ∧
    (Runs (.nrxlostRead .host) s fun t => t.apb = { rdata := rcShown s 0x2305C s.link.nrxLost, slverr := false } ∧
      t.link = { s.link with nrxLost := rcLeft s 0x2305C }) ∧
    (Runs (.nvmcntRead .host) s fun t => t.apb = { rdata := nvmReg s 0x18, slverr := false } ∧
      t.nvm = { s.nvm with corr := fd (rcLeft s 0x25018) 0 16, unc := fd (rcLeft s 0x25018) 16 16 })) ∧
  (∀ (p : Fin 4) s o, coreOff s = false → portFormed s p = true → o = 0x23200 + 0x200 * p.val →
    (Runs (.codewordCounterRead .host p 0) s fun t =>
      t.apb = { rdata := rcShown s (o + 0x0C) (s.port p).cwcor, slverr := false } ∧
      t.port p = { s.port p with cwcor := rcLeft s (o + 0x0C) }) ∧
    (Runs (.codewordCounterRead .host p 1) s fun t =>
      t.apb = { rdata := rcShown s (o + 0x10) (s.port p).cwunc, slverr := false } ∧
      t.port p = { s.port p with cwunc := rcLeft s (o + 0x10) }) ∧
    (Runs (.codewordCounterRead .host p 2) s fun t =>
      t.apb = { rdata := rcShown s (o + 0x14) (s.port p).oserr, slverr := false } ∧
      t.port p = { s.port p with oserr := rcLeft s (o + 0x14) }) ∧
    (Runs (.frdropRead .host p) s fun t =>
      t.apb = { rdata := rcShown s (o + 0x118) (s.port p).frdrop, slverr := false } ∧
      t.port p = { s.port p with frdrop := rcLeft s (o + 0x118) })) ∧
  (∀ (l : Fin 4) s o, coreOff s = false → o = 0x2310C + 0x20 * l.val → Runs (.cerrRead .host l) s fun t =>
    t.apb = { rdata := rcShown s o (s.lane l).cerr, slverr := false } ∧
    t.lane l = { s.lane l with cerr := rcLeft s o }) ∧
  (∀ (c : Fin 16) s, coreOff s = false → (s.lgch c).bound = true → Runs (.dmglRead .host c) s fun t =>
    t.apb = { rdata := BitVec.ofNat 32 (lgGet s (recAt (s.lgch c).record.toNat + 8) 4), slverr := false } ∧
    t.lgch c = { s.lgch c with dmgh := some (BitVec.ofNat 32 (lgGet s (recAt (s.lgch c).record.toNat + 12) 4)) }) ∧
  (∀ s, coreOff s = false →
    (Runs (.lgmdataAccess .host none) s fun t => t.apb = { rdata := lgmRead s, slverr := false } ∧ t.mem = s.mem ∧
      t.lg.maddr = if s.lg.mainc then s.lg.maddr + 4 else s.lg.maddr) ∧
    (∀ v, s.lg.en = false → lgmAt s < 0x25000 → hwFresh s 0x24020 = 0 → Runs (.lgmdataAccess .host (some v)) s fun t =>
      t.mem = (lgPut (lgmAt s) 4 v.toNat s).mem ∧ t.lg.maddr = if s.lg.mainc then s.lg.maddr + 4 else s.lg.maddr))

/-- Claims, completions, polls, software events, source configuration and SCOND. A read of CLAIM whose turn it is answers 0xFFFF and changes nothing where nothing is claimable, and otherwise answers the best source of the target, takes one of its events and puts it in service there; a permitted COMPLETE ends the service of a source in service at the target, or sets CERR; a thread that loads TDPOLL gets its best source, taken and completed at once, and goes on; SWEV raises a source of 448 to 511 and no other; a write of CFG waits for the next fc; SCONDSET and SCONDCLR set and clear the named bits, of the writes of one fc the sets before the clears. -/
def Obligations.TurnoutCommands : Prop :=
  (∀ (t : Fin 8) s, coreOff s = false → claimTurn s none (0x3004 + 0x10 * t.val) = true →
    (claimFor s t = none → Runs (.claim .host t) s fun u => u.apb = { rdata := 0xFFFF, slverr := false } ∧ u.tur = s.tur) ∧
    (∀ k : Fin 512, claimFor s t = some k.val → (∀ r ∈ s.tur.raised, r.src ≠ BitVec.ofNat 9 k) →
      Runs (.claim .host t) s fun u => u.apb = { rdata := claimWord s false (some k), slverr := false } ∧
        u.source k = { s.source k with
          cnt := (s.source k).cnt - 1, route := none, service := some (.target (BitVec.ofNat 3 t)) } ∧
        ∀ j, j ≠ k.val → u.source j = s.source j)) ∧
  (∀ w (t : Fin 8) v s k, MayWrite w (0x3008 + 0x10 * t.val) s → k = (fd v 0 9 : BitVec 9).toNat →
    ((s.source k).service = some (.target (BitVec.ofNat 3 t)) → Runs (.complete w t v) s fun u =>
      u.source k = { s.source k with service := none, route := none } ∧ (∀ j, j ≠ k → u.source j = s.source j) ∧
      u.tur.tgt = s.tur.tgt) ∧
    ((s.source k).service ≠ some (.target (BitVec.ofNat 3 t)) → Runs (.complete w t v) s fun u =>
      (vget u.tur.tgt t {}).cerr = true ∧ u.tur.src = s.tur.src)) ∧
  (∀ (n : Fin 16) s x word at_ (k : Fin 512), coreOff s = false → (s.thr n).owing = none → (s.thr n).safe = false →
    (s.thr n).run = .parked (.load (.plain 2) 0x10003144 x word at_) → at_ + 4 ≤ s.clk.fc → storesTaken s n = true →
    dispatchable s n = some k.val → (∀ r ∈ s.tur.raised, r.src ≠ BitVec.ofNat 9 k) →
    Runs (.tdpoll n) s fun u =>
      vget (u.thr n).ctx.g x.toNat 0 = claimWord s true (some k) ∧ (u.thr n).run = .ready ∧
      u.source k = { s.source k with cnt := (s.source k).cnt - 1, route := none }) ∧
  (∀ w v s, MayWrite w 0x3180 s →
    (448 ≤ (fd v 0 9 : BitVec 9).toNat → Runs (.swev w v) s fun t => SrcRaised (fd v 0 9 : BitVec 9).toNat t) ∧
    ((fd v 0 9 : BitVec 9).toNat < 448 → exec (.swev w v) s = .next (answer s w {}))) ∧
  (∀ w (k : Fin 512) v s, MayWrite w (0x4000 + 8 * k.val) s → Runs (.sourceConfigWrite w k v) s fun t =>
    t.tur.cfgw = s.tur.cfgw ++ [(BitVec.ofNat 9 k, v)] ∧ t.tur.src = s.tur.src ∧ t.tur.tgt = s.tur.tgt) ∧
  (∀ w v s, MayWrite w 0x22808 s → MayWrite w 0x2280C s →
    (s.seq.scondAt ≠ s.clk.fc + 1 →
      (Runs (.scondset w v) s fun t => t.seq = { s.seq with
        scond := s.seq.scond ||| fd v 0 16, scondAt := s.clk.fc + 1, scondBase := s.seq.scond, scondSet := fd v 0 16
        scondClr := 0 }) ∧
      (Runs (.scondclr w v) s fun t => t.seq = { s.seq with
        scond := s.seq.scond &&& ~~~(fd v 0 16), scondAt := s.clk.fc + 1, scondBase := s.seq.scond, scondSet := 0
        scondClr := fd v 0 16 })) ∧
    (s.seq.scondAt = s.clk.fc + 1 →
      (Runs (.scondset w v) s fun t =>
        t.seq.scond = (s.seq.scondBase ||| (fd v 0 16 ||| s.seq.scondSet)) &&& ~~~s.seq.scondClr) ∧
      (Runs (.scondclr w v) s fun t =>
        t.seq.scond = (s.seq.scondBase ||| s.seq.scondSet) &&& ~~~(fd v 0 16 ||| s.seq.scondClr))))

/-- Lane training, ports entering and leaving UP and TRICKLE, and the lane group. A lane in DETECT locks and goes to NRZ training with the polarity seen; a ready lane takes the taps that the far end asked for unless FFEOVR is set and goes to PAM4 training where both ends ask for it, else to ALIGN, and its port aligns when all its lanes have; an aligning port enters UP with its lanes ACTIVE, full credit in every virtual lane and its UP event; a lane in DETECT or training 400,000 fc after it entered DETECT enters DETECT again with TRNFAIL, and not before; 16 uncorrectable codewords in a row, or three align intervals without an align, send the port and its enabled lanes to DETECT with DOWN; a permitted RETRAIN sends them there too; GROUP is written only while no lane is enabled, else CFGIGN is set; lane 0 locks at trickle rate and its port enters TRICKLE; loss of trickle lock sends it to DETECT with DOWN. -/
def Obligations.LinkLanes : Prop :=
  (∀ (l : Fin 4) inv s,
    (bit s.link.laneEn l = true → (s.lane l).st = 1 → Runs (.laneDetectLock l inv) s fun t =>
      t.lane l = { s.lane l with st := 2, pol := inv } ∧ (∀ i, i ≠ l.val → t.lane i = s.lane i) ∧ t.link.port = s.link.port) ∧
    (bit s.link.laneEn l = false ∨ (s.lane l).st ≠ 1 → Runs (.laneDetectLock l inv) s fun t => t = s)) ∧
  (∀ (l : Fin 4) (farMod : BitVec 2) near (ffe : BitVec 18) s p, p = portOfLane s l →
    ((s.lane l).st = 2 ∨ (s.lane l).st = 3 → Runs (.trainingReady l ⟨farMod, near⟩ ffe) s fun t =>
      (t.lane l).st = (if (s.lane l).st = 2 ∧ farMod = 0 ∧ (s.port p).tMod = 0 then 3 else 4) ∧
      ((s.lane l).ffeovr = false →
        (t.lane l).pre = fd ffe 0 6 ∧ (t.lane l).main = fd ffe 6 6 ∧ (t.lane l).post = fd ffe 12 6) ∧
      ((s.lane l).ffeovr = true →
        (t.lane l).pre = (s.lane l).pre ∧ (t.lane l).main = (s.lane l).main ∧ (t.lane l).post = (s.lane l).post) ∧
      (∀ i, i ≠ l.val → t.lane i = s.lane i) ∧ (∀ q, q ≠ p → t.port q = s.port q) ∧
      ((∀ i ∈ lanesOf s.link.group p, (t.lane i).st = 4) → (t.port p).st = 2) ∧
      (¬ (∀ i ∈ lanesOf s.link.group p, (t.lane i).st = 4) → t.port p = s.port p)) ∧
    ((s.lane l).st ≠ 2 → (s.lane l).st ≠ 3 → Runs (.trainingReady l ⟨farMod, near⟩ ffe) s fun t => t = s)) ∧
  (∀ (p : Fin 4) aseq lidx skew s,
    ((s.port p).st = 2 → Runs (.portUp p aseq lidx skew) s fun t =>
      (t.port p).st = 3 ∧ (t.port p).aseq = aseq ∧ (∀ v, v < 4 → vget (t.port p).cred v 0 = BitVec.ofNat 8 (vlBuffer v)) ∧
      (∀ i ∈ lanesOf s.link.group p, (t.lane i).st = 5) ∧ SrcRaised (344 + 8 * p) t) ∧
    ((s.port p).st ≠ 2 → Runs (.portUp p aseq lidx skew) s fun t => t = s)) ∧
  (∀ (l : Fin 4) s,
    (1 ≤ (s.lane l).st.toNat → (s.lane l).st.toNat ≤ 3 → (s.lane l).detAt + 400000 ≤ s.clk.fc → Runs (.trainingTimeout l) s fun t =>
      t.lane l = { s.lane l with st := 1, farPam4 := false, farNear := false, detAt := s.clk.fc } ∧ (∀ i, i ≠ l.val → t.lane i = s.lane i) ∧
      SrcRaised (344 + 8 * portOfLane s l + 7) t) ∧
    ((s.lane l).st = 0 ∨ 4 ≤ (s.lane l).st.toNat ∨ s.clk.fc < (s.lane l).detAt + 400000 → Runs (.trainingTimeout l) s fun t => t = s)) ∧
  (∀ (p : Fin 4) s n, n = 2 ^ ((if 8 < (s.port p).aint.toNat then 8 else (s.port p).aint.toNat) + 8) →
    (portLive s p = true → 16 ≤ (s.port p).uncRun.toNat ∨ 3 * n < (s.port p).rxUnits → Runs (.lossOfLock p) s fun t =>
      (t.port p).st = (if (lanesOf s.link.group p).any (fun l => bit s.link.laneEn l) then 1 else 0) ∧
      (∀ l, l < 4 → (t.lane l).st =
        (if l ∈ lanesOf s.link.group p ∧ bit s.link.laneEn l = true then 1 else (s.lane l).st)) ∧
      SrcRaised (344 + 8 * p + 1) t) ∧
    (portLive s p = false ∨ (s.port p).uncRun.toNat < 16 ∧ (s.port p).rxUnits ≤ 3 * n → Runs (.lossOfLock p) s fun t => t = s)) ∧
  (∀ w (l : Fin 4) v s p, MayWrite w (0x23100 + 0x20 * l.val) s → p = portOfLane s l →
    Runs (.retrain w l v) s fun t =>
      (t.port p).st = (if (lanesOf s.link.group p).any (fun i => bit s.link.laneEn i) then 1 else 0) ∧
      (∀ i, i < 4 → (t.lane i).st =
        (if i ∈ lanesOf s.link.group p ∧ bit s.link.laneEn i = true then 1 else (s.lane i).st)) ∧
      ∀ q, q ≠ p → (t.port q).st = (s.port q).st) ∧
  (∀ w v s, MayWrite w 0x23000 s →
    (s.link.laneEn = 0 → Runs (.laneGroupWrite w v) s fun t =>
      t.link.group = fd v 0 3 ∧ t.link.laneEn = fd v 4 4 ∧ t.link.cfgign = s.link.cfgign ∧
      ∀ l, l < 4 → (t.lane l).st = (if bit (fd v 4 4 : BitVec 4) l then 1 else (s.lane l).st)) ∧
    (s.link.laneEn ≠ 0 → Runs (.laneGroupWrite w v) s fun t =>
      t.link.group = s.link.group ∧ t.link.laneEn = fd v 4 4 ∧ t.link.cfgign = true)) ∧
  (∀ s p, p = portOfLane s 0 →
    (bit s.link.laneEn 0 = true → (s.lane 0).st = 1 → Runs .trickleLock s fun t =>
      t.lane 0 = { s.lane 0 with st := 6 } ∧ (t.port p).st = 4 ∧
      (∀ v, v < 4 → vget (t.port p).cred v 0 = BitVec.ofNat 8 (vlBuffer v)) ∧ ∀ q, q ≠ p → t.port q = s.port q) ∧
    (bit s.link.laneEn 0 = false ∨ (s.lane 0).st ≠ 1 → Runs .trickleLock s fun t => t = s)) ∧
  (∀ (p : Fin 4) s,
    ((s.port p).st = 4 → Runs (.trickleLockLoss p) s fun t =>
      (t.port p).st = (if (lanesOf s.link.group p).any (fun i => bit s.link.laneEn i) then 1 else 0) ∧
      (∀ i, i < 4 → (t.lane i).st =
        (if i ∈ lanesOf s.link.group p ∧ bit s.link.laneEn i = true then 1 else (s.lane i).st)) ∧
      SrcRaised (344 + 8 * p + 1) t) ∧
    ((s.port p).st ≠ 4 → Runs (.trickleLockLoss p) s fun t => t = s))

/-- Codewords, ordered sets, aligns and shut orders of a port. A codeword of a live port that cannot be corrected counts in CWUNC, is taken as the next of the sequence, asks for a credit resynchronisation and sets UNCOR; one in sequence counts, and its credits come back, whatever its block; a port sends an empty block where no lane has a block and a credit, else the first block of the lane chosen, at the cost of one credit, and a CRESYNC first where one is asked for; fewer than three marked copies are no ordered set; a tie of the majority or an unknown type counts in OSERR and sets its event; an align restarts the descrambler; a time marker outside an exchange and SLEEP is kept with its stamp; a received shut order is the shut order of its fields; an align goes out when it is due, four copies of each lane's own word on every lane of the port; a shut order counts, and where it is new and accepted it latches the link source and a shut is active. -/
def Obligations.LinkUnits : Prop :=
  (∀ (p : Fin 4) bits s v lf w raw, scramble (s.port p).rxLfsr bits = (v, lf) →
    w = (List.range 68).map (fun k => (fd v (10 * k) 10).toNat) → raw = symbolsBlock w →
    (portLive s p = false → Runs (.codewordReceive p bits) s fun t => t = s) ∧
    (portLive s p = true → (s.port p).nearact = false → rsDecode w = none → Runs (.codewordReceive p bits) s fun t =>
      t.port p = { s.port p with
        cwtot := (s.port p).cwtot + 1, rxUnits := (s.port p).rxUnits + 1, rxLfsr := lf, cwunc := satInc (s.port p).cwunc
        asm := Vector.replicate 4 none, rxSeq := fd (lget raw 1) 5 3 + 1, uncRun := satInc (s.port p).uncRun, resync := true
        evt := setBit (s.port p).evt 2 true } ∧
      SrcRaised (346 + 8 * p) t) ∧
    (∀ sym errs b, portLive s p = true → (s.port p).nearact = false → rsDecode w = some (sym, errs) → b = symbolsBlock sym →
      fd (lget b 1) 5 3 = (s.port p).rxSeq → Runs (.codewordReceive p bits) s fun t =>
        (t.port p).cwtot = (s.port p).cwtot + 1 ∧ (t.port p).rxSeq = (s.port p).rxSeq + 1 ∧ (t.port p).uncRun = 0 ∧
        (t.port p).cred = vmod (s.port p).cred (fd (lget b 1) 0 2 : BitVec 2).toNat
          (· + (fd (lget b 1) 2 3 : BitVec 3).zeroExtend 8) ∧ (t.port p).st = (s.port p).st)) ∧
  (∀ (p : Fin 4) s,
    (portLive s p = false → Runs (.codewordSend p) s fun t => t = s) ∧
    (portLive s p = true → (s.port p).resync = false → pickLane s p = none → Runs (.codewordSend p) s fun t =>
      (t.port p).txSeq = (s.port p).txSeq + 1 ∧ (t.port p).txUnits = (s.port p).txUnits + 1 ∧
      (t.port p).txq = (s.port p).txq ∧ (t.port p).cred = (s.port p).cred ∧ (t.port p).sent = (s.port p).sent) ∧
    (∀ v b rest, portLive s p = true → (s.port p).resync = false → pickLane s p = some v →
      vget (s.port p).txq v [] = b :: rest → Runs (.codewordSend p) s fun t =>
        (t.port p).txSeq = (s.port p).txSeq + 1 ∧ (t.port p).txq = vset (s.port p).txq v rest ∧
        (t.port p).cred = vmod (s.port p).cred v (· - 1) ∧ (t.port p).sent = vmod (s.port p).sent v (· + 1)) ∧
    (portUp s p = true → (s.port p).resync = true → vget (s.port p).txq 0 [] = [] → Runs (.codewordSend p) s fun t =>
      (t.port p).txSeq = (s.port p).txSeq + 1 ∧ (t.port p).resync = false ∧ (t.port p).resyncWait = true ∧
      (t.port p).txq = (s.port p).txq)) ∧
  (∀ (p : Fin 4) sub c0 c1 c2 c3 s w tie, majority [c0, c1, c2, c3] = (w, tie) →
    (portLive s p = false ∨ ([c0, c1, c2, c3].filter (fun c => fd c 0 24 = 0xC396A5#24)).length < 3 →
      Runs (.orderedSetReceive p sub c0 c1 c2 c3) s fun t => t = s) ∧
    (portLive s p = true → 3 ≤ ([c0, c1, c2, c3].filter (fun c => fd c 0 24 = 0xC396A5#24)).length →
      (tie = true ∨ (fd w 24 4 : BitVec 4).toNat = 0 ∨ 4 < (fd w 24 4 : BitVec 4).toNat → Runs (.orderedSetReceive p sub c0 c1 c2 c3) s fun t =>
        (t.port p).oserr = satInc (s.port p).oserr ∧ SrcRaised (348 + 8 * p) t) ∧
      (tie = false → (fd w 24 4 : BitVec 4).toNat = 1 → Runs (.orderedSetReceive p sub c0 c1 c2 c3) s fun t =>
        t.port p = { s.port p with rxUnits := (s.port p).rxUnits + 1 }) ∧
      (tie = false → (fd w 24 4 : BitVec 4).toNat = 2 → Runs (.orderedSetReceive p sub c0 c1 c2 c3) s fun t =>
        t.port p = { s.port p with aseq := fd w 32 8, rxUnits := 0, rxLfsr := 0x7FFFFF00#31 ||| (fd w 32 8 : Byte).zeroExtend 31 }) ∧
      (tie = false → (fd w 24 4 : BitVec 4).toNat = 3 → s.pwr.st ≠ .sleep → (s.port p).exch = none →
        Runs (.orderedSetReceive p sub c0 c1 c2 c3) s fun t =>
          (t.port p).reply = some (fd w 28 8, s.clk.gauge + sub.zeroExtend 64 + (s.port p).rxadj.signExtend 64)) ∧
      (tie = false → (fd w 24 4 : BitVec 4).toNat = 4 → ∃ t,
        exec (.orderedSetReceive p sub c0 c1 c2 c3) s = .next t ∧
        exec (.shutOrderReceive p (fd w 28 14) (fd w 42 8) (fd w 50 5)) (s.modPort p fun q => { q with rxUnits := q.rxUnits + 1 }) = .next t))) ∧
  (∀ (p : Fin 4) s due, due = decide (2 ^ ((if 8 < (s.port p).aint.toNat then 8 else (s.port p).aint.toNat) + 8) ≤ (s.port p).txUnits) →
    ((s.port p).st = 2 ∨ portLive s p = true ∧ due = true → Runs (.alignSend p) s fun t =>
      t.port p = { s.port p with
        txAseq := (s.port p).txAseq + 1, txLfsr := 0x7FFFFF00#31 ||| ((s.port p).txAseq + 1).zeroExtend 31, txUnits := 0
        setLast := true
        txSet := vgen 4 (fun j => if j < portWidth s p then
          List.replicate 4 (alignWord j (match portWidth s p with | 4 => 2 | 2 => 1 | _ => 0) ((s.port p).txAseq + 1)) else []) } ∧ ∀ q, q ≠ p.val → t.port q = s.port q) ∧
    ((s.port p).st ≠ 2 → portLive s p = false ∨ due = false → Runs (.alignSend p) s fun t => t = s)) ∧
  (∀ (p : Fin 4) origin seq hops s,
    ((shutPorts s).contains p.val = false → Runs (.shutOrderReceive p origin seq hops) s fun t => t = s) ∧
    ((shutPorts s).contains p.val = true →
      (sameOrder (portEvent p 5 (s.modPort p fun q => { q with shutrxn := q.shutrxn + 1 })) origin seq = true →
        Runs (.shutOrderReceive p origin seq hops) s fun t =>
          (t.port p).shutrxn = (s.port p).shutrxn + 1 ∧ SrcRaised (349 + 8 * p) t ∧ t.shut = s.shut ∧ t.link.recentShut = s.link.recentShut) ∧
      (sameOrder (portEvent p 5 (s.modPort p fun q => { q with shutrxn := q.shutrxn + 1 })) origin seq = false →
        (s.shut.accept = true → Runs (.shutOrderReceive p origin seq hops) s fun t =>
          SrcRaised (349 + 8 * p) t ∧ t.shut.link = true ∧ t.shut.active = true) ∧
        (s.shut.accept = false → Runs (.shutOrderReceive p origin seq hops) s fun t =>
          (t.port p).shutrxn = (s.port p).shutrxn + 1 ∧ SrcRaised (349 + 8 * p) t ∧ t.shut = s.shut ∧
          t.link.recentShut = ((origin, seq, s.clk.gauge) :: s.link.recentShut).take 16))))

/-- Time exchanges, the Gauge loop, ADV, master election and its restart. On an up or standby port a marker goes out with its stamp and the next sequence number, outside SLEEP 125 µs after the last one at the earliest; a kept marker is answered with a marker of the same number and a TIME frame; a TIME frame that completes an exchange gives the delay, and on the up port the offset: too far and steppable it steps the Gauge, else it slews it, with STEPBLK where the step was refused; when 125 µs have passed since the last, an ADV goes out on every port in UP; a received ADV gives the neighbour, an equal candidate sets DUPKEY, and the best candidate known is taken, or, where the neighbour at the up port has lost its distance, the up port and DISC are given up; 1 ms after the last change the best candidate becomes water master with node 0; 10 ms without a distance the election starts anew with ROLE and KEY as they now stand. -/
def Obligations.LinkTimeAndElection : Prop :=
  (∀ (p : Fin 4) sub s,
    (portLive s p = false ∨ (s.port p).prole ≠ 1 ∧ (s.port p).prole ≠ 3 ∨
        s.pwr.st ≠ .sleep ∧ intervalOver s (s.port p).exchAt = false → Runs (.timeExchange p sub) s fun t => t = s) ∧
    (portLive s p = true → (s.port p).prole = 1 ∨ (s.port p).prole = 3 →
      s.pwr.st = .sleep ∨ intervalOver s (s.port p).exchAt = true → Runs (.timeExchange p sub) s fun t =>
      t.port p = { s.port p with
        txSet := setCopies (portWidth s p) (markerWord (s.port p).tseq), setLast := true
        txUnits := (s.port p).txUnits + 1, tseq := (s.port p).tseq + 1
        exchAt := if s.pwr.st = .sleep then (s.port p).exchAt else some s.clk.gauge
        exch := if s.pwr.st = .sleep then none else some
          ⟨(s.port p).tseq, s.clk.gauge + sub.zeroExtend 64 + (s.port p).txadj.signExtend 64, none⟩ } ∧
      ∀ q, q ≠ p.val → t.port q = s.port q)) ∧
  (∀ (p : Fin 4) sub s,
    ((s.port p).reply = none ∨ portLive s p = false → Runs (.timeMarkerReply p sub) s fun t => t = s) ∧
    (∀ seq t2, (s.port p).reply = some (seq, t2) → portLive s p = true → Runs (.timeMarkerReply p sub) s fun t =>
      t.port p = { s.port p with
        reply := none, txSet := setCopies (portWidth s p) (markerWord seq), setLast := true, txUnits := (s.port p).txUnits + 1
        txq := vmod (s.port p).txq 0 (fun l => l ++ frameBlocks
          { ftype := 1, vl := 0, src := s.link.node
            content := [seq] ++ bytesLE t2 8 ++ bytesLE (s.clk.gauge + sub.zeroExtend 64 + (s.port p).txadj.signExtend 64) 8 ++
            [if s.link.disc then 1 else 0] } none) } ∧
      ∀ q, q ≠ p.val → t.port q = s.port q)) ∧
  (∀ (p : Fin 4) s,
    ((s.port p).inbox.find? (fun f => f.ftype = 1) = none → Runs (.timeFrameReceive p) s fun t => t = s) ∧
    (∀ f seq t1 t2 t3 t4 d theta,
      (s.port p).inbox.find? (fun f => f.ftype = 1) = some f → s.pwr.st ≠ .sleep →
      (s.port p).exch = some { s := seq, t1 := t1, t4 := some t4 } → seq = lget f.content 0 →
      t2 = ofLE 64 ((f.content.drop 1).take 8) → t3 = ofLE 64 ((f.content.drop 9).take 8) →
      d = shrI ((t4 - t1) - (t3 - t2)).toInt 1 → theta = shrI ((t2 - t1) + (t3 - t4)).toInt 1 →
      (Runs (.timeFrameReceive p) s fun t => (t.port p).tdly = BitVec.ofInt 32 d ∧ (t.port p).exch = none) ∧
      ((s.port p).prole ≠ 1 → Runs (.timeFrameReceive p) s fun t => t.clk = s.clk ∧ t.link.toffs = s.link.toffs) ∧
      ((s.port p).prole = 1 → (s.link.stepthr.toNat : Int) < theta.natAbs → steppable s = true →
        Runs (.timeFrameReceive p) s fun t =>
          t.clk.gauge = s.clk.gauge + BitVec.ofInt 64 theta ∧ t.link.pend = 0 ∧ t.link.lockRun = 0 ∧
          t.link.freq = s.link.freq ∧ t.link.toffs = BitVec.ofInt 32 (clampI (-2147483648) 2147483647 theta)) ∧
      ((s.port p).prole = 1 → ¬ ((s.link.stepthr.toNat : Int) < theta.natAbs ∧ steppable s = true) →
        Runs (.timeFrameReceive p) s fun t =>
          t.clk.gauge = s.clk.gauge ∧
          t.link.pend = s.link.pend + BitVec.ofInt 64 (shrI (clampI (-s.link.stepthr.toNat) s.link.stepthr.toNat theta) s.link.kps.toNat) ∧
          t.link.freq = s.link.freq + BitVec.ofInt 64
            (shrI ((clampI (-s.link.stepthr.toNat) s.link.stepthr.toNat theta * 2 ^ 32).tdiv 250000) s.link.kis.toNat) ∧
          t.link.stepblk = (s.link.stepblk || decide ((s.link.stepthr.toNat : Int) < theta.natAbs)) ∧
          t.link.toffs = BitVec.ofInt 32 (clampI (-2147483648) 2147483647 theta)))) ∧
  (∀ s, intervalOver s s.link.advAt = false → Runs .advSend s fun t => t = s) ∧
  (∀ s, intervalOver s s.link.advAt = true → Runs .advSend s fun t => t.link.advAt = some s.clk.gauge ∧ ∀ p, p < 4 → (t.port p).txq =
    (if portUp s p then vmod (s.port p).txq 0 (fun l => l ++ frameBlocks
      { ftype := 6, vl := 0, src := s.link.node, sub := 0, content := advContent s p } none) else (s.port p).txq)) ∧
  (∀ (p : Fin 4) s,
    ((s.port p).inbox.find? (isMgmt 0) = none → Runs (.adv p) s fun t => t = s) ∧
    (∀ f lost, (s.port p).inbox.find? (isMgmt 0) = some f →
      lost = (fd (lget f.content 5) 0 5 = 0x1F#5 && (s.port p).ndist != 0x1F && s.link.upport.map (fun u => u.toNat) = some p.val) →
      Runs (.adv p) s fun t =>
      (t.port p).nrole = fd (lget f.content 0) 0 2 ∧ (t.port p).nkey = ofLE 32 ((f.content.drop 1).take 4) ∧
      (t.port p).ndist = fd (lget f.content 5) 0 5 ∧ (t.port p).nbrup = bit (lget f.content 6) 0 ∧
      (t.port p).ngidx = some (fd (lget f.content 7) 0 3) ∧
      (lost = false → (t.link.bestRole, t.link.bestKey) = bestKnown t) ∧
      (lost = true → t.link.disc = false ∧ t.link.upport.map (fun u => u.toNat) ≠ some p.val) ∧
      (candidate s.link.eRole = true → (t.port p).ndist = 0 → (t.port p).nrole = s.link.eRole → (t.port p).nkey = s.link.eKey →
        t.link.dupkey = true))) ∧
  (∀ s,
    (candidate s.link.eRole = true → s.link.master = false → bestKnown s = (s.link.eRole, s.link.eKey) →
      equalCandidate s = false → 128000000 ≤ (s.clk.gauge - s.link.changedAt).toNat → Runs .masterElection s fun t =>
        t.link.master = true ∧ t.link.node = 0 ∧ t.link.valid = true ∧ t.link.depth = 0 ∧ t.link.dist = 0 ∧ t.link.disc = true) ∧
    (candidate s.link.eRole = false ∨ s.link.master = true ∨ bestKnown s ≠ (s.link.eRole, s.link.eKey) ∨
      equalCandidate s = true ∨ (s.clk.gauge - s.link.changedAt).toNat < 128000000 → Runs .masterElection s fun t => t = s)) ∧
  (∀ s t0, s.link.lostAt = some t0 →
    (s.link.dist = 0x1F → 1280000000 ≤ (s.clk.gauge - t0).toNat → Runs .electionRestart s fun t =>
      t.link.eRole = s.link.role ∧ t.link.eKey = s.link.netkey ∧ ∀ p, p < 4 → (t.port p).ndist = 0x1F ∧ (t.port p).nrole = 0) ∧
    (s.link.dist ≠ 0x1F ∨ (s.clk.gauge - t0).toNat < 1280000000 → Runs .electionRestart s fun t => t = s))

/-- COUNT, ASSIGN, REROUTE, WAKE and CRESYNC frames. A COUNT from a down port is kept as its report; an ASSIGN from the up port gives the node ID, the range, the parent and the depth, and clears the route exceptions; a REROUTE on its way up gives its range the port it came in on: in the entry that holds that range, else in the first free one, else RTXFULL; a WAKE for this block asks for a wakeup by the link, with LINKEN and its reset bit for a warm reset too, and one kept in SLEEP goes on later; a CRESYNC sets the credits from its FREED counts. -/
def Obligations.LinkTreeFrames : Prop :=
  (∀ (p : Fin 4) s,
    ((s.port p).inbox.find? (isMgmt 1) = none → Runs (.count p) s fun t => t = s) ∧
    (∀ f, (s.port p).inbox.find? (isMgmt 1) = some f →
      ((s.port p).prole = 2 → Runs (.count p) s fun t => (t.port p).count =
        some (natLE (f.content.take 2), (lget f.content 2).toNat, natLE ((f.content.drop 3).take 2))) ∧
      ((s.port p).prole ≠ 2 → Runs (.count p) s fun t => (t.port p).count = (s.port p).count))) ∧
  (∀ (p : Fin 4) s,
    ((s.port p).inbox.find? (isMgmt 2) = none → Runs (.assign p) s fun t => t = s) ∧
    (∀ f, (s.port p).inbox.find? (isMgmt 2) = some f →
      ((s.port p).prole ≠ 1 → Runs (.assign p) s fun t => t.link.node = s.link.node ∧ t.link.valid = s.link.valid ∧ t.link.exc = s.link.exc) ∧
      ((s.port p).prole = 1 → Runs (.assign p) s fun t =>
        t.link.node = fd (ofLE 16 ((f.content.drop 0).take 2)) 0 14 ∧ t.link.subhi = fd (ofLE 16 ((f.content.drop 2).take 2)) 0 14 ∧
        t.link.parent = fd (ofLE 16 ((f.content.drop 4).take 2)) 0 14 ∧ t.link.depth = fd (lget f.content 6) 0 4 ∧
        t.link.valid = true ∧ t.link.exc = Vector.replicate 8 {}))) ∧
  (∀ (p : Fin 4) s,
    ((s.port p).inbox.find? (isMgmt 3) = none → Runs (.reroute p) s fun t => t = s) ∧
    (∀ f lo hi, (s.port p).inbox.find? (isMgmt 3) = some f → bit (lget f.content 6) 0 = false →
      lo = fd (ofLE 16 ((f.content.drop 0).take 2)) 0 14 → hi = fd (ofLE 16 ((f.content.drop 2).take 2)) 0 14 →
      (∀ i, s.link.exc.toList.findIdx? (fun e => e.v && e.lo = lo && e.hi = hi) = some i → Runs (.reroute p) s fun t =>
        t.link.exc = vset s.link.exc i { lo := lo, hi := hi, port := BitVec.ofNat 2 p, v := true } ∧ t.link.rtxfull = s.link.rtxfull) ∧
      (s.link.exc.toList.findIdx? (fun e => e.v && e.lo = lo && e.hi = hi) = none →
        (∀ i, s.link.exc.toList.findIdx? (fun e => !e.v) = some i → Runs (.reroute p) s fun t =>
          t.link.exc = vset s.link.exc i { lo := lo, hi := hi, port := BitVec.ofNat 2 p, v := true } ∧ t.link.rtxfull = s.link.rtxfull) ∧
        (s.link.exc.toList.findIdx? (fun e => !e.v) = none → Runs (.reroute p) s fun t =>
          t.link.exc = s.link.exc ∧ t.link.rtxfull = true)))) ∧
  (∀ (p : Fin 4) s,
    ((s.port p).inbox.find? (isMgmt 4) = none → Runs (.wake p) s fun t => t = s) ∧
    (∀ f, (s.port p).inbox.find? (isMgmt 4) = some f →
      (s.link.valid = true → f.dst = s.link.node → bit s.pwr.wakeen 1 = true → s.pwr.st = .sleep ∨ s.pwr.st = .doze →
        Runs (.wake p) s fun t => bit t.pwr.wakesrc 1 = true ∧ t.pwr.waking = true ∧
          t.pwr.rstReq = (if s.pwr.linken && bit (lget f.content 2) 0 then setBit s.pwr.rstReq 4 true else s.pwr.rstReq)) ∧
      (s.pwr.st = .sleep → s.link.valid = true → f.dst ≠ s.link.node → Runs (.wake p) s fun t =>
        t.link.wakeRelay = s.link.wakeRelay ++ [f] ∧ t.pwr.rstReq = s.pwr.rstReq))) ∧
  (∀ (p : Fin 4) s,
    ((s.port p).inbox.find? (isMgmt 7) = none → Runs (.cresync p) s fun t => t = s) ∧
    (∀ f, (s.port p).inbox.find? (isMgmt 7) = some f → Runs (.cresync p) s fun t =>
      t.port p = { s.port p with
        inbox := (s.port p).inbox.erase f
        cred := vgen 4 (fun v => BitVec.ofNat 8 (vlBuffer v) -
          (vget (s.port p).sent v 0 - ofLE 16 ((f.content.drop (4 * v + 2)).take 2)).truncate 8)
        resync := (s.port p).resync || !(s.port p).resyncWait, resyncWait := false } ∧
      ∀ q, q ≠ p.val → t.port q = s.port q))

/-- CMD, DATA, RESP, TRAP and SAMP frames, and the receive ring. A CMD frame without an entry counts in NETDROP, one that may not run yet waits, and one that may is taken into the link slot, with status 7 where commands over the link are not enabled; a DATA, RESP or TRAP frame is stored in the next buffer of the ring, but for the rows that lie in the descriptor table, and sets its event, and is lost with NRXLOST while the ring is off or full, and a TRAP counts in NETDROP except at the root; a SAMP frame waits for an fc in which no thread accesses data memory and is then stored in the row of a subscriber that matches, with its SCOND bit; a write to NRXCFG through RECEIVE_RING_ENABLE sets EN with BASE and K, and a rise of EN clears both indices. -/
def Obligations.LinkRing : Prop :=
  (∀ (p : Fin 4) s,
    ((s.port p).inbox.find? (fun f => f.ftype = 3) = none → Runs (.cmdFrameReceive p) s fun t => t = s) ∧
    (∀ f, (s.port p).inbox.find? (fun f => f.ftype = 3) = some f →
      (f.content.length ≠ 64 → Runs (.cmdFrameReceive p) s fun t =>
        t.link.netdrop = satInc s.link.netdrop ∧ t.hg = s.hg ∧ (t.port p).inbox = (s.port p).inbox.erase f) ∧
      (f.content.length = 64 → linkMayRun s = false → Runs (.cmdFrameReceive p) s fun t => t = s) ∧
      (f.content.length = 64 → linkMayRun s = true → Runs (.cmdFrameReceive p) s fun t =>
        t.hg.linkSlot = some { entry := ofLE 512 f.content, sqhead := 0, seq := s.hg.nextSeq
                               stage := if s.link.cmden = false ∧ f.sub ≠ 1 then .done 7 0 0 else firstStage (ofLE 512 f.content)
                               origin := some (BitVec.ofNat 2 p, f.src, pk [(0, f.msgid.toNat), (8, f.vl.toNat), (16, f.sub.toNat)]) } ∧
        t.hg.nextSeq = s.hg.nextSeq + 1 ∧ t.hg.slot = s.hg.slot ∧ (t.port p).inbox = (s.port p).inbox.erase f))) ∧
  (∀ (p : Fin 4) s, coreOff s = false →
    ((s.port p).inbox.find? (fun f => f.ftype = 5 || f.ftype = 4 || f.ftype = 7) = none →
      Runs (.receiveRingWrite p) s fun t => t = s) ∧
    (∀ f next a l, (s.port p).inbox.find? (fun f => f.ftype = 5 || f.ftype = 4 || f.ftype = 7) = some f →
      next = (s.link.nrxTail.toNat + 1) % nrxSlots s → a = s.link.nrxBase.toNat * 16 + 1280 * s.link.nrxTail.toNat →
      l = frameHeader f ++ bytesLE f.came 6 ++ [byte0 f.ftype f.vl.toNat 0, 0] ++ f.content →
      (f.ftype = 7 → s.link.node ≠ 0 → Runs (.receiveRingWrite p) s fun t =>
        t.link.netdrop = satInc s.link.netdrop ∧ t.link.nrxTail = s.link.nrxTail ∧ t.mem = s.mem) ∧
      (f.ftype ≠ 7 ∨ s.link.node = 0 →
        (s.link.nrxEn = false ∨ next = s.link.nrxHead.toNat → Runs (.receiveRingWrite p) s fun t =>
          t.link.nrxLost = satInc s.link.nrxLost ∧ t.link.nrxTail = s.link.nrxTail ∧ t.mem = s.mem) ∧
        (s.link.nrxEn = true → next ≠ s.link.nrxHead.toNat →
          a + (l ++ List.replicate ((16 - l.length % 16) % 16) 0).length ≤ 2 ^ 20 → Runs (.receiveRingWrite p) s fun t =>
            t.mem.data = (storeSlot a (l ++ List.replicate ((16 - l.length % 16) % 16) 0) s).mem.data ∧
            t.link.nrxTail = BitVec.ofNat 8 next ∧ SrcRaised (350 + 8 * p) t)))) ∧
  (∀ a l i k s, s.ok → i < 64 → k < 16 → 16 * i + k < l.length →
    memByte (storeSlot a l s).mem.data (a + 16 * i + k) =
      (if inExcTable s (a + 16 * i) 16 then memByte s.mem.data (a + 16 * i + k) else lget l (16 * i + k))) ∧
  (∀ (p : Fin 4) s, coreOff s = false → memFree s = false → Runs (.sampFrameReceive p) s fun t => t = s) ∧
  (∀ (p : Fin 4) (j : Fin 8) s f, coreOff s = false → s.ok → memFree s = true →
    (s.port p).inbox.find? (fun f => f.ftype = 2) = some f →
    (vget s.link.sub j {}).en = true → (vget s.link.sub j {}).chan = fd (ofLE 16 (f.content.take 2)) 0 12 →
    ((vget s.link.sub j {}).any = true ∨ (vget s.link.sub j {}).src = f.src) →
    (Runs (.sampFrameReceive p) s fun t =>
      (vget s.link.sub j {}).sig = true → bit t.seq.scond (vget s.link.sub j {}).sbit.toNat = true) ∧
    (inExcTable s ((vget s.link.sub j {}).row.toNat * 16) 16 = false →
      (∀ i, i < 8 → i ≠ j.val → (vget s.link.sub i {}).row ≠ (vget s.link.sub j {}).row) →
      Runs (.sampFrameReceive p) s fun t =>
        ∀ i, i < 16 → memByte t.mem.data ((vget s.link.sub j {}).row.toNat * 16 + i) = lget (sampRow f) i)) ∧
  (∀ w v s, MayWrite w 0x23050 s → Runs (.receiveRingEnable w v) s fun t =>
    t.link.nrxEn = true ∧ t.link.nrxBase = fd v 4 16 ∧ t.link.nrxK = fd v 20 4 ∧
    t.link.nrxHead = (if s.link.nrxEn then s.link.nrxHead else 0) ∧ t.link.nrxTail = (if s.link.nrxEn then s.link.nrxTail else 0))

/-- Writes of the register window and of the store windows. A write of part of a word answers an error where a register stands and has no effect; a whole write by host software is refused in the exception page and in MAXMASK, has no effect where nothing stands, and is otherwise the write of that register; STWSEL selects the window of its requester; a write of the data window stores the bytes that its strobes select and no other, of the micro window the word with those bytes, and of the nano window it stages the word of its nanoword until word 7; outside the space or without a strobe nothing happens; a register-write command whose writer may not write that register leaves everything but the threads' exception state, the debug registers, the Turnout and what is due as it was: a debugger with no access pending gets cause 3, and a thread takes vector 3 where it runs. -/
def Obligations.RegisterAndWindowWrites : Prop :=
  (∀ (off : BitVec 20) v strb s, coreOff s = false → off.toNat < 0x40000 →
    (strb ≠ 0xF → Runs (.registerWrite .host off v strb) s fun t =>
      t.apb = { rdata := 0, slverr := assigned (off.toNat / 4 * 4) } ∧ Only [.apb] s t) ∧
    (hostRefused (off.toNat / 4 * 4) = true → Runs (.registerWrite .host off v 0xF) s fun t =>
      t.apb = { rdata := 0, slverr := true } ∧ Only [.apb] s t) ∧
    (assigned (off.toNat / 4 * 4) = false → hostRefused (off.toNat / 4 * 4) = false → Runs (.registerWrite .host off v 0xF) s fun t =>
      t.apb = { rdata := 0, slverr := false } ∧ Only [.apb] s t)) ∧
  (∀ w (off : BitVec 20) v s, MayWrite w off.toNat s → off.toNat < 0x40000 →
    (Runs (.registerWrite w off v 0xF) s fun t =>
      t = writeAnswer w (regStore (agentOf s w) (off.toNat / 4 * 4) v s)) ∧
    (off.toNat / 4 * 4 = 0xC → hwFresh s 0xC = 0 → Runs (.registerWrite w off v 0xF) s fun t =>
      winOf t (agentOf s w) = { winOf s (agentOf s w) with space := fd v 0 2, page := fd v 2 2 })) ∧
  (∀ w (off : BitVec 20) v strb s k, MayWrite w off.toNat s → s.ok → 0x40000 ≤ off.toNat → off.toNat < 0x80000 →
    k = off.toNat / 4 * 4 - 0x40000 →
    (winSize (winOf s (agentOf s w)).space ≤ k ∨ strb = 0 → Runs (.storeWindowWrite w off v strb) s fun t => t = answer s w {}) ∧
    (k < winSize (winOf s (agentOf s w)).space → strb ≠ 0 →
      ((winOf s (agentOf s w)).space = 0 → 8192 ≤ k / 4 → marked (k / 4) s.mem.badMicro = false →
        Runs (.storeWindowWrite w off v strb) s fun t =>
          sget 0 (k / 4) t.mem.micro = strobed (microWord s (BitVec.ofNat 16 (k / 4))) v strb ∧
          ∀ i, i ≠ k / 4 → sget 0 i t.mem.micro = sget 0 i s.mem.micro) ∧
      ((winOf s (agentOf s w)).space = 1 → k / 4 % 8 ≠ 7 → Runs (.storeWindowWrite w off v strb) s fun t =>
        (∃ ws, (winOf t (agentOf s w)).staged = some (BitVec.ofNat 12 (k / 32), ws) ∧
          vget ws (k / 4 % 8) 0 = strobed (fd (nanoWord s (k / 32)) (32 * (k / 4 % 8)) 32) v strb) ∧ t.mem.nano = s.mem.nano) ∧
      (∀ a, (winOf s (agentOf s w)).space = 2 → a = (winOf s (agentOf s w)).page.toNat * 0x40000 + k →
        (atMachine s (agentOf s w) = true ∨ ∀ q ∈ strobedBytes v strb, inExcTable s (a + q.1) 1 = false) → partBad s a 4 = false →
          Runs (.storeWindowWrite w off v strb) s fun t =>
            (∀ q ∈ strobedBytes v strb, memByte t.mem.data (a + q.1) = q.2) ∧
            ∀ b, (∀ q ∈ strobedBytes v strb, b ≠ a + q.1) → memByte t.mem.data b = memByte s.mem.data b))) ∧
  (∀ c w off s, regWritten c = some (w, off) → porLow s = false → writeRefused s w off = true →
    Runs c s fun t => t = refuseWrite w s ∧ Only [.tur, .seq, .mem, .dbg, .due] s t ∧
      (w = .debugger → s.dbg.access = none → t.dbg.err = true ∧ t.dbg.cause = 3 ∧ t.seq = s.seq ∧ t.mem = s.mem) ∧
      (∀ n, w = .thread n → t = (if coreOff s = false ∧ (s.thr n).run = .ready ∧ (s.thr n).escal = none then takeFault n 3 0 s else s)))

/-- The group aperture, REGREQ and REGRSP. Host software reaches the block itself where the aperture shows its own registers, once it is its turn among the claims of the fc, reads zero and writes nothing where it shows none, and is refused with FWDERR where the member is not present; otherwise the access is kept and goes out under the next MSGID. A member performs a REGREQ and answers with its error flag and data; a REGRSP ends the access it answers: host software gets its data or error, a store of a thread is answered, and one that answers nothing has no effect. -/
def Obligations.GroupAccesses : Prop :=
  (∀ (off : BitVec 20) wr strb s, coreOff s = false → 0x80000 ≤ off.toNat →
    (routeOff s off.toNat = .nowhere → Runs (.groupApertureAccess .host off wr strb) s fun t =>
      t.apb = { rdata := 0, slverr := false } ∧ Only [.apb] s t) ∧
    (∀ a, routeOff s off.toNat = .own a → wr = none → claimTurn s none a = false →
      Runs (.groupApertureAccess .host off wr strb) s fun t => t = s) ∧
    (∀ a, routeOff s off.toNat = .own a → wr = none → claimTurn s none a = true → Runs (.groupApertureAccess .host off wr strb) s fun t =>
      t = answer (busRead .host false a s).2 .host (busRead .host false a s).1) ∧
    (∀ a v, routeOff s off.toNat = .own a → wr = some v → Runs (.groupApertureAccess .host off wr strb) s fun t =>
      t = answer (busWrite .host a v strb s).1 .host (busWrite .host a v strb s).2) ∧
    (∀ m a, routeOff s off.toNat = .member m a →
      (memberPresent s m = false → Runs (.groupApertureAccess .host off wr strb) s fun t =>
        t.apb = { rdata := 0, slverr := true } ∧ t.link.fwderr = true ∧ t.link.fwd = s.link.fwd) ∧
      (memberPresent s m = true → (s.link.fwd.filter (fun f => sameRequester f.agent .host)).length < 4 →
        Runs (.groupApertureAccess .host off wr strb) s fun t =>
          t.apb = s.apb ∧ t.link.msgid = s.link.msgid + 1 ∧ t.link.fwd = s.link.fwd ++ [
            { agent := .host, member := BitVec.ofNat 3 m, addr := BitVec.ofNat 20 a, wr := wr, strb := strb, inspect := false
              msgid := s.link.msgid }]))) ∧
  (∀ (p : Fin 4) s,
    ((s.port p).inbox.find? (isMgmt 5) = none → Runs (.regreq p) s fun t => t = s) ∧
    (∀ f x off wr r, (s.port p).inbox.find? (isMgmt 5) = some f →
      x = s.modPort p (fun q => { q with inbox := (s.port p).inbox.erase f }) → off = natLE (f.content.take 4) % 0x100000 →
      wr = (if bit (lget f.content 4) 0 then some (ofLE 32 ((f.content.drop 5).take 4)) else none) →
      memberAccess off wr (fd (lget f.content 4) 4 4) (bit (lget f.content 4) 1) x = r →
      (Runs (.regreq p) s fun t => Only [.link] r.2 t) ∧
      (r.2.link.valid = true → f.src ≠ r.2.link.node → ∀ q : Fin 4, routeOf r.2 f.src = some q.val → Runs (.regreq p) s fun t =>
        (t.port q).txq = vmod (r.2.port q).txq 0 (fun l => l ++ frameBlocks
          { ftype := 6, vl := 0, src := r.2.link.node, dst := f.src, msgid := f.msgid, sub := 6, hops := 0
            content := [if r.1.err then 1 else 0] ++ bytesLE (if r.1.err then 0 else r.1.data) 4 } none)))) ∧
  (∀ (p : Fin 4) s,
    ((s.port p).inbox.find? (isMgmt 6) = none → Runs (.regrsp p) s fun t => t = s) ∧
    (∀ f, (s.port p).inbox.find? (isMgmt 6) = some f →
      (s.link.fwd.find? (fun (r : Forwarded) => r.msgid = f.msgid) = none → Runs (.regrsp p) s fun t =>
        t.apb = s.apb ∧ t.seq = s.seq ∧ t.dbg = s.dbg ∧ t.link.fwd = s.link.fwd) ∧
      (∀ r, s.link.fwd.find? (fun (r : Forwarded) => r.msgid = f.msgid) = some r →
        (r.agent = .host → Runs (.regrsp p) s fun t =>
          t.apb = { rdata := if bit (lget f.content 0) 0 then 0 else ofLE 32 ((f.content.drop 1).take 4), slverr := bit (lget f.content 0) 0 } ∧
          t.link.fwd = s.link.fwd.erase r) ∧
        (∀ (n : BitVec 4) po, r.agent = .mach n → r.wr.isSome = true → bit (lget f.content 0) 0 = false →
          answeredStore s n.toNat r.member.toNat r.addr.toNat = some po → Runs (.regrsp p) s fun t =>
            (t.thr n.toNat).stores = (s.thr n.toNat).stores.erase po ∧ t.link.fwd = s.link.fwd.erase r))))

/-- Submission, completion, the rings, the head shadow, NOP and QUERY. The entry of the selected ring is taken into its slot and the HEAD moves on; a completion is written at the TAIL of the CQ with its PHASE and raises 328 where asked for or where its status is not 0, QUIET keeps back one of status 0, and the slot is free; NOP and QUERY end with status 0 and their result, and with status 2 for a parameter outside its range; a doorbell moves the TAIL or is refused with its cause; a ring is enabled empty with its first PHASE, refused with cause 1 or 2, or disabled; the head shadow is enabled at an aligned address and written once all event records are; a HEAD write moves the HEAD of the CQ or the EQ; RING_RESUME clears the RERR bits and EQOVF that it writes 1 but for those set in this fc; an entry that could not be read stops its ring with status 4 and an event record that is written raises 329. -/
def Obligations.RingsAndCompletions : Prop :=
  (∀ entry s,
    (∀ r, selectedRing s = some r → inRun s = true → r = 0 ∨ linkPending s = false → r < 4 →
      Runs (.submissionFetch entry) s fun t =>
        vget t.hg.slot r none = some { entry := entry, sqhead := (ringNext (s.sqr r) (s.sqr r).head).zeroExtend 16
                                       seq := s.hg.nextSeq, stage := firstStage entry } ∧
        t.sqr r = { s.sqr r with head := ringNext (s.sqr r) (s.sqr r).head } ∧ t.hg.nextSeq = s.hg.nextSeq + 1) ∧
    (selectedRing s = none ∨ inRun s = false → Runs (.submissionFetch entry) s fun t => t = s)) ∧
  (∀ k c st d r s, slotAt s k = some c → c.stage = .done st d r → inRun s = true → serving s = true →
    (cmdQuiet c.entry = true → st = 0 → Runs (.completionWrite k) s fun t =>
      slotAt t k = none ∧ t.mem = s.mem ∧ t.hg.cq = s.hg.cq) ∧
    (∀ q, k = .sq q → cmdQuiet c.entry = false ∨ st ≠ 0 → s.hg.cq.en = true → Runs (.completionWrite k) s fun t =>
      slotAt t k = none ∧ t.hg.cq = ringPush s.hg.cq ∧
      t.mem.host = memWrite s.mem.host (entryAddr s.hg.cq s.hg.cq.tail 16).toNat
        (bytesLE (setBit (completion (cmdCid c.entry) st (BitVec.ofNat 2 q) (cmdMember c.entry) c.sqhead d r) 24 s.hg.cq.phase) 16) ∧
      (cmdIrq c.entry = true ∨ st ≠ 0 → SrcRaised 328 t)) ∧
    (∀ q, k = .sq q → cmdQuiet c.entry = false ∨ st ≠ 0 → s.hg.cq.en = false → Runs (.completionWrite k) s fun t =>
      slotAt t k = none ∧ t.mem = s.mem ∧
      t.hg.held = s.hg.held ++ [⟨completion (cmdCid c.entry) st (BitVec.ofNat 2 q) (cmdMember c.entry) c.sqhead d r, cmdIrq c.entry || st != 0⟩])) ∧
  (∀ k c s, Begins 1 k c s →
    (firstBad c.entry [] [] = none → Runs (.nop k) s fun t => Ended k c 0 0 0 t ∧ Only [.hg] s t) ∧
    (∀ d, firstBad c.entry [] [] = some d → Runs (.nop k) s fun t => Ended k c 2 (BitVec.ofNat 16 d) 0 t ∧ Only [.hg] s t)) ∧
  (∀ k c s, Begins 2 k c s →
    (firstBad c.entry [0xFF] [decide (5 < (cmdP c.entry 0).toNat)] = none → Runs (.query k) s fun t =>
      Ended k c 0 0 (queryResult s (cmdP c.entry 0).toNat) t ∧ Only [.hg] s t) ∧
    (firstBad c.entry [0xFF] [decide (5 < (cmdP c.entry 0).toNat)] = none → cmdP c.entry 0 = 4 → Runs (.query k) s fun t =>
      Ended k c 0 0 s.clk.gauge t) ∧
    (∀ d, firstBad c.entry [0xFF] [decide (5 < (cmdP c.entry 0).toNat)] = some d → Runs (.query k) s fun t =>
      Ended k c 2 (BitVec.ofNat 16 d) 0 t ∧ Only [.hg] s t)) ∧
  (∀ w (r : Fin 4) v s, MayWrite w (0x2100 + 4 * r.val) s →
    ((s.sqr r).en = true → (fd v 0 14 : BitVec 14).toNat < ringSize (s.sqr r) → Runs (.doorbell w r v) s fun t =>
      t.sqr r = { s.sqr r with tail := fd v 0 14 }) ∧
    ((s.sqr r).en = false → Runs (.doorbell w r v) s fun t =>
      t.hg.err = true ∧ t.hg.errCause = 4 ∧ t.hg.errRing = BitVec.ofNat 3 r ∧ t.hg.sq = s.hg.sq ∧ SrcRaised 337 t) ∧
    ((s.sqr r).en = true → ringSize (s.sqr r) ≤ (fd v 0 14 : BitVec 14).toNat → Runs (.doorbell w r v) s fun t =>
      t.hg.err = true ∧ t.hg.errCause = 3 ∧ t.hg.errRing = BitVec.ofNat 3 r ∧ t.hg.sq = s.hg.sq ∧ SrcRaised 337 t)) ∧
  (∀ w v s j, MayWrite w 0x2004 s → j < 4 ∨ j = 5 →
    (bit v j = false → Runs (.ringEnable w v) s fun t => getRing t j = { getRing s j with en := false }) ∧
    (bit v j = true → (getRing s j).en = true → Runs (.ringEnable w v) s fun t => getRing t j = getRing s j) ∧
    (bit v j = true → (getRing s j).en = false →
      ((getRing s j).base.toNat % (if j < 4 then 64 else 16) = 0 → 4 ≤ (getRing s j).k.toNat →
        (getRing s j).k.toNat ≤ (if j < 4 then 12 else 14) → Runs (.ringEnable w v) s fun t =>
          getRing t j = { getRing s j with en := true, head := 0, tail := 0, phase := decide (4 ≤ j) }) ∧
      ((getRing s j).base.toNat % (if j < 4 then 64 else 16) ≠ 0 ∨ (getRing s j).k.toNat < 4 ∨
        (if j < 4 then 12 else 14) < (getRing s j).k.toNat → Runs (.ringEnable w v) s fun t =>
          getRing t j = getRing s j ∧ t.hg.err = true))) ∧
  (∀ w v s, MayWrite w 0x2004 s →
    (s.hg.shen = true ∨ fd s.hg.shad 0 5 = (0 : BitVec 5) → Runs (.headShadowEnable w v) s fun t =>
      t.hg.shen = true ∧ (s.hg.shen = false → t.hg.shadDirty = true)) ∧
    (s.hg.shen = false → fd s.hg.shad 0 5 ≠ (0 : BitVec 5) → Runs (.headShadowEnable w v) s fun t => t.hg.shen = false)) ∧
  (∀ s, coreOff s = false →
    (s.hg.shen = true → s.hg.shadDirty = true → s.hg.evOwed = 0 → Runs .headShadowWrite s fun t =>
      t.hg = { s.hg with shadDirty := false } ∧ t.mem.host = memWrite s.mem.host s.hg.shad.toNat
        ((List.range 4).flatMap (fun r => bytesLE ((s.sqr r).head.zeroExtend 16) 2) ++ bytesLE (s.hg.cq.tail.zeroExtend 16) 2 ++
          bytesLE (s.hg.eq.tail.zeroExtend 16) 2 ++ bytesLE s.hg.evlost 4 ++ bytesLE s.clk.gauge 8 ++ List.replicate 8 0)) ∧
    (s.hg.shen = false ∨ s.hg.shadDirty = false ∨ s.hg.evOwed ≠ 0 → Runs .headShadowWrite s fun t => t = s)) ∧
  (∀ w (eq : Bool) v s, MayWrite w (if eq then 0x20EC else 0x20CC) s →
    (eq = false → Runs (.cqHeadWrite w eq v) s fun t => t.hg.cq = { s.hg.cq with head := fd v 0 14 } ∧ t.hg.eq = s.hg.eq) ∧
    (eq = true → Runs (.cqHeadWrite w eq v) s fun t => t.hg.eq = { s.hg.eq with head := fd v 0 14 } ∧ t.hg.cq = s.hg.cq)) ∧
  (∀ w v s x, MayWrite w 0x2000 s → x = v &&& ~~~(hwFresh s 0x2000) → Runs (.ringResume w v) s fun t =>
    t.hg.rerr = w1c s.hg.rerr (fd x 8 4) ∧ t.hg.eqovf = (s.hg.eqovf && !bit x 3)) ∧
  (∀ s, coreOff s = false →
    (selectedRing s = none → Runs .entryReadError s fun t => t = s) ∧
    (∀ r q, selectedRing s = some r → q = s.sqr r → Runs .entryReadError s fun t =>
      t.hg.rerr = setBit s.hg.rerr r true ∧ t.hg.cq = ringPush s.hg.cq ∧ t.hg.sq = s.hg.sq ∧ SrcRaised (332 + r) t ∧ SrcRaised 328 t ∧
      t.mem.host = memWrite s.mem.host (entryAddr s.hg.cq s.hg.cq.tail 16).toNat
        (bytesLE (setBit (completion 0xFFFF 4 (BitVec.ofNat 2 r) 0 (q.head.zeroExtend 16) 0 (q.head.zeroExtend 64)) 24 s.hg.cq.phase) 16))) ∧
  (∀ s, coreOff s = false →
    (s.hg.evOwed = 0 → Runs .eventRecordWritten s fun t => t = s) ∧
    (s.hg.evOwed ≠ 0 → Runs .eventRecordWritten s fun t => t.hg = { s.hg with evOwed := s.hg.evOwed - 1 } ∧ SrcRaised 329 t))

/-- THREAD_START, THREAD_STOP and THREAD_RESET. THREAD_START puts a stopped thread without entries to its start address with its privilege, masks, HAZCHK, g31, DSL, RSLO, RSP and RSHI, leaves g0-g30, a0-a3 and every other thread, and is refused with status 3, or 2 and the offset of the parameter; THREAD_STOP ends with the mask of the threads that ran once every thread of its mask stands still, stops a waiting thread at once, and waits for one that is parked; THREAD_RESET stops each thread of its mask, empties its return stack and its entries, lets the loads that it is owed land, and reports the ones that were dry. -/
def Obligations.ThreadCommands : Prop :=
  (∀ k c s, Begins 0x20 k c s →
    (∀ p, p = startParams c.entry →
      (∀ d, firstBad c.entry (wordsAfter [] 6) (startFaults p) = some d → Runs (.threadStart k) s fun t =>
        Ended k c 2 (BitVec.ofNat 16 d) 0 t ∧ Only [.hg] s t) ∧
      (firstBad c.entry (wordsAfter [] 6) (startFaults p) = none →
        (s.thr (startThreadNo p)).run ≠ .stopped ∨ (s.thr (startThreadNo p)).depth ≠ 0 →
        Runs (.threadStart k) s fun t => Ended k c 3 0 0 t ∧ Only [.hg] s t) ∧
      (firstBad c.entry (wordsAfter [] 6) (startFaults p) = none →
        (s.thr (startThreadNo p)).run = .stopped → (s.thr (startThreadNo p)).depth = 0 →
        Runs (.threadStart k) s fun t => Ended k c 0 0 0 t ∧ Only [.hg, .seq] s t ∧
          (∀ i, i ≠ startThreadNo p → t.thr i = s.thr i) ∧
          t.thr (startThreadNo p) = { s.thr (startThreadNo p) with
            maxmask := fd (cmdP c.entry 0) 9 3, hazchk := bit (cmdP c.entry 0) 12, run := .ready, stopReq := false
            ctx := { (s.thr (startThreadNo p)).ctx with
              priv := fd (cmdP c.entry 0) 4 2, mask := fd (cmdP c.entry 0) 6 3, pc := fd (cmdP c.entry 1) 0 16
              g := vset (s.thr (startThreadNo p)).ctx.g 31 (cmdP c.entry 2), dsl := cmdP c.entry 3
              rslo := fd (cmdP c.entry 4) 4 16, rsp := fd (cmdP c.entry 4) 4 16, rshi := fd (cmdP c.entry 5) 4 16 } }))) ∧
  (∀ k c s m, Begins 0x21 k c s → m = cmdP c.entry 0 →
    (∀ d, firstBad c.entry [0x7FFF] [] = some d → Runs (.threadStop k) s fun t =>
      Ended k c 2 (BitVec.ofNat 16 d) 0 t ∧ Only [.hg] s t) ∧
    (firstBad c.entry [0x7FFF] [] = none →
      (∀ n, n < 15 → bit m n = true → (s.thr n).run = .stopped ∨ (s.thr n).run = .dry ∨ MayStop s n) →
      Runs (.threadStop k) s fun t =>
        Ended k c 0 0 (maskOf s m (fun x => x.run != .stopped)) t ∧
        ∀ n, n < 15 → bit m n = true → (s.thr n).run ≠ .dry → (t.thr n).run = .stopped) ∧
    (∀ n p, firstBad c.entry [0x7FFF] [] = none → n < 15 → bit m n = true → (s.thr n).run = .parked p →
      Runs (.threadStop k) s fun t =>
        slotAt t k = some { c with stage := .running (maskOf s m (fun x => x.run != .stopped)) } ∧
        t.thr n = { s.thr n with stopReq := true })) ∧
  (∀ k c s m, Begins 0x22 k c s → m = cmdP c.entry 0 →
    (∀ d, firstBad c.entry [0x7FFF] [] = some d → Runs (.threadReset k) s fun t =>
      Ended k c 2 (BitVec.ofNat 16 d) 0 t ∧ Only [.hg] s t) ∧
    (firstBad c.entry [0x7FFF] [] = none → Runs (.threadReset k) s fun t =>
      Ended k c 0 0 (maskOf s m (fun x => x.run = .dry)) t ∧ Only [.tur, .wdog, .hg, .seq, .due] s t ∧
      (∀ n, n < 15 → bit m n = false → t.thr n = s.thr n) ∧ t.thr 15 = s.thr 15 ∧
      ∀ n, n < 15 → bit m n = true → (t.thr n).run = .stopped ∧ (t.thr n).depth = 0 ∧ (t.thr n).safe = false ∧
        (t.thr n).spill = false ∧ (t.thr n).mon = false ∧
        (t.thr n).ctx = { clearFlow (s.thr n).ctx with
          hw := [], prod := [], pc := pcShown (s.thr n), pw := (s.thr n).ctx.pw.map (fun (p : PendWrite) => { p with safe := false }) }))

/-- IMAGE_LOAD, IMAGE_ACTIVATE and PATCH_APPLY. IMAGE_LOAD is refused with status 3 while a thread runs and with 7 for the active slot, reports what its first pass finds wrong, stages the image after applying its sections in order, and reports the sections applied and clears STAGED and PATCHVER.IMG where the second pass finds another CRC; IMAGE_ACTIVATE is refused without a staged image or where a thread of an autostart section may not start, and otherwise sets PATCHVER.IMG and starts those threads; PATCH_APPLY checks its CRC, the headworks version and the level, and writes words from 7,680 on. -/
def Obligations.ImageCommands : Prop :=
  (∀ k p1 p2 c s, Begins 0x10 k c s →
    (∀ d, firstBad c.entry [all32, 0xFFFF, all32, all32, 3] [badAddr c.entry 0] = some d → Runs (.imageLoad k p1 p2) s fun t =>
      Ended k c 2 (BitVec.ofNat 16 d) 0 t ∧ Only [.hg] s t) ∧
    (firstBad c.entry [all32, 0xFFFF, all32, all32, 3] [badAddr c.entry 0] = none →
      (lawStopped s = false → Runs (.imageLoad k p1 p2) s fun t => Ended k c 3 0 0 t ∧ Only [.hg] s t) ∧
      (lawStopped s = true → bit (cmdP c.entry 4) 0 = true → s.nvm.opt.actv = true → s.nvm.opt.active = bit (cmdP c.entry 4) 1 →
        Runs (.imageLoad k p1 p2) s fun t => Ended k c 7 0 0 t ∧ Only [.hg] s t) ∧
      (lawStopped s = true → bit (cmdP c.entry 4) 0 = false → p1 = .error →
        Runs (.imageLoad k p1 p2) s fun t => Ended k c 4 0 0 t ∧ Only [.hg] s t) ∧
      (∀ b l, lawStopped s = true → bit (cmdP c.entry 4) 0 = false → p1 = .okay b → l = padTo (cmdP c.entry 2).toNat b →
        (∀ st d, imageFault l (cmdP c.entry 2).toNat (cmdP c.entry 3) s.seq.verLib = some (st, d) →
          Runs (.imageLoad k p1 p2) s fun t => Ended k c st (BitVec.ofNat 16 d.toNat) 0 t ∧ Only [.hg] s t) ∧
        (imageFault l (cmdP c.entry 2).toNat (cmdP c.entry 3) s.seq.verLib = none →
          ∀ b2 l2, p2 = .okay b2 → l2 = padTo (cmdP c.entry 2).toNat b2 →
          (crc32c l2 = cmdP c.entry 3 → Runs (.imageLoad k p1 p2) s fun t =>
            Ended k c 0 0 (BitVec.ofNat 64 ((sectionsOf l).length + (lget l2 4).toNat * 2 ^ 32) &&& 0xFFFFFFFF) t ∧
            t.hg.staged = true ∧ t.hg.stagedSlot = none ∧ t.mem = (applyImage (sectionsOf l) l2 s).mem ∧
            t.rider = (applyImage (sectionsOf l) l2 s).rider ∧ t.gate = (applyImage (sectionsOf l) l2 s).gate ∧
            t.hg.autostart = (applyImage (sectionsOf l) l2 s).hg.loadAuto) ∧
          (crc32c l2 ≠ cmdP c.entry 3 → Runs (.imageLoad k p1 p2) s fun t =>
            Ended k c 5 0 (BitVec.ofNat 64 (sectionsOf l).length) t ∧ t.hg.staged = false ∧ t.seq.verImg = 0))))) ∧
  (∀ k c s, Begins 0x11 k c s →
    (∀ d, firstBad c.entry [1] [] = some d → Runs (.imageActivate k) s fun t => Ended k c 2 (BitVec.ofNat 16 d) 0 t ∧ Only [.hg] s t) ∧
    (firstBad c.entry [1] [] = none →
      (s.hg.staged = false ∨ (bit (cmdP c.entry 0) 0 = true ∧ s.hg.stagedSlot = none) ∨ (∃ p ∈ s.hg.autostart, startRefused s p = true) →
        Runs (.imageActivate k) s fun t => Ended k c 3 0 0 t ∧ Only [.hg] s t) ∧
      (s.hg.staged = true → bit (cmdP c.entry 0) 0 = false → (∀ p ∈ s.hg.autostart, startRefused s p = false) →
        Runs (.imageActivate k) s fun t =>
          Ended k c 0 0 (s.hg.stgver.zeroExtend 64) t ∧ t.seq.verImg = s.hg.stgver ∧ t.hg.staged = false ∧ t.hg.autostart = [] ∧
          Only [.hg, .seq] s t ∧
          ∀ p ∈ s.hg.autostart, startAllowed p = true → (∀ q ∈ s.hg.autostart, startThreadNo q = startThreadNo p → q = p) →
            (t.thr (startThreadNo p)).run = .ready ∧ (t.thr (startThreadNo p)).ctx.pc = fd (vget p 1 0) 0 16 ∧
            (t.thr (startThreadNo p)).ctx.priv = fd (vget p 0 0) 4 2 ∧ (t.thr (startThreadNo p)).ctx.dsl = vget p 3 0))) ∧
  (∀ k patch c s, Begins 0x12 k c s →
    (∀ d, firstBad c.entry [all32, 0xFFFF, all32, all32] [badAddr c.entry 0, false, (cmdP c.entry 2).toNat % 4 != 0 || decide ((cmdP c.entry 2).toNat < 8) || decide (2052 < (cmdP c.entry 2).toNat)] = some d → Runs (.patchApply k patch) s fun t => Ended k c 2 (BitVec.ofNat 16 d) 0 t ∧ Only [.hg] s t) ∧
    (firstBad c.entry [all32, 0xFFFF, all32, all32] [badAddr c.entry 0, false, (cmdP c.entry 2).toNat % 4 != 0 || decide ((cmdP c.entry 2).toNat < 8) || decide (2052 < (cmdP c.entry 2).toNat)] = none →
      (patch = .error → Runs (.patchApply k patch) s fun t => Ended k c 4 0 0 t ∧ Only [.hg] s t) ∧
      (∀ b l, patch = .okay b → l = padTo (cmdP c.entry 2).toNat b →
        (crc32c l ≠ cmdP c.entry 3 → Runs (.patchApply k patch) s fun t => Ended k c 5 0 0 t ∧ Only [.hg] s t) ∧
        (crc32c l = cmdP c.entry 3 → lget l 1 ≠ s.seq.verHw ∨ lget l 0 ≤ s.seq.verPatch →
          Runs (.patchApply k patch) s fun t => Ended k c 7 0 0 t ∧ Only [.hg] s t) ∧
        (crc32c l = cmdP c.entry 3 → lget l 1 = s.seq.verHw → s.seq.verPatch < lget l 0 → Memory.wf 0 s.mem.micro = true →
          Runs (.patchApply k patch) s fun t =>
            Ended k c 0 0 ((lget l 0).zeroExtend 64) t ∧ t.seq.verPatch = lget l 0 ∧ Only [.hg, .seq, .mem] s t ∧
            ∀ a : U16, microWord t a = if 7680 ≤ a.toNat ∧ a.toNat < 7680 + (words32 (l.drop 4)).length then
              (words32 (l.drop 4)).getD (a.toNat - 7680) 0 else microWord s a))))

/-- COEF_WRITE, SETPOINT, ARM, DISARM and REARM. COEF_WRITE writes its words to the pending bank in one fc and seals it where asked, and is refused past word 7 or while RDY is 1; SETPOINT stores its words, sets its condition bit as a SCONDSET of this fc where asked, is refused on the descriptor table and stops before an uncorrectable row; ARM takes its flumes in ascending order, writes TREF with T + k x STAGGER and arms those that R188 allows, where a higher-numbered flume of the same fc may lose its timer, and arms nothing in a shut; DISARM disarms and reports the armed ones, with FLUSH it flushes their outlets; REARM ends with status 0 where no shut is active, waits for the release, or ends with status 3 and SHUTSRC. -/
def Obligations.ControlCommands : Prop :=
  (∀ k c s n x f, Begins 0x30 k c s → n = (fd (cmdP c.entry 0) 0 5 : BitVec 5).toNat → f = (fd (cmdP c.entry 0) 5 3 : BitVec 3).toNat →
    x = withBoundary n s → boundaryDue x n = false → (x.flume n).pbAt ≠ x.clk.fc + 1 →
    (∀ d, firstBad c.entry (wordsAfter [0x1FFF] (coefCount c.entry)) [coefCount c.entry = 0 || decide (8 < coefCount c.entry)] = some d → Runs (.coefWrite k) s fun t =>
      Ended k c 2 (BitVec.ofNat 16 d) 0 t ∧ Only [.hg] s t) ∧
    (firstBad c.entry (wordsAfter [0x1FFF] (coefCount c.entry)) [coefCount c.entry = 0 || decide (8 < coefCount c.entry)] = none → 8 < f + coefCount c.entry ∨ (x.flume n).pb.rdy = true →
      Runs (.coefWrite k) s fun t => Ended k c 3 0 0 t ∧ t.fl = x.fl) ∧
    (firstBad c.entry (wordsAfter [0x1FFF] (coefCount c.entry)) [coefCount c.entry = 0 || decide (8 < coefCount c.entry)] = none → f + coefCount c.entry ≤ 8 → (x.flume n).pb.rdy = false →
      Runs (.coefWrite k) s fun t => Ended k c 0 0 0 t ∧
        (∀ i, i < 8 → vget (t.flume n).pb.pend i 0 = if f ≤ i ∧ i < f + coefCount c.entry then cmdP c.entry (1 + (i - f)) else vget (x.flume n).pb.pend i 0) ∧
        t.flume n = { x.flume n with
          pb := { (x.flume n).pb with pend := (t.flume n).pb.pend, rdy := bit (cmdP c.entry 0) 12 }
          pbAt := x.clk.fc + 1, pbOld := (x.flume n).pb, pbLog := (t.flume n).pbLog } ∧
        ∀ m, m ≠ n → t.flume m = x.flume m)) ∧
  (∀ k c s a l, Begins 0x31 k c s → a = (cmdP c.entry 0).toNat → l = setpointBytes c.entry →
    (∀ d, firstBad c.entry (wordsAfter [all32, 0xF1F] (fd (cmdP c.entry 1) 0 4 : BitVec 4).toNat) [(cmdP c.entry 0).toNat % 4 != 0 || decide (0x100000 < (cmdP c.entry 0).toNat + 4 * (fd (cmdP c.entry 1) 0 4 : BitVec 4).toNat), (fd (cmdP c.entry 1) 0 4 : BitVec 4).toNat = 0 || decide (12 < (fd (cmdP c.entry 1) 0 4 : BitVec 4).toNat)] = some d → Runs (.setpoint k) s fun t =>
      Ended k c 2 (BitVec.ofNat 16 d) 0 t ∧ Only [.hg] s t) ∧
    (firstBad c.entry (wordsAfter [all32, 0xF1F] (fd (cmdP c.entry 1) 0 4 : BitVec 4).toNat) [(cmdP c.entry 0).toNat % 4 != 0 || decide (0x100000 < (cmdP c.entry 0).toNat + 4 * (fd (cmdP c.entry 1) 0 4 : BitVec 4).toNat), (fd (cmdP c.entry 1) 0 4 : BitVec 4).toNat = 0 || decide (12 < (fd (cmdP c.entry 1) 0 4 : BitVec 4).toNat)] = none →
      (inExcTable s a l.length = true → Runs (.setpoint k) s fun t => Ended k c 7 0 0 t ∧ Only [.hg] s t) ∧
      (∀ r, inExcTable s a l.length = false → (granules a l.length).find? (fun r => marked r s.mem.badRow && !(decide (a ≤ 16 * r) && decide (16 * r + 16 ≤ a + l.length))) = some r →
        Runs (.setpoint k) s fun t => Ended k c 6 0 0 t ∧ Only [.hg, .seq, .mem] s t ∧ t.mem.data = memWrite s.mem.data a (l.take (16 * r - a))) ∧
      (inExcTable s a l.length = false → partBad s a l.length = false →
        Runs (.setpoint k) s fun t => Ended k c 0 0 0 t ∧ Only [.hg, .seq, .mem] s t ∧ t.mem.data = memWrite s.mem.data a l ∧
          (bit (cmdP c.entry 1) 4 = false → t.seq.scond = s.seq.scond) ∧
          (bit (cmdP c.entry 1) 4 = true →
            t.seq.scond = (writeScond none (1#16 <<< (fd (cmdP c.entry 1) 8 4 : BitVec 4).toNat) 0 s).seq.scond ∧
            (s.seq.scondAt ≠ s.clk.fc + 1 →
              t.seq.scond = setBit s.seq.scond (fd (cmdP c.entry 1) 8 4 : BitVec 4).toNat true))))) ∧
  (∀ k c s m, Begins 0x40 k c s → m = cmdP c.entry 0 →
    (∀ d, firstBad c.entry [all32, all32, 0xFF, all32] [] = some d → Runs (.arm k) s fun t =>
      Ended k c 2 (BitVec.ofNat 16 d) 0 t ∧ Only [.hg] s t) ∧
    (firstBad c.entry [all32, all32, 0xFF, all32] [] = none → s.shut.active = true → Runs (.arm k) s fun t => Ended k c 3 0 0 t ∧ Only [.hg] s t) ∧
    (∀ (v : Nat → U40) (ok : Nat → Bool), firstBad c.entry [all32, all32, 0xFF, all32] [] = none → s.shut.active = false →
      v = (fun n => (fd (cmdP c.entry 2) 0 8 ++ cmdP c.entry 1) + BitVec.ofInt 40 ((flumesOf m).idxOf n * (cmdP c.entry 3).toInt)) →
      ok = (fun n => !(s.flume n).arm && canArm s { s.flume n with tref := v n ++ fd (s.flume n).tref 0 16 }) →
      Runs (.arm k) s fun t =>
        Ended k c (if (flumesOf m).all ok then 0 else 3) 0
          (bitsFrom 64 (fun i => if i < 32 then bit m i && ok i else bit m (i - 32) && !ok (i - 32))) t ∧
        (∀ n, n ∉ flumesOf m → LosesTimer (s.flume n) (t.flume n)) ∧
        (∀ n ∈ flumesOf m, ok n = true → (t.flume n).arm = true ∧ (t.flume n).tref = (v n ++ fd (s.flume n).tref 0 16) &&& ~~~0xFFFF#56) ∧
        (∀ n ∈ flumesOf m, ok n = false → (s.flume n).arm = true → LosesTimer (s.flume n) (t.flume n)) ∧
        (∀ n ∈ flumesOf m, ok n = false → (s.flume n).arm = false → (t.flume n).arm = false))) ∧
  (∀ k c s m, Begins 0x41 k c s → m = cmdP c.entry 0 →
    (∀ d, firstBad c.entry [all32, 1] [] = some d → Runs (.disarm k) s fun t =>
      Ended k c 2 (BitVec.ofNat 16 d) 0 t ∧ Only [.hg] s t) ∧
    (firstBad c.entry [all32, 1] [] = none → Runs (.disarm k) s fun t =>
      Ended k c 0 0 (bitsFrom 64 (fun n => decide (n < 32) && bit m n && (s.flume n).arm)) t ∧
      (∀ n, n < 32 → bit m n = true → (t.flume n).arm = false) ∧
      (∀ n, n < 32 → bit m n = false → t.flume n = s.flume n) ∧
      (bit (cmdP c.entry 1) 0 = false → t.out = s.out) ∧
      (∀ n, n < 32 → bit m n = true → bit (cmdP c.entry 1) 0 = true → (s.flume n).out.toNat < 96 →
        (t.outlet (s.flume n).out.toNat).queue = [] ∧ (t.outlet (s.flume n).out.toNat).flushAt = s.clk.fc + 1))) ∧
  (∀ k c s g, g = vmap s.gate (fun _ g => if g.en && g.rar then { g with restart := true } else g) →
    (Begins 0x42 k c s → firstBad c.entry [] [] = none →
      (s.shut.active = false → Runs (.rearm k) s fun t => Ended k c 0 0 0 t ∧ Only [.hg] s t) ∧
      (s.shut.active = true → levelSources { s with gate := g } = 0 → Runs (.rearm k) s fun t =>
        slotAt t k = some { c with stage := .running 0 } ∧ t.shut = { s.shut with
          link := s.shut.link && s.shut.linkAt = s.clk.fc + 1, wdog := s.shut.wdog && s.shut.wdogAt = s.clk.fc + 1
          releaseAt := some (max (s.clk.fc + 1) (s.shut.sAt + 2)) }) ∧
      (s.shut.active = true → levelSources { s with gate := g } ≠ 0 → s.shut.releaseAt = none → Runs (.rearm k) s fun t =>
        Ended k c 3 0 ((shutSources (rearm s)).zeroExtend 64) t ∧ t.shut = { s.shut with rfail := true } ∧ SrcRaised 428 t)) ∧
    (∀ a, slotAt s k = some c → inRun s = true → serving s = true → (cmdOp c.entry).toNat = 0x42 → c.stage = .running a →
      (s.shut.active = false → Runs (.rearm k) s fun t => Ended k c 0 0 0 t ∧ Only [.hg] s t) ∧
      (s.shut.active = true → s.shut.releaseAt = none → Runs (.rearm k) s fun t =>
        Ended k c 3 0 ((shutSources s).zeroExtend 64) t ∧ Only [.hg] s t) ∧
      (s.shut.active = true → s.shut.releaseAt.isSome = true → Runs (.rearm k) s fun t => t = s)))

/-- LINK_ENUM, LINK_ROLE, LINK_SEND, LEDGER_READ and LEDGER_BIND. LINK_ENUM is refused at a node that is not the water master, answers the last count, or ends once every down port has reported, with the nodes and the depth; LINK_ROLE sets the role, answers the previous one and persists it where asked and not locked; LINK_SEND ends with status 0x12 where the block has no node ID or no route, with 4 for an unreadable payload, at once for the own node, and else waits for its frames; LEDGER_READ writes the 2,304 bytes of the record, and ends with status 4 where those writes end with an error response; LEDGER_BIND needs a loaded ledger, keeps, leaves, takes up or opens a record, and answers its index. -/
def Obligations.LinkAndLedgerCommands : Prop :=
  (∀ k c s, Begins 0x50 k c s →
    (∀ d, firstBad c.entry [1] [] = some d → Runs (.linkEnum k) s fun t =>
      Ended k c 2 (BitVec.ofNat 16 d) 0 t ∧ Only [.hg] s t) ∧
    (firstBad c.entry [1] [] = none →
      (s.link.master = false → Runs (.linkEnum k) s fun t => Ended k c 3 0 0 t ∧ Only [.hg] s t) ∧
      (s.link.master = true → bit (cmdP c.entry 0) 0 = false → Runs (.linkEnum k) s fun t =>
        Ended k c 0 0 (s.link.enumNodes.zeroExtend 64 ||| (s.link.enumDepth.zeroExtend 64 <<< 16)) t ∧ Only [.hg] s t) ∧
      (s.link.master = true → bit (cmdP c.entry 0) 0 = true → subtree s = none → Runs (.linkEnum k) s fun t =>
        slotAt t k = some { c with stage := .running 0 } ∧ t.link = { s.link with enumRun := true } ∧ Only [.hg, .link] s t) ∧
      (∀ n h w, s.link.master = true → bit (cmdP c.entry 0) 0 = true → subtree s = some (n, h, w) → Runs (.linkEnum k) s fun t =>
        Ended k c (if 12 < h ∨ 16384 < n then 0x12 else 0) 0
          ((BitVec.ofNat 15 (min w 16384)).zeroExtend 64 ||| ((BitVec.ofNat 4 (min h 12)).zeroExtend 64 <<< 16)) t ∧
        t.link.enumRun = false ∧ t.link.node = 0 ∧ t.link.valid = true ∧ t.link.depth = 0 ∧ Only [.tur, .hg, .link] s t))) ∧
  (∀ k c s, Begins 0x51 k c s →
    (∀ d, firstBad c.entry [0x103] [] = some d → Runs (.linkRole k) s fun t =>
      Ended k c 2 (BitVec.ofNat 16 d) 0 t ∧ Only [.hg] s t) ∧
    (firstBad c.entry [0x103] [] = none →
      (bit (cmdP c.entry 0) 8 = true → s.nvm.opt.rolelock = true → Runs (.linkRole k) s fun t => Ended k c 7 0 0 t ∧ Only [.hg] s t) ∧
      (bit (cmdP c.entry 0) 8 = false → Runs (.linkRole k) s fun t =>
        Ended k c 0 0 (s.link.role.zeroExtend 64) t ∧ t.link = { s.link with role := fd (cmdP c.entry 0) 0 2 } ∧ Only [.hg, .link] s t) ∧
      (bit (cmdP c.entry 0) 8 = true → s.nvm.opt.rolelock = false → s.nvm.run.isSome = true → Runs (.linkRole k) s fun t =>
        Ended k c 0 0 (s.link.role.zeroExtend 64) t ∧ t.link = { s.link with role := fd (cmdP c.entry 0) 0 2 } ∧
        { who := .option (.role (fd (cmdP c.entry 0) 0 2)) } ∈ t.nvm.jobs ∧ t.nvm.run = s.nvm.run ∧ Only [.hg, .link, .nvm] s t))) ∧
  (∀ k pay c s dst, Begins 0x52 k c s → dst = fd (cmdP c.entry 0) 0 14 →
    (∀ d, firstBad c.entry [0x373FFF, all32, 0xFFFF, all32] [(fd (cmdP c.entry 0) 16 3 != (3 : BitVec 3) && fd (cmdP c.entry 0) 16 3 != (5 : BitVec 3)) || fd (cmdP c.entry 0) 20 2 = (0 : BitVec 2), badAddr c.entry 1, false, (cmdP c.entry 3).toNat = 0 || decide (1248 < (cmdP c.entry 3).toNat)] = some d → Runs (.linkSend k pay) s fun t => Ended k c 2 (BitVec.ofNat 16 d) 0 t ∧ Only [.hg] s t) ∧
    (firstBad c.entry [0x373FFF, all32, 0xFFFF, all32] [(fd (cmdP c.entry 0) 16 3 != (3 : BitVec 3) && fd (cmdP c.entry 0) 16 3 != (5 : BitVec 3)) || fd (cmdP c.entry 0) 20 2 = (0 : BitVec 2), badAddr c.entry 1, false, (cmdP c.entry 3).toNat = 0 || decide (1248 < (cmdP c.entry 3).toNat)] = none →
      (s.link.valid = false ∨ (dst ≠ s.link.node ∧ routeOf s dst = none) → Runs (.linkSend k pay) s fun t => Ended k c 0x12 0 0 t ∧ Only [.hg] s t) ∧
      (s.link.valid = true → dst = s.link.node ∨ (∃ p, routeOf s dst = some p) → pay = .error → Runs (.linkSend k pay) s fun t =>
        Ended k c 4 0 0 t ∧ Only [.hg] s t) ∧
      (∀ b, s.link.valid = true → dst = s.link.node → pay = .okay b → Runs (.linkSend k pay) s fun t =>
        Ended k c 0 0 (BitVec.ofNat 64 (cmdP c.entry 3).toNat) t ∧ t.link.msgid = s.link.msgid + 1 ∧ Only [.hg, .link] s t) ∧
      (∀ b p, s.link.valid = true → dst ≠ s.link.node → routeOf s dst = some p → pay = .okay b → Runs (.linkSend k pay) s fun t =>
        slotAt t k = some { c with stage := .running 0 } ∧ t.link.msgid = s.link.msgid + 1 ∧ Only [.hg, .link] s t))) ∧
  (∀ k err c s, Begins 0x60 k c s →
    (∀ d, firstBad c.entry [0x3F, all32, 0xFFFF] [false, badAddr c.entry 1] = some d → Runs (.ledgerRead ⟨k, err⟩) s fun t =>
      Ended k c 2 (BitVec.ofNat 16 d) 0 t ∧ Only [.hg] s t) ∧
    (firstBad c.entry [0x3F, all32, 0xFFFF] [false, badAddr c.entry 1] = none →
      (err = true → Runs (.ledgerRead ⟨k, err⟩) s fun t => Ended k c 4 0 0 t ∧ Only [.hg] s t) ∧
      (err = false → Runs (.ledgerRead ⟨k, err⟩) s fun t =>
        Ended k c 0 0 2304 t ∧ Only [.hg, .mem] s t ∧ t.mem = { s.mem with
          host := memWrite s.mem.host (fd (cmdP c.entry 2) 0 16 ++ cmdP c.entry 1 : U48).toNat
            (memRead s.mem.ledger (recAt (fd (cmdP c.entry 0) 0 6 : BitVec 6).toNat) 2304) }))) ∧
  (∀ k c s n (id : U64) x y, Begins 0x61 k c s → n = (fd (cmdP c.entry 0) 0 4 : BitVec 4).toNat → id = (cmdP c.entry 2 ++ cmdP c.entry 1 : BitVec 64) →
    x = processTemp n s → y = (if (x.lgch n).bound then leaveRecord n x else x) →
    (∀ d, firstBad c.entry [0x10F, all32, all32] [] = some d → Runs (.ledgerBind k) s fun t =>
      Ended k c 2 (BitVec.ofNat 16 d) 0 t ∧ Only [.hg] s t) ∧
    (firstBad c.entry [0x10F, all32, all32] [] = none →
      (s.lg.loaded = false → Runs (.ledgerBind k) s fun t => Ended k c 3 0 0 t ∧ Only [.hg] s t) ∧
      (s.lg.loaded = true → (x.lgch n).bound = true → recId x (x.lgch n).record.toNat = id → bit (cmdP c.entry 0) 8 = false →
        Runs (.ledgerBind k) s fun t => Ended k c 0 0 ((x.lgch n).record.zeroExtend 64) t ∧ t.lg = x.lg ∧ t.mem = x.mem) ∧
      (s.lg.loaded = true → ¬((x.lgch n).bound = true ∧ recId x (x.lgch n).record.toNat = id ∧ bit (cmdP c.entry 0) 8 = false) →
        (id = 0 → Runs (.ledgerBind k) s fun t => Ended k c 0 0 0xFF t ∧ t.lg = y.lg ∧ t.mem = y.mem) ∧
        (id ≠ 0 → records.any (fun r => recState y r = 1 && recId y r = id) = true →
          Runs (.ledgerBind k) s fun t => Ended k c 3 0 0 t ∧ t.lg = y.lg ∧ t.mem = y.mem) ∧
        (∀ r l, id ≠ 0 → records.any (fun r => recState y r = 1 && recId y r = id) = false → bit (cmdP c.entry 0) 8 = false →
          records.filter (fun r => recState y r = 2 && recId y r = id) = r :: l →
          (bit (recFlags y r) 4 ≠ (y.lgch n).mode → Runs (.ledgerBind k) s fun t => Ended k c 3 0 0 t ∧ t.lg = y.lg ∧ t.mem = y.mem) ∧
          (bit (recFlags y r) 4 = (y.lgch n).mode → Runs (.ledgerBind k) s fun t => Ended k c 0 0 (BitVec.ofNat 64 r) t ∧
            (t.lgch n).bound = true ∧ (t.lgch n).record = BitVec.ofNat 6 r ∧ ∀ m, m ≠ n → t.lgch m = y.lgch m)) ∧
        (∀ r, id ≠ 0 → records.any (fun r => recState y r = 1 && recId y r = id) = false → bit (cmdP c.entry 0) 8 = false →
          records.filter (fun r => recState y r = 2 && recId y r = id) = [] →
          (newSlot y = none → Runs (.ledgerBind k) s fun t => Ended k c 3 0 0 t ∧ t.lg = y.lg ∧ t.mem = y.mem) ∧
          (newSlot y = some (r, false) → Runs (.ledgerBind k) s fun t => Ended k c 0 0 (BitVec.ofNat 64 r) t ∧
            (t.lgch n).bound = true ∧ (t.lgch n).record = BitVec.ofNat 6 r ∧ ∀ m, m ≠ n → t.lgch m = y.lgch m) ∧
          (newSlot y = some (r, true) → Runs (.ledgerBind k) s fun t => Ended k c 0 0 (BitVec.ofNat 64 r) t ∧
            (t.lgch n).bound = true ∧ (t.lgch n).record = BitVec.ofNat 6 r)))))

/-- NVM_ERASE, NVM_PROGRAM, NVM_READ and the suspension bit. A range past the macro ends with status 2 and DETAIL 8; a protected range ends with status 7, sets PREF and raises 391; an erase or a program joins the jobs while another operation runs, begins at once when none does, ends with status 0x11 at a retired sector, and a program ends with status 0x10 where its first unit is not erased and with 4 for an unreadable source; a read waits while its bank is under an operation and else writes its units with the counts of corrected and uncorrectable ones, or ends with status 4 where those writes end with an error response. A permitted write of NVMSUSP sets SUSPREQ; the controller suspends the running operation after MINRUN and resumes it. -/
def Obligations.NvmCommands : Prop :=
  (∀ k c s a n, Begins 0x70 k c s → a = (cmdP c.entry 0).toNat / 16384 → n = (cmdP c.entry 1).toNat →
    (∀ d, firstBad c.entry [all32, all32] [fd (cmdP c.entry 0) 0 14 != (0 : BitVec 14), (cmdP c.entry 1).toNat = 0 || decide (2048 < (cmdP c.entry 1).toNat)] = some d → Runs (.nvmErase k) s fun t =>
      Ended k c 2 (BitVec.ofNat 16 d) 0 t ∧ Only [.hg] s t) ∧
    (firstBad c.entry [all32, all32] [fd (cmdP c.entry 0) 0 14 != (0 : BitVec 14), (cmdP c.entry 1).toNat = 0 || decide (2048 < (cmdP c.entry 1).toNat)] = none →
      (sectorsOf s.nvm.opt < a + n → Runs (.nvmErase k) s fun t => Ended k c 2 8 0 t ∧ Only [.hg] s t) ∧
      (a + n ≤ sectorsOf s.nvm.opt → protectedRange s a n = true → Runs (.nvmErase k) s fun t =>
        Ended k c 7 0 0 t ∧ t.nvm = { s.nvm with pref := true } ∧ SrcRaised 391 t) ∧
      (a + n ≤ sectorsOf s.nvm.opt → protectedRange s a n = false → s.nvm.run.isSome = true → Runs (.nvmErase k) s fun t =>
        slotAt t k = some { c with stage := .running 0 } ∧ t.nvm = { s.nvm with jobs := s.nvm.jobs ++ [{ who := .cmd c.seq, ops := (List.range n).map (fun i => NvmOp.erase none (a + i)) }] }) ∧
      (a + n ≤ sectorsOf s.nvm.opt → protectedRange s a n = false → s.nvm.run = none → s.nvm.jobs = [] → roRetired s.nvm.opt a = false →
        Runs (.nvmErase k) s fun t => slotAt t k = some { c with stage := .running 0 } ∧ t.nvm.jobs = [{ who := .cmd c.seq, ops := (List.range n).map (fun i => NvmOp.erase none (a + i)) }] ∧
          t.nvm.run = some { pulses := 0, since := s.clk.fc, susp := false } ∧ marked (placeOf s.nvm.opt a).sec t.nvm.undefSec = true ∧
          ∀ u, u / 512 = (placeOf s.nvm.opt a).sec → aget u t.nvm.units = none) ∧
      (a + n ≤ sectorsOf s.nvm.opt → protectedRange s a n = false → s.nvm.run = none → s.nvm.jobs = [] → roRetired s.nvm.opt a = true →
        slotOfSeq s c.seq = some c → Runs (.nvmErase k) s fun t => Ended k c 0x11 (BitVec.ofNat 16 a) 0 t ∧
          t.nvm = { s.nvm with failSector := BitVec.ofNat 11 a, failCause := 4, failPulses := 0 }))) ∧
  (∀ k src c s o n, Begins 0x71 k c s → o = (cmdP c.entry 0).toNat → n = (cmdP c.entry 3).toNat →
    (∀ d, firstBad c.entry [all32, all32, 0xFFFF, all32] (badTransfer c.entry) = some d → Runs (.nvmProgram k src) s fun t => Ended k c 2 (BitVec.ofNat 16 d) 0 t ∧ Only [.hg] s t) ∧
    (firstBad c.entry [all32, all32, 0xFFFF, all32] (badTransfer c.entry) = none →
      (nvmBytes s < o + n → Runs (.nvmProgram k src) s fun t => Ended k c 2 8 0 t ∧ Only [.hg] s t) ∧
      (o + n ≤ nvmBytes s → protectedRange s (o / 16384) ((o + n + 16383) / 16384 - o / 16384) = true → Runs (.nvmProgram k src) s fun t =>
        Ended k c 7 0 0 t ∧ t.nvm = { s.nvm with pref := true } ∧ SrcRaised 391 t) ∧
      (o + n ≤ nvmBytes s → protectedRange s (o / 16384) ((o + n + 16383) / 16384 - o / 16384) = false → src = .error →
        Runs (.nvmProgram k src) s fun t => Ended k c 4 0 0 t ∧ Only [.hg] s t) ∧
      (∀ b, o + n ≤ nvmBytes s → protectedRange s (o / 16384) ((o + n + 16383) / 16384 - o / 16384) = false → src = .okay b →
        (s.nvm.run.isSome = true → Runs (.nvmProgram k src) s fun t =>
          slotAt t k = some { c with stage := .running 0 } ∧ t.nvm = { s.nvm with jobs := s.nvm.jobs ++ [{ who := .cmd c.seq, ops := programOps o (padTo n b) true }] }) ∧
        (s.nvm.run = none → s.nvm.jobs = [] →
          (roRetired s.nvm.opt (o / 32 / 512) = true → slotOfSeq s c.seq = some c → Runs (.nvmProgram k src) s fun t =>
            Ended k c 0x11 (BitVec.ofNat 16 (o / 32 / 512)) 0 t ∧
            t.nvm = { s.nvm with failSector := BitVec.ofNat 11 (o / 32 / 512), failCause := 4, failPulses := 0 }) ∧
          (∀ r x, roRetired s.nvm.opt (o / 32 / 512) = false → readUnit (placeOf s.nvm.opt (o / 32 / 512)) (o / 32 % 512) s = (r, x) →
            (r.erased = true → Runs (.nvmProgram k src) s fun t => slotAt t k = some { c with stage := .running 0 } ∧ t.nvm.jobs = [{ who := .cmd c.seq, ops := programOps o (padTo n b) true }] ∧
              t.nvm.run = some { pulses := 0, since := s.clk.fc, susp := false } ∧
              marked ((placeOf s.nvm.opt (o / 32 / 512)).key (o / 32 % 512)) t.nvm.undefUnit = true) ∧
            (r.erased = false → slotOfSeq s c.seq = some c → Runs (.nvmProgram k src) s fun t =>
              Ended k c 0x10 (BitVec.ofNat 16 (o / 32 / 512)) 0 t ∧ t.nvm.jobs = [] ∧ t.nvm.run = none ∧
              t.nvm.failSector = BitVec.ofNat 11 (o / 32 / 512) ∧ t.nvm.failCause = 3 ∧ t.nvm.failPulses = 0)))))) ∧
  (∀ k err c s o n (a : U48), Begins 0x72 k c s → o = (cmdP c.entry 0).toNat → n = (cmdP c.entry 3).toNat → a = fd (cmdP c.entry 2) 0 16 ++ cmdP c.entry 1 →
    (∀ d, firstBad c.entry [all32, all32, 0xFFFF, all32] (badTransfer c.entry) = some d → Runs (.nvmRead ⟨k, err⟩) s fun t =>
      Ended k c 2 (BitVec.ofNat 16 d) 0 t ∧ Only [.hg] s t) ∧
    (firstBad c.entry [all32, all32, 0xFFFF, all32] (badTransfer c.entry) = none →
      (nvmBytes s < o + n → Runs (.nvmRead ⟨k, err⟩) s fun t => Ended k c 2 8 0 t ∧ Only [.hg] s t) ∧
      (o + n ≤ nvmBytes s → rangeBusy s o n = true → Runs (.nvmRead ⟨k, err⟩) s fun t => t = s) ∧
      (∀ l cor unc sec x, o + n ≤ nvmBytes s → rangeBusy s o n = false → readUnits (n / 32) (o / 32) s = ((l, cor, unc, sec), x) →
        (err = false → Runs (.nvmRead ⟨k, err⟩) s fun t =>
          Ended k c (if unc = 0 then 0 else 6) (BitVec.ofNat 16 (sec.getD 0))
            (BitVec.ofNat 64 (n + cor % 2 ^ 16 * 2 ^ 32 + unc % 2 ^ 16 * 2 ^ 48)) t ∧
          t.mem.host = memWrite s.mem.host a.toNat l ∧ t.nvm = x.nvm) ∧
        (err = true → Runs (.nvmRead ⟨k, err⟩) s fun t => Ended k c 4 0 0 t ∧ t.mem.host = s.mem.host ∧ t.nvm = x.nvm)))) ∧
  (∀ s, coreOff s = false →
    (s.nvm.run = none → (Runs .nvmSuspend s fun t => t = s) ∧ Runs .nvmResume s fun t => t = s) ∧
    (∀ r, s.nvm.run = some r →
      (r.susp = false → s.nvm.suspReq = true ∨ nvmWaiting s (runBank s) = true → s.nvm.minrun.toNat * 2000 ≤ s.clk.fc - r.since →
        Runs .nvmSuspend s fun t => t.nvm = { s.nvm with run := some { r with susp := true } } ∧ Only [.nvm] s t) ∧
      (r.susp = true ∨ (s.nvm.suspReq = false ∧ nvmWaiting s (runBank s) = false) ∨ s.clk.fc - r.since < s.nvm.minrun.toNat * 2000 →
        Runs .nvmSuspend s fun t => t = s) ∧
      (r.susp = true → s.nvm.suspReq = false → nvmWaiting s (runBank s) = false →
        Runs .nvmResume s fun t => t.nvm = { s.nvm with run := some { r with susp := false, since := s.clk.fc } } ∧ Only [.nvm] s t) ∧
      (r.susp = false ∨ s.nvm.suspReq = true ∨ nvmWaiting s (runBank s) = true → Runs .nvmResume s fun t => t = s))) ∧
  (∀ w v s, MayWrite w 0x25004 s → Runs (.nvmSuspWrite w v) s fun t => t.nvm = { s.nvm with suspReq := bit v 0 })

/-- POWER_STATE and DEBUG_POLICY. POWER_STATE to RUN ends with status 0; to DOZE it enters DOZE with its wake enables; to SLEEP or DEEP it ends with status 3 where the state refuses it, and else sets TRANS and WAKEEN and either waits until the block is quiet or stops the clocks with every outlet held at its SAFE level. DEBUG_POLICY ends with status 7 and the old level where a locked policy would be raised, and else writes POLMAX and LOCK, raises 445 on a change, and takes the granted level down to POLMAX. -/
def Obligations.PowerStateAndPolicy : Prop :=
  (∀ k c s, Begins 0x80 k c s →
    (∀ d, firstBad c.entry [3, 0x3F] [] = some d → Runs (.powerState k) s fun t => Ended k c 2 (BitVec.ofNat 16 d) 0 t ∧ Only [.hg] s t) ∧
    (firstBad c.entry [3, 0x3F] [] = none →
      ((fd (cmdP c.entry 0) 0 2 : BitVec 2) = 0 → Runs (.powerState k) s fun t => Ended k c 0 0 0 t ∧ Only [.hg] s t) ∧
      ((fd (cmdP c.entry 0) 0 2 : BitVec 2) = 1 → Runs (.powerState k) s fun t =>
        t.pwr.st = .doze ∧ t.pwr.trans = false ∧ t.pwr.wakeen = fd (cmdP c.entry 1) 0 6 ∧ Only [.tur, .hg, .mem, .link, .pwr] s t) ∧
      (∀ w, (fd (cmdP c.entry 0) 0 2 : BitVec 2) = 2 ∧ w = PowerState.sleep ∨ (fd (cmdP c.entry 0) 0 2 : BitVec 2) = 3 ∧ w = PowerState.deep →
        (sleepRefused s = true → Runs (.powerState k) s fun t => Ended k c 3 0 0 t ∧ Only [.hg] s t) ∧
        (sleepRefused s = false → Runs (.powerState k) s fun t =>
          (t.pwr = { s.pwr with trans := true, wakeen := fd (cmdP c.entry 1) 0 6 } ∧ quiet t = false ∧ t.clk = s.clk) ∨
          (t.clk.running = false ∧ t.pwr.st = w ∧ t.pwr.trans = false ∧ t.pwr.plllock = false ∧ t.pwr.wakeen = fd (cmdP c.entry 1) 0 6 ∧
          ∀ n : Fin 96, (t.outlet n).padHold = some (s.outlet n).safe))))) ∧
  (∀ k c s new lock, Begins 0xA0 k c s → new = (fd (cmdP c.entry 0) 0 2 : BitVec 2) → lock = (s.dbg.pollock || bit (cmdP c.entry 0) 8) →
    (∀ d, firstBad c.entry [0x103] [] = some d → Runs (.debugPolicy k) s fun t => Ended k c 2 (BitVec.ofNat 16 d) 0 t ∧ Only [.hg] s t) ∧
    (firstBad c.entry [0x103] [] = none →
      (s.dbg.pollock = true → s.dbg.polmax < new → Runs (.debugPolicy k) s fun t => Ended k c 7 0 (s.dbg.polmax.zeroExtend 64) t ∧ Only [.hg] s t) ∧
      (s.dbg.pollock = false ∨ ¬ s.dbg.polmax < new → Runs (.debugPolicy k) s fun t =>
        Ended k c 0 0 (s.dbg.polmax.zeroExtend 64) t ∧ t.dbg.polmax = new ∧ t.dbg.pollock = lock ∧
        t.dbg.level = (if new < s.dbg.level then new else s.dbg.level) ∧
        (¬ new < s.dbg.level → new ≠ s.dbg.polmax ∨ lock ≠ s.dbg.pollock → SrcRaised 445 t))))

/-- BIST_RUN, DBIST, the ends of the tests and the reset after them. BIST_RUN and a write of DBIST with GO set are refused where the state forbids them (status 3; REFD and source 431); an accepted start waits until the block is quiet and no thread is in safe mode, or stops the clocks, holds every outlet at SAFE, copies the Gauge and its ratio into AO and sets the phase of the first test. The ends of the tests write the signatures, compare them with the stored ones and set VALID; the reset that follows keeps the results, the NVM and the held pads, sets bit 6 of RSTCAUSE and starts the boot with restored values. -/
def Obligations.BistComplete : Prop :=
  (∀ k c s, Begins 0x90 k c s →
    (∀ d, firstBad c.entry [3] [decide (fd (cmdP c.entry 0) 0 2 = (0 : BitVec 2))] = some d → Runs (.bistRun k) s fun t =>
      Ended k c 2 (BitVec.ofNat 16 d) 0 t ∧ Only [.hg] s t) ∧
    (firstBad c.entry [3] [decide (fd (cmdP c.entry 0) 0 2 = (0 : BitVec 2))] = none →
      (bistRefused s = true → Runs (.bistRun k) s fun t => Ended k c 3 0 0 t ∧ Only [.hg] s t) ∧
      (bistRefused s = false → Runs (.bistRun k) s fun t =>
        ((t.bist.starting = true ∧ t.bist.wantLogic = bit (cmdP c.entry 0) 0 ∧ t.bist.wantMem = bit (cmdP c.entry 0) 1 ∧ (quiet t = false ∨ t.seq.safeThr ≠ none) ∧ t.clk = s.clk) ∨
        (t.clk.running = false ∧ t.bist.starting = false ∧ t.bist.valid = false ∧ t.bist.phase = (if bit (cmdP c.entry 0) 0 then BistPhase.logic else .memory) ∧
          t.bist.pend = true ∧ t.pwr.aoGauge = s.clk.gauge ∧ t.pwr.aoRatio = s.gp.ratio ∧ ∀ n : Fin 96, (t.outlet n).padHold = some (s.outlet n).safe))))) ∧
  (∀ v s, 2 ≤ s.dbg.level.toNat →
    (bit v 2 = false → Runs (.dbist v) s fun t => t = respond 0 v s) ∧
    (bit v 2 = true → bistRefused s = true ∨ (bistCmd s).isSome = true ∨ fd v 0 2 = (0 : BitVec 2) → Runs (.dbist v) s fun t =>
      t.bist = { s.bist with refd := true } ∧ (coreOff s = false → SrcRaised 431 t) ∧ Only [.bist, .tur, .dbg] s t) ∧
    (bit v 2 = true → bistRefused s = false → bistCmd s = none → fd v 0 2 ≠ (0 : BitVec 2) → Runs (.dbist v) s fun t =>
      ((t.bist.starting = true ∧ t.bist.wantLogic = bit v 0 ∧ t.bist.wantMem = bit v 1 ∧ (quiet t = false ∨ t.seq.safeThr ≠ none) ∧ t.clk = s.clk) ∨
        (t.clk.running = false ∧ t.bist.starting = false ∧ t.bist.valid = false ∧ t.bist.phase = (if bit v 0 then BistPhase.logic else .memory) ∧
          t.pwr.aoGauge = s.clk.gauge ∧ t.pwr.aoRatio = s.gp.ratio ∧ ∀ n : Fin 96, (t.outlet n).padHold = some (s.outlet n).safe)))) ∧
  (∀ misr s,
    (s.bist.phase ≠ .logic → Runs (.logicBistDone misr) s fun t => t = s) ∧
    (s.bist.phase = .logic → ∀ b, b = { s.bist with
        logicSig := misr, lrun := true, lnoref := s.nvm.opt.bistLogic = 0
        lmis := s.nvm.opt.bistLogic != 0 && misr != s.nvm.opt.bistLogic } →
      (s.bist.wantMem = true → Runs (.logicBistDone misr) s fun t => t = { s with bist := { b with phase := .memory } }) ∧
      (s.bist.wantMem = false → Runs (.logicBistDone misr) s fun t =>
        t.bist = { b with valid := true, phase := .reset, time := t.bist.time } ∧ Only [.bist, .free] s t))) ∧
  (∀ misr mfail ms s,
    (s.bist.phase ≠ .memory → Runs (.memoryBistDone misr mfail ms) s fun t => t = s) ∧
    (s.bist.phase = .memory → Runs (.memoryBistDone misr mfail ms) s fun t => t = { s with bist := { s.bist with
        memSig := misr, mrun := true, mfail := mfail, mnoref := s.nvm.opt.bistMem = 0
        mmis := mfail != 0 || (s.nvm.opt.bistMem != 0 && misr != s.nvm.opt.bistMem)
        valid := true, time := ms, phase := .reset } })) ∧
  (∀ s,
    (s.bist.phase ≠ .reset → Runs .postBistReset s fun t => t = s) ∧
    (s.bist.phase = .reset → Runs .postBistReset s fun t =>
      t.bist = { s.bist with phase := .idle } ∧ t.pwr.stage = 1 ∧ bit t.pwr.rstcause 6 = true ∧ t.pwr.restore = true ∧
      t.pwr.holdrel = true ∧ t.pwr.dbgHeld = false ∧ t.gp.tally = s.gp.tally ∧ t.nvm.units = s.nvm.units ∧
      ∀ n : Fin 96, (t.outlet n).padHold = (s.outlet n).padHold))

/-- The ends of erase and program pulses. A pulse of a suspended operation ends nothing; a pulse that does not pass below the maximum counts and another follows; the pulse that passes ends the step: the sector reads erased, or the unit holds its data, and the last step of a command ends the command with status 0 and its counts in RESULT; at the maximum on a part without a valid option copy the command ends with status 0x10 and NVMFAIL records the sector, the cause and the pulses. -/
def Obligations.NvmPulses : Prop :=
  (∀ pass s r j js at_ sec ops, coreOff s = false → s.nvm.run = some r → s.nvm.jobs = j :: js → j.ops = .erase at_ sec :: ops →
    (r.susp = true → Runs (.erasePulseEnd pass) s fun t => t = s) ∧
    (r.susp = false → pass = false → r.pulses + 1 < s.nvm.opt.nemax.toNat → Runs (.erasePulseEnd pass) s fun t =>
      t = { s with nvm := { s.nvm with run := some { r with pulses := r.pulses + 1 } } }) ∧
    (∀ k c, r.susp = false → js = [] → ops = [] → j.who = .cmd c.seq → j.waits = false → j.retiring = none →
      slotOfSeq s c.seq = some c → slotAt s k = some c → (cmdOp c.entry).toNat = 0x70 → r.pulses + 1 ≤ s.nvm.wearthr.toNat →
      (pass = true → Runs (.erasePulseEnd pass) s fun t =>
        Ended k c 0 (BitVec.ofNat 16 j.excessAt) (BitVec.ofNat 64 ((j.done + 1) % 2 ^ 16 + j.retired % 2 ^ 16 * 2 ^ 16 + j.excess % 2 ^ 16 * 2 ^ 32)) t ∧ t.nvm.jobs = [] ∧ t.nvm.run = none ∧
        t.nvm.undefSec = mark (opPlace s.nvm.opt at_ sec).sec false s.nvm.undefSec ∧ t.nvm.units = s.nvm.units) ∧
      (pass = false → s.nvm.opt.nemax.toNat ≤ r.pulses + 1 → s.nvm.prov = true → Runs (.erasePulseEnd pass) s fun t =>
        (∃ res, Ended k c 0x10 (BitVec.ofNat 16 sec) res t) ∧ t.nvm.jobs = [] ∧ t.nvm.run = none ∧ t.nvm.failSector = BitVec.ofNat 11 sec ∧ t.nvm.failCause = 1 ∧ t.nvm.failPulses = BitVec.ofNat 8 (r.pulses + 1)))) ∧
  (∀ pass s r j js at_ u d b0 b1 sec ops, coreOff s = false → s.nvm.run = some r → s.nvm.jobs = j :: js → j.ops = .program at_ u d b0 b1 sec :: ops →
    (r.susp = true → Runs (.programPulseEnd pass) s fun t => t = s) ∧
    (r.susp = false → pass = false → r.pulses + 1 < s.nvm.opt.npmax.toNat → Runs (.programPulseEnd pass) s fun t =>
      t = { s with nvm := { s.nvm with run := some { r with pulses := r.pulses + 1 } } }) ∧
    (∀ k c, r.susp = false → js = [] → ops = [] → j.who = .cmd c.seq → j.waits = false → j.retiring = none →
      slotOfSeq s c.seq = some c → slotAt s k = some c → (cmdOp c.entry).toNat = 0x71 →
      (pass = true → Runs (.programPulseEnd pass) s fun t =>
        Ended k c 0 (BitVec.ofNat 16 j.excessAt) (BitVec.ofNat 64 ((j.done + 32) % 2 ^ 32 + j.retired % 2 ^ 16 * 2 ^ 32)) t ∧ t.nvm.jobs = [] ∧ t.nvm.run = none ∧
        aget ((opPlace s.nvm.opt at_ sec).key u.toNat) t.nvm.units = some d ∧
        t.nvm.undefUnit = mark ((opPlace s.nvm.opt at_ sec).key u.toNat) false s.nvm.undefUnit) ∧
      (pass = false → s.nvm.opt.npmax.toNat ≤ r.pulses + 1 → s.nvm.prov = true → Runs (.programPulseEnd pass) s fun t =>
        (∃ res, Ended k c 0x10 (BitVec.ofNat 16 sec) res t) ∧ t.nvm.jobs = [] ∧ t.nvm.run = none ∧ t.nvm.failSector = BitVec.ofNat 11 sec ∧ t.nvm.failCause = 2 ∧ t.nvm.failPulses = BitVec.ofNat 8 (r.pulses + 1))))

/-- The ledger: temperatures, ageing, persistence and load. A temperature written to an enabled, bound channel is held until it is processed, one that it replaces or that finds the channel disabled or unbound sets SLOST; processing keeps the last temperature and, in cycle mode, begins the residue, keeps within the hysteresis, or moves the extreme; an ageing tick adds 1 to the bin of a channel that ages; a persistence starts with the area after the last, commits after record 63 and is not started while the ledger is off, frozen or busy; a load sets LOADED and leaves every channel unbound. -/
def Obligations.LedgerComplete : Prop :=
  (∀ w (c : Fin 16) v s, MayWrite w (0x24104 + 0x20 * c.val) s →
    ((s.lgch c).en = false ∨ (s.lgch c).bound = false → Runs (.temperatureWrite w c v) s fun t =>
      (t.lgch c).tj = none ∧ bit (t.lgch c).stat 3 = true) ∧
    ((s.lgch c).en = true → (s.lgch c).bound = true → Runs (.temperatureWrite w c v) s fun t =>
      t.lgch c = { s.lgch c with tj := some (fd v 0 16), stat := if (s.lgch c).tj.isSome then setBit (s.lgch c).stat 3 true else (s.lgch c).stat } ∧
      ∀ d : Nat, d ≠ c.val → t.lgch d = s.lgch d)) ∧
  (∀ (c : Fin 16) s, coreOff s = false →
    (lgFrozen s = true ∨ (s.lgch c).tj = none → Runs (.temperatureProcess c) s fun t => t = s) ∧
    (∀ x, lgFrozen s = false → (s.lgch c).tj = some x →
      ((s.lgch c).bound = false → Runs (.temperatureProcess c) s fun t => t = s.modLg c (fun ch => { ch with tj := none })) ∧
      (∀ r, (s.lgch c).bound = true → r = (s.lgch c).record.toNat → s.ok →
        ((s.lgch c).mode = true → Runs (.temperatureProcess c) s fun t =>
          t.lgch c = { s.lgch c with tj := none, last := some x } ∧ t.mem.ledger = s.mem.ledger) ∧
        ((s.lgch c).mode = false → recRes s r = [] → Runs (.temperatureProcess c) s fun t =>
          t.lgch c = { s.lgch c with tj := none, last := some x } ∧
          lgGet t (recAt r + 21) 1 = 1 ∧ lgGet t (recAt r + 40) 2 = x.toNat ∧ fd (recPos t r) 6 2 = (0 : BitVec 2)) ∧
        (∀ tp, (s.lgch c).mode = false → (recRes s r).getLast? = some tp → fd (recPos s r) 6 2 = (0 : BitVec 2) →
          ((x.toInt - tp).natAbs ≤ (s.lgch c).hyst.toNat → Runs (.temperatureProcess c) s fun t =>
            (t.lgch c).last = some x ∧ t.mem.ledger = s.mem.ledger) ∧
          ((s.lgch c).hyst.toNat < x.toInt - tp → Runs (.temperatureProcess c) s fun t =>
            recTemp t r 22 = x.toInt ∧ fd (recPos t r) 6 2 = (1 : BitVec 2)) ∧
          ((s.lgch c).hyst.toNat < tp - x.toInt → Runs (.temperatureProcess c) s fun t =>
            recTemp t r 22 = x.toInt ∧ fd (recPos t r) 6 2 = (3 : BitVec 2))) ∧
        (∀ tp, (s.lgch c).mode = false → (recRes s r).getLast? = some tp → fd (recPos s r) 6 2 = (1 : BitVec 2) →
          (recTemp s r 22 < x.toInt → Runs (.temperatureProcess c) s fun t =>
            recTemp t r 22 = x.toInt ∧ recPos t r = recPos s r) ∧
          (x.toInt ≤ recTemp s r 22 → recTemp s r 22 - x.toInt ≤ (s.lgch c).hyst.toNat → Runs (.temperatureProcess c) s fun t =>
            (t.lgch c).last = some x ∧ t.mem.ledger = s.mem.ledger))))) ∧
  (∀ s, coreOff s = false →
    (s.lg.ticks = 0 → Runs .ageingTick s fun t => t = s) ∧
    (s.lg.ticks ≠ 0 → (∀ d : Nat, d < 16 → (s.lgch d).last = none ∨ ((s.lgch d).en && (s.lgch d).bound && (s.lgch d).mode) = false) →
      Runs .ageingTick s fun t => t = { s with lg := { s.lg with ticks := s.lg.ticks - 1 } }) ∧
    (∀ (c : Fin 16) x a, s.lg.ticks ≠ 0 → s.ok → (s.lgch c).last = some x → ((s.lgch c).en && (s.lgch c).bound && (s.lgch c).mode) = true →
      (∀ d : Nat, d < 16 → d ≠ c.val → (s.lgch d).last = none ∨ ((s.lgch d).en && (s.lgch d).bound && (s.lgch d).mode) = false) →
      a = recAt (s.lgch c).record.toNat + 168 + 4 * tempBin (s.lgch c) x.toInt 511 →
      Runs .ageingTick s fun t => lgGet t a 4 = min (lgGet s a 4 + 1) (2 ^ 32 - 1))) ∧
  (∀ s, coreOff s = false → pintDue s = false →
    (s.lg.en = false ∨ s.lg.loaded = false ∨ lgFrozen s = true ∨ s.lg.persist ≠ .idle ∨ (s.lg.due = false ∧ s.lg.ppend = false) →
      Runs .persistenceStart s fun t => t = s) ∧
    (∀ a, a = (s.lg.area.toNat + 1 + s.lg.skip) % lgAreas s → s.lg.en = true → s.lg.loaded = true → lgFrozen s = false →
      s.lg.persist = .idle → s.lg.due = true ∨ s.lg.ppend = true → s.nvm.run.isSome = true →
      (∀ j ∈ s.nvm.jobs, j.who ≠ .ledgerErase) → Runs .persistenceStart s fun t =>
        t.lg = { s.lg with due := false, ppend := false, lastAt := s.clk.gauge, persist := .writing a 0 } ∧
        t.nvm.jobs = s.nvm.jobs ++ [{ who := .persist, ops :=
          (((List.range 10).map (fun i => areaSector s a + i)).filter (fun x => !sectorErased s x)).map (fun x => NvmOp.erase none x) }] ∧
        Only [.lg, .nvm] s t)) ∧
  (∀ s, coreOff s = false →
    ((∀ a, s.lg.persist ≠ .writing a 64) ∨ s.nvm.jobs.any (fun j => j.who = .persist) = true → Runs .persistenceCommit s fun t => t = s) ∧
    (∀ a, s.lg.persist = .writing a 64 → s.nvm.jobs.any (fun j => j.who = .persist) = false → s.nvm.run.isSome = true →
      Runs .persistenceCommit s fun t => t.lg = { s.lg with persist := .committing a } ∧
        t.nvm.jobs = s.nvm.jobs ++ [{ who := .persist, ops := [.program none 0 (commitUnit s) false false (areaSector s a + 9)] }])) ∧
  (∀ w v s, MayWrite w 0x24000 s → s.lg.en = false → Runs (.ledgerLoad w v) s fun t =>
    t.lg.en = true ∧ t.lg.shutp = bit v 1 ∧ t.lg.slpp = bit v 2 ∧ t.lg.loaded = true ∧ t.lg.lastAt = s.clk.gauge ∧ t.lg.skip = 0 ∧
    ∀ c : Fin 16, (t.lgch c).bound = false ∧ (t.lgch c).last = none ∧ (t.lgch c).tj = none)

/-- Read and write frames of the inspection port, and authorisation. A read frame of a bad operation ends with status 5; below the level of the address it ends with status 3, and else with status 0 and the word, each with its CRC-4; address 0 reads 0x00030001 and address 4 the level, POLMAX, KEYV, LOCKOUT and the count of failures at any level. A write frame whose CRC-4 differs ends with status 4 and writes nothing; DBAL, DBAH, DBCTL and DFRZ are written at control level. A challenge makes the nonce from the noise and the counter, or drops the nonce where it is refused; a check grants the level of the challenge or counts a failure and locks out; DROP takes the level to 0. -/
def Obligations.InspectionFrames : Prop :=
  (∀ op a s, a.toNat ≠ 0x4C →
    (op ≠ 1 → op ≠ 2 → Runs (.rd op a) s fun t => t.dbg.rspStatus = 5 ∧ t.dbg.rspData = 0 ∧ t.dbg.rspCrc = crc4 (msb (5 : BitVec 4) ++ msb (0 : U32)) ∧ t.dbg.frame = false ∧ Only [.dbg] s t) ∧
    (s.dbg.level.toNat < readLevel s a.toNat → Runs (.rd 1 a) s fun t => t.dbg.rspStatus = 3 ∧ t.dbg.rspData = 0 ∧ t.dbg.rspCrc = crc4 (msb (3 : BitVec 4) ++ msb (0 : U32)) ∧ t.dbg.frame = false ∧ Only [.dbg] s t) ∧
    (readLevel s a.toNat ≤ s.dbg.level.toNat → Runs (.rd 1 a) s fun t => t.dbg.rspStatus = 0 ∧ t.dbg.rspData = (spaceRead s a.toNat) ∧ t.dbg.rspCrc = crc4 (msb (0 : BitVec 4) ++ msb ((spaceRead s a.toNat) : U32)) ∧ t.dbg.frame = false ∧ Only [.dbg] s t) ∧
    (a = 0 → Runs (.rd 1 a) s fun t => t.dbg.rspStatus = 0 ∧ t.dbg.rspData = 0x00030001) ∧
    (a = 4 → Runs (.rd 1 a) s fun t => t.dbg.rspStatus = 0 ∧ fd t.dbg.rspData 0 2 = s.dbg.level ∧ fd t.dbg.rspData 2 2 = s.dbg.polmax ∧
      bit t.dbg.rspData 5 = s.dbg.keyv ∧ bit t.dbg.rspData 7 = s.dbg.lockout ∧ fd t.dbg.rspData 16 8 = s.dbg.fails)) ∧
  (∀ op a v crc s, a.toNat ≠ 0x4C →
    (op ≠ 1 → op ≠ 2 → Runs (.wr op a v crc) s fun t => t.dbg.rspStatus = 5 ∧ t.dbg.rspData = 0 ∧ t.dbg.rspCrc = crc4 (msb (5 : BitVec 4) ++ msb (0 : U32)) ∧ t.dbg.frame = false ∧ Only [.dbg] s t) ∧
    (crc4 (msb (2 : BitVec 4) ++ msb a ++ msb v) ≠ crc → Runs (.wr 2 a v crc) s fun t => t.dbg.rspStatus = 4 ∧ t.dbg.rspData = v ∧ t.dbg.rspCrc = crc4 (msb (4 : BitVec 4) ++ msb (v : U32)) ∧ t.dbg.frame = false ∧ Only [.dbg] s t) ∧
    (crc4 (msb (2 : BitVec 4) ++ msb a ++ msb v) = crc →
      (s.dbg.level.toNat < writeLevel s a.toNat v → Runs (.wr 2 a v crc) s fun t => t.dbg.rspStatus = 3 ∧ t.dbg.rspData = v ∧ t.dbg.rspCrc = crc4 (msb (3 : BitVec 4) ++ msb (v : U32)) ∧ t.dbg.frame = false ∧ Only [.dbg, .free] s t) ∧
      (2 ≤ s.dbg.level.toNat → a = 0x40 → Runs (.wr 2 a v crc) s fun t => t.dbg.rspStatus = 0 ∧ t.dbg.dbal = v ∧ Only [.dbg, .free] s t) ∧
      (2 ≤ s.dbg.level.toNat → a = 0x44 → Runs (.wr 2 a v crc) s fun t => t.dbg.rspStatus = 0 ∧ t.dbg.dbah = fd v 0 16 ∧ Only [.dbg, .free] s t) ∧
      (2 ≤ s.dbg.level.toNat → a = 0x48 → Runs (.wr 2 a v crc) s fun t =>
        t.dbg.rspStatus = 0 ∧ t.dbg.space = fd v 0 2 ∧ t.dbg.size = fd v 2 2 ∧ t.dbg.ainc = bit v 4 ∧ Only [.dbg, .free] s t) ∧
      (2 ≤ s.dbg.level.toNat → a = 0x34 → Runs (.wr 2 a v crc) s fun t =>
        t.dbg.rspStatus = 0 ∧ t.dbg.frzTmr = bit v 0 ∧ t.dbg.frzRider = bit v 1 ∧ t.dbg.frzCul = bit v 2 ∧ t.dbg.frzLedger = bit v 3 ∧
        t.dbg.frzEdge = bit v 5 ∧ t.dbg.frzForce = bit v 6 ∧ t.dbg.frzMask = fd v 16 16 ∧ Only [.dbg, .free] s t))) ∧
  (∀ v noise s l, l = (fd v 0 2 : BitVec 2) →
    (l = 0 → Runs (.challenge v noise) s fun t => t = respond 0 v s) ∧
    (l ≠ 0 → s.dbg.polmax < l ∨ s.dbg.keyv = false ∨ s.dbg.lockout = true → Runs (.challenge v noise) s fun t =>
      t = respond 0 v { s with dbg := { s.dbg with noncev := false } }) ∧
    (l ≠ 0 → ¬ s.dbg.polmax < l → s.dbg.keyv = true → s.dbg.lockout = false → Runs (.challenge v noise) s fun t =>
      t = respond 0 v { s with dbg := { s.dbg with
        noncev := true, nonce := noise ++ (s.dbg.nonceCnt + 1), nonceCnt := s.dbg.nonceCnt + 1, chal := l } })) ∧
  (∀ s tag, tag = s.dbg.mac.toList.flatMap (fun m => (bytesLE m 4).map (fun b => b.toNat)) →
    (s.dbg.noncev = true → tag = expectedTag s.dbg → Runs .check s fun t =>
      t.dbg.level = s.dbg.chal ∧ t.dbg.noncev = false ∧ t.dbg.fails = s.dbg.fails ∧ t.dbg.rspStatus = 0) ∧
    (s.dbg.noncev = false ∨ tag ≠ expectedTag s.dbg → Runs .check s fun t =>
      t.dbg.level = s.dbg.level ∧ t.dbg.noncev = false ∧ t.dbg.fails = satInc s.dbg.fails ∧ t.dbg.lockout = true ∧ t.dbg.rspStatus = 0 ∧
      (coreOff s = false → SrcRaised 433 t))) ∧
  (∀ s, Runs .lockoutExpiry s fun t => t = { s with dbg := { s.dbg with lockout := false } }) ∧
  (∀ s, Runs .drop s fun t => t.dbg.level = 0 ∧ t.dbg.rspStatus = 0 ∧ t.dbg.polmax = s.dbg.polmax ∧
    (2 ≤ s.dbg.level.toNat → t.dbg.frzForce = false ∧ t.dbg.frzMask = 0 ∧ ∀ i : Fin 8, (vget t.dbg.cmp i.val {}).act = 0))

/-- An fc edge. While the fast clock stands or BIST runs nothing advances. Else the Gauge moves on by 64 + c, with the c taken at the start of the fc, and the next c comes from the sign of pend, or of the waiting carries while pend is 0 (neither TRAPs nor package-group events being sent); with nothing due, no register store held back, no gate enabled, no shut and no BIST on its way, the Rider pins take their levels, the ledger counts the multiples of 2^27 passed, freq goes into the fraction accumulator, a prescaler of a timer with no capture held back counts or gives its tick, and a thread parked until this fc is ready. -/
def Obligations.GaugeAdvances : Prop :=
  (∀ r s, (s.clk.running = false ∨ s.bist.phase ≠ .idle → Runs (.gaugeAdvance r) s fun t => t = s) ∧
    (s.clk.running = true → s.bist.phase = .idle → Runs (.gaugeAdvance r) s fun t =>
      t.clk.gauge = s.clk.gauge + s.clk.adv.zeroExtend 64 ∧ t.clk.fc = s.clk.fc + 1 ∧
      (s.link.trapen = false → s.link.grpen = false → t.clk.adv = BitVec.ofInt 8 (64 + (if s.link.pend != 0 then signOf s.link.pend.toInt
      else signOf (s.link.carries + BitVec.ofInt 64 (shrI (s.link.frac.toNat + s.link.freq.toInt) 32)).toInt))))) ∧
  (∀ r s, s.clk.running = true → s.bist.phase = .idle → s.due = [] → s.shut.active = false → s.shut.releaseAt = none →
    s.bist.starting = false → s.bist.origin = none → (∀ k : Fin 8, (s.getGate k).en = false) →
    (∀ n : Fin 16, (s.thr n).blocked = []) → Runs (.gaugeAdvance r) s fun t =>
      t.ports.rdrI = r ∧ t.ports.rdrIPrev = s.ports.rdrI ∧
      (lgFrozen s = false → t.lg = { s.lg with ticks := s.lg.ticks +
        ((s.clk.gauge + s.clk.adv.zeroExtend 64).toNat / 2 ^ 27 + 2 ^ 37 - s.clk.gauge.toNat / 2 ^ 27) % 2 ^ 37 }) ∧
      (s.link.trapen = false → s.link.grpen = false → t.link.frac = BitVec.ofInt 32 (s.link.frac.toNat + s.link.freq.toInt) ∧
        t.link.freq = s.link.freq ∧
        (s.link.pend ≠ 0 → t.link.pend = s.link.pend - BitVec.ofInt 64 (signOf s.link.pend.toInt))) ∧
      (∀ n : Fin 32, tmrFrozen s = false → (s.timer n).run = true → (s.timer n).src = 0 → (s.timer n).csrc ≠ 1 → (s.timer n).capLate = none →
        t.timer n = (if (s.timer n).psc ≤ (s.timer n).pre then { s.timer n with cntPrev := (s.timer n).cnt, pre := 0, tick := true }
          else { s.timer n with cntPrev := (s.timer n).cnt, pre := (s.timer n).pre + 1 })) ∧
      (∀ (n : Fin 16) f, (s.thr n).run = .parked (.until f) →
        (t.thr n).run = (if f ≤ s.clk.fc + 1 then .ready else .parked (.until f))))

/-- DBDATA and the accesses of the debug bus master. A read or a write of DBDATA is refused with status 3 below its level, with FAULT while ERR is set and with WAIT while an access runs; a read returns the data of a completed access once, or starts one; a write starts one. An access that the level, the size, the address or the power state refuses, and a host access that the bus answers with an error, ends with ERR, its cause and source 444; a host access that is answered advances the address with AINC, and writes or returns its bytes. -/
def Obligations.DebugBusMaster : Prop :=
  (∀ s,
    (s.dbg.level = 0 → Runs .dbdataRead s fun t => t = respond 3 0 s) ∧
    (s.dbg.level ≠ 0 → s.dbg.err = true → Runs .dbdataRead s fun t => t = respond 2 0 s) ∧
    (s.dbg.level ≠ 0 → s.dbg.err = false → s.dbg.ready = true → Runs .dbdataRead s fun t =>
      t = respond 0 s.dbg.data { s with dbg := { s.dbg with ready := false } }) ∧
    (s.dbg.level ≠ 0 → s.dbg.err = false → s.dbg.ready = false → s.dbg.access.isSome = true → Runs .dbdataRead s fun t => t = respond 1 0 s) ∧
    (s.dbg.level ≠ 0 → s.dbg.err = false → s.dbg.ready = false → s.dbg.access = none → Runs .dbdataRead s fun t =>
      t.dbg.access = some { wr := none } ∧ t.dbg.rspStatus = 1 ∧ t.dbg.frame = true ∧ Only [.dbg] s t)) ∧
  (∀ v s,
    (s.dbg.level.toNat < 2 → Runs (.dbdataWrite v) s fun t => t = respond 3 v s) ∧
    (2 ≤ s.dbg.level.toNat → s.dbg.err = true → Runs (.dbdataWrite v) s fun t => t = respond 2 v s) ∧
    (2 ≤ s.dbg.level.toNat → s.dbg.err = false → s.dbg.access.isSome = true → Runs (.dbdataWrite v) s fun t => t = respond 1 v s) ∧
    (2 ≤ s.dbg.level.toNat → s.dbg.err = false → s.dbg.access = none → Runs (.dbdataWrite v) s fun t =>
      t = respond 0 v { s with dbg := { s.dbg with access := some { wr := some v }, data := v, ready := false } })) ∧
  (∀ resp s,
    (s.dbg.access = none → Runs (.debugBusComplete resp) s fun t => t = s) ∧
    (∀ x, s.dbg.access = some x →
      (∀ c, dbRefused s x.wr.isSome = some c → Runs (.debugBusComplete resp) s fun t =>
        t.dbg.access = none ∧ t.dbg.err = true ∧ t.dbg.cause = c ∧ t.dbg.ready = false ∧ t.dbg.data = s.dbg.data ∧
        (coreOff s = false → SrcRaised 444 t) ∧ Only [.dbg, .tur] s t) ∧
      (dbRefused s x.wr.isSome = none → s.dbg.space = 1 →
        (resp = .error → Runs (.debugBusComplete resp) s fun t =>
          t.dbg.access = none ∧ t.dbg.err = true ∧ t.dbg.cause = 1 ∧ t.mem.host = s.mem.host) ∧
        (∀ v, (resp = .okay v ∨ resp = .exokay v) →
          (x.wr = none → Runs (.debugBusComplete resp) s fun t =>
            t.dbg.access = none ∧ t.dbg.data = ofLE 32 (bytesLE v (dbSize s.dbg)) ∧ t.dbg.err = s.dbg.err ∧
            t.dbg.dbah ++ t.dbg.dbal = s.dbg.dbah ++ s.dbg.dbal + BitVec.ofNat 48 (if s.dbg.ainc then dbSize s.dbg else 0) ∧
            t.dbg.ready = !s.dbg.frame ∧ (s.dbg.frame = true → t.dbg.rspStatus = 0 ∧ t.dbg.rspData = t.dbg.data) ∧ Only [.dbg] s t) ∧
          (∀ u, x.wr = some u → Runs (.debugBusComplete resp) s fun t =>
            t.dbg.access = none ∧ t.mem.host = memWrite s.mem.host (s.dbg.dbah ++ s.dbg.dbal).toNat (bytesLE u (dbSize s.dbg)) ∧
            t.dbg.dbah ++ t.dbg.dbal = s.dbg.dbah ++ s.dbg.dbal + BitVec.ofNat 48 (if s.dbg.ainc then dbSize s.dbg else 0) ∧
            t.dbg.err = s.dbg.err)))))

/-- Halts, the monitor, its requests, freezes, DCTL.WAKE and an idle port. HALT and RESUME set their bits of DTHR[n] at control level, machine level for thread 15, with no other return owed, and RESUME lets a thread out of the monitor with the saved pc and status; an entry at an allowed point saves MPC and MSTAT, clears the flow of control, sets machine privilege and pc 8, and raises 312 + n; a request with GO reads or writes a general register, or sets ERR, and a return that was asked for while the thread could not take it is taken; a freeze begins with 442 and ends with 443; DCTL.WAKE sets bit 6 of WAKESRC; the inspection port at idle discards its frame. -/
def Obligations.MonitorAndFreezes : Prop :=
  (∀ (n : Fin 16) s,
    (s.dbg.level.toNat < (if n.val = 15 then 3 else 2) → Runs (.halt n) s fun t => t.dbg.rspStatus = 3 ∧ Only [.dbg] s t) ∧
    ((if n.val = 15 then 3 else 2) ≤ s.dbg.level.toNat →
      issuing s = false ∨ (s.thr n).mon = false ∨ (s.thr n).spill = true ∨ (s.thr n).resume = false → Runs (.halt n) s fun t =>
      t.thr n = { s.thr n with halt := true } ∧ (∀ m : Nat, m ≠ n.val → t.thr m = s.thr m) ∧ t.dbg.rspStatus = 0 ∧ Only [.dbg, .seq] s t)) ∧
  (∀ (n : Fin 16) s,
    (s.dbg.level.toNat < (if n.val = 15 then 3 else 2) → Runs (.resume n) s fun t => t.dbg.rspStatus = 3 ∧ Only [.dbg] s t) ∧
    ((if n.val = 15 then 3 else 2) ≤ s.dbg.level.toNat → issuing s = false ∨ (s.thr n).mon = false ∨ (s.thr n).spill = true → Runs (.resume n) s fun t =>
      t.thr n = { s.thr n with resume := true } ∧ t.dbg.rspStatus = 0 ∧ Only [.dbg, .seq] s t) ∧
    ((if n.val = 15 then 3 else 2) ≤ s.dbg.level.toNat → issuing s = true → (s.thr n).mon = true → (s.thr n).spill = false → Runs (.resume n) s fun t =>
      (t.thr n).mon = false ∧ (t.thr n).resume = false ∧ (t.thr n).stepWords = (if (s.thr n).step then 1 else 0) ∧
      (t.thr n).ctx.pc = (s.thr n).mpc ∧ (t.thr n).ctx.nzcv = fd (s.thr n).mstat 0 4 ∧ (t.thr n).ctx.priv = fd (s.thr n).mstat 4 2 ∧
      (t.thr n).ctx.mask = fd (s.thr n).mstat 6 3 ∧ (t.thr n).ctx.g = (s.thr n).ctx.g ∧ t.dbg.rspStatus = 0)) ∧
  (∀ (n : Fin 16) s p, coreOff s = false → debugOpen s n = true → (s.thr n).ctx.ret = none → p = monitorPoint (s.thr n).ctx →
    ((s.thr n).halt = true → Runs (.monitorEntry n) s fun t =>
      (t.thr n).mon = true ∧ (t.thr n).halt = false ∧ (t.thr n).cause = 1 ∧ (t.thr n).mpc = p.1 ∧ (t.thr n).mstat = p.2 ∧
      (t.thr n).ctx.priv = 3 ∧ (t.thr n).ctx.pc = 8 ∧ (t.thr n).ctx.g = (s.thr n).ctx.g ∧ SrcRaised (312 + n.val) t ∧
      ∀ m : Nat, m ≠ n.val → t.thr m = s.thr m) ∧
    (2 ≤ (s.thr n).stepWords → Runs (.stepEntry n) s fun t =>
      (t.thr n).mon = true ∧ (t.thr n).cause = 3 ∧ (t.thr n).mpc = p.1 ∧ (t.thr n).mstat = p.2 ∧ (t.thr n).stepWords = 0 ∧
      (t.thr n).ctx.priv = 3 ∧ (t.thr n).ctx.pc = 8 ∧ (t.thr n).ctx.g = (s.thr n).ctx.g ∧ SrcRaised (312 + n.val) t)) ∧
  (∀ (n : Fin 16) s, coreOff s = false → (s.thr n).stepWords < 2 ∨ debugOpen s n = false → Runs (.stepEntry n) s fun t => t = s) ∧
  (∀ (n : Fin 16) s,
    (issuing s = false ∨ (s.thr n).mon = false ∨ (s.thr n).spill = true ∨ (bit (s.thr n).monreq 0 = false ∧ (s.thr n).resume = false) →
      Runs (.monitorRequest n) s fun t => t = s) ∧
    (issuing s = true → (s.thr n).mon = true → (s.thr n).spill = false → bit (s.thr n).monreq 0 = false → (s.thr n).resume = true →
      Runs (.monitorRequest n) s fun t => (t.thr n).mon = false ∧ (t.thr n).resume = false ∧ (t.thr n).ctx.pc = (s.thr n).mpc) ∧
    (issuing s = true → (s.thr n).mon = true → (s.thr n).spill = false → bit (s.thr n).monreq 0 = true → (s.thr n).resume = false →
      (fd (s.thr n).monreq 1 3 = (0 : BitVec 3) → Runs (.monitorRequest n) s fun t =>
        (t.thr n).mondata = vget (landAll (s.thr n).ctx).g (fd (s.thr n).monreq 4 5 : BitVec 5).toNat 0 ∧
        bit (t.thr n).monreq 0 = false ∧ bit (t.thr n).monreq 9 = false ∧ Only [.seq] s t) ∧
      (fd (s.thr n).monreq 1 3 = (1 : BitVec 3) → Runs (.monitorRequest n) s fun t =>
        (t.thr n).ctx.g = vset (landAll (s.thr n).ctx).g (fd (s.thr n).monreq 4 5 : BitVec 5).toNat (s.thr n).mondata ∧
        bit (t.thr n).monreq 0 = false ∧ bit (t.thr n).monreq 9 = false ∧ Only [.seq] s t) ∧
      (fd (s.thr n).monreq 1 3 = (7 : BitVec 3) → Runs (.monitorRequest n) s fun t =>
        (t.thr n).ctx.g = (landAll (s.thr n).ctx).g ∧ (t.thr n).mondata = (s.thr n).mondata ∧
        bit (t.thr n).monreq 0 = false ∧ bit (t.thr n).monreq 9 = true ∧ Only [.seq] s t))) ∧
  (∀ s, coreOff s = false →
    (freezeAsked s = true → s.dbg.frozen = false → Runs .freezeBegin s fun t =>
      t.dbg = { s.dbg with frozen := true } ∧ SrcRaised 442 t ∧ Only [.dbg, .tur] s t) ∧
    (freezeAsked s = false ∨ s.dbg.frozen = true → Runs .freezeBegin s fun t => t = s) ∧
    (s.dbg.frozen = true → freezeAsked s = false → s.dbg.frzRider = false → Runs .thaw s fun t =>
      t.dbg = { s.dbg with frozen := false } ∧ SrcRaised 443 t ∧ Only [.dbg, .tur, .tmr] s t ∧
      ∀ n : Fin 32, s.dbg.frzTmr = true → (s.timer n).aten = true → inPast (s.timer n).synct s.clk.gauge = true →
        t.timer n = { s.timer n with passedAt := s.clk.fc + 1 }) ∧
    (s.dbg.frozen = false ∨ freezeAsked s = true → Runs .thaw s fun t => t = s)) ∧
  (∀ s,
    (s.dbg.level.toNat < 2 → Runs .dctlWake s fun t => t.dbg.rspStatus = 3 ∧ Only [.dbg] s t) ∧
    (2 ≤ s.dbg.level.toNat → Runs .dctlWake s fun t =>
      t.pwr = { s.pwr with wakesrc := setBit s.pwr.wakesrc 6 true, waking := s.pwr.waking || s.pwr.st != .run || s.pwr.trans } ∧
      t.dbg.rspStatus = 0 ∧ t.dbg.nosleep = s.dbg.nosleep ∧ Only [.dbg, .pwr, .tur] s t) ∧
    (Runs .portReturnToIdle s fun t => t = { s with dbg := { s.dbg with frame := false } }))

/-- A step runs the command at the front of the queue. A step with command c at the front of the queue is exec of c on the state with the rest of the queue; a step with an empty queue changes nothing (that the block idles there is the model's choice). -/
def Obligations.StepRunsFront : Prop :=
  (∀ s c rest, s.pending = c :: rest → step s = exec c { s with pending := rest }) ∧
  (∀ s, s.pending = [] → step s = .next s)

/-- The state after power-on reset. State.reset holds canonical memories with nothing listed; the Gauge stands at 0 and CORE does not run; the boot waits at stage 1; every general register and accumulator reads 0; every Turnout source has PRI 0 and CNT 0; every outlet is at its reset value with out_oe_o low, every port of the Neran link is down; the debug level is 0; and no command waits. -/
def Obligations.ResetState : Prop :=
  State.reset.ok ∧ State.reset.pending = [] ∧ State.reset.clk.gauge = 0 ∧ State.reset.clk.running = false ∧
    State.reset.pwr.stage = 1 ∧ State.reset.pwr.st = .run ∧ State.reset.dbg.level = 0 ∧ State.reset.hg.ready = false ∧
    (∀ n : Fin 16, (State.reset.thr n).ctx.g = Vector.replicate 32 0 ∧ (State.reset.thr n).ctx.a = Vector.replicate 4 0) ∧
    (∀ k : Fin 512, (State.reset.source k).pri = 0 ∧ (State.reset.source k).cnt = 0) ∧
    (∀ n : Fin 96, (State.reset.outlet n).oen = false ∧ (State.reset.outlet n).queue = []) ∧
    (∀ r, State.reset.rch r = {}) ∧ (∀ p, (State.reset.port p).st = 0) ∧
    State.reset.mem.micro = [] ∧ State.reset.mem.nano = [] ∧ State.reset.mem.data = [] ∧ State.reset.mem.ledger = []

/-- Every step keeps every memory in its canonical form. When every memory of the block is in its canonical form and a step answers a next state, every memory is in its canonical form in it. -/
def Obligations.StepKeepsOk : Prop :=
  ∀ s t, s.ok → step s = .next t → t.ok

/-- Every command answers a next state and leaves the queue alone. In every state every command of the table answers a next state, in which the rest of the queue stands as it did; none ends in a fault or a refusal. -/
def Obligations.EveryCommandCompletes : Prop :=
  ∀ c s, ∃ t, exec c s = .next t ∧ t.pending = s.pending

/-- A memory holds what was written last. The bytes written at an address read back from it, every byte outside them reads as before, and the memory stays in its canonical form; so a step keeps each stored value until the next store to it. What an unwritten byte reads as is the model's choice (log entry 4). -/
def Obligations.MemoriesHoldWhatIsWritten : Prop :=
  (∀ (l : List Byte) m a, Memory.wf 0 m = true → memRead (memWrite m a l) a l.length = l) ∧
  (∀ (l : List Byte) m a b, b < a ∨ a + l.length ≤ b → memByte (memWrite m a l) b = memByte m b) ∧
  (∀ (l : List Byte) m a, Memory.wf 0 m = true → Memory.wf 0 (memWrite m a l) = true) ∧
  (∀ m m' : List Host.Cell, Memory.wf 0 m = true → Memory.wf 0 m' = true → (∀ a, memByte m a = memByte m' a) → m = m')

/-- A write to SWEV raises the source it names. A permitted write of s to SWEV, with s in 448 to 511, raises source s in the fc in which it takes effect and changes nothing but the Turnout and the writer's answer; a write of any other value has no effect. -/
def Obligations.SoftwareEvents : Prop :=
  ∀ w v s, MayWrite w 0x3180 s →
    (448 ≤ (fd v 0 9 : BitVec 9).toNat → Runs (.swev w v) s fun t =>
      SrcRaised (fd v 0 9 : BitVec 9).toNat t ∧ Only [.tur, .apb] s t ∧
      (∀ k, k ≠ (fd v 0 9 : BitVec 9).toNat → t.source k = s.source k)) ∧
    ((fd v 0 9 : BitVec 9).toNat < 448 → Runs (.swev w v) s fun t => Only [.apb] s t ∧ t = answer s w {})

/-- DCTL.WAKE acts as PWRCTL.WAKE. With por_n high, a write of DCTL.WAKE = 1 by the debugger at control level leaves everything as a write of PWRCTL.WAKE = 1, WOEN as it stands, leaves it, but for the debugger's response and the answer to the writer of PWRCTL. -/
def Obligations.WakeByDebugger : Prop :=
  ∀ s, porLow s = false → 2 ≤ s.dbg.level.toNat → ∃ t u, exec .dctlWake s = .next t ∧ exec (.pwrctlWake .host (pk [(0, 1), (2, b1 s.pwr.woen)])) s = .next u ∧
    Only [.dbg, .apb] u t ∧ t.dbg.rspStatus = 0 ∧ u.pwr.waking = (s.pwr.waking || s.pwr.st != .run || s.pwr.trans) ∧
    bit u.pwr.wakesrc 6 = true

/-- A read of RXD takes the oldest word. A read of RCH[n].RXD by any agent answers the oldest word of the RX FIFO and removes it; a read of an empty FIFO answers 0 and sets STAT.RXUF. Host software's read command does the same and is answered with that value. -/
def Obligations.RiderReceiveReads : Prop :=
  ∀ (ag : Agent) (n : Fin 32) s, coreOff s = false →
    (∀ v rest, (s.rch n).rx = v :: rest →
      (busRead ag false (0xA02C + 0x40 * n.val) s).1 = { data := v } ∧
      (busRead ag false (0xA02C + 0x40 * n.val) s).2.rch n = { s.rch n with rx := rest } ∧
      Runs (.rxdRead .host n) s fun t => t.apb = { rdata := v, slverr := false } ∧ t.rch n = { s.rch n with rx := rest } ∧
        ∀ m : Nat, m ≠ n.val → t.rch m = s.rch m) ∧
    ((s.rch n).rx = [] →
      (busRead ag false (0xA02C + 0x40 * n.val) s).1 = { data := 0 } ∧
      (busRead ag false (0xA02C + 0x40 * n.val) s).2.rch n = { s.rch n with stat := setBit (s.rch n).stat 2 true } ∧
      Runs (.rxdRead .host n) s fun t => t.apb = { rdata := 0, slverr := false } ∧
        t.rch n = { s.rch n with stat := setBit (s.rch n).stat 2 true } ∧ ∀ m : Nat, m ≠ n.val → t.rch m = s.rch m)

/-- What power, protection and thread commands leave unchanged. Each command of power, reset, samples, protection and the sequencer completes in every state, a register-write command in every state in which its writer may write the register, and changes only the parts named for it. Each part of the state (the queue, the Gauge clock, ports, outlets, OUTCAL, Turnout, gates, shut, watchdog, flumes, timers, Gauge registers, Rider, Culvert, Headgate, Sequencer, memories, link, Ledger, NVM, power, debug, BIST, due acts, the APB answer, the free values) that the clause does not name is unchanged. -/
def Obligations.FramesOfPowerProtectionAndThreads : Prop :=
  (∀ s, Runs .powerOnReset s (Only [.clk, .ports, .out, .outcal, .tur, .gate, .shut, .wdog, .fl, .tmr, .gp, .rider, .cul, .hg, .seq, .mem, .link, .lg, .nvm, .pwr, .dbg, .bist, .due, .free] s)) ∧
  (∀ s, Runs .warmReset s (Only [.clk, .ports, .out, .outcal, .tur, .gate, .shut, .wdog, .fl, .tmr, .gp, .rider, .cul, .hg, .seq, .mem, .link, .lg, .nvm, .pwr, .dbg, .bist, .due, .free] s)) ∧
  (∀ s, Runs .debugReset s (Only [.tur, .wdog, .seq, .mem, .pwr, .dbg] s)) ∧
  (∀ s, Runs .rstNAssert s (Only [.pwr] s)) ∧
  (∀ (w : Who) (v : U32) s, writeRefused s w 0x1018 = false → Runs (.rstctlWarm w v) s (Only [.pwr, .apb] s)) ∧
  (∀ s, Runs .pllLoss s (Only [.tur, .pwr] s)) ∧
  (∀ s, Runs .pllLossResetRequest s (Only [.pwr] s)) ∧
  (∀ s, Runs .bootStart s (Only [.clk, .ports, .out, .outcal, .tur, .gate, .shut, .wdog, .fl, .tmr, .gp, .rider, .cul, .hg, .seq, .mem, .link, .lg, .nvm, .pwr, .dbg, .bist, .due, .free] s)) ∧
  (∀ s, Runs .pllLock s (Only [.clk, .ports, .tur, .gate, .shut, .wdog, .fl, .tmr, .gp, .rider, .hg, .seq, .mem, .link, .lg, .nvm, .pwr, .free] s)) ∧
  (∀ (w : Who) (v : U32) s, writeRefused s w 0x1024 = false → Runs (.bootctlGo w v) s (Only [.tur, .gate, .shut, .rider, .hg, .seq, .mem, .link, .lg, .nvm, .pwr, .apb, .free] s)) ∧
  (∀ s, Runs .bootReady s (Only [.ports, .tur, .hg, .seq, .mem, .lg, .nvm, .pwr, .free] s)) ∧
  (∀ (k : Slot) s, Runs (.powerState k) s (Only [.clk, .ports, .out, .tur, .wdog, .fl, .tmr, .gp, .rider, .cul, .hg, .seq, .mem, .link, .lg, .nvm, .pwr, .bist, .due, .free] s)) ∧
  (∀ (level : Bool) s, Runs (.wakePin level) s (Only [.ports, .tur, .pwr] s)) ∧
  (∀ s, Runs .tallyWake s (Only [.tur, .pwr] s)) ∧
  (∀ (w : Who) (v : U32) s, writeRefused s w 0x1000 = false → Runs (.pwrctlWake w v) s (Only [.out, .tur, .pwr, .apb] s)) ∧
  (∀ s, Runs .dozeWake s (Only [.tur, .pwr] s)) ∧
  (∀ s, Runs .sleepReturn s (Only [.clk, .ports, .out, .outcal, .tur, .fl, .tmr, .gp, .rider, .hg, .link, .pwr] s)) ∧
  (∀ (n : Fin 96) s, Runs (.padHoldRelease n) s (Only [.out, .pwr] s)) ∧
  (∀ (w : Who) (v : U32) s, writeRefused s w 0x1000 = false → Runs (.holdrel w v) s (Only [.out, .tur, .pwr, .apb] s)) ∧
  (∀ (ratio : U48) s, Runs (.ratioWindow ratio) s (Only [.gp] s)) ∧
  (∀ (port : Fin 32) (x : BitVec 24) (tag : BitVec 4) s, Runs (.sampleLanding port x tag) s (Only [.ports, .tur, .fl, .tmr, .link, .due, .free] s)) ∧
  (∀ (m : Fin 64) (level : Bool) s, Runs (.tripInputChange m level) s (Only [.ports, .tur] s)) ∧
  (∀ (level : Bool) s, Runs (.shutInputChange level) s (Only [.ports, .tur, .shut, .link, .lg] s)) ∧
  (∀ s, Runs .gateEvaluate s (Only [.gate] s)) ∧
  (∀ (w : Who) (k : Fin 8) (v : U32) s, writeRefused s w (0xE000 + 0x40 * k) = false → Runs (.gateEnable w k v) s (Only [.tur, .gate, .shut, .seq, .mem, .link, .lg, .dbg, .due, .apb] s)) ∧
  (∀ (w : Who) (k : Fin 8) (v : U32) s, writeRefused s w (0xE000 + 0x40 * k) = false → Runs (.gateRestart w k v) s (Only [.tur, .gate, .shut, .seq, .mem, .link, .lg, .dbg, .due, .apb] s)) ∧
  (∀ (w : Who) (k : Fin 8) (g : GateReg) (v : U32) s, writeRefused s w (GateReg.off k g) = false → Runs (.gateTableStore w k g v) s (Only [.tur, .gate, .shut, .seq, .mem, .link, .lg, .dbg, .due, .apb] s)) ∧
  (∀ (w : Who) (v : U32) s, writeRefused s w 0xE400 = false → Runs (.shutreqSet w v) s (Only [.tur, .shut, .link, .lg, .apb] s)) ∧
  (∀ (w : Who) (v : U32) s, writeRefused s w 0xE400 = false → Runs (.shutreqClear w v) s (Only [.tur, .shut, .link, .lg, .apb] s)) ∧
  (∀ (w : Who) (v : U32) s, writeRefused s w 0xE40C = false → Runs (.shutctlRearm w v) s (Only [.tur, .gate, .shut, .seq, .mem, .link, .lg, .dbg, .due, .apb] s)) ∧
  (∀ (w : Who) (v : U32) s, writeRefused s w 0x26000 = false → Runs (.watchdogEnable w v) s (Only [.wdog, .apb] s)) ∧
  (∀ (w : Who) (v : U32) s, writeRefused s w 0x26000 = false → Runs (.watchdogLock w v) s (Only [.wdog, .apb] s)) ∧
  (∀ (w : Who) (v : U32) s, writeRefused s w 0x2600C = false → Runs (.watchdogService w v) s (Only [.tur, .shut, .wdog, .link, .lg, .apb] s)) ∧
  (∀ s, Runs .watchdogWindowOpen s (Only [.tur, .wdog] s)) ∧
  (∀ s, Runs .watchdogExpiry s (Only [.tur, .shut, .wdog, .link, .lg] s)) ∧
  (∀ s, Runs .watchdogResetRequest s (Only [.wdog, .pwr] s)) ∧
  (∀ (n : Fin 16) s, Runs (.operationMicroword n) s (Only [.tur, .wdog, .seq, .mem, .link, .due, .free] s)) ∧
  (∀ (n : Fin 16) (resp : LoadResp) s, Runs (.loadDataReturn n resp) s (Only [.tur, .wdog, .fl, .tmr, .rider, .hg, .seq, .mem, .link, .lg, .nvm, .due, .free] s)) ∧
  (∀ (n : Fin 16) (addr : U32) s, Runs (.postedStoreError n addr) s (Only [.seq] s)) ∧
  (∀ (n : Fin 16) s, Runs (.br n) s (Only [.tur, .wdog, .seq, .mem, .link, .due, .free] s)) ∧
  (∀ (n : Fin 16) s, Runs (.call n) s (Only [.tur, .wdog, .seq, .mem, .link, .due, .free] s)) ∧
  (∀ (n : Fin 16) s, Runs (.ret n) s (Only [.tur, .wdog, .seq, .mem, .link, .due, .free] s)) ∧
  (∀ (n : Fin 16) s, Runs (.retExc n) s (Only [.tur, .wdog, .seq, .mem, .link, .due, .free] s)) ∧
  (∀ (n : Fin 16) s, Runs (.rep n) s (Only [.tur, .wdog, .seq, .mem, .link, .due, .free] s)) ∧
  (∀ (n : Fin 16) s, Runs (.repn n) s (Only [.tur, .wdog, .seq, .mem, .link, .due, .free] s)) ∧
  (∀ (n : Fin 16) s, Runs (.li n) s (Only [.tur, .wdog, .seq, .mem, .link, .due, .free] s)) ∧
  (∀ (n : Fin 16) s, Runs (.lr n) s (Only [.tur, .wdog, .seq, .mem, .link, .due, .free] s)) ∧
  (∀ (n : Fin 16) s, Runs (.sc n) s (Only [.tur, .wdog, .seq, .mem, .link, .due, .free] s)) ∧
  (∀ (n : Fin 16) s, Runs (.reservationExpiry n) s (Only [.seq] s)) ∧
  (∀ (n : Fin 16) s, Runs (.sys n) s (Only [.tur, .wdog, .seq, .mem, .link, .due, .free] s)) ∧
  (∀ (n : Fin 16) s, Runs (.mode n) s (Only [.tur, .wdog, .seq, .mem, .link, .due, .free] s)) ∧
  (∀ (n : Fin 16) s, Runs (.wait n) s (Only [.tur, .wdog, .seq, .mem, .link, .due, .free] s)) ∧
  (∀ (n : Fin 16) s, Runs (.waitEnd n) s (Only [.seq, .free] s)) ∧
  (∀ (n : Fin 16) s, Runs (.waitTimeout n) s (Only [.seq] s)) ∧
  (∀ (n : Fin 16) s, Runs (.fence n) s (Only [.tur, .wdog, .seq, .mem, .link, .due, .free] s)) ∧
  (∀ (n : Fin 16) s, Runs (.fenceComplete n) s (Only [.seq] s)) ∧
  (∀ (n : Fin 16) s, Runs (.exceptionEntry n) s (Only [.tur, .wdog, .seq, .mem, .link, .due, .free] s)) ∧
  (∀ (n : Fin 16) s, Runs (.eventDispatch n) s (Only [.tur, .wdog, .seq, .mem, .due] s)) ∧
  (∀ (k : Slot) s, Runs (.threadStart k) s (Only [.tur, .hg, .seq, .link] s)) ∧
  (∀ (k : Slot) s, Runs (.threadStop k) s (Only [.tur, .wdog, .hg, .seq, .link] s)) ∧
  (∀ (k : Slot) s, Runs (.threadReset k) s (Only [.tur, .wdog, .hg, .seq, .link, .due] s)) ∧
  (∀ (w : Who) (r : Fin 4) (v : U32) s, writeRefused s w (0x2100 + 4 * r) = false → Runs (.doorbell w r v) s (Only [.tur, .hg, .pwr, .apb] s))

/-- What ring, outlet, flume, timer and Rider commands leave unchanged. Each command of the Headgate rings, the command set, BIST, the outlets, the flume units, the timers and the Rider completes in every state, a register-write command in every state in which its writer may write the register, and changes only the parts named for it. Each part of the state (the queue, the Gauge clock, ports, outlets, OUTCAL, Turnout, gates, shut, watchdog, flumes, timers, Gauge registers, Rider, Culvert, Headgate, Sequencer, memories, link, Ledger, NVM, power, debug, BIST, due acts, the APB answer, the free values) that the clause does not name is unchanged. -/
def Obligations.FramesOfRingsOutletsFlumesTimersRider : Prop :=
  (∀ (w : Who) (v : U32) s, writeRefused s w 0x2004 = false → Runs (.ringEnable w v) s (Only [.tur, .hg, .mem, .bist, .apb] s)) ∧
  (∀ (w : Who) (v : U32) s, writeRefused s w 0x2004 = false → Runs (.headShadowEnable w v) s (Only [.tur, .hg, .mem, .bist, .apb] s)) ∧
  (∀ s, Runs .headShadowWrite s (Only [.hg, .mem] s)) ∧
  (∀ (w : Who) (eq : Bool) (v : U32) s, writeRefused s w (if eq then 0x20EC else 0x20CC) = false → Runs (.cqHeadWrite w eq v) s (Only [.tur, .hg, .apb] s)) ∧
  (∀ (w : Who) (v : U32) s, writeRefused s w 0x2000 = false → Runs (.ringResume w v) s (Only [.hg, .apb] s)) ∧
  (∀ (entry : BitVec 512) s, Runs (.submissionFetch entry) s (Only [.tur, .hg] s)) ∧
  (∀ s, Runs .entryReadError s (Only [.tur, .hg, .mem] s)) ∧
  (∀ (k : Slot) s, Runs (.completionWrite k) s (Only [.tur, .hg, .mem, .link] s)) ∧
  (∀ (k : Slot) s, Runs (.nop k) s (Only [.tur, .hg, .link] s)) ∧
  (∀ (k : Slot) s, Runs (.query k) s (Only [.tur, .hg, .link] s)) ∧
  (∀ (k : Slot) (pass1 : HostRead) (pass2 : HostRead) s, Runs (.imageLoad k pass1 pass2) s (Only [.tur, .gate, .shut, .rider, .hg, .seq, .mem, .link, .lg, .nvm, .free] s)) ∧
  (∀ (k : Slot) s, Runs (.imageActivate k) s (Only [.tur, .hg, .seq, .mem, .link, .lg, .nvm, .free] s)) ∧
  (∀ (k : Slot) (patch : HostRead) s, Runs (.patchApply k patch) s (Only [.tur, .hg, .seq, .mem, .link] s)) ∧
  (∀ (k : Slot) s, Runs (.coefWrite k) s (Only [.tur, .fl, .hg, .link, .due] s)) ∧
  (∀ (k : Slot) s, Runs (.setpoint k) s (Only [.tur, .hg, .seq, .mem, .link] s)) ∧
  (∀ (k : Slot) s, Runs (.arm k) s (Only [.tur, .fl, .tmr, .hg, .link, .due] s)) ∧
  (∀ (k : Slot) s, Runs (.disarm k) s (Only [.out, .tur, .fl, .tmr, .hg, .link, .due] s)) ∧
  (∀ (k : Slot) s, Runs (.rearm k) s (Only [.tur, .gate, .shut, .hg, .link] s)) ∧
  (∀ (k : Slot) s, Runs (.linkEnum k) s (Only [.tur, .hg, .link] s)) ∧
  (∀ (k : Slot) s, Runs (.linkRole k) s (Only [.tur, .hg, .seq, .mem, .link, .lg, .nvm, .free] s)) ∧
  (∀ (k : Slot) (payload : HostRead) s, Runs (.linkSend k payload) s (Only [.tur, .hg, .link] s)) ∧
  (∀ (k : CopySlot) s, Runs (.ledgerRead k) s (Only [.tur, .hg, .mem, .link] s)) ∧
  (∀ (k : Slot) s, Runs (.ledgerBind k) s (Only [.tur, .hg, .mem, .link, .lg, .free] s)) ∧
  (∀ (k : Slot) s, Runs (.nvmErase k) s (Only [.tur, .hg, .seq, .mem, .link, .lg, .nvm, .free] s)) ∧
  (∀ (k : Slot) (src : HostRead) s, Runs (.nvmProgram k src) s (Only [.tur, .hg, .seq, .mem, .link, .lg, .nvm, .free] s)) ∧
  (∀ (k : CopySlot) s, Runs (.nvmRead k) s (Only [.tur, .hg, .mem, .link, .nvm, .free] s)) ∧
  (∀ (k : Slot) s, Runs (.bistRun k) s (Only [.clk, .ports, .out, .tur, .wdog, .fl, .tmr, .gp, .rider, .cul, .hg, .seq, .mem, .link, .lg, .nvm, .pwr, .bist, .due, .free] s)) ∧
  (∀ (k : Slot) s, Runs (.debugPolicy k) s (Only [.tur, .wdog, .hg, .seq, .link, .dbg] s)) ∧
  (∀ (misr : U64) s, Runs (.logicBistDone misr) s (Only [.bist, .free] s)) ∧
  (∀ (misr : U64) (mfail : BitVec 8) (ms : BitVec 8) s, Runs (.memoryBistDone misr mfail ms) s (Only [.bist] s)) ∧
  (∀ s, Runs .postBistReset s (Only [.clk, .ports, .out, .outcal, .tur, .gate, .shut, .wdog, .fl, .tmr, .gp, .rider, .cul, .hg, .seq, .mem, .link, .lg, .nvm, .pwr, .dbg, .bist, .due, .free] s)) ∧
  (∀ (v : U32) s, Runs (.dbist v) s (Only [.clk, .ports, .out, .tur, .wdog, .fl, .tmr, .gp, .rider, .cul, .hg, .seq, .mem, .link, .lg, .nvm, .pwr, .dbg, .bist, .due, .free] s)) ∧
  (∀ (w : Who) (n : Fin 96) (v : U32) s, writeRefused s w (0x8018 + 0x20 * n) = false → Runs (.postlStage w n v) s (Only [.out, .apb] s)) ∧
  (∀ (w : Who) (n : Fin 96) (v : U32) s, writeRefused s w (0x801C + 0x20 * n) = false → Runs (.posthPost w n v) s (Only [.out, .tur, .due, .apb] s)) ∧
  (∀ (n : Fin 96) s, Runs (.entryMove n) s (Only [.out, .tur] s)) ∧
  (∀ (n : Fin 96) s, Runs (.edgeRetire n) s (Only [.out] s)) ∧
  (∀ (n : Fin 96) s, Runs (.holdRetire n) s (Only [.out] s)) ∧
  (∀ (w : Who) (n : Fin 96) s, writeRefused s w (0x8000 + 0x20 * n) = false → Runs (.flush w n) s (Only [.out, .apb] s)) ∧
  (∀ (w : Who) (n : Fin 96) (v : BitVec 2) s, writeRefused s w (0x8000 + 0x20 * n) = false → Runs (.ownerWrite w n v) s (Only [.out, .apb] s)) ∧
  (∀ (w : Who) (n : Fin 96) (v : Bool) s, writeRefused s w (0x8000 + 0x20 * n) = false → Runs (.staticLevelWrite w n v) s (Only [.out, .tur, .apb] s)) ∧
  (∀ (w : Who) (n : Fin 96) (v : Bool) s, writeRefused s w (0x8000 + 0x20 * n) = false → Runs (.outputEnableWrite w n v) s (Only [.out, .due, .apb] s)) ∧
  (∀ (n : Fin 96) s, Runs (.outputEnableRaise n) s (Only [.out] s)) ∧
  (∀ (w : Who) (n : Fin 96) (v : Bool) s, writeRefused s w (0x8000 + 0x20 * n) = false → Runs (.pairWrite w n v) s (Only [.out, .tur, .apb] s)) ∧
  (∀ (rawtap : BitVec 8) (trkerr : Bool) s, Runs (.calibrationUpdate rawtap trkerr) s (Only [.out, .outcal, .tur] s)) ∧
  (∀ (w : Who) (n : Fin 32) (v : U32) s, writeRefused s w (0x9000 + 0x40 * n) = false → Runs (.flumeArm w n v) s (Only [.tur, .fl, .tmr, .due, .apb] s)) ∧
  (∀ (w : Who) (n : Fin 32) (v : U32) s, writeRefused s w (0x9000 + 0x40 * n) = false → Runs (.flumeDisarm w n v) s (Only [.tur, .fl, .tmr, .due, .apb] s)) ∧
  (∀ (w : Who) (n : Fin 32) (r : FlumeReg) (v : U32) s, writeRefused s w (0x9000 + 0x40 * n + FlumeReg.off r) = false → Runs (.flumeConfigWrite w n r v) s (Only [.tur, .fl, .tmr, .due, .apb] s)) ∧
  (∀ (w : Who) (n : Fin 32) (v : U32) s, writeRefused s w (0x9038 + 0x40 * n) = false → Runs (.pendingBankWrite w n v) s (Only [.tur, .fl, .due, .apb] s)) ∧
  (∀ (w : Who) (n : Fin 32) s, Runs (.pbdataRead w n) s (Only [.ports, .out, .outcal, .tur, .gate, .shut, .wdog, .fl, .tmr, .rider, .cul, .hg, .seq, .mem, .link, .lg, .nvm, .pwr, .dbg, .bist, .due, .apb, .free] s)) ∧
  (∀ (w : Who) (n : Fin 32) (v : U32) s, writeRefused s w (0x903C + 0x40 * n) = false → Runs (.bankSeal w n v) s (Only [.tur, .fl, .tmr, .due, .apb] s)) ∧
  (∀ (n : Fin 32) s, Runs (.carrierBoundary n) s (Only [.tur, .fl, .due] s)) ∧
  (∀ (n : Fin 32) s, Runs (.windowCloseMiss n) s (Only [.out, .tur, .fl, .due] s)) ∧
  (∀ (n : Fin 32) s, Runs (.crossingFallback n) s (Only [.out, .tur, .fl, .due] s)) ∧
  (∀ (w : Who) (n : Fin 32) (m : Mailbox) s, Runs (.mailboxRead w n m) s (Only [.ports, .out, .outcal, .tur, .gate, .shut, .wdog, .fl, .tmr, .rider, .cul, .hg, .seq, .mem, .link, .lg, .nvm, .pwr, .dbg, .bist, .due, .apb, .free] s)) ∧
  (∀ (w : Who) (v : U32) s, writeRefused s w 0x1800 = false → Runs (.smpctlWrite w v) s (Only [.ports, .tur, .apb] s)) ∧
  (∀ (n : Fin 32) s, Runs (.timerTick n) s (Only [.ports, .tur, .tmr, .cul, .due] s)) ∧
  (∀ (n : Fin 32) s, Runs (.timerWrap n) s (Only [.ports, .tur, .tmr, .cul, .due] s)) ∧
  (∀ (n : Fin 32) (ch : Chan) s, Runs (.compareMatch n ch) s (Only [.ports, .tur, .tmr, .cul, .due] s)) ∧
  (∀ (n : Fin 32) s, Runs (.timerTrigger n) s (Only [.tmr] s)) ∧
  (∀ (w : Who) (n : Fin 32) s, writeRefused s w (0x6100 + 0x40 * n) = false → Runs (.timerStart w n) s (Only [.tmr, .apb] s)) ∧
  (∀ (w : Who) (n : Fin 32) s, writeRefused s w (0x6100 + 0x40 * n) = false → Runs (.timerStop w n) s (Only [.tmr, .apb] s)) ∧
  (∀ (w : Who) (n : Fin 32) (v : U32) s, writeRefused s w (0x6108 + 0x40 * n) = false → Runs (.cntWrite w n v) s (Only [.tmr, .apb] s)) ∧
  (∀ (x0 : Fin 16) (n : Fin 32) (r : TimerReg) (v : U32) s, Runs (.preloadWrite x0 n r v) s (Only [.tmr] s)) ∧
  (∀ (w : Who) (n : Fin 32) (r : TimerReg) (v : U32) s, writeRefused s w (0x6100 + 0x40 * n + TimerReg.off r) = false → Runs (.liveWrite w n r v) s (Only [.tmr, .apb] s)) ∧
  (∀ (n : Fin 32) s, Runs (.capture n) s (Only [.tur, .tmr] s)) ∧
  (∀ (w : Who) (n : Fin 32) s, Runs (.capRead w n) s (Only [.ports, .out, .outcal, .tur, .gate, .shut, .wdog, .fl, .tmr, .rider, .cul, .hg, .seq, .mem, .link, .lg, .nvm, .pwr, .dbg, .bist, .due, .apb, .free] s)) ∧
  (∀ (w : Who) (n : Fin 32) s, writeRefused s w (0x6100 + 0x40 * n) = false → Runs (.atenArm w n) s (Only [.tur, .tmr, .apb] s)) ∧
  (∀ (n : Fin 32) s, Runs (.gaugeTimedStart n) s (Only [.tmr] s)) ∧
  (∀ (n : Fin 32) s, Runs (.riderTurn n) s (Only [.out, .tur, .rider] s)) ∧
  (∀ (n : Fin 32) s, Runs (.riderBr n) s (Only [.rider] s)) ∧
  (∀ (n : Fin 32) s, Runs (.loop n) s (Only [.rider] s)) ∧
  (∀ (n : Fin 32) s, Runs (.shift n) s (Only [.rider] s)) ∧
  (∀ (n : Fin 32) s, Runs (.waitpin n) s (Only [.rider] s)) ∧
  (∀ (n : Fin 32) s, Runs (.waitt n) s (Only [.rider] s)) ∧
  (∀ (n : Fin 32) s, Runs (.setat n) s (Only [.rider] s)) ∧
  (∀ (n : Fin 32) s, Runs (.ld n) s (Only [.rider] s)) ∧
  (∀ (n : Fin 32) s, Runs (.mov n) s (Only [.out, .tur, .rider] s)) ∧
  (∀ (n : Fin 32) s, Runs (.sig n) s (Only [.tur, .rider] s)) ∧
  (∀ (n : Fin 32) s, Runs (.riderInstructionComplete n) s (Only [.out, .tur, .rider] s)) ∧
  (∀ (n : Fin 32) s, Runs (.setatFire n) s (Only [.out, .tur, .rider] s)) ∧
  (∀ (w : Who) (n : Fin 32) (v : U32) s, writeRefused s w (0xA028 + 0x40 * n) = false → Runs (.txdPush w n v) s (Only [.tur, .rider, .apb] s)) ∧
  (∀ (w : Who) (n : Fin 32) s, Runs (.rxdRead w n) s (Only [.ports, .out, .outcal, .tur, .gate, .shut, .wdog, .fl, .tmr, .rider, .cul, .hg, .seq, .mem, .link, .lg, .nvm, .pwr, .dbg, .bist, .due, .apb, .free] s)) ∧
  (∀ (w : Who) (n : Fin 32) (v : U32) s, writeRefused s w (0xA030 + 0x40 * n) = false → Runs (.injection w n v) s (Only [.tur, .rider, .apb] s)) ∧
  (∀ (w : Who) (i : BitVec 11) (v : U32) s, writeRefused s w (0xC000 + 4 * i.toNat) = false → Runs (.programMemoryWrite w i v) s (Only [.rider, .apb] s)) ∧
  (∀ (w : Who) (n : Fin 32) (v : U32) s, writeRefused s w (0xA000 + 0x40 * n) = false → Runs (.channelRun w n v) s (Only [.tur, .rider, .apb] s)) ∧
  (∀ (w : Who) (n : Fin 32) (v : U32) s, writeRefused s w (0xA000 + 0x40 * n) = false → Runs (.channelStop w n v) s (Only [.tur, .rider, .apb] s)) ∧
  (∀ (w : Who) (n : Fin 32) (v : U32) s, writeRefused s w (0xA000 + 0x40 * n) = false → Runs (.channelReset w n v) s (Only [.tur, .rider, .apb] s)) ∧
  (∀ (w : Who) (n : Fin 32) (hi : Bool) (v : U32) s, writeRefused s w (0xA010 + 0x40 * n + (if hi then 4 else 0)) = false → Runs (.pinMapWrite w n hi v) s (Only [.tur, .rider, .apb] s)) ∧
  (∀ (w : Who) (v : U32) s, writeRefused s w 0xB000 = false → Runs (.syncArm w v) s (Only [.tur, .rider, .apb] s)) ∧
  (∀ s, Runs .synchronisedStart s (Only [.rider] s))

/-- What Culvert, Turnout, link, Ledger, NVM and debug commands leave unchanged. Each command of the Culvert, the Turnout, the Neran link, the life ledger, the NVM, register access and the debug port completes in every state, a register-write command in every state in which its writer may write the register, and changes only the parts named for it. Each part of the state (the queue, the Gauge clock, ports, outlets, OUTCAL, Turnout, gates, shut, watchdog, flumes, timers, Gauge registers, Rider, Culvert, Headgate, Sequencer, memories, link, Ledger, NVM, power, debug, BIST, due acts, the APB answer, the free values) that the clause does not name is unchanged. -/
def Obligations.FramesOfCulvertTurnoutLinkLedgerNvmAndDebug : Prop :=
  (∀ (w : Who) (n : Fin 16) (v : U32) s, writeRefused s w (0x20000 + 0x40 * n) = false → Runs (.culvertStart w n v) s (Only [.tur, .cul, .hg, .mem, .apb] s)) ∧
  (∀ (n : Fin 16) (resp : HostRead) s, Runs (.descriptorLoad n resp) s (Only [.cul, .free] s)) ∧
  (∀ (n : Fin 16) s, Runs (.culvertTrigger n) s (Only [.tur, .cul] s)) ∧
  (∀ s, Runs .burstGrant s (Only [.cul, .free] s)) ∧
  (∀ (n : Fin 16) (resp : HostRead) (writeError : Option (Fin 16)) s, Runs (.burstComplete n resp writeError) s (Only [.cul, .seq, .mem] s)) ∧
  (∀ (n : Fin 16) s, Runs (.descriptorComplete n) s (Only [.tur, .cul, .hg, .mem] s)) ∧
  (∀ (n : Fin 16) (code : BitVec 4) s, Runs (.culvertError n code) s (Only [.tur, .cul, .hg, .mem] s)) ∧
  (∀ (w : Who) (n : Fin 16) (v : U32) s, writeRefused s w (0x20000 + 0x40 * n) = false → Runs (.culvertPause w n v) s (Only [.tur, .cul, .hg, .mem, .apb] s)) ∧
  (∀ (n : Fin 16) s, Runs (.pauseDrained n) s (Only [.cul] s)) ∧
  (∀ (w : Who) (n : Fin 16) (v : U32) s, writeRefused s w (0x20000 + 0x40 * n) = false → Runs (.culvertResume w n v) s (Only [.tur, .cul, .hg, .mem, .apb] s)) ∧
  (∀ (w : Who) (n : Fin 16) (v : U32) s, writeRefused s w (0x20000 + 0x40 * n) = false → Runs (.culvertAbort w n v) s (Only [.tur, .cul, .hg, .mem, .apb] s)) ∧
  (∀ s, Runs .eventRecordWritten s (Only [.tur, .hg] s)) ∧
  (∀ (w : Who) (t : Fin 8) s, Runs (.claim w t) s (Only [.ports, .out, .outcal, .tur, .gate, .shut, .wdog, .fl, .tmr, .rider, .cul, .hg, .seq, .mem, .link, .lg, .nvm, .pwr, .dbg, .bist, .due, .apb, .free] s)) ∧
  (∀ (w : Who) (t : Fin 8) (v : U32) s, writeRefused s w (0x3008 + 0x10 * t) = false → Runs (.complete w t v) s (Only [.tur, .apb] s)) ∧
  (∀ (n : Fin 16) s, Runs (.tdpoll n) s (Only [.ports, .out, .outcal, .tur, .gate, .shut, .wdog, .fl, .tmr, .rider, .cul, .hg, .seq, .mem, .link, .lg, .nvm, .pwr, .dbg, .bist, .due, .apb, .free] s)) ∧
  (∀ (w : Who) (v : U32) s, writeRefused s w 0x3180 = false → Runs (.swev w v) s (Only [.tur, .apb] s)) ∧
  (∀ (w : Who) (k : Fin 512) (v : U32) s, writeRefused s w (0x4000 + 8 * k) = false → Runs (.sourceConfigWrite w k v) s (Only [.tur, .apb] s)) ∧
  (∀ (w : Who) (v : U32) s, writeRefused s w 0x22808 = false → Runs (.scondset w v) s (Only [.seq, .apb] s)) ∧
  (∀ (w : Who) (v : U32) s, writeRefused s w 0x2280C = false → Runs (.scondclr w v) s (Only [.seq, .apb] s)) ∧
  (∀ (l : Fin 4) (inverted : Bool) s, Runs (.laneDetectLock l inverted) s (Only [.link] s)) ∧
  (∀ (l : Fin 4) (far : FarEnd) (ffe : BitVec 18) s, Runs (.trainingReady l far ffe) s (Only [.link] s)) ∧
  (∀ (p : Fin 4) (aseq : BitVec 8) (lidx : BitVec 8) (skew : U32) s, Runs (.portUp p aseq lidx skew) s (Only [.tur, .link] s)) ∧
  (∀ (l : Fin 4) s, Runs (.trainingTimeout l) s (Only [.tur, .link] s)) ∧
  (∀ (p : Fin 4) s, Runs (.lossOfLock p) s (Only [.tur, .hg, .link] s)) ∧
  (∀ (w : Who) (l : Fin 4) (v : U32) s, writeRefused s w (0x23100 + 0x20 * l) = false → Runs (.retrain w l v) s (Only [.tur, .hg, .link, .apb] s)) ∧
  (∀ (w : Who) (v : U32) s, writeRefused s w 0x23000 = false → Runs (.laneGroupWrite w v) s (Only [.tur, .hg, .link, .apb] s)) ∧
  (∀ (p : Fin 4) (bits : BitVec 680) s, Runs (.codewordReceive p bits) s (Only [.tur, .hg, .mem, .link] s)) ∧
  (∀ (p : Fin 4) s, Runs (.codewordSend p) s (Only [.hg, .link] s)) ∧
  (∀ (p : Fin 4) (sub : BitVec 6) (c0 : U64) (c1 : U64) (c2 : U64) (c3 : U64) s, Runs (.orderedSetReceive p sub c0 c1 c2 c3) s (Only [.tur, .shut, .link, .lg] s)) ∧
  (∀ (p : Fin 4) s, Runs (.alignSend p) s (Only [.link] s)) ∧
  (∀ (p : Fin 4) (origin : BitVec 14) (seq : BitVec 8) (hops : BitVec 5) s, Runs (.shutOrderReceive p origin seq hops) s (Only [.tur, .shut, .link, .lg] s)) ∧
  (∀ s, Runs .trickleLock s (Only [.link] s)) ∧
  (∀ (p : Fin 4) (sub : BitVec 6) s, Runs (.timeExchange p sub) s (Only [.link] s)) ∧
  (∀ (p : Fin 4) (sub : BitVec 6) s, Runs (.timeMarkerReply p sub) s (Only [.link] s)) ∧
  (∀ (p : Fin 4) s, Runs (.timeFrameReceive p) s (Only [.clk, .ports, .tur, .fl, .tmr, .rider, .link] s)) ∧
  (∀ s, Runs .advSend s (Only [.link] s)) ∧
  (∀ (p : Fin 4) s, Runs (.adv p) s (Only [.tur, .hg, .link] s)) ∧
  (∀ s, Runs .masterElection s (Only [.tur, .hg, .link] s)) ∧
  (∀ s, Runs .electionRestart s (Only [.tur, .link] s)) ∧
  (∀ (p : Fin 4) s, Runs (.count p) s (Only [.tur, .hg, .link] s)) ∧
  (∀ (p : Fin 4) s, Runs (.assign p) s (Only [.link] s)) ∧
  (∀ (p : Fin 4) s, Runs (.reroute p) s (Only [.tur, .link] s)) ∧
  (∀ (p : Fin 4) s, Runs (.wake p) s (Only [.tur, .link, .pwr] s)) ∧
  (∀ (p : Fin 4) s, Runs (.regreq p) s (Only [.ports, .out, .outcal, .tur, .gate, .shut, .wdog, .fl, .tmr, .rider, .cul, .hg, .seq, .mem, .link, .lg, .nvm, .pwr, .bist, .due, .free] s)) ∧
  (∀ (p : Fin 4) s, Runs (.regrsp p) s (Only [.tur, .wdog, .seq, .mem, .link, .dbg, .due, .apb] s)) ∧
  (∀ (p : Fin 4) s, Runs (.cresync p) s (Only [.link] s)) ∧
  (∀ (p : Fin 4) s, Runs (.cmdFrameReceive p) s (Only [.tur, .hg, .link] s)) ∧
  (∀ (p : Fin 4) s, Runs (.receiveRingWrite p) s (Only [.tur, .seq, .mem, .link] s)) ∧
  (∀ (p : Fin 4) s, Runs (.sampFrameReceive p) s (Only [.tur, .seq, .mem, .link] s)) ∧
  (∀ (w : Who) (v : U32) s, writeRefused s w 0x23050 = false → Runs (.receiveRingEnable w v) s (Only [.link, .apb] s)) ∧
  (∀ (w : Who) (c : Fin 16) (v : U32) s, writeRefused s w (0x24104 + 0x20 * c) = false → Runs (.temperatureWrite w c v) s (Only [.tur, .lg, .apb] s)) ∧
  (∀ (c : Fin 16) s, Runs (.temperatureProcess c) s (Only [.tur, .mem, .lg, .free] s)) ∧
  (∀ s, Runs .ageingTick s (Only [.tur, .mem, .lg, .free] s)) ∧
  (∀ s, Runs .persistenceStart s (Only [.tur, .hg, .seq, .mem, .lg, .nvm, .free] s)) ∧
  (∀ s, Runs .persistenceCommit s (Only [.tur, .hg, .seq, .mem, .lg, .nvm, .free] s)) ∧
  (∀ (w : Who) (v : U32) s, writeRefused s w 0x24000 = false → Runs (.ledgerLoad w v) s (Only [.tur, .mem, .lg, .nvm, .apb, .free] s)) ∧
  (∀ (w : Who) (v : Option U32) s, Runs (.lgmdataAccess w v) s (Only [.ports, .out, .outcal, .tur, .gate, .shut, .wdog, .fl, .tmr, .rider, .cul, .hg, .seq, .mem, .link, .lg, .nvm, .pwr, .dbg, .bist, .due, .apb, .free] s)) ∧
  (∀ (w : Who) (c : Fin 16) s, Runs (.dmglRead w c) s (Only [.ports, .out, .outcal, .tur, .gate, .shut, .wdog, .fl, .tmr, .rider, .cul, .hg, .seq, .mem, .link, .lg, .nvm, .pwr, .dbg, .bist, .due, .apb, .free] s)) ∧
  (∀ (pass : Bool) s, Runs (.erasePulseEnd pass) s (Only [.tur, .hg, .seq, .mem, .lg, .nvm, .free] s)) ∧
  (∀ (pass : Bool) s, Runs (.programPulseEnd pass) s (Only [.tur, .hg, .seq, .mem, .lg, .nvm, .free] s)) ∧
  (∀ s, Runs .nvmSuspend s (Only [.nvm] s)) ∧
  (∀ s, Runs .nvmResume s (Only [.nvm] s)) ∧
  (∀ (w : Who) (v : U32) s, writeRefused s w 0x25004 = false → Runs (.nvmSuspWrite w v) s (Only [.nvm, .apb] s)) ∧
  (∀ (w : Who) s, Runs (.nvmcntRead w) s (Only [.ports, .out, .outcal, .tur, .gate, .shut, .wdog, .fl, .tmr, .rider, .cul, .hg, .seq, .mem, .link, .lg, .nvm, .pwr, .dbg, .bist, .due, .apb, .free] s)) ∧
  (∀ (w : Who) s, Runs (.hgevlostRead w) s (Only [.ports, .out, .outcal, .tur, .gate, .shut, .wdog, .fl, .tmr, .rider, .cul, .hg, .seq, .mem, .link, .lg, .nvm, .pwr, .dbg, .bist, .due, .apb, .free] s)) ∧
  (∀ (w : Who) (l : Fin 4) s, Runs (.cerrRead w l) s (Only [.ports, .out, .outcal, .tur, .gate, .shut, .wdog, .fl, .tmr, .rider, .cul, .hg, .seq, .mem, .link, .lg, .nvm, .pwr, .dbg, .bist, .due, .apb, .free] s)) ∧
  (∀ (w : Who) (p : Fin 4) (which : Fin 3) s, Runs (.codewordCounterRead w p which) s (Only [.ports, .out, .outcal, .tur, .gate, .shut, .wdog, .fl, .tmr, .rider, .cul, .hg, .seq, .mem, .link, .lg, .nvm, .pwr, .dbg, .bist, .due, .apb, .free] s)) ∧
  (∀ (w : Who) (p : Fin 4) s, Runs (.frdropRead w p) s (Only [.ports, .out, .outcal, .tur, .gate, .shut, .wdog, .fl, .tmr, .rider, .cul, .hg, .seq, .mem, .link, .lg, .nvm, .pwr, .dbg, .bist, .due, .apb, .free] s)) ∧
  (∀ (w : Who) s, Runs (.netdropRead w) s (Only [.ports, .out, .outcal, .tur, .gate, .shut, .wdog, .fl, .tmr, .rider, .cul, .hg, .seq, .mem, .link, .lg, .nvm, .pwr, .dbg, .bist, .due, .apb, .free] s)) ∧
  (∀ (w : Who) s, Runs (.nrxlostRead w) s (Only [.ports, .out, .outcal, .tur, .gate, .shut, .wdog, .fl, .tmr, .rider, .cul, .hg, .seq, .mem, .link, .lg, .nvm, .pwr, .dbg, .bist, .due, .apb, .free] s)) ∧
  (∀ (w : Who) (off : BitVec 20) (v : U32) (strb : BitVec 4) s, Runs (.registerWrite w off v strb) s (Only [.ports, .out, .outcal, .tur, .gate, .shut, .wdog, .fl, .tmr, .rider, .cul, .hg, .seq, .mem, .link, .lg, .nvm, .pwr, .dbg, .bist, .due, .apb, .free] s)) ∧
  (∀ (w : Who) (off : BitVec 20) (v : U32) (strb : BitVec 4) s, Runs (.storeWindowWrite w off v strb) s (Only [.ports, .out, .outcal, .tur, .gate, .shut, .wdog, .fl, .tmr, .rider, .cul, .hg, .seq, .mem, .link, .lg, .nvm, .pwr, .dbg, .bist, .due, .apb, .free] s)) ∧
  (∀ (w : Who) (off : BitVec 20) (wr : Option U32) (strb : BitVec 4) s, Runs (.groupApertureAccess w off wr strb) s (Only [.ports, .out, .outcal, .tur, .gate, .shut, .wdog, .fl, .tmr, .rider, .cul, .hg, .seq, .mem, .link, .lg, .nvm, .pwr, .dbg, .bist, .due, .apb, .free] s)) ∧
  (∀ (op : BitVec 4) (addr : BitVec 24) s, Runs (.rd op addr) s (Only [.dbg] s)) ∧
  (∀ (op : BitVec 4) (addr : BitVec 24) (v : U32) (crc : BitVec 4) s, Runs (.wr op addr v crc) s (Only [.clk, .ports, .out, .tur, .wdog, .fl, .tmr, .gp, .rider, .cul, .hg, .seq, .mem, .link, .lg, .nvm, .pwr, .dbg, .bist, .due, .free] s)) ∧
  (∀ (v : U32) (noise : U32) s, Runs (.challenge v noise) s (Only [.dbg] s)) ∧
  (∀ s, Runs .check s (Only [.tur, .wdog, .seq, .dbg] s)) ∧
  (∀ s, Runs .lockoutExpiry s (Only [.dbg] s)) ∧
  (∀ s, Runs .drop s (Only [.tur, .wdog, .seq, .dbg] s)) ∧
  (∀ s, Runs .dbdataRead s (Only [.dbg] s)) ∧
  (∀ (v : U32) s, Runs (.dbdataWrite v) s (Only [.dbg] s)) ∧
  (∀ (resp : LoadResp) s, Runs (.debugBusComplete resp) s (Only [.ports, .out, .outcal, .tur, .gate, .shut, .wdog, .fl, .tmr, .rider, .cul, .hg, .seq, .mem, .link, .lg, .nvm, .pwr, .dbg, .bist, .due, .free] s)) ∧
  (∀ (n : Fin 16) s, Runs (.halt n) s (Only [.tur, .wdog, .seq, .dbg] s)) ∧
  (∀ (n : Fin 16) s, Runs (.monitorEntry n) s (Only [.tur, .wdog, .seq, .mem, .link, .due, .free] s)) ∧
  (∀ (n : Fin 16) s, Runs (.monitorRequest n) s (Only [.tur, .wdog, .seq] s)) ∧
  (∀ (n : Fin 16) s, Runs (.resume n) s (Only [.tur, .wdog, .seq, .dbg] s)) ∧
  (∀ (n : Fin 16) s, Runs (.stepEntry n) s (Only [.tur, .wdog, .seq] s)) ∧
  (∀ s, Runs .freezeBegin s (Only [.tur, .dbg] s)) ∧
  (∀ s, Runs .thaw s (Only [.out, .tur, .tmr, .rider, .dbg] s)) ∧
  (∀ s, Runs .dctlWake s (Only [.tur, .pwr, .dbg] s)) ∧
  (∀ (rdrI : U64) s, Runs (.gaugeAdvance rdrI) s (Only [.clk, .ports, .out, .outcal, .tur, .gate, .shut, .wdog, .fl, .tmr, .gp, .rider, .cul, .hg, .seq, .mem, .link, .lg, .nvm, .pwr, .bist, .due, .free] s)) ∧
  (∀ s, Runs .watchdogCount s (Only [.wdog] s)) ∧
  (∀ s, Runs .tallyCount s (Only [.gp] s)) ∧
  (∀ (p : Fin 4) s, Runs (.trickleLockLoss p) s (Only [.tur, .hg, .link] s)) ∧
  (∀ s, Runs .portReturnToIdle s (Only [.dbg] s))
end

