-- ==== Sys2Proof/Laws/Tables.lean ====
section
/-! SUPPORT. Reading an entry of a table after a change of one of its entries. -/

namespace Sys2Proof.Machine

theorem vget_vmod_self {α : Type} {n i : Nat} (v : Vector α n) (h : i < n) (f : α → α) (d : α) :
    vget (vmod v i f) i d = f (vget v i d) := by
  simp [vget, vmod, h]

theorem vget_vmod_other {α : Type} {n i j : Nat} (v : Vector α n) (h : i ≠ j) (f : α → α) (d : α) :
    vget (vmod v j f) i d = vget v i d := by
  unfold vget vmod
  split
  · split
    · rw [Vector.getElem_set_ne]
      exact fun e => h e.symm
    · rfl
  · rfl

theorem vget_vset_self {α : Type} {n i : Nat} (v : Vector α n) (h : i < n) (x d : α) : vget (vset v i x) i d = x :=
  vget_vmod_self v h _ d

theorem vget_vset_other {α : Type} {n i j : Nat} (v : Vector α n) (h : i ≠ j) (x d : α) :
    vget (vset v j x) i d = vget v i d := vget_vmod_other v h _ d

theorem vget_past {α : Type} {n i : Nat} (v : Vector α n) (h : n ≤ i) (d : α) : vget v i d = d := by
  unfold vget
  rw [dif_neg (by omega)]

end Sys2Proof.Machine
end

