-- ==== Sys2Proof/Laws/Effects.lean ====
section
/-! SUPPORT. What the operations that most commands end in leave in the state: the answer to an access, the gates of CORE,
and the raising of a source. -/

namespace Sys2Proof.Machine

theorem vget_vmap {α β : Type} {n i : Nat} (v : Vector α n) (h : i < n) (f : Nat → α → β) (d : α) (e : β) :
    vget (vmap v f) i e = f i (vget v i d) := by
  simp [vget, vmap, h]

theorem vget_vgen {α : Type} {n i : Nat} (h : i < n) (f : Nat → α) (d : α) : vget (vgen n f) i d = f i := by
  simp [vget, vgen, h]

/-! ## The answer to an access -/

@[simp] theorem answer_pending (s : State) (w : Who) (r : Resp) : (answer s w r).pending = s.pending := by cases w <;> rfl
@[simp] theorem answer_clk (s : State) (w : Who) (r : Resp) : (answer s w r).clk = s.clk := by cases w <;> rfl
@[simp] theorem answer_ports (s : State) (w : Who) (r : Resp) : (answer s w r).ports = s.ports := by cases w <;> rfl
@[simp] theorem answer_out (s : State) (w : Who) (r : Resp) : (answer s w r).out = s.out := by cases w <;> rfl
@[simp] theorem answer_outcal (s : State) (w : Who) (r : Resp) : (answer s w r).outcal = s.outcal := by cases w <;> rfl
@[simp] theorem answer_tur (s : State) (w : Who) (r : Resp) : (answer s w r).tur = s.tur := by cases w <;> rfl
@[simp] theorem answer_gate (s : State) (w : Who) (r : Resp) : (answer s w r).gate = s.gate := by cases w <;> rfl
@[simp] theorem answer_shut (s : State) (w : Who) (r : Resp) : (answer s w r).shut = s.shut := by cases w <;> rfl
@[simp] theorem answer_wdog (s : State) (w : Who) (r : Resp) : (answer s w r).wdog = s.wdog := by cases w <;> rfl
@[simp] theorem answer_fl (s : State) (w : Who) (r : Resp) : (answer s w r).fl = s.fl := by cases w <;> rfl
@[simp] theorem answer_tmr (s : State) (w : Who) (r : Resp) : (answer s w r).tmr = s.tmr := by cases w <;> rfl
@[simp] theorem answer_gp (s : State) (w : Who) (r : Resp) : (answer s w r).gp = s.gp := by cases w <;> rfl
@[simp] theorem answer_rider (s : State) (w : Who) (r : Resp) : (answer s w r).rider = s.rider := by cases w <;> rfl
@[simp] theorem answer_cul (s : State) (w : Who) (r : Resp) : (answer s w r).cul = s.cul := by cases w <;> rfl
@[simp] theorem answer_hg (s : State) (w : Who) (r : Resp) : (answer s w r).hg = s.hg := by cases w <;> rfl
@[simp] theorem answer_seq (s : State) (w : Who) (r : Resp) : (answer s w r).seq = s.seq := by cases w <;> rfl
@[simp] theorem answer_mem (s : State) (w : Who) (r : Resp) : (answer s w r).mem = s.mem := by cases w <;> rfl
@[simp] theorem answer_link (s : State) (w : Who) (r : Resp) : (answer s w r).link = s.link := by cases w <;> rfl
@[simp] theorem answer_lg (s : State) (w : Who) (r : Resp) : (answer s w r).lg = s.lg := by cases w <;> rfl
@[simp] theorem answer_nvm (s : State) (w : Who) (r : Resp) : (answer s w r).nvm = s.nvm := by cases w <;> rfl
@[simp] theorem answer_pwr (s : State) (w : Who) (r : Resp) : (answer s w r).pwr = s.pwr := by cases w <;> rfl
@[simp] theorem answer_dbg (s : State) (w : Who) (r : Resp) : (answer s w r).dbg = s.dbg := by cases w <;> rfl
@[simp] theorem answer_bist (s : State) (w : Who) (r : Resp) : (answer s w r).bist = s.bist := by cases w <;> rfl
@[simp] theorem answer_due (s : State) (w : Who) (r : Resp) : (answer s w r).due = s.due := by cases w <;> rfl
@[simp] theorem answer_free (s : State) (w : Who) (r : Resp) : (answer s w r).free = s.free := by cases w <;> rfl

theorem answer_host (s : State) (r : Resp) :
    (answer s .host r).apb = { rdata := if r.err then 0 else r.data, slverr := r.err } := rfl

/-! ## CORE -/

theorem onCore_on {s t : State} (w : Who) (h : coreOff s = false) : onCore s w t = t := by
  have hp : porLow s = false := by
    cases hp : porLow s with
    | false => rfl
    | true => simp [coreOff, hp] at h
  simp [onCore, h, hp]

theorem inCore_on {s t : State} (h : coreOff s = false) : inCore s t = t := by
  simp [inCore, h]

/-! ## What hardware sets in an fc (R12, R13) -/

@[simp] theorem hwSet_pending (off : Nat) (bits : U32) (s : State) : (hwSet off bits s).pending = s.pending := by
  unfold hwSet; split <;> rfl

@[simp] theorem hwSetIf_pending (c : Bool) (off : Nat) (bits : U32) (s : State) : (hwSetIf c off bits s).pending = s.pending := by
  cases c <;> simp [hwSetIf]

@[simp] theorem rcSet_pending (off : Nat) (b : U32) (f : U32 → U32) (s : State) : (rcSet off b f s).pending = s.pending := by
  unfold rcSet; repeat' split
  all_goals rfl

@[simp] theorem rcTaken_pending (off : Nat) (s : State) : (rcTaken off s).pending = s.pending := rfl

@[simp] theorem hwSet_clk (off : Nat) (bits : U32) (s : State) : (hwSet off bits s).clk = s.clk := by
  unfold hwSet; split <;> rfl

@[simp] theorem hwSetIf_clk (c : Bool) (off : Nat) (bits : U32) (s : State) : (hwSetIf c off bits s).clk = s.clk := by
  cases c <;> simp [hwSetIf]

@[simp] theorem rcSet_clk (off : Nat) (b : U32) (f : U32 → U32) (s : State) : (rcSet off b f s).clk = s.clk := by
  unfold rcSet; repeat' split
  all_goals rfl

@[simp] theorem rcTaken_clk (off : Nat) (s : State) : (rcTaken off s).clk = s.clk := rfl

@[simp] theorem hwSet_ports (off : Nat) (bits : U32) (s : State) : (hwSet off bits s).ports = s.ports := by
  unfold hwSet; split <;> rfl

@[simp] theorem hwSetIf_ports (c : Bool) (off : Nat) (bits : U32) (s : State) : (hwSetIf c off bits s).ports = s.ports := by
  cases c <;> simp [hwSetIf]

@[simp] theorem rcSet_ports (off : Nat) (b : U32) (f : U32 → U32) (s : State) : (rcSet off b f s).ports = s.ports := by
  unfold rcSet; repeat' split
  all_goals rfl

@[simp] theorem rcTaken_ports (off : Nat) (s : State) : (rcTaken off s).ports = s.ports := rfl

@[simp] theorem hwSet_out (off : Nat) (bits : U32) (s : State) : (hwSet off bits s).out = s.out := by
  unfold hwSet; split <;> rfl

@[simp] theorem hwSetIf_out (c : Bool) (off : Nat) (bits : U32) (s : State) : (hwSetIf c off bits s).out = s.out := by
  cases c <;> simp [hwSetIf]

@[simp] theorem rcSet_out (off : Nat) (b : U32) (f : U32 → U32) (s : State) : (rcSet off b f s).out = s.out := by
  unfold rcSet; repeat' split
  all_goals rfl

@[simp] theorem rcTaken_out (off : Nat) (s : State) : (rcTaken off s).out = s.out := rfl

@[simp] theorem hwSet_outcal (off : Nat) (bits : U32) (s : State) : (hwSet off bits s).outcal = s.outcal := by
  unfold hwSet; split <;> rfl

@[simp] theorem hwSetIf_outcal (c : Bool) (off : Nat) (bits : U32) (s : State) : (hwSetIf c off bits s).outcal = s.outcal := by
  cases c <;> simp [hwSetIf]

@[simp] theorem rcSet_outcal (off : Nat) (b : U32) (f : U32 → U32) (s : State) : (rcSet off b f s).outcal = s.outcal := by
  unfold rcSet; repeat' split
  all_goals rfl

@[simp] theorem rcTaken_outcal (off : Nat) (s : State) : (rcTaken off s).outcal = s.outcal := rfl

@[simp] theorem hwSet_gate (off : Nat) (bits : U32) (s : State) : (hwSet off bits s).gate = s.gate := by
  unfold hwSet; split <;> rfl

@[simp] theorem hwSetIf_gate (c : Bool) (off : Nat) (bits : U32) (s : State) : (hwSetIf c off bits s).gate = s.gate := by
  cases c <;> simp [hwSetIf]

@[simp] theorem rcSet_gate (off : Nat) (b : U32) (f : U32 → U32) (s : State) : (rcSet off b f s).gate = s.gate := by
  unfold rcSet; repeat' split
  all_goals rfl

@[simp] theorem rcTaken_gate (off : Nat) (s : State) : (rcTaken off s).gate = s.gate := rfl

@[simp] theorem hwSet_shut (off : Nat) (bits : U32) (s : State) : (hwSet off bits s).shut = s.shut := by
  unfold hwSet; split <;> rfl

@[simp] theorem hwSetIf_shut (c : Bool) (off : Nat) (bits : U32) (s : State) : (hwSetIf c off bits s).shut = s.shut := by
  cases c <;> simp [hwSetIf]

@[simp] theorem rcSet_shut (off : Nat) (b : U32) (f : U32 → U32) (s : State) : (rcSet off b f s).shut = s.shut := by
  unfold rcSet; repeat' split
  all_goals rfl

@[simp] theorem rcTaken_shut (off : Nat) (s : State) : (rcTaken off s).shut = s.shut := rfl

@[simp] theorem hwSet_wdog (off : Nat) (bits : U32) (s : State) : (hwSet off bits s).wdog = s.wdog := by
  unfold hwSet; split <;> rfl

@[simp] theorem hwSetIf_wdog (c : Bool) (off : Nat) (bits : U32) (s : State) : (hwSetIf c off bits s).wdog = s.wdog := by
  cases c <;> simp [hwSetIf]

@[simp] theorem rcSet_wdog (off : Nat) (b : U32) (f : U32 → U32) (s : State) : (rcSet off b f s).wdog = s.wdog := by
  unfold rcSet; repeat' split
  all_goals rfl

@[simp] theorem rcTaken_wdog (off : Nat) (s : State) : (rcTaken off s).wdog = s.wdog := rfl

@[simp] theorem hwSet_fl (off : Nat) (bits : U32) (s : State) : (hwSet off bits s).fl = s.fl := by
  unfold hwSet; split <;> rfl

@[simp] theorem hwSetIf_fl (c : Bool) (off : Nat) (bits : U32) (s : State) : (hwSetIf c off bits s).fl = s.fl := by
  cases c <;> simp [hwSetIf]

@[simp] theorem rcSet_fl (off : Nat) (b : U32) (f : U32 → U32) (s : State) : (rcSet off b f s).fl = s.fl := by
  unfold rcSet; repeat' split
  all_goals rfl

@[simp] theorem rcTaken_fl (off : Nat) (s : State) : (rcTaken off s).fl = s.fl := rfl

@[simp] theorem hwSet_tmr (off : Nat) (bits : U32) (s : State) : (hwSet off bits s).tmr = s.tmr := by
  unfold hwSet; split <;> rfl

@[simp] theorem hwSetIf_tmr (c : Bool) (off : Nat) (bits : U32) (s : State) : (hwSetIf c off bits s).tmr = s.tmr := by
  cases c <;> simp [hwSetIf]

@[simp] theorem rcSet_tmr (off : Nat) (b : U32) (f : U32 → U32) (s : State) : (rcSet off b f s).tmr = s.tmr := by
  unfold rcSet; repeat' split
  all_goals rfl

@[simp] theorem rcTaken_tmr (off : Nat) (s : State) : (rcTaken off s).tmr = s.tmr := rfl

@[simp] theorem hwSet_gp (off : Nat) (bits : U32) (s : State) : (hwSet off bits s).gp = s.gp := by
  unfold hwSet; split <;> rfl

@[simp] theorem hwSetIf_gp (c : Bool) (off : Nat) (bits : U32) (s : State) : (hwSetIf c off bits s).gp = s.gp := by
  cases c <;> simp [hwSetIf]

@[simp] theorem rcSet_gp (off : Nat) (b : U32) (f : U32 → U32) (s : State) : (rcSet off b f s).gp = s.gp := by
  unfold rcSet; repeat' split
  all_goals rfl

@[simp] theorem rcTaken_gp (off : Nat) (s : State) : (rcTaken off s).gp = s.gp := rfl

@[simp] theorem hwSet_rider (off : Nat) (bits : U32) (s : State) : (hwSet off bits s).rider = s.rider := by
  unfold hwSet; split <;> rfl

@[simp] theorem hwSetIf_rider (c : Bool) (off : Nat) (bits : U32) (s : State) : (hwSetIf c off bits s).rider = s.rider := by
  cases c <;> simp [hwSetIf]

@[simp] theorem rcSet_rider (off : Nat) (b : U32) (f : U32 → U32) (s : State) : (rcSet off b f s).rider = s.rider := by
  unfold rcSet; repeat' split
  all_goals rfl

@[simp] theorem rcTaken_rider (off : Nat) (s : State) : (rcTaken off s).rider = s.rider := rfl

@[simp] theorem hwSet_cul (off : Nat) (bits : U32) (s : State) : (hwSet off bits s).cul = s.cul := by
  unfold hwSet; split <;> rfl

@[simp] theorem hwSetIf_cul (c : Bool) (off : Nat) (bits : U32) (s : State) : (hwSetIf c off bits s).cul = s.cul := by
  cases c <;> simp [hwSetIf]

@[simp] theorem rcSet_cul (off : Nat) (b : U32) (f : U32 → U32) (s : State) : (rcSet off b f s).cul = s.cul := by
  unfold rcSet; repeat' split
  all_goals rfl

@[simp] theorem rcTaken_cul (off : Nat) (s : State) : (rcTaken off s).cul = s.cul := rfl

@[simp] theorem hwSet_hg (off : Nat) (bits : U32) (s : State) : (hwSet off bits s).hg = s.hg := by
  unfold hwSet; split <;> rfl

@[simp] theorem hwSetIf_hg (c : Bool) (off : Nat) (bits : U32) (s : State) : (hwSetIf c off bits s).hg = s.hg := by
  cases c <;> simp [hwSetIf]

@[simp] theorem rcSet_hg (off : Nat) (b : U32) (f : U32 → U32) (s : State) : (rcSet off b f s).hg = s.hg := by
  unfold rcSet; repeat' split
  all_goals rfl

@[simp] theorem rcTaken_hg (off : Nat) (s : State) : (rcTaken off s).hg = s.hg := rfl

@[simp] theorem hwSet_seq (off : Nat) (bits : U32) (s : State) : (hwSet off bits s).seq = s.seq := by
  unfold hwSet; split <;> rfl

@[simp] theorem hwSetIf_seq (c : Bool) (off : Nat) (bits : U32) (s : State) : (hwSetIf c off bits s).seq = s.seq := by
  cases c <;> simp [hwSetIf]

@[simp] theorem rcSet_seq (off : Nat) (b : U32) (f : U32 → U32) (s : State) : (rcSet off b f s).seq = s.seq := by
  unfold rcSet; repeat' split
  all_goals rfl

@[simp] theorem rcTaken_seq (off : Nat) (s : State) : (rcTaken off s).seq = s.seq := rfl

@[simp] theorem hwSet_mem (off : Nat) (bits : U32) (s : State) : (hwSet off bits s).mem = s.mem := by
  unfold hwSet; split <;> rfl

@[simp] theorem hwSetIf_mem (c : Bool) (off : Nat) (bits : U32) (s : State) : (hwSetIf c off bits s).mem = s.mem := by
  cases c <;> simp [hwSetIf]

@[simp] theorem rcSet_mem (off : Nat) (b : U32) (f : U32 → U32) (s : State) : (rcSet off b f s).mem = s.mem := by
  unfold rcSet; repeat' split
  all_goals rfl

@[simp] theorem rcTaken_mem (off : Nat) (s : State) : (rcTaken off s).mem = s.mem := rfl

@[simp] theorem hwSet_link (off : Nat) (bits : U32) (s : State) : (hwSet off bits s).link = s.link := by
  unfold hwSet; split <;> rfl

@[simp] theorem hwSetIf_link (c : Bool) (off : Nat) (bits : U32) (s : State) : (hwSetIf c off bits s).link = s.link := by
  cases c <;> simp [hwSetIf]

@[simp] theorem rcSet_link (off : Nat) (b : U32) (f : U32 → U32) (s : State) : (rcSet off b f s).link = s.link := by
  unfold rcSet; repeat' split
  all_goals rfl

@[simp] theorem rcTaken_link (off : Nat) (s : State) : (rcTaken off s).link = s.link := rfl

@[simp] theorem hwSet_lg (off : Nat) (bits : U32) (s : State) : (hwSet off bits s).lg = s.lg := by
  unfold hwSet; split <;> rfl

@[simp] theorem hwSetIf_lg (c : Bool) (off : Nat) (bits : U32) (s : State) : (hwSetIf c off bits s).lg = s.lg := by
  cases c <;> simp [hwSetIf]

@[simp] theorem rcSet_lg (off : Nat) (b : U32) (f : U32 → U32) (s : State) : (rcSet off b f s).lg = s.lg := by
  unfold rcSet; repeat' split
  all_goals rfl

@[simp] theorem rcTaken_lg (off : Nat) (s : State) : (rcTaken off s).lg = s.lg := rfl

@[simp] theorem hwSet_nvm (off : Nat) (bits : U32) (s : State) : (hwSet off bits s).nvm = s.nvm := by
  unfold hwSet; split <;> rfl

@[simp] theorem hwSetIf_nvm (c : Bool) (off : Nat) (bits : U32) (s : State) : (hwSetIf c off bits s).nvm = s.nvm := by
  cases c <;> simp [hwSetIf]

@[simp] theorem rcSet_nvm (off : Nat) (b : U32) (f : U32 → U32) (s : State) : (rcSet off b f s).nvm = s.nvm := by
  unfold rcSet; repeat' split
  all_goals rfl

@[simp] theorem rcTaken_nvm (off : Nat) (s : State) : (rcTaken off s).nvm = s.nvm := rfl

@[simp] theorem hwSet_pwr (off : Nat) (bits : U32) (s : State) : (hwSet off bits s).pwr = s.pwr := by
  unfold hwSet; split <;> rfl

@[simp] theorem hwSetIf_pwr (c : Bool) (off : Nat) (bits : U32) (s : State) : (hwSetIf c off bits s).pwr = s.pwr := by
  cases c <;> simp [hwSetIf]

@[simp] theorem rcSet_pwr (off : Nat) (b : U32) (f : U32 → U32) (s : State) : (rcSet off b f s).pwr = s.pwr := by
  unfold rcSet; repeat' split
  all_goals rfl

@[simp] theorem rcTaken_pwr (off : Nat) (s : State) : (rcTaken off s).pwr = s.pwr := rfl

@[simp] theorem hwSet_dbg (off : Nat) (bits : U32) (s : State) : (hwSet off bits s).dbg = s.dbg := by
  unfold hwSet; split <;> rfl

@[simp] theorem hwSetIf_dbg (c : Bool) (off : Nat) (bits : U32) (s : State) : (hwSetIf c off bits s).dbg = s.dbg := by
  cases c <;> simp [hwSetIf]

@[simp] theorem rcSet_dbg (off : Nat) (b : U32) (f : U32 → U32) (s : State) : (rcSet off b f s).dbg = s.dbg := by
  unfold rcSet; repeat' split
  all_goals rfl

@[simp] theorem rcTaken_dbg (off : Nat) (s : State) : (rcTaken off s).dbg = s.dbg := rfl

@[simp] theorem hwSet_bist (off : Nat) (bits : U32) (s : State) : (hwSet off bits s).bist = s.bist := by
  unfold hwSet; split <;> rfl

@[simp] theorem hwSetIf_bist (c : Bool) (off : Nat) (bits : U32) (s : State) : (hwSetIf c off bits s).bist = s.bist := by
  cases c <;> simp [hwSetIf]

@[simp] theorem rcSet_bist (off : Nat) (b : U32) (f : U32 → U32) (s : State) : (rcSet off b f s).bist = s.bist := by
  unfold rcSet; repeat' split
  all_goals rfl

@[simp] theorem rcTaken_bist (off : Nat) (s : State) : (rcTaken off s).bist = s.bist := rfl

@[simp] theorem hwSet_due (off : Nat) (bits : U32) (s : State) : (hwSet off bits s).due = s.due := by
  unfold hwSet; split <;> rfl

@[simp] theorem hwSetIf_due (c : Bool) (off : Nat) (bits : U32) (s : State) : (hwSetIf c off bits s).due = s.due := by
  cases c <;> simp [hwSetIf]

@[simp] theorem rcSet_due (off : Nat) (b : U32) (f : U32 → U32) (s : State) : (rcSet off b f s).due = s.due := by
  unfold rcSet; repeat' split
  all_goals rfl

@[simp] theorem rcTaken_due (off : Nat) (s : State) : (rcTaken off s).due = s.due := rfl

@[simp] theorem hwSet_apb (off : Nat) (bits : U32) (s : State) : (hwSet off bits s).apb = s.apb := by
  unfold hwSet; split <;> rfl

@[simp] theorem hwSetIf_apb (c : Bool) (off : Nat) (bits : U32) (s : State) : (hwSetIf c off bits s).apb = s.apb := by
  cases c <;> simp [hwSetIf]

@[simp] theorem rcSet_apb (off : Nat) (b : U32) (f : U32 → U32) (s : State) : (rcSet off b f s).apb = s.apb := by
  unfold rcSet; repeat' split
  all_goals rfl

@[simp] theorem rcTaken_apb (off : Nat) (s : State) : (rcTaken off s).apb = s.apb := rfl

@[simp] theorem hwSet_free (off : Nat) (bits : U32) (s : State) : (hwSet off bits s).free = s.free := by
  unfold hwSet; split <;> rfl

@[simp] theorem hwSetIf_free (c : Bool) (off : Nat) (bits : U32) (s : State) : (hwSetIf c off bits s).free = s.free := by
  cases c <;> simp [hwSetIf]

@[simp] theorem rcSet_free (off : Nat) (b : U32) (f : U32 → U32) (s : State) : (rcSet off b f s).free = s.free := by
  unfold rcSet; repeat' split
  all_goals rfl

@[simp] theorem rcTaken_free (off : Nat) (s : State) : (rcTaken off s).free = s.free := rfl

@[simp] theorem hwSet_raised (off : Nat) (bits : U32) (s : State) : (hwSet off bits s).tur.raised = s.tur.raised := by
  unfold hwSet; split <;> rfl

@[simp] theorem hwSetIf_raised (c : Bool) (off : Nat) (bits : U32) (s : State) : (hwSetIf c off bits s).tur.raised = s.tur.raised := by
  cases c <;> simp [hwSetIf]

@[simp] theorem rcSet_raised (off : Nat) (b : U32) (f : U32 → U32) (s : State) : (rcSet off b f s).tur.raised = s.tur.raised := by
  unfold rcSet; repeat' split
  all_goals rfl

@[simp] theorem rcTaken_raised (off : Nat) (s : State) : (rcTaken off s).tur.raised = s.tur.raised := rfl

@[simp] theorem hwSet_src (off : Nat) (bits : U32) (s : State) : (hwSet off bits s).tur.src = s.tur.src := by
  unfold hwSet; split <;> rfl

@[simp] theorem hwSetIf_src (c : Bool) (off : Nat) (bits : U32) (s : State) : (hwSetIf c off bits s).tur.src = s.tur.src := by
  cases c <;> simp [hwSetIf]

@[simp] theorem rcSet_src (off : Nat) (b : U32) (f : U32 → U32) (s : State) : (rcSet off b f s).tur.src = s.tur.src := by
  unfold rcSet; repeat' split
  all_goals rfl

@[simp] theorem rcTaken_src (off : Nat) (s : State) : (rcTaken off s).tur.src = s.tur.src := rfl

@[simp] theorem hwSet_outlet (off : Nat) (bits : U32) (s : State) (n : Nat) : (hwSet off bits s).outlet n = s.outlet n := by
  unfold State.outlet; rw [hwSet_out]

@[simp] theorem hwSetIf_outlet (c : Bool) (off : Nat) (bits : U32) (s : State) (n : Nat) : (hwSetIf c off bits s).outlet n = s.outlet n := by
  unfold State.outlet; rw [hwSetIf_out]

@[simp] theorem rcSet_outlet (off : Nat) (b : U32) (f : U32 → U32) (s : State) (n : Nat) : (rcSet off b f s).outlet n = s.outlet n := by
  unfold State.outlet; rw [rcSet_out]

@[simp] theorem hwSet_flume (off : Nat) (bits : U32) (s : State) (n : Nat) : (hwSet off bits s).flume n = s.flume n := by
  unfold State.flume; rw [hwSet_fl]

@[simp] theorem hwSetIf_flume (c : Bool) (off : Nat) (bits : U32) (s : State) (n : Nat) : (hwSetIf c off bits s).flume n = s.flume n := by
  unfold State.flume; rw [hwSetIf_fl]

@[simp] theorem rcSet_flume (off : Nat) (b : U32) (f : U32 → U32) (s : State) (n : Nat) : (rcSet off b f s).flume n = s.flume n := by
  unfold State.flume; rw [rcSet_fl]

@[simp] theorem hwSet_timer (off : Nat) (bits : U32) (s : State) (n : Nat) : (hwSet off bits s).timer n = s.timer n := by
  unfold State.timer; rw [hwSet_tmr]

@[simp] theorem hwSetIf_timer (c : Bool) (off : Nat) (bits : U32) (s : State) (n : Nat) : (hwSetIf c off bits s).timer n = s.timer n := by
  unfold State.timer; rw [hwSetIf_tmr]

@[simp] theorem rcSet_timer (off : Nat) (b : U32) (f : U32 → U32) (s : State) (n : Nat) : (rcSet off b f s).timer n = s.timer n := by
  unfold State.timer; rw [rcSet_tmr]

@[simp] theorem hwSet_getGate (off : Nat) (bits : U32) (s : State) (n : Nat) : (hwSet off bits s).getGate n = s.getGate n := by
  unfold State.getGate; rw [hwSet_gate]

@[simp] theorem hwSetIf_getGate (c : Bool) (off : Nat) (bits : U32) (s : State) (n : Nat) : (hwSetIf c off bits s).getGate n = s.getGate n := by
  unfold State.getGate; rw [hwSetIf_gate]

@[simp] theorem rcSet_getGate (off : Nat) (b : U32) (f : U32 → U32) (s : State) (n : Nat) : (rcSet off b f s).getGate n = s.getGate n := by
  unfold State.getGate; rw [rcSet_gate]

@[simp] theorem hwSet_rch (off : Nat) (bits : U32) (s : State) (n : Nat) : (hwSet off bits s).rch n = s.rch n := by
  unfold State.rch; rw [hwSet_rider]

@[simp] theorem hwSetIf_rch (c : Bool) (off : Nat) (bits : U32) (s : State) (n : Nat) : (hwSetIf c off bits s).rch n = s.rch n := by
  unfold State.rch; rw [hwSetIf_rider]

@[simp] theorem rcSet_rch (off : Nat) (b : U32) (f : U32 → U32) (s : State) (n : Nat) : (rcSet off b f s).rch n = s.rch n := by
  unfold State.rch; rw [rcSet_rider]

@[simp] theorem hwSet_culCh (off : Nat) (bits : U32) (s : State) (n : Nat) : (hwSet off bits s).culCh n = s.culCh n := by
  unfold State.culCh; rw [hwSet_cul]

@[simp] theorem hwSetIf_culCh (c : Bool) (off : Nat) (bits : U32) (s : State) (n : Nat) : (hwSetIf c off bits s).culCh n = s.culCh n := by
  unfold State.culCh; rw [hwSetIf_cul]

@[simp] theorem rcSet_culCh (off : Nat) (b : U32) (f : U32 → U32) (s : State) (n : Nat) : (rcSet off b f s).culCh n = s.culCh n := by
  unfold State.culCh; rw [rcSet_cul]

@[simp] theorem hwSet_thr (off : Nat) (bits : U32) (s : State) (n : Nat) : (hwSet off bits s).thr n = s.thr n := by
  unfold State.thr; rw [hwSet_seq]

@[simp] theorem hwSetIf_thr (c : Bool) (off : Nat) (bits : U32) (s : State) (n : Nat) : (hwSetIf c off bits s).thr n = s.thr n := by
  unfold State.thr; rw [hwSetIf_seq]

@[simp] theorem rcSet_thr (off : Nat) (b : U32) (f : U32 → U32) (s : State) (n : Nat) : (rcSet off b f s).thr n = s.thr n := by
  unfold State.thr; rw [rcSet_seq]

@[simp] theorem hwSet_source (off : Nat) (bits : U32) (s : State) (n : Nat) : (hwSet off bits s).source n = s.source n := by
  unfold State.source; rw [hwSet_src]

@[simp] theorem hwSetIf_source (c : Bool) (off : Nat) (bits : U32) (s : State) (n : Nat) : (hwSetIf c off bits s).source n = s.source n := by
  unfold State.source; rw [hwSetIf_src]

@[simp] theorem rcSet_source (off : Nat) (b : U32) (f : U32 → U32) (s : State) (n : Nat) : (rcSet off b f s).source n = s.source n := by
  unfold State.source; rw [rcSet_src]

@[simp] theorem hwSet_port (off : Nat) (bits : U32) (s : State) (n : Nat) : (hwSet off bits s).port n = s.port n := by
  unfold State.port; rw [hwSet_link]

@[simp] theorem hwSetIf_port (c : Bool) (off : Nat) (bits : U32) (s : State) (n : Nat) : (hwSetIf c off bits s).port n = s.port n := by
  unfold State.port; rw [hwSetIf_link]

@[simp] theorem rcSet_port (off : Nat) (b : U32) (f : U32 → U32) (s : State) (n : Nat) : (rcSet off b f s).port n = s.port n := by
  unfold State.port; rw [rcSet_link]

@[simp] theorem hwSet_lane (off : Nat) (bits : U32) (s : State) (n : Nat) : (hwSet off bits s).lane n = s.lane n := by
  unfold State.lane; rw [hwSet_link]

@[simp] theorem hwSetIf_lane (c : Bool) (off : Nat) (bits : U32) (s : State) (n : Nat) : (hwSetIf c off bits s).lane n = s.lane n := by
  unfold State.lane; rw [hwSetIf_link]

@[simp] theorem rcSet_lane (off : Nat) (b : U32) (f : U32 → U32) (s : State) (n : Nat) : (rcSet off b f s).lane n = s.lane n := by
  unfold State.lane; rw [rcSet_link]

@[simp] theorem hwSet_lgch (off : Nat) (bits : U32) (s : State) (n : Nat) : (hwSet off bits s).lgch n = s.lgch n := by
  unfold State.lgch; rw [hwSet_lg]

@[simp] theorem hwSetIf_lgch (c : Bool) (off : Nat) (bits : U32) (s : State) (n : Nat) : (hwSetIf c off bits s).lgch n = s.lgch n := by
  unfold State.lgch; rw [hwSetIf_lg]

@[simp] theorem rcSet_lgch (off : Nat) (b : U32) (f : U32 → U32) (s : State) (n : Nat) : (rcSet off b f s).lgch n = s.lgch n := by
  unfold State.lgch; rw [rcSet_lg]

theorem hwSet_srcRaised {i : Nat} (off : Nat) (bits : U32) {s : State} (h : SrcRaised i s) : SrcRaised i (hwSet off bits s) := by
  unfold SrcRaised at *
  rwa [hwSet_raised]

theorem hwSet_srcRaisedWith {i : Nat} {d : U32} (off : Nat) (bits : U32) {s : State} (h : SrcRaisedWith i d s) :
    SrcRaisedWith i d (hwSet off bits s) := by
  unfold SrcRaisedWith at *
  rwa [hwSet_raised]

/-! ## Raising a source -/

theorem raiseData_raised (src : Nat) (data : U32) (s : State) : SrcRaisedWith src data (raiseData src data s) := by
  unfold raiseData
  simp only
  split
  · rename_i h
    rw [List.any_eq_true] at h
    obtain ⟨r, hr, he⟩ := h
    exact ⟨{ r with data := data }, List.mem_map.mpr ⟨r, hr, by simp_all⟩, by simpa using he, rfl⟩
  · split <;> split <;> exact ⟨⟨_, _, _⟩, List.mem_append_right _ (List.mem_singleton.mpr rfl), rfl, rfl⟩

theorem SrcRaisedWith.raised {src : Nat} {data : U32} {s : State} (h : SrcRaisedWith src data s) : SrcRaised src s :=
  h.imp fun _ h => ⟨h.1, h.2.1⟩

theorem raise_raised (src : Nat) (s : State) : SrcRaised src (raise src s) := (raiseData_raised src 0 s).raised

theorem raiseData_raised_mono {i : Nat} (src : Nat) (data : U32) {s : State} (h : SrcRaised i s) :
    SrcRaised i (raiseData src data s) := by
  obtain ⟨r, hr, he⟩ := h
  unfold raiseData
  simp only
  split
  · refine ⟨if r.src = BitVec.ofNat 9 src then { r with data := data } else r, List.mem_map.mpr ⟨r, hr, rfl⟩, ?_⟩
    split <;> exact he
  · split <;> split <;> exact ⟨r, List.mem_append_left _ hr, he⟩

theorem raise_raised_mono {i : Nat} (src : Nat) {s : State} (h : SrcRaised i s) : SrcRaised i (raise src s) :=
  raiseData_raised_mono src 0 h

theorem SrcRaised.congr {i : Nat} {s t : State} (h : SrcRaised i s) (e : t.tur = s.tur) : SrcRaised i t := by
  unfold SrcRaised at *
  rwa [e]

@[simp] theorem raiseData_pending (src : Nat) (data : U32) (s : State) : (raiseData src data s).pending = s.pending := by
  unfold raiseData; dsimp only; repeat' split
  all_goals rfl

@[simp] theorem raise_pending (src : Nat) (s : State) : (raise src s).pending = s.pending := raiseData_pending ..

@[simp] theorem raiseIf_pending (b : Bool) (src : Nat) (s : State) : (raiseIf b src s).pending = s.pending := by
  cases b <;> simp [raiseIf]

@[simp] theorem raiseData_clk (src : Nat) (data : U32) (s : State) : (raiseData src data s).clk = s.clk := by
  unfold raiseData; dsimp only; repeat' split
  all_goals rfl

@[simp] theorem raise_clk (src : Nat) (s : State) : (raise src s).clk = s.clk := raiseData_clk ..

@[simp] theorem raiseIf_clk (b : Bool) (src : Nat) (s : State) : (raiseIf b src s).clk = s.clk := by
  cases b <;> simp [raiseIf]

@[simp] theorem raiseData_ports (src : Nat) (data : U32) (s : State) : (raiseData src data s).ports = s.ports := by
  unfold raiseData; dsimp only; repeat' split
  all_goals rfl

@[simp] theorem raise_ports (src : Nat) (s : State) : (raise src s).ports = s.ports := raiseData_ports ..

@[simp] theorem raiseIf_ports (b : Bool) (src : Nat) (s : State) : (raiseIf b src s).ports = s.ports := by
  cases b <;> simp [raiseIf]

@[simp] theorem raiseData_out (src : Nat) (data : U32) (s : State) : (raiseData src data s).out = s.out := by
  unfold raiseData; dsimp only; repeat' split
  all_goals rfl

@[simp] theorem raise_out (src : Nat) (s : State) : (raise src s).out = s.out := raiseData_out ..

@[simp] theorem raiseIf_out (b : Bool) (src : Nat) (s : State) : (raiseIf b src s).out = s.out := by
  cases b <;> simp [raiseIf]

@[simp] theorem raiseData_outcal (src : Nat) (data : U32) (s : State) : (raiseData src data s).outcal = s.outcal := by
  unfold raiseData; dsimp only; repeat' split
  all_goals rfl

@[simp] theorem raise_outcal (src : Nat) (s : State) : (raise src s).outcal = s.outcal := raiseData_outcal ..

@[simp] theorem raiseIf_outcal (b : Bool) (src : Nat) (s : State) : (raiseIf b src s).outcal = s.outcal := by
  cases b <;> simp [raiseIf]

@[simp] theorem raiseData_gate (src : Nat) (data : U32) (s : State) : (raiseData src data s).gate = s.gate := by
  unfold raiseData; dsimp only; repeat' split
  all_goals rfl

@[simp] theorem raise_gate (src : Nat) (s : State) : (raise src s).gate = s.gate := raiseData_gate ..

@[simp] theorem raiseIf_gate (b : Bool) (src : Nat) (s : State) : (raiseIf b src s).gate = s.gate := by
  cases b <;> simp [raiseIf]

@[simp] theorem raiseData_shut (src : Nat) (data : U32) (s : State) : (raiseData src data s).shut = s.shut := by
  unfold raiseData; dsimp only; repeat' split
  all_goals rfl

@[simp] theorem raise_shut (src : Nat) (s : State) : (raise src s).shut = s.shut := raiseData_shut ..

@[simp] theorem raiseIf_shut (b : Bool) (src : Nat) (s : State) : (raiseIf b src s).shut = s.shut := by
  cases b <;> simp [raiseIf]

@[simp] theorem raiseData_wdog (src : Nat) (data : U32) (s : State) : (raiseData src data s).wdog = s.wdog := by
  unfold raiseData; dsimp only; repeat' split
  all_goals rfl

@[simp] theorem raise_wdog (src : Nat) (s : State) : (raise src s).wdog = s.wdog := raiseData_wdog ..

@[simp] theorem raiseIf_wdog (b : Bool) (src : Nat) (s : State) : (raiseIf b src s).wdog = s.wdog := by
  cases b <;> simp [raiseIf]

@[simp] theorem raiseData_fl (src : Nat) (data : U32) (s : State) : (raiseData src data s).fl = s.fl := by
  unfold raiseData; dsimp only; repeat' split
  all_goals rfl

@[simp] theorem raise_fl (src : Nat) (s : State) : (raise src s).fl = s.fl := raiseData_fl ..

@[simp] theorem raiseIf_fl (b : Bool) (src : Nat) (s : State) : (raiseIf b src s).fl = s.fl := by
  cases b <;> simp [raiseIf]

@[simp] theorem raiseData_tmr (src : Nat) (data : U32) (s : State) : (raiseData src data s).tmr = s.tmr := by
  unfold raiseData; dsimp only; repeat' split
  all_goals rfl

@[simp] theorem raise_tmr (src : Nat) (s : State) : (raise src s).tmr = s.tmr := raiseData_tmr ..

@[simp] theorem raiseIf_tmr (b : Bool) (src : Nat) (s : State) : (raiseIf b src s).tmr = s.tmr := by
  cases b <;> simp [raiseIf]

@[simp] theorem raiseData_gp (src : Nat) (data : U32) (s : State) : (raiseData src data s).gp = s.gp := by
  unfold raiseData; dsimp only; repeat' split
  all_goals rfl

@[simp] theorem raise_gp (src : Nat) (s : State) : (raise src s).gp = s.gp := raiseData_gp ..

@[simp] theorem raiseIf_gp (b : Bool) (src : Nat) (s : State) : (raiseIf b src s).gp = s.gp := by
  cases b <;> simp [raiseIf]

@[simp] theorem raiseData_rider (src : Nat) (data : U32) (s : State) : (raiseData src data s).rider = s.rider := by
  unfold raiseData; dsimp only; repeat' split
  all_goals rfl

@[simp] theorem raise_rider (src : Nat) (s : State) : (raise src s).rider = s.rider := raiseData_rider ..

@[simp] theorem raiseIf_rider (b : Bool) (src : Nat) (s : State) : (raiseIf b src s).rider = s.rider := by
  cases b <;> simp [raiseIf]

@[simp] theorem raiseData_cul (src : Nat) (data : U32) (s : State) : (raiseData src data s).cul = s.cul := by
  unfold raiseData; dsimp only; repeat' split
  all_goals rfl

@[simp] theorem raise_cul (src : Nat) (s : State) : (raise src s).cul = s.cul := raiseData_cul ..

@[simp] theorem raiseIf_cul (b : Bool) (src : Nat) (s : State) : (raiseIf b src s).cul = s.cul := by
  cases b <;> simp [raiseIf]

@[simp] theorem raiseData_hg (src : Nat) (data : U32) (s : State) : (raiseData src data s).hg = s.hg := by
  unfold raiseData; dsimp only; repeat' split
  all_goals rfl

@[simp] theorem raise_hg (src : Nat) (s : State) : (raise src s).hg = s.hg := raiseData_hg ..

@[simp] theorem raiseIf_hg (b : Bool) (src : Nat) (s : State) : (raiseIf b src s).hg = s.hg := by
  cases b <;> simp [raiseIf]

@[simp] theorem raiseData_seq (src : Nat) (data : U32) (s : State) : (raiseData src data s).seq = s.seq := by
  unfold raiseData; dsimp only; repeat' split
  all_goals rfl

@[simp] theorem raise_seq (src : Nat) (s : State) : (raise src s).seq = s.seq := raiseData_seq ..

@[simp] theorem raiseIf_seq (b : Bool) (src : Nat) (s : State) : (raiseIf b src s).seq = s.seq := by
  cases b <;> simp [raiseIf]

@[simp] theorem raiseData_mem (src : Nat) (data : U32) (s : State) : (raiseData src data s).mem = s.mem := by
  unfold raiseData; dsimp only; repeat' split
  all_goals rfl

@[simp] theorem raise_mem (src : Nat) (s : State) : (raise src s).mem = s.mem := raiseData_mem ..

@[simp] theorem raiseIf_mem (b : Bool) (src : Nat) (s : State) : (raiseIf b src s).mem = s.mem := by
  cases b <;> simp [raiseIf]

@[simp] theorem raiseData_link (src : Nat) (data : U32) (s : State) : (raiseData src data s).link = s.link := by
  unfold raiseData; dsimp only; repeat' split
  all_goals rfl

@[simp] theorem raise_link (src : Nat) (s : State) : (raise src s).link = s.link := raiseData_link ..

@[simp] theorem raiseIf_link (b : Bool) (src : Nat) (s : State) : (raiseIf b src s).link = s.link := by
  cases b <;> simp [raiseIf]

@[simp] theorem raiseData_lg (src : Nat) (data : U32) (s : State) : (raiseData src data s).lg = s.lg := by
  unfold raiseData; dsimp only; repeat' split
  all_goals rfl

@[simp] theorem raise_lg (src : Nat) (s : State) : (raise src s).lg = s.lg := raiseData_lg ..

@[simp] theorem raiseIf_lg (b : Bool) (src : Nat) (s : State) : (raiseIf b src s).lg = s.lg := by
  cases b <;> simp [raiseIf]

@[simp] theorem raiseData_nvm (src : Nat) (data : U32) (s : State) : (raiseData src data s).nvm = s.nvm := by
  unfold raiseData; dsimp only; repeat' split
  all_goals rfl

@[simp] theorem raise_nvm (src : Nat) (s : State) : (raise src s).nvm = s.nvm := raiseData_nvm ..

@[simp] theorem raiseIf_nvm (b : Bool) (src : Nat) (s : State) : (raiseIf b src s).nvm = s.nvm := by
  cases b <;> simp [raiseIf]

@[simp] theorem raiseData_pwr (src : Nat) (data : U32) (s : State) : (raiseData src data s).pwr = s.pwr := by
  unfold raiseData; dsimp only; repeat' split
  all_goals rfl

@[simp] theorem raise_pwr (src : Nat) (s : State) : (raise src s).pwr = s.pwr := raiseData_pwr ..

@[simp] theorem raiseIf_pwr (b : Bool) (src : Nat) (s : State) : (raiseIf b src s).pwr = s.pwr := by
  cases b <;> simp [raiseIf]

@[simp] theorem raiseData_dbg (src : Nat) (data : U32) (s : State) : (raiseData src data s).dbg = s.dbg := by
  unfold raiseData; dsimp only; repeat' split
  all_goals rfl

@[simp] theorem raise_dbg (src : Nat) (s : State) : (raise src s).dbg = s.dbg := raiseData_dbg ..

@[simp] theorem raiseIf_dbg (b : Bool) (src : Nat) (s : State) : (raiseIf b src s).dbg = s.dbg := by
  cases b <;> simp [raiseIf]

@[simp] theorem raiseData_bist (src : Nat) (data : U32) (s : State) : (raiseData src data s).bist = s.bist := by
  unfold raiseData; dsimp only; repeat' split
  all_goals rfl

@[simp] theorem raise_bist (src : Nat) (s : State) : (raise src s).bist = s.bist := raiseData_bist ..

@[simp] theorem raiseIf_bist (b : Bool) (src : Nat) (s : State) : (raiseIf b src s).bist = s.bist := by
  cases b <;> simp [raiseIf]

@[simp] theorem raiseData_due (src : Nat) (data : U32) (s : State) : (raiseData src data s).due = s.due := by
  unfold raiseData; dsimp only; repeat' split
  all_goals rfl

@[simp] theorem raise_due (src : Nat) (s : State) : (raise src s).due = s.due := raiseData_due ..

@[simp] theorem raiseIf_due (b : Bool) (src : Nat) (s : State) : (raiseIf b src s).due = s.due := by
  cases b <;> simp [raiseIf]

@[simp] theorem raiseData_apb (src : Nat) (data : U32) (s : State) : (raiseData src data s).apb = s.apb := by
  unfold raiseData; dsimp only; repeat' split
  all_goals rfl

@[simp] theorem raise_apb (src : Nat) (s : State) : (raise src s).apb = s.apb := raiseData_apb ..

@[simp] theorem raiseIf_apb (b : Bool) (src : Nat) (s : State) : (raiseIf b src s).apb = s.apb := by
  cases b <;> simp [raiseIf]

@[simp] theorem raiseData_free (src : Nat) (data : U32) (s : State) : (raiseData src data s).free = s.free := by
  unfold raiseData; dsimp only; repeat' split
  all_goals rfl

@[simp] theorem raise_free (src : Nat) (s : State) : (raise src s).free = s.free := raiseData_free ..

@[simp] theorem raiseIf_free (b : Bool) (src : Nat) (s : State) : (raiseIf b src s).free = s.free := by
  cases b <;> simp [raiseIf]

end Sys2Proof.Machine
end

