-- ==== Sys2Proof/Laws/Only.lean ====
section
/-! SUPPORT. How frames compose. -/

namespace Sys2Proof.Machine

theorem Part.same_refl (p : Part) (s : State) : p.same s s := by cases p <;> rfl

theorem Part.same_trans {p : Part} {s t u : State} (h : p.same s t) (h' : p.same t u) : p.same s u := by
  cases p <;> exact h'.trans h

theorem Only.refl (ps : List Part) (s : State) : Only ps s s := ⟨fun p _ => p.same_refl s⟩

theorem Part.within_out {a b : List Part} (h : Part.within a b = true) {p : Part} (hp : b.contains p = false) :
    a.contains p = false := by
  cases hc : a.contains p with
  | false => rfl
  | true =>
    have := List.all_eq_true.mp h p (by simpa using hc)
    rw [hp] at this
    exact this.symm

theorem Part.within_trans {a b c : List Part} (h : Part.within a b = true) (h' : Part.within b c = true) :
    Part.within a c = true := by
  simp only [Part.within, List.all_eq_true, List.contains_iff_mem] at *
  exact fun x hx => h' x (h x hx)

theorem Only.trans {a c : List Part} {s t u : State} (h : Only c s t) (h' : Only a t u)
    (hs : Part.within a c = true := by rfl) : Only c s u :=
  ⟨fun p hp => Part.same_trans (h.same p hp) (h'.same p (Part.within_out hs hp))⟩

theorem Only.mono {a c : List Part} {s t : State} (h : Only a s t) (hs : Part.within a c = true := by rfl) : Only c s t :=
  .trans (.refl c s) h hs

theorem Only.of {c : List Part} {s t u : State} (h : Only c s t) (hd : ∀ p, c.contains p = false → p.same t u) :
    Only c s u := ⟨fun p hp => Part.same_trans (h.same p hp) (hd p hp)⟩

theorem Only.of' {c : List Part} {s t u : State} (h : Only c s t) (h' : Only c t u) : Only c s u := .of h h'.same

theorem Only.upd {c : List Part} {s X : State}
    {q clk ports out outcal tur gate shut wdog fl tmr gp rider cul hg seq mem link lg nvm pwr dbg bist due apb free}
    (h : Only c s X)
    (h0 : c.contains .pending = true ∨ q = X.pending)
    (h1 : c.contains .clk = true ∨ clk = X.clk)
    (h2 : c.contains .ports = true ∨ ports = X.ports)
    (h3 : c.contains .out = true ∨ out = X.out)
    (h4 : c.contains .outcal = true ∨ outcal = X.outcal)
    (h5 : c.contains .tur = true ∨ tur = X.tur)
    (h6 : c.contains .gate = true ∨ gate = X.gate)
    (h7 : c.contains .shut = true ∨ shut = X.shut)
    (h8 : c.contains .wdog = true ∨ wdog = X.wdog)
    (h9 : c.contains .fl = true ∨ fl = X.fl)
    (h10 : c.contains .tmr = true ∨ tmr = X.tmr)
    (h11 : c.contains .gp = true ∨ gp = X.gp)
    (h12 : c.contains .rider = true ∨ rider = X.rider)
    (h13 : c.contains .cul = true ∨ cul = X.cul)
    (h14 : c.contains .hg = true ∨ hg = X.hg)
    (h15 : c.contains .seq = true ∨ seq = X.seq)
    (h16 : c.contains .mem = true ∨ mem = X.mem)
    (h17 : c.contains .link = true ∨ link = X.link)
    (h18 : c.contains .lg = true ∨ lg = X.lg)
    (h19 : c.contains .nvm = true ∨ nvm = X.nvm)
    (h20 : c.contains .pwr = true ∨ pwr = X.pwr)
    (h21 : c.contains .dbg = true ∨ dbg = X.dbg)
    (h22 : c.contains .bist = true ∨ bist = X.bist)
    (h23 : c.contains .due = true ∨ due = X.due)
    (h24 : c.contains .apb = true ∨ apb = X.apb)
    (h25 : c.contains .free = true ∨ free = X.free) :
    Only c s ⟨q, clk, ports, out, outcal, tur, gate, shut, wdog, fl, tmr, gp, rider, cul, hg, seq, mem, link, lg, nvm, pwr, dbg, bist, due, apb, free⟩ := by
  refine .of h (fun p hp => ?_)
  cases p
  · exact h0.resolve_left (by rw [hp]; exact Bool.false_ne_true)
  · exact h1.resolve_left (by rw [hp]; exact Bool.false_ne_true)
  · exact h2.resolve_left (by rw [hp]; exact Bool.false_ne_true)
  · exact h3.resolve_left (by rw [hp]; exact Bool.false_ne_true)
  · exact h4.resolve_left (by rw [hp]; exact Bool.false_ne_true)
  · exact h5.resolve_left (by rw [hp]; exact Bool.false_ne_true)
  · exact h6.resolve_left (by rw [hp]; exact Bool.false_ne_true)
  · exact h7.resolve_left (by rw [hp]; exact Bool.false_ne_true)
  · exact h8.resolve_left (by rw [hp]; exact Bool.false_ne_true)
  · exact h9.resolve_left (by rw [hp]; exact Bool.false_ne_true)
  · exact h10.resolve_left (by rw [hp]; exact Bool.false_ne_true)
  · exact h11.resolve_left (by rw [hp]; exact Bool.false_ne_true)
  · exact h12.resolve_left (by rw [hp]; exact Bool.false_ne_true)
  · exact h13.resolve_left (by rw [hp]; exact Bool.false_ne_true)
  · exact h14.resolve_left (by rw [hp]; exact Bool.false_ne_true)
  · exact h15.resolve_left (by rw [hp]; exact Bool.false_ne_true)
  · exact h16.resolve_left (by rw [hp]; exact Bool.false_ne_true)
  · exact h17.resolve_left (by rw [hp]; exact Bool.false_ne_true)
  · exact h18.resolve_left (by rw [hp]; exact Bool.false_ne_true)
  · exact h19.resolve_left (by rw [hp]; exact Bool.false_ne_true)
  · exact h20.resolve_left (by rw [hp]; exact Bool.false_ne_true)
  · exact h21.resolve_left (by rw [hp]; exact Bool.false_ne_true)
  · exact h22.resolve_left (by rw [hp]; exact Bool.false_ne_true)
  · exact h23.resolve_left (by rw [hp]; exact Bool.false_ne_true)
  · exact h24.resolve_left (by rw [hp]; exact Bool.false_ne_true)
  · exact h25.resolve_left (by rw [hp]; exact Bool.false_ne_true)

theorem Only.ite {ps : List Part} {s a b : State} {c : Prop} [Decidable c] (ha : Only ps s a) (hb : Only ps s b) :
    Only ps s (if c then a else b) := by
  split <;> assumption

theorem Only.iteFst {β : Type} {ps : List Part} {s : State} {a b : State × β} {c : Prop} [Decidable c]
    (ha : Only ps s a.1) (hb : Only ps s b.1) : Only ps s (if c then a else b).1 := by
  split <;> assumption

theorem Only.snd {α : Type} {ps : List Part} {s t : State} {a : α} {p : α × State} (h : Only ps s p.2) (e : p = (a, t)) :
    Only ps s t := by
  subst e; exact h

theorem Only.fst {α : Type} {ps : List Part} {s t : State} {a : α} {p : State × α} (h : Only ps s p.1) (e : p = (t, a)) :
    Only ps s t := by
  subst e; exact h

theorem Only.foldl {α : Type} {ps : List Part} {f : State → α → State} (h : ∀ s x, Only ps s (f s x)) :
    ∀ (l : List α) (s : State), Only ps s (l.foldl f s)
  | [], s => .refl ps s
  | x :: l, s => .of' (h s x) (Only.foldl h l (f s x))

theorem Only.foldlFst {α β : Type} {ps : List Part} {f : State × β → α → State × β} (h : ∀ a x, Only ps a.1 (f a x).1) :
    ∀ (l : List α) (a : State × β), Only ps a.1 (l.foldl f a).1
  | [], a => .refl ps a.1
  | x :: l, a => .of' (h a x) (Only.foldlFst h l (f a x))

theorem Only.each {ps : List Part} {f : State → Nat → State} (h : ∀ s k, Only ps s (f s k)) (s : State) (n : Nat) :
    Only ps s (s.each n f) :=
  .foldl h _ s

theorem onCore_only {ps : List Part} {s t : State} (w : Who) (h : Only ps s t) (hc : ps.contains .apb = true := by rfl) :
    Only ps s (onCore s w t) := by
  unfold onCore
  repeat' split
  · exact .refl _ s
  · refine .of (.refl _ s) (fun p hp => ?_)
    cases p with
    | apb => rw [hc] at hp; cases hp
    | _ => rfl
  · exact .refl _ s
  · exact h

theorem inCore_only {ps : List Part} {s t : State} (h : Only ps s t) : Only ps s (inCore s t) := by
  unfold inCore
  split
  · exact .refl ps s
  · exact h

theorem Only.pending {ps : List Part} {s t : State} (h : Only ps s t) (hp : ps.contains .pending = false := by rfl) :
    t.pending = s.pending := h.same .pending hp

theorem Only.clk {ps : List Part} {s t : State} (h : Only ps s t) (hp : ps.contains .clk = false := by rfl) :
    t.clk = s.clk := h.same .clk hp

theorem Only.ports {ps : List Part} {s t : State} (h : Only ps s t) (hp : ps.contains .ports = false := by rfl) :
    t.ports = s.ports := h.same .ports hp

theorem Only.out {ps : List Part} {s t : State} (h : Only ps s t) (hp : ps.contains .out = false := by rfl) :
    t.out = s.out := h.same .out hp

theorem Only.outcal {ps : List Part} {s t : State} (h : Only ps s t) (hp : ps.contains .outcal = false := by rfl) :
    t.outcal = s.outcal := h.same .outcal hp

theorem Only.tur {ps : List Part} {s t : State} (h : Only ps s t) (hp : ps.contains .tur = false := by rfl) :
    t.tur = s.tur := h.same .tur hp

theorem Only.gate {ps : List Part} {s t : State} (h : Only ps s t) (hp : ps.contains .gate = false := by rfl) :
    t.gate = s.gate := h.same .gate hp

theorem Only.shut {ps : List Part} {s t : State} (h : Only ps s t) (hp : ps.contains .shut = false := by rfl) :
    t.shut = s.shut := h.same .shut hp

theorem Only.wdog {ps : List Part} {s t : State} (h : Only ps s t) (hp : ps.contains .wdog = false := by rfl) :
    t.wdog = s.wdog := h.same .wdog hp

theorem Only.fl {ps : List Part} {s t : State} (h : Only ps s t) (hp : ps.contains .fl = false := by rfl) :
    t.fl = s.fl := h.same .fl hp

theorem Only.tmr {ps : List Part} {s t : State} (h : Only ps s t) (hp : ps.contains .tmr = false := by rfl) :
    t.tmr = s.tmr := h.same .tmr hp

theorem Only.gp {ps : List Part} {s t : State} (h : Only ps s t) (hp : ps.contains .gp = false := by rfl) :
    t.gp = s.gp := h.same .gp hp

theorem Only.rider {ps : List Part} {s t : State} (h : Only ps s t) (hp : ps.contains .rider = false := by rfl) :
    t.rider = s.rider := h.same .rider hp

theorem Only.cul {ps : List Part} {s t : State} (h : Only ps s t) (hp : ps.contains .cul = false := by rfl) :
    t.cul = s.cul := h.same .cul hp

theorem Only.hg {ps : List Part} {s t : State} (h : Only ps s t) (hp : ps.contains .hg = false := by rfl) :
    t.hg = s.hg := h.same .hg hp

theorem Only.seq {ps : List Part} {s t : State} (h : Only ps s t) (hp : ps.contains .seq = false := by rfl) :
    t.seq = s.seq := h.same .seq hp

theorem Only.mem {ps : List Part} {s t : State} (h : Only ps s t) (hp : ps.contains .mem = false := by rfl) :
    t.mem = s.mem := h.same .mem hp

theorem Only.link {ps : List Part} {s t : State} (h : Only ps s t) (hp : ps.contains .link = false := by rfl) :
    t.link = s.link := h.same .link hp

theorem Only.lg {ps : List Part} {s t : State} (h : Only ps s t) (hp : ps.contains .lg = false := by rfl) :
    t.lg = s.lg := h.same .lg hp

theorem Only.nvm {ps : List Part} {s t : State} (h : Only ps s t) (hp : ps.contains .nvm = false := by rfl) :
    t.nvm = s.nvm := h.same .nvm hp

theorem Only.pwr {ps : List Part} {s t : State} (h : Only ps s t) (hp : ps.contains .pwr = false := by rfl) :
    t.pwr = s.pwr := h.same .pwr hp

theorem Only.dbg {ps : List Part} {s t : State} (h : Only ps s t) (hp : ps.contains .dbg = false := by rfl) :
    t.dbg = s.dbg := h.same .dbg hp

theorem Only.bist {ps : List Part} {s t : State} (h : Only ps s t) (hp : ps.contains .bist = false := by rfl) :
    t.bist = s.bist := h.same .bist hp

theorem Only.due {ps : List Part} {s t : State} (h : Only ps s t) (hp : ps.contains .due = false := by rfl) :
    t.due = s.due := h.same .due hp

theorem Only.apb {ps : List Part} {s t : State} (h : Only ps s t) (hp : ps.contains .apb = false := by rfl) :
    t.apb = s.apb := h.same .apb hp

theorem Only.free {ps : List Part} {s t : State} (h : Only ps s t) (hp : ps.contains .free = false := by rfl) :
    t.free = s.free := h.same .free hp

end Sys2Proof.Machine
end

