-- ==== Sys2Proof/Laws/OnlyOps.lean ====
section
/-! SUPPORT. Every operation of Machine/Ops.lean changes only the parts that its lemma names. -/

namespace Sys2Proof.Machine

set_option Elab.async false

theorem State.modOut_only (s : State) (n : Nat) (f : Outlet → Outlet) : Only [.out] s (State.modOut s n f) := by
  unfold State.modOut
  refine .upd ?_ (.inr rfl) (.inr rfl) (.inr rfl) (.inl rfl) (.inr rfl) (.inr rfl) (.inr rfl) (.inr rfl) (.inr rfl) (.inr rfl) (.inr rfl) (.inr rfl) (.inr rfl) (.inr rfl) (.inr rfl) (.inr rfl) (.inr rfl) (.inr rfl) (.inr rfl) (.inr rfl) (.inr rfl) (.inr rfl) (.inr rfl) (.inr rfl) (.inr rfl) (.inr rfl)
  exact .refl _ _

theorem State.modFl_only (s : State) (n : Nat) (f : Flume → Flume) : Only [.fl] s (State.modFl s n f) := by
  unfold State.modFl
  refine .upd ?_ (.inr rfl) (.inr rfl) (.inr rfl) (.inr rfl) (.inr rfl) (.inr rfl) (.inr rfl) (.inr rfl) (.inr rfl) (.inl rfl) (.inr rfl) (.inr rfl) (.inr rfl) (.inr rfl) (.inr rfl) (.inr rfl) (.inr rfl) (.inr rfl) (.inr rfl) (.inr rfl) (.inr rfl) (.inr rfl) (.inr rfl) (.inr rfl) (.inr rfl) (.inr rfl)
  exact .refl _ _

theorem State.modTmr_only (s : State) (n : Nat) (f : Timer → Timer) : Only [.tmr] s (State.modTmr s n f) := by
  unfold State.modTmr
  refine .upd ?_ (.inr rfl) (.inr rfl) (.inr rfl) (.inr rfl) (.inr rfl) (.inr rfl) (.inr rfl) (.inr rfl) (.inr rfl) (.inr rfl) (.inl rfl) (.inr rfl) (.inr rfl) (.inr rfl) (.inr rfl) (.inr rfl) (.inr rfl) (.inr rfl) (.inr rfl) (.inr rfl) (.inr rfl) (.inr rfl) (.inr rfl) (.inr rfl) (.inr rfl) (.inr rfl)
  exact .refl _ _

theorem State.modGate_only (s : State) (k : Nat) (f : Gate → Gate) : Only [.gate] s (State.modGate s k f) := by
  unfold State.modGate
  refine .upd ?_ (.inr rfl) (.inr rfl) (.inr rfl) (.inr rfl) (.inr rfl) (.inr rfl) (.inl rfl) (.inr rfl) (.inr rfl) (.inr rfl) (.inr rfl) (.inr rfl) (.inr rfl) (.inr rfl) (.inr rfl) (.inr rfl) (.inr rfl) (.inr rfl) (.inr rfl) (.inr rfl) (.inr rfl) (.inr rfl) (.inr rfl) (.inr rfl) (.inr rfl) (.inr rfl)
  exact .refl _ _

theorem State.modRch_only (s : State) (n : Nat) (f : RiderCh → RiderCh) : Only [.rider] s (State.modRch s n f) := by
  unfold State.modRch
  refine .upd ?_ (.inr rfl) (.inr rfl) (.inr rfl) (.inr rfl) (.inr rfl) (.inr rfl) (.inr rfl) (.inr rfl) (.inr rfl) (.inr rfl) (.inr rfl) (.inr rfl) (.inl rfl) (.inr rfl) (.inr rfl) (.inr rfl) (.inr rfl) (.inr rfl) (.inr rfl) (.inr rfl) (.inr rfl) (.inr rfl) (.inr rfl) (.inr rfl) (.inr rfl) (.inr rfl)
  exact .refl _ _

theorem State.modCul_only (s : State) (n : Nat) (f : CulCh → CulCh) : Only [.cul] s (State.modCul s n f) := by
  unfold State.modCul
  refine .upd ?_ (.inr rfl) (.inr rfl) (.inr rfl) (.inr rfl) (.inr rfl) (.inr rfl) (.inr rfl) (.inr rfl) (.inr rfl) (.inr rfl) (.inr rfl) (.inr rfl) (.inr rfl) (.inl rfl) (.inr rfl) (.inr rfl) (.inr rfl) (.inr rfl) (.inr rfl) (.inr rfl) (.inr rfl) (.inr rfl) (.inr rfl) (.inr rfl) (.inr rfl) (.inr rfl)
  exact .refl _ _

theorem State.modThr_only (s : State) (n : Nat) (f : Thread → Thread) : Only [.seq] s (State.modThr s n f) := by
  unfold State.modThr
  refine .upd ?_ (.inr rfl) (.inr rfl) (.inr rfl) (.inr rfl) (.inr rfl) (.inr rfl) (.inr rfl) (.inr rfl) (.inr rfl) (.inr rfl) (.inr rfl) (.inr rfl) (.inr rfl) (.inr rfl) (.inr rfl) (.inl rfl) (.inr rfl) (.inr rfl) (.inr rfl) (.inr rfl) (.inr rfl) (.inr rfl) (.inr rfl) (.inr rfl) (.inr rfl) (.inr rfl)
  exact .refl _ _

theorem State.modCtx_only (s : State) (n : Nat) (f : Ctx → Ctx) : Only [.seq] s (State.modCtx s n f) := by
  unfold State.modCtx
  exact State.modThr_only ..

theorem State.modCtxBoth_only (s : State) (n : Nat) (f : Ctx → Ctx) :
    Only [.seq] s (State.modCtxBoth s n f) := by
  unfold State.modCtxBoth
  exact State.modThr_only ..

theorem State.modSrc_only (s : State) (n : Nat) (f : Source → Source) : Only [.tur] s (State.modSrc s n f) := by
  unfold State.modSrc
  refine .upd ?_ (.inr rfl) (.inr rfl) (.inr rfl) (.inr rfl) (.inr rfl) (.inl rfl) (.inr rfl) (.inr rfl) (.inr rfl) (.inr rfl) (.inr rfl) (.inr rfl) (.inr rfl) (.inr rfl) (.inr rfl) (.inr rfl) (.inr rfl) (.inr rfl) (.inr rfl) (.inr rfl) (.inr rfl) (.inr rfl) (.inr rfl) (.inr rfl) (.inr rfl) (.inr rfl)
  exact .refl _ _

theorem State.modPort_only (s : State) (p : Nat) (f : LinkPort → LinkPort) :
    Only [.link] s (State.modPort s p f) := by
  unfold State.modPort
  refine .upd ?_ (.inr rfl) (.inr rfl) (.inr rfl) (.inr rfl) (.inr rfl) (.inr rfl) (.inr rfl) (.inr rfl) (.inr rfl) (.inr rfl) (.inr rfl) (.inr rfl) (.inr rfl) (.inr rfl) (.inr rfl) (.inr rfl) (.inr rfl) (.inl rfl) (.inr rfl) (.inr rfl) (.inr rfl) (.inr rfl) (.inr rfl) (.inr rfl) (.inr rfl) (.inr rfl)
  exact .refl _ _

theorem State.modLane_only (s : State) (l : Nat) (f : Lane → Lane) : Only [.link] s (State.modLane s l f) := by
  unfold State.modLane
  refine .upd ?_ (.inr rfl) (.inr rfl) (.inr rfl) (.inr rfl) (.inr rfl) (.inr rfl) (.inr rfl) (.inr rfl) (.inr rfl) (.inr rfl) (.inr rfl) (.inr rfl) (.inr rfl) (.inr rfl) (.inr rfl) (.inr rfl) (.inr rfl) (.inl rfl) (.inr rfl) (.inr rfl) (.inr rfl) (.inr rfl) (.inr rfl) (.inr rfl) (.inr rfl) (.inr rfl)
  exact .refl _ _

theorem State.modLg_only (s : State) (c : Nat) (f : LgCh → LgCh) : Only [.lg] s (State.modLg s c f) := by
  unfold State.modLg
  refine .upd ?_ (.inr rfl) (.inr rfl) (.inr rfl) (.inr rfl) (.inr rfl) (.inr rfl) (.inr rfl) (.inr rfl) (.inr rfl) (.inr rfl) (.inr rfl) (.inr rfl) (.inr rfl) (.inr rfl) (.inr rfl) (.inr rfl) (.inr rfl) (.inr rfl) (.inl rfl) (.inr rfl) (.inr rfl) (.inr rfl) (.inr rfl) (.inr rfl) (.inr rfl) (.inr rfl)
  exact .refl _ _

theorem answer_only (s : State) (w : Who) (r : Resp) : Only [.apb] s (answer s w r) := by
  unfold answer
  split
  refine .upd ?_ (.inr rfl) (.inr rfl) (.inr rfl) (.inr rfl) (.inr rfl) (.inr rfl) (.inr rfl) (.inr rfl) (.inr rfl) (.inr rfl) (.inr rfl) (.inr rfl) (.inr rfl) (.inr rfl) (.inr rfl) (.inr rfl) (.inr rfl) (.inr rfl) (.inr rfl) (.inr rfl) (.inr rfl) (.inr rfl) (.inr rfl) (.inr rfl) (.inl rfl) (.inr rfl)
  exact .refl _ _
  exact .refl _ _

theorem drawFree_only (w : Nat) (s : State) : Only [.free] s (drawFree w s).2 := by
  unfold drawFree
  dsimp only
  refine .upd ?_ (.inr rfl) (.inr rfl) (.inr rfl) (.inr rfl) (.inr rfl) (.inr rfl) (.inr rfl) (.inr rfl) (.inr rfl) (.inr rfl) (.inr rfl) (.inr rfl) (.inr rfl) (.inr rfl) (.inr rfl) (.inr rfl) (.inr rfl) (.inr rfl) (.inr rfl) (.inr rfl) (.inr rfl) (.inr rfl) (.inr rfl) (.inr rfl) (.inr rfl) (.inl rfl)
  exact .refl _ _

theorem hwSet_only (off : Nat) (bits : U32) (s : State) :
    Only [.tur] s (hwSet off bits s) := by
  unfold hwSet
  refine .ite ?_ ?_
  refine .upd ?_ (.inr rfl) (.inr rfl) (.inr rfl) (.inr rfl) (.inr rfl) (.inl rfl) (.inr rfl) (.inr rfl) (.inr rfl) (.inr rfl) (.inr rfl) (.inr rfl) (.inr rfl) (.inr rfl) (.inr rfl) (.inr rfl) (.inr rfl) (.inr rfl) (.inr rfl) (.inr rfl) (.inr rfl) (.inr rfl) (.inr rfl) (.inr rfl) (.inr rfl) (.inr rfl)
  exact .refl _ _
  exact .refl _ _

theorem hwSetIf_only (c : Bool) (off : Nat) (bits : U32) (s : State) :
    Only [.tur] s (hwSetIf c off bits s) := by
  unfold hwSetIf
  refine .ite ?_ ?_
  exact hwSet_only ..
  exact .refl _ _

theorem rcSet_only (off : Nat) (before : U32) (f : U32 → U32) (s : State) :
    Only [.tur] s (rcSet off before f s) := by
  unfold rcSet
  refine .ite ?_ ?_
  exact .refl _ _
  refine .ite ?_ ?_
  refine .upd ?_ (.inr rfl) (.inr rfl) (.inr rfl) (.inr rfl) (.inr rfl) (.inl rfl) (.inr rfl) (.inr rfl) (.inr rfl) (.inr rfl) (.inr rfl) (.inr rfl) (.inr rfl) (.inr rfl) (.inr rfl) (.inr rfl) (.inr rfl) (.inr rfl) (.inr rfl) (.inr rfl) (.inr rfl) (.inr rfl) (.inr rfl) (.inr rfl) (.inr rfl) (.inr rfl)
  exact .refl _ _
  refine .upd ?_ (.inr rfl) (.inr rfl) (.inr rfl) (.inr rfl) (.inr rfl) (.inl rfl) (.inr rfl) (.inr rfl) (.inr rfl) (.inr rfl) (.inr rfl) (.inr rfl) (.inr rfl) (.inr rfl) (.inr rfl) (.inr rfl) (.inr rfl) (.inr rfl) (.inr rfl) (.inr rfl) (.inr rfl) (.inr rfl) (.inr rfl) (.inr rfl) (.inr rfl) (.inr rfl)
  exact .refl _ _

theorem rcTaken_only (off : Nat) (s : State) :
    Only [.tur] s (rcTaken off s) := by
  unfold rcTaken
  refine .upd ?_ (.inr rfl) (.inr rfl) (.inr rfl) (.inr rfl) (.inr rfl) (.inl rfl) (.inr rfl) (.inr rfl) (.inr rfl) (.inr rfl) (.inr rfl) (.inr rfl) (.inr rfl) (.inr rfl) (.inr rfl) (.inr rfl) (.inr rfl) (.inr rfl) (.inr rfl) (.inr rfl) (.inr rfl) (.inr rfl) (.inr rfl) (.inr rfl) (.inr rfl) (.inr rfl)
  exact .refl _ _

theorem hostWrite_only (s : State) (a : U48) (l : List Byte) : Only [.mem] s (hostWrite s a l) := by
  unfold hostWrite
  refine .upd ?_ (.inr rfl) (.inr rfl) (.inr rfl) (.inr rfl) (.inr rfl) (.inr rfl) (.inr rfl) (.inr rfl) (.inr rfl) (.inr rfl) (.inr rfl) (.inr rfl) (.inr rfl) (.inr rfl) (.inr rfl) (.inr rfl) (.inl rfl) (.inr rfl) (.inr rfl) (.inr rfl) (.inr rfl) (.inr rfl) (.inr rfl) (.inr rfl) (.inr rfl) (.inr rfl)
  exact .refl _ _

theorem raiseData_only (src : Nat) (data : U32) (s : State) : Only [.tur] s (raiseData src data s) := by
  unfold raiseData
  dsimp only
  refine .ite ?_ ?_
  refine .upd ?_ (.inr rfl) (.inr rfl) (.inr rfl) (.inr rfl) (.inr rfl) (.inl rfl) (.inr rfl) (.inr rfl) (.inr rfl) (.inr rfl) (.inr rfl) (.inr rfl) (.inr rfl) (.inr rfl) (.inr rfl) (.inr rfl) (.inr rfl) (.inr rfl) (.inr rfl) (.inr rfl) (.inr rfl) (.inr rfl) (.inr rfl) (.inr rfl) (.inr rfl) (.inr rfl)
  exact .refl _ _
  split
  refine .upd ?_ (.inr rfl) (.inr rfl) (.inr rfl) (.inr rfl) (.inr rfl) (.inl rfl) (.inr rfl) (.inr rfl) (.inr rfl) (.inr rfl) (.inr rfl) (.inr rfl) (.inr rfl) (.inr rfl) (.inr rfl) (.inr rfl) (.inr rfl) (.inr rfl) (.inr rfl) (.inr rfl) (.inr rfl) (.inr rfl) (.inr rfl) (.inr rfl) (.inr rfl) (.inr rfl)
  exact .refl _ _
  refine .trans ?_ (State.modSrc_only ..)
  refine .upd ?_ (.inr rfl) (.inr rfl) (.inr rfl) (.inr rfl) (.inr rfl) (.inl rfl) (.inr rfl) (.inr rfl) (.inr rfl) (.inr rfl) (.inr rfl) (.inr rfl) (.inr rfl) (.inr rfl) (.inr rfl) (.inr rfl) (.inr rfl) (.inr rfl) (.inr rfl) (.inr rfl) (.inr rfl) (.inr rfl) (.inr rfl) (.inr rfl) (.inr rfl) (.inr rfl)
  exact .refl _ _
  refine .trans ?_ (State.modSrc_only ..)
  refine .upd ?_ (.inr rfl) (.inr rfl) (.inr rfl) (.inr rfl) (.inr rfl) (.inl rfl) (.inr rfl) (.inr rfl) (.inr rfl) (.inr rfl) (.inr rfl) (.inr rfl) (.inr rfl) (.inr rfl) (.inr rfl) (.inr rfl) (.inr rfl) (.inr rfl) (.inr rfl) (.inr rfl) (.inr rfl) (.inr rfl) (.inr rfl) (.inr rfl) (.inr rfl) (.inr rfl)
  exact .refl _ _

theorem raise_only (src : Nat) (s : State) : Only [.tur] s (raise src s) := by
  unfold raise
  exact raiseData_only ..

theorem raiseIf_only (b : Bool) (src : Nat) (s : State) : Only [.tur] s (raiseIf b src s) := by
  unfold raiseIf
  refine .ite ?_ ?_
  exact raise_only ..
  exact .refl _ _

theorem takeCount_only (src : Nat) (s : State) : Only [.tur] s (takeCount src s) := by
  unfold takeCount
  dsimp only
  split
  refine .trans ?_ (State.modSrc_only ..)
  refine .upd ?_ (.inr rfl) (.inr rfl) (.inr rfl) (.inr rfl) (.inr rfl) (.inl rfl) (.inr rfl) (.inr rfl) (.inr rfl) (.inr rfl) (.inr rfl) (.inr rfl) (.inr rfl) (.inr rfl) (.inr rfl) (.inr rfl) (.inr rfl) (.inr rfl) (.inr rfl) (.inr rfl) (.inr rfl) (.inr rfl) (.inr rfl) (.inr rfl) (.inr rfl) (.inr rfl)
  exact .refl _ _
  exact State.modSrc_only ..

theorem raiseRising_only {w : Nat} (was : BitVec w) (now : BitVec w) (src : Nat) (s : State) :
    Only [.tur] s (raiseRising was now src s) := by
  unfold raiseRising
  exact raiseIf_only ..

theorem wakeRequest_only (b : Nat) (s : State) : Only [.tur, .pwr] s (wakeRequest b s) := by
  unfold wakeRequest
  dsimp only
  refine .ite ?_ ?_
  refine .trans ?_ (hwSet_only ..)
  refine .upd ?_ (.inr rfl) (.inr rfl) (.inr rfl) (.inr rfl) (.inr rfl) (.inl rfl) (.inr rfl) (.inr rfl) (.inr rfl) (.inr rfl) (.inr rfl) (.inr rfl) (.inr rfl) (.inr rfl) (.inr rfl) (.inr rfl) (.inr rfl) (.inr rfl) (.inr rfl) (.inr rfl) (.inl rfl) (.inr rfl) (.inr rfl) (.inr rfl) (.inr rfl) (.inr rfl)
  exact .refl _ _
  exact .refl _ _

theorem schedule_only (s : State) (fc : Nat) (rank : Nat) (act : Act) : Only [.due] s (schedule s fc rank act) := by
  unfold schedule
  refine .upd ?_ (.inr rfl) (.inr rfl) (.inr rfl) (.inr rfl) (.inr rfl) (.inr rfl) (.inr rfl) (.inr rfl) (.inr rfl) (.inr rfl) (.inr rfl) (.inr rfl) (.inr rfl) (.inr rfl) (.inr rfl) (.inr rfl) (.inr rfl) (.inr rfl) (.inr rfl) (.inr rfl) (.inr rfl) (.inr rfl) (.inr rfl) (.inl rfl) (.inr rfl) (.inr rfl)
  exact .refl _ _

theorem disciplineFc_only (s : State) :
    Only [.clk, .link] s (disciplineFc s) := by
  unfold disciplineFc
  dsimp only
  refine .upd ?_ (.inr rfl) (.inl rfl) (.inr rfl) (.inr rfl) (.inr rfl) (.inr rfl) (.inr rfl) (.inr rfl) (.inr rfl) (.inr rfl) (.inr rfl) (.inr rfl) (.inr rfl) (.inr rfl) (.inr rfl) (.inr rfl) (.inr rfl) (.inl rfl) (.inr rfl) (.inr rfl) (.inr rfl) (.inr rfl) (.inr rfl) (.inr rfl) (.inr rfl) (.inr rfl)
  exact .refl _ _

theorem moveGauge_only (g : U64) (forward : Nat) (s : State) :
    Only [.clk, .ports, .fl, .tmr, .rider] s (moveGauge g forward s) := by
  unfold moveGauge
  dsimp only
  refine .upd ?_ (.inr rfl) (.inl rfl) (.inl rfl) (.inr rfl) (.inr rfl) (.inr rfl) (.inr rfl) (.inr rfl) (.inr rfl) (.inl rfl) (.inl rfl) (.inr rfl) (.inl rfl) (.inr rfl) (.inr rfl) (.inr rfl) (.inr rfl) (.inr rfl) (.inr rfl) (.inr rfl) (.inr rfl) (.inr rfl) (.inr rfl) (.inr rfl) (.inr rfl) (.inr rfl)
  exact .refl _ _

end Sys2Proof.Machine
end

