-- ==== Sys2Proof/Laws/OnlyFrames.lean ====
section
/-! SUPPORT. Every operation of Machine/Frames.lean changes only the parts that its lemma names. -/

namespace Sys2Proof.Machine

set_option Elab.async false

theorem sendSet_only (p : Nat) (w : U64) (s : State) : Only [.link] s (sendSet p w s) := by
  unfold sendSet
  dsimp only
  exact State.modPort_only ..

theorem queueFrame_only (p : Nat) (f : Frame) (cmd : Option Nat) (s : State) :
    Only [.link] s (queueFrame p f cmd s) := by
  unfold queueFrame
  exact State.modPort_only ..

theorem keepFrame_only (p : Nat) (f : Frame) (s : State) : Only [.link] s (keepFrame p f s) := by
  unfold keepFrame
  exact State.modPort_only ..

theorem dropFrame_only (s : State) : Only [.tur, .link] s (dropFrame s) := by
  unfold dropFrame
  refine .trans ?_ (rcSet_only ..)
  refine .upd ?_ (.inr rfl) (.inr rfl) (.inr rfl) (.inr rfl) (.inr rfl) (.inl rfl) (.inr rfl) (.inr rfl) (.inr rfl) (.inr rfl) (.inr rfl) (.inr rfl) (.inr rfl) (.inr rfl) (.inr rfl) (.inr rfl) (.inr rfl) (.inl rfl) (.inr rfl) (.inr rfl) (.inr rfl) (.inr rfl) (.inr rfl) (.inr rfl) (.inr rfl) (.inr rfl)
  exact .refl _ _

theorem netFlag_only (b : Bool) (i : Nat) (s : State) :
    Only [.tur] s (netFlag b i s) := by
  unfold netFlag
  exact hwSetIf_only ..

theorem forward_only (at_ : Nat) (arrived : Option Nat) (f : Frame) (cmd : Option Nat) (s : State) :
    Only [.tur, .link] s (forward at_ arrived f cmd s) := by
  unfold forward
  refine .ite ?_ ?_
  refine .of' ?_ (.foldl (fun s k => ?_) _ _)
  exact .mono (keepFrame_only ..)
  exact .mono (queueFrame_only ..)
  refine .ite ?_ ?_
  exact .mono (keepFrame_only ..)
  split
  exact .mono (queueFrame_only ..)
  refine .trans ?_ (dropFrame_only ..)
  refine .trans ?_ (netFlag_only ..)
  refine .upd ?_ (.inr rfl) (.inr rfl) (.inr rfl) (.inr rfl) (.inr rfl) (.inl rfl) (.inr rfl) (.inr rfl) (.inr rfl) (.inr rfl) (.inr rfl) (.inr rfl) (.inr rfl) (.inr rfl) (.inr rfl) (.inr rfl) (.inr rfl) (.inl rfl) (.inr rfl) (.inr rfl) (.inr rfl) (.inr rfl) (.inr rfl) (.inr rfl) (.inr rfl) (.inr rfl)
  exact .refl _ _

theorem originate_only (f : Frame) (cmd : Option Nat) (s : State) : Only [.tur, .link] s (originate f cmd s) := by
  unfold originate
  refine .ite ?_ ?_
  exact .mono (forward_only ..)
  exact .refl _ _

theorem relay_only (p : Nat) (f : Frame) (s : State) : Only [.tur, .link] s (relay p f s) := by
  unfold relay
  refine .ite ?_ ?_
  exact .mono (dropFrame_only ..)
  refine .ite ?_ ?_
  exact .mono (dropFrame_only ..)
  exact .mono (forward_only ..)

theorem nextMsg_only (s : State) : Only [.link] s (nextMsg s).2 := by
  unfold nextMsg
  dsimp only
  refine .upd ?_ (.inr rfl) (.inr rfl) (.inr rfl) (.inr rfl) (.inr rfl) (.inr rfl) (.inr rfl) (.inr rfl) (.inr rfl) (.inr rfl) (.inr rfl) (.inr rfl) (.inr rfl) (.inr rfl) (.inr rfl) (.inr rfl) (.inr rfl) (.inl rfl) (.inr rfl) (.inr rfl) (.inr rfl) (.inr rfl) (.inr rfl) (.inr rfl) (.inr rfl) (.inr rfl)
  exact .refl _ _

theorem sendMgmt_only (p : Nat) (sub : BitVec 3) (content : List Byte) (s : State) :
    Only [.link] s (sendMgmt p sub content s) := by
  unfold sendMgmt
  exact queueFrame_only ..

theorem sendShut_only (s : State) : Only [.link] s (sendShut s) := by
  unfold sendShut
  dsimp only
  refine .of' ?_ (.each (fun s k => ?_) _ _)
  refine .upd ?_ (.inr rfl) (.inr rfl) (.inr rfl) (.inr rfl) (.inr rfl) (.inr rfl) (.inr rfl) (.inr rfl) (.inr rfl) (.inr rfl) (.inr rfl) (.inr rfl) (.inr rfl) (.inr rfl) (.inr rfl) (.inr rfl) (.inr rfl) (.inl rfl) (.inr rfl) (.inr rfl) (.inr rfl) (.inr rfl) (.inr rfl) (.inr rfl) (.inr rfl) (.inr rfl)
  exact .refl _ _
  refine .ite ?_ ?_
  exact sendSet_only ..
  exact .refl _ _

end Sys2Proof.Machine
end

