-- ==== Sys2Proof/Laws/OnlyOutlet.lean ====
section
/-! SUPPORT. Every operation of Machine/Outlet.lean changes only the parts that its lemma names. -/

namespace Sys2Proof.Machine

set_option Elab.async false

theorem outFlag_only (n : Nat) (b : Nat) (s : State) : Only [.out, .tur] s (outFlag n b s) := by
  unfold outFlag
  dsimp only
  refine .trans ?_ (raiseIf_only ..)
  refine .trans ?_ (hwSet_only ..)
  exact .mono (State.modOut_only ..)

theorem outFlagIf_only (c : Bool) (n : Nat) (b : Nat) (s : State) : Only [.out, .tur] s (outFlagIf c n b s) := by
  unfold outFlagIf
  refine .ite ?_ ?_
  exact outFlag_only ..
  exact .refl _ _

theorem shadowFromLevel_only (n : Nat) (s : State) : Only [.out] s (shadowFromLevel n s) := by
  unfold shadowFromLevel
  dsimp only
  exact State.modOut_only ..

theorem queueClaim_only (n : Nat) (s : State) : Only [.out, .tur] s (queueClaim n s) := by
  unfold queueClaim
  refine .ite ?_ ?_
  exact .refl _ _
  dsimp only
  refine .trans ?_ (outFlagIf_only ..)
  refine .trans ?_ (outFlag_only ..)
  refine .trans ?_ (State.modOut_only ..)
  refine .ite ?_ ?_
  refine .trans ?_ (shadowFromLevel_only ..)
  exact .mono (shadowFromLevel_only ..)
  exact .mono (shadowFromLevel_only ..)

theorem riderClaim_only (p : Nat) (s : State) : Only [.out, .tur] s (riderClaim p s) := by
  unfold riderClaim
  refine .of' ?_ (.each (fun s k => ?_) _ _)
  exact .refl _ _
  dsimp only
  refine .ite ?_ ?_
  split
  refine .trans ?_ (outFlag_only ..)
  exact .mono (State.modOut_only ..)
  exact .mono (State.modOut_only ..)
  refine .trans ?_ (outFlagIf_only ..)
  refine .trans ?_ (outFlag_only ..)
  refine .trans ?_ (State.modOut_only ..)
  exact .mono (State.modOut_only ..)
  exact .refl _ _

theorem dropDueHolds_only (n : Nat) (s : State) : Only [.out] s (dropDueHolds n s) := by
  unfold dropDueHolds
  exact State.modOut_only ..

theorem accept_only (n : Nat) (op : EdgeOp) (tag : Byte) (t : U40) (s : State) :
    Only [.out] s (accept n op tag t s) := by
  unfold accept
  dsimp only
  refine .ite ?_ ?_
  exact State.modOut_only ..
  refine .ite ?_ ?_
  refine .ite ?_ ?_
  refine .trans ?_ (State.modOut_only ..)
  refine .trans ?_ (State.modOut_only ..)
  exact State.modOut_only ..
  refine .trans ?_ (State.modOut_only ..)
  refine .trans ?_ (State.modOut_only ..)
  exact State.modOut_only ..
  exact State.modOut_only ..

theorem late_only (n : Nat) (op : EdgeOp) (tag : Byte) (t : U40) (d : Int) (made : Nat) (s : State) :
    Only [.out, .tur] s (late n op tag t d made s) := by
  unfold late
  dsimp only
  split
  refine .trans ?_ (accept_only ..)
  exact outFlag_only ..
  refine .ite ?_ ?_
  exact outFlag_only ..
  refine .ite ?_ ?_
  refine .trans ?_ (accept_only ..)
  exact outFlag_only ..
  refine .trans ?_ (outFlag_only ..)
  exact outFlag_only ..
  exact outFlag_only ..

theorem postClaim_only (n : Nat) (s : State) : Only [.out, .tur] s (postClaim n s).1 := by
  unfold postClaim
  refine .iteFst ?_ ?_
  dsimp only
  exact .refl _ _
  refine .iteFst ?_ ?_
  dsimp only
  exact .refl _ _
  refine .iteFst ?_ ?_
  dsimp only
  exact .refl _ _
  refine .iteFst ?_ ?_
  dsimp only
  exact outFlag_only ..
  dsimp only
  exact queueClaim_only ..

theorem postR_only (n : Nat) (op : EdgeOp) (tag : Byte) (t : U40) (made : Nat) (s : State) :
    Only [.out, .tur] s (postR n op tag t made s).1 := by
  unfold postR
  dsimp only
  refine .iteFst ?_ ?_
  dsimp only
  exact .refl _ _
  refine .iteFst ?_ ?_
  dsimp only
  exact .refl _ _
  refine .iteFst ?_ ?_
  dsimp only
  exact .refl _ _
  refine .iteFst ?_ ?_
  dsimp only
  exact outFlag_only ..
  refine .iteFst ?_ ?_
  dsimp only
  refine .trans ?_ (outFlag_only ..)
  exact .mono (dropDueHolds_only ..)
  refine .iteFst ?_ ?_
  dsimp only
  refine .trans ?_ (accept_only ..)
  exact .mono (dropDueHolds_only ..)
  dsimp only
  refine .trans ?_ (late_only ..)
  exact .mono (dropDueHolds_only ..)

theorem post_only (ag : Agent) (n : Nat) (op : BitVec 2) (t : U40) (s : State) :
    Only [.out, .tur, .due] s (post ag n op t s) := by
  unfold post
  dsimp only
  refine .ite ?_ ?_
  refine .trans ?_ (schedule_only ..)
  exact .mono (postClaim_only ..)
  exact .mono (postClaim_only ..)

theorem intoLine_only (n : Nat) (m : Nat) (op : EdgeOp) (t : U40) (rise : Option U40) (s : State) :
    Only [.out, .tur] s (intoLine n m op t rise s) := by
  unfold intoLine
  dsimp only
  refine .ite ?_ ?_
  exact .mono (State.modOut_only ..)
  refine .trans ?_ (outFlag_only ..)
  exact .mono (State.modOut_only ..)

theorem entryMove_only (n : Nat) (s : State) : Only [.out, .tur] s (entryMove n s) := by
  unfold entryMove
  dsimp only
  split
  rename_i h
  split at h
  cases h
  split at h
  cases h
  refine .trans ?_ (intoLine_only ..)
  exact .mono (State.modOut_only ..)
  cases h
  split
  exact .refl _ _
  refine .trans ?_ (intoLine_only ..)
  exact .mono (State.modOut_only ..)

theorem edgeRetire_only (n : Nat) (s : State) : Only [.out] s (edgeRetire n s) := by
  unfold edgeRetire
  dsimp only
  split
  exact .refl _ _
  exact State.modOut_only ..

theorem holdRetire_only (n : Nat) (s : State) : Only [.out] s (holdRetire n s) := by
  unfold holdRetire
  exact State.modOut_only ..

theorem flushOut_only (n : Nat) (s : State) : Only [.out] s (flushOut n s) := by
  unfold flushOut
  dsimp only
  refine .trans ?_ (State.modOut_only ..)
  refine .ite ?_ ?_
  exact State.modOut_only ..
  refine .ite ?_ ?_
  exact State.modOut_only ..
  exact .refl _ _

theorem writeOwner_only (n : Nat) (v : BitVec 2) (s : State) : Only [.out] s (writeOwner n v s) := by
  unfold writeOwner
  refine .ite ?_ ?_
  exact .refl _ _
  exact State.modOut_only ..

theorem writeLvl_only (n : Nat) (v : Bool) (s : State) : Only [.out, .tur] s (writeLvl n v s) := by
  unfold writeLvl
  dsimp only
  refine .ite ?_ ?_
  exact .refl _ _
  refine .trans ?_ (outFlagIf_only ..)
  exact .mono (State.modOut_only ..)

theorem writeOen_only (n : Nat) (v : Bool) (s : State) : Only [.out, .due] s (writeOen n v s) := by
  unfold writeOen
  dsimp only
  refine .ite ?_ ?_
  refine .trans ?_ (schedule_only ..)
  exact .mono (State.modOut_only ..)
  exact .mono (State.modOut_only ..)

theorem writePair_only (n : Nat) (v : Bool) (s : State) : Only [.out, .tur] s (writePair n v s) := by
  unfold writePair
  refine .ite ?_ ?_
  exact .refl _ _
  refine .ite ?_ ?_
  exact .mono (State.modOut_only ..)
  exact outFlag_only ..

theorem writeLate_only (n : Nat) (lp : BitVec 2) (dp : U32) (s : State) : Only [.out] s (writeLate n lp dp s) := by
  unfold writeLate
  exact State.modOut_only ..

theorem stagePostl_only (ag : Agent) (n : Nat) (v : U32) (s : State) : Only [.out] s (stagePostl ag n v s) := by
  unfold stagePostl
  exact State.modOut_only ..

theorem writePosth_only (ag : Agent) (n : Nat) (v : U32) (s : State) :
    Only [.out, .tur, .due] s (writePosth ag n v s) := by
  unfold writePosth
  dsimp only
  exact post_only ..

theorem writeOutCtl_only (n : Nat) (v : U32) (s : State) : Only [.out, .tur, .due] s (writeOutCtl n v s) := by
  unfold writeOutCtl
  dsimp only
  refine .ite ?_ ?_
  refine .trans ?_ (flushOut_only ..)
  refine .trans ?_ (writePair_only ..)
  refine .trans ?_ (writeOen_only ..)
  refine .trans ?_ (writeLvl_only ..)
  refine .trans ?_ (State.modOut_only ..)
  refine .trans ?_ (writeLate_only ..)
  exact .mono (writeOwner_only ..)
  refine .trans ?_ (writePair_only ..)
  refine .trans ?_ (writeOen_only ..)
  refine .trans ?_ (writeLvl_only ..)
  refine .trans ?_ (State.modOut_only ..)
  refine .trans ?_ (writeLate_only ..)
  exact .mono (writeOwner_only ..)

theorem outWrite_only (ag : Agent) (n : Nat) (r : Nat) (v : U32) (s : State) :
    Only [.out, .tur, .due] s (outWrite ag n r v s) := by
  unfold outWrite
  split
  exact writeOutCtl_only ..
  exact .mono (State.modOut_only ..)
  refine .ite ?_ ?_
  exact .mono (State.modOut_only ..)
  exact .refl _ _
  refine .ite ?_ ?_
  exact .mono (State.modOut_only ..)
  exact .refl _ _
  exact .mono (writeLate_only ..)
  exact .mono (State.modOut_only ..)
  exact .mono (stagePostl_only ..)
  exact writePosth_only ..
  exact .refl _ _

theorem applyTaps_only (s : State) :
    Only [.out] s (applyTaps s) := by
  unfold applyTaps
  refine .upd ?_ (.inr rfl) (.inr rfl) (.inr rfl) (.inl rfl) (.inr rfl) (.inr rfl) (.inr rfl) (.inr rfl) (.inr rfl) (.inr rfl) (.inr rfl) (.inr rfl) (.inr rfl) (.inr rfl) (.inr rfl) (.inr rfl) (.inr rfl) (.inr rfl) (.inr rfl) (.inr rfl) (.inr rfl) (.inr rfl) (.inr rfl) (.inr rfl) (.inr rfl) (.inr rfl)
  exact .refl _ _

end Sys2Proof.Machine
end

