-- ==== Sys2Proof/Laws/OnlyTimer.lean ====
section
/-! SUPPORT. Every operation of Machine/Timer.lean changes only the parts that its lemma names. -/

namespace Sys2Proof.Machine

set_option Elab.async false

theorem sampleRequest_only (l : Nat) (s : State) : Only [.ports, .tur] s (sampleRequest l s) := by
  unfold sampleRequest
  refine .ite ?_ ?_
  exact .refl _ _
  dsimp only
  refine .ite ?_ ?_
  exact .refl _ _
  refine .ite ?_ ?_
  refine .trans ?_ (hwSetIf_only ..)
  refine .upd ?_ (.inr rfl) (.inr rfl) (.inl rfl) (.inr rfl) (.inr rfl) (.inl rfl) (.inr rfl) (.inr rfl) (.inr rfl) (.inr rfl) (.inr rfl) (.inr rfl) (.inr rfl) (.inr rfl) (.inr rfl) (.inr rfl) (.inr rfl) (.inr rfl) (.inr rfl) (.inr rfl) (.inr rfl) (.inr rfl) (.inr rfl) (.inr rfl) (.inr rfl) (.inr rfl)
  exact .refl _ _
  refine .upd ?_ (.inr rfl) (.inr rfl) (.inl rfl) (.inr rfl) (.inr rfl) (.inl rfl) (.inr rfl) (.inr rfl) (.inr rfl) (.inr rfl) (.inr rfl) (.inr rfl) (.inr rfl) (.inr rfl) (.inr rfl) (.inr rfl) (.inr rfl) (.inr rfl) (.inr rfl) (.inr rfl) (.inr rfl) (.inr rfl) (.inr rfl) (.inr rfl) (.inr rfl) (.inr rfl)
  exact .refl _ _

theorem culPulse_only (trg : BitVec 2) (sel : Nat) (s : State) : Only [.cul] s (culPulse trg sel s) := by
  unfold culPulse
  refine .upd ?_ (.inr rfl) (.inr rfl) (.inr rfl) (.inr rfl) (.inr rfl) (.inr rfl) (.inr rfl) (.inr rfl) (.inr rfl) (.inr rfl) (.inr rfl) (.inr rfl) (.inr rfl) (.inl rfl) (.inr rfl) (.inr rfl) (.inr rfl) (.inr rfl) (.inr rfl) (.inr rfl) (.inr rfl) (.inr rfl) (.inr rfl) (.inr rfl) (.inr rfl) (.inr rfl)
  exact .refl _ _

theorem timerPulse_only (n : Nat) (s : State) :
    Only [.tmr, .cul] s (timerPulse n s) := by
  unfold timerPulse
  refine .ite ?_ ?_
  exact .refl _ _
  refine .trans ?_ (culPulse_only ..)
  exact .mono (State.modTmr_only ..)

theorem sendTrigger_only (m : Nat) (s : State) :
    Only [.tmr] s (sendTrigger m s) := by
  unfold sendTrigger
  exact State.modTmr_only ..

theorem timerActs_only (n : Nat) (a : BitVec 11) (s : State) :
    Only [.ports, .tur, .tmr, .cul, .due] s (timerActs n a s) := by
  unfold timerActs
  dsimp only
  refine .trans ?_ (raiseIf_only ..)
  refine .ite ?_ ?_
  refine .trans ?_ (schedule_only ..)
  refine .ite ?_ ?_
  refine .trans ?_ (schedule_only ..)
  refine .ite ?_ ?_
  refine .trans ?_ (sendTrigger_only ..)
  refine .ite ?_ ?_
  refine .trans ?_ (timerPulse_only ..)
  refine .ite ?_ ?_
  exact .mono (sampleRequest_only ..)
  exact .refl _ _
  refine .ite ?_ ?_
  exact .mono (sampleRequest_only ..)
  exact .refl _ _
  refine .ite ?_ ?_
  refine .trans ?_ (timerPulse_only ..)
  refine .ite ?_ ?_
  exact .mono (sampleRequest_only ..)
  exact .refl _ _
  refine .ite ?_ ?_
  exact .mono (sampleRequest_only ..)
  exact .refl _ _
  refine .ite ?_ ?_
  refine .trans ?_ (sendTrigger_only ..)
  refine .ite ?_ ?_
  refine .trans ?_ (timerPulse_only ..)
  refine .ite ?_ ?_
  exact .mono (sampleRequest_only ..)
  exact .refl _ _
  refine .ite ?_ ?_
  exact .mono (sampleRequest_only ..)
  exact .refl _ _
  refine .ite ?_ ?_
  refine .trans ?_ (timerPulse_only ..)
  refine .ite ?_ ?_
  exact .mono (sampleRequest_only ..)
  exact .refl _ _
  refine .ite ?_ ?_
  exact .mono (sampleRequest_only ..)
  exact .refl _ _
  refine .ite ?_ ?_
  refine .trans ?_ (schedule_only ..)
  refine .ite ?_ ?_
  refine .trans ?_ (sendTrigger_only ..)
  refine .ite ?_ ?_
  refine .trans ?_ (timerPulse_only ..)
  refine .ite ?_ ?_
  exact .mono (sampleRequest_only ..)
  exact .refl _ _
  refine .ite ?_ ?_
  exact .mono (sampleRequest_only ..)
  exact .refl _ _
  refine .ite ?_ ?_
  refine .trans ?_ (timerPulse_only ..)
  refine .ite ?_ ?_
  exact .mono (sampleRequest_only ..)
  exact .refl _ _
  refine .ite ?_ ?_
  exact .mono (sampleRequest_only ..)
  exact .refl _ _
  refine .ite ?_ ?_
  refine .trans ?_ (sendTrigger_only ..)
  refine .ite ?_ ?_
  refine .trans ?_ (timerPulse_only ..)
  refine .ite ?_ ?_
  exact .mono (sampleRequest_only ..)
  exact .refl _ _
  refine .ite ?_ ?_
  exact .mono (sampleRequest_only ..)
  exact .refl _ _
  refine .ite ?_ ?_
  refine .trans ?_ (timerPulse_only ..)
  refine .ite ?_ ?_
  exact .mono (sampleRequest_only ..)
  exact .refl _ _
  refine .ite ?_ ?_
  exact .mono (sampleRequest_only ..)
  exact .refl _ _

theorem timerRestart_only (n : Nat) (s : State) : Only [.tmr] s (timerRestart n s) := by
  unfold timerRestart
  exact State.modTmr_only ..

theorem timerStart_only (n : Nat) (s : State) : Only [.tmr] s (timerStart n s) := by
  unfold timerStart
  exact State.modTmr_only ..

theorem timerStop_only (n : Nat) (s : State) : Only [.tmr] s (timerStop n s) := by
  unfold timerStop
  exact State.modTmr_only ..

theorem tmrSet_only (n : Nat) (bits : U32) (s : State) :
    Only [.tur] s (tmrSet n bits s) := by
  unfold tmrSet
  exact hwSet_only ..

theorem timerWrap_only (n : Nat) (s : State) : Only [.ports, .tur, .tmr, .cul, .due] s (timerWrap n s) := by
  unfold timerWrap
  dsimp only
  refine .trans ?_ (timerActs_only ..)
  refine .ite ?_ ?_
  refine .trans ?_ (State.modTmr_only ..)
  refine .trans ?_ (tmrSet_only ..)
  exact .mono (State.modTmr_only ..)
  refine .trans ?_ (tmrSet_only ..)
  exact .mono (State.modTmr_only ..)

theorem timerTick_only (n : Nat) (s : State) : Only [.ports, .tur, .tmr, .cul, .due] s (timerTick n s) := by
  unfold timerTick
  dsimp only
  refine .ite ?_ ?_
  refine .trans ?_ (timerWrap_only ..)
  exact .mono (State.modTmr_only ..)
  refine .trans ?_ (State.modTmr_only ..)
  exact .mono (State.modTmr_only ..)

theorem capture_only (n : Nat) (s : State) : Only [.tur, .tmr] s (capture n s) := by
  unfold capture
  dsimp only
  refine .ite ?_ ?_
  exact .mono (State.modTmr_only ..)
  refine .ite ?_ ?_
  refine .trans ?_ (raiseData_only ..)
  refine .ite ?_ ?_
  refine .trans ?_ (tmrSet_only ..)
  exact .mono (State.modTmr_only ..)
  exact .mono (State.modTmr_only ..)
  refine .ite ?_ ?_
  refine .trans ?_ (tmrSet_only ..)
  exact .mono (State.modTmr_only ..)
  exact .mono (State.modTmr_only ..)

theorem lateCapture_only (s : State) (n : Nat) :
    Only [.tur, .tmr] s (lateCapture s n) := by
  unfold lateCapture
  split
  exact .refl _ _
  dsimp only
  refine .ite ?_ ?_
  refine .trans ?_ (raiseData_only ..)
  refine .trans ?_ (State.modTmr_only ..)
  refine .ite ?_ ?_
  exact .mono (tmrSet_only ..)
  exact .refl _ _
  refine .trans ?_ (State.modTmr_only ..)
  refine .ite ?_ ?_
  exact .mono (tmrSet_only ..)
  exact .refl _ _

theorem captureEvents_only (csrc : BitVec 2) (sel : Nat) (s : State) : Only [.tmr] s (captureEvents csrc sel s) := by
  unfold captureEvents
  refine .ite ?_ ?_
  exact .refl _ _
  refine .upd ?_ (.inr rfl) (.inr rfl) (.inr rfl) (.inr rfl) (.inr rfl) (.inr rfl) (.inr rfl) (.inr rfl) (.inr rfl) (.inr rfl) (.inl rfl) (.inr rfl) (.inr rfl) (.inr rfl) (.inr rfl) (.inr rfl) (.inr rfl) (.inr rfl) (.inr rfl) (.inr rfl) (.inr rfl) (.inr rfl) (.inr rfl) (.inr rfl) (.inr rfl) (.inr rfl)
  exact .refl _ _

theorem compareMatch_only (n : Nat) (ch : Chan) (s : State) :
    Only [.ports, .tur, .tmr, .cul, .due] s (compareMatch n ch s) := by
  unfold compareMatch
  dsimp only
  split
  refine .trans ?_ (captureEvents_only ..)
  refine .trans ?_ (timerActs_only ..)
  refine .trans ?_ (State.modTmr_only ..)
  exact .mono (tmrSet_only ..)
  refine .trans ?_ (timerActs_only ..)
  refine .trans ?_ (State.modTmr_only ..)
  exact .mono (tmrSet_only ..)
  refine .trans ?_ (timerActs_only ..)
  refine .trans ?_ (State.modTmr_only ..)
  exact .mono (tmrSet_only ..)

theorem writeRun_only (n : Nat) (v : Bool) (s : State) : Only [.tmr] s (writeRun n v s) := by
  unfold writeRun
  dsimp only
  refine .ite ?_ ?_
  exact timerStart_only ..
  refine .ite ?_ ?_
  exact timerStop_only ..
  exact .refl _ _

theorem writeAten_only (n : Nat) (v : Bool) (s : State) : Only [.tur, .tmr] s (writeAten n v s) := by
  unfold writeAten
  dsimp only
  refine .ite ?_ ?_
  exact .mono (State.modTmr_only ..)
  refine .ite ?_ ?_
  exact .refl _ _
  refine .ite ?_ ?_
  exact .mono (State.modTmr_only ..)
  refine .trans ?_ (tmrSet_only ..)
  exact .mono (State.modTmr_only ..)

theorem writeTmrCtl_only (n : Nat) (v : U32) (s : State) : Only [.tur, .tmr] s (writeTmrCtl n v s) := by
  unfold writeTmrCtl
  dsimp only
  refine .trans ?_ (writeAten_only ..)
  refine .trans ?_ (writeRun_only ..)
  exact .mono (State.modTmr_only ..)

theorem writeCnt_only (n : Nat) (v : U32) (s : State) : Only [.tmr] s (writeCnt n v s) := by
  unfold writeCnt
  exact State.modTmr_only ..

theorem writePreload_only (n : Nat) (r : TimerReg) (v : U32) (s : State) : Only [.tmr] s (writePreload n r v s) := by
  unfold writePreload
  dsimp only
  exact State.modTmr_only ..

theorem writeLive_only (n : Nat) (r : TimerReg) (v : U32) (s : State) : Only [.tmr] s (writeLive n r v s) := by
  unfold writeLive
  dsimp only
  exact State.modTmr_only ..

theorem writeTimerReg_only (ag : Agent) (n : Nat) (r : TimerReg) (v : U32) (s : State) :
    Only [.tmr] s (writeTimerReg ag n r v s) := by
  unfold writeTimerReg
  split
  exact writeLive_only ..
  exact writeLive_only ..
  exact writePreload_only ..

theorem readCap_only (n : Nat) (s : State) : Only [.tur, .tmr] s (readCap n s).2 := by
  unfold readCap
  dsimp only
  split
  split
  dsimp only
  exact .mono (State.modTmr_only ..)
  dsimp only
  refine .trans ?_ (tmrSet_only ..)
  refine .trans ?_ (State.modTmr_only ..)
  exact .mono (State.modTmr_only ..)
  split
  dsimp only
  exact .mono (State.modTmr_only ..)
  dsimp only
  refine .trans ?_ (tmrSet_only ..)
  refine .trans ?_ (State.modTmr_only ..)
  exact .mono (State.modTmr_only ..)

theorem tmrWrite_only (ag : Agent) (n : Nat) (r : Nat) (v : U32) (s : State) :
    Only [.tur, .tmr] s (tmrWrite ag n r v s) := by
  unfold tmrWrite
  split
  exact writeTmrCtl_only ..
  exact .mono (State.modTmr_only ..)
  exact .mono (writeCnt_only ..)
  exact .mono (writeTimerReg_only ..)
  exact .mono (writeTimerReg_only ..)
  exact .mono (writeTimerReg_only ..)
  exact .mono (writeTimerReg_only ..)
  exact .mono (State.modTmr_only ..)
  exact .mono (State.modTmr_only ..)
  exact .mono (State.modTmr_only ..)
  exact .mono (State.modTmr_only ..)
  exact .mono (State.modTmr_only ..)
  exact .mono (State.modTmr_only ..)
  exact .mono (State.modTmr_only ..)
  exact .mono (State.modTmr_only ..)
  exact .refl _ _

end Sys2Proof.Machine
end

