-- ==== Sys2Proof/Laws/OnlyFlume.lean ====
section
/-! SUPPORT. Every operation of Machine/Flume.lean changes only the parts that its lemma names. -/

namespace Sys2Proof.Machine

set_option Elab.async false

theorem flFlag_only (n : Nat) (b : Nat) (s : State) : Only [.tur, .fl] s (flFlag n b s) := by
  unfold flFlag
  dsimp only
  refine .trans ?_ (raiseIf_only ..)
  refine .trans ?_ (hwSet_only ..)
  exact .mono (State.modFl_only ..)

theorem flFlagIf_only (c : Bool) (n : Nat) (b : Nat) (s : State) : Only [.tur, .fl] s (flFlagIf c n b s) := by
  unfold flFlagIf
  refine .ite ?_ ?_
  exact flFlag_only ..
  exact .refl _ _

theorem gateFlag_only (n : Nat) (k : Nat) (s : State) : Only [.fl] s (gateFlag n k s) := by
  unfold gateFlag
  exact State.modFl_only ..

theorem boundary_only (n : Nat) (s : State) : Only [.tur, .fl, .due] s (boundary n s) := by
  unfold boundary
  dsimp only
  refine .ite ?_ ?_
  refine .trans ?_ (schedule_only ..)
  refine .trans ?_ (State.modFl_only ..)
  refine .ite ?_ ?_
  exact .mono (State.modFl_only ..)
  exact .mono (flFlag_only ..)
  refine .trans ?_ (State.modFl_only ..)
  refine .ite ?_ ?_
  exact .mono (State.modFl_only ..)
  exact .mono (flFlag_only ..)

theorem withBoundary_only (n : Nat) (s : State) : Only [.tur, .fl, .due] s (withBoundary n s) := by
  unfold withBoundary
  refine .ite ?_ ?_
  exact boundary_only ..
  exact .refl _ _

theorem finish_only (n : Nat) (v : Int) (clampAt : Nat) (commit : Nat) (s : State) :
    Only [.due] s (finish n v clampAt commit s) := by
  unfold finish
  dsimp only
  refine .trans ?_ (schedule_only ..)
  split
  exact .refl _ _
  exact schedule_only ..

theorem affine_only (n : Nat) (x1 : BitVec 24) (s : State) : Only [.due] s (affine n x1 s) := by
  unfold affine
  dsimp only
  exact finish_only ..

theorem crossing_only (n : Nat) (x : BitVec 24) (s : State) : Only [.fl, .due, .free] s (crossing n x s) := by
  unfold crossing
  dsimp only
  split
  refine .ite ?_ ?_
  refine .trans ?_ (finish_only ..)
  exact .mono (State.modFl_only ..)
  exact .mono (State.modFl_only ..)
  refine .ite ?_ ?_
  refine .trans ?_ (finish_only ..)
  refine .trans ?_ (State.modFl_only ..)
  refine .upd ?_ (.inr rfl) (.inr rfl) (.inr rfl) (.inr rfl) (.inr rfl) (.inr rfl) (.inr rfl) (.inr rfl) (.inr rfl) (.inl rfl) (.inr rfl) (.inr rfl) (.inr rfl) (.inr rfl) (.inr rfl) (.inr rfl) (.inr rfl) (.inr rfl) (.inr rfl) (.inr rfl) (.inr rfl) (.inr rfl) (.inr rfl) (.inl rfl) (.inr rfl) (.inl rfl)
  exact .refl _ _
  exact .mono (State.modFl_only ..)

theorem sample1_only (n : Nat) (x : BitVec 24) (s : State) : Only [.tur, .fl, .due, .free] s (sample1 n x s) := by
  unfold sample1
  dsimp only
  refine .ite ?_ ?_
  split
  refine .ite ?_ ?_
  refine .ite ?_ ?_
  refine .trans ?_ (flFlag_only ..)
  exact .mono (withBoundary_only ..)
  refine .trans ?_ (schedule_only ..)
  refine .trans ?_ (State.modFl_only ..)
  exact .mono (withBoundary_only ..)
  exact .mono (withBoundary_only ..)
  refine .ite ?_ ?_
  exact .mono (withBoundary_only ..)
  refine .trans ?_ (crossing_only ..)
  exact .mono (withBoundary_only ..)
  exact .mono (withBoundary_only ..)
  exact .mono (withBoundary_only ..)

theorem mbLand_only (n : Nat) (second : Bool) (s : State) :
    Only [.tur] s (mbLand n second s) := by
  unfold mbLand
  dsimp only
  exact rcSet_only ..

theorem flumeSample_only (n : Nat) (p : Nat) (x : BitVec 24) (tag : BitVec 4) (s : State) :
    Only [.tur, .fl, .due, .free] s (flumeSample n p x tag s) := by
  unfold flumeSample
  dsimp only
  refine .ite ?_ ?_
  refine .trans ?_ (sample1_only ..)
  refine .ite ?_ ?_
  refine .trans ?_ (State.modFl_only ..)
  refine .trans ?_ (mbLand_only ..)
  refine .ite ?_ ?_
  refine .trans ?_ (State.modFl_only ..)
  exact .mono (mbLand_only ..)
  exact .refl _ _
  refine .ite ?_ ?_
  refine .trans ?_ (State.modFl_only ..)
  exact .mono (mbLand_only ..)
  exact .refl _ _
  refine .ite ?_ ?_
  refine .trans ?_ (State.modFl_only ..)
  refine .trans ?_ (mbLand_only ..)
  refine .ite ?_ ?_
  refine .trans ?_ (State.modFl_only ..)
  exact .mono (mbLand_only ..)
  exact .refl _ _
  refine .ite ?_ ?_
  refine .trans ?_ (State.modFl_only ..)
  exact .mono (mbLand_only ..)
  exact .refl _ _

theorem flumePosts_only (n : Nat) (op : BitVec 2) (t : U40) (s : State) :
    Only [.out, .tur, .due] s (flumePosts n op t s) := by
  unfold flumePosts
  dsimp only
  refine .ite ?_ ?_
  refine .trans ?_ (schedule_only ..)
  exact .mono (postClaim_only ..)
  exact .mono (postClaim_only ..)

theorem commit_only (n : Nat) (t : U40) (edge : BitVec 2) (start : BitVec 2) (next : U40) (s : State) :
    Only [.out, .tur, .fl, .due] s (commit n t edge start next s) := by
  unfold commit
  dsimp only
  refine .ite ?_ ?_
  refine .ite ?_ ?_
  refine .trans ?_ (flFlag_only ..)
  exact .mono (State.modFl_only ..)
  refine .trans ?_ (flumePosts_only ..)
  refine .trans ?_ (flFlag_only ..)
  exact .mono (State.modFl_only ..)
  refine .trans ?_ (schedule_only ..)
  refine .ite ?_ ?_
  refine .trans ?_ (flFlag_only ..)
  exact .mono (State.modFl_only ..)
  refine .trans ?_ (flumePosts_only ..)
  refine .trans ?_ (flFlag_only ..)
  exact .mono (State.modFl_only ..)

theorem startAction_only (n : Nat) (op : BitVec 2) (t : U40) (s : State) :
    Only [.out, .tur, .due] s (startAction n op t s) := by
  unfold startAction
  exact flumePosts_only ..

theorem flumePostTest_only (n : Nat) (out : Nat) (op : BitVec 2) (t : U40) (made : Nat) (s : State) :
    Only [.out, .tur, .fl, .due] s (flumePostTest n out op t made s) := by
  unfold flumePostTest
  dsimp only
  refine .ite ?_ ?_
  refine .trans ?_ (flFlag_only ..)
  refine .trans ?_ (gateFlag_only ..)
  refine .trans ?_ (postR_only ..)
  exact .mono (withBoundary_only ..)
  refine .trans ?_ (postR_only ..)
  exact .mono (withBoundary_only ..)

theorem flumeClamped_only (n : Nat) (hi : Bool) (s : State) : Only [.tur, .fl, .due] s (flumeClamped n hi s) := by
  unfold flumeClamped
  refine .trans ?_ (flFlag_only ..)
  refine .trans ?_ (gateFlag_only ..)
  exact withBoundary_only ..

theorem flumeCommitStage_only (n : Nat) (t : U40) (edge : BitVec 2) (start : BitVec 2) (next : U40)
    (per : Nat) (s : State) : Only [.out, .tur, .fl, .due] s (flumeCommitStage n t edge start next per s) := by
  unfold flumeCommitStage
  dsimp only
  refine .trans ?_ (commit_only ..)
  refine .trans ?_ (State.modFl_only ..)
  exact .mono (withBoundary_only ..)

theorem dropActs_only (p : Act → Bool) (s : State) : Only [.due] s (dropActs p s) := by
  unfold dropActs
  refine .upd ?_ (.inr rfl) (.inr rfl) (.inr rfl) (.inr rfl) (.inr rfl) (.inr rfl) (.inr rfl) (.inr rfl) (.inr rfl) (.inr rfl) (.inr rfl) (.inr rfl) (.inr rfl) (.inr rfl) (.inr rfl) (.inr rfl) (.inr rfl) (.inr rfl) (.inr rfl) (.inr rfl) (.inr rfl) (.inr rfl) (.inr rfl) (.inl rfl) (.inr rfl) (.inr rfl)
  exact .refl _ _

theorem claimTimer_only (n : Nat) (s : State) : Only [.tur, .fl, .tmr] s (claimTimer n s) := by
  unfold claimTimer
  dsimp only
  refine .ite ?_ ?_
  split
  exact .mono (State.modTmr_only ..)
  refine .ite ?_ ?_
  refine .trans ?_ (flFlag_only ..)
  exact .mono (State.modTmr_only ..)
  exact .mono (flFlag_only ..)
  exact .refl _ _

theorem armFlume_only (n : Nat) (s : State) : Only [.tur, .fl, .tmr] s (armFlume n s) := by
  unfold armFlume
  refine .ite ?_ ?_
  refine .trans ?_ (claimTimer_only ..)
  exact .mono (State.modFl_only ..)
  exact .mono (flFlag_only ..)

theorem disarm_only (n : Nat) (s : State) : Only [.fl, .tmr, .due] s (disarm n s) := by
  unfold disarm
  refine .ite ?_ ?_
  dsimp only
  refine .upd ?_ (.inr rfl) (.inr rfl) (.inr rfl) (.inr rfl) (.inr rfl) (.inr rfl) (.inr rfl) (.inr rfl) (.inr rfl) (.inl rfl) (.inl rfl) (.inr rfl) (.inr rfl) (.inr rfl) (.inr rfl) (.inr rfl) (.inr rfl) (.inr rfl) (.inr rfl) (.inr rfl) (.inr rfl) (.inr rfl) (.inr rfl) (.inl rfl) (.inr rfl) (.inr rfl)
  refine .trans ?_ (State.modFl_only ..)
  exact .mono (dropActs_only ..)
  exact .refl _ _

theorem writeFlCtl_only (n : Nat) (v : U32) (s : State) : Only [.tur, .fl, .tmr, .due] s (writeFlCtl n v s) := by
  unfold writeFlCtl
  dsimp only
  refine .ite ?_ ?_
  refine .ite ?_ ?_
  exact .mono (flFlagIf_only ..)
  refine .trans ?_ (disarm_only ..)
  exact .mono (flFlagIf_only ..)
  refine .ite ?_ ?_
  refine .trans ?_ (armFlume_only ..)
  exact .mono (State.modFl_only ..)
  exact .mono (State.modFl_only ..)

theorem writeGuarded_only (n : Nat) (changes : Bool) (f : Flume → Flume) (s : State) :
    Only [.tur, .fl] s (writeGuarded n changes f s) := by
  unfold writeGuarded
  refine .ite ?_ ?_
  exact flFlagIf_only ..
  exact .mono (State.modFl_only ..)

theorem writeFlReg_only (n : Nat) (r : FlumeReg) (v : U32) (s : State) :
    Only [.tur, .fl, .tmr, .due] s (writeFlReg n r v s) := by
  unfold writeFlReg
  dsimp only
  split
  exact writeFlCtl_only ..
  exact .mono (writeGuarded_only ..)
  exact .mono (writeGuarded_only ..)
  exact .mono (writeGuarded_only ..)
  exact .mono (writeGuarded_only ..)

theorem bankOp_only (ag : Agent) (n : Nat) (op : BankOp) (s : State) :
    Only [.tur, .fl, .due] s (bankOp ag n op s) := by
  unfold bankOp
  dsimp only
  refine .trans ?_ (flFlagIf_only ..)
  refine .trans ?_ (State.modFl_only ..)
  exact withBoundary_only ..

theorem writePend_only (ag : Agent) (n i : Nat) (v : U32) (s : State) :
    Only [.tur, .fl, .due] s (writePend ag n i v s) := by
  unfold writePend
  exact .mono (bankOp_only ..)

theorem sealBank_only (ag : Agent) (n : Nat) (s : State) :
    Only [.tur, .fl, .due] s (sealBank ag n s) := by
  unfold sealBank
  exact .mono (bankOp_only ..)

theorem writePbdata_only (ag : Agent) (n : Nat) (v : U32) (s : State) :
    Only [.tur, .fl, .due] s (writePbdata ag n v s) := by
  unfold writePbdata
  exact .mono (bankOp_only ..)

theorem mbClear_only (n : Nat) (second : Bool) (s : State) : Only [.tur, .fl] s (mbClear n second s) := by
  unfold mbClear
  dsimp only
  refine .trans ?_ (rcTaken_only ..)
  exact .mono (State.modFl_only ..)

theorem flWrite_only (ag : Agent) (n r : Nat) (v : U32) (s : State) :
    Only [.tur, .fl, .tmr, .due] s (flWrite ag n r v s) := by
  unfold flWrite
  split
  exact writeFlReg_only ..
  refine .trans ?_ (State.modFl_only ..)
  exact .mono (withBoundary_only ..)
  refine .trans ?_ (State.modFl_only ..)
  exact .mono (withBoundary_only ..)
  exact writeFlReg_only ..
  exact writeFlReg_only ..
  exact writeFlReg_only ..
  exact writeFlReg_only ..
  exact .mono (State.modFl_only ..)
  exact .mono (State.modFl_only ..)
  exact .mono (bankOp_only ..)
  exact .mono (writePbdata_only ..)
  refine .ite ?_ ?_
  exact .mono (sealBank_only ..)
  exact .refl _ _
  exact .refl _ _

theorem flReadEffect_only (ag : Agent) (n r : Nat) (s : State) :
    Only [.tur, .fl, .due] s (flReadEffect ag n r s) := by
  unfold flReadEffect
  split
  exact .mono (mbClear_only ..)
  exact .mono (mbClear_only ..)
  exact bankOp_only ..
  exact .refl _ _

end Sys2Proof.Machine
end

