-- ==== Sys2Proof/Laws/OnlyProtect.lean ====
section
/-! SUPPORT. Every operation of Machine/Protect.lean changes only the parts that its lemma names. -/

namespace Sys2Proof.Machine

set_option Elab.async false

theorem handShut_only (loc : Bool) (s : State) : Only [.shut, .link] s (handShut loc s) := by
  unfold handShut
  refine .ite ?_ ?_
  refine .trans ?_ (sendShut_only ..)
  refine .upd ?_ (.inr rfl) (.inr rfl) (.inr rfl) (.inr rfl) (.inr rfl) (.inr rfl) (.inr rfl) (.inl rfl) (.inr rfl) (.inr rfl) (.inr rfl) (.inr rfl) (.inr rfl) (.inr rfl) (.inr rfl) (.inr rfl) (.inr rfl) (.inl rfl) (.inr rfl) (.inr rfl) (.inr rfl) (.inr rfl) (.inr rfl) (.inr rfl) (.inr rfl) (.inr rfl)
  exact .refl _ _
  exact .refl _ _

theorem lgTrigger_only (on : Bool) (s : State) : Only [.lg] s (lgTrigger on s) := by
  unfold lgTrigger
  refine .ite ?_ ?_
  refine .upd ?_ (.inr rfl) (.inr rfl) (.inr rfl) (.inr rfl) (.inr rfl) (.inr rfl) (.inr rfl) (.inr rfl) (.inr rfl) (.inr rfl) (.inr rfl) (.inr rfl) (.inr rfl) (.inr rfl) (.inr rfl) (.inr rfl) (.inr rfl) (.inr rfl) (.inl rfl) (.inr rfl) (.inr rfl) (.inr rfl) (.inr rfl) (.inr rfl) (.inr rfl) (.inr rfl)
  exact .refl _ _
  exact .refl _ _

theorem shutAssert_only (b : Nat) (loc : Bool) (s : State) :
    Only [.tur, .shut, .link, .lg] s (shutAssert b loc s) := by
  unfold shutAssert
  refine .ite ?_ ?_
  dsimp only
  refine .trans ?_ (handShut_only ..)
  refine .trans ?_ (raise_only ..)
  refine .trans ?_ (lgTrigger_only ..)
  refine .upd ?_ (.inr rfl) (.inr rfl) (.inr rfl) (.inr rfl) (.inr rfl) (.inl rfl) (.inr rfl) (.inl rfl) (.inr rfl) (.inr rfl) (.inr rfl) (.inr rfl) (.inr rfl) (.inr rfl) (.inr rfl) (.inr rfl) (.inr rfl) (.inl rfl) (.inl rfl) (.inr rfl) (.inr rfl) (.inr rfl) (.inr rfl) (.inr rfl) (.inr rfl) (.inr rfl)
  exact .refl _ _
  refine .ite ?_ ?_
  dsimp only
  refine .trans ?_ (handShut_only ..)
  refine .ite ?_ ?_
  refine .upd ?_ (.inr rfl) (.inr rfl) (.inr rfl) (.inr rfl) (.inr rfl) (.inl rfl) (.inr rfl) (.inl rfl) (.inr rfl) (.inr rfl) (.inr rfl) (.inr rfl) (.inr rfl) (.inr rfl) (.inr rfl) (.inr rfl) (.inr rfl) (.inl rfl) (.inl rfl) (.inr rfl) (.inr rfl) (.inr rfl) (.inr rfl) (.inr rfl) (.inr rfl) (.inr rfl)
  exact .refl _ _
  exact .refl _ _
  exact .refl _ _

theorem latchLink_only (s : State) :
    Only [.tur, .shut, .link, .lg] s (latchLink s) := by
  unfold latchLink
  refine .trans ?_ (shutAssert_only ..)
  refine .upd ?_ (.inr rfl) (.inr rfl) (.inr rfl) (.inr rfl) (.inr rfl) (.inl rfl) (.inr rfl) (.inl rfl) (.inr rfl) (.inr rfl) (.inr rfl) (.inr rfl) (.inr rfl) (.inr rfl) (.inr rfl) (.inr rfl) (.inr rfl) (.inl rfl) (.inl rfl) (.inr rfl) (.inr rfl) (.inr rfl) (.inr rfl) (.inr rfl) (.inr rfl) (.inr rfl)
  exact .refl _ _

theorem shutAssertIf_only (c : Bool) (b : Nat) (loc : Bool) (s : State) :
    Only [.tur, .shut, .link, .lg] s (shutAssertIf c b loc s) := by
  unfold shutAssertIf
  refine .ite ?_ ?_
  exact shutAssert_only ..
  exact .refl _ _

theorem shutFlush_only (s : State) : Only [.out, .fl, .tmr, .due] s (shutFlush s) := by
  unfold shutFlush
  dsimp only
  refine .of' ?_ (.each (fun s k => ?_) _ _)
  refine .of' ?_ (.each (fun s k => ?_) _ _)
  exact .refl _ _
  refine .ite ?_ ?_
  exact .mono (flushOut_only ..)
  exact .refl _ _
  refine .ite ?_ ?_
  exact .mono (disarm_only ..)
  exact .refl _ _

theorem rearm_only (s : State) : Only [.tur, .gate, .shut] s (rearm s) := by
  unfold rearm
  refine .ite ?_ ?_
  exact .refl _ _
  dsimp only
  refine .ite ?_ ?_
  refine .upd ?_ (.inr rfl) (.inr rfl) (.inr rfl) (.inr rfl) (.inr rfl) (.inl rfl) (.inl rfl) (.inl rfl) (.inr rfl) (.inr rfl) (.inr rfl) (.inr rfl) (.inr rfl) (.inr rfl) (.inr rfl) (.inr rfl) (.inr rfl) (.inr rfl) (.inr rfl) (.inr rfl) (.inr rfl) (.inr rfl) (.inr rfl) (.inr rfl) (.inr rfl) (.inr rfl)
  exact .refl _ _
  refine .trans ?_ (raise_only ..)
  refine .trans ?_ (hwSet_only ..)
  refine .upd ?_ (.inr rfl) (.inr rfl) (.inr rfl) (.inr rfl) (.inr rfl) (.inl rfl) (.inl rfl) (.inl rfl) (.inr rfl) (.inr rfl) (.inr rfl) (.inr rfl) (.inr rfl) (.inr rfl) (.inr rfl) (.inr rfl) (.inr rfl) (.inr rfl) (.inr rfl) (.inr rfl) (.inr rfl) (.inr rfl) (.inr rfl) (.inr rfl) (.inr rfl) (.inr rfl)
  exact .refl _ _

theorem shutRelease_only (s : State) : Only [.tur, .shut, .wdog] s (shutRelease s) := by
  unfold shutRelease
  split
  exact .refl _ _
  refine .ite ?_ ?_
  exact .refl _ _
  dsimp only
  refine .ite ?_ ?_
  refine .upd ?_ (.inr rfl) (.inr rfl) (.inr rfl) (.inr rfl) (.inr rfl) (.inl rfl) (.inr rfl) (.inl rfl) (.inl rfl) (.inr rfl) (.inr rfl) (.inr rfl) (.inr rfl) (.inr rfl) (.inr rfl) (.inr rfl) (.inr rfl) (.inr rfl) (.inr rfl) (.inr rfl) (.inr rfl) (.inr rfl) (.inr rfl) (.inr rfl) (.inr rfl) (.inr rfl)
  exact .refl _ _
  refine .trans ?_ (raise_only ..)
  refine .upd ?_ (.inr rfl) (.inr rfl) (.inr rfl) (.inr rfl) (.inr rfl) (.inl rfl) (.inr rfl) (.inl rfl) (.inl rfl) (.inr rfl) (.inr rfl) (.inr rfl) (.inr rfl) (.inr rfl) (.inr rfl) (.inr rfl) (.inr rfl) (.inr rfl) (.inr rfl) (.inr rfl) (.inr rfl) (.inr rfl) (.inr rfl) (.inr rfl) (.inr rfl) (.inr rfl)
  exact .refl _ _

theorem writeShutreq_only (v : U32) (s : State) : Only [.tur, .shut, .link, .lg] s (writeShutreq v s) := by
  unfold writeShutreq
  refine .ite ?_ ?_
  refine .trans ?_ (shutAssertIf_only ..)
  refine .upd ?_ (.inr rfl) (.inr rfl) (.inr rfl) (.inr rfl) (.inr rfl) (.inl rfl) (.inr rfl) (.inl rfl) (.inr rfl) (.inr rfl) (.inr rfl) (.inr rfl) (.inr rfl) (.inr rfl) (.inr rfl) (.inr rfl) (.inr rfl) (.inl rfl) (.inl rfl) (.inr rfl) (.inr rfl) (.inr rfl) (.inr rfl) (.inr rfl) (.inr rfl) (.inr rfl)
  exact .refl _ _
  refine .ite ?_ ?_
  refine .upd ?_ (.inr rfl) (.inr rfl) (.inr rfl) (.inr rfl) (.inr rfl) (.inl rfl) (.inr rfl) (.inl rfl) (.inr rfl) (.inr rfl) (.inr rfl) (.inr rfl) (.inr rfl) (.inr rfl) (.inr rfl) (.inr rfl) (.inr rfl) (.inl rfl) (.inl rfl) (.inr rfl) (.inr rfl) (.inr rfl) (.inr rfl) (.inr rfl) (.inr rfl) (.inr rfl)
  exact .refl _ _
  exact .refl _ _

theorem shutWrite_only (ag : Agent) (r : Nat) (v : U32) (s : State) :
    Only [.tur, .gate, .shut, .link, .lg] s (shutWrite ag r v s).1 := by
  unfold shutWrite
  split
  dsimp only
  exact .mono (writeShutreq_only ..)
  dsimp only
  refine .upd ?_ (.inr rfl) (.inr rfl) (.inr rfl) (.inr rfl) (.inr rfl) (.inl rfl) (.inl rfl) (.inl rfl) (.inr rfl) (.inr rfl) (.inr rfl) (.inr rfl) (.inr rfl) (.inr rfl) (.inr rfl) (.inr rfl) (.inr rfl) (.inl rfl) (.inl rfl) (.inr rfl) (.inr rfl) (.inr rfl) (.inr rfl) (.inr rfl) (.inr rfl) (.inr rfl)
  exact .refl _ _
  refine .iteFst ?_ ?_
  dsimp only
  refine .ite ?_ ?_
  exact .mono (rearm_only ..)
  exact .refl _ _
  dsimp only
  exact .refl _ _
  refine .iteFst ?_ ?_
  dsimp only
  refine .upd ?_ (.inr rfl) (.inr rfl) (.inr rfl) (.inr rfl) (.inr rfl) (.inl rfl) (.inl rfl) (.inl rfl) (.inr rfl) (.inr rfl) (.inr rfl) (.inr rfl) (.inr rfl) (.inr rfl) (.inr rfl) (.inr rfl) (.inr rfl) (.inl rfl) (.inl rfl) (.inr rfl) (.inr rfl) (.inr rfl) (.inr rfl) (.inr rfl) (.inr rfl) (.inr rfl)
  exact .refl _ _
  dsimp only
  exact .refl _ _
  dsimp only
  exact .refl _ _

theorem gateEvaluate_only (s : State) : Only [.gate] s (gateEvaluate s) := by
  unfold gateEvaluate
  refine .upd ?_ (.inr rfl) (.inr rfl) (.inr rfl) (.inr rfl) (.inr rfl) (.inr rfl) (.inl rfl) (.inr rfl) (.inr rfl) (.inr rfl) (.inr rfl) (.inr rfl) (.inr rfl) (.inr rfl) (.inr rfl) (.inr rfl) (.inr rfl) (.inr rfl) (.inr rfl) (.inr rfl) (.inr rfl) (.inr rfl) (.inr rfl) (.inr rfl) (.inr rfl) (.inr rfl)
  exact .refl _ _

theorem gatesEdge_only (s : State) :
    Only [.tur, .gate, .shut, .link, .lg] s (gatesEdge s) := by
  unfold gatesEdge
  dsimp only
  refine .of' ?_ (.each (fun s k => ?_) _ _)
  refine .of' ?_ (.each (fun s k => ?_) _ _)
  refine .upd ?_ (.inr rfl) (.inr rfl) (.inr rfl) (.inr rfl) (.inr rfl) (.inl rfl) (.inl rfl) (.inl rfl) (.inr rfl) (.inr rfl) (.inr rfl) (.inr rfl) (.inr rfl) (.inr rfl) (.inr rfl) (.inr rfl) (.inr rfl) (.inl rfl) (.inl rfl) (.inr rfl) (.inr rfl) (.inr rfl) (.inr rfl) (.inr rfl) (.inr rfl) (.inr rfl)
  exact .refl _ _
  refine .ite ?_ ?_
  refine .trans ?_ (raise_only ..)
  exact .mono (hwSet_only ..)
  exact .refl _ _
  exact .mono (shutAssertIf_only ..)

theorem writeGateCtl_only (k : Nat) (v : U32) (s : State) :
    Only [.tur, .gate, .shut, .link, .lg] s (writeGateCtl k v s) := by
  unfold writeGateCtl
  dsimp only
  refine .trans ?_ (shutAssertIf_only ..)
  exact .mono (State.modGate_only ..)

theorem gateStore_only (ag : Agent) (k : Nat) (r : GateReg) (v : U32) (s : State) :
    Only [.tur, .gate, .shut, .mem, .link, .lg] s (gateStore ag k r v s).1 := by
  unfold gateStore
  refine .iteFst ?_ ?_
  dsimp only
  exact .refl _ _
  split
  dsimp only
  exact .mono (writeGateCtl_only ..)
  dsimp only
  exact .mono (State.modGate_only ..)
  dsimp only
  exact .mono (State.modGate_only ..)
  dsimp only
  exact .mono (State.modGate_only ..)
  dsimp only
  exact .mono (State.modGate_only ..)
  refine .iteFst ?_ ?_
  dsimp only
  refine .trans ?_ (hwSet_only ..)
  exact .mono (State.modGate_only ..)
  dsimp only
  refine .upd ?_ (.inr rfl) (.inr rfl) (.inr rfl) (.inr rfl) (.inr rfl) (.inl rfl) (.inl rfl) (.inl rfl) (.inr rfl) (.inr rfl) (.inr rfl) (.inr rfl) (.inr rfl) (.inr rfl) (.inr rfl) (.inr rfl) (.inl rfl) (.inl rfl) (.inl rfl) (.inr rfl) (.inr rfl) (.inr rfl) (.inr rfl) (.inr rfl) (.inr rfl) (.inr rfl)
  exact .refl _ _

theorem gateWrite_only (ag : Agent) (k : Nat) (r : Nat) (v : U32) (s : State) :
    Only [.tur, .gate, .shut, .mem, .link, .lg] s (gateWrite ag k r v s).1 := by
  unfold gateWrite
  split
  exact gateStore_only ..
  exact gateStore_only ..
  exact gateStore_only ..
  exact gateStore_only ..
  exact gateStore_only ..
  dsimp only
  exact .mono (State.modGate_only ..)
  dsimp only
  exact .refl _ _

theorem requestReset_only (b : Nat) (s : State) : Only [.pwr] s (requestReset b s) := by
  unfold requestReset
  refine .ite ?_ ?_
  exact .refl _ _
  refine .upd ?_ (.inr rfl) (.inr rfl) (.inr rfl) (.inr rfl) (.inr rfl) (.inr rfl) (.inr rfl) (.inr rfl) (.inr rfl) (.inr rfl) (.inr rfl) (.inr rfl) (.inr rfl) (.inr rfl) (.inr rfl) (.inr rfl) (.inr rfl) (.inr rfl) (.inr rfl) (.inr rfl) (.inl rfl) (.inr rfl) (.inr rfl) (.inr rfl) (.inr rfl) (.inr rfl)
  exact .refl _ _

theorem wdogExpire_only (cause : BitVec 2) (s : State) :
    Only [.tur, .shut, .wdog, .link, .lg] s (wdogExpire cause s) := by
  unfold wdogExpire
  dsimp only
  refine .trans ?_ (shutAssert_only ..)
  refine .trans ?_ (raise_only ..)
  refine .trans ?_ (hwSet_only ..)
  refine .upd ?_ (.inr rfl) (.inr rfl) (.inr rfl) (.inr rfl) (.inr rfl) (.inl rfl) (.inr rfl) (.inl rfl) (.inl rfl) (.inr rfl) (.inr rfl) (.inr rfl) (.inr rfl) (.inr rfl) (.inr rfl) (.inr rfl) (.inr rfl) (.inl rfl) (.inl rfl) (.inr rfl) (.inr rfl) (.inr rfl) (.inr rfl) (.inr rfl) (.inr rfl) (.inr rfl)
  exact .refl _ _

theorem wdogService_only (ag : Agent) (v : U32) (s : State) :
    Only [.tur, .shut, .wdog, .link, .lg] s (wdogService ag v s) := by
  unfold wdogService
  split
  refine .ite ?_ ?_
  dsimp only
  refine .ite ?_ ?_
  refine .upd ?_ (.inr rfl) (.inr rfl) (.inr rfl) (.inr rfl) (.inr rfl) (.inl rfl) (.inr rfl) (.inl rfl) (.inl rfl) (.inr rfl) (.inr rfl) (.inr rfl) (.inr rfl) (.inr rfl) (.inr rfl) (.inr rfl) (.inr rfl) (.inl rfl) (.inl rfl) (.inr rfl) (.inr rfl) (.inr rfl) (.inr rfl) (.inr rfl) (.inr rfl) (.inr rfl)
  exact .refl _ _
  refine .ite ?_ ?_
  refine .ite ?_ ?_
  exact wdogExpire_only ..
  refine .upd ?_ (.inr rfl) (.inr rfl) (.inr rfl) (.inr rfl) (.inr rfl) (.inl rfl) (.inr rfl) (.inl rfl) (.inl rfl) (.inr rfl) (.inr rfl) (.inr rfl) (.inr rfl) (.inr rfl) (.inr rfl) (.inr rfl) (.inr rfl) (.inl rfl) (.inl rfl) (.inr rfl) (.inr rfl) (.inr rfl) (.inr rfl) (.inr rfl) (.inr rfl) (.inr rfl)
  exact .refl _ _
  exact wdogExpire_only ..
  exact .refl _ _
  exact .refl _ _
  refine .trans ?_ (hwSet_only ..)
  refine .upd ?_ (.inr rfl) (.inr rfl) (.inr rfl) (.inr rfl) (.inr rfl) (.inl rfl) (.inr rfl) (.inl rfl) (.inl rfl) (.inr rfl) (.inr rfl) (.inr rfl) (.inr rfl) (.inr rfl) (.inr rfl) (.inr rfl) (.inr rfl) (.inl rfl) (.inl rfl) (.inr rfl) (.inr rfl) (.inr rfl) (.inr rfl) (.inr rfl) (.inr rfl) (.inr rfl)
  exact .refl _ _

theorem wdogFreeze_only (s : State) : Only [.wdog] s (wdogFreeze s) := by
  unfold wdogFreeze
  dsimp only
  refine .ite ?_ ?_
  refine .upd ?_ (.inr rfl) (.inr rfl) (.inr rfl) (.inr rfl) (.inr rfl) (.inr rfl) (.inr rfl) (.inr rfl) (.inl rfl) (.inr rfl) (.inr rfl) (.inr rfl) (.inr rfl) (.inr rfl) (.inr rfl) (.inr rfl) (.inr rfl) (.inr rfl) (.inr rfl) (.inr rfl) (.inr rfl) (.inr rfl) (.inr rfl) (.inr rfl) (.inr rfl) (.inr rfl)
  exact .refl _ _
  refine .ite ?_ ?_
  refine .upd ?_ (.inr rfl) (.inr rfl) (.inr rfl) (.inr rfl) (.inr rfl) (.inr rfl) (.inr rfl) (.inr rfl) (.inl rfl) (.inr rfl) (.inr rfl) (.inr rfl) (.inr rfl) (.inr rfl) (.inr rfl) (.inr rfl) (.inr rfl) (.inr rfl) (.inr rfl) (.inr rfl) (.inr rfl) (.inr rfl) (.inr rfl) (.inr rfl) (.inr rfl) (.inr rfl)
  exact .refl _ _
  exact .refl _ _

theorem writeWdog_only (ag : Agent) (v : U32) (s : State) : Only [.wdog] s (writeWdog ag v s) := by
  unfold writeWdog
  dsimp only
  refine .ite ?_ ?_
  refine .trans ?_ (wdogFreeze_only ..)
  refine .upd ?_ (.inr rfl) (.inr rfl) (.inr rfl) (.inr rfl) (.inr rfl) (.inr rfl) (.inr rfl) (.inr rfl) (.inl rfl) (.inr rfl) (.inr rfl) (.inr rfl) (.inr rfl) (.inr rfl) (.inr rfl) (.inr rfl) (.inr rfl) (.inr rfl) (.inr rfl) (.inr rfl) (.inr rfl) (.inr rfl) (.inr rfl) (.inr rfl) (.inr rfl) (.inr rfl)
  exact .refl _ _
  refine .ite ?_ ?_
  exact wdogFreeze_only ..
  refine .ite ?_ ?_
  exact .refl _ _
  refine .trans ?_ (wdogFreeze_only ..)
  refine .upd ?_ (.inr rfl) (.inr rfl) (.inr rfl) (.inr rfl) (.inr rfl) (.inr rfl) (.inr rfl) (.inr rfl) (.inl rfl) (.inr rfl) (.inr rfl) (.inr rfl) (.inr rfl) (.inr rfl) (.inr rfl) (.inr rfl) (.inr rfl) (.inr rfl) (.inr rfl) (.inr rfl) (.inr rfl) (.inr rfl) (.inr rfl) (.inr rfl) (.inr rfl) (.inr rfl)
  exact .refl _ _

theorem wdogWrite_only (ag : Agent) (r : Nat) (v : U32) (s : State) :
    Only [.tur, .shut, .wdog, .link, .lg] s (wdogWrite ag r v s) := by
  unfold wdogWrite
  split
  exact .mono (writeWdog_only ..)
  refine .ite ?_ ?_
  exact .refl _ _
  refine .upd ?_ (.inr rfl) (.inr rfl) (.inr rfl) (.inr rfl) (.inr rfl) (.inl rfl) (.inr rfl) (.inl rfl) (.inl rfl) (.inr rfl) (.inr rfl) (.inr rfl) (.inr rfl) (.inr rfl) (.inr rfl) (.inr rfl) (.inr rfl) (.inl rfl) (.inl rfl) (.inr rfl) (.inr rfl) (.inr rfl) (.inr rfl) (.inr rfl) (.inr rfl) (.inr rfl)
  exact .refl _ _
  refine .ite ?_ ?_
  exact .refl _ _
  refine .upd ?_ (.inr rfl) (.inr rfl) (.inr rfl) (.inr rfl) (.inr rfl) (.inl rfl) (.inr rfl) (.inl rfl) (.inl rfl) (.inr rfl) (.inr rfl) (.inr rfl) (.inr rfl) (.inr rfl) (.inr rfl) (.inr rfl) (.inr rfl) (.inl rfl) (.inl rfl) (.inr rfl) (.inr rfl) (.inr rfl) (.inr rfl) (.inr rfl) (.inr rfl) (.inr rfl)
  exact .refl _ _
  exact wdogService_only ..
  refine .upd ?_ (.inr rfl) (.inr rfl) (.inr rfl) (.inr rfl) (.inr rfl) (.inl rfl) (.inr rfl) (.inl rfl) (.inl rfl) (.inr rfl) (.inr rfl) (.inr rfl) (.inr rfl) (.inr rfl) (.inr rfl) (.inr rfl) (.inr rfl) (.inl rfl) (.inl rfl) (.inr rfl) (.inr rfl) (.inr rfl) (.inr rfl) (.inr rfl) (.inr rfl) (.inr rfl)
  exact .refl _ _
  exact .refl _ _

end Sys2Proof.Machine
end

