-- ==== Sys2Proof/Laws/OnlyTurnout.lean ====
section
/-! SUPPORT. Every operation of Machine/Turnout.lean changes only the parts that its lemma names. -/

namespace Sys2Proof.Machine

set_option Elab.async false

theorem routeOne_only (s : State) (k : Nat) : Only [.tur] s (routeOne s k) := by
  unfold routeOne
  dsimp only
  refine .ite ?_ ?_
  refine .ite ?_ ?_
  split
  exact .refl _ _
  refine .upd ?_ (.inr rfl) (.inr rfl) (.inr rfl) (.inr rfl) (.inr rfl) (.inl rfl) (.inr rfl) (.inr rfl) (.inr rfl) (.inr rfl) (.inr rfl) (.inr rfl) (.inr rfl) (.inr rfl) (.inr rfl) (.inr rfl) (.inr rfl) (.inr rfl) (.inr rfl) (.inr rfl) (.inr rfl) (.inr rfl) (.inr rfl) (.inr rfl) (.inr rfl) (.inr rfl)
  exact State.modSrc_only ..
  exact State.modSrc_only ..
  exact .refl _ _

theorem routeAll_only (s : State) : Only [.tur] s (routeAll s) := by
  unfold routeAll
  refine .of' ?_ (.each (fun s k => ?_) _ _)
  exact .refl _ _
  exact routeOne_only ..

theorem claimTarget_only (t : Nat) (s : State) : Only [.tur] s (claimTarget t s).2 := by
  unfold claimTarget
  split
  dsimp only
  exact .refl _ _
  dsimp only
  refine .trans ?_ (State.modSrc_only ..)
  exact takeCount_only ..

theorem tdpoll_only (n : Nat) (s : State) : Only [.tur] s (tdpoll n s).2 := by
  unfold tdpoll
  split
  dsimp only
  exact .refl _ _
  dsimp only
  exact takeCount_only ..

theorem dispatchClaim_only (n : Nat) (k : Nat) (depth : Byte) (s : State) :
    Only [.tur] s (dispatchClaim n k depth s) := by
  unfold dispatchClaim
  refine .trans ?_ (State.modSrc_only ..)
  exact takeCount_only ..

theorem endServices_only (n : Nat) (depth : Byte) (s : State) : Only [.tur] s (endServices n depth s) := by
  unfold endServices
  refine .upd ?_ (.inr rfl) (.inr rfl) (.inr rfl) (.inr rfl) (.inr rfl) (.inl rfl) (.inr rfl) (.inr rfl) (.inr rfl) (.inr rfl) (.inr rfl) (.inr rfl) (.inr rfl) (.inr rfl) (.inr rfl) (.inr rfl) (.inr rfl) (.inr rfl) (.inr rfl) (.inr rfl) (.inr rfl) (.inr rfl) (.inr rfl) (.inr rfl) (.inr rfl) (.inr rfl)
  exact .refl _ _

theorem endThreadServices_only (n : Nat) (s : State) : Only [.tur] s (endThreadServices n s) := by
  unfold endThreadServices
  refine .upd ?_ (.inr rfl) (.inr rfl) (.inr rfl) (.inr rfl) (.inr rfl) (.inl rfl) (.inr rfl) (.inr rfl) (.inr rfl) (.inr rfl) (.inr rfl) (.inr rfl) (.inr rfl) (.inr rfl) (.inr rfl) (.inr rfl) (.inr rfl) (.inr rfl) (.inr rfl) (.inr rfl) (.inr rfl) (.inr rfl) (.inr rfl) (.inr rfl) (.inr rfl) (.inr rfl)
  exact .refl _ _

theorem completeWrite_only (t : Nat) (v : U32) (s : State) : Only [.tur] s (completeWrite t v s) := by
  unfold completeWrite
  dsimp only
  refine .ite ?_ ?_
  exact State.modSrc_only ..
  refine .trans ?_ (hwSet_only ..)
  refine .upd ?_ (.inr rfl) (.inr rfl) (.inr rfl) (.inr rfl) (.inr rfl) (.inl rfl) (.inr rfl) (.inr rfl) (.inr rfl) (.inr rfl) (.inr rfl) (.inr rfl) (.inr rfl) (.inr rfl) (.inr rfl) (.inr rfl) (.inr rfl) (.inr rfl) (.inr rfl) (.inr rfl) (.inr rfl) (.inr rfl) (.inr rfl) (.inr rfl) (.inr rfl) (.inr rfl)
  exact .refl _ _

theorem swevWrite_only (v : U32) (s : State) : Only [.tur] s (swevWrite v s) := by
  unfold swevWrite
  dsimp only
  refine .ite ?_ ?_
  exact raise_only ..
  exact .refl _ _

theorem sourceConfig_only (k : Nat) (v : U32) (s : State) : Only [.tur] s (sourceConfig k v s) := by
  unfold sourceConfig
  refine .upd ?_ (.inr rfl) (.inr rfl) (.inr rfl) (.inr rfl) (.inr rfl) (.inl rfl) (.inr rfl) (.inr rfl) (.inr rfl) (.inr rfl) (.inr rfl) (.inr rfl) (.inr rfl) (.inr rfl) (.inr rfl) (.inr rfl) (.inr rfl) (.inr rfl) (.inr rfl) (.inr rfl) (.inr rfl) (.inr rfl) (.inr rfl) (.inr rfl) (.inr rfl) (.inr rfl)
  exact .refl _ _

theorem applyConfig_only (k : Nat) (v : U32) (s : State) : Only [.tur] s (applyConfig k v s) := by
  unfold applyConfig
  exact State.modSrc_only ..

theorem applyConfigs_only (s : State) : Only [.tur] s (applyConfigs s) := by
  unfold applyConfigs
  dsimp only
  refine .ite ?_ ?_
  refine .of' ?_ (.foldl (fun s k => ?_) _ _)
  refine .upd ?_ (.inr rfl) (.inr rfl) (.inr rfl) (.inr rfl) (.inr rfl) (.inl rfl) (.inr rfl) (.inr rfl) (.inr rfl) (.inr rfl) (.inr rfl) (.inr rfl) (.inr rfl) (.inr rfl) (.inr rfl) (.inr rfl) (.inr rfl) (.inr rfl) (.inr rfl) (.inr rfl) (.inr rfl) (.inr rfl) (.inr rfl) (.inr rfl) (.inr rfl) (.inr rfl)
  exact .refl _ _
  exact applyConfig_only ..
  refine .trans ?_ (routeAll_only ..)
  refine .of' ?_ (.foldl (fun s k => ?_) _ _)
  refine .upd ?_ (.inr rfl) (.inr rfl) (.inr rfl) (.inr rfl) (.inr rfl) (.inl rfl) (.inr rfl) (.inr rfl) (.inr rfl) (.inr rfl) (.inr rfl) (.inr rfl) (.inr rfl) (.inr rfl) (.inr rfl) (.inr rfl) (.inr rfl) (.inr rfl) (.inr rfl) (.inr rfl) (.inr rfl) (.inr rfl) (.inr rfl) (.inr rfl) (.inr rfl) (.inr rfl)
  exact .refl _ _
  exact applyConfig_only ..

theorem clearSatf_only (k : Nat) (s : State) :
    Only [.tur] s (clearSatf k s) := by
  unfold clearSatf
  dsimp only
  refine .ite ?_ ?_
  refine .upd ?_ (.inr rfl) (.inr rfl) (.inr rfl) (.inr rfl) (.inr rfl) (.inl rfl) (.inr rfl) (.inr rfl) (.inr rfl) (.inr rfl) (.inr rfl) (.inr rfl) (.inr rfl) (.inr rfl) (.inr rfl) (.inr rfl) (.inr rfl) (.inr rfl) (.inr rfl) (.inr rfl) (.inr rfl) (.inr rfl) (.inr rfl) (.inr rfl) (.inr rfl) (.inr rfl)
  exact .refl _ _
  exact State.modSrc_only ..

theorem turnoutWrite_only (r : Nat) (v : U32) (s : State) : Only [.tur] s (turnoutWrite r v s) := by
  unfold turnoutWrite
  refine .ite ?_ ?_
  dsimp only
  refine .ite ?_ ?_
  exact sourceConfig_only ..
  refine .ite ?_ ?_
  exact .mono (clearSatf_only ..)
  exact .refl _ _
  refine .ite ?_ ?_
  dsimp only
  split
  refine .upd ?_ (.inr rfl) (.inr rfl) (.inr rfl) (.inr rfl) (.inr rfl) (.inl rfl) (.inr rfl) (.inr rfl) (.inr rfl) (.inr rfl) (.inr rfl) (.inr rfl) (.inr rfl) (.inr rfl) (.inr rfl) (.inr rfl) (.inr rfl) (.inr rfl) (.inr rfl) (.inr rfl) (.inr rfl) (.inr rfl) (.inr rfl) (.inr rfl) (.inr rfl) (.inr rfl)
  exact .refl _ _
  exact completeWrite_only ..
  refine .upd ?_ (.inr rfl) (.inr rfl) (.inr rfl) (.inr rfl) (.inr rfl) (.inl rfl) (.inr rfl) (.inr rfl) (.inr rfl) (.inr rfl) (.inr rfl) (.inr rfl) (.inr rfl) (.inr rfl) (.inr rfl) (.inr rfl) (.inr rfl) (.inr rfl) (.inr rfl) (.inr rfl) (.inr rfl) (.inr rfl) (.inr rfl) (.inr rfl) (.inr rfl) (.inr rfl)
  exact .refl _ _
  exact .refl _ _
  refine .ite ?_ ?_
  exact swevWrite_only ..
  exact .refl _ _

theorem claimRead_only (thread : Option Nat) (t : Nat) (s : State) :
    Only [.tur] s (claimRead thread t s) := by
  unfold claimRead
  refine .ite ?_ ?_
  exact .refl _ _
  dsimp only
  refine .upd ?_ (.inr rfl) (.inr rfl) (.inr rfl) (.inr rfl) (.inr rfl) (.inl rfl) (.inr rfl) (.inr rfl) (.inr rfl) (.inr rfl) (.inr rfl) (.inr rfl) (.inr rfl) (.inr rfl) (.inr rfl) (.inr rfl) (.inr rfl) (.inr rfl) (.inr rfl) (.inr rfl) (.inr rfl) (.inr rfl) (.inr rfl) (.inr rfl) (.inr rfl) (.inr rfl)
  exact claimTarget_only ..

theorem turnoutReadEffect_only (thread : Option Nat) (r : Nat) (s : State) :
    Only [.tur] s (turnoutReadEffect thread r s) := by
  unfold turnoutReadEffect
  refine .ite ?_ ?_
  exact .mono (claimRead_only ..)
  refine .ite ?_ ?_
  split
  exact tdpoll_only ..
  exact .refl _ _
  exact .refl _ _

end Sys2Proof.Machine
end

