-- ==== Sys2Proof/Laws/OnlyPorts.lean ====
section
/-! SUPPORT. Every operation of Machine/Ports.lean changes only the parts that its lemma names. -/

namespace Sys2Proof.Machine

set_option Elab.async false

theorem smpctlWrite_only (v : U32) (s : State) : Only [.ports, .tur] s (smpctlWrite v s) := by
  unfold smpctlWrite
  dsimp only
  refine .trans ?_ (hwSetIf_only ..)
  refine .upd ?_ (.inr rfl) (.inr rfl) (.inl rfl) (.inr rfl) (.inr rfl) (.inl rfl) (.inr rfl) (.inr rfl) (.inr rfl) (.inr rfl) (.inr rfl) (.inr rfl) (.inr rfl) (.inr rfl) (.inr rfl) (.inr rfl) (.inr rfl) (.inr rfl) (.inr rfl) (.inr rfl) (.inr rfl) (.inr rfl) (.inr rfl) (.inr rfl) (.inr rfl) (.inr rfl)
  exact .refl _ _

theorem publish_only (port : Nat) (x : BitVec 24) (tag : BitVec 4) (s : State) :
    Only [.tur, .link] s (publish port x tag s) := by
  unfold publish
  refine .of' ?_ (.each (fun s k => ?_) _ _)
  exact .refl _ _
  dsimp only
  refine .ite ?_ ?_
  refine .ite ?_ ?_
  refine .trans ?_ (originate_only ..)
  refine .upd ?_ (.inr rfl) (.inr rfl) (.inr rfl) (.inr rfl) (.inr rfl) (.inr rfl) (.inr rfl) (.inr rfl) (.inr rfl) (.inr rfl) (.inr rfl) (.inr rfl) (.inr rfl) (.inr rfl) (.inr rfl) (.inr rfl) (.inr rfl) (.inl rfl) (.inr rfl) (.inr rfl) (.inr rfl) (.inr rfl) (.inr rfl) (.inr rfl) (.inr rfl) (.inr rfl)
  exact .refl _ _
  refine .upd ?_ (.inr rfl) (.inr rfl) (.inr rfl) (.inr rfl) (.inr rfl) (.inr rfl) (.inr rfl) (.inr rfl) (.inr rfl) (.inr rfl) (.inr rfl) (.inr rfl) (.inr rfl) (.inr rfl) (.inr rfl) (.inr rfl) (.inr rfl) (.inl rfl) (.inr rfl) (.inr rfl) (.inr rfl) (.inr rfl) (.inr rfl) (.inr rfl) (.inr rfl) (.inr rfl)
  exact .refl _ _
  exact .refl _ _

theorem landSample_only (n : Nat) (x : BitVec 24) (tag : BitVec 4) (s : State) :
    Only [.ports, .tur, .fl, .tmr, .link, .due, .free] s (landSample n x tag s) := by
  unfold landSample
  dsimp only
  refine .trans ?_ (publish_only ..)
  refine .of' ?_ (.each (fun s k => ?_) _ _)
  refine .of' ?_ (.each (fun s k => ?_) _ _)
  refine .trans ?_ (raiseData_only ..)
  refine .trans ?_ (hwSet_only ..)
  refine .upd ?_ (.inr rfl) (.inr rfl) (.inl rfl) (.inr rfl) (.inr rfl) (.inl rfl) (.inr rfl) (.inr rfl) (.inr rfl) (.inl rfl) (.inl rfl) (.inr rfl) (.inr rfl) (.inr rfl) (.inr rfl) (.inr rfl) (.inr rfl) (.inl rfl) (.inr rfl) (.inr rfl) (.inr rfl) (.inr rfl) (.inr rfl) (.inl rfl) (.inr rfl) (.inl rfl)
  exact .refl _ _
  exact .mono (flumeSample_only ..)
  refine .ite ?_ ?_
  exact .mono (capture_only ..)
  exact .refl _ _

theorem smpWrite_only (r : Nat) (v : U32) (s : State) : Only [.ports, .tur] s (smpWrite r v s) := by
  unfold smpWrite
  split
  exact .mono (smpctlWrite_only ..)
  refine .upd ?_ (.inr rfl) (.inr rfl) (.inl rfl) (.inr rfl) (.inr rfl) (.inr rfl) (.inr rfl) (.inr rfl) (.inr rfl) (.inr rfl) (.inr rfl) (.inr rfl) (.inr rfl) (.inr rfl) (.inr rfl) (.inr rfl) (.inr rfl) (.inr rfl) (.inr rfl) (.inr rfl) (.inr rfl) (.inr rfl) (.inr rfl) (.inr rfl) (.inr rfl) (.inr rfl)
  exact .refl _ _
  refine .upd ?_ (.inr rfl) (.inr rfl) (.inl rfl) (.inr rfl) (.inr rfl) (.inr rfl) (.inr rfl) (.inr rfl) (.inr rfl) (.inr rfl) (.inr rfl) (.inr rfl) (.inr rfl) (.inr rfl) (.inr rfl) (.inr rfl) (.inr rfl) (.inr rfl) (.inr rfl) (.inr rfl) (.inr rfl) (.inr rfl) (.inr rfl) (.inr rfl) (.inr rfl) (.inr rfl)
  exact .refl _ _
  exact .refl _ _

end Sys2Proof.Machine
end

