-- ==== Sys2Proof/Laws/OnlyRider.lean ====
section
/-! SUPPORT. Every operation of Machine/Rider.lean changes only the parts that its lemma names. -/

namespace Sys2Proof.Machine

set_option Elab.async false

theorem rchFlag_only (n : Nat) (b : Nat) (s : State) : Only [.tur, .rider] s (rchFlag n b s) := by
  unfold rchFlag
  dsimp only
  refine .trans ?_ (raiseIf_only ..)
  refine .trans ?_ (hwSet_only ..)
  exact .mono (State.modRch_only ..)

theorem modSlot_only (n : Nat) (j : Nat) (f : RiderSlot → RiderSlot) (s : State) :
    Only [.rider] s (modSlot n j f s) := by
  unfold modSlot
  exact State.modRch_only ..

theorem driveSlot_only (n : Nat) (j : Nat) (b : Bool) (s : State) :
    Only [.out, .tur, .rider] s (driveSlot n j b s) := by
  unfold driveSlot
  dsimp only
  refine .ite ?_ ?_
  refine .trans ?_ (riderClaim_only ..)
  exact .mono (modSlot_only ..)
  exact .refl _ _

theorem nextLevel_only (n : Nat) (j : Nat) (b : Bool) (claim : Bool) (s : State) :
    Only [.out, .tur, .rider] s (nextLevel n j b claim s) := by
  unfold nextLevel
  dsimp only
  refine .ite ?_ ?_
  refine .ite ?_ ?_
  refine .trans ?_ (riderClaim_only ..)
  exact .mono (modSlot_only ..)
  exact .mono (modSlot_only ..)
  exact .refl _ _

theorem sideSet_only (n : Nat) (w : U32) (s : State) : Only [.out, .tur, .rider] s (sideSet n w s) := by
  unfold sideSet
  dsimp only
  refine .of' ?_ (.foldl (fun s k => ?_) _ _)
  exact .refl _ _
  refine .ite ?_ ?_
  exact .refl _ _
  split
  exact nextLevel_only ..
  exact nextLevel_only ..
  exact nextLevel_only ..
  exact .refl _ _

theorem complete_only (n : Nat) (s : State) : Only [.rider] s (complete n s) := by
  unfold complete
  exact State.modRch_only ..

theorem setPhase_only (n : Nat) (p : RiderPhase) (s : State) : Only [.rider] s (setPhase n p s) := by
  unfold setPhase
  exact State.modRch_only ..

theorem riderTurn_only (n : Nat) (s : State) : Only [.out, .tur, .rider] s (riderTurn n s) := by
  unfold riderTurn
  dsimp only
  split
  refine .ite ?_ ?_
  refine .trans ?_ (sideSet_only ..)
  refine .trans ?_ (State.modRch_only ..)
  refine .trans ?_ (State.modRch_only ..)
  refine .upd ?_ (.inr rfl) (.inr rfl) (.inr rfl) (.inl rfl) (.inr rfl) (.inl rfl) (.inr rfl) (.inr rfl) (.inr rfl) (.inr rfl) (.inr rfl) (.inr rfl) (.inl rfl) (.inr rfl) (.inr rfl) (.inr rfl) (.inr rfl) (.inr rfl) (.inr rfl) (.inr rfl) (.inr rfl) (.inr rfl) (.inr rfl) (.inr rfl) (.inr rfl) (.inr rfl)
  exact .refl _ _
  refine .trans ?_ (rchFlag_only ..)
  refine .trans ?_ (State.modRch_only ..)
  refine .trans ?_ (State.modRch_only ..)
  refine .upd ?_ (.inr rfl) (.inr rfl) (.inr rfl) (.inl rfl) (.inr rfl) (.inl rfl) (.inr rfl) (.inr rfl) (.inr rfl) (.inr rfl) (.inr rfl) (.inr rfl) (.inl rfl) (.inr rfl) (.inr rfl) (.inr rfl) (.inr rfl) (.inr rfl) (.inr rfl) (.inr rfl) (.inr rfl) (.inr rfl) (.inr rfl) (.inr rfl) (.inr rfl) (.inr rfl)
  exact .refl _ _
  refine .ite ?_ ?_
  refine .trans ?_ (rchFlag_only ..)
  refine .trans ?_ (State.modRch_only ..)
  refine .trans ?_ (State.modRch_only ..)
  refine .upd ?_ (.inr rfl) (.inr rfl) (.inr rfl) (.inl rfl) (.inr rfl) (.inl rfl) (.inr rfl) (.inr rfl) (.inr rfl) (.inr rfl) (.inr rfl) (.inr rfl) (.inl rfl) (.inr rfl) (.inr rfl) (.inr rfl) (.inr rfl) (.inr rfl) (.inr rfl) (.inr rfl) (.inr rfl) (.inr rfl) (.inr rfl) (.inr rfl) (.inr rfl) (.inr rfl)
  exact .refl _ _
  refine .ite ?_ ?_
  refine .trans ?_ (sideSet_only ..)
  refine .trans ?_ (State.modRch_only ..)
  refine .trans ?_ (State.modRch_only ..)
  refine .upd ?_ (.inr rfl) (.inr rfl) (.inr rfl) (.inl rfl) (.inr rfl) (.inl rfl) (.inr rfl) (.inr rfl) (.inr rfl) (.inr rfl) (.inr rfl) (.inr rfl) (.inl rfl) (.inr rfl) (.inr rfl) (.inr rfl) (.inr rfl) (.inr rfl) (.inr rfl) (.inr rfl) (.inr rfl) (.inr rfl) (.inr rfl) (.inr rfl) (.inr rfl) (.inr rfl)
  exact .refl _ _
  refine .trans ?_ (rchFlag_only ..)
  refine .trans ?_ (State.modRch_only ..)
  refine .trans ?_ (State.modRch_only ..)
  refine .upd ?_ (.inr rfl) (.inr rfl) (.inr rfl) (.inl rfl) (.inr rfl) (.inl rfl) (.inr rfl) (.inr rfl) (.inr rfl) (.inr rfl) (.inr rfl) (.inr rfl) (.inl rfl) (.inr rfl) (.inr rfl) (.inr rfl) (.inr rfl) (.inr rfl) (.inr rfl) (.inr rfl) (.inr rfl) (.inr rfl) (.inr rfl) (.inr rfl) (.inr rfl) (.inr rfl)
  exact .refl _ _

theorem movDo_only (n : Nat) (l : RiderLatch) (s : State) : Only [.out, .tur, .rider] s (movDo n l s) := by
  unfold movDo
  dsimp only
  refine .trans ?_ (complete_only ..)
  split
  refine .trans ?_ (State.modRch_only ..)
  refine .ite ?_ ?_
  exact .mono (State.modRch_only ..)
  exact .refl _ _
  refine .trans ?_ (State.modRch_only ..)
  refine .ite ?_ ?_
  exact .mono (State.modRch_only ..)
  exact .refl _ _
  refine .trans ?_ (State.modRch_only ..)
  refine .ite ?_ ?_
  exact .mono (State.modRch_only ..)
  exact .refl _ _
  refine .trans ?_ (State.modRch_only ..)
  refine .ite ?_ ?_
  exact .mono (State.modRch_only ..)
  exact .refl _ _
  refine .of' ?_ (.foldl (fun s k => ?_) _ _)
  refine .ite ?_ ?_
  exact .mono (State.modRch_only ..)
  exact .refl _ _
  refine .ite ?_ ?_
  exact .refl _ _
  exact nextLevel_only ..
  refine .trans ?_ (State.modRch_only ..)
  refine .ite ?_ ?_
  exact .mono (State.modRch_only ..)
  exact .refl _ _
  refine .trans ?_ (State.modRch_only ..)
  refine .ite ?_ ?_
  exact .mono (State.modRch_only ..)
  exact .refl _ _
  refine .trans ?_ (State.modRch_only ..)
  refine .ite ?_ ?_
  exact .mono (State.modRch_only ..)
  exact .refl _ _
  refine .ite ?_ ?_
  exact .mono (State.modRch_only ..)
  exact .refl _ _

theorem setatDo_only (n : Nat) (l : RiderLatch) (s : State) : Only [.rider] s (setatDo n l s) := by
  unfold setatDo
  refine .trans ?_ (complete_only ..)
  exact State.modRch_only ..

theorem shiftOut_only (n : Nat) (w : U32) (s : State) : Only [.out, .tur, .rider] s (shiftOut n w s) := by
  unfold shiftOut
  refine .ite ?_ ?_
  dsimp only
  refine .ite ?_ ?_
  exact .mono (State.modRch_only ..)
  refine .ite ?_ ?_
  refine .trans ?_ (nextLevel_only ..)
  exact .mono (State.modRch_only ..)
  refine .trans ?_ (driveSlot_only ..)
  exact .mono (State.modRch_only ..)
  exact .refl _ _

theorem shiftIn_only (n : Nat) (w : U32) (s : State) : Only [.rider] s (shiftIn n w s) := by
  unfold shiftIn
  refine .ite ?_ ?_
  exact State.modRch_only ..
  exact .refl _ _

theorem clockTo_only (n : Nat) (active : Bool) (s : State) : Only [.out, .tur, .rider] s (clockTo n active s) := by
  unfold clockTo
  dsimp only
  refine .ite ?_ ?_
  exact driveSlot_only ..
  exact .refl _ _

theorem beginBit_only (n : Nat) (w : U32) (s : State) : Only [.out, .tur, .rider] s (beginBit n w s) := by
  unfold beginBit
  dsimp only
  refine .trans ?_ (setPhase_only ..)
  refine .ite ?_ ?_
  refine .trans ?_ (shiftIn_only ..)
  refine .trans ?_ (clockTo_only ..)
  exact shiftOut_only ..
  refine .trans ?_ (clockTo_only ..)
  exact shiftOut_only ..

theorem endBit_only (n : Nat) (w : U32) (s : State) : Only [.rider] s (endBit n w s).1 := by
  unfold endBit
  dsimp only
  refine .ite ?_ ?_
  refine .trans ?_ (setPhase_only ..)
  exact State.modRch_only ..
  exact State.modRch_only ..

theorem shiftUnit_only (n : Nat) (s : State) : Only [.out, .tur, .rider] s (shiftUnit n s) := by
  unfold shiftUnit
  dsimp only
  split
  refine .ite ?_ ?_
  split
  refine .ite ?_ ?_
  exact .refl _ _
  refine .ite ?_ ?_
  exact beginBit_only ..
  exact .refl _ _
  refine .ite ?_ ?_
  refine .ite ?_ ?_
  refine .trans ?_ (clockTo_only ..)
  exact .mono (endBit_only ..)
  refine .trans ?_ (beginBit_only ..)
  exact .mono (endBit_only ..)
  refine .ite ?_ ?_
  refine .trans ?_ (shiftIn_only ..)
  refine .ite ?_ ?_
  exact clockTo_only ..
  exact .refl _ _
  refine .ite ?_ ?_
  exact clockTo_only ..
  exact .refl _ _
  exact clockTo_only ..
  exact clockTo_only ..
  exact clockTo_only ..

theorem shiftExternal_only (n : Nat) (s : State) :
    Only [.out, .tur, .rider] s (shiftExternal n s) := by
  unfold shiftExternal
  dsimp only
  split
  refine .ite ?_ ?_
  refine .trans ?_ (endBit_only ..)
  refine .trans ?_ (shiftIn_only ..)
  exact shiftOut_only ..
  exact .refl _ _
  exact .refl _ _

theorem fillOsr_only (n : Nat) (s : State) : Only [.rider] s (fillOsr n s) := by
  unfold fillOsr
  split
  refine .trans ?_ (setPhase_only ..)
  exact State.modRch_only ..
  exact setPhase_only ..

theorem waitedFill_only (n : Nat) (s : State) :
    Only [.rider] s (waitedFill n s) := by
  unfold waitedFill
  split
  refine .ite ?_ ?_
  exact fillOsr_only ..
  exact .refl _ _
  exact .refl _ _

theorem channelEdge_only (n : Nat) (s : State) : Only [.out, .tur, .rider] s (channelEdge n s) := by
  unfold channelEdge
  dsimp only
  refine .trans ?_ (waitedFill_only ..)
  refine .trans ?_ (shiftExternal_only ..)
  refine .trans ?_ (State.modRch_only ..)
  refine .trans ?_ (shiftUnit_only ..)
  exact .mono (State.modRch_only ..)

theorem abandon_only (n : Nat) (s : State) : Only [.rider] s (abandon n s) := by
  unfold abandon
  exact State.modRch_only ..

theorem stopChannel_only (n : Nat) (s : State) : Only [.rider] s (stopChannel n s) := by
  unfold stopChannel
  exact State.modRch_only ..

theorem setatFire_only (n : Nat) (late : Bool) (s : State) : Only [.out, .tur, .rider] s (setatFire n late s) := by
  unfold setatFire
  split
  exact .refl _ _
  dsimp only
  refine .ite ?_ ?_
  refine .trans ?_ (rchFlag_only ..)
  refine .trans ?_ (driveSlot_only ..)
  exact .mono (State.modRch_only ..)
  refine .trans ?_ (driveSlot_only ..)
  exact .mono (State.modRch_only ..)

theorem setatThaw_only (s : State) : Only [.out, .tur, .rider] s (setatThaw s) := by
  unfold setatThaw
  refine .of' ?_ (.each (fun s k => ?_) _ _)
  exact .refl _ _
  split
  refine .ite ?_ ?_
  exact setatFire_only ..
  exact .refl _ _
  exact .refl _ _

theorem landFifos_only (s : State) (n : Nat) :
    Only [.tur, .rider] s (landFifos s n) := by
  unfold landFifos
  dsimp only
  refine .ite ?_ ?_
  exact .refl _ _
  refine .ite ?_ ?_
  refine .trans ?_ (rchFlag_only ..)
  exact .mono (State.modRch_only ..)
  exact .mono (State.modRch_only ..)

theorem pushTx_only (n : Nat) (v : U32) (s : State) : Only [.tur, .rider] s (pushTx n v s) := by
  unfold pushTx
  dsimp only
  refine .ite ?_ ?_
  exact .mono (State.modRch_only ..)
  refine .trans ?_ (landFifos_only ..)
  exact .mono (State.modRch_only ..)

theorem popRx_only (n : Nat) (s : State) : Only [.tur, .rider] s (popRx n s).2 := by
  unfold popRx
  split
  dsimp only
  exact .mono (State.modRch_only ..)
  dsimp only
  exact rchFlag_only ..

theorem abortStall_only (n : Nat) (s : State) : Only [.tur, .rider] s (abortStall n s) := by
  unfold abortStall
  dsimp only
  refine .ite ?_ ?_
  refine .trans ?_ (rchFlag_only ..)
  exact .mono (abandon_only ..)
  exact .refl _ _

theorem writeInj_only (n : Nat) (v : U32) (s : State) : Only [.tur, .rider] s (writeInj n v s) := by
  unfold writeInj
  refine .ite ?_ ?_
  exact rchFlag_only ..
  refine .trans ?_ (abortStall_only ..)
  exact .mono (State.modRch_only ..)

theorem writeRchCtl_only (n : Nat) (v : U32) (s : State) : Only [.tur, .rider] s (writeRchCtl n v s) := by
  unfold writeRchCtl
  dsimp only
  refine .ite ?_ ?_
  refine .trans ?_ (State.modRch_only ..)
  refine .trans ?_ (abortStall_only ..)
  refine .trans ?_ (State.modRch_only ..)
  refine .ite ?_ ?_
  exact .mono (State.modRch_only ..)
  exact .refl _ _
  refine .ite ?_ ?_
  refine .trans ?_ (stopChannel_only ..)
  refine .trans ?_ (abortStall_only ..)
  refine .trans ?_ (State.modRch_only ..)
  refine .ite ?_ ?_
  exact .mono (State.modRch_only ..)
  exact .refl _ _
  refine .trans ?_ (abortStall_only ..)
  refine .trans ?_ (State.modRch_only ..)
  refine .ite ?_ ?_
  exact .mono (State.modRch_only ..)
  exact .refl _ _

theorem dropClaims_only (n p : Nat) (s : State) :
    Only [.tur, .rider] s (dropClaims n p s) := by
  unfold dropClaims
  refine .of' ?_ (.each (fun s k => ?_) _ _)
  exact .refl _ _
  refine .ite ?_ ?_
  refine .trans ?_ (rchFlag_only ..)
  exact .mono (State.modRch_only ..)
  exact .refl _ _

theorem mapSlot_only (n : Nat) (j : Nat) (pin : BitVec 6) (mode : BitVec 2) (s : State) :
    Only [.tur, .rider] s (mapSlot n j pin mode s) := by
  unfold mapSlot
  dsimp only
  refine .ite ?_ ?_
  refine .trans ?_ (rchFlag_only ..)
  exact .mono (modSlot_only ..)
  refine .ite ?_ ?_
  refine .trans ?_ (dropClaims_only ..)
  exact .mono (modSlot_only ..)
  exact .mono (modSlot_only ..)

theorem writeMap_only (n : Nat) (hi : Bool) (v : U32) (s : State) : Only [.tur, .rider] s (writeMap n hi v s) := by
  unfold writeMap
  refine .of' ?_ (.foldl (fun s k => ?_) _ _)
  exact .refl _ _
  exact mapSlot_only ..

theorem writeRider_only (v : U32) (s : State) : Only [.tur, .rider] s (writeRider v s) := by
  unfold writeRider
  dsimp only
  refine .ite ?_ ?_
  refine .ite ?_ ?_
  refine .upd ?_ (.inr rfl) (.inr rfl) (.inr rfl) (.inr rfl) (.inr rfl) (.inl rfl) (.inr rfl) (.inr rfl) (.inr rfl) (.inr rfl) (.inr rfl) (.inr rfl) (.inl rfl) (.inr rfl) (.inr rfl) (.inr rfl) (.inr rfl) (.inr rfl) (.inr rfl) (.inr rfl) (.inr rfl) (.inr rfl) (.inr rfl) (.inr rfl) (.inr rfl) (.inr rfl)
  exact .refl _ _
  refine .trans ?_ (hwSet_only ..)
  refine .upd ?_ (.inr rfl) (.inr rfl) (.inr rfl) (.inr rfl) (.inr rfl) (.inl rfl) (.inr rfl) (.inr rfl) (.inr rfl) (.inr rfl) (.inr rfl) (.inr rfl) (.inl rfl) (.inr rfl) (.inr rfl) (.inr rfl) (.inr rfl) (.inr rfl) (.inr rfl) (.inr rfl) (.inr rfl) (.inr rfl) (.inr rfl) (.inr rfl) (.inr rfl) (.inr rfl)
  exact .refl _ _
  refine .upd ?_ (.inr rfl) (.inr rfl) (.inr rfl) (.inr rfl) (.inr rfl) (.inl rfl) (.inr rfl) (.inr rfl) (.inr rfl) (.inr rfl) (.inr rfl) (.inr rfl) (.inl rfl) (.inr rfl) (.inr rfl) (.inr rfl) (.inr rfl) (.inr rfl) (.inr rfl) (.inr rfl) (.inr rfl) (.inr rfl) (.inr rfl) (.inr rfl) (.inr rfl) (.inr rfl)
  exact .refl _ _

theorem syncStart_only (s : State) : Only [.rider] s (syncStart s) := by
  unfold syncStart
  refine .upd ?_ (.inr rfl) (.inr rfl) (.inr rfl) (.inr rfl) (.inr rfl) (.inr rfl) (.inr rfl) (.inr rfl) (.inr rfl) (.inr rfl) (.inr rfl) (.inr rfl) (.inl rfl) (.inr rfl) (.inr rfl) (.inr rfl) (.inr rfl) (.inr rfl) (.inr rfl) (.inr rfl) (.inr rfl) (.inr rfl) (.inr rfl) (.inr rfl) (.inr rfl) (.inr rfl)
  exact .refl _ _

theorem writeProg_only (i : Nat) (v : U32) (s : State) : Only [.rider] s (writeProg i v s) := by
  unfold writeProg
  refine .upd ?_ (.inr rfl) (.inr rfl) (.inr rfl) (.inr rfl) (.inr rfl) (.inr rfl) (.inr rfl) (.inr rfl) (.inr rfl) (.inr rfl) (.inr rfl) (.inr rfl) (.inl rfl) (.inr rfl) (.inr rfl) (.inr rfl) (.inr rfl) (.inr rfl) (.inr rfl) (.inr rfl) (.inr rfl) (.inr rfl) (.inr rfl) (.inr rfl) (.inr rfl) (.inr rfl)
  exact .refl _ _

theorem rchWrite_only (n : Nat) (r : Nat) (v : U32) (s : State) : Only [.tur, .rider] s (rchWrite n r v s) := by
  unfold rchWrite
  split
  exact writeRchCtl_only ..
  exact .mono (State.modRch_only ..)
  exact .mono (State.modRch_only ..)
  exact .mono (State.modRch_only ..)
  exact writeMap_only ..
  exact writeMap_only ..
  exact .mono (State.modRch_only ..)
  exact .mono (State.modRch_only ..)
  exact pushTx_only ..
  exact writeInj_only ..
  exact .mono (State.modRch_only ..)
  exact .mono (State.modRch_only ..)
  exact .refl _ _

theorem riderWrite_only (r : Nat) (v : U32) (s : State) : Only [.tur, .rider] s (riderWrite r v s) := by
  unfold riderWrite
  split
  exact .mono (writeRider_only ..)
  refine .upd ?_ (.inr rfl) (.inr rfl) (.inr rfl) (.inr rfl) (.inr rfl) (.inr rfl) (.inr rfl) (.inr rfl) (.inr rfl) (.inr rfl) (.inr rfl) (.inr rfl) (.inl rfl) (.inr rfl) (.inr rfl) (.inr rfl) (.inr rfl) (.inr rfl) (.inr rfl) (.inr rfl) (.inr rfl) (.inr rfl) (.inr rfl) (.inr rfl) (.inr rfl) (.inr rfl)
  exact .refl _ _
  refine .upd ?_ (.inr rfl) (.inr rfl) (.inr rfl) (.inr rfl) (.inr rfl) (.inr rfl) (.inr rfl) (.inr rfl) (.inr rfl) (.inr rfl) (.inr rfl) (.inr rfl) (.inl rfl) (.inr rfl) (.inr rfl) (.inr rfl) (.inr rfl) (.inr rfl) (.inr rfl) (.inr rfl) (.inr rfl) (.inr rfl) (.inr rfl) (.inr rfl) (.inr rfl) (.inr rfl)
  exact .refl _ _
  refine .upd ?_ (.inr rfl) (.inr rfl) (.inr rfl) (.inr rfl) (.inr rfl) (.inr rfl) (.inr rfl) (.inr rfl) (.inr rfl) (.inr rfl) (.inr rfl) (.inr rfl) (.inl rfl) (.inr rfl) (.inr rfl) (.inr rfl) (.inr rfl) (.inr rfl) (.inr rfl) (.inr rfl) (.inr rfl) (.inr rfl) (.inr rfl) (.inr rfl) (.inr rfl) (.inr rfl)
  exact .refl _ _
  refine .ite ?_ ?_
  dsimp only
  refine .upd ?_ (.inr rfl) (.inr rfl) (.inr rfl) (.inr rfl) (.inr rfl) (.inr rfl) (.inr rfl) (.inr rfl) (.inr rfl) (.inr rfl) (.inr rfl) (.inr rfl) (.inl rfl) (.inr rfl) (.inr rfl) (.inr rfl) (.inr rfl) (.inr rfl) (.inr rfl) (.inr rfl) (.inr rfl) (.inr rfl) (.inr rfl) (.inr rfl) (.inr rfl) (.inr rfl)
  exact .refl _ _
  exact .refl _ _

end Sys2Proof.Machine
end

