-- ==== Sys2Proof/Laws/OnlyRows.lean ====
section
/-! SUPPORT. Every operation of Machine/Rows.lean changes only the parts that its lemma names. -/

namespace Sys2Proof.Machine

set_option Elab.async false

theorem dropResv_only (host : Bool) (g : Nat) (s : State) : Only [.seq] s (dropResv host g s) := by
  unfold dropResv
  refine .upd ?_ (.inr rfl) (.inr rfl) (.inr rfl) (.inr rfl) (.inr rfl) (.inr rfl) (.inr rfl) (.inr rfl) (.inr rfl) (.inr rfl) (.inr rfl) (.inr rfl) (.inr rfl) (.inr rfl) (.inr rfl) (.inl rfl) (.inr rfl) (.inr rfl) (.inr rfl) (.inr rfl) (.inr rfl) (.inr rfl) (.inr rfl) (.inr rfl) (.inr rfl) (.inr rfl)
  exact .refl _ _

theorem storeHost_only (a : U48) (l : List Byte) (s : State) :
    Only [.seq, .mem] s (storeHost a l s) := by
  unfold storeHost
  refine .of' ?_ (.foldl (fun s k => ?_) _ _)
  exact .mono (hostWrite_only ..)
  exact .mono (dropResv_only ..)

theorem storeRow_only (a : Nat) (l : List Byte) (s : State) : Only [.seq, .mem] s (storeRow a l s) := by
  unfold storeRow
  dsimp only
  refine .upd ?_ (.inr rfl) (.inr rfl) (.inr rfl) (.inr rfl) (.inr rfl) (.inr rfl) (.inr rfl) (.inr rfl) (.inr rfl) (.inr rfl) (.inr rfl) (.inr rfl) (.inr rfl) (.inr rfl) (.inr rfl) (.inl rfl) (.inl rfl) (.inr rfl) (.inr rfl) (.inr rfl) (.inr rfl) (.inr rfl) (.inr rfl) (.inr rfl) (.inr rfl) (.inr rfl)
  exact .mono (dropResv_only ..)

theorem storeRowsF_only (fuel a : Nat) (l : List Byte) (s : State) : Only [.seq, .mem] s (storeRowsF fuel a l s) := by
  induction fuel generalizing a l s with
  | zero => exact .refl _ _
  | succ fuel ih =>
    unfold storeRowsF
    refine .ite ?_ ?_
    exact .refl _ _
    dsimp only
    refine .of' ?_ (ih ..)
    exact .mono (storeRow_only ..)

theorem storeData_only (a : Nat) (l : List Byte) (s : State) : Only [.seq, .mem] s (storeData a l s) := by
  unfold storeData
  exact storeRowsF_only ..

theorem threadAccess_only (s : State) :
    Only [.mem] s (threadAccess s) := by
  unfold threadAccess
  refine .upd ?_ (.inr rfl) (.inr rfl) (.inr rfl) (.inr rfl) (.inr rfl) (.inr rfl) (.inr rfl) (.inr rfl) (.inr rfl) (.inr rfl) (.inr rfl) (.inr rfl) (.inr rfl) (.inr rfl) (.inr rfl) (.inr rfl) (.inl rfl) (.inr rfl) (.inr rfl) (.inr rfl) (.inr rfl) (.inr rfl) (.inr rfl) (.inr rfl) (.inr rfl) (.inr rfl)
  exact .refl _ _

theorem storeThread_only (a : Nat) (l : List Byte) (s : State) : Only [.seq, .mem] s (storeThread a l s) := by
  unfold storeThread
  dsimp only
  refine .upd ?_ (.inr rfl) (.inr rfl) (.inr rfl) (.inr rfl) (.inr rfl) (.inr rfl) (.inr rfl) (.inr rfl) (.inr rfl) (.inr rfl) (.inr rfl) (.inr rfl) (.inr rfl) (.inr rfl) (.inr rfl) (.inl rfl) (.inl rfl) (.inr rfl) (.inr rfl) (.inr rfl) (.inr rfl) (.inr rfl) (.inr rfl) (.inr rfl) (.inr rfl) (.inr rfl)
  refine .trans ?_ (storeRow_only ..)
  exact .mono (threadAccess_only ..)

theorem seenRowF_only (now : Row) (l : List RecentRow) (s : State) : Only [.free] s (seenRowF now l s).2 := by
  induction l generalizing s with
  | nil => exact .refl _ _
  | cons x t ih =>
    unfold seenRowF
    dsimp only
    split
    refine .of' ?_ (ih ..)
    refine .upd ?_ (.inr rfl) (.inr rfl) (.inr rfl) (.inr rfl) (.inr rfl) (.inr rfl) (.inr rfl) (.inr rfl) (.inr rfl) (.inr rfl) (.inr rfl) (.inr rfl) (.inr rfl) (.inr rfl) (.inr rfl) (.inr rfl) (.inr rfl) (.inr rfl) (.inr rfl) (.inr rfl) (.inr rfl) (.inr rfl) (.inr rfl) (.inr rfl) (.inr rfl) (.inl rfl)
    exact .refl _ _
    dsimp only
    refine .upd ?_ (.inr rfl) (.inr rfl) (.inr rfl) (.inr rfl) (.inr rfl) (.inr rfl) (.inr rfl) (.inr rfl) (.inr rfl) (.inr rfl) (.inr rfl) (.inr rfl) (.inr rfl) (.inr rfl) (.inr rfl) (.inr rfl) (.inr rfl) (.inr rfl) (.inr rfl) (.inr rfl) (.inr rfl) (.inr rfl) (.inr rfl) (.inr rfl) (.inr rfl) (.inl rfl)
    exact .refl _ _

theorem seenRow_only (r : Nat) (s : State) : Only [.free] s (seenRow r s).2 := by
  unfold seenRow
  exact seenRowF_only ..

theorem seenBytes_only (a : Nat) (len : Nat) (s : State) : Only [.free] s (seenBytes a len s).2 := by
  unfold seenBytes
  split
  dsimp only
  refine .snd ?_ (by assumption)
  exact .mono (seenRow_only ..)

theorem seenDataF_only (fuel a len : Nat) (s : State) : Only [.free] s (seenDataF fuel a len s).2 := by
  induction fuel generalizing a len s with
  | zero => exact .refl _ _
  | succ fuel ih =>
    unfold seenDataF
    split
    dsimp only
    exact .refl _ _
    dsimp only
    refine .of' ?_ (ih ..)
    exact .mono (seenBytes_only ..)

theorem seenData_only (a : Nat) (len : Nat) (s : State) : Only [.free] s (seenData a len s).2 := by
  unfold seenData
  exact seenDataF_only ..

theorem loadData_only (a len : Nat) (s : State) :
    Only [.mem, .free] s (loadData a len s).2 := by
  unfold loadData
  refine .trans ?_ (seenData_only ..)
  exact .mono (threadAccess_only ..)

end Sys2Proof.Machine
end

