-- ==== Sys2Proof/Laws/OnlyHeadgate.lean ====
section
/-! SUPPORT. Every operation of Machine/Headgate.lean changes only the parts that its lemma names. -/

namespace Sys2Proof.Machine

set_option Elab.async false

theorem dirty_only (s : State) : Only [.hg] s (dirty s) := by
  unfold dirty
  refine .upd ?_ (.inr rfl) (.inr rfl) (.inr rfl) (.inr rfl) (.inr rfl) (.inr rfl) (.inr rfl) (.inr rfl) (.inr rfl) (.inr rfl) (.inr rfl) (.inr rfl) (.inr rfl) (.inr rfl) (.inl rfl) (.inr rfl) (.inr rfl) (.inr rfl) (.inr rfl) (.inr rfl) (.inr rfl) (.inr rfl) (.inr rfl) (.inr rfl) (.inr rfl) (.inr rfl)
  exact .refl _ _

theorem hgUpdate_only (s : State) : Only [.tur, .hg] s (hgUpdate s) := by
  unfold hgUpdate
  dsimp only
  refine .upd ?_ (.inr rfl) (.inr rfl) (.inr rfl) (.inr rfl) (.inr rfl) (.inl rfl) (.inr rfl) (.inr rfl) (.inr rfl) (.inr rfl) (.inr rfl) (.inr rfl) (.inr rfl) (.inr rfl) (.inl rfl) (.inr rfl) (.inr rfl) (.inr rfl) (.inr rfl) (.inr rfl) (.inr rfl) (.inr rfl) (.inr rfl) (.inr rfl) (.inr rfl) (.inr rfl)
  refine .trans ?_ (raiseIf_only ..)
  exact .mono (raiseIf_only ..)

theorem cqWrite_only (body : Row) (irq : Bool) (s : State) : Only [.tur, .hg, .mem] s (cqWrite body irq s) := by
  unfold cqWrite
  dsimp only
  refine .trans ?_ (raiseIf_only ..)
  refine .trans ?_ (dirty_only ..)
  refine .upd ?_ (.inr rfl) (.inr rfl) (.inr rfl) (.inr rfl) (.inr rfl) (.inl rfl) (.inr rfl) (.inr rfl) (.inr rfl) (.inr rfl) (.inr rfl) (.inr rfl) (.inr rfl) (.inr rfl) (.inl rfl) (.inr rfl) (.inl rfl) (.inr rfl) (.inr rfl) (.inr rfl) (.inr rfl) (.inr rfl) (.inr rfl) (.inr rfl) (.inr rfl) (.inr rfl)
  exact .mono (hostWrite_only ..)

theorem writeCompletion_only (body : Row) (irq : Bool) (s : State) :
    Only [.tur, .hg, .mem] s (writeCompletion body irq s) := by
  unfold writeCompletion
  refine .ite ?_ ?_
  exact cqWrite_only ..
  refine .upd ?_ (.inr rfl) (.inr rfl) (.inr rfl) (.inr rfl) (.inr rfl) (.inl rfl) (.inr rfl) (.inr rfl) (.inr rfl) (.inr rfl) (.inr rfl) (.inr rfl) (.inr rfl) (.inr rfl) (.inl rfl) (.inr rfl) (.inl rfl) (.inr rfl) (.inr rfl) (.inr rfl) (.inr rfl) (.inr rfl) (.inr rfl) (.inr rfl) (.inr rfl) (.inr rfl)
  exact .refl _ _

theorem writeHeld_only (s : State) : Only [.tur, .hg, .mem] s (writeHeld s) := by
  unfold writeHeld
  refine .of' ?_ (.foldl (fun s k => ?_) _ _)
  refine .upd ?_ (.inr rfl) (.inr rfl) (.inr rfl) (.inr rfl) (.inr rfl) (.inl rfl) (.inr rfl) (.inr rfl) (.inr rfl) (.inr rfl) (.inr rfl) (.inr rfl) (.inr rfl) (.inr rfl) (.inl rfl) (.inr rfl) (.inl rfl) (.inr rfl) (.inr rfl) (.inr rfl) (.inr rfl) (.inr rfl) (.inr rfl) (.inr rfl) (.inr rfl) (.inr rfl)
  exact .refl _ _
  exact cqWrite_only ..

theorem loseRecord_only (s : State) :
    Only [.tur, .hg] s (loseRecord s) := by
  unfold loseRecord
  refine .trans ?_ (rcSet_only ..)
  refine .trans ?_ (dirty_only ..)
  refine .upd ?_ (.inr rfl) (.inr rfl) (.inr rfl) (.inr rfl) (.inr rfl) (.inl rfl) (.inr rfl) (.inr rfl) (.inr rfl) (.inr rfl) (.inr rfl) (.inr rfl) (.inr rfl) (.inr rfl) (.inl rfl) (.inr rfl) (.inr rfl) (.inr rfl) (.inr rfl) (.inr rfl) (.inr rfl) (.inr rfl) (.inr rfl) (.inr rfl) (.inr rfl) (.inr rfl)
  exact .refl _ _

theorem loseEvent_only (s : State) :
    Only [.tur, .hg] s (loseEvent s) := by
  unfold loseEvent
  dsimp only
  refine .ite ?_ ?_
  refine .trans ?_ (loseRecord_only ..)
  refine .trans ?_ (loseRecord_only ..)
  refine .trans ?_ (raiseIf_only ..)
  refine .trans ?_ (hwSet_only ..)
  refine .upd ?_ (.inr rfl) (.inr rfl) (.inr rfl) (.inr rfl) (.inr rfl) (.inl rfl) (.inr rfl) (.inr rfl) (.inr rfl) (.inr rfl) (.inr rfl) (.inr rfl) (.inr rfl) (.inr rfl) (.inl rfl) (.inr rfl) (.inr rfl) (.inr rfl) (.inr rfl) (.inr rfl) (.inr rfl) (.inr rfl) (.inr rfl) (.inr rfl) (.inr rfl) (.inr rfl)
  exact .refl _ _
  refine .trans ?_ (loseRecord_only ..)
  refine .trans ?_ (raiseIf_only ..)
  refine .trans ?_ (hwSet_only ..)
  refine .upd ?_ (.inr rfl) (.inr rfl) (.inr rfl) (.inr rfl) (.inr rfl) (.inl rfl) (.inr rfl) (.inr rfl) (.inr rfl) (.inr rfl) (.inr rfl) (.inr rfl) (.inr rfl) (.inr rfl) (.inl rfl) (.inr rfl) (.inr rfl) (.inr rfl) (.inr rfl) (.inr rfl) (.inr rfl) (.inr rfl) (.inr rfl) (.inr rfl) (.inr rfl) (.inr rfl)
  exact .refl _ _

theorem appendEvent_only (src : BitVec 9) (member : BitVec 3) (gauge : U64) (data : U32) (s : State) :
    Only [.tur, .hg, .mem] s (appendEvent src member gauge data s) := by
  unfold appendEvent
  dsimp only
  refine .ite ?_ ?_
  exact .mono (loseEvent_only ..)
  refine .trans ?_ (dirty_only ..)
  refine .upd ?_ (.inr rfl) (.inr rfl) (.inr rfl) (.inr rfl) (.inr rfl) (.inl rfl) (.inr rfl) (.inr rfl) (.inr rfl) (.inr rfl) (.inr rfl) (.inr rfl) (.inr rfl) (.inr rfl) (.inl rfl) (.inr rfl) (.inl rfl) (.inr rfl) (.inr rfl) (.inr rfl) (.inr rfl) (.inr rfl) (.inr rfl) (.inr rfl) (.inr rfl) (.inr rfl)
  exact .mono (hostWrite_only ..)

theorem hgErr_only (cause : BitVec 3) (ring : Nat) (s : State) : Only [.tur, .hg] s (hgErr cause ring s) := by
  unfold hgErr
  refine .trans ?_ (hwSet_only ..)
  refine .upd ?_ (.inr rfl) (.inr rfl) (.inr rfl) (.inr rfl) (.inr rfl) (.inl rfl) (.inr rfl) (.inr rfl) (.inr rfl) (.inr rfl) (.inr rfl) (.inr rfl) (.inr rfl) (.inr rfl) (.inl rfl) (.inr rfl) (.inr rfl) (.inr rfl) (.inr rfl) (.inr rfl) (.inr rfl) (.inr rfl) (.inr rfl) (.inr rfl) (.inr rfl) (.inr rfl)
  exact .refl _ _

theorem setRing_only (j : Nat) (r : Ring) (s : State) : Only [.hg] s (setRing j r s) := by
  unfold setRing
  refine .ite ?_ ?_
  refine .upd ?_ (.inr rfl) (.inr rfl) (.inr rfl) (.inr rfl) (.inr rfl) (.inr rfl) (.inr rfl) (.inr rfl) (.inr rfl) (.inr rfl) (.inr rfl) (.inr rfl) (.inr rfl) (.inr rfl) (.inl rfl) (.inr rfl) (.inr rfl) (.inr rfl) (.inr rfl) (.inr rfl) (.inr rfl) (.inr rfl) (.inr rfl) (.inr rfl) (.inr rfl) (.inr rfl)
  exact .refl _ _
  refine .ite ?_ ?_
  refine .upd ?_ (.inr rfl) (.inr rfl) (.inr rfl) (.inr rfl) (.inr rfl) (.inr rfl) (.inr rfl) (.inr rfl) (.inr rfl) (.inr rfl) (.inr rfl) (.inr rfl) (.inr rfl) (.inr rfl) (.inl rfl) (.inr rfl) (.inr rfl) (.inr rfl) (.inr rfl) (.inr rfl) (.inr rfl) (.inr rfl) (.inr rfl) (.inr rfl) (.inr rfl) (.inr rfl)
  exact .refl _ _
  refine .upd ?_ (.inr rfl) (.inr rfl) (.inr rfl) (.inr rfl) (.inr rfl) (.inr rfl) (.inr rfl) (.inr rfl) (.inr rfl) (.inr rfl) (.inr rfl) (.inr rfl) (.inr rfl) (.inr rfl) (.inl rfl) (.inr rfl) (.inr rfl) (.inr rfl) (.inr rfl) (.inr rfl) (.inr rfl) (.inr rfl) (.inr rfl) (.inr rfl) (.inr rfl) (.inr rfl)
  exact .refl _ _

theorem bistPaid_only (s : State) : Only [.hg, .bist] s (bistPaid s) := by
  unfold bistPaid
  refine .upd ?_ (.inr rfl) (.inr rfl) (.inr rfl) (.inr rfl) (.inr rfl) (.inr rfl) (.inr rfl) (.inr rfl) (.inr rfl) (.inr rfl) (.inr rfl) (.inr rfl) (.inr rfl) (.inr rfl) (.inl rfl) (.inr rfl) (.inr rfl) (.inr rfl) (.inr rfl) (.inr rfl) (.inr rfl) (.inr rfl) (.inl rfl) (.inr rfl) (.inr rfl) (.inr rfl)
  exact .refl _ _

theorem writeBistOwed_only (s : State) : Only [.tur, .hg, .mem, .bist] s (writeBistOwed s) := by
  unfold writeBistOwed
  dsimp only
  refine .ite ?_ ?_
  refine .trans ?_ (cqWrite_only ..)
  exact .mono (bistPaid_only ..)
  exact .refl _ _

theorem enableRing_only (s : State) (j : Nat) (on : Bool) : Only [.tur, .hg, .mem, .bist] s (enableRing s j on) := by
  unfold enableRing
  dsimp only
  refine .ite ?_ ?_
  exact .mono (setRing_only ..)
  refine .ite ?_ ?_
  exact .refl _ _
  refine .ite ?_ ?_
  exact .mono (hgErr_only ..)
  refine .ite ?_ ?_
  exact .mono (hgErr_only ..)
  refine .ite ?_ ?_
  refine .trans ?_ (writeHeld_only ..)
  refine .trans ?_ (writeBistOwed_only ..)
  refine .trans ?_ (dirty_only ..)
  exact .mono (setRing_only ..)
  refine .trans ?_ (dirty_only ..)
  exact .mono (setRing_only ..)

theorem writeHgctl_only (v : U32) (s : State) : Only [.tur, .hg, .mem, .bist] s (writeHgctl v s) := by
  unfold writeHgctl
  dsimp only
  refine .trans ?_ (hgUpdate_only ..)
  refine .upd ?_ (.inr rfl) (.inr rfl) (.inr rfl) (.inr rfl) (.inr rfl) (.inl rfl) (.inr rfl) (.inr rfl) (.inr rfl) (.inr rfl) (.inr rfl) (.inr rfl) (.inr rfl) (.inr rfl) (.inl rfl) (.inr rfl) (.inl rfl) (.inr rfl) (.inr rfl) (.inr rfl) (.inr rfl) (.inr rfl) (.inl rfl) (.inr rfl) (.inr rfl) (.inr rfl)
  refine .of' ?_ (.each (fun s k => ?_) _ _)
  exact .refl _ _
  exact enableRing_only ..

theorem writeDoorbell_only (r : Nat) (v : U32) (s : State) : Only [.tur, .hg, .pwr] s (writeDoorbell r v s) := by
  unfold writeDoorbell
  dsimp only
  refine .ite ?_ ?_
  refine .trans ?_ (raise_only ..)
  refine .trans ?_ (hgErr_only ..)
  exact .mono (wakeRequest_only ..)
  refine .ite ?_ ?_
  refine .trans ?_ (setRing_only ..)
  exact .mono (wakeRequest_only ..)
  refine .trans ?_ (raise_only ..)
  refine .trans ?_ (hgErr_only ..)
  exact .mono (wakeRequest_only ..)

theorem writeRingHead_only (j : Nat) (v : U32) (s : State) : Only [.tur, .hg] s (writeRingHead j v s) := by
  unfold writeRingHead
  refine .trans ?_ (hgUpdate_only ..)
  exact .mono (setRing_only ..)

theorem writeHgstat_only (v : U32) (s : State) : Only [.hg] s (writeHgstat v s) := by
  unfold writeHgstat
  refine .upd ?_ (.inr rfl) (.inr rfl) (.inr rfl) (.inr rfl) (.inr rfl) (.inr rfl) (.inr rfl) (.inr rfl) (.inr rfl) (.inr rfl) (.inr rfl) (.inr rfl) (.inr rfl) (.inr rfl) (.inl rfl) (.inr rfl) (.inr rfl) (.inr rfl) (.inr rfl) (.inr rfl) (.inr rfl) (.inr rfl) (.inr rfl) (.inr rfl) (.inr rfl) (.inr rfl)
  exact .refl _ _

theorem hgReadEffect_only (r : Nat) (s : State) : Only [.tur, .hg] s (hgReadEffect r s) := by
  unfold hgReadEffect
  refine .ite ?_ ?_
  refine .trans ?_ (rcTaken_only ..)
  refine .trans ?_ (dirty_only ..)
  refine .upd ?_ (.inr rfl) (.inr rfl) (.inr rfl) (.inr rfl) (.inr rfl) (.inl rfl) (.inr rfl) (.inr rfl) (.inr rfl) (.inr rfl) (.inr rfl) (.inr rfl) (.inr rfl) (.inr rfl) (.inl rfl) (.inr rfl) (.inr rfl) (.inr rfl) (.inr rfl) (.inr rfl) (.inr rfl) (.inr rfl) (.inr rfl) (.inr rfl) (.inr rfl) (.inr rfl)
  exact .refl _ _
  exact .refl _ _

theorem hgWrite_only (r : Nat) (v : U32) (s : State) : Only [.tur, .hg, .mem, .pwr, .bist] s (hgWrite r v s) := by
  unfold hgWrite
  refine .ite ?_ ?_
  refine .upd ?_ (.inr rfl) (.inr rfl) (.inr rfl) (.inr rfl) (.inr rfl) (.inl rfl) (.inr rfl) (.inr rfl) (.inr rfl) (.inr rfl) (.inr rfl) (.inr rfl) (.inr rfl) (.inr rfl) (.inl rfl) (.inr rfl) (.inl rfl) (.inr rfl) (.inr rfl) (.inr rfl) (.inl rfl) (.inr rfl) (.inl rfl) (.inr rfl) (.inr rfl) (.inr rfl)
  exact .refl _ _
  refine .ite ?_ ?_
  exact .mono (writeDoorbell_only ..)
  refine .ite ?_ ?_
  dsimp only
  split
  refine .ite ?_ ?_
  exact .refl _ _
  exact .mono (setRing_only ..)
  refine .ite ?_ ?_
  exact .refl _ _
  exact .mono (setRing_only ..)
  refine .ite ?_ ?_
  exact .refl _ _
  exact .mono (setRing_only ..)
  refine .ite ?_ ?_
  exact .refl _ _
  exact .mono (writeRingHead_only ..)
  exact .refl _ _
  split
  exact .mono (writeHgstat_only ..)
  exact .mono (writeHgctl_only ..)
  refine .upd ?_ (.inr rfl) (.inr rfl) (.inr rfl) (.inr rfl) (.inr rfl) (.inl rfl) (.inr rfl) (.inr rfl) (.inr rfl) (.inr rfl) (.inr rfl) (.inr rfl) (.inr rfl) (.inr rfl) (.inl rfl) (.inr rfl) (.inl rfl) (.inr rfl) (.inr rfl) (.inr rfl) (.inl rfl) (.inr rfl) (.inl rfl) (.inr rfl) (.inr rfl) (.inr rfl)
  exact .refl _ _
  refine .upd ?_ (.inr rfl) (.inr rfl) (.inr rfl) (.inr rfl) (.inr rfl) (.inl rfl) (.inr rfl) (.inr rfl) (.inr rfl) (.inr rfl) (.inr rfl) (.inr rfl) (.inr rfl) (.inr rfl) (.inl rfl) (.inr rfl) (.inl rfl) (.inr rfl) (.inr rfl) (.inr rfl) (.inl rfl) (.inr rfl) (.inl rfl) (.inr rfl) (.inr rfl) (.inr rfl)
  exact .refl _ _
  refine .upd ?_ (.inr rfl) (.inr rfl) (.inr rfl) (.inr rfl) (.inr rfl) (.inl rfl) (.inr rfl) (.inr rfl) (.inr rfl) (.inr rfl) (.inr rfl) (.inr rfl) (.inr rfl) (.inr rfl) (.inl rfl) (.inr rfl) (.inl rfl) (.inr rfl) (.inr rfl) (.inr rfl) (.inl rfl) (.inr rfl) (.inl rfl) (.inr rfl) (.inr rfl) (.inr rfl)
  exact .refl _ _
  exact .refl _ _

end Sys2Proof.Machine
end

