-- ==== Sys2Proof/Laws/OnlyCulvert.lean ====
section
/-! SUPPORT. Every operation of Machine/Culvert.lean changes only the parts that its lemma names. -/

namespace Sys2Proof.Machine

set_option Elab.async false

theorem culSet_only (n : Nat) (bits : U32) (s : State) :
    Only [.tur] s (culSet n bits s) := by
  unfold culSet
  exact hwSet_only ..

theorem putRecord_only {n : Nat} {body : Row} {s t : State} (h : putRecord n body s = some t) :
    Only [.tur, .cul, .hg, .mem] s t := by
  unfold putRecord at h
  split at h
  · injection h with h; subst h
    refine .trans ?_ (culSet_only ..)
    exact .mono (State.modCul_only ..)
  · injection h with h; subst h
    refine .trans ?_ (hgUpdate_only ..)
    refine .trans ?_ (cqWrite_only ..)
    exact .mono (State.modCul_only ..)
  · cases h

theorem recordIf_only {n : Nat} {body : Row} {c : Bool} {s t : State}
    (h : (if c then putRecord n body s else some s) = some t) : Only [.tur, .cul, .hg, .mem] s t := by
  split at h
  · exact putRecord_only h
  · injection h with h; subst h; exact .refl _ _

theorem culStop_only (n : Nat) (code : BitVec 4) (s : State) : Only [.tur, .cul, .hg, .mem] s (culStop n code s) := by
  unfold culStop
  dsimp only
  split
  exact .mono (State.modCul_only ..)
  refine .trans ?_ (raise_only ..)
  refine .trans ?_ (culSet_only ..)
  refine .trans ?_ (State.modCul_only ..)
  exact recordIf_only ‹_›

theorem culFail_only (n : Nat) (code : BitVec 4) (s : State) : Only [.cul] s (culFail n code s) := by
  unfold culFail
  exact State.modCul_only ..

theorem loadDesc_only (n : Nat) (l : List Byte) (s : State) : Only [.cul] s (loadDesc n l s) := by
  unfold loadDesc
  dsimp only
  split
  exact State.modCul_only ..
  exact State.modCul_only ..

theorem fetchDesc_only (n : Nat) (resp : HostRead) (s : State) : Only [.cul, .free] s (fetchDesc n resp s) := by
  unfold fetchDesc
  dsimp only
  refine .ite ?_ ?_
  refine .ite ?_ ?_
  split
  refine .trans ?_ (loadDesc_only ..)
  exact .mono (State.modCul_only ..)
  refine .trans ?_ (culFail_only ..)
  exact .mono (State.modCul_only ..)
  refine .ite ?_ ?_
  refine .trans ?_ (culFail_only ..)
  exact .mono (State.modCul_only ..)
  refine .ite ?_ ?_
  refine .trans ?_ (culFail_only ..)
  exact .mono (State.modCul_only ..)
  refine .trans ?_ (loadDesc_only ..)
  refine .trans ?_ (seenData_only ..)
  exact .mono (State.modCul_only ..)
  exact .refl _ _

theorem readBeats_only (d : CulDesc) (at_ k i : Nat) (s : State) : Only [.free] s (readBeats d at_ k i s).2 := by
  induction k generalizing i s with
  | zero => exact .refl _ _
  | succ k ih =>
    unfold readBeats
    split
    split
    dsimp only
    refine .snd ?_ (by assumption)
    refine .of' ?_ (ih ..)
    refine .snd ?_ (by assumption)
    exact .mono (seenBytes_only ..)

theorem issueReads_only (n : Nat) (s : State) :
    Only [.cul, .free] s (issueReads n s) := by
  unfold issueReads
  dsimp only
  split
  exact .refl _ _
  refine .ite ?_ ?_
  exact .mono (State.modCul_only ..)
  refine .ite ?_ ?_
  refine .trans ?_ (State.modCul_only ..)
  exact .mono (State.modCul_only ..)
  refine .trans ?_ (State.modCul_only ..)
  exact .mono (readBeats_only ..)

theorem grantBurst_only (n : Nat) (s : State) : Only [.cul, .free] s (grantBurst n s) := by
  unfold grantBurst
  dsimp only
  refine .ite ?_ ?_
  refine .trans ?_ (issueReads_only ..)
  refine .upd ?_ (.inr rfl) (.inr rfl) (.inr rfl) (.inr rfl) (.inr rfl) (.inr rfl) (.inr rfl) (.inr rfl) (.inr rfl) (.inr rfl) (.inr rfl) (.inr rfl) (.inr rfl) (.inl rfl) (.inr rfl) (.inr rfl) (.inr rfl) (.inr rfl) (.inr rfl) (.inr rfl) (.inr rfl) (.inr rfl) (.inr rfl) (.inr rfl) (.inr rfl) (.inl rfl)
  exact .refl _ _
  refine .trans ?_ (State.modCul_only ..)
  refine .upd ?_ (.inr rfl) (.inr rfl) (.inr rfl) (.inr rfl) (.inr rfl) (.inr rfl) (.inr rfl) (.inr rfl) (.inr rfl) (.inr rfl) (.inr rfl) (.inr rfl) (.inr rfl) (.inl rfl) (.inr rfl) (.inr rfl) (.inr rfl) (.inr rfl) (.inr rfl) (.inr rfl) (.inr rfl) (.inr rfl) (.inr rfl) (.inr rfl) (.inr rfl) (.inl rfl)
  exact .refl _ _

theorem writeBeats_only (n : Nat) (d : CulDesc) (at_ k i : Nat) (l : List Byte) (s : State) :
    Only [.cul, .seq, .mem] s (writeBeats n d at_ k i l s).1 := by
  induction k generalizing i l s with
  | zero => exact .refl _ _
  | succ k ih =>
    unfold writeBeats
    dsimp only
    refine .iteFst ?_ ?_
    refine .of' ?_ (ih ..)
    refine .trans ?_ (State.modCul_only ..)
    exact .mono (storeHost_only ..)
    refine .iteFst ?_ ?_
    dsimp only
    exact .refl _ _
    refine .of' ?_ (ih ..)
    refine .trans ?_ (State.modCul_only ..)
    exact .mono (storeRow_only ..)

theorem completeBurst_only (n : Nat) (resp : HostRead) (writeError : Option (Fin 16)) (s : State) :
    Only [.cul, .seq, .mem] s (completeBurst n resp writeError s) := by
  unfold completeBurst
  dsimp only
  split
  refine .ite ?_ ?_
  exact .refl _ _
  split
  exact .mono (State.modCul_only ..)
  refine .ite ?_ ?_
  refine .trans ?_ (State.modCul_only ..)
  exact writeBeats_only ..
  split
  refine .trans ?_ (State.modCul_only ..)
  exact writeBeats_only ..
  refine .trans ?_ (State.modCul_only ..)
  exact writeBeats_only ..
  exact .refl _ _

theorem completeDesc_only (n : Nat) (s : State) : Only [.tur, .cul, .hg, .mem] s (completeDesc n s) := by
  unfold completeDesc
  dsimp only
  split
  exact .refl _ _
  refine .ite ?_ ?_
  split
  exact .mono (State.modCul_only ..)
  refine .ite ?_ ?_
  refine .trans ?_ (State.modCul_only ..)
  refine .trans ?_ (culPulse_only ..)
  refine .trans ?_ (raiseIf_only ..)
  refine .trans ?_ (culSet_only ..)
  refine .trans ?_ (State.modCul_only ..)
  exact recordIf_only ‹_›
  refine .trans ?_ (State.modCul_only ..)
  refine .trans ?_ (culPulse_only ..)
  refine .trans ?_ (raiseIf_only ..)
  refine .trans ?_ (culSet_only ..)
  refine .trans ?_ (State.modCul_only ..)
  exact recordIf_only ‹_›
  exact .refl _ _

theorem writeCulCtl_only (n : Nat) (v : U32) (s : State) : Only [.tur, .cul, .hg, .mem] s (writeCulCtl n v s) := by
  unfold writeCulCtl
  dsimp only
  refine .ite ?_ ?_
  refine .trans ?_ (culStop_only ..)
  refine .trans ?_ (State.modCul_only ..)
  exact .mono (State.modCul_only ..)
  exact .mono (State.modCul_only ..)

theorem culWrite_only (n : Nat) (r : Nat) (v : U32) (s : State) :
    Only [.tur, .cul, .hg, .mem] s (culWrite n r v s) := by
  unfold culWrite
  split
  exact writeCulCtl_only ..
  exact .mono (State.modCul_only ..)
  exact .mono (State.modCul_only ..)
  exact .mono (State.modCul_only ..)
  exact .refl _ _

end Sys2Proof.Machine
end

