-- ==== Sys2Proof/Laws/OnlyLedgerMem.lean ====
section
/-! SUPPORT. Every operation of Machine/LedgerMem.lean changes only the parts that its lemma names. -/

namespace Sys2Proof.Machine

set_option Elab.async false

theorem lgPut_only (a : Nat) (n : Nat) (v : Nat) (s : State) : Only [.mem] s (lgPut a n v s) := by
  unfold lgPut
  refine .upd ?_ (.inr rfl) (.inr rfl) (.inr rfl) (.inr rfl) (.inr rfl) (.inr rfl) (.inr rfl) (.inr rfl) (.inr rfl) (.inr rfl) (.inr rfl) (.inr rfl) (.inr rfl) (.inr rfl) (.inr rfl) (.inr rfl) (.inl rfl) (.inr rfl) (.inr rfl) (.inr rfl) (.inr rfl) (.inr rfl) (.inr rfl) (.inr rfl) (.inr rfl) (.inr rfl)
  exact .refl _ _

theorem putFlags_only (r : Nat) (v : Byte) (s : State) : Only [.mem] s (putFlags r v s) := by
  unfold putFlags
  exact lgPut_only ..

theorem putPos_only (r : Nat) (ch : BitVec 4) (st : BitVec 2) (dir : BitVec 2) (s : State) :
    Only [.mem] s (putPos r ch st dir s) := by
  unfold putPos
  exact lgPut_only ..

theorem putRes_only (r : Nat) (l : List Int) (s : State) : Only [.mem] s (putRes r l s) := by
  unfold putRes
  dsimp only
  refine .upd ?_ (.inr rfl) (.inr rfl) (.inr rfl) (.inr rfl) (.inr rfl) (.inr rfl) (.inr rfl) (.inr rfl) (.inr rfl) (.inr rfl) (.inr rfl) (.inr rfl) (.inr rfl) (.inr rfl) (.inr rfl) (.inr rfl) (.inl rfl) (.inr rfl) (.inr rfl) (.inr rfl) (.inr rfl) (.inr rfl) (.inr rfl) (.inr rfl) (.inr rfl) (.inr rfl)
  exact lgPut_only ..

theorem lgFlag_only (c : Nat) (b : Nat) (s : State) : Only [.tur, .lg] s (lgFlag c b s) := by
  unfold lgFlag
  dsimp only
  refine .trans ?_ (raiseIf_only ..)
  refine .trans ?_ (hwSet_only ..)
  exact .mono (State.modLg_only ..)

theorem addDamage_only (c : Nat) (r : Nat) (x : Nat) (s : State) :
    Only [.tur, .mem, .lg, .free] s (addDamage c r x s) := by
  unfold addDamage
  dsimp only
  refine .of' ?_ (.each (fun s k => ?_) _ _)
  refine .ite ?_ ?_
  refine .trans ?_ (lgPut_only ..)
  exact .mono (lgPut_only ..)
  refine .trans ?_ (lgPut_only ..)
  refine .trans ?_ (lgPut_only ..)
  exact .mono (drawFree_only ..)
  refine .ite ?_ ?_
  refine .trans ?_ (lgFlag_only ..)
  exact .mono (putFlags_only ..)
  exact .refl _ _

theorem addBin_only (c : Nat) (r : Nat) (i : Nat) (h3 : Nat) (s : State) :
    Only [.tur, .mem, .lg] s (addBin c r i h3 s) := by
  unfold addBin
  dsimp only
  refine .ite ?_ ?_
  exact .mono (lgPut_only ..)
  refine .trans ?_ (lgFlag_only ..)
  refine .trans ?_ (putFlags_only ..)
  exact .mono (lgPut_only ..)

theorem closeCycle_only (c : Nat) (r : Nat) (p : Int) (q : Int) (h4 : Nat) (s : State) :
    Only [.tur, .mem, .lg, .free] s (closeCycle c r p q h4 s) := by
  unfold closeCycle
  dsimp only
  refine .trans ?_ (addDamage_only ..)
  exact .mono (addBin_only ..)

theorem pushRes_only (c : Nat) (r : Nat) (x : Int) (s : State) :
    Only [.tur, .mem, .lg, .free] s (pushRes c r x s) := by
  unfold pushRes
  split
  refine .ite ?_ ?_
  dsimp only
  refine .trans ?_ (lgFlag_only ..)
  refine .trans ?_ (putFlags_only ..)
  refine .trans ?_ (putRes_only ..)
  exact closeCycle_only ..
  exact .mono (putRes_only ..)
  exact .mono (putRes_only ..)

theorem rainflow_only (c : Nat) (r : Nat) (s : State) : Only [.tur, .mem, .lg, .free] s (rainflow c r s) := by
  unfold rainflow
  split
  dsimp only
  refine .trans ?_ (putRes_only ..)
  refine .of' ?_ (.foldl (fun s k => ?_) _ _)
  exact .refl _ _
  exact closeCycle_only ..

theorem onSample_only (c : Nat) (r : Nat) (t : Int) (s : State) :
    Only [.tur, .mem, .lg, .free] s (onSample c r t s) := by
  unfold onSample
  dsimp only
  split
  refine .trans ?_ (putPos_only ..)
  exact pushRes_only ..
  refine .ite ?_ ?_
  refine .ite ?_ ?_
  refine .trans ?_ (putPos_only ..)
  exact .mono (lgPut_only ..)
  refine .ite ?_ ?_
  refine .trans ?_ (putPos_only ..)
  exact .mono (lgPut_only ..)
  exact .refl _ _
  refine .ite ?_ ?_
  exact .mono (lgPut_only ..)
  refine .ite ?_ ?_
  refine .trans ?_ (rainflow_only ..)
  refine .trans ?_ (putPos_only ..)
  refine .trans ?_ (lgPut_only ..)
  exact pushRes_only ..
  exact .refl _ _

theorem processTemp_only (c : Nat) (s : State) : Only [.tur, .mem, .lg, .free] s (processTemp c s) := by
  unfold processTemp
  dsimp only
  split
  exact .refl _ _
  refine .ite ?_ ?_
  refine .trans ?_ (lgFlag_only ..)
  exact .mono (State.modLg_only ..)
  refine .ite ?_ ?_
  refine .trans ?_ (State.modLg_only ..)
  exact .mono (State.modLg_only ..)
  refine .trans ?_ (onSample_only ..)
  refine .trans ?_ (State.modLg_only ..)
  exact .mono (State.modLg_only ..)

theorem ageChannel_only (s : State) (c : Nat) : Only [.tur, .mem, .lg, .free] s (ageChannel s c) := by
  unfold ageChannel
  dsimp only
  split
  refine .ite ?_ ?_
  refine .trans ?_ (addDamage_only ..)
  exact .mono (addBin_only ..)
  exact .refl _ _
  exact .refl _ _

theorem stageRecord_only (r : Nat) (s : State) : Only [.mem] s (stageRecord r s).2 := by
  unfold stageRecord
  dsimp only
  refine .trans ?_ (lgPut_only ..)
  exact lgPut_only ..

end Sys2Proof.Machine
end

