-- ==== Sys2Proof/Laws/OnlyNvm.lean ====
section
/-! SUPPORT. Every operation of Machine/Nvm.lean changes only the parts that its lemma names. -/

namespace Sys2Proof.Machine

set_option Elab.async false

theorem readUnit_only (p : NvmPlace) (u : Nat) (s : State) : Only [.free] s (readUnit p u s).2 := by
  unfold readUnit
  dsimp only
  split
  dsimp only
  refine .upd ?_ (.inr rfl) (.inr rfl) (.inr rfl) (.inr rfl) (.inr rfl) (.inr rfl) (.inr rfl) (.inr rfl) (.inr rfl) (.inr rfl) (.inr rfl) (.inr rfl) (.inr rfl) (.inr rfl) (.inr rfl) (.inr rfl) (.inr rfl) (.inr rfl) (.inr rfl) (.inr rfl) (.inr rfl) (.inr rfl) (.inr rfl) (.inr rfl) (.inr rfl) (.inl rfl)
  exact .refl _ _
  split
  dsimp only
  exact .refl _ _
  dsimp only
  exact .refl _ _

theorem countUnit_only (r : UnitRead) (s : State) : Only [.tur, .nvm] s (countUnit r s) := by
  unfold countUnit
  refine .ite ?_ ?_
  dsimp only
  refine .ite ?_ ?_
  refine .upd ?_ (.inr rfl) (.inr rfl) (.inr rfl) (.inr rfl) (.inr rfl) (.inl rfl) (.inr rfl) (.inr rfl) (.inr rfl) (.inr rfl) (.inr rfl) (.inr rfl) (.inr rfl) (.inr rfl) (.inr rfl) (.inr rfl) (.inr rfl) (.inr rfl) (.inr rfl) (.inl rfl) (.inr rfl) (.inr rfl) (.inr rfl) (.inr rfl) (.inr rfl) (.inr rfl)
  refine .trans ?_ (rcSet_only ..)
  refine .trans ?_ (hwSet_only ..)
  refine .upd ?_ (.inr rfl) (.inr rfl) (.inr rfl) (.inr rfl) (.inr rfl) (.inl rfl) (.inr rfl) (.inr rfl) (.inr rfl) (.inr rfl) (.inr rfl) (.inr rfl) (.inr rfl) (.inr rfl) (.inr rfl) (.inr rfl) (.inr rfl) (.inr rfl) (.inr rfl) (.inl rfl) (.inr rfl) (.inr rfl) (.inr rfl) (.inr rfl) (.inr rfl) (.inr rfl)
  exact .refl _ _
  refine .trans ?_ (raise_only ..)
  refine .trans ?_ (rcSet_only ..)
  refine .trans ?_ (hwSet_only ..)
  refine .upd ?_ (.inr rfl) (.inr rfl) (.inr rfl) (.inr rfl) (.inr rfl) (.inl rfl) (.inr rfl) (.inr rfl) (.inr rfl) (.inr rfl) (.inr rfl) (.inr rfl) (.inr rfl) (.inr rfl) (.inr rfl) (.inr rfl) (.inr rfl) (.inr rfl) (.inr rfl) (.inl rfl) (.inr rfl) (.inr rfl) (.inr rfl) (.inr rfl) (.inr rfl) (.inr rfl)
  exact .refl _ _
  refine .ite ?_ ?_
  refine .trans ?_ (rcSet_only ..)
  refine .upd ?_ (.inr rfl) (.inr rfl) (.inr rfl) (.inr rfl) (.inr rfl) (.inl rfl) (.inr rfl) (.inr rfl) (.inr rfl) (.inr rfl) (.inr rfl) (.inr rfl) (.inr rfl) (.inr rfl) (.inr rfl) (.inr rfl) (.inr rfl) (.inr rfl) (.inr rfl) (.inl rfl) (.inr rfl) (.inr rfl) (.inr rfl) (.inr rfl) (.inr rfl) (.inr rfl)
  exact .refl _ _
  exact .refl _ _

theorem readLogical_only (sector : Nat) (u : Nat) (s : State) :
    Only [.tur, .nvm, .free] s (readLogical sector u s).2 := by
  unfold readLogical
  split
  dsimp only
  refine .trans ?_ (countUnit_only ..)
  refine .snd ?_ (by assumption)
  exact .mono (readUnit_only ..)

theorem readCopyF_only (c k u : Nat) (s : State) : Only [.tur, .nvm, .free] s (readCopyF c k u s).2 := by
  induction k generalizing u s with
  | zero => exact .refl _ _
  | succ k ih =>
    unfold readCopyF
    split
    split
    dsimp only
    refine .snd ?_ (by assumption)
    refine .of' ?_ (ih ..)
    refine .trans ?_ (countUnit_only ..)
    refine .snd ?_ (by assumption)
    exact .mono (readUnit_only ..)

theorem readCopy_only (c : Nat) (s : State) : Only [.tur, .nvm, .free] s (readCopy c s).2 := by
  unfold readCopy
  split
  dsimp only
  refine .snd ?_ (by assumption)
  exact .mono (readCopyF_only ..)

theorem takeOpt_only (o : Opt) (s : State) : Only [.link, .nvm, .dbg] s (takeOpt o s) := by
  unfold takeOpt
  refine .upd ?_ (.inr rfl) (.inr rfl) (.inr rfl) (.inr rfl) (.inr rfl) (.inr rfl) (.inr rfl) (.inr rfl) (.inr rfl) (.inr rfl) (.inr rfl) (.inr rfl) (.inr rfl) (.inr rfl) (.inr rfl) (.inr rfl) (.inr rfl) (.inl rfl) (.inr rfl) (.inl rfl) (.inr rfl) (.inl rfl) (.inr rfl) (.inr rfl) (.inr rfl) (.inr rfl)
  exact .refl _ _

theorem loadOptions_only (s : State) : Only [.tur, .link, .nvm, .dbg, .free] s (loadOptions s) := by
  unfold loadOptions
  split
  split
  split
  dsimp only
  split
  refine .trans ?_ (raise_only ..)
  refine .trans ?_ (raise_only ..)
  refine .trans ?_ (takeOpt_only ..)
  refine .upd ?_ (.inr rfl) (.inr rfl) (.inr rfl) (.inr rfl) (.inr rfl) (.inl rfl) (.inr rfl) (.inr rfl) (.inr rfl) (.inr rfl) (.inr rfl) (.inr rfl) (.inr rfl) (.inr rfl) (.inr rfl) (.inr rfl) (.inr rfl) (.inl rfl) (.inr rfl) (.inl rfl) (.inr rfl) (.inl rfl) (.inr rfl) (.inr rfl) (.inr rfl) (.inl rfl)
  refine .snd ?_ (by assumption)
  refine .trans ?_ (readCopy_only ..)
  refine .snd ?_ (by assumption)
  refine .trans ?_ (readCopy_only ..)
  refine .snd ?_ (by assumption)
  exact .mono (readCopy_only ..)
  refine .trans ?_ (raiseIf_only ..)
  refine .trans ?_ (takeOpt_only ..)
  refine .upd ?_ (.inr rfl) (.inr rfl) (.inr rfl) (.inr rfl) (.inr rfl) (.inl rfl) (.inr rfl) (.inr rfl) (.inr rfl) (.inr rfl) (.inr rfl) (.inr rfl) (.inr rfl) (.inr rfl) (.inr rfl) (.inr rfl) (.inr rfl) (.inl rfl) (.inr rfl) (.inl rfl) (.inr rfl) (.inl rfl) (.inr rfl) (.inr rfl) (.inr rfl) (.inl rfl)
  refine .snd ?_ (by assumption)
  refine .trans ?_ (readCopy_only ..)
  refine .snd ?_ (by assumption)
  refine .trans ?_ (readCopy_only ..)
  refine .snd ?_ (by assumption)
  exact .mono (readCopy_only ..)

theorem addOption_only (c : OptChange) (s : State) : Only [.nvm] s (addOption c s) := by
  unfold addOption
  dsimp only
  refine .upd ?_ (.inr rfl) (.inr rfl) (.inr rfl) (.inr rfl) (.inr rfl) (.inr rfl) (.inr rfl) (.inr rfl) (.inr rfl) (.inr rfl) (.inr rfl) (.inr rfl) (.inr rfl) (.inr rfl) (.inr rfl) (.inr rfl) (.inr rfl) (.inr rfl) (.inr rfl) (.inl rfl) (.inr rfl) (.inr rfl) (.inr rfl) (.inr rfl) (.inr rfl) (.inr rfl)
  exact .refl _ _

theorem addJob_only (j : NvmJob) (s : State) : Only [.nvm] s (addJob j s) := by
  unfold addJob
  refine .upd ?_ (.inr rfl) (.inr rfl) (.inr rfl) (.inr rfl) (.inr rfl) (.inr rfl) (.inr rfl) (.inr rfl) (.inr rfl) (.inr rfl) (.inr rfl) (.inr rfl) (.inr rfl) (.inr rfl) (.inr rfl) (.inr rfl) (.inr rfl) (.inr rfl) (.inr rfl) (.inl rfl) (.inr rfl) (.inr rfl) (.inr rfl) (.inr rfl) (.inr rfl) (.inr rfl)
  exact .refl _ _

theorem modJob_only (f : NvmJob → NvmJob) (s : State) : Only [.nvm] s (modJob f s) := by
  unfold modJob
  split
  exact .refl _ _
  refine .upd ?_ (.inr rfl) (.inr rfl) (.inr rfl) (.inr rfl) (.inr rfl) (.inr rfl) (.inr rfl) (.inr rfl) (.inr rfl) (.inr rfl) (.inr rfl) (.inr rfl) (.inr rfl) (.inr rfl) (.inr rfl) (.inr rfl) (.inr rfl) (.inr rfl) (.inr rfl) (.inl rfl) (.inr rfl) (.inr rfl) (.inr rfl) (.inr rfl) (.inr rfl) (.inr rfl)
  exact .refl _ _

theorem setStage_only (seq : Nat) (st : CmdStage) (s : State) : Only [.hg] s (setStage seq st s) := by
  unfold setStage
  dsimp only
  refine .upd ?_ (.inr rfl) (.inr rfl) (.inr rfl) (.inr rfl) (.inr rfl) (.inr rfl) (.inr rfl) (.inr rfl) (.inr rfl) (.inr rfl) (.inr rfl) (.inr rfl) (.inr rfl) (.inr rfl) (.inl rfl) (.inr rfl) (.inr rfl) (.inr rfl) (.inr rfl) (.inr rfl) (.inr rfl) (.inr rfl) (.inr rfl) (.inr rfl) (.inr rfl) (.inr rfl)
  exact .refl _ _

theorem imageDone_only (seq : Nat) (status : Byte) (acc : U64) (slot : Option Bool) (s : State) :
    Only [.hg, .seq] s (imageDone seq status acc slot s) := by
  unfold imageDone
  refine .ite ?_ ?_
  refine .trans ?_ (setStage_only ..)
  refine .upd ?_ (.inr rfl) (.inr rfl) (.inr rfl) (.inr rfl) (.inr rfl) (.inr rfl) (.inr rfl) (.inr rfl) (.inr rfl) (.inr rfl) (.inr rfl) (.inr rfl) (.inr rfl) (.inr rfl) (.inl rfl) (.inl rfl) (.inr rfl) (.inr rfl) (.inr rfl) (.inr rfl) (.inr rfl) (.inr rfl) (.inr rfl) (.inr rfl) (.inr rfl) (.inr rfl)
  exact .refl _ _
  refine .trans ?_ (setStage_only ..)
  refine .upd ?_ (.inr rfl) (.inr rfl) (.inr rfl) (.inr rfl) (.inr rfl) (.inr rfl) (.inr rfl) (.inr rfl) (.inr rfl) (.inr rfl) (.inr rfl) (.inr rfl) (.inr rfl) (.inr rfl) (.inl rfl) (.inl rfl) (.inr rfl) (.inr rfl) (.inr rfl) (.inr rfl) (.inr rfl) (.inr rfl) (.inr rfl) (.inr rfl) (.inr rfl) (.inr rfl)
  exact .refl _ _

theorem cmdDone_only (seq : Nat) (j : NvmJob) (status : Byte) (sector : Nat) (s : State) :
    Only [.hg, .seq] s (cmdDone seq j status sector s) := by
  unfold cmdDone
  split
  exact .refl _ _
  dsimp only
  refine .ite ?_ ?_
  exact imageDone_only ..
  exact .mono (setStage_only ..)

theorem endJob_only (status : Byte) (sector : Nat) (s : State) :
    Only [.tur, .hg, .seq, .lg, .nvm] s (endJob status sector s) := by
  unfold endJob
  split
  exact .refl _ _
  dsimp only
  split
  refine .trans ?_ (cmdDone_only ..)
  refine .upd ?_ (.inr rfl) (.inr rfl) (.inr rfl) (.inr rfl) (.inr rfl) (.inl rfl) (.inr rfl) (.inr rfl) (.inr rfl) (.inr rfl) (.inr rfl) (.inr rfl) (.inr rfl) (.inr rfl) (.inl rfl) (.inl rfl) (.inr rfl) (.inr rfl) (.inl rfl) (.inl rfl) (.inr rfl) (.inr rfl) (.inr rfl) (.inr rfl) (.inr rfl) (.inr rfl)
  exact .refl _ _
  refine .ite ?_ ?_
  refine .upd ?_ (.inr rfl) (.inr rfl) (.inr rfl) (.inr rfl) (.inr rfl) (.inl rfl) (.inr rfl) (.inr rfl) (.inr rfl) (.inr rfl) (.inr rfl) (.inr rfl) (.inr rfl) (.inr rfl) (.inl rfl) (.inl rfl) (.inr rfl) (.inr rfl) (.inl rfl) (.inl rfl) (.inr rfl) (.inr rfl) (.inr rfl) (.inr rfl) (.inr rfl) (.inr rfl)
  exact .refl _ _
  refine .trans ?_ (hwSet_only ..)
  refine .upd ?_ (.inr rfl) (.inr rfl) (.inr rfl) (.inr rfl) (.inr rfl) (.inl rfl) (.inr rfl) (.inr rfl) (.inr rfl) (.inr rfl) (.inr rfl) (.inr rfl) (.inr rfl) (.inr rfl) (.inl rfl) (.inl rfl) (.inr rfl) (.inr rfl) (.inl rfl) (.inl rfl) (.inr rfl) (.inr rfl) (.inr rfl) (.inr rfl) (.inr rfl) (.inr rfl)
  exact .refl _ _
  refine .upd ?_ (.inr rfl) (.inr rfl) (.inr rfl) (.inr rfl) (.inr rfl) (.inl rfl) (.inr rfl) (.inr rfl) (.inr rfl) (.inr rfl) (.inr rfl) (.inr rfl) (.inr rfl) (.inr rfl) (.inl rfl) (.inl rfl) (.inr rfl) (.inr rfl) (.inl rfl) (.inl rfl) (.inr rfl) (.inr rfl) (.inr rfl) (.inr rfl) (.inr rfl) (.inr rfl)
  exact .refl _ _
  refine .trans ?_ (raiseIf_only ..)
  refine .upd ?_ (.inr rfl) (.inr rfl) (.inr rfl) (.inr rfl) (.inr rfl) (.inl rfl) (.inr rfl) (.inr rfl) (.inr rfl) (.inr rfl) (.inr rfl) (.inr rfl) (.inr rfl) (.inr rfl) (.inl rfl) (.inl rfl) (.inr rfl) (.inr rfl) (.inl rfl) (.inl rfl) (.inr rfl) (.inr rfl) (.inr rfl) (.inr rfl) (.inr rfl) (.inr rfl)
  exact .refl _ _

theorem popOp_only (s : State) : Only [.nvm] s (popOp s) := by
  unfold popOp
  split
  exact .refl _ _
  dsimp only
  refine .upd ?_ (.inr rfl) (.inr rfl) (.inr rfl) (.inr rfl) (.inr rfl) (.inr rfl) (.inr rfl) (.inr rfl) (.inr rfl) (.inr rfl) (.inr rfl) (.inr rfl) (.inr rfl) (.inr rfl) (.inr rfl) (.inr rfl) (.inr rfl) (.inr rfl) (.inr rfl) (.inl rfl) (.inr rfl) (.inr rfl) (.inr rfl) (.inr rfl) (.inr rfl) (.inr rfl)
  exact .refl _ _

theorem setFail_only (sector : Nat) (cause : BitVec 4) (pulses : Nat) (s : State) :
    Only [.nvm] s (setFail sector cause pulses s) := by
  unfold setFail
  refine .upd ?_ (.inr rfl) (.inr rfl) (.inr rfl) (.inr rfl) (.inr rfl) (.inr rfl) (.inr rfl) (.inr rfl) (.inr rfl) (.inr rfl) (.inr rfl) (.inr rfl) (.inr rfl) (.inr rfl) (.inr rfl) (.inr rfl) (.inr rfl) (.inr rfl) (.inr rfl) (.inl rfl) (.inr rfl) (.inr rfl) (.inr rfl) (.inr rfl) (.inr rfl) (.inr rfl)
  exact .refl _ _

theorem copyFailed_only (c : Nat) (s : State) : Only [.tur, .nvm] s (copyFailed c s) := by
  unfold copyFailed
  dsimp only
  refine .trans ?_ (raise_only ..)
  refine .trans ?_ (hwSet_only ..)
  refine .upd ?_ (.inr rfl) (.inr rfl) (.inr rfl) (.inr rfl) (.inr rfl) (.inl rfl) (.inr rfl) (.inr rfl) (.inr rfl) (.inr rfl) (.inr rfl) (.inr rfl) (.inr rfl) (.inr rfl) (.inr rfl) (.inr rfl) (.inr rfl) (.inr rfl) (.inr rfl) (.inl rfl) (.inr rfl) (.inr rfl) (.inr rfl) (.inr rfl) (.inr rfl) (.inr rfl)
  exact .mono (modJob_only ..)

theorem checkCopy_only (c : Nat) (s : State) : Only [.tur, .nvm, .free] s (checkCopy c s) := by
  unfold checkCopy
  split
  split
  refine .snd ?_ (by assumption)
  exact .mono (readCopy_only ..)
  split
  refine .ite ?_ ?_
  dsimp only
  refine .upd ?_ (.inr rfl) (.inr rfl) (.inr rfl) (.inr rfl) (.inr rfl) (.inl rfl) (.inr rfl) (.inr rfl) (.inr rfl) (.inr rfl) (.inr rfl) (.inr rfl) (.inr rfl) (.inr rfl) (.inr rfl) (.inr rfl) (.inr rfl) (.inr rfl) (.inr rfl) (.inl rfl) (.inr rfl) (.inr rfl) (.inr rfl) (.inr rfl) (.inr rfl) (.inl rfl)
  refine .trans ?_ (popOp_only ..)
  refine .trans ?_ (modJob_only ..)
  refine .snd ?_ (by assumption)
  exact .mono (readCopy_only ..)
  refine .trans ?_ (copyFailed_only ..)
  refine .snd ?_ (by assumption)
  exact .mono (readCopy_only ..)
  refine .trans ?_ (copyFailed_only ..)
  refine .snd ?_ (by assumption)
  exact .mono (readCopy_only ..)

theorem takeSpare_only {bank : Nat} {s t : State} {a : Nat} (h : takeSpare bank s = some (a, t)) :
    Only [.nvm] s t := by
  unfold takeSpare at h
  dsimp only at h
  split at h
  cases h
  cases h
  refine .upd ?_ (.inr rfl) (.inr rfl) (.inr rfl) (.inr rfl) (.inr rfl) (.inr rfl) (.inr rfl) (.inr rfl) (.inr rfl) (.inr rfl) (.inr rfl) (.inr rfl) (.inr rfl) (.inr rfl) (.inr rfl) (.inr rfl) (.inr rfl) (.inr rfl) (.inr rfl) (.inl rfl) (.inr rfl) (.inr rfl) (.inr rfl) (.inr rfl) (.inr rfl) (.inr rfl)
  exact .refl _ _

theorem copyUnits_only (p sp : NvmPlace) (skip sector k u : Nat) (s : State) :
    Only [.tur, .nvm, .free] s (copyUnits p sp skip sector k u s).2 := by
  induction k generalizing u s with
  | zero => exact .refl _ _
  | succ k ih =>
    unfold copyUnits
    split
    refine .of' ?_ (ih ..)
    exact .refl _ _
    split
    split
    dsimp only
    refine .snd ?_ (by assumption)
    refine .of' ?_ (ih ..)
    refine .ite ?_ ?_
    refine .snd ?_ (by assumption)
    exact .mono (readUnit_only ..)
    refine .trans ?_ (countUnit_only ..)
    refine .snd ?_ (by assumption)
    exact .mono (readUnit_only ..)

theorem verifyFail_only (sector : Nat) (cause : BitVec 4) (pulses : Nat) (s : State) :
    Only [.tur, .hg, .seq, .lg, .nvm, .free] s (verifyFail sector cause pulses s) := by
  unfold verifyFail
  split
  exact .refl _ _
  dsimp only
  split
  split
  refine .trans ?_ (copyFailed_only ..)
  refine .trans ?_ (setFail_only ..)
  refine .upd ?_ (.inr rfl) (.inr rfl) (.inr rfl) (.inr rfl) (.inr rfl) (.inl rfl) (.inr rfl) (.inr rfl) (.inr rfl) (.inr rfl) (.inr rfl) (.inr rfl) (.inr rfl) (.inr rfl) (.inl rfl) (.inl rfl) (.inr rfl) (.inr rfl) (.inl rfl) (.inl rfl) (.inr rfl) (.inr rfl) (.inr rfl) (.inr rfl) (.inr rfl) (.inl rfl)
  exact .refl _ _
  refine .trans ?_ (copyFailed_only ..)
  refine .trans ?_ (setFail_only ..)
  refine .upd ?_ (.inr rfl) (.inr rfl) (.inr rfl) (.inr rfl) (.inr rfl) (.inl rfl) (.inr rfl) (.inr rfl) (.inr rfl) (.inr rfl) (.inr rfl) (.inr rfl) (.inr rfl) (.inr rfl) (.inl rfl) (.inl rfl) (.inr rfl) (.inr rfl) (.inl rfl) (.inl rfl) (.inr rfl) (.inr rfl) (.inr rfl) (.inr rfl) (.inr rfl) (.inl rfl)
  exact .refl _ _
  refine .trans ?_ (setFail_only ..)
  refine .upd ?_ (.inr rfl) (.inr rfl) (.inr rfl) (.inr rfl) (.inr rfl) (.inl rfl) (.inr rfl) (.inr rfl) (.inr rfl) (.inr rfl) (.inr rfl) (.inr rfl) (.inr rfl) (.inr rfl) (.inl rfl) (.inl rfl) (.inr rfl) (.inr rfl) (.inl rfl) (.inl rfl) (.inr rfl) (.inr rfl) (.inr rfl) (.inr rfl) (.inr rfl) (.inl rfl)
  exact .refl _ _
  refine .ite ?_ ?_
  refine .trans ?_ (endJob_only ..)
  refine .trans ?_ (setFail_only ..)
  refine .upd ?_ (.inr rfl) (.inr rfl) (.inr rfl) (.inr rfl) (.inr rfl) (.inl rfl) (.inr rfl) (.inr rfl) (.inr rfl) (.inr rfl) (.inr rfl) (.inr rfl) (.inr rfl) (.inr rfl) (.inl rfl) (.inl rfl) (.inr rfl) (.inr rfl) (.inl rfl) (.inl rfl) (.inr rfl) (.inr rfl) (.inr rfl) (.inr rfl) (.inr rfl) (.inl rfl)
  exact .refl _ _
  split
  refine .ite ?_ ?_
  refine .trans ?_ (addOption_only ..)
  refine .trans ?_ (endJob_only ..)
  refine .trans ?_ (raise_only ..)
  refine .trans ?_ (hwSet_only ..)
  refine .upd ?_ (.inr rfl) (.inr rfl) (.inr rfl) (.inr rfl) (.inr rfl) (.inl rfl) (.inr rfl) (.inr rfl) (.inr rfl) (.inr rfl) (.inr rfl) (.inr rfl) (.inr rfl) (.inr rfl) (.inl rfl) (.inl rfl) (.inr rfl) (.inr rfl) (.inl rfl) (.inl rfl) (.inr rfl) (.inr rfl) (.inr rfl) (.inr rfl) (.inr rfl) (.inl rfl)
  refine .trans ?_ (setFail_only ..)
  refine .upd ?_ (.inr rfl) (.inr rfl) (.inr rfl) (.inr rfl) (.inr rfl) (.inl rfl) (.inr rfl) (.inr rfl) (.inr rfl) (.inr rfl) (.inr rfl) (.inr rfl) (.inr rfl) (.inr rfl) (.inl rfl) (.inl rfl) (.inr rfl) (.inr rfl) (.inl rfl) (.inl rfl) (.inr rfl) (.inr rfl) (.inr rfl) (.inr rfl) (.inr rfl) (.inl rfl)
  exact .refl _ _
  refine .trans ?_ (endJob_only ..)
  refine .trans ?_ (raise_only ..)
  refine .trans ?_ (hwSet_only ..)
  refine .upd ?_ (.inr rfl) (.inr rfl) (.inr rfl) (.inr rfl) (.inr rfl) (.inl rfl) (.inr rfl) (.inr rfl) (.inr rfl) (.inr rfl) (.inr rfl) (.inr rfl) (.inr rfl) (.inr rfl) (.inl rfl) (.inl rfl) (.inr rfl) (.inr rfl) (.inl rfl) (.inl rfl) (.inr rfl) (.inr rfl) (.inr rfl) (.inr rfl) (.inr rfl) (.inl rfl)
  refine .trans ?_ (setFail_only ..)
  refine .upd ?_ (.inr rfl) (.inr rfl) (.inr rfl) (.inr rfl) (.inr rfl) (.inl rfl) (.inr rfl) (.inr rfl) (.inr rfl) (.inr rfl) (.inr rfl) (.inr rfl) (.inr rfl) (.inr rfl) (.inl rfl) (.inl rfl) (.inr rfl) (.inr rfl) (.inl rfl) (.inl rfl) (.inr rfl) (.inr rfl) (.inr rfl) (.inr rfl) (.inr rfl) (.inl rfl)
  exact .refl _ _
  refine .trans ?_ (modJob_only ..)
  split
  refine .trans ?_ (copyUnits_only ..)
  refine .trans ?_ (takeSpare_only (by assumption))
  refine .trans ?_ (setFail_only ..)
  refine .upd ?_ (.inr rfl) (.inr rfl) (.inr rfl) (.inr rfl) (.inr rfl) (.inl rfl) (.inr rfl) (.inr rfl) (.inr rfl) (.inr rfl) (.inr rfl) (.inr rfl) (.inr rfl) (.inr rfl) (.inl rfl) (.inl rfl) (.inr rfl) (.inr rfl) (.inl rfl) (.inl rfl) (.inr rfl) (.inr rfl) (.inr rfl) (.inr rfl) (.inr rfl) (.inl rfl)
  exact .refl _ _
  dsimp only
  refine .trans ?_ (takeSpare_only (by assumption))
  refine .trans ?_ (setFail_only ..)
  refine .upd ?_ (.inr rfl) (.inr rfl) (.inr rfl) (.inr rfl) (.inr rfl) (.inl rfl) (.inr rfl) (.inr rfl) (.inr rfl) (.inr rfl) (.inr rfl) (.inr rfl) (.inr rfl) (.inr rfl) (.inl rfl) (.inl rfl) (.inr rfl) (.inr rfl) (.inl rfl) (.inl rfl) (.inr rfl) (.inr rfl) (.inr rfl) (.inr rfl) (.inr rfl) (.inl rfl)
  exact .refl _ _

theorem persistNext_only (s : State) : Only [.mem, .lg, .nvm] s (persistNext s) := by
  unfold persistNext
  dsimp only
  split
  refine .ite ?_ ?_
  refine .trans ?_ (modJob_only ..)
  refine .upd ?_ (.inr rfl) (.inr rfl) (.inr rfl) (.inr rfl) (.inr rfl) (.inr rfl) (.inr rfl) (.inr rfl) (.inr rfl) (.inr rfl) (.inr rfl) (.inr rfl) (.inr rfl) (.inr rfl) (.inr rfl) (.inr rfl) (.inl rfl) (.inr rfl) (.inl rfl) (.inl rfl) (.inr rfl) (.inr rfl) (.inr rfl) (.inr rfl) (.inr rfl) (.inr rfl)
  exact .mono (stageRecord_only ..)
  refine .upd ?_ (.inr rfl) (.inr rfl) (.inr rfl) (.inr rfl) (.inr rfl) (.inr rfl) (.inr rfl) (.inr rfl) (.inr rfl) (.inr rfl) (.inr rfl) (.inr rfl) (.inr rfl) (.inr rfl) (.inr rfl) (.inr rfl) (.inl rfl) (.inr rfl) (.inl rfl) (.inl rfl) (.inr rfl) (.inr rfl) (.inr rfl) (.inr rfl) (.inr rfl) (.inr rfl)
  exact .refl _ _
  refine .trans ?_ (addJob_only ..)
  refine .upd ?_ (.inr rfl) (.inr rfl) (.inr rfl) (.inr rfl) (.inr rfl) (.inr rfl) (.inr rfl) (.inr rfl) (.inr rfl) (.inr rfl) (.inr rfl) (.inr rfl) (.inr rfl) (.inr rfl) (.inr rfl) (.inr rfl) (.inl rfl) (.inr rfl) (.inl rfl) (.inl rfl) (.inr rfl) (.inr rfl) (.inr rfl) (.inr rfl) (.inr rfl) (.inr rfl)
  exact .refl _ _
  refine .upd ?_ (.inr rfl) (.inr rfl) (.inr rfl) (.inr rfl) (.inr rfl) (.inr rfl) (.inr rfl) (.inr rfl) (.inr rfl) (.inr rfl) (.inr rfl) (.inr rfl) (.inr rfl) (.inr rfl) (.inr rfl) (.inr rfl) (.inl rfl) (.inr rfl) (.inl rfl) (.inl rfl) (.inr rfl) (.inr rfl) (.inr rfl) (.inr rfl) (.inr rfl) (.inr rfl)
  exact .refl _ _

theorem beginErase_only (p : NvmPlace) (s : State) : Only [.nvm] s (beginErase p s) := by
  unfold beginErase
  refine .upd ?_ (.inr rfl) (.inr rfl) (.inr rfl) (.inr rfl) (.inr rfl) (.inr rfl) (.inr rfl) (.inr rfl) (.inr rfl) (.inr rfl) (.inr rfl) (.inr rfl) (.inr rfl) (.inr rfl) (.inr rfl) (.inr rfl) (.inr rfl) (.inr rfl) (.inr rfl) (.inl rfl) (.inr rfl) (.inr rfl) (.inr rfl) (.inr rfl) (.inr rfl) (.inr rfl)
  exact .refl _ _

theorem beginProgram_only (k : Nat) (s : State) : Only [.nvm] s (beginProgram k s) := by
  unfold beginProgram
  refine .upd ?_ (.inr rfl) (.inr rfl) (.inr rfl) (.inr rfl) (.inr rfl) (.inr rfl) (.inr rfl) (.inr rfl) (.inr rfl) (.inr rfl) (.inr rfl) (.inr rfl) (.inr rfl) (.inr rfl) (.inr rfl) (.inr rfl) (.inr rfl) (.inr rfl) (.inr rfl) (.inl rfl) (.inr rfl) (.inr rfl) (.inr rfl) (.inr rfl) (.inr rfl) (.inr rfl)
  exact .refl _ _

theorem finishRetire_only (s : State) : Only [.tur, .hg, .seq, .lg, .nvm] s (finishRetire s) := by
  unfold finishRetire
  split
  exact .refl _ _
  split
  refine .ite ?_ ?_
  refine .trans ?_ (addOption_only ..)
  exact .mono (modJob_only ..)
  dsimp only
  refine .ite ?_ ?_
  refine .trans ?_ (endJob_only ..)
  refine .trans ?_ (setFail_only ..)
  refine .trans ?_ (modJob_only ..)
  refine .trans ?_ (raise_only ..)
  refine .trans ?_ (hwSet_only ..)
  refine .upd ?_ (.inr rfl) (.inr rfl) (.inr rfl) (.inr rfl) (.inr rfl) (.inl rfl) (.inr rfl) (.inr rfl) (.inr rfl) (.inr rfl) (.inr rfl) (.inr rfl) (.inr rfl) (.inr rfl) (.inl rfl) (.inl rfl) (.inr rfl) (.inr rfl) (.inl rfl) (.inl rfl) (.inr rfl) (.inr rfl) (.inr rfl) (.inr rfl) (.inr rfl) (.inr rfl)
  exact .refl _ _
  refine .trans ?_ (popOp_only ..)
  refine .trans ?_ (modJob_only ..)
  refine .trans ?_ (modJob_only ..)
  refine .trans ?_ (raise_only ..)
  refine .trans ?_ (hwSet_only ..)
  refine .upd ?_ (.inr rfl) (.inr rfl) (.inr rfl) (.inr rfl) (.inr rfl) (.inl rfl) (.inr rfl) (.inr rfl) (.inr rfl) (.inr rfl) (.inr rfl) (.inr rfl) (.inr rfl) (.inr rfl) (.inl rfl) (.inl rfl) (.inr rfl) (.inr rfl) (.inl rfl) (.inl rfl) (.inr rfl) (.inr rfl) (.inr rfl) (.inr rfl) (.inr rfl) (.inr rfl)
  exact .refl _ _
  exact .refl _ _

theorem pumpF_only (fuel : Nat) (s : State) : Only [.tur, .hg, .seq, .mem, .lg, .nvm, .free] s (pumpF fuel s) := by
  induction fuel generalizing s with
  | zero => exact .refl _ _
  | succ fuel ih =>
    unfold pumpF
    refine .ite ?_ ?_
    exact .refl _ _
    split
    exact .refl _ _
    split
    split
    dsimp only
    refine .ite ?_ ?_
    refine .of' ?_ (ih ..)
    exact .mono (endJob_only ..)
    refine .of' ?_ (ih ..)
    exact .mono (modJob_only ..)
    refine .of' ?_ (ih ..)
    exact .mono (persistNext_only ..)
    refine .of' ?_ (ih ..)
    exact .mono (endJob_only ..)
    dsimp only
    refine .of' ?_ (ih ..)
    refine .trans ?_ (modJob_only ..)
    refine .upd ?_ (.inr rfl) (.inr rfl) (.inr rfl) (.inr rfl) (.inr rfl) (.inl rfl) (.inr rfl) (.inr rfl) (.inr rfl) (.inr rfl) (.inr rfl) (.inr rfl) (.inr rfl) (.inr rfl) (.inl rfl) (.inl rfl) (.inl rfl) (.inr rfl) (.inl rfl) (.inl rfl) (.inr rfl) (.inr rfl) (.inr rfl) (.inr rfl) (.inr rfl) (.inl rfl)
    exact .refl _ _
    refine .of' ?_ (ih ..)
    exact .mono (checkCopy_only ..)
    refine .of' ?_ (ih ..)
    exact .mono (finishRetire_only ..)
    refine .ite ?_ ?_
    refine .of' ?_ (ih ..)
    refine .trans ?_ (endJob_only ..)
    exact .mono (setFail_only ..)
    exact .mono (beginErase_only ..)
    dsimp only
    refine .ite ?_ ?_
    refine .of' ?_ (ih ..)
    refine .trans ?_ (endJob_only ..)
    exact .mono (setFail_only ..)
    refine .ite ?_ ?_
    refine .ite ?_ ?_
    refine .trans ?_ (beginProgram_only ..)
    exact .mono (readUnit_only ..)
    refine .of' ?_ (ih ..)
    refine .trans ?_ (endJob_only ..)
    refine .trans ?_ (setFail_only ..)
    refine .trans ?_ (countUnit_only ..)
    exact .mono (readUnit_only ..)
    exact .mono (beginProgram_only ..)

theorem pump_only (s : State) : Only [.tur, .hg, .seq, .mem, .lg, .nvm, .free] s (pump s) := by
  unfold pump
  exact pumpF_only ..

theorem reportWear_only (sector : Nat) (n : Nat) (s : State) : Only [.tur, .nvm] s (reportWear sector n s) := by
  unfold reportWear
  dsimp only
  refine .ite ?_ ?_
  exact .refl _ _
  refine .ite ?_ ?_
  refine .trans ?_ (setFail_only ..)
  refine .trans ?_ (modJob_only ..)
  refine .trans ?_ (raise_only ..)
  refine .trans ?_ (hwSet_only ..)
  refine .upd ?_ (.inr rfl) (.inr rfl) (.inr rfl) (.inr rfl) (.inr rfl) (.inl rfl) (.inr rfl) (.inr rfl) (.inr rfl) (.inr rfl) (.inr rfl) (.inr rfl) (.inr rfl) (.inr rfl) (.inr rfl) (.inr rfl) (.inr rfl) (.inr rfl) (.inr rfl) (.inl rfl) (.inr rfl) (.inr rfl) (.inr rfl) (.inr rfl) (.inr rfl) (.inr rfl)
  exact .refl _ _
  refine .trans ?_ (modJob_only ..)
  refine .trans ?_ (raise_only ..)
  refine .trans ?_ (hwSet_only ..)
  refine .upd ?_ (.inr rfl) (.inr rfl) (.inr rfl) (.inr rfl) (.inr rfl) (.inl rfl) (.inr rfl) (.inr rfl) (.inr rfl) (.inr rfl) (.inr rfl) (.inr rfl) (.inr rfl) (.inr rfl) (.inr rfl) (.inr rfl) (.inr rfl) (.inr rfl) (.inr rfl) (.inl rfl) (.inr rfl) (.inr rfl) (.inr rfl) (.inr rfl) (.inr rfl) (.inr rfl)
  exact .refl _ _

theorem opDone_only (n : Nat) (s : State) : Only [.tur, .hg, .seq, .mem, .lg, .nvm, .free] s (opDone n s) := by
  unfold opDone
  dsimp only
  refine .trans ?_ (pump_only ..)
  refine .trans ?_ (popOp_only ..)
  exact .mono (modJob_only ..)

theorem erasePulse_only (pass : Bool) (s : State) :
    Only [.tur, .hg, .seq, .mem, .lg, .nvm, .free] s (erasePulse pass s) := by
  unfold erasePulse
  split
  split
  refine .ite ?_ ?_
  exact .refl _ _
  dsimp only
  refine .ite ?_ ?_
  refine .trans ?_ (opDone_only ..)
  refine .trans ?_ (reportWear_only ..)
  refine .upd ?_ (.inr rfl) (.inr rfl) (.inr rfl) (.inr rfl) (.inr rfl) (.inl rfl) (.inr rfl) (.inr rfl) (.inr rfl) (.inr rfl) (.inr rfl) (.inr rfl) (.inr rfl) (.inr rfl) (.inl rfl) (.inl rfl) (.inl rfl) (.inr rfl) (.inl rfl) (.inl rfl) (.inr rfl) (.inr rfl) (.inr rfl) (.inr rfl) (.inr rfl) (.inl rfl)
  exact .refl _ _
  refine .ite ?_ ?_
  refine .trans ?_ (pump_only ..)
  refine .trans ?_ (verifyFail_only ..)
  exact .mono (reportWear_only ..)
  refine .upd ?_ (.inr rfl) (.inr rfl) (.inr rfl) (.inr rfl) (.inr rfl) (.inl rfl) (.inr rfl) (.inr rfl) (.inr rfl) (.inr rfl) (.inr rfl) (.inr rfl) (.inr rfl) (.inr rfl) (.inl rfl) (.inl rfl) (.inl rfl) (.inr rfl) (.inl rfl) (.inl rfl) (.inr rfl) (.inr rfl) (.inr rfl) (.inr rfl) (.inr rfl) (.inl rfl)
  exact .refl _ _
  exact .refl _ _
  exact .refl _ _

theorem programPulse_only (pass : Bool) (s : State) :
    Only [.tur, .hg, .seq, .mem, .lg, .nvm, .free] s (programPulse pass s) := by
  unfold programPulse
  split
  split
  refine .ite ?_ ?_
  exact .refl _ _
  dsimp only
  refine .ite ?_ ?_
  refine .trans ?_ (opDone_only ..)
  refine .upd ?_ (.inr rfl) (.inr rfl) (.inr rfl) (.inr rfl) (.inr rfl) (.inl rfl) (.inr rfl) (.inr rfl) (.inr rfl) (.inr rfl) (.inr rfl) (.inr rfl) (.inr rfl) (.inr rfl) (.inl rfl) (.inl rfl) (.inl rfl) (.inr rfl) (.inl rfl) (.inl rfl) (.inr rfl) (.inr rfl) (.inr rfl) (.inr rfl) (.inr rfl) (.inl rfl)
  exact .refl _ _
  refine .ite ?_ ?_
  refine .trans ?_ (pump_only ..)
  exact .mono (verifyFail_only ..)
  refine .upd ?_ (.inr rfl) (.inr rfl) (.inr rfl) (.inr rfl) (.inr rfl) (.inl rfl) (.inr rfl) (.inr rfl) (.inr rfl) (.inr rfl) (.inr rfl) (.inr rfl) (.inr rfl) (.inr rfl) (.inl rfl) (.inl rfl) (.inl rfl) (.inr rfl) (.inl rfl) (.inl rfl) (.inr rfl) (.inr rfl) (.inr rfl) (.inr rfl) (.inr rfl) (.inl rfl)
  exact .refl _ _
  exact .refl _ _
  exact .refl _ _

theorem nvmSuspend_only (s : State) : Only [.nvm] s (nvmSuspend s) := by
  unfold nvmSuspend
  split
  refine .ite ?_ ?_
  refine .upd ?_ (.inr rfl) (.inr rfl) (.inr rfl) (.inr rfl) (.inr rfl) (.inr rfl) (.inr rfl) (.inr rfl) (.inr rfl) (.inr rfl) (.inr rfl) (.inr rfl) (.inr rfl) (.inr rfl) (.inr rfl) (.inr rfl) (.inr rfl) (.inr rfl) (.inr rfl) (.inl rfl) (.inr rfl) (.inr rfl) (.inr rfl) (.inr rfl) (.inr rfl) (.inr rfl)
  exact .refl _ _
  exact .refl _ _
  exact .refl _ _

theorem nvmResume_only (s : State) : Only [.nvm] s (nvmResume s) := by
  unfold nvmResume
  split
  refine .ite ?_ ?_
  refine .upd ?_ (.inr rfl) (.inr rfl) (.inr rfl) (.inr rfl) (.inr rfl) (.inr rfl) (.inr rfl) (.inr rfl) (.inr rfl) (.inr rfl) (.inr rfl) (.inr rfl) (.inr rfl) (.inr rfl) (.inr rfl) (.inr rfl) (.inr rfl) (.inr rfl) (.inr rfl) (.inl rfl) (.inr rfl) (.inr rfl) (.inr rfl) (.inr rfl) (.inr rfl) (.inr rfl)
  exact .refl _ _
  exact .refl _ _
  exact .refl _ _

theorem refuseProtected_only (s : State) : Only [.tur, .nvm] s (refuseProtected s) := by
  unfold refuseProtected
  refine .trans ?_ (raise_only ..)
  refine .trans ?_ (hwSet_only ..)
  refine .upd ?_ (.inr rfl) (.inr rfl) (.inr rfl) (.inr rfl) (.inr rfl) (.inl rfl) (.inr rfl) (.inr rfl) (.inr rfl) (.inr rfl) (.inr rfl) (.inr rfl) (.inr rfl) (.inr rfl) (.inr rfl) (.inr rfl) (.inr rfl) (.inr rfl) (.inr rfl) (.inl rfl) (.inr rfl) (.inr rfl) (.inr rfl) (.inr rfl) (.inr rfl) (.inr rfl)
  exact .refl _ _

theorem readUnits_only (k u : Nat) (s : State) : Only [.tur, .nvm, .free] s (readUnits k u s).2 := by
  induction k generalizing u s with
  | zero => exact .refl _ _
  | succ k ih =>
    unfold readUnits
    split
    split
    dsimp only
    refine .snd ?_ (by assumption)
    refine .of' ?_ (ih ..)
    refine .snd ?_ (by assumption)
    exact .mono (readLogical_only ..)

theorem nvmWarm_only (s : State) : Only [.nvm] s (nvmWarm s) := by
  unfold nvmWarm
  refine .upd ?_ (.inr rfl) (.inr rfl) (.inr rfl) (.inr rfl) (.inr rfl) (.inr rfl) (.inr rfl) (.inr rfl) (.inr rfl) (.inr rfl) (.inr rfl) (.inr rfl) (.inr rfl) (.inr rfl) (.inr rfl) (.inr rfl) (.inr rfl) (.inr rfl) (.inr rfl) (.inl rfl) (.inr rfl) (.inr rfl) (.inr rfl) (.inr rfl) (.inr rfl) (.inr rfl)
  exact .refl _ _

theorem nvmReadEffect_only (r : Nat) (s : State) : Only [.tur, .nvm] s (nvmReadEffect r s) := by
  unfold nvmReadEffect
  refine .ite ?_ ?_
  dsimp only
  refine .trans ?_ (rcTaken_only ..)
  refine .upd ?_ (.inr rfl) (.inr rfl) (.inr rfl) (.inr rfl) (.inr rfl) (.inl rfl) (.inr rfl) (.inr rfl) (.inr rfl) (.inr rfl) (.inr rfl) (.inr rfl) (.inr rfl) (.inr rfl) (.inr rfl) (.inr rfl) (.inr rfl) (.inr rfl) (.inr rfl) (.inl rfl) (.inr rfl) (.inr rfl) (.inr rfl) (.inr rfl) (.inr rfl) (.inr rfl)
  exact .refl _ _
  exact .refl _ _

theorem nvmWrite_only (r : Nat) (v : U32) (s : State) : Only [.nvm] s (nvmWrite r v s) := by
  unfold nvmWrite
  dsimp only
  split
  refine .upd ?_ (.inr rfl) (.inr rfl) (.inr rfl) (.inr rfl) (.inr rfl) (.inr rfl) (.inr rfl) (.inr rfl) (.inr rfl) (.inr rfl) (.inr rfl) (.inr rfl) (.inr rfl) (.inr rfl) (.inr rfl) (.inr rfl) (.inr rfl) (.inr rfl) (.inr rfl) (.inl rfl) (.inr rfl) (.inr rfl) (.inr rfl) (.inr rfl) (.inr rfl) (.inr rfl)
  exact .refl _ _
  refine .upd ?_ (.inr rfl) (.inr rfl) (.inr rfl) (.inr rfl) (.inr rfl) (.inr rfl) (.inr rfl) (.inr rfl) (.inr rfl) (.inr rfl) (.inr rfl) (.inr rfl) (.inr rfl) (.inr rfl) (.inr rfl) (.inr rfl) (.inr rfl) (.inr rfl) (.inr rfl) (.inl rfl) (.inr rfl) (.inr rfl) (.inr rfl) (.inr rfl) (.inr rfl) (.inr rfl)
  exact .refl _ _
  refine .upd ?_ (.inr rfl) (.inr rfl) (.inr rfl) (.inr rfl) (.inr rfl) (.inr rfl) (.inr rfl) (.inr rfl) (.inr rfl) (.inr rfl) (.inr rfl) (.inr rfl) (.inr rfl) (.inr rfl) (.inr rfl) (.inr rfl) (.inr rfl) (.inr rfl) (.inr rfl) (.inl rfl) (.inr rfl) (.inr rfl) (.inr rfl) (.inr rfl) (.inr rfl) (.inr rfl)
  exact .refl _ _
  exact .refl _ _

end Sys2Proof.Machine
end

