-- ==== Sys2Proof/Laws/OnlyLedger.lean ====
section
/-! SUPPORT. Every operation of Machine/Ledger.lean changes only the parts that its lemma names. -/

namespace Sys2Proof.Machine

set_option Elab.async false

theorem writeTj_only (c : Nat) (v : U32) (s : State) : Only [.tur, .lg] s (writeTj c v s) := by
  unfold writeTj
  dsimp only
  refine .ite ?_ ?_
  refine .trans ?_ (lgFlag_only ..)
  exact .mono (State.modLg_only ..)
  refine .trans ?_ (State.modLg_only ..)
  refine .ite ?_ ?_
  exact lgFlag_only ..
  exact .refl _ _

theorem leaveRecord_only (c : Nat) (s : State) : Only [.tur, .mem, .lg, .free] s (leaveRecord c s) := by
  unfold leaveRecord
  dsimp only
  refine .trans ?_ (State.modLg_only ..)
  refine .trans ?_ (putPos_only ..)
  refine .trans ?_ (lgPut_only ..)
  refine .of' ?_ (.foldl (fun s k => ?_) _ _)
  exact .refl _ _
  exact closeCycle_only ..

theorem bindRecord_only (c : Nat) (r : Nat) (s : State) : Only [.mem, .lg] s (bindRecord c r s) := by
  unfold bindRecord
  dsimp only
  refine .trans ?_ (State.modLg_only ..)
  exact .mono (putPos_only ..)

theorem openRecord_only (c r : Nat) (id_ : U64) (s : State) : Only [.mem, .lg] s (openRecord c r id_ s) := by
  unfold openRecord
  dsimp only
  refine .trans ?_ (bindRecord_only ..)
  refine .trans ?_ (putFlags_only ..)
  refine .trans ?_ (lgPut_only ..)
  refine .trans ?_ (lgPut_only ..)
  refine .upd ?_ (.inr rfl) (.inr rfl) (.inr rfl) (.inr rfl) (.inr rfl) (.inr rfl) (.inr rfl) (.inr rfl) (.inr rfl) (.inr rfl) (.inr rfl) (.inr rfl) (.inr rfl) (.inr rfl) (.inr rfl) (.inr rfl) (.inl rfl) (.inr rfl) (.inl rfl) (.inr rfl) (.inr rfl) (.inr rfl) (.inr rfl) (.inr rfl) (.inr rfl) (.inr rfl)
  exact .refl _ _

theorem ledgerBind_only (c : Nat) (fresh : Bool) (id : U64) (s : State) :
    Only [.tur, .mem, .lg, .free] s (ledgerBind c fresh id s).2 := by
  unfold ledgerBind
  split
  dsimp only
  exact .refl _ _
  dsimp only
  split
  dsimp only
  exact processTemp_only ..
  split
  dsimp only
  refine .ite ?_ ?_
  refine .trans ?_ (leaveRecord_only ..)
  exact processTemp_only ..
  exact processTemp_only ..
  split
  split
  dsimp only
  refine .trans ?_ (leaveRecord_only ..)
  exact processTemp_only ..
  split
  split
  dsimp only
  refine .trans ?_ (leaveRecord_only ..)
  exact processTemp_only ..
  dsimp only
  refine .trans ?_ (bindRecord_only ..)
  refine .trans ?_ (leaveRecord_only ..)
  exact processTemp_only ..
  split
  dsimp only
  refine .ite ?_ ?_
  refine .of' ?_ (.foldl (fun s k => ?_) _ _)
  refine .trans ?_ (leaveRecord_only ..)
  exact processTemp_only ..
  exact .mono (putPos_only ..)
  refine .trans ?_ (leaveRecord_only ..)
  exact processTemp_only ..
  dsimp only
  refine .trans ?_ (openRecord_only ..)
  refine .ite ?_ ?_
  refine .trans ?_ (lgFlag_only ..)
  refine .ite ?_ ?_
  refine .of' ?_ (.foldl (fun s k => ?_) _ _)
  refine .trans ?_ (leaveRecord_only ..)
  exact processTemp_only ..
  exact .mono (putPos_only ..)
  refine .trans ?_ (leaveRecord_only ..)
  exact processTemp_only ..
  refine .ite ?_ ?_
  refine .of' ?_ (.foldl (fun s k => ?_) _ _)
  refine .trans ?_ (leaveRecord_only ..)
  exact processTemp_only ..
  exact .mono (putPos_only ..)
  refine .trans ?_ (leaveRecord_only ..)
  exact processTemp_only ..
  split
  dsimp only
  exact processTemp_only ..
  split
  split
  dsimp only
  exact processTemp_only ..
  dsimp only
  refine .trans ?_ (bindRecord_only ..)
  exact processTemp_only ..
  split
  dsimp only
  refine .ite ?_ ?_
  refine .of' ?_ (.foldl (fun s k => ?_) _ _)
  exact processTemp_only ..
  exact .mono (putPos_only ..)
  exact processTemp_only ..
  dsimp only
  refine .trans ?_ (openRecord_only ..)
  refine .ite ?_ ?_
  refine .trans ?_ (lgFlag_only ..)
  refine .ite ?_ ?_
  refine .of' ?_ (.foldl (fun s k => ?_) _ _)
  exact processTemp_only ..
  exact .mono (putPos_only ..)
  exact processTemp_only ..
  refine .ite ?_ ?_
  refine .of' ?_ (.foldl (fun s k => ?_) _ _)
  exact processTemp_only ..
  exact .mono (putPos_only ..)
  exact processTemp_only ..

theorem dropLedgerErase_only (s : State) : Only [.nvm] s (dropLedgerErase s) := by
  unfold dropLedgerErase
  dsimp only
  refine .upd ?_ (.inr rfl) (.inr rfl) (.inr rfl) (.inr rfl) (.inr rfl) (.inr rfl) (.inr rfl) (.inr rfl) (.inr rfl) (.inr rfl) (.inr rfl) (.inr rfl) (.inr rfl) (.inr rfl) (.inr rfl) (.inr rfl) (.inr rfl) (.inr rfl) (.inr rfl) (.inl rfl) (.inr rfl) (.inr rfl) (.inr rfl) (.inr rfl) (.inr rfl) (.inr rfl)
  exact .refl _ _

theorem persistStart_only (s : State) : Only [.tur, .hg, .seq, .mem, .lg, .nvm, .free] s (persistStart s) := by
  unfold persistStart
  dsimp only
  refine .ite ?_ ?_
  refine .ite ?_ ?_
  refine .trans ?_ (lgTrigger_only ..)
  refine .upd ?_ (.inr rfl) (.inr rfl) (.inr rfl) (.inr rfl) (.inr rfl) (.inl rfl) (.inr rfl) (.inr rfl) (.inr rfl) (.inr rfl) (.inr rfl) (.inr rfl) (.inr rfl) (.inr rfl) (.inl rfl) (.inl rfl) (.inl rfl) (.inr rfl) (.inl rfl) (.inl rfl) (.inr rfl) (.inr rfl) (.inr rfl) (.inr rfl) (.inr rfl) (.inl rfl)
  exact .refl _ _
  exact .refl _ _
  refine .trans ?_ (pump_only ..)
  refine .trans ?_ (addJob_only ..)
  refine .trans ?_ (dropLedgerErase_only ..)
  refine .upd ?_ (.inr rfl) (.inr rfl) (.inr rfl) (.inr rfl) (.inr rfl) (.inl rfl) (.inr rfl) (.inr rfl) (.inr rfl) (.inr rfl) (.inr rfl) (.inr rfl) (.inr rfl) (.inr rfl) (.inl rfl) (.inl rfl) (.inl rfl) (.inr rfl) (.inl rfl) (.inl rfl) (.inr rfl) (.inr rfl) (.inr rfl) (.inr rfl) (.inr rfl) (.inl rfl)
  refine .ite ?_ ?_
  refine .trans ?_ (lgTrigger_only ..)
  refine .upd ?_ (.inr rfl) (.inr rfl) (.inr rfl) (.inr rfl) (.inr rfl) (.inl rfl) (.inr rfl) (.inr rfl) (.inr rfl) (.inr rfl) (.inr rfl) (.inr rfl) (.inr rfl) (.inr rfl) (.inl rfl) (.inl rfl) (.inl rfl) (.inr rfl) (.inl rfl) (.inl rfl) (.inr rfl) (.inr rfl) (.inr rfl) (.inr rfl) (.inr rfl) (.inl rfl)
  exact .refl _ _
  exact .refl _ _

theorem persistCommit_only (s : State) : Only [.tur, .hg, .seq, .mem, .lg, .nvm, .free] s (persistCommit s) := by
  unfold persistCommit
  split
  refine .ite ?_ ?_
  dsimp only
  refine .trans ?_ (pump_only ..)
  refine .trans ?_ (addJob_only ..)
  refine .upd ?_ (.inr rfl) (.inr rfl) (.inr rfl) (.inr rfl) (.inr rfl) (.inl rfl) (.inr rfl) (.inr rfl) (.inr rfl) (.inr rfl) (.inr rfl) (.inr rfl) (.inr rfl) (.inr rfl) (.inl rfl) (.inl rfl) (.inl rfl) (.inr rfl) (.inl rfl) (.inl rfl) (.inr rfl) (.inr rfl) (.inr rfl) (.inr rfl) (.inr rfl) (.inl rfl)
  exact .refl _ _
  exact .refl _ _
  exact .refl _ _

theorem readCommit_only (a : Nat) (s : State) : Only [.tur, .nvm, .free] s (readCommit a s).2 := by
  unfold readCommit
  split
  dsimp only
  refine .trans ?_ (countUnit_only ..)
  refine .snd ?_ (by assumption)
  exact .mono (readUnit_only ..)

theorem readCommits_only (k u : Nat) (s : State) : Only [.tur, .nvm, .free] s (readCommits k u s).2 := by
  induction k generalizing u s with
  | zero => exact .refl _ _
  | succ k ih =>
    unfold readCommits
    split
    split
    dsimp only
    refine .snd ?_ (by assumption)
    refine .of' ?_ (ih ..)
    refine .snd ?_ (by assumption)
    exact .mono (readCommit_only ..)

theorem loadRecord_only (r : Nat) (l : List (Nat × U32)) (s : State) :
    Only [.tur, .nvm, .free] s (loadRecord r l s).2 := by
  induction l generalizing s with
  | nil => exact .refl _ _
  | cons x t ih =>
    obtain ⟨a, v⟩ := x
    unfold loadRecord
    split
    split
    dsimp only
    refine .snd ?_ (by assumption)
    exact .mono (readUnits_only ..)
    refine .of' ?_ (ih ..)
    refine .snd ?_ (by assumption)
    exact .mono (readUnits_only ..)

theorem ledgerLoad_only (s : State) : Only [.tur, .mem, .lg, .nvm, .free] s (ledgerLoad s) := by
  unfold ledgerLoad
  generalize List.replicate 2304 (0 : Byte) = z
  split
  dsimp only
  refine .upd ?_ (.inr rfl) (.inr rfl) (.inr rfl) (.inr rfl) (.inr rfl) (.inl rfl) (.inr rfl) (.inr rfl) (.inr rfl) (.inr rfl) (.inr rfl) (.inr rfl) (.inr rfl) (.inr rfl) (.inr rfl) (.inr rfl) (.inl rfl) (.inr rfl) (.inl rfl) (.inl rfl) (.inr rfl) (.inr rfl) (.inr rfl) (.inr rfl) (.inr rfl) (.inl rfl)
  refine .of' ?_ (.each (fun s k => ?_) _ _)
  refine .snd ?_ (by assumption)
  exact .mono (readCommits_only ..)
  split
  refine .ite ?_ ?_
  refine .trans ?_ (putPos_only ..)
  refine .upd ?_ (.inr rfl) (.inr rfl) (.inr rfl) (.inr rfl) (.inr rfl) (.inl rfl) (.inr rfl) (.inr rfl) (.inr rfl) (.inr rfl) (.inr rfl) (.inr rfl) (.inr rfl) (.inr rfl) (.inr rfl) (.inr rfl) (.inl rfl) (.inr rfl) (.inl rfl) (.inl rfl) (.inr rfl) (.inr rfl) (.inr rfl) (.inr rfl) (.inr rfl) (.inl rfl)
  refine .snd ?_ (by assumption)
  exact .mono (loadRecord_only ..)
  refine .upd ?_ (.inr rfl) (.inr rfl) (.inr rfl) (.inr rfl) (.inr rfl) (.inl rfl) (.inr rfl) (.inr rfl) (.inr rfl) (.inr rfl) (.inr rfl) (.inr rfl) (.inr rfl) (.inr rfl) (.inr rfl) (.inr rfl) (.inl rfl) (.inr rfl) (.inl rfl) (.inl rfl) (.inr rfl) (.inr rfl) (.inr rfl) (.inr rfl) (.inr rfl) (.inl rfl)
  refine .snd ?_ (by assumption)
  exact .mono (loadRecord_only ..)
  refine .trans ?_ (hwSet_only ..)
  refine .upd ?_ (.inr rfl) (.inr rfl) (.inr rfl) (.inr rfl) (.inr rfl) (.inl rfl) (.inr rfl) (.inr rfl) (.inr rfl) (.inr rfl) (.inr rfl) (.inr rfl) (.inr rfl) (.inr rfl) (.inr rfl) (.inr rfl) (.inl rfl) (.inr rfl) (.inl rfl) (.inl rfl) (.inr rfl) (.inr rfl) (.inr rfl) (.inr rfl) (.inr rfl) (.inl rfl)
  refine .snd ?_ (by assumption)
  exact .mono (loadRecord_only ..)

theorem writeLgcfg_only (v : U32) (s : State) : Only [.tur, .mem, .lg, .nvm, .free] s (writeLgcfg v s) := by
  unfold writeLgcfg
  dsimp only
  refine .ite ?_ ?_
  refine .trans ?_ (ledgerLoad_only ..)
  refine .upd ?_ (.inr rfl) (.inr rfl) (.inr rfl) (.inr rfl) (.inr rfl) (.inl rfl) (.inr rfl) (.inr rfl) (.inr rfl) (.inr rfl) (.inr rfl) (.inr rfl) (.inr rfl) (.inr rfl) (.inr rfl) (.inr rfl) (.inl rfl) (.inr rfl) (.inl rfl) (.inl rfl) (.inr rfl) (.inr rfl) (.inr rfl) (.inr rfl) (.inr rfl) (.inl rfl)
  exact .refl _ _
  refine .upd ?_ (.inr rfl) (.inr rfl) (.inr rfl) (.inr rfl) (.inr rfl) (.inl rfl) (.inr rfl) (.inr rfl) (.inr rfl) (.inr rfl) (.inr rfl) (.inr rfl) (.inr rfl) (.inr rfl) (.inr rfl) (.inr rfl) (.inl rfl) (.inr rfl) (.inl rfl) (.inl rfl) (.inr rfl) (.inr rfl) (.inr rfl) (.inr rfl) (.inr rfl) (.inl rfl)
  exact .refl _ _

theorem nextMaddr_only (s : State) : Only [.lg] s (nextMaddr s) := by
  unfold nextMaddr
  refine .ite ?_ ?_
  refine .upd ?_ (.inr rfl) (.inr rfl) (.inr rfl) (.inr rfl) (.inr rfl) (.inr rfl) (.inr rfl) (.inr rfl) (.inr rfl) (.inr rfl) (.inr rfl) (.inr rfl) (.inr rfl) (.inr rfl) (.inr rfl) (.inr rfl) (.inr rfl) (.inr rfl) (.inl rfl) (.inr rfl) (.inr rfl) (.inr rfl) (.inr rfl) (.inr rfl) (.inr rfl) (.inr rfl)
  exact .refl _ _
  exact .refl _ _

theorem lgmPut_only (a : Nat) (v : U32) (s : State) : Only [.tur, .mem, .lg] s (lgmPut a v s) := by
  unfold lgmPut
  refine .ite ?_ ?_
  exact .refl _ _
  refine .ite ?_ ?_
  refine .trans ?_ (hwSet_only ..)
  refine .upd ?_ (.inr rfl) (.inr rfl) (.inr rfl) (.inr rfl) (.inr rfl) (.inl rfl) (.inr rfl) (.inr rfl) (.inr rfl) (.inr rfl) (.inr rfl) (.inr rfl) (.inr rfl) (.inr rfl) (.inr rfl) (.inr rfl) (.inl rfl) (.inr rfl) (.inl rfl) (.inr rfl) (.inr rfl) (.inr rfl) (.inr rfl) (.inr rfl) (.inr rfl) (.inr rfl)
  exact .refl _ _
  exact .mono (lgPut_only ..)

theorem lgmWrite_only (v : U32) (s : State) : Only [.tur, .mem, .lg] s (lgmWrite v s) := by
  unfold lgmWrite
  refine .trans ?_ (nextMaddr_only ..)
  exact lgmPut_only ..

theorem lgReadEffect_only (r : Nat) (s : State) : Only [.lg] s (lgReadEffect r s) := by
  unfold lgReadEffect
  refine .ite ?_ ?_
  exact nextMaddr_only ..
  refine .ite ?_ ?_
  dsimp only
  exact State.modLg_only ..
  refine .ite ?_ ?_
  exact State.modLg_only ..
  exact .refl _ _

theorem lgWrite_only (r : Nat) (v : U32) (s : State) : Only [.tur, .mem, .lg, .nvm, .free] s (lgWrite r v s) := by
  unfold lgWrite
  dsimp only
  refine .ite ?_ ?_
  split
  exact .mono (State.modLg_only ..)
  exact .mono (writeTj_only ..)
  exact .mono (State.modLg_only ..)
  exact .mono (State.modLg_only ..)
  exact .mono (State.modLg_only ..)
  exact .mono (State.modLg_only ..)
  exact .refl _ _
  split
  exact writeLgcfg_only ..
  refine .upd ?_ (.inr rfl) (.inr rfl) (.inr rfl) (.inr rfl) (.inr rfl) (.inl rfl) (.inr rfl) (.inr rfl) (.inr rfl) (.inr rfl) (.inr rfl) (.inr rfl) (.inr rfl) (.inr rfl) (.inr rfl) (.inr rfl) (.inl rfl) (.inr rfl) (.inl rfl) (.inl rfl) (.inr rfl) (.inr rfl) (.inr rfl) (.inr rfl) (.inr rfl) (.inl rfl)
  exact .refl _ _
  refine .ite ?_ ?_
  exact .refl _ _
  refine .upd ?_ (.inr rfl) (.inr rfl) (.inr rfl) (.inr rfl) (.inr rfl) (.inl rfl) (.inr rfl) (.inr rfl) (.inr rfl) (.inr rfl) (.inr rfl) (.inr rfl) (.inr rfl) (.inr rfl) (.inr rfl) (.inr rfl) (.inl rfl) (.inr rfl) (.inl rfl) (.inl rfl) (.inr rfl) (.inr rfl) (.inr rfl) (.inr rfl) (.inr rfl) (.inl rfl)
  exact .refl _ _
  refine .upd ?_ (.inr rfl) (.inr rfl) (.inr rfl) (.inr rfl) (.inr rfl) (.inl rfl) (.inr rfl) (.inr rfl) (.inr rfl) (.inr rfl) (.inr rfl) (.inr rfl) (.inr rfl) (.inr rfl) (.inr rfl) (.inr rfl) (.inl rfl) (.inr rfl) (.inl rfl) (.inl rfl) (.inr rfl) (.inr rfl) (.inr rfl) (.inr rfl) (.inr rfl) (.inl rfl)
  exact .refl _ _
  refine .upd ?_ (.inr rfl) (.inr rfl) (.inr rfl) (.inr rfl) (.inr rfl) (.inl rfl) (.inr rfl) (.inr rfl) (.inr rfl) (.inr rfl) (.inr rfl) (.inr rfl) (.inr rfl) (.inr rfl) (.inr rfl) (.inr rfl) (.inl rfl) (.inr rfl) (.inl rfl) (.inl rfl) (.inr rfl) (.inr rfl) (.inr rfl) (.inr rfl) (.inr rfl) (.inl rfl)
  exact .refl _ _
  refine .upd ?_ (.inr rfl) (.inr rfl) (.inr rfl) (.inr rfl) (.inr rfl) (.inl rfl) (.inr rfl) (.inr rfl) (.inr rfl) (.inr rfl) (.inr rfl) (.inr rfl) (.inr rfl) (.inr rfl) (.inr rfl) (.inr rfl) (.inl rfl) (.inr rfl) (.inl rfl) (.inl rfl) (.inr rfl) (.inr rfl) (.inr rfl) (.inr rfl) (.inr rfl) (.inl rfl)
  exact .refl _ _
  refine .upd ?_ (.inr rfl) (.inr rfl) (.inr rfl) (.inr rfl) (.inr rfl) (.inl rfl) (.inr rfl) (.inr rfl) (.inr rfl) (.inr rfl) (.inr rfl) (.inr rfl) (.inr rfl) (.inr rfl) (.inr rfl) (.inr rfl) (.inl rfl) (.inr rfl) (.inl rfl) (.inl rfl) (.inr rfl) (.inr rfl) (.inr rfl) (.inr rfl) (.inr rfl) (.inl rfl)
  exact .refl _ _
  exact .mono (lgmWrite_only ..)
  exact .refl _ _

theorem lgWarm_only (s : State) : Only [.lg] s (lgWarm s) := by
  unfold lgWarm
  refine .upd ?_ (.inr rfl) (.inr rfl) (.inr rfl) (.inr rfl) (.inr rfl) (.inr rfl) (.inr rfl) (.inr rfl) (.inr rfl) (.inr rfl) (.inr rfl) (.inr rfl) (.inr rfl) (.inr rfl) (.inr rfl) (.inr rfl) (.inr rfl) (.inr rfl) (.inl rfl) (.inr rfl) (.inr rfl) (.inr rfl) (.inr rfl) (.inr rfl) (.inr rfl) (.inr rfl)
  exact .refl _ _

end Sys2Proof.Machine
end

