-- ==== Sys2Proof/Laws/OnlyLinkTree.lean ====
section
/-! SUPPORT. Every operation of Machine/LinkTree.lean changes only the parts that its lemma names. -/

namespace Sys2Proof.Machine

set_option Elab.async false

theorem portEvent_only (p : Nat) (e : Nat) (s : State) : Only [.tur, .link] s (portEvent p e s) := by
  unfold portEvent
  refine .trans ?_ (raise_only ..)
  refine .trans ?_ (hwSet_only ..)
  exact .mono (State.modPort_only ..)

theorem countUnc_only (p : Nat) (s : State) :
    Only [.tur, .link] s (countUnc p s) := by
  unfold countUnc
  refine .trans ?_ (rcSet_only ..)
  exact .mono (State.modPort_only ..)

theorem countCor_only (p : Nat) (s : State) :
    Only [.tur, .link] s (countCor p s) := by
  unfold countCor
  refine .trans ?_ (rcSet_only ..)
  exact .mono (State.modPort_only ..)

theorem countOserr_only (p : Nat) (s : State) :
    Only [.tur, .link] s (countOserr p s) := by
  unfold countOserr
  refine .trans ?_ (rcSet_only ..)
  exact .mono (State.modPort_only ..)

theorem countDrop_only (p : Nat) (s : State) :
    Only [.tur, .link] s (countDrop p s) := by
  unfold countDrop
  refine .trans ?_ (rcSet_only ..)
  exact .mono (State.modPort_only ..)

theorem countCerr_only (l : Nat) (s : State) :
    Only [.tur, .link] s (countCerr l s) := by
  unfold countCerr
  refine .trans ?_ (rcSet_only ..)
  exact .mono (State.modLane_only ..)

theorem setRoles_only (s : State) : Only [.link] s (setRoles s) := by
  unfold setRoles
  refine .of' ?_ (.each (fun s k => ?_) _ _)
  exact .refl _ _
  dsimp only
  exact State.modPort_only ..

theorem setPresent_only (s : State) : Only [.tur, .link] s (setPresent s) := by
  unfold setPresent
  dsimp only
  refine .trans ?_ (raiseIf_only ..)
  refine .upd ?_ (.inr rfl) (.inr rfl) (.inr rfl) (.inr rfl) (.inr rfl) (.inl rfl) (.inr rfl) (.inr rfl) (.inr rfl) (.inr rfl) (.inr rfl) (.inr rfl) (.inr rfl) (.inr rfl) (.inr rfl) (.inr rfl) (.inr rfl) (.inl rfl) (.inr rfl) (.inr rfl) (.inr rfl) (.inr rfl) (.inr rfl) (.inr rfl) (.inr rfl) (.inr rfl)
  exact .refl _ _

theorem electUpdate_only (s : State) : Only [.tur, .link] s (electUpdate s) := by
  unfold electUpdate
  dsimp only
  refine .trans ?_ (setPresent_only ..)
  refine .trans ?_ (setRoles_only ..)
  refine .upd ?_ (.inr rfl) (.inr rfl) (.inr rfl) (.inr rfl) (.inr rfl) (.inl rfl) (.inr rfl) (.inr rfl) (.inr rfl) (.inr rfl) (.inr rfl) (.inr rfl) (.inr rfl) (.inr rfl) (.inr rfl) (.inr rfl) (.inr rfl) (.inl rfl) (.inr rfl) (.inr rfl) (.inr rfl) (.inr rfl) (.inr rfl) (.inr rfl) (.inr rfl) (.inr rfl)
  exact .refl _ _

theorem failover_only (s : State) : Only [.tur, .link] s (failover s) := by
  unfold failover
  dsimp only
  split
  refine .trans ?_ (originate_only ..)
  refine .trans ?_ (nextMsg_only ..)
  refine .trans ?_ (netFlag_only ..)
  refine .trans ?_ (setRoles_only ..)
  refine .upd ?_ (.inr rfl) (.inr rfl) (.inr rfl) (.inr rfl) (.inr rfl) (.inl rfl) (.inr rfl) (.inr rfl) (.inr rfl) (.inr rfl) (.inr rfl) (.inr rfl) (.inr rfl) (.inr rfl) (.inr rfl) (.inr rfl) (.inr rfl) (.inl rfl) (.inr rfl) (.inr rfl) (.inr rfl) (.inr rfl) (.inr rfl) (.inr rfl) (.inr rfl) (.inr rfl)
  exact .refl _ _
  refine .trans ?_ (setRoles_only ..)
  refine .upd ?_ (.inr rfl) (.inr rfl) (.inr rfl) (.inr rfl) (.inr rfl) (.inl rfl) (.inr rfl) (.inr rfl) (.inr rfl) (.inr rfl) (.inr rfl) (.inr rfl) (.inr rfl) (.inr rfl) (.inr rfl) (.inr rfl) (.inr rfl) (.inl rfl) (.inr rfl) (.inr rfl) (.inr rfl) (.inr rfl) (.inr rfl) (.inr rfl) (.inr rfl) (.inr rfl)
  exact .refl _ _

theorem failSends_only (bs : List TxBlock) (s : State) : Only [.hg] s (failSends bs s) := by
  unfold failSends
  refine .of' ?_ (.foldl (fun s k => ?_) _ _)
  exact .refl _ _
  split
  exact setStage_only ..
  exact .refl _ _

theorem portLeave_only (p : Nat) (st : BitVec 3) (write : Bool) (s : State) :
    Only [.tur, .hg, .link] s (portLeave p st write s) := by
  unfold portLeave
  refine .ite ?_ ?_
  exact .mono (State.modPort_only ..)
  dsimp only
  refine .trans ?_ (setPresent_only ..)
  refine .ite ?_ ?_
  refine .trans ?_ (failover_only ..)
  refine .ite ?_ ?_
  refine .trans ?_ (State.modPort_only ..)
  exact .mono (failSends_only ..)
  refine .trans ?_ (portEvent_only ..)
  refine .trans ?_ (State.modPort_only ..)
  exact .mono (failSends_only ..)
  refine .trans ?_ (setRoles_only ..)
  refine .ite ?_ ?_
  refine .trans ?_ (State.modPort_only ..)
  exact .mono (failSends_only ..)
  refine .trans ?_ (portEvent_only ..)
  refine .trans ?_ (State.modPort_only ..)
  exact .mono (failSends_only ..)

theorem assignDown_only (s : State) : Only [.link] s (assignDown s) := by
  unfold assignDown
  dsimp only
  refine .of' ?_ (.foldlFst (fun a x => ?_) _ _)
  dsimp only
  exact .refl _ _
  refine .iteFst ?_ ?_
  dsimp only
  exact .refl _ _
  refine .iteFst ?_ ?_
  dsimp only
  refine .trans ?_ (sendMgmt_only ..)
  exact .mono (State.modPort_only ..)
  dsimp only
  exact .mono (State.modPort_only ..)

theorem finishEnum_only (s : State) : Only [.tur, .hg, .link] s (finishEnum s) := by
  unfold finishEnum
  split
  exact .refl _ _
  dsimp only
  refine .of' ?_ (.foldl (fun s k => ?_) _ _)
  refine .trans ?_ (assignDown_only ..)
  refine .trans ?_ (netFlag_only ..)
  refine .upd ?_ (.inr rfl) (.inr rfl) (.inr rfl) (.inr rfl) (.inr rfl) (.inl rfl) (.inr rfl) (.inr rfl) (.inr rfl) (.inr rfl) (.inr rfl) (.inr rfl) (.inr rfl) (.inr rfl) (.inl rfl) (.inr rfl) (.inr rfl) (.inl rfl) (.inr rfl) (.inr rfl) (.inr rfl) (.inr rfl) (.inr rfl) (.inr rfl) (.inr rfl) (.inr rfl)
  exact .refl _ _
  split
  refine .ite ?_ ?_
  exact .mono (setStage_only ..)
  exact .refl _ _
  exact .refl _ _

theorem reportCount_only (s : State) : Only [.tur, .hg, .link] s (reportCount s) := by
  unfold reportCount
  refine .ite ?_ ?_
  refine .ite ?_ ?_
  exact finishEnum_only ..
  exact .refl _ _
  split
  refine .ite ?_ ?_
  exact .refl _ _
  refine .trans ?_ (sendMgmt_only ..)
  refine .upd ?_ (.inr rfl) (.inr rfl) (.inr rfl) (.inr rfl) (.inr rfl) (.inl rfl) (.inr rfl) (.inr rfl) (.inr rfl) (.inr rfl) (.inr rfl) (.inr rfl) (.inr rfl) (.inr rfl) (.inl rfl) (.inr rfl) (.inr rfl) (.inl rfl) (.inr rfl) (.inr rfl) (.inr rfl) (.inr rfl) (.inr rfl) (.inr rfl) (.inr rfl) (.inr rfl)
  exact .refl _ _
  exact .refl _ _

end Sys2Proof.Machine
end

