-- ==== Sys2Proof/Laws/OnlyLinkPhy.lean ====
section
/-! SUPPORT. Every operation of Machine/LinkPhy.lean changes only the parts that its lemma names. -/

namespace Sys2Proof.Machine

set_option Elab.async false

theorem laneStart_only (l : Nat) (s : State) :
    Only [.link] s (laneStart l s) := by
  unfold laneStart
  dsimp only
  refine .ite ?_ ?_
  refine .trans ?_ (State.modPort_only ..)
  exact State.modLane_only ..
  exact State.modLane_only ..

theorem startPort_only (p : Nat) (s : State) :
    Only [.link] s (startPort p s) := by
  unfold startPort
  refine .of' ?_ (.foldl (fun s k => ?_) _ _)
  exact .refl _ _
  refine .ite ?_ ?_
  exact laneStart_only ..
  exact .refl _ _

theorem idlePort_only (p : Nat) (s : State) :
    Only [.link] s (idlePort p s) := by
  unfold idlePort
  refine .of' ?_ (.foldl (fun s k => ?_) _ _)
  exact .refl _ _
  exact State.modLane_only ..

theorem toDetect_only (p : Nat) (write : Bool) (s : State) : Only [.tur, .hg, .link] s (toDetect p write s) := by
  unfold toDetect
  refine .trans ?_ (startPort_only ..)
  exact portLeave_only ..

theorem sendAlign_only (p : Nat) (s : State) :
    Only [.link] s (sendAlign p s) := by
  unfold sendAlign
  dsimp only
  exact State.modPort_only ..

theorem portAlign_only (p : Nat) (s : State) : Only [.link] s (portAlign p s) := by
  unfold portAlign
  dsimp only
  refine .ite ?_ ?_
  refine .trans ?_ (sendAlign_only ..)
  exact State.modPort_only ..
  exact .refl _ _

theorem laneDetect_only (l : Nat) (inverted : Bool) (s : State) : Only [.link] s (laneDetect l inverted s) := by
  unfold laneDetect
  refine .ite ?_ ?_
  exact State.modLane_only ..
  exact .refl _ _

theorem trainReady_only (l : Nat) (farMod : BitVec 2) (farNear : Bool) (ffe : BitVec 18) (s : State) :
    Only [.link] s (trainReady l farMod farNear ffe s) := by
  unfold trainReady
  dsimp only
  refine .ite ?_ ?_
  refine .trans ?_ (portAlign_only ..)
  exact State.modLane_only ..
  exact .refl _ _

theorem portComesUp_only (p : Nat) (aseq : Byte) (lidx : Byte) (skew : U32) (s : State) :
    Only [.tur, .link] s (portComesUp p aseq lidx skew s) := by
  unfold portComesUp
  refine .ite ?_ ?_
  dsimp only
  refine .trans ?_ (setRoles_only ..)
  refine .trans ?_ (portEvent_only ..)
  refine .trans ?_ (State.modPort_only ..)
  refine .of' ?_ (.foldl (fun s k => ?_) _ _)
  exact .refl _ _
  exact .mono (State.modLane_only ..)
  exact .refl _ _

theorem writeLnkcfg_only (v : U32) (s : State) : Only [.tur, .hg, .link] s (writeLnkcfg v s) := by
  unfold writeLnkcfg
  dsimp only
  refine .of' ?_ (.each (fun s k => ?_) _ _)
  refine .upd ?_ (.inr rfl) (.inr rfl) (.inr rfl) (.inr rfl) (.inr rfl) (.inl rfl) (.inr rfl) (.inr rfl) (.inr rfl) (.inr rfl) (.inr rfl) (.inr rfl) (.inr rfl) (.inr rfl) (.inl rfl) (.inr rfl) (.inr rfl) (.inl rfl) (.inr rfl) (.inr rfl) (.inr rfl) (.inr rfl) (.inr rfl) (.inr rfl) (.inr rfl) (.inr rfl)
  refine .trans ?_ (hwSetIf_only ..)
  refine .upd ?_ (.inr rfl) (.inr rfl) (.inr rfl) (.inr rfl) (.inr rfl) (.inl rfl) (.inr rfl) (.inr rfl) (.inr rfl) (.inr rfl) (.inr rfl) (.inr rfl) (.inr rfl) (.inr rfl) (.inl rfl) (.inr rfl) (.inr rfl) (.inl rfl) (.inr rfl) (.inr rfl) (.inr rfl) (.inr rfl) (.inr rfl) (.inr rfl) (.inr rfl) (.inr rfl)
  exact .refl _ _
  refine .ite ?_ ?_
  refine .trans ?_ (startPort_only ..)
  refine .trans ?_ (portLeave_only ..)
  exact .mono (State.modLane_only ..)
  refine .ite ?_ ?_
  refine .trans ?_ (State.modPort_only ..)
  exact .mono (laneStart_only ..)
  exact .refl _ _

theorem portFreed_only (p : Nat) (vl : Nat) (s : State) : Only [.link] s (portFreed p vl s) := by
  unfold portFreed
  exact State.modPort_only ..

theorem memberResp_only {f : Frame} {s t : State} (h : memberResp f s = some t) : Only [.hg] s t := by
  unfold memberResp at h
  dsimp only at h
  split at h
  cases h
  refine .upd ?_ (.inr rfl) (.inr rfl) (.inr rfl) (.inr rfl) (.inr rfl) (.inr rfl) (.inr rfl) (.inr rfl) (.inr rfl) (.inr rfl) (.inr rfl) (.inr rfl) (.inr rfl) (.inr rfl) (.inl rfl) (.inr rfl) (.inr rfl) (.inr rfl) (.inr rfl) (.inr rfl) (.inr rfl) (.inr rfl) (.inr rfl) (.inr rfl) (.inr rfl) (.inr rfl)
  exact .refl _ _
  cases h

theorem memberEventIn_only (f : Frame) (s : State) :
    Only [.tur, .hg, .mem] s (memberEventIn f s) := by
  unfold memberEventIn
  dsimp only
  refine .ite ?_ ?_
  refine .trans ?_ (appendEvent_only ..)
  exact .mono (raiseIf_only ..)
  exact .mono (raiseIf_only ..)

theorem arrive_only (p : Nat) (f : Frame) (bad : Bool) (s : State) : Only [.tur, .hg, .mem, .link] s (arrive p f bad s) := by
  unfold arrive
  refine .ite ?_ ?_
  exact .mono (countUnc_only ..)
  dsimp only
  refine .ite ?_ ?_
  refine .trans ?_ (countUnc_only ..)
  exact .mono (State.modPort_only ..)
  refine .ite ?_ ?_
  refine .trans ?_ (keepFrame_only ..)
  exact .mono (State.modPort_only ..)
  refine .ite ?_ ?_
  refine .trans ?_ (dropFrame_only ..)
  exact .mono (State.modPort_only ..)
  refine .ite ?_ ?_
  refine .trans ?_ (keepFrame_only ..)
  exact .mono (State.modPort_only ..)
  refine .ite ?_ ?_
  refine .ite ?_ ?_
  refine .trans ?_ (memberEventIn_only ..)
  exact .mono (State.modPort_only ..)
  split
  refine .trans ?_ (memberResp_only (by assumption))
  exact .mono (State.modPort_only ..)
  refine .trans ?_ (relay_only ..)
  exact .mono (State.modPort_only ..)
  refine .trans ?_ (relay_only ..)
  exact .mono (State.modPort_only ..)

theorem takeBlock_only (p : Nat) (ftype : BitVec 3) (vl : BitVec 2) (pos : BitVec 2) (payload : List Byte)
    (bad : Bool) (s : State) : Only [.tur, .hg, .mem, .link] s (takeBlock p ftype vl pos payload bad s) := by
  unfold takeBlock
  dsimp only
  split
  refine .ite ?_ ?_
  refine .trans ?_ (State.modPort_only ..)
  refine .trans ?_ (countDrop_only ..)
  refine .trans ?_ (portFreed_only ..)
  refine .ite ?_ ?_
  refine .trans ?_ (State.modPort_only ..)
  exact .mono (countDrop_only ..)
  exact .refl _ _
  refine .ite ?_ ?_
  refine .trans ?_ (arrive_only ..)
  refine .ite ?_ ?_
  refine .ite ?_ ?_
  refine .trans ?_ (State.modPort_only ..)
  exact .mono (countDrop_only ..)
  exact .refl _ _
  refine .trans ?_ (portFreed_only ..)
  refine .ite ?_ ?_
  refine .trans ?_ (State.modPort_only ..)
  exact .mono (countDrop_only ..)
  exact .refl _ _
  refine .trans ?_ (State.modPort_only ..)
  refine .trans ?_ (portFreed_only ..)
  refine .ite ?_ ?_
  refine .trans ?_ (State.modPort_only ..)
  exact .mono (countDrop_only ..)
  exact .refl _ _
  refine .ite ?_ ?_
  refine .trans ?_ (arrive_only ..)
  refine .trans ?_ (State.modPort_only ..)
  refine .trans ?_ (portFreed_only ..)
  refine .ite ?_ ?_
  refine .trans ?_ (State.modPort_only ..)
  exact .mono (countDrop_only ..)
  exact .refl _ _
  refine .ite ?_ ?_
  refine .trans ?_ (State.modPort_only ..)
  refine .trans ?_ (countDrop_only ..)
  refine .trans ?_ (portFreed_only ..)
  refine .ite ?_ ?_
  refine .trans ?_ (State.modPort_only ..)
  exact .mono (countDrop_only ..)
  exact .refl _ _
  refine .trans ?_ (State.modPort_only ..)
  refine .trans ?_ (portFreed_only ..)
  refine .ite ?_ ?_
  refine .trans ?_ (State.modPort_only ..)
  exact .mono (countDrop_only ..)
  exact .refl _ _

theorem uncorrectable_only (p : Nat) (seq : BitVec 3) (s : State) : Only [.tur, .link] s (uncorrectable p seq s) := by
  unfold uncorrectable
  refine .trans ?_ (portEvent_only ..)
  refine .trans ?_ (State.modPort_only ..)
  exact countUnc_only ..

theorem countErrors_only (p : Nat) (places : List Nat) (s : State) :
    Only [.tur, .link] s (countErrors p places s) := by
  unfold countErrors
  dsimp only
  refine .ite ?_ ?_
  refine .of' ?_ (.foldl (fun s k => ?_) _ _)
  exact .refl _ _
  split
  exact countCerr_only ..
  exact .refl _ _
  refine .ite ?_ ?_
  refine .trans ?_ (portEvent_only ..)
  refine .trans ?_ (countCor_only ..)
  refine .of' ?_ (.foldl (fun s k => ?_) _ _)
  exact .refl _ _
  split
  exact countCerr_only ..
  exact .refl _ _
  refine .trans ?_ (countCor_only ..)
  refine .of' ?_ (.foldl (fun s k => ?_) _ _)
  exact .refl _ _
  split
  exact countCerr_only ..
  exact .refl _ _

theorem codewordReceive_only (p : Nat) (bits : BitVec 680) (s : State) :
    Only [.tur, .hg, .mem, .link] s (codewordReceive p bits s) := by
  unfold codewordReceive
  refine .ite ?_ ?_
  exact .refl _ _
  dsimp only
  split
  refine .trans ?_ (uncorrectable_only ..)
  exact .mono (State.modPort_only ..)
  refine .ite ?_ ?_
  refine .trans ?_ (uncorrectable_only ..)
  refine .trans ?_ (countErrors_only ..)
  exact .mono (State.modPort_only ..)
  refine .ite ?_ ?_
  refine .trans ?_ (State.modPort_only ..)
  refine .trans ?_ (countErrors_only ..)
  exact .mono (State.modPort_only ..)
  refine .trans ?_ (takeBlock_only ..)
  refine .trans ?_ (State.modPort_only ..)
  refine .trans ?_ (countErrors_only ..)
  exact .mono (State.modPort_only ..)

theorem sendCodeword_only (p : Nat) (h0 : Byte) (payload : List Byte) (s : State) :
    Only [.link] s (sendCodeword p h0 payload s) := by
  unfold sendCodeword
  dsimp only
  exact State.modPort_only ..

theorem codewordSend_only (p : Nat) (s : State) : Only [.hg, .link] s (codewordSend p s) := by
  unfold codewordSend
  refine .ite ?_ ?_
  exact .refl _ _
  dsimp only
  refine .ite ?_ ?_
  refine .trans ?_ (sendCodeword_only ..)
  exact .mono (State.modPort_only ..)
  split
  exact .mono (sendCodeword_only ..)
  split
  exact .mono (sendCodeword_only ..)
  split
  split
  refine .trans ?_ (setStage_only ..)
  refine .trans ?_ (sendCodeword_only ..)
  exact .mono (State.modPort_only ..)
  refine .trans ?_ (sendCodeword_only ..)
  exact .mono (State.modPort_only ..)
  refine .trans ?_ (sendCodeword_only ..)
  exact .mono (State.modPort_only ..)

theorem shutOrder_only (p : Nat) (origin : BitVec 14) (seq : Byte) (hops : BitVec 5) (s : State) :
    Only [.tur, .shut, .link, .lg] s (shutOrder p origin seq hops s) := by
  unfold shutOrder
  refine .ite ?_ ?_
  exact .refl _ _
  dsimp only
  refine .ite ?_ ?_
  refine .trans ?_ (portEvent_only ..)
  exact .mono (State.modPort_only ..)
  refine .ite ?_ ?_
  refine .trans ?_ (latchLink_only ..)
  refine .ite ?_ ?_
  refine .of' ?_ (.foldl (fun s k => ?_) _ _)
  refine .upd ?_ (.inr rfl) (.inr rfl) (.inr rfl) (.inr rfl) (.inr rfl) (.inl rfl) (.inr rfl) (.inl rfl) (.inr rfl) (.inr rfl) (.inr rfl) (.inr rfl) (.inr rfl) (.inr rfl) (.inr rfl) (.inr rfl) (.inr rfl) (.inl rfl) (.inl rfl) (.inr rfl) (.inr rfl) (.inr rfl) (.inr rfl) (.inr rfl) (.inr rfl) (.inr rfl)
  refine .trans ?_ (portEvent_only ..)
  exact .mono (State.modPort_only ..)
  exact .mono (sendSet_only ..)
  refine .upd ?_ (.inr rfl) (.inr rfl) (.inr rfl) (.inr rfl) (.inr rfl) (.inl rfl) (.inr rfl) (.inl rfl) (.inr rfl) (.inr rfl) (.inr rfl) (.inr rfl) (.inr rfl) (.inr rfl) (.inr rfl) (.inr rfl) (.inr rfl) (.inl rfl) (.inl rfl) (.inr rfl) (.inr rfl) (.inr rfl) (.inr rfl) (.inr rfl) (.inr rfl) (.inr rfl)
  refine .trans ?_ (portEvent_only ..)
  exact .mono (State.modPort_only ..)
  refine .ite ?_ ?_
  refine .of' ?_ (.foldl (fun s k => ?_) _ _)
  refine .upd ?_ (.inr rfl) (.inr rfl) (.inr rfl) (.inr rfl) (.inr rfl) (.inl rfl) (.inr rfl) (.inl rfl) (.inr rfl) (.inr rfl) (.inr rfl) (.inr rfl) (.inr rfl) (.inr rfl) (.inr rfl) (.inr rfl) (.inr rfl) (.inl rfl) (.inl rfl) (.inr rfl) (.inr rfl) (.inr rfl) (.inr rfl) (.inr rfl) (.inr rfl) (.inr rfl)
  refine .trans ?_ (portEvent_only ..)
  exact .mono (State.modPort_only ..)
  exact .mono (sendSet_only ..)
  refine .upd ?_ (.inr rfl) (.inr rfl) (.inr rfl) (.inr rfl) (.inr rfl) (.inl rfl) (.inr rfl) (.inl rfl) (.inr rfl) (.inr rfl) (.inr rfl) (.inr rfl) (.inr rfl) (.inr rfl) (.inr rfl) (.inr rfl) (.inr rfl) (.inl rfl) (.inl rfl) (.inr rfl) (.inr rfl) (.inr rfl) (.inr rfl) (.inr rfl) (.inr rfl) (.inr rfl)
  refine .trans ?_ (portEvent_only ..)
  exact .mono (State.modPort_only ..)

theorem markerReceive_only (p : Nat) (seq : Byte) (sub : BitVec 6) (s : State) :
    Only [.link] s (markerReceive p seq sub s) := by
  unfold markerReceive
  refine .ite ?_ ?_
  exact .refl _ _
  exact State.modPort_only ..

theorem alignReceive_only (p : Nat) (w : U64) (s : State) : Only [.link] s (alignReceive p w s) := by
  unfold alignReceive
  exact State.modPort_only ..

theorem orderedSet_only (p : Nat) (sub : BitVec 6) (cs : List U64) (s : State) :
    Only [.tur, .shut, .link, .lg] s (orderedSet p sub cs s) := by
  unfold orderedSet
  refine .ite ?_ ?_
  exact .refl _ _
  dsimp only
  refine .ite ?_ ?_
  refine .trans ?_ (portEvent_only ..)
  refine .trans ?_ (countOserr_only ..)
  exact .mono (State.modPort_only ..)
  split
  refine .trans ?_ (alignReceive_only ..)
  exact .mono (State.modPort_only ..)
  refine .trans ?_ (markerReceive_only ..)
  exact .mono (State.modPort_only ..)
  refine .trans ?_ (shutOrder_only ..)
  exact .mono (State.modPort_only ..)
  exact .mono (State.modPort_only ..)

theorem alignSend_only (p : Nat) (s : State) : Only [.link] s (alignSend p s) := by
  unfold alignSend
  dsimp only
  refine .ite ?_ ?_
  exact .mono (sendAlign_only ..)
  exact .refl _ _

theorem lossOfLock_only (p : Nat) (s : State) : Only [.tur, .hg, .link] s (lossOfLock p s) := by
  unfold lossOfLock
  dsimp only
  refine .ite ?_ ?_
  exact toDetect_only ..
  exact .refl _ _

theorem trickleLock_only (s : State) : Only [.link] s (trickleLock s) := by
  unfold trickleLock
  dsimp only
  refine .ite ?_ ?_
  refine .trans ?_ (State.modPort_only ..)
  exact State.modLane_only ..
  exact .refl _ _

theorem trainingTimeout_only (l : Nat) (s : State) :
    Only [.tur, .link] s (trainingTimeout l s) := by
  unfold trainingTimeout
  dsimp only
  refine .ite ?_ ?_
  refine .trans ?_ (portEvent_only ..)
  exact .mono (laneStart_only ..)
  exact .refl _ _

theorem writeLaneCtl_only (l : Nat) (v : U32) (s : State) : Only [.tur, .hg, .link] s (writeLaneCtl l v s) := by
  unfold writeLaneCtl
  dsimp only
  refine .ite ?_ ?_
  refine .trans ?_ (toDetect_only ..)
  exact .mono (State.modLane_only ..)
  exact .mono (State.modLane_only ..)

end Sys2Proof.Machine
end

