-- ==== Sys2Proof/Laws/OnlyLinkNet.lean ====
section
/-! SUPPORT. Every operation of Machine/LinkNet.lean changes only the parts that its lemma names. -/

namespace Sys2Proof.Machine

set_option Elab.async false

theorem takeFrame_only {p : Nat} {want : Frame → Bool} {s t : State} {a : Frame}
    (h : takeFrame p want s = some (a, t)) : Only [.link] s t := by
  unfold takeFrame at h
  dsimp only at h
  split at h
  cases h
  cases h
  exact .mono (State.modPort_only ..)

theorem timeExchange_only (p : Nat) (sub : BitVec 6) (s : State) : Only [.link] s (timeExchange p sub s) := by
  unfold timeExchange
  dsimp only
  refine .ite ?_ ?_
  exact .refl _ _
  refine .ite ?_ ?_
  refine .trans ?_ (State.modPort_only ..)
  exact sendSet_only ..
  refine .trans ?_ (State.modPort_only ..)
  exact sendSet_only ..

theorem timeReply_only (p : Nat) (sub : BitVec 6) (s : State) : Only [.link] s (timeReply p sub s) := by
  unfold timeReply
  split
  exact .refl _ _
  refine .ite ?_ ?_
  exact .refl _ _
  dsimp only
  refine .trans ?_ (queueFrame_only ..)
  refine .trans ?_ (sendSet_only ..)
  exact State.modPort_only ..

theorem discipline_only (theta : Int) (s : State) :
    Only [.clk, .ports, .tur, .fl, .tmr, .rider, .link] s (discipline theta s) := by
  unfold discipline
  dsimp only
  refine .upd ?_ (.inr rfl) (.inl rfl) (.inl rfl) (.inr rfl) (.inr rfl) (.inl rfl) (.inr rfl) (.inr rfl) (.inr rfl) (.inl rfl) (.inl rfl) (.inr rfl) (.inl rfl) (.inr rfl) (.inr rfl) (.inr rfl) (.inr rfl) (.inl rfl) (.inr rfl) (.inr rfl) (.inr rfl) (.inr rfl) (.inr rfl) (.inr rfl) (.inr rfl) (.inr rfl)
  refine .ite ?_ ?_
  refine .upd ?_ (.inr rfl) (.inl rfl) (.inl rfl) (.inr rfl) (.inr rfl) (.inl rfl) (.inr rfl) (.inr rfl) (.inr rfl) (.inl rfl) (.inl rfl) (.inr rfl) (.inl rfl) (.inr rfl) (.inr rfl) (.inr rfl) (.inr rfl) (.inl rfl) (.inr rfl) (.inr rfl) (.inr rfl) (.inr rfl) (.inr rfl) (.inr rfl) (.inr rfl) (.inr rfl)
  exact .mono (moveGauge_only ..)
  refine .upd ?_ (.inr rfl) (.inl rfl) (.inl rfl) (.inr rfl) (.inr rfl) (.inl rfl) (.inr rfl) (.inr rfl) (.inr rfl) (.inl rfl) (.inl rfl) (.inr rfl) (.inl rfl) (.inr rfl) (.inr rfl) (.inr rfl) (.inr rfl) (.inl rfl) (.inr rfl) (.inr rfl) (.inr rfl) (.inr rfl) (.inr rfl) (.inr rfl) (.inr rfl) (.inr rfl)
  exact .mono (netFlag_only ..)

theorem upDiscSet_only (d : Bool) (s : State) :
    Only [.link] s (upDiscSet d s) := by
  unfold upDiscSet
  refine .upd ?_ (.inr rfl) (.inr rfl) (.inr rfl) (.inr rfl) (.inr rfl) (.inr rfl) (.inr rfl) (.inr rfl) (.inr rfl) (.inr rfl) (.inr rfl) (.inr rfl) (.inr rfl) (.inr rfl) (.inr rfl) (.inr rfl) (.inr rfl) (.inl rfl) (.inr rfl) (.inr rfl) (.inr rfl) (.inr rfl) (.inr rfl) (.inr rfl) (.inr rfl) (.inr rfl)
  exact .refl _ _

theorem timeFrame_only (p : Nat) (s : State) : Only [.clk, .ports, .tur, .fl, .tmr, .rider, .link] s (timeFrame p s) := by
  unfold timeFrame
  split
  exact .refl _ _
  dsimp only
  refine .ite ?_ ?_
  refine .trans ?_ (takeFrame_only (by assumption))
  exact .refl _ _
  split
  refine .ite ?_ ?_
  refine .trans ?_ (State.modPort_only ..)
  refine .ite ?_ ?_
  refine .upd ?_ (.inr rfl) (.inl rfl) (.inl rfl) (.inr rfl) (.inr rfl) (.inr rfl) (.inr rfl) (.inr rfl) (.inr rfl) (.inl rfl) (.inl rfl) (.inr rfl) (.inl rfl) (.inr rfl) (.inr rfl) (.inr rfl) (.inr rfl) (.inl rfl) (.inr rfl) (.inr rfl) (.inr rfl) (.inr rfl) (.inr rfl) (.inr rfl) (.inr rfl) (.inr rfl)
  refine .trans ?_ (takeFrame_only (by assumption))
  exact .refl _ _
  refine .trans ?_ (takeFrame_only (by assumption))
  exact .refl _ _
  refine .ite ?_ ?_
  refine .trans ?_ (discipline_only ..)
  refine .upd ?_ (.inr rfl) (.inl rfl) (.inl rfl) (.inr rfl) (.inr rfl) (.inr rfl) (.inr rfl) (.inr rfl) (.inr rfl) (.inl rfl) (.inl rfl) (.inr rfl) (.inl rfl) (.inr rfl) (.inr rfl) (.inr rfl) (.inr rfl) (.inl rfl) (.inr rfl) (.inr rfl) (.inr rfl) (.inr rfl) (.inr rfl) (.inr rfl) (.inr rfl) (.inr rfl)
  refine .trans ?_ (State.modPort_only ..)
  refine .trans ?_ (State.modPort_only ..)
  refine .ite ?_ ?_
  refine .upd ?_ (.inr rfl) (.inl rfl) (.inl rfl) (.inr rfl) (.inr rfl) (.inr rfl) (.inr rfl) (.inr rfl) (.inr rfl) (.inl rfl) (.inl rfl) (.inr rfl) (.inl rfl) (.inr rfl) (.inr rfl) (.inr rfl) (.inr rfl) (.inl rfl) (.inr rfl) (.inr rfl) (.inr rfl) (.inr rfl) (.inr rfl) (.inr rfl) (.inr rfl) (.inr rfl)
  refine .trans ?_ (takeFrame_only (by assumption))
  exact .refl _ _
  refine .trans ?_ (takeFrame_only (by assumption))
  exact .refl _ _
  refine .trans ?_ (State.modPort_only ..)
  refine .trans ?_ (State.modPort_only ..)
  refine .ite ?_ ?_
  refine .upd ?_ (.inr rfl) (.inl rfl) (.inl rfl) (.inr rfl) (.inr rfl) (.inr rfl) (.inr rfl) (.inr rfl) (.inr rfl) (.inl rfl) (.inl rfl) (.inr rfl) (.inl rfl) (.inr rfl) (.inr rfl) (.inr rfl) (.inr rfl) (.inl rfl) (.inr rfl) (.inr rfl) (.inr rfl) (.inr rfl) (.inr rfl) (.inr rfl) (.inr rfl) (.inr rfl)
  refine .trans ?_ (takeFrame_only (by assumption))
  exact .refl _ _
  refine .trans ?_ (takeFrame_only (by assumption))
  exact .refl _ _
  refine .trans ?_ (State.modPort_only ..)
  refine .ite ?_ ?_
  refine .upd ?_ (.inr rfl) (.inl rfl) (.inl rfl) (.inr rfl) (.inr rfl) (.inr rfl) (.inr rfl) (.inr rfl) (.inr rfl) (.inl rfl) (.inl rfl) (.inr rfl) (.inl rfl) (.inr rfl) (.inr rfl) (.inr rfl) (.inr rfl) (.inl rfl) (.inr rfl) (.inr rfl) (.inr rfl) (.inr rfl) (.inr rfl) (.inr rfl) (.inr rfl) (.inr rfl)
  refine .trans ?_ (takeFrame_only (by assumption))
  exact .refl _ _
  refine .trans ?_ (takeFrame_only (by assumption))
  exact .refl _ _

theorem advSend_only (s : State) : Only [.link] s (advSend s) := by
  unfold advSend
  refine .ite ?_ ?_
  refine .of' ?_ (.each (fun s k => ?_) _ _)
  refine .upd ?_ (.inr rfl) (.inr rfl) (.inr rfl) (.inr rfl) (.inr rfl) (.inr rfl) (.inr rfl) (.inr rfl) (.inr rfl) (.inr rfl) (.inr rfl) (.inr rfl) (.inr rfl) (.inr rfl) (.inr rfl) (.inr rfl) (.inr rfl) (.inl rfl) (.inr rfl) (.inr rfl) (.inr rfl) (.inr rfl) (.inr rfl) (.inr rfl) (.inr rfl) (.inr rfl)
  exact .refl _ _
  refine .ite ?_ ?_
  exact sendMgmt_only ..
  exact .refl _ _
  exact .refl _ _

theorem advReceive_only (p : Nat) (s : State) : Only [.tur, .hg, .link] s (advReceive p s) := by
  unfold advReceive
  split
  exact .refl _ _
  dsimp only
  refine .ite ?_ ?_
  refine .trans ?_ (reportCount_only ..)
  refine .trans ?_ (failover_only ..)
  refine .trans ?_ (netFlag_only ..)
  refine .ite ?_ ?_
  refine .upd ?_ (.inr rfl) (.inr rfl) (.inr rfl) (.inr rfl) (.inr rfl) (.inl rfl) (.inr rfl) (.inr rfl) (.inr rfl) (.inr rfl) (.inr rfl) (.inr rfl) (.inr rfl) (.inr rfl) (.inl rfl) (.inr rfl) (.inr rfl) (.inl rfl) (.inr rfl) (.inr rfl) (.inr rfl) (.inr rfl) (.inr rfl) (.inr rfl) (.inr rfl) (.inr rfl)
  refine .trans ?_ (State.modPort_only ..)
  refine .trans ?_ (takeFrame_only (by assumption))
  exact .refl _ _
  refine .trans ?_ (State.modPort_only ..)
  refine .trans ?_ (takeFrame_only (by assumption))
  exact .refl _ _
  refine .trans ?_ (reportCount_only ..)
  refine .trans ?_ (electUpdate_only ..)
  refine .trans ?_ (netFlag_only ..)
  refine .ite ?_ ?_
  refine .upd ?_ (.inr rfl) (.inr rfl) (.inr rfl) (.inr rfl) (.inr rfl) (.inl rfl) (.inr rfl) (.inr rfl) (.inr rfl) (.inr rfl) (.inr rfl) (.inr rfl) (.inr rfl) (.inr rfl) (.inl rfl) (.inr rfl) (.inr rfl) (.inl rfl) (.inr rfl) (.inr rfl) (.inr rfl) (.inr rfl) (.inr rfl) (.inr rfl) (.inr rfl) (.inr rfl)
  refine .trans ?_ (State.modPort_only ..)
  refine .trans ?_ (takeFrame_only (by assumption))
  exact .refl _ _
  refine .trans ?_ (State.modPort_only ..)
  refine .trans ?_ (takeFrame_only (by assumption))
  exact .refl _ _

theorem masterElection_only (s : State) : Only [.tur, .hg, .link] s (masterElection s) := by
  unfold masterElection
  refine .ite ?_ ?_
  dsimp only
  refine .trans ?_ (finishEnum_only ..)
  refine .upd ?_ (.inr rfl) (.inr rfl) (.inr rfl) (.inr rfl) (.inr rfl) (.inl rfl) (.inr rfl) (.inr rfl) (.inr rfl) (.inr rfl) (.inr rfl) (.inr rfl) (.inr rfl) (.inr rfl) (.inl rfl) (.inr rfl) (.inr rfl) (.inl rfl) (.inr rfl) (.inr rfl) (.inr rfl) (.inr rfl) (.inr rfl) (.inr rfl) (.inr rfl) (.inr rfl)
  exact .mono (electUpdate_only ..)
  exact .refl _ _

theorem electionRestart_only (s : State) : Only [.tur, .link] s (electionRestart s) := by
  unfold electionRestart
  split
  refine .ite ?_ ?_
  dsimp only
  refine .trans ?_ (electUpdate_only ..)
  refine .upd ?_ (.inr rfl) (.inr rfl) (.inr rfl) (.inr rfl) (.inr rfl) (.inl rfl) (.inr rfl) (.inr rfl) (.inr rfl) (.inr rfl) (.inr rfl) (.inr rfl) (.inr rfl) (.inr rfl) (.inr rfl) (.inr rfl) (.inr rfl) (.inl rfl) (.inr rfl) (.inr rfl) (.inr rfl) (.inr rfl) (.inr rfl) (.inr rfl) (.inr rfl) (.inr rfl)
  refine .of' ?_ (.each (fun s k => ?_) _ _)
  exact .refl _ _
  exact .mono (State.modPort_only ..)
  exact .refl _ _
  exact .refl _ _

theorem countReceive_only (p : Nat) (s : State) : Only [.tur, .hg, .link] s (countReceive p s) := by
  unfold countReceive
  split
  exact .refl _ _
  dsimp only
  refine .trans ?_ (reportCount_only ..)
  refine .trans ?_ (State.modPort_only ..)
  refine .trans ?_ (takeFrame_only (by assumption))
  exact .refl _ _

theorem assignReceive_only (p : Nat) (s : State) : Only [.link] s (assignReceive p s) := by
  unfold assignReceive
  split
  exact .refl _ _
  dsimp only
  refine .ite ?_ ?_
  refine .trans ?_ (takeFrame_only (by assumption))
  exact .refl _ _
  refine .trans ?_ (assignDown_only ..)
  refine .upd ?_ (.inr rfl) (.inr rfl) (.inr rfl) (.inr rfl) (.inr rfl) (.inr rfl) (.inr rfl) (.inr rfl) (.inr rfl) (.inr rfl) (.inr rfl) (.inr rfl) (.inr rfl) (.inr rfl) (.inr rfl) (.inr rfl) (.inr rfl) (.inl rfl) (.inr rfl) (.inr rfl) (.inr rfl) (.inr rfl) (.inr rfl) (.inr rfl) (.inr rfl) (.inr rfl)
  refine .trans ?_ (takeFrame_only (by assumption))
  exact .refl _ _

theorem addException_only (lo : BitVec 14) (hi : BitVec 14) (port : BitVec 2) (keep : Bool) (s : State) :
    Only [.tur, .link] s (addException lo hi port keep s) := by
  unfold addException
  dsimp only
  split
  refine .ite ?_ ?_
  exact .refl _ _
  refine .upd ?_ (.inr rfl) (.inr rfl) (.inr rfl) (.inr rfl) (.inr rfl) (.inl rfl) (.inr rfl) (.inr rfl) (.inr rfl) (.inr rfl) (.inr rfl) (.inr rfl) (.inr rfl) (.inr rfl) (.inr rfl) (.inr rfl) (.inr rfl) (.inl rfl) (.inr rfl) (.inr rfl) (.inr rfl) (.inr rfl) (.inr rfl) (.inr rfl) (.inr rfl) (.inr rfl)
  exact .refl _ _
  split
  refine .upd ?_ (.inr rfl) (.inr rfl) (.inr rfl) (.inr rfl) (.inr rfl) (.inl rfl) (.inr rfl) (.inr rfl) (.inr rfl) (.inr rfl) (.inr rfl) (.inr rfl) (.inr rfl) (.inr rfl) (.inr rfl) (.inr rfl) (.inr rfl) (.inl rfl) (.inr rfl) (.inr rfl) (.inr rfl) (.inr rfl) (.inr rfl) (.inr rfl) (.inr rfl) (.inr rfl)
  exact .refl _ _
  refine .trans ?_ (netFlag_only ..)
  refine .upd ?_ (.inr rfl) (.inr rfl) (.inr rfl) (.inr rfl) (.inr rfl) (.inl rfl) (.inr rfl) (.inr rfl) (.inr rfl) (.inr rfl) (.inr rfl) (.inr rfl) (.inr rfl) (.inr rfl) (.inr rfl) (.inr rfl) (.inr rfl) (.inl rfl) (.inr rfl) (.inr rfl) (.inr rfl) (.inr rfl) (.inr rfl) (.inr rfl) (.inr rfl) (.inr rfl)
  exact .refl _ _

theorem reroute_only (p : Nat) (s : State) : Only [.tur, .link] s (reroute p s) := by
  unfold reroute
  split
  exact .refl _ _
  dsimp only
  refine .ite ?_ ?_
  refine .ite ?_ ?_
  split
  refine .trans ?_ (addException_only ..)
  refine .trans ?_ (takeFrame_only (by assumption))
  exact .refl _ _
  refine .trans ?_ (takeFrame_only (by assumption))
  exact .refl _ _
  refine .trans ?_ (relay_only ..)
  split
  refine .trans ?_ (addException_only ..)
  refine .trans ?_ (takeFrame_only (by assumption))
  exact .refl _ _
  refine .trans ?_ (takeFrame_only (by assumption))
  exact .refl _ _
  refine .ite ?_ ?_
  refine .ite ?_ ?_
  refine .trans ?_ (addException_only ..)
  refine .trans ?_ (takeFrame_only (by assumption))
  exact .refl _ _
  refine .trans ?_ (originate_only ..)
  refine .trans ?_ (nextMsg_only ..)
  refine .trans ?_ (addException_only ..)
  refine .trans ?_ (takeFrame_only (by assumption))
  exact .refl _ _
  refine .trans ?_ (relay_only ..)
  refine .trans ?_ (addException_only ..)
  refine .trans ?_ (takeFrame_only (by assumption))
  exact .refl _ _

theorem wakeFrame_only (p : Nat) (s : State) : Only [.tur, .link, .pwr] s (wakeFrame p s) := by
  unfold wakeFrame
  split
  exact .refl _ _
  dsimp only
  refine .ite ?_ ?_
  refine .ite ?_ ?_
  refine .trans ?_ (wakeRequest_only ..)
  refine .ite ?_ ?_
  refine .trans ?_ (requestReset_only ..)
  refine .trans ?_ (takeFrame_only (by assumption))
  exact .refl _ _
  refine .trans ?_ (takeFrame_only (by assumption))
  exact .refl _ _
  refine .ite ?_ ?_
  refine .trans ?_ (requestReset_only ..)
  refine .trans ?_ (takeFrame_only (by assumption))
  exact .refl _ _
  refine .trans ?_ (takeFrame_only (by assumption))
  exact .refl _ _
  refine .ite ?_ ?_
  refine .upd ?_ (.inr rfl) (.inr rfl) (.inr rfl) (.inr rfl) (.inr rfl) (.inr rfl) (.inr rfl) (.inr rfl) (.inr rfl) (.inr rfl) (.inr rfl) (.inr rfl) (.inr rfl) (.inr rfl) (.inr rfl) (.inr rfl) (.inr rfl) (.inl rfl) (.inr rfl) (.inr rfl) (.inl rfl) (.inr rfl) (.inr rfl) (.inr rfl) (.inr rfl) (.inr rfl)
  refine .ite ?_ ?_
  refine .trans ?_ (wakeRequest_only ..)
  refine .ite ?_ ?_
  refine .trans ?_ (requestReset_only ..)
  refine .trans ?_ (takeFrame_only (by assumption))
  exact .refl _ _
  refine .trans ?_ (takeFrame_only (by assumption))
  exact .refl _ _
  refine .ite ?_ ?_
  refine .trans ?_ (requestReset_only ..)
  refine .trans ?_ (takeFrame_only (by assumption))
  exact .refl _ _
  refine .trans ?_ (takeFrame_only (by assumption))
  exact .refl _ _
  refine .trans ?_ (relay_only ..)
  refine .ite ?_ ?_
  refine .trans ?_ (wakeRequest_only ..)
  refine .ite ?_ ?_
  refine .trans ?_ (requestReset_only ..)
  refine .trans ?_ (takeFrame_only (by assumption))
  exact .refl _ _
  refine .trans ?_ (takeFrame_only (by assumption))
  exact .refl _ _
  refine .ite ?_ ?_
  refine .trans ?_ (requestReset_only ..)
  refine .trans ?_ (takeFrame_only (by assumption))
  exact .refl _ _
  refine .trans ?_ (takeFrame_only (by assumption))
  exact .refl _ _

theorem relayWakes_only (s : State) : Only [.tur, .link] s (relayWakes s) := by
  unfold relayWakes
  refine .of' ?_ (.foldl (fun s k => ?_) _ _)
  refine .upd ?_ (.inr rfl) (.inr rfl) (.inr rfl) (.inr rfl) (.inr rfl) (.inl rfl) (.inr rfl) (.inr rfl) (.inr rfl) (.inr rfl) (.inr rfl) (.inr rfl) (.inr rfl) (.inr rfl) (.inr rfl) (.inr rfl) (.inr rfl) (.inl rfl) (.inr rfl) (.inr rfl) (.inr rfl) (.inr rfl) (.inr rfl) (.inr rfl) (.inr rfl) (.inr rfl)
  exact .refl _ _
  exact relay_only ..

theorem cresync_only (p : Nat) (s : State) : Only [.link] s (cresync p s) := by
  unfold cresync
  split
  exact .refl _ _
  refine .trans ?_ (State.modPort_only ..)
  refine .trans ?_ (takeFrame_only (by assumption))
  exact .refl _ _

theorem storeSlot_only (a : Nat) (l : List Byte) (s : State) :
    Only [.seq, .mem] s (storeSlot a l s) := by
  unfold storeSlot
  refine .of' ?_ (.foldl (fun s k => ?_) _ _)
  exact .refl _ _
  refine .ite ?_ ?_
  exact .refl _ _
  exact storeRow_only ..

theorem receiveRing_only (p : Nat) (s : State) : Only [.tur, .seq, .mem, .link] s (receiveRing p s) := by
  unfold receiveRing
  split
  exact .refl _ _
  dsimp only
  refine .ite ?_ ?_
  refine .trans ?_ (dropFrame_only ..)
  refine .trans ?_ (takeFrame_only (by assumption))
  exact .refl _ _
  refine .ite ?_ ?_
  refine .trans ?_ (rcSet_only ..)
  refine .upd ?_ (.inr rfl) (.inr rfl) (.inr rfl) (.inr rfl) (.inr rfl) (.inl rfl) (.inr rfl) (.inr rfl) (.inr rfl) (.inr rfl) (.inr rfl) (.inr rfl) (.inr rfl) (.inr rfl) (.inr rfl) (.inl rfl) (.inl rfl) (.inl rfl) (.inr rfl) (.inr rfl) (.inr rfl) (.inr rfl) (.inr rfl) (.inr rfl) (.inr rfl) (.inr rfl)
  refine .trans ?_ (takeFrame_only (by assumption))
  exact .refl _ _
  refine .trans ?_ (portEvent_only ..)
  refine .upd ?_ (.inr rfl) (.inr rfl) (.inr rfl) (.inr rfl) (.inr rfl) (.inl rfl) (.inr rfl) (.inr rfl) (.inr rfl) (.inr rfl) (.inr rfl) (.inr rfl) (.inr rfl) (.inr rfl) (.inr rfl) (.inl rfl) (.inl rfl) (.inl rfl) (.inr rfl) (.inr rfl) (.inr rfl) (.inr rfl) (.inr rfl) (.inr rfl) (.inr rfl) (.inr rfl)
  refine .ite ?_ ?_
  refine .trans ?_ (storeSlot_only ..)
  refine .trans ?_ (takeFrame_only (by assumption))
  exact .refl _ _
  refine .trans ?_ (takeFrame_only (by assumption))
  exact .refl _ _

theorem sampFrame_only (p : Nat) (s : State) : Only [.tur, .seq, .mem, .link] s (sampFrame p s) := by
  unfold sampFrame
  refine .ite ?_ ?_
  exact .refl _ _
  split
  exact .refl _ _
  dsimp only
  refine .of' ?_ (.each (fun s k => ?_) _ _)
  refine .trans ?_ (takeFrame_only (by assumption))
  exact .refl _ _
  refine .ite ?_ ?_
  refine .ite ?_ ?_
  refine .upd ?_ (.inr rfl) (.inr rfl) (.inr rfl) (.inr rfl) (.inr rfl) (.inl rfl) (.inr rfl) (.inr rfl) (.inr rfl) (.inr rfl) (.inr rfl) (.inr rfl) (.inr rfl) (.inr rfl) (.inr rfl) (.inl rfl) (.inl rfl) (.inl rfl) (.inr rfl) (.inr rfl) (.inr rfl) (.inr rfl) (.inr rfl) (.inr rfl) (.inr rfl) (.inr rfl)
  refine .ite ?_ ?_
  exact .mono (dropFrame_only ..)
  exact .mono (storeRow_only ..)
  refine .ite ?_ ?_
  exact .mono (dropFrame_only ..)
  exact .mono (storeRow_only ..)
  exact .refl _ _

theorem cmdFrame_only (p : Nat) (s : State) : Only [.tur, .hg, .link] s (cmdFrame p s) := by
  unfold cmdFrame
  split
  exact .refl _ _
  refine .ite ?_ ?_
  split
  refine .trans ?_ (dropFrame_only ..)
  refine .trans ?_ (takeFrame_only (by assumption))
  exact .refl _ _
  exact .refl _ _
  refine .ite ?_ ?_
  exact .refl _ _
  split
  exact .refl _ _
  dsimp only
  refine .upd ?_ (.inr rfl) (.inr rfl) (.inr rfl) (.inr rfl) (.inr rfl) (.inr rfl) (.inr rfl) (.inr rfl) (.inr rfl) (.inr rfl) (.inr rfl) (.inr rfl) (.inr rfl) (.inr rfl) (.inl rfl) (.inr rfl) (.inr rfl) (.inl rfl) (.inr rfl) (.inr rfl) (.inr rfl) (.inr rfl) (.inr rfl) (.inr rfl) (.inr rfl) (.inr rfl)
  refine .trans ?_ (takeFrame_only (by assumption))
  exact .refl _ _

theorem sendResp_only (c : CmdSlot) (body : Row) (s : State) : Only [.tur, .link] s (sendResp c body s) := by
  unfold sendResp
  split
  exact .refl _ _
  exact originate_only ..

theorem memberEvent_only (src : BitVec 9) (data : U32) (s : State) :
    Only [.tur, .link] s (memberEvent src data s) := by
  unfold memberEvent
  dsimp only
  split
  exact .refl _ _
  exact originate_only ..

theorem linkReadEffect_only (r : Nat) (s : State) : Only [.tur, .link] s (linkReadEffect r s) := by
  unfold linkReadEffect
  dsimp only
  refine .trans ?_ (rcTaken_only ..)
  refine .ite ?_ ?_
  refine .ite ?_ ?_
  exact .refl _ _
  split
  exact .mono (State.modPort_only ..)
  exact .mono (State.modPort_only ..)
  exact .mono (State.modPort_only ..)
  exact .mono (State.modPort_only ..)
  exact .refl _ _
  refine .ite ?_ ?_
  exact .mono (State.modLane_only ..)
  refine .ite ?_ ?_
  refine .upd ?_ (.inr rfl) (.inr rfl) (.inr rfl) (.inr rfl) (.inr rfl) (.inl rfl) (.inr rfl) (.inr rfl) (.inr rfl) (.inr rfl) (.inr rfl) (.inr rfl) (.inr rfl) (.inr rfl) (.inr rfl) (.inr rfl) (.inr rfl) (.inl rfl) (.inr rfl) (.inr rfl) (.inr rfl) (.inr rfl) (.inr rfl) (.inr rfl) (.inr rfl) (.inr rfl)
  exact .refl _ _
  refine .ite ?_ ?_
  refine .upd ?_ (.inr rfl) (.inr rfl) (.inr rfl) (.inr rfl) (.inr rfl) (.inl rfl) (.inr rfl) (.inr rfl) (.inr rfl) (.inr rfl) (.inr rfl) (.inr rfl) (.inr rfl) (.inr rfl) (.inr rfl) (.inr rfl) (.inr rfl) (.inl rfl) (.inr rfl) (.inr rfl) (.inr rfl) (.inr rfl) (.inr rfl) (.inr rfl) (.inr rfl) (.inr rfl)
  exact .refl _ _
  exact .refl _ _

theorem writeNrxcfg_only (v : U32) (s : State) : Only [.link] s (writeNrxcfg v s) := by
  unfold writeNrxcfg
  dsimp only
  refine .upd ?_ (.inr rfl) (.inr rfl) (.inr rfl) (.inr rfl) (.inr rfl) (.inr rfl) (.inr rfl) (.inr rfl) (.inr rfl) (.inr rfl) (.inr rfl) (.inr rfl) (.inr rfl) (.inr rfl) (.inr rfl) (.inr rfl) (.inr rfl) (.inl rfl) (.inr rfl) (.inr rfl) (.inr rfl) (.inr rfl) (.inr rfl) (.inr rfl) (.inr rfl) (.inr rfl)
  exact .refl _ _

theorem portWrite_only (p : Nat) (r : Nat) (v : U32) (s : State) : Only [.link] s (portWrite p r v s) := by
  unfold portWrite
  exact State.modPort_only ..

theorem linkWrite_only (r : Nat) (v : U32) (s : State) : Only [.tur, .hg, .link] s (linkWrite r v s) := by
  unfold linkWrite
  dsimp only
  refine .ite ?_ ?_
  exact .mono (portWrite_only ..)
  refine .ite ?_ ?_
  exact .refl _ _
  refine .ite ?_ ?_
  split
  exact writeLaneCtl_only ..
  exact .mono (State.modLane_only ..)
  exact .refl _ _
  refine .ite ?_ ?_
  refine .upd ?_ (.inr rfl) (.inr rfl) (.inr rfl) (.inr rfl) (.inr rfl) (.inl rfl) (.inr rfl) (.inr rfl) (.inr rfl) (.inr rfl) (.inr rfl) (.inr rfl) (.inr rfl) (.inr rfl) (.inl rfl) (.inr rfl) (.inr rfl) (.inl rfl) (.inr rfl) (.inr rfl) (.inr rfl) (.inr rfl) (.inr rfl) (.inr rfl) (.inr rfl) (.inr rfl)
  exact .refl _ _
  refine .ite ?_ ?_
  refine .upd ?_ (.inr rfl) (.inr rfl) (.inr rfl) (.inr rfl) (.inr rfl) (.inl rfl) (.inr rfl) (.inr rfl) (.inr rfl) (.inr rfl) (.inr rfl) (.inr rfl) (.inr rfl) (.inr rfl) (.inl rfl) (.inr rfl) (.inr rfl) (.inl rfl) (.inr rfl) (.inr rfl) (.inr rfl) (.inr rfl) (.inr rfl) (.inr rfl) (.inr rfl) (.inr rfl)
  exact .refl _ _
  split
  exact writeLnkcfg_only ..
  refine .upd ?_ (.inr rfl) (.inr rfl) (.inr rfl) (.inr rfl) (.inr rfl) (.inl rfl) (.inr rfl) (.inr rfl) (.inr rfl) (.inr rfl) (.inr rfl) (.inr rfl) (.inr rfl) (.inr rfl) (.inl rfl) (.inr rfl) (.inr rfl) (.inl rfl) (.inr rfl) (.inr rfl) (.inr rfl) (.inr rfl) (.inr rfl) (.inr rfl) (.inr rfl) (.inr rfl)
  exact .refl _ _
  refine .upd ?_ (.inr rfl) (.inr rfl) (.inr rfl) (.inr rfl) (.inr rfl) (.inl rfl) (.inr rfl) (.inr rfl) (.inr rfl) (.inr rfl) (.inr rfl) (.inr rfl) (.inr rfl) (.inr rfl) (.inl rfl) (.inr rfl) (.inr rfl) (.inl rfl) (.inr rfl) (.inr rfl) (.inr rfl) (.inr rfl) (.inr rfl) (.inr rfl) (.inr rfl) (.inr rfl)
  exact .refl _ _
  refine .upd ?_ (.inr rfl) (.inr rfl) (.inr rfl) (.inr rfl) (.inr rfl) (.inl rfl) (.inr rfl) (.inr rfl) (.inr rfl) (.inr rfl) (.inr rfl) (.inr rfl) (.inr rfl) (.inr rfl) (.inl rfl) (.inr rfl) (.inr rfl) (.inl rfl) (.inr rfl) (.inr rfl) (.inr rfl) (.inr rfl) (.inr rfl) (.inr rfl) (.inr rfl) (.inr rfl)
  exact .refl _ _
  refine .upd ?_ (.inr rfl) (.inr rfl) (.inr rfl) (.inr rfl) (.inr rfl) (.inl rfl) (.inr rfl) (.inr rfl) (.inr rfl) (.inr rfl) (.inr rfl) (.inr rfl) (.inr rfl) (.inr rfl) (.inl rfl) (.inr rfl) (.inr rfl) (.inl rfl) (.inr rfl) (.inr rfl) (.inr rfl) (.inr rfl) (.inr rfl) (.inr rfl) (.inr rfl) (.inr rfl)
  exact .refl _ _
  refine .upd ?_ (.inr rfl) (.inr rfl) (.inr rfl) (.inr rfl) (.inr rfl) (.inl rfl) (.inr rfl) (.inr rfl) (.inr rfl) (.inr rfl) (.inr rfl) (.inr rfl) (.inr rfl) (.inr rfl) (.inl rfl) (.inr rfl) (.inr rfl) (.inl rfl) (.inr rfl) (.inr rfl) (.inr rfl) (.inr rfl) (.inr rfl) (.inr rfl) (.inr rfl) (.inr rfl)
  exact .refl _ _
  refine .upd ?_ (.inr rfl) (.inr rfl) (.inr rfl) (.inr rfl) (.inr rfl) (.inl rfl) (.inr rfl) (.inr rfl) (.inr rfl) (.inr rfl) (.inr rfl) (.inr rfl) (.inr rfl) (.inr rfl) (.inl rfl) (.inr rfl) (.inr rfl) (.inl rfl) (.inr rfl) (.inr rfl) (.inr rfl) (.inr rfl) (.inr rfl) (.inr rfl) (.inr rfl) (.inr rfl)
  exact .refl _ _
  refine .upd ?_ (.inr rfl) (.inr rfl) (.inr rfl) (.inr rfl) (.inr rfl) (.inl rfl) (.inr rfl) (.inr rfl) (.inr rfl) (.inr rfl) (.inr rfl) (.inr rfl) (.inr rfl) (.inr rfl) (.inl rfl) (.inr rfl) (.inr rfl) (.inl rfl) (.inr rfl) (.inr rfl) (.inr rfl) (.inr rfl) (.inr rfl) (.inr rfl) (.inr rfl) (.inr rfl)
  exact .refl _ _
  exact .mono (writeNrxcfg_only ..)
  refine .upd ?_ (.inr rfl) (.inr rfl) (.inr rfl) (.inr rfl) (.inr rfl) (.inl rfl) (.inr rfl) (.inr rfl) (.inr rfl) (.inr rfl) (.inr rfl) (.inr rfl) (.inr rfl) (.inr rfl) (.inl rfl) (.inr rfl) (.inr rfl) (.inl rfl) (.inr rfl) (.inr rfl) (.inr rfl) (.inr rfl) (.inr rfl) (.inr rfl) (.inr rfl) (.inr rfl)
  exact .refl _ _
  exact .refl _ _

theorem linkWarm_only (s : State) : Only [.link] s (linkWarm s) := by
  unfold linkWarm
  dsimp only
  refine .upd ?_ (.inr rfl) (.inr rfl) (.inr rfl) (.inr rfl) (.inr rfl) (.inr rfl) (.inr rfl) (.inr rfl) (.inr rfl) (.inr rfl) (.inr rfl) (.inr rfl) (.inr rfl) (.inr rfl) (.inr rfl) (.inr rfl) (.inr rfl) (.inl rfl) (.inr rfl) (.inr rfl) (.inr rfl) (.inr rfl) (.inr rfl) (.inr rfl) (.inr rfl) (.inr rfl)
  refine .of' ?_ (.each (fun s k => ?_) _ _)
  refine .of' ?_ (.each (fun s k => ?_) _ _)
  exact .refl _ _
  exact State.modPort_only ..
  exact State.modLane_only ..

end Sys2Proof.Machine
end

