-- ==== Sys2Proof/Laws/OnlyThreads.lean ====
section
/-! SUPPORT. Every operation of Machine/Threads.lean changes only the parts that its lemma names. -/

namespace Sys2Proof.Machine

set_option Elab.async false

theorem pushRet_only (n : Nat) (a : U16) (s : State) : Only [.seq, .mem] s (pushRet n a s) := by
  unfold pushRet
  dsimp only
  refine .trans ?_ (State.modCtx_only ..)
  refine .ite ?_ ?_
  refine .trans ?_ (State.modCtx_only ..)
  exact storeThread_only ..
  exact .refl _ _

theorem leaveSafe_only (n : Nat) (s : State) : Only [.seq] s (leaveSafe n s) := by
  unfold leaveSafe
  dsimp only
  refine .ite ?_ ?_
  refine .upd ?_ (.inr rfl) (.inr rfl) (.inr rfl) (.inr rfl) (.inr rfl) (.inr rfl) (.inr rfl) (.inr rfl) (.inr rfl) (.inr rfl) (.inr rfl) (.inr rfl) (.inr rfl) (.inr rfl) (.inr rfl) (.inl rfl) (.inr rfl) (.inr rfl) (.inr rfl) (.inr rfl) (.inr rfl) (.inr rfl) (.inr rfl) (.inr rfl) (.inr rfl) (.inr rfl)
  exact State.modThr_only ..
  exact State.modThr_only ..

theorem goDry_only (n : Nat) (s : State) : Only [.tur, .seq, .due] s (goDry n s) := by
  unfold goDry
  dsimp only
  refine .trans ?_ (schedule_only ..)
  refine .trans ?_ (raise_only ..)
  refine .trans ?_ (leaveSafe_only ..)
  exact .mono (State.modThr_only ..)

theorem holdEntry_only (n wait : Nat) (spills : Bool) (s : State) :
    Only [.seq] s (holdEntry n wait spills s) := by
  unfold holdEntry
  dsimp only
  exact State.modThr_only ..

theorem enterSpillway_only (n : Nat) (e : Escalation) (s : State) :
    Only [.tur, .seq, .mem, .due] s (enterSpillway n e s) := by
  unfold enterSpillway
  dsimp only
  refine .ite ?_ ?_
  refine .trans ?_ (goDry_only ..)
  refine .trans ?_ (State.modCtx_only ..)
  refine .trans ?_ (raise_only ..)
  refine .upd ?_ (.inr rfl) (.inr rfl) (.inr rfl) (.inr rfl) (.inr rfl) (.inl rfl) (.inr rfl) (.inr rfl) (.inr rfl) (.inr rfl) (.inr rfl) (.inr rfl) (.inr rfl) (.inr rfl) (.inr rfl) (.inl rfl) (.inl rfl) (.inr rfl) (.inr rfl) (.inr rfl) (.inr rfl) (.inr rfl) (.inr rfl) (.inl rfl) (.inr rfl) (.inr rfl)
  exact .mono (State.modThr_only ..)
  refine .trans ?_ (holdEntry_only ..)
  refine .trans ?_ (State.modCtx_only ..)
  refine .trans ?_ (storeThread_only ..)
  refine .trans ?_ (pushRet_only ..)
  refine .trans ?_ (State.modCtx_only ..)
  refine .trans ?_ (raise_only ..)
  refine .upd ?_ (.inr rfl) (.inr rfl) (.inr rfl) (.inr rfl) (.inr rfl) (.inl rfl) (.inr rfl) (.inr rfl) (.inr rfl) (.inr rfl) (.inr rfl) (.inr rfl) (.inr rfl) (.inr rfl) (.inr rfl) (.inl rfl) (.inl rfl) (.inr rfl) (.inr rfl) (.inr rfl) (.inr rfl) (.inr rfl) (.inr rfl) (.inl rfl) (.inr rfl) (.inr rfl)
  exact .mono (State.modThr_only ..)

theorem escalate_only (n : Nat) (e : Escalation) (s : State) : Only [.tur, .seq, .mem, .due] s (escalate n e s) := by
  unfold escalate
  refine .ite ?_ ?_
  exact .mono (goDry_only ..)
  refine .ite ?_ ?_
  exact enterSpillway_only ..
  exact .mono (State.modThr_only ..)

theorem tableEntry_only {n : Nat} {isFault : Bool} {e : Escalation} {s t : State}
    (h : tableEntry n isFault e s = some t) : Only [.seq, .mem] s t := by
  unfold tableEntry at h
  dsimp only at h
  split at h
  split at h
  cases h
  cases h
  refine .trans ?_ (holdEntry_only ..)
  refine .trans ?_ (State.modThr_only ..)
  refine .trans ?_ (storeThread_only ..)
  refine .trans ?_ (pushRet_only ..)
  exact .mono (State.modCtx_only ..)
  split at h
  cases h
  cases h
  refine .trans ?_ (holdEntry_only ..)
  refine .trans ?_ (State.modThr_only ..)
  refine .trans ?_ (storeThread_only ..)
  refine .trans ?_ (pushRet_only ..)
  exact .mono (State.modCtx_only ..)

theorem takeEntry_only (n : Nat) (isFault : Bool) (e : Escalation) (s : State) :
    Only [.tur, .seq, .mem, .due] s (takeEntry n isFault e s) := by
  unfold takeEntry
  refine .ite ?_ ?_
  exact .mono (goDry_only ..)
  refine .ite ?_ ?_
  exact .mono (escalate_only ..)
  split
  refine .trans ?_ (tableEntry_only (by assumption))
  exact .refl _ _
  exact .mono (escalate_only ..)

theorem takeFault_only (n : Nat) (vec : BitVec 6) (addr : U32) (s : State) :
    Only [.tur, .seq, .mem, .due] s (takeFault n vec addr s) := by
  unfold takeFault
  dsimp only
  refine .trans ?_ (takeEntry_only ..)
  exact .mono (State.modCtx_only ..)

theorem enterMonitor_only (n : Nat) (cause : BitVec 4) (cmp : BitVec 3) (s : State) :
    Only [.tur, .wdog, .seq] s (enterMonitor n cause cmp s) := by
  unfold enterMonitor
  dsimp only
  refine .trans ?_ (wdogFreeze_only ..)
  refine .trans ?_ (raise_only ..)
  exact .mono (State.modThr_only ..)

theorem applyRet_only (n : Nat) (s : State) : Only [.tur, .wdog, .seq] s (applyRet n s) := by
  unfold applyRet
  dsimp only
  split
  refine .ite ?_ ?_
  refine .trans ?_ (leaveSafe_only ..)
  refine .upd ?_ (.inr rfl) (.inr rfl) (.inr rfl) (.inr rfl) (.inr rfl) (.inl rfl) (.inr rfl) (.inr rfl) (.inl rfl) (.inr rfl) (.inr rfl) (.inr rfl) (.inr rfl) (.inr rfl) (.inr rfl) (.inl rfl) (.inr rfl) (.inr rfl) (.inr rfl) (.inr rfl) (.inr rfl) (.inr rfl) (.inr rfl) (.inr rfl) (.inr rfl) (.inr rfl)
  refine .trans ?_ (State.modThr_only ..)
  exact .mono (State.modThr_only ..)
  refine .ite ?_ ?_
  refine .trans ?_ (wdogFreeze_only ..)
  refine .trans ?_ (State.modThr_only ..)
  exact .mono (State.modThr_only ..)
  refine .trans ?_ (endServices_only ..)
  refine .trans ?_ (State.modThr_only ..)
  exact .mono (State.modThr_only ..)
  exact .refl _ _

theorem returnMonitor_only (n : Nat) (s : State) : Only [.tur, .wdog, .seq] s (returnMonitor n s) := by
  unfold returnMonitor
  dsimp only
  refine .ite ?_ ?_
  refine .trans ?_ (applyRet_only ..)
  exact .mono (State.modThr_only ..)
  exact .refl _ _

theorem releaseMonitor_only (n : Nat) (s : State) : Only [.tur, .wdog, .seq] s (releaseMonitor n s) := by
  unfold releaseMonitor
  refine .trans ?_ (returnMonitor_only ..)
  refine .ite ?_ ?_
  exact .mono (State.modThr_only ..)
  exact .refl _ _

theorem resetThread_only (n : Nat) (s : State) : Only [.tur, .wdog, .seq, .due] s (resetThread n s) := by
  unfold resetThread
  dsimp only
  refine .trans ?_ (wdogFreeze_only ..)
  refine .trans ?_ (endThreadServices_only ..)
  refine .trans ?_ (State.modThr_only ..)
  refine .trans ?_ (leaveSafe_only ..)
  refine .upd ?_ (.inr rfl) (.inr rfl) (.inr rfl) (.inr rfl) (.inr rfl) (.inl rfl) (.inr rfl) (.inr rfl) (.inl rfl) (.inr rfl) (.inr rfl) (.inr rfl) (.inr rfl) (.inr rfl) (.inr rfl) (.inl rfl) (.inr rfl) (.inr rfl) (.inr rfl) (.inr rfl) (.inr rfl) (.inr rfl) (.inr rfl) (.inl rfl) (.inr rfl) (.inr rfl)
  exact .refl _ _

end Sys2Proof.Machine
end

