-- ==== Sys2Proof/Laws/OnlyDatapath.lean ====
section
/-! SUPPORT. Every operation of Machine/Datapath.lean changes only the parts that its lemma names. -/

namespace Sys2Proof.Machine

set_option Elab.async false

theorem postStore_only (n : Nat) (pc : U16) (a : U32) (l : List Byte) (s : State) :
    Only [.seq, .mem, .due] s (postStore n pc a l s) := by
  unfold postStore
  split
  refine .ite ?_ ?_
  exact .mono (State.modThr_only ..)
  exact .mono (storeThread_only ..)
  dsimp only
  exact .mono (schedule_only ..)
  dsimp only
  exact .mono (schedule_only ..)
  dsimp only
  refine .trans ?_ (State.modThr_only ..)
  exact .mono (storeHost_only ..)
  exact .refl _ _

theorem Op.run_only (o : Op) (n : Nat) (word : Nat) (safe : Bool) (s : State) :
    Only [.seq, .mem, .due, .free] s (Op.run o n word safe s) := by
  unfold Op.run
  dsimp only
  split
  refine .trans ?_ (State.modThr_only ..)
  refine .ite ?_ ?_
  refine .trans ?_ (postStore_only ..)
  refine .ite ?_ ?_
  refine .trans ?_ (schedule_only ..)
  refine .ite ?_ ?_
  refine .trans ?_ (schedule_only ..)
  refine .ite ?_ ?_
  refine .trans ?_ (schedule_only ..)
  refine .ite ?_ ?_
  refine .trans ?_ (schedule_only ..)
  refine .trans ?_ (State.modCtx_only ..)
  refine .trans ?_ (State.modCtx_only ..)
  split
  exact .mono (loadData_only ..)
  dsimp only
  exact .refl _ _
  refine .trans ?_ (State.modCtx_only ..)
  refine .trans ?_ (State.modCtx_only ..)
  split
  exact .mono (loadData_only ..)
  dsimp only
  exact .refl _ _
  refine .ite ?_ ?_
  refine .trans ?_ (schedule_only ..)
  refine .trans ?_ (State.modCtx_only ..)
  refine .trans ?_ (State.modCtx_only ..)
  split
  exact .mono (loadData_only ..)
  dsimp only
  exact .refl _ _
  refine .trans ?_ (State.modCtx_only ..)
  refine .trans ?_ (State.modCtx_only ..)
  split
  exact .mono (loadData_only ..)
  dsimp only
  exact .refl _ _
  refine .ite ?_ ?_
  refine .trans ?_ (schedule_only ..)
  refine .ite ?_ ?_
  refine .trans ?_ (schedule_only ..)
  refine .trans ?_ (State.modCtx_only ..)
  refine .trans ?_ (State.modCtx_only ..)
  split
  exact .mono (loadData_only ..)
  dsimp only
  exact .refl _ _
  refine .trans ?_ (State.modCtx_only ..)
  refine .trans ?_ (State.modCtx_only ..)
  split
  exact .mono (loadData_only ..)
  dsimp only
  exact .refl _ _
  refine .ite ?_ ?_
  refine .trans ?_ (schedule_only ..)
  refine .trans ?_ (State.modCtx_only ..)
  refine .trans ?_ (State.modCtx_only ..)
  split
  exact .mono (loadData_only ..)
  dsimp only
  exact .refl _ _
  refine .trans ?_ (State.modCtx_only ..)
  refine .trans ?_ (State.modCtx_only ..)
  split
  exact .mono (loadData_only ..)
  dsimp only
  exact .refl _ _
  refine .ite ?_ ?_
  refine .trans ?_ (schedule_only ..)
  refine .ite ?_ ?_
  refine .trans ?_ (schedule_only ..)
  refine .ite ?_ ?_
  refine .trans ?_ (schedule_only ..)
  refine .trans ?_ (State.modCtx_only ..)
  refine .trans ?_ (State.modCtx_only ..)
  split
  exact .mono (loadData_only ..)
  dsimp only
  exact .refl _ _
  refine .trans ?_ (State.modCtx_only ..)
  refine .trans ?_ (State.modCtx_only ..)
  split
  exact .mono (loadData_only ..)
  dsimp only
  exact .refl _ _
  refine .ite ?_ ?_
  refine .trans ?_ (schedule_only ..)
  refine .trans ?_ (State.modCtx_only ..)
  refine .trans ?_ (State.modCtx_only ..)
  split
  exact .mono (loadData_only ..)
  dsimp only
  exact .refl _ _
  refine .trans ?_ (State.modCtx_only ..)
  refine .trans ?_ (State.modCtx_only ..)
  split
  exact .mono (loadData_only ..)
  dsimp only
  exact .refl _ _
  refine .ite ?_ ?_
  refine .trans ?_ (schedule_only ..)
  refine .ite ?_ ?_
  refine .trans ?_ (schedule_only ..)
  refine .trans ?_ (State.modCtx_only ..)
  refine .trans ?_ (State.modCtx_only ..)
  split
  exact .mono (loadData_only ..)
  dsimp only
  exact .refl _ _
  refine .trans ?_ (State.modCtx_only ..)
  refine .trans ?_ (State.modCtx_only ..)
  split
  exact .mono (loadData_only ..)
  dsimp only
  exact .refl _ _
  refine .ite ?_ ?_
  refine .trans ?_ (schedule_only ..)
  refine .trans ?_ (State.modCtx_only ..)
  refine .trans ?_ (State.modCtx_only ..)
  split
  exact .mono (loadData_only ..)
  dsimp only
  exact .refl _ _
  refine .trans ?_ (State.modCtx_only ..)
  refine .trans ?_ (State.modCtx_only ..)
  split
  exact .mono (loadData_only ..)
  dsimp only
  exact .refl _ _
  refine .ite ?_ ?_
  refine .trans ?_ (schedule_only ..)
  refine .ite ?_ ?_
  refine .trans ?_ (schedule_only ..)
  refine .ite ?_ ?_
  refine .trans ?_ (schedule_only ..)
  refine .ite ?_ ?_
  refine .trans ?_ (schedule_only ..)
  refine .trans ?_ (State.modCtx_only ..)
  refine .trans ?_ (State.modCtx_only ..)
  split
  exact .mono (loadData_only ..)
  dsimp only
  exact .refl _ _
  refine .trans ?_ (State.modCtx_only ..)
  refine .trans ?_ (State.modCtx_only ..)
  split
  exact .mono (loadData_only ..)
  dsimp only
  exact .refl _ _
  refine .ite ?_ ?_
  refine .trans ?_ (schedule_only ..)
  refine .trans ?_ (State.modCtx_only ..)
  refine .trans ?_ (State.modCtx_only ..)
  split
  exact .mono (loadData_only ..)
  dsimp only
  exact .refl _ _
  refine .trans ?_ (State.modCtx_only ..)
  refine .trans ?_ (State.modCtx_only ..)
  split
  exact .mono (loadData_only ..)
  dsimp only
  exact .refl _ _
  refine .ite ?_ ?_
  refine .trans ?_ (schedule_only ..)
  refine .ite ?_ ?_
  refine .trans ?_ (schedule_only ..)
  refine .trans ?_ (State.modCtx_only ..)
  refine .trans ?_ (State.modCtx_only ..)
  split
  exact .mono (loadData_only ..)
  dsimp only
  exact .refl _ _
  refine .trans ?_ (State.modCtx_only ..)
  refine .trans ?_ (State.modCtx_only ..)
  split
  exact .mono (loadData_only ..)
  dsimp only
  exact .refl _ _
  refine .ite ?_ ?_
  refine .trans ?_ (schedule_only ..)
  refine .trans ?_ (State.modCtx_only ..)
  refine .trans ?_ (State.modCtx_only ..)
  split
  exact .mono (loadData_only ..)
  dsimp only
  exact .refl _ _
  refine .trans ?_ (State.modCtx_only ..)
  refine .trans ?_ (State.modCtx_only ..)
  split
  exact .mono (loadData_only ..)
  dsimp only
  exact .refl _ _
  refine .ite ?_ ?_
  refine .trans ?_ (schedule_only ..)
  refine .ite ?_ ?_
  refine .trans ?_ (schedule_only ..)
  refine .ite ?_ ?_
  refine .trans ?_ (schedule_only ..)
  refine .trans ?_ (State.modCtx_only ..)
  refine .trans ?_ (State.modCtx_only ..)
  split
  exact .mono (loadData_only ..)
  dsimp only
  exact .refl _ _
  refine .trans ?_ (State.modCtx_only ..)
  refine .trans ?_ (State.modCtx_only ..)
  split
  exact .mono (loadData_only ..)
  dsimp only
  exact .refl _ _
  refine .ite ?_ ?_
  refine .trans ?_ (schedule_only ..)
  refine .trans ?_ (State.modCtx_only ..)
  refine .trans ?_ (State.modCtx_only ..)
  split
  exact .mono (loadData_only ..)
  dsimp only
  exact .refl _ _
  refine .trans ?_ (State.modCtx_only ..)
  refine .trans ?_ (State.modCtx_only ..)
  split
  exact .mono (loadData_only ..)
  dsimp only
  exact .refl _ _
  refine .ite ?_ ?_
  refine .trans ?_ (schedule_only ..)
  refine .ite ?_ ?_
  refine .trans ?_ (schedule_only ..)
  refine .trans ?_ (State.modCtx_only ..)
  refine .trans ?_ (State.modCtx_only ..)
  split
  exact .mono (loadData_only ..)
  dsimp only
  exact .refl _ _
  refine .trans ?_ (State.modCtx_only ..)
  refine .trans ?_ (State.modCtx_only ..)
  split
  exact .mono (loadData_only ..)
  dsimp only
  exact .refl _ _
  refine .ite ?_ ?_
  refine .trans ?_ (schedule_only ..)
  refine .trans ?_ (State.modCtx_only ..)
  refine .trans ?_ (State.modCtx_only ..)
  split
  exact .mono (loadData_only ..)
  dsimp only
  exact .refl _ _
  refine .trans ?_ (State.modCtx_only ..)
  refine .trans ?_ (State.modCtx_only ..)
  split
  exact .mono (loadData_only ..)
  dsimp only
  exact .refl _ _
  refine .ite ?_ ?_
  refine .trans ?_ (postStore_only ..)
  refine .ite ?_ ?_
  refine .trans ?_ (schedule_only ..)
  refine .ite ?_ ?_
  refine .trans ?_ (schedule_only ..)
  refine .ite ?_ ?_
  refine .trans ?_ (schedule_only ..)
  refine .ite ?_ ?_
  refine .trans ?_ (schedule_only ..)
  refine .trans ?_ (State.modCtx_only ..)
  refine .trans ?_ (State.modCtx_only ..)
  split
  exact .mono (loadData_only ..)
  dsimp only
  exact .refl _ _
  refine .trans ?_ (State.modCtx_only ..)
  refine .trans ?_ (State.modCtx_only ..)
  split
  exact .mono (loadData_only ..)
  dsimp only
  exact .refl _ _
  refine .ite ?_ ?_
  refine .trans ?_ (schedule_only ..)
  refine .trans ?_ (State.modCtx_only ..)
  refine .trans ?_ (State.modCtx_only ..)
  split
  exact .mono (loadData_only ..)
  dsimp only
  exact .refl _ _
  refine .trans ?_ (State.modCtx_only ..)
  refine .trans ?_ (State.modCtx_only ..)
  split
  exact .mono (loadData_only ..)
  dsimp only
  exact .refl _ _
  refine .ite ?_ ?_
  refine .trans ?_ (schedule_only ..)
  refine .ite ?_ ?_
  refine .trans ?_ (schedule_only ..)
  refine .trans ?_ (State.modCtx_only ..)
  refine .trans ?_ (State.modCtx_only ..)
  split
  exact .mono (loadData_only ..)
  dsimp only
  exact .refl _ _
  refine .trans ?_ (State.modCtx_only ..)
  refine .trans ?_ (State.modCtx_only ..)
  split
  exact .mono (loadData_only ..)
  dsimp only
  exact .refl _ _
  refine .ite ?_ ?_
  refine .trans ?_ (schedule_only ..)
  refine .trans ?_ (State.modCtx_only ..)
  refine .trans ?_ (State.modCtx_only ..)
  split
  exact .mono (loadData_only ..)
  dsimp only
  exact .refl _ _
  refine .trans ?_ (State.modCtx_only ..)
  refine .trans ?_ (State.modCtx_only ..)
  split
  exact .mono (loadData_only ..)
  dsimp only
  exact .refl _ _
  refine .ite ?_ ?_
  refine .trans ?_ (schedule_only ..)
  refine .ite ?_ ?_
  refine .trans ?_ (schedule_only ..)
  refine .ite ?_ ?_
  refine .trans ?_ (schedule_only ..)
  refine .trans ?_ (State.modCtx_only ..)
  refine .trans ?_ (State.modCtx_only ..)
  split
  exact .mono (loadData_only ..)
  dsimp only
  exact .refl _ _
  refine .trans ?_ (State.modCtx_only ..)
  refine .trans ?_ (State.modCtx_only ..)
  split
  exact .mono (loadData_only ..)
  dsimp only
  exact .refl _ _
  refine .ite ?_ ?_
  refine .trans ?_ (schedule_only ..)
  refine .trans ?_ (State.modCtx_only ..)
  refine .trans ?_ (State.modCtx_only ..)
  split
  exact .mono (loadData_only ..)
  dsimp only
  exact .refl _ _
  refine .trans ?_ (State.modCtx_only ..)
  refine .trans ?_ (State.modCtx_only ..)
  split
  exact .mono (loadData_only ..)
  dsimp only
  exact .refl _ _
  refine .ite ?_ ?_
  refine .trans ?_ (schedule_only ..)
  refine .ite ?_ ?_
  refine .trans ?_ (schedule_only ..)
  refine .trans ?_ (State.modCtx_only ..)
  refine .trans ?_ (State.modCtx_only ..)
  split
  exact .mono (loadData_only ..)
  dsimp only
  exact .refl _ _
  refine .trans ?_ (State.modCtx_only ..)
  refine .trans ?_ (State.modCtx_only ..)
  split
  exact .mono (loadData_only ..)
  dsimp only
  exact .refl _ _
  refine .ite ?_ ?_
  refine .trans ?_ (schedule_only ..)
  refine .trans ?_ (State.modCtx_only ..)
  refine .trans ?_ (State.modCtx_only ..)
  split
  exact .mono (loadData_only ..)
  dsimp only
  exact .refl _ _
  refine .trans ?_ (State.modCtx_only ..)
  refine .trans ?_ (State.modCtx_only ..)
  split
  exact .mono (loadData_only ..)
  dsimp only
  exact .refl _ _
  refine .ite ?_ ?_
  refine .trans ?_ (schedule_only ..)
  refine .ite ?_ ?_
  refine .trans ?_ (schedule_only ..)
  refine .ite ?_ ?_
  refine .trans ?_ (schedule_only ..)
  refine .ite ?_ ?_
  refine .trans ?_ (schedule_only ..)
  refine .trans ?_ (State.modCtx_only ..)
  refine .trans ?_ (State.modCtx_only ..)
  split
  exact .mono (loadData_only ..)
  dsimp only
  exact .refl _ _
  refine .trans ?_ (State.modCtx_only ..)
  refine .trans ?_ (State.modCtx_only ..)
  split
  exact .mono (loadData_only ..)
  dsimp only
  exact .refl _ _
  refine .ite ?_ ?_
  refine .trans ?_ (schedule_only ..)
  refine .trans ?_ (State.modCtx_only ..)
  refine .trans ?_ (State.modCtx_only ..)
  split
  exact .mono (loadData_only ..)
  dsimp only
  exact .refl _ _
  refine .trans ?_ (State.modCtx_only ..)
  refine .trans ?_ (State.modCtx_only ..)
  split
  exact .mono (loadData_only ..)
  dsimp only
  exact .refl _ _
  refine .ite ?_ ?_
  refine .trans ?_ (schedule_only ..)
  refine .ite ?_ ?_
  refine .trans ?_ (schedule_only ..)
  refine .trans ?_ (State.modCtx_only ..)
  refine .trans ?_ (State.modCtx_only ..)
  split
  exact .mono (loadData_only ..)
  dsimp only
  exact .refl _ _
  refine .trans ?_ (State.modCtx_only ..)
  refine .trans ?_ (State.modCtx_only ..)
  split
  exact .mono (loadData_only ..)
  dsimp only
  exact .refl _ _
  refine .ite ?_ ?_
  refine .trans ?_ (schedule_only ..)
  refine .trans ?_ (State.modCtx_only ..)
  refine .trans ?_ (State.modCtx_only ..)
  split
  exact .mono (loadData_only ..)
  dsimp only
  exact .refl _ _
  refine .trans ?_ (State.modCtx_only ..)
  refine .trans ?_ (State.modCtx_only ..)
  split
  exact .mono (loadData_only ..)
  dsimp only
  exact .refl _ _
  refine .ite ?_ ?_
  refine .trans ?_ (schedule_only ..)
  refine .ite ?_ ?_
  refine .trans ?_ (schedule_only ..)
  refine .ite ?_ ?_
  refine .trans ?_ (schedule_only ..)
  refine .trans ?_ (State.modCtx_only ..)
  refine .trans ?_ (State.modCtx_only ..)
  split
  exact .mono (loadData_only ..)
  dsimp only
  exact .refl _ _
  refine .trans ?_ (State.modCtx_only ..)
  refine .trans ?_ (State.modCtx_only ..)
  split
  exact .mono (loadData_only ..)
  dsimp only
  exact .refl _ _
  refine .ite ?_ ?_
  refine .trans ?_ (schedule_only ..)
  refine .trans ?_ (State.modCtx_only ..)
  refine .trans ?_ (State.modCtx_only ..)
  split
  exact .mono (loadData_only ..)
  dsimp only
  exact .refl _ _
  refine .trans ?_ (State.modCtx_only ..)
  refine .trans ?_ (State.modCtx_only ..)
  split
  exact .mono (loadData_only ..)
  dsimp only
  exact .refl _ _
  refine .ite ?_ ?_
  refine .trans ?_ (schedule_only ..)
  refine .ite ?_ ?_
  refine .trans ?_ (schedule_only ..)
  refine .trans ?_ (State.modCtx_only ..)
  refine .trans ?_ (State.modCtx_only ..)
  split
  exact .mono (loadData_only ..)
  dsimp only
  exact .refl _ _
  refine .trans ?_ (State.modCtx_only ..)
  refine .trans ?_ (State.modCtx_only ..)
  split
  exact .mono (loadData_only ..)
  dsimp only
  exact .refl _ _
  refine .ite ?_ ?_
  refine .trans ?_ (schedule_only ..)
  refine .trans ?_ (State.modCtx_only ..)
  refine .trans ?_ (State.modCtx_only ..)
  split
  exact .mono (loadData_only ..)
  dsimp only
  exact .refl _ _
  refine .trans ?_ (State.modCtx_only ..)
  refine .trans ?_ (State.modCtx_only ..)
  split
  exact .mono (loadData_only ..)
  dsimp only
  exact .refl _ _

theorem Op.moveRow_only (o : Op) (n : Nat) (s : State) : Only [.seq, .mem, .due, .free] s (Op.moveRow o n s) := by
  unfold Op.moveRow
  split
  dsimp only
  refine .trans ?_ (State.modCtx_only ..)
  refine .trans ?_ (postStore_only ..)
  refine .snd ?_ (by assumption)
  exact .mono (loadData_only ..)

theorem Op.moveEnd_only (o : Op) (n : Nat) (s : State) : Only [.seq] s (Op.moveEnd o n s) := by
  unfold Op.moveEnd
  dsimp only
  exact State.modCtx_only ..

end Sys2Proof.Machine
end

