-- ==== Sys2Proof/Laws/OnlyImages.lean ====
section
/-! SUPPORT. Every operation of Machine/Images.lean changes only the parts that its lemma names. -/

namespace Sys2Proof.Machine

set_option Elab.async false

theorem startThread_only (p : StartParams) (s : State) : Only [.seq] s (startThread p s) := by
  unfold startThread
  dsimp only
  exact .mono (State.modThr_only ..)

theorem putMicro_only (a : Nat) (l : List (U32)) (s : State) : Only [.mem] s (putMicro a l s) := by
  induction l generalizing a s with
  | nil => exact .refl _ _
  | cons w t ih =>
    unfold putMicro
    refine .of' ?_ (ih ..)
    refine .upd ?_ (.inr rfl) (.inr rfl) (.inr rfl) (.inr rfl) (.inr rfl) (.inr rfl) (.inr rfl) (.inr rfl) (.inr rfl) (.inr rfl) (.inr rfl) (.inr rfl) (.inr rfl) (.inr rfl) (.inr rfl) (.inr rfl) (.inl rfl) (.inr rfl) (.inr rfl) (.inr rfl) (.inr rfl) (.inr rfl) (.inr rfl) (.inr rfl) (.inr rfl) (.inr rfl)
    exact .refl _ _

theorem putNano_only (a : Nat) (l : List (BitVec 256)) (s : State) : Only [.mem] s (putNano a l s) := by
  induction l generalizing a s with
  | nil => exact .refl _ _
  | cons w t ih =>
    unfold putNano
    refine .of' ?_ (ih ..)
    refine .upd ?_ (.inr rfl) (.inr rfl) (.inr rfl) (.inr rfl) (.inr rfl) (.inr rfl) (.inr rfl) (.inr rfl) (.inr rfl) (.inr rfl) (.inr rfl) (.inr rfl) (.inr rfl) (.inr rfl) (.inr rfl) (.inr rfl) (.inl rfl) (.inr rfl) (.inr rfl) (.inr rfl) (.inr rfl) (.inr rfl) (.inr rfl) (.inr rfl) (.inr rfl) (.inr rfl)
    exact .refl _ _

theorem putProg_only (a : Nat) (l : List U32) (s : State) : Only [.rider] s (putProg a l s) := by
  induction l generalizing a s with
  | nil => exact .refl _ _
  | cons w t ih =>
    unfold putProg
    refine .of' ?_ (ih ..)
    exact .mono (writeProg_only ..)

theorem gateOff_only (k : Nat) (s : State) : Only [.tur, .gate, .shut, .link, .lg] s (gateOff k s) := by
  unfold gateOff
  exact .mono (writeGateCtl_only ..)

theorem applySection_only (l : List Byte) (s : State) (e : Section) :
    Only [.tur, .gate, .shut, .rider, .hg, .seq, .mem, .link, .lg] s (applySection l s e) := by
  unfold applySection
  dsimp only
  split
  exact .mono (putMicro_only ..)
  exact .mono (putNano_only ..)
  refine .of' ?_ (.foldl (fun s k => ?_) _ _)
  exact .mono (gateOff_only ..)
  exact .mono (gateStore_only ..)
  refine .trans ?_ (gateStore_only ..)
  refine .trans ?_ (gateStore_only ..)
  refine .trans ?_ (gateStore_only ..)
  refine .trans ?_ (gateStore_only ..)
  refine .trans ?_ (gateStore_only ..)
  exact .mono (gateOff_only ..)
  exact .mono (storeData_only ..)
  exact .mono (putProg_only ..)
  refine .upd ?_ (.inr rfl) (.inr rfl) (.inr rfl) (.inr rfl) (.inr rfl) (.inl rfl) (.inl rfl) (.inl rfl) (.inr rfl) (.inr rfl) (.inr rfl) (.inr rfl) (.inl rfl) (.inr rfl) (.inl rfl) (.inl rfl) (.inl rfl) (.inl rfl) (.inl rfl) (.inr rfl) (.inr rfl) (.inr rfl) (.inr rfl) (.inr rfl) (.inr rfl) (.inr rfl)
  exact .refl _ _
  exact .refl _ _

theorem applyImage_only (secs : List Section) (l : List Byte) (s : State) :
    Only [.tur, .gate, .shut, .rider, .hg, .seq, .mem, .link, .lg] s (applyImage secs l s) := by
  unfold applyImage
  refine .of' ?_ (.foldl (fun s k => ?_) _ _)
  refine .upd ?_ (.inr rfl) (.inr rfl) (.inr rfl) (.inr rfl) (.inr rfl) (.inl rfl) (.inl rfl) (.inl rfl) (.inr rfl) (.inr rfl) (.inr rfl) (.inr rfl) (.inl rfl) (.inr rfl) (.inl rfl) (.inl rfl) (.inl rfl) (.inl rfl) (.inl rfl) (.inr rfl) (.inr rfl) (.inr rfl) (.inr rfl) (.inr rfl) (.inr rfl) (.inr rfl)
  exact .refl _ _
  exact .mono (applySection_only ..)

theorem readSlot_only (first : Nat) (len : Nat) (s : State) :
    Only [.tur, .nvm, .free] s (readSlot first len s).2 := by
  unfold readSlot
  split
  dsimp only
  refine .snd ?_ (by assumption)
  exact .mono (readUnits_only ..)

theorem bootImage_only (s : State) :
    Only [.tur, .gate, .shut, .rider, .hg, .seq, .mem, .link, .lg, .nvm, .pwr, .free] s (bootImage s) := by
  unfold bootImage
  dsimp only
  refine .ite ?_ ?_
  refine .upd ?_ (.inr rfl) (.inr rfl) (.inr rfl) (.inr rfl) (.inr rfl) (.inl rfl) (.inl rfl) (.inl rfl) (.inr rfl) (.inr rfl) (.inr rfl) (.inr rfl) (.inl rfl) (.inr rfl) (.inl rfl) (.inl rfl) (.inl rfl) (.inl rfl) (.inl rfl) (.inl rfl) (.inl rfl) (.inr rfl) (.inr rfl) (.inr rfl) (.inr rfl) (.inl rfl)
  exact .refl _ _
  refine .ite ?_ ?_
  refine .upd ?_ (.inr rfl) (.inr rfl) (.inr rfl) (.inr rfl) (.inr rfl) (.inl rfl) (.inl rfl) (.inl rfl) (.inr rfl) (.inr rfl) (.inr rfl) (.inr rfl) (.inl rfl) (.inr rfl) (.inl rfl) (.inl rfl) (.inl rfl) (.inl rfl) (.inl rfl) (.inl rfl) (.inl rfl) (.inr rfl) (.inr rfl) (.inr rfl) (.inr rfl) (.inl rfl)
  exact .refl _ _
  refine .ite ?_ ?_
  refine .upd ?_ (.inr rfl) (.inr rfl) (.inr rfl) (.inr rfl) (.inr rfl) (.inl rfl) (.inl rfl) (.inl rfl) (.inr rfl) (.inr rfl) (.inr rfl) (.inr rfl) (.inl rfl) (.inr rfl) (.inl rfl) (.inl rfl) (.inl rfl) (.inl rfl) (.inl rfl) (.inl rfl) (.inl rfl) (.inr rfl) (.inr rfl) (.inr rfl) (.inr rfl) (.inl rfl)
  exact .mono (readUnits_only ..)
  refine .ite ?_ ?_
  refine .upd ?_ (.inr rfl) (.inr rfl) (.inr rfl) (.inr rfl) (.inr rfl) (.inl rfl) (.inl rfl) (.inl rfl) (.inr rfl) (.inr rfl) (.inr rfl) (.inr rfl) (.inl rfl) (.inr rfl) (.inl rfl) (.inl rfl) (.inl rfl) (.inl rfl) (.inl rfl) (.inl rfl) (.inl rfl) (.inr rfl) (.inr rfl) (.inr rfl) (.inr rfl) (.inl rfl)
  refine .trans ?_ (readSlot_only ..)
  exact .mono (readUnits_only ..)
  refine .upd ?_ (.inr rfl) (.inr rfl) (.inr rfl) (.inr rfl) (.inr rfl) (.inl rfl) (.inl rfl) (.inl rfl) (.inr rfl) (.inr rfl) (.inr rfl) (.inr rfl) (.inl rfl) (.inr rfl) (.inl rfl) (.inl rfl) (.inl rfl) (.inl rfl) (.inl rfl) (.inl rfl) (.inl rfl) (.inr rfl) (.inr rfl) (.inr rfl) (.inr rfl) (.inl rfl)
  refine .trans ?_ (applyImage_only ..)
  refine .trans ?_ (readSlot_only ..)
  exact .mono (readUnits_only ..)

theorem loadFirmware_only (s : State) : Only [.tur, .seq, .mem, .nvm, .free] s (loadFirmware s).2 := by
  unfold loadFirmware
  dsimp only
  split
  dsimp only
  exact .refl _ _
  split
  dsimp only
  refine .upd ?_ (.inr rfl) (.inr rfl) (.inr rfl) (.inr rfl) (.inr rfl) (.inl rfl) (.inr rfl) (.inr rfl) (.inr rfl) (.inr rfl) (.inr rfl) (.inr rfl) (.inr rfl) (.inr rfl) (.inr rfl) (.inl rfl) (.inl rfl) (.inr rfl) (.inr rfl) (.inl rfl) (.inr rfl) (.inr rfl) (.inr rfl) (.inr rfl) (.inr rfl) (.inl rfl)
  refine .trans ?_ (putNano_only ..)
  refine .trans ?_ (putMicro_only ..)
  exact .mono (readSlot_only ..)
  dsimp only
  exact .mono (readSlot_only ..)

end Sys2Proof.Machine
end

