-- ==== Sys2Proof/Laws/OnlyPower.lean ====
section
/-! SUPPORT. Every operation of Machine/Power.lean changes only the parts that its lemma names. -/

namespace Sys2Proof.Machine

set_option Elab.async false

theorem dropDebugAccess_only (s : State) : Only [.tur, .dbg] s (dropDebugAccess s) := by
  unfold dropDebugAccess
  refine .ite ?_ ?_
  refine .trans ?_ (raise_only ..)
  refine .upd ?_ (.inr rfl) (.inr rfl) (.inr rfl) (.inr rfl) (.inr rfl) (.inl rfl) (.inr rfl) (.inr rfl) (.inr rfl) (.inr rfl) (.inr rfl) (.inr rfl) (.inr rfl) (.inr rfl) (.inr rfl) (.inr rfl) (.inr rfl) (.inr rfl) (.inr rfl) (.inr rfl) (.inr rfl) (.inl rfl) (.inr rfl) (.inr rfl) (.inr rfl) (.inr rfl)
  exact .refl _ _
  exact .refl _ _

theorem bootThread_only (s : State) : Only [.seq] s (bootThread s) := by
  unfold bootThread
  refine .upd ?_ (.inr rfl) (.inr rfl) (.inr rfl) (.inr rfl) (.inr rfl) (.inr rfl) (.inr rfl) (.inr rfl) (.inr rfl) (.inr rfl) (.inr rfl) (.inr rfl) (.inr rfl) (.inr rfl) (.inr rfl) (.inl rfl) (.inr rfl) (.inr rfl) (.inr rfl) (.inr rfl) (.inr rfl) (.inr rfl) (.inr rfl) (.inr rfl) (.inr rfl) (.inr rfl)
  exact .refl _ _

theorem startT15_only (s : State) :
    Only [.seq] s (startT15 s) := by
  unfold startT15
  refine .trans ?_ (State.modThr_only ..)
  exact bootThread_only ..

theorem coldReset_only (s : State) :
    Only [.clk, .ports, .out, .outcal, .tur, .gate, .shut, .wdog, .fl, .tmr, .gp, .rider, .cul, .hg, .seq, .mem, .link, .lg, .nvm, .pwr, .dbg, .bist, .due, .free] s (coldReset s) := by
  unfold coldReset
  dsimp only
  refine .trans ?_ (bootThread_only ..)
  exact ⟨fun p hp => by cases p <;> first | (cases hp; done) | rfl⟩

theorem deepReset_only (s : State) :
    Only [.clk, .ports, .out, .outcal, .tur, .gate, .shut, .wdog, .fl, .tmr, .gp, .rider, .cul, .hg, .seq, .mem, .link, .lg, .nvm, .pwr, .dbg, .bist, .due, .free] s (deepReset s) := by
  unfold deepReset
  dsimp only
  refine .upd ?_ (.inr rfl) (.inl rfl) (.inl rfl) (.inl rfl) (.inl rfl) (.inl rfl) (.inl rfl) (.inl rfl) (.inl rfl) (.inl rfl) (.inl rfl) (.inl rfl) (.inl rfl) (.inl rfl) (.inl rfl) (.inl rfl) (.inl rfl) (.inl rfl) (.inl rfl) (.inl rfl) (.inl rfl) (.inl rfl) (.inl rfl) (.inl rfl) (.inr rfl) (.inl rfl)
  exact coldReset_only ..

theorem outletsWarm_only (s : State) : Only [.out, .outcal] s (outletsWarm s) := by
  unfold outletsWarm
  dsimp only
  refine .upd ?_ (.inr rfl) (.inr rfl) (.inr rfl) (.inl rfl) (.inl rfl) (.inr rfl) (.inr rfl) (.inr rfl) (.inr rfl) (.inr rfl) (.inr rfl) (.inr rfl) (.inr rfl) (.inr rfl) (.inr rfl) (.inr rfl) (.inr rfl) (.inr rfl) (.inr rfl) (.inr rfl) (.inr rfl) (.inr rfl) (.inr rfl) (.inr rfl) (.inr rfl) (.inr rfl)
  refine .of' ?_ (.each (fun s k => ?_) _ _)
  exact .refl _ _
  exact .mono (flushOut_only ..)

theorem flumesWarm_only (s : State) : Only [.fl, .tmr, .due] s (flumesWarm s) := by
  unfold flumesWarm
  dsimp only
  refine .upd ?_ (.inr rfl) (.inr rfl) (.inr rfl) (.inr rfl) (.inr rfl) (.inr rfl) (.inr rfl) (.inr rfl) (.inr rfl) (.inl rfl) (.inl rfl) (.inr rfl) (.inr rfl) (.inr rfl) (.inr rfl) (.inr rfl) (.inr rfl) (.inr rfl) (.inr rfl) (.inr rfl) (.inr rfl) (.inr rfl) (.inr rfl) (.inl rfl) (.inr rfl) (.inr rfl)
  refine .of' ?_ (.each (fun s k => ?_) _ _)
  exact .refl _ _
  exact .mono (disarm_only ..)

theorem riderStop_only (s : State) : Only [.rider] s (riderStop s) := by
  unfold riderStop
  dsimp only
  refine .upd ?_ (.inr rfl) (.inr rfl) (.inr rfl) (.inr rfl) (.inr rfl) (.inr rfl) (.inr rfl) (.inr rfl) (.inr rfl) (.inr rfl) (.inr rfl) (.inr rfl) (.inl rfl) (.inr rfl) (.inr rfl) (.inr rfl) (.inr rfl) (.inr rfl) (.inr rfl) (.inr rfl) (.inr rfl) (.inr rfl) (.inr rfl) (.inr rfl) (.inr rfl) (.inr rfl)
  refine .of' ?_ (.each (fun s k => ?_) _ _)
  exact .refl _ _
  exact .mono (stopChannel_only ..)

theorem riderWarm_only (s : State) : Only [.rider] s (riderWarm s) := by
  unfold riderWarm
  refine .upd ?_ (.inr rfl) (.inr rfl) (.inr rfl) (.inr rfl) (.inr rfl) (.inr rfl) (.inr rfl) (.inr rfl) (.inr rfl) (.inr rfl) (.inr rfl) (.inr rfl) (.inl rfl) (.inr rfl) (.inr rfl) (.inr rfl) (.inr rfl) (.inr rfl) (.inr rfl) (.inr rfl) (.inr rfl) (.inr rfl) (.inr rfl) (.inr rfl) (.inr rfl) (.inr rfl)
  exact .refl _ _

theorem warmReset_only (s : State) :
    Only [.clk, .ports, .out, .outcal, .tur, .gate, .shut, .wdog, .fl, .tmr, .gp, .rider, .cul, .hg, .seq, .mem, .link, .lg, .nvm, .pwr, .dbg, .bist, .due, .free] s (warmReset s) := by
  unfold warmReset
  dsimp only
  refine .ite ?_ ?_
  refine .upd ?_ (.inr rfl) (.inl rfl) (.inl rfl) (.inl rfl) (.inl rfl) (.inl rfl) (.inl rfl) (.inl rfl) (.inl rfl) (.inl rfl) (.inl rfl) (.inl rfl) (.inl rfl) (.inl rfl) (.inl rfl) (.inl rfl) (.inl rfl) (.inl rfl) (.inl rfl) (.inl rfl) (.inl rfl) (.inl rfl) (.inl rfl) (.inl rfl) (.inr rfl) (.inl rfl)
  refine .trans ?_ (deepReset_only ..)
  exact .mono (dropDebugAccess_only ..)
  refine .trans ?_ (shutAssert_only ..)
  refine .upd ?_ (.inr rfl) (.inl rfl) (.inl rfl) (.inl rfl) (.inl rfl) (.inl rfl) (.inl rfl) (.inl rfl) (.inl rfl) (.inl rfl) (.inl rfl) (.inl rfl) (.inl rfl) (.inl rfl) (.inl rfl) (.inl rfl) (.inl rfl) (.inl rfl) (.inl rfl) (.inl rfl) (.inl rfl) (.inl rfl) (.inl rfl) (.inl rfl) (.inr rfl) (.inl rfl)
  refine .trans ?_ (hwSet_only ..)
  refine .trans ?_ (bootThread_only ..)
  refine .trans ?_ (wdogFreeze_only ..)
  refine .upd ?_ (.inr rfl) (.inl rfl) (.inl rfl) (.inl rfl) (.inl rfl) (.inl rfl) (.inl rfl) (.inl rfl) (.inl rfl) (.inl rfl) (.inl rfl) (.inl rfl) (.inl rfl) (.inl rfl) (.inl rfl) (.inl rfl) (.inl rfl) (.inl rfl) (.inl rfl) (.inl rfl) (.inl rfl) (.inl rfl) (.inl rfl) (.inl rfl) (.inr rfl) (.inl rfl)
  refine .trans ?_ (dropActs_only ..)
  refine .trans ?_ (outletsWarm_only ..)
  refine .trans ?_ (flumesWarm_only ..)
  refine .trans ?_ (riderWarm_only ..)
  refine .trans ?_ (riderStop_only ..)
  refine .trans ?_ (nvmWarm_only ..)
  refine .trans ?_ (lgWarm_only ..)
  refine .trans ?_ (linkWarm_only ..)
  refine .of' ?_ (.each (fun s k => ?_) _ _)
  exact .refl _ _
  exact .mono (resetThread_only ..)

theorem debugReset_only (s : State) : Only [.tur, .wdog, .seq, .mem, .pwr, .dbg] s (debugReset s) := by
  unfold debugReset
  dsimp only
  refine .trans ?_ (wdogFreeze_only ..)
  refine .upd ?_ (.inr rfl) (.inr rfl) (.inr rfl) (.inr rfl) (.inr rfl) (.inl rfl) (.inr rfl) (.inr rfl) (.inl rfl) (.inr rfl) (.inr rfl) (.inr rfl) (.inr rfl) (.inr rfl) (.inr rfl) (.inl rfl) (.inl rfl) (.inr rfl) (.inr rfl) (.inr rfl) (.inl rfl) (.inl rfl) (.inr rfl) (.inr rfl) (.inr rfl) (.inr rfl)
  refine .of' ?_ (.each (fun s k => ?_) _ _)
  exact .refl _ _
  exact .mono (releaseMonitor_only ..)

theorem powerOn_only (s : State) :
    Only [.clk, .ports, .out, .outcal, .tur, .gate, .shut, .wdog, .fl, .tmr, .gp, .rider, .cul, .hg, .seq, .mem, .link, .lg, .nvm, .pwr, .dbg, .bist, .due, .free] s (powerOn s) := by
  unfold powerOn
  dsimp only
  refine .ite ?_ ?_
  refine .trans ?_ (debugReset_only ..)
  refine .upd ?_ (.inr rfl) (.inl rfl) (.inl rfl) (.inl rfl) (.inl rfl) (.inl rfl) (.inl rfl) (.inl rfl) (.inl rfl) (.inl rfl) (.inl rfl) (.inl rfl) (.inl rfl) (.inl rfl) (.inl rfl) (.inl rfl) (.inl rfl) (.inl rfl) (.inl rfl) (.inl rfl) (.inl rfl) (.inl rfl) (.inl rfl) (.inl rfl) (.inr rfl) (.inl rfl)
  refine .trans ?_ (coldReset_only ..)
  exact .mono (dropDebugAccess_only ..)
  refine .upd ?_ (.inr rfl) (.inl rfl) (.inl rfl) (.inl rfl) (.inl rfl) (.inl rfl) (.inl rfl) (.inl rfl) (.inl rfl) (.inl rfl) (.inl rfl) (.inl rfl) (.inl rfl) (.inl rfl) (.inl rfl) (.inl rfl) (.inl rfl) (.inl rfl) (.inl rfl) (.inl rfl) (.inl rfl) (.inl rfl) (.inl rfl) (.inl rfl) (.inr rfl) (.inl rfl)
  refine .trans ?_ (coldReset_only ..)
  exact .mono (dropDebugAccess_only ..)

theorem startLanes_only (s : State) : Only [.link] s (startLanes s) := by
  unfold startLanes
  refine .of' ?_ (.each (fun s k => ?_) _ _)
  exact .refl _ _
  refine .ite ?_ ?_
  dsimp only
  refine .trans ?_ (State.modPort_only ..)
  exact laneStart_only ..
  exact .refl _ _

theorem releasePor_only (s : State) :
    Only [.ports] s (releasePor s) := by
  unfold releasePor
  refine .ite ?_ ?_
  refine .upd ?_ (.inr rfl) (.inr rfl) (.inl rfl) (.inr rfl) (.inr rfl) (.inr rfl) (.inr rfl) (.inr rfl) (.inr rfl) (.inr rfl) (.inr rfl) (.inr rfl) (.inr rfl) (.inr rfl) (.inr rfl) (.inr rfl) (.inr rfl) (.inr rfl) (.inr rfl) (.inr rfl) (.inr rfl) (.inr rfl) (.inr rfl) (.inr rfl) (.inr rfl) (.inr rfl)
  exact .refl _ _
  exact .refl _ _

theorem bootStart_only (s : State) :
    Only [.clk, .ports, .out, .outcal, .tur, .gate, .shut, .wdog, .fl, .tmr, .gp, .rider, .cul, .hg, .seq, .mem, .link, .lg, .nvm, .pwr, .dbg, .bist, .due, .free] s (bootStart s) := by
  unfold bootStart
  dsimp only
  refine .ite ?_ ?_
  refine .upd ?_ (.inr rfl) (.inl rfl) (.inl rfl) (.inl rfl) (.inl rfl) (.inl rfl) (.inl rfl) (.inl rfl) (.inl rfl) (.inl rfl) (.inl rfl) (.inl rfl) (.inl rfl) (.inl rfl) (.inl rfl) (.inl rfl) (.inl rfl) (.inl rfl) (.inl rfl) (.inl rfl) (.inl rfl) (.inl rfl) (.inl rfl) (.inl rfl) (.inr rfl) (.inl rfl)
  refine .ite ?_ ?_
  refine .upd ?_ (.inr rfl) (.inl rfl) (.inl rfl) (.inl rfl) (.inl rfl) (.inl rfl) (.inl rfl) (.inl rfl) (.inl rfl) (.inl rfl) (.inl rfl) (.inl rfl) (.inl rfl) (.inl rfl) (.inl rfl) (.inl rfl) (.inl rfl) (.inl rfl) (.inl rfl) (.inl rfl) (.inl rfl) (.inl rfl) (.inl rfl) (.inl rfl) (.inr rfl) (.inl rfl)
  refine .trans ?_ (loadOptions_only ..)
  refine .ite ?_ ?_
  refine .upd ?_ (.inr rfl) (.inl rfl) (.inl rfl) (.inl rfl) (.inl rfl) (.inl rfl) (.inl rfl) (.inl rfl) (.inl rfl) (.inl rfl) (.inl rfl) (.inl rfl) (.inl rfl) (.inl rfl) (.inl rfl) (.inl rfl) (.inl rfl) (.inl rfl) (.inl rfl) (.inl rfl) (.inl rfl) (.inl rfl) (.inl rfl) (.inl rfl) (.inr rfl) (.inl rfl)
  refine .trans ?_ (deepReset_only ..)
  exact .mono (releasePor_only ..)
  exact .mono (releasePor_only ..)
  refine .upd ?_ (.inr rfl) (.inl rfl) (.inl rfl) (.inl rfl) (.inl rfl) (.inl rfl) (.inl rfl) (.inl rfl) (.inl rfl) (.inl rfl) (.inl rfl) (.inl rfl) (.inl rfl) (.inl rfl) (.inl rfl) (.inl rfl) (.inl rfl) (.inl rfl) (.inl rfl) (.inl rfl) (.inl rfl) (.inl rfl) (.inl rfl) (.inl rfl) (.inr rfl) (.inl rfl)
  refine .trans ?_ (loadOptions_only ..)
  refine .ite ?_ ?_
  refine .upd ?_ (.inr rfl) (.inl rfl) (.inl rfl) (.inl rfl) (.inl rfl) (.inl rfl) (.inl rfl) (.inl rfl) (.inl rfl) (.inl rfl) (.inl rfl) (.inl rfl) (.inl rfl) (.inl rfl) (.inl rfl) (.inl rfl) (.inl rfl) (.inl rfl) (.inl rfl) (.inl rfl) (.inl rfl) (.inl rfl) (.inl rfl) (.inl rfl) (.inr rfl) (.inl rfl)
  refine .trans ?_ (deepReset_only ..)
  exact .mono (releasePor_only ..)
  exact .mono (releasePor_only ..)
  refine .ite ?_ ?_
  refine .upd ?_ (.inr rfl) (.inl rfl) (.inl rfl) (.inl rfl) (.inl rfl) (.inl rfl) (.inl rfl) (.inl rfl) (.inl rfl) (.inl rfl) (.inl rfl) (.inl rfl) (.inl rfl) (.inl rfl) (.inl rfl) (.inl rfl) (.inl rfl) (.inl rfl) (.inl rfl) (.inl rfl) (.inl rfl) (.inl rfl) (.inl rfl) (.inl rfl) (.inr rfl) (.inl rfl)
  refine .trans ?_ (deepReset_only ..)
  exact .mono (releasePor_only ..)
  exact .mono (releasePor_only ..)

theorem bootHeadworks_only (s : State) :
    Only [.tur, .gate, .shut, .rider, .hg, .seq, .mem, .link, .lg, .nvm, .pwr, .free] s (bootHeadworks s) := by
  unfold bootHeadworks
  dsimp only
  refine .upd ?_ (.inr rfl) (.inr rfl) (.inr rfl) (.inr rfl) (.inr rfl) (.inl rfl) (.inl rfl) (.inl rfl) (.inr rfl) (.inr rfl) (.inr rfl) (.inr rfl) (.inl rfl) (.inr rfl) (.inl rfl) (.inl rfl) (.inl rfl) (.inl rfl) (.inl rfl) (.inl rfl) (.inl rfl) (.inr rfl) (.inr rfl) (.inr rfl) (.inr rfl) (.inl rfl)
  refine .of' ?_ (.foldl (fun s k => ?_) _ _)
  refine .trans ?_ (State.modThr_only ..)
  refine .trans ?_ (leaveSafe_only ..)
  refine .trans ?_ (bootImage_only ..)
  refine .upd ?_ (.inr rfl) (.inr rfl) (.inr rfl) (.inr rfl) (.inr rfl) (.inl rfl) (.inl rfl) (.inl rfl) (.inr rfl) (.inr rfl) (.inr rfl) (.inr rfl) (.inl rfl) (.inr rfl) (.inl rfl) (.inl rfl) (.inl rfl) (.inl rfl) (.inl rfl) (.inl rfl) (.inl rfl) (.inr rfl) (.inr rfl) (.inr rfl) (.inr rfl) (.inl rfl)
  refine .trans ?_ (writeShutreq_only ..)
  exact .mono (startT15_only ..)
  refine .ite ?_ ?_
  exact .mono (startThread_only ..)
  exact .refl _ _

theorem startClock_only (s : State) :
    Only [.clk, .ports, .gp] s (startClock s) := by
  unfold startClock
  dsimp only
  refine .upd ?_ (.inr rfl) (.inl rfl) (.inl rfl) (.inr rfl) (.inr rfl) (.inr rfl) (.inr rfl) (.inr rfl) (.inr rfl) (.inr rfl) (.inr rfl) (.inl rfl) (.inr rfl) (.inr rfl) (.inr rfl) (.inr rfl) (.inr rfl) (.inr rfl) (.inr rfl) (.inr rfl) (.inr rfl) (.inr rfl) (.inr rfl) (.inr rfl) (.inr rfl) (.inr rfl)
  exact .refl _ _

theorem lockGauge_only (s : State) : Only [.clk, .ports, .fl, .tmr, .gp, .rider, .pwr] s (lockGauge s) := by
  unfold lockGauge
  refine .ite ?_ ?_
  dsimp only
  refine .upd ?_ (.inr rfl) (.inl rfl) (.inl rfl) (.inr rfl) (.inr rfl) (.inr rfl) (.inr rfl) (.inr rfl) (.inr rfl) (.inl rfl) (.inl rfl) (.inl rfl) (.inl rfl) (.inr rfl) (.inr rfl) (.inr rfl) (.inr rfl) (.inr rfl) (.inr rfl) (.inr rfl) (.inl rfl) (.inr rfl) (.inr rfl) (.inr rfl) (.inr rfl) (.inr rfl)
  refine .trans ?_ (moveGauge_only ..)
  refine .upd ?_ (.inr rfl) (.inl rfl) (.inl rfl) (.inr rfl) (.inr rfl) (.inr rfl) (.inr rfl) (.inr rfl) (.inr rfl) (.inl rfl) (.inl rfl) (.inl rfl) (.inl rfl) (.inr rfl) (.inr rfl) (.inr rfl) (.inr rfl) (.inr rfl) (.inr rfl) (.inr rfl) (.inl rfl) (.inr rfl) (.inr rfl) (.inr rfl) (.inr rfl) (.inr rfl)
  exact .refl _ _
  exact .refl _ _

theorem lockWdog_only (s : State) : Only [.wdog, .pwr] s (lockWdog s) := by
  unfold lockWdog
  split
  exact .refl _ _
  refine .upd ?_ (.inr rfl) (.inr rfl) (.inr rfl) (.inr rfl) (.inr rfl) (.inr rfl) (.inr rfl) (.inr rfl) (.inl rfl) (.inr rfl) (.inr rfl) (.inr rfl) (.inr rfl) (.inr rfl) (.inr rfl) (.inr rfl) (.inr rfl) (.inr rfl) (.inr rfl) (.inr rfl) (.inl rfl) (.inr rfl) (.inr rfl) (.inr rfl) (.inr rfl) (.inr rfl)
  exact .refl _ _

theorem pllLock_only (s : State) :
    Only [.clk, .ports, .tur, .gate, .shut, .wdog, .fl, .tmr, .gp, .rider, .hg, .seq, .mem, .link, .lg, .nvm, .pwr, .free] s (pllLock s) := by
  unfold pllLock
  refine .ite ?_ ?_
  dsimp only
  refine .ite ?_ ?_
  refine .trans ?_ (bootHeadworks_only ..)
  refine .upd ?_ (.inr rfl) (.inl rfl) (.inl rfl) (.inr rfl) (.inr rfl) (.inl rfl) (.inl rfl) (.inl rfl) (.inl rfl) (.inl rfl) (.inl rfl) (.inl rfl) (.inl rfl) (.inr rfl) (.inl rfl) (.inl rfl) (.inl rfl) (.inl rfl) (.inl rfl) (.inl rfl) (.inl rfl) (.inr rfl) (.inr rfl) (.inr rfl) (.inr rfl) (.inl rfl)
  refine .trans ?_ (loadFirmware_only ..)
  refine .trans ?_ (startLanes_only ..)
  refine .upd ?_ (.inr rfl) (.inl rfl) (.inl rfl) (.inr rfl) (.inr rfl) (.inl rfl) (.inl rfl) (.inl rfl) (.inl rfl) (.inl rfl) (.inl rfl) (.inl rfl) (.inl rfl) (.inr rfl) (.inl rfl) (.inl rfl) (.inl rfl) (.inl rfl) (.inl rfl) (.inl rfl) (.inl rfl) (.inr rfl) (.inr rfl) (.inr rfl) (.inr rfl) (.inl rfl)
  refine .trans ?_ (lockWdog_only ..)
  refine .trans ?_ (lockGauge_only ..)
  exact .mono (startClock_only ..)
  refine .trans ?_ (raise_only ..)
  refine .upd ?_ (.inr rfl) (.inl rfl) (.inl rfl) (.inr rfl) (.inr rfl) (.inl rfl) (.inl rfl) (.inl rfl) (.inl rfl) (.inl rfl) (.inl rfl) (.inl rfl) (.inl rfl) (.inr rfl) (.inl rfl) (.inl rfl) (.inl rfl) (.inl rfl) (.inl rfl) (.inl rfl) (.inl rfl) (.inr rfl) (.inr rfl) (.inr rfl) (.inr rfl) (.inl rfl)
  refine .trans ?_ (loadFirmware_only ..)
  refine .trans ?_ (startLanes_only ..)
  refine .upd ?_ (.inr rfl) (.inl rfl) (.inl rfl) (.inr rfl) (.inr rfl) (.inl rfl) (.inl rfl) (.inl rfl) (.inl rfl) (.inl rfl) (.inl rfl) (.inl rfl) (.inl rfl) (.inr rfl) (.inl rfl) (.inl rfl) (.inl rfl) (.inl rfl) (.inl rfl) (.inl rfl) (.inl rfl) (.inr rfl) (.inr rfl) (.inr rfl) (.inr rfl) (.inl rfl)
  refine .trans ?_ (lockWdog_only ..)
  refine .trans ?_ (lockGauge_only ..)
  exact .mono (startClock_only ..)
  exact .refl _ _

theorem writeBootctl_only (v : U32) (s : State) :
    Only [.tur, .gate, .shut, .rider, .hg, .seq, .mem, .link, .lg, .nvm, .pwr, .free] s (writeBootctl v s) := by
  unfold writeBootctl
  refine .ite ?_ ?_
  refine .trans ?_ (bootHeadworks_only ..)
  refine .upd ?_ (.inr rfl) (.inr rfl) (.inr rfl) (.inr rfl) (.inr rfl) (.inl rfl) (.inl rfl) (.inl rfl) (.inr rfl) (.inr rfl) (.inr rfl) (.inr rfl) (.inl rfl) (.inr rfl) (.inl rfl) (.inl rfl) (.inl rfl) (.inl rfl) (.inl rfl) (.inl rfl) (.inl rfl) (.inr rfl) (.inr rfl) (.inr rfl) (.inr rfl) (.inl rfl)
  exact .refl _ _
  exact .refl _ _

theorem repairCopies_only (s : State) : Only [.tur, .hg, .seq, .mem, .lg, .nvm, .free] s (repairCopies s) := by
  unfold repairCopies
  refine .ite ?_ ?_
  refine .trans ?_ (pump_only ..)
  exact .mono (addOption_only ..)
  exact .refl _ _

theorem bootReady_only (s : State) : Only [.ports, .tur, .hg, .seq, .mem, .lg, .nvm, .pwr, .free] s (bootReady s) := by
  unfold bootReady
  refine .ite ?_ ?_
  split
  dsimp only
  refine .trans ?_ (hgUpdate_only ..)
  refine .trans ?_ (raiseIf_only ..)
  refine .trans ?_ (raiseIf_only ..)
  refine .trans ?_ (raiseIf_only ..)
  refine .upd ?_ (.inr rfl) (.inr rfl) (.inl rfl) (.inr rfl) (.inr rfl) (.inl rfl) (.inr rfl) (.inr rfl) (.inr rfl) (.inr rfl) (.inr rfl) (.inr rfl) (.inr rfl) (.inr rfl) (.inl rfl) (.inl rfl) (.inl rfl) (.inr rfl) (.inl rfl) (.inl rfl) (.inl rfl) (.inr rfl) (.inr rfl) (.inr rfl) (.inr rfl) (.inl rfl)
  refine .trans ?_ (raiseIf_only ..)
  refine .trans ?_ (raiseIf_only ..)
  refine .upd ?_ (.inr rfl) (.inr rfl) (.inl rfl) (.inr rfl) (.inr rfl) (.inl rfl) (.inr rfl) (.inr rfl) (.inr rfl) (.inr rfl) (.inr rfl) (.inr rfl) (.inr rfl) (.inr rfl) (.inl rfl) (.inl rfl) (.inl rfl) (.inr rfl) (.inl rfl) (.inl rfl) (.inl rfl) (.inr rfl) (.inr rfl) (.inr rfl) (.inr rfl) (.inl rfl)
  refine .trans ?_ (repairCopies_only ..)
  refine .snd ?_ (by assumption)
  exact .mono (drawFree_only ..)
  exact .refl _ _

theorem pauseCulvert_only (s : State) : Only [.cul] s (pauseCulvert s) := by
  unfold pauseCulvert
  refine .upd ?_ (.inr rfl) (.inr rfl) (.inr rfl) (.inr rfl) (.inr rfl) (.inr rfl) (.inr rfl) (.inr rfl) (.inr rfl) (.inr rfl) (.inr rfl) (.inr rfl) (.inr rfl) (.inl rfl) (.inr rfl) (.inr rfl) (.inr rfl) (.inr rfl) (.inr rfl) (.inr rfl) (.inr rfl) (.inr rfl) (.inr rfl) (.inr rfl) (.inr rfl) (.inr rfl)
  exact .refl _ _

theorem holdPads_only (s : State) : Only [.out, .fl, .tmr, .rider, .pwr, .due] s (holdPads s) := by
  unfold holdPads
  dsimp only
  refine .upd ?_ (.inr rfl) (.inr rfl) (.inr rfl) (.inl rfl) (.inr rfl) (.inr rfl) (.inr rfl) (.inr rfl) (.inr rfl) (.inl rfl) (.inl rfl) (.inr rfl) (.inl rfl) (.inr rfl) (.inr rfl) (.inr rfl) (.inr rfl) (.inr rfl) (.inr rfl) (.inr rfl) (.inl rfl) (.inr rfl) (.inr rfl) (.inl rfl) (.inr rfl) (.inr rfl)
  refine .trans ?_ (riderStop_only ..)
  refine .of' ?_ (.each (fun s k => ?_) _ _)
  refine .of' ?_ (.each (fun s k => ?_) _ _)
  exact .refl _ _
  exact .mono (flushOut_only ..)
  exact .mono (disarm_only ..)

theorem idleLanes_only (all : Bool) (s : State) : Only [.tur, .hg, .link] s (idleLanes all s) := by
  unfold idleLanes
  dsimp only
  refine .ite ?_ ?_
  refine .trans ?_ (State.modPort_only ..)
  refine .of' ?_ (.each (fun s k => ?_) _ _)
  refine .of' ?_ (.each (fun s k => ?_) _ _)
  exact .refl _ _
  refine .ite ?_ ?_
  refine .trans ?_ (idlePort_only ..)
  exact portLeave_only ..
  exact .refl _ _
  refine .ite ?_ ?_
  exact .mono (State.modLane_only ..)
  exact .refl _ _
  refine .of' ?_ (.each (fun s k => ?_) _ _)
  exact .refl _ _
  refine .ite ?_ ?_
  refine .trans ?_ (idlePort_only ..)
  exact portLeave_only ..
  exact .refl _ _

theorem stopClocks_only (s : State) : Only [.clk, .ports, .tur, .wdog, .gp, .pwr] s (stopClocks s) := by
  unfold stopClocks
  refine .upd ?_ (.inr rfl) (.inl rfl) (.inl rfl) (.inr rfl) (.inr rfl) (.inl rfl) (.inr rfl) (.inr rfl) (.inl rfl) (.inr rfl) (.inr rfl) (.inl rfl) (.inr rfl) (.inr rfl) (.inr rfl) (.inr rfl) (.inr rfl) (.inr rfl) (.inr rfl) (.inr rfl) (.inl rfl) (.inr rfl) (.inr rfl) (.inr rfl) (.inr rfl) (.inr rfl)
  exact .refl _ _

theorem enterSleep_only (deep : Bool) (s : State) :
    Only [.clk, .ports, .out, .tur, .wdog, .fl, .tmr, .gp, .rider, .hg, .link, .pwr, .due] s (enterSleep deep s) := by
  unfold enterSleep
  dsimp only
  refine .ite ?_ ?_
  refine .trans ?_ (wakeRequest_only ..)
  refine .upd ?_ (.inr rfl) (.inl rfl) (.inl rfl) (.inl rfl) (.inr rfl) (.inl rfl) (.inr rfl) (.inr rfl) (.inl rfl) (.inl rfl) (.inl rfl) (.inl rfl) (.inl rfl) (.inr rfl) (.inl rfl) (.inr rfl) (.inr rfl) (.inl rfl) (.inr rfl) (.inr rfl) (.inl rfl) (.inr rfl) (.inr rfl) (.inl rfl) (.inr rfl) (.inr rfl)
  refine .trans ?_ (stopClocks_only ..)
  refine .trans ?_ (idleLanes_only ..)
  exact .mono (holdPads_only ..)
  refine .upd ?_ (.inr rfl) (.inl rfl) (.inl rfl) (.inl rfl) (.inr rfl) (.inl rfl) (.inr rfl) (.inr rfl) (.inl rfl) (.inl rfl) (.inl rfl) (.inl rfl) (.inl rfl) (.inr rfl) (.inl rfl) (.inr rfl) (.inr rfl) (.inl rfl) (.inr rfl) (.inr rfl) (.inl rfl) (.inr rfl) (.inr rfl) (.inl rfl) (.inr rfl) (.inr rfl)
  refine .trans ?_ (stopClocks_only ..)
  refine .trans ?_ (idleLanes_only ..)
  exact .mono (holdPads_only ..)

theorem enterDoze_only (s : State) : Only [.tur, .pwr] s (enterDoze s) := by
  unfold enterDoze
  dsimp only
  refine .ite ?_ ?_
  refine .trans ?_ (wakeRequest_only ..)
  refine .upd ?_ (.inr rfl) (.inr rfl) (.inr rfl) (.inr rfl) (.inr rfl) (.inl rfl) (.inr rfl) (.inr rfl) (.inr rfl) (.inr rfl) (.inr rfl) (.inr rfl) (.inr rfl) (.inr rfl) (.inr rfl) (.inr rfl) (.inr rfl) (.inr rfl) (.inr rfl) (.inr rfl) (.inl rfl) (.inr rfl) (.inr rfl) (.inr rfl) (.inr rfl) (.inr rfl)
  exact .refl _ _
  refine .upd ?_ (.inr rfl) (.inr rfl) (.inr rfl) (.inr rfl) (.inr rfl) (.inl rfl) (.inr rfl) (.inr rfl) (.inr rfl) (.inr rfl) (.inr rfl) (.inr rfl) (.inr rfl) (.inr rfl) (.inr rfl) (.inr rfl) (.inr rfl) (.inr rfl) (.inr rfl) (.inr rfl) (.inl rfl) (.inr rfl) (.inr rfl) (.inr rfl) (.inr rfl) (.inr rfl)
  exact .refl _ _

theorem dozeWake_only (s : State) : Only [.tur, .pwr] s (dozeWake s) := by
  unfold dozeWake
  refine .ite ?_ ?_
  refine .trans ?_ (raise_only ..)
  refine .upd ?_ (.inr rfl) (.inr rfl) (.inr rfl) (.inr rfl) (.inr rfl) (.inl rfl) (.inr rfl) (.inr rfl) (.inr rfl) (.inr rfl) (.inr rfl) (.inr rfl) (.inr rfl) (.inr rfl) (.inr rfl) (.inr rfl) (.inr rfl) (.inr rfl) (.inr rfl) (.inr rfl) (.inl rfl) (.inr rfl) (.inr rfl) (.inr rfl) (.inr rfl) (.inr rfl)
  exact .refl _ _
  exact .refl _ _

theorem wakeLanes_only (s : State) : Only [.tur, .hg, .link] s (wakeLanes s) := by
  unfold wakeLanes
  dsimp only
  refine .trans ?_ (startLanes_only ..)
  refine .ite ?_ ?_
  exact .mono (toDetect_only ..)
  exact .refl _ _

theorem sleepReturn_only (s : State) :
    Only [.clk, .ports, .out, .outcal, .tur, .fl, .tmr, .gp, .rider, .hg, .link, .pwr] s (sleepReturn s) := by
  unfold sleepReturn
  refine .ite ?_ ?_
  dsimp only
  refine .trans ?_ (raise_only ..)
  refine .trans ?_ (relayWakes_only ..)
  refine .trans ?_ (wakeLanes_only ..)
  refine .upd ?_ (.inr rfl) (.inl rfl) (.inl rfl) (.inl rfl) (.inl rfl) (.inl rfl) (.inr rfl) (.inr rfl) (.inr rfl) (.inl rfl) (.inl rfl) (.inl rfl) (.inl rfl) (.inr rfl) (.inl rfl) (.inr rfl) (.inr rfl) (.inl rfl) (.inr rfl) (.inr rfl) (.inl rfl) (.inr rfl) (.inr rfl) (.inr rfl) (.inr rfl) (.inr rfl)
  refine .trans ?_ (moveGauge_only ..)
  refine .trans ?_ (startClock_only ..)
  refine .upd ?_ (.inr rfl) (.inl rfl) (.inl rfl) (.inl rfl) (.inl rfl) (.inl rfl) (.inr rfl) (.inr rfl) (.inr rfl) (.inl rfl) (.inl rfl) (.inl rfl) (.inl rfl) (.inr rfl) (.inl rfl) (.inr rfl) (.inr rfl) (.inl rfl) (.inr rfl) (.inr rfl) (.inl rfl) (.inr rfl) (.inr rfl) (.inr rfl) (.inr rfl) (.inr rfl)
  exact .refl _ _
  exact .refl _ _

theorem padRelease_only (n : Nat) (s : State) : Only [.out, .pwr] s (padRelease n s) := by
  unfold padRelease
  refine .ite ?_ ?_
  split
  exact .refl _ _
  dsimp only
  refine .ite ?_ ?_
  refine .ite ?_ ?_
  exact .mono (State.modOut_only ..)
  refine .upd ?_ (.inr rfl) (.inr rfl) (.inr rfl) (.inl rfl) (.inr rfl) (.inr rfl) (.inr rfl) (.inr rfl) (.inr rfl) (.inr rfl) (.inr rfl) (.inr rfl) (.inr rfl) (.inr rfl) (.inr rfl) (.inr rfl) (.inr rfl) (.inr rfl) (.inr rfl) (.inr rfl) (.inl rfl) (.inr rfl) (.inr rfl) (.inr rfl) (.inr rfl) (.inr rfl)
  exact .mono (State.modOut_only ..)
  exact .refl _ _
  exact .refl _ _

theorem writeHoldrel_only (s : State) : Only [.out, .pwr] s (writeHoldrel s) := by
  unfold writeHoldrel
  refine .ite ?_ ?_
  refine .upd ?_ (.inr rfl) (.inr rfl) (.inr rfl) (.inl rfl) (.inr rfl) (.inr rfl) (.inr rfl) (.inr rfl) (.inr rfl) (.inr rfl) (.inr rfl) (.inr rfl) (.inr rfl) (.inr rfl) (.inr rfl) (.inr rfl) (.inr rfl) (.inr rfl) (.inr rfl) (.inr rfl) (.inl rfl) (.inr rfl) (.inr rfl) (.inr rfl) (.inr rfl) (.inr rfl)
  exact .refl _ _
  exact .refl _ _

theorem pwrctlWake_only (s : State) : Only [.tur, .pwr] s (pwrctlWake s) := by
  unfold pwrctlWake
  refine .trans ?_ (hwSet_only ..)
  refine .upd ?_ (.inr rfl) (.inr rfl) (.inr rfl) (.inr rfl) (.inr rfl) (.inl rfl) (.inr rfl) (.inr rfl) (.inr rfl) (.inr rfl) (.inr rfl) (.inr rfl) (.inr rfl) (.inr rfl) (.inr rfl) (.inr rfl) (.inr rfl) (.inr rfl) (.inr rfl) (.inr rfl) (.inl rfl) (.inr rfl) (.inr rfl) (.inr rfl) (.inr rfl) (.inr rfl)
  exact .refl _ _

theorem writePwrctl_only (v : U32) (s : State) : Only [.out, .tur, .pwr] s (writePwrctl v s) := by
  unfold writePwrctl
  dsimp only
  refine .ite ?_ ?_
  refine .trans ?_ (writeHoldrel_only ..)
  refine .ite ?_ ?_
  refine .trans ?_ (pwrctlWake_only ..)
  refine .upd ?_ (.inr rfl) (.inr rfl) (.inr rfl) (.inl rfl) (.inr rfl) (.inl rfl) (.inr rfl) (.inr rfl) (.inr rfl) (.inr rfl) (.inr rfl) (.inr rfl) (.inr rfl) (.inr rfl) (.inr rfl) (.inr rfl) (.inr rfl) (.inr rfl) (.inr rfl) (.inr rfl) (.inl rfl) (.inr rfl) (.inr rfl) (.inr rfl) (.inr rfl) (.inr rfl)
  exact .refl _ _
  refine .upd ?_ (.inr rfl) (.inr rfl) (.inr rfl) (.inl rfl) (.inr rfl) (.inl rfl) (.inr rfl) (.inr rfl) (.inr rfl) (.inr rfl) (.inr rfl) (.inr rfl) (.inr rfl) (.inr rfl) (.inr rfl) (.inr rfl) (.inr rfl) (.inr rfl) (.inr rfl) (.inr rfl) (.inl rfl) (.inr rfl) (.inr rfl) (.inr rfl) (.inr rfl) (.inr rfl)
  exact .refl _ _
  refine .ite ?_ ?_
  refine .trans ?_ (pwrctlWake_only ..)
  refine .upd ?_ (.inr rfl) (.inr rfl) (.inr rfl) (.inl rfl) (.inr rfl) (.inl rfl) (.inr rfl) (.inr rfl) (.inr rfl) (.inr rfl) (.inr rfl) (.inr rfl) (.inr rfl) (.inr rfl) (.inr rfl) (.inr rfl) (.inr rfl) (.inr rfl) (.inr rfl) (.inr rfl) (.inl rfl) (.inr rfl) (.inr rfl) (.inr rfl) (.inr rfl) (.inr rfl)
  exact .refl _ _
  refine .upd ?_ (.inr rfl) (.inr rfl) (.inr rfl) (.inl rfl) (.inr rfl) (.inl rfl) (.inr rfl) (.inr rfl) (.inr rfl) (.inr rfl) (.inr rfl) (.inr rfl) (.inr rfl) (.inr rfl) (.inr rfl) (.inr rfl) (.inr rfl) (.inr rfl) (.inr rfl) (.inr rfl) (.inl rfl) (.inr rfl) (.inr rfl) (.inr rfl) (.inr rfl) (.inr rfl)
  exact .refl _ _

theorem writeRstctl_only (v : U32) (s : State) : Only [.pwr] s (writeRstctl v s) := by
  unfold writeRstctl
  dsimp only
  refine .ite ?_ ?_
  refine .trans ?_ (requestReset_only ..)
  refine .upd ?_ (.inr rfl) (.inr rfl) (.inr rfl) (.inr rfl) (.inr rfl) (.inr rfl) (.inr rfl) (.inr rfl) (.inr rfl) (.inr rfl) (.inr rfl) (.inr rfl) (.inr rfl) (.inr rfl) (.inr rfl) (.inr rfl) (.inr rfl) (.inr rfl) (.inr rfl) (.inr rfl) (.inl rfl) (.inr rfl) (.inr rfl) (.inr rfl) (.inr rfl) (.inr rfl)
  exact .refl _ _
  refine .upd ?_ (.inr rfl) (.inr rfl) (.inr rfl) (.inr rfl) (.inr rfl) (.inr rfl) (.inr rfl) (.inr rfl) (.inr rfl) (.inr rfl) (.inr rfl) (.inr rfl) (.inr rfl) (.inr rfl) (.inr rfl) (.inr rfl) (.inr rfl) (.inr rfl) (.inr rfl) (.inr rfl) (.inl rfl) (.inr rfl) (.inr rfl) (.inr rfl) (.inr rfl) (.inr rfl)
  exact .refl _ _

theorem pwrWrite_only (r : Nat) (v : U32) (s : State) :
    Only [.out, .tur, .gate, .shut, .rider, .hg, .seq, .mem, .link, .lg, .nvm, .pwr, .free] s (pwrWrite r v s) := by
  unfold pwrWrite
  dsimp only
  split
  exact .mono (writePwrctl_only ..)
  refine .upd ?_ (.inr rfl) (.inr rfl) (.inr rfl) (.inl rfl) (.inr rfl) (.inl rfl) (.inl rfl) (.inl rfl) (.inr rfl) (.inr rfl) (.inr rfl) (.inr rfl) (.inl rfl) (.inr rfl) (.inl rfl) (.inl rfl) (.inl rfl) (.inl rfl) (.inl rfl) (.inl rfl) (.inl rfl) (.inr rfl) (.inr rfl) (.inr rfl) (.inr rfl) (.inl rfl)
  exact .refl _ _
  refine .upd ?_ (.inr rfl) (.inr rfl) (.inr rfl) (.inl rfl) (.inr rfl) (.inl rfl) (.inl rfl) (.inl rfl) (.inr rfl) (.inr rfl) (.inr rfl) (.inr rfl) (.inl rfl) (.inr rfl) (.inl rfl) (.inl rfl) (.inl rfl) (.inl rfl) (.inl rfl) (.inl rfl) (.inl rfl) (.inr rfl) (.inr rfl) (.inr rfl) (.inr rfl) (.inl rfl)
  exact .refl _ _
  refine .upd ?_ (.inr rfl) (.inr rfl) (.inr rfl) (.inl rfl) (.inr rfl) (.inl rfl) (.inl rfl) (.inl rfl) (.inr rfl) (.inr rfl) (.inr rfl) (.inr rfl) (.inl rfl) (.inr rfl) (.inl rfl) (.inl rfl) (.inl rfl) (.inl rfl) (.inl rfl) (.inl rfl) (.inl rfl) (.inr rfl) (.inr rfl) (.inr rfl) (.inr rfl) (.inl rfl)
  exact .refl _ _
  refine .upd ?_ (.inr rfl) (.inr rfl) (.inr rfl) (.inl rfl) (.inr rfl) (.inl rfl) (.inl rfl) (.inl rfl) (.inr rfl) (.inr rfl) (.inr rfl) (.inr rfl) (.inl rfl) (.inr rfl) (.inl rfl) (.inl rfl) (.inl rfl) (.inl rfl) (.inl rfl) (.inl rfl) (.inl rfl) (.inr rfl) (.inr rfl) (.inr rfl) (.inr rfl) (.inl rfl)
  exact .refl _ _
  refine .upd ?_ (.inr rfl) (.inr rfl) (.inr rfl) (.inl rfl) (.inr rfl) (.inl rfl) (.inl rfl) (.inl rfl) (.inr rfl) (.inr rfl) (.inr rfl) (.inr rfl) (.inl rfl) (.inr rfl) (.inl rfl) (.inl rfl) (.inl rfl) (.inl rfl) (.inl rfl) (.inl rfl) (.inl rfl) (.inr rfl) (.inr rfl) (.inr rfl) (.inr rfl) (.inl rfl)
  exact .refl _ _
  exact .mono (writeRstctl_only ..)
  refine .upd ?_ (.inr rfl) (.inr rfl) (.inr rfl) (.inl rfl) (.inr rfl) (.inl rfl) (.inl rfl) (.inl rfl) (.inr rfl) (.inr rfl) (.inr rfl) (.inr rfl) (.inl rfl) (.inr rfl) (.inl rfl) (.inl rfl) (.inl rfl) (.inl rfl) (.inl rfl) (.inl rfl) (.inl rfl) (.inr rfl) (.inr rfl) (.inr rfl) (.inr rfl) (.inl rfl)
  exact .refl _ _
  exact .mono (writeBootctl_only ..)
  exact .refl _ _

end Sys2Proof.Machine
end

