-- ==== Sys2Proof/Laws/OnlyBus.lean ====
section
/-! SUPPORT. Every operation of Machine/Bus.lean changes only the parts that its lemma names. -/

namespace Sys2Proof.Machine

set_option Elab.async false

theorem modWin_only (ag : Agent) (f : Window → Window) (s : State) : Only [.mem] s (modWin ag f s) := by
  unfold modWin
  split
  refine .upd ?_ (.inr rfl) (.inr rfl) (.inr rfl) (.inr rfl) (.inr rfl) (.inr rfl) (.inr rfl) (.inr rfl) (.inr rfl) (.inr rfl) (.inr rfl) (.inr rfl) (.inr rfl) (.inr rfl) (.inr rfl) (.inr rfl) (.inl rfl) (.inr rfl) (.inr rfl) (.inr rfl) (.inr rfl) (.inr rfl) (.inr rfl) (.inr rfl) (.inr rfl) (.inr rfl)
  exact .refl _ _
  refine .upd ?_ (.inr rfl) (.inr rfl) (.inr rfl) (.inr rfl) (.inr rfl) (.inr rfl) (.inr rfl) (.inr rfl) (.inr rfl) (.inr rfl) (.inr rfl) (.inr rfl) (.inr rfl) (.inr rfl) (.inr rfl) (.inr rfl) (.inl rfl) (.inr rfl) (.inr rfl) (.inr rfl) (.inr rfl) (.inr rfl) (.inr rfl) (.inr rfl) (.inr rfl) (.inr rfl)
  exact .refl _ _
  refine .upd ?_ (.inr rfl) (.inr rfl) (.inr rfl) (.inr rfl) (.inr rfl) (.inr rfl) (.inr rfl) (.inr rfl) (.inr rfl) (.inr rfl) (.inr rfl) (.inr rfl) (.inr rfl) (.inr rfl) (.inr rfl) (.inr rfl) (.inl rfl) (.inr rfl) (.inr rfl) (.inr rfl) (.inr rfl) (.inr rfl) (.inr rfl) (.inr rfl) (.inr rfl) (.inr rfl)
  exact .refl _ _

theorem thrWrite_only (n : Nat) (r : Nat) (v : U32) (s : State) : Only [.seq] s (thrWrite n r v s) := by
  unfold thrWrite
  split
  exact State.modThr_only ..
  exact State.modCtxBoth_only ..
  exact State.modCtxBoth_only ..
  exact State.modCtxBoth_only ..
  exact State.modCtxBoth_only ..
  exact State.modThr_only ..
  exact .refl _ _

theorem writeHwin_only (v : BitVec 17) (s : State) :
    Only [.seq] s (writeHwin v s) := by
  unfold writeHwin
  refine .upd ?_ (.inr rfl) (.inr rfl) (.inr rfl) (.inr rfl) (.inr rfl) (.inr rfl) (.inr rfl) (.inr rfl) (.inr rfl) (.inr rfl) (.inr rfl) (.inr rfl) (.inr rfl) (.inr rfl) (.inr rfl) (.inl rfl) (.inr rfl) (.inr rfl) (.inr rfl) (.inr rfl) (.inr rfl) (.inr rfl) (.inr rfl) (.inr rfl) (.inr rfl) (.inr rfl)
  exact .refl _ _

theorem writeScond_only (base : Option U16) (set clr : U16) (s : State) :
    Only [.seq] s (writeScond base set clr s) := by
  unfold writeScond
  dsimp only
  refine .upd ?_ (.inr rfl) (.inr rfl) (.inr rfl) (.inr rfl) (.inr rfl) (.inr rfl) (.inr rfl) (.inr rfl) (.inr rfl) (.inr rfl) (.inr rfl) (.inr rfl) (.inr rfl) (.inr rfl) (.inr rfl) (.inl rfl) (.inr rfl) (.inr rfl) (.inr rfl) (.inr rfl) (.inr rfl) (.inr rfl) (.inr rfl) (.inr rfl) (.inr rfl) (.inr rfl)
  exact .refl _ _

theorem excWrite_only (ag : Agent) (r : Nat) (v : U32) (s : State) : Only [.seq] s (excWrite ag r v s) := by
  unfold excWrite
  dsimp only
  refine .ite ?_ ?_
  refine .ite ?_ ?_
  exact .refl _ _
  refine .ite ?_ ?_
  exact .mono (State.modThr_only ..)
  exact .mono (State.modThr_only ..)
  refine .ite ?_ ?_
  refine .ite ?_ ?_
  exact .mono (State.modThr_only ..)
  exact .refl _ _
  split
  refine .upd ?_ (.inr rfl) (.inr rfl) (.inr rfl) (.inr rfl) (.inr rfl) (.inr rfl) (.inr rfl) (.inr rfl) (.inr rfl) (.inr rfl) (.inr rfl) (.inr rfl) (.inr rfl) (.inr rfl) (.inr rfl) (.inl rfl) (.inr rfl) (.inr rfl) (.inr rfl) (.inr rfl) (.inr rfl) (.inr rfl) (.inr rfl) (.inr rfl) (.inr rfl) (.inr rfl)
  exact .refl _ _
  refine .upd ?_ (.inr rfl) (.inr rfl) (.inr rfl) (.inr rfl) (.inr rfl) (.inr rfl) (.inr rfl) (.inr rfl) (.inr rfl) (.inr rfl) (.inr rfl) (.inr rfl) (.inr rfl) (.inr rfl) (.inr rfl) (.inl rfl) (.inr rfl) (.inr rfl) (.inr rfl) (.inr rfl) (.inr rfl) (.inr rfl) (.inr rfl) (.inr rfl) (.inr rfl) (.inr rfl)
  exact .refl _ _
  refine .upd ?_ (.inr rfl) (.inr rfl) (.inr rfl) (.inr rfl) (.inr rfl) (.inr rfl) (.inr rfl) (.inr rfl) (.inr rfl) (.inr rfl) (.inr rfl) (.inr rfl) (.inr rfl) (.inr rfl) (.inr rfl) (.inl rfl) (.inr rfl) (.inr rfl) (.inr rfl) (.inr rfl) (.inr rfl) (.inr rfl) (.inr rfl) (.inr rfl) (.inr rfl) (.inr rfl)
  exact .refl _ _
  refine .upd ?_ (.inr rfl) (.inr rfl) (.inr rfl) (.inr rfl) (.inr rfl) (.inr rfl) (.inr rfl) (.inr rfl) (.inr rfl) (.inr rfl) (.inr rfl) (.inr rfl) (.inr rfl) (.inr rfl) (.inr rfl) (.inl rfl) (.inr rfl) (.inr rfl) (.inr rfl) (.inr rfl) (.inr rfl) (.inr rfl) (.inr rfl) (.inr rfl) (.inr rfl) (.inr rfl)
  exact .refl _ _
  refine .upd ?_ (.inr rfl) (.inr rfl) (.inr rfl) (.inr rfl) (.inr rfl) (.inr rfl) (.inr rfl) (.inr rfl) (.inr rfl) (.inr rfl) (.inr rfl) (.inr rfl) (.inr rfl) (.inr rfl) (.inr rfl) (.inl rfl) (.inr rfl) (.inr rfl) (.inr rfl) (.inr rfl) (.inr rfl) (.inr rfl) (.inr rfl) (.inr rfl) (.inr rfl) (.inr rfl)
  exact .refl _ _
  refine .upd ?_ (.inr rfl) (.inr rfl) (.inr rfl) (.inr rfl) (.inr rfl) (.inr rfl) (.inr rfl) (.inr rfl) (.inr rfl) (.inr rfl) (.inr rfl) (.inr rfl) (.inr rfl) (.inr rfl) (.inr rfl) (.inl rfl) (.inr rfl) (.inr rfl) (.inr rfl) (.inr rfl) (.inr rfl) (.inr rfl) (.inr rfl) (.inr rfl) (.inr rfl) (.inr rfl)
  exact .refl _ _
  refine .upd ?_ (.inr rfl) (.inr rfl) (.inr rfl) (.inr rfl) (.inr rfl) (.inr rfl) (.inr rfl) (.inr rfl) (.inr rfl) (.inr rfl) (.inr rfl) (.inr rfl) (.inr rfl) (.inr rfl) (.inr rfl) (.inl rfl) (.inr rfl) (.inr rfl) (.inr rfl) (.inr rfl) (.inr rfl) (.inr rfl) (.inr rfl) (.inr rfl) (.inr rfl) (.inr rfl)
  exact .refl _ _
  refine .upd ?_ (.inr rfl) (.inr rfl) (.inr rfl) (.inr rfl) (.inr rfl) (.inr rfl) (.inr rfl) (.inr rfl) (.inr rfl) (.inr rfl) (.inr rfl) (.inr rfl) (.inr rfl) (.inr rfl) (.inr rfl) (.inl rfl) (.inr rfl) (.inr rfl) (.inr rfl) (.inr rfl) (.inr rfl) (.inr rfl) (.inr rfl) (.inr rfl) (.inr rfl) (.inr rfl)
  exact .refl _ _
  refine .upd ?_ (.inr rfl) (.inr rfl) (.inr rfl) (.inr rfl) (.inr rfl) (.inr rfl) (.inr rfl) (.inr rfl) (.inr rfl) (.inr rfl) (.inr rfl) (.inr rfl) (.inr rfl) (.inr rfl) (.inr rfl) (.inl rfl) (.inr rfl) (.inr rfl) (.inr rfl) (.inr rfl) (.inr rfl) (.inr rfl) (.inr rfl) (.inr rfl) (.inr rfl) (.inr rfl)
  exact .refl _ _
  refine .upd ?_ (.inr rfl) (.inr rfl) (.inr rfl) (.inr rfl) (.inr rfl) (.inr rfl) (.inr rfl) (.inr rfl) (.inr rfl) (.inr rfl) (.inr rfl) (.inr rfl) (.inr rfl) (.inr rfl) (.inr rfl) (.inl rfl) (.inr rfl) (.inr rfl) (.inr rfl) (.inr rfl) (.inr rfl) (.inr rfl) (.inr rfl) (.inr rfl) (.inr rfl) (.inr rfl)
  exact .refl _ _
  refine .ite ?_ ?_
  refine .upd ?_ (.inr rfl) (.inr rfl) (.inr rfl) (.inr rfl) (.inr rfl) (.inr rfl) (.inr rfl) (.inr rfl) (.inr rfl) (.inr rfl) (.inr rfl) (.inr rfl) (.inr rfl) (.inr rfl) (.inr rfl) (.inl rfl) (.inr rfl) (.inr rfl) (.inr rfl) (.inr rfl) (.inr rfl) (.inr rfl) (.inr rfl) (.inr rfl) (.inr rfl) (.inr rfl)
  exact .refl _ _
  exact .refl _ _

theorem regEffect_only (ag : Agent) (off : Nat) (s : State) :
    Only [.tur, .fl, .tmr, .rider, .hg, .link, .lg, .nvm, .due] s (regEffect ag off s) := by
  unfold regEffect
  refine .ite ?_ ?_
  exact .refl _ _
  refine .ite ?_ ?_
  exact .mono (hgReadEffect_only ..)
  refine .ite ?_ ?_
  exact .mono (turnoutReadEffect_only ..)
  refine .ite ?_ ?_
  exact .mono (readCap_only ..)
  refine .ite ?_ ?_
  exact .mono (flReadEffect_only ..)
  refine .ite ?_ ?_
  exact .mono (popRx_only ..)
  refine .ite ?_ ?_
  exact .mono (linkReadEffect_only ..)
  refine .ite ?_ ?_
  exact .mono (lgReadEffect_only ..)
  refine .ite ?_ ?_
  exact .mono (nvmReadEffect_only ..)
  exact .refl _ _

theorem regStore_only (ag : Agent) (off : Nat) (v : U32) (s : State) :
    Only [.ports, .out, .outcal, .tur, .gate, .shut, .wdog, .fl, .tmr, .rider, .cul, .hg, .seq, .mem, .link, .lg, .nvm, .pwr, .bist, .due, .free] s (regStore ag off v s).1 := by
  unfold regStore
  refine .iteFst ?_ ?_
  dsimp only
  exact .refl _ _
  refine .iteFst ?_ ?_
  dsimp only
  exact .refl _ _
  refine .iteFst ?_ ?_
  dsimp only
  refine .ite ?_ ?_
  exact .mono (modWin_only ..)
  exact .refl _ _
  refine .iteFst ?_ ?_
  dsimp only
  exact .mono (pwrWrite_only ..)
  refine .iteFst ?_ ?_
  dsimp only
  exact .mono (smpWrite_only ..)
  refine .iteFst ?_ ?_
  dsimp only
  exact .mono (hgWrite_only ..)
  refine .iteFst ?_ ?_
  dsimp only
  exact .mono (turnoutWrite_only ..)
  refine .iteFst ?_ ?_
  dsimp only
  exact .refl _ _
  refine .iteFst ?_ ?_
  dsimp only
  exact .mono (tmrWrite_only ..)
  refine .iteFst ?_ ?_
  dsimp only
  exact .mono (outWrite_only ..)
  refine .iteFst ?_ ?_
  dsimp only
  refine .upd ?_ (.inr rfl) (.inr rfl) (.inl rfl) (.inl rfl) (.inl rfl) (.inl rfl) (.inl rfl) (.inl rfl) (.inl rfl) (.inl rfl) (.inl rfl) (.inr rfl) (.inl rfl) (.inl rfl) (.inl rfl) (.inl rfl) (.inl rfl) (.inl rfl) (.inl rfl) (.inl rfl) (.inl rfl) (.inr rfl) (.inl rfl) (.inl rfl) (.inr rfl) (.inl rfl)
  exact .refl _ _
  refine .iteFst ?_ ?_
  dsimp only
  exact .mono (flWrite_only ..)
  refine .iteFst ?_ ?_
  dsimp only
  exact .mono (rchWrite_only ..)
  refine .iteFst ?_ ?_
  dsimp only
  exact .mono (riderWrite_only ..)
  refine .iteFst ?_ ?_
  dsimp only
  exact .mono (writeProg_only ..)
  refine .iteFst ?_ ?_
  exact .mono (gateWrite_only ..)
  refine .iteFst ?_ ?_
  exact .mono (shutWrite_only ..)
  refine .iteFst ?_ ?_
  exact .mono (gateStore_only ..)
  refine .iteFst ?_ ?_
  dsimp only
  exact .mono (culWrite_only ..)
  refine .iteFst ?_ ?_
  dsimp only
  exact .mono (thrWrite_only ..)
  refine .iteFst ?_ ?_
  dsimp only
  exact .mono (excWrite_only ..)
  refine .iteFst ?_ ?_
  dsimp only
  exact .mono (linkWrite_only ..)
  refine .iteFst ?_ ?_
  dsimp only
  exact .mono (lgWrite_only ..)
  refine .iteFst ?_ ?_
  dsimp only
  exact .mono (nvmWrite_only ..)
  refine .iteFst ?_ ?_
  dsimp only
  exact .mono (wdogWrite_only ..)
  refine .iteFst ?_ ?_
  dsimp only
  refine .upd ?_ (.inr rfl) (.inr rfl) (.inl rfl) (.inl rfl) (.inl rfl) (.inl rfl) (.inl rfl) (.inl rfl) (.inl rfl) (.inl rfl) (.inl rfl) (.inr rfl) (.inl rfl) (.inl rfl) (.inl rfl) (.inl rfl) (.inl rfl) (.inl rfl) (.inl rfl) (.inl rfl) (.inl rfl) (.inr rfl) (.inl rfl) (.inl rfl) (.inr rfl) (.inl rfl)
  exact .refl _ _
  dsimp only
  exact .refl _ _

theorem winData_only (a : Nat) (s : State) : Only [.free] s (winData a s).2 := by
  unfold winData
  split
  dsimp only
  exact .refl _ _
  split
  dsimp only
  refine .snd ?_ (by assumption)
  exact .mono (seenData_only ..)

theorem winRead_only (ag : Agent) (w : Nat) (s : State) : Only [.free] s (winRead ag w s).2 := by
  unfold winRead
  dsimp only
  split
  dsimp only
  exact .refl _ _
  split
  split
  dsimp only
  exact .refl _ _
  dsimp only
  exact .refl _ _
  split
  dsimp only
  exact .refl _ _
  dsimp only
  exact .refl _ _
  exact .mono (winData_only ..)
  dsimp only
  exact .refl _ _

theorem winMicro_only (ag : Agent) (i : Nat) (v : U32) (s : State) : Only [.mem] s (winMicro ag i v s) := by
  unfold winMicro
  refine .ite ?_ ?_
  exact .mono (putMicro_only ..)
  exact .refl _ _

theorem winNano_only (ag : Agent) (i : Nat) (v : BitVec 256) (s : State) : Only [.mem] s (winNano ag i v s) := by
  unfold winNano
  refine .ite ?_ ?_
  exact .mono (putNano_only ..)
  exact .refl _ _

theorem stageNano_only (ag : Agent) (i : Nat) (j : Nat) (v : U32) (strb : BitVec 4) (s : State) :
    Only [.mem] s (stageNano ag i j v strb s) := by
  unfold stageNano
  dsimp only
  refine .ite ?_ ?_
  refine .trans ?_ (modWin_only ..)
  exact .mono (winNano_only ..)
  exact .mono (modWin_only ..)

theorem winWrite_only (ag : Agent) (w : Nat) (v : U32) (strb : BitVec 4) (s : State) :
    Only [.tur, .seq, .mem, .lg] s (winWrite ag w v strb s).1 := by
  unfold winWrite
  dsimp only
  refine .iteFst ?_ ?_
  dsimp only
  exact .refl _ _
  split
  refine .iteFst ?_ ?_
  dsimp only
  exact .refl _ _
  dsimp only
  exact .mono (winMicro_only ..)
  dsimp only
  exact .mono (stageNano_only ..)
  refine .iteFst ?_ ?_
  dsimp only
  exact .refl _ _
  refine .iteFst ?_ ?_
  dsimp only
  exact .refl _ _
  dsimp only
  refine .of' ?_ (.foldl (fun s k => ?_) _ _)
  exact .refl _ _
  exact .mono (storeRow_only ..)
  dsimp only
  exact .mono (lgmPut_only ..)

theorem busWrite_only (ag : Agent) (off : Nat) (v : U32) (strb : BitVec 4) (s : State) :
    Only [.ports, .out, .outcal, .tur, .gate, .shut, .wdog, .fl, .tmr, .rider, .cul, .hg, .seq, .mem, .link, .lg, .nvm, .pwr, .bist, .due, .free] s (busWrite ag off v strb s).1 := by
  unfold busWrite
  dsimp only
  refine .iteFst ?_ ?_
  exact .mono (winWrite_only ..)
  refine .iteFst ?_ ?_
  dsimp only
  exact .refl _ _
  exact .mono (regStore_only ..)

theorem busRead_only (ag : Agent) (inspect : Bool) (off : Nat) (s : State) :
    Only [.tur, .fl, .tmr, .rider, .hg, .link, .lg, .nvm, .due, .free] s (busRead ag inspect off s).2 := by
  unfold busRead
  dsimp only
  split
  exact .mono (winRead_only ..)
  dsimp only
  refine .ite ?_ ?_
  exact .refl _ _
  exact .mono (regEffect_only ..)

theorem busRead8_only (ag : Agent) (off : Nat) (s : State) :
    Only [.tur, .fl, .tmr, .rider, .hg, .link, .lg, .nvm, .due] s (busRead8 ag off s).2 := by
  unfold busRead8
  dsimp only
  exact regEffect_only ..

theorem forwardAccess_only (ag : Agent) (m : Nat) (off : Nat) (wr : Option U32) (strb : BitVec 4)
    (inspect : Bool) (s : State) : Only [.tur, .link] s (forwardAccess ag m off wr strb inspect s).1 := by
  unfold forwardAccess
  refine .iteFst ?_ ?_
  dsimp only
  refine .trans ?_ (hwSet_only ..)
  refine .upd ?_ (.inr rfl) (.inr rfl) (.inr rfl) (.inr rfl) (.inr rfl) (.inl rfl) (.inr rfl) (.inr rfl) (.inr rfl) (.inr rfl) (.inr rfl) (.inr rfl) (.inr rfl) (.inr rfl) (.inr rfl) (.inr rfl) (.inr rfl) (.inl rfl) (.inr rfl) (.inr rfl) (.inr rfl) (.inr rfl) (.inr rfl) (.inr rfl) (.inr rfl) (.inr rfl)
  exact .refl _ _
  refine .iteFst ?_ ?_
  dsimp only
  exact .refl _ _
  split
  dsimp only
  refine .trans ?_ (originate_only ..)
  refine .upd ?_ (.inr rfl) (.inr rfl) (.inr rfl) (.inr rfl) (.inr rfl) (.inl rfl) (.inr rfl) (.inr rfl) (.inr rfl) (.inr rfl) (.inr rfl) (.inr rfl) (.inr rfl) (.inr rfl) (.inr rfl) (.inr rfl) (.inr rfl) (.inl rfl) (.inr rfl) (.inr rfl) (.inr rfl) (.inr rfl) (.inr rfl) (.inr rfl) (.inr rfl) (.inr rfl)
  refine .snd ?_ (by assumption)
  exact .mono (nextMsg_only ..)

end Sys2Proof.Machine
end

