-- ==== Sys2Proof/Laws/OnlyIssue.lean ====
section
/-! SUPPORT. Every operation of Machine/Issue.lean changes only the parts that its lemma names. -/

namespace Sys2Proof.Machine

set_option Elab.async false

theorem retStatus_only (s : State) (n : Nat) : Only [.mem, .free] s (retStatus s n).2 := by
  unfold retStatus
  dsimp only
  split
  dsimp only
  exact .refl _ _
  split
  dsimp only
  exact loadData_only ..
  dsimp only
  exact .refl _ _

theorem counted_only (n : Nat) (isPrefix : Bool) (s : State) : Only [.seq] s (counted n isPrefix s) := by
  unfold counted
  dsimp only
  refine .trans ?_ (State.modThr_only ..)
  refine .upd ?_ (.inr rfl) (.inr rfl) (.inr rfl) (.inr rfl) (.inr rfl) (.inr rfl) (.inr rfl) (.inr rfl) (.inr rfl) (.inr rfl) (.inr rfl) (.inr rfl) (.inr rfl) (.inr rfl) (.inr rfl) (.inl rfl) (.inr rfl) (.inr rfl) (.inr rfl) (.inr rfl) (.inr rfl) (.inr rfl) (.inr rfl) (.inr rfl) (.inr rfl) (.inr rfl)
  exact .refl _ _

theorem stopIfAsked_only (n : Nat) (s : State) : Only [.tur, .wdog, .seq] s (stopIfAsked n s) := by
  unfold stopIfAsked
  dsimp only
  refine .ite ?_ ?_
  refine .trans ?_ (State.modThr_only ..)
  exact .mono (applyRet_only ..)
  exact .refl _ _

theorem finishWord_only (n : Nat) (isPrefix : Bool) (place : Ctx → Ctx) {ps : List Part} {f : State → State}
    (hf : ∀ s, Only ps s (f s)) (s : State) (hs : Part.within [.tur, .wdog, .seq, .free] ps = true := by rfl) :
    Only ps s (finishWord n isPrefix place f s) := by
  unfold finishWord
  dsimp only
  refine .trans ?_ (stopIfAsked_only ..) (Part.within_trans rfl hs)
  refine .trans ?_ (State.modCtx_only ..) (Part.within_trans rfl hs)
  refine .trans ?_ (State.modCtx_only ..) (Part.within_trans rfl hs)
  refine .trans ?_ (counted_only ..) (Part.within_trans rfl hs)
  refine .trans ?_ (State.modCtx_only ..) (Part.within_trans rfl hs)
  refine .of' ?_ (hf _)
  exact .trans (.refl _ _) (a := [.free]) ⟨fun p hp => by cases p <;> first | (cases hp; done) | rfl⟩
    (Part.within_trans rfl hs)

theorem parkLoad_only (n : Nat) (kind : LoadKind) (a : U32) (x : BitVec 5) (c : Ctx) (s : State) :
    Only [.seq] s (parkLoad n kind a x c s) := by
  unfold parkLoad
  exact .mono (State.modThr_only ..)

theorem loadOut_only (n : Nat) (o : Op) (s : State) : Only [.tur, .seq, .link] s (loadOut n o s) := by
  unfold loadOut
  dsimp only
  refine .ite ?_ ?_
  refine .trans ?_ (forwardAccess_only ..)
  refine .trans ?_ (State.modCtx_only ..)
  exact .mono (parkLoad_only ..)
  refine .trans ?_ (State.modCtx_only ..)
  exact .mono (parkLoad_only ..)

theorem holdActs_only (n : Nat) (s0 s : State) :
    Only [.seq, .due] s (holdActs n s0 s) := by
  unfold holdActs
  dsimp only
  refine .trans ?_ (State.modThr_only ..)
  refine .upd ?_ (.inr rfl) (.inr rfl) (.inr rfl) (.inr rfl) (.inr rfl) (.inr rfl) (.inr rfl) (.inr rfl) (.inr rfl) (.inr rfl) (.inr rfl) (.inr rfl) (.inr rfl) (.inr rfl) (.inr rfl) (.inl rfl) (.inr rfl) (.inr rfl) (.inr rfl) (.inr rfl) (.inr rfl) (.inr rfl) (.inr rfl) (.inl rfl) (.inr rfl) (.inr rfl)
  exact .refl _ _

theorem runOp_only (n : Nat) (o : Op) (s : State) : Only [.tur, .seq, .mem, .link, .due, .free] s (runOp n o s) := by
  unfold runOp
  refine .ite ?_ ?_
  exact .refl _ _
  dsimp only
  refine .ite ?_ ?_
  refine .trans ?_ (loadOut_only ..)
  refine .trans ?_ (holdActs_only ..)
  refine .ite ?_ ?_
  refine .trans ?_ (Op.moveEnd_only ..)
  refine .ite ?_ ?_
  refine .trans ?_ (Op.moveRow_only ..)
  exact .mono (Op.run_only ..)
  exact .mono (Op.run_only ..)
  refine .ite ?_ ?_
  refine .trans ?_ (Op.moveRow_only ..)
  exact .mono (Op.run_only ..)
  exact .mono (Op.run_only ..)
  refine .ite ?_ ?_
  refine .trans ?_ (Op.moveEnd_only ..)
  refine .ite ?_ ?_
  refine .trans ?_ (Op.moveRow_only ..)
  exact .mono (Op.run_only ..)
  exact .mono (Op.run_only ..)
  refine .ite ?_ ?_
  refine .trans ?_ (Op.moveRow_only ..)
  exact .mono (Op.run_only ..)
  exact .mono (Op.run_only ..)

theorem atomicResult_only (n : Nat) (dst : BitVec 5) (v : U32) (isLoad : Bool) (s : State) :
    Only [.seq] s (atomicResult n dst v isLoad s) := by
  unfold atomicResult
  dsimp only
  exact .mono (State.modCtx_only ..)

theorem scAnswer_only (n : Nat) (dst : BitVec 5) (fail : Bool) (s : State) :
    Only [.seq] s (scAnswer n dst fail s) := by
  unfold scAnswer
  dsimp only
  refine .trans ?_ (State.modCtx_only ..)
  exact .mono (atomicResult_only ..)

theorem runLr_only (n : Nat) (w : U32) (s0 : State) (s : State) : Only [.seq, .mem, .free] s (runLr n w s0 s) := by
  unfold runLr
  dsimp only
  refine .ite ?_ ?_
  refine .trans ?_ (atomicResult_only ..)
  refine .trans ?_ (State.modCtx_only ..)
  exact .mono (loadData_only ..)
  refine .trans ?_ (State.modCtx_only ..)
  exact .mono (parkLoad_only ..)

theorem runSc_only (n : Nat) (w : U32) (s0 : State) (s : State) : Only [.seq, .mem, .due] s (runSc n w s0 s) := by
  unfold runSc
  dsimp only
  refine .ite ?_ ?_
  refine .trans ?_ (scAnswer_only ..)
  exact .mono (State.modCtx_only ..)
  refine .ite ?_ ?_
  refine .trans ?_ (State.modCtx_only ..)
  refine .trans ?_ (scAnswer_only ..)
  refine .trans ?_ (postStore_only ..)
  exact .mono (State.modCtx_only ..)
  refine .trans ?_ (State.modCtx_only ..)
  refine .trans ?_ (parkLoad_only ..)
  exact .mono (State.modCtx_only ..)

theorem parkStack_only (slow : Bool) (n : Nat) (s : State) : Only [.seq] s (parkStack slow n s) := by
  unfold parkStack
  refine .ite ?_ ?_
  exact .mono (State.modThr_only ..)
  exact .refl _ _

theorem runControl_only (n : Nat) (w : U32) (s : State) :
    Only [.tur, .wdog, .seq, .mem, .due, .free] s (runControl n w s) := by
  unfold runControl
  dsimp only
  split
  refine .of' ?_ (finishWord_only _ _ _ (fun s => ?_) _)
  exact .refl _ _
  exact .refl _ _
  refine .ite ?_ ?_
  refine .of' ?_ (finishWord_only _ _ _ (fun s => ?_) _)
  exact .refl _ _
  refine .trans ?_ (parkStack_only ..)
  exact .mono (pushRet_only ..)
  refine .of' ?_ (finishWord_only _ _ _ (fun s => ?_) _)
  exact .refl _ _
  exact .refl _ _
  refine .ite ?_ ?_
  refine .of' ?_ (finishWord_only _ _ _ (fun s => ?_) _)
  exact .refl _ _
  exact .refl _ _
  refine .of' ?_ (finishWord_only _ _ _ (fun s => ?_) _)
  split
  exact .mono (retStatus_only ..)
  dsimp only
  exact .refl _ _
  refine .ite ?_ ?_
  exact .refl _ _
  refine .trans ?_ (parkStack_only ..)
  exact .mono (State.modCtx_only ..)
  refine .of' ?_ (finishWord_only _ _ _ (fun s => ?_) _)
  exact .refl _ _
  exact .refl _ _
  refine .of' ?_ (finishWord_only _ _ _ (fun s => ?_) _)
  exact .refl _ _
  exact .refl _ _
  refine .of' ?_ (finishWord_only _ _ _ (fun s => ?_) _)
  exact .refl _ _
  exact .mono (State.modCtx_only ..)
  refine .of' ?_ (finishWord_only _ _ _ (fun s => ?_) _)
  exact .refl _ _
  exact .mono (runLr_only ..)
  refine .of' ?_ (finishWord_only _ _ _ (fun s => ?_) _)
  exact .refl _ _
  exact .mono (runSc_only ..)
  refine .trans ?_ (State.modThr_only ..)
  refine .trans ?_ (takeEntry_only ..)
  refine .of' ?_ (finishWord_only _ _ _ (fun s => ?_) _)
  exact .refl _ _
  exact .refl _ _
  refine .of' ?_ (finishWord_only _ _ _ (fun s => ?_) _)
  exact .refl _ _
  exact .refl _ _
  refine .of' ?_ (finishWord_only _ _ _ (fun s => ?_) _)
  exact .refl _ _
  exact .mono (State.modThr_only ..)
  refine .of' ?_ (finishWord_only _ _ _ (fun s => ?_) _)
  exact .refl _ _
  exact .mono (State.modThr_only ..)
  exact .refl _ _

theorem takeStop_only (n : Nat) (st : Stop) (s : State) :
    Only [.tur, .wdog, .seq, .mem, .due] s (takeStop n st s) := by
  unfold takeStop
  split
  exact .mono (takeFault_only ..)
  exact .mono (enterMonitor_only ..)

theorem issue_only (n : Nat) (row : Option Nat) (s0 : State) :
    Only [.tur, .wdog, .seq, .mem, .link, .due, .free] s0 (issue n row s0) := by
  unfold issue
  refine .ite ?_ ?_
  exact .refl _ _
  dsimp only
  refine .ite ?_ ?_
  exact .refl _ _
  split
  refine .trans ?_ (takeStop_only ..)
  refine .of' ?_ (.foldl (fun s k => ?_) _ _)
  exact .mono (applyRet_only ..)
  exact .mono (raise_only ..)
  refine .ite ?_ ?_
  exact .refl _ _
  refine .ite ?_ ?_
  refine .of' ?_ (finishWord_only _ _ _ (fun s => ?_) _)
  refine .of' ?_ (.foldl (fun s k => ?_) _ _)
  exact .mono (applyRet_only ..)
  exact .mono (raise_only ..)
  exact .mono (runOp_only ..)
  refine .trans ?_ (runControl_only ..)
  refine .of' ?_ (.foldl (fun s k => ?_) _ _)
  exact .mono (applyRet_only ..)
  exact .mono (raise_only ..)

end Sys2Proof.Machine
end

