-- ==== Sys2Proof/Laws/OnlyLoads.lean ====
section
/-! SUPPORT. Every operation of Machine/Loads.lean changes only the parts that its lemma names. -/

namespace Sys2Proof.Machine

set_option Elab.async false

theorem unpark_only (n : Nat) (s : State) : Only [.seq, .due] s (unpark n s) := by
  unfold unpark
  refine .trans ?_ (State.modThr_only ..)
  refine .upd ?_ (.inr rfl) (.inr rfl) (.inr rfl) (.inr rfl) (.inr rfl) (.inr rfl) (.inr rfl) (.inr rfl) (.inr rfl) (.inr rfl) (.inr rfl) (.inr rfl) (.inr rfl) (.inr rfl) (.inr rfl) (.inl rfl) (.inr rfl) (.inr rfl) (.inr rfl) (.inr rfl) (.inr rfl) (.inr rfl) (.inr rfl) (.inl rfl) (.inr rfl) (.inr rfl)
  exact .refl _ _

theorem writeLoaded_only (n : Nat) (kind : LoadKind) (owing : Bool) (word : Nat) (vals : List (BitVec 5 × U32)) (s : State) :
    Only [.seq] s (writeLoaded n kind owing word vals s) := by
  unfold writeLoaded
  dsimp only
  exact .mono (State.modCtx_only ..)

theorem loadDone_only (n : Nat) (kind : LoadKind) (owing : Bool) (word : Nat) (vals : List (BitVec 5 × U32)) (s : State) :
    Only [.seq, .due] s (loadDone n kind owing word vals s) := by
  unfold loadDone
  dsimp only
  refine .ite ?_ ?_
  refine .trans ?_ (State.modThr_only ..)
  exact .mono (writeLoaded_only ..)
  refine .trans ?_ (unpark_only ..)
  exact .mono (writeLoaded_only ..)

theorem takeImprecise_only (n : Nat) (vec : BitVec 6) (p : Posted) (s : State) :
    Only [.tur, .wdog, .seq, .mem, .due] s (takeImprecise n vec p s) := by
  unfold takeImprecise
  dsimp only
  refine .trans ?_ (takeEntry_only ..)
  refine .trans ?_ (State.modThr_only ..)
  exact .mono (applyRet_only ..)

theorem loadFault_only (n : Nat) (owing : Bool) (vec : BitVec 6) (a : U32) (s : State) :
    Only [.tur, .wdog, .seq, .mem, .due] s (loadFault n owing vec a s) := by
  unfold loadFault
  refine .ite ?_ ?_
  exact .mono (State.modThr_only ..)
  dsimp only
  split
  refine .trans ?_ (takeImprecise_only ..)
  exact .mono (State.modThr_only ..)
  refine .trans ?_ (takeFault_only ..)
  exact .mono (State.modThr_only ..)

theorem ownLoad_only (n : Nat) (owing : Bool) (lsz : BitVec 3) (a : U32) (off : Nat) (x : BitVec 5)
    (word : Nat) (s : State) : Only [.tur, .wdog, .fl, .tmr, .rider, .hg, .seq, .mem, .link, .lg, .nvm, .due, .free] s (ownLoad n owing lsz a off x word s) := by
  unfold ownLoad
  dsimp only
  refine .ite ?_ ?_
  refine .trans ?_ (loadDone_only ..)
  exact .mono (busRead8_only ..)
  refine .ite ?_ ?_
  refine .trans ?_ (loadFault_only ..)
  exact .mono (busRead_only ..)
  refine .trans ?_ (loadDone_only ..)
  exact .mono (busRead_only ..)

theorem memberLoad_only (n : Nat) (owing : Bool) (a : U32) (m : Nat) (off : Nat) (s : State) :
    Only [.tur, .wdog, .seq, .mem, .link, .due] s (memberLoad n owing a m off s) := by
  unfold memberLoad
  refine .ite ?_ ?_
  exact .refl _ _
  dsimp only
  refine .ite ?_ ?_
  refine .trans ?_ (loadFault_only ..)
  exact .mono (forwardAccess_only ..)
  exact .mono (forwardAccess_only ..)

theorem regLoad_only (n : Nat) (owing : Bool) (lsz : BitVec 3) (a : U32) (x : BitVec 5) (word : Nat)
    (at_ : Nat) (s : State) : Only [.tur, .wdog, .fl, .tmr, .rider, .hg, .seq, .mem, .link, .lg, .nvm, .due, .free] s (regLoad n owing lsz a x word at_ s) := by
  unfold regLoad
  refine .ite ?_ ?_
  exact .refl _ _
  split
  refine .ite ?_ ?_
  exact ownLoad_only ..
  exact .refl _ _
  exact .mono (memberLoad_only ..)
  exact .mono (loadDone_only ..)

theorem nvmLoad_only (n : Nat) (owing : Bool) (lsz : BitVec 3) (a : U32) (x : BitVec 5) (word : Nat)
    (s : State) : Only [.tur, .wdog, .seq, .mem, .nvm, .due, .free] s (nvmLoad n owing lsz a x word s) := by
  unfold nvmLoad
  dsimp only
  refine .ite ?_ ?_
  exact .refl _ _
  refine .ite ?_ ?_
  refine .trans ?_ (loadFault_only ..)
  exact .mono (readLogical_only ..)
  refine .trans ?_ (loadDone_only ..)
  exact .mono (readLogical_only ..)

theorem hostAnswer_only (n : Nat) (owing : Bool) (kind : LoadKind) (a : U32) (x : BitVec 5) (word : Nat)
    (at_ : Nat) (resp : LoadResp) (s : State) : Only [.tur, .wdog, .seq, .mem, .due] s (hostAnswer n owing kind a x word at_ resp s) := by
  unfold hostAnswer
  dsimp only
  split
  refine .trans ?_ (loadFault_only ..)
  refine .ite ?_ ?_
  exact .refl _ _
  exact .mono (State.modThr_only ..)
  refine .trans ?_ (loadFault_only ..)
  refine .ite ?_ ?_
  exact .refl _ _
  exact .mono (State.modThr_only ..)
  split
  refine .trans ?_ (State.modCtx_only ..)
  refine .trans ?_ (loadDone_only ..)
  refine .ite ?_ ?_
  exact .refl _ _
  exact .mono (State.modThr_only ..)
  refine .trans ?_ (loadDone_only ..)
  refine .ite ?_ ?_
  exact .refl _ _
  exact .mono (State.modThr_only ..)
  split
  refine .trans ?_ (loadDone_only ..)
  refine .ite ?_ ?_
  exact .refl _ _
  exact .mono (State.modThr_only ..)
  refine .ite ?_ ?_
  refine .trans ?_ (loadDone_only ..)
  refine .ite ?_ ?_
  exact .refl _ _
  exact .mono (State.modThr_only ..)
  refine .trans ?_ (State.modCtx_only ..)
  refine .trans ?_ (loadDone_only ..)
  refine .ite ?_ ?_
  exact .refl _ _
  exact .mono (State.modThr_only ..)
  refine .trans ?_ (State.modCtx_only ..)
  refine .trans ?_ (loadDone_only ..)
  refine .trans ?_ (dropResv_only ..)
  refine .trans ?_ (hostWrite_only ..)
  refine .ite ?_ ?_
  exact .refl _ _
  exact .mono (State.modThr_only ..)

theorem loadReturn_only (n : Nat) (resp : LoadResp) (s : State) :
    Only [.tur, .wdog, .fl, .tmr, .rider, .hg, .seq, .mem, .link, .lg, .nvm, .due, .free] s (loadReturn n resp s) := by
  unfold loadReturn
  split
  exact .refl _ _
  split
  exact regLoad_only ..
  exact .mono (nvmLoad_only ..)
  refine .ite ?_ ?_
  exact .mono (memberLoad_only ..)
  exact .refl _ _
  exact .mono (hostAnswer_only ..)
  exact .refl _ _

theorem storeError_only (n : Nat) (addr : U32) (s : State) : Only [.seq] s (storeError n addr s) := by
  unfold storeError
  dsimp only
  split
  exact .refl _ _
  exact .mono (State.modThr_only ..)

theorem fenceComplete_only (n : Nat) (s : State) : Only [.seq] s (fenceComplete n s) := by
  unfold fenceComplete
  split
  refine .ite ?_ ?_
  exact .mono (State.modThr_only ..)
  exact .refl _ _
  exact .refl _ _

theorem reservationExpiry_only (n : Nat) (s : State) : Only [.seq] s (reservationExpiry n s) := by
  unfold reservationExpiry
  exact .mono (State.modCtx_only ..)

theorem endWait_only (n : Nat) (timeout : Bool) (s : State) : Only [.seq] s (endWait n timeout s) := by
  unfold endWait
  exact .mono (State.modThr_only ..)

theorem waitEnd_only (n : Nat) (s : State) : Only [.seq, .free] s (waitEnd n s) := by
  unfold waitEnd
  split
  refine .ite ?_ ?_
  refine .trans ?_ (endWait_only ..)
  refine .upd ?_ (.inr rfl) (.inr rfl) (.inr rfl) (.inr rfl) (.inr rfl) (.inr rfl) (.inr rfl) (.inr rfl) (.inr rfl) (.inr rfl) (.inr rfl) (.inr rfl) (.inr rfl) (.inr rfl) (.inr rfl) (.inl rfl) (.inr rfl) (.inr rfl) (.inr rfl) (.inr rfl) (.inr rfl) (.inr rfl) (.inr rfl) (.inr rfl) (.inr rfl) (.inl rfl)
  exact .refl _ _
  exact .refl _ _
  exact .refl _ _

theorem waitTimeout_only (n : Nat) (s : State) : Only [.seq] s (waitTimeout n s) := by
  unfold waitTimeout
  split
  split
  refine .ite ?_ ?_
  exact .mono (endWait_only ..)
  exact .refl _ _
  exact .refl _ _
  exact .refl _ _

theorem exceptionEntry_only (n : Nat) (s : State) :
    Only [.tur, .wdog, .seq, .mem, .link, .due, .free] s (exceptionEntry n s) := by
  unfold exceptionEntry
  split
  refine .ite ?_ ?_
  exact .mono (enterSpillway_only ..)
  exact .refl _ _
  split
  refine .ite ?_ ?_
  exact .mono (takeImprecise_only ..)
  exact .mono (issue_only ..)
  exact .mono (issue_only ..)

theorem eventDispatch_only (n : Nat) (s : State) : Only [.tur, .wdog, .seq, .mem, .due] s (eventDispatch n s) := by
  unfold eventDispatch
  split
  exact .refl _ _
  dsimp only
  refine .ite ?_ ?_
  exact .refl _ _
  refine .trans ?_ (dispatchClaim_only ..)
  refine .trans ?_ (takeEntry_only ..)
  exact .mono (applyRet_only ..)

end Sys2Proof.Machine
end

