-- ==== Sys2Proof/Laws/OnlyCommands.lean ====
section
/-! SUPPORT. Every operation of Machine/Commands.lean changes only the parts that its lemma names. -/

namespace Sys2Proof.Machine

set_option Elab.async false

theorem clearSlot_only (k : Slot) (s : State) : Only [.hg] s (clearSlot k s) := by
  unfold clearSlot
  split
  refine .upd ?_ (.inr rfl) (.inr rfl) (.inr rfl) (.inr rfl) (.inr rfl) (.inr rfl) (.inr rfl) (.inr rfl) (.inr rfl) (.inr rfl) (.inr rfl) (.inr rfl) (.inr rfl) (.inr rfl) (.inl rfl) (.inr rfl) (.inr rfl) (.inr rfl) (.inr rfl) (.inr rfl) (.inr rfl) (.inr rfl) (.inr rfl) (.inr rfl) (.inr rfl) (.inr rfl)
  exact .refl _ _
  refine .upd ?_ (.inr rfl) (.inr rfl) (.inr rfl) (.inr rfl) (.inr rfl) (.inr rfl) (.inr rfl) (.inr rfl) (.inr rfl) (.inr rfl) (.inr rfl) (.inr rfl) (.inr rfl) (.inr rfl) (.inl rfl) (.inr rfl) (.inr rfl) (.inr rfl) (.inr rfl) (.inr rfl) (.inr rfl) (.inr rfl) (.inr rfl) (.inr rfl) (.inr rfl) (.inr rfl)
  exact .refl _ _

theorem done_only (c : CmdSlot) (status : Byte) (result : U64) (s : State) :
    Only [.hg] s (done c status result s) := by
  unfold done
  exact .mono (setStage_only ..)

theorem doneDetail_only (c : CmdSlot) (status : Byte) (detail : Nat) (s : State) :
    Only [.hg] s (doneDetail c status detail s) := by
  unfold doneDetail
  exact .mono (setStage_only ..)

theorem forwardCmd_only (c : CmdSlot) (s : State) : Only [.tur, .hg, .link] s (forwardCmd c s) := by
  unfold forwardCmd
  dsimp only
  refine .ite ?_ ?_
  exact .mono (done_only ..)
  refine .trans ?_ (setStage_only ..)
  refine .trans ?_ (originate_only ..)
  exact .mono (nextMsg_only ..)

theorem runCmd_only (op : Nat) (k : Slot) (masks : BitVec 512 → List U32) (bad : BitVec 512 → List Bool)
    {ps : List Part} {f again : CmdSlot → State → State} (hf : ∀ c s, Only ps s (f c s))
    (ha : ∀ c s, Only ps s (again c s)) (s : State) (hs : Part.within [.tur, .hg, .link] ps = true := by rfl) :
    Only ps s (runCmd op k masks bad f again s) := by
  unfold runCmd
  split
  · exact .refl _ _
  · refine .ite (.refl _ _) ?_
    split
    · refine .ite (.refl _ _) ?_
      refine .ite (.trans (.refl _ _) (forwardCmd_only ..) (Part.within_trans rfl hs)) ?_
      split
      · exact .trans (.refl _ _) (doneDetail_only ..) (Part.within_trans rfl hs)
      · exact .ite (.refl _ _) (hf _ _)
    · exact ha _ _
    · exact .refl _ _

theorem runShort_only (op : Nat) (k : Slot) (masks : BitVec 512 → List U32) (bad : BitVec 512 → List Bool)
    {ps : List Part} {f : CmdSlot → State → State} (hf : ∀ c s, Only ps s (f c s)) (s : State)
    (hs : Part.within [.tur, .hg, .link] ps = true := by rfl) : Only ps s (runShort op k masks bad f s) :=
  runCmd_only op k masks bad hf (fun _ s => .refl _ s) s hs

theorem finishSlot_only (k : Slot) (c : CmdSlot) (status : Byte) (detail : U16) (result : U64) (s : State) :
    Only [.tur, .hg, .mem, .link] s (finishSlot k c status detail result s) := by
  unfold finishSlot
  dsimp only
  refine .trans ?_ (hgUpdate_only ..)
  refine .trans ?_ (clearSlot_only ..)
  refine .ite ?_ ?_
  exact .refl _ _
  split
  exact .mono (writeCompletion_only ..)
  exact .mono (sendResp_only ..)

theorem submissionFetch_only (entry : BitVec 512) (s : State) : Only [.tur, .hg] s (submissionFetch entry s) := by
  unfold submissionFetch
  split
  exact .refl _ _
  refine .ite ?_ ?_
  exact .refl _ _
  dsimp only
  refine .trans ?_ (hgUpdate_only ..)
  refine .upd ?_ (.inr rfl) (.inr rfl) (.inr rfl) (.inr rfl) (.inr rfl) (.inl rfl) (.inr rfl) (.inr rfl) (.inr rfl) (.inr rfl) (.inr rfl) (.inr rfl) (.inr rfl) (.inr rfl) (.inl rfl) (.inr rfl) (.inr rfl) (.inr rfl) (.inr rfl) (.inr rfl) (.inr rfl) (.inr rfl) (.inr rfl) (.inr rfl) (.inr rfl) (.inr rfl)
  refine .trans ?_ (dirty_only ..)
  exact .mono (setRing_only ..)

theorem completionWrite_only (k : Slot) (s : State) : Only [.tur, .hg, .mem, .link] s (completionWrite k s) := by
  unfold completionWrite
  split
  exact .refl _ _
  split
  refine .ite ?_ ?_
  exact .mono (finishSlot_only ..)
  exact .refl _ _
  exact .refl _ _

theorem loadFails_only (c : CmdSlot) (status : Byte) (n : Nat) (s : State) :
    Only [.hg, .seq] s (loadFails c status n s) := by
  unfold loadFails
  refine .trans ?_ (done_only ..)
  refine .upd ?_ (.inr rfl) (.inr rfl) (.inr rfl) (.inr rfl) (.inr rfl) (.inr rfl) (.inr rfl) (.inr rfl) (.inr rfl) (.inr rfl) (.inr rfl) (.inr rfl) (.inr rfl) (.inr rfl) (.inl rfl) (.inl rfl) (.inr rfl) (.inr rfl) (.inr rfl) (.inr rfl) (.inr rfl) (.inr rfl) (.inr rfl) (.inr rfl) (.inr rfl) (.inr rfl)
  exact .refl _ _

theorem secondPass_only (c : CmdSlot) (l1 : List Byte) (pass2 : HostRead) (s : State) :
    Only [.tur, .gate, .shut, .rider, .hg, .seq, .mem, .link, .lg, .nvm, .free] s (secondPass c l1 pass2 s) := by
  unfold secondPass
  dsimp only
  split
  refine .trans ?_ (loadFails_only ..)
  refine .trans ?_ (applyImage_only ..)
  exact .mono (drawFree_only ..)
  refine .ite ?_ ?_
  refine .trans ?_ (loadFails_only ..)
  exact .mono (applyImage_only ..)
  refine .ite ?_ ?_
  refine .trans ?_ (pump_only ..)
  refine .trans ?_ (addJob_only ..)
  refine .trans ?_ (setStage_only ..)
  refine .upd ?_ (.inr rfl) (.inr rfl) (.inr rfl) (.inr rfl) (.inr rfl) (.inl rfl) (.inl rfl) (.inl rfl) (.inr rfl) (.inr rfl) (.inr rfl) (.inr rfl) (.inl rfl) (.inr rfl) (.inl rfl) (.inl rfl) (.inl rfl) (.inl rfl) (.inl rfl) (.inl rfl) (.inr rfl) (.inr rfl) (.inr rfl) (.inr rfl) (.inr rfl) (.inl rfl)
  exact .mono (applyImage_only ..)
  refine .trans ?_ (imageDone_only ..)
  refine .upd ?_ (.inr rfl) (.inr rfl) (.inr rfl) (.inr rfl) (.inr rfl) (.inl rfl) (.inl rfl) (.inl rfl) (.inr rfl) (.inr rfl) (.inr rfl) (.inr rfl) (.inl rfl) (.inr rfl) (.inl rfl) (.inl rfl) (.inl rfl) (.inl rfl) (.inl rfl) (.inl rfl) (.inr rfl) (.inr rfl) (.inr rfl) (.inr rfl) (.inr rfl) (.inl rfl)
  exact .mono (applyImage_only ..)

theorem imageLoad_only (pass1 : HostRead) (pass2 : HostRead) (c : CmdSlot) (s : State) :
    Only [.tur, .gate, .shut, .rider, .hg, .seq, .mem, .link, .lg, .nvm, .free] s (imageLoad pass1 pass2 c s) := by
  unfold imageLoad
  dsimp only
  refine .ite ?_ ?_
  exact .mono (done_only ..)
  refine .ite ?_ ?_
  exact .mono (done_only ..)
  split
  exact .mono (done_only ..)
  split
  exact .mono (doneDetail_only ..)
  refine .ite ?_ ?_
  exact .mono (doneDetail_only ..)
  exact .mono (secondPass_only ..)

theorem imageActivate_only (c : CmdSlot) (s : State) :
    Only [.tur, .hg, .seq, .mem, .lg, .nvm, .free] s (imageActivate c s) := by
  unfold imageActivate
  dsimp only
  refine .ite ?_ ?_
  exact .mono (done_only ..)
  refine .ite ?_ ?_
  exact .mono (done_only ..)
  refine .trans ?_ (done_only ..)
  split
  refine .trans ?_ (pump_only ..)
  refine .trans ?_ (addOption_only ..)
  refine .of' ?_ (.foldl (fun s k => ?_) _ _)
  refine .upd ?_ (.inr rfl) (.inr rfl) (.inr rfl) (.inr rfl) (.inr rfl) (.inl rfl) (.inr rfl) (.inr rfl) (.inr rfl) (.inr rfl) (.inr rfl) (.inr rfl) (.inr rfl) (.inr rfl) (.inl rfl) (.inl rfl) (.inl rfl) (.inr rfl) (.inl rfl) (.inl rfl) (.inr rfl) (.inr rfl) (.inr rfl) (.inr rfl) (.inr rfl) (.inl rfl)
  exact .refl _ _
  refine .ite ?_ ?_
  exact .mono (startThread_only ..)
  exact .refl _ _
  refine .of' ?_ (.foldl (fun s k => ?_) _ _)
  refine .upd ?_ (.inr rfl) (.inr rfl) (.inr rfl) (.inr rfl) (.inr rfl) (.inl rfl) (.inr rfl) (.inr rfl) (.inr rfl) (.inr rfl) (.inr rfl) (.inr rfl) (.inr rfl) (.inr rfl) (.inl rfl) (.inl rfl) (.inl rfl) (.inr rfl) (.inl rfl) (.inl rfl) (.inr rfl) (.inr rfl) (.inr rfl) (.inr rfl) (.inr rfl) (.inl rfl)
  exact .refl _ _
  refine .ite ?_ ?_
  exact .mono (startThread_only ..)
  exact .refl _ _

theorem patchApply_only (patch : HostRead) (c : CmdSlot) (s : State) :
    Only [.hg, .seq, .mem] s (patchApply patch c s) := by
  unfold patchApply
  split
  exact .mono (done_only ..)
  dsimp only
  refine .ite ?_ ?_
  exact .mono (done_only ..)
  refine .ite ?_ ?_
  exact .mono (done_only ..)
  refine .trans ?_ (done_only ..)
  refine .upd ?_ (.inr rfl) (.inr rfl) (.inr rfl) (.inr rfl) (.inr rfl) (.inr rfl) (.inr rfl) (.inr rfl) (.inr rfl) (.inr rfl) (.inr rfl) (.inr rfl) (.inr rfl) (.inr rfl) (.inl rfl) (.inl rfl) (.inl rfl) (.inr rfl) (.inr rfl) (.inr rfl) (.inr rfl) (.inr rfl) (.inr rfl) (.inr rfl) (.inr rfl) (.inr rfl)
  exact .mono (putMicro_only ..)

theorem threadStart_only (c : CmdSlot) (s : State) : Only [.hg, .seq] s (threadStart c s) := by
  unfold threadStart
  dsimp only
  refine .ite ?_ ?_
  exact .mono (done_only ..)
  refine .trans ?_ (done_only ..)
  exact .mono (startThread_only ..)

theorem threadStopOn_only (c : CmdSlot) (s : State) : Only [.tur, .wdog, .hg, .seq] s (threadStopOn c s) := by
  unfold threadStopOn
  dsimp only
  split
  refine .ite ?_ ?_
  refine .trans ?_ (done_only ..)
  refine .of' ?_ (.each (fun s k => ?_) _ _)
  exact .refl _ _
  refine .ite ?_ ?_
  exact .mono (stopIfAsked_only ..)
  exact .refl _ _
  refine .of' ?_ (.each (fun s k => ?_) _ _)
  exact .refl _ _
  refine .ite ?_ ?_
  exact .mono (stopIfAsked_only ..)
  exact .refl _ _
  refine .of' ?_ (.each (fun s k => ?_) _ _)
  exact .refl _ _
  refine .ite ?_ ?_
  exact .mono (stopIfAsked_only ..)
  exact .refl _ _

theorem threadStop_only (c : CmdSlot) (s : State) : Only [.tur, .wdog, .hg, .seq] s (threadStop c s) := by
  unfold threadStop
  dsimp only
  refine .trans ?_ (threadStopOn_only ..)
  refine .trans ?_ (setStage_only ..)
  refine .of' ?_ (.each (fun s k => ?_) _ _)
  exact .refl _ _
  refine .ite ?_ ?_
  exact .mono (State.modThr_only ..)
  exact .refl _ _

theorem threadReset_only (c : CmdSlot) (s : State) : Only [.tur, .wdog, .hg, .seq, .due] s (threadReset c s) := by
  unfold threadReset
  dsimp only
  refine .trans ?_ (done_only ..)
  refine .of' ?_ (.each (fun s k => ?_) _ _)
  exact .refl _ _
  refine .ite ?_ ?_
  exact .mono (resetThread_only ..)
  exact .refl _ _

theorem coefCommand_only (c : CmdSlot) (s : State) : Only [.tur, .fl, .hg, .due] s (coefCommand c s) := by
  unfold coefCommand
  dsimp only
  refine .ite ?_ ?_
  refine .trans ?_ (done_only ..)
  exact .mono (withBoundary_only ..)
  refine .trans ?_ (done_only ..)
  refine .ite ?_ ?_
  refine .trans ?_ (sealBank_only ..)
  refine .of' ?_ (.foldl (fun s k => ?_) _ _)
  exact .mono (withBoundary_only ..)
  exact .mono (writePend_only ..)
  refine .of' ?_ (.foldl (fun s k => ?_) _ _)
  exact .mono (withBoundary_only ..)
  exact .mono (writePend_only ..)

theorem setpointCommand_only (c : CmdSlot) (s : State) : Only [.hg, .seq, .mem] s (setpointCommand c s) := by
  unfold setpointCommand
  dsimp only
  refine .ite ?_ ?_
  exact .mono (done_only ..)
  split
  refine .trans ?_ (done_only ..)
  exact .mono (storeData_only ..)
  refine .trans ?_ (done_only ..)
  refine .ite ?_ ?_
  refine .upd ?_ (.inr rfl) (.inr rfl) (.inr rfl) (.inr rfl) (.inr rfl) (.inr rfl) (.inr rfl) (.inr rfl) (.inr rfl) (.inr rfl) (.inr rfl) (.inr rfl) (.inr rfl) (.inr rfl) (.inl rfl) (.inl rfl) (.inl rfl) (.inr rfl) (.inr rfl) (.inr rfl) (.inr rfl) (.inr rfl) (.inr rfl) (.inr rfl) (.inr rfl) (.inr rfl)
  exact .mono (storeData_only ..)
  exact .mono (storeData_only ..)

theorem armOne_only (e : BitVec 512) (s : State) (nk : Nat × Nat) :
    Only [.tur, .fl, .tmr, .due] s (armOne e s nk) := by
  unfold armOne
  dsimp only
  refine .ite ?_ ?_
  exact .refl _ _
  refine .trans ?_ (writeFlCtl_only ..)
  refine .trans ?_ (writeFlReg_only ..)
  exact .mono (writeFlReg_only ..)

theorem armCommand_only (c : CmdSlot) (s : State) : Only [.tur, .fl, .tmr, .hg, .due] s (armCommand c s) := by
  unfold armCommand
  refine .ite ?_ ?_
  exact .mono (done_only ..)
  dsimp only
  refine .trans ?_ (done_only ..)
  refine .of' ?_ (.foldl (fun s k => ?_) _ _)
  exact .refl _ _
  exact .mono (armOne_only ..)

theorem disarmCommand_only (c : CmdSlot) (s : State) : Only [.out, .fl, .tmr, .hg, .due] s (disarmCommand c s) := by
  unfold disarmCommand
  dsimp only
  refine .trans ?_ (done_only ..)
  refine .ite ?_ ?_
  refine .of' ?_ (.foldl (fun s k => ?_) _ _)
  refine .of' ?_ (.foldl (fun s k => ?_) _ _)
  exact .refl _ _
  exact .mono (disarm_only ..)
  refine .ite ?_ ?_
  exact .mono (flushOut_only ..)
  exact .refl _ _
  refine .of' ?_ (.foldl (fun s k => ?_) _ _)
  exact .refl _ _
  exact .mono (disarm_only ..)

theorem rearmCommand_only (c : CmdSlot) (s : State) : Only [.tur, .gate, .shut, .hg] s (rearmCommand c s) := by
  unfold rearmCommand
  refine .ite ?_ ?_
  exact .mono (done_only ..)
  dsimp only
  refine .ite ?_ ?_
  refine .trans ?_ (setStage_only ..)
  exact .mono (rearm_only ..)
  refine .trans ?_ (done_only ..)
  exact .mono (rearm_only ..)

theorem rearmOn_only (c : CmdSlot) (s : State) : Only [.hg] s (rearmOn c s) := by
  unfold rearmOn
  refine .ite ?_ ?_
  exact .mono (done_only ..)
  refine .ite ?_ ?_
  exact .mono (done_only ..)
  exact .refl _ _

theorem linkEnum_only (c : CmdSlot) (s : State) : Only [.tur, .hg, .link] s (linkEnum c s) := by
  unfold linkEnum
  dsimp only
  refine .ite ?_ ?_
  exact .mono (done_only ..)
  refine .ite ?_ ?_
  exact .mono (done_only ..)
  refine .trans ?_ (finishEnum_only ..)
  refine .trans ?_ (setStage_only ..)
  refine .upd ?_ (.inr rfl) (.inr rfl) (.inr rfl) (.inr rfl) (.inr rfl) (.inl rfl) (.inr rfl) (.inr rfl) (.inr rfl) (.inr rfl) (.inr rfl) (.inr rfl) (.inr rfl) (.inr rfl) (.inl rfl) (.inr rfl) (.inr rfl) (.inl rfl) (.inr rfl) (.inr rfl) (.inr rfl) (.inr rfl) (.inr rfl) (.inr rfl) (.inr rfl) (.inr rfl)
  exact .refl _ _

theorem linkRole_only (c : CmdSlot) (s : State) :
    Only [.tur, .hg, .seq, .mem, .link, .lg, .nvm, .free] s (linkRole c s) := by
  unfold linkRole
  dsimp only
  refine .ite ?_ ?_
  exact .mono (done_only ..)
  refine .trans ?_ (done_only ..)
  refine .ite ?_ ?_
  refine .trans ?_ (pump_only ..)
  refine .trans ?_ (addOption_only ..)
  refine .upd ?_ (.inr rfl) (.inr rfl) (.inr rfl) (.inr rfl) (.inr rfl) (.inl rfl) (.inr rfl) (.inr rfl) (.inr rfl) (.inr rfl) (.inr rfl) (.inr rfl) (.inr rfl) (.inr rfl) (.inl rfl) (.inl rfl) (.inl rfl) (.inl rfl) (.inl rfl) (.inl rfl) (.inr rfl) (.inr rfl) (.inr rfl) (.inr rfl) (.inr rfl) (.inl rfl)
  exact .refl _ _
  refine .upd ?_ (.inr rfl) (.inr rfl) (.inr rfl) (.inr rfl) (.inr rfl) (.inl rfl) (.inr rfl) (.inr rfl) (.inr rfl) (.inr rfl) (.inr rfl) (.inr rfl) (.inr rfl) (.inr rfl) (.inl rfl) (.inl rfl) (.inl rfl) (.inl rfl) (.inl rfl) (.inl rfl) (.inr rfl) (.inr rfl) (.inr rfl) (.inr rfl) (.inr rfl) (.inl rfl)
  exact .refl _ _

theorem linkSend_only (payload : HostRead) (c : CmdSlot) (s : State) :
    Only [.tur, .hg, .link] s (linkSend payload c s) := by
  unfold linkSend
  dsimp only
  refine .ite ?_ ?_
  exact .mono (done_only ..)
  split
  exact .mono (done_only ..)
  refine .ite ?_ ?_
  refine .trans ?_ (done_only ..)
  refine .ite ?_ ?_
  refine .trans ?_ (originate_only ..)
  refine .trans ?_ (originate_only ..)
  refine .trans ?_ (setStage_only ..)
  exact .mono (nextMsg_only ..)
  refine .trans ?_ (originate_only ..)
  refine .trans ?_ (setStage_only ..)
  exact .mono (nextMsg_only ..)
  refine .ite ?_ ?_
  refine .trans ?_ (originate_only ..)
  refine .trans ?_ (originate_only ..)
  refine .trans ?_ (setStage_only ..)
  exact .mono (nextMsg_only ..)
  refine .trans ?_ (originate_only ..)
  refine .trans ?_ (setStage_only ..)
  exact .mono (nextMsg_only ..)

theorem ledgerRead_only (err : Bool) (c : CmdSlot) (s : State) :
    Only [.hg, .mem] s (ledgerRead err c s) := by
  unfold ledgerRead
  dsimp only
  refine .ite ?_ ?_
  exact .mono (done_only ..)
  refine .trans ?_ (done_only ..)
  exact .mono (hostWrite_only ..)

theorem ledgerBindCommand_only (c : CmdSlot) (s : State) :
    Only [.tur, .hg, .mem, .lg, .free] s (ledgerBindCommand c s) := by
  unfold ledgerBindCommand
  dsimp only
  refine .trans ?_ (done_only ..)
  exact .mono (ledgerBind_only ..)

theorem nvmErase_only (c : CmdSlot) (s : State) :
    Only [.tur, .hg, .seq, .mem, .lg, .nvm, .free] s (nvmErase c s) := by
  unfold nvmErase
  dsimp only
  refine .ite ?_ ?_
  exact .mono (doneDetail_only ..)
  refine .ite ?_ ?_
  refine .trans ?_ (done_only ..)
  exact .mono (refuseProtected_only ..)
  refine .trans ?_ (pump_only ..)
  refine .trans ?_ (addJob_only ..)
  exact .mono (setStage_only ..)

theorem nvmProgram_only (src : HostRead) (c : CmdSlot) (s : State) :
    Only [.tur, .hg, .seq, .mem, .lg, .nvm, .free] s (nvmProgram src c s) := by
  unfold nvmProgram
  dsimp only
  refine .ite ?_ ?_
  exact .mono (doneDetail_only ..)
  refine .ite ?_ ?_
  refine .trans ?_ (done_only ..)
  exact .mono (refuseProtected_only ..)
  split
  exact .mono (done_only ..)
  refine .trans ?_ (pump_only ..)
  refine .trans ?_ (addJob_only ..)
  exact .mono (setStage_only ..)

theorem nvmRead_only (err : Bool) (c : CmdSlot) (s : State) :
    Only [.tur, .hg, .mem, .nvm, .free] s (nvmRead err c s) := by
  unfold nvmRead
  dsimp only
  refine .ite ?_ ?_
  exact .mono (doneDetail_only ..)
  refine .ite ?_ ?_
  exact .refl _ _
  refine .ite ?_ ?_
  refine .trans ?_ (done_only ..)
  exact .mono (readUnits_only ..)
  refine .trans ?_ (setStage_only ..)
  refine .trans ?_ (hostWrite_only ..)
  exact .mono (readUnits_only ..)

theorem abortLong_only (s : State) :
    Only [.tur, .hg, .seq, .mem, .link, .lg, .nvm, .bist, .free] s (abortLong s) := by
  unfold abortLong
  dsimp only
  refine .trans ?_ (pump_only ..)
  refine .of' ?_ (.foldl (fun s k => ?_) _ _)
  refine .upd ?_ (.inr rfl) (.inr rfl) (.inr rfl) (.inr rfl) (.inr rfl) (.inl rfl) (.inr rfl) (.inr rfl) (.inr rfl) (.inr rfl) (.inr rfl) (.inr rfl) (.inr rfl) (.inr rfl) (.inl rfl) (.inl rfl) (.inl rfl) (.inl rfl) (.inl rfl) (.inl rfl) (.inr rfl) (.inr rfl) (.inl rfl) (.inr rfl) (.inr rfl) (.inl rfl)
  refine .of' ?_ (.foldl (fun s k => ?_) _ _)
  refine .of' ?_ (.foldl (fun s k => ?_) _ _)
  refine .upd ?_ (.inr rfl) (.inr rfl) (.inr rfl) (.inr rfl) (.inr rfl) (.inl rfl) (.inr rfl) (.inr rfl) (.inr rfl) (.inr rfl) (.inr rfl) (.inr rfl) (.inr rfl) (.inr rfl) (.inl rfl) (.inl rfl) (.inl rfl) (.inl rfl) (.inl rfl) (.inl rfl) (.inr rfl) (.inr rfl) (.inl rfl) (.inr rfl) (.inr rfl) (.inl rfl)
  exact .refl _ _
  split
  exact .refl _ _
  exact .mono (done_only ..)
  exact .mono (done_only ..)
  split
  exact .mono (cmdDone_only ..)
  exact .refl _ _
  split
  exact .mono (finishSlot_only ..)
  exact .refl _ _

theorem powerOnward_only (k : Slot) (c : CmdSlot) (s : State) :
    Only [.clk, .ports, .out, .tur, .wdog, .fl, .tmr, .gp, .rider, .hg, .mem, .link, .pwr, .due] s (powerOnward k c s) := by
  unfold powerOnward
  refine .ite ?_ ?_
  refine .trans ?_ (enterSleep_only ..)
  exact .mono (finishSlot_only ..)
  exact .refl _ _

theorem powerState_only (k : Slot) (c : CmdSlot) (s : State) :
    Only [.clk, .ports, .out, .tur, .wdog, .fl, .tmr, .gp, .rider, .cul, .hg, .seq, .mem, .link, .lg, .nvm, .pwr, .bist, .due, .free] s (powerState k c s) := by
  unfold powerState
  dsimp only
  split
  exact .mono (done_only ..)
  refine .trans ?_ (enterDoze_only ..)
  refine .trans ?_ (finishSlot_only ..)
  refine .upd ?_ (.inr rfl) (.inl rfl) (.inl rfl) (.inl rfl) (.inr rfl) (.inl rfl) (.inr rfl) (.inr rfl) (.inl rfl) (.inl rfl) (.inl rfl) (.inl rfl) (.inl rfl) (.inl rfl) (.inl rfl) (.inl rfl) (.inl rfl) (.inl rfl) (.inl rfl) (.inl rfl) (.inl rfl) (.inr rfl) (.inl rfl) (.inl rfl) (.inr rfl) (.inl rfl)
  exact .refl _ _
  refine .ite ?_ ?_
  exact .mono (done_only ..)
  refine .trans ?_ (powerOnward_only ..)
  refine .trans ?_ (setStage_only ..)
  refine .trans ?_ (pauseCulvert_only ..)
  refine .trans ?_ (lgTrigger_only ..)
  refine .trans ?_ (abortLong_only ..)
  refine .upd ?_ (.inr rfl) (.inl rfl) (.inl rfl) (.inl rfl) (.inr rfl) (.inl rfl) (.inr rfl) (.inr rfl) (.inl rfl) (.inl rfl) (.inl rfl) (.inl rfl) (.inl rfl) (.inl rfl) (.inl rfl) (.inl rfl) (.inl rfl) (.inl rfl) (.inl rfl) (.inl rfl) (.inl rfl) (.inr rfl) (.inl rfl) (.inl rfl) (.inr rfl) (.inl rfl)
  exact .refl _ _

end Sys2Proof.Machine
end

