-- ==== Sys2Proof/Laws/OnlyBist.lean ====
section
/-! SUPPORT. Every operation of Machine/Bist.lean changes only the parts that its lemma names. -/

namespace Sys2Proof.Machine

set_option Elab.async false

theorem enterSafe15_only (s : State) :
    Only [.seq] s (enterSafe15 s) := by
  unfold enterSafe15
  refine .trans ?_ (State.modThr_only ..)
  exact bootThread_only ..

theorem bistEnter_only (s : State) :
    Only [.clk, .ports, .out, .tur, .wdog, .fl, .tmr, .gp, .rider, .hg, .seq, .link, .pwr, .bist, .due] s (bistEnter s) := by
  unfold bistEnter
  dsimp only
  refine .upd ?_ (.inr rfl) (.inl rfl) (.inl rfl) (.inl rfl) (.inr rfl) (.inl rfl) (.inr rfl) (.inr rfl) (.inl rfl) (.inl rfl) (.inl rfl) (.inl rfl) (.inl rfl) (.inr rfl) (.inl rfl) (.inl rfl) (.inr rfl) (.inl rfl) (.inr rfl) (.inr rfl) (.inl rfl) (.inr rfl) (.inl rfl) (.inl rfl) (.inr rfl) (.inr rfl)
  refine .trans ?_ (idleLanes_only ..)
  refine .trans ?_ (holdPads_only ..)
  exact .mono (enterSafe15_only ..)

theorem bistOnward_only (s : State) :
    Only [.clk, .ports, .out, .tur, .wdog, .fl, .tmr, .gp, .rider, .hg, .seq, .link, .pwr, .bist, .due] s (bistOnward s) := by
  unfold bistOnward
  refine .ite ?_ ?_
  exact bistEnter_only ..
  exact .refl _ _

theorem bistBegin_only (logic : Bool) (memory : Bool) (s : State) :
    Only [.clk, .ports, .out, .tur, .wdog, .fl, .tmr, .gp, .rider, .cul, .hg, .seq, .link, .lg, .pwr, .bist, .due] s (bistBegin logic memory s) := by
  unfold bistBegin
  refine .trans ?_ (bistOnward_only ..)
  refine .trans ?_ (pauseCulvert_only ..)
  refine .trans ?_ (lgTrigger_only ..)
  refine .upd ?_ (.inr rfl) (.inl rfl) (.inl rfl) (.inl rfl) (.inr rfl) (.inl rfl) (.inr rfl) (.inr rfl) (.inl rfl) (.inl rfl) (.inl rfl) (.inl rfl) (.inl rfl) (.inl rfl) (.inl rfl) (.inl rfl) (.inr rfl) (.inl rfl) (.inl rfl) (.inr rfl) (.inl rfl) (.inr rfl) (.inl rfl) (.inl rfl) (.inr rfl) (.inr rfl)
  exact .refl _ _

theorem bistRun_only (k : Slot) (c : CmdSlot) (s : State) :
    Only [.clk, .ports, .out, .tur, .wdog, .fl, .tmr, .gp, .rider, .cul, .hg, .seq, .mem, .link, .lg, .nvm, .pwr, .bist, .due, .free] s (bistRun k c s) := by
  unfold bistRun
  refine .ite ?_ ?_
  exact .mono (done_only ..)
  dsimp only
  refine .trans ?_ (bistBegin_only ..)
  split
  refine .upd ?_ (.inr rfl) (.inl rfl) (.inl rfl) (.inl rfl) (.inr rfl) (.inl rfl) (.inr rfl) (.inr rfl) (.inl rfl) (.inl rfl) (.inl rfl) (.inl rfl) (.inl rfl) (.inl rfl) (.inl rfl) (.inl rfl) (.inl rfl) (.inl rfl) (.inl rfl) (.inl rfl) (.inl rfl) (.inr rfl) (.inl rfl) (.inl rfl) (.inr rfl) (.inl rfl)
  refine .trans ?_ (abortLong_only ..)
  exact .mono (clearSlot_only ..)
  refine .upd ?_ (.inr rfl) (.inl rfl) (.inl rfl) (.inl rfl) (.inr rfl) (.inl rfl) (.inr rfl) (.inr rfl) (.inl rfl) (.inl rfl) (.inl rfl) (.inl rfl) (.inl rfl) (.inl rfl) (.inl rfl) (.inl rfl) (.inl rfl) (.inl rfl) (.inl rfl) (.inl rfl) (.inl rfl) (.inr rfl) (.inl rfl) (.inl rfl) (.inr rfl) (.inl rfl)
  refine .trans ?_ (abortLong_only ..)
  exact .mono (clearSlot_only ..)

theorem bistByDebugger_only (v : U32) (s : State) :
    Only [.clk, .ports, .out, .tur, .wdog, .fl, .tmr, .gp, .rider, .cul, .hg, .seq, .mem, .link, .lg, .nvm, .pwr, .bist, .due, .free] s (bistByDebugger v s) := by
  unfold bistByDebugger
  refine .ite ?_ ?_
  exact .refl _ _
  refine .ite ?_ ?_
  dsimp only
  refine .ite ?_ ?_
  refine .trans ?_ (hwSet_only ..)
  refine .upd ?_ (.inr rfl) (.inl rfl) (.inl rfl) (.inl rfl) (.inr rfl) (.inl rfl) (.inr rfl) (.inr rfl) (.inl rfl) (.inl rfl) (.inl rfl) (.inl rfl) (.inl rfl) (.inl rfl) (.inl rfl) (.inl rfl) (.inl rfl) (.inl rfl) (.inl rfl) (.inl rfl) (.inl rfl) (.inr rfl) (.inl rfl) (.inl rfl) (.inr rfl) (.inl rfl)
  exact .refl _ _
  refine .trans ?_ (raise_only ..)
  refine .trans ?_ (hwSet_only ..)
  refine .upd ?_ (.inr rfl) (.inl rfl) (.inl rfl) (.inl rfl) (.inr rfl) (.inl rfl) (.inr rfl) (.inr rfl) (.inl rfl) (.inl rfl) (.inl rfl) (.inl rfl) (.inl rfl) (.inl rfl) (.inl rfl) (.inl rfl) (.inl rfl) (.inl rfl) (.inl rfl) (.inl rfl) (.inl rfl) (.inr rfl) (.inl rfl) (.inl rfl) (.inr rfl) (.inl rfl)
  exact .refl _ _
  refine .trans ?_ (bistBegin_only ..)
  exact .mono (abortLong_only ..)

theorem bistOver_only (time : Byte) (s : State) : Only [.bist] s (bistOver time s) := by
  unfold bistOver
  refine .upd ?_ (.inr rfl) (.inr rfl) (.inr rfl) (.inr rfl) (.inr rfl) (.inr rfl) (.inr rfl) (.inr rfl) (.inr rfl) (.inr rfl) (.inr rfl) (.inr rfl) (.inr rfl) (.inr rfl) (.inr rfl) (.inr rfl) (.inr rfl) (.inr rfl) (.inr rfl) (.inr rfl) (.inr rfl) (.inr rfl) (.inl rfl) (.inr rfl) (.inr rfl) (.inr rfl)
  exact .refl _ _

theorem logicDone_only (misr : U64) (s : State) : Only [.bist, .free] s (logicDone misr s) := by
  unfold logicDone
  refine .ite ?_ ?_
  exact .refl _ _
  dsimp only
  refine .ite ?_ ?_
  refine .upd ?_ (.inr rfl) (.inr rfl) (.inr rfl) (.inr rfl) (.inr rfl) (.inr rfl) (.inr rfl) (.inr rfl) (.inr rfl) (.inr rfl) (.inr rfl) (.inr rfl) (.inr rfl) (.inr rfl) (.inr rfl) (.inr rfl) (.inr rfl) (.inr rfl) (.inr rfl) (.inr rfl) (.inr rfl) (.inr rfl) (.inl rfl) (.inr rfl) (.inr rfl) (.inl rfl)
  exact .refl _ _
  refine .trans ?_ (bistOver_only ..)
  refine .trans ?_ (drawFree_only ..)
  refine .upd ?_ (.inr rfl) (.inr rfl) (.inr rfl) (.inr rfl) (.inr rfl) (.inr rfl) (.inr rfl) (.inr rfl) (.inr rfl) (.inr rfl) (.inr rfl) (.inr rfl) (.inr rfl) (.inr rfl) (.inr rfl) (.inr rfl) (.inr rfl) (.inr rfl) (.inr rfl) (.inr rfl) (.inr rfl) (.inr rfl) (.inl rfl) (.inr rfl) (.inr rfl) (.inl rfl)
  exact .refl _ _

theorem memoryDone_only (misr : U64) (mfail : Byte) (ms : Byte) (s : State) :
    Only [.bist] s (memoryDone misr mfail ms s) := by
  unfold memoryDone
  refine .ite ?_ ?_
  exact .refl _ _
  dsimp only
  refine .trans ?_ (bistOver_only ..)
  refine .upd ?_ (.inr rfl) (.inr rfl) (.inr rfl) (.inr rfl) (.inr rfl) (.inr rfl) (.inr rfl) (.inr rfl) (.inr rfl) (.inr rfl) (.inr rfl) (.inr rfl) (.inr rfl) (.inr rfl) (.inr rfl) (.inr rfl) (.inr rfl) (.inr rfl) (.inr rfl) (.inr rfl) (.inr rfl) (.inr rfl) (.inl rfl) (.inr rfl) (.inr rfl) (.inr rfl)
  exact .refl _ _

theorem postBist_only (s : State) :
    Only [.clk, .ports, .out, .outcal, .tur, .gate, .shut, .wdog, .fl, .tmr, .gp, .rider, .cul, .hg, .seq, .mem, .link, .lg, .nvm, .pwr, .dbg, .bist, .due, .free] s (postBist s) := by
  unfold postBist
  refine .ite ?_ ?_
  exact .refl _ _
  dsimp only
  refine .ite ?_ ?_
  refine .trans ?_ (debugReset_only ..)
  refine .upd ?_ (.inr rfl) (.inl rfl) (.inl rfl) (.inl rfl) (.inl rfl) (.inl rfl) (.inl rfl) (.inl rfl) (.inl rfl) (.inl rfl) (.inl rfl) (.inl rfl) (.inl rfl) (.inl rfl) (.inl rfl) (.inl rfl) (.inl rfl) (.inl rfl) (.inl rfl) (.inl rfl) (.inl rfl) (.inl rfl) (.inl rfl) (.inl rfl) (.inr rfl) (.inl rfl)
  refine .trans ?_ (coldReset_only ..)
  exact .mono (dropDebugAccess_only ..)
  refine .upd ?_ (.inr rfl) (.inl rfl) (.inl rfl) (.inl rfl) (.inl rfl) (.inl rfl) (.inl rfl) (.inl rfl) (.inl rfl) (.inl rfl) (.inl rfl) (.inl rfl) (.inl rfl) (.inl rfl) (.inl rfl) (.inl rfl) (.inl rfl) (.inl rfl) (.inl rfl) (.inl rfl) (.inl rfl) (.inl rfl) (.inl rfl) (.inl rfl) (.inr rfl) (.inl rfl)
  refine .trans ?_ (coldReset_only ..)
  exact .mono (dropDebugAccess_only ..)

theorem bistReply_only (s : State) : Only [.tur, .hg, .link, .bist] s (bistReply s) := by
  unfold bistReply
  dsimp only
  split
  exact .refl _ _
  refine .ite ?_ ?_
  refine .trans ?_ (originate_only ..)
  exact .mono (bistPaid_only ..)
  exact .refl _ _

end Sys2Proof.Machine
end

