-- ==== Sys2Proof/Laws/OnlyDebug.lean ====
section
/-! SUPPORT. Every operation of Machine/Debug.lean changes only the parts that its lemma names. -/

namespace Sys2Proof.Machine

set_option Elab.async false

theorem respond_only (status : BitVec 4) (data : U32) (s : State) : Only [.dbg] s (respond status data s) := by
  unfold respond
  refine .upd ?_ (.inr rfl) (.inr rfl) (.inr rfl) (.inr rfl) (.inr rfl) (.inr rfl) (.inr rfl) (.inr rfl) (.inr rfl) (.inr rfl) (.inr rfl) (.inr rfl) (.inr rfl) (.inr rfl) (.inr rfl) (.inr rfl) (.inr rfl) (.inr rfl) (.inr rfl) (.inr rfl) (.inr rfl) (.inl rfl) (.inr rfl) (.inr rfl) (.inr rfl) (.inr rfl)
  exact .refl _ _

theorem raiseOn_only (src : Nat) (s : State) : Only [.tur] s (raiseOn src s) := by
  unfold raiseOn
  refine .ite ?_ ?_
  exact .refl _ _
  exact .mono (raise_only ..)

theorem setLevel_only (l : BitVec 2) (s : State) : Only [.tur, .wdog, .seq, .dbg] s (setLevel l s) := by
  unfold setLevel
  dsimp only
  refine .ite ?_ ?_
  exact .refl _ _
  refine .ite ?_ ?_
  refine .of' ?_ (.each (fun s k => ?_) _ _)
  refine .upd ?_ (.inr rfl) (.inr rfl) (.inr rfl) (.inr rfl) (.inr rfl) (.inl rfl) (.inr rfl) (.inr rfl) (.inl rfl) (.inr rfl) (.inr rfl) (.inr rfl) (.inr rfl) (.inr rfl) (.inr rfl) (.inl rfl) (.inr rfl) (.inr rfl) (.inr rfl) (.inr rfl) (.inr rfl) (.inl rfl) (.inr rfl) (.inr rfl) (.inr rfl) (.inr rfl)
  refine .trans ?_ (raiseOn_only ..)
  refine .upd ?_ (.inr rfl) (.inr rfl) (.inr rfl) (.inr rfl) (.inr rfl) (.inl rfl) (.inr rfl) (.inr rfl) (.inl rfl) (.inr rfl) (.inr rfl) (.inr rfl) (.inr rfl) (.inr rfl) (.inr rfl) (.inl rfl) (.inr rfl) (.inr rfl) (.inr rfl) (.inr rfl) (.inr rfl) (.inl rfl) (.inr rfl) (.inr rfl) (.inr rfl) (.inr rfl)
  exact .refl _ _
  exact .mono (releaseMonitor_only ..)
  refine .trans ?_ (raiseOn_only ..)
  refine .upd ?_ (.inr rfl) (.inr rfl) (.inr rfl) (.inr rfl) (.inr rfl) (.inl rfl) (.inr rfl) (.inr rfl) (.inl rfl) (.inr rfl) (.inr rfl) (.inr rfl) (.inr rfl) (.inr rfl) (.inr rfl) (.inl rfl) (.inr rfl) (.inr rfl) (.inr rfl) (.inr rfl) (.inr rfl) (.inl rfl) (.inr rfl) (.inr rfl) (.inr rfl) (.inr rfl)
  exact .refl _ _

theorem debugPolicy_only (c : CmdSlot) (s : State) : Only [.tur, .wdog, .hg, .seq, .dbg] s (debugPolicy c s) := by
  unfold debugPolicy
  dsimp only
  refine .ite ?_ ?_
  exact .mono (done_only ..)
  refine .trans ?_ (done_only ..)
  refine .ite ?_ ?_
  refine .trans ?_ (setLevel_only ..)
  refine .trans ?_ (raiseIf_only ..)
  refine .upd ?_ (.inr rfl) (.inr rfl) (.inr rfl) (.inr rfl) (.inr rfl) (.inl rfl) (.inr rfl) (.inr rfl) (.inl rfl) (.inr rfl) (.inr rfl) (.inr rfl) (.inr rfl) (.inr rfl) (.inl rfl) (.inl rfl) (.inr rfl) (.inr rfl) (.inr rfl) (.inr rfl) (.inr rfl) (.inl rfl) (.inr rfl) (.inr rfl) (.inr rfl) (.inr rfl)
  exact .refl _ _
  refine .trans ?_ (raiseIf_only ..)
  refine .upd ?_ (.inr rfl) (.inr rfl) (.inr rfl) (.inr rfl) (.inr rfl) (.inl rfl) (.inr rfl) (.inr rfl) (.inl rfl) (.inr rfl) (.inr rfl) (.inr rfl) (.inr rfl) (.inr rfl) (.inl rfl) (.inl rfl) (.inr rfl) (.inr rfl) (.inr rfl) (.inr rfl) (.inr rfl) (.inl rfl) (.inr rfl) (.inr rfl) (.inr rfl) (.inr rfl)
  exact .refl _ _

theorem challenge_only (l : BitVec 2) (noise : U32) (s : State) : Only [.dbg] s (challenge l noise s) := by
  unfold challenge
  dsimp only
  refine .ite ?_ ?_
  exact .refl _ _
  refine .ite ?_ ?_
  refine .upd ?_ (.inr rfl) (.inr rfl) (.inr rfl) (.inr rfl) (.inr rfl) (.inr rfl) (.inr rfl) (.inr rfl) (.inr rfl) (.inr rfl) (.inr rfl) (.inr rfl) (.inr rfl) (.inr rfl) (.inr rfl) (.inr rfl) (.inr rfl) (.inr rfl) (.inr rfl) (.inr rfl) (.inr rfl) (.inl rfl) (.inr rfl) (.inr rfl) (.inr rfl) (.inr rfl)
  exact .refl _ _
  refine .upd ?_ (.inr rfl) (.inr rfl) (.inr rfl) (.inr rfl) (.inr rfl) (.inr rfl) (.inr rfl) (.inr rfl) (.inr rfl) (.inr rfl) (.inr rfl) (.inr rfl) (.inr rfl) (.inr rfl) (.inr rfl) (.inr rfl) (.inr rfl) (.inr rfl) (.inr rfl) (.inr rfl) (.inr rfl) (.inl rfl) (.inr rfl) (.inr rfl) (.inr rfl) (.inr rfl)
  exact .refl _ _

theorem checkTag_only (s : State) : Only [.tur, .wdog, .seq, .dbg] s (checkTag s) := by
  unfold checkTag
  dsimp only
  refine .ite ?_ ?_
  refine .trans ?_ (setLevel_only ..)
  refine .upd ?_ (.inr rfl) (.inr rfl) (.inr rfl) (.inr rfl) (.inr rfl) (.inl rfl) (.inr rfl) (.inr rfl) (.inl rfl) (.inr rfl) (.inr rfl) (.inr rfl) (.inr rfl) (.inr rfl) (.inr rfl) (.inl rfl) (.inr rfl) (.inr rfl) (.inr rfl) (.inr rfl) (.inr rfl) (.inl rfl) (.inr rfl) (.inr rfl) (.inr rfl) (.inr rfl)
  exact .refl _ _
  refine .trans ?_ (raiseOn_only ..)
  refine .upd ?_ (.inr rfl) (.inr rfl) (.inr rfl) (.inr rfl) (.inr rfl) (.inl rfl) (.inr rfl) (.inr rfl) (.inl rfl) (.inr rfl) (.inr rfl) (.inr rfl) (.inr rfl) (.inr rfl) (.inr rfl) (.inl rfl) (.inr rfl) (.inr rfl) (.inr rfl) (.inr rfl) (.inr rfl) (.inl rfl) (.inr rfl) (.inr rfl) (.inr rfl) (.inr rfl)
  exact .refl _ _

theorem writeDauth_only (v : U32) (noise : U32) (s : State) :
    Only [.tur, .wdog, .seq, .dbg] s (writeDauth v noise s) := by
  unfold writeDauth
  dsimp only
  refine .ite ?_ ?_
  refine .trans ?_ (challenge_only ..)
  refine .ite ?_ ?_
  refine .trans ?_ (checkTag_only ..)
  refine .ite ?_ ?_
  exact .mono (setLevel_only ..)
  exact .refl _ _
  refine .ite ?_ ?_
  exact .mono (setLevel_only ..)
  exact .refl _ _
  refine .ite ?_ ?_
  refine .trans ?_ (checkTag_only ..)
  refine .ite ?_ ?_
  exact .mono (setLevel_only ..)
  exact .refl _ _
  refine .ite ?_ ?_
  exact .mono (setLevel_only ..)
  exact .refl _ _

theorem dbFail_only (cause : BitVec 3) (s : State) : Only [.tur, .dbg] s (dbFail cause s) := by
  unfold dbFail
  dsimp only
  refine .ite ?_ ?_
  refine .trans ?_ (respond_only ..)
  refine .trans ?_ (raiseOn_only ..)
  refine .upd ?_ (.inr rfl) (.inr rfl) (.inr rfl) (.inr rfl) (.inr rfl) (.inl rfl) (.inr rfl) (.inr rfl) (.inr rfl) (.inr rfl) (.inr rfl) (.inr rfl) (.inr rfl) (.inr rfl) (.inr rfl) (.inr rfl) (.inr rfl) (.inr rfl) (.inr rfl) (.inr rfl) (.inr rfl) (.inl rfl) (.inr rfl) (.inr rfl) (.inr rfl) (.inr rfl)
  exact .refl _ _
  refine .trans ?_ (raiseOn_only ..)
  refine .upd ?_ (.inr rfl) (.inr rfl) (.inr rfl) (.inr rfl) (.inr rfl) (.inl rfl) (.inr rfl) (.inr rfl) (.inr rfl) (.inr rfl) (.inr rfl) (.inr rfl) (.inr rfl) (.inr rfl) (.inr rfl) (.inr rfl) (.inr rfl) (.inr rfl) (.inr rfl) (.inr rfl) (.inr rfl) (.inl rfl) (.inr rfl) (.inr rfl) (.inr rfl) (.inr rfl)
  exact .refl _ _

theorem dbDone_only (v : U32) (s : State) : Only [.dbg] s (dbDone v s) := by
  unfold dbDone
  dsimp only
  refine .ite ?_ ?_
  refine .trans ?_ (respond_only ..)
  refine .upd ?_ (.inr rfl) (.inr rfl) (.inr rfl) (.inr rfl) (.inr rfl) (.inr rfl) (.inr rfl) (.inr rfl) (.inr rfl) (.inr rfl) (.inr rfl) (.inr rfl) (.inr rfl) (.inr rfl) (.inr rfl) (.inr rfl) (.inr rfl) (.inr rfl) (.inr rfl) (.inr rfl) (.inr rfl) (.inl rfl) (.inr rfl) (.inr rfl) (.inr rfl) (.inr rfl)
  exact .refl _ _
  refine .upd ?_ (.inr rfl) (.inr rfl) (.inr rfl) (.inr rfl) (.inr rfl) (.inr rfl) (.inr rfl) (.inr rfl) (.inr rfl) (.inr rfl) (.inr rfl) (.inr rfl) (.inr rfl) (.inr rfl) (.inr rfl) (.inr rfl) (.inr rfl) (.inr rfl) (.inr rfl) (.inr rfl) (.inr rfl) (.inl rfl) (.inr rfl) (.inr rfl) (.inr rfl) (.inr rfl)
  exact .refl _ _

theorem dbRegister_only (off : Nat) (wr : Option U32) (s : State) :
    Only [.ports, .out, .outcal, .tur, .gate, .shut, .wdog, .fl, .tmr, .rider, .cul, .hg, .seq, .mem, .link, .lg, .nvm, .pwr, .dbg, .bist, .due, .free] s (dbRegister off wr s) := by
  unfold dbRegister
  split
  split
  refine .ite ?_ ?_
  refine .trans ?_ (dbFail_only ..)
  refine .snd ?_ (by assumption)
  exact .mono (busRead_only ..)
  refine .trans ?_ (dbDone_only ..)
  refine .snd ?_ (by assumption)
  exact .mono (busRead_only ..)
  dsimp only
  refine .ite ?_ ?_
  refine .trans ?_ (dbFail_only ..)
  exact .mono (busWrite_only ..)
  refine .trans ?_ (dbDone_only ..)
  exact .mono (busWrite_only ..)

theorem dbData_only (a : Nat) (n : Nat) (wr : Option U32) (s : State) :
    Only [.tur, .seq, .mem, .dbg, .free] s (dbData a n wr s) := by
  unfold dbData
  split
  refine .ite ?_ ?_
  exact .mono (dbFail_only ..)
  split
  refine .trans ?_ (dbDone_only ..)
  refine .snd ?_ (by assumption)
  exact .mono (seenData_only ..)
  refine .ite ?_ ?_
  exact .mono (dbFail_only ..)
  refine .trans ?_ (dbDone_only ..)
  exact .mono (storeRow_only ..)

theorem dbHost_only (a : U48) (n : Nat) (wr : Option U32) (resp : LoadResp) (s : State) :
    Only [.tur, .seq, .mem, .dbg] s (dbHost a n wr resp s) := by
  unfold dbHost
  split
  exact .mono (dbFail_only ..)
  exact .mono (dbFail_only ..)
  exact .mono (dbDone_only ..)
  exact .mono (dbDone_only ..)
  refine .trans ?_ (dbDone_only ..)
  exact .mono (storeHost_only ..)

theorem dbMember_only (m : Nat) (off : Nat) (wr : Option U32) (s : State) :
    Only [.tur, .link, .dbg] s (dbMember m off wr s) := by
  unfold dbMember
  refine .ite ?_ ?_
  exact .refl _ _
  dsimp only
  refine .ite ?_ ?_
  refine .trans ?_ (dbFail_only ..)
  exact .mono (forwardAccess_only ..)
  exact .mono (forwardAccess_only ..)

theorem dbWindow_only (off : Nat) (wr : Option U32) (s : State) :
    Only [.ports, .out, .outcal, .tur, .gate, .shut, .wdog, .fl, .tmr, .rider, .cul, .hg, .seq, .mem, .link, .lg, .nvm, .pwr, .dbg, .bist, .due, .free] s (dbWindow off wr s) := by
  unfold dbWindow
  split
  exact .mono (dbRegister_only ..)
  exact .mono (dbMember_only ..)
  exact .mono (dbDone_only ..)

theorem dbStore_only (a : U32) (nano : Bool) (wr : Option U32) (s : State) :
    Only [.tur, .mem, .dbg] s (dbStore a nano wr s) := by
  unfold dbStore
  dsimp only
  split
  refine .ite ?_ ?_
  exact .mono (dbFail_only ..)
  exact .mono (dbDone_only ..)
  refine .trans ?_ (dbDone_only ..)
  exact .mono (winMicro_only ..)
  refine .ite ?_ ?_
  exact .mono (dbFail_only ..)
  exact .mono (dbDone_only ..)
  refine .trans ?_ (dbDone_only ..)
  exact .mono (stageNano_only ..)

theorem dbComplete_only (resp : LoadResp) (s : State) :
    Only [.ports, .out, .outcal, .tur, .gate, .shut, .wdog, .fl, .tmr, .rider, .cul, .hg, .seq, .mem, .link, .lg, .nvm, .pwr, .dbg, .bist, .due, .free] s (dbComplete resp s) := by
  unfold dbComplete
  split
  exact .refl _ _
  split
  exact .mono (dbFail_only ..)
  dsimp only
  split
  split
  exact .mono (dbData_only ..)
  exact .mono (dbWindow_only ..)
  exact .mono (dbMember_only ..)
  refine .ite ?_ ?_
  exact .refl _ _
  refine .ite ?_ ?_
  refine .trans ?_ (dbFail_only ..)
  exact .mono (readLogical_only ..)
  refine .trans ?_ (dbDone_only ..)
  exact .mono (readLogical_only ..)
  exact .mono (dbHost_only ..)
  exact .refl _ _
  exact .mono (dbHost_only ..)
  exact .mono (dbStore_only ..)
  exact .mono (dbStore_only ..)

theorem readDbdata_only (s : State) : Only [.dbg] s (readDbdata s) := by
  unfold readDbdata
  dsimp only
  refine .ite ?_ ?_
  exact .mono (respond_only ..)
  refine .ite ?_ ?_
  exact .mono (respond_only ..)
  refine .ite ?_ ?_
  refine .trans ?_ (respond_only ..)
  refine .upd ?_ (.inr rfl) (.inr rfl) (.inr rfl) (.inr rfl) (.inr rfl) (.inr rfl) (.inr rfl) (.inr rfl) (.inr rfl) (.inr rfl) (.inr rfl) (.inr rfl) (.inr rfl) (.inr rfl) (.inr rfl) (.inr rfl) (.inr rfl) (.inr rfl) (.inr rfl) (.inr rfl) (.inr rfl) (.inl rfl) (.inr rfl) (.inr rfl) (.inr rfl) (.inr rfl)
  exact .refl _ _
  refine .ite ?_ ?_
  exact .mono (respond_only ..)
  refine .upd ?_ (.inr rfl) (.inr rfl) (.inr rfl) (.inr rfl) (.inr rfl) (.inr rfl) (.inr rfl) (.inr rfl) (.inr rfl) (.inr rfl) (.inr rfl) (.inr rfl) (.inr rfl) (.inr rfl) (.inr rfl) (.inr rfl) (.inr rfl) (.inr rfl) (.inr rfl) (.inr rfl) (.inr rfl) (.inl rfl) (.inr rfl) (.inr rfl) (.inr rfl) (.inr rfl)
  refine .trans ?_ (respond_only ..)
  refine .upd ?_ (.inr rfl) (.inr rfl) (.inr rfl) (.inr rfl) (.inr rfl) (.inr rfl) (.inr rfl) (.inr rfl) (.inr rfl) (.inr rfl) (.inr rfl) (.inr rfl) (.inr rfl) (.inr rfl) (.inr rfl) (.inr rfl) (.inr rfl) (.inr rfl) (.inr rfl) (.inr rfl) (.inr rfl) (.inl rfl) (.inr rfl) (.inr rfl) (.inr rfl) (.inr rfl)
  exact .refl _ _

theorem writeDbdata_only (v : U32) (s : State) : Only [.dbg] s (writeDbdata v s) := by
  unfold writeDbdata
  dsimp only
  refine .ite ?_ ?_
  exact .mono (respond_only ..)
  refine .ite ?_ ?_
  exact .mono (respond_only ..)
  refine .ite ?_ ?_
  exact .mono (respond_only ..)
  refine .trans ?_ (respond_only ..)
  refine .upd ?_ (.inr rfl) (.inr rfl) (.inr rfl) (.inr rfl) (.inr rfl) (.inr rfl) (.inr rfl) (.inr rfl) (.inr rfl) (.inr rfl) (.inr rfl) (.inr rfl) (.inr rfl) (.inr rfl) (.inr rfl) (.inr rfl) (.inr rfl) (.inr rfl) (.inr rfl) (.inr rfl) (.inr rfl) (.inl rfl) (.inr rfl) (.inr rfl) (.inr rfl) (.inr rfl)
  exact .refl _ _

theorem serveResume_only (n : Nat) (s : State) :
    Only [.tur, .wdog, .seq] s (serveResume n s) := by
  unfold serveResume
  refine .ite ?_ ?_
  exact returnMonitor_only ..
  exact .refl _ _

theorem writeDthr_only (n : Nat) (v : U32) (s : State) : Only [.tur, .wdog, .seq] s (writeDthr n v s) := by
  unfold writeDthr
  refine .trans ?_ (serveResume_only ..)
  exact .mono (State.modThr_only ..)

theorem writeSaved_only (n : Nat) (stat : Bool) (v : U32) (s : State) : Only [.seq] s (writeSaved n stat v s) := by
  unfold writeSaved
  dsimp only
  refine .ite ?_ ?_
  exact .refl _ _
  exact .mono (State.modThr_only ..)

theorem freezeBegin_only (s : State) : Only [.tur, .dbg] s (freezeBegin s) := by
  unfold freezeBegin
  refine .ite ?_ ?_
  refine .trans ?_ (raise_only ..)
  refine .upd ?_ (.inr rfl) (.inr rfl) (.inr rfl) (.inr rfl) (.inr rfl) (.inl rfl) (.inr rfl) (.inr rfl) (.inr rfl) (.inr rfl) (.inr rfl) (.inr rfl) (.inr rfl) (.inr rfl) (.inr rfl) (.inr rfl) (.inr rfl) (.inr rfl) (.inr rfl) (.inr rfl) (.inr rfl) (.inl rfl) (.inr rfl) (.inr rfl) (.inr rfl) (.inr rfl)
  exact .refl _ _
  exact .refl _ _

theorem thaw_only (s : State) : Only [.out, .tur, .tmr, .rider, .dbg] s (thaw s) := by
  unfold thaw
  refine .ite ?_ ?_
  dsimp only
  refine .ite ?_ ?_
  refine .trans ?_ (setatThaw_only ..)
  refine .ite ?_ ?_
  refine .upd ?_ (.inr rfl) (.inr rfl) (.inr rfl) (.inl rfl) (.inr rfl) (.inl rfl) (.inr rfl) (.inr rfl) (.inr rfl) (.inr rfl) (.inl rfl) (.inr rfl) (.inl rfl) (.inr rfl) (.inr rfl) (.inr rfl) (.inr rfl) (.inr rfl) (.inr rfl) (.inr rfl) (.inr rfl) (.inl rfl) (.inr rfl) (.inr rfl) (.inr rfl) (.inr rfl)
  refine .trans ?_ (raise_only ..)
  refine .upd ?_ (.inr rfl) (.inr rfl) (.inr rfl) (.inl rfl) (.inr rfl) (.inl rfl) (.inr rfl) (.inr rfl) (.inr rfl) (.inr rfl) (.inl rfl) (.inr rfl) (.inl rfl) (.inr rfl) (.inr rfl) (.inr rfl) (.inr rfl) (.inr rfl) (.inr rfl) (.inr rfl) (.inr rfl) (.inl rfl) (.inr rfl) (.inr rfl) (.inr rfl) (.inr rfl)
  exact .refl _ _
  refine .trans ?_ (raise_only ..)
  refine .upd ?_ (.inr rfl) (.inr rfl) (.inr rfl) (.inl rfl) (.inr rfl) (.inl rfl) (.inr rfl) (.inr rfl) (.inr rfl) (.inr rfl) (.inl rfl) (.inr rfl) (.inl rfl) (.inr rfl) (.inr rfl) (.inr rfl) (.inr rfl) (.inr rfl) (.inr rfl) (.inr rfl) (.inr rfl) (.inl rfl) (.inr rfl) (.inr rfl) (.inr rfl) (.inr rfl)
  exact .refl _ _
  refine .ite ?_ ?_
  refine .upd ?_ (.inr rfl) (.inr rfl) (.inr rfl) (.inl rfl) (.inr rfl) (.inl rfl) (.inr rfl) (.inr rfl) (.inr rfl) (.inr rfl) (.inl rfl) (.inr rfl) (.inl rfl) (.inr rfl) (.inr rfl) (.inr rfl) (.inr rfl) (.inr rfl) (.inr rfl) (.inr rfl) (.inr rfl) (.inl rfl) (.inr rfl) (.inr rfl) (.inr rfl) (.inr rfl)
  refine .trans ?_ (raise_only ..)
  refine .upd ?_ (.inr rfl) (.inr rfl) (.inr rfl) (.inl rfl) (.inr rfl) (.inl rfl) (.inr rfl) (.inr rfl) (.inr rfl) (.inr rfl) (.inl rfl) (.inr rfl) (.inl rfl) (.inr rfl) (.inr rfl) (.inr rfl) (.inr rfl) (.inr rfl) (.inr rfl) (.inr rfl) (.inr rfl) (.inl rfl) (.inr rfl) (.inr rfl) (.inr rfl) (.inr rfl)
  exact .refl _ _
  refine .trans ?_ (raise_only ..)
  refine .upd ?_ (.inr rfl) (.inr rfl) (.inr rfl) (.inl rfl) (.inr rfl) (.inl rfl) (.inr rfl) (.inr rfl) (.inr rfl) (.inr rfl) (.inl rfl) (.inr rfl) (.inl rfl) (.inr rfl) (.inr rfl) (.inr rfl) (.inr rfl) (.inr rfl) (.inr rfl) (.inr rfl) (.inr rfl) (.inl rfl) (.inr rfl) (.inr rfl) (.inr rfl) (.inr rfl)
  exact .refl _ _
  exact .refl _ _

theorem writeDctl_only (v : U32) (s : State) : Only [.tur, .pwr, .dbg] s (writeDctl v s) := by
  unfold writeDctl
  dsimp only
  refine .ite ?_ ?_
  refine .trans ?_ (pwrctlWake_only ..)
  refine .upd ?_ (.inr rfl) (.inr rfl) (.inr rfl) (.inr rfl) (.inr rfl) (.inl rfl) (.inr rfl) (.inr rfl) (.inr rfl) (.inr rfl) (.inr rfl) (.inr rfl) (.inr rfl) (.inr rfl) (.inr rfl) (.inr rfl) (.inr rfl) (.inr rfl) (.inr rfl) (.inr rfl) (.inl rfl) (.inl rfl) (.inr rfl) (.inr rfl) (.inr rfl) (.inr rfl)
  exact .refl _ _
  refine .upd ?_ (.inr rfl) (.inr rfl) (.inr rfl) (.inr rfl) (.inr rfl) (.inl rfl) (.inr rfl) (.inr rfl) (.inr rfl) (.inr rfl) (.inr rfl) (.inr rfl) (.inr rfl) (.inr rfl) (.inr rfl) (.inr rfl) (.inr rfl) (.inr rfl) (.inr rfl) (.inr rfl) (.inl rfl) (.inl rfl) (.inr rfl) (.inr rfl) (.inr rfl) (.inr rfl)
  exact .refl _ _

theorem spaceWrite_only (a : Nat) (v : U32) (noise : U32) (s : State) :
    Only [.clk, .ports, .out, .tur, .wdog, .fl, .tmr, .gp, .rider, .cul, .hg, .seq, .mem, .link, .lg, .nvm, .pwr, .dbg, .bist, .due, .free] s (spaceWrite a v noise s) := by
  unfold spaceWrite
  dsimp only
  refine .ite ?_ ?_
  exact .refl _ _
  refine .ite ?_ ?_
  split
  exact .mono (writeDthr_only ..)
  exact .mono (writeSaved_only ..)
  exact .mono (writeSaved_only ..)
  exact .refl _ _
  refine .ite ?_ ?_
  refine .upd ?_ (.inr rfl) (.inl rfl) (.inl rfl) (.inl rfl) (.inr rfl) (.inl rfl) (.inr rfl) (.inr rfl) (.inl rfl) (.inl rfl) (.inl rfl) (.inl rfl) (.inl rfl) (.inl rfl) (.inl rfl) (.inl rfl) (.inl rfl) (.inl rfl) (.inl rfl) (.inl rfl) (.inl rfl) (.inl rfl) (.inl rfl) (.inl rfl) (.inr rfl) (.inl rfl)
  exact .refl _ _
  refine .ite ?_ ?_
  refine .upd ?_ (.inr rfl) (.inl rfl) (.inl rfl) (.inl rfl) (.inr rfl) (.inl rfl) (.inr rfl) (.inr rfl) (.inl rfl) (.inl rfl) (.inl rfl) (.inl rfl) (.inl rfl) (.inl rfl) (.inl rfl) (.inl rfl) (.inl rfl) (.inl rfl) (.inl rfl) (.inl rfl) (.inl rfl) (.inl rfl) (.inl rfl) (.inl rfl) (.inr rfl) (.inl rfl)
  exact .refl _ _
  split
  exact .mono (writeDauth_only ..)
  exact .mono (writeDctl_only ..)
  refine .upd ?_ (.inr rfl) (.inl rfl) (.inl rfl) (.inl rfl) (.inr rfl) (.inl rfl) (.inr rfl) (.inr rfl) (.inl rfl) (.inl rfl) (.inl rfl) (.inl rfl) (.inl rfl) (.inl rfl) (.inl rfl) (.inl rfl) (.inl rfl) (.inl rfl) (.inl rfl) (.inl rfl) (.inl rfl) (.inl rfl) (.inl rfl) (.inl rfl) (.inr rfl) (.inl rfl)
  exact .refl _ _
  exact .mono (bistByDebugger_only ..)
  refine .upd ?_ (.inr rfl) (.inl rfl) (.inl rfl) (.inl rfl) (.inr rfl) (.inl rfl) (.inr rfl) (.inr rfl) (.inl rfl) (.inl rfl) (.inl rfl) (.inl rfl) (.inl rfl) (.inl rfl) (.inl rfl) (.inl rfl) (.inl rfl) (.inl rfl) (.inl rfl) (.inl rfl) (.inl rfl) (.inl rfl) (.inl rfl) (.inl rfl) (.inr rfl) (.inl rfl)
  exact .refl _ _
  refine .upd ?_ (.inr rfl) (.inl rfl) (.inl rfl) (.inl rfl) (.inr rfl) (.inl rfl) (.inr rfl) (.inr rfl) (.inl rfl) (.inl rfl) (.inl rfl) (.inl rfl) (.inl rfl) (.inl rfl) (.inl rfl) (.inl rfl) (.inl rfl) (.inl rfl) (.inl rfl) (.inl rfl) (.inl rfl) (.inl rfl) (.inl rfl) (.inl rfl) (.inr rfl) (.inl rfl)
  exact .refl _ _
  refine .upd ?_ (.inr rfl) (.inl rfl) (.inl rfl) (.inl rfl) (.inr rfl) (.inl rfl) (.inr rfl) (.inr rfl) (.inl rfl) (.inl rfl) (.inl rfl) (.inl rfl) (.inl rfl) (.inl rfl) (.inl rfl) (.inl rfl) (.inl rfl) (.inl rfl) (.inl rfl) (.inl rfl) (.inl rfl) (.inl rfl) (.inl rfl) (.inl rfl) (.inr rfl) (.inl rfl)
  exact .refl _ _
  refine .upd ?_ (.inr rfl) (.inl rfl) (.inl rfl) (.inl rfl) (.inr rfl) (.inl rfl) (.inr rfl) (.inr rfl) (.inl rfl) (.inl rfl) (.inl rfl) (.inl rfl) (.inl rfl) (.inl rfl) (.inl rfl) (.inl rfl) (.inl rfl) (.inl rfl) (.inl rfl) (.inl rfl) (.inl rfl) (.inl rfl) (.inl rfl) (.inl rfl) (.inr rfl) (.inl rfl)
  exact .refl _ _
  exact .refl _ _

theorem readFrame_only (op : BitVec 4) (a : Nat) (s : State) : Only [.dbg] s (readFrame op a s) := by
  unfold readFrame
  refine .ite ?_ ?_
  refine .ite ?_ ?_
  exact .refl _ _
  exact .mono (respond_only ..)
  refine .ite ?_ ?_
  exact .mono (readDbdata_only ..)
  refine .ite ?_ ?_
  exact .mono (respond_only ..)
  exact .mono (respond_only ..)

theorem writeSpace_only (a : Nat) (v : U32) (noise : U32) (s : State) :
    Only [.clk, .ports, .out, .tur, .wdog, .fl, .tmr, .gp, .rider, .cul, .hg, .seq, .mem, .link, .lg, .nvm, .pwr, .dbg, .bist, .due, .free] s (writeSpace a v noise s) := by
  unfold writeSpace
  refine .ite ?_ ?_
  exact .mono (writeDbdata_only ..)
  refine .ite ?_ ?_
  exact .mono (respond_only ..)
  refine .trans ?_ (respond_only ..)
  exact .mono (spaceWrite_only ..)

theorem writeFrame_only (op : BitVec 4) (a : BitVec 24) (v : U32) (crc : BitVec 4) (s : State) :
    Only [.clk, .ports, .out, .tur, .wdog, .fl, .tmr, .gp, .rider, .cul, .hg, .seq, .mem, .link, .lg, .nvm, .pwr, .dbg, .bist, .due, .free] s (writeFrame op a v crc s) := by
  unfold writeFrame
  refine .ite ?_ ?_
  refine .ite ?_ ?_
  exact .refl _ _
  exact .mono (respond_only ..)
  refine .ite ?_ ?_
  exact .mono (respond_only ..)
  split
  refine .trans ?_ (writeSpace_only ..)
  refine .snd ?_ (by assumption)
  exact .mono (drawFree_only ..)

theorem monitorEntry_only (n : Nat) (s : State) :
    Only [.tur, .wdog, .seq, .mem, .link, .due, .free] s (monitorEntry n s) := by
  unfold monitorEntry
  refine .ite ?_ ?_
  refine .trans ?_ (enterMonitor_only ..)
  exact .mono (applyRet_only ..)
  dsimp only
  split
  exact .mono (issue_only ..)
  exact .refl _ _

theorem stepEntry_only (n : Nat) (s : State) : Only [.tur, .wdog, .seq] s (stepEntry n s) := by
  unfold stepEntry
  refine .ite ?_ ?_
  refine .trans ?_ (enterMonitor_only ..)
  exact .mono (applyRet_only ..)
  exact .refl _ _

theorem monitorRequest_only (n : Nat) (s : State) : Only [.tur, .wdog, .seq] s (monitorRequest n s) := by
  unfold monitorRequest
  dsimp only
  refine .ite ?_ ?_
  refine .trans ?_ (serveResume_only ..)
  exact .mono (State.modThr_only ..)
  exact serveResume_only ..

end Sys2Proof.Machine
end

