-- ==== Sys2Proof/Laws/OnlyStores.lean ====
section
/-! SUPPORT. Every operation of Machine/Stores.lean changes only the parts that its lemma names. -/

namespace Sys2Proof.Machine

set_option Elab.async false

theorem refuseWrite_only (w : Who) (s : State) : Only [.tur, .seq, .mem, .dbg, .due] s (refuseWrite w s) := by
  unfold refuseWrite
  split
  · exact .refl _ _
  · exact .ite (.refl _ _) (.mono (takeFault_only ..))
  · exact .ite (.mono (dbFail_only ..)) (.refl _ _)

/-- A refused debugger's write. -/
theorem refuseDebug_only (s : State) : Only [.tur, .dbg] s (refuseWrite .debugger s) := by
  unfold refuseWrite
  exact .ite (.mono (dbFail_only ..)) (.refl _ _)

theorem writeAnswer_only (w : Who) {ps : List Part} {s t : State} (h : Only ps s t)
    (hc : Part.within [.apb] ps = true := by rfl) : Only ps s (writeAnswer w (t, {})) := by
  unfold writeAnswer
  split
  · exact .trans h (answer_only ..) hc
  · exact h
  · exact h

theorem writeAnswerErr_only (w : Who) {ps : List Part} {s : State} {r : State × Resp} (h : Only ps s r.1)
    (hc : Part.within [.apb] ps = true := by rfl) (hd : Part.within [.tur, .dbg] ps = true := by rfl) :
    Only ps s (writeAnswer w r) := by
  unfold writeAnswer
  split
  · exact .trans h (answer_only ..) hc
  · exact h
  · exact .ite (.trans h (refuseDebug_only ..) hd) h

/-- A write that is not refused. -/
theorem regCommand_only (w : Who) {off : Nat} {ps : List Part} {s t : State} (hw : writeRefused s w off = false)
    (h : Only ps s t) (hc : Part.within [.apb] ps = true := by rfl) (ha : ps.contains .apb = true := by rfl) :
    Only ps s (regCommand w off (t, {}) s) := by
  unfold regCommand
  rw [hw]
  exact onCore_only _ (writeAnswer_only _ h hc) ha

theorem aoCommand_only (w : Who) {off : Nat} {ps : List Part} {s t : State} (hw : writeRefused s w off = false)
    (h : Only ps s t) (hc : Part.within [.apb] ps = true := by rfl) : Only ps s (aoCommand w off (t, {}) s) := by
  unfold aoCommand
  rw [hw]
  exact .ite (.refl _ _) (writeAnswer_only _ h hc)

/-- A write that is not refused, of a register that may answer with an error response. -/
theorem regCommandErr_only (w : Who) {off : Nat} {ps : List Part} {s : State} {r : State × Resp}
    (hw : writeRefused s w off = false) (h : Only ps s r.1) (hc : Part.within [.apb] ps = true := by rfl)
    (hd : Part.within [.tur, .dbg] ps = true := by rfl) (ha : ps.contains .apb = true := by rfl) :
    Only ps s (regCommand w off r s) := by
  unfold regCommand
  rw [hw]
  exact onCore_only _ (writeAnswerErr_only _ h hc hd) ha

/-- A write, refused or not. -/
theorem regCommandAny_only (w : Who) (off : Nat) {ps : List Part} {s : State} {r : State × Resp} (h : Only ps s r.1)
    (hf : Part.within [.tur, .seq, .mem, .dbg, .due] ps = true := by rfl)
    (hc : Part.within [.apb] ps = true := by rfl) (hd : Part.within [.tur, .dbg] ps = true := by rfl)
    (ha : ps.contains .apb = true := by rfl) : Only ps s (regCommand w off r s) := by
  unfold regCommand
  exact .ite (.mono (refuseWrite_only ..) hf) (onCore_only _ (writeAnswerErr_only _ h hc hd) ha)

theorem aoCommandAny_only (w : Who) (off : Nat) {ps : List Part} {s : State} {r : State × Resp} (h : Only ps s r.1)
    (hf : Part.within [.tur, .seq, .mem, .dbg, .due] ps = true := by rfl)
    (hc : Part.within [.apb] ps = true := by rfl) (hd : Part.within [.tur, .dbg] ps = true := by rfl) :
    Only ps s (aoCommand w off r s) := by
  unfold aoCommand
  exact .ite (.refl _ _) (.ite (.mono (refuseWrite_only ..) hf) (writeAnswerErr_only _ h hc hd))

theorem lgmdataWrite_only (w : Who) (v : U32) (s : State) :
    Only [.ports, .out, .outcal, .tur, .gate, .shut, .wdog, .fl, .tmr, .rider, .cul, .hg, .seq, .mem, .link, .lg, .nvm, .pwr, .dbg, .bist, .due, .apb, .free] s (lgmdataWrite w v s) := by
  unfold lgmdataWrite
  exact regCommandAny_only _ _ (.mono (busWrite_only ..))

end Sys2Proof.Machine
end

