-- ==== Sys2Proof/Laws/OnlyGroup.lean ====
section
/-! SUPPORT. Every operation of Machine/Group.lean changes only the parts that its lemma names. -/

namespace Sys2Proof.Machine

set_option Elab.async false

theorem readRow_only (w : Who) (off : Nat) (s : State) :
    Only [.ports, .out, .outcal, .tur, .gate, .shut, .wdog, .fl, .tmr, .rider, .cul, .hg, .seq, .mem, .link, .lg, .nvm, .pwr, .dbg, .bist, .due, .apb, .free] s (readRow w off s) := by
  unfold readRow
  split
  dsimp only
  refine .ite ?_ ?_
  refine onCore_only _ ?_
  refine .trans ?_ (answer_only ..)
  exact .mono (busRead_only ..)
  exact .refl _ _
  refine .ite ?_ ?_
  exact .mono (loadReturn_only ..)
  exact .refl _ _
  refine .ite ?_ ?_
  exact .mono (dbComplete_only ..)
  exact .refl _ _

theorem storeFault_only (n : Nat) (p : Posted) (s : State) : Only [.seq] s (storeFault n p s) := by
  unfold storeFault
  exact .mono (State.modThr_only ..)

theorem blockStore_only (ag : Agent) (pc : U16) (a v : U32) (s : State) :
    Only [.seq] s (blockStore ag pc a v s) := by
  unfold blockStore
  exact State.modThr_only ..

theorem boundaryFirst_only (off : Nat) (s : State) :
    Only [.tur, .fl, .due] s (boundaryFirst off s) := by
  unfold boundaryFirst
  refine .ite ?_ ?_
  exact withBoundary_only ..
  exact .refl _ _

theorem memberStore_only (ag : Agent) (pc : U16) (a : U32) (m : Nat) (off : Nat) (v : U32) (s : State) :
    Only [.tur, .seq, .link, .due] s (memberStore ag pc a m off v s) := by
  unfold memberStore
  dsimp only
  refine .ite ?_ ?_
  exact .mono (blockStore_only ..)
  refine .ite ?_ ?_
  refine .trans ?_ (storeFault_only ..)
  exact .mono (forwardAccess_only ..)
  refine .trans ?_ (State.modThr_only ..)
  exact .mono (forwardAccess_only ..)

theorem ownStore_only (ag : Agent) (pc : U16) (a : U32) (off : Nat) (v : U32) (s : State) :
    Only [.ports, .out, .outcal, .tur, .gate, .shut, .wdog, .fl, .tmr, .rider, .cul, .hg, .seq, .mem, .link, .lg, .nvm, .pwr, .bist, .due, .free] s (ownStore ag pc a off v s) := by
  unfold ownStore
  dsimp only
  refine .ite ?_ ?_
  refine .trans ?_ (storeFault_only ..)
  refine .trans ?_ (State.modCtxBoth_only ..)
  refine .trans ?_ (busWrite_only ..)
  exact .mono (boundaryFirst_only ..)
  refine .trans ?_ (State.modCtxBoth_only ..)
  refine .trans ?_ (busWrite_only ..)
  exact .mono (boundaryFirst_only ..)

theorem postedStore_only (ag : Agent) (pc : U16) (a v : U32) (s : State) :
    Only [.ports, .out, .outcal, .tur, .gate, .shut, .wdog, .fl, .tmr, .rider, .cul, .hg, .seq, .mem, .link, .lg, .nvm, .pwr, .bist, .due, .free] s (postedStore ag pc a v s) := by
  unfold postedStore
  split
  exact ownStore_only ..
  exact .mono (memberStore_only ..)
  exact .refl _ _

theorem registerStore_only (ag : Agent) (pc : U16) (a : U32) (v : U32) (s : State) :
    Only [.ports, .out, .outcal, .tur, .gate, .shut, .wdog, .fl, .tmr, .rider, .cul, .hg, .seq, .mem, .link, .lg, .nvm, .pwr, .bist, .due, .free] s (registerStore ag pc a v s) := by
  unfold registerStore
  refine .ite ?_ ?_
  exact .mono (postedStore_only ..)
  exact .mono (blockStore_only ..)

theorem retryStores_only (s : State) (n : Nat) :
    Only [.ports, .out, .outcal, .tur, .gate, .shut, .wdog, .fl, .tmr, .rider, .cul, .hg, .seq, .mem, .link, .lg, .nvm, .pwr, .bist, .due, .free] s (retryStores s n) := by
  unfold retryStores
  dsimp only
  refine .of' ?_ (.foldl (fun s k => ?_) _ _)
  exact .mono (State.modThr_only ..)
  exact registerStore_only ..

theorem hostAperture_only (off : Nat) (wr : Option U32) (strb : BitVec 4) (s : State) :
    Only [.ports, .out, .outcal, .tur, .gate, .shut, .wdog, .fl, .tmr, .rider, .cul, .hg, .seq, .mem, .link, .lg, .nvm, .pwr, .bist, .due, .apb, .free] s (hostAperture off wr strb s) := by
  unfold hostAperture
  split
  dsimp only
  refine .trans ?_ (answer_only ..)
  exact .mono (busWrite_only ..)
  dsimp only
  refine .ite ?_ ?_
  refine .trans ?_ (answer_only ..)
  exact .mono (busRead_only ..)
  exact .refl _ _
  dsimp only
  refine .ite ?_ ?_
  refine .trans ?_ (answer_only ..)
  exact .mono (forwardAccess_only ..)
  exact .mono (forwardAccess_only ..)
  exact .mono (answer_only ..)

theorem apertureAccess_only (w : Who) (off : Nat) (wr : Option U32) (strb : BitVec 4) (s : State) :
    Only [.ports, .out, .outcal, .tur, .gate, .shut, .wdog, .fl, .tmr, .rider, .cul, .hg, .seq, .mem, .link, .lg, .nvm, .pwr, .dbg, .bist, .due, .apb, .free] s (apertureAccess w off wr strb s) := by
  unfold apertureAccess
  refine .ite ?_ ?_
  exact .refl _ _
  split
  refine onCore_only _ ?_
  exact .mono (hostAperture_only ..)
  refine .ite ?_ ?_
  refine inCore_only ?_
  exact .mono (loadReturn_only ..)
  exact .refl _ _
  refine .ite ?_ ?_
  exact .mono (refuseWrite_only ..)
  refine onCore_only _ ?_
  exact .mono (registerStore_only ..)
  refine .ite ?_ ?_
  exact .mono (dbComplete_only ..)
  exact .refl _ _

theorem memberAccess_only (off : Nat) (wr : Option U32) (strb : BitVec 4) (inspect : Bool) (s : State) :
    Only [.ports, .out, .outcal, .tur, .gate, .shut, .wdog, .fl, .tmr, .rider, .cul, .hg, .seq, .mem, .link, .lg, .nvm, .pwr, .bist, .due, .free] s (memberAccess off wr strb inspect s).2 := by
  unfold memberAccess
  split
  dsimp only
  exact .refl _ _
  split
  dsimp only
  exact .mono (busWrite_only ..)
  exact .mono (busRead_only ..)
  dsimp only
  exact .refl _ _

theorem regRequest_only (p : Nat) (s : State) :
    Only [.ports, .out, .outcal, .tur, .gate, .shut, .wdog, .fl, .tmr, .rider, .cul, .hg, .seq, .mem, .link, .lg, .nvm, .pwr, .bist, .due, .free] s (regRequest p s) := by
  unfold regRequest
  split
  exact .refl _ _
  dsimp only
  refine .trans ?_ (originate_only ..)
  refine .trans ?_ (memberAccess_only ..)
  refine .trans ?_ (takeFrame_only (by assumption))
  exact .refl _ _

theorem threadAnswered_only (n : Nat) (r : Forwarded) (err : Bool) (v : U32) (s : State) :
    Only [.tur, .wdog, .seq, .mem, .due] s (threadAnswered n r err v s) := by
  unfold threadAnswered
  refine .ite ?_ ?_
  split
  exact .refl _ _
  dsimp only
  refine .ite ?_ ?_
  refine .trans ?_ (storeFault_only ..)
  exact .mono (State.modThr_only ..)
  exact .mono (State.modThr_only ..)
  split
  refine .ite ?_ ?_
  exact loadFault_only ..
  exact .mono (loadDone_only ..)
  exact .refl _ _

theorem regResponse_only (p : Nat) (s : State) :
    Only [.tur, .wdog, .seq, .mem, .link, .dbg, .due, .apb] s (regResponse p s) := by
  unfold regResponse
  split
  exact .refl _ _
  split
  refine .trans ?_ (takeFrame_only (by assumption))
  exact .refl _ _
  dsimp only
  split
  refine .trans ?_ (answer_only ..)
  refine .upd ?_ (.inr rfl) (.inr rfl) (.inr rfl) (.inr rfl) (.inr rfl) (.inl rfl) (.inr rfl) (.inr rfl) (.inl rfl) (.inr rfl) (.inr rfl) (.inr rfl) (.inr rfl) (.inr rfl) (.inr rfl) (.inl rfl) (.inl rfl) (.inl rfl) (.inr rfl) (.inr rfl) (.inr rfl) (.inl rfl) (.inr rfl) (.inl rfl) (.inl rfl) (.inr rfl)
  refine .trans ?_ (takeFrame_only (by assumption))
  exact .refl _ _
  refine .ite ?_ ?_
  refine .trans ?_ (dbFail_only ..)
  refine .upd ?_ (.inr rfl) (.inr rfl) (.inr rfl) (.inr rfl) (.inr rfl) (.inl rfl) (.inr rfl) (.inr rfl) (.inl rfl) (.inr rfl) (.inr rfl) (.inr rfl) (.inr rfl) (.inr rfl) (.inr rfl) (.inl rfl) (.inl rfl) (.inl rfl) (.inr rfl) (.inr rfl) (.inr rfl) (.inl rfl) (.inr rfl) (.inl rfl) (.inl rfl) (.inr rfl)
  refine .trans ?_ (takeFrame_only (by assumption))
  exact .refl _ _
  refine .trans ?_ (dbDone_only ..)
  refine .upd ?_ (.inr rfl) (.inr rfl) (.inr rfl) (.inr rfl) (.inr rfl) (.inl rfl) (.inr rfl) (.inr rfl) (.inl rfl) (.inr rfl) (.inr rfl) (.inr rfl) (.inr rfl) (.inr rfl) (.inr rfl) (.inl rfl) (.inl rfl) (.inl rfl) (.inr rfl) (.inr rfl) (.inr rfl) (.inl rfl) (.inr rfl) (.inl rfl) (.inl rfl) (.inr rfl)
  refine .trans ?_ (takeFrame_only (by assumption))
  exact .refl _ _
  refine .trans ?_ (threadAnswered_only ..)
  refine .upd ?_ (.inr rfl) (.inr rfl) (.inr rfl) (.inr rfl) (.inr rfl) (.inl rfl) (.inr rfl) (.inr rfl) (.inl rfl) (.inr rfl) (.inr rfl) (.inr rfl) (.inr rfl) (.inr rfl) (.inr rfl) (.inl rfl) (.inl rfl) (.inl rfl) (.inr rfl) (.inr rfl) (.inr rfl) (.inl rfl) (.inr rfl) (.inl rfl) (.inl rfl) (.inr rfl)
  refine .trans ?_ (takeFrame_only (by assumption))
  exact .refl _ _
  refine .trans ?_ (threadAnswered_only ..)
  refine .upd ?_ (.inr rfl) (.inr rfl) (.inr rfl) (.inr rfl) (.inr rfl) (.inl rfl) (.inr rfl) (.inr rfl) (.inl rfl) (.inr rfl) (.inr rfl) (.inr rfl) (.inr rfl) (.inr rfl) (.inr rfl) (.inl rfl) (.inl rfl) (.inl rfl) (.inr rfl) (.inr rfl) (.inr rfl) (.inl rfl) (.inr rfl) (.inl rfl) (.inl rfl) (.inr rfl)
  refine .trans ?_ (takeFrame_only (by assumption))
  exact .refl _ _
  refine .trans ?_ (threadAnswered_only ..)
  refine .upd ?_ (.inr rfl) (.inr rfl) (.inr rfl) (.inr rfl) (.inr rfl) (.inl rfl) (.inr rfl) (.inr rfl) (.inl rfl) (.inr rfl) (.inr rfl) (.inr rfl) (.inr rfl) (.inr rfl) (.inr rfl) (.inl rfl) (.inl rfl) (.inl rfl) (.inr rfl) (.inr rfl) (.inr rfl) (.inl rfl) (.inr rfl) (.inl rfl) (.inl rfl) (.inr rfl)
  refine .trans ?_ (takeFrame_only (by assumption))
  exact .refl _ _

end Sys2Proof.Machine
end

