-- ==== Sys2Proof/Laws/OnlyClock.lean ====
section
/-! SUPPORT. Every operation of Machine/Clock.lean changes only the parts that its lemma names. -/

namespace Sys2Proof.Machine

set_option Elab.async false

theorem sendTrap_only (k : BitVec 9) (data : U32) (s : State) : Only [.tur, .link] s (sendTrap k data s) := by
  unfold sendTrap
  refine .ite ?_ ?_
  dsimp only
  exact originate_only ..
  exact .refl _ _

theorem fcEvents_only (s : State) : Only [.tur, .hg, .mem, .link] s (fcEvents s) := by
  unfold fcEvents
  dsimp only
  refine .upd ?_ (.inr rfl) (.inr rfl) (.inr rfl) (.inr rfl) (.inr rfl) (.inl rfl) (.inr rfl) (.inr rfl) (.inr rfl) (.inr rfl) (.inr rfl) (.inr rfl) (.inr rfl) (.inr rfl) (.inl rfl) (.inr rfl) (.inl rfl) (.inl rfl) (.inr rfl) (.inr rfl) (.inr rfl) (.inr rfl) (.inr rfl) (.inr rfl) (.inr rfl) (.inr rfl)
  refine .of' ?_ (.foldl (fun s k => ?_) _ _)
  exact .refl _ _
  refine .ite ?_ ?_
  refine .trans ?_ (memberEvent_only ..)
  refine .ite ?_ ?_
  refine .trans ?_ (appendEvent_only ..)
  refine .ite ?_ ?_
  exact .mono (sendTrap_only ..)
  exact .refl _ _
  refine .ite ?_ ?_
  exact .mono (sendTrap_only ..)
  exact .refl _ _
  refine .ite ?_ ?_
  exact .mono (sendTrap_only ..)
  exact .refl _ _

theorem fcRoutes_only (s : State) : Only [.ports, .tur, .pwr] s (fcRoutes s) := by
  unfold fcRoutes
  dsimp only
  refine .ite ?_ ?_
  refine .trans ?_ (wakeRequest_only ..)
  refine .ite ?_ ?_
  refine .trans ?_ (wakeRequest_only ..)
  refine .trans ?_ (applyConfigs_only ..)
  refine .upd ?_ (.inr rfl) (.inr rfl) (.inl rfl) (.inr rfl) (.inr rfl) (.inl rfl) (.inr rfl) (.inr rfl) (.inr rfl) (.inr rfl) (.inr rfl) (.inr rfl) (.inr rfl) (.inr rfl) (.inr rfl) (.inr rfl) (.inr rfl) (.inr rfl) (.inr rfl) (.inr rfl) (.inl rfl) (.inr rfl) (.inr rfl) (.inr rfl) (.inr rfl) (.inr rfl)
  exact .mono (routeAll_only ..)
  refine .trans ?_ (applyConfigs_only ..)
  refine .upd ?_ (.inr rfl) (.inr rfl) (.inl rfl) (.inr rfl) (.inr rfl) (.inl rfl) (.inr rfl) (.inr rfl) (.inr rfl) (.inr rfl) (.inr rfl) (.inr rfl) (.inr rfl) (.inr rfl) (.inr rfl) (.inr rfl) (.inr rfl) (.inr rfl) (.inr rfl) (.inr rfl) (.inl rfl) (.inr rfl) (.inr rfl) (.inr rfl) (.inr rfl) (.inr rfl)
  exact .mono (routeAll_only ..)
  refine .ite ?_ ?_
  refine .trans ?_ (wakeRequest_only ..)
  refine .trans ?_ (applyConfigs_only ..)
  refine .upd ?_ (.inr rfl) (.inr rfl) (.inl rfl) (.inr rfl) (.inr rfl) (.inl rfl) (.inr rfl) (.inr rfl) (.inr rfl) (.inr rfl) (.inr rfl) (.inr rfl) (.inr rfl) (.inr rfl) (.inr rfl) (.inr rfl) (.inr rfl) (.inr rfl) (.inr rfl) (.inr rfl) (.inl rfl) (.inr rfl) (.inr rfl) (.inr rfl) (.inr rfl) (.inr rfl)
  exact .mono (routeAll_only ..)
  refine .trans ?_ (applyConfigs_only ..)
  refine .upd ?_ (.inr rfl) (.inr rfl) (.inl rfl) (.inr rfl) (.inr rfl) (.inl rfl) (.inr rfl) (.inr rfl) (.inr rfl) (.inr rfl) (.inr rfl) (.inr rfl) (.inr rfl) (.inr rfl) (.inr rfl) (.inr rfl) (.inr rfl) (.inr rfl) (.inr rfl) (.inr rfl) (.inl rfl) (.inr rfl) (.inr rfl) (.inr rfl) (.inr rfl) (.inr rfl)
  exact .mono (routeAll_only ..)

theorem gaugeStep_only (s : State) : Only [.clk, .ports, .lg] s (gaugeStep s) := by
  unfold gaugeStep
  dsimp only
  refine .upd ?_ (.inr rfl) (.inl rfl) (.inl rfl) (.inr rfl) (.inr rfl) (.inr rfl) (.inr rfl) (.inr rfl) (.inr rfl) (.inr rfl) (.inr rfl) (.inr rfl) (.inr rfl) (.inr rfl) (.inr rfl) (.inr rfl) (.inr rfl) (.inr rfl) (.inl rfl) (.inr rfl) (.inr rfl) (.inr rfl) (.inr rfl) (.inr rfl) (.inr rfl) (.inr rfl)
  exact .refl _ _

theorem pinsAndTimers_only (rdrI : U64) (s : State) : Only [.ports, .tur, .tmr] s (pinsAndTimers rdrI s) := by
  unfold pinsAndTimers
  dsimp only
  refine .ite ?_ ?_
  refine .upd ?_ (.inr rfl) (.inr rfl) (.inl rfl) (.inr rfl) (.inr rfl) (.inl rfl) (.inr rfl) (.inr rfl) (.inr rfl) (.inr rfl) (.inl rfl) (.inr rfl) (.inr rfl) (.inr rfl) (.inr rfl) (.inr rfl) (.inr rfl) (.inr rfl) (.inr rfl) (.inr rfl) (.inr rfl) (.inr rfl) (.inr rfl) (.inr rfl) (.inr rfl) (.inr rfl)
  refine .of' ?_ (.each (fun s k => ?_) _ _)
  refine .upd ?_ (.inr rfl) (.inr rfl) (.inl rfl) (.inr rfl) (.inr rfl) (.inl rfl) (.inr rfl) (.inr rfl) (.inr rfl) (.inr rfl) (.inl rfl) (.inr rfl) (.inr rfl) (.inr rfl) (.inr rfl) (.inr rfl) (.inr rfl) (.inr rfl) (.inr rfl) (.inr rfl) (.inr rfl) (.inr rfl) (.inr rfl) (.inr rfl) (.inr rfl) (.inr rfl)
  exact .refl _ _
  exact .mono (lateCapture_only ..)
  refine .upd ?_ (.inr rfl) (.inr rfl) (.inl rfl) (.inr rfl) (.inr rfl) (.inl rfl) (.inr rfl) (.inr rfl) (.inr rfl) (.inr rfl) (.inl rfl) (.inr rfl) (.inr rfl) (.inr rfl) (.inr rfl) (.inr rfl) (.inr rfl) (.inr rfl) (.inr rfl) (.inr rfl) (.inr rfl) (.inr rfl) (.inr rfl) (.inr rfl) (.inr rfl) (.inr rfl)
  refine .of' ?_ (.each (fun s k => ?_) _ _)
  refine .upd ?_ (.inr rfl) (.inr rfl) (.inl rfl) (.inr rfl) (.inr rfl) (.inl rfl) (.inr rfl) (.inr rfl) (.inr rfl) (.inr rfl) (.inl rfl) (.inr rfl) (.inr rfl) (.inr rfl) (.inr rfl) (.inr rfl) (.inr rfl) (.inr rfl) (.inr rfl) (.inr rfl) (.inr rfl) (.inr rfl) (.inr rfl) (.inr rfl) (.inr rfl) (.inr rfl)
  exact .refl _ _
  exact .mono (lateCapture_only ..)

theorem riderEdge_only (slotWas : BitVec 5) (s : State) : Only [.out, .tur, .rider] s (riderEdge slotWas s) := by
  unfold riderEdge
  dsimp only
  refine .ite ?_ ?_
  refine .upd ?_ (.inr rfl) (.inr rfl) (.inr rfl) (.inl rfl) (.inr rfl) (.inl rfl) (.inr rfl) (.inr rfl) (.inr rfl) (.inr rfl) (.inr rfl) (.inr rfl) (.inl rfl) (.inr rfl) (.inr rfl) (.inr rfl) (.inr rfl) (.inr rfl) (.inr rfl) (.inr rfl) (.inr rfl) (.inr rfl) (.inr rfl) (.inr rfl) (.inr rfl) (.inr rfl)
  exact .refl _ _
  refine .of' ?_ (.each (fun s k => ?_) _ _)
  refine .upd ?_ (.inr rfl) (.inr rfl) (.inr rfl) (.inl rfl) (.inr rfl) (.inl rfl) (.inr rfl) (.inr rfl) (.inr rfl) (.inr rfl) (.inr rfl) (.inr rfl) (.inl rfl) (.inr rfl) (.inr rfl) (.inr rfl) (.inr rfl) (.inr rfl) (.inr rfl) (.inr rfl) (.inr rfl) (.inr rfl) (.inr rfl) (.inr rfl) (.inr rfl) (.inr rfl)
  exact .refl _ _
  exact .mono (channelEdge_only ..)

theorem ownersStep_only (s : State) : Only [.out] s (ownersStep s) := by
  unfold ownersStep
  refine .of' ?_ (.each (fun s k => ?_) _ _)
  exact .refl _ _
  split
  exact .refl _ _
  dsimp only
  refine .trans ?_ (State.modOut_only ..)
  refine .ite ?_ ?_
  refine .ite ?_ ?_
  refine .trans ?_ (shadowFromLevel_only ..)
  exact .mono (shadowFromLevel_only ..)
  exact .mono (shadowFromLevel_only ..)
  exact .refl _ _

theorem shutStep_only (s : State) : Only [.out, .tur, .shut, .wdog, .fl, .tmr, .due] s (shutStep s) := by
  unfold shutStep
  refine .trans ?_ (shutRelease_only ..)
  refine .ite ?_ ?_
  exact .mono (shutFlush_only ..)
  exact .refl _ _

theorem landEnd_only (fc : Nat) (s : State) : Only [.seq] s (landEnd fc s) := by
  unfold landEnd
  refine .upd ?_ (.inr rfl) (.inr rfl) (.inr rfl) (.inr rfl) (.inr rfl) (.inr rfl) (.inr rfl) (.inr rfl) (.inr rfl) (.inr rfl) (.inr rfl) (.inr rfl) (.inr rfl) (.inr rfl) (.inr rfl) (.inl rfl) (.inr rfl) (.inr rfl) (.inr rfl) (.inr rfl) (.inr rfl) (.inr rfl) (.inr rfl) (.inr rfl) (.inr rfl) (.inr rfl)
  exact .refl _ _

theorem threadsStep_only (s : State) : Only [.seq, .mem] s (threadsStep s) := by
  unfold threadsStep
  dsimp only
  refine .upd ?_ (.inr rfl) (.inr rfl) (.inr rfl) (.inr rfl) (.inr rfl) (.inr rfl) (.inr rfl) (.inr rfl) (.inr rfl) (.inr rfl) (.inr rfl) (.inr rfl) (.inr rfl) (.inr rfl) (.inr rfl) (.inl rfl) (.inl rfl) (.inr rfl) (.inr rfl) (.inr rfl) (.inr rfl) (.inr rfl) (.inr rfl) (.inr rfl) (.inr rfl) (.inr rfl)
  exact .refl _ _

theorem runAct_only (s : State) (a : Act) :
    Only [.ports, .out, .outcal, .tur, .gate, .shut, .wdog, .fl, .tmr, .rider, .cul, .hg, .seq, .mem, .link, .lg, .nvm, .pwr, .bist, .due, .free] s (runAct s a) := by
  unfold runAct
  split
  exact .mono (affine_only ..)
  exact .mono (flumeClamped_only ..)
  exact .mono (flumeCommitStage_only ..)
  exact .mono (startAction_only ..)
  exact .mono (flumePostTest_only ..)
  exact .mono (writePend_only ..)
  exact .mono (sealBank_only ..)
  exact .mono (post_only ..)
  exact .mono (postR_only ..)
  exact .mono (raise_only ..)
  exact .mono (registerStore_only ..)
  refine .ite ?_ ?_
  exact .mono (schedule_only ..)
  exact .mono (timerStop_only ..)
  refine .ite ?_ ?_
  exact .mono (schedule_only ..)
  exact .mono (timerRestart_only ..)
  exact .mono (State.modOut_only ..)
  exact .mono (shutAssertIf_only ..)

theorem runDue_only (s : State) :
    Only [.ports, .out, .outcal, .tur, .gate, .shut, .wdog, .fl, .tmr, .rider, .cul, .hg, .seq, .mem, .link, .lg, .nvm, .pwr, .bist, .due, .free] s (runDue s) := by
  unfold runDue
  dsimp only
  refine .of' ?_ (.foldl (fun s k => ?_) _ _)
  refine .of' ?_ (.each (fun s k => ?_) _ _)
  refine .upd ?_ (.inr rfl) (.inr rfl) (.inl rfl) (.inl rfl) (.inl rfl) (.inl rfl) (.inl rfl) (.inl rfl) (.inl rfl) (.inl rfl) (.inl rfl) (.inr rfl) (.inl rfl) (.inl rfl) (.inl rfl) (.inl rfl) (.inl rfl) (.inl rfl) (.inl rfl) (.inl rfl) (.inl rfl) (.inr rfl) (.inl rfl) (.inl rfl) (.inr rfl) (.inl rfl)
  exact .refl _ _
  exact retryStores_only ..
  exact runAct_only ..

theorem gaugeAdvance_only (rdrI : U64) (s : State) :
    Only [.clk, .ports, .out, .outcal, .tur, .gate, .shut, .wdog, .fl, .tmr, .gp, .rider, .cul, .hg, .seq, .mem, .link, .lg, .nvm, .pwr, .bist, .due, .free] s (gaugeAdvance rdrI s) := by
  unfold gaugeAdvance
  dsimp only
  refine .trans ?_ (bistReply_only ..)
  refine .trans ?_ (bistOnward_only ..)
  refine .trans ?_ (runDue_only ..)
  refine .trans ?_ (threadsStep_only ..)
  refine .trans ?_ (shutStep_only ..)
  refine .trans ?_ (riderEdge_only ..)
  refine .trans ?_ (pinsAndTimers_only ..)
  refine .trans ?_ (applyTaps_only ..)
  refine .trans ?_ (gatesEdge_only ..)
  refine .trans ?_ (disciplineFc_only ..)
  refine .trans ?_ (gaugeStep_only ..)
  refine .trans ?_ (gateEvaluate_only ..)
  refine .trans ?_ (ownersStep_only ..)
  refine .trans ?_ (landEnd_only ..)
  refine .trans ?_ (fcRoutes_only ..)
  refine .trans ?_ (fcEvents_only ..)
  refine .trans ?_ (hgUpdate_only ..)
  refine .of' ?_ (.each (fun s k => ?_) _ _)
  exact .refl _ _
  exact .mono (landFifos_only ..)

end Sys2Proof.Machine
end

