-- ==== Sys2Proof/Laws/OnlyExec.lean ====
section
/-! SUPPORT. A command that completes changes only the parts that its lemma names. -/

namespace Sys2Proof.Machine

set_option Elab.async false

theorem execPowerOnReset_only {s : State} {u : State} (h : execPowerOnReset s = .next u) :
    Only [.clk, .ports, .out, .outcal, .tur, .gate, .shut, .wdog, .fl, .tmr, .gp, .rider, .cul, .hg, .seq, .mem, .link, .lg, .nvm, .pwr, .dbg, .bist, .due, .free] s u := by
  injection h with h
  subst h
  exact .mono (powerOn_only ..)

theorem execWarmReset_only {s : State} {u : State} (h : execWarmReset s = .next u) :
    Only [.clk, .ports, .out, .outcal, .tur, .gate, .shut, .wdog, .fl, .tmr, .gp, .rider, .cul, .hg, .seq, .mem, .link, .lg, .nvm, .pwr, .dbg, .bist, .due, .free] s u := by
  injection h with h
  subst h
  refine .ite ?_ ?_
  exact .mono (warmReset_only ..)
  exact .refl _ _

theorem execDebugReset_only {s : State} {u : State} (h : execDebugReset s = .next u) :
    Only [.tur, .wdog, .seq, .mem, .pwr, .dbg] s u := by
  injection h with h
  subst h
  refine .ite ?_ ?_
  exact .mono (debugReset_only ..)
  refine .upd ?_ (.inr rfl) (.inr rfl) (.inr rfl) (.inr rfl) (.inr rfl) (.inl rfl) (.inr rfl) (.inr rfl) (.inl rfl) (.inr rfl) (.inr rfl) (.inr rfl) (.inr rfl) (.inr rfl) (.inr rfl) (.inl rfl) (.inl rfl) (.inr rfl) (.inr rfl) (.inr rfl) (.inl rfl) (.inl rfl) (.inr rfl) (.inr rfl) (.inr rfl) (.inr rfl)
  exact .refl _ _

theorem execRstNAssert_only {s : State} {u : State} (h : execRstNAssert s = .next u) : Only [.pwr] s u := by
  injection h with h
  subst h
  exact .mono (requestReset_only ..)

theorem execRstctlWarm_only {w : Who} {v : U32} {s : State} {u : State} (hw : writeRefused s w 0x1018 = false)
    (h : execRstctlWarm w v s = .next u) :
    Only [.pwr, .apb] s u := by
  injection h with h
  subst h
  refine aoCommand_only _ ‹_› ?_
  exact .mono (writeRstctl_only ..)

theorem execPllLoss_only {s : State} {u : State} (h : execPllLoss s = .next u) : Only [.tur, .pwr] s u := by
  injection h with h
  subst h
  refine .ite ?_ ?_
  refine .trans ?_ (raise_only ..)
  refine .trans ?_ (hwSet_only ..)
  refine .upd ?_ (.inr rfl) (.inr rfl) (.inr rfl) (.inr rfl) (.inr rfl) (.inl rfl) (.inr rfl) (.inr rfl) (.inr rfl) (.inr rfl) (.inr rfl) (.inr rfl) (.inr rfl) (.inr rfl) (.inr rfl) (.inr rfl) (.inr rfl) (.inr rfl) (.inr rfl) (.inr rfl) (.inl rfl) (.inr rfl) (.inr rfl) (.inr rfl) (.inr rfl) (.inr rfl)
  exact .refl _ _
  exact .refl _ _

theorem execPllLossResetRequest_only {s : State} {u : State} (h : execPllLossResetRequest s = .next u) :
    Only [.pwr] s u := by
  injection h with h
  subst h
  refine .ite ?_ ?_
  refine .trans ?_ (requestReset_only ..)
  refine .upd ?_ (.inr rfl) (.inr rfl) (.inr rfl) (.inr rfl) (.inr rfl) (.inr rfl) (.inr rfl) (.inr rfl) (.inr rfl) (.inr rfl) (.inr rfl) (.inr rfl) (.inr rfl) (.inr rfl) (.inr rfl) (.inr rfl) (.inr rfl) (.inr rfl) (.inr rfl) (.inr rfl) (.inl rfl) (.inr rfl) (.inr rfl) (.inr rfl) (.inr rfl) (.inr rfl)
  exact .refl _ _
  exact .refl _ _

theorem execBootStart_only {s : State} {u : State} (h : execBootStart s = .next u) :
    Only [.clk, .ports, .out, .outcal, .tur, .gate, .shut, .wdog, .fl, .tmr, .gp, .rider, .cul, .hg, .seq, .mem, .link, .lg, .nvm, .pwr, .dbg, .bist, .due, .free] s u := by
  injection h with h
  subst h
  exact .mono (bootStart_only ..)

theorem execPllLock_only {s : State} {u : State} (h : execPllLock s = .next u) :
    Only [.clk, .ports, .tur, .gate, .shut, .wdog, .fl, .tmr, .gp, .rider, .hg, .seq, .mem, .link, .lg, .nvm, .pwr, .free] s u := by
  injection h with h
  subst h
  exact .mono (pllLock_only ..)

theorem execBootctlGo_only {w : Who} {v : U32} {s : State} {u : State} (hw : writeRefused s w 0x1024 = false)
    (h : execBootctlGo w v s = .next u) :
    Only [.tur, .gate, .shut, .rider, .hg, .seq, .mem, .link, .lg, .nvm, .pwr, .apb, .free] s u := by
  injection h with h
  subst h
  refine aoCommand_only _ ‹_› ?_
  exact .mono (writeBootctl_only ..)

theorem execBootReady_only {s : State} {u : State} (h : execBootReady s = .next u) :
    Only [.ports, .tur, .hg, .seq, .mem, .lg, .nvm, .pwr, .free] s u := by
  injection h with h
  subst h
  exact bootReady_only ..

theorem execPowerState_only {k : Slot} {s : State} {u : State} (h : execPowerState k s = .next u) :
    Only [.clk, .ports, .out, .tur, .wdog, .fl, .tmr, .gp, .rider, .cul, .hg, .seq, .mem, .link, .lg, .nvm, .pwr, .bist, .due, .free] s u := by
  injection h with h
  subst h
  refine .of' ?_ (runCmd_only _ _ _ _ (fun c s => ?_) (fun c s => ?_) _)
  exact .refl _ _
  exact .mono (powerState_only ..)
  exact .mono (powerOnward_only ..)

theorem execWakePin_only {level : Bool} {s : State} {u : State} (h : execWakePin level s = .next u) :
    Only [.ports, .tur, .pwr] s u := by
  injection h with h
  subst h
  refine .ite ?_ ?_
  dsimp only
  refine .ite ?_ ?_
  refine .trans ?_ (wakeRequest_only ..)
  refine .upd ?_ (.inr rfl) (.inr rfl) (.inl rfl) (.inr rfl) (.inr rfl) (.inl rfl) (.inr rfl) (.inr rfl) (.inr rfl) (.inr rfl) (.inr rfl) (.inr rfl) (.inr rfl) (.inr rfl) (.inr rfl) (.inr rfl) (.inr rfl) (.inr rfl) (.inr rfl) (.inr rfl) (.inl rfl) (.inr rfl) (.inr rfl) (.inr rfl) (.inr rfl) (.inr rfl)
  exact .refl _ _
  refine .upd ?_ (.inr rfl) (.inr rfl) (.inl rfl) (.inr rfl) (.inr rfl) (.inl rfl) (.inr rfl) (.inr rfl) (.inr rfl) (.inr rfl) (.inr rfl) (.inr rfl) (.inr rfl) (.inr rfl) (.inr rfl) (.inr rfl) (.inr rfl) (.inr rfl) (.inr rfl) (.inr rfl) (.inl rfl) (.inr rfl) (.inr rfl) (.inr rfl) (.inr rfl) (.inr rfl)
  exact .refl _ _
  exact .refl _ _

theorem execTallyWake_only {s : State} {u : State} (h : execTallyWake s = .next u) : Only [.tur, .pwr] s u := by
  injection h with h
  subst h
  refine .ite ?_ ?_
  exact wakeRequest_only ..
  exact .refl _ _

theorem execPwrctlWake_only {w : Who} {v : U32} {s : State} {u : State} (hw : writeRefused s w 0x1000 = false)
    (h : execPwrctlWake w v s = .next u) :
    Only [.out, .tur, .pwr, .apb] s u := by
  injection h with h
  subst h
  refine aoCommand_only _ ‹_› ?_
  exact .mono (writePwrctl_only ..)

theorem execDozeWake_only {s : State} {u : State} (h : execDozeWake s = .next u) : Only [.tur, .pwr] s u := by
  injection h with h
  subst h
  exact .mono (dozeWake_only ..)

theorem execSleepReturn_only {s : State} {u : State} (h : execSleepReturn s = .next u) :
    Only [.clk, .ports, .out, .outcal, .tur, .fl, .tmr, .gp, .rider, .hg, .link, .pwr] s u := by
  injection h with h
  subst h
  exact .mono (sleepReturn_only ..)

theorem execPadHoldRelease_only {n : Fin 96} {s : State} {u : State} (h : execPadHoldRelease n s = .next u) :
    Only [.out, .pwr] s u := by
  injection h with h
  subst h
  exact .mono (padRelease_only ..)

theorem execHoldrel_only {w : Who} {v : U32} {s : State} {u : State} (hw : writeRefused s w 0x1000 = false)
    (h : execHoldrel w v s = .next u) :
    Only [.out, .tur, .pwr, .apb] s u := by
  injection h with h
  subst h
  refine aoCommand_only _ ‹_› ?_
  exact .mono (writePwrctl_only ..)

theorem execRatioWindow_only {ratio : U48} {s : State} {u : State} (h : execRatioWindow ratio s = .next u) :
    Only [.gp] s u := by
  injection h with h
  subst h
  refine .ite ?_ ?_
  refine .upd ?_ (.inr rfl) (.inr rfl) (.inr rfl) (.inr rfl) (.inr rfl) (.inr rfl) (.inr rfl) (.inr rfl) (.inr rfl) (.inr rfl) (.inr rfl) (.inl rfl) (.inr rfl) (.inr rfl) (.inr rfl) (.inr rfl) (.inr rfl) (.inr rfl) (.inr rfl) (.inr rfl) (.inr rfl) (.inr rfl) (.inr rfl) (.inr rfl) (.inr rfl) (.inr rfl)
  exact .refl _ _
  exact .refl _ _

theorem execSampleLanding_only {port : Fin 32} {x : BitVec 24} {tag : BitVec 4} {s : State} {u : State} (h : execSampleLanding port x tag s = .next u) :
    Only [.ports, .tur, .fl, .tmr, .link, .due, .free] s u := by
  injection h with h
  subst h
  refine inCore_only ?_
  refine .ite ?_ ?_
  exact .mono (landSample_only ..)
  exact .refl _ _

theorem execTripInputChange_only {m : Fin 64} {level : Bool} {s : State} {u : State} (h : execTripInputChange m level s = .next u) :
    Only [.ports, .tur] s u := by
  injection h with h
  subst h
  refine inCore_only ?_
  refine .ite ?_ ?_
  refine .trans ?_ (raiseData_only ..)
  refine .upd ?_ (.inr rfl) (.inr rfl) (.inl rfl) (.inr rfl) (.inr rfl) (.inl rfl) (.inr rfl) (.inr rfl) (.inr rfl) (.inr rfl) (.inr rfl) (.inr rfl) (.inr rfl) (.inr rfl) (.inr rfl) (.inr rfl) (.inr rfl) (.inr rfl) (.inr rfl) (.inr rfl) (.inr rfl) (.inr rfl) (.inr rfl) (.inr rfl) (.inr rfl) (.inr rfl)
  exact .refl _ _
  exact .refl _ _

theorem execShutInputChange_only {level : Bool} {s : State} {u : State} (h : execShutInputChange level s = .next u) :
    Only [.ports, .tur, .shut, .link, .lg] s u := by
  injection h with h
  subst h
  refine inCore_only ?_
  refine .trans ?_ (shutAssertIf_only ..)
  refine .upd ?_ (.inr rfl) (.inr rfl) (.inl rfl) (.inr rfl) (.inr rfl) (.inl rfl) (.inr rfl) (.inl rfl) (.inr rfl) (.inr rfl) (.inr rfl) (.inr rfl) (.inr rfl) (.inr rfl) (.inr rfl) (.inr rfl) (.inr rfl) (.inl rfl) (.inl rfl) (.inr rfl) (.inr rfl) (.inr rfl) (.inr rfl) (.inr rfl) (.inr rfl) (.inr rfl)
  exact .refl _ _

theorem execGateEvaluate_only {s : State} {u : State} (h : execGateEvaluate s = .next u) :
    Only [.gate] s u := by
  injection h with h
  subst h
  refine inCore_only ?_
  refine .ite ?_ ?_
  exact gateEvaluate_only ..
  exact .refl _ _

theorem execGateEnable_only {w : Who} {k : Fin 8} {v : U32} {s : State} {u : State} (hw : writeRefused s w (0xE000 + 0x40 * k) = false)
    (h : execGateEnable w k v s = .next u) :
    Only [.tur, .gate, .shut, .seq, .mem, .link, .lg, .dbg, .due, .apb] s u := by
  injection h with h
  subst h
  refine regCommandErr_only _ ‹_› ?_
  exact .mono (gateStore_only ..)

theorem execGateRestart_only {w : Who} {k : Fin 8} {v : U32} {s : State} {u : State} (hw : writeRefused s w (0xE000 + 0x40 * k) = false)
    (h : execGateRestart w k v s = .next u) :
    Only [.tur, .gate, .shut, .seq, .mem, .link, .lg, .dbg, .due, .apb] s u := by
  injection h with h
  subst h
  refine regCommandErr_only _ ‹_› ?_
  exact .mono (gateStore_only ..)

theorem execGateTableStore_only {w : Who} {k : Fin 8} {g : GateReg} {v : U32} {s : State} {u : State} (hw : writeRefused s w (GateReg.off k g) = false)
    (h : execGateTableStore w k g v s = .next u) :
    Only [.tur, .gate, .shut, .seq, .mem, .link, .lg, .dbg, .due, .apb] s u := by
  injection h with h
  subst h
  refine regCommandErr_only _ ‹_› ?_
  exact .mono (gateStore_only ..)

theorem execShutreqSet_only {w : Who} {v : U32} {s : State} {u : State} (hw : writeRefused s w 0xE400 = false)
    (h : execShutreqSet w v s = .next u) :
    Only [.tur, .shut, .link, .lg, .apb] s u := by
  injection h with h
  subst h
  refine regCommand_only _ ‹_› ?_
  exact .mono (writeShutreq_only ..)

theorem execShutreqClear_only {w : Who} {v : U32} {s : State} {u : State} (hw : writeRefused s w 0xE400 = false)
    (h : execShutreqClear w v s = .next u) :
    Only [.tur, .shut, .link, .lg, .apb] s u := by
  injection h with h
  subst h
  refine regCommand_only _ ‹_› ?_
  exact .mono (writeShutreq_only ..)

theorem execShutctlRearm_only {w : Who} {v : U32} {s : State} {u : State} (hw : writeRefused s w 0xE40C = false)
    (h : execShutctlRearm w v s = .next u) :
    Only [.tur, .gate, .shut, .seq, .mem, .link, .lg, .dbg, .due, .apb] s u := by
  injection h with h
  subst h
  refine regCommandErr_only _ ‹_› ?_
  exact .mono (shutWrite_only ..)

theorem execWatchdogEnable_only {w : Who} {v : U32} {s : State} {u : State} (hw : writeRefused s w 0x26000 = false)
    (h : execWatchdogEnable w v s = .next u) :
    Only [.wdog, .apb] s u := by
  injection h with h
  subst h
  refine regCommand_only _ ‹_› ?_
  exact .mono (writeWdog_only ..)

theorem execWatchdogLock_only {w : Who} {v : U32} {s : State} {u : State} (hw : writeRefused s w 0x26000 = false)
    (h : execWatchdogLock w v s = .next u) :
    Only [.wdog, .apb] s u := by
  injection h with h
  subst h
  refine regCommand_only _ ‹_› ?_
  exact .mono (writeWdog_only ..)

theorem execWatchdogService_only {w : Who} {v : U32} {s : State} {u : State} (hw : writeRefused s w 0x2600C = false)
    (h : execWatchdogService w v s = .next u) :
    Only [.tur, .shut, .wdog, .link, .lg, .apb] s u := by
  injection h with h
  subst h
  refine regCommand_only _ ‹_› ?_
  exact .mono (wdogService_only ..)

theorem execWatchdogWindowOpen_only {s : State} {u : State} (h : execWatchdogWindowOpen s = .next u) :
    Only [.tur, .wdog] s u := by
  injection h with h
  subst h
  refine inCore_only ?_
  refine .ite ?_ ?_
  refine .trans ?_ (raise_only ..)
  refine .upd ?_ (.inr rfl) (.inr rfl) (.inr rfl) (.inr rfl) (.inr rfl) (.inl rfl) (.inr rfl) (.inr rfl) (.inl rfl) (.inr rfl) (.inr rfl) (.inr rfl) (.inr rfl) (.inr rfl) (.inr rfl) (.inr rfl) (.inr rfl) (.inr rfl) (.inr rfl) (.inr rfl) (.inr rfl) (.inr rfl) (.inr rfl) (.inr rfl) (.inr rfl) (.inr rfl)
  exact .refl _ _
  exact .refl _ _

theorem execWatchdogExpiry_only {s : State} {u : State} (h : execWatchdogExpiry s = .next u) :
    Only [.tur, .shut, .wdog, .link, .lg] s u := by
  injection h with h
  subst h
  refine inCore_only ?_
  refine .ite ?_ ?_
  exact .mono (wdogExpire_only ..)
  exact .refl _ _

theorem execWatchdogResetRequest_only {s : State} {u : State} (h : execWatchdogResetRequest s = .next u) :
    Only [.wdog, .pwr] s u := by
  injection h with h
  subst h
  refine inCore_only ?_
  split
  refine .ite ?_ ?_
  refine .trans ?_ (requestReset_only ..)
  refine .upd ?_ (.inr rfl) (.inr rfl) (.inr rfl) (.inr rfl) (.inr rfl) (.inr rfl) (.inr rfl) (.inr rfl) (.inl rfl) (.inr rfl) (.inr rfl) (.inr rfl) (.inr rfl) (.inr rfl) (.inr rfl) (.inr rfl) (.inr rfl) (.inr rfl) (.inr rfl) (.inr rfl) (.inl rfl) (.inr rfl) (.inr rfl) (.inr rfl) (.inr rfl) (.inr rfl)
  exact .refl _ _
  exact .refl _ _
  exact .refl _ _

theorem execOperationMicroword_only {n : Fin 16} {s : State} {u : State} (h : execOperationMicroword n s = .next u) :
    Only [.tur, .wdog, .seq, .mem, .link, .due, .free] s u := by
  injection h with h
  subst h
  exact .mono (issue_only ..)

theorem execLoadDataReturn_only {n : Fin 16} {resp : LoadResp} {s : State} {u : State} (h : execLoadDataReturn n resp s = .next u) :
    Only [.tur, .wdog, .fl, .tmr, .rider, .hg, .seq, .mem, .link, .lg, .nvm, .due, .free] s u := by
  injection h with h
  subst h
  refine inCore_only ?_
  exact loadReturn_only ..

theorem execPostedStoreError_only {n : Fin 16} {addr : U32} {s : State} {u : State} (h : execPostedStoreError n addr s = .next u) :
    Only [.seq] s u := by
  injection h with h
  subst h
  refine inCore_only ?_
  exact .mono (storeError_only ..)

theorem execBr_only {n : Fin 16} {s : State} {u : State} (h : execBr n s = .next u) :
    Only [.tur, .wdog, .seq, .mem, .link, .due, .free] s u := by
  injection h with h
  subst h
  exact .mono (issue_only ..)

theorem execCall_only {n : Fin 16} {s : State} {u : State} (h : execCall n s = .next u) :
    Only [.tur, .wdog, .seq, .mem, .link, .due, .free] s u := by
  injection h with h
  subst h
  exact .mono (issue_only ..)

theorem execRet_only {n : Fin 16} {s : State} {u : State} (h : execRet n s = .next u) :
    Only [.tur, .wdog, .seq, .mem, .link, .due, .free] s u := by
  injection h with h
  subst h
  exact .mono (issue_only ..)

theorem execRetExc_only {n : Fin 16} {s : State} {u : State} (h : execRetExc n s = .next u) :
    Only [.tur, .wdog, .seq, .mem, .link, .due, .free] s u := by
  injection h with h
  subst h
  exact .mono (issue_only ..)

theorem execRep_only {n : Fin 16} {s : State} {u : State} (h : execRep n s = .next u) :
    Only [.tur, .wdog, .seq, .mem, .link, .due, .free] s u := by
  injection h with h
  subst h
  exact .mono (issue_only ..)

theorem execRepn_only {n : Fin 16} {s : State} {u : State} (h : execRepn n s = .next u) :
    Only [.tur, .wdog, .seq, .mem, .link, .due, .free] s u := by
  injection h with h
  subst h
  exact .mono (issue_only ..)

theorem execLi_only {n : Fin 16} {s : State} {u : State} (h : execLi n s = .next u) :
    Only [.tur, .wdog, .seq, .mem, .link, .due, .free] s u := by
  injection h with h
  subst h
  exact .mono (issue_only ..)

theorem execLr_only {n : Fin 16} {s : State} {u : State} (h : execLr n s = .next u) :
    Only [.tur, .wdog, .seq, .mem, .link, .due, .free] s u := by
  injection h with h
  subst h
  exact .mono (issue_only ..)

theorem execSc_only {n : Fin 16} {s : State} {u : State} (h : execSc n s = .next u) :
    Only [.tur, .wdog, .seq, .mem, .link, .due, .free] s u := by
  injection h with h
  subst h
  exact .mono (issue_only ..)

theorem execReservationExpiry_only {n : Fin 16} {s : State} {u : State} (h : execReservationExpiry n s = .next u) :
    Only [.seq] s u := by
  injection h with h
  subst h
  refine inCore_only ?_
  exact .mono (reservationExpiry_only ..)

theorem execSys_only {n : Fin 16} {s : State} {u : State} (h : execSys n s = .next u) :
    Only [.tur, .wdog, .seq, .mem, .link, .due, .free] s u := by
  injection h with h
  subst h
  exact .mono (issue_only ..)

theorem execMode_only {n : Fin 16} {s : State} {u : State} (h : execMode n s = .next u) :
    Only [.tur, .wdog, .seq, .mem, .link, .due, .free] s u := by
  injection h with h
  subst h
  exact .mono (issue_only ..)

theorem execWait_only {n : Fin 16} {s : State} {u : State} (h : execWait n s = .next u) :
    Only [.tur, .wdog, .seq, .mem, .link, .due, .free] s u := by
  injection h with h
  subst h
  exact .mono (issue_only ..)

theorem execWaitEnd_only {n : Fin 16} {s : State} {u : State} (h : execWaitEnd n s = .next u) :
    Only [.seq, .free] s u := by
  injection h with h
  subst h
  refine inCore_only ?_
  exact .mono (waitEnd_only ..)

theorem execWaitTimeout_only {n : Fin 16} {s : State} {u : State} (h : execWaitTimeout n s = .next u) :
    Only [.seq] s u := by
  injection h with h
  subst h
  refine inCore_only ?_
  exact .mono (waitTimeout_only ..)

theorem execFence_only {n : Fin 16} {s : State} {u : State} (h : execFence n s = .next u) :
    Only [.tur, .wdog, .seq, .mem, .link, .due, .free] s u := by
  injection h with h
  subst h
  exact .mono (issue_only ..)

theorem execFenceComplete_only {n : Fin 16} {s : State} {u : State} (h : execFenceComplete n s = .next u) :
    Only [.seq] s u := by
  injection h with h
  subst h
  refine inCore_only ?_
  exact .mono (fenceComplete_only ..)

theorem execExceptionEntry_only {n : Fin 16} {s : State} {u : State} (h : execExceptionEntry n s = .next u) :
    Only [.tur, .wdog, .seq, .mem, .link, .due, .free] s u := by
  injection h with h
  subst h
  refine inCore_only ?_
  exact .mono (exceptionEntry_only ..)

theorem execEventDispatch_only {n : Fin 16} {s : State} {u : State} (h : execEventDispatch n s = .next u) :
    Only [.tur, .wdog, .seq, .mem, .due] s u := by
  injection h with h
  subst h
  refine inCore_only ?_
  exact .mono (eventDispatch_only ..)

theorem execThreadStart_only {k : Slot} {s : State} {u : State} (h : execThreadStart k s = .next u) :
    Only [.tur, .hg, .seq, .link] s u := by
  injection h with h
  subst h
  refine .of' ?_ (runShort_only _ _ _ _ (fun c s => ?_) _)
  exact .refl _ _
  exact .mono (threadStart_only ..)

theorem execThreadStop_only {k : Slot} {s : State} {u : State} (h : execThreadStop k s = .next u) :
    Only [.tur, .wdog, .hg, .seq, .link] s u := by
  injection h with h
  subst h
  refine .of' ?_ (runCmd_only _ _ _ _ (fun c s => ?_) (fun c s => ?_) _)
  exact .refl _ _
  exact .mono (threadStop_only ..)
  exact .mono (threadStopOn_only ..)

theorem execThreadReset_only {k : Slot} {s : State} {u : State} (h : execThreadReset k s = .next u) :
    Only [.tur, .wdog, .hg, .seq, .link, .due] s u := by
  injection h with h
  subst h
  refine .of' ?_ (runShort_only _ _ _ _ (fun c s => ?_) _)
  exact .refl _ _
  exact .mono (threadReset_only ..)

theorem execDoorbell_only {w : Who} {r : Fin 4} {v : U32} {s : State} {u : State} (hw : writeRefused s w (0x2100 + 4 * r) = false)
    (h : execDoorbell w r v s = .next u) :
    Only [.tur, .hg, .pwr, .apb] s u := by
  injection h with h
  subst h
  refine regCommand_only _ ‹_› ?_
  exact .mono (writeDoorbell_only ..)

theorem execRingEnable_only {w : Who} {v : U32} {s : State} {u : State} (hw : writeRefused s w 0x2004 = false)
    (h : execRingEnable w v s = .next u) :
    Only [.tur, .hg, .mem, .bist, .apb] s u := by
  injection h with h
  subst h
  refine regCommand_only _ ‹_› ?_
  exact .mono (writeHgctl_only ..)

theorem execHeadShadowEnable_only {w : Who} {v : U32} {s : State} {u : State} (hw : writeRefused s w 0x2004 = false)
    (h : execHeadShadowEnable w v s = .next u) :
    Only [.tur, .hg, .mem, .bist, .apb] s u := by
  injection h with h
  subst h
  refine regCommand_only _ ‹_› ?_
  exact .mono (writeHgctl_only ..)

theorem execHeadShadowWrite_only {s : State} {u : State} (h : execHeadShadowWrite s = .next u) :
    Only [.hg, .mem] s u := by
  injection h with h
  subst h
  refine inCore_only ?_
  refine .ite ?_ ?_
  dsimp only
  refine .upd ?_ (.inr rfl) (.inr rfl) (.inr rfl) (.inr rfl) (.inr rfl) (.inr rfl) (.inr rfl) (.inr rfl) (.inr rfl) (.inr rfl) (.inr rfl) (.inr rfl) (.inr rfl) (.inr rfl) (.inl rfl) (.inr rfl) (.inl rfl) (.inr rfl) (.inr rfl) (.inr rfl) (.inr rfl) (.inr rfl) (.inr rfl) (.inr rfl) (.inr rfl) (.inr rfl)
  exact .mono (hostWrite_only ..)
  exact .refl _ _

theorem execCqHeadWrite_only {w : Who} {eq : Bool} {v : U32} {s : State} {u : State} (hw : writeRefused s w (if eq then 0x20EC else 0x20CC) = false)
    (h : execCqHeadWrite w eq v s = .next u) :
    Only [.tur, .hg, .apb] s u := by
  injection h with h
  subst h
  refine regCommand_only _ ‹_› ?_
  exact .mono (writeRingHead_only ..)

theorem execRingResume_only {w : Who} {v : U32} {s : State} {u : State} (hw : writeRefused s w 0x2000 = false)
    (h : execRingResume w v s = .next u) :
    Only [.hg, .apb] s u := by
  injection h with h
  subst h
  refine regCommand_only _ ‹_› ?_
  exact .mono (writeHgstat_only ..)

theorem execSubmissionFetch_only {entry : BitVec 512} {s : State} {u : State} (h : execSubmissionFetch entry s = .next u) :
    Only [.tur, .hg] s u := by
  injection h with h
  subst h
  exact .mono (submissionFetch_only ..)

theorem execEntryReadError_only {s : State} {u : State} (h : execEntryReadError s = .next u) :
    Only [.tur, .hg, .mem] s u := by
  injection h with h
  subst h
  refine inCore_only ?_
  split
  exact .refl _ _
  dsimp only
  refine .trans ?_ (hgUpdate_only ..)
  refine .trans ?_ (raise_only ..)
  refine .trans ?_ (cqWrite_only ..)
  refine .trans ?_ (hwSet_only ..)
  refine .upd ?_ (.inr rfl) (.inr rfl) (.inr rfl) (.inr rfl) (.inr rfl) (.inl rfl) (.inr rfl) (.inr rfl) (.inr rfl) (.inr rfl) (.inr rfl) (.inr rfl) (.inr rfl) (.inr rfl) (.inl rfl) (.inr rfl) (.inl rfl) (.inr rfl) (.inr rfl) (.inr rfl) (.inr rfl) (.inr rfl) (.inr rfl) (.inr rfl) (.inr rfl) (.inr rfl)
  exact .refl _ _

theorem execCompletionWrite_only {k : Slot} {s : State} {u : State} (h : execCompletionWrite k s = .next u) :
    Only [.tur, .hg, .mem, .link] s u := by
  injection h with h
  subst h
  exact .mono (completionWrite_only ..)

theorem execNop_only {k : Slot} {s : State} {u : State} (h : execNop k s = .next u) : Only [.tur, .hg, .link] s u := by
  injection h with h
  subst h
  refine .of' ?_ (runShort_only _ _ _ _ (fun c s => ?_) _)
  exact .refl _ _
  exact .mono (done_only ..)

theorem execQuery_only {k : Slot} {s : State} {u : State} (h : execQuery k s = .next u) : Only [.tur, .hg, .link] s u := by
  injection h with h
  subst h
  refine .of' ?_ (runShort_only _ _ _ _ (fun c s => ?_) _)
  exact .refl _ _
  exact .mono (done_only ..)

theorem execImageLoad_only {k : Slot} {pass1 : HostRead} {pass2 : HostRead} {s : State} {u : State} (h : execImageLoad k pass1 pass2 s = .next u) :
    Only [.tur, .gate, .shut, .rider, .hg, .seq, .mem, .link, .lg, .nvm, .free] s u := by
  injection h with h
  subst h
  refine .of' ?_ (runShort_only _ _ _ _ (fun c s => ?_) _)
  exact .refl _ _
  exact .mono (imageLoad_only ..)

theorem execImageActivate_only {k : Slot} {s : State} {u : State} (h : execImageActivate k s = .next u) :
    Only [.tur, .hg, .seq, .mem, .link, .lg, .nvm, .free] s u := by
  injection h with h
  subst h
  refine .of' ?_ (runShort_only _ _ _ _ (fun c s => ?_) _)
  exact .refl _ _
  exact .mono (imageActivate_only ..)

theorem execPatchApply_only {k : Slot} {patch : HostRead} {s : State} {u : State} (h : execPatchApply k patch s = .next u) :
    Only [.tur, .hg, .seq, .mem, .link] s u := by
  injection h with h
  subst h
  refine .of' ?_ (runShort_only _ _ _ _ (fun c s => ?_) _)
  exact .refl _ _
  exact .mono (patchApply_only ..)

theorem execCoefWrite_only {k : Slot} {s : State} {u : State} (h : execCoefWrite k s = .next u) :
    Only [.tur, .fl, .hg, .link, .due] s u := by
  injection h with h
  subst h
  refine .of' ?_ (runShort_only _ _ _ _ (fun c s => ?_) _)
  exact .refl _ _
  exact .mono (coefCommand_only ..)

theorem execSetpoint_only {k : Slot} {s : State} {u : State} (h : execSetpoint k s = .next u) :
    Only [.tur, .hg, .seq, .mem, .link] s u := by
  injection h with h
  subst h
  refine .of' ?_ (runShort_only _ _ _ _ (fun c s => ?_) _)
  exact .refl _ _
  exact .mono (setpointCommand_only ..)

theorem execArm_only {k : Slot} {s : State} {u : State} (h : execArm k s = .next u) :
    Only [.tur, .fl, .tmr, .hg, .link, .due] s u := by
  injection h with h
  subst h
  refine .of' ?_ (runShort_only _ _ _ _ (fun c s => ?_) _)
  exact .refl _ _
  exact .mono (armCommand_only ..)

theorem execDisarm_only {k : Slot} {s : State} {u : State} (h : execDisarm k s = .next u) :
    Only [.out, .tur, .fl, .tmr, .hg, .link, .due] s u := by
  injection h with h
  subst h
  refine .of' ?_ (runShort_only _ _ _ _ (fun c s => ?_) _)
  exact .refl _ _
  exact .mono (disarmCommand_only ..)

theorem execRearm_only {k : Slot} {s : State} {u : State} (h : execRearm k s = .next u) :
    Only [.tur, .gate, .shut, .hg, .link] s u := by
  injection h with h
  subst h
  refine .of' ?_ (runCmd_only _ _ _ _ (fun c s => ?_) (fun c s => ?_) _)
  exact .refl _ _
  exact .mono (rearmCommand_only ..)
  exact .mono (rearmOn_only ..)

theorem execLinkEnum_only {k : Slot} {s : State} {u : State} (h : execLinkEnum k s = .next u) :
    Only [.tur, .hg, .link] s u := by
  injection h with h
  subst h
  refine .of' ?_ (runShort_only _ _ _ _ (fun c s => ?_) _)
  exact .refl _ _
  exact .mono (linkEnum_only ..)

theorem execLinkRole_only {k : Slot} {s : State} {u : State} (h : execLinkRole k s = .next u) :
    Only [.tur, .hg, .seq, .mem, .link, .lg, .nvm, .free] s u := by
  injection h with h
  subst h
  refine .of' ?_ (runShort_only _ _ _ _ (fun c s => ?_) _)
  exact .refl _ _
  exact .mono (linkRole_only ..)

theorem execLinkSend_only {k : Slot} {payload : HostRead} {s : State} {u : State} (h : execLinkSend k payload s = .next u) :
    Only [.tur, .hg, .link] s u := by
  injection h with h
  subst h
  refine .of' ?_ (runShort_only _ _ _ _ (fun c s => ?_) _)
  exact .refl _ _
  exact .mono (linkSend_only ..)

theorem execLedgerRead_only {k : CopySlot} {s : State} {u : State} (h : execLedgerRead k s = .next u) :
    Only [.tur, .hg, .mem, .link] s u := by
  injection h with h
  subst h
  refine .of' ?_ (runShort_only _ _ _ _ (fun c s => ?_) _)
  exact .refl _ _
  exact .mono (ledgerRead_only ..)

theorem execLedgerBind_only {k : Slot} {s : State} {u : State} (h : execLedgerBind k s = .next u) :
    Only [.tur, .hg, .mem, .link, .lg, .free] s u := by
  injection h with h
  subst h
  refine .of' ?_ (runShort_only _ _ _ _ (fun c s => ?_) _)
  exact .refl _ _
  exact .mono (ledgerBindCommand_only ..)

theorem execNvmErase_only {k : Slot} {s : State} {u : State} (h : execNvmErase k s = .next u) :
    Only [.tur, .hg, .seq, .mem, .link, .lg, .nvm, .free] s u := by
  injection h with h
  subst h
  refine .of' ?_ (runShort_only _ _ _ _ (fun c s => ?_) _)
  exact .refl _ _
  exact .mono (nvmErase_only ..)

theorem execNvmProgram_only {k : Slot} {src : HostRead} {s : State} {u : State} (h : execNvmProgram k src s = .next u) :
    Only [.tur, .hg, .seq, .mem, .link, .lg, .nvm, .free] s u := by
  injection h with h
  subst h
  refine .of' ?_ (runShort_only _ _ _ _ (fun c s => ?_) _)
  exact .refl _ _
  exact .mono (nvmProgram_only ..)

theorem execNvmRead_only {k : CopySlot} {s : State} {u : State} (h : execNvmRead k s = .next u) :
    Only [.tur, .hg, .mem, .link, .nvm, .free] s u := by
  injection h with h
  subst h
  refine .of' ?_ (runShort_only _ _ _ _ (fun c s => ?_) _)
  exact .refl _ _
  exact .mono (nvmRead_only ..)

theorem execBistRun_only {k : Slot} {s : State} {u : State} (h : execBistRun k s = .next u) :
    Only [.clk, .ports, .out, .tur, .wdog, .fl, .tmr, .gp, .rider, .cul, .hg, .seq, .mem, .link, .lg, .nvm, .pwr, .bist, .due, .free] s u := by
  injection h with h
  subst h
  refine .of' ?_ (runCmd_only _ _ _ _ (fun c s => ?_) (fun c s => ?_) _)
  exact .refl _ _
  exact .mono (bistRun_only ..)
  exact .mono (bistOnward_only ..)

theorem execDebugPolicy_only {k : Slot} {s : State} {u : State} (h : execDebugPolicy k s = .next u) :
    Only [.tur, .wdog, .hg, .seq, .link, .dbg] s u := by
  injection h with h
  subst h
  refine .of' ?_ (runShort_only _ _ _ _ (fun c s => ?_) _)
  exact .refl _ _
  exact .mono (debugPolicy_only ..)

theorem execLogicBistDone_only {misr : U64} {s : State} {u : State} (h : execLogicBistDone misr s = .next u) :
    Only [.bist, .free] s u := by
  injection h with h
  subst h
  exact .mono (logicDone_only ..)

theorem execMemoryBistDone_only {misr : U64} {mfail : BitVec 8} {ms : BitVec 8} {s : State} {u : State} (h : execMemoryBistDone misr mfail ms s = .next u) :
    Only [.bist] s u := by
  injection h with h
  subst h
  exact .mono (memoryDone_only ..)

theorem execPostBistReset_only {s : State} {u : State} (h : execPostBistReset s = .next u) :
    Only [.clk, .ports, .out, .outcal, .tur, .gate, .shut, .wdog, .fl, .tmr, .gp, .rider, .cul, .hg, .seq, .mem, .link, .lg, .nvm, .pwr, .dbg, .bist, .due, .free] s u := by
  injection h with h
  subst h
  exact .mono (postBist_only ..)

theorem execDbist_only {v : U32} {s : State} {u : State} (h : execDbist v s = .next u) :
    Only [.clk, .ports, .out, .tur, .wdog, .fl, .tmr, .gp, .rider, .cul, .hg, .seq, .mem, .link, .lg, .nvm, .pwr, .dbg, .bist, .due, .free] s u := by
  injection h with h
  subst h
  exact .mono (writeSpace_only ..)

theorem execPostlStage_only {w : Who} {n : Fin 96} {v : U32} {s : State} {u : State} (hw : writeRefused s w (0x8018 + 0x20 * n) = false)
    (h : execPostlStage w n v s = .next u) :
    Only [.out, .apb] s u := by
  injection h with h
  subst h
  refine regCommand_only _ ‹_› ?_
  exact .mono (stagePostl_only ..)

theorem execPosthPost_only {w : Who} {n : Fin 96} {v : U32} {s : State} {u : State} (hw : writeRefused s w (0x801C + 0x20 * n) = false)
    (h : execPosthPost w n v s = .next u) :
    Only [.out, .tur, .due, .apb] s u := by
  injection h with h
  subst h
  refine regCommand_only _ ‹_› ?_
  exact .mono (writePosth_only ..)

theorem execEntryMove_only {n : Fin 96} {s : State} {u : State} (h : execEntryMove n s = .next u) :
    Only [.out, .tur] s u := by
  injection h with h
  subst h
  refine inCore_only ?_
  exact .mono (entryMove_only ..)

theorem execEdgeRetire_only {n : Fin 96} {s : State} {u : State} (h : execEdgeRetire n s = .next u) :
    Only [.out] s u := by
  injection h with h
  subst h
  refine inCore_only ?_
  exact .mono (edgeRetire_only ..)

theorem execHoldRetire_only {n : Fin 96} {s : State} {u : State} (h : execHoldRetire n s = .next u) :
    Only [.out] s u := by
  injection h with h
  subst h
  refine inCore_only ?_
  exact .mono (holdRetire_only ..)

theorem execFlush_only {w : Who} {n : Fin 96} {s : State} {u : State} (hw : writeRefused s w (0x8000 + 0x20 * n) = false)
    (h : execFlush w n s = .next u) :
    Only [.out, .apb] s u := by
  injection h with h
  subst h
  refine regCommand_only _ ‹_› ?_
  exact .mono (flushOut_only ..)

theorem execOwnerWrite_only {w : Who} {n : Fin 96} {v : BitVec 2} {s : State} {u : State} (hw : writeRefused s w (0x8000 + 0x20 * n) = false)
    (h : execOwnerWrite w n v s = .next u) :
    Only [.out, .apb] s u := by
  injection h with h
  subst h
  refine regCommand_only _ ‹_› ?_
  exact .mono (writeOwner_only ..)

theorem execStaticLevelWrite_only {w : Who} {n : Fin 96} {v : Bool} {s : State} {u : State} (hw : writeRefused s w (0x8000 + 0x20 * n) = false)
    (h : execStaticLevelWrite w n v s = .next u) :
    Only [.out, .tur, .apb] s u := by
  injection h with h
  subst h
  refine regCommand_only _ ‹_› ?_
  exact .mono (writeLvl_only ..)

theorem execOutputEnableWrite_only {w : Who} {n : Fin 96} {v : Bool} {s : State} {u : State} (hw : writeRefused s w (0x8000 + 0x20 * n) = false)
    (h : execOutputEnableWrite w n v s = .next u) :
    Only [.out, .due, .apb] s u := by
  injection h with h
  subst h
  refine regCommand_only _ ‹_› ?_
  exact .mono (writeOen_only ..)

theorem execOutputEnableRaise_only {n : Fin 96} {s : State} {u : State} (h : execOutputEnableRaise n s = .next u) :
    Only [.out] s u := by
  injection h with h
  subst h
  refine inCore_only ?_
  refine .ite ?_ ?_
  exact .mono (State.modOut_only ..)
  exact .refl _ _

theorem execPairWrite_only {w : Who} {n : Fin 96} {v : Bool} {s : State} {u : State} (hw : writeRefused s w (0x8000 + 0x20 * n) = false)
    (h : execPairWrite w n v s = .next u) :
    Only [.out, .tur, .apb] s u := by
  injection h with h
  subst h
  refine regCommand_only _ ‹_› ?_
  exact .mono (writePair_only ..)

theorem execCalibrationUpdate_only {rawtap : BitVec 8} {trkerr : Bool} {s : State} {u : State} (h : execCalibrationUpdate rawtap trkerr s = .next u) :
    Only [.out, .outcal, .tur] s u := by
  injection h with h
  subst h
  refine inCore_only ?_
  refine .ite ?_ ?_
  refine .trans ?_ (applyTaps_only ..)
  refine .trans ?_ (hwSetIf_only ..)
  refine .upd ?_ (.inr rfl) (.inr rfl) (.inr rfl) (.inl rfl) (.inl rfl) (.inl rfl) (.inr rfl) (.inr rfl) (.inr rfl) (.inr rfl) (.inr rfl) (.inr rfl) (.inr rfl) (.inr rfl) (.inr rfl) (.inr rfl) (.inr rfl) (.inr rfl) (.inr rfl) (.inr rfl) (.inr rfl) (.inr rfl) (.inr rfl) (.inr rfl) (.inr rfl) (.inr rfl)
  exact .refl _ _
  exact .refl _ _

theorem execFlumeArm_only {w : Who} {n : Fin 32} {v : U32} {s : State} {u : State} (hw : writeRefused s w (0x9000 + 0x40 * n) = false)
    (h : execFlumeArm w n v s = .next u) :
    Only [.tur, .fl, .tmr, .due, .apb] s u := by
  injection h with h
  subst h
  refine regCommand_only _ ‹_› ?_
  exact .mono (writeFlCtl_only ..)

theorem execFlumeDisarm_only {w : Who} {n : Fin 32} {v : U32} {s : State} {u : State} (hw : writeRefused s w (0x9000 + 0x40 * n) = false)
    (h : execFlumeDisarm w n v s = .next u) :
    Only [.tur, .fl, .tmr, .due, .apb] s u := by
  injection h with h
  subst h
  refine regCommand_only _ ‹_› ?_
  exact .mono (writeFlCtl_only ..)

theorem execFlumeConfigWrite_only {w : Who} {n : Fin 32} {r : FlumeReg} {v : U32} {s : State} {u : State} (hw : writeRefused s w (0x9000 + 0x40 * n + FlumeReg.off r) = false)
    (h : execFlumeConfigWrite w n r v s = .next u) :
    Only [.tur, .fl, .tmr, .due, .apb] s u := by
  injection h with h
  subst h
  refine regCommand_only _ ‹_› ?_
  exact .mono (writeFlReg_only ..)

theorem execPendingBankWrite_only {w : Who} {n : Fin 32} {v : U32} {s : State} {u : State} (hw : writeRefused s w (0x9038 + 0x40 * n) = false)
    (h : execPendingBankWrite w n v s = .next u) :
    Only [.tur, .fl, .due, .apb] s u := by
  injection h with h
  subst h
  refine regCommand_only _ ‹_› ?_
  exact .mono (writePbdata_only ..)

theorem execPbdataRead_only {w : Who} {n : Fin 32} {s : State} {u : State} (h : execPbdataRead w n s = .next u) :
    Only [.ports, .out, .outcal, .tur, .gate, .shut, .wdog, .fl, .tmr, .rider, .cul, .hg, .seq, .mem, .link, .lg, .nvm, .pwr, .dbg, .bist, .due, .apb, .free] s u := by
  injection h with h
  subst h
  exact .mono (readRow_only ..)

theorem execBankSeal_only {w : Who} {n : Fin 32} {v : U32} {s : State} {u : State} (hw : writeRefused s w (0x903C + 0x40 * n) = false)
    (h : execBankSeal w n v s = .next u) :
    Only [.tur, .fl, .tmr, .due, .apb] s u := by
  injection h with h
  subst h
  refine regCommand_only _ ‹_› ?_
  exact .mono (flWrite_only ..)

theorem execCarrierBoundary_only {n : Fin 32} {s : State} {u : State} (h : execCarrierBoundary n s = .next u) :
    Only [.tur, .fl, .due] s u := by
  injection h with h
  subst h
  refine inCore_only ?_
  exact .mono (withBoundary_only ..)

theorem execWindowCloseMiss_only {n : Fin 32} {s : State} {u : State} (h : execWindowCloseMiss n s = .next u) :
    Only [.out, .tur, .fl, .due] s u := by
  injection h with h
  subst h
  refine inCore_only ?_
  refine .ite ?_ ?_
  dsimp only
  refine .ite ?_ ?_
  refine .trans ?_ (finish_only ..)
  refine .trans ?_ (flFlag_only ..)
  refine .trans ?_ (gateFlag_only ..)
  exact .mono (State.modFl_only ..)
  refine .ite ?_ ?_
  refine .trans ?_ (flFlag_only ..)
  refine .trans ?_ (gateFlag_only ..)
  exact .mono (State.modFl_only ..)
  refine .trans ?_ (startAction_only ..)
  refine .trans ?_ (flFlag_only ..)
  refine .trans ?_ (gateFlag_only ..)
  exact .mono (State.modFl_only ..)
  exact .refl _ _

theorem execCrossingFallback_only {n : Fin 32} {s : State} {u : State} (h : execCrossingFallback n s = .next u) :
    Only [.out, .tur, .fl, .due] s u := by
  injection h with h
  subst h
  refine inCore_only ?_
  refine .ite ?_ ?_
  dsimp only
  refine .trans ?_ (commit_only ..)
  refine .trans ?_ (flFlag_only ..)
  refine .trans ?_ (gateFlag_only ..)
  refine .trans ?_ (State.modFl_only ..)
  refine .trans ?_ (dropActs_only ..)
  exact .mono (withBoundary_only ..)
  exact .refl _ _

theorem execMailboxRead_only {w : Who} {n : Fin 32} {m : Mailbox} {s : State} {u : State} (h : execMailboxRead w n m s = .next u) :
    Only [.ports, .out, .outcal, .tur, .gate, .shut, .wdog, .fl, .tmr, .rider, .cul, .hg, .seq, .mem, .link, .lg, .nvm, .pwr, .dbg, .bist, .due, .apb, .free] s u := by
  injection h with h
  subst h
  exact .mono (readRow_only ..)

theorem execSmpctlWrite_only {w : Who} {v : U32} {s : State} {u : State} (hw : writeRefused s w 0x1800 = false)
    (h : execSmpctlWrite w v s = .next u) :
    Only [.ports, .tur, .apb] s u := by
  injection h with h
  subst h
  refine regCommand_only _ ‹_› ?_
  exact .mono (smpctlWrite_only ..)

theorem execTimerTick_only {n : Fin 32} {s : State} {u : State} (h : execTimerTick n s = .next u) :
    Only [.ports, .tur, .tmr, .cul, .due] s u := by
  injection h with h
  subst h
  refine inCore_only ?_
  refine .ite ?_ ?_
  exact .mono (timerTick_only ..)
  exact .refl _ _

theorem execTimerWrap_only {n : Fin 32} {s : State} {u : State} (h : execTimerWrap n s = .next u) :
    Only [.ports, .tur, .tmr, .cul, .due] s u := by
  injection h with h
  subst h
  refine inCore_only ?_
  refine .ite ?_ ?_
  exact .mono (timerTick_only ..)
  exact .refl _ _

theorem execCompareMatch_only {n : Fin 32} {ch : Chan} {s : State} {u : State} (h : execCompareMatch n ch s = .next u) :
    Only [.ports, .tur, .tmr, .cul, .due] s u := by
  injection h with h
  subst h
  refine inCore_only ?_
  refine .ite ?_ ?_
  exact .mono (compareMatch_only ..)
  exact .refl _ _

theorem execTimerTrigger_only {n : Fin 32} {s : State} {u : State} (h : execTimerTrigger n s = .next u) :
    Only [.tmr] s u := by
  injection h with h
  subst h
  refine inCore_only ?_
  refine .ite ?_ ?_
  dsimp only
  refine .ite ?_ ?_
  refine .trans ?_ (timerStart_only ..)
  refine .ite ?_ ?_
  refine .trans ?_ (timerRestart_only ..)
  exact State.modTmr_only ..
  exact State.modTmr_only ..
  refine .ite ?_ ?_
  refine .trans ?_ (timerRestart_only ..)
  exact State.modTmr_only ..
  exact State.modTmr_only ..
  exact .refl _ _

theorem execTimerStart_only {w : Who} {n : Fin 32} {s : State} {u : State} (hw : writeRefused s w (0x6100 + 0x40 * n) = false)
    (h : execTimerStart w n s = .next u) :
    Only [.tmr, .apb] s u := by
  injection h with h
  subst h
  refine regCommand_only _ ‹_› ?_
  exact .mono (writeRun_only ..)

theorem execTimerStop_only {w : Who} {n : Fin 32} {s : State} {u : State} (hw : writeRefused s w (0x6100 + 0x40 * n) = false)
    (h : execTimerStop w n s = .next u) :
    Only [.tmr, .apb] s u := by
  injection h with h
  subst h
  refine regCommand_only _ ‹_› ?_
  exact .mono (writeRun_only ..)

theorem execCntWrite_only {w : Who} {n : Fin 32} {v : U32} {s : State} {u : State} (hw : writeRefused s w (0x6108 + 0x40 * n) = false)
    (h : execCntWrite w n v s = .next u) :
    Only [.tmr, .apb] s u := by
  injection h with h
  subst h
  refine regCommand_only _ ‹_› ?_
  exact .mono (writeCnt_only ..)

theorem execPreloadWrite_only {x0 : Fin 16} {n : Fin 32} {r : TimerReg} {v : U32} {s : State} {u : State} (h : execPreloadWrite x0 n r v s = .next u) :
    Only [.tmr] s u := by
  injection h with h
  subst h
  refine inCore_only ?_
  exact .mono (writePreload_only ..)

theorem execLiveWrite_only {w : Who} {n : Fin 32} {r : TimerReg} {v : U32} {s : State} {u : State} (hw : writeRefused s w (0x6100 + 0x40 * n + TimerReg.off r) = false)
    (h : execLiveWrite w n r v s = .next u) :
    Only [.tmr, .apb] s u := by
  injection h with h
  subst h
  refine regCommand_only _ ‹_› ?_
  exact .mono (writeTimerReg_only ..)

theorem execCapture_only {n : Fin 32} {s : State} {u : State} (h : execCapture n s = .next u) :
    Only [.tur, .tmr] s u := by
  injection h with h
  subst h
  refine inCore_only ?_
  refine .ite ?_ ?_
  exact .mono (capture_only ..)
  exact .refl _ _

theorem execCapRead_only {w : Who} {n : Fin 32} {s : State} {u : State} (h : execCapRead w n s = .next u) :
    Only [.ports, .out, .outcal, .tur, .gate, .shut, .wdog, .fl, .tmr, .rider, .cul, .hg, .seq, .mem, .link, .lg, .nvm, .pwr, .dbg, .bist, .due, .apb, .free] s u := by
  injection h with h
  subst h
  exact .mono (readRow_only ..)

theorem execAtenArm_only {w : Who} {n : Fin 32} {s : State} {u : State} (hw : writeRefused s w (0x6100 + 0x40 * n) = false)
    (h : execAtenArm w n s = .next u) :
    Only [.tur, .tmr, .apb] s u := by
  injection h with h
  subst h
  refine regCommand_only _ ‹_› ?_
  exact .mono (writeAten_only ..)

theorem execGaugeTimedStart_only {n : Fin 32} {s : State} {u : State} (h : execGaugeTimedStart n s = .next u) :
    Only [.tmr] s u := by
  injection h with h
  subst h
  refine inCore_only ?_
  refine .ite ?_ ?_
  refine .trans ?_ (State.modTmr_only ..)
  refine .trans ?_ (timerStart_only ..)
  exact .mono (timerRestart_only ..)
  exact .refl _ _

theorem execRiderTurn_only {n : Fin 32} {s : State} {u : State} (h : execRiderTurn n s = .next u) :
    Only [.out, .tur, .rider] s u := by
  injection h with h
  subst h
  refine inCore_only ?_
  refine .ite ?_ ?_
  exact .mono (riderTurn_only ..)
  exact .refl _ _

theorem execRiderBr_only {n : Fin 32} {s : State} {u : State} (h : execRiderBr n s = .next u) :
    Only [.rider] s u := by
  injection h with h
  subst h
  refine inCore_only ?_
  split
  dsimp only
  refine .trans ?_ (complete_only ..)
  refine .ite ?_ ?_
  exact .mono (State.modRch_only ..)
  exact .refl _ _
  exact .refl _ _

theorem execLoop_only {n : Fin 32} {s : State} {u : State} (h : execLoop n s = .next u) : Only [.rider] s u := by
  injection h with h
  subst h
  refine inCore_only ?_
  split
  dsimp only
  refine .trans ?_ (complete_only ..)
  exact .mono (State.modRch_only ..)
  exact .refl _ _

theorem execShift_only {n : Fin 32} {s : State} {u : State} (h : execShift n s = .next u) : Only [.rider] s u := by
  injection h with h
  subst h
  refine inCore_only ?_
  split
  dsimp only
  refine .ite ?_ ?_
  refine .trans ?_ (fillOsr_only ..)
  exact .mono (State.modRch_only ..)
  refine .trans ?_ (setPhase_only ..)
  exact .mono (State.modRch_only ..)
  exact .refl _ _

theorem execWaitpin_only {n : Fin 32} {s : State} {u : State} (h : execWaitpin n s = .next u) :
    Only [.rider] s u := by
  injection h with h
  subst h
  refine inCore_only ?_
  split
  refine .ite ?_ ?_
  exact .mono (complete_only ..)
  exact .mono (setPhase_only ..)
  exact .refl _ _

theorem execWaitt_only {n : Fin 32} {s : State} {u : State} (h : execWaitt n s = .next u) : Only [.rider] s u := by
  injection h with h
  subst h
  refine inCore_only ?_
  split
  exact .mono (setPhase_only ..)
  exact .refl _ _

theorem execSetat_only {n : Fin 32} {s : State} {u : State} (h : execSetat n s = .next u) : Only [.rider] s u := by
  injection h with h
  subst h
  refine inCore_only ?_
  split
  dsimp only
  refine .ite ?_ ?_
  refine .trans ?_ (setatDo_only ..)
  exact .mono (State.modRch_only ..)
  exact .mono (State.modRch_only ..)
  exact .refl _ _

theorem execLd_only {n : Fin 32} {s : State} {u : State} (h : execLd n s = .next u) : Only [.rider] s u := by
  injection h with h
  subst h
  refine inCore_only ?_
  split
  dsimp only
  refine .trans ?_ (complete_only ..)
  exact .mono (State.modRch_only ..)
  exact .refl _ _

theorem execMov_only {n : Fin 32} {s : State} {u : State} (h : execMov n s = .next u) :
    Only [.out, .tur, .rider] s u := by
  injection h with h
  subst h
  refine inCore_only ?_
  split
  refine .ite ?_ ?_
  exact .mono (movDo_only ..)
  exact .mono (setPhase_only ..)
  exact .refl _ _

theorem execSig_only {n : Fin 32} {s : State} {u : State} (h : execSig n s = .next u) : Only [.tur, .rider] s u := by
  injection h with h
  subst h
  refine inCore_only ?_
  split
  dsimp only
  refine .ite ?_ ?_
  refine .trans ?_ (setPhase_only ..)
  exact .mono (rchFlag_only ..)
  refine .trans ?_ (complete_only ..)
  exact .mono (rchFlag_only ..)
  exact .refl _ _

theorem execRiderInstructionComplete_only {n : Fin 32} {s : State} {u : State} (h : execRiderInstructionComplete n s = .next u) :
    Only [.out, .tur, .rider] s u := by
  injection h with h
  subst h
  refine inCore_only ?_
  refine .ite ?_ ?_
  exact .refl _ _
  split
  split
  refine .ite ?_ ?_
  refine .ite ?_ ?_
  refine .trans ?_ (complete_only ..)
  exact .mono (State.modRch_only ..)
  exact .refl _ _
  exact .mono (complete_only ..)
  refine .ite ?_ ?_
  exact .mono (complete_only ..)
  exact .refl _ _
  refine .ite ?_ ?_
  exact .mono (complete_only ..)
  exact .refl _ _
  refine .ite ?_ ?_
  exact .mono (setatDo_only ..)
  exact .refl _ _
  refine .ite ?_ ?_
  exact .mono (movDo_only ..)
  exact .refl _ _
  refine .ite ?_ ?_
  exact .refl _ _
  exact .mono (complete_only ..)
  exact .refl _ _
  exact .refl _ _

theorem execSetatFire_only {n : Fin 32} {s : State} {u : State} (h : execSetatFire n s = .next u) :
    Only [.out, .tur, .rider] s u := by
  injection h with h
  subst h
  refine inCore_only ?_
  refine .ite ?_ ?_
  exact .refl _ _
  split
  split
  exact .mono (setatFire_only ..)
  exact .refl _ _
  exact .refl _ _

theorem execTxdPush_only {w : Who} {n : Fin 32} {v : U32} {s : State} {u : State} (hw : writeRefused s w (0xA028 + 0x40 * n) = false)
    (h : execTxdPush w n v s = .next u) :
    Only [.tur, .rider, .apb] s u := by
  injection h with h
  subst h
  refine regCommand_only _ ‹_› ?_
  exact .mono (pushTx_only ..)

theorem execRxdRead_only {w : Who} {n : Fin 32} {s : State} {u : State} (h : execRxdRead w n s = .next u) :
    Only [.ports, .out, .outcal, .tur, .gate, .shut, .wdog, .fl, .tmr, .rider, .cul, .hg, .seq, .mem, .link, .lg, .nvm, .pwr, .dbg, .bist, .due, .apb, .free] s u := by
  injection h with h
  subst h
  exact .mono (readRow_only ..)

theorem execInjection_only {w : Who} {n : Fin 32} {v : U32} {s : State} {u : State} (hw : writeRefused s w (0xA030 + 0x40 * n) = false)
    (h : execInjection w n v s = .next u) :
    Only [.tur, .rider, .apb] s u := by
  injection h with h
  subst h
  refine regCommand_only _ ‹_› ?_
  exact .mono (writeInj_only ..)

theorem execProgramMemoryWrite_only {w : Who} {i : BitVec 11} {v : U32} {s : State} {u : State} (hw : writeRefused s w (0xC000 + 4 * i.toNat) = false)
    (h : execProgramMemoryWrite w i v s = .next u) :
    Only [.rider, .apb] s u := by
  injection h with h
  subst h
  refine regCommand_only _ ‹_› ?_
  exact .mono (writeProg_only ..)

theorem execChannelRun_only {w : Who} {n : Fin 32} {v : U32} {s : State} {u : State} (hw : writeRefused s w (0xA000 + 0x40 * n) = false)
    (h : execChannelRun w n v s = .next u) :
    Only [.tur, .rider, .apb] s u := by
  injection h with h
  subst h
  refine regCommand_only _ ‹_› ?_
  exact .mono (writeRchCtl_only ..)

theorem execChannelStop_only {w : Who} {n : Fin 32} {v : U32} {s : State} {u : State} (hw : writeRefused s w (0xA000 + 0x40 * n) = false)
    (h : execChannelStop w n v s = .next u) :
    Only [.tur, .rider, .apb] s u := by
  injection h with h
  subst h
  refine regCommand_only _ ‹_› ?_
  exact .mono (writeRchCtl_only ..)

theorem execChannelReset_only {w : Who} {n : Fin 32} {v : U32} {s : State} {u : State} (hw : writeRefused s w (0xA000 + 0x40 * n) = false)
    (h : execChannelReset w n v s = .next u) :
    Only [.tur, .rider, .apb] s u := by
  injection h with h
  subst h
  refine regCommand_only _ ‹_› ?_
  exact .mono (writeRchCtl_only ..)

theorem execPinMapWrite_only {w : Who} {n : Fin 32} {hi : Bool} {v : U32} {s : State} {u : State} (hw : writeRefused s w (0xA010 + 0x40 * n + (if hi then 4 else 0)) = false)
    (h : execPinMapWrite w n hi v s = .next u) :
    Only [.tur, .rider, .apb] s u := by
  injection h with h
  subst h
  refine regCommand_only _ ‹_› ?_
  exact .mono (writeMap_only ..)

theorem execSyncArm_only {w : Who} {v : U32} {s : State} {u : State} (hw : writeRefused s w 0xB000 = false)
    (h : execSyncArm w v s = .next u) :
    Only [.tur, .rider, .apb] s u := by
  injection h with h
  subst h
  refine regCommand_only _ ‹_› ?_
  exact .mono (writeRider_only ..)

theorem execSynchronisedStart_only {s : State} {u : State} (h : execSynchronisedStart s = .next u) :
    Only [.rider] s u := by
  injection h with h
  subst h
  refine inCore_only ?_
  refine .ite ?_ ?_
  exact .mono (syncStart_only ..)
  exact .refl _ _

theorem execCulvertStart_only {w : Who} {n : Fin 16} {v : U32} {s : State} {u : State} (hw : writeRefused s w (0x20000 + 0x40 * n) = false)
    (h : execCulvertStart w n v s = .next u) :
    Only [.tur, .cul, .hg, .mem, .apb] s u := by
  injection h with h
  subst h
  refine regCommand_only _ ‹_› ?_
  exact .mono (writeCulCtl_only ..)

theorem execDescriptorLoad_only {n : Fin 16} {resp : HostRead} {s : State} {u : State} (h : execDescriptorLoad n resp s = .next u) :
    Only [.cul, .free] s u := by
  injection h with h
  subst h
  refine inCore_only ?_
  exact .mono (fetchDesc_only ..)

theorem execCulvertTrigger_only {n : Fin 16} {s : State} {u : State} (h : execCulvertTrigger n s = .next u) :
    Only [.tur, .cul] s u := by
  injection h with h
  subst h
  refine inCore_only ?_
  dsimp only
  refine .ite ?_ ?_
  exact .refl _ _
  refine .trans ?_ (hwSetIf_only ..)
  exact .mono (State.modCul_only ..)

theorem execBurstGrant_only {s : State} {u : State} (h : execBurstGrant s = .next u) : Only [.cul, .free] s u := by
  injection h with h
  subst h
  refine inCore_only ?_
  split
  exact .mono (grantBurst_only ..)
  exact .refl _ _

theorem execBurstComplete_only {n : Fin 16} {resp : HostRead} {writeError : Option (Fin 16)} {s : State} {u : State} (h : execBurstComplete n resp writeError s = .next u) :
    Only [.cul, .seq, .mem] s u := by
  injection h with h
  subst h
  refine inCore_only ?_
  exact .mono (completeBurst_only ..)

theorem execDescriptorComplete_only {n : Fin 16} {s : State} {u : State} (h : execDescriptorComplete n s = .next u) :
    Only [.tur, .cul, .hg, .mem] s u := by
  injection h with h
  subst h
  refine inCore_only ?_
  exact .mono (completeDesc_only ..)

theorem execCulvertError_only {n : Fin 16} {code : BitVec 4} {s : State} {u : State} (h : execCulvertError n code s = .next u) :
    Only [.tur, .cul, .hg, .mem] s u := by
  injection h with h
  subst h
  refine inCore_only ?_
  dsimp only
  refine .ite ?_ ?_
  exact .mono (culStop_only ..)
  exact .refl _ _

theorem execCulvertPause_only {w : Who} {n : Fin 16} {v : U32} {s : State} {u : State} (hw : writeRefused s w (0x20000 + 0x40 * n) = false)
    (h : execCulvertPause w n v s = .next u) :
    Only [.tur, .cul, .hg, .mem, .apb] s u := by
  injection h with h
  subst h
  refine regCommand_only _ ‹_› ?_
  exact .mono (writeCulCtl_only ..)

theorem execPauseDrained_only {n : Fin 16} {s : State} {u : State} (h : execPauseDrained n s = .next u) :
    Only [.cul] s u := by
  injection h with h
  subst h
  refine inCore_only ?_
  dsimp only
  refine .ite ?_ ?_
  exact .mono (State.modCul_only ..)
  exact .refl _ _

theorem execCulvertResume_only {w : Who} {n : Fin 16} {v : U32} {s : State} {u : State} (hw : writeRefused s w (0x20000 + 0x40 * n) = false)
    (h : execCulvertResume w n v s = .next u) :
    Only [.tur, .cul, .hg, .mem, .apb] s u := by
  injection h with h
  subst h
  refine regCommand_only _ ‹_› ?_
  exact .mono (writeCulCtl_only ..)

theorem execCulvertAbort_only {w : Who} {n : Fin 16} {v : U32} {s : State} {u : State} (hw : writeRefused s w (0x20000 + 0x40 * n) = false)
    (h : execCulvertAbort w n v s = .next u) :
    Only [.tur, .cul, .hg, .mem, .apb] s u := by
  injection h with h
  subst h
  refine regCommand_only _ ‹_› ?_
  exact .mono (writeCulCtl_only ..)

theorem execEventRecordWritten_only {s : State} {u : State} (h : execEventRecordWritten s = .next u) :
    Only [.tur, .hg] s u := by
  injection h with h
  subst h
  refine inCore_only ?_
  refine .ite ?_ ?_
  exact .refl _ _
  refine .trans ?_ (raise_only ..)
  refine .upd ?_ (.inr rfl) (.inr rfl) (.inr rfl) (.inr rfl) (.inr rfl) (.inl rfl) (.inr rfl) (.inr rfl) (.inr rfl) (.inr rfl) (.inr rfl) (.inr rfl) (.inr rfl) (.inr rfl) (.inl rfl) (.inr rfl) (.inr rfl) (.inr rfl) (.inr rfl) (.inr rfl) (.inr rfl) (.inr rfl) (.inr rfl) (.inr rfl) (.inr rfl) (.inr rfl)
  exact .refl _ _

theorem execClaim_only {w : Who} {t : Fin 8} {s : State} {u : State} (h : execClaim w t s = .next u) :
    Only [.ports, .out, .outcal, .tur, .gate, .shut, .wdog, .fl, .tmr, .rider, .cul, .hg, .seq, .mem, .link, .lg, .nvm, .pwr, .dbg, .bist, .due, .apb, .free] s u := by
  injection h with h
  subst h
  exact .mono (readRow_only ..)

theorem execComplete_only {w : Who} {t : Fin 8} {v : U32} {s : State} {u : State} (hw : writeRefused s w (0x3008 + 0x10 * t) = false)
    (h : execComplete w t v s = .next u) :
    Only [.tur, .apb] s u := by
  injection h with h
  subst h
  refine regCommand_only _ ‹_› ?_
  exact .mono (completeWrite_only ..)

theorem execTdpoll_only {n : Fin 16} {s : State} {u : State} (h : execTdpoll n s = .next u) :
    Only [.ports, .out, .outcal, .tur, .gate, .shut, .wdog, .fl, .tmr, .rider, .cul, .hg, .seq, .mem, .link, .lg, .nvm, .pwr, .dbg, .bist, .due, .apb, .free] s u := by
  injection h with h
  subst h
  exact .mono (readRow_only ..)

theorem execSwev_only {w : Who} {v : U32} {s : State} {u : State} (hw : writeRefused s w 0x3180 = false)
    (h : execSwev w v s = .next u) :
    Only [.tur, .apb] s u := by
  injection h with h
  subst h
  refine regCommand_only _ ‹_› ?_
  exact .mono (swevWrite_only ..)

theorem execSourceConfigWrite_only {w : Who} {k : Fin 512} {v : U32} {s : State} {u : State} (hw : writeRefused s w (0x4000 + 8 * k) = false)
    (h : execSourceConfigWrite w k v s = .next u) :
    Only [.tur, .apb] s u := by
  injection h with h
  subst h
  refine regCommand_only _ ‹_› ?_
  exact .mono (sourceConfig_only ..)

theorem execScondset_only {w : Who} {v : U32} {s : State} {u : State} (hw : writeRefused s w 0x22808 = false)
    (h : execScondset w v s = .next u) :
    Only [.seq, .apb] s u := by
  injection h with h
  subst h
  refine regCommand_only _ ‹_› ?_
  exact .mono (writeScond_only ..)

theorem execScondclr_only {w : Who} {v : U32} {s : State} {u : State} (hw : writeRefused s w 0x2280C = false)
    (h : execScondclr w v s = .next u) :
    Only [.seq, .apb] s u := by
  injection h with h
  subst h
  refine regCommand_only _ ‹_› ?_
  exact .mono (writeScond_only ..)

theorem execLaneDetectLock_only {l : Fin 4} {inverted : Bool} {s : State} {u : State} (h : execLaneDetectLock l inverted s = .next u) :
    Only [.link] s u := by
  injection h with h
  subst h
  exact .mono (laneDetect_only ..)

theorem execTrainingReady_only {l : Fin 4} {far : FarEnd} {ffe : BitVec 18} {s : State} {u : State} (h : execTrainingReady l far ffe s = .next u) :
    Only [.link] s u := by
  injection h with h
  subst h
  exact .mono (trainReady_only ..)

theorem execPortUp_only {p : Fin 4} {aseq : BitVec 8} {lidx : BitVec 8} {skew : U32} {s : State} {u : State} (h : execPortUp p aseq lidx skew s = .next u) :
    Only [.tur, .link] s u := by
  injection h with h
  subst h
  exact .mono (portComesUp_only ..)

theorem execTrainingTimeout_only {l : Fin 4} {s : State} {u : State} (h : execTrainingTimeout l s = .next u) :
    Only [.tur, .link] s u := by
  injection h with h
  subst h
  exact trainingTimeout_only ..

theorem execLossOfLock_only {p : Fin 4} {s : State} {u : State} (h : execLossOfLock p s = .next u) :
    Only [.tur, .hg, .link] s u := by
  injection h with h
  subst h
  exact .mono (lossOfLock_only ..)

theorem execRetrain_only {w : Who} {l : Fin 4} {v : U32} {s : State} {u : State} (hw : writeRefused s w (0x23100 + 0x20 * l) = false)
    (h : execRetrain w l v s = .next u) :
    Only [.tur, .hg, .link, .apb] s u := by
  injection h with h
  subst h
  refine regCommand_only _ ‹_› ?_
  exact .mono (writeLaneCtl_only ..)

theorem execLaneGroupWrite_only {w : Who} {v : U32} {s : State} {u : State} (hw : writeRefused s w 0x23000 = false)
    (h : execLaneGroupWrite w v s = .next u) :
    Only [.tur, .hg, .link, .apb] s u := by
  injection h with h
  subst h
  refine regCommand_only _ ‹_› ?_
  exact .mono (writeLnkcfg_only ..)

theorem execCodewordReceive_only {p : Fin 4} {bits : BitVec 680} {s : State} {u : State} (h : execCodewordReceive p bits s = .next u) :
    Only [.tur, .hg, .mem, .link] s u := by
  injection h with h
  subst h
  exact codewordReceive_only ..

theorem execCodewordSend_only {p : Fin 4} {s : State} {u : State} (h : execCodewordSend p s = .next u) :
    Only [.hg, .link] s u := by
  injection h with h
  subst h
  exact .mono (codewordSend_only ..)

theorem execOrderedSetReceive_only {p : Fin 4} {sub : BitVec 6} {c0 : U64} {c1 : U64} {c2 : U64} {c3 : U64} {s : State} {u : State} (h : execOrderedSetReceive p sub c0 c1 c2 c3 s = .next u) :
    Only [.tur, .shut, .link, .lg] s u := by
  injection h with h
  subst h
  exact .mono (orderedSet_only ..)

theorem execAlignSend_only {p : Fin 4} {s : State} {u : State} (h : execAlignSend p s = .next u) :
    Only [.link] s u := by
  injection h with h
  subst h
  exact .mono (alignSend_only ..)

theorem execShutOrderReceive_only {p : Fin 4} {origin : BitVec 14} {seq : BitVec 8} {hops : BitVec 5} {s : State} {u : State} (h : execShutOrderReceive p origin seq hops s = .next u) :
    Only [.tur, .shut, .link, .lg] s u := by
  injection h with h
  subst h
  exact .mono (shutOrder_only ..)

theorem execTrickleLock_only {s : State} {u : State} (h : execTrickleLock s = .next u) : Only [.link] s u := by
  injection h with h
  subst h
  exact .mono (trickleLock_only ..)

theorem execTimeExchange_only {p : Fin 4} {sub : BitVec 6} {s : State} {u : State} (h : execTimeExchange p sub s = .next u) :
    Only [.link] s u := by
  injection h with h
  subst h
  exact .mono (timeExchange_only ..)

theorem execTimeMarkerReply_only {p : Fin 4} {sub : BitVec 6} {s : State} {u : State} (h : execTimeMarkerReply p sub s = .next u) :
    Only [.link] s u := by
  injection h with h
  subst h
  exact .mono (timeReply_only ..)

theorem execTimeFrameReceive_only {p : Fin 4} {s : State} {u : State} (h : execTimeFrameReceive p s = .next u) :
    Only [.clk, .ports, .tur, .fl, .tmr, .rider, .link] s u := by
  injection h with h
  subst h
  exact timeFrame_only ..

theorem execAdvSend_only {s : State} {u : State} (h : execAdvSend s = .next u) : Only [.link] s u := by
  injection h with h
  subst h
  exact .mono (advSend_only ..)

theorem execAdv_only {p : Fin 4} {s : State} {u : State} (h : execAdv p s = .next u) :
    Only [.tur, .hg, .link] s u := by
  injection h with h
  subst h
  exact .mono (advReceive_only ..)

theorem execMasterElection_only {s : State} {u : State} (h : execMasterElection s = .next u) :
    Only [.tur, .hg, .link] s u := by
  injection h with h
  subst h
  exact .mono (masterElection_only ..)

theorem execElectionRestart_only {s : State} {u : State} (h : execElectionRestart s = .next u) :
    Only [.tur, .link] s u := by
  injection h with h
  subst h
  exact .mono (electionRestart_only ..)

theorem execCount_only {p : Fin 4} {s : State} {u : State} (h : execCount p s = .next u) : Only [.tur, .hg, .link] s u := by
  injection h with h
  subst h
  exact countReceive_only ..

theorem execAssign_only {p : Fin 4} {s : State} {u : State} (h : execAssign p s = .next u) : Only [.link] s u := by
  injection h with h
  subst h
  exact .mono (assignReceive_only ..)

theorem execReroute_only {p : Fin 4} {s : State} {u : State} (h : execReroute p s = .next u) : Only [.tur, .link] s u := by
  injection h with h
  subst h
  exact reroute_only ..

theorem execWake_only {p : Fin 4} {s : State} {u : State} (h : execWake p s = .next u) : Only [.tur, .link, .pwr] s u := by
  injection h with h
  subst h
  exact wakeFrame_only ..

theorem execRegreq_only {p : Fin 4} {s : State} {u : State} (h : execRegreq p s = .next u) :
    Only [.ports, .out, .outcal, .tur, .gate, .shut, .wdog, .fl, .tmr, .rider, .cul, .hg, .seq, .mem, .link, .lg, .nvm, .pwr, .bist, .due, .free] s u := by
  injection h with h
  subst h
  exact .mono (regRequest_only ..)

theorem execRegrsp_only {p : Fin 4} {s : State} {u : State} (h : execRegrsp p s = .next u) :
    Only [.tur, .wdog, .seq, .mem, .link, .dbg, .due, .apb] s u := by
  injection h with h
  subst h
  exact regResponse_only ..

theorem execCresync_only {p : Fin 4} {s : State} {u : State} (h : execCresync p s = .next u) : Only [.link] s u := by
  injection h with h
  subst h
  exact .mono (cresync_only ..)

theorem execCmdFrameReceive_only {p : Fin 4} {s : State} {u : State} (h : execCmdFrameReceive p s = .next u) :
    Only [.tur, .hg, .link] s u := by
  injection h with h
  subst h
  exact cmdFrame_only ..

theorem execReceiveRingWrite_only {p : Fin 4} {s : State} {u : State} (h : execReceiveRingWrite p s = .next u) :
    Only [.tur, .seq, .mem, .link] s u := by
  injection h with h
  subst h
  refine inCore_only ?_
  exact .mono (receiveRing_only ..)

theorem execSampFrameReceive_only {p : Fin 4} {s : State} {u : State} (h : execSampFrameReceive p s = .next u) :
    Only [.tur, .seq, .mem, .link] s u := by
  injection h with h
  subst h
  refine inCore_only ?_
  exact sampFrame_only ..

theorem execReceiveRingEnable_only {w : Who} {v : U32} {s : State} {u : State} (hw : writeRefused s w 0x23050 = false)
    (h : execReceiveRingEnable w v s = .next u) :
    Only [.link, .apb] s u := by
  injection h with h
  subst h
  refine regCommand_only _ ‹_› ?_
  exact .mono (writeNrxcfg_only ..)

theorem execTemperatureWrite_only {w : Who} {c : Fin 16} {v : U32} {s : State} {u : State} (hw : writeRefused s w (0x24104 + 0x20 * c) = false)
    (h : execTemperatureWrite w c v s = .next u) :
    Only [.tur, .lg, .apb] s u := by
  injection h with h
  subst h
  refine regCommand_only _ ‹_› ?_
  exact .mono (writeTj_only ..)

theorem execTemperatureProcess_only {c : Fin 16} {s : State} {u : State} (h : execTemperatureProcess c s = .next u) :
    Only [.tur, .mem, .lg, .free] s u := by
  injection h with h
  subst h
  refine inCore_only ?_
  refine .ite ?_ ?_
  exact .refl _ _
  exact .mono (processTemp_only ..)

theorem execAgeingTick_only {s : State} {u : State} (h : execAgeingTick s = .next u) :
    Only [.tur, .mem, .lg, .free] s u := by
  injection h with h
  subst h
  refine inCore_only ?_
  refine .ite ?_ ?_
  exact .refl _ _
  dsimp only
  refine .of' ?_ (.each (fun s k => ?_) _ _)
  refine .upd ?_ (.inr rfl) (.inr rfl) (.inr rfl) (.inr rfl) (.inr rfl) (.inl rfl) (.inr rfl) (.inr rfl) (.inr rfl) (.inr rfl) (.inr rfl) (.inr rfl) (.inr rfl) (.inr rfl) (.inr rfl) (.inr rfl) (.inl rfl) (.inr rfl) (.inl rfl) (.inr rfl) (.inr rfl) (.inr rfl) (.inr rfl) (.inr rfl) (.inr rfl) (.inl rfl)
  exact .refl _ _
  exact .mono (ageChannel_only ..)

theorem execPersistenceStart_only {s : State} {u : State} (h : execPersistenceStart s = .next u) :
    Only [.tur, .hg, .seq, .mem, .lg, .nvm, .free] s u := by
  injection h with h
  subst h
  refine inCore_only ?_
  exact .mono (persistStart_only ..)

theorem execPersistenceCommit_only {s : State} {u : State} (h : execPersistenceCommit s = .next u) :
    Only [.tur, .hg, .seq, .mem, .lg, .nvm, .free] s u := by
  injection h with h
  subst h
  refine inCore_only ?_
  exact .mono (persistCommit_only ..)

theorem execLedgerLoad_only {w : Who} {v : U32} {s : State} {u : State} (hw : writeRefused s w 0x24000 = false)
    (h : execLedgerLoad w v s = .next u) :
    Only [.tur, .mem, .lg, .nvm, .apb, .free] s u := by
  injection h with h
  subst h
  refine regCommand_only _ ‹_› ?_
  exact .mono (writeLgcfg_only ..)

theorem execLgmdataAccess_only {w : Who} {v : Option U32} {s : State} {u : State} (h : execLgmdataAccess w v s = .next u) :
    Only [.ports, .out, .outcal, .tur, .gate, .shut, .wdog, .fl, .tmr, .rider, .cul, .hg, .seq, .mem, .link, .lg, .nvm, .pwr, .dbg, .bist, .due, .apb, .free] s u := by
  injection h with h
  subst h
  split
  exact readRow_only ..
  exact lgmdataWrite_only ..

theorem execDmglRead_only {w : Who} {c : Fin 16} {s : State} {u : State} (h : execDmglRead w c s = .next u) :
    Only [.ports, .out, .outcal, .tur, .gate, .shut, .wdog, .fl, .tmr, .rider, .cul, .hg, .seq, .mem, .link, .lg, .nvm, .pwr, .dbg, .bist, .due, .apb, .free] s u := by
  injection h with h
  subst h
  exact .mono (readRow_only ..)

theorem execErasePulseEnd_only {pass : Bool} {s : State} {u : State} (h : execErasePulseEnd pass s = .next u) :
    Only [.tur, .hg, .seq, .mem, .lg, .nvm, .free] s u := by
  injection h with h
  subst h
  refine inCore_only ?_
  exact .mono (erasePulse_only ..)

theorem execProgramPulseEnd_only {pass : Bool} {s : State} {u : State} (h : execProgramPulseEnd pass s = .next u) :
    Only [.tur, .hg, .seq, .mem, .lg, .nvm, .free] s u := by
  injection h with h
  subst h
  refine inCore_only ?_
  exact .mono (programPulse_only ..)

theorem execNvmSuspend_only {s : State} {u : State} (h : execNvmSuspend s = .next u) : Only [.nvm] s u := by
  injection h with h
  subst h
  refine inCore_only ?_
  exact .mono (nvmSuspend_only ..)

theorem execNvmResume_only {s : State} {u : State} (h : execNvmResume s = .next u) : Only [.nvm] s u := by
  injection h with h
  subst h
  refine inCore_only ?_
  exact .mono (nvmResume_only ..)

theorem execNvmSuspWrite_only {w : Who} {v : U32} {s : State} {u : State} (hw : writeRefused s w 0x25004 = false)
    (h : execNvmSuspWrite w v s = .next u) :
    Only [.nvm, .apb] s u := by
  injection h with h
  subst h
  refine regCommand_only _ ‹_› ?_
  exact .mono (nvmWrite_only ..)

theorem execNvmcntRead_only {w : Who} {s : State} {u : State} (h : execNvmcntRead w s = .next u) :
    Only [.ports, .out, .outcal, .tur, .gate, .shut, .wdog, .fl, .tmr, .rider, .cul, .hg, .seq, .mem, .link, .lg, .nvm, .pwr, .dbg, .bist, .due, .apb, .free] s u := by
  injection h with h
  subst h
  exact .mono (readRow_only ..)

theorem execHgevlostRead_only {w : Who} {s : State} {u : State} (h : execHgevlostRead w s = .next u) :
    Only [.ports, .out, .outcal, .tur, .gate, .shut, .wdog, .fl, .tmr, .rider, .cul, .hg, .seq, .mem, .link, .lg, .nvm, .pwr, .dbg, .bist, .due, .apb, .free] s u := by
  injection h with h
  subst h
  exact .mono (readRow_only ..)

theorem execCerrRead_only {w : Who} {l : Fin 4} {s : State} {u : State} (h : execCerrRead w l s = .next u) :
    Only [.ports, .out, .outcal, .tur, .gate, .shut, .wdog, .fl, .tmr, .rider, .cul, .hg, .seq, .mem, .link, .lg, .nvm, .pwr, .dbg, .bist, .due, .apb, .free] s u := by
  injection h with h
  subst h
  exact .mono (readRow_only ..)

theorem execCodewordCounterRead_only {w : Who} {p : Fin 4} {which : Fin 3} {s : State} {u : State} (h : execCodewordCounterRead w p which s = .next u) :
    Only [.ports, .out, .outcal, .tur, .gate, .shut, .wdog, .fl, .tmr, .rider, .cul, .hg, .seq, .mem, .link, .lg, .nvm, .pwr, .dbg, .bist, .due, .apb, .free] s u := by
  injection h with h
  subst h
  exact .mono (readRow_only ..)

theorem execFrdropRead_only {w : Who} {p : Fin 4} {s : State} {u : State} (h : execFrdropRead w p s = .next u) :
    Only [.ports, .out, .outcal, .tur, .gate, .shut, .wdog, .fl, .tmr, .rider, .cul, .hg, .seq, .mem, .link, .lg, .nvm, .pwr, .dbg, .bist, .due, .apb, .free] s u := by
  injection h with h
  subst h
  exact .mono (readRow_only ..)

theorem execNetdropRead_only {w : Who} {s : State} {u : State} (h : execNetdropRead w s = .next u) :
    Only [.ports, .out, .outcal, .tur, .gate, .shut, .wdog, .fl, .tmr, .rider, .cul, .hg, .seq, .mem, .link, .lg, .nvm, .pwr, .dbg, .bist, .due, .apb, .free] s u := by
  injection h with h
  subst h
  exact .mono (readRow_only ..)

theorem execNrxlostRead_only {w : Who} {s : State} {u : State} (h : execNrxlostRead w s = .next u) :
    Only [.ports, .out, .outcal, .tur, .gate, .shut, .wdog, .fl, .tmr, .rider, .cul, .hg, .seq, .mem, .link, .lg, .nvm, .pwr, .dbg, .bist, .due, .apb, .free] s u := by
  injection h with h
  subst h
  exact .mono (readRow_only ..)

theorem execRegisterWrite_only {w : Who} {off : BitVec 20} {v : U32} {strb : BitVec 4} {s : State} {u : State} (h : execRegisterWrite w off v strb s = .next u) :
    Only [.ports, .out, .outcal, .tur, .gate, .shut, .wdog, .fl, .tmr, .rider, .cul, .hg, .seq, .mem, .link, .lg, .nvm, .pwr, .dbg, .bist, .due, .apb, .free] s u := by
  injection h with h
  subst h
  refine .ite ?_ ?_
  exact .refl _ _
  refine .ite ?_ ?_
  refine aoCommandAny_only _ _ ?_
  exact .mono (busWrite_only ..)
  refine regCommandAny_only _ _ ?_
  exact .mono (busWrite_only ..)

theorem execStoreWindowWrite_only {w : Who} {off : BitVec 20} {v : U32} {strb : BitVec 4} {s : State} {u : State} (h : execStoreWindowWrite w off v strb s = .next u) :
    Only [.ports, .out, .outcal, .tur, .gate, .shut, .wdog, .fl, .tmr, .rider, .cul, .hg, .seq, .mem, .link, .lg, .nvm, .pwr, .dbg, .bist, .due, .apb, .free] s u := by
  injection h with h
  subst h
  refine .ite ?_ ?_
  refine regCommandAny_only _ _ ?_
  exact .mono (busWrite_only ..)
  exact .refl _ _

theorem execGroupApertureAccess_only {w : Who} {off : BitVec 20} {wr : Option U32} {strb : BitVec 4} {s : State} {u : State} (h : execGroupApertureAccess w off wr strb s = .next u) :
    Only [.ports, .out, .outcal, .tur, .gate, .shut, .wdog, .fl, .tmr, .rider, .cul, .hg, .seq, .mem, .link, .lg, .nvm, .pwr, .dbg, .bist, .due, .apb, .free] s u := by
  injection h with h
  subst h
  exact .mono (apertureAccess_only ..)

theorem execRd_only {op : BitVec 4} {addr : BitVec 24} {s : State} {u : State} (h : execRd op addr s = .next u) :
    Only [.dbg] s u := by
  injection h with h
  subst h
  exact .mono (readFrame_only ..)

theorem execWr_only {op : BitVec 4} {addr : BitVec 24} {v : U32} {crc : BitVec 4} {s : State} {u : State} (h : execWr op addr v crc s = .next u) :
    Only [.clk, .ports, .out, .tur, .wdog, .fl, .tmr, .gp, .rider, .cul, .hg, .seq, .mem, .link, .lg, .nvm, .pwr, .dbg, .bist, .due, .free] s u := by
  injection h with h
  subst h
  exact .mono (writeFrame_only ..)

theorem execChallenge_only {v : U32} {noise : U32} {s : State} {u : State} (h : execChallenge v noise s = .next u) :
    Only [.dbg] s u := by
  injection h with h
  subst h
  refine .trans ?_ (respond_only ..)
  exact .mono (challenge_only ..)

theorem execCheck_only {s : State} {u : State} (h : execCheck s = .next u) : Only [.tur, .wdog, .seq, .dbg] s u := by
  injection h with h
  subst h
  refine .trans ?_ (respond_only ..)
  exact .mono (checkTag_only ..)

theorem execLockoutExpiry_only {s : State} {u : State} (h : execLockoutExpiry s = .next u) : Only [.dbg] s u := by
  injection h with h
  subst h
  refine .upd ?_ (.inr rfl) (.inr rfl) (.inr rfl) (.inr rfl) (.inr rfl) (.inr rfl) (.inr rfl) (.inr rfl) (.inr rfl) (.inr rfl) (.inr rfl) (.inr rfl) (.inr rfl) (.inr rfl) (.inr rfl) (.inr rfl) (.inr rfl) (.inr rfl) (.inr rfl) (.inr rfl) (.inr rfl) (.inl rfl) (.inr rfl) (.inr rfl) (.inr rfl) (.inr rfl)
  exact .refl _ _

theorem execDrop_only {s : State} {u : State} (h : execDrop s = .next u) : Only [.tur, .wdog, .seq, .dbg] s u := by
  injection h with h
  subst h
  refine .trans ?_ (respond_only ..)
  exact .mono (setLevel_only ..)

theorem execDbdataRead_only {s : State} {u : State} (h : execDbdataRead s = .next u) : Only [.dbg] s u := by
  injection h with h
  subst h
  exact .mono (readDbdata_only ..)

theorem execDbdataWrite_only {v : U32} {s : State} {u : State} (h : execDbdataWrite v s = .next u) :
    Only [.dbg] s u := by
  injection h with h
  subst h
  exact .mono (writeDbdata_only ..)

theorem execDebugBusComplete_only {resp : LoadResp} {s : State} {u : State} (h : execDebugBusComplete resp s = .next u) :
    Only [.ports, .out, .outcal, .tur, .gate, .shut, .wdog, .fl, .tmr, .rider, .cul, .hg, .seq, .mem, .link, .lg, .nvm, .pwr, .dbg, .bist, .due, .free] s u := by
  injection h with h
  subst h
  exact .mono (dbComplete_only ..)

theorem execHalt_only {n : Fin 16} {s : State} {u : State} (h : execHalt n s = .next u) :
    Only [.clk, .ports, .out, .tur, .wdog, .fl, .tmr, .gp, .rider, .cul, .hg, .seq, .mem, .link, .lg, .nvm, .pwr, .dbg, .bist, .due, .free] s u := by
  injection h with h
  subst h
  exact .mono (writeSpace_only ..)

theorem execMonitorEntry_only {n : Fin 16} {s : State} {u : State} (h : execMonitorEntry n s = .next u) :
    Only [.tur, .wdog, .seq, .mem, .link, .due, .free] s u := by
  injection h with h
  subst h
  refine inCore_only ?_
  exact .mono (monitorEntry_only ..)

theorem execMonitorRequest_only {n : Fin 16} {s : State} {u : State} (h : execMonitorRequest n s = .next u) :
    Only [.tur, .wdog, .seq] s u := by
  injection h with h
  subst h
  exact monitorRequest_only ..

theorem execResume_only {n : Fin 16} {s : State} {u : State} (h : execResume n s = .next u) :
    Only [.clk, .ports, .out, .tur, .wdog, .fl, .tmr, .gp, .rider, .cul, .hg, .seq, .mem, .link, .lg, .nvm, .pwr, .dbg, .bist, .due, .free] s u := by
  injection h with h
  subst h
  exact writeSpace_only ..

theorem execStepEntry_only {n : Fin 16} {s : State} {u : State} (h : execStepEntry n s = .next u) :
    Only [.tur, .wdog, .seq] s u := by
  injection h with h
  subst h
  refine inCore_only ?_
  exact .mono (stepEntry_only ..)

theorem execFreezeBegin_only {s : State} {u : State} (h : execFreezeBegin s = .next u) : Only [.tur, .dbg] s u := by
  injection h with h
  subst h
  refine inCore_only ?_
  exact .mono (freezeBegin_only ..)

theorem execThaw_only {s : State} {u : State} (h : execThaw s = .next u) :
    Only [.out, .tur, .tmr, .rider, .dbg] s u := by
  injection h with h
  subst h
  refine inCore_only ?_
  exact .mono (thaw_only ..)

theorem execDctlWake_only {s : State} {u : State} (h : execDctlWake s = .next u) :
    Only [.clk, .ports, .out, .tur, .wdog, .fl, .tmr, .gp, .rider, .cul, .hg, .seq, .mem, .link, .lg, .nvm, .pwr, .dbg, .bist, .due, .free] s u := by
  injection h with h
  subst h
  exact .mono (writeSpace_only ..)

theorem execGaugeAdvance_only {rdrI : U64} {s : State} {u : State} (h : execGaugeAdvance rdrI s = .next u) :
    Only [.clk, .ports, .out, .outcal, .tur, .gate, .shut, .wdog, .fl, .tmr, .gp, .rider, .cul, .hg, .seq, .mem, .link, .lg, .nvm, .pwr, .bist, .due, .free] s u := by
  injection h with h
  subst h
  refine .ite ?_ ?_
  exact .mono (gaugeAdvance_only ..)
  exact .refl _ _

theorem execWatchdogCount_only {s : State} {u : State} (h : execWatchdogCount s = .next u) : Only [.wdog] s u := by
  injection h with h
  subst h
  refine inCore_only ?_
  refine .ite ?_ ?_
  refine .upd ?_ (.inr rfl) (.inr rfl) (.inr rfl) (.inr rfl) (.inr rfl) (.inr rfl) (.inr rfl) (.inr rfl) (.inl rfl) (.inr rfl) (.inr rfl) (.inr rfl) (.inr rfl) (.inr rfl) (.inr rfl) (.inr rfl) (.inr rfl) (.inr rfl) (.inr rfl) (.inr rfl) (.inr rfl) (.inr rfl) (.inr rfl) (.inr rfl) (.inr rfl) (.inr rfl)
  exact .refl _ _
  exact .refl _ _

theorem execTallyCount_only {s : State} {u : State} (h : execTallyCount s = .next u) : Only [.gp] s u := by
  injection h with h
  subst h
  refine .ite ?_ ?_
  refine .ite ?_ ?_
  refine .upd ?_ (.inr rfl) (.inr rfl) (.inr rfl) (.inr rfl) (.inr rfl) (.inr rfl) (.inr rfl) (.inr rfl) (.inr rfl) (.inr rfl) (.inr rfl) (.inl rfl) (.inr rfl) (.inr rfl) (.inr rfl) (.inr rfl) (.inr rfl) (.inr rfl) (.inr rfl) (.inr rfl) (.inr rfl) (.inr rfl) (.inr rfl) (.inr rfl) (.inr rfl) (.inr rfl)
  exact .refl _ _
  refine .upd ?_ (.inr rfl) (.inr rfl) (.inr rfl) (.inr rfl) (.inr rfl) (.inr rfl) (.inr rfl) (.inr rfl) (.inr rfl) (.inr rfl) (.inr rfl) (.inl rfl) (.inr rfl) (.inr rfl) (.inr rfl) (.inr rfl) (.inr rfl) (.inr rfl) (.inr rfl) (.inr rfl) (.inr rfl) (.inr rfl) (.inr rfl) (.inr rfl) (.inr rfl) (.inr rfl)
  exact .refl _ _
  exact .refl _ _

theorem execTrickleLockLoss_only {p : Fin 4} {s : State} {u : State} (h : execTrickleLockLoss p s = .next u) :
    Only [.tur, .hg, .link] s u := by
  injection h with h
  subst h
  refine .ite ?_ ?_
  exact .mono (toDetect_only ..)
  exact .refl _ _

theorem execPortReturnToIdle_only {s : State} {u : State} (h : execPortReturnToIdle s = .next u) :
    Only [.dbg] s u := by
  injection h with h
  subst h
  refine .upd ?_ (.inr rfl) (.inr rfl) (.inr rfl) (.inr rfl) (.inr rfl) (.inr rfl) (.inr rfl) (.inr rfl) (.inr rfl) (.inr rfl) (.inr rfl) (.inr rfl) (.inr rfl) (.inr rfl) (.inr rfl) (.inr rfl) (.inr rfl) (.inr rfl) (.inr rfl) (.inr rfl) (.inr rfl) (.inl rfl) (.inr rfl) (.inr rfl) (.inr rfl) (.inr rfl)
  exact .refl _ _

end Sys2Proof.Machine
end

