-- ==== Sys2Proof/Laws/State.lean ====
section
/-! SUPPORT. What each update of the state leaves in each field. -/

namespace Sys2Proof.Machine

/-! ## State.modOut -/

@[simp] theorem State.modOut_pending (s : State) (n : Nat) (f : Outlet → Outlet) : (s.modOut n f).pending = s.pending := rfl
@[simp] theorem State.modOut_clk (s : State) (n : Nat) (f : Outlet → Outlet) : (s.modOut n f).clk = s.clk := rfl
@[simp] theorem State.modOut_ports (s : State) (n : Nat) (f : Outlet → Outlet) : (s.modOut n f).ports = s.ports := rfl
@[simp] theorem State.modOut_outcal (s : State) (n : Nat) (f : Outlet → Outlet) : (s.modOut n f).outcal = s.outcal := rfl
@[simp] theorem State.modOut_tur (s : State) (n : Nat) (f : Outlet → Outlet) : (s.modOut n f).tur = s.tur := rfl
@[simp] theorem State.modOut_gate (s : State) (n : Nat) (f : Outlet → Outlet) : (s.modOut n f).gate = s.gate := rfl
@[simp] theorem State.modOut_shut (s : State) (n : Nat) (f : Outlet → Outlet) : (s.modOut n f).shut = s.shut := rfl
@[simp] theorem State.modOut_wdog (s : State) (n : Nat) (f : Outlet → Outlet) : (s.modOut n f).wdog = s.wdog := rfl
@[simp] theorem State.modOut_fl (s : State) (n : Nat) (f : Outlet → Outlet) : (s.modOut n f).fl = s.fl := rfl
@[simp] theorem State.modOut_tmr (s : State) (n : Nat) (f : Outlet → Outlet) : (s.modOut n f).tmr = s.tmr := rfl
@[simp] theorem State.modOut_gp (s : State) (n : Nat) (f : Outlet → Outlet) : (s.modOut n f).gp = s.gp := rfl
@[simp] theorem State.modOut_rider (s : State) (n : Nat) (f : Outlet → Outlet) : (s.modOut n f).rider = s.rider := rfl
@[simp] theorem State.modOut_cul (s : State) (n : Nat) (f : Outlet → Outlet) : (s.modOut n f).cul = s.cul := rfl
@[simp] theorem State.modOut_hg (s : State) (n : Nat) (f : Outlet → Outlet) : (s.modOut n f).hg = s.hg := rfl
@[simp] theorem State.modOut_seq (s : State) (n : Nat) (f : Outlet → Outlet) : (s.modOut n f).seq = s.seq := rfl
@[simp] theorem State.modOut_mem (s : State) (n : Nat) (f : Outlet → Outlet) : (s.modOut n f).mem = s.mem := rfl
@[simp] theorem State.modOut_link (s : State) (n : Nat) (f : Outlet → Outlet) : (s.modOut n f).link = s.link := rfl
@[simp] theorem State.modOut_lg (s : State) (n : Nat) (f : Outlet → Outlet) : (s.modOut n f).lg = s.lg := rfl
@[simp] theorem State.modOut_nvm (s : State) (n : Nat) (f : Outlet → Outlet) : (s.modOut n f).nvm = s.nvm := rfl
@[simp] theorem State.modOut_pwr (s : State) (n : Nat) (f : Outlet → Outlet) : (s.modOut n f).pwr = s.pwr := rfl
@[simp] theorem State.modOut_dbg (s : State) (n : Nat) (f : Outlet → Outlet) : (s.modOut n f).dbg = s.dbg := rfl
@[simp] theorem State.modOut_bist (s : State) (n : Nat) (f : Outlet → Outlet) : (s.modOut n f).bist = s.bist := rfl
@[simp] theorem State.modOut_due (s : State) (n : Nat) (f : Outlet → Outlet) : (s.modOut n f).due = s.due := rfl
@[simp] theorem State.modOut_apb (s : State) (n : Nat) (f : Outlet → Outlet) : (s.modOut n f).apb = s.apb := rfl
@[simp] theorem State.modOut_free (s : State) (n : Nat) (f : Outlet → Outlet) : (s.modOut n f).free = s.free := rfl

theorem State.outlet_modOut (s : State) {n : Nat} (f : Outlet → Outlet) (h : n < 96) : (s.modOut n f).outlet n = f (s.outlet n) :=
  vget_vmod_self _ h _ _

theorem State.outlet_modOut_other (s : State) {i n : Nat} (f : Outlet → Outlet) (h : i ≠ n) : (s.modOut n f).outlet i = s.outlet i :=
  vget_vmod_other _ h _ _

/-! ## State.modFl -/

@[simp] theorem State.modFl_pending (s : State) (n : Nat) (f : Flume → Flume) : (s.modFl n f).pending = s.pending := rfl
@[simp] theorem State.modFl_clk (s : State) (n : Nat) (f : Flume → Flume) : (s.modFl n f).clk = s.clk := rfl
@[simp] theorem State.modFl_ports (s : State) (n : Nat) (f : Flume → Flume) : (s.modFl n f).ports = s.ports := rfl
@[simp] theorem State.modFl_out (s : State) (n : Nat) (f : Flume → Flume) : (s.modFl n f).out = s.out := rfl
@[simp] theorem State.modFl_outcal (s : State) (n : Nat) (f : Flume → Flume) : (s.modFl n f).outcal = s.outcal := rfl
@[simp] theorem State.modFl_tur (s : State) (n : Nat) (f : Flume → Flume) : (s.modFl n f).tur = s.tur := rfl
@[simp] theorem State.modFl_gate (s : State) (n : Nat) (f : Flume → Flume) : (s.modFl n f).gate = s.gate := rfl
@[simp] theorem State.modFl_shut (s : State) (n : Nat) (f : Flume → Flume) : (s.modFl n f).shut = s.shut := rfl
@[simp] theorem State.modFl_wdog (s : State) (n : Nat) (f : Flume → Flume) : (s.modFl n f).wdog = s.wdog := rfl
@[simp] theorem State.modFl_tmr (s : State) (n : Nat) (f : Flume → Flume) : (s.modFl n f).tmr = s.tmr := rfl
@[simp] theorem State.modFl_gp (s : State) (n : Nat) (f : Flume → Flume) : (s.modFl n f).gp = s.gp := rfl
@[simp] theorem State.modFl_rider (s : State) (n : Nat) (f : Flume → Flume) : (s.modFl n f).rider = s.rider := rfl
@[simp] theorem State.modFl_cul (s : State) (n : Nat) (f : Flume → Flume) : (s.modFl n f).cul = s.cul := rfl
@[simp] theorem State.modFl_hg (s : State) (n : Nat) (f : Flume → Flume) : (s.modFl n f).hg = s.hg := rfl
@[simp] theorem State.modFl_seq (s : State) (n : Nat) (f : Flume → Flume) : (s.modFl n f).seq = s.seq := rfl
@[simp] theorem State.modFl_mem (s : State) (n : Nat) (f : Flume → Flume) : (s.modFl n f).mem = s.mem := rfl
@[simp] theorem State.modFl_link (s : State) (n : Nat) (f : Flume → Flume) : (s.modFl n f).link = s.link := rfl
@[simp] theorem State.modFl_lg (s : State) (n : Nat) (f : Flume → Flume) : (s.modFl n f).lg = s.lg := rfl
@[simp] theorem State.modFl_nvm (s : State) (n : Nat) (f : Flume → Flume) : (s.modFl n f).nvm = s.nvm := rfl
@[simp] theorem State.modFl_pwr (s : State) (n : Nat) (f : Flume → Flume) : (s.modFl n f).pwr = s.pwr := rfl
@[simp] theorem State.modFl_dbg (s : State) (n : Nat) (f : Flume → Flume) : (s.modFl n f).dbg = s.dbg := rfl
@[simp] theorem State.modFl_bist (s : State) (n : Nat) (f : Flume → Flume) : (s.modFl n f).bist = s.bist := rfl
@[simp] theorem State.modFl_due (s : State) (n : Nat) (f : Flume → Flume) : (s.modFl n f).due = s.due := rfl
@[simp] theorem State.modFl_apb (s : State) (n : Nat) (f : Flume → Flume) : (s.modFl n f).apb = s.apb := rfl
@[simp] theorem State.modFl_free (s : State) (n : Nat) (f : Flume → Flume) : (s.modFl n f).free = s.free := rfl

theorem State.flume_modFl (s : State) {n : Nat} (f : Flume → Flume) (h : n < 32) : (s.modFl n f).flume n = f (s.flume n) :=
  vget_vmod_self _ h _ _

theorem State.flume_modFl_other (s : State) {i n : Nat} (f : Flume → Flume) (h : i ≠ n) : (s.modFl n f).flume i = s.flume i :=
  vget_vmod_other _ h _ _

/-! ## State.modTmr -/

@[simp] theorem State.modTmr_pending (s : State) (n : Nat) (f : Timer → Timer) : (s.modTmr n f).pending = s.pending := rfl
@[simp] theorem State.modTmr_clk (s : State) (n : Nat) (f : Timer → Timer) : (s.modTmr n f).clk = s.clk := rfl
@[simp] theorem State.modTmr_ports (s : State) (n : Nat) (f : Timer → Timer) : (s.modTmr n f).ports = s.ports := rfl
@[simp] theorem State.modTmr_out (s : State) (n : Nat) (f : Timer → Timer) : (s.modTmr n f).out = s.out := rfl
@[simp] theorem State.modTmr_outcal (s : State) (n : Nat) (f : Timer → Timer) : (s.modTmr n f).outcal = s.outcal := rfl
@[simp] theorem State.modTmr_tur (s : State) (n : Nat) (f : Timer → Timer) : (s.modTmr n f).tur = s.tur := rfl
@[simp] theorem State.modTmr_gate (s : State) (n : Nat) (f : Timer → Timer) : (s.modTmr n f).gate = s.gate := rfl
@[simp] theorem State.modTmr_shut (s : State) (n : Nat) (f : Timer → Timer) : (s.modTmr n f).shut = s.shut := rfl
@[simp] theorem State.modTmr_wdog (s : State) (n : Nat) (f : Timer → Timer) : (s.modTmr n f).wdog = s.wdog := rfl
@[simp] theorem State.modTmr_fl (s : State) (n : Nat) (f : Timer → Timer) : (s.modTmr n f).fl = s.fl := rfl
@[simp] theorem State.modTmr_gp (s : State) (n : Nat) (f : Timer → Timer) : (s.modTmr n f).gp = s.gp := rfl
@[simp] theorem State.modTmr_rider (s : State) (n : Nat) (f : Timer → Timer) : (s.modTmr n f).rider = s.rider := rfl
@[simp] theorem State.modTmr_cul (s : State) (n : Nat) (f : Timer → Timer) : (s.modTmr n f).cul = s.cul := rfl
@[simp] theorem State.modTmr_hg (s : State) (n : Nat) (f : Timer → Timer) : (s.modTmr n f).hg = s.hg := rfl
@[simp] theorem State.modTmr_seq (s : State) (n : Nat) (f : Timer → Timer) : (s.modTmr n f).seq = s.seq := rfl
@[simp] theorem State.modTmr_mem (s : State) (n : Nat) (f : Timer → Timer) : (s.modTmr n f).mem = s.mem := rfl
@[simp] theorem State.modTmr_link (s : State) (n : Nat) (f : Timer → Timer) : (s.modTmr n f).link = s.link := rfl
@[simp] theorem State.modTmr_lg (s : State) (n : Nat) (f : Timer → Timer) : (s.modTmr n f).lg = s.lg := rfl
@[simp] theorem State.modTmr_nvm (s : State) (n : Nat) (f : Timer → Timer) : (s.modTmr n f).nvm = s.nvm := rfl
@[simp] theorem State.modTmr_pwr (s : State) (n : Nat) (f : Timer → Timer) : (s.modTmr n f).pwr = s.pwr := rfl
@[simp] theorem State.modTmr_dbg (s : State) (n : Nat) (f : Timer → Timer) : (s.modTmr n f).dbg = s.dbg := rfl
@[simp] theorem State.modTmr_bist (s : State) (n : Nat) (f : Timer → Timer) : (s.modTmr n f).bist = s.bist := rfl
@[simp] theorem State.modTmr_due (s : State) (n : Nat) (f : Timer → Timer) : (s.modTmr n f).due = s.due := rfl
@[simp] theorem State.modTmr_apb (s : State) (n : Nat) (f : Timer → Timer) : (s.modTmr n f).apb = s.apb := rfl
@[simp] theorem State.modTmr_free (s : State) (n : Nat) (f : Timer → Timer) : (s.modTmr n f).free = s.free := rfl

theorem State.timer_modTmr (s : State) {n : Nat} (f : Timer → Timer) (h : n < 32) : (s.modTmr n f).timer n = f (s.timer n) :=
  vget_vmod_self _ h _ _

theorem State.timer_modTmr_other (s : State) {i n : Nat} (f : Timer → Timer) (h : i ≠ n) : (s.modTmr n f).timer i = s.timer i :=
  vget_vmod_other _ h _ _

/-! ## State.modGate -/

@[simp] theorem State.modGate_pending (s : State) (n : Nat) (f : Gate → Gate) : (s.modGate n f).pending = s.pending := rfl
@[simp] theorem State.modGate_clk (s : State) (n : Nat) (f : Gate → Gate) : (s.modGate n f).clk = s.clk := rfl
@[simp] theorem State.modGate_ports (s : State) (n : Nat) (f : Gate → Gate) : (s.modGate n f).ports = s.ports := rfl
@[simp] theorem State.modGate_out (s : State) (n : Nat) (f : Gate → Gate) : (s.modGate n f).out = s.out := rfl
@[simp] theorem State.modGate_outcal (s : State) (n : Nat) (f : Gate → Gate) : (s.modGate n f).outcal = s.outcal := rfl
@[simp] theorem State.modGate_tur (s : State) (n : Nat) (f : Gate → Gate) : (s.modGate n f).tur = s.tur := rfl
@[simp] theorem State.modGate_shut (s : State) (n : Nat) (f : Gate → Gate) : (s.modGate n f).shut = s.shut := rfl
@[simp] theorem State.modGate_wdog (s : State) (n : Nat) (f : Gate → Gate) : (s.modGate n f).wdog = s.wdog := rfl
@[simp] theorem State.modGate_fl (s : State) (n : Nat) (f : Gate → Gate) : (s.modGate n f).fl = s.fl := rfl
@[simp] theorem State.modGate_tmr (s : State) (n : Nat) (f : Gate → Gate) : (s.modGate n f).tmr = s.tmr := rfl
@[simp] theorem State.modGate_gp (s : State) (n : Nat) (f : Gate → Gate) : (s.modGate n f).gp = s.gp := rfl
@[simp] theorem State.modGate_rider (s : State) (n : Nat) (f : Gate → Gate) : (s.modGate n f).rider = s.rider := rfl
@[simp] theorem State.modGate_cul (s : State) (n : Nat) (f : Gate → Gate) : (s.modGate n f).cul = s.cul := rfl
@[simp] theorem State.modGate_hg (s : State) (n : Nat) (f : Gate → Gate) : (s.modGate n f).hg = s.hg := rfl
@[simp] theorem State.modGate_seq (s : State) (n : Nat) (f : Gate → Gate) : (s.modGate n f).seq = s.seq := rfl
@[simp] theorem State.modGate_mem (s : State) (n : Nat) (f : Gate → Gate) : (s.modGate n f).mem = s.mem := rfl
@[simp] theorem State.modGate_link (s : State) (n : Nat) (f : Gate → Gate) : (s.modGate n f).link = s.link := rfl
@[simp] theorem State.modGate_lg (s : State) (n : Nat) (f : Gate → Gate) : (s.modGate n f).lg = s.lg := rfl
@[simp] theorem State.modGate_nvm (s : State) (n : Nat) (f : Gate → Gate) : (s.modGate n f).nvm = s.nvm := rfl
@[simp] theorem State.modGate_pwr (s : State) (n : Nat) (f : Gate → Gate) : (s.modGate n f).pwr = s.pwr := rfl
@[simp] theorem State.modGate_dbg (s : State) (n : Nat) (f : Gate → Gate) : (s.modGate n f).dbg = s.dbg := rfl
@[simp] theorem State.modGate_bist (s : State) (n : Nat) (f : Gate → Gate) : (s.modGate n f).bist = s.bist := rfl
@[simp] theorem State.modGate_due (s : State) (n : Nat) (f : Gate → Gate) : (s.modGate n f).due = s.due := rfl
@[simp] theorem State.modGate_apb (s : State) (n : Nat) (f : Gate → Gate) : (s.modGate n f).apb = s.apb := rfl
@[simp] theorem State.modGate_free (s : State) (n : Nat) (f : Gate → Gate) : (s.modGate n f).free = s.free := rfl

theorem State.getGate_modGate (s : State) {n : Nat} (f : Gate → Gate) (h : n < 8) : (s.modGate n f).getGate n = f (s.getGate n) :=
  vget_vmod_self _ h _ _

theorem State.getGate_modGate_other (s : State) {i n : Nat} (f : Gate → Gate) (h : i ≠ n) : (s.modGate n f).getGate i = s.getGate i :=
  vget_vmod_other _ h _ _

/-! ## State.modRch -/

@[simp] theorem State.modRch_pending (s : State) (n : Nat) (f : RiderCh → RiderCh) : (s.modRch n f).pending = s.pending := rfl
@[simp] theorem State.modRch_clk (s : State) (n : Nat) (f : RiderCh → RiderCh) : (s.modRch n f).clk = s.clk := rfl
@[simp] theorem State.modRch_ports (s : State) (n : Nat) (f : RiderCh → RiderCh) : (s.modRch n f).ports = s.ports := rfl
@[simp] theorem State.modRch_out (s : State) (n : Nat) (f : RiderCh → RiderCh) : (s.modRch n f).out = s.out := rfl
@[simp] theorem State.modRch_outcal (s : State) (n : Nat) (f : RiderCh → RiderCh) : (s.modRch n f).outcal = s.outcal := rfl
@[simp] theorem State.modRch_tur (s : State) (n : Nat) (f : RiderCh → RiderCh) : (s.modRch n f).tur = s.tur := rfl
@[simp] theorem State.modRch_gate (s : State) (n : Nat) (f : RiderCh → RiderCh) : (s.modRch n f).gate = s.gate := rfl
@[simp] theorem State.modRch_shut (s : State) (n : Nat) (f : RiderCh → RiderCh) : (s.modRch n f).shut = s.shut := rfl
@[simp] theorem State.modRch_wdog (s : State) (n : Nat) (f : RiderCh → RiderCh) : (s.modRch n f).wdog = s.wdog := rfl
@[simp] theorem State.modRch_fl (s : State) (n : Nat) (f : RiderCh → RiderCh) : (s.modRch n f).fl = s.fl := rfl
@[simp] theorem State.modRch_tmr (s : State) (n : Nat) (f : RiderCh → RiderCh) : (s.modRch n f).tmr = s.tmr := rfl
@[simp] theorem State.modRch_gp (s : State) (n : Nat) (f : RiderCh → RiderCh) : (s.modRch n f).gp = s.gp := rfl
@[simp] theorem State.modRch_cul (s : State) (n : Nat) (f : RiderCh → RiderCh) : (s.modRch n f).cul = s.cul := rfl
@[simp] theorem State.modRch_hg (s : State) (n : Nat) (f : RiderCh → RiderCh) : (s.modRch n f).hg = s.hg := rfl
@[simp] theorem State.modRch_seq (s : State) (n : Nat) (f : RiderCh → RiderCh) : (s.modRch n f).seq = s.seq := rfl
@[simp] theorem State.modRch_mem (s : State) (n : Nat) (f : RiderCh → RiderCh) : (s.modRch n f).mem = s.mem := rfl
@[simp] theorem State.modRch_link (s : State) (n : Nat) (f : RiderCh → RiderCh) : (s.modRch n f).link = s.link := rfl
@[simp] theorem State.modRch_lg (s : State) (n : Nat) (f : RiderCh → RiderCh) : (s.modRch n f).lg = s.lg := rfl
@[simp] theorem State.modRch_nvm (s : State) (n : Nat) (f : RiderCh → RiderCh) : (s.modRch n f).nvm = s.nvm := rfl
@[simp] theorem State.modRch_pwr (s : State) (n : Nat) (f : RiderCh → RiderCh) : (s.modRch n f).pwr = s.pwr := rfl
@[simp] theorem State.modRch_dbg (s : State) (n : Nat) (f : RiderCh → RiderCh) : (s.modRch n f).dbg = s.dbg := rfl
@[simp] theorem State.modRch_bist (s : State) (n : Nat) (f : RiderCh → RiderCh) : (s.modRch n f).bist = s.bist := rfl
@[simp] theorem State.modRch_due (s : State) (n : Nat) (f : RiderCh → RiderCh) : (s.modRch n f).due = s.due := rfl
@[simp] theorem State.modRch_apb (s : State) (n : Nat) (f : RiderCh → RiderCh) : (s.modRch n f).apb = s.apb := rfl
@[simp] theorem State.modRch_free (s : State) (n : Nat) (f : RiderCh → RiderCh) : (s.modRch n f).free = s.free := rfl
@[simp] theorem State.modRch_rider_sync (s : State) (n : Nat) (f : RiderCh → RiderCh) : (s.modRch n f).rider.sync = s.rider.sync := rfl
@[simp] theorem State.modRch_rider_serr (s : State) (n : Nat) (f : RiderCh → RiderCh) : (s.modRch n f).rider.serr = s.rider.serr := rfl
@[simp] theorem State.modRch_rider_mask (s : State) (n : Nat) (f : RiderCh → RiderCh) : (s.modRch n f).rider.mask = s.rider.mask := rfl
@[simp] theorem State.modRch_rider_synct (s : State) (n : Nat) (f : RiderCh → RiderCh) : (s.modRch n f).rider.synct = s.rider.synct := rfl
@[simp] theorem State.modRch_rider_passedAt (s : State) (n : Nat) (f : RiderCh → RiderCh) : (s.modRch n f).rider.passedAt = s.rider.passedAt := rfl
@[simp] theorem State.modRch_rider_slot (s : State) (n : Nat) (f : RiderCh → RiderCh) : (s.modRch n f).rider.slot = s.rider.slot := rfl
@[simp] theorem State.modRch_rider_slotPrev (s : State) (n : Nat) (f : RiderCh → RiderCh) : (s.modRch n f).rider.slotPrev = s.rider.slotPrev := rfl
@[simp] theorem State.modRch_rider_turnDone (s : State) (n : Nat) (f : RiderCh → RiderCh) : (s.modRch n f).rider.turnDone = s.rider.turnDone := rfl
@[simp] theorem State.modRch_rider_prog (s : State) (n : Nat) (f : RiderCh → RiderCh) : (s.modRch n f).rider.prog = s.rider.prog := rfl
@[simp] theorem State.modRch_rider_bad (s : State) (n : Nat) (f : RiderCh → RiderCh) : (s.modRch n f).rider.bad = s.rider.bad := rfl

theorem State.rch_modRch (s : State) {n : Nat} (f : RiderCh → RiderCh) (h : n < 32) : (s.modRch n f).rch n = f (s.rch n) :=
  vget_vmod_self _ h _ _

theorem State.rch_modRch_other (s : State) {i n : Nat} (f : RiderCh → RiderCh) (h : i ≠ n) : (s.modRch n f).rch i = s.rch i :=
  vget_vmod_other _ h _ _

/-! ## State.modCul -/

@[simp] theorem State.modCul_pending (s : State) (n : Nat) (f : CulCh → CulCh) : (s.modCul n f).pending = s.pending := rfl
@[simp] theorem State.modCul_clk (s : State) (n : Nat) (f : CulCh → CulCh) : (s.modCul n f).clk = s.clk := rfl
@[simp] theorem State.modCul_ports (s : State) (n : Nat) (f : CulCh → CulCh) : (s.modCul n f).ports = s.ports := rfl
@[simp] theorem State.modCul_out (s : State) (n : Nat) (f : CulCh → CulCh) : (s.modCul n f).out = s.out := rfl
@[simp] theorem State.modCul_outcal (s : State) (n : Nat) (f : CulCh → CulCh) : (s.modCul n f).outcal = s.outcal := rfl
@[simp] theorem State.modCul_tur (s : State) (n : Nat) (f : CulCh → CulCh) : (s.modCul n f).tur = s.tur := rfl
@[simp] theorem State.modCul_gate (s : State) (n : Nat) (f : CulCh → CulCh) : (s.modCul n f).gate = s.gate := rfl
@[simp] theorem State.modCul_shut (s : State) (n : Nat) (f : CulCh → CulCh) : (s.modCul n f).shut = s.shut := rfl
@[simp] theorem State.modCul_wdog (s : State) (n : Nat) (f : CulCh → CulCh) : (s.modCul n f).wdog = s.wdog := rfl
@[simp] theorem State.modCul_fl (s : State) (n : Nat) (f : CulCh → CulCh) : (s.modCul n f).fl = s.fl := rfl
@[simp] theorem State.modCul_tmr (s : State) (n : Nat) (f : CulCh → CulCh) : (s.modCul n f).tmr = s.tmr := rfl
@[simp] theorem State.modCul_gp (s : State) (n : Nat) (f : CulCh → CulCh) : (s.modCul n f).gp = s.gp := rfl
@[simp] theorem State.modCul_rider (s : State) (n : Nat) (f : CulCh → CulCh) : (s.modCul n f).rider = s.rider := rfl
@[simp] theorem State.modCul_hg (s : State) (n : Nat) (f : CulCh → CulCh) : (s.modCul n f).hg = s.hg := rfl
@[simp] theorem State.modCul_seq (s : State) (n : Nat) (f : CulCh → CulCh) : (s.modCul n f).seq = s.seq := rfl
@[simp] theorem State.modCul_mem (s : State) (n : Nat) (f : CulCh → CulCh) : (s.modCul n f).mem = s.mem := rfl
@[simp] theorem State.modCul_link (s : State) (n : Nat) (f : CulCh → CulCh) : (s.modCul n f).link = s.link := rfl
@[simp] theorem State.modCul_lg (s : State) (n : Nat) (f : CulCh → CulCh) : (s.modCul n f).lg = s.lg := rfl
@[simp] theorem State.modCul_nvm (s : State) (n : Nat) (f : CulCh → CulCh) : (s.modCul n f).nvm = s.nvm := rfl
@[simp] theorem State.modCul_pwr (s : State) (n : Nat) (f : CulCh → CulCh) : (s.modCul n f).pwr = s.pwr := rfl
@[simp] theorem State.modCul_dbg (s : State) (n : Nat) (f : CulCh → CulCh) : (s.modCul n f).dbg = s.dbg := rfl
@[simp] theorem State.modCul_bist (s : State) (n : Nat) (f : CulCh → CulCh) : (s.modCul n f).bist = s.bist := rfl
@[simp] theorem State.modCul_due (s : State) (n : Nat) (f : CulCh → CulCh) : (s.modCul n f).due = s.due := rfl
@[simp] theorem State.modCul_apb (s : State) (n : Nat) (f : CulCh → CulCh) : (s.modCul n f).apb = s.apb := rfl
@[simp] theorem State.modCul_free (s : State) (n : Nat) (f : CulCh → CulCh) : (s.modCul n f).free = s.free := rfl
@[simp] theorem State.modCul_cul_last (s : State) (n : Nat) (f : CulCh → CulCh) : (s.modCul n f).cul.last = s.cul.last := rfl

theorem State.culCh_modCul (s : State) {n : Nat} (f : CulCh → CulCh) (h : n < 16) : (s.modCul n f).culCh n = f (s.culCh n) :=
  vget_vmod_self _ h _ _

theorem State.culCh_modCul_other (s : State) {i n : Nat} (f : CulCh → CulCh) (h : i ≠ n) : (s.modCul n f).culCh i = s.culCh i :=
  vget_vmod_other _ h _ _

/-! ## State.modThr -/

@[simp] theorem State.modThr_pending (s : State) (n : Nat) (f : Thread → Thread) : (s.modThr n f).pending = s.pending := rfl
@[simp] theorem State.modThr_clk (s : State) (n : Nat) (f : Thread → Thread) : (s.modThr n f).clk = s.clk := rfl
@[simp] theorem State.modThr_ports (s : State) (n : Nat) (f : Thread → Thread) : (s.modThr n f).ports = s.ports := rfl
@[simp] theorem State.modThr_out (s : State) (n : Nat) (f : Thread → Thread) : (s.modThr n f).out = s.out := rfl
@[simp] theorem State.modThr_outcal (s : State) (n : Nat) (f : Thread → Thread) : (s.modThr n f).outcal = s.outcal := rfl
@[simp] theorem State.modThr_tur (s : State) (n : Nat) (f : Thread → Thread) : (s.modThr n f).tur = s.tur := rfl
@[simp] theorem State.modThr_gate (s : State) (n : Nat) (f : Thread → Thread) : (s.modThr n f).gate = s.gate := rfl
@[simp] theorem State.modThr_shut (s : State) (n : Nat) (f : Thread → Thread) : (s.modThr n f).shut = s.shut := rfl
@[simp] theorem State.modThr_wdog (s : State) (n : Nat) (f : Thread → Thread) : (s.modThr n f).wdog = s.wdog := rfl
@[simp] theorem State.modThr_fl (s : State) (n : Nat) (f : Thread → Thread) : (s.modThr n f).fl = s.fl := rfl
@[simp] theorem State.modThr_tmr (s : State) (n : Nat) (f : Thread → Thread) : (s.modThr n f).tmr = s.tmr := rfl
@[simp] theorem State.modThr_gp (s : State) (n : Nat) (f : Thread → Thread) : (s.modThr n f).gp = s.gp := rfl
@[simp] theorem State.modThr_rider (s : State) (n : Nat) (f : Thread → Thread) : (s.modThr n f).rider = s.rider := rfl
@[simp] theorem State.modThr_cul (s : State) (n : Nat) (f : Thread → Thread) : (s.modThr n f).cul = s.cul := rfl
@[simp] theorem State.modThr_hg (s : State) (n : Nat) (f : Thread → Thread) : (s.modThr n f).hg = s.hg := rfl
@[simp] theorem State.modThr_mem (s : State) (n : Nat) (f : Thread → Thread) : (s.modThr n f).mem = s.mem := rfl
@[simp] theorem State.modThr_link (s : State) (n : Nat) (f : Thread → Thread) : (s.modThr n f).link = s.link := rfl
@[simp] theorem State.modThr_lg (s : State) (n : Nat) (f : Thread → Thread) : (s.modThr n f).lg = s.lg := rfl
@[simp] theorem State.modThr_nvm (s : State) (n : Nat) (f : Thread → Thread) : (s.modThr n f).nvm = s.nvm := rfl
@[simp] theorem State.modThr_pwr (s : State) (n : Nat) (f : Thread → Thread) : (s.modThr n f).pwr = s.pwr := rfl
@[simp] theorem State.modThr_dbg (s : State) (n : Nat) (f : Thread → Thread) : (s.modThr n f).dbg = s.dbg := rfl
@[simp] theorem State.modThr_bist (s : State) (n : Nat) (f : Thread → Thread) : (s.modThr n f).bist = s.bist := rfl
@[simp] theorem State.modThr_due (s : State) (n : Nat) (f : Thread → Thread) : (s.modThr n f).due = s.due := rfl
@[simp] theorem State.modThr_apb (s : State) (n : Nat) (f : Thread → Thread) : (s.modThr n f).apb = s.apb := rfl
@[simp] theorem State.modThr_free (s : State) (n : Nat) (f : Thread → Thread) : (s.modThr n f).free = s.free := rfl
@[simp] theorem State.modThr_seq_last (s : State) (n : Nat) (f : Thread → Thread) : (s.modThr n f).seq.last = s.seq.last := rfl
@[simp] theorem State.modThr_seq_issuedAt (s : State) (n : Nat) (f : Thread → Thread) : (s.modThr n f).seq.issuedAt = s.seq.issuedAt := rfl
@[simp] theorem State.modThr_seq_idleAt (s : State) (n : Nat) (f : Thread → Thread) : (s.modThr n f).seq.idleAt = s.seq.idleAt := rfl
@[simp] theorem State.modThr_seq_safeThr (s : State) (n : Nat) (f : Thread → Thread) : (s.modThr n f).seq.safeThr = s.seq.safeThr := rfl
@[simp] theorem State.modThr_seq_safeAt (s : State) (n : Nat) (f : Thread → Thread) : (s.modThr n f).seq.safeAt = s.seq.safeAt := rfl
@[simp] theorem State.modThr_seq_hwin (s : State) (n : Nat) (f : Thread → Thread) : (s.modThr n f).seq.hwin = s.seq.hwin := rfl
@[simp] theorem State.modThr_seq_scond (s : State) (n : Nat) (f : Thread → Thread) : (s.modThr n f).seq.scond = s.seq.scond := rfl
@[simp] theorem State.modThr_seq_excbase (s : State) (n : Nat) (f : Thread → Thread) : (s.modThr n f).seq.excbase = s.seq.excbase := rfl
@[simp] theorem State.modThr_seq_spillpc (s : State) (n : Nat) (f : Thread → Thread) : (s.modThr n f).seq.spillpc = s.seq.spillpc := rfl
@[simp] theorem State.modThr_seq_spilldsp (s : State) (n : Nat) (f : Thread → Thread) : (s.modThr n f).seq.spilldsp = s.seq.spilldsp := rfl
@[simp] theorem State.modThr_seq_spillBase (s : State) (n : Nat) (f : Thread → Thread) : (s.modThr n f).seq.spillBase = s.seq.spillBase := rfl
@[simp] theorem State.modThr_seq_spillRows (s : State) (n : Nat) (f : Thread → Thread) : (s.modThr n f).seq.spillRows = s.seq.spillRows := rfl
@[simp] theorem State.modThr_seq_spilldsl (s : State) (n : Nat) (f : Thread → Thread) : (s.modThr n f).seq.spilldsl = s.seq.spilldsl := rfl
@[simp] theorem State.modThr_seq_spActive (s : State) (n : Nat) (f : Thread → Thread) : (s.modThr n f).seq.spActive = s.seq.spActive := rfl
@[simp] theorem State.modThr_seq_spThr (s : State) (n : Nat) (f : Thread → Thread) : (s.modThr n f).seq.spThr = s.seq.spThr := rfl
@[simp] theorem State.modThr_seq_spVec (s : State) (n : Nat) (f : Thread → Thread) : (s.modThr n f).seq.spVec = s.seq.spVec := rfl
@[simp] theorem State.modThr_seq_spCount (s : State) (n : Nat) (f : Thread → Thread) : (s.modThr n f).seq.spCount = s.seq.spCount := rfl
@[simp] theorem State.modThr_seq_spx (s : State) (n : Nat) (f : Thread → Thread) : (s.modThr n f).seq.spx = s.seq.spx := rfl
@[simp] theorem State.modThr_seq_verImg (s : State) (n : Nat) (f : Thread → Thread) : (s.modThr n f).seq.verImg = s.seq.verImg := rfl
@[simp] theorem State.modThr_seq_verPatch (s : State) (n : Nat) (f : Thread → Thread) : (s.modThr n f).seq.verPatch = s.seq.verPatch := rfl
@[simp] theorem State.modThr_seq_verLib (s : State) (n : Nat) (f : Thread → Thread) : (s.modThr n f).seq.verLib = s.seq.verLib := rfl
@[simp] theorem State.modThr_seq_verHw (s : State) (n : Nat) (f : Thread → Thread) : (s.modThr n f).seq.verHw = s.seq.verHw := rfl

theorem State.thr_modThr (s : State) {n : Nat} (f : Thread → Thread) (h : n < 16) : (s.modThr n f).thr n = f (s.thr n) :=
  vget_vmod_self _ h _ _

theorem State.thr_modThr_other (s : State) {i n : Nat} (f : Thread → Thread) (h : i ≠ n) : (s.modThr n f).thr i = s.thr i :=
  vget_vmod_other _ h _ _

/-! ## State.modCtx -/

@[simp] theorem State.modCtx_pending (s : State) (n : Nat) (f : Ctx → Ctx) : (s.modCtx n f).pending = s.pending := rfl
@[simp] theorem State.modCtx_clk (s : State) (n : Nat) (f : Ctx → Ctx) : (s.modCtx n f).clk = s.clk := rfl
@[simp] theorem State.modCtx_ports (s : State) (n : Nat) (f : Ctx → Ctx) : (s.modCtx n f).ports = s.ports := rfl
@[simp] theorem State.modCtx_out (s : State) (n : Nat) (f : Ctx → Ctx) : (s.modCtx n f).out = s.out := rfl
@[simp] theorem State.modCtx_outcal (s : State) (n : Nat) (f : Ctx → Ctx) : (s.modCtx n f).outcal = s.outcal := rfl
@[simp] theorem State.modCtx_tur (s : State) (n : Nat) (f : Ctx → Ctx) : (s.modCtx n f).tur = s.tur := rfl
@[simp] theorem State.modCtx_gate (s : State) (n : Nat) (f : Ctx → Ctx) : (s.modCtx n f).gate = s.gate := rfl
@[simp] theorem State.modCtx_shut (s : State) (n : Nat) (f : Ctx → Ctx) : (s.modCtx n f).shut = s.shut := rfl
@[simp] theorem State.modCtx_wdog (s : State) (n : Nat) (f : Ctx → Ctx) : (s.modCtx n f).wdog = s.wdog := rfl
@[simp] theorem State.modCtx_fl (s : State) (n : Nat) (f : Ctx → Ctx) : (s.modCtx n f).fl = s.fl := rfl
@[simp] theorem State.modCtx_tmr (s : State) (n : Nat) (f : Ctx → Ctx) : (s.modCtx n f).tmr = s.tmr := rfl
@[simp] theorem State.modCtx_gp (s : State) (n : Nat) (f : Ctx → Ctx) : (s.modCtx n f).gp = s.gp := rfl
@[simp] theorem State.modCtx_rider (s : State) (n : Nat) (f : Ctx → Ctx) : (s.modCtx n f).rider = s.rider := rfl
@[simp] theorem State.modCtx_cul (s : State) (n : Nat) (f : Ctx → Ctx) : (s.modCtx n f).cul = s.cul := rfl
@[simp] theorem State.modCtx_hg (s : State) (n : Nat) (f : Ctx → Ctx) : (s.modCtx n f).hg = s.hg := rfl
@[simp] theorem State.modCtx_mem (s : State) (n : Nat) (f : Ctx → Ctx) : (s.modCtx n f).mem = s.mem := rfl
@[simp] theorem State.modCtx_link (s : State) (n : Nat) (f : Ctx → Ctx) : (s.modCtx n f).link = s.link := rfl
@[simp] theorem State.modCtx_lg (s : State) (n : Nat) (f : Ctx → Ctx) : (s.modCtx n f).lg = s.lg := rfl
@[simp] theorem State.modCtx_nvm (s : State) (n : Nat) (f : Ctx → Ctx) : (s.modCtx n f).nvm = s.nvm := rfl
@[simp] theorem State.modCtx_pwr (s : State) (n : Nat) (f : Ctx → Ctx) : (s.modCtx n f).pwr = s.pwr := rfl
@[simp] theorem State.modCtx_dbg (s : State) (n : Nat) (f : Ctx → Ctx) : (s.modCtx n f).dbg = s.dbg := rfl
@[simp] theorem State.modCtx_bist (s : State) (n : Nat) (f : Ctx → Ctx) : (s.modCtx n f).bist = s.bist := rfl
@[simp] theorem State.modCtx_due (s : State) (n : Nat) (f : Ctx → Ctx) : (s.modCtx n f).due = s.due := rfl
@[simp] theorem State.modCtx_apb (s : State) (n : Nat) (f : Ctx → Ctx) : (s.modCtx n f).apb = s.apb := rfl
@[simp] theorem State.modCtx_free (s : State) (n : Nat) (f : Ctx → Ctx) : (s.modCtx n f).free = s.free := rfl
@[simp] theorem State.modCtx_seq_last (s : State) (n : Nat) (f : Ctx → Ctx) : (s.modCtx n f).seq.last = s.seq.last := rfl
@[simp] theorem State.modCtx_seq_issuedAt (s : State) (n : Nat) (f : Ctx → Ctx) : (s.modCtx n f).seq.issuedAt = s.seq.issuedAt := rfl
@[simp] theorem State.modCtx_seq_idleAt (s : State) (n : Nat) (f : Ctx → Ctx) : (s.modCtx n f).seq.idleAt = s.seq.idleAt := rfl
@[simp] theorem State.modCtx_seq_safeThr (s : State) (n : Nat) (f : Ctx → Ctx) : (s.modCtx n f).seq.safeThr = s.seq.safeThr := rfl
@[simp] theorem State.modCtx_seq_safeAt (s : State) (n : Nat) (f : Ctx → Ctx) : (s.modCtx n f).seq.safeAt = s.seq.safeAt := rfl
@[simp] theorem State.modCtx_seq_hwin (s : State) (n : Nat) (f : Ctx → Ctx) : (s.modCtx n f).seq.hwin = s.seq.hwin := rfl
@[simp] theorem State.modCtx_seq_scond (s : State) (n : Nat) (f : Ctx → Ctx) : (s.modCtx n f).seq.scond = s.seq.scond := rfl
@[simp] theorem State.modCtx_seq_excbase (s : State) (n : Nat) (f : Ctx → Ctx) : (s.modCtx n f).seq.excbase = s.seq.excbase := rfl
@[simp] theorem State.modCtx_seq_spillpc (s : State) (n : Nat) (f : Ctx → Ctx) : (s.modCtx n f).seq.spillpc = s.seq.spillpc := rfl
@[simp] theorem State.modCtx_seq_spilldsp (s : State) (n : Nat) (f : Ctx → Ctx) : (s.modCtx n f).seq.spilldsp = s.seq.spilldsp := rfl
@[simp] theorem State.modCtx_seq_spillBase (s : State) (n : Nat) (f : Ctx → Ctx) : (s.modCtx n f).seq.spillBase = s.seq.spillBase := rfl
@[simp] theorem State.modCtx_seq_spillRows (s : State) (n : Nat) (f : Ctx → Ctx) : (s.modCtx n f).seq.spillRows = s.seq.spillRows := rfl
@[simp] theorem State.modCtx_seq_spilldsl (s : State) (n : Nat) (f : Ctx → Ctx) : (s.modCtx n f).seq.spilldsl = s.seq.spilldsl := rfl
@[simp] theorem State.modCtx_seq_spActive (s : State) (n : Nat) (f : Ctx → Ctx) : (s.modCtx n f).seq.spActive = s.seq.spActive := rfl
@[simp] theorem State.modCtx_seq_spThr (s : State) (n : Nat) (f : Ctx → Ctx) : (s.modCtx n f).seq.spThr = s.seq.spThr := rfl
@[simp] theorem State.modCtx_seq_spVec (s : State) (n : Nat) (f : Ctx → Ctx) : (s.modCtx n f).seq.spVec = s.seq.spVec := rfl
@[simp] theorem State.modCtx_seq_spCount (s : State) (n : Nat) (f : Ctx → Ctx) : (s.modCtx n f).seq.spCount = s.seq.spCount := rfl
@[simp] theorem State.modCtx_seq_spx (s : State) (n : Nat) (f : Ctx → Ctx) : (s.modCtx n f).seq.spx = s.seq.spx := rfl
@[simp] theorem State.modCtx_seq_verImg (s : State) (n : Nat) (f : Ctx → Ctx) : (s.modCtx n f).seq.verImg = s.seq.verImg := rfl
@[simp] theorem State.modCtx_seq_verPatch (s : State) (n : Nat) (f : Ctx → Ctx) : (s.modCtx n f).seq.verPatch = s.seq.verPatch := rfl
@[simp] theorem State.modCtx_seq_verLib (s : State) (n : Nat) (f : Ctx → Ctx) : (s.modCtx n f).seq.verLib = s.seq.verLib := rfl
@[simp] theorem State.modCtx_seq_verHw (s : State) (n : Nat) (f : Ctx → Ctx) : (s.modCtx n f).seq.verHw = s.seq.verHw := rfl
/-! ## State.modSrc -/

@[simp] theorem State.modSrc_pending (s : State) (n : Nat) (f : Source → Source) : (s.modSrc n f).pending = s.pending := rfl
@[simp] theorem State.modSrc_clk (s : State) (n : Nat) (f : Source → Source) : (s.modSrc n f).clk = s.clk := rfl
@[simp] theorem State.modSrc_ports (s : State) (n : Nat) (f : Source → Source) : (s.modSrc n f).ports = s.ports := rfl
@[simp] theorem State.modSrc_out (s : State) (n : Nat) (f : Source → Source) : (s.modSrc n f).out = s.out := rfl
@[simp] theorem State.modSrc_outcal (s : State) (n : Nat) (f : Source → Source) : (s.modSrc n f).outcal = s.outcal := rfl
@[simp] theorem State.modSrc_gate (s : State) (n : Nat) (f : Source → Source) : (s.modSrc n f).gate = s.gate := rfl
@[simp] theorem State.modSrc_shut (s : State) (n : Nat) (f : Source → Source) : (s.modSrc n f).shut = s.shut := rfl
@[simp] theorem State.modSrc_wdog (s : State) (n : Nat) (f : Source → Source) : (s.modSrc n f).wdog = s.wdog := rfl
@[simp] theorem State.modSrc_fl (s : State) (n : Nat) (f : Source → Source) : (s.modSrc n f).fl = s.fl := rfl
@[simp] theorem State.modSrc_tmr (s : State) (n : Nat) (f : Source → Source) : (s.modSrc n f).tmr = s.tmr := rfl
@[simp] theorem State.modSrc_gp (s : State) (n : Nat) (f : Source → Source) : (s.modSrc n f).gp = s.gp := rfl
@[simp] theorem State.modSrc_rider (s : State) (n : Nat) (f : Source → Source) : (s.modSrc n f).rider = s.rider := rfl
@[simp] theorem State.modSrc_cul (s : State) (n : Nat) (f : Source → Source) : (s.modSrc n f).cul = s.cul := rfl
@[simp] theorem State.modSrc_hg (s : State) (n : Nat) (f : Source → Source) : (s.modSrc n f).hg = s.hg := rfl
@[simp] theorem State.modSrc_seq (s : State) (n : Nat) (f : Source → Source) : (s.modSrc n f).seq = s.seq := rfl
@[simp] theorem State.modSrc_mem (s : State) (n : Nat) (f : Source → Source) : (s.modSrc n f).mem = s.mem := rfl
@[simp] theorem State.modSrc_link (s : State) (n : Nat) (f : Source → Source) : (s.modSrc n f).link = s.link := rfl
@[simp] theorem State.modSrc_lg (s : State) (n : Nat) (f : Source → Source) : (s.modSrc n f).lg = s.lg := rfl
@[simp] theorem State.modSrc_nvm (s : State) (n : Nat) (f : Source → Source) : (s.modSrc n f).nvm = s.nvm := rfl
@[simp] theorem State.modSrc_pwr (s : State) (n : Nat) (f : Source → Source) : (s.modSrc n f).pwr = s.pwr := rfl
@[simp] theorem State.modSrc_dbg (s : State) (n : Nat) (f : Source → Source) : (s.modSrc n f).dbg = s.dbg := rfl
@[simp] theorem State.modSrc_bist (s : State) (n : Nat) (f : Source → Source) : (s.modSrc n f).bist = s.bist := rfl
@[simp] theorem State.modSrc_due (s : State) (n : Nat) (f : Source → Source) : (s.modSrc n f).due = s.due := rfl
@[simp] theorem State.modSrc_apb (s : State) (n : Nat) (f : Source → Source) : (s.modSrc n f).apb = s.apb := rfl
@[simp] theorem State.modSrc_free (s : State) (n : Nat) (f : Source → Source) : (s.modSrc n f).free = s.free := rfl
@[simp] theorem State.modSrc_tur_tgt (s : State) (n : Nat) (f : Source → Source) : (s.modSrc n f).tur.tgt = s.tur.tgt := rfl
@[simp] theorem State.modSrc_tur_lastChosen (s : State) (n : Nat) (f : Source → Source) : (s.modSrc n f).tur.lastChosen = s.tur.lastChosen := rfl
@[simp] theorem State.modSrc_tur_raised (s : State) (n : Nat) (f : Source → Source) : (s.modSrc n f).tur.raised = s.tur.raised := rfl
@[simp] theorem State.modSrc_tur_cfgw (s : State) (n : Nat) (f : Source → Source) : (s.modSrc n f).tur.cfgw = s.tur.cfgw := rfl

theorem State.source_modSrc (s : State) {n : Nat} (f : Source → Source) (h : n < 512) : (s.modSrc n f).source n = f (s.source n) :=
  vget_vmod_self _ h _ _

theorem State.source_modSrc_other (s : State) {i n : Nat} (f : Source → Source) (h : i ≠ n) : (s.modSrc n f).source i = s.source i :=
  vget_vmod_other _ h _ _

/-! ## State.modPort -/

@[simp] theorem State.modPort_pending (s : State) (n : Nat) (f : LinkPort → LinkPort) : (s.modPort n f).pending = s.pending := rfl
@[simp] theorem State.modPort_clk (s : State) (n : Nat) (f : LinkPort → LinkPort) : (s.modPort n f).clk = s.clk := rfl
@[simp] theorem State.modPort_ports (s : State) (n : Nat) (f : LinkPort → LinkPort) : (s.modPort n f).ports = s.ports := rfl
@[simp] theorem State.modPort_out (s : State) (n : Nat) (f : LinkPort → LinkPort) : (s.modPort n f).out = s.out := rfl
@[simp] theorem State.modPort_outcal (s : State) (n : Nat) (f : LinkPort → LinkPort) : (s.modPort n f).outcal = s.outcal := rfl
@[simp] theorem State.modPort_tur (s : State) (n : Nat) (f : LinkPort → LinkPort) : (s.modPort n f).tur = s.tur := rfl
@[simp] theorem State.modPort_gate (s : State) (n : Nat) (f : LinkPort → LinkPort) : (s.modPort n f).gate = s.gate := rfl
@[simp] theorem State.modPort_shut (s : State) (n : Nat) (f : LinkPort → LinkPort) : (s.modPort n f).shut = s.shut := rfl
@[simp] theorem State.modPort_wdog (s : State) (n : Nat) (f : LinkPort → LinkPort) : (s.modPort n f).wdog = s.wdog := rfl
@[simp] theorem State.modPort_fl (s : State) (n : Nat) (f : LinkPort → LinkPort) : (s.modPort n f).fl = s.fl := rfl
@[simp] theorem State.modPort_tmr (s : State) (n : Nat) (f : LinkPort → LinkPort) : (s.modPort n f).tmr = s.tmr := rfl
@[simp] theorem State.modPort_gp (s : State) (n : Nat) (f : LinkPort → LinkPort) : (s.modPort n f).gp = s.gp := rfl
@[simp] theorem State.modPort_rider (s : State) (n : Nat) (f : LinkPort → LinkPort) : (s.modPort n f).rider = s.rider := rfl
@[simp] theorem State.modPort_cul (s : State) (n : Nat) (f : LinkPort → LinkPort) : (s.modPort n f).cul = s.cul := rfl
@[simp] theorem State.modPort_hg (s : State) (n : Nat) (f : LinkPort → LinkPort) : (s.modPort n f).hg = s.hg := rfl
@[simp] theorem State.modPort_seq (s : State) (n : Nat) (f : LinkPort → LinkPort) : (s.modPort n f).seq = s.seq := rfl
@[simp] theorem State.modPort_mem (s : State) (n : Nat) (f : LinkPort → LinkPort) : (s.modPort n f).mem = s.mem := rfl
@[simp] theorem State.modPort_lg (s : State) (n : Nat) (f : LinkPort → LinkPort) : (s.modPort n f).lg = s.lg := rfl
@[simp] theorem State.modPort_nvm (s : State) (n : Nat) (f : LinkPort → LinkPort) : (s.modPort n f).nvm = s.nvm := rfl
@[simp] theorem State.modPort_pwr (s : State) (n : Nat) (f : LinkPort → LinkPort) : (s.modPort n f).pwr = s.pwr := rfl
@[simp] theorem State.modPort_dbg (s : State) (n : Nat) (f : LinkPort → LinkPort) : (s.modPort n f).dbg = s.dbg := rfl
@[simp] theorem State.modPort_bist (s : State) (n : Nat) (f : LinkPort → LinkPort) : (s.modPort n f).bist = s.bist := rfl
@[simp] theorem State.modPort_due (s : State) (n : Nat) (f : LinkPort → LinkPort) : (s.modPort n f).due = s.due := rfl
@[simp] theorem State.modPort_apb (s : State) (n : Nat) (f : LinkPort → LinkPort) : (s.modPort n f).apb = s.apb := rfl
@[simp] theorem State.modPort_free (s : State) (n : Nat) (f : LinkPort → LinkPort) : (s.modPort n f).free = s.free := rfl
@[simp] theorem State.modPort_link_group (s : State) (n : Nat) (f : LinkPort → LinkPort) : (s.modPort n f).link.group = s.link.group := rfl
@[simp] theorem State.modPort_link_laneEn (s : State) (n : Nat) (f : LinkPort → LinkPort) : (s.modPort n f).link.laneEn = s.link.laneEn := rfl
@[simp] theorem State.modPort_link_cfgign (s : State) (n : Nat) (f : LinkPort → LinkPort) : (s.modPort n f).link.cfgign = s.link.cfgign := rfl
@[simp] theorem State.modPort_link_lane (s : State) (n : Nat) (f : LinkPort → LinkPort) : (s.modPort n f).link.lane = s.link.lane := rfl
@[simp] theorem State.modPort_link_role (s : State) (n : Nat) (f : LinkPort → LinkPort) : (s.modPort n f).link.role = s.link.role := rfl
@[simp] theorem State.modPort_link_synt (s : State) (n : Nat) (f : LinkPort → LinkPort) : (s.modPort n f).link.synt = s.link.synt := rfl
@[simp] theorem State.modPort_link_shrelay (s : State) (n : Nat) (f : LinkPort → LinkPort) : (s.modPort n f).link.shrelay = s.link.shrelay := rfl
@[simp] theorem State.modPort_link_vl3max (s : State) (n : Nat) (f : LinkPort → LinkPort) : (s.modPort n f).link.vl3max = s.link.vl3max := rfl
@[simp] theorem State.modPort_link_kps (s : State) (n : Nat) (f : LinkPort → LinkPort) : (s.modPort n f).link.kps = s.link.kps := rfl
@[simp] theorem State.modPort_link_kis (s : State) (n : Nat) (f : LinkPort → LinkPort) : (s.modPort n f).link.kis = s.link.kis := rfl
@[simp] theorem State.modPort_link_cmden (s : State) (n : Nat) (f : LinkPort → LinkPort) : (s.modPort n f).link.cmden = s.link.cmden := rfl
@[simp] theorem State.modPort_link_trapen (s : State) (n : Nat) (f : LinkPort → LinkPort) : (s.modPort n f).link.trapen = s.link.trapen := rfl
@[simp] theorem State.modPort_link_netkey (s : State) (n : Nat) (f : LinkPort → LinkPort) : (s.modPort n f).link.netkey = s.link.netkey := rfl
@[simp] theorem State.modPort_link_node (s : State) (n : Nat) (f : LinkPort → LinkPort) : (s.modPort n f).link.node = s.link.node := rfl
@[simp] theorem State.modPort_link_valid (s : State) (n : Nat) (f : LinkPort → LinkPort) : (s.modPort n f).link.valid = s.link.valid := rfl
@[simp] theorem State.modPort_link_depth (s : State) (n : Nat) (f : LinkPort → LinkPort) : (s.modPort n f).link.depth = s.link.depth := rfl
@[simp] theorem State.modPort_link_subhi (s : State) (n : Nat) (f : LinkPort → LinkPort) : (s.modPort n f).link.subhi = s.link.subhi := rfl
@[simp] theorem State.modPort_link_parent (s : State) (n : Nat) (f : LinkPort → LinkPort) : (s.modPort n f).link.parent = s.link.parent := rfl
@[simp] theorem State.modPort_link_master (s : State) (n : Nat) (f : LinkPort → LinkPort) : (s.modPort n f).link.master = s.link.master := rfl
@[simp] theorem State.modPort_link_disc (s : State) (n : Nat) (f : LinkPort → LinkPort) : (s.modPort n f).link.disc = s.link.disc := rfl
@[simp] theorem State.modPort_link_dupkey (s : State) (n : Nat) (f : LinkPort → LinkPort) : (s.modPort n f).link.dupkey = s.link.dupkey := rfl
@[simp] theorem State.modPort_link_deep (s : State) (n : Nat) (f : LinkPort → LinkPort) : (s.modPort n f).link.deep = s.link.deep := rfl
@[simp] theorem State.modPort_link_rtxfull (s : State) (n : Nat) (f : LinkPort → LinkPort) : (s.modPort n f).link.rtxfull = s.link.rtxfull := rfl
@[simp] theorem State.modPort_link_stepblk (s : State) (n : Nat) (f : LinkPort → LinkPort) : (s.modPort n f).link.stepblk = s.link.stepblk := rfl
@[simp] theorem State.modPort_link_noroute (s : State) (n : Nat) (f : LinkPort → LinkPort) : (s.modPort n f).link.noroute = s.link.noroute := rfl
@[simp] theorem State.modPort_link_failover (s : State) (n : Nat) (f : LinkPort → LinkPort) : (s.modPort n f).link.failover = s.link.failover := rfl
@[simp] theorem State.modPort_link_upport (s : State) (n : Nat) (f : LinkPort → LinkPort) : (s.modPort n f).link.upport = s.link.upport := rfl
@[simp] theorem State.modPort_link_netdrop (s : State) (n : Nat) (f : LinkPort → LinkPort) : (s.modPort n f).link.netdrop = s.link.netdrop := rfl
@[simp] theorem State.modPort_link_toffs (s : State) (n : Nat) (f : LinkPort → LinkPort) : (s.modPort n f).link.toffs = s.link.toffs := rfl
@[simp] theorem State.modPort_link_tdelay (s : State) (n : Nat) (f : LinkPort → LinkPort) : (s.modPort n f).link.tdelay = s.link.tdelay := rfl
@[simp] theorem State.modPort_link_stepthr (s : State) (n : Nat) (f : LinkPort → LinkPort) : (s.modPort n f).link.stepthr = s.link.stepthr := rfl
@[simp] theorem State.modPort_link_lockthr (s : State) (n : Nat) (f : LinkPort → LinkPort) : (s.modPort n f).link.lockthr = s.link.lockthr := rfl
@[simp] theorem State.modPort_link_gidx (s : State) (n : Nat) (f : LinkPort → LinkPort) : (s.modPort n f).link.gidx = s.link.gidx := rfl
@[simp] theorem State.modPort_link_grpen (s : State) (n : Nat) (f : LinkPort → LinkPort) : (s.modPort n f).link.grpen = s.link.grpen := rfl
@[simp] theorem State.modPort_link_aper (s : State) (n : Nat) (f : LinkPort → LinkPort) : (s.modPort n f).link.aper = s.link.aper := rfl
@[simp] theorem State.modPort_link_present (s : State) (n : Nat) (f : LinkPort → LinkPort) : (s.modPort n f).link.present = s.link.present := rfl
@[simp] theorem State.modPort_link_fwderr (s : State) (n : Nat) (f : LinkPort → LinkPort) : (s.modPort n f).link.fwderr = s.link.fwderr := rfl
@[simp] theorem State.modPort_link_nrxBase (s : State) (n : Nat) (f : LinkPort → LinkPort) : (s.modPort n f).link.nrxBase = s.link.nrxBase := rfl
@[simp] theorem State.modPort_link_nrxK (s : State) (n : Nat) (f : LinkPort → LinkPort) : (s.modPort n f).link.nrxK = s.link.nrxK := rfl
@[simp] theorem State.modPort_link_nrxEn (s : State) (n : Nat) (f : LinkPort → LinkPort) : (s.modPort n f).link.nrxEn = s.link.nrxEn := rfl
@[simp] theorem State.modPort_link_nrxHead (s : State) (n : Nat) (f : LinkPort → LinkPort) : (s.modPort n f).link.nrxHead = s.link.nrxHead := rfl
@[simp] theorem State.modPort_link_nrxTail (s : State) (n : Nat) (f : LinkPort → LinkPort) : (s.modPort n f).link.nrxTail = s.link.nrxTail := rfl
@[simp] theorem State.modPort_link_nrxLost (s : State) (n : Nat) (f : LinkPort → LinkPort) : (s.modPort n f).link.nrxLost = s.link.nrxLost := rfl
@[simp] theorem State.modPort_link_exc (s : State) (n : Nat) (f : LinkPort → LinkPort) : (s.modPort n f).link.exc = s.link.exc := rfl
@[simp] theorem State.modPort_link_pub (s : State) (n : Nat) (f : LinkPort → LinkPort) : (s.modPort n f).link.pub = s.link.pub := rfl
@[simp] theorem State.modPort_link_sub (s : State) (n : Nat) (f : LinkPort → LinkPort) : (s.modPort n f).link.sub = s.link.sub := rfl
@[simp] theorem State.modPort_link_bestRole (s : State) (n : Nat) (f : LinkPort → LinkPort) : (s.modPort n f).link.bestRole = s.link.bestRole := rfl
@[simp] theorem State.modPort_link_bestKey (s : State) (n : Nat) (f : LinkPort → LinkPort) : (s.modPort n f).link.bestKey = s.link.bestKey := rfl
@[simp] theorem State.modPort_link_dist (s : State) (n : Nat) (f : LinkPort → LinkPort) : (s.modPort n f).link.dist = s.link.dist := rfl
@[simp] theorem State.modPort_link_changedAt (s : State) (n : Nat) (f : LinkPort → LinkPort) : (s.modPort n f).link.changedAt = s.link.changedAt := rfl
@[simp] theorem State.modPort_link_lostAt (s : State) (n : Nat) (f : LinkPort → LinkPort) : (s.modPort n f).link.lostAt = s.link.lostAt := rfl
@[simp] theorem State.modPort_link_enumRun (s : State) (n : Nat) (f : LinkPort → LinkPort) : (s.modPort n f).link.enumRun = s.link.enumRun := rfl
@[simp] theorem State.modPort_link_sentCount (s : State) (n : Nat) (f : LinkPort → LinkPort) : (s.modPort n f).link.sentCount = s.link.sentCount := rfl
@[simp] theorem State.modPort_link_eRole (s : State) (n : Nat) (f : LinkPort → LinkPort) : (s.modPort n f).link.eRole = s.link.eRole := rfl
@[simp] theorem State.modPort_link_eKey (s : State) (n : Nat) (f : LinkPort → LinkPort) : (s.modPort n f).link.eKey = s.link.eKey := rfl
@[simp] theorem State.modPort_link_enumNodes (s : State) (n : Nat) (f : LinkPort → LinkPort) : (s.modPort n f).link.enumNodes = s.link.enumNodes := rfl
@[simp] theorem State.modPort_link_enumDepth (s : State) (n : Nat) (f : LinkPort → LinkPort) : (s.modPort n f).link.enumDepth = s.link.enumDepth := rfl
@[simp] theorem State.modPort_link_pend (s : State) (n : Nat) (f : LinkPort → LinkPort) : (s.modPort n f).link.pend = s.link.pend := rfl
@[simp] theorem State.modPort_link_freq (s : State) (n : Nat) (f : LinkPort → LinkPort) : (s.modPort n f).link.freq = s.link.freq := rfl
@[simp] theorem State.modPort_link_frac (s : State) (n : Nat) (f : LinkPort → LinkPort) : (s.modPort n f).link.frac = s.link.frac := rfl
@[simp] theorem State.modPort_link_carries (s : State) (n : Nat) (f : LinkPort → LinkPort) : (s.modPort n f).link.carries = s.link.carries := rfl
@[simp] theorem State.modPort_link_lockRun (s : State) (n : Nat) (f : LinkPort → LinkPort) : (s.modPort n f).link.lockRun = s.link.lockRun := rfl
@[simp] theorem State.modPort_link_upDisc (s : State) (n : Nat) (f : LinkPort → LinkPort) : (s.modPort n f).link.upDisc = s.link.upDisc := rfl
@[simp] theorem State.modPort_link_shutSeq (s : State) (n : Nat) (f : LinkPort → LinkPort) : (s.modPort n f).link.shutSeq = s.link.shutSeq := rfl
@[simp] theorem State.modPort_link_recentShut (s : State) (n : Nat) (f : LinkPort → LinkPort) : (s.modPort n f).link.recentShut = s.link.recentShut := rfl
@[simp] theorem State.modPort_link_msgid (s : State) (n : Nat) (f : LinkPort → LinkPort) : (s.modPort n f).link.msgid = s.link.msgid := rfl
@[simp] theorem State.modPort_link_fwd (s : State) (n : Nat) (f : LinkPort → LinkPort) : (s.modPort n f).link.fwd = s.link.fwd := rfl
@[simp] theorem State.modPort_link_wakeRelay (s : State) (n : Nat) (f : LinkPort → LinkPort) : (s.modPort n f).link.wakeRelay = s.link.wakeRelay := rfl

theorem State.port_modPort (s : State) {n : Nat} (f : LinkPort → LinkPort) (h : n < 4) : (s.modPort n f).port n = f (s.port n) :=
  vget_vmod_self _ h _ _

theorem State.port_modPort_other (s : State) {i n : Nat} (f : LinkPort → LinkPort) (h : i ≠ n) : (s.modPort n f).port i = s.port i :=
  vget_vmod_other _ h _ _

/-! ## State.modLane -/

@[simp] theorem State.modLane_pending (s : State) (n : Nat) (f : Lane → Lane) : (s.modLane n f).pending = s.pending := rfl
@[simp] theorem State.modLane_clk (s : State) (n : Nat) (f : Lane → Lane) : (s.modLane n f).clk = s.clk := rfl
@[simp] theorem State.modLane_ports (s : State) (n : Nat) (f : Lane → Lane) : (s.modLane n f).ports = s.ports := rfl
@[simp] theorem State.modLane_out (s : State) (n : Nat) (f : Lane → Lane) : (s.modLane n f).out = s.out := rfl
@[simp] theorem State.modLane_outcal (s : State) (n : Nat) (f : Lane → Lane) : (s.modLane n f).outcal = s.outcal := rfl
@[simp] theorem State.modLane_tur (s : State) (n : Nat) (f : Lane → Lane) : (s.modLane n f).tur = s.tur := rfl
@[simp] theorem State.modLane_gate (s : State) (n : Nat) (f : Lane → Lane) : (s.modLane n f).gate = s.gate := rfl
@[simp] theorem State.modLane_shut (s : State) (n : Nat) (f : Lane → Lane) : (s.modLane n f).shut = s.shut := rfl
@[simp] theorem State.modLane_wdog (s : State) (n : Nat) (f : Lane → Lane) : (s.modLane n f).wdog = s.wdog := rfl
@[simp] theorem State.modLane_fl (s : State) (n : Nat) (f : Lane → Lane) : (s.modLane n f).fl = s.fl := rfl
@[simp] theorem State.modLane_tmr (s : State) (n : Nat) (f : Lane → Lane) : (s.modLane n f).tmr = s.tmr := rfl
@[simp] theorem State.modLane_gp (s : State) (n : Nat) (f : Lane → Lane) : (s.modLane n f).gp = s.gp := rfl
@[simp] theorem State.modLane_rider (s : State) (n : Nat) (f : Lane → Lane) : (s.modLane n f).rider = s.rider := rfl
@[simp] theorem State.modLane_cul (s : State) (n : Nat) (f : Lane → Lane) : (s.modLane n f).cul = s.cul := rfl
@[simp] theorem State.modLane_hg (s : State) (n : Nat) (f : Lane → Lane) : (s.modLane n f).hg = s.hg := rfl
@[simp] theorem State.modLane_seq (s : State) (n : Nat) (f : Lane → Lane) : (s.modLane n f).seq = s.seq := rfl
@[simp] theorem State.modLane_mem (s : State) (n : Nat) (f : Lane → Lane) : (s.modLane n f).mem = s.mem := rfl
@[simp] theorem State.modLane_lg (s : State) (n : Nat) (f : Lane → Lane) : (s.modLane n f).lg = s.lg := rfl
@[simp] theorem State.modLane_nvm (s : State) (n : Nat) (f : Lane → Lane) : (s.modLane n f).nvm = s.nvm := rfl
@[simp] theorem State.modLane_pwr (s : State) (n : Nat) (f : Lane → Lane) : (s.modLane n f).pwr = s.pwr := rfl
@[simp] theorem State.modLane_dbg (s : State) (n : Nat) (f : Lane → Lane) : (s.modLane n f).dbg = s.dbg := rfl
@[simp] theorem State.modLane_bist (s : State) (n : Nat) (f : Lane → Lane) : (s.modLane n f).bist = s.bist := rfl
@[simp] theorem State.modLane_due (s : State) (n : Nat) (f : Lane → Lane) : (s.modLane n f).due = s.due := rfl
@[simp] theorem State.modLane_apb (s : State) (n : Nat) (f : Lane → Lane) : (s.modLane n f).apb = s.apb := rfl
@[simp] theorem State.modLane_free (s : State) (n : Nat) (f : Lane → Lane) : (s.modLane n f).free = s.free := rfl
@[simp] theorem State.modLane_link_group (s : State) (n : Nat) (f : Lane → Lane) : (s.modLane n f).link.group = s.link.group := rfl
@[simp] theorem State.modLane_link_laneEn (s : State) (n : Nat) (f : Lane → Lane) : (s.modLane n f).link.laneEn = s.link.laneEn := rfl
@[simp] theorem State.modLane_link_cfgign (s : State) (n : Nat) (f : Lane → Lane) : (s.modLane n f).link.cfgign = s.link.cfgign := rfl
@[simp] theorem State.modLane_link_port (s : State) (n : Nat) (f : Lane → Lane) : (s.modLane n f).link.port = s.link.port := rfl
@[simp] theorem State.modLane_link_role (s : State) (n : Nat) (f : Lane → Lane) : (s.modLane n f).link.role = s.link.role := rfl
@[simp] theorem State.modLane_link_synt (s : State) (n : Nat) (f : Lane → Lane) : (s.modLane n f).link.synt = s.link.synt := rfl
@[simp] theorem State.modLane_link_shrelay (s : State) (n : Nat) (f : Lane → Lane) : (s.modLane n f).link.shrelay = s.link.shrelay := rfl
@[simp] theorem State.modLane_link_vl3max (s : State) (n : Nat) (f : Lane → Lane) : (s.modLane n f).link.vl3max = s.link.vl3max := rfl
@[simp] theorem State.modLane_link_kps (s : State) (n : Nat) (f : Lane → Lane) : (s.modLane n f).link.kps = s.link.kps := rfl
@[simp] theorem State.modLane_link_kis (s : State) (n : Nat) (f : Lane → Lane) : (s.modLane n f).link.kis = s.link.kis := rfl
@[simp] theorem State.modLane_link_cmden (s : State) (n : Nat) (f : Lane → Lane) : (s.modLane n f).link.cmden = s.link.cmden := rfl
@[simp] theorem State.modLane_link_trapen (s : State) (n : Nat) (f : Lane → Lane) : (s.modLane n f).link.trapen = s.link.trapen := rfl
@[simp] theorem State.modLane_link_netkey (s : State) (n : Nat) (f : Lane → Lane) : (s.modLane n f).link.netkey = s.link.netkey := rfl
@[simp] theorem State.modLane_link_node (s : State) (n : Nat) (f : Lane → Lane) : (s.modLane n f).link.node = s.link.node := rfl
@[simp] theorem State.modLane_link_valid (s : State) (n : Nat) (f : Lane → Lane) : (s.modLane n f).link.valid = s.link.valid := rfl
@[simp] theorem State.modLane_link_depth (s : State) (n : Nat) (f : Lane → Lane) : (s.modLane n f).link.depth = s.link.depth := rfl
@[simp] theorem State.modLane_link_subhi (s : State) (n : Nat) (f : Lane → Lane) : (s.modLane n f).link.subhi = s.link.subhi := rfl
@[simp] theorem State.modLane_link_parent (s : State) (n : Nat) (f : Lane → Lane) : (s.modLane n f).link.parent = s.link.parent := rfl
@[simp] theorem State.modLane_link_master (s : State) (n : Nat) (f : Lane → Lane) : (s.modLane n f).link.master = s.link.master := rfl
@[simp] theorem State.modLane_link_disc (s : State) (n : Nat) (f : Lane → Lane) : (s.modLane n f).link.disc = s.link.disc := rfl
@[simp] theorem State.modLane_link_dupkey (s : State) (n : Nat) (f : Lane → Lane) : (s.modLane n f).link.dupkey = s.link.dupkey := rfl
@[simp] theorem State.modLane_link_deep (s : State) (n : Nat) (f : Lane → Lane) : (s.modLane n f).link.deep = s.link.deep := rfl
@[simp] theorem State.modLane_link_rtxfull (s : State) (n : Nat) (f : Lane → Lane) : (s.modLane n f).link.rtxfull = s.link.rtxfull := rfl
@[simp] theorem State.modLane_link_stepblk (s : State) (n : Nat) (f : Lane → Lane) : (s.modLane n f).link.stepblk = s.link.stepblk := rfl
@[simp] theorem State.modLane_link_noroute (s : State) (n : Nat) (f : Lane → Lane) : (s.modLane n f).link.noroute = s.link.noroute := rfl
@[simp] theorem State.modLane_link_failover (s : State) (n : Nat) (f : Lane → Lane) : (s.modLane n f).link.failover = s.link.failover := rfl
@[simp] theorem State.modLane_link_upport (s : State) (n : Nat) (f : Lane → Lane) : (s.modLane n f).link.upport = s.link.upport := rfl
@[simp] theorem State.modLane_link_netdrop (s : State) (n : Nat) (f : Lane → Lane) : (s.modLane n f).link.netdrop = s.link.netdrop := rfl
@[simp] theorem State.modLane_link_toffs (s : State) (n : Nat) (f : Lane → Lane) : (s.modLane n f).link.toffs = s.link.toffs := rfl
@[simp] theorem State.modLane_link_tdelay (s : State) (n : Nat) (f : Lane → Lane) : (s.modLane n f).link.tdelay = s.link.tdelay := rfl
@[simp] theorem State.modLane_link_stepthr (s : State) (n : Nat) (f : Lane → Lane) : (s.modLane n f).link.stepthr = s.link.stepthr := rfl
@[simp] theorem State.modLane_link_lockthr (s : State) (n : Nat) (f : Lane → Lane) : (s.modLane n f).link.lockthr = s.link.lockthr := rfl
@[simp] theorem State.modLane_link_gidx (s : State) (n : Nat) (f : Lane → Lane) : (s.modLane n f).link.gidx = s.link.gidx := rfl
@[simp] theorem State.modLane_link_grpen (s : State) (n : Nat) (f : Lane → Lane) : (s.modLane n f).link.grpen = s.link.grpen := rfl
@[simp] theorem State.modLane_link_aper (s : State) (n : Nat) (f : Lane → Lane) : (s.modLane n f).link.aper = s.link.aper := rfl
@[simp] theorem State.modLane_link_present (s : State) (n : Nat) (f : Lane → Lane) : (s.modLane n f).link.present = s.link.present := rfl
@[simp] theorem State.modLane_link_fwderr (s : State) (n : Nat) (f : Lane → Lane) : (s.modLane n f).link.fwderr = s.link.fwderr := rfl
@[simp] theorem State.modLane_link_nrxBase (s : State) (n : Nat) (f : Lane → Lane) : (s.modLane n f).link.nrxBase = s.link.nrxBase := rfl
@[simp] theorem State.modLane_link_nrxK (s : State) (n : Nat) (f : Lane → Lane) : (s.modLane n f).link.nrxK = s.link.nrxK := rfl
@[simp] theorem State.modLane_link_nrxEn (s : State) (n : Nat) (f : Lane → Lane) : (s.modLane n f).link.nrxEn = s.link.nrxEn := rfl
@[simp] theorem State.modLane_link_nrxHead (s : State) (n : Nat) (f : Lane → Lane) : (s.modLane n f).link.nrxHead = s.link.nrxHead := rfl
@[simp] theorem State.modLane_link_nrxTail (s : State) (n : Nat) (f : Lane → Lane) : (s.modLane n f).link.nrxTail = s.link.nrxTail := rfl
@[simp] theorem State.modLane_link_nrxLost (s : State) (n : Nat) (f : Lane → Lane) : (s.modLane n f).link.nrxLost = s.link.nrxLost := rfl
@[simp] theorem State.modLane_link_exc (s : State) (n : Nat) (f : Lane → Lane) : (s.modLane n f).link.exc = s.link.exc := rfl
@[simp] theorem State.modLane_link_pub (s : State) (n : Nat) (f : Lane → Lane) : (s.modLane n f).link.pub = s.link.pub := rfl
@[simp] theorem State.modLane_link_sub (s : State) (n : Nat) (f : Lane → Lane) : (s.modLane n f).link.sub = s.link.sub := rfl
@[simp] theorem State.modLane_link_bestRole (s : State) (n : Nat) (f : Lane → Lane) : (s.modLane n f).link.bestRole = s.link.bestRole := rfl
@[simp] theorem State.modLane_link_bestKey (s : State) (n : Nat) (f : Lane → Lane) : (s.modLane n f).link.bestKey = s.link.bestKey := rfl
@[simp] theorem State.modLane_link_dist (s : State) (n : Nat) (f : Lane → Lane) : (s.modLane n f).link.dist = s.link.dist := rfl
@[simp] theorem State.modLane_link_changedAt (s : State) (n : Nat) (f : Lane → Lane) : (s.modLane n f).link.changedAt = s.link.changedAt := rfl
@[simp] theorem State.modLane_link_lostAt (s : State) (n : Nat) (f : Lane → Lane) : (s.modLane n f).link.lostAt = s.link.lostAt := rfl
@[simp] theorem State.modLane_link_enumRun (s : State) (n : Nat) (f : Lane → Lane) : (s.modLane n f).link.enumRun = s.link.enumRun := rfl
@[simp] theorem State.modLane_link_sentCount (s : State) (n : Nat) (f : Lane → Lane) : (s.modLane n f).link.sentCount = s.link.sentCount := rfl
@[simp] theorem State.modLane_link_eRole (s : State) (n : Nat) (f : Lane → Lane) : (s.modLane n f).link.eRole = s.link.eRole := rfl
@[simp] theorem State.modLane_link_eKey (s : State) (n : Nat) (f : Lane → Lane) : (s.modLane n f).link.eKey = s.link.eKey := rfl
@[simp] theorem State.modLane_link_enumNodes (s : State) (n : Nat) (f : Lane → Lane) : (s.modLane n f).link.enumNodes = s.link.enumNodes := rfl
@[simp] theorem State.modLane_link_enumDepth (s : State) (n : Nat) (f : Lane → Lane) : (s.modLane n f).link.enumDepth = s.link.enumDepth := rfl
@[simp] theorem State.modLane_link_pend (s : State) (n : Nat) (f : Lane → Lane) : (s.modLane n f).link.pend = s.link.pend := rfl
@[simp] theorem State.modLane_link_freq (s : State) (n : Nat) (f : Lane → Lane) : (s.modLane n f).link.freq = s.link.freq := rfl
@[simp] theorem State.modLane_link_frac (s : State) (n : Nat) (f : Lane → Lane) : (s.modLane n f).link.frac = s.link.frac := rfl
@[simp] theorem State.modLane_link_carries (s : State) (n : Nat) (f : Lane → Lane) : (s.modLane n f).link.carries = s.link.carries := rfl
@[simp] theorem State.modLane_link_lockRun (s : State) (n : Nat) (f : Lane → Lane) : (s.modLane n f).link.lockRun = s.link.lockRun := rfl
@[simp] theorem State.modLane_link_upDisc (s : State) (n : Nat) (f : Lane → Lane) : (s.modLane n f).link.upDisc = s.link.upDisc := rfl
@[simp] theorem State.modLane_link_shutSeq (s : State) (n : Nat) (f : Lane → Lane) : (s.modLane n f).link.shutSeq = s.link.shutSeq := rfl
@[simp] theorem State.modLane_link_recentShut (s : State) (n : Nat) (f : Lane → Lane) : (s.modLane n f).link.recentShut = s.link.recentShut := rfl
@[simp] theorem State.modLane_link_msgid (s : State) (n : Nat) (f : Lane → Lane) : (s.modLane n f).link.msgid = s.link.msgid := rfl
@[simp] theorem State.modLane_link_fwd (s : State) (n : Nat) (f : Lane → Lane) : (s.modLane n f).link.fwd = s.link.fwd := rfl
@[simp] theorem State.modLane_link_wakeRelay (s : State) (n : Nat) (f : Lane → Lane) : (s.modLane n f).link.wakeRelay = s.link.wakeRelay := rfl

theorem State.lane_modLane (s : State) {n : Nat} (f : Lane → Lane) (h : n < 4) : (s.modLane n f).lane n = f (s.lane n) :=
  vget_vmod_self _ h _ _

theorem State.lane_modLane_other (s : State) {i n : Nat} (f : Lane → Lane) (h : i ≠ n) : (s.modLane n f).lane i = s.lane i :=
  vget_vmod_other _ h _ _

/-! ## State.modLg -/

@[simp] theorem State.modLg_pending (s : State) (n : Nat) (f : LgCh → LgCh) : (s.modLg n f).pending = s.pending := rfl
@[simp] theorem State.modLg_clk (s : State) (n : Nat) (f : LgCh → LgCh) : (s.modLg n f).clk = s.clk := rfl
@[simp] theorem State.modLg_ports (s : State) (n : Nat) (f : LgCh → LgCh) : (s.modLg n f).ports = s.ports := rfl
@[simp] theorem State.modLg_out (s : State) (n : Nat) (f : LgCh → LgCh) : (s.modLg n f).out = s.out := rfl
@[simp] theorem State.modLg_outcal (s : State) (n : Nat) (f : LgCh → LgCh) : (s.modLg n f).outcal = s.outcal := rfl
@[simp] theorem State.modLg_tur (s : State) (n : Nat) (f : LgCh → LgCh) : (s.modLg n f).tur = s.tur := rfl
@[simp] theorem State.modLg_gate (s : State) (n : Nat) (f : LgCh → LgCh) : (s.modLg n f).gate = s.gate := rfl
@[simp] theorem State.modLg_shut (s : State) (n : Nat) (f : LgCh → LgCh) : (s.modLg n f).shut = s.shut := rfl
@[simp] theorem State.modLg_wdog (s : State) (n : Nat) (f : LgCh → LgCh) : (s.modLg n f).wdog = s.wdog := rfl
@[simp] theorem State.modLg_fl (s : State) (n : Nat) (f : LgCh → LgCh) : (s.modLg n f).fl = s.fl := rfl
@[simp] theorem State.modLg_tmr (s : State) (n : Nat) (f : LgCh → LgCh) : (s.modLg n f).tmr = s.tmr := rfl
@[simp] theorem State.modLg_gp (s : State) (n : Nat) (f : LgCh → LgCh) : (s.modLg n f).gp = s.gp := rfl
@[simp] theorem State.modLg_rider (s : State) (n : Nat) (f : LgCh → LgCh) : (s.modLg n f).rider = s.rider := rfl
@[simp] theorem State.modLg_cul (s : State) (n : Nat) (f : LgCh → LgCh) : (s.modLg n f).cul = s.cul := rfl
@[simp] theorem State.modLg_hg (s : State) (n : Nat) (f : LgCh → LgCh) : (s.modLg n f).hg = s.hg := rfl
@[simp] theorem State.modLg_seq (s : State) (n : Nat) (f : LgCh → LgCh) : (s.modLg n f).seq = s.seq := rfl
@[simp] theorem State.modLg_mem (s : State) (n : Nat) (f : LgCh → LgCh) : (s.modLg n f).mem = s.mem := rfl
@[simp] theorem State.modLg_link (s : State) (n : Nat) (f : LgCh → LgCh) : (s.modLg n f).link = s.link := rfl
@[simp] theorem State.modLg_nvm (s : State) (n : Nat) (f : LgCh → LgCh) : (s.modLg n f).nvm = s.nvm := rfl
@[simp] theorem State.modLg_pwr (s : State) (n : Nat) (f : LgCh → LgCh) : (s.modLg n f).pwr = s.pwr := rfl
@[simp] theorem State.modLg_dbg (s : State) (n : Nat) (f : LgCh → LgCh) : (s.modLg n f).dbg = s.dbg := rfl
@[simp] theorem State.modLg_bist (s : State) (n : Nat) (f : LgCh → LgCh) : (s.modLg n f).bist = s.bist := rfl
@[simp] theorem State.modLg_due (s : State) (n : Nat) (f : LgCh → LgCh) : (s.modLg n f).due = s.due := rfl
@[simp] theorem State.modLg_apb (s : State) (n : Nat) (f : LgCh → LgCh) : (s.modLg n f).apb = s.apb := rfl
@[simp] theorem State.modLg_free (s : State) (n : Nat) (f : LgCh → LgCh) : (s.modLg n f).free = s.free := rfl
@[simp] theorem State.modLg_lg_en (s : State) (n : Nat) (f : LgCh → LgCh) : (s.modLg n f).lg.en = s.lg.en := rfl
@[simp] theorem State.modLg_lg_shutp (s : State) (n : Nat) (f : LgCh → LgCh) : (s.modLg n f).lg.shutp = s.lg.shutp := rfl
@[simp] theorem State.modLg_lg_slpp (s : State) (n : Nat) (f : LgCh → LgCh) : (s.modLg n f).lg.slpp = s.lg.slpp := rfl
@[simp] theorem State.modLg_lg_pint (s : State) (n : Nat) (f : LgCh → LgCh) : (s.modLg n f).lg.pint = s.lg.pint := rfl
@[simp] theorem State.modLg_lg_first (s : State) (n : Nat) (f : LgCh → LgCh) : (s.modLg n f).lg.first = s.lg.first := rfl
@[simp] theorem State.modLg_lg_narea (s : State) (n : Nat) (f : LgCh → LgCh) : (s.modLg n f).lg.narea = s.lg.narea := rfl
@[simp] theorem State.modLg_lg_thr (s : State) (n : Nat) (f : LgCh → LgCh) : (s.modLg n f).lg.thr = s.lg.thr := rfl
@[simp] theorem State.modLg_lg_loaded (s : State) (n : Nat) (f : LgCh → LgCh) : (s.modLg n f).lg.loaded = s.lg.loaded := rfl
@[simp] theorem State.modLg_lg_ppend (s : State) (n : Nat) (f : LgCh → LgCh) : (s.modLg n f).lg.ppend = s.lg.ppend := rfl
@[simp] theorem State.modLg_lg_perr (s : State) (n : Nat) (f : LgCh → LgCh) : (s.modLg n f).lg.perr = s.lg.perr := rfl
@[simp] theorem State.modLg_lg_loaderr (s : State) (n : Nat) (f : LgCh → LgCh) : (s.modLg n f).lg.loaderr = s.lg.loaderr := rfl
@[simp] theorem State.modLg_lg_wign (s : State) (n : Nat) (f : LgCh → LgCh) : (s.modLg n f).lg.wign = s.lg.wign := rfl
@[simp] theorem State.modLg_lg_area (s : State) (n : Nat) (f : LgCh → LgCh) : (s.modLg n f).lg.area = s.lg.area := rfl
@[simp] theorem State.modLg_lg_seq (s : State) (n : Nat) (f : LgCh → LgCh) : (s.modLg n f).lg.seq = s.lg.seq := rfl
@[simp] theorem State.modLg_lg_maddr (s : State) (n : Nat) (f : LgCh → LgCh) : (s.modLg n f).lg.maddr = s.lg.maddr := rfl
@[simp] theorem State.modLg_lg_mainc (s : State) (n : Nat) (f : LgCh → LgCh) : (s.modLg n f).lg.mainc = s.lg.mainc := rfl
@[simp] theorem State.modLg_lg_persist (s : State) (n : Nat) (f : LgCh → LgCh) : (s.modLg n f).lg.persist = s.lg.persist := rfl
@[simp] theorem State.modLg_lg_due (s : State) (n : Nat) (f : LgCh → LgCh) : (s.modLg n f).lg.due = s.lg.due := rfl
@[simp] theorem State.modLg_lg_lastAt (s : State) (n : Nat) (f : LgCh → LgCh) : (s.modLg n f).lg.lastAt = s.lg.lastAt := rfl
@[simp] theorem State.modLg_lg_skip (s : State) (n : Nat) (f : LgCh → LgCh) : (s.modLg n f).lg.skip = s.lg.skip := rfl
@[simp] theorem State.modLg_lg_ticks (s : State) (n : Nat) (f : LgCh → LgCh) : (s.modLg n f).lg.ticks = s.lg.ticks := rfl

theorem State.lgch_modLg (s : State) {n : Nat} (f : LgCh → LgCh) (h : n < 16) : (s.modLg n f).lgch n = f (s.lgch n) :=
  vget_vmod_self _ h _ _

theorem State.lgch_modLg_other (s : State) {i n : Nat} (f : LgCh → LgCh) (h : i ≠ n) : (s.modLg n f).lgch i = s.lgch i :=
  vget_vmod_other _ h _ _


end Sys2Proof.Machine
end

