-- ==== Sys2Proof/Laws/Entries.lean ====
section
/-! SUPPORT. An entry of a table is the same where the table is; what setting a status bit of a unit leaves. -/

namespace Sys2Proof.Machine

theorem ite_both {α : Type} (c : Prop) [Decidable c] {P : α → Prop} {a b : α} (ha : P a) (hb : P b) : P (if c then a else b) := by
  split <;> assumption

theorem foldl_stays {α β : Type} (P : β → Prop) {f : β → α → β} (h : ∀ s x, P s → P (f s x)) :
    ∀ (l : List α) (s : β), P s → P (l.foldl f s)
  | [], _, hs => hs
  | x :: l, s, hs => foldl_stays P h l (f s x) (h s x hs)

theorem outlet_eq {s t : State} (n : Nat) (h : t.out = s.out) : t.outlet n = s.outlet n := by unfold State.outlet; rw [h]
theorem flume_eq {s t : State} (n : Nat) (h : t.fl = s.fl) : t.flume n = s.flume n := by unfold State.flume; rw [h]
theorem timer_eq {s t : State} (n : Nat) (h : t.tmr = s.tmr) : t.timer n = s.timer n := by unfold State.timer; rw [h]
theorem rch_eq {s t : State} (n : Nat) (h : t.rider = s.rider) : t.rch n = s.rch n := by unfold State.rch; rw [h]
theorem culCh_eq {s t : State} (n : Nat) (h : t.cul = s.cul) : t.culCh n = s.culCh n := by unfold State.culCh; rw [h]
theorem getGate_eq {s t : State} (n : Nat) (h : t.gate = s.gate) : t.getGate n = s.getGate n := by unfold State.getGate; rw [h]
theorem thr_eq {s t : State} (n : Nat) (h : t.seq = s.seq) : t.thr n = s.thr n := by unfold State.thr; rw [h]
theorem source_eq {s t : State} (n : Nat) (h : t.tur = s.tur) : t.source n = s.source n := by unfold State.source; rw [h]
theorem port_eq {s t : State} (n : Nat) (h : t.link = s.link) : t.port n = s.port n := by unfold State.port; rw [h]
theorem lane_eq {s t : State} (n : Nat) (h : t.link = s.link) : t.lane n = s.lane n := by unfold State.lane; rw [h]
theorem lgch_eq {s t : State} (n : Nat) (h : t.lg = s.lg) : t.lgch n = s.lgch n := by unfold State.lgch; rw [h]

theorem culCh_modCul (s : State) {n : Nat} (f : CulCh → CulCh) (h : n < 16) : (s.modCul n f).culCh n = f (s.culCh n) := by
  unfold State.culCh State.modCul
  exact vget_vmod_self _ h _ _

theorem getGate_modGate (s : State) {n : Nat} (f : Gate → Gate) (h : n < 8) : (s.modGate n f).getGate n = f (s.getGate n) := by
  unfold State.getGate State.modGate
  exact vget_vmod_self _ h _ _

theorem raiseIf_raised {b : Bool} (h : b = true) (src : Nat) (s : State) : SrcRaised src (raiseIf b src s) := by
  unfold raiseIf
  rw [if_pos h]
  exact raise_raised src s

/-- An action that comes about later waits until then. -/
theorem mem_schedule (s : State) (fc rank : Nat) (act : Act) :
    { at_ := fc, rank := rank, act := act } ∈ (schedule s fc rank act).due := by
  unfold schedule
  exact List.mem_append_right _ (List.mem_singleton.mpr rfl)

/-- A status bit of an outlet is set and its first setting is an event (R129). -/
theorem outFlag_outlet {n : Nat} (hn : n < 96) (b : Nat) (s : State) :
    (outFlag n b s).outlet n = { s.outlet n with stat := setBit (s.outlet n).stat b true } := by
  unfold outFlag
  dsimp only
  rw [outlet_eq n (raiseIf_out ..), hwSet_outlet, State.outlet_modOut _ _ hn]

theorem outFlag_other {m n : Nat} (h : m ≠ n) (b : Nat) (s : State) : (outFlag n b s).outlet m = s.outlet m := by
  unfold outFlag
  dsimp only
  rw [outlet_eq m (raiseIf_out ..), hwSet_outlet, State.outlet_modOut_other _ _ h]

theorem outFlag_raised {n b : Nat} {s : State} (h : bit (s.outlet n).stat b = false) : SrcRaised (160 + n / 2) (outFlag n b s) := by
  unfold outFlag
  exact raiseIf_raised (by simp [h]) _ _

/-- A status bit of a flume is set, with its event where enabled (R203). -/
theorem flFlag_flume {n : Nat} (hn : n < 32) (b : Nat) (s : State) :
    (flFlag n b s).flume n = { s.flume n with stat := setBit (s.flume n).stat b true } := by
  unfold flFlag
  dsimp only
  rw [flume_eq n (raiseIf_fl ..), hwSet_flume, State.flume_modFl _ _ hn]

theorem flFlag_other {m n : Nat} (h : m ≠ n) (b : Nat) (s : State) : (flFlag n b s).flume m = s.flume m := by
  unfold flFlag
  dsimp only
  rw [flume_eq m (raiseIf_fl ..), hwSet_flume, State.flume_modFl_other _ _ h]

theorem gateFlag_flume {n : Nat} (hn : n < 32) (k : Nat) (s : State) :
    (gateFlag n k s).flume n = { s.flume n with
      gclamp := (s.flume n).gclamp || k = 0, gmiss := (s.flume n).gmiss || k = 1, glate := (s.flume n).glate || k = 2
      gxfall := (s.flume n).gxfall || k = 3 } := by
  unfold gateFlag
  rw [State.flume_modFl _ _ hn]

/-- A status bit of a Rider channel is set, with its event where enabled (R529). -/
theorem rchFlag_rch {n : Nat} (hn : n < 32) (b : Nat) (s : State) :
    (rchFlag n b s).rch n = { s.rch n with stat := setBit (s.rch n).stat b true } := by
  unfold rchFlag
  dsimp only
  rw [rch_eq n (raiseIf_rider ..), hwSet_rch, State.rch_modRch _ _ hn]

/-! ## Fields of a written word whose own bit is set or cleared -/

theorem bit_or (v m : U32) (k : Nat) : bit (v ||| m) k = (bit v k || bit m k) := by simp [bit]

theorem bit_andNot (v m : U32) {k : Nat} (h : k < 32) : bit (v &&& ~~~m) k = (bit v k && !bit m k) := by simp [bit, h]

theorem fd_or {v m : U32} {lo w : Nat} (h : ∀ i, i < w → m.getLsbD (lo + i) = false) : (fd (v ||| m) lo w : BitVec w) = fd v lo w := by
  simp only [fd]
  apply BitVec.eq_of_getLsbD_eq
  intro i hi
  simp [hi, h i hi]

theorem fd_andNot {v m : U32} {lo w : Nat} (h : ∀ i, i < w → m.getLsbD (lo + i) = false) (hw : lo + w ≤ 32) :
    (fd (v &&& ~~~m) lo w : BitVec w) = fd v lo w := by
  simp only [fd]
  apply BitVec.eq_of_getLsbD_eq
  intro i hi
  have : lo + i < 32 := by omega
  simp only [BitVec.getLsbD_extractLsb', hi, decide_true, Bool.true_and, BitVec.getLsbD_and, BitVec.getLsbD_not, this, h i hi,
    Bool.not_false, Bool.and_true]

/-! ## Timers -/

theorem State.timer_modTmr_out (s : State) {n : Nat} (f : Timer → Timer) (h : ¬n < 32) : (s.modTmr n f).timer n = s.timer n := by
  unfold State.timer State.modTmr vmod
  dsimp only
  rw [dif_neg h]

/-- A timer's Culvert request leaves a mark of its fc and nothing else on a timer (R462, R463). -/
theorem timerPulse_timer (n : Nat) (s : State) (k : Nat) :
    (timerPulse n s).timer k = { s.timer k with culAt := ((timerPulse n s).timer k).culAt } := by
  unfold timerPulse
  split
  · rfl
  · rw [timer_eq k (culPulse_only ..).tmr]
    by_cases hk : k = n
    · subst hk
      by_cases h : k < 32
      · rw [State.timer_modTmr _ _ h]
      · rw [State.timer_modTmr_out _ _ h]
    · rw [State.timer_modTmr_other _ _ hk]

/-- A trigger that is sent waits at its timer for the fc edge (R463). -/
theorem sendTrigger_timer (n : Nat) (s : State) (k : Nat) :
    (sendTrigger n s).timer k = { s.timer k with trigAt := ((sendTrigger n s).timer k).trigAt } := by
  unfold sendTrigger
  by_cases hk : k = n
  · subst hk
    by_cases h : k < 32
    · rw [State.timer_modTmr _ _ h]
      split <;> rfl
    · rw [State.timer_modTmr_out _ _ h]
  · rw [State.timer_modTmr_other _ _ hk]

/-- The actions of a timer change no timer but for the trigger that the linked one receives and the fc of its Culvert
request (R462, R463). -/
theorem timerActs_timer (n : Nat) (a : BitVec 11) (s : State) (k : Nat) :
    (timerActs n a s).timer k = { s.timer k with
      trigAt := ((timerActs n a s).timer k).trigAt, culAt := ((timerActs n a s).timer k).culAt } := by
  unfold timerActs
  extract_lets s1 s2 s3 s4 s5
  have e1 : s1.timer k = s.timer k := by
    refine timer_eq k ?_
    show (if bit a 0 = true then sampleRequest (fd a 1 5 : BitVec 5).toNat s else s : State).tmr = _
    split
    · exact (sampleRequest_only ..).tmr
    · rfl
  have e2 : s2.timer k = { s1.timer k with culAt := (s2.timer k).culAt } := by
    by_cases h : bit a 6 = true
    · have : s2 = timerPulse n s1 := if_pos h
      rw [this]
      exact timerPulse_timer n s1 k
    · have : s2 = s1 := if_neg h
      rw [this]
  have e3 : s3.timer k = { s2.timer k with trigAt := (s3.timer k).trigAt } := by
    by_cases h : bit a 7 = true
    · have : s3 = sendTrigger (s2.timer n).lnk.toNat s2 := if_pos h
      rw [this]
      exact sendTrigger_timer _ s2 k
    · have : s3 = s2 := if_neg h
      rw [this]
  have e4 : s4.timer k = s3.timer k := by
    refine timer_eq k ?_
    show (if bit a 8 = true then schedule s3 _ _ _ else s3 : State).tmr = _
    split
    · exact (schedule_only ..).tmr
    · rfl
  have e5 : s5.timer k = s4.timer k := by
    refine timer_eq k ?_
    show (if bit a 9 = true then schedule s4 _ _ _ else s4 : State).tmr = _
    split
    · exact (schedule_only ..).tmr
    · rfl
  rw [timer_eq k (raiseIf_tmr ..), e5, e4]
  have c3 : (s3.timer k).culAt = (s2.timer k).culAt := by rw [e3]
  rw [c3]
  refine e3.trans ?_
  generalize (s3.timer k).trigAt = x
  rw [e1] at e2
  exact congrArg (fun t : Timer => { t with trigAt := x }) e2

/-- ACTX bit 10 is an event of the timer (R462). -/
theorem timerActs_raised {n : Nat} {a : BitVec 11} (h : bit a 10 = true) (s : State) :
    SrcRaised (96 + 2 * n) (timerActs n a s) := by
  unfold timerActs
  exact raiseIf_raised h _ _

end Sys2Proof.Machine
end

