-- ==== Sys2Proof/Laws/Clock.lean ====
section
/-! SUPPORT. What an fc edge does to the Gauge and, with nothing due, to what hangs on it. -/

namespace Sys2Proof.Machine

theorem State.each_id {f : State → Nat → State} {s : State} {n : Nat} (h : ∀ k, k < n → f s k = s) : s.each n f = s := by
  unfold State.each
  have : ∀ l : List Nat, (∀ k ∈ l, k < n) → l.foldl f s = s := by
    intro l
    induction l with
    | nil => exact fun _ => rfl
    | cons k l ih =>
      intro hl
      rw [List.foldl_cons, h k (hl k (.head _))]
      exact ih fun m hm => hl m (.tail _ hm)
  exact this _ fun k hk => List.mem_range.mp hk

theorem memberEvent_alone (src : BitVec 9) (data : U32) {s : State} (h : s.link.grpen = false) : memberEvent src data s = s := by
  unfold memberEvent
  dsimp only
  rw [h]
  rfl

theorem fcEvents_link {x : State} (hx : x.link.trapen = false) (hg : x.link.grpen = false) : (fcEvents x).link = x.link := by
  unfold fcEvents
  dsimp only
  refine foldl_stays (fun y : State => y.link = x.link) (fun y p hy => ?_) _ _ rfl
  have st : (if trapSource p.1.src.toNat then sendTrap p.1.src p.2 y else y) = y := by
    refine ite_both _ (P := fun z => z = y) ?_ rfl
    unfold sendTrap
    rw [hy, hx, if_neg (by decide)]
  rw [st]
  refine ite_both _ (P := fun z : State => z.link = x.link) ?_ hy
  have ev : (if evEnabled y p.1.src.toNat then appendEvent p.1.src 0 y.clk.gauge p.2 y else y).link = x.link := by
    refine ite_both _ (P := fun z : State => z.link = x.link) ?_ hy
    rw [(appendEvent_only ..).link, hy]
  rw [memberEvent_alone _ _ (by rw [ev]; exact hg), ev]

theorem applyConfigs_rdrI (x : State) (v : Ports) : (applyConfigs { x with ports := v }).ports.rdrI = v.rdrI :=
  congrArg (fun p : Ports => p.rdrI) (applyConfigs_only { x with ports := v }).ports

theorem irqO_rdrI (p : Ports) (v : Byte) : ({ p with irqO := v } : Ports).rdrI = p.rdrI := rfl

theorem fcRoutes_any {P : State → Prop} (x : State)
    (hb : ∀ v : Byte, P (applyConfigs { routeAll x with ports := { (routeAll x).ports with irqO := v } }))
    (hw : ∀ b w, P w → P (wakeRequest b w)) : P (fcRoutes x) := by
  unfold fcRoutes
  dsimp only
  exact ite_both _ (P := P) (hw _ _ (ite_both _ (P := P) (hw _ _ (hb _)) (hb _))) (ite_both _ (P := P) (hw _ _ (hb _)) (hb _))

theorem fcRoutes_rdrI (x : State) : (fcRoutes x).ports.rdrI = x.ports.rdrI := by
  obtain ⟨P, hP⟩ : ∃ P : State → Prop, ∀ z, P z ↔ z.ports.rdrI = x.ports.rdrI := ⟨_, fun _ => Iff.rfl⟩
  refine (hP _).mp (fcRoutes_any x (fun v => (hP _).mpr ?_) (fun b w h => (hP _).mpr ?_))
  · rw [applyConfigs_rdrI, irqO_rdrI, (routeAll_only x).ports]
  · rw [(wakeRequest_only b w).ports, (hP _).mp h]

theorem landEnd_thr (fc n : Nat) (s : State) : ((landEnd fc s).thr n).run = (s.thr n).run ∧
    ((landEnd fc s).thr n).blocked = (s.thr n).blocked := by
  unfold landEnd State.thr
  dsimp only
  by_cases hn : n < 16
  · rw [vget_vmap _ hn]
    exact ⟨rfl, rfl⟩
  · unfold vget
    rw [dif_neg hn, dif_neg hn]
    exact ⟨rfl, rfl⟩

theorem gateLook_en (s : State) (k : Nat) (g : Gate) : (gateLook s k g).en = g.en := by
  unfold gateLook
  split <;> rfl

/-- The state at the end of an fc, before the Gauge moves. -/
def edgeEnd (s : State) : State :=
  gateEvaluate (ownersStep (landEnd s.clk.fc (fcRoutes (fcEvents (hgUpdate (s.each 32 landFifos))))))

/-- What the end of an fc leaves as it is. -/
theorem edgeEnd_keeps (s : State) : Only [.ports, .out, .tur, .gate, .rider, .hg, .seq, .mem, .link, .pwr] s (edgeEnd s) ∧
    (s.link.trapen = false → s.link.grpen = false → (edgeEnd s).link = s.link) ∧
    (edgeEnd s).ports.rdrI = s.ports.rdrI ∧
    (∀ n, ((edgeEnd s).thr n).run = (s.thr n).run ∧ ((edgeEnd s).thr n).blocked = (s.thr n).blocked) ∧
    (∀ k : Fin 8, ((edgeEnd s).getGate k.val).en = (s.getGate k.val).en) := by
  unfold edgeEnd
  generalize hl : s.each 32 landFifos = l
  have lo : Only [.tur, .rider] s l := by rw [← hl]; exact .each landFifos_only ..
  generalize hu : hgUpdate l = u
  have uo : Only [.tur, .hg] l u := by rw [← hu]; exact hgUpdate_only ..
  generalize he : fcEvents u = e
  have eo : Only [.tur, .hg, .mem, .link] u e := by rw [← he]; exact fcEvents_only ..
  generalize hr : fcRoutes e = r
  have ro := fcRoutes_only e
  rw [hr] at ro
  have rr : r.ports.rdrI = e.ports.rdrI := by rw [← hr]; exact fcRoutes_rdrI e
  have eg : (ownersStep (landEnd s.clk.fc r)).gate = s.gate := by
    rw [(ownersStep_only ..).gate, (landEnd_only ..).gate, ro.gate, eo.gate, uo.gate, lo.gate]
  refine ⟨?_, fun h1 h2 => ?_, ?_, fun n => ?_, fun k => ?_⟩
  · exact .of' (.mono lo) (.of' (.mono uo) (.of' (.mono eo) (.of' (.mono ro) (.of' (.mono (landEnd_only ..))
      (.of' (.mono (ownersStep_only ..)) (.mono (gateEvaluate_only ..)))))))
  · have ul : u.link = s.link := uo.link.trans lo.link
    rw [(gateEvaluate_only ..).link, (ownersStep_only ..).link, (landEnd_only ..).link, ro.link, ← he,
      fcEvents_link (by rw [ul]; exact h1) (by rw [ul]; exact h2), ul]
  · rw [(gateEvaluate_only ..).ports, (ownersStep_only ..).ports, (landEnd_only ..).ports, rr, eo.ports, uo.ports, lo.ports]
  · have hs : (gateEvaluate (ownersStep (landEnd s.clk.fc r))).thr n = (landEnd s.clk.fc r).thr n := by
      unfold State.thr
      rw [(gateEvaluate_only ..).seq, (ownersStep_only ..).seq]
    have hq : r.thr n = s.thr n := by
      unfold State.thr
      rw [ro.seq, eo.seq, uo.seq, lo.seq]
    rw [hs, (landEnd_thr ..).1, (landEnd_thr ..).2, hq]
    exact ⟨rfl, rfl⟩
  · unfold gateEvaluate State.getGate
    dsimp only
    rw [eg, vget_vmap s.gate k.isLt (fun k g => gateLook (ownersStep (landEnd s.clk.fc r)) k g) {} {}, gateLook_en]

/-- An fc edge: the end of the fc, then the Gauge, then what hangs on it. -/
theorem gaugeAdvance_eq (rdrI : U64) (s : State) :
    gaugeAdvance rdrI s = bistReply (bistOnward (runDue (threadsStep (shutStep (riderEdge (slotNow s)
      (pinsAndTimers rdrI (applyTaps (gatesEdge (disciplineFc (gaugeStep (edgeEnd s)))))))))))  := rfl

/-- With every gate off an fc edge brings nothing from a gate (R400). -/
theorem gatesEdge_off {s : State} (h : ∀ k : Fin 8, (s.getGate k.val).en = false) : Only [.gate] s (gatesEdge s) := by
  have ap : ∀ k : Fin 8, (gateApply (s.getGate k.val)) = ({ s.getGate k.val with entry := none }, false) := by
    intro k
    unfold gateApply
    exact if_pos (by rw [h k]; rfl)
  unfold gatesEdge
  dsimp only
  generalize ht : ({ s with gate := vmap s.gate (fun _ g => (gateApply g).1) } : State) = t
  have tg : ∀ k : Fin 8, (t.getGate k.val).en = false := by
    intro k
    have : t.getGate k.val = (gateApply (s.getGate k.val)).1 := by
      rw [← ht]
      unfold State.getGate
      exact vget_vmap _ k.isLt _ _ _
    rw [this, ap k]
    exact h k
  have e1 : (t.each 8 fun t k =>
      if (gateApply (s.getGate k)).2 then raise (272 + k) (hwSet (0xE014 + 0x40 * k) 0x10000 t) else t) = t :=
    State.each_id fun k hk => by rw [ap ⟨k, hk⟩]; rfl
  have e2 : (t.each 8 fun t k => shutAssertIf (gateSource (t.getGate k)) (4 + k) true t) = t :=
    State.each_id fun k hk => by
      have : gateSource (t.getGate k) = false := by
        unfold gateSource
        rw [tg ⟨k, hk⟩]
        rfl
      rw [this]
      rfl
  rw [e1, e2, ← ht]
  refine .upd (.refl _ _) ?_ ?_ ?_ ?_ ?_ ?_ ?_ ?_ ?_ ?_ ?_ ?_ ?_ ?_ ?_ ?_ ?_ ?_ ?_ ?_ ?_ ?_ ?_ ?_ ?_ ?_
  all_goals first | exact .inr rfl | exact .inl rfl

theorem disciplineFc_clk (s : State) : (disciplineFc s).clk = { s.clk with adv := BitVec.ofInt 8 (64 +
    (if s.link.pend != 0 then signOf s.link.pend.toInt
     else signOf (s.link.carries + BitVec.ofInt 64 (shrI (s.link.frac.toNat + s.link.freq.toInt) 32)).toInt)) } := rfl

theorem gaugeStep_lg {x : State} (q : lgFrozen x = false) : (gaugeStep x).lg = { x.lg with ticks := x.lg.ticks +
    ((x.clk.gauge + x.clk.adv.zeroExtend 64).toNat / 2 ^ 27 + 2 ^ 37 - x.clk.gauge.toNat / 2 ^ 27) % 2 ^ 37 } := by
  unfold gaugeStep
  dsimp only
  rw [if_neg (by rw [q]; decide)]

theorem disciplineFc_link (s : State) :
    (disciplineFc s).link.frac = BitVec.ofInt 32 (s.link.frac.toNat + s.link.freq.toInt) ∧
    (disciplineFc s).link.freq = s.link.freq ∧
    (s.link.pend ≠ 0 → (disciplineFc s).link.pend = s.link.pend - BitVec.ofInt 64 (signOf s.link.pend.toInt)) := by
  unfold disciplineFc
  dsimp only
  refine ⟨rfl, rfl, fun h => ?_⟩
  have : (s.link.pend != 0) = true := by simpa using h
  rw [if_pos this, if_pos this]

theorem lateCapture_ports (s : State) (n : Nat) : (lateCapture s n).ports = s.ports := (lateCapture_only ..).ports

theorem pinsAndTimers_ports (r : U64) (s : State) :
    (pinsAndTimers r s).ports.rdrI = r ∧ (pinsAndTimers r s).ports.rdrIPrev = s.ports.rdrI := by
  unfold pinsAndTimers
  dsimp only
  generalize hx : State.each _ 32 lateCapture = x
  have xp : x.ports = { s.ports with rdrIPrev := s.ports.rdrI, rdrI := r } := by
    rw [← hx]
    exact (Only.each lateCapture_only _ _).ports
  generalize tmrFrozen x = b
  have k : ∀ y : State, y.ports = x.ports → y.ports.rdrI = r ∧ y.ports.rdrIPrev = s.ports.rdrI :=
    fun y hy => by rw [hy, xp]; exact ⟨rfl, rfl⟩
  cases b <;> exact k _ rfl

/-- A capture that lands late changes its own timer alone (R471). -/
theorem lateCapture_other {k n : Nat} (h : k ≠ n) (s : State) : (lateCapture s n).timer k = s.timer k := by
  unfold lateCapture
  split
  · rfl
  · rename_i v irq _
    dsimp only
    have e1 : (if (s.timer n).capf then tmrSet n 0x20 s else s).timer k = s.timer k := by
      refine ite_both _ (P := fun z : State => z.timer k = s.timer k) ?_ rfl
      exact timer_eq k (tmrSet_only ..).tmr
    have e2 : ∀ z : State, (z.modTmr n (fun t => { putCapture v t with capLate := none })).timer k = z.timer k :=
      fun z => State.timer_modTmr_other _ _ h
    refine ite_both _ (P := fun z : State => z.timer k = s.timer k) ?_ ?_
    · exact (timer_eq k (raiseData_tmr ..)).trans ((e2 _).trans e1)
    · exact (e2 _).trans e1

theorem lateCapture_none {n : Nat} {s : State} (h : (s.timer n).capLate = none) : lateCapture s n = s := by
  unfold lateCapture
  rw [h]

theorem lateCaptures_timer (n : Nat) {s : State} (h : (s.timer n).capLate = none) :
    (s.each 32 lateCapture).timer n = s.timer n := by
  unfold State.each
  refine foldl_stays (fun y : State => y.timer n = s.timer n) (fun y k hy => ?_) _ _ rfl
  by_cases hk : n = k
  · subst hk
    rw [lateCapture_none (by rw [hy]; exact h), hy]
  · rw [lateCapture_other hk, hy]

theorem pinsAndTimers_timer (r : U64) (s : State) (n : Fin 32) (h : tmrFrozen s = false) (hc : (s.timer n.val).capLate = none) :
    (pinsAndTimers r s).timer n = timerEdge s.ports.rdrI r (s.timer n) := by
  unfold pinsAndTimers
  dsimp only
  generalize hx : State.each _ 32 lateCapture = x
  have xt : x.timer n.val = s.timer n.val := by rw [← hx]; exact lateCaptures_timer _ hc
  have xd : x.dbg = s.dbg := by rw [← hx]; exact (Only.each lateCapture_only _ _).dbg
  have xf : tmrFrozen x = false := by
    unfold tmrFrozen at h ⊢
    rw [xd]
    exact h
  rw [if_neg (by rw [xf]; decide), ← xt]
  exact vget_vmap x.tmr n.isLt (fun _ t => timerEdge s.ports.rdrI r t) {} {}

theorem timerEdge_plain {was now : U64} {t : Timer} (h1 : t.run = true) (h2 : t.src = 0) (h3 : t.csrc ≠ 1) :
    timerEdge was now t = if t.psc ≤ t.pre then { t with cntPrev := t.cnt, pre := 0, tick := true }
      else { t with cntPrev := t.cnt, pre := t.pre + 1 } := by
  have e : prescale { t with cntPrev := t.cnt } = if t.psc ≤ t.pre then { t with cntPrev := t.cnt, pre := 0, tick := true }
      else { t with cntPrev := t.cnt, pre := t.pre + 1 } := by
    unfold prescale
    dsimp only
    rw [h1, h2, if_pos (by decide)]
  unfold timerEdge
  dsimp only
  rw [e]
  have k : ∀ (P : Bool) (x : Timer), x.src = 0 → (if x.run && x.src = 2 && P then { x with tick := true } else x) = x := by
    intro P x hx
    rw [hx, if_neg (by simp)]
  have k2 : ∀ (P : Bool) (x : Timer), x.csrc ≠ 1 → (if x.csrc = 1 && P then { x with capEv := true } else x) = x := by
    intro P x hx
    rw [if_neg]
    intro q
    simp only [Bool.and_eq_true, decide_eq_true_eq] at q
    exact hx q.1
  have k3 : ∀ (P : Bool) (Q : Timer → Bool) (x : Timer), x.src = 0 → x.csrc ≠ 1 →
      (if (if x.run && x.src = 2 && P then { x with tick := true } else x).csrc = 1 &&
          Q (if x.run && x.src = 2 && P then { x with tick := true } else x) then
        { (if x.run && x.src = 2 && P then { x with tick := true } else x) with capEv := true }
      else (if x.run && x.src = 2 && P then { x with tick := true } else x)) = x := by
    intro P Q x hs hc
    rw [k P x hs]
    exact k2 _ x hc
  split
  · exact k3 _ (fun x => edgeSel x.cedge (bit was x.csel.toNat) (bit now x.csel.toNat)) _ h2 h3
  · exact k3 _ (fun x => edgeSel x.cedge (bit was x.csel.toNat) (bit now x.csel.toNat)) _ h2 h3

theorem threadsStep_until {n f : Nat} {s : State} (hn : n < 16) (h : (s.thr n).run = .parked (.until f)) :
    ((threadsStep s).thr n).run = (if f ≤ s.clk.fc then .ready else .parked (.until f)) := by
  unfold threadsStep State.thr at *
  dsimp only
  rw [vget_vmap _ hn]
  rw [h]
  dsimp only
  split
  · rfl
  · rfl

theorem threadsStep_blocked {n : Nat} (s : State) (hn : n < 16) : ((threadsStep s).thr n).blocked = (s.thr n).blocked := by
  unfold threadsStep State.thr
  dsimp only
  rw [vget_vmap _ hn]
  generalize vget s.seq.thr n {} = t
  split
  · split <;> rfl
  · rfl

theorem bistOnward_clk (s : State) : ∃ b, (bistOnward s).clk = { s.clk with running := b } := by
  unfold bistOnward
  split
  · unfold bistEnter
    dsimp only
    rw [(idleLanes_only ..).clk, (holdPads_only ..).clk]
    exact ⟨_, rfl⟩
  · exact ⟨_, rfl⟩

/-- The Gauge and the count of fc edges move on at every fc edge, and the next correction is taken (R705). -/
theorem gaugeAdvance_clk (rdrI : U64) (s : State) :
    (gaugeAdvance rdrI s).clk.gauge = s.clk.gauge + s.clk.adv.zeroExtend 64 ∧ (gaugeAdvance rdrI s).clk.fc = s.clk.fc + 1 ∧
    (s.link.trapen = false → s.link.grpen = false → (gaugeAdvance rdrI s).clk.adv = BitVec.ofInt 8 (64 +
      (if s.link.pend != 0 then signOf s.link.pend.toInt
       else signOf (s.link.carries + BitVec.ofInt 64 (shrI (s.link.frac.toNat + s.link.freq.toInt) 32)).toInt))) := by
  obtain ⟨xo, xl, -⟩ := edgeEnd_keeps s
  rw [gaugeAdvance_eq]
  generalize edgeEnd s = x at xo xl ⊢
  generalize hy : disciplineFc (gaugeStep x) = y
  have yc := disciplineFc_clk (gaugeStep x)
  rw [hy] at yc
  generalize hz : runDue (threadsStep (shutStep (riderEdge (slotNow s) (pinsAndTimers rdrI (applyTaps (gatesEdge y)))))) = z
  have zc : z.clk = y.clk := by
    rw [← hz, (runDue_only ..).clk, (threadsStep_only ..).clk, (shutStep_only ..).clk,
      (riderEdge_only ..).clk, (pinsAndTimers_only ..).clk, (applyTaps_only ..).clk, (gatesEdge_only ..).clk]
  obtain ⟨b, bc⟩ := bistOnward_clk z
  have gl : (gaugeStep x).link = x.link := (gaugeStep_only x).link
  have gc : (gaugeStep x).clk = { x.clk with gauge := x.clk.gauge + x.clk.adv.zeroExtend 64, fc := x.clk.fc + 1 } := rfl
  rw [(bistReply_only ..).clk, bc, zc, yc, gl, gc, xo.clk]
  exact ⟨rfl, rfl, fun h1 h2 => by rw [xl h1 h2]⟩

theorem vmod_same {α : Type} {n i : Nat} (v : Vector α n) {f : α → α} (h : ∀ h : i < n, f v[i] = v[i]) : vmod v i f = v := by
  unfold vmod
  split
  · rename_i hi
    rw [h hi]
    exact Vector.set_getElem_self hi
  · rfl

theorem shutStep_idle {y : State} (h2 : y.shut.active = false) (h3 : y.shut.releaseAt = none) : shutStep y = y := by
  unfold shutStep shutRelease
  rw [h2]
  show (match y.shut.releaseAt with | none => y | some f => _) = y
  rw [h3]

theorem bistOnward_idle {z : State} (h : z.bist.starting = false) : bistOnward z = z := by
  unfold bistOnward
  exact if_neg (by rw [h]; exact Bool.false_ne_true)

theorem bistReply_idle {z : State} (h : z.bist.origin = none) : bistReply z = z := by
  unfold bistReply
  dsimp only
  rw [h]

/-- Nothing that was put off comes about in an fc without one. -/
theorem runDue_none {z : State} (zd : z.due = []) (zb : ∀ n : Fin 16, (z.thr n.val).blocked = []) : runDue z = z := by
  unfold runDue
  dsimp only
  have e : ({ z with due := z.due.filter (fun (d : Due) => decide (z.clk.fc < d.at_)) } : State) = z := by
    rw [zd]
    cases z
    cases zd
    rfl
  rw [e, zd, List.filter_nil, List.foldl_nil, List.foldl_nil]
  refine State.each_id fun n hn => ?_
  unfold retryStores
  dsimp only
  rw [zb ⟨n, hn⟩]
  have : vmod z.seq.thr n (fun t => { t with blocked := [] }) = z.seq.thr := by
    refine vmod_same _ fun h => ?_
    have := zb ⟨n, hn⟩
    unfold State.thr vget at this
    rw [dif_pos hn] at this
    generalize z.seq.thr[n] = t at this ⊢
    cases t
    cases this
    rfl
  show (z.modThr n fun t => { t with blocked := [] }) = z
  unfold State.modThr
  rw [this]

/-- With nothing due, no gate, no shut and no BIST on its way, an fc edge ends here. -/
theorem gaugeAdvance_quiet (rdrI : U64) (s : State) (h1 : s.due = []) (h2 : s.shut.active = false) (h3 : s.shut.releaseAt = none)
    (h4 : s.bist.starting = false) (h5 : s.bist.origin = none) (h6 : ∀ k : Fin 8, (s.getGate k.val).en = false)
    (h7 : ∀ n : Fin 16, (s.thr n.val).blocked = []) :
    gaugeAdvance rdrI s = threadsStep (riderEdge (slotNow s)
      (pinsAndTimers rdrI (applyTaps (gatesEdge (disciplineFc (gaugeStep (edgeEnd s))))))) := by
  obtain ⟨xo, -, -, xt, xg⟩ := edgeEnd_keeps s
  rw [gaugeAdvance_eq]
  generalize edgeEnd s = x at xo xt xg ⊢
  generalize hd : disciplineFc (gaugeStep x) = d
  have d_o : Only [.clk, .ports, .lg, .link] x d := by
    rw [← hd]
    exact .of' (.mono (gaugeStep_only ..)) (.mono (disciplineFc_only ..))
  have dg : ∀ k : Fin 8, (d.getGate k.val).en = false := by
    intro k
    unfold State.getGate
    rw [d_o.gate]
    exact (xg k).trans (h6 k)
  have go := gatesEdge_off dg
  generalize gatesEdge d = g at go ⊢
  generalize hy : riderEdge (slotNow s) (pinsAndTimers rdrI (applyTaps g)) = y
  have yo : Only [.ports, .tmr, .out, .tur, .rider] g y := by
    rw [← hy]
    exact .of' (.mono (applyTaps_only ..)) (.of' (.mono (pinsAndTimers_only ..)) (.mono (riderEdge_only ..)))
  have ys : y.shut = s.shut := yo.shut.trans (go.shut.trans (d_o.shut.trans xo.shut))
  have yd : y.due = [] := (yo.due.trans (go.due.trans (d_o.due.trans xo.due))).trans h1
  have yb : y.bist = s.bist := yo.bist.trans (go.bist.trans (d_o.bist.trans xo.bist))
  have yq : y.seq = x.seq := yo.seq.trans (go.seq.trans d_o.seq)
  rw [shutStep_idle (by rw [ys]; exact h2) (by rw [ys]; exact h3)]
  have zo := threadsStep_only y
  have zb : ∀ n : Fin 16, ((threadsStep y).thr n.val).blocked = [] := by
    intro n
    rw [threadsStep_blocked _ n.isLt]
    unfold State.thr
    rw [yq]
    exact (xt n.val).2.trans (h7 n)
  generalize threadsStep y = z at zo zb ⊢
  have zd : z.due = [] := zo.due.trans yd
  have zk : z.bist = s.bist := zo.bist.trans yb
  rw [runDue_none zd zb, bistOnward_idle (by rw [zk]; exact h4), bistReply_idle (by rw [zk]; exact h5)]

end Sys2Proof.Machine
end

