-- ==== Sys2Proof/Laws/Rider.lean ====
section
/-! SUPPORT. What the operations of a Rider channel leave in the channel. -/

namespace Sys2Proof.Machine

theorem fetchedOp_some {s : State} {n opc : Nat} {l : RiderLatch} (h : (s.rch n).latch = some l) (hp : l.phase = .fetched)
    (ho : opcOf l.word = opc) : fetchedOp s n opc = some l.word := by
  unfold fetchedOp
  rw [h]
  exact if_pos (by simp [hp, ho])

theorem complete_rch {n : Nat} (hn : n < 32) (s : State) : (complete n s).rch n = { s.rch n with latch := none } :=
  State.rch_modRch _ _ hn

theorem setPhase_rch {n : Nat} (hn : n < 32) (p : RiderPhase) {s : State} {l : RiderLatch} (h : (s.rch n).latch = some l) :
    (setPhase n p s).rch n = { s.rch n with latch := some { l with phase := p } } := by
  unfold setPhase
  rw [State.rch_modRch _ _ hn, h]
  rfl

theorem setatDo_rch {n : Nat} (hn : n < 32) (l : RiderLatch) (s : State) : (setatDo n l s).rch n = { s.rch n with
    latch := none
    setat := some { slot := fd l.word 13 3, op := fd l.word 11 2, t := l.time, e := fcTime s, fc := s.clk.fc } } := by
  unfold setatDo
  rw [complete_rch hn, State.rch_modRch _ _ hn]

theorem nextLevel_rch {n : Nat} (hn : n < 32) (j : Nat) (b c : Bool) (s : State) :
    (nextLevel n j b c s).rch n = { s.rch n with slots := ((nextLevel n j b c s).rch n).slots } ∧
      (nextLevel n j b c s).rider.turnDone = s.rider.turnDone := by
  have e : ∀ x : State, x.rch n = { s.rch n with slots := (x.rch n).slots } → x.rider.turnDone = s.rider.turnDone →
      ∀ y : State, y.rider = x.rider →
        y.rch n = { s.rch n with slots := (y.rch n).slots } ∧ y.rider.turnDone = s.rider.turnDone := by
    intro x hx hd y hy
    rw [rch_eq n hy, hy]
    exact ⟨hx, hd⟩
  have hm : ∀ f, (modSlot n j f s).rch n = { s.rch n with slots := ((modSlot n j f s).rch n).slots } := by
    intro f
    unfold modSlot
    rw [State.rch_modRch _ _ hn]
  unfold nextLevel
  dsimp only
  split
  · split
    · exact e _ (hm _) rfl _ (riderClaim_only ..).rider
    · exact e _ (hm _) rfl _ rfl
  · exact ⟨rfl, rfl⟩

/-- The side-set of a word changes nothing of its channel but its slots. -/
theorem sideSet_rch {n : Nat} (hn : n < 32) (w : U32) (s : State) :
    (sideSet n w s).rch n = { s.rch n with slots := ((sideSet n w s).rch n).slots } ∧
      (sideSet n w s).rider.turnDone = s.rider.turnDone := by
  unfold sideSet
  dsimp only
  have step : ∀ (L : List Nat) (g : Nat → State → State),
      (∀ k x, (g k x).rch n = { x.rch n with slots := ((g k x).rch n).slots } ∧ (g k x).rider.turnDone = x.rider.turnDone) →
      ∀ s : State, (L.foldl (fun s k => g k s) s).rch n =
          { s.rch n with slots := ((L.foldl (fun s k => g k s) s).rch n).slots } ∧
        (L.foldl (fun s k => g k s) s).rider.turnDone = s.rider.turnDone := by
    intro L g hg
    induction L with
    | nil => exact fun s => ⟨rfl, rfl⟩
    | cons k L ih =>
      intro s
      have h1 := ih (g k s)
      have h2 := hg k s
      rw [List.foldl_cons]
      refine ⟨?_, h1.2.trans h2.2⟩
      refine h1.1.trans ?_
      rw [h2.1]
  refine step (List.range 4) _ (fun k x => ?_) s
  dsimp only
  split
  · exact ⟨rfl, rfl⟩
  split
  · exact nextLevel_rch hn ..
  · exact nextLevel_rch hn ..
  · exact nextLevel_rch hn ..
  · exact ⟨rfl, rfl⟩

/-- The level of an output slot of channel n at this fc edge. -/
theorem driveSlot_rch {n j : Nat} (hn : n < 32) (hj : j < 8) (b : Bool) (s : State) :
    (driveSlot n j b s).rch n = { s.rch n with slots := ((driveSlot n j b s).rch n).slots } ∧
      (drives (rslot (s.rch n) j) = true → (rslot ((driveSlot n j b s).rch n) j).level = b) := by
  unfold driveSlot
  dsimp only
  by_cases hd : (drives (rslot (s.rch n) j) && (rslot (s.rch n) j).level != b) = true
  · rw [if_pos hd, rch_eq n (riderClaim_only ..).rider]
    unfold modSlot
    rw [State.rch_modRch _ _ hn]
    refine ⟨rfl, fun _ => ?_⟩
    unfold rslot
    rw [vget_vmod_self _ hj]
  · rw [if_neg hd]
    exact ⟨rfl, fun hx => by simpa [hx] using hd⟩

theorem abortStall_idle {n : Nat} {s : State} (h : (s.rch n).abortstall = false) : abortStall n s = s := by
  unfold abortStall
  exact if_neg (by simp [h])

/-- Another channel than n holds pin p: its claim is an older one, or of this fc and of a lower number (R496). -/
def Holds (s : State) (n p m : Nat) : Prop :=
  m < 32 ∧ m ≠ n ∧ ∃ sl ∈ (s.rch m).slots.toList, drives sl = true ∧ sl.pin.toNat = p ∧ (sl.claimAt ≠ s.clk.fc + 1 ∨ m < n)

theorem pinTaken_iff {s : State} {n p : Nat} : pinTaken s n p = true ↔ ∃ m, Holds s n p m := by
  unfold pinTaken Holds
  rw [List.any_eq_true]
  constructor
  · rintro ⟨⟨c, i⟩, hm, hc⟩
    have hi := List.mem_zipIdx hm
    have hlt : i < 32 := by simpa using hi.2.1
    have hr : s.rch i = c := by
      have h5 : c = s.rider.ch[i] := by simpa using hi.2.2
      rw [h5]
      exact dif_pos hlt
    simp only [Bool.and_eq_true, bne_iff_ne, ne_eq, List.any_eq_true] at hc
    obtain ⟨hne, sl, hsl, hd⟩ := hc
    simp only [Bool.or_eq_true, decide_eq_true_eq, bne_iff_ne, ne_eq] at hd
    exact ⟨i, hlt, hne, sl, by rw [hr]; exact hsl, hd.1.1, hd.1.2, hd.2⟩
  · rintro ⟨i, hlt, hne, sl, hsl, h1, h2, h3⟩
    have hr : s.rch i = s.rider.ch[i] := dif_pos hlt
    refine ⟨(s.rider.ch[i], i), ?_, ?_⟩
    · rw [List.mem_zipIdx_iff_getElem?]
      simp [hlt]
    · simp only [Bool.and_eq_true, bne_iff_ne, ne_eq, List.any_eq_true]
      refine ⟨hne, sl, by rw [← hr]; exact hsl, ?_⟩
      simp only [Bool.or_eq_true, decide_eq_true_eq, bne_iff_ne, ne_eq]
      exact ⟨⟨h1, h2⟩, h3⟩

/-- Who holds a pin beside channel n does not depend on channel n. -/
theorem pinTaken_congr {s t : State} {n : Nat} (p : Nat) (hc : t.clk = s.clk) (h : ∀ m, m ≠ n → (t.rch m).slots = (s.rch m).slots) :
    pinTaken t n p = pinTaken s n p := by
  rw [Bool.eq_iff_iff, pinTaken_iff, pinTaken_iff]
  unfold Holds
  rw [hc]
  exact ⟨fun ⟨m, a, b, c⟩ => ⟨m, a, b, by rw [← h m b]; exact c⟩, fun ⟨m, a, b, c⟩ => ⟨m, a, b, by rw [h m b]; exact c⟩⟩

theorem rchFlag_other {m n : Nat} (h : m ≠ n) (b : Nat) (s : State) : (rchFlag n b s).rch m = s.rch m := by
  unfold rchFlag
  dsimp only
  rw [rch_eq m (raiseIf_rider ..), hwSet_rch, State.rch_modRch_other _ _ h]

/-- Channel n keeps its own slots and flags when it claims a pin. -/
theorem dropClaims_own (n p : Nat) (s : State) : (dropClaims n p s).rch n = s.rch n := by
  unfold dropClaims State.each
  refine foldl_stays (fun x : State => x.rch n = s.rch n) (fun x m hx => ?_) _ _ rfl
  split
  · rename_i h
    have hne : n ≠ m := by
      intro e
      simp [e] at h
    rw [rchFlag_other hne, State.rch_modRch_other _ _ hne, hx]
  · exact hx

/-- A claim that drops those of its own fc leaves who held a pin before (R496). -/
theorem dropClaims_pinTaken {n p : Nat} {s : State} (hp : pinTaken s n p = false) (q : Nat) :
    pinTaken (dropClaims n p s) n q = pinTaken s n q := by
  unfold dropClaims State.each
  have key : ∀ (x : State) (m : Nat), pinTaken x n p = false → m ≠ n →
      ∀ q, pinTaken (rchFlag m 4 (x.modRch m (fun c => { c with
        slots := vmap c.slots (fun _ sl => if sl.pin.toNat = p then { sl with held := false } else sl) }))) n q = pinTaken x n q := by
    intro x m hx hm q
    rw [Bool.eq_iff_iff, pinTaken_iff, pinTaken_iff]
    have hclk : (rchFlag m 4 (x.modRch m (fun c => { c with
        slots := vmap c.slots (fun _ sl => if sl.pin.toNat = p then { sl with held := false } else sl) }))).clk = x.clk :=
      (rchFlag_only ..).clk
    have hsame : ∀ k, k ≠ m → (rchFlag m 4 (x.modRch m (fun c => { c with
        slots := vmap c.slots (fun _ sl => if sl.pin.toNat = p then { sl with held := false } else sl) }))).rch k = x.rch k :=
      fun k hk => (rchFlag_other hk ..).trans (State.rch_modRch_other _ _ hk)
    have hslots : m < 32 → ((rchFlag m 4 (x.modRch m (fun c => { c with
        slots := vmap c.slots (fun _ sl => if sl.pin.toNat = p then { sl with held := false } else sl) }))).rch m).slots =
          vmap (x.rch m).slots (fun _ sl => if sl.pin.toNat = p then { sl with held := false } else sl) := by
      intro h
      rw [rchFlag_rch h, State.rch_modRch _ _ h]
    generalize rchFlag m 4 (x.modRch m (fun c => { c with
        slots := vmap c.slots (fun _ sl => if sl.pin.toNat = p then { sl with held := false } else sl) })) = y at hclk hsame hslots
    have mem : ∀ (v : Vector RiderSlot 8) (sl : RiderSlot),
        sl ∈ (vmap v (fun _ sl => if sl.pin.toNat = p then { sl with held := false } else sl)).toList ↔
          ∃ s0 ∈ v.toList, sl = if s0.pin.toNat = p then { s0 with held := false } else s0 := by
      intro v sl
      have e : ∀ i (h : i < 8), (vmap v (fun _ sl => if sl.pin.toNat = p then { sl with held := false } else sl))[i] =
          if v[i].pin.toNat = p then { v[i] with held := false } else v[i] := by
        intro i h
        have h1 := vget_vmap v h (fun _ sl => if sl.pin.toNat = p then { sl with held := false } else sl) v[i] v[i]
        unfold vget at h1
        rw [dif_pos h, dif_pos h] at h1
        exact h1
      rw [Vector.mem_toList_iff, Vector.mem_iff_getElem]
      constructor
      · rintro ⟨i, hi, h⟩
        exact ⟨v[i], Vector.mem_toList_iff.mpr (Vector.getElem_mem hi), h.symm.trans (e i hi)⟩
      · rintro ⟨s0, h0, h⟩
        obtain ⟨i, hi, rfl⟩ := Vector.mem_iff_getElem.mp (Vector.mem_toList_iff.mp h0)
        exact ⟨i, hi, (e i hi).trans h.symm⟩
    unfold Holds
    rw [hclk]
    constructor
    · rintro ⟨k, h1, h2, sl, h3, h4, h5, h6⟩
      by_cases hk : k = m
      · subst hk
        rw [hslots h1, mem] at h3
        obtain ⟨s0, h0, e⟩ := h3
        split at e
        · rw [e] at h4
          simp [drives] at h4
        · rw [e] at h4 h5 h6
          exact ⟨k, h1, h2, s0, h0, h4, h5, h6⟩
      · rw [hsame k hk] at h3
        exact ⟨k, h1, h2, sl, h3, h4, h5, h6⟩
    · rintro ⟨k, h1, h2, sl, h3, h4, h5, h6⟩
      by_cases hk : k = m
      · subst hk
        refine ⟨k, h1, h2, sl, ?_, h4, h5, h6⟩
        rw [hslots h1, mem]
        refine ⟨sl, h3, ?_⟩
        split
        · rename_i e
          have : pinTaken x n p = true := pinTaken_iff.mpr ⟨k, h1, h2, sl, h3, h4, e, h6⟩
          rw [hx] at this
          cases this
        · rfl
      · exact ⟨k, h1, h2, sl, by rw [hsame k hk]; exact h3, h4, h5, h6⟩
  refine foldl_stays (fun x : State => ∀ q, pinTaken x n q = pinTaken s n q) (fun x m hx q => ?_) _ _ (fun _ => rfl) q
  split
  · rename_i h
    have hne : m ≠ n := by
      intro e
      simp [e] at h
    rw [key x m (by rw [hx]; exact hp) hne, hx]
  · exact hx q

/-- Channel n after slot j has been given a pin and a mode (R496, R497). -/
theorem mapSlot_rch {n : Nat} (hn : n < 32) (j : Nat) (pin : BitVec 6) (mode : BitVec 2) (s : State) :
    (mapSlot n j pin mode s).rch n = { s.rch n with
      slots := ((mapSlot n j pin mode s).rch n).slots
      stat := if bit mode 1 = true ∧ ¬ (drives (rslot (s.rch n) j) = true ∧ (rslot (s.rch n) j).pin = pin) ∧
          pinTaken s n pin.toNat = true then setBit (s.rch n).stat 4 true else (s.rch n).stat } := by
  unfold mapSlot
  dsimp only
  have hm : ∀ f, (modSlot n j f s).rch n = { s.rch n with slots := vmod (s.rch n).slots j f } := fun f => State.rch_modRch _ _ hn
  generalize (if bit mode 1 && !drives (rslot (s.rch n) j) then decide (mode = 3) else (rslot (s.rch n) j).level) = level
  split
  · rename_i hc
    have h := (if_pos (by
      cases hb : bit mode 1 <;> cases hd : drives (rslot (s.rch n) j) <;> simp [hb, hd] at hc ⊢ <;> exact hc) :
      (if bit mode 1 = true ∧ ¬ (drives (rslot (s.rch n) j) = true ∧ (rslot (s.rch n) j).pin = pin) ∧
        pinTaken s n pin.toNat = true then setBit (s.rch n).stat 4 true else (s.rch n).stat) = _)
    rw [rchFlag_rch hn, hm, h]
  · rename_i hc
    have h := (if_neg (by
      cases hb : bit mode 1 <;> cases hd : drives (rslot (s.rch n) j) <;> simp [hb, hd] at hc ⊢ <;> exact hc) :
      (if bit mode 1 = true ∧ ¬ (drives (rslot (s.rch n) j) = true ∧ (rslot (s.rch n) j).pin = pin) ∧
        pinTaken s n pin.toNat = true then setBit (s.rch n).stat 4 true else (s.rch n).stat) = _)
    rw [h]
    refine ite_both _ (P := fun y : State => y.rch n = { s.rch n with slots := (y.rch n).slots, stat := (s.rch n).stat }) ?_ ?_
    · rw [dropClaims_own, hm]
    · rw [hm]

theorem mapSlot_stat {n : Nat} (hn : n < 32) (j : Nat) (pin : BitVec 6) (mode : BitVec 2) (s : State) :
    ((mapSlot n j pin mode s).rch n).stat =
      if bit mode 1 = true ∧ ¬ (drives (rslot (s.rch n) j) = true ∧ (rslot (s.rch n) j).pin = pin) ∧
        pinTaken s n pin.toNat = true then setBit (s.rch n).stat 4 true else (s.rch n).stat :=
  congrArg RiderCh.stat (mapSlot_rch hn j pin mode s)

/-- Who holds a pin beside channel n stays as it was when a slot of channel n is given a pin. -/
theorem mapSlot_pinTaken (n j : Nat) (pin : BitVec 6) (mode : BitVec 2) (s : State) (q : Nat) :
    pinTaken (mapSlot n j pin mode s) n q = pinTaken s n q := by
  unfold mapSlot
  dsimp only
  have hm : ∀ f q, pinTaken (modSlot n j f s) n q = pinTaken s n q := fun f q =>
    pinTaken_congr q rfl fun m hm => by
      unfold modSlot
      rw [State.rch_modRch_other _ _ hm]
  split
  · rename_i hc
    exact (pinTaken_congr q (rchFlag_only ..).clk fun m hm => by rw [rchFlag_other hm]).trans (hm _ q)
  · rename_i hc
    split
    · rename_i hd
      refine Eq.trans (dropClaims_pinTaken ?_ q) (hm _ q)
      rw [hm]
      rw [hd, Bool.true_and] at hc
      exact Bool.eq_false_iff.mpr hc
    · exact hm _ q

theorem mapSlot_slot {n j : Nat} (hn : n < 32) (hj : j < 8) (pin : BitVec 6) (mode : BitVec 2) (s : State) :
    (rslot ((mapSlot n j pin mode s).rch n) j).pin = pin ∧ (rslot ((mapSlot n j pin mode s).rch n) j).mode = mode ∧
      (rslot ((mapSlot n j pin mode s).rch n) j).held = (bit mode 1 &&
        ((drives (rslot (s.rch n) j) && (rslot (s.rch n) j).pin = pin) || !pinTaken s n pin.toNat)) := by
  unfold mapSlot
  dsimp only
  have hs : ∀ x, rslot ((modSlot n j (fun _ => x) s).rch n) j = x := by
    intro x
    unfold modSlot rslot
    rw [State.rch_modRch _ _ hn]
    exact vget_vmod_self _ hj _ _
  have hf : ∀ x : State, rslot ((rchFlag n 4 x).rch n) j = rslot (x.rch n) j := by
    intro x
    rw [rchFlag_rch hn]
    rfl
  split
  · rw [hf, hs]
    refine ⟨rfl, rfl, ?_⟩
    dsimp only
    cases bit mode 1 <;> cases drives (rslot (s.rch n) j) <;> cases decide ((rslot (s.rch n) j).pin = pin) <;>
      cases pinTaken s n pin.toNat <;> rfl
  · refine ite_both _ (P := fun y : State => (rslot (y.rch n) j).pin = pin ∧ (rslot (y.rch n) j).mode = mode ∧
      (rslot (y.rch n) j).held = (bit mode 1 &&
        ((drives (rslot (s.rch n) j) && (rslot (s.rch n) j).pin = pin) || !pinTaken s n pin.toNat))) ?_ ?_
    · rw [dropClaims_own, hs]
      refine ⟨rfl, rfl, ?_⟩
      dsimp only
      cases bit mode 1 <;> cases drives (rslot (s.rch n) j) <;> cases decide ((rslot (s.rch n) j).pin = pin) <;>
        cases pinTaken s n pin.toNat <;> rfl
    · rw [hs]
      refine ⟨rfl, rfl, ?_⟩
      dsimp only
      cases bit mode 1 <;> cases drives (rslot (s.rch n) j) <;> cases decide ((rslot (s.rch n) j).pin = pin) <;>
        cases pinTaken s n pin.toNat <;> rfl

theorem mapSlot_keeps {n j k : Nat} (hn : n < 32) (h : k ≠ j) (pin : BitVec 6) (mode : BitVec 2) (s : State) :
    rslot ((mapSlot n j pin mode s).rch n) k = rslot (s.rch n) k := by
  unfold mapSlot
  dsimp only
  have hs : ∀ f, rslot ((modSlot n j f s).rch n) k = rslot (s.rch n) k := by
    intro f
    unfold modSlot rslot
    rw [State.rch_modRch _ _ hn]
    exact vget_vmod_other _ h _ _
  split
  · rw [rchFlag_rch hn]
    exact hs _
  · split
    · rw [dropClaims_own]
      exact hs _
    · exact hs _

/-- A fold that visits place i once: what place i needs holds until then, what it gives holds from then on. -/
theorem foldl_visits {S : Type} (g : Nat → S → S) (i : Nat) (Before After : S → Prop)
    (hb : ∀ a x, a ≠ i → Before x → Before (g a x)) (hi : ∀ x, Before x → After (g i x))
    (ha : ∀ a x, a ≠ i → After x → After (g a x)) :
    ∀ (L : List Nat) (x : S), i ∈ L → L.Nodup → Before x → After (L.foldl (fun s a => g a s) x)
  | [], _, h, _, _ => absurd h List.not_mem_nil
  | a :: L, x, h, hnd, hx => by
    rw [List.foldl_cons]
    have hd := List.nodup_cons.mp hnd
    by_cases e : a = i
    · subst e
      have rest : ∀ (L : List Nat) (y : S), a ∉ L → After y → After (L.foldl (fun s a => g a s) y) := by
        intro L
        induction L with
        | nil => exact fun y _ hy => hy
        | cons b L ih =>
          intro y hn hy
          rw [List.foldl_cons]
          exact ih _ (fun hm => hn (List.mem_cons_of_mem _ hm)) (ha b y (fun e => hn (e ▸ List.mem_cons_self ..)) hy)
      exact rest L _ hd.1 (hi x hx)
    · refine foldl_visits g i Before After hb hi ha L _ ?_ hd.2 (hb a x e hx)
      exact (List.mem_cons.mp h).resolve_left fun q => e q.symm

/-- Slot j of channel n after the write that names its pin and mode (R496, R536). -/
theorem writeMap_slot {n i j : Nat} (hn : n < 32) (hi : i < 4) (hiB : Bool) (v : U32) (s : State) {pin : BitVec 6}
    {mode : BitVec 2} (hj : j = i + (if hiB then 4 else 0)) (hp : pin = fd v (8 * i) 6) (hm : mode = fd v (8 * i + 6) 2) :
    (rslot ((writeMap n hiB v s).rch n) j).pin = pin ∧ (rslot ((writeMap n hiB v s).rch n) j).mode = mode ∧
      (rslot ((writeMap n hiB v s).rch n) j).held = (bit mode 1 &&
        ((drives (rslot (s.rch n) j) && (rslot (s.rch n) j).pin = pin) || !pinTaken s n pin.toNat)) ∧
      (bit mode 1 = true → ¬ (drives (rslot (s.rch n) j) = true ∧ (rslot (s.rch n) j).pin = pin) →
        pinTaken s n pin.toNat = true → bit ((writeMap n hiB v s).rch n).stat 4 = true) := by
  have b4 : ∀ x : BitVec 9, bit (setBit x 4 true) 4 = true := by decide
  have hj8 : j < 8 := by rw [hj]; split <;> omega
  have hne : ∀ a, a ≠ i → j ≠ a + (if hiB = true then 4 else 0) := fun a ha => by omega
  unfold writeMap
  refine foldl_visits (fun a x => mapSlot n (a + if hiB then 4 else 0) (fd v (8 * a) 6) (fd v (8 * a + 6) 2) x) i
    (fun x => (∀ q, pinTaken x n q = pinTaken s n q) ∧ rslot (x.rch n) j = rslot (s.rch n) j)
    (fun y => (rslot (y.rch n) j).pin = pin ∧ (rslot (y.rch n) j).mode = mode ∧
      (rslot (y.rch n) j).held = (bit mode 1 &&
        ((drives (rslot (s.rch n) j) && (rslot (s.rch n) j).pin = pin) || !pinTaken s n pin.toNat)) ∧
      (bit mode 1 = true → ¬ (drives (rslot (s.rch n) j) = true ∧ (rslot (s.rch n) j).pin = pin) →
        pinTaken s n pin.toNat = true → bit (y.rch n).stat 4 = true)) ?_ ?_ ?_ (List.range 4) s
    (List.mem_range.mpr hi) List.nodup_range ⟨fun _ => rfl, rfl⟩
  · intro a x ha hx
    exact ⟨fun q => (mapSlot_pinTaken ..).trans (hx.1 q), (mapSlot_keeps hn (hne a ha) ..).trans hx.2⟩
  · intro x hx
    rw [← hj, ← hp, ← hm]
    have e := mapSlot_slot hn hj8 pin mode x
    rw [hx.2, hx.1] at e
    refine ⟨e.1, e.2.1, e.2.2, fun q1 q2 q3 => ?_⟩
    rw [mapSlot_stat hn, if_pos ⟨q1, by rw [hx.2]; exact q2, by rw [hx.1]; exact q3⟩]
    exact b4 _
  · intro a x ha hx
    have k := mapSlot_keeps hn (hne a ha) (fd v (8 * a) 6) (fd v (8 * a + 6) 2) x
    refine ⟨?_, ?_, ?_, fun q1 q2 q3 => ?_⟩
    · rw [k]; exact hx.1
    · rw [k]; exact hx.2.1
    · rw [k]; exact hx.2.2.1
    · rw [mapSlot_stat hn]
      generalize a + (if hiB = true then 4 else 0) = m
      split
      · exact b4 _
      · exact hx.2.2.2 q1 q2 q3

end Sys2Proof.Machine
end

