-- ==== Sys2Proof/Laws/Commands.lean ====
section
/-! SUPPORT. How a command of the Headgate begins, and what its stage becomes. -/

namespace Sys2Proof.Machine

theorem slotAt_setStage {k : Slot} {c : CmdSlot} {s : State} (h : slotAt s k = some c) (st : CmdStage) :
    slotAt (setStage c.seq st s) k = some { c with stage := st } := by
  unfold setStage
  cases k with
  | link =>
    unfold slotAt at *
    dsimp only at *
    rw [h]
    simp
  | sq r =>
    unfold slotAt at *
    dsimp only at *
    rw [vget_vmap _ r.isLt _ none, h]
    simp

theorem slotAt_eq {s t : State} (k : Slot) (h : t.hg.slot = s.hg.slot) (hl : t.hg.linkSlot = s.hg.linkSlot) :
    slotAt t k = slotAt s k := by
  unfold slotAt
  rw [h, hl]

theorem slotAt_hg {s t : State} (k : Slot) (h : t.hg = s.hg) : slotAt t k = slotAt s k := slotAt_eq k (by rw [h]) (by rw [h])

/-- A command whose slot `f` leaves alone has ended. -/
theorem done_ended {k : Slot} {c : CmdSlot} {s : State} (h : slotAt s k = some c) (st : Byte) (r : U64) :
    Ended k c st 0 r (done c st r s) := slotAt_setStage h _

theorem doneDetail_ended {k : Slot} {c : CmdSlot} {s : State} (h : slotAt s k = some c) (st : Byte) (d : Nat) :
    Ended k c st (BitVec.ofNat 16 d) 0 (doneDetail c st d s) := slotAt_setStage h _

theorem runCmd_begins {op : Nat} {k : Slot} {c : CmdSlot} {s : State} (h : Begins op k c s) (masks : BitVec 512 → List U32)
    (bad : BitVec 512 → List Bool) (f again : CmdSlot → State → State) :
    runCmd op k masks bad f again s = (match firstBad c.entry (masks c.entry) (bad c.entry) with
      | some d => doneDetail c 2 d s
      | none => f c s) := by
  unfold runCmd
  rw [h.held]
  dsimp only
  rw [h.run, h.served, h.opcode, if_neg (by simp), h.fresh]
  dsimp only
  rw [h.free, if_neg (by decide), h.own, if_neg (by decide), h.idle]
  cases firstBad c.entry (masks c.entry) (bad c.entry) <;> rfl

theorem runCmd_runs {op : Nat} {k : Slot} {c : CmdSlot} {s : State} (h : Begins op k c s) {masks : BitVec 512 → List U32}
    {bad : BitVec 512 → List Bool} (e : firstBad c.entry (masks c.entry) (bad c.entry) = none) (f again : CmdSlot → State → State) :
    runCmd op k masks bad f again s = f c s := by
  rw [runCmd_begins h, e]

theorem runShort_runs {op : Nat} {k : Slot} {c : CmdSlot} {s : State} (h : Begins op k c s) {masks : BitVec 512 → List U32}
    {bad : BitVec 512 → List Bool} (e : firstBad c.entry (masks c.entry) (bad c.entry) = none) (f : CmdSlot → State → State) :
    runShort op k masks bad f s = f c s := runCmd_runs h e f _

/-- A parameter outside its range ends the command with status 2. -/
theorem runCmd_refused {op : Nat} {k : Slot} {c : CmdSlot} {s : State} (h : Begins op k c s) {masks : BitVec 512 → List U32}
    {bad : BitVec 512 → List Bool} {d : Nat} (e : firstBad c.entry (masks c.entry) (bad c.entry) = some d)
    (f again : CmdSlot → State → State) :
    Ended k c 2 (BitVec.ofNat 16 d) 0 (runCmd op k masks bad f again s) ∧ Only [.hg] s (runCmd op k masks bad f again s) := by
  rw [runCmd_begins h, e]
  exact ⟨doneDetail_ended h.held .., setStage_only ..⟩

/-! ## Rings -/

theorem hgUpdate_hg (s : State) : (hgUpdate s).hg = { s.hg with
    cqfull := s.hg.cq.en && !cqRoom s, proch := !serving s } := by
  unfold hgUpdate
  dsimp only
  have e : ∀ b n c m (x : State), (raiseIf b n (raiseIf c m x)).hg = x.hg := fun b n c m x => by rw [raiseIf_hg, raiseIf_hg]
  have e1 : ∀ c m (x : State), serving (raiseIf c m x) = serving x := fun c m x => by
    unfold serving State.thr
    rw [raiseIf_seq]
  rw [e, e1]

theorem cqWrite_hg (body : Row) (irq : Bool) (s : State) :
    (cqWrite body irq s).hg = { s.hg with cq := ringPush s.hg.cq, shadDirty := true } := by
  unfold cqWrite
  dsimp only
  rw [raiseIf_hg]
  unfold dirty
  dsimp only
  rw [(hostWrite_only ..).hg (by decide)]

theorem cqWrite_mem (body : Row) (irq : Bool) (s : State) :
    (cqWrite body irq s).mem = (hostWrite s (entryAddr s.hg.cq s.hg.cq.tail 16) (bytesLE (setBit body 24 s.hg.cq.phase) 16)).mem := by
  unfold cqWrite
  dsimp only
  rw [raiseIf_mem]
  rfl

theorem cqWrite_raised (body : Row) (s : State) : SrcRaised 328 (cqWrite body true s) := by
  unfold cqWrite
  exact raise_raised ..

theorem hgUpdate_raised {i : Nat} {s : State} (h : SrcRaised i s) : SrcRaised i (hgUpdate s) := by
  unfold hgUpdate
  dsimp only
  refine SrcRaised.congr (s := raiseIf _ 336 (raiseIf _ 331 s)) ?_ rfl
  generalize (!serving _ && _) = b
  generalize (_ && !s.hg.cqfull) = c
  have h1 : SrcRaised i (raiseIf c 331 s) := by
    cases c
    · exact h
    · exact raise_raised_mono _ h
  cases b
  · exact h1
  · exact raise_raised_mono _ h1

/-- A fold over the numbers below `n`: what number `i` needs holds until then, what it gives holds from then on. -/
theorem foldl_range_visits {S : Type} (n : Nat) (g : S → Nat → S) (i : Nat) (hin : i < n) (Before After : S → Prop)
    (hb : ∀ a x, a < n → a ≠ i → Before x → Before (g x a)) (hi : ∀ x, Before x → After (g x i))
    (ha : ∀ a x, a < n → a ≠ i → After x → After (g x a)) (x : S) (h : Before x) : After ((List.range n).foldl g x) := by
  have e : ∀ (L : List Nat) (y : S), (∀ a ∈ L, a < n) →
      L.foldl g y = L.foldl (fun s a => (fun a s => if a < n then g s a else s) a s) y := by
    intro L
    induction L with
    | nil => exact fun _ _ => rfl
    | cons a L ih =>
      intro y hl
      rw [List.foldl_cons, List.foldl_cons]
      dsimp only
      rw [if_pos (hl a List.mem_cons_self)]
      exact ih _ fun b hb => hl b (List.mem_cons_of_mem _ hb)
  rw [e _ _ fun a h => List.mem_range.mp h]
  refine foldl_visits (fun a s => if a < n then g s a else s) i Before After (fun a x hne hx => ?_) (fun x hx => ?_) (fun a x hne hx => ?_)
    (List.range n) x (List.mem_range.mpr hin) List.nodup_range h
  · split
    · exact hb a x ‹_› hne hx
    · exact hx
  · rw [if_pos hin]
    exact hi x hx
  · split
    · exact ha a x ‹_› hne hx
    · exact hx

theorem getRing_setRing {j : Nat} (q : Ring) (x : State) : getRing (setRing j q x) j = q := by
  unfold getRing setRing State.sqr
  split
  · unfold vset
    exact vget_vmod_self _ ‹_› _ _
  · split <;> rfl

theorem getRing_setRing_other {i j : Nat} (hi : i < 6) (hj : j < 6) (e : i ≠ j) (q : Ring) (x : State) :
    getRing (setRing i q x) j = getRing x j := by
  unfold getRing setRing State.sqr
  by_cases h4 : i < 4
  · rw [if_pos h4]
    split
    · unfold vset
      exact vget_vmod_other _ (Ne.symm e) _ _
    · split <;> rfl
  · rw [if_neg h4]
    by_cases h5 : i = 4
    · rw [if_pos h5]
      split
      · rfl
      · rw [if_neg (by omega), if_neg (by omega)]
    · rw [if_neg h5]
      split
      · rfl
      · rw [if_pos (by omega), if_pos (by omega)]

/-- What the completions that enabling the CQ writes do to the rest of the Headgate: nothing. -/
def HgRest (s t : State) : Prop :=
  t.hg.sq = s.hg.sq ∧ t.hg.eq = s.hg.eq ∧ t.hg.shen = s.hg.shen ∧ t.hg.shad = s.hg.shad ∧ t.hg.err = s.hg.err

theorem cqWrite_rest (body : Row) (irq : Bool) (s : State) : HgRest s (cqWrite body irq s) := by
  unfold HgRest
  rw [cqWrite_hg]
  exact ⟨rfl, rfl, rfl, rfl, rfl⟩

theorem HgRest.trans {s t u : State} (h : HgRest s t) (k : HgRest t u) : HgRest s u :=
  ⟨k.1.trans h.1, k.2.1.trans h.2.1, k.2.2.1.trans h.2.2.1, k.2.2.2.1.trans h.2.2.2.1, k.2.2.2.2.trans h.2.2.2.2⟩

theorem writeHeld_rest (s : State) : HgRest s (writeHeld s) := by
  unfold writeHeld
  have : ∀ (L : List HeldCq) (x : State), HgRest x (L.foldl (fun s c => cqWrite c.body c.irq s) x) := by
    intro L
    induction L with
    | nil => exact fun x => ⟨rfl, rfl, rfl, rfl, rfl⟩
    | cons a L ih => exact fun x => (cqWrite_rest ..).trans (ih _)
  exact HgRest.trans (t := { s with hg := { s.hg with held := [] } }) ⟨rfl, rfl, rfl, rfl, rfl⟩ (this _ _)

theorem writeBistOwed_rest (s : State) : HgRest s (writeBistOwed s) := by
  unfold writeBistOwed
  dsimp only
  split
  · exact HgRest.trans (t := bistPaid s) ⟨rfl, rfl, rfl, rfl, rfl⟩ (cqWrite_rest ..)
  · exact ⟨rfl, rfl, rfl, rfl, rfl⟩

/-- What HGERR leaves: its fields, and the W1C bit of this fc. -/
theorem hgErr_hg (cause : BitVec 3) (ring : Nat) (s : State) :
    (hgErr cause ring s).hg = { s.hg with errCause := cause, errRing := BitVec.ofNat 3 ring, err := true } := hwSet_hg ..

theorem hgErr_ring (cause : BitVec 3) (ring : Nat) (s : State) (j : Nat) : getRing (hgErr cause ring s) j = getRing s j := by
  unfold getRing State.sqr
  rw [hgErr_hg]

theorem getRing_rest {s t : State} (h : HgRest s t) {j : Nat} (hj : j ≠ 4) : getRing t j = getRing s j := by
  unfold getRing State.sqr
  rw [h.1, h.2.1, if_neg hj, if_neg hj]

/-- The part of an enable that stands in its own ring. -/
theorem enableRing_tail (j : Nat) (x : State) :
    HgRest x (if j = 4 then writeHeld (writeBistOwed x) else x) := by
  split
  · exact (writeBistOwed_rest _).trans (writeHeld_rest _)
  · exact ⟨rfl, rfl, rfl, rfl, rfl⟩

theorem enableRing_other {s : State} {i j : Nat} (hi : i < 6) (hj : j < 6) (e : i ≠ j) (h4 : j ≠ 4) (on : Bool) :
    getRing (enableRing s i on) j = getRing s j := by
  unfold enableRing
  dsimp only
  generalize ((getRing s i).base.toNat % _ != 0) = b1
  generalize (decide ((getRing s i).k.toNat < 4) || _) = b2
  split
  · exact getRing_setRing_other hi hj e _ _
  · split
    · rfl
    · split
      · exact hgErr_ring ..
      · split
        · exact hgErr_ring ..
        · rw [getRing_rest (enableRing_tail i _) h4]
          exact getRing_setRing_other hi hj e _ _

theorem enableRing_fixed (s : State) (i : Nat) (on : Bool) :
    (enableRing s i on).hg.shen = s.hg.shen ∧ (enableRing s i on).hg.shad = s.hg.shad ∧
      (s.hg.err = true → (enableRing s i on).hg.err = true) := by
  have st : ∀ q x, (setRing i q x).hg.shen = x.hg.shen ∧ (setRing i q x).hg.shad = x.hg.shad ∧ (setRing i q x).hg.err = x.hg.err := by
    intro q x
    unfold setRing
    split
    · exact ⟨rfl, rfl, rfl⟩
    · split <;> exact ⟨rfl, rfl, rfl⟩
  unfold enableRing
  dsimp only
  generalize ((getRing s i).base.toNat % _ != 0) = b1
  generalize (decide ((getRing s i).k.toNat < 4) || _) = b2
  split
  · exact ⟨(st ..).1, (st ..).2.1, fun h => (st ..).2.2.trans h⟩
  · split
    · exact ⟨rfl, rfl, id⟩
    · split
      · rw [hgErr_hg]
        exact ⟨rfl, rfl, fun _ => rfl⟩
      · split
        · rw [hgErr_hg]
          exact ⟨rfl, rfl, fun _ => rfl⟩
        · have k := enableRing_tail i (dirty (setRing i { getRing s i with en := true, head := 0, tail := 0, phase := decide (4 ≤ i) } s))
          exact ⟨k.2.2.1.trans (st ..).1, k.2.2.2.1.trans (st ..).2.1, fun h => k.2.2.2.2.trans ((st ..).2.2.trans h)⟩

theorem enableRing_self {s : State} {j : Nat} (h4 : j ≠ 4) :
    getRing (enableRing s j false) j = { getRing s j with en := false } ∧
    ((getRing s j).en = true → enableRing s j true = s) ∧
    ((getRing s j).en = false →
      ((getRing s j).base.toNat % (if j < 4 then 64 else 16) = 0 → 4 ≤ (getRing s j).k.toNat →
        (getRing s j).k.toNat ≤ (if j < 4 then 12 else 14) →
          getRing (enableRing s j true) j = { getRing s j with en := true, head := 0, tail := 0, phase := decide (4 ≤ j) }) ∧
      ((getRing s j).base.toNat % (if j < 4 then 64 else 16) ≠ 0 ∨ (getRing s j).k.toNat < 4 ∨
        (if j < 4 then 12 else 14) < (getRing s j).k.toNat →
          getRing (enableRing s j true) j = getRing s j ∧ (enableRing s j true).hg.err = true)) := by
  refine ⟨?_, fun h => ?_, fun h => ⟨fun a b c => ?_, fun a => ?_⟩⟩ <;> unfold enableRing <;> dsimp only
  · rw [if_pos (by decide)]
    exact getRing_setRing _ _
  · rw [if_neg (by decide), if_pos h]
  · rw [if_neg (by decide), if_neg (by rw [h]; decide), if_neg (by rw [a]; decide), if_neg (by simp; omega)]
    rw [getRing_rest (enableRing_tail j _) h4]
    exact getRing_setRing _ _
  · rw [if_neg (by decide), if_neg (by rw [h]; decide)]
    by_cases hb : (getRing s j).base.toNat % (if j < 4 then 64 else 16) != 0
    · rw [if_pos hb, hgErr_ring, hgErr_hg]
      exact ⟨rfl, rfl⟩
    · rw [if_neg hb, if_pos, hgErr_ring, hgErr_hg]
      · exact ⟨rfl, rfl⟩
      · simp at hb
        simp
        omega

/-- The same slot, after something that leaves the Headgate's slots alone. -/
theorem Ended.of {k : Slot} {c : CmdSlot} {status : Byte} {detail : U16} {result : U64} {s : State} {seq : Nat}
    (h : slotAt s k = some c) (e : c.seq = seq) : Ended k c status detail result (setStage seq (.done status detail result) s) := by
  subst e
  exact slotAt_setStage h _

/-- Ending commands one after the other: the one in slot `k` ends when it comes up, and stays ended. -/
theorem foldSlots_ends {k : Slot} {c : CmdSlot} {st0 st : CmdStage} {g : State → Option CmdSlot → State}
    (hn : ∀ z, g z none = z) (hg : ∀ z d, g z (some d) = z ∨ g z (some d) = setStage d.seq st z)
    (hc : ∀ z, g z (some { c with stage := st0 }) = setStage c.seq st z) :
    ∀ (L : List (Option CmdSlot)) (z : State),
      (slotAt z k = some { c with stage := st } ∨ (some { c with stage := st0 } ∈ L ∧ slotAt z k = some { c with stage := st0 })) →
      slotAt (L.foldl g z) k = some { c with stage := st }
  | [], _, h => h.resolve_right fun q => absurd q.1 List.not_mem_nil
  | d :: L, z, h => by
    rw [List.foldl_cons]
    have keep : ∀ q s0, (slotAt z k = some { c with stage := s0 }) → slotAt (setStage q st z) k = some { c with stage := st } ∨
        slotAt (setStage q st z) k = some { c with stage := s0 } := by
      intro q s0 hq
      by_cases e : c.seq = q
      · left
        subst e
        exact slotAt_setStage hq _
      · right
        unfold setStage
        cases k with
        | link =>
          unfold slotAt at *
          dsimp only at *
          rw [hq]
          dsimp only
          rw [if_neg e]
        | sq r =>
          unfold slotAt at *
          dsimp only at *
          rw [vget_vmap _ r.isLt _ none, hq]
          dsimp only
          rw [if_neg e]
    refine foldSlots_ends hn hg hc L _ ?_
    rcases h with h | ⟨hm, h⟩
    · left
      cases d with
      | none => rw [hn]; exact h
      | some d =>
        rcases hg z d with e | e
        · rw [e]; exact h
        · rw [e]; exact (keep d.seq _ h).elim id id
    · cases d with
      | none =>
        rw [hn]
        exact .inr ⟨(List.mem_cons.mp hm).resolve_left (by simp), h⟩
      | some d =>
        rcases List.mem_cons.mp hm with w | w
        · injection w with w
          subst w
          left
          rw [hc]
          exact slotAt_setStage h _
        · rcases hg z d with e | e
          · rw [e]; exact .inr ⟨w, h⟩
          · rw [e]; exact (keep d.seq _ h).imp id fun q => ⟨w, q⟩

theorem slotAt_mem {k : Slot} {c : CmdSlot} {s : State} (h : slotAt s k = some c) : some c ∈ slots s := by
  unfold slots
  cases k with
  | link => exact List.mem_append_right _ (by rw [show s.hg.linkSlot = _ from h]; exact List.mem_singleton_self _)
  | sq r =>
    refine List.mem_append_left _ ?_
    have : vget s.hg.slot r none = some c := h
    unfold vget at this
    rw [dif_pos r.isLt] at this
    rw [← this]
    exact Vector.mem_toList_iff.mpr (Vector.getElem_mem _)

end Sys2Proof.Machine
end

