-- ==== Sys2Proof/Laws/Culvert.lean ====
section
/-! SUPPORT. What the operations of a Culvert channel leave in the channel. -/

namespace Sys2Proof.Machine

/-- A trigger pulse changes no channel but for the pulses it has (R599). -/
theorem culPulse_culCh {k : Nat} (hk : k < 16) (trg : BitVec 2) (sel : Nat) (s : State) :
    (culPulse trg sel s).culCh k = { s.culCh k with pulses := ((culPulse trg sel s).culCh k).pulses } := by
  unfold culPulse State.culCh
  dsimp only
  rw [vget_vmap _ hk _ {}]
  split
  · split <;> rfl
  · rfl

@[simp] theorem culSet_culCh (n k : Nat) (bits : U32) (s : State) : (culSet n bits s).culCh k = s.culCh k := hwSet_culCh ..

/-- A record that finds its place, or that is lost because the CQ is off (R611). -/
theorem putRecord_some {n : Nat} (hn : n < 16) (body : Row) {s : State}
    (h : recordPlace s n = .lost ∨ recordPlace s n = .ready) :
    ∃ t, putRecord n body s = some t ∧ t.culCh n = { s.culCh n with
      cqwait := false, asked := false, reclost := (s.culCh n).reclost || !s.hg.cq.en } := by
  unfold putRecord
  rcases h with h | h
  · rw [h]
    refine ⟨_, rfl, ?_⟩
    have he : s.hg.cq.en = false := by
      unfold recordPlace at h
      cases he : s.hg.cq.en with
      | false => rfl
      | true =>
        rw [he, if_neg (by decide)] at h
        split at h
        · cases h
        · split at h <;> cases h
    rw [culSet_culCh, State.culCh_modCul _ _ hn, he]
    simp
  · rw [h]
    refine ⟨_, rfl, ?_⟩
    have he : s.hg.cq.en = true := by
      unfold recordPlace at h
      cases he : s.hg.cq.en with
      | false => rw [he] at h; simp at h
      | true => rfl
    rw [culCh_eq n (hgUpdate_only ..).cul, culCh_eq n (cqWrite_only ..).cul, State.culCh_modCul _ _ hn, he]
    simp

theorem putRecord_none {n : Nat} (body : Row) {s : State} (h : recordPlace s n = .noRoom ∨ recordPlace s n = .toGrant) :
    putRecord n body s = none := by
  unfold putRecord
  rcases h with h | h <;> rw [h]

/-- A stop whose record finds its place (R607, R613). -/
theorem culStop_stops {n : Nat} (hn : n < 16) (code : BitVec 4) {s : State}
    (h : stopRecord (s.culCh n) code = true → recordPlace s n = .lost ∨ recordPlace s n = .ready) :
    ((culStop n code s).culCh n).en = false ∧ ((culStop n code s).culCh n).phase = .idle ∧
      ((culStop n code s).culCh n).err = true ∧ ((culStop n code s).culCh n).ecode = code ∧
      ((culStop n code s).culCh n).bursts = [] ∧ ((culStop n code s).culCh n).cqwait = false ∧
      ((culStop n code s).culCh n).pause = (s.culCh n).pause ∧ SrcRaised (281 + 2 * n) (culStop n code s) := by
  unfold culStop
  dsimp only
  have hp : ∃ t, (if stopRecord (s.culCh n) code = true then putRecord n (stopBody n code (s.culCh n)) s else some s) = some t ∧
      (t.culCh n).pause = (s.culCh n).pause := by
    cases hr : stopRecord (s.culCh n) code with
    | false => exact ⟨s, if_neg (by decide), rfl⟩
    | true =>
      obtain ⟨t, ht, hc⟩ := putRecord_some hn (stopBody n code (s.culCh n)) (h hr)
      exact ⟨t, by rw [if_pos rfl]; exact ht, by rw [hc]⟩
  obtain ⟨t, ht, hc⟩ := hp
  rw [ht]
  dsimp only
  have e : ∀ x : State, (raise (281 + 2 * n) x).culCh n = x.culCh n := fun x => culCh_eq n (raise_cul ..)
  rw [e, culSet_culCh, State.culCh_modCul _ _ hn]
  exact ⟨rfl, rfl, rfl, rfl, rfl, rfl, hc, raise_raised ..⟩

/-- The beats of a burst that goes to host memory are all written (R602). -/
theorem writeBeats_host {n : Nat} (hn : n < 16) (d : CulDesc) (hd : d.dsp = true) (at_ : Nat) :
    ∀ (k i : Nat) (l : List Byte) (s : State),
      (writeBeats n d at_ k i l s).2 = none ∧
        (writeBeats n d at_ k i l s).1.culCh n = { s.culCh n with
          done := (s.culCh n).done + 16 * k, crc := ((writeBeats n d at_ k i l s).1.culCh n).crc } ∧
        (d.crc = false → ((writeBeats n d at_ k i l s).1.culCh n).crc = (s.culCh n).crc)
  | 0, _, _, _ => ⟨rfl, rfl, fun _ => rfl⟩
  | k + 1, i, l, s => by
    unfold writeBeats
    dsimp only
    rw [if_pos hd]
    have ih := writeBeats_host hn d hd at_ k (i + 1) (l.drop 16) ((storeHost (dstAddr d at_ i) (l.take 16) s).modCul n
      (fun c => { c with done := c.done + 16, crc := if d.crc = true then crc32cRun c.crc (l.take 16) else c.crc }))
    have e : ((storeHost (dstAddr d at_ i) (l.take 16) s).modCul n
      (fun c => { c with done := c.done + 16, crc := if d.crc = true then crc32cRun c.crc (l.take 16) else c.crc })).culCh n =
        { s.culCh n with
          done := (s.culCh n).done + 16
          crc := if d.crc = true then crc32cRun (s.culCh n).crc (l.take 16) else (s.culCh n).crc } :=
      (State.culCh_modCul _ _ hn).trans (by rw [culCh_eq n (storeHost_only ..).cul])
    rw [e] at ih
    have e3 : (s.culCh n).done + 16 + 16 * k = (s.culCh n).done + 16 * (k + 1) := by omega
    refine ⟨ih.1, ih.2.1.trans ?_, fun hc => (ih.2.2 hc).trans (if_neg (by simp [hc]))⟩
    rw [← e3]

end Sys2Proof.Machine
end

