-- ==== Sys2Proof/Laws/Samples.lean ====
section
/-! SUPPORT. What a landing sample leaves alone: the first mailboxes of the flumes, and the events raised before. -/

namespace Sys2Proof.Machine

/-- The first mailbox of every flume and its port are the same, and every raised source stays raised. -/
structure KeepsMb (s t : State) : Prop where
  mb : ∀ k, (t.flume k).mb1 = (s.flume k).mb1 ∧ (t.flume k).port1 = (s.flume k).port1
  up : ∀ i, SrcRaised i s → SrcRaised i t

theorem KeepsMb.refl (s : State) : KeepsMb s s := ⟨fun _ => ⟨rfl, rfl⟩, fun _ h => h⟩

theorem KeepsMb.trans {s t u : State} (h : KeepsMb s t) (k : KeepsMb t u) : KeepsMb s u :=
  ⟨fun i => ⟨(k.mb i).1.trans (h.mb i).1, (k.mb i).2.trans (h.mb i).2⟩, fun i a => k.up i (h.up i a)⟩

theorem KeepsMb.of {s t u : State} (h : KeepsMb s t) (hf : u.fl = t.fl) (ht : u.tur = t.tur) : KeepsMb s u :=
  ⟨fun i => by rw [flume_eq i hf]; exact h.mb i, fun i a => (h.up i a).congr ht⟩

theorem KeepsMb.ite {s t u : State} {b : Prop} [Decidable b] (h : KeepsMb s t) (k : KeepsMb s u) :
    KeepsMb s (if b then t else u) := by
  split
  · exact h
  · exact k

theorem KeepsMb.foldl {α : Type} {f : State → α → State} (h : ∀ s x, KeepsMb s (f s x)) :
    ∀ (l : List α) (s : State), KeepsMb s (l.foldl f s)
  | [], s => .refl s
  | x :: l, s => (h s x).trans (KeepsMb.foldl h l (f s x))

theorem modFl_mb (n : Nat) (f : Flume → Flume) (hf : ∀ x, (f x).mb1 = x.mb1 ∧ (f x).port1 = x.port1) (s : State) : KeepsMb s (s.modFl n f) := by
  refine ⟨fun k => ?_, fun i h => h⟩
  by_cases e : k = n
  · subst e
    by_cases hk : k < 32
    · rw [State.flume_modFl _ _ hk]
      exact hf _
    · unfold State.flume State.modFl
      rw [vget_past _ (by omega), vget_past _ (by omega)]
      exact ⟨rfl, rfl⟩
  · rw [State.flume_modFl_other _ _ e]
    exact ⟨rfl, rfl⟩

theorem raiseIf_mb (b : Bool) (src : Nat) (s : State) : KeepsMb s (raiseIf b src s) := by
  refine ⟨fun k => by rw [flume_eq k (raiseIf_fl ..)]; exact ⟨rfl, rfl⟩, fun i h => ?_⟩
  unfold raiseIf
  split
  · exact raise_raised_mono _ h
  · exact h

theorem hwSet_mb (off : Nat) (bits : U32) (s : State) : KeepsMb s (hwSet off bits s) :=
  ⟨fun k => by rw [hwSet_flume]; exact ⟨rfl, rfl⟩, fun _ h => hwSet_srcRaised off bits h⟩

theorem rcSet_srcRaised {i : Nat} (off : Nat) (b : U32) (f : U32 → U32) {s : State} (h : SrcRaised i s) :
    SrcRaised i (rcSet off b f s) := by
  unfold SrcRaised at *
  rw [rcSet_raised]
  exact h

theorem mbLand_mb (n : Nat) (second : Bool) (s : State) : KeepsMb s (mbLand n second s) := by
  unfold mbLand
  exact ⟨fun k => by rw [rcSet_flume]; exact ⟨rfl, rfl⟩, fun _ h => rcSet_srcRaised _ _ _ h⟩

theorem flFlag_mb (n b : Nat) (s : State) : KeepsMb s (flFlag n b s) := by
  unfold flFlag
  dsimp only
  refine .trans (modFl_mb n _ ?_ s) ((hwSet_mb ..).trans (raiseIf_mb ..))
  exact fun _ => ⟨rfl, rfl⟩

theorem schedule_mb (s : State) (fc rank : Nat) (a : Act) : KeepsMb s (schedule s fc rank a) :=
  .of (.refl s) (schedule_only ..).fl (schedule_only ..).tur

theorem boundary_mb (n : Nat) (s : State) : KeepsMb s (boundary n s) := by
  unfold boundary
  extract_lets f t per s1 s2
  have h1 : KeepsMb s s1 := .ite (modFl_mb n _ (by exact fun _ => ⟨rfl, rfl⟩) s) (flFlag_mb ..)
  have h2 : KeepsMb s s2 := h1.trans (modFl_mb n _ (by exact fun _ => ⟨rfl, rfl⟩) s1)
  exact .ite (h2.trans (schedule_mb ..)) h2

theorem withBoundary_mb (n : Nat) (s : State) : KeepsMb s (withBoundary n s) := by
  unfold withBoundary
  exact .ite (boundary_mb ..) (.refl s)

theorem finish_mb (n : Nat) (v : Int) (a b : Nat) (s : State) : KeepsMb s (finish n v a b s) := by
  unfold finish
  dsimp only
  split
  · exact schedule_mb ..
  · exact (schedule_mb ..).trans (schedule_mb ..)

theorem crossing_mb (n : Nat) (x : BitVec 24) (s : State) : KeepsMb s (crossing n x s) := by
  unfold crossing
  dsimp only
  split
  · exact .ite ((modFl_mb n _ (by exact fun _ => ⟨rfl, rfl⟩) s).trans (finish_mb ..)) (modFl_mb n _ (by exact fun _ => ⟨rfl, rfl⟩) s)
  · refine .ite (.trans (.of (.refl s) ?_ ?_) ((modFl_mb n _ (by exact fun _ => ⟨rfl, rfl⟩) _).trans (finish_mb ..))) (modFl_mb n _ (by exact fun _ => ⟨rfl, rfl⟩) s)
    all_goals rfl

theorem sample1_mb (n : Nat) (x : BitVec 24) (s : State) : KeepsMb s (sample1 n x s) := by
  unfold sample1
  dsimp only
  refine (withBoundary_mb n s).trans (.ite ?_ (.refl _))
  split
  · exact .ite (.ite (flFlag_mb ..) ((modFl_mb n _ (by exact fun _ => ⟨rfl, rfl⟩) _).trans (schedule_mb ..))) (.refl _)
  · exact .ite (.refl _) (crossing_mb ..)
  · exact .refl _

theorem capture_mb (n : Nat) (s : State) : KeepsMb s (capture n s) := by
  refine ⟨fun k => by rw [flume_eq k (capture_only ..).fl]; exact ⟨rfl, rfl⟩, fun i h => ?_⟩
  unfold capture
  dsimp only
  split
  · exact h
  · have k : SrcRaised i (if (s.timer n).capf then tmrSet n 0x20 (s.modTmr n fun t =>
        { putCapture t.cntPrev t with capEv := false, capAt := s.clk.fc + 1, capOld := t.cap, capfOld := t.capf, capovOld := t.capov })
      else s.modTmr n fun t =>
        { putCapture t.cntPrev t with capEv := false, capAt := s.clk.fc + 1, capOld := t.cap, capfOld := t.capf, capovOld := t.capov }) := by
      split
      · exact hwSet_srcRaised _ _ h
      · exact h
    split
    · exact raiseData_raised_mono _ _ k
    · exact k

/-- A sample on port p reaches the first mailbox of flume n if that selects it, and no other. -/
theorem flumeSample_mb (n p : Nat) (x : BitVec 24) (tag : BitVec 4) (s : State) (hn : n < 32) :
    (∀ k, ((flumeSample n p x tag s).flume k).port1 = (s.flume k).port1 ∧ ((flumeSample n p x tag s).flume k).mb1 =
      if k = n ∧ (s.flume n).port1.toNat = p then mailbox (s.flume n).mb1 x tag else (s.flume k).mb1) ∧
    ∀ i, SrcRaised i s → SrcRaised i (flumeSample n p x tag s) := by
  unfold flumeSample
  extract_lets f s1 s2
  have h1 : (∀ k, (s1.flume k).port1 = (s.flume k).port1 ∧ (s1.flume k).mb1 =
      if k = n ∧ (s.flume n).port1.toNat = p then mailbox (s.flume n).mb1 x tag else (s.flume k).mb1) ∧
      ∀ i, SrcRaised i s → SrcRaised i s1 := by
    by_cases h : f.port1.toNat = p
    · have e : s1 = (mbLand n false s).modFl n (fun f => { f with mb1 := mailbox f.mb1 x tag, mbt := fd s.clk.gauge 0 32 }) := if_pos h
      have hl : ∀ k, (mbLand n false s).flume k = s.flume k := fun k => rcSet_flume ..
      rw [e]
      refine ⟨fun k => ?_, fun i h => (mbLand_mb n false s).up i h⟩
      by_cases e : k = n
      · subst e
        rw [State.flume_modFl _ _ hn, if_pos ⟨rfl, h⟩, hl]
        exact ⟨rfl, rfl⟩
      · rw [State.flume_modFl_other _ _ e, if_neg (fun hh => e hh.1), hl]
        exact ⟨rfl, rfl⟩
    · have e : s1 = s := if_neg h
      rw [e]
      exact ⟨fun k => ⟨rfl, by rw [if_neg (fun hh => h hh.2)]⟩, fun i h => h⟩
  have h2 : KeepsMb s1 s2 := by
    refine .ite ((mbLand_mb n true s1).trans (modFl_mb n _ ?_ _)) (.refl s1)
    exact fun _ => ⟨rfl, rfl⟩
  have h3 : KeepsMb s1 (if f.port1.toNat = p then sample1 n x s2 else s2) := .ite (h2.trans (sample1_mb ..)) h2
  exact ⟨fun k => ⟨(h3.mb k).2.trans (h1.1 k).1, (h3.mb k).1.trans (h1.1 k).2⟩, fun i a => h3.up i (h1.2 i a)⟩

/-- A sample on port p reaches the first mailbox of each of the flumes 0 to m - 1 that selects it. -/
theorem flumeSamples_mb (p : Nat) (x : BitVec 24) (tag : BitVec 4) (s : State) : ∀ m, m ≤ 32 →
    (∀ k, ((s.each m (fun s k => flumeSample k p x tag s)).flume k).port1 = (s.flume k).port1 ∧
      ((s.each m (fun s k => flumeSample k p x tag s)).flume k).mb1 =
        if k < m ∧ (s.flume k).port1.toNat = p then mailbox (s.flume k).mb1 x tag else (s.flume k).mb1) ∧
    ∀ i, SrcRaised i s → SrcRaised i (s.each m (fun s k => flumeSample k p x tag s))
  | 0, _ => ⟨fun k => ⟨rfl, by rw [if_neg (by omega)]; rfl⟩, fun _ h => h⟩
  | m + 1, hm => by
    have ih := flumeSamples_mb p x tag s m (by omega)
    have e : s.each (m + 1) (fun s k => flumeSample k p x tag s) =
        flumeSample m p x tag (s.each m (fun s k => flumeSample k p x tag s)) := by
      unfold State.each
      rw [List.range_succ, List.foldl_append]
      rfl
    rw [e]
    have st := flumeSample_mb m p x tag (s.each m (fun s k => flumeSample k p x tag s)) (by omega)
    refine ⟨fun k => ⟨(st.1 k).1.trans (ih.1 k).1, (st.1 k).2.trans ?_⟩, fun i h => st.2 i (ih.2 i h)⟩
    rw [(ih.1 m).1, (ih.1 m).2, (ih.1 k).2]
    by_cases hk : k = m
    · subst hk
      rw [if_neg (show ¬(k < k ∧ (s.flume k).port1.toNat = p) by omega)]
      by_cases hp : (s.flume k).port1.toNat = p
      · rw [if_pos ⟨rfl, hp⟩, if_pos ⟨by omega, hp⟩]
      · rw [if_neg (fun h => hp h.2), if_neg (fun h => hp h.2)]
    · rw [if_neg (fun h => hk h.1)]
      by_cases hp : k < m ∧ (s.flume k).port1.toNat = p
      · rw [if_pos hp, if_pos ⟨by omega, hp.2⟩]
      · rw [if_neg hp, if_neg (fun h => hp ⟨by omega, h.2⟩)]

theorem netFlag_raised (b : Bool) (i : Nat) (s : State) : (netFlag b i s).tur.raised = s.tur.raised := hwSetIf_raised ..

theorem dropFrame_raised (s : State) : (dropFrame s).tur.raised = s.tur.raised := rcSet_raised ..

/-- A frame that sets out raises no source. -/
theorem originate_raised (f : Frame) (cmd : Option Nat) (s : State) : (originate f cmd s).tur.raised = s.tur.raised := by
  have fold : ∀ (f : Frame) (L : List Nat) (x : State), (L.foldl (fun s p => queueFrame p f none s) x).tur = x.tur := by
    intro f L
    induction L with
    | nil => exact fun _ => rfl
    | cons a L ih => exact fun x => ih (queueFrame a f none x)
  unfold originate
  split
  · unfold forward
    split
    · rw [fold]
      rfl
    · split
      · rfl
      · split
        · rfl
        · rw [dropFrame_raised, netFlag_raised]
  · rfl

theorem publish_raised (p : Nat) (x : BitVec 24) (tag : BitVec 4) (s : State) : (publish p x tag s).tur.raised = s.tur.raised := by
  unfold publish State.each
  refine foldl_stays (fun y : State => y.tur.raised = s.tur.raised) (fun y i hy => ?_) _ _ rfl
  exact ite_both _ (P := fun z : State => z.tur.raised = s.tur.raised)
    (ite_both _ (P := fun z : State => z.tur.raised = s.tur.raised) ((originate_raised ..).trans hy) hy) hy

theorem publish_srcRaised {i p : Nat} {x : BitVec 24} {tag : BitVec 4} {s : State} (h : SrcRaised i s) :
    SrcRaised i (publish p x tag s) := by
  unfold SrcRaised at *
  rw [publish_raised]
  exact h

/-- A sample that lands on port n is in the first mailbox of every flume whose PORT1 is n (R195), and raises source n
(R49). -/
theorem landSample_mb (n : Nat) (x : BitVec 24) (tag : BitVec 4) (s : State) :
    (∀ k, k < 32 → ((landSample n x tag s).flume k).mb1 =
      if (s.flume k).port1.toNat = n then mailbox (s.flume k).mb1 x tag else (s.flume k).mb1) ∧
    SrcRaised n (landSample n x tag s) ∧
    (landSample n x tag s).ports.landed = setBit s.ports.landed n true ∧
    (landSample n x tag s).ports.smpSeen = setBit s.ports.smpSeen n true := by
  unfold landSample
  extract_lets ps s1 s2 s3 s4
  have h2 : ∀ k, s2.flume k = s.flume k := fun k => (flume_eq k (raiseData_fl ..)).trans (hwSet_flume ..)
  have r2 : SrcRaised n s2 := (raiseData_raised ..).raised
  have h3 := flumeSamples_mb n x tag s2 32 (by omega)
  have h4 : KeepsMb s3 s4 := by
    refine KeepsMb.foldl (fun u k => ?_) _ _
    dsimp only
    exact .ite (capture_mb ..) (.refl u)
  have o3 : Only [.tur, .fl, .due, .free, .tmr, .out, .link, .seq, .mem] s2 s3 := .each (fun u k => .mono (flumeSample_only ..)) _ _
  have o4 : Only [.tur, .tmr] s3 s4 := .each (fun u k => by
    dsimp only
    exact .ite (capture_only ..) (.refl _ _)) _ _
  have op : (publish n x tag s4).ports = s1.ports := by
    rw [(publish_only ..).ports, o4.ports, o3.ports]
    exact raiseData_ports ..
  have sp : s1.ports = { s.ports with landed := setBit s.ports.landed n true, smpSeen := setBit s.ports.smpSeen n true } :=
    hwSet_ports ..
  refine ⟨fun k hk => ?_, ?_, (congrArg Ports.landed (op.trans sp)), (congrArg Ports.smpSeen (op.trans sp))⟩
  · rw [flume_eq k (publish_only ..).fl, (h4.mb k).1, (h3.1 k).2, h2 k]
    by_cases hp : (s.flume k).port1.toNat = n
    · rw [if_pos ⟨hk, hp⟩, if_pos hp]
    · rw [if_neg (fun h => hp h.2), if_neg hp]
  · exact publish_srcRaised (h4.up n (h3.2 n r2))

end Sys2Proof.Machine
end

