-- ==== Sys2Proof/Laws/Issue.lean ====
section
/-! SUPPORT. What the issue of a word leaves in the thread that issues it. -/

namespace Sys2Proof.Machine

/-- Results that land change the registers, the accumulators, SAT, SCF, FMAX and what is owed, nothing else of a
context. -/
theorem landWhere_eq (p : PendWrite → Bool) (c : Ctx) : landWhere p c = { c with
    g := (landWhere p c).g, a := (landWhere p c).a, sat := (landWhere p c).sat, scf := (landWhere p c).scf
    fmax := (landWhere p c).fmax, pw := (landWhere p c).pw } := by
  have one : ∀ (c : Ctx) (q : PendWrite), landOne c q = { c with
      g := (landOne c q).g, a := (landOne c q).a, sat := (landOne c q).sat, scf := (landOne c q).scf
      fmax := (landOne c q).fmax, pw := (landOne c q).pw } := by
    intro c q
    unfold landOne
    split <;> rfl
  have all : ∀ (l : List PendWrite) (c : Ctx), l.foldl landOne c = { c with
      g := (l.foldl landOne c).g, a := (l.foldl landOne c).a, sat := (l.foldl landOne c).sat
      scf := (l.foldl landOne c).scf, fmax := (l.foldl landOne c).fmax, pw := (l.foldl landOne c).pw } := by
    intro l
    induction l with
    | nil => intro c; rfl
    | cons q l ih =>
      intro c
      rw [List.foldl_cons, ih, one c q]
  unfold landWhere
  dsimp only
  rw [all]

/-- Nothing lands where nothing is hit. -/
theorem landWhere_none {p : PendWrite → Bool} {c : Ctx} (h : ∀ q ∈ c.pw, p q = false) : landWhere p c = c := by
  unfold landWhere
  have h1 : c.pw.filter p = [] := List.filter_eq_nil_iff.mpr fun q hq => by simp [h q hq]
  have h2 : c.pw.filter (fun q => !p q) = c.pw := List.filter_eq_self.mpr fun q hq => by simp [h q hq]
  dsimp only
  rw [h1, h2]
  rfl

theorem foldl_raise_only (l : List Nat) (s : State) : Only [.tur] s (l.foldl (fun s i => raise (434 + i) s) s) :=
  .foldl (fun _ _ => raise_only ..) l s

theorem applyRet_stopReq {n : Nat} (hn : n < 16) (s : State) : ((applyRet n s).thr n).stopReq = (s.thr n).stopReq := by
  have hfr : ∀ x : State, ((wdogFreeze x).thr n) = x.thr n := fun x => by
    unfold State.thr; rw [(wdogFreeze_only ..).seq]
  have hls : ∀ x : State, ((leaveSafe n x).thr n).stopReq = (x.thr n).stopReq := fun x => by
    unfold leaveSafe
    dsimp only
    split
    · show ((x.modThr n _).thr n).stopReq = _
      rw [State.thr_modThr x _ hn]
    · rw [State.thr_modThr x _ hn]
  have hes : ∀ (d : Nat) (x : State), (endServices n d x).thr n = x.thr n := fun d x => by
    unfold State.thr
    rw [(endServices_only ..).seq]
  have hm : ∀ (x : State) (f : Thread → Thread), (∀ t, (f t).stopReq = t.stopReq) →
      ((x.modThr n f).thr n).stopReq = (x.thr n).stopReq := fun x f hf => by
    rw [State.thr_modThr _ _ hn, hf]
  unfold applyRet
  dsimp only
  split
  · split
    · rw [hls]
      refine Eq.trans (hm _ _ ?_) (hm _ _ ?_) <;> intro t <;> rfl
    · split
      · rw [hfr]
        refine Eq.trans (hm _ _ ?_) (hm _ _ ?_) <;> intro t <;> rfl
      · rw [hes]
        refine Eq.trans (hm _ _ ?_) (hm _ _ ?_) <;> intro t
        all_goals first | rfl | (split <;> rfl)
  · rfl

theorem atIssue_seq (s : State) (n : Nat) (w : U32) : (atIssue s n w).seq = (applyRet n s).seq :=
  (foldl_raise_only ..).seq

theorem atIssue_thr (s : State) (n : Nat) (w : U32) : (atIssue s n w).thr n = (applyRet n s).thr n := by
  unfold State.thr
  rw [atIssue_seq]

/-- A control word that issues does what `runControl` says. -/
theorem issue_control {s : State} {n r : Nat} {w : U32} (h : Issues s n w) (ho : isOp w = false) (hr : rowOf w = r) :
    issue n (some r) s = runControl n w (atIssue s n w) := by
  unfold issue
  rw [if_neg (by simp [h.turn])]
  dsimp only
  rw [h.word, if_neg (by simp [hr])]
  have hc := h.clear
  unfold atIssue
  generalize wordStop (applyRet n s) n w = p at hc ⊢
  obtain ⟨ev, st⟩ := p
  subst hc
  dsimp only
  rw [if_neg (by simp), if_neg (by simp [ho])]

/-- An operation word that issues does what `runOp` says. -/
theorem issue_op {s : State} {n : Nat} {w : U32} (h : Issues s n w) (ho : isOp w = true) :
    issue n (some 16) s = finishWord n false
      (wordPlace ((opOf (applyRet n s) n w).acts (applyRet n s)) (opOf (applyRet n s) n w))
      (runOp n (opOf (applyRet n s) n w)) (atIssue s n w) := by
  unfold issue
  rw [if_neg (by simp [h.turn])]
  dsimp only
  rw [h.word, if_neg (by simp [rowOf, ho])]
  have hc := h.clear
  unfold atIssue
  generalize wordStop (applyRet n s) n w = p at hc ⊢
  obtain ⟨ev, st⟩ := p
  subst hc
  dsimp only
  rw [if_neg (by simp), if_pos ho]

/-- What every issued word leaves in its thread, when no stop is asked for (R214, R217, R255, R286). -/
theorem finishWord_thr {n : Nat} (hn : n < 16) (isPrefix : Bool) (place : Ctx → Ctx) {f : State → State} {s : State} {x : Thread}
    (hx : (f { s with free := s.free + 4096 }).thr n = x) (hs : x.stopReq = false) :
    (finishWord n isPrefix place f s).thr n = { x with
      ctx := afterCtx place { landWhere (fun p => p.safe && decide (p.word < x.words)) { x.ctx with mask := (s.thr n).ctx.mask }
        with mask := x.ctx.mask }
      issue := x.issue + 1, words := x.words + 1
      passOver := x.passOver && isPrefix
      stepWords := if x.stepWords = 0 then 0 else x.stepWords + 1 } := by
  unfold finishWord
  dsimp only
  generalize f { s with free := s.free + 4096 } = u at hx ⊢
  have key : ∀ y : State, (y.thr n).stopReq = false → (stopIfAsked n y).thr n = y.thr n := by
    intro y hy
    unfold stopIfAsked
    dsimp only
    rw [hy, if_neg (by simp)]
  have hc : ((counted n isPrefix (u.modCtx n fun c => { c with mask := (s.thr n).ctx.mask })).thr n) = { x with
      ctx := landWhere (fun p => p.safe && decide (p.word < x.words)) { x.ctx with mask := (s.thr n).ctx.mask }
      issue := x.issue + 1, words := x.words + 1
      passOver := x.passOver && isPrefix
      stepWords := if x.stepWords = 0 then 0 else x.stepWords + 1 } := by
    unfold counted
    dsimp only
    rw [State.thr_modThr _ _ hn]
    have e : ∀ y : State, ∀ q : Seq, ({ y with seq := q } : State).thr n = vget q.thr n {} := fun _ _ => rfl
    rw [e]
    show _ = _
    have e2 : vget (u.modCtx n fun c => { c with mask := (s.thr n).ctx.mask }).seq.thr n {} =
        { x with ctx := { x.ctx with mask := (s.thr n).ctx.mask } } := by
      show (u.modCtx n _).thr n = _
      unfold State.modCtx
      rw [State.thr_modThr _ _ hn, hx]
    rw [e2]
  have hs1 : ∀ (y : State) (g : Ctx → Ctx), ((y.modCtx n g).thr n) = { y.thr n with ctx := g (y.thr n).ctx } := by
    intro y g
    unfold State.modCtx
    rw [State.thr_modThr _ _ hn]
  rw [key _ (by rw [hs1, hs1, hc]; exact hs), hs1, hs1, hc]
  have hm : ((u.thr n).ctx.mask) = x.ctx.mask := by rw [hx]
  rw [hm]

theorem finishWord_id_thr {n : Nat} (hn : n < 16) (isPrefix : Bool) (place : Ctx → Ctx) {s : State}
    (hs : (s.thr n).stopReq = false) :
    (finishWord n isPrefix place id s).thr n = { s.thr n with
      ctx := afterCtx place (landWhere (fun p => p.safe && decide (p.word < (s.thr n).words)) (s.thr n).ctx)
      issue := (s.thr n).issue + 1, words := (s.thr n).words + 1
      passOver := (s.thr n).passOver && isPrefix
      stepWords := if (s.thr n).stepWords = 0 then 0 else (s.thr n).stepWords + 1 } := by
  rw [finishWord_thr hn isPrefix place (f := id) (x := s.thr n) rfl hs]
  rw [landWhere_eq]

/-! ## Stores and pushes of a word -/

theorem dropResv_thr {n : Nat} (hn : n < 16) (host : Bool) (g : Nat) (s : State) :
    (dropResv host g s).thr n = { s.thr n with
      ctx := { (s.thr n).ctx with resv := ((dropResv host g s).thr n).ctx.resv } } := by
  have e : (dropResv host g s).thr n = (match (s.thr n).ctx.resv with
      | some r => if r.host = host && r.granule.toNat = g then { s.thr n with ctx := { (s.thr n).ctx with resv := none } }
        else s.thr n
      | none => s.thr n) := by
    unfold dropResv State.thr
    dsimp only
    exact (vget_vmap s.seq.thr hn _ {} _).trans rfl
  rw [e]
  split
  · split <;> rfl
  · rfl

theorem dropResv_none {n : Nat} (hn : n < 16) (host : Bool) (g : Nat) {s : State} (h : (s.thr n).ctx.resv = none) :
    ((dropResv host g s).thr n).ctx.resv = none := by
  unfold dropResv State.thr
  dsimp only
  rw [vget_vmap _ hn _ {}]
  unfold State.thr at h
  rw [h]
  exact h

theorem storeThread_thr {n : Nat} (hn : n < 16) (a : Nat) (l : List Byte) (s : State) :
    (storeThread a l s).thr n = { s.thr n with
      ctx := { (s.thr n).ctx with resv := ((storeThread a l s).thr n).ctx.resv } } :=
  dropResv_thr hn false (a / 16) s

theorem storeThread_none {n : Nat} (hn : n < 16) (a : Nat) (l : List Byte) {s : State} (h : (s.thr n).ctx.resv = none) :
    ((storeThread a l s).thr n).ctx.resv = none := dropResv_none hn false (a / 16) h

theorem storeThread_data (a : Nat) (l : List Byte) (s : State) :
    (storeThread a l s).mem.data = memWrite s.mem.data a l := rfl

theorem thr_modCtx {n : Nat} (hn : n < 16) (s : State) (f : Ctx → Ctx) :
    (s.modCtx n f).thr n = { s.thr n with ctx := f (s.thr n).ctx } := by
  unfold State.modCtx
  rw [State.thr_modThr _ _ hn]

/-- A push: the return address on top of the stack, whose eight oldest entries it spills when it is full (R226, R233). -/
theorem pushRet_thr {n : Nat} (hn : n < 16) (a : U16) (s : State) :
    (pushRet n a s).thr n = { s.thr n with
      ctx := { (s.thr n).ctx with
        hw := (if needsSpill (s.thr n).ctx then (s.thr n).ctx.hw.drop 8 else (s.thr n).ctx.hw) ++ [a]
        rsp := if needsSpill (s.thr n).ctx then (s.thr n).ctx.rsp + 1 else (s.thr n).ctx.rsp
        resv := ((pushRet n a s).thr n).ctx.resv } } := by
  unfold pushRet
  dsimp only
  split
  · rw [thr_modCtx hn, thr_modCtx hn, storeThread_thr hn]
  · rw [thr_modCtx hn]

theorem parkStack_thr {n : Nat} (hn : n < 16) (slow : Bool) (s : State) :
    (parkStack slow n s).thr n = { s.thr n with run := ((parkStack slow n s).thr n).run } := by
  unfold parkStack
  split
  · rw [State.thr_modThr _ _ hn]
  · rfl

theorem mem_insPw (p : PendWrite) : ∀ l, p ∈ insPw p l
  | [] => List.mem_singleton.mpr rfl
  | q :: t => by
    unfold insPw
    split
    · exact List.mem_cons_of_mem _ (mem_insPw p t)
    · exact List.mem_cons_self

/-! ## The place of a word -/

@[simp] theorem modeStep_g (c : Ctx) : (modeStep c).g = c.g := by
  unfold modeStep; split
  · rfl
  · split <;> rfl

@[simp] theorem modeStep_a (c : Ctx) : (modeStep c).a = c.a := by
  unfold modeStep; split
  · rfl
  · split <;> rfl

@[simp] theorem modeStep_sat (c : Ctx) : (modeStep c).sat = c.sat := by
  unfold modeStep; split
  · rfl
  · split <;> rfl

@[simp] theorem modeStep_nzcv (c : Ctx) : (modeStep c).nzcv = c.nzcv := by
  unfold modeStep; split
  · rfl
  · split <;> rfl

@[simp] theorem modeStep_fmax (c : Ctx) : (modeStep c).fmax = c.fmax := by
  unfold modeStep; split
  · rfl
  · split <;> rfl

@[simp] theorem modeStep_scf (c : Ctx) : (modeStep c).scf = c.scf := by
  unfold modeStep; split
  · rfl
  · split <;> rfl

@[simp] theorem modeStep_wto (c : Ctx) : (modeStep c).wto = c.wto := by
  unfold modeStep; split
  · rfl
  · split <;> rfl

@[simp] theorem modeStep_pc (c : Ctx) : (modeStep c).pc = c.pc := by
  unfold modeStep; split
  · rfl
  · split <;> rfl

@[simp] theorem modeStep_hw (c : Ctx) : (modeStep c).hw = c.hw := by
  unfold modeStep; split
  · rfl
  · split <;> rfl

@[simp] theorem modeStep_rsp (c : Ctx) : (modeStep c).rsp = c.rsp := by
  unfold modeStep; split
  · rfl
  · split <;> rfl

@[simp] theorem modeStep_rslo (c : Ctx) : (modeStep c).rslo = c.rslo := by
  unfold modeStep; split
  · rfl
  · split <;> rfl

@[simp] theorem modeStep_rshi (c : Ctx) : (modeStep c).rshi = c.rshi := by
  unfold modeStep; split
  · rfl
  · split <;> rfl

@[simp] theorem modeStep_dsl (c : Ctx) : (modeStep c).dsl = c.dsl := by
  unfold modeStep; split
  · rfl
  · split <;> rfl

@[simp] theorem modeStep_ds (c : Ctx) : (modeStep c).ds = c.ds := by
  unfold modeStep; split
  · rfl
  · split <;> rfl

@[simp] theorem modeStep_rep (c : Ctx) : (modeStep c).rep = c.rep := by
  unfold modeStep; split
  · rfl
  · split <;> rfl

@[simp] theorem modeStep_prog (c : Ctx) : (modeStep c).prog = c.prog := by
  unfold modeStep; split
  · rfl
  · split <;> rfl

@[simp] theorem modeStep_long (c : Ctx) : (modeStep c).long = c.long := by
  unfold modeStep; split
  · rfl
  · split <;> rfl

@[simp] theorem modeStep_resume (c : Ctx) : (modeStep c).resume = c.resume := by
  unfold modeStep; split
  · rfl
  · split <;> rfl

@[simp] theorem modeStep_ret (c : Ctx) : (modeStep c).ret = c.ret := by
  unfold modeStep; split
  · rfl
  · split <;> rfl

@[simp] theorem modeStep_resv (c : Ctx) : (modeStep c).resv = c.resv := by
  unfold modeStep; split
  · rfl
  · split <;> rfl

@[simp] theorem modeStep_pw (c : Ctx) : (modeStep c).pw = c.pw := by
  unfold modeStep; split
  · rfl
  · split <;> rfl

@[simp] theorem modeStep_prod (c : Ctx) : (modeStep c).prod = c.prod := by
  unfold modeStep; split
  · rfl
  · split <;> rfl

/-- What an issued word leaves in its thread, with the landed results named (R255). -/
theorem finishWord_flow {n : Nat} (hn : n < 16) (isPrefix : Bool) (place : Ctx → Ctx) (f : State → State) (s : State)
    {x : Thread} (hx : (f { s with free := s.free + 4096 }).thr n = x) (hs : x.stopReq = false) :
    ∃ g a sat scf fmax pw, (finishWord n isPrefix place f s).thr n = { x with
      ctx := modeStep { place { x.ctx with g := g, a := a, sat := sat, scf := scf, fmax := fmax, pw := pw } with resume := 0 }
      issue := x.issue + 1, words := x.words + 1
      passOver := x.passOver && isPrefix
      stepWords := if x.stepWords = 0 then 0 else x.stepWords + 1 } := by
  rw [finishWord_thr hn isPrefix place hx hs]
  exact ⟨_, _, _, _, _, _, by unfold afterCtx; rw [landWhere_eq]⟩

/-! ## Results of LR and SC, and memory -/

/-- A word's place and the landing of safe mode leave memory as the word's own units leave it. -/
theorem finishWord_mem (n : Nat) (isPrefix : Bool) (place : Ctx → Ctx) (f : State → State) (s : State) :
    (finishWord n isPrefix place f s).mem = (f { s with free := s.free + 4096 }).mem := by
  unfold finishWord
  dsimp only
  rw [(stopIfAsked_only ..).mem, (State.modCtx_only ..).mem, (State.modCtx_only ..).mem, (counted_only ..).mem, (State.modCtx_only ..).mem]

theorem landWhere_pw (p : PendWrite → Bool) (c : Ctx) : (landWhere p c).pw = c.pw.filter (fun q => !p q) := by
  have one : ∀ (c : Ctx) (q : PendWrite), (landOne c q).pw = c.pw := by
    intro c q
    unfold landOne
    split <;> rfl
  have all : ∀ (l : List PendWrite) (c : Ctx), (l.foldl landOne c).pw = c.pw := by
    intro l
    induction l with
    | nil => intro c; rfl
    | cons q l ih => intro c; rw [List.foldl_cons, ih, one]
  unfold landWhere
  dsimp only
  rw [all]

theorem mem_insPw_of (p q : PendWrite) : ∀ l, q ∈ l → q ∈ insPw p l
  | [], h => by cases h
  | r :: t, h => by
    unfold insPw
    split
    · rcases List.mem_cons.mp h with h | h
      · exact List.mem_cons.mpr (.inl h)
      · exact List.mem_cons_of_mem _ (mem_insPw_of p q t h)
    · exact List.mem_cons_of_mem _ h

/-- The place of a word depends on pc, slot and repeat only, and changes no other flow but the return it is the slot of. -/
theorem nextPc_eq (c : Ctx) (g : Vector U32 32) (a : Vector U80 4) (sat : BitVec 4) (scf fmax : Bool) (pw : List PendWrite) :
    nextPc { c with g := g, a := a, sat := sat, scf := scf, fmax := fmax, pw := pw } =
      { nextPc c with g := g, a := a, sat := sat, scf := scf, fmax := fmax, pw := pw } := by
  unfold nextPc
  dsimp only
  split
  · rfl
  · split
    · split <;> rfl
    · rfl

theorem nextPc_pw (c : Ctx) : (nextPc c).pw = c.pw := by
  unfold nextPc
  split
  · rfl
  · split
    · split <;> rfl
    · rfl

theorem nextPc_resv (c : Ctx) : (nextPc c).resv = c.resv := by
  unfold nextPc
  split
  · rfl
  · split
    · split <;> rfl
    · rfl

/-- What an issued word that goes on to the next place leaves in its thread. -/
theorem finishWord_next {n : Nat} (hn : n < 16) (isPrefix : Bool) (f : State → State) (s : State)
    {x : Thread} (hx : (f { s with free := s.free + 4096 }).thr n = x) (hs : x.stopReq = false) :
    ∃ y, (finishWord n isPrefix nextPc f s).thr n = y ∧ y.run = x.run ∧ y.before = x.before ∧ y.issue = x.issue + 1 ∧
      y.ctx.pc = (nextPc x.ctx).pc ∧ y.ctx.resv = x.ctx.resv ∧ y.ctx.hw = (nextPc x.ctx).hw ∧
      (∀ p ∈ x.ctx.pw, p.safe = false → p ∈ y.ctx.pw) ∧
      (∀ p ∈ x.ctx.pw, x.words ≤ p.word → p ∈ y.ctx.pw) := by
  refine ⟨_, finishWord_thr hn isPrefix nextPc hx hs, rfl, rfl, rfl, ?_, ?_, ?_, ?_, ?_⟩
  · dsimp only; unfold afterCtx; rw [modeStep_pc, landWhere_eq]; dsimp only
    rw [nextPc_eq]
  · dsimp only; unfold afterCtx; rw [modeStep_resv, landWhere_eq]; dsimp only
    rw [nextPc_resv]
  · dsimp only; unfold afterCtx; rw [modeStep_hw, landWhere_eq]; dsimp only
    rw [nextPc_eq]
  · intro p hp hq
    dsimp only; unfold afterCtx; rw [modeStep_pw]; dsimp only; rw [nextPc_pw]; dsimp only; rw [landWhere_pw]
    exact List.mem_filter.mpr ⟨hp, by simp [hq]⟩
  · intro p hp hq
    dsimp only; unfold afterCtx; rw [modeStep_pw]; dsimp only; rw [nextPc_pw]; dsimp only; rw [landWhere_pw]
    exact List.mem_filter.mpr ⟨hp, by simp; omega⟩

theorem atomicResult_thr {n : Nat} (hn : n < 16) (dst : BitVec 5) (v : U32) {s : State} (h : (s.thr n).safe = false) :
    (atomicResult n dst v false s).thr n = { s.thr n with ctx := { (s.thr n).ctx with
      pw := insPw { what := .g dst v, due := s.clk.fc + 3 - 1, word := (s.thr n).words, safe := false } (s.thr n).ctx.pw
      prod := (produce (s.thr n).words 3 (.g dst) (s.thr n).ctx).prod } } := by
  unfold atomicResult
  dsimp only
  rw [thr_modCtx hn, h, if_neg Bool.false_ne_true]
  unfold oweAt
  rw [if_neg Bool.false_ne_true]
  dsimp only
  rw [h]
  rfl

/-- SC's answer: DST and SCF are owed (R247, R269). -/
theorem scAnswer_thr {n : Nat} (hn : n < 16) (dst : BitVec 5) (fail : Bool) {s : State} (h : (s.thr n).safe = false) :
    ∃ pr, (scAnswer n dst fail s).thr n = { s.thr n with ctx := { (s.thr n).ctx with
      pw := insPw { what := .scf fail, due := s.clk.fc + 3 - 1, word := (s.thr n).words, safe := false }
        (insPw { what := .g dst (if fail then 1 else 0), due := s.clk.fc + 3 - 1, word := (s.thr n).words, safe := false }
          (s.thr n).ctx.pw)
      prod := pr } } := by
  unfold scAnswer
  dsimp only
  rw [thr_modCtx hn, atomicResult_thr hn dst _ h, h]
  unfold oweAt
  rw [if_neg Bool.false_ne_true]
  refine ⟨(produce (s.thr n).words 3 .scf (produce (s.thr n).words 3 (.g dst) (s.thr n).ctx)).prod, ?_⟩
  dsimp only
  rw [h]
  rfl

/-! ## Entries -/

/-- A held entry leaves its thread as it is but for the fc of its first word (R235, R375). -/
theorem holdEntry_thr {n : Nat} (hn : n < 16) (wait : Nat) (spills : Bool) (s : State) :
    (holdEntry n wait spills s).thr n = { s.thr n with
      run := if spills then .parked (.until (s.clk.fc + wait + 2)) else .ready
      holdUntil := if spills then s.clk.fc + wait + 2 else s.clk.fc + wait } := by
  unfold holdEntry
  dsimp only
  rw [State.thr_modThr _ _ hn]
  cases spills <;> rfl

/-- What an entry without escalation leaves in its thread (R375, R376). -/
theorem tableEntry_thr {n : Nat} (hn : n < 16) {isFault : Bool} {e : Escalation} {s t : State}
    (h : tableEntry n isFault e s = some t) :
    (t.thr n).xvec = e.vec ∧ (t.thr n).xpc = e.xpc ∧ (t.thr n).xaddr = e.xaddr ∧ (t.thr n).depth = (s.thr n).depth + 1 ∧
      (t.thr n).ctx.pc = fd (descriptor s e.vec) 0 16 ∧ (t.thr n).ctx.priv = fd (descriptor s e.vec) 16 2 ∧
      ((t.thr n).run = .ready ∨ ∃ f, (t.thr n).run = .parked (.until f)) ∧ (t.thr n).mon = (s.thr n).mon ∧
      (t.thr n).spill = (s.thr n).spill := by
  unfold tableEntry at h
  dsimp only at h
  rw [Option.ite_none_left_eq_some] at h
  have h2 := Option.some.inj h.2
  subst h2
  rw [holdEntry_thr hn, State.thr_modThr _ _ hn]
  refine ⟨rfl, rfl, rfl, ?_, rfl, rfl, ?_, ?_, ?_⟩
  rotate_left
  · dsimp only
    generalize needsSpill _ = b
    cases b
    · exact .inl rfl
    · exact .inr ⟨_, rfl⟩
  all_goals dsimp only
  all_goals rw [storeThread_thr hn, pushRet_thr hn, thr_modCtx hn]

/-- An entry that is neither taken in the spillway nor escalates (R374). -/
theorem takeEntry_table {n : Nat} {isFault : Bool} {e : Escalation} {s t : State} (hm : (s.thr n).mon = false)
    (hs : (s.thr n).spill = false) (h : tableEntry n isFault e s = some t) : takeEntry n isFault e s = t := by
  unfold takeEntry
  rw [hm, hs, if_neg (by simp), if_neg (by simp), h]

end Sys2Proof.Machine
end

