-- ==== Sys2Proof/Laws/Memory.lean ====
section
/-! SUPPORT. Laws of the memories: a read after a write, the other places, and the canonical form. -/

namespace Sys2Proof.Machine

/-! ## Reads after writes -/

@[simp] theorem sget_sput_self {β : Type} [DecidableEq β] (d : β) (k : Nat) (x : β) :
    ∀ {l : List (Nat × β)} {lo : Nat}, swfFrom d lo l = true → sget d k (sput d k x l) = x
  | [], _, _ => by unfold sput; split <;> simp_all [sget]
  | (a, y) :: t, lo, hw => by
    simp only [swfFrom, Bool.and_eq_true, decide_eq_true_eq] at hw
    have past : ∀ {l : List (Nat × β)} {lo : Nat}, k < lo → swfFrom d lo l = true → sget d k l = d := by
      intro l
      induction l with
      | nil => intros; rfl
      | cons z t ih =>
        intro lo hk h
        obtain ⟨b, v⟩ := z
        simp only [swfFrom, Bool.and_eq_true, decide_eq_true_eq] at h
        have hb : b ≠ k := by omega
        simp only [sget, if_neg hb]
        exact ih (by omega) h.2
    unfold sput
    split
    · split
      · subst_vars
        have : a ≠ k := by omega
        simp only [sget, if_neg this]
        exact past (by omega) hw.2
      · simp [sget]
    · split
      · split
        · subst_vars; exact past (Nat.lt_succ_self _) hw.2
        · simp [sget]
      · have : a ≠ k := by omega
        simp only [sget, if_neg this]
        exact sget_sput_self d k x hw.2

@[simp] theorem sget_sput_other {β : Type} [DecidableEq β] (d : β) {j k : Nat} (x : β) (h : j ≠ k) :
    ∀ {l : List (Nat × β)}, sget d j (sput d k x l) = sget d j l
  | [] => by unfold sput; split <;> simp [sget, h.symm]
  | (a, y) :: t => by
    have hk : k ≠ j := fun e => h e.symm
    unfold sput
    split
    · split
      · rfl
      · simp [sget, hk]
    · split
      · subst_vars
        split <;> simp [sget, hk]
      · by_cases ha : a = j
        · simp [sget, ha]
        · simp only [sget, if_neg ha]
          exact sget_sput_other d x h

/-! ## The canonical form -/

theorem swfFrom_mono {β : Type} [DecidableEq β] {d : β} {lo hi : Nat} (h : lo ≤ hi) :
    ∀ {l : List (Nat × β)}, swfFrom d hi l = true → swfFrom d lo l = true
  | [], _ => rfl
  | (a, x) :: t, hw => by
    simp only [swfFrom, Bool.and_eq_true, decide_eq_true_eq] at *
    exact ⟨⟨by omega, hw.1.2⟩, hw.2⟩

theorem swfFrom_sput {β : Type} [DecidableEq β] (d : β) (k : Nat) (x : β) :
    ∀ (l : List (Nat × β)) (lo : Nat), lo ≤ k → swfFrom d lo l = true → swfFrom d lo (sput d k x l) = true
  | [], lo, hk, _ => by
    unfold sput
    split <;> simp_all [swfFrom]
  | (a, y) :: t, lo, hk, hw => by
    have h := hw
    simp only [swfFrom, Bool.and_eq_true, decide_eq_true_eq] at h
    unfold sput
    split
    · split
      · exact hw
      · rename_i hka hx
        simp only [swfFrom, Bool.and_eq_true, decide_eq_true_eq]
        exact ⟨⟨hk, hx⟩, ⟨by omega, h.1.2⟩, h.2⟩
    · split
      · split
        · exact swfFrom_mono (by omega) h.2
        · subst_vars; simp_all [swfFrom]
      · have := swfFrom_sput d k x t (a + 1) (by omega) h.2
        simp_all [swfFrom]

theorem sput_wf {β : Type} [DecidableEq β] {d : β} (k : Nat) (x : β) {l : List (Nat × β)} (h : Memory.wf d l = true) :
    Memory.wf d (sput d k x l) = true := swfFrom_sput d k x l 0 (Nat.zero_le k) h

theorem rising_mono {β : Type} {lo hi : Nat} (h : lo ≤ hi) :
    ∀ {l : List (Nat × β)}, rising hi l = true → rising lo l = true
  | [], _ => rfl
  | (a, x) :: t, hw => by
    simp only [rising, Bool.and_eq_true, decide_eq_true_eq] at *
    exact ⟨by omega, hw.2⟩

theorem rising_filter {β : Type} (p : Nat × β → Bool) :
    ∀ {l : List (Nat × β)} {lo : Nat}, rising lo l = true → rising lo (l.filter p) = true
  | [], _, _ => rfl
  | (a, x) :: t, lo, h => by
    simp only [rising, Bool.and_eq_true, decide_eq_true_eq] at h
    have ht := rising_filter p h.2
    rw [List.filter_cons]
    split
    · simp only [rising, Bool.and_eq_true, decide_eq_true_eq]
      exact ⟨h.1, ht⟩
    · exact rising_mono (by omega) ht

theorem rising_aput {β : Type} (k : Nat) (x : β) :
    ∀ {l : List (Nat × β)} {lo : Nat}, lo ≤ k → rising lo l = true → rising lo (aput k x l) = true
  | [], lo, hk, _ => by simp [aput, rising, hk]
  | (a, y) :: t, lo, hk, hw => by
    have h := hw
    simp only [rising, Bool.and_eq_true, decide_eq_true_eq] at h
    unfold aput
    split
    · simp only [rising, Bool.and_eq_true, decide_eq_true_eq]
      exact ⟨hk, by omega, h.2⟩
    · split
      · subst_vars
        simp only [rising, Bool.and_eq_true, decide_eq_true_eq]
        exact h
      · simp only [rising, Bool.and_eq_true, decide_eq_true_eq]
        exact ⟨h.1, rising_aput k x (by omega) h.2⟩

theorem aput_wf {β : Type} (k : Nat) (x : β) {l : List (Nat × β)} (h : rising 0 l = true) : rising 0 (aput k x l) = true :=
  rising_aput k x (Nat.zero_le k) h

theorem memPut_wf {m : List Host.Cell} (a : Nat) (b : Byte) (h : Memory.wf 0 m = true) : Memory.wf 0 (memPut m a b) = true :=
  sput_wf a b h

theorem memWrite_wf : ∀ (l : List Byte) (a : Nat) {m : List Host.Cell},
    Memory.wf 0 m = true → Memory.wf 0 (memWrite m a l) = true
  | [], _, _, h => h
  | b :: t, a, _, h => memWrite_wf t (a + 1) (memPut_wf a b h)

/-! ## Byte memories -/

theorem memByte_memPut_self {m : List Host.Cell} (a : Nat) (b : Byte) (h : Memory.wf 0 m = true) :
    memByte (memPut m a b) a = b := sget_sput_self 0 a b h

theorem memByte_memPut_other {m : List Host.Cell} {i a : Nat} (b : Byte) (h : i ≠ a) :
    memByte (memPut m a b) i = memByte m i := sget_sput_other 0 b h

theorem memByte_memWrite_other : ∀ (l : List Byte) {m : List Host.Cell} {i a : Nat}, (i < a ∨ a + l.length ≤ i) →
    memByte (memWrite m a l) i = memByte m i
  | [], _, _, _, _ => rfl
  | b :: t, m, i, a, h => by
    simp only [List.length_cons] at h
    unfold memWrite
    rw [memByte_memWrite_other t (by omega), memByte_memPut_other b (by omega)]

theorem memByte_memWrite : ∀ (l : List Byte) {m : List Host.Cell} (a : Nat) {i : Nat}, Memory.wf 0 m = true →
    (h : i < l.length) → memByte (memWrite m a l) (a + i) = l[i]
  | b :: t, m, a, 0, hw, _ => by
    unfold memWrite
    rw [memByte_memWrite_other t (by omega)]
    exact memByte_memPut_self a b hw
  | b :: t, m, a, i + 1, hw, h => by
    unfold memWrite
    have := memByte_memWrite t (a + 1) (i := i) (memPut_wf a b hw) (by simpa using h)
    rw [show a + (i + 1) = a + 1 + i by omega, this]
    rfl

end Sys2Proof.Machine
end

