-- ==== Sys2Proof/Laws/Threads.lean ====
section
/-! SUPPORT. What starting, stopping and resetting a thread leaves in that thread and in the others, and what loading
leaves in the slots of the Headgate and in the microstore. -/

namespace Sys2Proof.Machine

theorem thr_of_seq {s t : State} (h : t.seq = s.seq) (n : Nat) : t.thr n = s.thr n := by
  unfold State.thr
  rw [h]

theorem leaveSafe_thr {n : Nat} (hn : n < 16) (s : State) : (leaveSafe n s).thr n = { s.thr n with safe := false } := by
  unfold leaveSafe
  dsimp only
  split
  · show (s.modThr n _).thr n = _
    rw [State.thr_modThr s _ hn]
  · rw [State.thr_modThr s _ hn]

theorem leaveSafe_other {i n : Nat} (h : i ≠ n) (s : State) : (leaveSafe n s).thr i = s.thr i := by
  unfold leaveSafe
  dsimp only
  split
  · show (s.modThr n _).thr i = _
    rw [State.thr_modThr_other s _ h]
  · rw [State.thr_modThr_other s _ h]

theorem applyRet_other {i n : Nat} (h : i ≠ n) (s : State) : (applyRet n s).thr i = s.thr i := by
  unfold applyRet
  dsimp only
  split
  · split
    · rw [leaveSafe_other h]
      refine Eq.trans (State.thr_modThr_other _ _ h) ?_
      exact State.thr_modThr_other _ _ h
    · split
      · rw [thr_of_seq (wdogFreeze_only ..).seq]
        refine Eq.trans (State.thr_modThr_other _ _ h) ?_
        exact State.thr_modThr_other _ _ h
      · rw [thr_of_seq (endServices_only ..).seq]
        refine Eq.trans (State.thr_modThr_other _ _ h) ?_
        exact State.thr_modThr_other _ _ h
  · rfl

theorem stopIfAsked_other {i n : Nat} (h : i ≠ n) (s : State) : (stopIfAsked n s).thr i = s.thr i := by
  have e : ∀ (b : Bool) (x : State), x.thr i = s.thr i → (if b = true then x else s).thr i = s.thr i := by
    intro b x hx
    cases b
    · rfl
    · exact hx
  unfold stopIfAsked
  dsimp only
  exact e _ _ ((State.thr_modThr_other _ _ h).trans (applyRet_other h _))

theorem stopIfAsked_stops {n : Nat} (hn : n < 16) {s : State} (h : MayStop s n) (hr : (s.thr n).stopReq = true) :
    ((stopIfAsked n s).thr n).run = .stopped := by
  obtain ⟨h1, h2, h3⟩ := h
  unfold stopIfAsked
  dsimp only
  rw [if_pos]
  · rw [State.thr_modThr _ _ hn]
  · rw [hr, h2, h3]
    rcases h1 with ⟨h1, h4, h5⟩ | ⟨w, h1⟩
    · rw [h1, h4, decide_eq_true h5]
      rfl
    · rw [h1]
      rfl

theorem stopIfAsked_not {n : Nat} {s : State} (h : (s.thr n).stopReq = false) : stopIfAsked n s = s := by
  unfold stopIfAsked
  dsimp only
  rw [h, if_neg (by simp)]

theorem stopIfAsked_parked {n : Nat} {s : State} {p : Park} (h : (s.thr n).run = .parked p) : stopIfAsked n s = s := by
  unfold stopIfAsked
  dsimp only
  rw [h, if_neg (by simp)]

theorem resetThread_other {i n : Nat} (h : i ≠ n) (s : State) : (resetThread n s).thr i = s.thr i := by
  unfold resetThread
  dsimp only
  rw [thr_of_seq (wdogFreeze_only ..).seq, thr_of_seq (endThreadServices_only ..).seq, State.thr_modThr_other _ _ h,
    leaveSafe_other h]
  rfl

theorem resetThread_thr {n : Nat} (hn : n < 16) (s : State) :
    ((resetThread n s).thr n).run = .stopped ∧ ((resetThread n s).thr n).depth = 0 ∧
    ((resetThread n s).thr n).ctx = { clearFlow (s.thr n).ctx with
      hw := [], prod := [], pc := pcShown (s.thr n)
      pw := (clearFlow (s.thr n).ctx).pw.map (fun (p : PendWrite) => { p with safe := false }) } ∧
    ((resetThread n s).thr n).safe = false ∧ ((resetThread n s).thr n).spill = false ∧ ((resetThread n s).thr n).mon = false := by
  unfold resetThread
  dsimp only
  rw [thr_of_seq (wdogFreeze_only ..).seq, thr_of_seq (endThreadServices_only ..).seq, State.thr_modThr _ _ hn,
    leaveSafe_thr hn]
  exact ⟨rfl, rfl, rfl, rfl, rfl, rfl⟩

theorem startThread_other {p : StartParams} {i : Nat} (h : i ≠ startThreadNo p) (s : State) : (startThread p s).thr i = s.thr i := by
  unfold startThread
  dsimp only
  exact State.thr_modThr_other _ _ h

theorem startThreadNo_lt (p : StartParams) : startThreadNo p < 16 := (fd (vget p 0 0) 0 4 : BitVec 4).isLt

theorem startThread_thr (p : StartParams) (s : State) :
    (startThread p s).thr (startThreadNo p) = { s.thr (startThreadNo p) with
      maxmask := fd (vget p 0 0) 9 3, hazchk := bit (vget p 0 0) 12, run := .ready, stopReq := false
      ctx := { (s.thr (startThreadNo p)).ctx with
        priv := fd (vget p 0 0) 4 2, mask := fd (vget p 0 0) 6 3, pc := fd (vget p 1 0) 0 16
        g := vset (s.thr (startThreadNo p)).ctx.g 31 (vget p 2 0), dsl := vget p 3 0
        rslo := fd (vget p 4 0) 4 16, rsp := fd (vget p 4 0) 4 16, rshi := fd (vget p 5 0) 4 16 } } := by
  unfold startThread
  dsimp only
  exact State.thr_modThr _ _ (startThreadNo_lt p)

/-! ## Masks of threads -/

theorem bitsFrom_none {w : Nat} {f : Nat → Bool} (h : ∀ n, n < w → f n = false) : bitsFrom w f = 0 := by
  unfold bitsFrom
  have : ∀ L : List Nat, (∀ n ∈ L, n < w) → L.foldl (fun a n => if f n then a + 2 ^ n else a) 0 = 0 := by
    intro L
    induction L with
    | nil => exact fun _ => rfl
    | cons a L ih =>
      intro hl
      rw [List.foldl_cons, h a (hl a List.mem_cons_self), if_neg (by decide)]
      exact ih fun n hn => hl n (List.mem_cons_of_mem _ hn)
  rw [this _ fun n hn => List.mem_range.mp hn]
  rfl

theorem bitsFrom_nat (f : Nat → Bool) (w : Nat) :
    ((List.range w).foldl (fun a i => if f i then a + 2 ^ i else a) 0) < 2 ^ w ∧
    ∀ n, n < w → ((List.range w).foldl (fun a i => if f i then a + 2 ^ i else a) 0).testBit n = f n := by
  induction w with
  | zero => exact ⟨Nat.one_pos, fun _ h => absurd h (by omega)⟩
  | succ w ih =>
    rw [List.range_succ, List.foldl_append]
    generalize ((List.range w).foldl (fun a i => if f i then a + 2 ^ i else a) 0) = a at ih ⊢
    simp only [List.foldl_cons, List.foldl_nil]
    obtain ⟨h1, h2⟩ := ih
    have hw : 2 ^ (w + 1) = 2 ^ w + 2 ^ w := by rw [Nat.pow_succ]; omega
    by_cases hf : f w = true
    · rw [if_pos hf]
      refine ⟨by omega, fun n hn => ?_⟩
      by_cases e : n = w
      · subst e
        rw [Nat.add_comm, Nat.testBit_two_pow_add_eq, Nat.testBit_lt_two_pow h1, hf]
        rfl
      · rw [Nat.add_comm, Nat.testBit_two_pow_add_gt (by omega)]
        exact h2 n (by omega)
    · rw [if_neg hf]
      refine ⟨by omega, fun n hn => ?_⟩
      by_cases e : n = w
      · subst e
        rw [Nat.testBit_lt_two_pow h1]
        simpa using hf
      · exact h2 n (by omega)

theorem bitsFrom_bit {w : Nat} (f : Nat → Bool) {n : Nat} (h : n < w) : bit (bitsFrom w f) n = f n := by
  unfold bit bitsFrom
  rw [← BitVec.testBit_toNat, BitVec.toNat_ofNat, Nat.mod_eq_of_lt (bitsFrom_nat f w).1]
  exact (bitsFrom_nat f w).2 n h

end Sys2Proof.Machine
end

