-- ==== Sys2Proof/Laws/Flumes.lean ====
section
/-! SUPPORT. Packed words bit by bit; what the pending bank takes, and how a command arms a flume. -/

namespace Sys2Proof.Machine

theorem b1_testBit (b : Bool) (i : Nat) : (b1 b).testBit i = (b && decide (i = 0)) := by
  cases b
  · simp [b1]
  · cases i with
    | zero => rfl
    | succ i => simp [b1, Nat.testBit_succ]

theorem toNat_high {w : Nat} (x : BitVec w) {i : Nat} (h : w ≤ i) : x.toNat.testBit i = false :=
  Nat.testBit_lt_two_pow (Nat.lt_of_lt_of_le x.isLt (Nat.pow_le_pow_right (by decide) h))

/-- Bit `i` of a packed word: some field has it. -/
theorem pk_bit (L : List (Nat × Nat)) {i : Nat} (h : i < 32) :
    (pk L).getLsbD i = L.any (fun p => decide (p.1 ≤ i) && p.2.testBit (i - p.1)) := by
  have e : ∀ (L : List (Nat × Nat)) (a : Nat), (L.foldl (fun a p => a ||| (p.2 <<< p.1)) a).testBit i =
      (a.testBit i || L.any (fun p => decide (p.1 ≤ i) && p.2.testBit (i - p.1))) := by
    intro L
    induction L with
    | nil => intro a; simp
    | cons p L ih =>
      intro a
      rw [List.foldl_cons, ih, Nat.testBit_or, Nat.testBit_shiftLeft, List.any_cons, Bool.or_assoc]
  unfold pk
  rw [BitVec.getLsbD_ofNat, e, decide_eq_true h]
  simp

theorem flCtl_fields (f : Flume) :
    fd (flCtl f ||| 1) 1 2 = f.mode ∧ bit (flCtl f ||| 1) 3 = f.sfmt ∧ bit (flCtl f ||| 1) 4 = f.cpol ∧
    bit (flCtl f ||| 1) 5 = f.misspol ∧ bit (flCtl f ||| 1) 6 = f.p2en ∧ bit (flCtl f ||| 1) 7 = f.tmren ∧
    fd (flCtl f ||| 1) 8 5 = f.port1 ∧ fd (flCtl f ||| 1) 13 5 = f.port2 ∧ fd (flCtl f ||| 1) 18 7 = f.out ∧
    fd (flCtl f ||| 1) 25 5 = f.tmr := by
  have one : ∀ i, i ≠ 0 → (1 : U32).getLsbD i = false := by
    intro i hi
    cases i with
    | zero => exact absurd rfl hi
    | succ i => simp
  have go : ∀ i, 0 < i → i < 32 → (flCtl f ||| 1).getLsbD i = (flCtl f).getLsbD i := by
    intro i h1 h2
    rw [BitVec.getLsbD_or, one i (by omega), Bool.or_false]
  refine ⟨?_, ?_, ?_, ?_, ?_, ?_, ?_, ?_, ?_, ?_⟩
  all_goals first
    | (unfold bit
       rw [go _ (by decide) (by decide)]
       unfold flCtl
       rw [pk_bit _ (by decide)]
       simp [b1_testBit, toNat_high, -Nat.testBit_zero, BitVec.testBit_toNat])
    | (apply BitVec.eq_of_getLsbD_eq
       intro i hi
       unfold fd
       rw [BitVec.getLsbD_extractLsb', decide_eq_true hi, Bool.true_and, go _ (by omega) (by omega)]
       unfold flCtl
       rw [pk_bit _ (by omega)]
       have : i = 0 ∨ i = 1 ∨ i = 2 ∨ i = 3 ∨ i = 4 ∨ i = 5 ∨ i = 6 := by omega
       rcases this with rfl | rfl | rfl | rfl | rfl | rfl | rfl <;>
         first | omega | simp [b1_testBit, toNat_high, -Nat.testBit_zero, BitVec.testBit_toNat])

/-! ## Arming by command -/

theorem vmod_id {α : Type} {n : Nat} (v : Vector α n) (i : Nat) (f : α → α) (d : α) (h : f (vget v i d) = vget v i d) : vmod v i f = v := by
  unfold vmod
  split
  · rename_i hi
    unfold vget at h
    rw [dif_pos hi] at h
    rw [h]
    simp
  · rfl

theorem State.modFl_id {s : State} {n : Nat} {f : Flume → Flume} (h : f (s.flume n) = s.flume n) : s.modFl n f = s := by
  unfold State.modFl
  rw [vmod_id s.fl n f {} h]

theorem fd_append_high {a b : Nat} (x : BitVec a) (y : BitVec b) : fd (x ++ y) b a = x := by
  apply BitVec.eq_of_getLsbD_eq
  intro i hi
  unfold fd
  rw [BitVec.getLsbD_extractLsb', BitVec.getLsbD_append, decide_eq_true hi, if_neg (by omega)]
  simp

theorem fd_append_low {a b : Nat} (x : BitVec a) (y : BitVec b) : fd (x ++ y) 0 b = y := by
  apply BitVec.eq_of_getLsbD_eq
  intro i hi
  unfold fd
  rw [BitVec.getLsbD_extractLsb', BitVec.getLsbD_append, decide_eq_true hi, Nat.zero_add, if_pos hi]
  simp

theorem fd_split {a b : Nat} (x : BitVec (a + b)) : (fd x b a : BitVec a) ++ (fd x 0 b : BitVec b) = x := by
  apply BitVec.eq_of_getLsbD_eq
  intro i hi
  unfold fd
  rw [BitVec.getLsbD_append]
  split
  · rw [BitVec.getLsbD_extractLsb', decide_eq_true ‹_›]
    simp
  · rw [BitVec.getLsbD_extractLsb', decide_eq_true (by omega)]
    have : b + (i - b) = i := by omega
    simp [this]

theorem fd_zeroExtend {a b : Nat} (x : BitVec a) (h : a ≤ b) : fd (x.zeroExtend b) 0 a = x := by
  apply BitVec.eq_of_getLsbD_eq
  intro i hi
  unfold fd
  rw [BitVec.getLsbD_extractLsb', decide_eq_true hi, BitVec.zeroExtend, BitVec.getLsbD_setWidth, decide_eq_true (by omega)]
  simp

/-- The first Tref as ARM writes it (R568). -/
def aimed (f : Flume) (v : U40) : Flume := { f with tref := v ++ fd f.tref 0 16 }

theorem aim_spec {n : Nat} (hn : n < 32) (v : U40) {x x1 : State} (h : (x.flume n).arm = false)
    (hx : x1 = writeFlReg n .trefh ((fd v 32 8 : BitVec 8).zeroExtend 32) (writeFlReg n .trefl (fd v 0 32) x)) :
    x1.flume n = aimed (x.flume n) v ∧ (∀ m, m ≠ n → x1.flume m = x.flume m) ∧ x1.clk = x.clk ∧ x1.hg = x.hg := by
  have e1 : writeFlReg n .trefl (fd v 0 32) x =
      x.modFl n (fun f => { f with tref := (fd (trefInt (x.flume n).tref) 32 8 ++ fd v 0 32) ++ fd f.tref 0 16 }) := by
    unfold writeFlReg writeGuarded
    dsimp only
    rw [h]
    rfl
  have e2 : ∀ y : State, (y.flume n).arm = false → writeFlReg n .trefh ((fd v 32 8 : BitVec 8).zeroExtend 32) y =
      y.modFl n (fun f => { f with tref := (fd v 32 8 ++ fd (trefInt (y.flume n).tref) 0 32) ++ fd f.tref 0 16 }) := by
    intro y hy
    unfold writeFlReg writeGuarded
    dsimp only
    rw [hy, if_neg (by decide), fd_zeroExtend _ (by decide)]
  subst hx
  rw [e1, e2 _ (by rw [State.flume_modFl _ _ hn]; exact h)]
  refine ⟨?_, fun m hm => ?_, rfl, rfl⟩
  · rw [State.flume_modFl _ _ hn, State.flume_modFl _ _ hn]
    unfold aimed trefInt
    dsimp only
    rw [fd_append_high, fd_append_low, fd_append_low]
    have := fd_split (a := 8) (b := 32) v
    rw [this]
  · rw [State.flume_modFl_other _ _ hm, State.flume_modFl_other _ _ hm]

theorem LosesTimer.refl (f : Flume) : LosesTimer f f := .inl rfl

theorem LosesTimer.trans {f g h : Flume} (a : LosesTimer f g) (b : LosesTimer g h) : LosesTimer f h := by
  rcases a with rfl | rfl
  · exact b
  · rcases b with rfl | rfl
    · exact .inr rfl
    · right
      have : setBit (setBit f.stat 11 true) 11 true = setBit f.stat 11 true := by
        unfold setBit
        rw [if_pos rfl, if_pos rfl, BitVec.or_assoc, BitVec.or_self]
      dsimp only
      rw [this]

theorem LosesTimer.arm {f g : Flume} (a : LosesTimer f g) : g.arm = f.arm := by rcases a with rfl | rfl <;> rfl

theorem LosesTimer.tref {f g : Flume} (a : LosesTimer f g) : g.tref = f.tref := by rcases a with rfl | rfl <;> rfl

theorem LosesTimer.canArm {f g : Flume} (a : LosesTimer f g) (s : State) (v : BitVec 56) :
    Machine.canArm s { g with tref := v } = Machine.canArm s { f with tref := v } := by rcases a with rfl | rfl <;> rfl

theorem claimTimer_flume {n : Nat} (hn : n < 32) (x : State) :
    (claimTimer n x).flume n = { x.flume n with stat := ((claimTimer n x).flume n).stat } ∧
    (∀ m, m ≠ n → LosesTimer (x.flume m) ((claimTimer n x).flume m)) ∧ (claimTimer n x).clk = x.clk ∧ (claimTimer n x).hg = x.hg := by
  refine ⟨?_, fun m hm => ?_, (claimTimer_only n x).clk (by decide), (claimTimer_only n x).hg (by decide)⟩
  · unfold claimTimer
    extract_lets f take
    have tk : ∀ m, (take x).flume m = x.flume m := fun m => rfl
    clear_value take
    refine ite_both _ (P := fun y => State.flume y n = { x.flume n with stat := (State.flume y n).stat }) ?_ rfl
    split
    · rw [tk]
    · rename_i k _
      split
      · by_cases e : n = k.toNat
        · rw [← e, flFlag_flume hn, tk]
        · rw [flFlag_other e, tk]
      · rw [flFlag_flume hn]
  · unfold claimTimer
    extract_lets f take
    have tk : ∀ m, (take x).flume m = x.flume m := fun m => rfl
    clear_value take
    refine ite_both _ (P := fun y => LosesTimer (x.flume m) (State.flume y m)) ?_ (.refl _)
    split
    · rw [tk]; exact .refl _
    · rename_i k _
      split
      · by_cases e : m = k.toNat
        · rw [← tk m, ← e]
          refine .inr (flFlag_flume ?_ ..)
          rw [e]; exact k.isLt
        · rw [flFlag_other e, tk]; exact .refl _
      · rw [flFlag_other hm]; exact .refl _

/-- Writing ARM to a disarmed flume with its own configuration. -/
theorem ctlArm_spec {n : Nat} (hn : n < 32) {x y : State} (h : (x.flume n).arm = false)
    (hy : y = writeFlCtl n (flCtl (x.flume n) ||| 1) x) :
    (canArm x (x.flume n) = true → (y.flume n).arm = true ∧ (y.flume n).tref = (x.flume n).tref &&& ~~~0xFFFF#56) ∧
    (canArm x (x.flume n) = false → (y.flume n).arm = false ∧ (y.flume n).tref = (x.flume n).tref) ∧
    (∀ m, m ≠ n → LosesTimer (x.flume m) (y.flume m)) ∧ y.clk = x.clk ∧ y.hg = x.hg := by
  have b0 : bit (flCtl (x.flume n) ||| 1) 0 = true := by simp [bit]
  have e : writeFlCtl n (flCtl (x.flume n) ||| 1) x = armFlume n x := by
    obtain ⟨f1, f2, f3, f4, f5, f6, f7, f8, f9, f10⟩ := flCtl_fields (x.flume n)
    unfold writeFlCtl
    dsimp only
    rw [h, if_neg (by decide), f1, f2, f3, f4, f5, f6, f7, f8, f9, f10, b0, if_pos rfl, State.modFl_id rfl]
  rw [e] at hy
  subst hy
  unfold armFlume
  by_cases hc : canArm x (x.flume n) = true
  · rw [if_pos hc]
    have k := claimTimer_flume hn (x.modFl n (fun f =>
      { f with arm := true, tref := f.tref &&& ~~~0xFFFF#56, inPeriod := false, passed := false, x2 := none
               taken := false, closed := false, prev := none }))
    refine ⟨fun _ => ?_, fun a => by simp [hc] at a, fun m hm => ?_, k.2.2.1, k.2.2.2⟩
    · rw [k.1, State.flume_modFl _ _ hn]
      exact ⟨rfl, rfl⟩
    · have := k.2.1 m hm
      rw [State.flume_modFl_other _ _ hm] at this
      exact this
  · rw [if_neg hc]
    refine ⟨fun a => absurd a hc, fun _ => ?_, fun m hm => .inl (flFlag_other hm _ _), (flFlag_only ..).clk (by decide), (flFlag_only ..).hg (by decide)⟩
    rw [flFlag_flume hn]
    exact ⟨h, rfl⟩

/-- Positions in a list without repeats. -/
theorem zipIdx_idxOf : ∀ (L : List Nat) (i : Nat), L.Nodup → ∀ p ∈ L.zipIdx i, p.2 = i + L.idxOf p.1
  | [], _, _, _, h => absurd h (by simp)
  | a :: L, i, hd, p, h => by
    have hn := List.nodup_cons.mp hd
    rw [List.zipIdx_cons, List.mem_cons] at h
    rcases h with h | h
    · subst h
      simp
    · have hm : p.1 ∈ L := (List.mem_zipIdx h).2.2 ▸ List.getElem_mem _
      have hne : a ≠ p.1 := fun e => hn.1 (e ▸ hm)
      have e : (a :: L).idxOf p.1 = L.idxOf p.1 + 1 := by
        rw [List.idxOf_cons, beq_eq_false_iff_ne.mpr hne]
        rfl
      rw [zipIdx_idxOf L (i + 1) hn.2 p h, e]
      omega

theorem foldl_zipIdx {S : Type} (g : S → Nat × Nat → S) (L : List Nat) (hd : L.Nodup) (x : S) :
    (L.zipIdx).foldl g x = (L.zipIdx).foldl (fun x p => g x (p.1, L.idxOf p.1)) x := by
  have e : ∀ (M : List (Nat × Nat)) (x : S), (∀ p ∈ M, p.2 = L.idxOf p.1) →
      M.foldl g x = M.foldl (fun x p => g x (p.1, L.idxOf p.1)) x := by
    intro M
    induction M with
    | nil => exact fun _ _ => rfl
    | cons p M ih =>
      intro x hl
      have hp : (p.1, L.idxOf p.1) = p := by rw [← hl p List.mem_cons_self]
      rw [List.foldl_cons, List.foldl_cons, hp]
      exact ih _ fun q hq => hl q (List.mem_cons_of_mem _ hq)
  refine e _ x fun p hp => ?_
  have := zipIdx_idxOf L 0 hd p hp
  omega

theorem flumesOf_nodup (m : U32) : (flumesOf m).Nodup := List.nodup_range.sublist List.filter_sublist

theorem mem_flumesOf {m : U32} {n : Nat} : n ∈ flumesOf m ↔ n < 32 ∧ bit m n = true := by
  unfold flumesOf
  rw [List.mem_filter, List.mem_range]

/-- What ARM does to the flumes of a list (R568). -/
theorem arm_fold (v : Nat → U40) (ok : Nat → Bool) (s : State) (g : State → Nat × Nat → State)
    (hg : ∀ (x : State) (p : Nat × Nat), p.1 < 32 → LosesTimer (s.flume p.1) (x.flume p.1) → x.clk = s.clk →
      (g x p).clk = s.clk ∧ (g x p).hg = x.hg ∧ (∀ m, m ≠ p.1 → LosesTimer (x.flume m) ((g x p).flume m)) ∧
        (ok p.1 = true → ((g x p).flume p.1).arm = true ∧ ((g x p).flume p.1).tref = (aimed (s.flume p.1) (v p.1)).tref &&& ~~~0xFFFF#56) ∧
        (ok p.1 = false → (s.flume p.1).arm = true → LosesTimer (s.flume p.1) ((g x p).flume p.1)) ∧
        (ok p.1 = false → (s.flume p.1).arm = false → ((g x p).flume p.1).arm = false)) :
    ∀ (L : List Nat) (i : Nat) (x : State), L.Nodup → (∀ n ∈ L, n < 32) → (∀ n ∈ L, LosesTimer (s.flume n) (x.flume n)) → x.clk = s.clk →
      ((L.zipIdx i).foldl g x).clk = s.clk ∧ ((L.zipIdx i).foldl g x).hg = x.hg ∧
        (∀ m, m ∉ L → LosesTimer (x.flume m) (((L.zipIdx i).foldl g x).flume m)) ∧
        (∀ n ∈ L, (ok n = true → (((L.zipIdx i).foldl g x).flume n).arm = true ∧
            (((L.zipIdx i).foldl g x).flume n).tref = (aimed (s.flume n) (v n)).tref &&& ~~~0xFFFF#56) ∧
          (ok n = false → (s.flume n).arm = true → LosesTimer (s.flume n) (((L.zipIdx i).foldl g x).flume n)) ∧
          (ok n = false → (s.flume n).arm = false → (((L.zipIdx i).foldl g x).flume n).arm = false))
  | [], i, x, _, _, _, hc => ⟨hc, rfl, fun _ _ => .refl _, fun _ h => absurd h List.not_mem_nil⟩
  | n :: L, i, x, hd, hl, hx, hc => by
    have hn := List.nodup_cons.mp hd
    obtain ⟨yc, yh, yo, yn⟩ := hg x (n, i) (hl n List.mem_cons_self) (hx n List.mem_cons_self) hc
    dsimp only at yo yn
    have hne : ∀ m ∈ L, m ≠ n := fun m hm q => hn.1 (q ▸ hm)
    rw [List.zipIdx_cons, List.foldl_cons]
    generalize g x (n, i) = y at yc yh yo yn ⊢
    obtain ⟨zc, zh, zo, zn⟩ := arm_fold v ok s g hg L (i + 1) y hn.2 (fun m hm => hl m (List.mem_cons_of_mem _ hm))
      (fun m hm => (hx m (List.mem_cons_of_mem _ hm)).trans (yo m (hne m hm))) yc
    generalize (L.zipIdx (i + 1)).foldl g y = z at zc zh zo zn ⊢
    refine ⟨zc, zh.trans yh, fun m hm => ?_, fun m hm => ?_⟩
    · exact (yo m fun q => hm (q ▸ List.mem_cons_self)).trans (zo m fun q => hm (List.mem_cons_of_mem _ q))
    · rcases List.mem_cons.mp hm with q | q
      · subst q
        have w := zo m hn.1
        exact ⟨fun h => by rw [w.arm, w.tref]; exact yn.1 h, fun h k => (yn.2.1 h k).trans w, fun h k => by rw [w.arm]; exact yn.2.2 h k⟩
      · exact zn m q

theorem canArm_clk {s t : State} (h : t.clk = s.clk) (f : Flume) : canArm t f = canArm s f := by
  unfold canArm
  rw [h]

end Sys2Proof.Machine
end

