-- ==== Sys2Proof/Laws/Debug.lean ====
section
/-! SUPPORT. What a change of the granted level leaves, and the fields of DSTAT. -/

namespace Sys2Proof.Machine

theorem respond_dbg (st : BitVec 4) (d : U32) (s : State) : (respond st d s).dbg.rspStatus = st ∧
    (respond st d s).dbg.rspData = d ∧ (respond st d s).dbg.rspCrc = crc4 (msb st ++ msb d) ∧
    (respond st d s).dbg.frame = false := ⟨rfl, rfl, rfl, rfl⟩

theorem writeFrame_checked (a : BitVec 24) (v : U32) (s : State) :
    writeFrame 2 a v (crc4 (msb (2 : BitVec 4) ++ msb a ++ msb v)) s = writeSpace a.toNat v (drawFree 32 s).1 (drawFree 32 s).2 := by
  unfold writeFrame
  rw [if_neg (by decide), if_neg (by simp)]

/-- A change of the level leaves the debug domain but for what R850 says. -/
theorem setLevel_dbg (l : BitVec 2) (s : State) : (setLevel l s).dbg =
    if 2 ≤ s.dbg.level.toNat ∧ l.toNat < 2 then { s.dbg with
      level := l, cmp := vmap s.dbg.cmp (fun _ d => { d with act := 0 }), frzForce := false, frzMask := 0 }
    else { s.dbg with level := l } := by
  have ro : ∀ y, (raiseOn 432 y).dbg = y.dbg := fun y => (raiseOn_only ..).dbg (by decide)
  have eo : ∀ y : State, (y.each 16 (fun s n => releaseMonitor n s)).dbg = y.dbg := fun y =>
    (Only.each (ps := [.tur, .wdog, .seq]) (fun s k => releaseMonitor_only k s) y 16).dbg (by decide)
  unfold setLevel
  dsimp only
  split
  · rename_i q
    rw [if_neg (by rw [q]; omega), q]
  · split
    · rename_i q
      rw [eo, if_pos (by simpa using q)]
      dsimp only
      rw [ro]
    · rename_i q
      rw [ro, if_neg (by simpa using q)]

theorem setLevel_leaves (l : BitVec 2) (s : State) :
    (setLevel l s).dbg.level = l ∧ (setLevel l s).dbg.noncev = s.dbg.noncev ∧ (setLevel l s).dbg.fails = s.dbg.fails := by
  rw [setLevel_dbg]
  split <;> exact ⟨rfl, rfl, rfl⟩

theorem setLevel_polmax (l : BitVec 2) (s : State) : (setLevel l s).dbg.polmax = s.dbg.polmax := by
  rw [setLevel_dbg]
  split <;> rfl

theorem setLevel_drops (l : BitVec 2) (s : State) (h : 2 ≤ s.dbg.level.toNat) (hl : l.toNat < 2) :
    (setLevel l s).dbg.frzForce = false ∧ (setLevel l s).dbg.frzMask = 0 ∧
      ∀ i : Fin 8, (vget (setLevel l s).dbg.cmp i.val {}).act = 0 := by
  rw [setLevel_dbg, if_pos ⟨h, hl⟩]
  refine ⟨rfl, rfl, fun i => ?_⟩
  have v := vget_vmap s.dbg.cmp i.isLt (fun _ (d : Cmp) => ({ d with act := 0 } : Cmp)) {} {}
  exact (congrArg (fun c : Cmp => c.act) v).trans rfl

theorem dstat_fields (s : State) : fd (dstat s) 0 2 = s.dbg.level ∧ fd (dstat s) 2 2 = s.dbg.polmax ∧
    bit (dstat s) 5 = s.dbg.keyv ∧ bit (dstat s) 7 = s.dbg.lockout ∧ fd (dstat s) 16 8 = s.dbg.fails := by
  have code : ∀ k, 2 ≤ k → s.pwr.st.code.testBit k = false := by
    intro k hk
    refine Nat.testBit_lt_two_pow (Nat.lt_of_lt_of_le ?_ (Nat.pow_le_pow_right (by decide) hk))
    cases s.pwr.st <;> decide
  refine ⟨?_, ?_, ?_, ?_, ?_⟩
  all_goals first
    | (unfold bit dstat
       rw [pk_bit _ (by decide)]
       simp [b1_testBit, toNat_high, -Nat.testBit_zero, BitVec.testBit_toNat]
       done)
    | (apply BitVec.eq_of_getLsbD_eq
       intro i hi
       unfold fd dstat
       rw [BitVec.getLsbD_extractLsb', decide_eq_true hi, Bool.true_and]
       rw [pk_bit _ (by omega)]
       have : i = 0 ∨ i = 1 ∨ i = 2 ∨ i = 3 ∨ i = 4 ∨ i = 5 ∨ i = 6 ∨ i = 7 := by omega
       rcases this with rfl | rfl | rfl | rfl | rfl | rfl | rfl | rfl <;>
         first | omega | simp [b1_testBit, toNat_high, code, -Nat.testBit_zero, BitVec.testBit_toNat])

/-! ## Monitor -/

theorem writeLevel_dthr (n : Fin 16) (s : State) (v : U32) : writeLevel s (0x200 + 0x10 * n.val) v = if n.val = 15 then 3 else 2 := by
  have := n.isLt
  unfold writeLevel
  rw [if_neg (by simp; omega), if_neg (by simp; omega)]
  by_cases h : n.val = 15
  · rw [if_pos h, if_pos (by simp; omega)]
  · rw [if_neg h, if_neg (by simp; omega)]

theorem spaceWrite_dthr (n : Fin 16) (v noise : U32) (s : State) : spaceWrite (0x200 + 0x10 * n.val) v noise s = writeDthr n.val v s := by
  have := n.isLt
  unfold spaceWrite
  dsimp only
  rw [if_neg (by simp; omega), if_pos (by simp; omega), show (0x200 + 0x10 * n.val) % 0x10 = 0 by omega,
    show (0x200 + 0x10 * n.val - 0x200) / 0x10 = n.val by omega]
  rfl

theorem monreq_bits (v : U32) : bit (setBit (setBit v 0 false) 9 false) 0 = false ∧
    bit (setBit (setBit v 0 false) 9 false) 9 = false ∧ bit (setBit (setBit v 0 false) 9 true) 0 = false ∧
    bit (setBit (setBit v 0 false) 9 true) 9 = true := by
  unfold bit setBit
  simp

/-- The return from the monitor (R863, R864). -/
theorem returnMonitor_leaves {n : Nat} {s : State} (hn : n < 16) (h1 : (s.thr n).mon = true) (h2 : (s.thr n).spill = false) :
    ((returnMonitor n s).thr n).mon = false ∧ ((returnMonitor n s).thr n).resume = false ∧
    ((returnMonitor n s).thr n).stepWords = (if (s.thr n).step then 1 else 0) ∧
    ((returnMonitor n s).thr n).ctx.pc = (s.thr n).mpc ∧ ((returnMonitor n s).thr n).ctx.nzcv = fd (s.thr n).mstat 0 4 ∧
    ((returnMonitor n s).thr n).ctx.priv = fd (s.thr n).mstat 4 2 ∧
    ((returnMonitor n s).thr n).ctx.mask = fd (s.thr n).mstat 6 3 ∧ ((returnMonitor n s).thr n).ctx.g = (s.thr n).ctx.g := by
  have ug : (clearFlow (undoSlot (s.thr n).ctx)).g = (s.thr n).ctx.g := by
    unfold clearFlow undoSlot
    dsimp only
    split
    · split <;> rfl
    · rfl
  unfold returnMonitor
  dsimp only
  rw [if_pos (by rw [h1, h2]; rfl)]
  generalize hx : s.modThr n _ = x
  have xt := State.thr_modThr s (fun t => { t with
      ctx := { clearFlow (undoSlot t.ctx) with pc := t.mpc, ret := some { status := t.mstat, slot := false } } }) hn
  rw [hx] at xt
  unfold applyRet
  dsimp only
  rw [xt]
  dsimp only
  have sp : ∀ f : Thread → Thread, (∀ t, (f t).spill = t.spill ∧ (f t).mon = t.mon) → ((x.modThr n f).thr n).spill = false ∧ ((x.modThr n f).thr n).mon = true := by
    intro f hf
    rw [State.thr_modThr _ _ hn, (hf _).1, (hf _).2, xt]
    exact ⟨h2, h1⟩
  rw [h2, h1, if_neg (by decide), if_pos rfl, thr_of_seq (wdogFreeze_only ..).seq, State.thr_modThr _ _ hn,
    State.thr_modThr _ _ hn, xt]
  exact ⟨rfl, rfl, rfl, rfl, rfl, rfl, rfl, ug⟩

/-! ## The debug bus master -/

theorem raiseOn_raised {n : Nat} {s : State} (h : coreOff s = false) : SrcRaised n (raiseOn n s) := by
  unfold raiseOn
  rw [h, if_neg (by decide)]
  exact raise_raised ..

theorem dbFail_leaves (c : BitVec 3) (s : State) : (dbFail c s).dbg.access = none ∧ (dbFail c s).dbg.err = true ∧
    (dbFail c s).dbg.cause = c ∧ (dbFail c s).dbg.ready = false ∧ (dbFail c s).dbg.data = s.dbg.data ∧
    (coreOff s = false → SrcRaised 444 (dbFail c s)) ∧ Only [.tur, .dbg] s (dbFail c s) := by
  have fo := dbFail_only c s
  unfold dbFail at *
  dsimp only at *
  have rr : coreOff s = false →
      SrcRaised 444 (raiseOn 444 { s with dbg := { s.dbg with access := none, ready := false, err := true, cause := c } }) :=
    fun h => raiseOn_raised (s := { s with dbg := { s.dbg with access := none, ready := false, err := true, cause := c } }) h
  have dd : (raiseOn 444 { s with dbg := { s.dbg with access := none, ready := false, err := true, cause := c } }).dbg =
      { s.dbg with access := none, ready := false, err := true, cause := c } := (raiseOn_only ..).dbg (by decide)
  generalize raiseOn 444 { s with dbg := { s.dbg with access := none, ready := false, err := true, cause := c } } = y at *
  split
  · rename_i q
    rw [if_pos q] at fo
    refine ⟨?_, ?_, ?_, ?_, ?_, fun h => (rr h).congr rfl, fo⟩ <;> unfold respond <;> dsimp only <;> rw [dd]
  · rename_i q
    rw [if_neg q] at fo
    refine ⟨?_, ?_, ?_, ?_, ?_, rr, fo⟩ <;> rw [dd]

theorem dbDone_leaves (v : U32) (s : State) : (dbDone v s).dbg.access = none ∧ (dbDone v s).dbg.data = v ∧
    (dbDone v s).dbg.err = s.dbg.err ∧ (dbDone v s).dbg.dbah ++ (dbDone v s).dbg.dbal =
      s.dbg.dbah ++ s.dbg.dbal + BitVec.ofNat 48 (if s.dbg.ainc then dbSize s.dbg else 0) ∧
    (∀ x, s.dbg.access = some x → x.wr = none → (dbDone v s).dbg.ready = !s.dbg.frame ∧
      (s.dbg.frame = true → (dbDone v s).dbg.rspStatus = 0 ∧ (dbDone v s).dbg.rspData = v)) := by
  have sp : ∀ a : U48, (fd a 32 16 : U16) ++ (fd a 0 32 : U32) = a := fun a => fd_split (a := 16) (b := 32) a
  unfold dbDone
  dsimp only
  generalize s.dbg.dbah ++ s.dbg.dbal + BitVec.ofNat 48 (if s.dbg.ainc then dbSize s.dbg else 0) = a
  have inner : ∀ (b w : Bool) (f : Bool) (d : Debug), ((if f && !w then respond 0 v { s with dbg := d } else { s with dbg := d }).dbg.access = d.access ∧
      (if f && !w then respond 0 v { s with dbg := d } else { s with dbg := d }).dbg.data = d.data ∧
      (if f && !w then respond 0 v { s with dbg := d } else { s with dbg := d }).dbg.err = d.err ∧
      (if f && !w then respond 0 v { s with dbg := d } else { s with dbg := d }).dbg.dbah = d.dbah ∧
      (if f && !w then respond 0 v { s with dbg := d } else { s with dbg := d }).dbg.dbal = d.dbal ∧
      (if f && !w then respond 0 v { s with dbg := d } else { s with dbg := d }).dbg.ready = d.ready ∧
      (f = true → w = false → (if f && !w then respond 0 v { s with dbg := d } else { s with dbg := d }).dbg.rspStatus = 0 ∧
        (if f && !w then respond 0 v { s with dbg := d } else { s with dbg := d }).dbg.rspData = v)) := by
    intro b w f d
    cases f <;> cases w <;> refine ⟨rfl, rfl, rfl, rfl, rfl, rfl, fun h1 h2 => ?_⟩ <;> first | exact ⟨rfl, rfl⟩ | exact absurd h1 (by decide) | exact absurd h2 (by decide)
  obtain ⟨i1, i2, i3, i4, i5, i6, i7⟩ := inner true (s.dbg.access.any (fun a => a.wr.isSome)) s.dbg.frame { s.dbg with
    access := none, data := v, ready := !s.dbg.access.any (fun a => a.wr.isSome) && !s.dbg.frame, dbal := fd a 0 32, dbah := fd a 32 16 }
  refine ⟨i1, i2, i3, ?_, fun x hx hw => ?_⟩
  · rw [i4, i5]
    exact sp a
  · have an : s.dbg.access.any (fun a => a.wr.isSome) = false := by rw [hx]; simp [hw]
    refine ⟨?_, fun h => i7 h an⟩
    rw [i6, an]
    rfl

theorem dbComplete_refused {resp : LoadResp} {s : State} {x : DbAccess} {c : BitVec 3} (ha : s.dbg.access = some x)
    (hb : dbRefused s x.wr.isSome = some c) : dbComplete resp s = dbFail c s := by
  unfold dbComplete
  rw [ha]
  dsimp only
  rw [hb]

theorem dbComplete_host {resp : LoadResp} {s : State} {x : DbAccess} (ha : s.dbg.access = some x)
    (hb : dbRefused s x.wr.isSome = none) (hd : s.dbg.space = 1) :
    dbComplete resp s = dbHost (s.dbg.dbah ++ s.dbg.dbal) (dbSize s.dbg) x.wr resp s := by
  unfold dbComplete
  rw [ha]
  dsimp only
  rw [hb]
  dsimp only
  rw [hd]
  rfl

theorem dbHost_write {a : U48} {n : Nat} {u : U32} {resp : LoadResp} {v : BitVec 128} (h : resp = .okay v ∨ resp = .exokay v) (s : State) :
    dbHost a n (some u) resp s = dbDone u (storeHost a (bytesLE u n) s) := by
  rcases h with h | h <;> rw [h] <;> rfl

theorem dbHost_read {a : U48} {n : Nat} {resp : LoadResp} {v : BitVec 128} (h : resp = .okay v ∨ resp = .exokay v) (s : State) :
    dbHost a n none resp s = dbDone (ofLE 32 (bytesLE v n)) s := by
  rcases h with h | h <;> rw [h] <;> rfl

end Sys2Proof.Machine
end

