-- ==== Sys2Proof/Laws/Images.lean ====
section
/-! SUPPORT. What loading an image, a patch or an autostart section leaves in the slots of the Headgate, in the microstore and
in the threads. -/

namespace Sys2Proof.Machine

/-- A section leaves what the Headgate holds, but for what an autostart section adds to it. -/
theorem applySection_hg (l : List Byte) (e : Section) (s : State) :
    (applySection l s e).hg = { s.hg with loadAuto := (applySection l s e).hg.loadAuto } := by
  unfold applySection
  dsimp only
  split
  · rw [(putMicro_only ..).hg]
  · rw [(putNano_only ..).hg]
  · have : ∀ (L : List (U32 × Nat)) (x : State),
        (L.foldl (fun s p => (gateStore (.mach 15) e.index (.table (BitVec.ofNat 11 p.2)) p.1 s).1) x).hg = x.hg := by
      intro L
      induction L with
      | nil => exact fun _ => rfl
      | cons a L ih =>
        intro x
        rw [List.foldl_cons, ih, (gateStore_only ..).hg]
    rw [this, (gateOff_only ..).hg]
  · rw [(gateStore_only ..).hg, (gateStore_only ..).hg, (gateStore_only ..).hg, (gateStore_only ..).hg, (gateStore_only ..).hg,
      (gateOff_only ..).hg]
  · rw [(storeData_only ..).hg]
  · rw [(putProg_only ..).hg]
  · rfl
  · rfl

theorem applyImage_hg (secs : List Section) (l : List Byte) (s : State) :
    (applyImage secs l s).hg = { s.hg with loadAuto := (applyImage secs l s).hg.loadAuto } := by
  unfold applyImage
  have : ∀ (L : List Section) (x : State), (L.foldl (applySection l) x).hg =
      { x.hg with loadAuto := (L.foldl (applySection l) x).hg.loadAuto } := by
    intro L
    induction L with
    | nil => exact fun _ => rfl
    | cons a L ih =>
      intro x
      rw [List.foldl_cons]
      generalize hy : applySection l x a = y
      have hh : y.hg = { x.hg with loadAuto := y.hg.loadAuto } := by rw [← hy]; exact applySection_hg ..
      have k := ih y
      generalize (L.foldl (applySection l) y).hg = z at k ⊢
      rw [k, hh]
  have k := this secs { s with hg := { s.hg with loadAuto := [] } }
  generalize (secs.foldl (applySection l) { s with hg := { s.hg with loadAuto := [] } }).hg = z at k ⊢
  rw [k]

theorem applyImage_slotAt {k : Slot} {c : CmdSlot} {s : State} (h : slotAt s k = some c) (secs : List Section) (l : List Byte) :
    slotAt (applyImage secs l s) k = some c := by
  exact (slotAt_eq k (by rw [applyImage_hg]) (by rw [applyImage_hg])).trans h

/-- The words that `putMicro` writes, and no others. -/
theorem putMicro_micro (l : List U32) (a : Nat) (s : State) (i : Nat) (hw : Memory.wf 0 s.mem.micro = true) :
    sget 0 i (putMicro a l s).mem.micro = if a ≤ i ∧ i < a + l.length then l.getD (i - a) 0 else sget 0 i s.mem.micro := by
  induction l generalizing a s with
  | nil =>
    rw [if_neg (by simp only [List.length_nil]; omega)]
    rfl
  | cons w t ih =>
    unfold putMicro
    rw [ih _ _ (sput_wf _ _ hw)]
    dsimp only
    by_cases h : i = a
    · subst h
      rw [if_neg (by omega), if_pos (by simp only [List.length_cons]; omega), sget_sput_self 0 i w hw, Nat.sub_self]
      rfl
    · rw [sget_sput_other 0 w h]
      by_cases h2 : a ≤ i ∧ i < a + (w :: t).length
      · have h3 : a + 1 ≤ i ∧ i < a + 1 + t.length := by
          have := h2.2
          simp only [List.length_cons] at this
          omega
        rw [if_pos h2, if_pos h3]
        have : i - a = (i - (a + 1)) + 1 := by omega
        rw [this]
        rfl
      · rw [if_neg h2, if_neg (by simp only [List.length_cons] at h2; omega)]

/-- What an activation starts (R580): a section's thread has what that section gives it, as long as no other section names
the same thread. -/
theorem autostart_thr (L : List StartParams) (p : StartParams) (hb : startAllowed p = true)
    (P : Thread → Prop) (hs : ∀ x : State, P ((startThread p x).thr (startThreadNo p)))
    (hu : ∀ q ∈ L, startThreadNo q = startThreadNo p → q = p) (x : State) (hp : p ∈ L ∨ P (x.thr (startThreadNo p))) :
    P ((L.foldl (fun s p => if startAllowed p then startThread p s else s) x).thr (startThreadNo p)) := by
  induction L generalizing x with
  | nil => exact hp.resolve_left List.not_mem_nil
  | cons q L ih =>
    rw [List.foldl_cons]
    refine ih (fun r hr => hu r (List.mem_cons_of_mem _ hr)) _ ?_
    by_cases e : q = p
    · right
      subst e
      rw [hb]
      exact hs x
    · have hne : startThreadNo p ≠ startThreadNo q := fun h => e (hu q List.mem_cons_self h.symm)
      rcases hp with hp | hp
      · left
        rcases List.mem_cons.mp hp with h | h
        · exact absurd h.symm e
        · exact h
      · right
        split
        · rw [startThread_other hne]; exact hp
        · exact hp

end Sys2Proof.Machine
end

