-- ==== Sys2Proof/Laws/Kept.lean ====
section
/-! SUPPORT. The relation that every operation of the machine keeps, and how it composes. -/

namespace Sys2Proof.Machine

/-- What every operation owes: the queue of `t` is that of `s`, and its memories are canonical when those of `s` are. -/
def Kept (s t : State) : Prop := t.pending = s.pending ∧ (s.ok → t.ok)

theorem Kept.refl (s : State) : Kept s s := ⟨rfl, id⟩

theorem Kept.trans {s t u : State} (h : Kept s t) (h' : Kept t u) : Kept s u := ⟨h'.1.trans h.1, h'.2 ∘ h.2⟩

theorem Kept.of {s X : State} {clk ports out outcal tur gate shut wdog fl tmr gp cul hg seq link lg pwr dbg bist due apb free}
    {p : List Instr} {m : Stores} {r : Rider} {v : Nvm} (h : Kept s X) (hp : p = X.pending) (hm : X.mem.ok → m.ok)
    (hr : Memory.wf 0 X.rider.prog → Memory.wf 0 r.prog) (hv : rising 0 X.nvm.units → rising 0 v.units) :
    Kept s ⟨p, clk, ports, out, outcal, tur, gate, shut, wdog, fl, tmr, gp, r, cul, hg, seq, m, link, lg, v, pwr, dbg,
      bist, due, apb, free⟩ :=
  ⟨hp.trans h.1, fun hs => ⟨hm (h.2 hs).1, hr (h.2 hs).2.1, hv (h.2 hs).2.2⟩⟩

theorem Kept.ite {s a b : State} {c : Prop} [Decidable c] (ha : Kept s a) (hb : Kept s b) : Kept s (if c then a else b) := by
  split <;> assumption

theorem Kept.iteFst {β : Type} {s : State} {a b : State × β} {c : Prop} [Decidable c] (ha : Kept s a.1) (hb : Kept s b.1) :
    Kept s (if c then a else b).1 := by
  split <;> assumption

theorem Kept.snd {α : Type} {s t : State} {a : α} {p : α × State} (h : Kept s p.2) (e : p = (a, t)) : Kept s t := by
  subst e; exact h

theorem Kept.fst {α : Type} {s t : State} {a : α} {p : State × α} (h : Kept s p.1) (e : p = (t, a)) : Kept s t := by
  subst e; exact h

theorem Kept.foldl {α : Type} {f : State → α → State} (h : ∀ s x, Kept s (f s x)) :
    ∀ (l : List α) (s : State), Kept s (l.foldl f s)
  | [], s => .refl s
  | x :: l, s => (h s x).trans (Kept.foldl h l (f s x))

theorem Kept.foldlFst {α β : Type} {f : State × β → α → State × β} (h : ∀ a x, Kept a.1 (f a x).1) :
    ∀ (l : List α) (a : State × β), Kept a.1 (l.foldl f a).1
  | [], a => .refl a.1
  | x :: l, a => (h a x).trans (Kept.foldlFst h l (f a x))

theorem Kept.each {f : State → Nat → State} (h : ∀ s k, Kept s (f s k)) (s : State) (n : Nat) : Kept s (s.each n f) :=
  .foldl h _ s

theorem Kept.opt {s t : State} {o : Option State} (h : ∀ u, o = some u → Kept s u) (e : o = some t) : Kept s t := h t e

theorem onCore_kept {s t : State} (w : Who) (h : Kept s t) : Kept s (onCore s w t) := by
  unfold onCore; repeat' split
  · exact .refl s
  · exact Kept.of (.refl s) rfl id id id
  · exact .refl s
  · exact h

theorem inCore_kept {s t : State} (h : Kept s t) : Kept s (inCore s t) := by
  unfold inCore; split
  · exact .refl s
  · exact h
end Sys2Proof.Machine
end

