-- ==== Sys2Proof/Laws/KeptOps.lean ====
section
/-! SUPPORT. Every operation of Machine/Ops.lean leaves the command queue alone and keeps the memories canonical. -/

namespace Sys2Proof.Machine

set_option Elab.async false

theorem State.modOut_kept (s : State) (n : Nat) (f : Outlet → Outlet) : Kept s (State.modOut s n f) := by
  unfold State.modOut
  refine .of ?_ rfl id id id
  exact .refl _

theorem State.modFl_kept (s : State) (n : Nat) (f : Flume → Flume) : Kept s (State.modFl s n f) := by
  unfold State.modFl
  refine .of ?_ rfl id id id
  exact .refl _

theorem State.modTmr_kept (s : State) (n : Nat) (f : Timer → Timer) : Kept s (State.modTmr s n f) := by
  unfold State.modTmr
  refine .of ?_ rfl id id id
  exact .refl _

theorem State.modGate_kept (s : State) (k : Nat) (f : Gate → Gate) : Kept s (State.modGate s k f) := by
  unfold State.modGate
  refine .of ?_ rfl id id id
  exact .refl _

theorem State.modRch_kept (s : State) (n : Nat) (f : RiderCh → RiderCh) : Kept s (State.modRch s n f) := by
  unfold State.modRch
  refine .of ?_ rfl id id id
  exact .refl _

theorem State.modCul_kept (s : State) (n : Nat) (f : CulCh → CulCh) : Kept s (State.modCul s n f) := by
  unfold State.modCul
  refine .of ?_ rfl id id id
  exact .refl _

theorem State.modThr_kept (s : State) (n : Nat) (f : Thread → Thread) : Kept s (State.modThr s n f) := by
  unfold State.modThr
  refine .of ?_ rfl id id id
  exact .refl _

theorem State.modCtx_kept (s : State) (n : Nat) (f : Ctx → Ctx) : Kept s (State.modCtx s n f) := by
  unfold State.modCtx
  exact State.modThr_kept ..

theorem State.modCtxBoth_kept (s : State) (n : Nat) (f : Ctx → Ctx) :
    Kept s (State.modCtxBoth s n f) := by
  unfold State.modCtxBoth
  exact State.modThr_kept ..

theorem State.modSrc_kept (s : State) (n : Nat) (f : Source → Source) : Kept s (State.modSrc s n f) := by
  unfold State.modSrc
  refine .of ?_ rfl id id id
  exact .refl _

theorem State.modPort_kept (s : State) (p : Nat) (f : LinkPort → LinkPort) : Kept s (State.modPort s p f) := by
  unfold State.modPort
  refine .of ?_ rfl id id id
  exact .refl _

theorem State.modLane_kept (s : State) (l : Nat) (f : Lane → Lane) : Kept s (State.modLane s l f) := by
  unfold State.modLane
  refine .of ?_ rfl id id id
  exact .refl _

theorem State.modLg_kept (s : State) (c : Nat) (f : LgCh → LgCh) : Kept s (State.modLg s c f) := by
  unfold State.modLg
  refine .of ?_ rfl id id id
  exact .refl _

theorem answer_kept (s : State) (w : Who) (r : Resp) : Kept s (answer s w r) := by
  unfold answer
  split
  refine .of ?_ rfl id id id
  exact .refl _
  exact .refl _

theorem drawFree_kept (w : Nat) (s : State) : Kept s (drawFree w s).2 := by
  unfold drawFree
  dsimp only
  refine .of ?_ rfl id id id
  exact .refl _

theorem hwSet_kept (off : Nat) (bits : U32) (s : State) :
    Kept s (hwSet off bits s) := by
  unfold hwSet
  refine .ite ?_ ?_
  refine .of ?_ rfl id id id
  exact .refl _
  exact .refl _

theorem hwSetIf_kept (c : Bool) (off : Nat) (bits : U32) (s : State) :
    Kept s (hwSetIf c off bits s) := by
  unfold hwSetIf
  refine .ite ?_ ?_
  exact hwSet_kept ..
  exact .refl _

theorem rcSet_kept (off : Nat) (before : U32) (f : U32 → U32) (s : State) :
    Kept s (rcSet off before f s) := by
  unfold rcSet
  refine .ite ?_ ?_
  exact .refl _
  refine .ite ?_ ?_
  refine .of ?_ rfl id id id
  exact .refl _
  refine .of ?_ rfl id id id
  exact .refl _

theorem rcTaken_kept (off : Nat) (s : State) :
    Kept s (rcTaken off s) := by
  unfold rcTaken
  refine .of ?_ rfl id id id
  exact .refl _

theorem hostWrite_kept (s : State) (a : U48) (l : List Byte) : Kept s (hostWrite s a l) :=
  .of (.refl _) rfl (fun h => ⟨h.1, h.2.1, h.2.2.1, h.2.2.2.1, h.2.2.2.2.1, memWrite_wf _ _ h.2.2.2.2.2⟩) id id

theorem raiseData_kept (src : Nat) (data : U32) (s : State) : Kept s (raiseData src data s) := by
  unfold raiseData
  dsimp only
  refine .ite ?_ ?_
  refine .of ?_ rfl id id id
  exact .refl _
  split
  refine .of ?_ rfl id id id
  exact .refl _
  exact State.modSrc_kept ..
  exact State.modSrc_kept ..

theorem raise_kept (src : Nat) (s : State) : Kept s (raise src s) := by
  unfold raise
  exact raiseData_kept ..

theorem raiseIf_kept (b : Bool) (src : Nat) (s : State) : Kept s (raiseIf b src s) := by
  unfold raiseIf
  refine .ite ?_ ?_
  exact raise_kept ..
  exact .refl _

theorem takeCount_kept (src : Nat) (s : State) : Kept s (takeCount src s) := by
  unfold takeCount
  dsimp only
  split
  exact State.modSrc_kept ..
  exact State.modSrc_kept ..

theorem raiseRising_kept {w : Nat} (was : BitVec w) (now : BitVec w) (src : Nat) (s : State) :
    Kept s (raiseRising was now src s) := by
  unfold raiseRising
  exact raiseIf_kept ..

theorem wakeRequest_kept (b : Nat) (s : State) : Kept s (wakeRequest b s) := by
  unfold wakeRequest
  dsimp only
  refine .ite ?_ ?_
  exact hwSet_kept ..
  exact .refl _

theorem schedule_kept (s : State) (fc : Nat) (rank : Nat) (act : Act) : Kept s (schedule s fc rank act) := by
  unfold schedule
  refine .of ?_ rfl id id id
  exact .refl _

theorem disciplineFc_kept (s : State) :
    Kept s (disciplineFc s) := by
  unfold disciplineFc
  dsimp only
  refine .of ?_ rfl id id id
  exact .refl _

theorem moveGauge_kept (g : U64) (forward : Nat) (s : State) : Kept s (moveGauge g forward s) := by
  unfold moveGauge
  dsimp only
  refine .of ?_ rfl ?_ ?_ ?_
  exact .refl _
  exact fun h => ⟨h.1, h.2.1, h.2.2.1, h.2.2.2.1, h.2.2.2.2.1, h.2.2.2.2.2⟩
  exact fun h => by split <;> exact h
  exact id

end Sys2Proof.Machine
end

