-- ==== Sys2Proof/Laws/KeptFrames.lean ====
section
/-! SUPPORT. Every operation of Machine/Frames.lean leaves the command queue alone and keeps the memories canonical. -/

namespace Sys2Proof.Machine

set_option Elab.async false

theorem sendSet_kept (p : Nat) (w : U64) (s : State) : Kept s (sendSet p w s) := by
  unfold sendSet
  dsimp only
  exact State.modPort_kept ..

theorem queueFrame_kept (p : Nat) (f : Frame) (cmd : Option Nat) (s : State) : Kept s (queueFrame p f cmd s) := by
  unfold queueFrame
  exact State.modPort_kept ..

theorem keepFrame_kept (p : Nat) (f : Frame) (s : State) : Kept s (keepFrame p f s) := by
  unfold keepFrame
  exact State.modPort_kept ..

theorem dropFrame_kept (s : State) : Kept s (dropFrame s) := by
  unfold dropFrame
  exact rcSet_kept ..

theorem netFlag_kept (b : Bool) (i : Nat) (s : State) :
    Kept s (netFlag b i s) := by
  unfold netFlag
  exact hwSetIf_kept ..

theorem forward_kept (at_ : Nat) (arrived : Option Nat) (f : Frame) (cmd : Option Nat) (s : State) :
    Kept s (forward at_ arrived f cmd s) := by
  unfold forward
  refine .ite ?_ ?_
  refine .trans ?_ (.foldl (fun s k => ?_) _ _)
  exact keepFrame_kept ..
  exact queueFrame_kept ..
  refine .ite ?_ ?_
  exact keepFrame_kept ..
  split
  exact queueFrame_kept ..
  refine .trans ?_ (dropFrame_kept ..)
  exact netFlag_kept ..

theorem originate_kept (f : Frame) (cmd : Option Nat) (s : State) : Kept s (originate f cmd s) := by
  unfold originate
  refine .ite ?_ ?_
  exact forward_kept ..
  exact .refl _

theorem relay_kept (p : Nat) (f : Frame) (s : State) : Kept s (relay p f s) := by
  unfold relay
  refine .ite ?_ ?_
  exact dropFrame_kept ..
  refine .ite ?_ ?_
  exact dropFrame_kept ..
  exact forward_kept ..

theorem nextMsg_kept (s : State) : Kept s (nextMsg s).2 := by
  unfold nextMsg
  dsimp only
  refine .of ?_ rfl id id id
  exact .refl _

theorem sendMgmt_kept (p : Nat) (sub : BitVec 3) (content : List Byte) (s : State) :
    Kept s (sendMgmt p sub content s) := by
  unfold sendMgmt
  exact queueFrame_kept ..

theorem sendShut_kept (s : State) : Kept s (sendShut s) := by
  unfold sendShut
  dsimp only
  refine .trans ?_ (.each (fun s k => ?_) _ _)
  refine .of ?_ rfl id id id
  exact .refl _
  refine .ite ?_ ?_
  exact sendSet_kept ..
  exact .refl _

end Sys2Proof.Machine
end

