-- ==== Sys2Proof/Laws/KeptOutlet.lean ====
section
/-! SUPPORT. Every operation of Machine/Outlet.lean leaves the command queue alone and keeps the memories canonical. -/

namespace Sys2Proof.Machine

set_option Elab.async false

theorem outFlag_kept (n : Nat) (b : Nat) (s : State) : Kept s (outFlag n b s) := by
  unfold outFlag
  dsimp only
  refine .trans ?_ (raiseIf_kept ..)
  refine .trans ?_ (hwSet_kept ..)
  exact State.modOut_kept ..

theorem outFlagIf_kept (c : Bool) (n : Nat) (b : Nat) (s : State) : Kept s (outFlagIf c n b s) := by
  unfold outFlagIf
  refine .ite ?_ ?_
  exact outFlag_kept ..
  exact .refl _

theorem shadowFromLevel_kept (n : Nat) (s : State) : Kept s (shadowFromLevel n s) := by
  unfold shadowFromLevel
  dsimp only
  exact State.modOut_kept ..

theorem queueClaim_kept (n : Nat) (s : State) : Kept s (queueClaim n s) := by
  unfold queueClaim
  refine .ite ?_ ?_
  exact .refl _
  dsimp only
  refine .trans ?_ (outFlagIf_kept ..)
  refine .trans ?_ (outFlag_kept ..)
  refine .trans ?_ (State.modOut_kept ..)
  refine .ite ?_ ?_
  refine .trans ?_ (shadowFromLevel_kept ..)
  exact shadowFromLevel_kept ..
  exact shadowFromLevel_kept ..

theorem riderClaim_kept (p : Nat) (s : State) : Kept s (riderClaim p s) := by
  unfold riderClaim
  refine .trans ?_ (.each (fun s k => ?_) _ _)
  exact .refl _
  dsimp only
  refine .ite ?_ ?_
  split
  refine .trans ?_ (outFlag_kept ..)
  exact State.modOut_kept ..
  exact State.modOut_kept ..
  refine .trans ?_ (outFlagIf_kept ..)
  refine .trans ?_ (outFlag_kept ..)
  refine .trans ?_ (State.modOut_kept ..)
  exact State.modOut_kept ..
  exact .refl _

theorem dropDueHolds_kept (n : Nat) (s : State) : Kept s (dropDueHolds n s) := by
  unfold dropDueHolds
  exact State.modOut_kept ..

theorem accept_kept (n : Nat) (op : EdgeOp) (tag : Byte) (t : U40) (s : State) : Kept s (accept n op tag t s) := by
  unfold accept
  dsimp only
  refine .ite ?_ ?_
  exact State.modOut_kept ..
  refine .ite ?_ ?_
  refine .ite ?_ ?_
  refine .trans ?_ (State.modOut_kept ..)
  refine .trans ?_ (State.modOut_kept ..)
  exact State.modOut_kept ..
  refine .trans ?_ (State.modOut_kept ..)
  refine .trans ?_ (State.modOut_kept ..)
  exact State.modOut_kept ..
  exact State.modOut_kept ..

theorem late_kept (n : Nat) (op : EdgeOp) (tag : Byte) (t : U40) (d : Int) (made : Nat) (s : State) :
    Kept s (late n op tag t d made s) := by
  unfold late
  dsimp only
  split
  refine .trans ?_ (accept_kept ..)
  exact outFlag_kept ..
  refine .ite ?_ ?_
  exact outFlag_kept ..
  refine .ite ?_ ?_
  refine .trans ?_ (accept_kept ..)
  exact outFlag_kept ..
  refine .trans ?_ (outFlag_kept ..)
  exact outFlag_kept ..
  exact outFlag_kept ..

theorem postClaim_kept (n : Nat) (s : State) : Kept s (postClaim n s).1 := by
  unfold postClaim
  refine .iteFst ?_ ?_
  dsimp only
  exact .refl _
  refine .iteFst ?_ ?_
  dsimp only
  exact .refl _
  refine .iteFst ?_ ?_
  dsimp only
  exact .refl _
  refine .iteFst ?_ ?_
  dsimp only
  exact outFlag_kept ..
  dsimp only
  exact queueClaim_kept ..

theorem postR_kept (n : Nat) (op : EdgeOp) (tag : Byte) (t : U40) (made : Nat) (s : State) :
    Kept s (postR n op tag t made s).1 := by
  unfold postR
  dsimp only
  refine .iteFst ?_ ?_
  dsimp only
  exact .refl _
  refine .iteFst ?_ ?_
  dsimp only
  exact .refl _
  refine .iteFst ?_ ?_
  dsimp only
  exact .refl _
  refine .iteFst ?_ ?_
  dsimp only
  exact outFlag_kept ..
  refine .iteFst ?_ ?_
  dsimp only
  refine .trans ?_ (outFlag_kept ..)
  exact dropDueHolds_kept ..
  refine .iteFst ?_ ?_
  dsimp only
  refine .trans ?_ (accept_kept ..)
  exact dropDueHolds_kept ..
  dsimp only
  refine .trans ?_ (late_kept ..)
  exact dropDueHolds_kept ..

theorem post_kept (ag : Agent) (n : Nat) (op : BitVec 2) (t : U40) (s : State) : Kept s (post ag n op t s) := by
  unfold post
  dsimp only
  refine .ite ?_ ?_
  refine .trans ?_ (schedule_kept ..)
  exact postClaim_kept ..
  exact postClaim_kept ..

theorem intoLine_kept (n : Nat) (m : Nat) (op : EdgeOp) (t : U40) (rise : Option U40) (s : State) :
    Kept s (intoLine n m op t rise s) := by
  unfold intoLine
  dsimp only
  refine .ite ?_ ?_
  exact State.modOut_kept ..
  refine .trans ?_ (outFlag_kept ..)
  exact State.modOut_kept ..

theorem entryMove_kept (n : Nat) (s : State) : Kept s (entryMove n s) := by
  unfold entryMove
  dsimp only
  split
  rename_i h
  split at h
  cases h
  split at h
  cases h
  refine .trans ?_ (intoLine_kept ..)
  exact State.modOut_kept ..
  cases h
  split
  exact .refl _
  refine .trans ?_ (intoLine_kept ..)
  exact State.modOut_kept ..

theorem edgeRetire_kept (n : Nat) (s : State) : Kept s (edgeRetire n s) := by
  unfold edgeRetire
  dsimp only
  split
  exact .refl _
  exact State.modOut_kept ..

theorem holdRetire_kept (n : Nat) (s : State) : Kept s (holdRetire n s) := by
  unfold holdRetire
  exact State.modOut_kept ..

theorem flushOut_kept (n : Nat) (s : State) : Kept s (flushOut n s) := by
  unfold flushOut
  dsimp only
  refine .trans ?_ (State.modOut_kept ..)
  refine .ite ?_ ?_
  exact State.modOut_kept ..
  refine .ite ?_ ?_
  exact State.modOut_kept ..
  exact .refl _

theorem writeOwner_kept (n : Nat) (v : BitVec 2) (s : State) : Kept s (writeOwner n v s) := by
  unfold writeOwner
  refine .ite ?_ ?_
  exact .refl _
  exact State.modOut_kept ..

theorem writeLvl_kept (n : Nat) (v : Bool) (s : State) : Kept s (writeLvl n v s) := by
  unfold writeLvl
  dsimp only
  refine .ite ?_ ?_
  exact .refl _
  refine .trans ?_ (outFlagIf_kept ..)
  exact State.modOut_kept ..

theorem writeOen_kept (n : Nat) (v : Bool) (s : State) : Kept s (writeOen n v s) := by
  unfold writeOen
  dsimp only
  refine .ite ?_ ?_
  refine .trans ?_ (schedule_kept ..)
  exact State.modOut_kept ..
  exact State.modOut_kept ..

theorem writePair_kept (n : Nat) (v : Bool) (s : State) : Kept s (writePair n v s) := by
  unfold writePair
  refine .ite ?_ ?_
  exact .refl _
  refine .ite ?_ ?_
  exact State.modOut_kept ..
  exact outFlag_kept ..

theorem writeLate_kept (n : Nat) (lp : BitVec 2) (dp : U32) (s : State) : Kept s (writeLate n lp dp s) := by
  unfold writeLate
  exact State.modOut_kept ..

theorem stagePostl_kept (ag : Agent) (n : Nat) (v : U32) (s : State) : Kept s (stagePostl ag n v s) := by
  unfold stagePostl
  exact State.modOut_kept ..

theorem writePosth_kept (ag : Agent) (n : Nat) (v : U32) (s : State) : Kept s (writePosth ag n v s) := by
  unfold writePosth
  dsimp only
  exact post_kept ..

theorem writeOutCtl_kept (n : Nat) (v : U32) (s : State) : Kept s (writeOutCtl n v s) := by
  unfold writeOutCtl
  dsimp only
  refine .ite ?_ ?_
  refine .trans ?_ (flushOut_kept ..)
  refine .trans ?_ (writePair_kept ..)
  refine .trans ?_ (writeOen_kept ..)
  refine .trans ?_ (writeLvl_kept ..)
  refine .trans ?_ (State.modOut_kept ..)
  refine .trans ?_ (writeLate_kept ..)
  exact writeOwner_kept ..
  refine .trans ?_ (writePair_kept ..)
  refine .trans ?_ (writeOen_kept ..)
  refine .trans ?_ (writeLvl_kept ..)
  refine .trans ?_ (State.modOut_kept ..)
  refine .trans ?_ (writeLate_kept ..)
  exact writeOwner_kept ..

theorem outWrite_kept (ag : Agent) (n : Nat) (r : Nat) (v : U32) (s : State) : Kept s (outWrite ag n r v s) := by
  unfold outWrite
  split
  exact writeOutCtl_kept ..
  exact State.modOut_kept ..
  refine .ite ?_ ?_
  exact State.modOut_kept ..
  exact .refl _
  refine .ite ?_ ?_
  exact State.modOut_kept ..
  exact .refl _
  exact writeLate_kept ..
  exact State.modOut_kept ..
  exact stagePostl_kept ..
  exact writePosth_kept ..
  exact .refl _

theorem applyTaps_kept (s : State) :
    Kept s (applyTaps s) := by
  unfold applyTaps
  refine .of ?_ rfl id id id
  exact .refl _

end Sys2Proof.Machine
end

