-- ==== Sys2Proof/Laws/KeptTimer.lean ====
section
/-! SUPPORT. Every operation of Machine/Timer.lean leaves the command queue alone and keeps the memories canonical. -/

namespace Sys2Proof.Machine

set_option Elab.async false

theorem sampleRequest_kept (l : Nat) (s : State) : Kept s (sampleRequest l s) := by
  unfold sampleRequest
  refine .ite ?_ ?_
  exact .refl _
  dsimp only
  refine .ite ?_ ?_
  exact .refl _
  refine .ite ?_ ?_
  refine .trans ?_ (hwSetIf_kept ..)
  refine .of ?_ rfl id id id
  exact .refl _
  refine .of ?_ rfl id id id
  exact .refl _

theorem culPulse_kept (trg : BitVec 2) (sel : Nat) (s : State) : Kept s (culPulse trg sel s) := by
  unfold culPulse
  refine .of ?_ rfl id id id
  exact .refl _

theorem timerPulse_kept (n : Nat) (s : State) :
    Kept s (timerPulse n s) := by
  unfold timerPulse
  refine .ite ?_ ?_
  exact .refl _
  refine .trans ?_ (culPulse_kept ..)
  exact State.modTmr_kept ..

theorem sendTrigger_kept (m : Nat) (s : State) :
    Kept s (sendTrigger m s) := by
  unfold sendTrigger
  exact State.modTmr_kept ..

theorem timerActs_kept (n : Nat) (a : BitVec 11) (s : State) : Kept s (timerActs n a s) := by
  unfold timerActs
  dsimp only
  refine .trans ?_ (raiseIf_kept ..)
  refine .ite ?_ ?_
  refine .trans ?_ (schedule_kept ..)
  refine .ite ?_ ?_
  refine .trans ?_ (schedule_kept ..)
  refine .ite ?_ ?_
  refine .trans ?_ (sendTrigger_kept ..)
  refine .ite ?_ ?_
  refine .trans ?_ (timerPulse_kept ..)
  refine .ite ?_ ?_
  exact sampleRequest_kept ..
  exact .refl _
  refine .ite ?_ ?_
  exact sampleRequest_kept ..
  exact .refl _
  refine .ite ?_ ?_
  refine .trans ?_ (timerPulse_kept ..)
  refine .ite ?_ ?_
  exact sampleRequest_kept ..
  exact .refl _
  refine .ite ?_ ?_
  exact sampleRequest_kept ..
  exact .refl _
  refine .ite ?_ ?_
  refine .trans ?_ (sendTrigger_kept ..)
  refine .ite ?_ ?_
  refine .trans ?_ (timerPulse_kept ..)
  refine .ite ?_ ?_
  exact sampleRequest_kept ..
  exact .refl _
  refine .ite ?_ ?_
  exact sampleRequest_kept ..
  exact .refl _
  refine .ite ?_ ?_
  refine .trans ?_ (timerPulse_kept ..)
  refine .ite ?_ ?_
  exact sampleRequest_kept ..
  exact .refl _
  refine .ite ?_ ?_
  exact sampleRequest_kept ..
  exact .refl _
  refine .ite ?_ ?_
  refine .trans ?_ (schedule_kept ..)
  refine .ite ?_ ?_
  refine .trans ?_ (sendTrigger_kept ..)
  refine .ite ?_ ?_
  refine .trans ?_ (timerPulse_kept ..)
  refine .ite ?_ ?_
  exact sampleRequest_kept ..
  exact .refl _
  refine .ite ?_ ?_
  exact sampleRequest_kept ..
  exact .refl _
  refine .ite ?_ ?_
  refine .trans ?_ (timerPulse_kept ..)
  refine .ite ?_ ?_
  exact sampleRequest_kept ..
  exact .refl _
  refine .ite ?_ ?_
  exact sampleRequest_kept ..
  exact .refl _
  refine .ite ?_ ?_
  refine .trans ?_ (sendTrigger_kept ..)
  refine .ite ?_ ?_
  refine .trans ?_ (timerPulse_kept ..)
  refine .ite ?_ ?_
  exact sampleRequest_kept ..
  exact .refl _
  refine .ite ?_ ?_
  exact sampleRequest_kept ..
  exact .refl _
  refine .ite ?_ ?_
  refine .trans ?_ (timerPulse_kept ..)
  refine .ite ?_ ?_
  exact sampleRequest_kept ..
  exact .refl _
  refine .ite ?_ ?_
  exact sampleRequest_kept ..
  exact .refl _

theorem timerRestart_kept (n : Nat) (s : State) : Kept s (timerRestart n s) := by
  unfold timerRestart
  exact State.modTmr_kept ..

theorem timerStart_kept (n : Nat) (s : State) : Kept s (timerStart n s) := by
  unfold timerStart
  exact State.modTmr_kept ..

theorem timerStop_kept (n : Nat) (s : State) : Kept s (timerStop n s) := by
  unfold timerStop
  exact State.modTmr_kept ..

theorem tmrSet_kept (n : Nat) (bits : U32) (s : State) :
    Kept s (tmrSet n bits s) := by
  unfold tmrSet
  exact hwSet_kept ..

theorem timerWrap_kept (n : Nat) (s : State) : Kept s (timerWrap n s) := by
  unfold timerWrap
  dsimp only
  refine .trans ?_ (timerActs_kept ..)
  refine .ite ?_ ?_
  refine .trans ?_ (State.modTmr_kept ..)
  refine .trans ?_ (tmrSet_kept ..)
  exact State.modTmr_kept ..
  refine .trans ?_ (tmrSet_kept ..)
  exact State.modTmr_kept ..

theorem timerTick_kept (n : Nat) (s : State) : Kept s (timerTick n s) := by
  unfold timerTick
  dsimp only
  refine .ite ?_ ?_
  refine .trans ?_ (timerWrap_kept ..)
  exact State.modTmr_kept ..
  refine .trans ?_ (State.modTmr_kept ..)
  exact State.modTmr_kept ..

theorem capture_kept (n : Nat) (s : State) : Kept s (capture n s) := by
  unfold capture
  dsimp only
  refine .ite ?_ ?_
  exact State.modTmr_kept ..
  refine .ite ?_ ?_
  refine .trans ?_ (raiseData_kept ..)
  refine .ite ?_ ?_
  refine .trans ?_ (tmrSet_kept ..)
  exact State.modTmr_kept ..
  exact State.modTmr_kept ..
  refine .ite ?_ ?_
  refine .trans ?_ (tmrSet_kept ..)
  exact State.modTmr_kept ..
  exact State.modTmr_kept ..

theorem lateCapture_kept (s : State) (n : Nat) :
    Kept s (lateCapture s n) := by
  unfold lateCapture
  split
  exact .refl _
  dsimp only
  refine .ite ?_ ?_
  refine .trans ?_ (raiseData_kept ..)
  refine .trans ?_ (State.modTmr_kept ..)
  refine .ite ?_ ?_
  exact tmrSet_kept ..
  exact .refl _
  refine .trans ?_ (State.modTmr_kept ..)
  refine .ite ?_ ?_
  exact tmrSet_kept ..
  exact .refl _

theorem captureEvents_kept (csrc : BitVec 2) (sel : Nat) (s : State) : Kept s (captureEvents csrc sel s) := by
  unfold captureEvents
  refine .ite ?_ ?_
  exact .refl _
  refine .of ?_ rfl id id id
  exact .refl _

theorem compareMatch_kept (n : Nat) (ch : Chan) (s : State) : Kept s (compareMatch n ch s) := by
  unfold compareMatch
  dsimp only
  split
  refine .trans ?_ (captureEvents_kept ..)
  refine .trans ?_ (timerActs_kept ..)
  refine .trans ?_ (State.modTmr_kept ..)
  exact tmrSet_kept ..
  refine .trans ?_ (timerActs_kept ..)
  refine .trans ?_ (State.modTmr_kept ..)
  exact tmrSet_kept ..
  refine .trans ?_ (timerActs_kept ..)
  refine .trans ?_ (State.modTmr_kept ..)
  exact tmrSet_kept ..

theorem writeRun_kept (n : Nat) (v : Bool) (s : State) : Kept s (writeRun n v s) := by
  unfold writeRun
  dsimp only
  refine .ite ?_ ?_
  exact timerStart_kept ..
  refine .ite ?_ ?_
  exact timerStop_kept ..
  exact .refl _

theorem writeAten_kept (n : Nat) (v : Bool) (s : State) : Kept s (writeAten n v s) := by
  unfold writeAten
  dsimp only
  refine .ite ?_ ?_
  exact State.modTmr_kept ..
  refine .ite ?_ ?_
  exact .refl _
  refine .ite ?_ ?_
  exact State.modTmr_kept ..
  refine .trans ?_ (tmrSet_kept ..)
  exact State.modTmr_kept ..

theorem writeTmrCtl_kept (n : Nat) (v : U32) (s : State) : Kept s (writeTmrCtl n v s) := by
  unfold writeTmrCtl
  dsimp only
  refine .trans ?_ (writeAten_kept ..)
  refine .trans ?_ (writeRun_kept ..)
  exact State.modTmr_kept ..

theorem writeCnt_kept (n : Nat) (v : U32) (s : State) : Kept s (writeCnt n v s) := by
  unfold writeCnt
  exact State.modTmr_kept ..

theorem writePreload_kept (n : Nat) (r : TimerReg) (v : U32) (s : State) : Kept s (writePreload n r v s) := by
  unfold writePreload
  dsimp only
  exact State.modTmr_kept ..

theorem writeLive_kept (n : Nat) (r : TimerReg) (v : U32) (s : State) : Kept s (writeLive n r v s) := by
  unfold writeLive
  dsimp only
  exact State.modTmr_kept ..

theorem writeTimerReg_kept (ag : Agent) (n : Nat) (r : TimerReg) (v : U32) (s : State) :
    Kept s (writeTimerReg ag n r v s) := by
  unfold writeTimerReg
  split
  exact writeLive_kept ..
  exact writeLive_kept ..
  exact writePreload_kept ..

theorem readCap_kept (n : Nat) (s : State) : Kept s (readCap n s).2 := by
  unfold readCap
  dsimp only
  split
  split
  dsimp only
  exact State.modTmr_kept ..
  dsimp only
  refine .trans ?_ (tmrSet_kept ..)
  refine .trans ?_ (State.modTmr_kept ..)
  exact State.modTmr_kept ..
  split
  dsimp only
  exact State.modTmr_kept ..
  dsimp only
  refine .trans ?_ (tmrSet_kept ..)
  refine .trans ?_ (State.modTmr_kept ..)
  exact State.modTmr_kept ..

theorem tmrWrite_kept (ag : Agent) (n : Nat) (r : Nat) (v : U32) (s : State) : Kept s (tmrWrite ag n r v s) := by
  unfold tmrWrite
  split
  exact writeTmrCtl_kept ..
  exact State.modTmr_kept ..
  exact writeCnt_kept ..
  exact writeTimerReg_kept ..
  exact writeTimerReg_kept ..
  exact writeTimerReg_kept ..
  exact writeTimerReg_kept ..
  exact State.modTmr_kept ..
  exact State.modTmr_kept ..
  exact State.modTmr_kept ..
  exact State.modTmr_kept ..
  exact State.modTmr_kept ..
  exact State.modTmr_kept ..
  exact State.modTmr_kept ..
  exact State.modTmr_kept ..
  exact .refl _

end Sys2Proof.Machine
end

