-- ==== Sys2Proof/Laws/KeptFlume.lean ====
section
/-! SUPPORT. Every operation of Machine/Flume.lean leaves the command queue alone and keeps the memories canonical. -/

namespace Sys2Proof.Machine

set_option Elab.async false

theorem flFlag_kept (n : Nat) (b : Nat) (s : State) : Kept s (flFlag n b s) := by
  unfold flFlag
  dsimp only
  refine .trans ?_ (raiseIf_kept ..)
  refine .trans ?_ (hwSet_kept ..)
  exact State.modFl_kept ..

theorem flFlagIf_kept (c : Bool) (n : Nat) (b : Nat) (s : State) : Kept s (flFlagIf c n b s) := by
  unfold flFlagIf
  refine .ite ?_ ?_
  exact flFlag_kept ..
  exact .refl _

theorem gateFlag_kept (n : Nat) (k : Nat) (s : State) : Kept s (gateFlag n k s) := by
  unfold gateFlag
  exact State.modFl_kept ..

theorem boundary_kept (n : Nat) (s : State) : Kept s (boundary n s) := by
  unfold boundary
  dsimp only
  refine .ite ?_ ?_
  refine .trans ?_ (schedule_kept ..)
  refine .trans ?_ (State.modFl_kept ..)
  refine .ite ?_ ?_
  exact State.modFl_kept ..
  exact flFlag_kept ..
  refine .trans ?_ (State.modFl_kept ..)
  refine .ite ?_ ?_
  exact State.modFl_kept ..
  exact flFlag_kept ..

theorem withBoundary_kept (n : Nat) (s : State) : Kept s (withBoundary n s) := by
  unfold withBoundary
  refine .ite ?_ ?_
  exact boundary_kept ..
  exact .refl _

theorem finish_kept (n : Nat) (v : Int) (clampAt : Nat) (commit : Nat) (s : State) :
    Kept s (finish n v clampAt commit s) := by
  unfold finish
  dsimp only
  refine .trans ?_ (schedule_kept ..)
  split
  exact .refl _
  exact schedule_kept ..

theorem affine_kept (n : Nat) (x1 : BitVec 24) (s : State) : Kept s (affine n x1 s) := by
  unfold affine
  dsimp only
  exact finish_kept ..

theorem crossing_kept (n : Nat) (x : BitVec 24) (s : State) : Kept s (crossing n x s) := by
  unfold crossing
  dsimp only
  split
  refine .ite ?_ ?_
  refine .trans ?_ (finish_kept ..)
  exact State.modFl_kept ..
  exact State.modFl_kept ..
  refine .ite ?_ ?_
  refine .trans ?_ (finish_kept ..)
  refine .trans ?_ (State.modFl_kept ..)
  refine .of ?_ rfl id id id
  exact .refl _
  exact State.modFl_kept ..

theorem sample1_kept (n : Nat) (x : BitVec 24) (s : State) : Kept s (sample1 n x s) := by
  unfold sample1
  dsimp only
  refine .ite ?_ ?_
  split
  refine .ite ?_ ?_
  refine .ite ?_ ?_
  refine .trans ?_ (flFlag_kept ..)
  exact withBoundary_kept ..
  refine .trans ?_ (schedule_kept ..)
  refine .trans ?_ (State.modFl_kept ..)
  exact withBoundary_kept ..
  exact withBoundary_kept ..
  refine .ite ?_ ?_
  exact withBoundary_kept ..
  refine .trans ?_ (crossing_kept ..)
  exact withBoundary_kept ..
  exact withBoundary_kept ..
  exact withBoundary_kept ..

theorem mbLand_kept (n : Nat) (second : Bool) (s : State) :
    Kept s (mbLand n second s) := by
  unfold mbLand
  dsimp only
  exact rcSet_kept ..

theorem flumeSample_kept (n : Nat) (p : Nat) (x : BitVec 24) (tag : BitVec 4) (s : State) :
    Kept s (flumeSample n p x tag s) := by
  unfold flumeSample
  dsimp only
  refine .ite ?_ ?_
  refine .trans ?_ (sample1_kept ..)
  refine .ite ?_ ?_
  refine .trans ?_ (State.modFl_kept ..)
  refine .trans ?_ (mbLand_kept ..)
  refine .ite ?_ ?_
  refine .trans ?_ (State.modFl_kept ..)
  exact mbLand_kept ..
  exact .refl _
  refine .ite ?_ ?_
  refine .trans ?_ (State.modFl_kept ..)
  exact mbLand_kept ..
  exact .refl _
  refine .ite ?_ ?_
  refine .trans ?_ (State.modFl_kept ..)
  refine .trans ?_ (mbLand_kept ..)
  refine .ite ?_ ?_
  refine .trans ?_ (State.modFl_kept ..)
  exact mbLand_kept ..
  exact .refl _
  refine .ite ?_ ?_
  refine .trans ?_ (State.modFl_kept ..)
  exact mbLand_kept ..
  exact .refl _

theorem flumePosts_kept (n : Nat) (op : BitVec 2) (t : U40) (s : State) : Kept s (flumePosts n op t s) := by
  unfold flumePosts
  dsimp only
  refine .ite ?_ ?_
  refine .trans ?_ (schedule_kept ..)
  exact postClaim_kept ..
  exact postClaim_kept ..

theorem commit_kept (n : Nat) (t : U40) (edge : BitVec 2) (start : BitVec 2) (next : U40) (s : State) :
    Kept s (commit n t edge start next s) := by
  unfold commit
  dsimp only
  refine .ite ?_ ?_
  refine .ite ?_ ?_
  refine .trans ?_ (flFlag_kept ..)
  exact State.modFl_kept ..
  refine .trans ?_ (flumePosts_kept ..)
  refine .trans ?_ (flFlag_kept ..)
  exact State.modFl_kept ..
  refine .trans ?_ (schedule_kept ..)
  refine .ite ?_ ?_
  refine .trans ?_ (flFlag_kept ..)
  exact State.modFl_kept ..
  refine .trans ?_ (flumePosts_kept ..)
  refine .trans ?_ (flFlag_kept ..)
  exact State.modFl_kept ..

theorem startAction_kept (n : Nat) (op : BitVec 2) (t : U40) (s : State) : Kept s (startAction n op t s) := by
  unfold startAction
  exact flumePosts_kept ..

theorem flumePostTest_kept (n : Nat) (out : Nat) (op : BitVec 2) (t : U40) (made : Nat) (s : State) :
    Kept s (flumePostTest n out op t made s) := by
  unfold flumePostTest
  dsimp only
  refine .ite ?_ ?_
  refine .trans ?_ (flFlag_kept ..)
  refine .trans ?_ (gateFlag_kept ..)
  refine .trans ?_ (postR_kept ..)
  exact withBoundary_kept ..
  refine .trans ?_ (postR_kept ..)
  exact withBoundary_kept ..

theorem flumeClamped_kept (n : Nat) (hi : Bool) (s : State) : Kept s (flumeClamped n hi s) := by
  unfold flumeClamped
  refine .trans ?_ (flFlag_kept ..)
  refine .trans ?_ (gateFlag_kept ..)
  exact withBoundary_kept ..

theorem flumeCommitStage_kept (n : Nat) (t : U40) (edge : BitVec 2) (start : BitVec 2) (next : U40)
    (per : Nat) (s : State) : Kept s (flumeCommitStage n t edge start next per s) := by
  unfold flumeCommitStage
  dsimp only
  refine .trans ?_ (commit_kept ..)
  refine .trans ?_ (State.modFl_kept ..)
  exact withBoundary_kept ..

theorem dropActs_kept (p : Act → Bool) (s : State) : Kept s (dropActs p s) := by
  unfold dropActs
  refine .of ?_ rfl id id id
  exact .refl _

theorem claimTimer_kept (n : Nat) (s : State) : Kept s (claimTimer n s) := by
  unfold claimTimer
  dsimp only
  refine .ite ?_ ?_
  split
  exact State.modTmr_kept ..
  refine .ite ?_ ?_
  refine .trans ?_ (flFlag_kept ..)
  exact State.modTmr_kept ..
  exact flFlag_kept ..
  exact .refl _

theorem armFlume_kept (n : Nat) (s : State) : Kept s (armFlume n s) := by
  unfold armFlume
  refine .ite ?_ ?_
  refine .trans ?_ (claimTimer_kept ..)
  exact State.modFl_kept ..
  exact flFlag_kept ..

theorem disarm_kept (n : Nat) (s : State) : Kept s (disarm n s) := by
  unfold disarm
  refine .ite ?_ ?_
  dsimp only
  refine .of ?_ rfl id id id
  refine .trans ?_ (State.modFl_kept ..)
  exact dropActs_kept ..
  exact .refl _

theorem writeFlCtl_kept (n : Nat) (v : U32) (s : State) : Kept s (writeFlCtl n v s) := by
  unfold writeFlCtl
  dsimp only
  refine .ite ?_ ?_
  refine .ite ?_ ?_
  exact flFlagIf_kept ..
  refine .trans ?_ (disarm_kept ..)
  exact flFlagIf_kept ..
  refine .ite ?_ ?_
  refine .trans ?_ (armFlume_kept ..)
  exact State.modFl_kept ..
  exact State.modFl_kept ..

theorem writeGuarded_kept (n : Nat) (changes : Bool) (f : Flume → Flume) (s : State) :
    Kept s (writeGuarded n changes f s) := by
  unfold writeGuarded
  refine .ite ?_ ?_
  exact flFlagIf_kept ..
  exact State.modFl_kept ..

theorem writeFlReg_kept (n : Nat) (r : FlumeReg) (v : U32) (s : State) : Kept s (writeFlReg n r v s) := by
  unfold writeFlReg
  dsimp only
  split
  exact writeFlCtl_kept ..
  exact writeGuarded_kept ..
  exact writeGuarded_kept ..
  exact writeGuarded_kept ..
  exact writeGuarded_kept ..

theorem bankOp_kept (ag : Agent) (n : Nat) (op : BankOp) (s : State) :
    Kept s (bankOp ag n op s) := by
  unfold bankOp
  dsimp only
  refine .trans ?_ (flFlagIf_kept ..)
  refine .trans ?_ (State.modFl_kept ..)
  exact withBoundary_kept ..

theorem writePend_kept (ag : Agent) (n i : Nat) (v : U32) (s : State) :
    Kept s (writePend ag n i v s) := by
  unfold writePend
  exact bankOp_kept ..

theorem sealBank_kept (ag : Agent) (n : Nat) (s : State) :
    Kept s (sealBank ag n s) := by
  unfold sealBank
  exact bankOp_kept ..

theorem writePbdata_kept (ag : Agent) (n : Nat) (v : U32) (s : State) :
    Kept s (writePbdata ag n v s) := by
  unfold writePbdata
  exact bankOp_kept ..

theorem mbClear_kept (n : Nat) (second : Bool) (s : State) : Kept s (mbClear n second s) := by
  unfold mbClear
  dsimp only
  refine .trans ?_ (rcTaken_kept ..)
  exact State.modFl_kept ..

theorem flWrite_kept (ag : Agent) (n r : Nat) (v : U32) (s : State) :
    Kept s (flWrite ag n r v s) := by
  unfold flWrite
  split
  exact writeFlReg_kept ..
  refine .trans ?_ (State.modFl_kept ..)
  exact withBoundary_kept ..
  refine .trans ?_ (State.modFl_kept ..)
  exact withBoundary_kept ..
  exact writeFlReg_kept ..
  exact writeFlReg_kept ..
  exact writeFlReg_kept ..
  exact writeFlReg_kept ..
  exact State.modFl_kept ..
  exact State.modFl_kept ..
  exact bankOp_kept ..
  exact writePbdata_kept ..
  refine .ite ?_ ?_
  exact sealBank_kept ..
  exact .refl _
  exact .refl _

theorem flReadEffect_kept (ag : Agent) (n r : Nat) (s : State) :
    Kept s (flReadEffect ag n r s) := by
  unfold flReadEffect
  split
  exact mbClear_kept ..
  exact mbClear_kept ..
  exact bankOp_kept ..
  exact .refl _

end Sys2Proof.Machine
end

