-- ==== Sys2Proof/Laws/KeptProtect.lean ====
section
/-! SUPPORT. Every operation of Machine/Protect.lean leaves the command queue alone and keeps the memories canonical. -/

namespace Sys2Proof.Machine

set_option Elab.async false

theorem handShut_kept (loc : Bool) (s : State) : Kept s (handShut loc s) := by
  unfold handShut
  refine .ite ?_ ?_
  refine .trans ?_ (sendShut_kept ..)
  refine .of ?_ rfl id id id
  exact .refl _
  exact .refl _

theorem lgTrigger_kept (on : Bool) (s : State) : Kept s (lgTrigger on s) := by
  unfold lgTrigger
  refine .ite ?_ ?_
  refine .of ?_ rfl id id id
  exact .refl _
  exact .refl _

theorem shutAssert_kept (b : Nat) (loc : Bool) (s : State) : Kept s (shutAssert b loc s) := by
  unfold shutAssert
  refine .ite ?_ ?_
  dsimp only
  refine .trans ?_ (handShut_kept ..)
  refine .trans ?_ (raise_kept ..)
  refine .trans ?_ (lgTrigger_kept ..)
  refine .of ?_ rfl id id id
  exact .refl _
  refine .ite ?_ ?_
  dsimp only
  refine .trans ?_ (handShut_kept ..)
  refine .ite ?_ ?_
  refine .of ?_ rfl id id id
  exact .refl _
  exact .refl _
  exact .refl _

theorem latchLink_kept (s : State) :
    Kept s (latchLink s) := by
  unfold latchLink
  refine .trans ?_ (shutAssert_kept ..)
  refine .of ?_ rfl id id id
  exact .refl _

theorem shutAssertIf_kept (c : Bool) (b : Nat) (loc : Bool) (s : State) : Kept s (shutAssertIf c b loc s) := by
  unfold shutAssertIf
  refine .ite ?_ ?_
  exact shutAssert_kept ..
  exact .refl _

theorem shutFlush_kept (s : State) : Kept s (shutFlush s) := by
  unfold shutFlush
  dsimp only
  refine .trans ?_ (.each (fun s k => ?_) _ _)
  refine .trans ?_ (.each (fun s k => ?_) _ _)
  exact .refl _
  refine .ite ?_ ?_
  exact flushOut_kept ..
  exact .refl _
  refine .ite ?_ ?_
  exact disarm_kept ..
  exact .refl _

theorem rearm_kept (s : State) : Kept s (rearm s) := by
  unfold rearm
  refine .ite ?_ ?_
  exact .refl _
  dsimp only
  refine .ite ?_ ?_
  refine .of ?_ rfl id id id
  exact .refl _
  refine .trans ?_ (raise_kept ..)
  refine .trans ?_ (hwSet_kept ..)
  refine .of ?_ rfl id id id
  exact .refl _

theorem shutRelease_kept (s : State) : Kept s (shutRelease s) := by
  unfold shutRelease
  split
  exact .refl _
  refine .ite ?_ ?_
  exact .refl _
  dsimp only
  refine .ite ?_ ?_
  refine .of ?_ rfl id id id
  exact .refl _
  refine .trans ?_ (raise_kept ..)
  refine .of ?_ rfl id id id
  exact .refl _

theorem writeShutreq_kept (v : U32) (s : State) : Kept s (writeShutreq v s) := by
  unfold writeShutreq
  refine .ite ?_ ?_
  refine .trans ?_ (shutAssertIf_kept ..)
  refine .of ?_ rfl id id id
  exact .refl _
  refine .ite ?_ ?_
  refine .of ?_ rfl id id id
  exact .refl _
  exact .refl _

theorem shutWrite_kept (ag : Agent) (r : Nat) (v : U32) (s : State) : Kept s (shutWrite ag r v s).1 := by
  unfold shutWrite
  split
  dsimp only
  exact writeShutreq_kept ..
  dsimp only
  refine .of ?_ rfl id id id
  exact .refl _
  refine .iteFst ?_ ?_
  dsimp only
  refine .ite ?_ ?_
  exact rearm_kept ..
  exact .refl _
  dsimp only
  exact .refl _
  refine .iteFst ?_ ?_
  dsimp only
  refine .of ?_ rfl id id id
  exact .refl _
  dsimp only
  exact .refl _
  dsimp only
  exact .refl _

theorem gateEvaluate_kept (s : State) : Kept s (gateEvaluate s) := by
  unfold gateEvaluate
  refine .of ?_ rfl id id id
  exact .refl _

theorem gatesEdge_kept (s : State) :
    Kept s (gatesEdge s) := by
  unfold gatesEdge
  dsimp only
  refine .trans ?_ (.each (fun s k => ?_) _ _)
  refine .trans ?_ (.each (fun s k => ?_) _ _)
  refine .of ?_ rfl id id id
  exact .refl _
  refine .ite ?_ ?_
  refine .trans ?_ (raise_kept ..)
  exact hwSet_kept ..
  exact .refl _
  exact shutAssertIf_kept ..

theorem writeGateCtl_kept (k : Nat) (v : U32) (s : State) : Kept s (writeGateCtl k v s) := by
  unfold writeGateCtl
  dsimp only
  refine .trans ?_ (shutAssertIf_kept ..)
  exact State.modGate_kept ..

theorem gateStore_kept (ag : Agent) (k : Nat) (r : GateReg) (v : U32) (s : State) :
    Kept s (gateStore ag k r v s).1 := by
  unfold gateStore
  refine .iteFst ?_ ?_
  dsimp only
  exact .refl _
  split
  dsimp only
  exact writeGateCtl_kept ..
  dsimp only
  exact State.modGate_kept ..
  dsimp only
  exact State.modGate_kept ..
  dsimp only
  exact State.modGate_kept ..
  dsimp only
  exact State.modGate_kept ..
  refine .iteFst ?_ ?_
  dsimp only
  refine .trans ?_ (hwSet_kept ..)
  exact State.modGate_kept ..
  dsimp only
  exact .of (.refl _) rfl (fun h => ⟨h.1, h.2.1, h.2.2.1, sput_wf _ _ (sput_wf _ _ h.2.2.2.1), h.2.2.2.2⟩) id id

theorem gateWrite_kept (ag : Agent) (k : Nat) (r : Nat) (v : U32) (s : State) : Kept s (gateWrite ag k r v s).1 := by
  unfold gateWrite
  split
  exact gateStore_kept ..
  exact gateStore_kept ..
  exact gateStore_kept ..
  exact gateStore_kept ..
  exact gateStore_kept ..
  dsimp only
  exact State.modGate_kept ..
  dsimp only
  exact .refl _

theorem requestReset_kept (b : Nat) (s : State) : Kept s (requestReset b s) := by
  unfold requestReset
  refine .ite ?_ ?_
  exact .refl _
  refine .of ?_ rfl id id id
  exact .refl _

theorem wdogExpire_kept (cause : BitVec 2) (s : State) : Kept s (wdogExpire cause s) := by
  unfold wdogExpire
  dsimp only
  refine .trans ?_ (shutAssert_kept ..)
  refine .trans ?_ (raise_kept ..)
  refine .trans ?_ (hwSet_kept ..)
  refine .of ?_ rfl id id id
  exact .refl _

theorem wdogService_kept (ag : Agent) (v : U32) (s : State) : Kept s (wdogService ag v s) := by
  unfold wdogService
  split
  refine .ite ?_ ?_
  dsimp only
  refine .ite ?_ ?_
  refine .of ?_ rfl id id id
  exact .refl _
  refine .ite ?_ ?_
  refine .ite ?_ ?_
  exact wdogExpire_kept ..
  refine .of ?_ rfl id id id
  exact .refl _
  exact wdogExpire_kept ..
  exact .refl _
  exact .refl _
  refine .trans ?_ (hwSet_kept ..)
  refine .of ?_ rfl id id id
  exact .refl _

theorem wdogFreeze_kept (s : State) : Kept s (wdogFreeze s) := by
  unfold wdogFreeze
  dsimp only
  refine .ite ?_ ?_
  refine .of ?_ rfl id id id
  exact .refl _
  refine .ite ?_ ?_
  refine .of ?_ rfl id id id
  exact .refl _
  exact .refl _

theorem writeWdog_kept (ag : Agent) (v : U32) (s : State) : Kept s (writeWdog ag v s) := by
  unfold writeWdog
  dsimp only
  refine .ite ?_ ?_
  refine .trans ?_ (wdogFreeze_kept ..)
  refine .of ?_ rfl id id id
  exact .refl _
  refine .ite ?_ ?_
  exact wdogFreeze_kept ..
  refine .ite ?_ ?_
  exact .refl _
  refine .trans ?_ (wdogFreeze_kept ..)
  refine .of ?_ rfl id id id
  exact .refl _

theorem wdogWrite_kept (ag : Agent) (r : Nat) (v : U32) (s : State) : Kept s (wdogWrite ag r v s) := by
  unfold wdogWrite
  split
  exact writeWdog_kept ..
  refine .ite ?_ ?_
  exact .refl _
  refine .of ?_ rfl id id id
  exact .refl _
  refine .ite ?_ ?_
  exact .refl _
  refine .of ?_ rfl id id id
  exact .refl _
  exact wdogService_kept ..
  refine .of ?_ rfl id id id
  exact .refl _
  exact .refl _

end Sys2Proof.Machine
end

