-- ==== Sys2Proof/Laws/KeptTurnout.lean ====
section
/-! SUPPORT. Every operation of Machine/Turnout.lean leaves the command queue alone and keeps the memories canonical. -/

namespace Sys2Proof.Machine

set_option Elab.async false

theorem routeOne_kept (s : State) (k : Nat) : Kept s (routeOne s k) := by
  unfold routeOne
  dsimp only
  refine .ite ?_ ?_
  refine .ite ?_ ?_
  split
  exact .refl _
  refine .of ?_ rfl id id id
  exact State.modSrc_kept ..
  exact State.modSrc_kept ..
  exact .refl _

theorem routeAll_kept (s : State) : Kept s (routeAll s) := by
  unfold routeAll
  refine .trans ?_ (.each (fun s k => ?_) _ _)
  exact .refl _
  exact routeOne_kept ..

theorem claimTarget_kept (t : Nat) (s : State) : Kept s (claimTarget t s).2 := by
  unfold claimTarget
  split
  dsimp only
  exact .refl _
  dsimp only
  refine .trans ?_ (State.modSrc_kept ..)
  exact takeCount_kept ..

theorem tdpoll_kept (n : Nat) (s : State) : Kept s (tdpoll n s).2 := by
  unfold tdpoll
  split
  dsimp only
  exact .refl _
  dsimp only
  exact takeCount_kept ..

theorem dispatchClaim_kept (n : Nat) (k : Nat) (depth : Byte) (s : State) : Kept s (dispatchClaim n k depth s) := by
  unfold dispatchClaim
  refine .trans ?_ (State.modSrc_kept ..)
  exact takeCount_kept ..

theorem endServices_kept (n : Nat) (depth : Byte) (s : State) : Kept s (endServices n depth s) := by
  unfold endServices
  refine .of ?_ rfl id id id
  exact .refl _

theorem endThreadServices_kept (n : Nat) (s : State) : Kept s (endThreadServices n s) := by
  unfold endThreadServices
  refine .of ?_ rfl id id id
  exact .refl _

theorem completeWrite_kept (t : Nat) (v : U32) (s : State) : Kept s (completeWrite t v s) := by
  unfold completeWrite
  dsimp only
  refine .ite ?_ ?_
  exact State.modSrc_kept ..
  refine .trans ?_ (hwSet_kept ..)
  refine .of ?_ rfl id id id
  exact .refl _

theorem swevWrite_kept (v : U32) (s : State) : Kept s (swevWrite v s) := by
  unfold swevWrite
  dsimp only
  refine .ite ?_ ?_
  exact raise_kept ..
  exact .refl _

theorem sourceConfig_kept (k : Nat) (v : U32) (s : State) : Kept s (sourceConfig k v s) := by
  unfold sourceConfig
  refine .of ?_ rfl id id id
  exact .refl _

theorem applyConfig_kept (k : Nat) (v : U32) (s : State) : Kept s (applyConfig k v s) := by
  unfold applyConfig
  exact State.modSrc_kept ..

theorem applyConfigs_kept (s : State) : Kept s (applyConfigs s) := by
  unfold applyConfigs
  dsimp only
  refine .ite ?_ ?_
  refine .trans ?_ (.foldl (fun s k => ?_) _ _)
  refine .of ?_ rfl id id id
  exact .refl _
  exact applyConfig_kept ..
  refine .trans ?_ (routeAll_kept ..)
  refine .trans ?_ (.foldl (fun s k => ?_) _ _)
  refine .of ?_ rfl id id id
  exact .refl _
  exact applyConfig_kept ..

theorem clearSatf_kept (k : Nat) (s : State) :
    Kept s (clearSatf k s) := by
  unfold clearSatf
  dsimp only
  refine .ite ?_ ?_
  refine .of ?_ rfl id id id
  exact .refl _
  exact State.modSrc_kept ..

theorem turnoutWrite_kept (r : Nat) (v : U32) (s : State) : Kept s (turnoutWrite r v s) := by
  unfold turnoutWrite
  refine .ite ?_ ?_
  dsimp only
  refine .ite ?_ ?_
  exact sourceConfig_kept ..
  refine .ite ?_ ?_
  exact clearSatf_kept ..
  exact .refl _
  refine .ite ?_ ?_
  dsimp only
  split
  refine .of ?_ rfl id id id
  exact .refl _
  exact completeWrite_kept ..
  refine .of ?_ rfl id id id
  exact .refl _
  exact .refl _
  refine .ite ?_ ?_
  exact swevWrite_kept ..
  exact .refl _

theorem claimRead_kept (thread : Option Nat) (t : Nat) (s : State) :
    Kept s (claimRead thread t s) := by
  unfold claimRead
  refine .ite ?_ ?_
  exact .refl _
  dsimp only
  refine .of ?_ rfl id id id
  exact claimTarget_kept ..

theorem turnoutReadEffect_kept (thread : Option Nat) (r : Nat) (s : State) :
    Kept s (turnoutReadEffect thread r s) := by
  unfold turnoutReadEffect
  refine .ite ?_ ?_
  exact claimRead_kept ..
  refine .ite ?_ ?_
  split
  exact tdpoll_kept ..
  exact .refl _
  exact .refl _

end Sys2Proof.Machine
end

