-- ==== Sys2Proof/Laws/KeptPorts.lean ====
section
/-! SUPPORT. Every operation of Machine/Ports.lean leaves the command queue alone and keeps the memories canonical. -/

namespace Sys2Proof.Machine

set_option Elab.async false

theorem smpctlWrite_kept (v : U32) (s : State) : Kept s (smpctlWrite v s) := by
  unfold smpctlWrite
  dsimp only
  refine .trans ?_ (hwSetIf_kept ..)
  refine .of ?_ rfl id id id
  exact .refl _

theorem publish_kept (port : Nat) (x : BitVec 24) (tag : BitVec 4) (s : State) : Kept s (publish port x tag s) := by
  unfold publish
  refine .trans ?_ (.each (fun s k => ?_) _ _)
  exact .refl _
  dsimp only
  refine .ite ?_ ?_
  refine .ite ?_ ?_
  refine .trans ?_ (originate_kept ..)
  refine .of ?_ rfl id id id
  exact .refl _
  refine .of ?_ rfl id id id
  exact .refl _
  exact .refl _

theorem landSample_kept (n : Nat) (x : BitVec 24) (tag : BitVec 4) (s : State) : Kept s (landSample n x tag s) := by
  unfold landSample
  dsimp only
  refine .trans ?_ (publish_kept ..)
  refine .trans ?_ (.each (fun s k => ?_) _ _)
  refine .trans ?_ (.each (fun s k => ?_) _ _)
  refine .trans ?_ (raiseData_kept ..)
  refine .trans ?_ (hwSet_kept ..)
  refine .of ?_ rfl id id id
  exact .refl _
  exact flumeSample_kept ..
  refine .ite ?_ ?_
  exact capture_kept ..
  exact .refl _

theorem smpWrite_kept (r : Nat) (v : U32) (s : State) : Kept s (smpWrite r v s) := by
  unfold smpWrite
  split
  exact smpctlWrite_kept ..
  refine .of ?_ rfl id id id
  exact .refl _
  refine .of ?_ rfl id id id
  exact .refl _
  exact .refl _

end Sys2Proof.Machine
end

