-- ==== Sys2Proof/Laws/KeptRider.lean ====
section
/-! SUPPORT. Every operation of Machine/Rider.lean leaves the command queue alone and keeps the memories canonical. -/

namespace Sys2Proof.Machine

set_option Elab.async false

theorem rchFlag_kept (n : Nat) (b : Nat) (s : State) : Kept s (rchFlag n b s) := by
  unfold rchFlag
  dsimp only
  refine .trans ?_ (raiseIf_kept ..)
  refine .trans ?_ (hwSet_kept ..)
  exact State.modRch_kept ..

theorem modSlot_kept (n : Nat) (j : Nat) (f : RiderSlot → RiderSlot) (s : State) : Kept s (modSlot n j f s) := by
  unfold modSlot
  exact State.modRch_kept ..

theorem driveSlot_kept (n : Nat) (j : Nat) (b : Bool) (s : State) : Kept s (driveSlot n j b s) := by
  unfold driveSlot
  dsimp only
  refine .ite ?_ ?_
  refine .trans ?_ (riderClaim_kept ..)
  exact modSlot_kept ..
  exact .refl _

theorem nextLevel_kept (n : Nat) (j : Nat) (b : Bool) (claim : Bool) (s : State) :
    Kept s (nextLevel n j b claim s) := by
  unfold nextLevel
  dsimp only
  refine .ite ?_ ?_
  refine .ite ?_ ?_
  refine .trans ?_ (riderClaim_kept ..)
  exact modSlot_kept ..
  exact modSlot_kept ..
  exact .refl _

theorem sideSet_kept (n : Nat) (w : U32) (s : State) : Kept s (sideSet n w s) := by
  unfold sideSet
  dsimp only
  refine .trans ?_ (.foldl (fun s k => ?_) _ _)
  exact .refl _
  refine .ite ?_ ?_
  exact .refl _
  split
  exact nextLevel_kept ..
  exact nextLevel_kept ..
  exact nextLevel_kept ..
  exact .refl _

theorem complete_kept (n : Nat) (s : State) : Kept s (complete n s) := by
  unfold complete
  exact State.modRch_kept ..

theorem setPhase_kept (n : Nat) (p : RiderPhase) (s : State) : Kept s (setPhase n p s) := by
  unfold setPhase
  exact State.modRch_kept ..

theorem riderTurn_kept (n : Nat) (s : State) : Kept s (riderTurn n s) := by
  unfold riderTurn
  dsimp only
  split
  refine .ite ?_ ?_
  refine .trans ?_ (sideSet_kept ..)
  refine .trans ?_ (State.modRch_kept ..)
  refine .trans ?_ (State.modRch_kept ..)
  refine .of ?_ rfl id id id
  exact .refl _
  refine .trans ?_ (rchFlag_kept ..)
  refine .trans ?_ (State.modRch_kept ..)
  refine .trans ?_ (State.modRch_kept ..)
  refine .of ?_ rfl id id id
  exact .refl _
  refine .ite ?_ ?_
  refine .trans ?_ (rchFlag_kept ..)
  refine .trans ?_ (State.modRch_kept ..)
  refine .trans ?_ (State.modRch_kept ..)
  refine .of ?_ rfl id id id
  exact .refl _
  refine .ite ?_ ?_
  refine .trans ?_ (sideSet_kept ..)
  refine .trans ?_ (State.modRch_kept ..)
  refine .trans ?_ (State.modRch_kept ..)
  refine .of ?_ rfl id id id
  exact .refl _
  refine .trans ?_ (rchFlag_kept ..)
  refine .trans ?_ (State.modRch_kept ..)
  refine .trans ?_ (State.modRch_kept ..)
  refine .of ?_ rfl id id id
  exact .refl _

theorem movDo_kept (n : Nat) (l : RiderLatch) (s : State) : Kept s (movDo n l s) := by
  unfold movDo
  dsimp only
  refine .trans ?_ (complete_kept ..)
  split
  refine .trans ?_ (State.modRch_kept ..)
  refine .ite ?_ ?_
  exact State.modRch_kept ..
  exact .refl _
  refine .trans ?_ (State.modRch_kept ..)
  refine .ite ?_ ?_
  exact State.modRch_kept ..
  exact .refl _
  refine .trans ?_ (State.modRch_kept ..)
  refine .ite ?_ ?_
  exact State.modRch_kept ..
  exact .refl _
  refine .trans ?_ (State.modRch_kept ..)
  refine .ite ?_ ?_
  exact State.modRch_kept ..
  exact .refl _
  refine .trans ?_ (.foldl (fun s k => ?_) _ _)
  refine .ite ?_ ?_
  exact State.modRch_kept ..
  exact .refl _
  refine .ite ?_ ?_
  exact .refl _
  exact nextLevel_kept ..
  refine .trans ?_ (State.modRch_kept ..)
  refine .ite ?_ ?_
  exact State.modRch_kept ..
  exact .refl _
  refine .trans ?_ (State.modRch_kept ..)
  refine .ite ?_ ?_
  exact State.modRch_kept ..
  exact .refl _
  refine .trans ?_ (State.modRch_kept ..)
  refine .ite ?_ ?_
  exact State.modRch_kept ..
  exact .refl _
  refine .ite ?_ ?_
  exact State.modRch_kept ..
  exact .refl _

theorem setatDo_kept (n : Nat) (l : RiderLatch) (s : State) : Kept s (setatDo n l s) := by
  unfold setatDo
  refine .trans ?_ (complete_kept ..)
  exact State.modRch_kept ..

theorem shiftOut_kept (n : Nat) (w : U32) (s : State) : Kept s (shiftOut n w s) := by
  unfold shiftOut
  refine .ite ?_ ?_
  dsimp only
  refine .ite ?_ ?_
  exact State.modRch_kept ..
  refine .ite ?_ ?_
  refine .trans ?_ (nextLevel_kept ..)
  exact State.modRch_kept ..
  refine .trans ?_ (driveSlot_kept ..)
  exact State.modRch_kept ..
  exact .refl _

theorem shiftIn_kept (n : Nat) (w : U32) (s : State) : Kept s (shiftIn n w s) := by
  unfold shiftIn
  refine .ite ?_ ?_
  exact State.modRch_kept ..
  exact .refl _

theorem clockTo_kept (n : Nat) (active : Bool) (s : State) : Kept s (clockTo n active s) := by
  unfold clockTo
  dsimp only
  refine .ite ?_ ?_
  exact driveSlot_kept ..
  exact .refl _

theorem beginBit_kept (n : Nat) (w : U32) (s : State) : Kept s (beginBit n w s) := by
  unfold beginBit
  dsimp only
  refine .trans ?_ (setPhase_kept ..)
  refine .ite ?_ ?_
  refine .trans ?_ (shiftIn_kept ..)
  refine .trans ?_ (clockTo_kept ..)
  exact shiftOut_kept ..
  refine .trans ?_ (clockTo_kept ..)
  exact shiftOut_kept ..

theorem endBit_kept (n : Nat) (w : U32) (s : State) : Kept s (endBit n w s).1 := by
  unfold endBit
  dsimp only
  refine .ite ?_ ?_
  refine .trans ?_ (setPhase_kept ..)
  exact State.modRch_kept ..
  exact State.modRch_kept ..

theorem shiftUnit_kept (n : Nat) (s : State) : Kept s (shiftUnit n s) := by
  unfold shiftUnit
  dsimp only
  split
  refine .ite ?_ ?_
  split
  refine .ite ?_ ?_
  exact .refl _
  refine .ite ?_ ?_
  exact beginBit_kept ..
  exact .refl _
  refine .ite ?_ ?_
  refine .ite ?_ ?_
  refine .trans ?_ (clockTo_kept ..)
  exact endBit_kept ..
  refine .trans ?_ (beginBit_kept ..)
  exact endBit_kept ..
  refine .ite ?_ ?_
  refine .trans ?_ (shiftIn_kept ..)
  refine .ite ?_ ?_
  exact clockTo_kept ..
  exact .refl _
  refine .ite ?_ ?_
  exact clockTo_kept ..
  exact .refl _
  exact clockTo_kept ..
  exact clockTo_kept ..
  exact clockTo_kept ..

theorem shiftExternal_kept (n : Nat) (s : State) :
    Kept s (shiftExternal n s) := by
  unfold shiftExternal
  dsimp only
  split
  refine .ite ?_ ?_
  refine .trans ?_ (endBit_kept ..)
  refine .trans ?_ (shiftIn_kept ..)
  exact shiftOut_kept ..
  exact .refl _
  exact .refl _

theorem fillOsr_kept (n : Nat) (s : State) : Kept s (fillOsr n s) := by
  unfold fillOsr
  split
  refine .trans ?_ (setPhase_kept ..)
  exact State.modRch_kept ..
  exact setPhase_kept ..

theorem waitedFill_kept (n : Nat) (s : State) :
    Kept s (waitedFill n s) := by
  unfold waitedFill
  split
  refine .ite ?_ ?_
  exact fillOsr_kept ..
  exact .refl _
  exact .refl _

theorem channelEdge_kept (n : Nat) (s : State) : Kept s (channelEdge n s) := by
  unfold channelEdge
  dsimp only
  refine .trans ?_ (waitedFill_kept ..)
  refine .trans ?_ (shiftExternal_kept ..)
  refine .trans ?_ (State.modRch_kept ..)
  refine .trans ?_ (shiftUnit_kept ..)
  exact State.modRch_kept ..

theorem abandon_kept (n : Nat) (s : State) : Kept s (abandon n s) := by
  unfold abandon
  exact State.modRch_kept ..

theorem stopChannel_kept (n : Nat) (s : State) : Kept s (stopChannel n s) := by
  unfold stopChannel
  exact State.modRch_kept ..

theorem setatFire_kept (n : Nat) (late : Bool) (s : State) : Kept s (setatFire n late s) := by
  unfold setatFire
  split
  exact .refl _
  dsimp only
  refine .ite ?_ ?_
  refine .trans ?_ (rchFlag_kept ..)
  refine .trans ?_ (driveSlot_kept ..)
  exact State.modRch_kept ..
  refine .trans ?_ (driveSlot_kept ..)
  exact State.modRch_kept ..

theorem setatThaw_kept (s : State) : Kept s (setatThaw s) := by
  unfold setatThaw
  refine .trans ?_ (.each (fun s k => ?_) _ _)
  exact .refl _
  split
  refine .ite ?_ ?_
  exact setatFire_kept ..
  exact .refl _
  exact .refl _

theorem landFifos_kept (s : State) (n : Nat) :
    Kept s (landFifos s n) := by
  unfold landFifos
  dsimp only
  refine .ite ?_ ?_
  exact .refl _
  refine .ite ?_ ?_
  refine .trans ?_ (rchFlag_kept ..)
  exact State.modRch_kept ..
  exact State.modRch_kept ..

theorem pushTx_kept (n : Nat) (v : U32) (s : State) : Kept s (pushTx n v s) := by
  unfold pushTx
  dsimp only
  refine .ite ?_ ?_
  exact State.modRch_kept ..
  refine .trans ?_ (landFifos_kept ..)
  exact State.modRch_kept ..

theorem popRx_kept (n : Nat) (s : State) : Kept s (popRx n s).2 := by
  unfold popRx
  split
  dsimp only
  exact State.modRch_kept ..
  dsimp only
  exact rchFlag_kept ..

theorem abortStall_kept (n : Nat) (s : State) : Kept s (abortStall n s) := by
  unfold abortStall
  dsimp only
  refine .ite ?_ ?_
  refine .trans ?_ (rchFlag_kept ..)
  exact abandon_kept ..
  exact .refl _

theorem writeInj_kept (n : Nat) (v : U32) (s : State) : Kept s (writeInj n v s) := by
  unfold writeInj
  refine .ite ?_ ?_
  exact rchFlag_kept ..
  refine .trans ?_ (abortStall_kept ..)
  exact State.modRch_kept ..

theorem writeRchCtl_kept (n : Nat) (v : U32) (s : State) : Kept s (writeRchCtl n v s) := by
  unfold writeRchCtl
  dsimp only
  refine .ite ?_ ?_
  refine .trans ?_ (State.modRch_kept ..)
  refine .trans ?_ (abortStall_kept ..)
  refine .trans ?_ (State.modRch_kept ..)
  refine .ite ?_ ?_
  exact State.modRch_kept ..
  exact .refl _
  refine .ite ?_ ?_
  refine .trans ?_ (stopChannel_kept ..)
  refine .trans ?_ (abortStall_kept ..)
  refine .trans ?_ (State.modRch_kept ..)
  refine .ite ?_ ?_
  exact State.modRch_kept ..
  exact .refl _
  refine .trans ?_ (abortStall_kept ..)
  refine .trans ?_ (State.modRch_kept ..)
  refine .ite ?_ ?_
  exact State.modRch_kept ..
  exact .refl _

theorem dropClaims_kept (n p : Nat) (s : State) :
    Kept s (dropClaims n p s) := by
  unfold dropClaims
  refine .trans ?_ (.each (fun s k => ?_) _ _)
  exact .refl _
  refine .ite ?_ ?_
  refine .trans ?_ (rchFlag_kept ..)
  exact State.modRch_kept ..
  exact .refl _

theorem mapSlot_kept (n : Nat) (j : Nat) (pin : BitVec 6) (mode : BitVec 2) (s : State) :
    Kept s (mapSlot n j pin mode s) := by
  unfold mapSlot
  dsimp only
  refine .ite ?_ ?_
  refine .trans ?_ (rchFlag_kept ..)
  exact modSlot_kept ..
  refine .ite ?_ ?_
  refine .trans ?_ (dropClaims_kept ..)
  exact modSlot_kept ..
  exact modSlot_kept ..

theorem writeMap_kept (n : Nat) (hi : Bool) (v : U32) (s : State) : Kept s (writeMap n hi v s) := by
  unfold writeMap
  refine .trans ?_ (.foldl (fun s k => ?_) _ _)
  exact .refl _
  exact mapSlot_kept ..

theorem writeRider_kept (v : U32) (s : State) : Kept s (writeRider v s) := by
  unfold writeRider
  dsimp only
  refine .ite ?_ ?_
  refine .ite ?_ ?_
  refine .of ?_ rfl id id id
  exact .refl _
  refine .trans ?_ (hwSet_kept ..)
  refine .of ?_ rfl id id id
  exact .refl _
  refine .of ?_ rfl id id id
  exact .refl _

theorem syncStart_kept (s : State) : Kept s (syncStart s) := by
  unfold syncStart
  refine .of ?_ rfl id id id
  exact .refl _

theorem writeProg_kept (i : Nat) (v : U32) (s : State) : Kept s (writeProg i v s) :=
  .of (.refl _) rfl id (fun h => sput_wf _ _ h) id

theorem rchWrite_kept (n : Nat) (r : Nat) (v : U32) (s : State) : Kept s (rchWrite n r v s) := by
  unfold rchWrite
  split
  exact writeRchCtl_kept ..
  exact State.modRch_kept ..
  exact State.modRch_kept ..
  exact State.modRch_kept ..
  exact writeMap_kept ..
  exact writeMap_kept ..
  exact State.modRch_kept ..
  exact State.modRch_kept ..
  exact pushTx_kept ..
  exact writeInj_kept ..
  exact State.modRch_kept ..
  exact State.modRch_kept ..
  exact .refl _

theorem riderWrite_kept (r : Nat) (v : U32) (s : State) : Kept s (riderWrite r v s) := by
  unfold riderWrite
  split
  exact writeRider_kept ..
  refine .of ?_ rfl id id id
  exact .refl _
  refine .of ?_ rfl id id id
  exact .refl _
  refine .of ?_ rfl id id id
  exact .refl _
  refine .ite ?_ ?_
  dsimp only
  refine .of ?_ rfl id id id
  exact .refl _
  exact .refl _

end Sys2Proof.Machine
end

