-- ==== Sys2Proof/Laws/KeptRows.lean ====
section
/-! SUPPORT. Every operation of Machine/Rows.lean leaves the command queue alone and keeps the memories canonical. -/

namespace Sys2Proof.Machine

set_option Elab.async false

theorem dropResv_kept (host : Bool) (g : Nat) (s : State) : Kept s (dropResv host g s) := by
  unfold dropResv
  exact .of (.refl _) rfl id id id

theorem storeHost_kept (a : U48) (l : List Byte) (s : State) :
    Kept s (storeHost a l s) := by
  unfold storeHost
  refine .trans ?_ (.foldl (fun s k => ?_) _ _)
  exact hostWrite_kept ..
  exact dropResv_kept ..

theorem storeRow_kept (a : Nat) (l : List Byte) (s : State) : Kept s (storeRow a l s) := by
  unfold storeRow
  dsimp only
  refine .of ?_ rfl (fun h => ⟨h.1, h.2.1, memWrite_wf _ _ h.2.2.1, h.2.2.2⟩) id id
  exact dropResv_kept ..

theorem storeRowsF_kept (fuel a : Nat) (l : List Byte) (s : State) : Kept s (storeRowsF fuel a l s) := by
  induction fuel generalizing a l s with
  | zero => exact .refl _
  | succ fuel ih =>
    unfold storeRowsF
    refine .ite ?_ ?_
    exact .refl _
    dsimp only
    refine .trans ?_ (ih ..)
    exact storeRow_kept ..

theorem storeData_kept (a : Nat) (l : List Byte) (s : State) : Kept s (storeData a l s) := by
  unfold storeData
  exact storeRowsF_kept ..

theorem threadAccess_kept (s : State) :
    Kept s (threadAccess s) := by
  unfold threadAccess
  refine .of ?_ rfl id id id
  exact .refl _

theorem storeThread_kept (a : Nat) (l : List Byte) (s : State) : Kept s (storeThread a l s) := by
  unfold storeThread
  dsimp only
  refine .of ?_ rfl ?_ ?_ ?_
  exact storeRow_kept ..
  exact fun h => ⟨h.1, h.2.1, h.2.2.1, h.2.2.2.1, h.2.2.2.2.1, h.2.2.2.2.2⟩
  exact id
  exact id

theorem seenRowF_kept (now : Row) (l : List RecentRow) (s : State) : Kept s (seenRowF now l s).2 := by
  induction l generalizing s with
  | nil => exact .refl _
  | cons x t ih =>
    unfold seenRowF
    dsimp only
    split
    refine .trans ?_ (ih ..)
    exact .of (.refl _) rfl id id id
    dsimp only
    exact .of (.refl _) rfl id id id

theorem seenRow_kept (r : Nat) (s : State) : Kept s (seenRow r s).2 := by
  unfold seenRow
  exact seenRowF_kept ..

theorem seenBytes_kept (a : Nat) (len : Nat) (s : State) : Kept s (seenBytes a len s).2 := by
  unfold seenBytes
  split
  dsimp only
  refine .snd ?_ (by assumption)
  exact seenRow_kept ..

theorem seenDataF_kept (fuel a len : Nat) (s : State) : Kept s (seenDataF fuel a len s).2 := by
  induction fuel generalizing a len s with
  | zero => exact .refl _
  | succ fuel ih =>
    unfold seenDataF
    split
    dsimp only
    exact .refl _
    dsimp only
    refine .trans ?_ (ih ..)
    exact seenBytes_kept ..

theorem seenData_kept (a : Nat) (len : Nat) (s : State) : Kept s (seenData a len s).2 := by
  unfold seenData
  exact seenDataF_kept ..

theorem loadData_kept (a len : Nat) (s : State) :
    Kept s (loadData a len s).2 := by
  unfold loadData
  refine .trans ?_ (seenData_kept ..)
  exact threadAccess_kept ..

end Sys2Proof.Machine
end

