-- ==== Sys2Proof/Laws/KeptHeadgate.lean ====
section
/-! SUPPORT. Every operation of Machine/Headgate.lean leaves the command queue alone and keeps the memories canonical. -/

namespace Sys2Proof.Machine

set_option Elab.async false

theorem dirty_kept (s : State) : Kept s (dirty s) := by
  unfold dirty
  refine .of ?_ rfl id id id
  exact .refl _

theorem hgUpdate_kept (s : State) : Kept s (hgUpdate s) := by
  unfold hgUpdate
  dsimp only
  refine .of ?_ rfl id id id
  refine .trans ?_ (raiseIf_kept ..)
  exact raiseIf_kept ..

theorem cqWrite_kept (body : Row) (irq : Bool) (s : State) : Kept s (cqWrite body irq s) := by
  unfold cqWrite
  dsimp only
  refine .trans ?_ (raiseIf_kept ..)
  refine .trans ?_ (dirty_kept ..)
  refine .of ?_ rfl id id id
  exact hostWrite_kept ..

theorem writeCompletion_kept (body : Row) (irq : Bool) (s : State) : Kept s (writeCompletion body irq s) := by
  unfold writeCompletion
  refine .ite ?_ ?_
  exact cqWrite_kept ..
  refine .of ?_ rfl id id id
  exact .refl _

theorem writeHeld_kept (s : State) : Kept s (writeHeld s) := by
  unfold writeHeld
  refine .trans ?_ (.foldl (fun s k => ?_) _ _)
  refine .of ?_ rfl id id id
  exact .refl _
  exact cqWrite_kept ..

theorem loseRecord_kept (s : State) :
    Kept s (loseRecord s) := by
  unfold loseRecord
  refine .trans ?_ (rcSet_kept ..)
  refine .trans ?_ (dirty_kept ..)
  refine .of ?_ rfl id id id
  exact .refl _

theorem loseEvent_kept (s : State) :
    Kept s (loseEvent s) := by
  unfold loseEvent
  dsimp only
  refine .ite ?_ ?_
  refine .trans ?_ (loseRecord_kept ..)
  refine .trans ?_ (loseRecord_kept ..)
  refine .trans ?_ (raiseIf_kept ..)
  refine .trans ?_ (hwSet_kept ..)
  refine .of ?_ rfl id id id
  exact .refl _
  refine .trans ?_ (loseRecord_kept ..)
  refine .trans ?_ (raiseIf_kept ..)
  refine .trans ?_ (hwSet_kept ..)
  refine .of ?_ rfl id id id
  exact .refl _

theorem appendEvent_kept (src : BitVec 9) (member : BitVec 3) (gauge : U64) (data : U32) (s : State) :
    Kept s (appendEvent src member gauge data s) := by
  unfold appendEvent
  dsimp only
  refine .ite ?_ ?_
  exact loseEvent_kept ..
  refine .trans ?_ (dirty_kept ..)
  refine .of ?_ rfl id id id
  exact hostWrite_kept ..

theorem hgErr_kept (cause : BitVec 3) (ring : Nat) (s : State) : Kept s (hgErr cause ring s) := by
  unfold hgErr
  refine .trans ?_ (hwSet_kept ..)
  refine .of ?_ rfl id id id
  exact .refl _

theorem setRing_kept (j : Nat) (r : Ring) (s : State) : Kept s (setRing j r s) := by
  unfold setRing
  refine .ite ?_ ?_
  refine .of ?_ rfl id id id
  exact .refl _
  refine .ite ?_ ?_
  refine .of ?_ rfl id id id
  exact .refl _
  refine .of ?_ rfl id id id
  exact .refl _

theorem bistPaid_kept (s : State) : Kept s (bistPaid s) := by
  unfold bistPaid
  refine .of ?_ rfl id id id
  exact .refl _

theorem writeBistOwed_kept (s : State) : Kept s (writeBistOwed s) := by
  unfold writeBistOwed
  dsimp only
  refine .ite ?_ ?_
  refine .trans ?_ (cqWrite_kept ..)
  exact bistPaid_kept ..
  exact .refl _

theorem enableRing_kept (s : State) (j : Nat) (on : Bool) : Kept s (enableRing s j on) := by
  unfold enableRing
  dsimp only
  refine .ite ?_ ?_
  exact setRing_kept ..
  refine .ite ?_ ?_
  exact .refl _
  refine .ite ?_ ?_
  exact hgErr_kept ..
  refine .ite ?_ ?_
  exact hgErr_kept ..
  refine .ite ?_ ?_
  refine .trans ?_ (writeHeld_kept ..)
  refine .trans ?_ (writeBistOwed_kept ..)
  refine .trans ?_ (dirty_kept ..)
  exact setRing_kept ..
  refine .trans ?_ (dirty_kept ..)
  exact setRing_kept ..

theorem writeHgctl_kept (v : U32) (s : State) : Kept s (writeHgctl v s) := by
  unfold writeHgctl
  dsimp only
  refine .trans ?_ (hgUpdate_kept ..)
  refine .of ?_ rfl id id id
  refine .trans ?_ (.each (fun s k => ?_) _ _)
  exact .refl _
  exact enableRing_kept ..

theorem writeDoorbell_kept (r : Nat) (v : U32) (s : State) : Kept s (writeDoorbell r v s) := by
  unfold writeDoorbell
  dsimp only
  refine .ite ?_ ?_
  refine .trans ?_ (raise_kept ..)
  refine .trans ?_ (hgErr_kept ..)
  exact wakeRequest_kept ..
  refine .ite ?_ ?_
  refine .trans ?_ (setRing_kept ..)
  exact wakeRequest_kept ..
  refine .trans ?_ (raise_kept ..)
  refine .trans ?_ (hgErr_kept ..)
  exact wakeRequest_kept ..

theorem writeRingHead_kept (j : Nat) (v : U32) (s : State) : Kept s (writeRingHead j v s) := by
  unfold writeRingHead
  refine .trans ?_ (hgUpdate_kept ..)
  exact setRing_kept ..

theorem writeHgstat_kept (v : U32) (s : State) : Kept s (writeHgstat v s) := by
  unfold writeHgstat
  refine .of ?_ rfl id id id
  exact .refl _

theorem hgReadEffect_kept (r : Nat) (s : State) : Kept s (hgReadEffect r s) := by
  unfold hgReadEffect
  refine .ite ?_ ?_
  refine .trans ?_ (rcTaken_kept ..)
  refine .trans ?_ (dirty_kept ..)
  refine .of ?_ rfl id id id
  exact .refl _
  exact .refl _

theorem hgWrite_kept (r : Nat) (v : U32) (s : State) : Kept s (hgWrite r v s) := by
  unfold hgWrite
  refine .ite ?_ ?_
  refine .of ?_ rfl id id id
  exact .refl _
  refine .ite ?_ ?_
  exact writeDoorbell_kept ..
  refine .ite ?_ ?_
  dsimp only
  split
  refine .ite ?_ ?_
  exact .refl _
  exact setRing_kept ..
  refine .ite ?_ ?_
  exact .refl _
  exact setRing_kept ..
  refine .ite ?_ ?_
  exact .refl _
  exact setRing_kept ..
  refine .ite ?_ ?_
  exact .refl _
  exact writeRingHead_kept ..
  exact .refl _
  split
  exact writeHgstat_kept ..
  exact writeHgctl_kept ..
  refine .of ?_ rfl id id id
  exact .refl _
  refine .of ?_ rfl id id id
  exact .refl _
  refine .of ?_ rfl id id id
  exact .refl _
  exact .refl _

end Sys2Proof.Machine
end

