-- ==== Sys2Proof/Laws/KeptCulvert.lean ====
section
/-! SUPPORT. Every operation of Machine/Culvert.lean leaves the command queue alone and keeps the memories canonical. -/

namespace Sys2Proof.Machine

set_option Elab.async false

theorem culSet_kept (n : Nat) (bits : U32) (s : State) :
    Kept s (culSet n bits s) := by
  unfold culSet
  exact hwSet_kept ..

theorem putRecord_kept {n : Nat} {body : Row} {s t : State} (h : putRecord n body s = some t) :
    Kept s t := by
  unfold putRecord at h
  split at h
  · injection h with h; subst h
    refine .trans ?_ (culSet_kept ..)
    exact State.modCul_kept ..
  · injection h with h; subst h
    refine .trans ?_ (hgUpdate_kept ..)
    refine .trans ?_ (cqWrite_kept ..)
    exact State.modCul_kept ..
  · cases h

theorem recordIf_kept {n : Nat} {body : Row} {c : Bool} {s t : State}
    (h : (if c then putRecord n body s else some s) = some t) : Kept s t := by
  split at h
  · exact putRecord_kept h
  · injection h with h; subst h; exact .refl _

theorem culStop_kept (n : Nat) (code : BitVec 4) (s : State) : Kept s (culStop n code s) := by
  unfold culStop
  dsimp only
  split
  exact State.modCul_kept ..
  refine .trans ?_ (raise_kept ..)
  refine .trans ?_ (culSet_kept ..)
  refine .trans ?_ (State.modCul_kept ..)
  exact recordIf_kept ‹_›

theorem culFail_kept (n : Nat) (code : BitVec 4) (s : State) : Kept s (culFail n code s) := by
  unfold culFail
  exact State.modCul_kept ..

theorem loadDesc_kept (n : Nat) (l : List Byte) (s : State) : Kept s (loadDesc n l s) := by
  unfold loadDesc
  dsimp only
  split
  exact State.modCul_kept ..
  exact State.modCul_kept ..

theorem fetchDesc_kept (n : Nat) (resp : HostRead) (s : State) : Kept s (fetchDesc n resp s) := by
  unfold fetchDesc
  dsimp only
  refine .ite ?_ ?_
  refine .ite ?_ ?_
  split
  refine .trans ?_ (loadDesc_kept ..)
  exact State.modCul_kept ..
  refine .trans ?_ (culFail_kept ..)
  exact State.modCul_kept ..
  refine .ite ?_ ?_
  refine .trans ?_ (culFail_kept ..)
  exact State.modCul_kept ..
  refine .ite ?_ ?_
  refine .trans ?_ (culFail_kept ..)
  exact State.modCul_kept ..
  refine .trans ?_ (loadDesc_kept ..)
  refine .trans ?_ (seenData_kept ..)
  exact State.modCul_kept ..
  exact .refl _

theorem readBeats_kept (d : CulDesc) (at_ k i : Nat) (s : State) : Kept s (readBeats d at_ k i s).2 := by
  induction k generalizing i s with
  | zero => exact .refl _
  | succ k ih =>
    unfold readBeats
    split
    split
    dsimp only
    refine .snd ?_ (by assumption)
    refine .trans ?_ (ih ..)
    refine .snd ?_ (by assumption)
    exact seenBytes_kept ..

theorem issueReads_kept (n : Nat) (s : State) :
    Kept s (issueReads n s) := by
  unfold issueReads
  dsimp only
  split
  exact .refl _
  refine .ite ?_ ?_
  exact State.modCul_kept ..
  refine .ite ?_ ?_
  refine .trans ?_ (State.modCul_kept ..)
  exact State.modCul_kept ..
  refine .trans ?_ (State.modCul_kept ..)
  exact readBeats_kept ..

theorem grantBurst_kept (n : Nat) (s : State) : Kept s (grantBurst n s) := by
  unfold grantBurst
  dsimp only
  refine .ite ?_ ?_
  refine .trans ?_ (issueReads_kept ..)
  refine .of ?_ rfl id id id
  exact .refl _
  refine .trans ?_ (State.modCul_kept ..)
  refine .of ?_ rfl id id id
  exact .refl _

theorem writeBeats_kept (n : Nat) (d : CulDesc) (at_ k i : Nat) (l : List Byte) (s : State) :
    Kept s (writeBeats n d at_ k i l s).1 := by
  induction k generalizing i l s with
  | zero => exact .refl _
  | succ k ih =>
    unfold writeBeats
    dsimp only
    refine .iteFst ?_ ?_
    refine .trans ?_ (ih ..)
    refine .trans ?_ (State.modCul_kept ..)
    exact storeHost_kept ..
    refine .iteFst ?_ ?_
    dsimp only
    exact .refl _
    refine .trans ?_ (ih ..)
    refine .trans ?_ (State.modCul_kept ..)
    exact storeRow_kept ..

theorem completeBurst_kept (n : Nat) (resp : HostRead) (writeError : Option (Fin 16)) (s : State) :
    Kept s (completeBurst n resp writeError s) := by
  unfold completeBurst
  dsimp only
  split
  refine .ite ?_ ?_
  exact .refl _
  split
  exact State.modCul_kept ..
  refine .ite ?_ ?_
  refine .trans ?_ (State.modCul_kept ..)
  exact writeBeats_kept ..
  split
  refine .trans ?_ (State.modCul_kept ..)
  exact writeBeats_kept ..
  refine .trans ?_ (State.modCul_kept ..)
  exact writeBeats_kept ..
  exact .refl _

theorem completeDesc_kept (n : Nat) (s : State) : Kept s (completeDesc n s) := by
  unfold completeDesc
  dsimp only
  split
  exact .refl _
  refine .ite ?_ ?_
  split
  exact State.modCul_kept ..
  refine .ite ?_ ?_
  refine .trans ?_ (State.modCul_kept ..)
  refine .trans ?_ (culPulse_kept ..)
  refine .trans ?_ (raiseIf_kept ..)
  refine .trans ?_ (culSet_kept ..)
  refine .trans ?_ (State.modCul_kept ..)
  exact recordIf_kept ‹_›
  refine .trans ?_ (State.modCul_kept ..)
  refine .trans ?_ (culPulse_kept ..)
  refine .trans ?_ (raiseIf_kept ..)
  refine .trans ?_ (culSet_kept ..)
  refine .trans ?_ (State.modCul_kept ..)
  exact recordIf_kept ‹_›
  exact .refl _

theorem writeCulCtl_kept (n : Nat) (v : U32) (s : State) : Kept s (writeCulCtl n v s) := by
  unfold writeCulCtl
  dsimp only
  refine .ite ?_ ?_
  refine .trans ?_ (culStop_kept ..)
  refine .trans ?_ (State.modCul_kept ..)
  exact State.modCul_kept ..
  exact State.modCul_kept ..

theorem culWrite_kept (n : Nat) (r : Nat) (v : U32) (s : State) : Kept s (culWrite n r v s) := by
  unfold culWrite
  split
  exact writeCulCtl_kept ..
  exact State.modCul_kept ..
  exact State.modCul_kept ..
  exact State.modCul_kept ..
  exact .refl _

end Sys2Proof.Machine
end

