-- ==== Sys2Proof/Laws/KeptLedgerMem.lean ====
section
/-! SUPPORT. Every operation of Machine/LedgerMem.lean leaves the command queue alone and keeps the memories canonical. -/

namespace Sys2Proof.Machine

set_option Elab.async false

theorem lgPut_kept (a n v : Nat) (s : State) : Kept s (lgPut a n v s) :=
  .of (.refl _) rfl (fun h => ⟨h.1, h.2.1, h.2.2.1, h.2.2.2.1, memWrite_wf _ _ h.2.2.2.2.1, h.2.2.2.2.2⟩) id id

theorem putFlags_kept (r : Nat) (v : Byte) (s : State) : Kept s (putFlags r v s) := by
  unfold putFlags
  exact lgPut_kept ..

theorem putPos_kept (r : Nat) (ch : BitVec 4) (st : BitVec 2) (dir : BitVec 2) (s : State) :
    Kept s (putPos r ch st dir s) := by
  unfold putPos
  exact lgPut_kept ..

theorem putRes_kept (r : Nat) (l : List Int) (s : State) : Kept s (putRes r l s) := by
  unfold putRes
  dsimp only
  refine .of ?_ rfl (fun h => ⟨h.1, h.2.1, h.2.2.1, h.2.2.2.1, memWrite_wf _ _ h.2.2.2.2.1, h.2.2.2.2.2⟩) id id
  exact lgPut_kept ..

theorem lgFlag_kept (c : Nat) (b : Nat) (s : State) : Kept s (lgFlag c b s) := by
  unfold lgFlag
  dsimp only
  refine .trans ?_ (raiseIf_kept ..)
  refine .trans ?_ (hwSet_kept ..)
  exact State.modLg_kept ..

theorem addDamage_kept (c : Nat) (r : Nat) (x : Nat) (s : State) : Kept s (addDamage c r x s) := by
  unfold addDamage
  dsimp only
  refine .trans ?_ (.each (fun s k => ?_) _ _)
  refine .ite ?_ ?_
  refine .trans ?_ (lgPut_kept ..)
  exact lgPut_kept ..
  refine .trans ?_ (lgPut_kept ..)
  refine .trans ?_ (lgPut_kept ..)
  exact drawFree_kept ..
  refine .ite ?_ ?_
  refine .trans ?_ (lgFlag_kept ..)
  exact putFlags_kept ..
  exact .refl _

theorem addBin_kept (c : Nat) (r : Nat) (i : Nat) (h3 : Nat) (s : State) : Kept s (addBin c r i h3 s) := by
  unfold addBin
  dsimp only
  refine .ite ?_ ?_
  exact lgPut_kept ..
  refine .trans ?_ (lgFlag_kept ..)
  refine .trans ?_ (putFlags_kept ..)
  exact lgPut_kept ..

theorem closeCycle_kept (c : Nat) (r : Nat) (p : Int) (q : Int) (h4 : Nat) (s : State) :
    Kept s (closeCycle c r p q h4 s) := by
  unfold closeCycle
  dsimp only
  refine .trans ?_ (addDamage_kept ..)
  exact addBin_kept ..

theorem pushRes_kept (c : Nat) (r : Nat) (x : Int) (s : State) : Kept s (pushRes c r x s) := by
  unfold pushRes
  split
  refine .ite ?_ ?_
  dsimp only
  refine .trans ?_ (lgFlag_kept ..)
  refine .trans ?_ (putFlags_kept ..)
  refine .trans ?_ (putRes_kept ..)
  exact closeCycle_kept ..
  exact putRes_kept ..
  exact putRes_kept ..

theorem rainflow_kept (c : Nat) (r : Nat) (s : State) : Kept s (rainflow c r s) := by
  unfold rainflow
  split
  dsimp only
  refine .trans ?_ (putRes_kept ..)
  refine .trans ?_ (.foldl (fun s k => ?_) _ _)
  exact .refl _
  exact closeCycle_kept ..

theorem onSample_kept (c : Nat) (r : Nat) (t : Int) (s : State) : Kept s (onSample c r t s) := by
  unfold onSample
  dsimp only
  split
  refine .trans ?_ (putPos_kept ..)
  exact pushRes_kept ..
  refine .ite ?_ ?_
  refine .ite ?_ ?_
  refine .trans ?_ (putPos_kept ..)
  exact lgPut_kept ..
  refine .ite ?_ ?_
  refine .trans ?_ (putPos_kept ..)
  exact lgPut_kept ..
  exact .refl _
  refine .ite ?_ ?_
  exact lgPut_kept ..
  refine .ite ?_ ?_
  refine .trans ?_ (rainflow_kept ..)
  refine .trans ?_ (putPos_kept ..)
  refine .trans ?_ (lgPut_kept ..)
  exact pushRes_kept ..
  exact .refl _

theorem processTemp_kept (c : Nat) (s : State) : Kept s (processTemp c s) := by
  unfold processTemp
  dsimp only
  split
  exact .refl _
  refine .ite ?_ ?_
  refine .trans ?_ (lgFlag_kept ..)
  exact State.modLg_kept ..
  refine .ite ?_ ?_
  refine .trans ?_ (State.modLg_kept ..)
  exact State.modLg_kept ..
  refine .trans ?_ (onSample_kept ..)
  refine .trans ?_ (State.modLg_kept ..)
  exact State.modLg_kept ..

theorem ageChannel_kept (s : State) (c : Nat) : Kept s (ageChannel s c) := by
  unfold ageChannel
  dsimp only
  split
  refine .ite ?_ ?_
  refine .trans ?_ (addDamage_kept ..)
  exact addBin_kept ..
  exact .refl _
  exact .refl _

theorem stageRecord_kept (r : Nat) (s : State) : Kept s (stageRecord r s).2 := by
  unfold stageRecord
  dsimp only
  refine .trans ?_ (lgPut_kept ..)
  exact lgPut_kept ..

end Sys2Proof.Machine
end

