-- ==== Sys2Proof/Laws/KeptNvm.lean ====
section
/-! SUPPORT. Every operation of Machine/Nvm.lean leaves the command queue alone and keeps the memories canonical. -/

namespace Sys2Proof.Machine

set_option Elab.async false

theorem readUnit_kept (p : NvmPlace) (u : Nat) (s : State) : Kept s (readUnit p u s).2 := by
  unfold readUnit
  dsimp only
  split
  dsimp only
  refine .of ?_ rfl id id id
  exact .refl _
  split
  dsimp only
  exact .refl _
  dsimp only
  exact .refl _

theorem countUnit_kept (r : UnitRead) (s : State) : Kept s (countUnit r s) := by
  unfold countUnit
  refine .ite ?_ ?_
  dsimp only
  refine .ite ?_ ?_
  refine .of ?_ rfl id id id
  refine .trans ?_ (rcSet_kept ..)
  refine .trans ?_ (hwSet_kept ..)
  refine .of ?_ rfl id id id
  exact .refl _
  refine .trans ?_ (raise_kept ..)
  refine .trans ?_ (rcSet_kept ..)
  refine .trans ?_ (hwSet_kept ..)
  refine .of ?_ rfl id id id
  exact .refl _
  refine .ite ?_ ?_
  refine .trans ?_ (rcSet_kept ..)
  refine .of ?_ rfl id id id
  exact .refl _
  exact .refl _

theorem readLogical_kept (sector : Nat) (u : Nat) (s : State) : Kept s (readLogical sector u s).2 := by
  unfold readLogical
  split
  dsimp only
  refine .trans ?_ (countUnit_kept ..)
  refine .snd ?_ (by assumption)
  exact readUnit_kept ..

theorem readCopyF_kept (c k u : Nat) (s : State) : Kept s (readCopyF c k u s).2 := by
  induction k generalizing u s with
  | zero => exact .refl _
  | succ k ih =>
    unfold readCopyF
    split
    split
    dsimp only
    refine .snd ?_ (by assumption)
    refine .trans ?_ (ih ..)
    refine .trans ?_ (countUnit_kept ..)
    refine .snd ?_ (by assumption)
    exact readUnit_kept ..

theorem readCopy_kept (c : Nat) (s : State) : Kept s (readCopy c s).2 := by
  unfold readCopy
  split
  dsimp only
  refine .snd ?_ (by assumption)
  exact readCopyF_kept ..

theorem takeOpt_kept (o : Opt) (s : State) : Kept s (takeOpt o s) := by
  unfold takeOpt
  refine .of ?_ rfl id id id
  exact .refl _

theorem loadOptions_kept (s : State) : Kept s (loadOptions s) := by
  unfold loadOptions
  split
  split
  split
  dsimp only
  split
  refine .trans ?_ (raise_kept ..)
  refine .trans ?_ (raise_kept ..)
  refine .trans ?_ (takeOpt_kept ..)
  refine .of ?_ rfl id id id
  refine .snd ?_ (by assumption)
  refine .trans ?_ (readCopy_kept ..)
  refine .snd ?_ (by assumption)
  refine .trans ?_ (readCopy_kept ..)
  refine .snd ?_ (by assumption)
  exact readCopy_kept ..
  refine .trans ?_ (raiseIf_kept ..)
  refine .trans ?_ (takeOpt_kept ..)
  refine .of ?_ rfl id id id
  refine .snd ?_ (by assumption)
  refine .trans ?_ (readCopy_kept ..)
  refine .snd ?_ (by assumption)
  refine .trans ?_ (readCopy_kept ..)
  refine .snd ?_ (by assumption)
  exact readCopy_kept ..

theorem addOption_kept (c : OptChange) (s : State) : Kept s (addOption c s) := by
  unfold addOption
  dsimp only
  refine .of ?_ rfl id id id
  exact .refl _

theorem addJob_kept (j : NvmJob) (s : State) : Kept s (addJob j s) := by
  unfold addJob
  refine .of ?_ rfl id id id
  exact .refl _

theorem modJob_kept (f : NvmJob → NvmJob) (s : State) : Kept s (modJob f s) := by
  unfold modJob
  split
  exact .refl _
  refine .of ?_ rfl id id id
  exact .refl _

theorem setStage_kept (seq : Nat) (st : CmdStage) (s : State) : Kept s (setStage seq st s) := by
  unfold setStage
  dsimp only
  refine .of ?_ rfl id id id
  exact .refl _

theorem imageDone_kept (seq : Nat) (status : Byte) (acc : U64) (slot : Option Bool) (s : State) :
    Kept s (imageDone seq status acc slot s) := by
  unfold imageDone
  refine .ite ?_ ?_
  refine .trans ?_ (setStage_kept ..)
  refine .of ?_ rfl id id id
  exact .refl _
  refine .trans ?_ (setStage_kept ..)
  refine .of ?_ rfl id id id
  exact .refl _

theorem cmdDone_kept (seq : Nat) (j : NvmJob) (status : Byte) (sector : Nat) (s : State) :
    Kept s (cmdDone seq j status sector s) := by
  unfold cmdDone
  split
  exact .refl _
  dsimp only
  refine .ite ?_ ?_
  exact imageDone_kept ..
  exact setStage_kept ..

theorem endJob_kept (status : Byte) (sector : Nat) (s : State) : Kept s (endJob status sector s) := by
  unfold endJob
  split
  exact .refl _
  dsimp only
  split
  refine .trans ?_ (cmdDone_kept ..)
  refine .of ?_ rfl id id id
  exact .refl _
  refine .ite ?_ ?_
  refine .of ?_ rfl id id id
  exact .refl _
  refine .trans ?_ (hwSet_kept ..)
  refine .of ?_ rfl id id id
  exact .refl _
  refine .of ?_ rfl id id id
  exact .refl _
  refine .trans ?_ (raiseIf_kept ..)
  refine .of ?_ rfl id id id
  exact .refl _

theorem popOp_kept (s : State) : Kept s (popOp s) := by
  unfold popOp
  split
  exact .refl _
  dsimp only
  refine .of ?_ rfl id id id
  exact .refl _

theorem setFail_kept (sector : Nat) (cause : BitVec 4) (pulses : Nat) (s : State) :
    Kept s (setFail sector cause pulses s) := by
  unfold setFail
  refine .of ?_ rfl id id id
  exact .refl _

theorem copyFailed_kept (c : Nat) (s : State) : Kept s (copyFailed c s) := by
  unfold copyFailed
  dsimp only
  refine .trans ?_ (raise_kept ..)
  refine .trans ?_ (hwSet_kept ..)
  refine .of ?_ rfl id id id
  exact modJob_kept ..

theorem checkCopy_kept (c : Nat) (s : State) : Kept s (checkCopy c s) := by
  unfold checkCopy
  split
  split
  refine .snd ?_ (by assumption)
  exact readCopy_kept ..
  split
  refine .ite ?_ ?_
  dsimp only
  refine .of ?_ rfl id id id
  refine .trans ?_ (popOp_kept ..)
  refine .trans ?_ (modJob_kept ..)
  refine .snd ?_ (by assumption)
  exact readCopy_kept ..
  refine .trans ?_ (copyFailed_kept ..)
  refine .snd ?_ (by assumption)
  exact readCopy_kept ..
  refine .trans ?_ (copyFailed_kept ..)
  refine .snd ?_ (by assumption)
  exact readCopy_kept ..

theorem takeSpare_kept {bank : Nat} {s t : State} {a : Nat} (h : takeSpare bank s = some (a, t)) : Kept s t := by
  unfold takeSpare at h
  dsimp only at h
  split at h
  cases h
  cases h
  exact .of (.refl _) rfl id id id

theorem copyUnits_kept (p sp : NvmPlace) (skip sector k u : Nat) (s : State) :
    Kept s (copyUnits p sp skip sector k u s).2 := by
  induction k generalizing u s with
  | zero => exact .refl _
  | succ k ih =>
    unfold copyUnits
    split
    refine .trans ?_ (ih ..)
    exact .refl _
    split
    split
    dsimp only
    refine .snd ?_ (by assumption)
    refine .trans ?_ (ih ..)
    refine .ite ?_ ?_
    refine .snd ?_ (by assumption)
    exact readUnit_kept ..
    refine .trans ?_ (countUnit_kept ..)
    refine .snd ?_ (by assumption)
    exact readUnit_kept ..

theorem verifyFail_kept (sector : Nat) (cause : BitVec 4) (pulses : Nat) (s : State) :
    Kept s (verifyFail sector cause pulses s) := by
  unfold verifyFail
  split
  exact .refl _
  dsimp only
  split
  split
  refine .trans ?_ (copyFailed_kept ..)
  refine .trans ?_ (setFail_kept ..)
  refine .of ?_ rfl id id id
  exact .refl _
  refine .trans ?_ (copyFailed_kept ..)
  refine .trans ?_ (setFail_kept ..)
  refine .of ?_ rfl id id id
  exact .refl _
  refine .trans ?_ (setFail_kept ..)
  refine .of ?_ rfl id id id
  exact .refl _
  refine .ite ?_ ?_
  refine .trans ?_ (endJob_kept ..)
  refine .trans ?_ (setFail_kept ..)
  refine .of ?_ rfl id id id
  exact .refl _
  split
  refine .ite ?_ ?_
  refine .trans ?_ (addOption_kept ..)
  refine .trans ?_ (endJob_kept ..)
  refine .trans ?_ (raise_kept ..)
  refine .trans ?_ (hwSet_kept ..)
  refine .of ?_ rfl id id id
  refine .trans ?_ (setFail_kept ..)
  refine .of ?_ rfl id id id
  exact .refl _
  refine .trans ?_ (endJob_kept ..)
  refine .trans ?_ (raise_kept ..)
  refine .trans ?_ (hwSet_kept ..)
  refine .of ?_ rfl id id id
  refine .trans ?_ (setFail_kept ..)
  refine .of ?_ rfl id id id
  exact .refl _
  refine .trans ?_ (modJob_kept ..)
  split
  refine .trans ?_ (copyUnits_kept ..)
  refine .trans ?_ (takeSpare_kept (by assumption))
  refine .trans ?_ (setFail_kept ..)
  refine .of ?_ rfl id id id
  exact .refl _
  dsimp only
  refine .trans ?_ (takeSpare_kept (by assumption))
  refine .trans ?_ (setFail_kept ..)
  refine .of ?_ rfl id id id
  exact .refl _

theorem persistNext_kept (s : State) : Kept s (persistNext s) := by
  unfold persistNext
  dsimp only
  split
  refine .ite ?_ ?_
  refine .trans ?_ (modJob_kept ..)
  refine .of ?_ rfl id id id
  exact stageRecord_kept ..
  refine .of ?_ rfl id id id
  exact .refl _
  refine .trans ?_ (addJob_kept ..)
  refine .of ?_ rfl id id id
  exact .refl _
  refine .of ?_ rfl id id id
  exact .refl _

theorem beginErase_kept (p : NvmPlace) (s : State) : Kept s (beginErase p s) :=
  .of (.refl _) rfl id id (fun h => rising_filter _ h)

theorem beginProgram_kept (k : Nat) (s : State) : Kept s (beginProgram k s) := by
  unfold beginProgram
  refine .of ?_ rfl id id id
  exact .refl _

theorem finishRetire_kept (s : State) : Kept s (finishRetire s) := by
  unfold finishRetire
  split
  exact .refl _
  split
  refine .ite ?_ ?_
  refine .trans ?_ (addOption_kept ..)
  exact modJob_kept ..
  dsimp only
  refine .ite ?_ ?_
  refine .trans ?_ (endJob_kept ..)
  refine .trans ?_ (setFail_kept ..)
  refine .trans ?_ (modJob_kept ..)
  refine .trans ?_ (raise_kept ..)
  refine .trans ?_ (hwSet_kept ..)
  refine .of ?_ rfl id id id
  exact .refl _
  refine .trans ?_ (popOp_kept ..)
  refine .trans ?_ (modJob_kept ..)
  refine .trans ?_ (modJob_kept ..)
  refine .trans ?_ (raise_kept ..)
  refine .trans ?_ (hwSet_kept ..)
  refine .of ?_ rfl id id id
  exact .refl _
  exact .refl _

theorem pumpF_kept (fuel : Nat) (s : State) : Kept s (pumpF fuel s) := by
  induction fuel generalizing s with
  | zero => exact .refl _
  | succ fuel ih =>
    unfold pumpF
    refine .ite ?_ ?_
    exact .refl _
    split
    exact .refl _
    split
    split
    dsimp only
    refine .ite ?_ ?_
    refine .trans ?_ (ih ..)
    exact endJob_kept ..
    refine .trans ?_ (ih ..)
    exact modJob_kept ..
    refine .trans ?_ (ih ..)
    exact persistNext_kept ..
    refine .trans ?_ (ih ..)
    exact endJob_kept ..
    dsimp only
    refine .trans ?_ (ih ..)
    refine .trans ?_ (modJob_kept ..)
    exact .of (.refl _) rfl id id id
    refine .trans ?_ (ih ..)
    exact checkCopy_kept ..
    refine .trans ?_ (ih ..)
    exact finishRetire_kept ..
    refine .ite ?_ ?_
    refine .trans ?_ (ih ..)
    refine .trans ?_ (endJob_kept ..)
    exact setFail_kept ..
    exact beginErase_kept ..
    dsimp only
    refine .ite ?_ ?_
    refine .trans ?_ (ih ..)
    refine .trans ?_ (endJob_kept ..)
    exact setFail_kept ..
    refine .ite ?_ ?_
    refine .ite ?_ ?_
    refine .trans ?_ (beginProgram_kept ..)
    exact readUnit_kept ..
    refine .trans ?_ (ih ..)
    refine .trans ?_ (endJob_kept ..)
    refine .trans ?_ (setFail_kept ..)
    refine .trans ?_ (countUnit_kept ..)
    exact readUnit_kept ..
    exact beginProgram_kept ..

theorem pump_kept (s : State) : Kept s (pump s) := by
  unfold pump
  exact pumpF_kept ..

theorem reportWear_kept (sector : Nat) (n : Nat) (s : State) : Kept s (reportWear sector n s) := by
  unfold reportWear
  dsimp only
  refine .ite ?_ ?_
  exact .refl _
  refine .ite ?_ ?_
  refine .trans ?_ (setFail_kept ..)
  refine .trans ?_ (modJob_kept ..)
  refine .trans ?_ (raise_kept ..)
  refine .trans ?_ (hwSet_kept ..)
  refine .of ?_ rfl id id id
  exact .refl _
  refine .trans ?_ (modJob_kept ..)
  refine .trans ?_ (raise_kept ..)
  refine .trans ?_ (hwSet_kept ..)
  refine .of ?_ rfl id id id
  exact .refl _

theorem opDone_kept (n : Nat) (s : State) : Kept s (opDone n s) := by
  unfold opDone
  dsimp only
  refine .trans ?_ (pump_kept ..)
  refine .trans ?_ (popOp_kept ..)
  exact modJob_kept ..

theorem erasePulse_kept (pass : Bool) (s : State) : Kept s (erasePulse pass s) := by
  unfold erasePulse
  split
  split
  refine .ite ?_ ?_
  exact .refl _
  dsimp only
  refine .ite ?_ ?_
  refine .trans ?_ (opDone_kept ..)
  refine .trans ?_ (reportWear_kept ..)
  refine .of ?_ rfl id id id
  exact .refl _
  refine .ite ?_ ?_
  refine .trans ?_ (pump_kept ..)
  refine .trans ?_ (verifyFail_kept ..)
  exact reportWear_kept ..
  refine .of ?_ rfl id id id
  exact .refl _
  exact .refl _
  exact .refl _

theorem programPulse_kept (pass : Bool) (s : State) : Kept s (programPulse pass s) := by
  unfold programPulse
  split
  · split
    · split
      · exact .refl _
      · dsimp only
        split
        · refine .trans ?_ (opDone_kept ..)
          exact .of (.refl _) rfl id id (fun h => aput_wf _ _ h)
        · split
          · exact .trans (verifyFail_kept ..) (pump_kept ..)
          · exact .of (.refl _) rfl id id id
    · exact .refl _
  · exact .refl _

theorem nvmSuspend_kept (s : State) : Kept s (nvmSuspend s) := by
  unfold nvmSuspend
  split
  refine .ite ?_ ?_
  refine .of ?_ rfl id id id
  exact .refl _
  exact .refl _
  exact .refl _

theorem nvmResume_kept (s : State) : Kept s (nvmResume s) := by
  unfold nvmResume
  split
  refine .ite ?_ ?_
  refine .of ?_ rfl id id id
  exact .refl _
  exact .refl _
  exact .refl _

theorem refuseProtected_kept (s : State) : Kept s (refuseProtected s) := by
  unfold refuseProtected
  refine .trans ?_ (raise_kept ..)
  refine .trans ?_ (hwSet_kept ..)
  refine .of ?_ rfl id id id
  exact .refl _

theorem readUnits_kept (k u : Nat) (s : State) : Kept s (readUnits k u s).2 := by
  induction k generalizing u s with
  | zero => exact .refl _
  | succ k ih =>
    unfold readUnits
    split
    split
    dsimp only
    refine .snd ?_ (by assumption)
    refine .trans ?_ (ih ..)
    refine .snd ?_ (by assumption)
    exact readLogical_kept ..

theorem nvmWarm_kept (s : State) : Kept s (nvmWarm s) := by
  unfold nvmWarm
  refine .of ?_ rfl id id id
  exact .refl _

theorem nvmReadEffect_kept (r : Nat) (s : State) : Kept s (nvmReadEffect r s) := by
  unfold nvmReadEffect
  refine .ite ?_ ?_
  dsimp only
  refine .trans ?_ (rcTaken_kept ..)
  refine .of ?_ rfl id id id
  exact .refl _
  exact .refl _

theorem nvmWrite_kept (r : Nat) (v : U32) (s : State) : Kept s (nvmWrite r v s) := by
  unfold nvmWrite
  dsimp only
  split
  refine .of ?_ rfl id id id
  exact .refl _
  refine .of ?_ rfl id id id
  exact .refl _
  refine .of ?_ rfl id id id
  exact .refl _
  exact .refl _

end Sys2Proof.Machine
end

