-- ==== Sys2Proof/Laws/KeptLedger.lean ====
section
/-! SUPPORT. Every operation of Machine/Ledger.lean leaves the command queue alone and keeps the memories canonical. -/

namespace Sys2Proof.Machine

set_option Elab.async false

theorem writeTj_kept (c : Nat) (v : U32) (s : State) : Kept s (writeTj c v s) := by
  unfold writeTj
  dsimp only
  refine .ite ?_ ?_
  refine .trans ?_ (lgFlag_kept ..)
  exact State.modLg_kept ..
  refine .trans ?_ (State.modLg_kept ..)
  refine .ite ?_ ?_
  exact lgFlag_kept ..
  exact .refl _

theorem leaveRecord_kept (c : Nat) (s : State) : Kept s (leaveRecord c s) := by
  unfold leaveRecord
  dsimp only
  refine .trans ?_ (State.modLg_kept ..)
  refine .trans ?_ (putPos_kept ..)
  refine .trans ?_ (lgPut_kept ..)
  refine .trans ?_ (.foldl (fun s k => ?_) _ _)
  exact .refl _
  exact closeCycle_kept ..

theorem bindRecord_kept (c : Nat) (r : Nat) (s : State) : Kept s (bindRecord c r s) := by
  unfold bindRecord
  dsimp only
  refine .trans ?_ (State.modLg_kept ..)
  exact putPos_kept ..

theorem openRecord_kept (c r : Nat) (id_ : U64) (s : State) : Kept s (openRecord c r id_ s) := by
  unfold openRecord
  dsimp only
  generalize List.replicate 2304 (0 : Byte) = l
  refine .trans ?_ (bindRecord_kept ..)
  refine .trans ?_ (putFlags_kept ..)
  refine .trans ?_ (lgPut_kept ..)
  refine .trans ?_ (lgPut_kept ..)
  exact .of (.refl _) rfl (fun h => ⟨h.1, h.2.1, h.2.2.1, h.2.2.2.1, memWrite_wf _ _ h.2.2.2.2.1, h.2.2.2.2.2⟩) id id

theorem ledgerBind_kept (c : Nat) (fresh : Bool) (id : U64) (s : State) : Kept s (ledgerBind c fresh id s).2 := by
  unfold ledgerBind
  split
  dsimp only
  exact .refl _
  dsimp only
  split
  dsimp only
  exact processTemp_kept ..
  split
  dsimp only
  refine .ite ?_ ?_
  refine .trans ?_ (leaveRecord_kept ..)
  exact processTemp_kept ..
  exact processTemp_kept ..
  split
  split
  dsimp only
  refine .trans ?_ (leaveRecord_kept ..)
  exact processTemp_kept ..
  split
  split
  dsimp only
  refine .trans ?_ (leaveRecord_kept ..)
  exact processTemp_kept ..
  dsimp only
  refine .trans ?_ (bindRecord_kept ..)
  refine .trans ?_ (leaveRecord_kept ..)
  exact processTemp_kept ..
  split
  dsimp only
  refine .ite ?_ ?_
  refine .trans ?_ (.foldl (fun s k => ?_) _ _)
  refine .trans ?_ (leaveRecord_kept ..)
  exact processTemp_kept ..
  exact putPos_kept ..
  refine .trans ?_ (leaveRecord_kept ..)
  exact processTemp_kept ..
  dsimp only
  refine .trans ?_ (openRecord_kept ..)
  refine .ite ?_ ?_
  refine .trans ?_ (lgFlag_kept ..)
  refine .ite ?_ ?_
  refine .trans ?_ (.foldl (fun s k => ?_) _ _)
  refine .trans ?_ (leaveRecord_kept ..)
  exact processTemp_kept ..
  exact putPos_kept ..
  refine .trans ?_ (leaveRecord_kept ..)
  exact processTemp_kept ..
  refine .ite ?_ ?_
  refine .trans ?_ (.foldl (fun s k => ?_) _ _)
  refine .trans ?_ (leaveRecord_kept ..)
  exact processTemp_kept ..
  exact putPos_kept ..
  refine .trans ?_ (leaveRecord_kept ..)
  exact processTemp_kept ..
  split
  dsimp only
  exact processTemp_kept ..
  split
  split
  dsimp only
  exact processTemp_kept ..
  dsimp only
  refine .trans ?_ (bindRecord_kept ..)
  exact processTemp_kept ..
  split
  dsimp only
  refine .ite ?_ ?_
  refine .trans ?_ (.foldl (fun s k => ?_) _ _)
  exact processTemp_kept ..
  exact putPos_kept ..
  exact processTemp_kept ..
  dsimp only
  refine .trans ?_ (openRecord_kept ..)
  refine .ite ?_ ?_
  refine .trans ?_ (lgFlag_kept ..)
  refine .ite ?_ ?_
  refine .trans ?_ (.foldl (fun s k => ?_) _ _)
  exact processTemp_kept ..
  exact putPos_kept ..
  exact processTemp_kept ..
  refine .ite ?_ ?_
  refine .trans ?_ (.foldl (fun s k => ?_) _ _)
  exact processTemp_kept ..
  exact putPos_kept ..
  exact processTemp_kept ..

theorem dropLedgerErase_kept (s : State) : Kept s (dropLedgerErase s) := by
  unfold dropLedgerErase
  dsimp only
  exact .of (.refl _) rfl id id id

theorem persistStart_kept (s : State) : Kept s (persistStart s) := by
  unfold persistStart
  dsimp only
  refine .ite ?_ ?_
  refine .ite ?_ ?_
  refine .trans ?_ (lgTrigger_kept ..)
  exact .of (.refl _) rfl id id id
  exact .refl _
  refine .trans ?_ (pump_kept ..)
  refine .trans ?_ (addJob_kept ..)
  refine .trans ?_ (dropLedgerErase_kept ..)
  refine .of ?_ rfl id id id
  refine .ite ?_ ?_
  refine .trans ?_ (lgTrigger_kept ..)
  exact .of (.refl _) rfl id id id
  exact .refl _

theorem persistCommit_kept (s : State) : Kept s (persistCommit s) := by
  unfold persistCommit
  split
  refine .ite ?_ ?_
  dsimp only
  refine .trans ?_ (pump_kept ..)
  refine .trans ?_ (addJob_kept ..)
  exact .of (.refl _) rfl id id id
  exact .refl _
  exact .refl _

theorem readCommit_kept (a : Nat) (s : State) : Kept s (readCommit a s).2 := by
  unfold readCommit
  split
  dsimp only
  refine .trans ?_ (countUnit_kept ..)
  refine .snd ?_ (by assumption)
  exact readUnit_kept ..

theorem readCommits_kept (k u : Nat) (s : State) : Kept s (readCommits k u s).2 := by
  induction k generalizing u s with
  | zero => exact .refl _
  | succ k ih =>
    unfold readCommits
    split
    split
    dsimp only
    refine .snd ?_ (by assumption)
    refine .trans ?_ (ih ..)
    refine .snd ?_ (by assumption)
    exact readCommit_kept ..

theorem loadRecord_kept (r : Nat) (l : List (Nat × U32)) (s : State) : Kept s (loadRecord r l s).2 := by
  induction l generalizing s with
  | nil => exact .refl _
  | cons x t ih =>
    obtain ⟨a, v⟩ := x
    unfold loadRecord
    split
    split
    dsimp only
    refine .snd ?_ (by assumption)
    exact readUnits_kept ..
    refine .trans ?_ (ih ..)
    refine .snd ?_ (by assumption)
    exact readUnits_kept ..

theorem ledgerLoad_kept (s : State) : Kept s (ledgerLoad s) := by
  unfold ledgerLoad
  generalize List.replicate 2304 (0 : Byte) = z
  split
  dsimp only
  refine .of ?_ rfl id id id
  refine .trans ?_ (.each (fun s k => ?_) _ _)
  refine .snd ?_ (by assumption)
  exact readCommits_kept ..
  split
  refine .ite ?_ ?_
  refine .trans ?_ (putPos_kept ..)
  refine .of ?_ rfl ?_ ?_ ?_
  refine .snd ?_ (by assumption)
  exact loadRecord_kept ..
  exact fun h => ⟨h.1, h.2.1, h.2.2.1, h.2.2.2.1, memWrite_wf _ _ h.2.2.2.2.1, h.2.2.2.2.2⟩
  exact id
  exact id
  refine .of ?_ rfl ?_ ?_ ?_
  refine .snd ?_ (by assumption)
  exact loadRecord_kept ..
  exact fun h => ⟨h.1, h.2.1, h.2.2.1, h.2.2.2.1, memWrite_wf _ _ h.2.2.2.2.1, h.2.2.2.2.2⟩
  exact id
  exact id
  refine .trans ?_ (hwSet_kept ..)
  refine .of ?_ rfl ?_ ?_ ?_
  refine .snd ?_ (by assumption)
  exact loadRecord_kept ..
  exact fun h => ⟨h.1, h.2.1, h.2.2.1, h.2.2.2.1, memWrite_wf _ _ h.2.2.2.2.1, h.2.2.2.2.2⟩
  exact id
  exact id

theorem writeLgcfg_kept (v : U32) (s : State) : Kept s (writeLgcfg v s) := by
  unfold writeLgcfg
  dsimp only
  refine .ite ?_ ?_
  refine .trans ?_ (ledgerLoad_kept ..)
  exact .of (.refl _) rfl id id id
  exact .of (.refl _) rfl id id id

theorem nextMaddr_kept (s : State) : Kept s (nextMaddr s) := by
  unfold nextMaddr
  refine .ite ?_ ?_
  exact .of (.refl _) rfl id id id
  exact .refl _

theorem lgmPut_kept (a : Nat) (v : U32) (s : State) : Kept s (lgmPut a v s) := by
  unfold lgmPut
  refine .ite ?_ ?_
  exact .refl _
  refine .ite ?_ ?_
  refine .trans ?_ (hwSet_kept ..)
  refine .of ?_ rfl id id id
  exact .refl _
  exact lgPut_kept ..

theorem lgmWrite_kept (v : U32) (s : State) : Kept s (lgmWrite v s) := by
  unfold lgmWrite
  refine .trans ?_ (nextMaddr_kept ..)
  exact lgmPut_kept ..

theorem lgReadEffect_kept (r : Nat) (s : State) : Kept s (lgReadEffect r s) := by
  unfold lgReadEffect
  refine .ite ?_ ?_
  exact nextMaddr_kept ..
  refine .ite ?_ ?_
  dsimp only
  exact State.modLg_kept ..
  refine .ite ?_ ?_
  exact State.modLg_kept ..
  exact .refl _

theorem lgWrite_kept (r : Nat) (v : U32) (s : State) : Kept s (lgWrite r v s) := by
  unfold lgWrite
  dsimp only
  refine .ite ?_ ?_
  split
  exact State.modLg_kept ..
  exact writeTj_kept ..
  exact State.modLg_kept ..
  exact State.modLg_kept ..
  exact State.modLg_kept ..
  exact State.modLg_kept ..
  exact .refl _
  split
  exact writeLgcfg_kept ..
  exact .of (.refl _) rfl id id id
  refine .ite ?_ ?_
  exact .refl _
  exact .of (.refl _) rfl id id id
  exact .of (.refl _) rfl id id id
  exact .of (.refl _) rfl id id id
  exact .of (.refl _) rfl id id id
  exact .of (.refl _) rfl id id id
  exact lgmWrite_kept ..
  exact .refl _

theorem lgWarm_kept (s : State) : Kept s (lgWarm s) := by
  unfold lgWarm
  exact .of (.refl _) rfl id id id

end Sys2Proof.Machine
end

