-- ==== Sys2Proof/Laws/KeptLinkTree.lean ====
section
/-! SUPPORT. Every operation of Machine/LinkTree.lean leaves the command queue alone and keeps the memories canonical. -/

namespace Sys2Proof.Machine

set_option Elab.async false

theorem portEvent_kept (p : Nat) (e : Nat) (s : State) : Kept s (portEvent p e s) := by
  unfold portEvent
  refine .trans ?_ (raise_kept ..)
  refine .trans ?_ (hwSet_kept ..)
  exact State.modPort_kept ..

theorem countUnc_kept (p : Nat) (s : State) :
    Kept s (countUnc p s) := by
  unfold countUnc
  refine .trans ?_ (rcSet_kept ..)
  exact State.modPort_kept ..

theorem countCor_kept (p : Nat) (s : State) :
    Kept s (countCor p s) := by
  unfold countCor
  refine .trans ?_ (rcSet_kept ..)
  exact State.modPort_kept ..

theorem countOserr_kept (p : Nat) (s : State) :
    Kept s (countOserr p s) := by
  unfold countOserr
  refine .trans ?_ (rcSet_kept ..)
  exact State.modPort_kept ..

theorem countDrop_kept (p : Nat) (s : State) :
    Kept s (countDrop p s) := by
  unfold countDrop
  refine .trans ?_ (rcSet_kept ..)
  exact State.modPort_kept ..

theorem countCerr_kept (l : Nat) (s : State) :
    Kept s (countCerr l s) := by
  unfold countCerr
  refine .trans ?_ (rcSet_kept ..)
  exact State.modLane_kept ..

theorem setRoles_kept (s : State) : Kept s (setRoles s) := by
  unfold setRoles
  refine .trans ?_ (.each (fun s k => ?_) _ _)
  exact .refl _
  dsimp only
  exact State.modPort_kept ..

theorem setPresent_kept (s : State) : Kept s (setPresent s) := by
  unfold setPresent
  dsimp only
  refine .trans ?_ (raiseIf_kept ..)
  exact .of (.refl _) rfl id id id

theorem electUpdate_kept (s : State) : Kept s (electUpdate s) := by
  unfold electUpdate
  dsimp only
  refine .trans ?_ (setPresent_kept ..)
  refine .trans ?_ (setRoles_kept ..)
  exact .of (.refl _) rfl id id id

theorem failover_kept (s : State) : Kept s (failover s) := by
  unfold failover
  dsimp only
  split
  refine .trans ?_ (originate_kept ..)
  refine .trans ?_ (nextMsg_kept ..)
  refine .trans ?_ (netFlag_kept ..)
  refine .trans ?_ (setRoles_kept ..)
  refine .of ?_ rfl id id id
  exact .refl _
  refine .trans ?_ (setRoles_kept ..)
  refine .of ?_ rfl id id id
  exact .refl _

theorem failSends_kept (bs : List TxBlock) (s : State) : Kept s (failSends bs s) := by
  unfold failSends
  refine .trans ?_ (.foldl (fun s k => ?_) _ _)
  exact .refl _
  split
  exact setStage_kept ..
  exact .refl _

theorem portLeave_kept (p : Nat) (st : BitVec 3) (write : Bool) (s : State) : Kept s (portLeave p st write s) := by
  unfold portLeave
  refine .ite ?_ ?_
  exact State.modPort_kept ..
  dsimp only
  refine .trans ?_ (setPresent_kept ..)
  refine .ite ?_ ?_
  refine .trans ?_ (failover_kept ..)
  refine .ite ?_ ?_
  refine .trans ?_ (State.modPort_kept ..)
  exact failSends_kept ..
  refine .trans ?_ (portEvent_kept ..)
  refine .trans ?_ (State.modPort_kept ..)
  exact failSends_kept ..
  refine .trans ?_ (setRoles_kept ..)
  refine .ite ?_ ?_
  refine .trans ?_ (State.modPort_kept ..)
  exact failSends_kept ..
  refine .trans ?_ (portEvent_kept ..)
  refine .trans ?_ (State.modPort_kept ..)
  exact failSends_kept ..

theorem assignDown_kept (s : State) : Kept s (assignDown s) := by
  unfold assignDown
  dsimp only
  refine .trans ?_ (.foldlFst (fun a x => ?_) _ _)
  dsimp only
  exact .refl _
  refine .iteFst ?_ ?_
  dsimp only
  exact .refl _
  refine .iteFst ?_ ?_
  dsimp only
  refine .trans ?_ (sendMgmt_kept ..)
  exact State.modPort_kept ..
  dsimp only
  exact State.modPort_kept ..

theorem finishEnum_kept (s : State) : Kept s (finishEnum s) := by
  unfold finishEnum
  split
  exact .refl _
  dsimp only
  refine .trans ?_ (.foldl (fun s k => ?_) _ _)
  refine .trans ?_ (assignDown_kept ..)
  refine .trans ?_ (netFlag_kept ..)
  refine .of ?_ rfl id id id
  exact .refl _
  split
  refine .ite ?_ ?_
  exact setStage_kept ..
  exact .refl _
  exact .refl _

theorem reportCount_kept (s : State) : Kept s (reportCount s) := by
  unfold reportCount
  refine .ite ?_ ?_
  refine .ite ?_ ?_
  exact finishEnum_kept ..
  exact .refl _
  split
  refine .ite ?_ ?_
  exact .refl _
  refine .trans ?_ (sendMgmt_kept ..)
  exact .of (.refl _) rfl id id id
  exact .refl _

end Sys2Proof.Machine
end

