-- ==== Sys2Proof/Laws/KeptLinkPhy.lean ====
section
/-! SUPPORT. Every operation of Machine/LinkPhy.lean leaves the command queue alone and keeps the memories canonical. -/

namespace Sys2Proof.Machine

set_option Elab.async false

theorem laneStart_kept (l : Nat) (s : State) :
    Kept s (laneStart l s) := by
  unfold laneStart
  dsimp only
  refine .ite ?_ ?_
  refine .trans ?_ (State.modPort_kept ..)
  exact State.modLane_kept ..
  exact State.modLane_kept ..

theorem startPort_kept (p : Nat) (s : State) :
    Kept s (startPort p s) := by
  unfold startPort
  refine .trans ?_ (.foldl (fun s k => ?_) _ _)
  exact .refl _
  refine .ite ?_ ?_
  exact laneStart_kept ..
  exact .refl _

theorem idlePort_kept (p : Nat) (s : State) :
    Kept s (idlePort p s) := by
  unfold idlePort
  refine .trans ?_ (.foldl (fun s k => ?_) _ _)
  exact .refl _
  exact State.modLane_kept ..

theorem toDetect_kept (p : Nat) (write : Bool) (s : State) : Kept s (toDetect p write s) := by
  unfold toDetect
  refine .trans ?_ (startPort_kept ..)
  exact portLeave_kept ..

theorem sendAlign_kept (p : Nat) (s : State) :
    Kept s (sendAlign p s) := by
  unfold sendAlign
  dsimp only
  exact State.modPort_kept ..

theorem portAlign_kept (p : Nat) (s : State) : Kept s (portAlign p s) := by
  unfold portAlign
  dsimp only
  refine .ite ?_ ?_
  exact State.modPort_kept ..
  exact .refl _

theorem laneDetect_kept (l : Nat) (inverted : Bool) (s : State) : Kept s (laneDetect l inverted s) := by
  unfold laneDetect
  refine .ite ?_ ?_
  exact State.modLane_kept ..
  exact .refl _

theorem trainReady_kept (l : Nat) (farMod : BitVec 2) (farNear : Bool) (ffe : BitVec 18) (s : State) :
    Kept s (trainReady l farMod farNear ffe s) := by
  unfold trainReady
  dsimp only
  refine .ite ?_ ?_
  refine .trans ?_ (portAlign_kept ..)
  exact State.modLane_kept ..
  exact .refl _

theorem portComesUp_kept (p : Nat) (aseq : Byte) (lidx : Byte) (skew : U32) (s : State) :
    Kept s (portComesUp p aseq lidx skew s) := by
  unfold portComesUp
  refine .ite ?_ ?_
  dsimp only
  refine .trans ?_ (setRoles_kept ..)
  refine .trans ?_ (portEvent_kept ..)
  refine .trans ?_ (State.modPort_kept ..)
  refine .trans ?_ (.foldl (fun s k => ?_) _ _)
  exact .refl _
  exact State.modLane_kept ..
  exact .refl _

theorem writeLnkcfg_kept (v : U32) (s : State) : Kept s (writeLnkcfg v s) := by
  unfold writeLnkcfg
  dsimp only
  refine .trans ?_ (.each (fun s k => ?_) _ _)
  refine .of ?_ rfl id id id
  refine .trans ?_ (hwSetIf_kept ..)
  refine .of ?_ rfl id id id
  exact .refl _
  refine .ite ?_ ?_
  refine .trans ?_ (startPort_kept ..)
  refine .trans ?_ (portLeave_kept ..)
  exact State.modLane_kept ..
  refine .ite ?_ ?_
  refine .trans ?_ (State.modPort_kept ..)
  exact laneStart_kept ..
  exact .refl _

theorem portFreed_kept (p : Nat) (vl : Nat) (s : State) : Kept s (portFreed p vl s) := by
  unfold portFreed
  exact State.modPort_kept ..

theorem memberResp_kept {f : Frame} {s t : State} (h : memberResp f s = some t) : Kept s t := by
  unfold memberResp at h
  dsimp only at h
  split at h
  cases h
  exact .of (.refl _) rfl id id id
  cases h

theorem memberEventIn_kept (f : Frame) (s : State) :
    Kept s (memberEventIn f s) := by
  unfold memberEventIn
  dsimp only
  refine .ite ?_ ?_
  refine .trans ?_ (appendEvent_kept ..)
  exact raiseIf_kept ..
  exact raiseIf_kept ..

theorem arrive_kept (p : Nat) (f : Frame) (bad : Bool) (s : State) : Kept s (arrive p f bad s) := by
  unfold arrive
  refine .ite ?_ ?_
  exact countUnc_kept ..
  dsimp only
  refine .ite ?_ ?_
  refine .trans ?_ (countUnc_kept ..)
  exact State.modPort_kept ..
  refine .ite ?_ ?_
  refine .trans ?_ (keepFrame_kept ..)
  exact State.modPort_kept ..
  refine .ite ?_ ?_
  refine .trans ?_ (dropFrame_kept ..)
  exact State.modPort_kept ..
  refine .ite ?_ ?_
  refine .trans ?_ (keepFrame_kept ..)
  exact State.modPort_kept ..
  refine .ite ?_ ?_
  refine .ite ?_ ?_
  refine .trans ?_ (memberEventIn_kept ..)
  exact State.modPort_kept ..
  split
  refine .trans ?_ (memberResp_kept (by assumption))
  exact State.modPort_kept ..
  refine .trans ?_ (relay_kept ..)
  exact State.modPort_kept ..
  refine .trans ?_ (relay_kept ..)
  exact State.modPort_kept ..

theorem takeBlock_kept (p : Nat) (ftype : BitVec 3) (vl : BitVec 2) (pos : BitVec 2) (payload : List Byte)
    (bad : Bool) (s : State) : Kept s (takeBlock p ftype vl pos payload bad s) := by
  unfold takeBlock
  dsimp only
  split
  refine .ite ?_ ?_
  refine .trans ?_ (State.modPort_kept ..)
  refine .trans ?_ (countDrop_kept ..)
  refine .trans ?_ (portFreed_kept ..)
  refine .ite ?_ ?_
  refine .trans ?_ (State.modPort_kept ..)
  exact countDrop_kept ..
  exact .refl _
  refine .ite ?_ ?_
  refine .trans ?_ (arrive_kept ..)
  refine .ite ?_ ?_
  refine .ite ?_ ?_
  refine .trans ?_ (State.modPort_kept ..)
  exact countDrop_kept ..
  exact .refl _
  refine .trans ?_ (portFreed_kept ..)
  refine .ite ?_ ?_
  refine .trans ?_ (State.modPort_kept ..)
  exact countDrop_kept ..
  exact .refl _
  refine .trans ?_ (State.modPort_kept ..)
  refine .trans ?_ (portFreed_kept ..)
  refine .ite ?_ ?_
  refine .trans ?_ (State.modPort_kept ..)
  exact countDrop_kept ..
  exact .refl _
  refine .ite ?_ ?_
  refine .trans ?_ (arrive_kept ..)
  refine .trans ?_ (State.modPort_kept ..)
  refine .trans ?_ (portFreed_kept ..)
  refine .ite ?_ ?_
  refine .trans ?_ (State.modPort_kept ..)
  exact countDrop_kept ..
  exact .refl _
  refine .ite ?_ ?_
  refine .trans ?_ (State.modPort_kept ..)
  refine .trans ?_ (countDrop_kept ..)
  refine .trans ?_ (portFreed_kept ..)
  refine .ite ?_ ?_
  refine .trans ?_ (State.modPort_kept ..)
  exact countDrop_kept ..
  exact .refl _
  refine .trans ?_ (State.modPort_kept ..)
  refine .trans ?_ (portFreed_kept ..)
  refine .ite ?_ ?_
  refine .trans ?_ (State.modPort_kept ..)
  exact countDrop_kept ..
  exact .refl _

theorem uncorrectable_kept (p : Nat) (seq : BitVec 3) (s : State) : Kept s (uncorrectable p seq s) := by
  unfold uncorrectable
  refine .trans ?_ (portEvent_kept ..)
  refine .trans ?_ (State.modPort_kept ..)
  exact countUnc_kept ..

theorem countErrors_kept (p : Nat) (places : List Nat) (s : State) : Kept s (countErrors p places s) := by
  unfold countErrors
  dsimp only
  refine .ite ?_ ?_
  refine .trans ?_ (.foldl (fun s k => ?_) _ _)
  exact .refl _
  split
  exact countCerr_kept ..
  exact .refl _
  refine .ite ?_ ?_
  refine .trans ?_ (portEvent_kept ..)
  refine .trans ?_ (countCor_kept ..)
  refine .trans ?_ (.foldl (fun s k => ?_) _ _)
  exact .refl _
  split
  exact countCerr_kept ..
  exact .refl _
  refine .trans ?_ (countCor_kept ..)
  refine .trans ?_ (.foldl (fun s k => ?_) _ _)
  exact .refl _
  split
  exact countCerr_kept ..
  exact .refl _

theorem codewordReceive_kept (p : Nat) (bits : BitVec 680) (s : State) : Kept s (codewordReceive p bits s) := by
  unfold codewordReceive
  refine .ite ?_ ?_
  exact .refl _
  dsimp only
  split
  refine .trans ?_ (uncorrectable_kept ..)
  exact State.modPort_kept ..
  refine .ite ?_ ?_
  refine .trans ?_ (uncorrectable_kept ..)
  refine .trans ?_ (countErrors_kept ..)
  exact State.modPort_kept ..
  refine .ite ?_ ?_
  refine .trans ?_ (State.modPort_kept ..)
  refine .trans ?_ (countErrors_kept ..)
  exact State.modPort_kept ..
  refine .trans ?_ (takeBlock_kept ..)
  refine .trans ?_ (State.modPort_kept ..)
  refine .trans ?_ (countErrors_kept ..)
  exact State.modPort_kept ..

theorem sendCodeword_kept (p : Nat) (h0 : Byte) (payload : List Byte) (s : State) :
    Kept s (sendCodeword p h0 payload s) := by
  unfold sendCodeword
  dsimp only
  exact State.modPort_kept ..

theorem codewordSend_kept (p : Nat) (s : State) : Kept s (codewordSend p s) := by
  unfold codewordSend
  refine .ite ?_ ?_
  exact .refl _
  dsimp only
  refine .ite ?_ ?_
  refine .trans ?_ (sendCodeword_kept ..)
  exact State.modPort_kept ..
  split
  exact sendCodeword_kept ..
  split
  exact sendCodeword_kept ..
  split
  split
  refine .trans ?_ (setStage_kept ..)
  refine .trans ?_ (sendCodeword_kept ..)
  exact State.modPort_kept ..
  refine .trans ?_ (sendCodeword_kept ..)
  exact State.modPort_kept ..
  refine .trans ?_ (sendCodeword_kept ..)
  exact State.modPort_kept ..

theorem shutOrder_kept (p : Nat) (origin : BitVec 14) (seq : Byte) (hops : BitVec 5) (s : State) :
    Kept s (shutOrder p origin seq hops s) := by
  unfold shutOrder
  refine .ite ?_ ?_
  exact .refl _
  dsimp only
  refine .ite ?_ ?_
  refine .trans ?_ (portEvent_kept ..)
  exact State.modPort_kept ..
  refine .ite ?_ ?_
  refine .trans ?_ (shutAssert_kept ..)
  refine .of ?_ rfl id id id
  refine .ite ?_ ?_
  refine .trans ?_ (.foldl (fun s k => ?_) _ _)
  refine .of ?_ rfl id id id
  refine .trans ?_ (portEvent_kept ..)
  exact State.modPort_kept ..
  exact sendSet_kept ..
  refine .of ?_ rfl id id id
  refine .trans ?_ (portEvent_kept ..)
  exact State.modPort_kept ..
  refine .ite ?_ ?_
  refine .trans ?_ (.foldl (fun s k => ?_) _ _)
  refine .of ?_ rfl id id id
  refine .trans ?_ (portEvent_kept ..)
  exact State.modPort_kept ..
  exact sendSet_kept ..
  refine .of ?_ rfl id id id
  refine .trans ?_ (portEvent_kept ..)
  exact State.modPort_kept ..

theorem markerReceive_kept (p : Nat) (seq : Byte) (sub : BitVec 6) (s : State) :
    Kept s (markerReceive p seq sub s) := by
  unfold markerReceive
  refine .ite ?_ ?_
  exact .refl _
  exact State.modPort_kept ..

theorem alignReceive_kept (p : Nat) (w : U64) (s : State) : Kept s (alignReceive p w s) := by
  unfold alignReceive
  exact State.modPort_kept ..

theorem orderedSet_kept (p : Nat) (sub : BitVec 6) (cs : List U64) (s : State) : Kept s (orderedSet p sub cs s) := by
  unfold orderedSet
  refine .ite ?_ ?_
  exact .refl _
  dsimp only
  refine .ite ?_ ?_
  refine .trans ?_ (portEvent_kept ..)
  refine .trans ?_ (countOserr_kept ..)
  exact State.modPort_kept ..
  split
  refine .trans ?_ (alignReceive_kept ..)
  exact State.modPort_kept ..
  refine .trans ?_ (markerReceive_kept ..)
  exact State.modPort_kept ..
  refine .trans ?_ (shutOrder_kept ..)
  exact State.modPort_kept ..
  exact State.modPort_kept ..

theorem alignSend_kept (p : Nat) (s : State) : Kept s (alignSend p s) := by
  unfold alignSend
  dsimp only
  refine .ite ?_ ?_
  exact State.modPort_kept ..
  exact .refl _

theorem lossOfLock_kept (p : Nat) (s : State) : Kept s (lossOfLock p s) := by
  unfold lossOfLock
  dsimp only
  refine .ite ?_ ?_
  exact toDetect_kept ..
  exact .refl _

theorem trickleLock_kept (s : State) : Kept s (trickleLock s) := by
  unfold trickleLock
  dsimp only
  refine .ite ?_ ?_
  refine .trans ?_ (State.modPort_kept ..)
  exact State.modLane_kept ..
  exact .refl _

theorem trainingTimeout_kept (l : Nat) (s : State) :
    Kept s (trainingTimeout l s) := by
  unfold trainingTimeout
  dsimp only
  refine .ite ?_ ?_
  refine .trans ?_ (portEvent_kept ..)
  exact laneStart_kept ..
  exact .refl _

theorem writeLaneCtl_kept (l : Nat) (v : U32) (s : State) : Kept s (writeLaneCtl l v s) := by
  unfold writeLaneCtl
  dsimp only
  refine .ite ?_ ?_
  refine .trans ?_ (toDetect_kept ..)
  exact State.modLane_kept ..
  exact State.modLane_kept ..

end Sys2Proof.Machine
end

