-- ==== Sys2Proof/Laws/KeptLinkNet.lean ====
section
/-! SUPPORT. Every operation of Machine/LinkNet.lean leaves the command queue alone and keeps the memories canonical. -/

namespace Sys2Proof.Machine

set_option Elab.async false

theorem takeFrame_kept {p : Nat} {want : Frame → Bool} {s t : State} {a : Frame}
    (h : takeFrame p want s = some (a, t)) : Kept s t := by
  unfold takeFrame at h
  dsimp only at h
  split at h
  cases h
  cases h
  exact State.modPort_kept ..

theorem timeExchange_kept (p : Nat) (sub : BitVec 6) (s : State) : Kept s (timeExchange p sub s) := by
  unfold timeExchange
  dsimp only
  refine .ite ?_ ?_
  exact .refl _
  refine .ite ?_ ?_
  refine .trans ?_ (State.modPort_kept ..)
  exact sendSet_kept ..
  refine .trans ?_ (State.modPort_kept ..)
  exact sendSet_kept ..

theorem timeReply_kept (p : Nat) (sub : BitVec 6) (s : State) : Kept s (timeReply p sub s) := by
  unfold timeReply
  split
  exact .refl _
  refine .ite ?_ ?_
  exact .refl _
  dsimp only
  refine .trans ?_ (queueFrame_kept ..)
  refine .trans ?_ (sendSet_kept ..)
  exact State.modPort_kept ..

theorem discipline_kept (theta : Int) (s : State) : Kept s (discipline theta s) := by
  unfold discipline
  dsimp only
  refine .of ?_ rfl id id id
  refine .ite ?_ ?_
  refine .of ?_ rfl id id id
  exact moveGauge_kept ..
  refine .of ?_ rfl id id id
  exact netFlag_kept ..

theorem upDiscSet_kept (d : Bool) (s : State) :
    Kept s (upDiscSet d s) := by
  unfold upDiscSet
  refine .of ?_ rfl id id id
  exact .refl _

theorem timeFrame_kept (p : Nat) (s : State) : Kept s (timeFrame p s) := by
  unfold timeFrame
  split
  exact .refl _
  dsimp only
  refine .ite ?_ ?_
  refine .trans ?_ (takeFrame_kept (by assumption))
  exact .refl _
  split
  refine .ite ?_ ?_
  refine .trans ?_ (State.modPort_kept ..)
  refine .ite ?_ ?_
  refine .of ?_ rfl id id id
  refine .trans ?_ (takeFrame_kept (by assumption))
  exact .refl _
  refine .trans ?_ (takeFrame_kept (by assumption))
  exact .refl _
  refine .ite ?_ ?_
  refine .trans ?_ (discipline_kept ..)
  refine .of ?_ rfl id id id
  refine .trans ?_ (State.modPort_kept ..)
  refine .trans ?_ (State.modPort_kept ..)
  refine .ite ?_ ?_
  refine .of ?_ rfl id id id
  refine .trans ?_ (takeFrame_kept (by assumption))
  exact .refl _
  refine .trans ?_ (takeFrame_kept (by assumption))
  exact .refl _
  refine .trans ?_ (State.modPort_kept ..)
  refine .trans ?_ (State.modPort_kept ..)
  refine .ite ?_ ?_
  refine .of ?_ rfl id id id
  refine .trans ?_ (takeFrame_kept (by assumption))
  exact .refl _
  refine .trans ?_ (takeFrame_kept (by assumption))
  exact .refl _
  refine .trans ?_ (State.modPort_kept ..)
  refine .ite ?_ ?_
  refine .of ?_ rfl id id id
  refine .trans ?_ (takeFrame_kept (by assumption))
  exact .refl _
  refine .trans ?_ (takeFrame_kept (by assumption))
  exact .refl _

theorem advSend_kept (s : State) : Kept s (advSend s) := by
  unfold advSend
  refine .ite ?_ ?_
  refine .trans ?_ (.each (fun s k => ?_) _ _)
  refine .of ?_ rfl id id id
  exact .refl _
  refine .ite ?_ ?_
  exact sendMgmt_kept ..
  exact .refl _
  exact .refl _

theorem advReceive_kept (p : Nat) (s : State) : Kept s (advReceive p s) := by
  unfold advReceive
  split
  exact .refl _
  dsimp only
  refine .ite ?_ ?_
  refine .trans ?_ (reportCount_kept ..)
  refine .trans ?_ (failover_kept ..)
  refine .trans ?_ (netFlag_kept ..)
  refine .ite ?_ ?_
  refine .of ?_ rfl id id id
  refine .trans ?_ (State.modPort_kept ..)
  refine .trans ?_ (takeFrame_kept (by assumption))
  exact .refl _
  refine .trans ?_ (State.modPort_kept ..)
  refine .trans ?_ (takeFrame_kept (by assumption))
  exact .refl _
  refine .trans ?_ (reportCount_kept ..)
  refine .trans ?_ (electUpdate_kept ..)
  refine .trans ?_ (netFlag_kept ..)
  refine .ite ?_ ?_
  refine .of ?_ rfl id id id
  refine .trans ?_ (State.modPort_kept ..)
  refine .trans ?_ (takeFrame_kept (by assumption))
  exact .refl _
  refine .trans ?_ (State.modPort_kept ..)
  refine .trans ?_ (takeFrame_kept (by assumption))
  exact .refl _

theorem masterElection_kept (s : State) : Kept s (masterElection s) := by
  unfold masterElection
  refine .ite ?_ ?_
  dsimp only
  refine .trans ?_ (finishEnum_kept ..)
  refine .of ?_ rfl id id id
  exact electUpdate_kept ..
  exact .refl _

theorem electionRestart_kept (s : State) : Kept s (electionRestart s) := by
  unfold electionRestart
  split
  refine .ite ?_ ?_
  dsimp only
  refine .trans ?_ (electUpdate_kept ..)
  refine .of ?_ rfl id id id
  refine .trans ?_ (.each (fun s k => ?_) _ _)
  exact .refl _
  exact State.modPort_kept ..
  exact .refl _
  exact .refl _

theorem countReceive_kept (p : Nat) (s : State) : Kept s (countReceive p s) := by
  unfold countReceive
  split
  exact .refl _
  dsimp only
  refine .trans ?_ (reportCount_kept ..)
  refine .trans ?_ (State.modPort_kept ..)
  refine .trans ?_ (takeFrame_kept (by assumption))
  exact .refl _

theorem assignReceive_kept (p : Nat) (s : State) : Kept s (assignReceive p s) := by
  unfold assignReceive
  split
  exact .refl _
  dsimp only
  refine .ite ?_ ?_
  refine .trans ?_ (takeFrame_kept (by assumption))
  exact .refl _
  refine .trans ?_ (assignDown_kept ..)
  refine .of ?_ rfl id id id
  refine .trans ?_ (takeFrame_kept (by assumption))
  exact .refl _

theorem addException_kept (lo : BitVec 14) (hi : BitVec 14) (port : BitVec 2) (keep : Bool) (s : State) :
    Kept s (addException lo hi port keep s) := by
  unfold addException
  dsimp only
  split
  refine .ite ?_ ?_
  exact .refl _
  refine .of ?_ rfl id id id
  exact .refl _
  split
  refine .of ?_ rfl id id id
  exact .refl _
  refine .trans ?_ (netFlag_kept ..)
  refine .of ?_ rfl id id id
  exact .refl _

theorem reroute_kept (p : Nat) (s : State) : Kept s (reroute p s) := by
  unfold reroute
  split
  exact .refl _
  dsimp only
  refine .ite ?_ ?_
  refine .ite ?_ ?_
  split
  refine .trans ?_ (addException_kept ..)
  refine .trans ?_ (takeFrame_kept (by assumption))
  exact .refl _
  refine .trans ?_ (takeFrame_kept (by assumption))
  exact .refl _
  refine .trans ?_ (relay_kept ..)
  split
  refine .trans ?_ (addException_kept ..)
  refine .trans ?_ (takeFrame_kept (by assumption))
  exact .refl _
  refine .trans ?_ (takeFrame_kept (by assumption))
  exact .refl _
  refine .ite ?_ ?_
  refine .ite ?_ ?_
  refine .trans ?_ (addException_kept ..)
  refine .trans ?_ (takeFrame_kept (by assumption))
  exact .refl _
  refine .trans ?_ (originate_kept ..)
  refine .trans ?_ (nextMsg_kept ..)
  refine .trans ?_ (addException_kept ..)
  refine .trans ?_ (takeFrame_kept (by assumption))
  exact .refl _
  refine .trans ?_ (relay_kept ..)
  refine .trans ?_ (addException_kept ..)
  refine .trans ?_ (takeFrame_kept (by assumption))
  exact .refl _

theorem wakeFrame_kept (p : Nat) (s : State) : Kept s (wakeFrame p s) := by
  unfold wakeFrame
  split
  exact .refl _
  dsimp only
  refine .ite ?_ ?_
  refine .ite ?_ ?_
  refine .trans ?_ (wakeRequest_kept ..)
  refine .ite ?_ ?_
  refine .trans ?_ (requestReset_kept ..)
  refine .trans ?_ (takeFrame_kept (by assumption))
  exact .refl _
  refine .trans ?_ (takeFrame_kept (by assumption))
  exact .refl _
  refine .ite ?_ ?_
  refine .trans ?_ (requestReset_kept ..)
  refine .trans ?_ (takeFrame_kept (by assumption))
  exact .refl _
  refine .trans ?_ (takeFrame_kept (by assumption))
  exact .refl _
  refine .ite ?_ ?_
  refine .of ?_ rfl id id id
  refine .ite ?_ ?_
  refine .trans ?_ (wakeRequest_kept ..)
  refine .ite ?_ ?_
  refine .trans ?_ (requestReset_kept ..)
  refine .trans ?_ (takeFrame_kept (by assumption))
  exact .refl _
  refine .trans ?_ (takeFrame_kept (by assumption))
  exact .refl _
  refine .ite ?_ ?_
  refine .trans ?_ (requestReset_kept ..)
  refine .trans ?_ (takeFrame_kept (by assumption))
  exact .refl _
  refine .trans ?_ (takeFrame_kept (by assumption))
  exact .refl _
  refine .trans ?_ (relay_kept ..)
  refine .ite ?_ ?_
  refine .trans ?_ (wakeRequest_kept ..)
  refine .ite ?_ ?_
  refine .trans ?_ (requestReset_kept ..)
  refine .trans ?_ (takeFrame_kept (by assumption))
  exact .refl _
  refine .trans ?_ (takeFrame_kept (by assumption))
  exact .refl _
  refine .ite ?_ ?_
  refine .trans ?_ (requestReset_kept ..)
  refine .trans ?_ (takeFrame_kept (by assumption))
  exact .refl _
  refine .trans ?_ (takeFrame_kept (by assumption))
  exact .refl _

theorem relayWakes_kept (s : State) : Kept s (relayWakes s) := by
  unfold relayWakes
  refine .trans ?_ (.foldl (fun s k => ?_) _ _)
  exact .of (.refl _) rfl id id id
  exact relay_kept ..

theorem cresync_kept (p : Nat) (s : State) : Kept s (cresync p s) := by
  unfold cresync
  split
  exact .refl _
  refine .trans ?_ (State.modPort_kept ..)
  refine .trans ?_ (takeFrame_kept (by assumption))
  exact .refl _

theorem storeSlot_kept (a : Nat) (l : List Byte) (s : State) :
    Kept s (storeSlot a l s) := by
  unfold storeSlot
  refine .trans ?_ (.foldl (fun s k => ?_) _ _)
  exact .refl _
  refine .ite ?_ ?_
  exact .refl _
  exact storeRow_kept ..

theorem receiveRing_kept (p : Nat) (s : State) : Kept s (receiveRing p s) := by
  unfold receiveRing
  split
  exact .refl _
  dsimp only
  refine .ite ?_ ?_
  refine .trans ?_ (dropFrame_kept ..)
  refine .trans ?_ (takeFrame_kept (by assumption))
  exact .refl _
  refine .ite ?_ ?_
  refine .trans ?_ (rcSet_kept ..)
  refine .of ?_ rfl id id id
  refine .trans ?_ (takeFrame_kept (by assumption))
  exact .refl _
  refine .trans ?_ (portEvent_kept ..)
  refine .of ?_ rfl id id id
  refine .ite ?_ ?_
  refine .trans ?_ (storeSlot_kept ..)
  refine .trans ?_ (takeFrame_kept (by assumption))
  exact .refl _
  refine .trans ?_ (takeFrame_kept (by assumption))
  exact .refl _

theorem sampFrame_kept (p : Nat) (s : State) : Kept s (sampFrame p s) := by
  unfold sampFrame
  refine .ite ?_ ?_
  exact .refl _
  split
  exact .refl _
  dsimp only
  refine .trans ?_ (.each (fun s k => ?_) _ _)
  refine .trans ?_ (takeFrame_kept (by assumption))
  exact .refl _
  refine .ite ?_ ?_
  refine .ite ?_ ?_
  refine .of ?_ rfl id id id
  refine .ite ?_ ?_
  exact dropFrame_kept ..
  exact storeRow_kept ..
  refine .ite ?_ ?_
  exact dropFrame_kept ..
  exact storeRow_kept ..
  exact .refl _

theorem cmdFrame_kept (p : Nat) (s : State) : Kept s (cmdFrame p s) := by
  unfold cmdFrame
  split
  exact .refl _
  refine .ite ?_ ?_
  split
  refine .trans ?_ (dropFrame_kept ..)
  refine .trans ?_ (takeFrame_kept (by assumption))
  exact .refl _
  exact .refl _
  refine .ite ?_ ?_
  exact .refl _
  split
  exact .refl _
  dsimp only
  refine .of ?_ rfl id id id
  refine .trans ?_ (takeFrame_kept (by assumption))
  exact .refl _

theorem sendResp_kept (c : CmdSlot) (body : Row) (s : State) : Kept s (sendResp c body s) := by
  unfold sendResp
  split
  exact .refl _
  exact originate_kept ..

theorem memberEvent_kept (src : BitVec 9) (data : U32) (s : State) :
    Kept s (memberEvent src data s) := by
  unfold memberEvent
  dsimp only
  split
  exact .refl _
  exact originate_kept ..

theorem linkReadEffect_kept (r : Nat) (s : State) : Kept s (linkReadEffect r s) := by
  unfold linkReadEffect
  refine .ite ?_ ?_
  dsimp only
  refine .ite ?_ ?_
  exact .refl _
  split
  exact State.modPort_kept ..
  exact State.modPort_kept ..
  exact State.modPort_kept ..
  exact State.modPort_kept ..
  exact .refl _
  refine .ite ?_ ?_
  exact State.modLane_kept ..
  refine .ite ?_ ?_
  exact .of (.refl _) rfl id id id
  refine .ite ?_ ?_
  exact .of (.refl _) rfl id id id
  exact .refl _

theorem writeNrxcfg_kept (v : U32) (s : State) : Kept s (writeNrxcfg v s) := by
  unfold writeNrxcfg
  dsimp only
  exact .of (.refl _) rfl id id id

theorem portWrite_kept (p : Nat) (r : Nat) (v : U32) (s : State) : Kept s (portWrite p r v s) := by
  unfold portWrite
  exact State.modPort_kept ..

theorem linkWrite_kept (r : Nat) (v : U32) (s : State) : Kept s (linkWrite r v s) := by
  unfold linkWrite
  dsimp only
  refine .ite ?_ ?_
  exact portWrite_kept ..
  refine .ite ?_ ?_
  exact .refl _
  refine .ite ?_ ?_
  split
  exact writeLaneCtl_kept ..
  exact State.modLane_kept ..
  exact .refl _
  refine .ite ?_ ?_
  exact .of (.refl _) rfl id id id
  refine .ite ?_ ?_
  exact .of (.refl _) rfl id id id
  split
  exact writeLnkcfg_kept ..
  exact .of (.refl _) rfl id id id
  exact .of (.refl _) rfl id id id
  exact .of (.refl _) rfl id id id
  exact .of (.refl _) rfl id id id
  exact .of (.refl _) rfl id id id
  exact .of (.refl _) rfl id id id
  exact .of (.refl _) rfl id id id
  exact writeNrxcfg_kept ..
  exact .of (.refl _) rfl id id id
  exact .refl _

theorem linkWarm_kept (s : State) : Kept s (linkWarm s) := by
  unfold linkWarm
  dsimp only
  refine .of ?_ rfl id id id
  refine .trans ?_ (.each (fun s k => ?_) _ _)
  refine .trans ?_ (.each (fun s k => ?_) _ _)
  exact .refl _
  exact State.modPort_kept ..
  exact State.modLane_kept ..

end Sys2Proof.Machine
end

