-- ==== Sys2Proof/Laws/KeptThreads.lean ====
section
/-! SUPPORT. Every operation of Machine/Threads.lean leaves the command queue alone and keeps the memories canonical. -/

namespace Sys2Proof.Machine

set_option Elab.async false

theorem pushRet_kept (n : Nat) (a : U16) (s : State) : Kept s (pushRet n a s) := by
  unfold pushRet
  dsimp only
  refine .trans ?_ (State.modCtx_kept ..)
  refine .ite ?_ ?_
  refine .trans ?_ (State.modCtx_kept ..)
  exact storeThread_kept ..
  exact .refl _

theorem leaveSafe_kept (n : Nat) (s : State) : Kept s (leaveSafe n s) := by
  unfold leaveSafe
  dsimp only
  refine .ite ?_ ?_
  refine .of ?_ rfl id id id
  exact State.modThr_kept ..
  exact State.modThr_kept ..

theorem goDry_kept (n : Nat) (s : State) : Kept s (goDry n s) := by
  unfold goDry
  dsimp only
  refine .trans ?_ (schedule_kept ..)
  refine .trans ?_ (raise_kept ..)
  refine .trans ?_ (leaveSafe_kept ..)
  exact State.modThr_kept ..

theorem holdEntry_kept (n wait : Nat) (spills : Bool) (s : State) :
    Kept s (holdEntry n wait spills s) := by
  unfold holdEntry
  dsimp only
  exact State.modThr_kept ..

theorem enterSpillway_kept (n : Nat) (e : Escalation) (s : State) : Kept s (enterSpillway n e s) := by
  unfold enterSpillway
  dsimp only
  refine .ite ?_ ?_
  refine .trans ?_ (goDry_kept ..)
  refine .trans ?_ (State.modCtx_kept ..)
  refine .trans ?_ (raise_kept ..)
  refine .of ?_ rfl id id id
  exact State.modThr_kept ..
  refine .trans ?_ (State.modThr_kept ..)
  refine .trans ?_ (State.modCtx_kept ..)
  refine .trans ?_ (storeThread_kept ..)
  refine .trans ?_ (pushRet_kept ..)
  refine .trans ?_ (State.modCtx_kept ..)
  refine .trans ?_ (raise_kept ..)
  refine .of ?_ rfl id id id
  exact State.modThr_kept ..

theorem escalate_kept (n : Nat) (e : Escalation) (s : State) : Kept s (escalate n e s) := by
  unfold escalate
  refine .ite ?_ ?_
  exact goDry_kept ..
  refine .ite ?_ ?_
  exact enterSpillway_kept ..
  exact State.modThr_kept ..

theorem tableEntry_kept {n : Nat} {isFault : Bool} {e : Escalation} {s t : State}
    (h : tableEntry n isFault e s = some t) : Kept s t := by
  unfold tableEntry at h
  dsimp only at h
  split at h
  split at h
  cases h
  cases h
  refine .trans ?_ (holdEntry_kept ..)
  refine .trans ?_ (State.modThr_kept ..)
  refine .trans ?_ (storeThread_kept ..)
  refine .trans ?_ (pushRet_kept ..)
  exact State.modCtx_kept ..
  split at h
  cases h
  cases h
  refine .trans ?_ (holdEntry_kept ..)
  refine .trans ?_ (State.modThr_kept ..)
  refine .trans ?_ (storeThread_kept ..)
  refine .trans ?_ (pushRet_kept ..)
  exact State.modCtx_kept ..

theorem takeEntry_kept (n : Nat) (isFault : Bool) (e : Escalation) (s : State) :
    Kept s (takeEntry n isFault e s) := by
  unfold takeEntry
  refine .ite ?_ ?_
  exact goDry_kept ..
  refine .ite ?_ ?_
  exact escalate_kept ..
  split
  refine .trans ?_ (tableEntry_kept (by assumption))
  exact .refl _
  exact escalate_kept ..

theorem takeFault_kept (n : Nat) (vec : BitVec 6) (addr : U32) (s : State) : Kept s (takeFault n vec addr s) := by
  unfold takeFault
  dsimp only
  refine .trans ?_ (takeEntry_kept ..)
  exact State.modCtx_kept ..

theorem enterMonitor_kept (n : Nat) (cause : BitVec 4) (cmp : BitVec 3) (s : State) :
    Kept s (enterMonitor n cause cmp s) := by
  unfold enterMonitor
  dsimp only
  refine .trans ?_ (wdogFreeze_kept ..)
  refine .trans ?_ (raise_kept ..)
  exact State.modThr_kept ..

theorem applyRet_kept (n : Nat) (s : State) : Kept s (applyRet n s) := by
  unfold applyRet
  dsimp only
  split
  refine .ite ?_ ?_
  refine .trans ?_ (leaveSafe_kept ..)
  refine .of ?_ rfl id id id
  refine .trans ?_ (State.modThr_kept ..)
  exact State.modThr_kept ..
  refine .ite ?_ ?_
  refine .trans ?_ (wdogFreeze_kept ..)
  refine .trans ?_ (State.modThr_kept ..)
  exact State.modThr_kept ..
  refine .trans ?_ (endServices_kept ..)
  refine .trans ?_ (State.modThr_kept ..)
  exact State.modThr_kept ..
  exact .refl _

theorem returnMonitor_kept (n : Nat) (s : State) : Kept s (returnMonitor n s) := by
  unfold returnMonitor
  dsimp only
  refine .ite ?_ ?_
  refine .trans ?_ (applyRet_kept ..)
  exact State.modThr_kept ..
  exact .refl _

theorem releaseMonitor_kept (n : Nat) (s : State) : Kept s (releaseMonitor n s) := by
  unfold releaseMonitor
  refine .trans ?_ (returnMonitor_kept ..)
  refine .ite ?_ ?_
  exact State.modThr_kept ..
  exact .refl _

theorem resetThread_kept (n : Nat) (s : State) : Kept s (resetThread n s) := by
  unfold resetThread
  dsimp only
  refine .trans ?_ (wdogFreeze_kept ..)
  refine .trans ?_ (endThreadServices_kept ..)
  refine .trans ?_ (State.modThr_kept ..)
  exact leaveSafe_kept ..

end Sys2Proof.Machine
end

