-- ==== Sys2Proof/Laws/KeptDatapath.lean ====
section
/-! SUPPORT. Every operation of Machine/Datapath.lean leaves the command queue alone and keeps the memories canonical. -/

namespace Sys2Proof.Machine

set_option Elab.async false

theorem postStore_kept (n : Nat) (pc : U16) (a : U32) (l : List Byte) (s : State) :
    Kept s (postStore n pc a l s) := by
  unfold postStore
  split
  refine .ite ?_ ?_
  exact State.modThr_kept ..
  exact storeThread_kept ..
  dsimp only
  exact schedule_kept ..
  dsimp only
  exact schedule_kept ..
  dsimp only
  refine .trans ?_ (State.modThr_kept ..)
  exact storeHost_kept ..
  exact .refl _

theorem Op.run_kept (o : Op) (n : Nat) (word : Nat) (safe : Bool) (s : State) : Kept s (Op.run o n word safe s) := by
  unfold Op.run
  dsimp only
  split
  refine .trans ?_ (State.modThr_kept ..)
  refine .ite ?_ ?_
  refine .trans ?_ (postStore_kept ..)
  refine .ite ?_ ?_
  refine .trans ?_ (schedule_kept ..)
  refine .ite ?_ ?_
  refine .trans ?_ (schedule_kept ..)
  refine .ite ?_ ?_
  refine .trans ?_ (schedule_kept ..)
  refine .ite ?_ ?_
  refine .trans ?_ (schedule_kept ..)
  refine .trans ?_ (State.modCtx_kept ..)
  refine .trans ?_ (State.modCtx_kept ..)
  split
  exact loadData_kept ..
  dsimp only
  exact .refl _
  refine .trans ?_ (State.modCtx_kept ..)
  refine .trans ?_ (State.modCtx_kept ..)
  split
  exact loadData_kept ..
  dsimp only
  exact .refl _
  refine .ite ?_ ?_
  refine .trans ?_ (schedule_kept ..)
  refine .trans ?_ (State.modCtx_kept ..)
  refine .trans ?_ (State.modCtx_kept ..)
  split
  exact loadData_kept ..
  dsimp only
  exact .refl _
  refine .trans ?_ (State.modCtx_kept ..)
  refine .trans ?_ (State.modCtx_kept ..)
  split
  exact loadData_kept ..
  dsimp only
  exact .refl _
  refine .ite ?_ ?_
  refine .trans ?_ (schedule_kept ..)
  refine .ite ?_ ?_
  refine .trans ?_ (schedule_kept ..)
  refine .trans ?_ (State.modCtx_kept ..)
  refine .trans ?_ (State.modCtx_kept ..)
  split
  exact loadData_kept ..
  dsimp only
  exact .refl _
  refine .trans ?_ (State.modCtx_kept ..)
  refine .trans ?_ (State.modCtx_kept ..)
  split
  exact loadData_kept ..
  dsimp only
  exact .refl _
  refine .ite ?_ ?_
  refine .trans ?_ (schedule_kept ..)
  refine .trans ?_ (State.modCtx_kept ..)
  refine .trans ?_ (State.modCtx_kept ..)
  split
  exact loadData_kept ..
  dsimp only
  exact .refl _
  refine .trans ?_ (State.modCtx_kept ..)
  refine .trans ?_ (State.modCtx_kept ..)
  split
  exact loadData_kept ..
  dsimp only
  exact .refl _
  refine .ite ?_ ?_
  refine .trans ?_ (schedule_kept ..)
  refine .ite ?_ ?_
  refine .trans ?_ (schedule_kept ..)
  refine .ite ?_ ?_
  refine .trans ?_ (schedule_kept ..)
  refine .trans ?_ (State.modCtx_kept ..)
  refine .trans ?_ (State.modCtx_kept ..)
  split
  exact loadData_kept ..
  dsimp only
  exact .refl _
  refine .trans ?_ (State.modCtx_kept ..)
  refine .trans ?_ (State.modCtx_kept ..)
  split
  exact loadData_kept ..
  dsimp only
  exact .refl _
  refine .ite ?_ ?_
  refine .trans ?_ (schedule_kept ..)
  refine .trans ?_ (State.modCtx_kept ..)
  refine .trans ?_ (State.modCtx_kept ..)
  split
  exact loadData_kept ..
  dsimp only
  exact .refl _
  refine .trans ?_ (State.modCtx_kept ..)
  refine .trans ?_ (State.modCtx_kept ..)
  split
  exact loadData_kept ..
  dsimp only
  exact .refl _
  refine .ite ?_ ?_
  refine .trans ?_ (schedule_kept ..)
  refine .ite ?_ ?_
  refine .trans ?_ (schedule_kept ..)
  refine .trans ?_ (State.modCtx_kept ..)
  refine .trans ?_ (State.modCtx_kept ..)
  split
  exact loadData_kept ..
  dsimp only
  exact .refl _
  refine .trans ?_ (State.modCtx_kept ..)
  refine .trans ?_ (State.modCtx_kept ..)
  split
  exact loadData_kept ..
  dsimp only
  exact .refl _
  refine .ite ?_ ?_
  refine .trans ?_ (schedule_kept ..)
  refine .trans ?_ (State.modCtx_kept ..)
  refine .trans ?_ (State.modCtx_kept ..)
  split
  exact loadData_kept ..
  dsimp only
  exact .refl _
  refine .trans ?_ (State.modCtx_kept ..)
  refine .trans ?_ (State.modCtx_kept ..)
  split
  exact loadData_kept ..
  dsimp only
  exact .refl _
  refine .ite ?_ ?_
  refine .trans ?_ (schedule_kept ..)
  refine .ite ?_ ?_
  refine .trans ?_ (schedule_kept ..)
  refine .ite ?_ ?_
  refine .trans ?_ (schedule_kept ..)
  refine .ite ?_ ?_
  refine .trans ?_ (schedule_kept ..)
  refine .trans ?_ (State.modCtx_kept ..)
  refine .trans ?_ (State.modCtx_kept ..)
  split
  exact loadData_kept ..
  dsimp only
  exact .refl _
  refine .trans ?_ (State.modCtx_kept ..)
  refine .trans ?_ (State.modCtx_kept ..)
  split
  exact loadData_kept ..
  dsimp only
  exact .refl _
  refine .ite ?_ ?_
  refine .trans ?_ (schedule_kept ..)
  refine .trans ?_ (State.modCtx_kept ..)
  refine .trans ?_ (State.modCtx_kept ..)
  split
  exact loadData_kept ..
  dsimp only
  exact .refl _
  refine .trans ?_ (State.modCtx_kept ..)
  refine .trans ?_ (State.modCtx_kept ..)
  split
  exact loadData_kept ..
  dsimp only
  exact .refl _
  refine .ite ?_ ?_
  refine .trans ?_ (schedule_kept ..)
  refine .ite ?_ ?_
  refine .trans ?_ (schedule_kept ..)
  refine .trans ?_ (State.modCtx_kept ..)
  refine .trans ?_ (State.modCtx_kept ..)
  split
  exact loadData_kept ..
  dsimp only
  exact .refl _
  refine .trans ?_ (State.modCtx_kept ..)
  refine .trans ?_ (State.modCtx_kept ..)
  split
  exact loadData_kept ..
  dsimp only
  exact .refl _
  refine .ite ?_ ?_
  refine .trans ?_ (schedule_kept ..)
  refine .trans ?_ (State.modCtx_kept ..)
  refine .trans ?_ (State.modCtx_kept ..)
  split
  exact loadData_kept ..
  dsimp only
  exact .refl _
  refine .trans ?_ (State.modCtx_kept ..)
  refine .trans ?_ (State.modCtx_kept ..)
  split
  exact loadData_kept ..
  dsimp only
  exact .refl _
  refine .ite ?_ ?_
  refine .trans ?_ (schedule_kept ..)
  refine .ite ?_ ?_
  refine .trans ?_ (schedule_kept ..)
  refine .ite ?_ ?_
  refine .trans ?_ (schedule_kept ..)
  refine .trans ?_ (State.modCtx_kept ..)
  refine .trans ?_ (State.modCtx_kept ..)
  split
  exact loadData_kept ..
  dsimp only
  exact .refl _
  refine .trans ?_ (State.modCtx_kept ..)
  refine .trans ?_ (State.modCtx_kept ..)
  split
  exact loadData_kept ..
  dsimp only
  exact .refl _
  refine .ite ?_ ?_
  refine .trans ?_ (schedule_kept ..)
  refine .trans ?_ (State.modCtx_kept ..)
  refine .trans ?_ (State.modCtx_kept ..)
  split
  exact loadData_kept ..
  dsimp only
  exact .refl _
  refine .trans ?_ (State.modCtx_kept ..)
  refine .trans ?_ (State.modCtx_kept ..)
  split
  exact loadData_kept ..
  dsimp only
  exact .refl _
  refine .ite ?_ ?_
  refine .trans ?_ (schedule_kept ..)
  refine .ite ?_ ?_
  refine .trans ?_ (schedule_kept ..)
  refine .trans ?_ (State.modCtx_kept ..)
  refine .trans ?_ (State.modCtx_kept ..)
  split
  exact loadData_kept ..
  dsimp only
  exact .refl _
  refine .trans ?_ (State.modCtx_kept ..)
  refine .trans ?_ (State.modCtx_kept ..)
  split
  exact loadData_kept ..
  dsimp only
  exact .refl _
  refine .ite ?_ ?_
  refine .trans ?_ (schedule_kept ..)
  refine .trans ?_ (State.modCtx_kept ..)
  refine .trans ?_ (State.modCtx_kept ..)
  split
  exact loadData_kept ..
  dsimp only
  exact .refl _
  refine .trans ?_ (State.modCtx_kept ..)
  refine .trans ?_ (State.modCtx_kept ..)
  split
  exact loadData_kept ..
  dsimp only
  exact .refl _
  refine .ite ?_ ?_
  refine .trans ?_ (postStore_kept ..)
  refine .ite ?_ ?_
  refine .trans ?_ (schedule_kept ..)
  refine .ite ?_ ?_
  refine .trans ?_ (schedule_kept ..)
  refine .ite ?_ ?_
  refine .trans ?_ (schedule_kept ..)
  refine .ite ?_ ?_
  refine .trans ?_ (schedule_kept ..)
  refine .trans ?_ (State.modCtx_kept ..)
  refine .trans ?_ (State.modCtx_kept ..)
  split
  exact loadData_kept ..
  dsimp only
  exact .refl _
  refine .trans ?_ (State.modCtx_kept ..)
  refine .trans ?_ (State.modCtx_kept ..)
  split
  exact loadData_kept ..
  dsimp only
  exact .refl _
  refine .ite ?_ ?_
  refine .trans ?_ (schedule_kept ..)
  refine .trans ?_ (State.modCtx_kept ..)
  refine .trans ?_ (State.modCtx_kept ..)
  split
  exact loadData_kept ..
  dsimp only
  exact .refl _
  refine .trans ?_ (State.modCtx_kept ..)
  refine .trans ?_ (State.modCtx_kept ..)
  split
  exact loadData_kept ..
  dsimp only
  exact .refl _
  refine .ite ?_ ?_
  refine .trans ?_ (schedule_kept ..)
  refine .ite ?_ ?_
  refine .trans ?_ (schedule_kept ..)
  refine .trans ?_ (State.modCtx_kept ..)
  refine .trans ?_ (State.modCtx_kept ..)
  split
  exact loadData_kept ..
  dsimp only
  exact .refl _
  refine .trans ?_ (State.modCtx_kept ..)
  refine .trans ?_ (State.modCtx_kept ..)
  split
  exact loadData_kept ..
  dsimp only
  exact .refl _
  refine .ite ?_ ?_
  refine .trans ?_ (schedule_kept ..)
  refine .trans ?_ (State.modCtx_kept ..)
  refine .trans ?_ (State.modCtx_kept ..)
  split
  exact loadData_kept ..
  dsimp only
  exact .refl _
  refine .trans ?_ (State.modCtx_kept ..)
  refine .trans ?_ (State.modCtx_kept ..)
  split
  exact loadData_kept ..
  dsimp only
  exact .refl _
  refine .ite ?_ ?_
  refine .trans ?_ (schedule_kept ..)
  refine .ite ?_ ?_
  refine .trans ?_ (schedule_kept ..)
  refine .ite ?_ ?_
  refine .trans ?_ (schedule_kept ..)
  refine .trans ?_ (State.modCtx_kept ..)
  refine .trans ?_ (State.modCtx_kept ..)
  split
  exact loadData_kept ..
  dsimp only
  exact .refl _
  refine .trans ?_ (State.modCtx_kept ..)
  refine .trans ?_ (State.modCtx_kept ..)
  split
  exact loadData_kept ..
  dsimp only
  exact .refl _
  refine .ite ?_ ?_
  refine .trans ?_ (schedule_kept ..)
  refine .trans ?_ (State.modCtx_kept ..)
  refine .trans ?_ (State.modCtx_kept ..)
  split
  exact loadData_kept ..
  dsimp only
  exact .refl _
  refine .trans ?_ (State.modCtx_kept ..)
  refine .trans ?_ (State.modCtx_kept ..)
  split
  exact loadData_kept ..
  dsimp only
  exact .refl _
  refine .ite ?_ ?_
  refine .trans ?_ (schedule_kept ..)
  refine .ite ?_ ?_
  refine .trans ?_ (schedule_kept ..)
  refine .trans ?_ (State.modCtx_kept ..)
  refine .trans ?_ (State.modCtx_kept ..)
  split
  exact loadData_kept ..
  dsimp only
  exact .refl _
  refine .trans ?_ (State.modCtx_kept ..)
  refine .trans ?_ (State.modCtx_kept ..)
  split
  exact loadData_kept ..
  dsimp only
  exact .refl _
  refine .ite ?_ ?_
  refine .trans ?_ (schedule_kept ..)
  refine .trans ?_ (State.modCtx_kept ..)
  refine .trans ?_ (State.modCtx_kept ..)
  split
  exact loadData_kept ..
  dsimp only
  exact .refl _
  refine .trans ?_ (State.modCtx_kept ..)
  refine .trans ?_ (State.modCtx_kept ..)
  split
  exact loadData_kept ..
  dsimp only
  exact .refl _
  refine .ite ?_ ?_
  refine .trans ?_ (schedule_kept ..)
  refine .ite ?_ ?_
  refine .trans ?_ (schedule_kept ..)
  refine .ite ?_ ?_
  refine .trans ?_ (schedule_kept ..)
  refine .ite ?_ ?_
  refine .trans ?_ (schedule_kept ..)
  refine .trans ?_ (State.modCtx_kept ..)
  refine .trans ?_ (State.modCtx_kept ..)
  split
  exact loadData_kept ..
  dsimp only
  exact .refl _
  refine .trans ?_ (State.modCtx_kept ..)
  refine .trans ?_ (State.modCtx_kept ..)
  split
  exact loadData_kept ..
  dsimp only
  exact .refl _
  refine .ite ?_ ?_
  refine .trans ?_ (schedule_kept ..)
  refine .trans ?_ (State.modCtx_kept ..)
  refine .trans ?_ (State.modCtx_kept ..)
  split
  exact loadData_kept ..
  dsimp only
  exact .refl _
  refine .trans ?_ (State.modCtx_kept ..)
  refine .trans ?_ (State.modCtx_kept ..)
  split
  exact loadData_kept ..
  dsimp only
  exact .refl _
  refine .ite ?_ ?_
  refine .trans ?_ (schedule_kept ..)
  refine .ite ?_ ?_
  refine .trans ?_ (schedule_kept ..)
  refine .trans ?_ (State.modCtx_kept ..)
  refine .trans ?_ (State.modCtx_kept ..)
  split
  exact loadData_kept ..
  dsimp only
  exact .refl _
  refine .trans ?_ (State.modCtx_kept ..)
  refine .trans ?_ (State.modCtx_kept ..)
  split
  exact loadData_kept ..
  dsimp only
  exact .refl _
  refine .ite ?_ ?_
  refine .trans ?_ (schedule_kept ..)
  refine .trans ?_ (State.modCtx_kept ..)
  refine .trans ?_ (State.modCtx_kept ..)
  split
  exact loadData_kept ..
  dsimp only
  exact .refl _
  refine .trans ?_ (State.modCtx_kept ..)
  refine .trans ?_ (State.modCtx_kept ..)
  split
  exact loadData_kept ..
  dsimp only
  exact .refl _
  refine .ite ?_ ?_
  refine .trans ?_ (schedule_kept ..)
  refine .ite ?_ ?_
  refine .trans ?_ (schedule_kept ..)
  refine .ite ?_ ?_
  refine .trans ?_ (schedule_kept ..)
  refine .trans ?_ (State.modCtx_kept ..)
  refine .trans ?_ (State.modCtx_kept ..)
  split
  exact loadData_kept ..
  dsimp only
  exact .refl _
  refine .trans ?_ (State.modCtx_kept ..)
  refine .trans ?_ (State.modCtx_kept ..)
  split
  exact loadData_kept ..
  dsimp only
  exact .refl _
  refine .ite ?_ ?_
  refine .trans ?_ (schedule_kept ..)
  refine .trans ?_ (State.modCtx_kept ..)
  refine .trans ?_ (State.modCtx_kept ..)
  split
  exact loadData_kept ..
  dsimp only
  exact .refl _
  refine .trans ?_ (State.modCtx_kept ..)
  refine .trans ?_ (State.modCtx_kept ..)
  split
  exact loadData_kept ..
  dsimp only
  exact .refl _
  refine .ite ?_ ?_
  refine .trans ?_ (schedule_kept ..)
  refine .ite ?_ ?_
  refine .trans ?_ (schedule_kept ..)
  refine .trans ?_ (State.modCtx_kept ..)
  refine .trans ?_ (State.modCtx_kept ..)
  split
  exact loadData_kept ..
  dsimp only
  exact .refl _
  refine .trans ?_ (State.modCtx_kept ..)
  refine .trans ?_ (State.modCtx_kept ..)
  split
  exact loadData_kept ..
  dsimp only
  exact .refl _
  refine .ite ?_ ?_
  refine .trans ?_ (schedule_kept ..)
  refine .trans ?_ (State.modCtx_kept ..)
  refine .trans ?_ (State.modCtx_kept ..)
  split
  exact loadData_kept ..
  dsimp only
  exact .refl _
  refine .trans ?_ (State.modCtx_kept ..)
  refine .trans ?_ (State.modCtx_kept ..)
  split
  exact loadData_kept ..
  dsimp only
  exact .refl _

theorem Op.moveRow_kept (o : Op) (n : Nat) (s : State) : Kept s (Op.moveRow o n s) := by
  unfold Op.moveRow
  split
  dsimp only
  refine .trans ?_ (State.modCtx_kept ..)
  refine .trans ?_ (postStore_kept ..)
  refine .snd ?_ (by assumption)
  exact loadData_kept ..

theorem Op.moveEnd_kept (o : Op) (n : Nat) (s : State) : Kept s (Op.moveEnd o n s) := by
  unfold Op.moveEnd
  dsimp only
  exact State.modCtx_kept ..

end Sys2Proof.Machine
end

