-- ==== Sys2Proof/Laws/KeptImages.lean ====
section
/-! SUPPORT. Every operation of Machine/Images.lean leaves the command queue alone and keeps the memories canonical. -/

namespace Sys2Proof.Machine

set_option Elab.async false

theorem startThread_kept (p : StartParams) (s : State) : Kept s (startThread p s) := by
  unfold startThread
  dsimp only
  exact State.modThr_kept ..

theorem putMicro_kept (a : Nat) (l : List (U32)) (s : State) : Kept s (putMicro a l s) := by
  induction l generalizing a s with
  | nil => exact .refl _
  | cons w t ih =>
    unfold putMicro
    refine .trans ?_ (ih ..)
    exact .of (.refl _) rfl (fun h => ⟨sput_wf _ _ h.1, h.2⟩) id id

theorem putNano_kept (a : Nat) (l : List (BitVec 256)) (s : State) : Kept s (putNano a l s) := by
  induction l generalizing a s with
  | nil => exact .refl _
  | cons w t ih =>
    unfold putNano
    refine .trans ?_ (ih ..)
    exact .of (.refl _) rfl (fun h => ⟨h.1, sput_wf _ _ h.2.1, h.2.2⟩) id id

theorem putProg_kept (a : Nat) (l : List U32) (s : State) : Kept s (putProg a l s) := by
  induction l generalizing a s with
  | nil => exact .refl _
  | cons w t ih =>
    unfold putProg
    refine .trans ?_ (ih ..)
    exact writeProg_kept ..

theorem gateOff_kept (k : Nat) (s : State) : Kept s (gateOff k s) := by
  unfold gateOff
  exact writeGateCtl_kept ..

theorem applySection_kept (l : List Byte) (s : State) (e : Section) : Kept s (applySection l s e) := by
  unfold applySection
  dsimp only
  split
  exact putMicro_kept ..
  exact putNano_kept ..
  refine .trans ?_ (.foldl (fun s k => ?_) _ _)
  exact gateOff_kept ..
  exact gateStore_kept ..
  refine .trans ?_ (gateStore_kept ..)
  refine .trans ?_ (gateStore_kept ..)
  refine .trans ?_ (gateStore_kept ..)
  refine .trans ?_ (gateStore_kept ..)
  refine .trans ?_ (gateStore_kept ..)
  exact gateOff_kept ..
  exact storeData_kept ..
  exact putProg_kept ..
  exact .of (.refl _) rfl id id id
  exact .refl _

theorem applyImage_kept (secs : List Section) (l : List Byte) (s : State) : Kept s (applyImage secs l s) := by
  unfold applyImage
  refine .trans ?_ (.foldl (fun s k => ?_) _ _)
  exact .of (.refl _) rfl id id id
  exact applySection_kept ..

theorem readSlot_kept (first : Nat) (len : Nat) (s : State) : Kept s (readSlot first len s).2 := by
  unfold readSlot
  split
  dsimp only
  refine .snd ?_ (by assumption)
  exact readUnits_kept ..

theorem bootImage_kept (s : State) : Kept s (bootImage s) := by
  unfold bootImage
  dsimp only
  refine .ite ?_ ?_
  exact .of (.refl _) rfl id id id
  refine .ite ?_ ?_
  exact .of (.refl _) rfl id id id
  refine .ite ?_ ?_
  refine .of ?_ rfl id id id
  exact readUnits_kept ..
  refine .ite ?_ ?_
  refine .of ?_ rfl id id id
  refine .trans ?_ (readSlot_kept ..)
  exact readUnits_kept ..
  refine .of ?_ rfl id id id
  refine .trans ?_ (applyImage_kept ..)
  refine .trans ?_ (readSlot_kept ..)
  exact readUnits_kept ..

theorem loadFirmware_kept (s : State) : Kept s (loadFirmware s).2 := by
  unfold loadFirmware
  dsimp only
  split
  dsimp only
  exact .refl _
  split
  dsimp only
  refine .of ?_ rfl id id id
  refine .trans ?_ (putNano_kept ..)
  refine .trans ?_ (putMicro_kept ..)
  exact readSlot_kept ..
  dsimp only
  exact readSlot_kept ..

end Sys2Proof.Machine
end

