-- ==== Sys2Proof/Laws/KeptPower.lean ====
section
/-! SUPPORT. Every operation of Machine/Power.lean leaves the command queue alone and keeps the memories canonical. -/

namespace Sys2Proof.Machine

set_option Elab.async false

theorem dropDebugAccess_kept (s : State) : Kept s (dropDebugAccess s) := by
  unfold dropDebugAccess
  refine .ite ?_ ?_
  refine .trans ?_ (raise_kept ..)
  exact .of (.refl _) rfl id id id
  exact .refl _

theorem bootThread_kept (s : State) : Kept s (bootThread s) := by
  unfold bootThread
  refine .of ?_ rfl id id id
  exact .refl _

theorem startT15_kept (s : State) :
    Kept s (startT15 s) := by
  unfold startT15
  refine .trans ?_ (State.modThr_kept ..)
  exact bootThread_kept ..

theorem coldReset_kept (s : State) : Kept s (coldReset s) := by
  unfold coldReset
  dsimp only
  refine .trans ?_ (bootThread_kept ..)
  exact ⟨rfl, fun h => ⟨⟨rfl, rfl, rfl, rfl, rfl, h.1.2.2.2.2.2⟩, rfl, h.2.2⟩⟩

theorem deepReset_kept (s : State) :
    Kept s (deepReset s) := by
  unfold deepReset
  dsimp only
  refine .of ?_ rfl id id id
  exact coldReset_kept ..

theorem outletsWarm_kept (s : State) : Kept s (outletsWarm s) := by
  unfold outletsWarm
  dsimp only
  refine .of ?_ rfl id id id
  refine .trans ?_ (.each (fun s k => ?_) _ _)
  exact .refl _
  exact flushOut_kept ..

theorem flumesWarm_kept (s : State) : Kept s (flumesWarm s) := by
  unfold flumesWarm
  dsimp only
  refine .of ?_ rfl id id id
  refine .trans ?_ (.each (fun s k => ?_) _ _)
  exact .refl _
  exact disarm_kept ..

theorem riderStop_kept (s : State) : Kept s (riderStop s) := by
  unfold riderStop
  dsimp only
  refine .of ?_ rfl id id id
  refine .trans ?_ (.each (fun s k => ?_) _ _)
  exact .refl _
  exact stopChannel_kept ..

theorem riderWarm_kept (s : State) : Kept s (riderWarm s) := by
  unfold riderWarm
  exact .of (.refl _) rfl id id id

theorem warmReset_kept (s : State) : Kept s (warmReset s) := by
  unfold warmReset
  dsimp only
  split
  · exact .of (.trans (dropDebugAccess_kept ..) (deepReset_kept ..)) rfl id id id
  · refine .trans ?_ (shutAssert_kept ..)
    refine .of ?_ rfl id id id
    refine .trans ?_ (hwSet_kept ..)
    refine .trans ?_ (bootThread_kept ..)
    refine .trans ?_ (wdogFreeze_kept ..)
    have h : Kept s (s.each 16 (fun s n => resetThread n s)) := .each (fun s k => resetThread_kept ..) _ _
    generalize s.each 16 (fun s n => resetThread n s) = t at h ⊢
    have h' : Kept s (dropActs isTimerAct (outletsWarm (flumesWarm (riderWarm (riderStop (nvmWarm (lgWarm (linkWarm t)))))))) := by
      refine .trans ?_ (dropActs_kept ..)
      refine .trans ?_ (outletsWarm_kept ..)
      refine .trans ?_ (flumesWarm_kept ..)
      refine .trans ?_ (riderWarm_kept ..)
      refine .trans ?_ (riderStop_kept ..)
      refine .trans ?_ (nvmWarm_kept ..)
      refine .trans ?_ (lgWarm_kept ..)
      refine .trans ?_ (linkWarm_kept ..)
      assumption
    generalize dropActs isTimerAct (outletsWarm (flumesWarm (riderWarm (riderStop (nvmWarm (lgWarm (linkWarm t))))))) = u
      at h' ⊢
    exact .of h' rfl (fun h => ⟨h.1, h.2.1, h.2.2.1, h.2.2.2.1, h.2.2.2.2.1, h.2.2.2.2.2⟩) id id

theorem debugReset_kept (s : State) : Kept s (debugReset s) := by
  unfold debugReset
  dsimp only
  have h : Kept s (s.each 16 (fun s n => releaseMonitor n s)) := .each (fun s k => releaseMonitor_kept ..) _ _
  generalize s.each 16 (fun s n => releaseMonitor n s) = t at h ⊢
  refine .trans ?_ (wdogFreeze_kept ..)
  exact .of h rfl id id id

theorem powerOn_kept (s : State) : Kept s (powerOn s) := by
  unfold powerOn
  dsimp only
  refine .ite ?_ ?_
  refine .trans ?_ (debugReset_kept ..)
  refine .of ?_ rfl id id id
  refine .trans ?_ (coldReset_kept ..)
  exact dropDebugAccess_kept ..
  refine .of ?_ rfl id id id
  refine .trans ?_ (coldReset_kept ..)
  exact dropDebugAccess_kept ..

theorem startLanes_kept (s : State) : Kept s (startLanes s) := by
  unfold startLanes
  refine .trans ?_ (.each (fun s k => ?_) _ _)
  exact .refl _
  refine .ite ?_ ?_
  dsimp only
  refine .trans ?_ (State.modPort_kept ..)
  exact laneStart_kept ..
  exact .refl _

theorem releasePor_kept (s : State) :
    Kept s (releasePor s) := by
  unfold releasePor
  refine .ite ?_ ?_
  refine .of ?_ rfl id id id
  exact .refl _
  exact .refl _

theorem bootStart_kept (s : State) : Kept s (bootStart s) := by
  unfold bootStart
  dsimp only
  refine .ite ?_ ?_
  refine .of ?_ rfl id id id
  refine .ite ?_ ?_
  refine .of ?_ rfl id id id
  refine .trans ?_ (loadOptions_kept ..)
  refine .ite ?_ ?_
  refine .of ?_ rfl id id id
  refine .trans ?_ (deepReset_kept ..)
  exact releasePor_kept ..
  exact releasePor_kept ..
  refine .of ?_ rfl id id id
  refine .trans ?_ (loadOptions_kept ..)
  refine .ite ?_ ?_
  refine .of ?_ rfl id id id
  refine .trans ?_ (deepReset_kept ..)
  exact releasePor_kept ..
  exact releasePor_kept ..
  refine .ite ?_ ?_
  refine .of ?_ rfl id id id
  refine .trans ?_ (deepReset_kept ..)
  exact releasePor_kept ..
  exact releasePor_kept ..

theorem bootHeadworks_kept (s : State) : Kept s (bootHeadworks s) := by
  unfold bootHeadworks
  dsimp only
  refine .of ?_ rfl id id id
  refine .trans ?_ (.foldl (fun s k => ?_) _ _)
  refine .trans ?_ (State.modThr_kept ..)
  refine .trans ?_ (leaveSafe_kept ..)
  refine .trans ?_ (bootImage_kept ..)
  refine .of ?_ rfl id id id
  refine .trans ?_ (writeShutreq_kept ..)
  exact startT15_kept ..
  refine .ite ?_ ?_
  exact startThread_kept ..
  exact .refl _

theorem startClock_kept (s : State) :
    Kept s (startClock s) := by
  unfold startClock
  dsimp only
  refine .of ?_ rfl id id id
  exact .refl _

theorem lockGauge_kept (s : State) : Kept s (lockGauge s) := by
  unfold lockGauge
  refine .ite ?_ ?_
  dsimp only
  refine .of ?_ rfl id id id
  refine .trans ?_ (moveGauge_kept ..)
  exact .of (.refl _) rfl id id id
  exact .refl _

theorem lockWdog_kept (s : State) : Kept s (lockWdog s) := by
  unfold lockWdog
  split
  exact .refl _
  exact .of (.refl _) rfl id id id

theorem pllLock_kept (s : State) : Kept s (pllLock s) := by
  unfold pllLock
  refine .ite ?_ ?_
  dsimp only
  refine .ite ?_ ?_
  refine .trans ?_ (bootHeadworks_kept ..)
  refine .of ?_ rfl id id id
  refine .trans ?_ (loadFirmware_kept ..)
  refine .trans ?_ (startLanes_kept ..)
  refine .of ?_ rfl id id id
  refine .trans ?_ (lockWdog_kept ..)
  exact lockGauge_kept ..
  refine .trans ?_ (raise_kept ..)
  refine .of ?_ rfl id id id
  refine .trans ?_ (loadFirmware_kept ..)
  refine .trans ?_ (startLanes_kept ..)
  refine .of ?_ rfl id id id
  refine .trans ?_ (lockWdog_kept ..)
  exact lockGauge_kept ..
  exact .refl _

theorem writeBootctl_kept (v : U32) (s : State) : Kept s (writeBootctl v s) := by
  unfold writeBootctl
  refine .ite ?_ ?_
  refine .trans ?_ (bootHeadworks_kept ..)
  exact .of (.refl _) rfl id id id
  exact .refl _

theorem repairCopies_kept (s : State) : Kept s (repairCopies s) := by
  unfold repairCopies
  refine .ite ?_ ?_
  refine .trans ?_ (pump_kept ..)
  exact addOption_kept ..
  exact .refl _

theorem bootReady_kept (s : State) : Kept s (bootReady s) := by
  unfold bootReady
  refine .ite ?_ ?_
  split
  dsimp only
  refine .trans ?_ (hgUpdate_kept ..)
  refine .trans ?_ (raiseIf_kept ..)
  refine .trans ?_ (raiseIf_kept ..)
  refine .trans ?_ (raiseIf_kept ..)
  refine .of ?_ rfl id id id
  refine .trans ?_ (raiseIf_kept ..)
  refine .trans ?_ (raiseIf_kept ..)
  refine .of ?_ rfl id id id
  refine .trans ?_ (repairCopies_kept ..)
  refine .snd ?_ (by assumption)
  exact drawFree_kept ..
  exact .refl _

theorem pauseCulvert_kept (s : State) : Kept s (pauseCulvert s) := by
  unfold pauseCulvert
  exact .of (.refl _) rfl id id id

theorem holdPads_kept (s : State) : Kept s (holdPads s) := by
  unfold holdPads
  dsimp only
  refine .of ?_ rfl id id id
  refine .trans ?_ (riderStop_kept ..)
  refine .trans ?_ (.each (fun s k => ?_) _ _)
  refine .trans ?_ (.each (fun s k => ?_) _ _)
  exact .refl _
  exact flushOut_kept ..
  exact disarm_kept ..

theorem idleLanes_kept (all : Bool) (s : State) : Kept s (idleLanes all s) := by
  unfold idleLanes
  dsimp only
  refine .ite ?_ ?_
  refine .trans ?_ (State.modPort_kept ..)
  refine .trans ?_ (.each (fun s k => ?_) _ _)
  refine .trans ?_ (.each (fun s k => ?_) _ _)
  exact .refl _
  refine .ite ?_ ?_
  refine .trans ?_ (idlePort_kept ..)
  exact portLeave_kept ..
  exact .refl _
  refine .ite ?_ ?_
  exact State.modLane_kept ..
  exact .refl _
  refine .trans ?_ (.each (fun s k => ?_) _ _)
  exact .refl _
  refine .ite ?_ ?_
  refine .trans ?_ (idlePort_kept ..)
  exact portLeave_kept ..
  exact .refl _

theorem stopClocks_kept (s : State) : Kept s (stopClocks s) := by
  unfold stopClocks
  exact .of (.refl _) rfl id id id

theorem enterSleep_kept (deep : Bool) (s : State) : Kept s (enterSleep deep s) := by
  unfold enterSleep
  dsimp only
  refine .ite ?_ ?_
  refine .trans ?_ (wakeRequest_kept ..)
  refine .of ?_ rfl id id id
  refine .trans ?_ (stopClocks_kept ..)
  refine .trans ?_ (idleLanes_kept ..)
  exact holdPads_kept ..
  refine .of ?_ rfl id id id
  refine .trans ?_ (stopClocks_kept ..)
  refine .trans ?_ (idleLanes_kept ..)
  exact holdPads_kept ..

theorem enterDoze_kept (s : State) : Kept s (enterDoze s) := by
  unfold enterDoze
  dsimp only
  refine .ite ?_ ?_
  refine .trans ?_ (wakeRequest_kept ..)
  exact .of (.refl _) rfl id id id
  exact .of (.refl _) rfl id id id

theorem dozeWake_kept (s : State) : Kept s (dozeWake s) := by
  unfold dozeWake
  refine .ite ?_ ?_
  refine .trans ?_ (raise_kept ..)
  exact .of (.refl _) rfl id id id
  exact .refl _

theorem wakeLanes_kept (s : State) : Kept s (wakeLanes s) := by
  unfold wakeLanes
  dsimp only
  refine .trans ?_ (startLanes_kept ..)
  refine .ite ?_ ?_
  exact toDetect_kept ..
  exact .refl _

theorem sleepReturn_kept (s : State) : Kept s (sleepReturn s) := by
  unfold sleepReturn
  refine .ite ?_ ?_
  dsimp only
  refine .trans ?_ (raise_kept ..)
  refine .trans ?_ (relayWakes_kept ..)
  refine .trans ?_ (wakeLanes_kept ..)
  refine .of ?_ rfl id id id
  refine .trans ?_ (moveGauge_kept ..)
  exact .of (.refl _) rfl id id id
  exact .refl _

theorem padRelease_kept (n : Nat) (s : State) : Kept s (padRelease n s) := by
  unfold padRelease
  refine .ite ?_ ?_
  split
  exact .refl _
  dsimp only
  refine .ite ?_ ?_
  refine .ite ?_ ?_
  exact State.modOut_kept ..
  refine .of ?_ rfl id id id
  exact State.modOut_kept ..
  exact .refl _
  exact .refl _

theorem writeHoldrel_kept (s : State) : Kept s (writeHoldrel s) := by
  unfold writeHoldrel
  refine .ite ?_ ?_
  exact .of (.refl _) rfl id id id
  exact .refl _

theorem pwrctlWake_kept (s : State) : Kept s (pwrctlWake s) := by
  unfold pwrctlWake
  refine .trans ?_ (hwSet_kept ..)
  refine .of ?_ rfl id id id
  exact .refl _

theorem writePwrctl_kept (v : U32) (s : State) : Kept s (writePwrctl v s) := by
  unfold writePwrctl
  dsimp only
  refine .ite ?_ ?_
  refine .trans ?_ (writeHoldrel_kept ..)
  refine .ite ?_ ?_
  refine .trans ?_ (pwrctlWake_kept ..)
  exact .of (.refl _) rfl id id id
  exact .of (.refl _) rfl id id id
  refine .ite ?_ ?_
  refine .trans ?_ (pwrctlWake_kept ..)
  exact .of (.refl _) rfl id id id
  exact .of (.refl _) rfl id id id

theorem writeRstctl_kept (v : U32) (s : State) : Kept s (writeRstctl v s) := by
  unfold writeRstctl
  dsimp only
  refine .ite ?_ ?_
  refine .trans ?_ (requestReset_kept ..)
  exact .of (.refl _) rfl id id id
  exact .of (.refl _) rfl id id id

theorem pwrWrite_kept (r : Nat) (v : U32) (s : State) : Kept s (pwrWrite r v s) := by
  unfold pwrWrite
  dsimp only
  split
  exact writePwrctl_kept ..
  exact .of (.refl _) rfl id id id
  exact .of (.refl _) rfl id id id
  exact .of (.refl _) rfl id id id
  exact .of (.refl _) rfl id id id
  exact .of (.refl _) rfl id id id
  exact writeRstctl_kept ..
  exact .of (.refl _) rfl id id id
  exact writeBootctl_kept ..
  exact .refl _

end Sys2Proof.Machine
end

