-- ==== Sys2Proof/Laws/KeptBus.lean ====
section
/-! SUPPORT. Every operation of Machine/Bus.lean leaves the command queue alone and keeps the memories canonical. -/

namespace Sys2Proof.Machine

set_option Elab.async false

theorem modWin_kept (ag : Agent) (f : Window → Window) (s : State) : Kept s (modWin ag f s) := by
  unfold modWin
  split
  refine .of ?_ rfl ?_ ?_ ?_
  exact .refl _
  exact fun h => ⟨h.1, h.2.1, h.2.2.1, h.2.2.2.1, h.2.2.2.2.1, h.2.2.2.2.2⟩
  exact id
  exact id
  refine .of ?_ rfl ?_ ?_ ?_
  exact .refl _
  exact fun h => ⟨h.1, h.2.1, h.2.2.1, h.2.2.2.1, h.2.2.2.2.1, h.2.2.2.2.2⟩
  exact id
  exact id
  refine .of ?_ rfl ?_ ?_ ?_
  exact .refl _
  exact fun h => ⟨h.1, h.2.1, h.2.2.1, h.2.2.2.1, h.2.2.2.2.1, h.2.2.2.2.2⟩
  exact id
  exact id

theorem thrWrite_kept (n : Nat) (r : Nat) (v : U32) (s : State) : Kept s (thrWrite n r v s) := by
  unfold thrWrite
  split
  exact State.modThr_kept ..
  exact State.modCtxBoth_kept ..
  exact State.modCtxBoth_kept ..
  exact State.modCtxBoth_kept ..
  exact State.modCtxBoth_kept ..
  exact State.modThr_kept ..
  exact .refl _

theorem writeHwin_kept (v : BitVec 17) (s : State) :
    Kept s (writeHwin v s) := by
  unfold writeHwin
  refine .of ?_ rfl id id id
  exact .refl _

theorem writeScond_kept (base : Option U16) (set clr : U16) (s : State) :
    Kept s (writeScond base set clr s) := by
  unfold writeScond
  dsimp only
  refine .of ?_ rfl id id id
  exact .refl _

theorem excWrite_kept (ag : Agent) (r : Nat) (v : U32) (s : State) : Kept s (excWrite ag r v s) := by
  unfold excWrite
  dsimp only
  refine .ite ?_ ?_
  refine .ite ?_ ?_
  exact .refl _
  refine .ite ?_ ?_
  exact State.modThr_kept ..
  exact State.modThr_kept ..
  refine .ite ?_ ?_
  refine .ite ?_ ?_
  exact State.modThr_kept ..
  exact .refl _
  split
  exact .of (.refl _) rfl id id id
  exact .of (.refl _) rfl id id id
  exact .of (.refl _) rfl id id id
  exact .of (.refl _) rfl id id id
  exact .of (.refl _) rfl id id id
  exact .of (.refl _) rfl id id id
  exact .of (.refl _) rfl id id id
  exact .of (.refl _) rfl id id id
  exact .of (.refl _) rfl id id id
  exact .of (.refl _) rfl id id id
  refine .ite ?_ ?_
  exact .of (.refl _) rfl id id id
  exact .refl _

theorem regEffect_kept (ag : Agent) (off : Nat) (s : State) : Kept s (regEffect ag off s) := by
  unfold regEffect
  refine .ite ?_ ?_
  exact .refl _
  refine .ite ?_ ?_
  exact hgReadEffect_kept ..
  refine .ite ?_ ?_
  exact turnoutReadEffect_kept ..
  refine .ite ?_ ?_
  exact readCap_kept ..
  refine .ite ?_ ?_
  exact flReadEffect_kept ..
  refine .ite ?_ ?_
  exact popRx_kept ..
  refine .ite ?_ ?_
  exact linkReadEffect_kept ..
  refine .ite ?_ ?_
  exact lgReadEffect_kept ..
  refine .ite ?_ ?_
  exact nvmReadEffect_kept ..
  exact .refl _

theorem regStore_kept (ag : Agent) (off : Nat) (v : U32) (s : State) : Kept s (regStore ag off v s).1 := by
  unfold regStore
  refine .iteFst ?_ ?_
  dsimp only
  exact .refl _
  refine .iteFst ?_ ?_
  dsimp only
  exact .refl _
  refine .iteFst ?_ ?_
  dsimp only
  refine .ite ?_ ?_
  exact modWin_kept ..
  exact .refl _
  refine .iteFst ?_ ?_
  dsimp only
  exact pwrWrite_kept ..
  refine .iteFst ?_ ?_
  dsimp only
  exact smpWrite_kept ..
  refine .iteFst ?_ ?_
  dsimp only
  exact hgWrite_kept ..
  refine .iteFst ?_ ?_
  dsimp only
  exact turnoutWrite_kept ..
  refine .iteFst ?_ ?_
  dsimp only
  exact .refl _
  refine .iteFst ?_ ?_
  dsimp only
  exact tmrWrite_kept ..
  refine .iteFst ?_ ?_
  dsimp only
  exact outWrite_kept ..
  refine .iteFst ?_ ?_
  dsimp only
  exact .of (.refl _) rfl id id id
  refine .iteFst ?_ ?_
  dsimp only
  exact flWrite_kept ..
  refine .iteFst ?_ ?_
  dsimp only
  exact rchWrite_kept ..
  refine .iteFst ?_ ?_
  dsimp only
  exact riderWrite_kept ..
  refine .iteFst ?_ ?_
  dsimp only
  exact writeProg_kept ..
  refine .iteFst ?_ ?_
  exact gateWrite_kept ..
  refine .iteFst ?_ ?_
  exact shutWrite_kept ..
  refine .iteFst ?_ ?_
  exact gateStore_kept ..
  refine .iteFst ?_ ?_
  dsimp only
  exact culWrite_kept ..
  refine .iteFst ?_ ?_
  dsimp only
  exact thrWrite_kept ..
  refine .iteFst ?_ ?_
  dsimp only
  exact excWrite_kept ..
  refine .iteFst ?_ ?_
  dsimp only
  exact linkWrite_kept ..
  refine .iteFst ?_ ?_
  dsimp only
  exact lgWrite_kept ..
  refine .iteFst ?_ ?_
  dsimp only
  exact nvmWrite_kept ..
  refine .iteFst ?_ ?_
  dsimp only
  exact wdogWrite_kept ..
  refine .iteFst ?_ ?_
  dsimp only
  exact .of (.refl _) rfl id id id
  dsimp only
  exact .refl _

theorem winData_kept (a : Nat) (s : State) : Kept s (winData a s).2 := by
  unfold winData
  split
  dsimp only
  exact .refl _
  split
  dsimp only
  refine .snd ?_ (by assumption)
  exact seenData_kept ..

theorem winRead_kept (ag : Agent) (w : Nat) (s : State) : Kept s (winRead ag w s).2 := by
  unfold winRead
  dsimp only
  split
  dsimp only
  exact .refl _
  split
  split
  dsimp only
  exact .refl _
  dsimp only
  exact .refl _
  split
  dsimp only
  exact .refl _
  dsimp only
  exact .refl _
  exact winData_kept ..
  dsimp only
  exact .refl _

theorem winMicro_kept (ag : Agent) (i : Nat) (v : U32) (s : State) : Kept s (winMicro ag i v s) := by
  unfold winMicro
  refine .ite ?_ ?_
  exact putMicro_kept ..
  exact .refl _

theorem winNano_kept (ag : Agent) (i : Nat) (v : BitVec 256) (s : State) : Kept s (winNano ag i v s) := by
  unfold winNano
  refine .ite ?_ ?_
  exact putNano_kept ..
  exact .refl _

theorem stageNano_kept (ag : Agent) (i : Nat) (j : Nat) (v : U32) (strb : BitVec 4) (s : State) :
    Kept s (stageNano ag i j v strb s) := by
  unfold stageNano
  dsimp only
  refine .ite ?_ ?_
  refine .trans ?_ (modWin_kept ..)
  exact winNano_kept ..
  exact modWin_kept ..

theorem winWrite_kept (ag : Agent) (w : Nat) (v : U32) (strb : BitVec 4) (s : State) :
    Kept s (winWrite ag w v strb s).1 := by
  unfold winWrite
  dsimp only
  refine .iteFst ?_ ?_
  dsimp only
  exact .refl _
  split
  refine .iteFst ?_ ?_
  dsimp only
  exact .refl _
  dsimp only
  exact winMicro_kept ..
  dsimp only
  exact stageNano_kept ..
  refine .iteFst ?_ ?_
  dsimp only
  exact .refl _
  refine .iteFst ?_ ?_
  dsimp only
  exact .refl _
  dsimp only
  refine .trans ?_ (.foldl (fun s k => ?_) _ _)
  exact .refl _
  exact storeRow_kept ..
  dsimp only
  exact lgmPut_kept ..

theorem busWrite_kept (ag : Agent) (off : Nat) (v : U32) (strb : BitVec 4) (s : State) :
    Kept s (busWrite ag off v strb s).1 := by
  unfold busWrite
  dsimp only
  refine .iteFst ?_ ?_
  exact winWrite_kept ..
  refine .iteFst ?_ ?_
  dsimp only
  exact .refl _
  exact regStore_kept ..

theorem busRead_kept (ag : Agent) (inspect : Bool) (off : Nat) (s : State) : Kept s (busRead ag inspect off s).2 := by
  unfold busRead
  dsimp only
  split
  exact winRead_kept ..
  dsimp only
  refine .ite ?_ ?_
  exact .refl _
  exact regEffect_kept ..

theorem busRead8_kept (ag : Agent) (off : Nat) (s : State) : Kept s (busRead8 ag off s).2 := by
  unfold busRead8
  dsimp only
  exact regEffect_kept ..

theorem forwardAccess_kept (ag : Agent) (m : Nat) (off : Nat) (wr : Option U32) (strb : BitVec 4)
    (inspect : Bool) (s : State) : Kept s (forwardAccess ag m off wr strb inspect s).1 := by
  unfold forwardAccess
  refine .iteFst ?_ ?_
  dsimp only
  refine .trans ?_ (hwSet_kept ..)
  refine .of ?_ rfl id id id
  exact .refl _
  refine .iteFst ?_ ?_
  dsimp only
  exact .refl _
  split
  dsimp only
  refine .trans ?_ (originate_kept ..)
  refine .of ?_ rfl id id id
  refine .snd ?_ (by assumption)
  exact nextMsg_kept ..

end Sys2Proof.Machine
end

