-- ==== Sys2Proof/Laws/KeptIssue.lean ====
section
/-! SUPPORT. Every operation of Machine/Issue.lean leaves the command queue alone and keeps the memories canonical. -/

namespace Sys2Proof.Machine

set_option Elab.async false

theorem retStatus_kept (s : State) (n : Nat) : Kept s (retStatus s n).2 := by
  unfold retStatus
  dsimp only
  split
  dsimp only
  exact .refl _
  split
  dsimp only
  exact loadData_kept ..
  dsimp only
  exact .refl _

theorem counted_kept (n : Nat) (isPrefix : Bool) (s : State) : Kept s (counted n isPrefix s) := by
  unfold counted
  dsimp only
  refine .trans ?_ (State.modThr_kept ..)
  exact .of (.refl _) rfl id id id

theorem stopIfAsked_kept (n : Nat) (s : State) : Kept s (stopIfAsked n s) := by
  unfold stopIfAsked
  dsimp only
  refine .ite ?_ ?_
  refine .trans ?_ (State.modThr_kept ..)
  exact applyRet_kept ..
  exact .refl _

theorem finishWord_kept (n : Nat) (isPrefix : Bool) (place : Ctx → Ctx) {f : State → State}
    (hf : ∀ s, Kept s (f s)) (s : State) : Kept s (finishWord n isPrefix place f s) := by
  unfold finishWord
  dsimp only
  refine .trans ?_ (stopIfAsked_kept ..)
  refine .trans ?_ (State.modCtx_kept ..)
  refine .trans ?_ (State.modCtx_kept ..)
  refine .trans ?_ (counted_kept ..)
  refine .trans ?_ (State.modCtx_kept ..)
  refine .trans ?_ (by apply_assumption)
  exact .of (.refl _) rfl id id id

theorem parkLoad_kept (n : Nat) (kind : LoadKind) (a : U32) (x : BitVec 5) (c : Ctx) (s : State) :
    Kept s (parkLoad n kind a x c s) := by
  unfold parkLoad
  exact State.modThr_kept ..

theorem loadOut_kept (n : Nat) (o : Op) (s : State) : Kept s (loadOut n o s) := by
  unfold loadOut
  dsimp only
  refine .ite ?_ ?_
  refine .trans ?_ (forwardAccess_kept ..)
  refine .trans ?_ (State.modCtx_kept ..)
  exact parkLoad_kept ..
  refine .trans ?_ (State.modCtx_kept ..)
  exact parkLoad_kept ..

theorem holdActs_kept (n : Nat) (s0 s : State) :
    Kept s (holdActs n s0 s) := by
  unfold holdActs
  dsimp only
  refine .trans ?_ (State.modThr_kept ..)
  refine .of ?_ rfl id id id
  exact .refl _

theorem runOp_kept (n : Nat) (o : Op) (s : State) : Kept s (runOp n o s) := by
  unfold runOp
  refine .ite ?_ ?_
  exact .refl _
  dsimp only
  refine .ite ?_ ?_
  refine .trans ?_ (loadOut_kept ..)
  refine .ite ?_ ?_
  refine .trans ?_ (Op.moveEnd_kept ..)
  refine .ite ?_ ?_
  refine .trans ?_ (Op.moveRow_kept ..)
  exact Op.run_kept ..
  exact Op.run_kept ..
  refine .ite ?_ ?_
  refine .trans ?_ (Op.moveRow_kept ..)
  exact Op.run_kept ..
  exact Op.run_kept ..
  refine .ite ?_ ?_
  refine .trans ?_ (Op.moveEnd_kept ..)
  refine .ite ?_ ?_
  refine .trans ?_ (Op.moveRow_kept ..)
  exact Op.run_kept ..
  exact Op.run_kept ..
  refine .ite ?_ ?_
  refine .trans ?_ (Op.moveRow_kept ..)
  exact Op.run_kept ..
  exact Op.run_kept ..

theorem atomicResult_kept (n : Nat) (dst : BitVec 5) (v : U32) (isLoad : Bool) (s : State) :
    Kept s (atomicResult n dst v isLoad s) := by
  unfold atomicResult
  dsimp only
  exact State.modCtx_kept ..

theorem scAnswer_kept (n : Nat) (dst : BitVec 5) (fail : Bool) (s : State) : Kept s (scAnswer n dst fail s) := by
  unfold scAnswer
  dsimp only
  refine .trans ?_ (State.modCtx_kept ..)
  exact atomicResult_kept ..

theorem runLr_kept (n : Nat) (w : U32) (s0 : State) (s : State) : Kept s (runLr n w s0 s) := by
  unfold runLr
  dsimp only
  refine .ite ?_ ?_
  refine .trans ?_ (atomicResult_kept ..)
  refine .trans ?_ (State.modCtx_kept ..)
  exact loadData_kept ..
  refine .trans ?_ (State.modCtx_kept ..)
  exact parkLoad_kept ..

theorem runSc_kept (n : Nat) (w : U32) (s0 : State) (s : State) : Kept s (runSc n w s0 s) := by
  unfold runSc
  dsimp only
  refine .ite ?_ ?_
  refine .trans ?_ (scAnswer_kept ..)
  exact State.modCtx_kept ..
  refine .ite ?_ ?_
  refine .trans ?_ (State.modCtx_kept ..)
  refine .trans ?_ (scAnswer_kept ..)
  refine .trans ?_ (postStore_kept ..)
  exact State.modCtx_kept ..
  refine .trans ?_ (State.modCtx_kept ..)
  refine .trans ?_ (parkLoad_kept ..)
  exact State.modCtx_kept ..

theorem parkStack_kept (slow : Bool) (n : Nat) (s : State) : Kept s (parkStack slow n s) := by
  unfold parkStack
  refine .ite ?_ ?_
  exact State.modThr_kept ..
  exact .refl _

theorem runControl_kept (n : Nat) (w : U32) (s : State) : Kept s (runControl n w s) := by
  unfold runControl
  dsimp only
  split
  refine .trans ?_ (finishWord_kept _ _ _ (fun s => ?_) _)
  exact .refl _
  exact .refl _
  refine .ite ?_ ?_
  refine .trans ?_ (finishWord_kept _ _ _ (fun s => ?_) _)
  exact .refl _
  refine .trans ?_ (parkStack_kept ..)
  exact pushRet_kept ..
  refine .trans ?_ (finishWord_kept _ _ _ (fun s => ?_) _)
  exact .refl _
  exact .refl _
  refine .ite ?_ ?_
  refine .trans ?_ (finishWord_kept _ _ _ (fun s => ?_) _)
  exact .refl _
  exact .refl _
  refine .trans ?_ (finishWord_kept _ _ _ (fun s => ?_) _)
  split
  exact retStatus_kept ..
  dsimp only
  exact .refl _
  refine .ite ?_ ?_
  exact .refl _
  refine .trans ?_ (parkStack_kept ..)
  exact State.modCtx_kept ..
  refine .trans ?_ (finishWord_kept _ _ _ (fun s => ?_) _)
  exact .refl _
  exact .refl _
  refine .trans ?_ (finishWord_kept _ _ _ (fun s => ?_) _)
  exact .refl _
  exact .refl _
  refine .trans ?_ (finishWord_kept _ _ _ (fun s => ?_) _)
  exact .refl _
  exact State.modCtx_kept ..
  refine .trans ?_ (finishWord_kept _ _ _ (fun s => ?_) _)
  exact .refl _
  exact runLr_kept ..
  refine .trans ?_ (finishWord_kept _ _ _ (fun s => ?_) _)
  exact .refl _
  exact runSc_kept ..
  refine .trans ?_ (State.modThr_kept ..)
  refine .trans ?_ (takeEntry_kept ..)
  refine .trans ?_ (finishWord_kept _ _ _ (fun s => ?_) _)
  exact .refl _
  exact .refl _
  refine .trans ?_ (finishWord_kept _ _ _ (fun s => ?_) _)
  exact .refl _
  exact .refl _
  refine .trans ?_ (finishWord_kept _ _ _ (fun s => ?_) _)
  exact .refl _
  exact State.modThr_kept ..
  refine .trans ?_ (finishWord_kept _ _ _ (fun s => ?_) _)
  exact .refl _
  exact State.modThr_kept ..
  exact .refl _

theorem takeStop_kept (n : Nat) (st : Stop) (s : State) : Kept s (takeStop n st s) := by
  unfold takeStop
  split
  exact takeFault_kept ..
  exact enterMonitor_kept ..

theorem issue_kept (n : Nat) (row : Option Nat) (s0 : State) : Kept s0 (issue n row s0) := by
  unfold issue
  refine .ite ?_ ?_
  exact .refl _
  dsimp only
  refine .ite ?_ ?_
  exact .refl _
  split
  refine .trans ?_ (takeStop_kept ..)
  refine .trans ?_ (.foldl (fun s k => ?_) _ _)
  exact applyRet_kept ..
  exact raise_kept ..
  refine .ite ?_ ?_
  exact .refl _
  refine .ite ?_ ?_
  refine .trans ?_ (finishWord_kept _ _ _ (fun s => ?_) _)
  refine .trans ?_ (.foldl (fun s k => ?_) _ _)
  exact applyRet_kept ..
  exact raise_kept ..
  exact runOp_kept ..
  refine .trans ?_ (runControl_kept ..)
  refine .trans ?_ (.foldl (fun s k => ?_) _ _)
  exact applyRet_kept ..
  exact raise_kept ..

end Sys2Proof.Machine
end

