-- ==== Sys2Proof/Laws/KeptLoads.lean ====
section
/-! SUPPORT. Every operation of Machine/Loads.lean leaves the command queue alone and keeps the memories canonical. -/

namespace Sys2Proof.Machine

set_option Elab.async false

theorem unpark_kept (n : Nat) (s : State) : Kept s (unpark n s) := by
  unfold unpark
  exact State.modThr_kept ..

theorem writeLoaded_kept (n : Nat) (kind : LoadKind) (owing : Bool) (word : Nat) (vals : List (BitVec 5 × U32)) (s : State) :
    Kept s (writeLoaded n kind owing word vals s) := by
  unfold writeLoaded
  dsimp only
  exact State.modCtx_kept ..

theorem loadDone_kept (n : Nat) (kind : LoadKind) (owing : Bool) (word : Nat) (vals : List (BitVec 5 × U32)) (s : State) :
    Kept s (loadDone n kind owing word vals s) := by
  unfold loadDone
  dsimp only
  refine .ite ?_ ?_
  refine .trans ?_ (State.modThr_kept ..)
  exact writeLoaded_kept ..
  refine .trans ?_ (unpark_kept ..)
  exact writeLoaded_kept ..

theorem takeImprecise_kept (n : Nat) (vec : BitVec 6) (p : Posted) (s : State) :
    Kept s (takeImprecise n vec p s) := by
  unfold takeImprecise
  dsimp only
  refine .trans ?_ (takeEntry_kept ..)
  refine .trans ?_ (State.modThr_kept ..)
  exact applyRet_kept ..

theorem loadFault_kept (n : Nat) (owing : Bool) (vec : BitVec 6) (a : U32) (s : State) :
    Kept s (loadFault n owing vec a s) := by
  unfold loadFault
  refine .ite ?_ ?_
  exact State.modThr_kept ..
  dsimp only
  split
  refine .trans ?_ (takeImprecise_kept ..)
  exact State.modThr_kept ..
  refine .trans ?_ (takeFault_kept ..)
  exact State.modThr_kept ..

theorem ownLoad_kept (n : Nat) (owing : Bool) (lsz : BitVec 3) (a : U32) (off : Nat) (x : BitVec 5)
    (word : Nat) (s : State) : Kept s (ownLoad n owing lsz a off x word s) := by
  unfold ownLoad
  dsimp only
  refine .ite ?_ ?_
  refine .trans ?_ (loadDone_kept ..)
  exact busRead8_kept ..
  refine .ite ?_ ?_
  refine .trans ?_ (loadFault_kept ..)
  exact busRead_kept ..
  refine .trans ?_ (loadDone_kept ..)
  exact busRead_kept ..

theorem memberLoad_kept (n : Nat) (owing : Bool) (a : U32) (m : Nat) (off : Nat) (s : State) :
    Kept s (memberLoad n owing a m off s) := by
  unfold memberLoad
  refine .ite ?_ ?_
  exact .refl _
  dsimp only
  refine .ite ?_ ?_
  refine .trans ?_ (loadFault_kept ..)
  exact forwardAccess_kept ..
  exact forwardAccess_kept ..

theorem regLoad_kept (n : Nat) (owing : Bool) (lsz : BitVec 3) (a : U32) (x : BitVec 5) (word : Nat)
    (at_ : Nat) (s : State) : Kept s (regLoad n owing lsz a x word at_ s) := by
  unfold regLoad
  refine .ite ?_ ?_
  exact .refl _
  split
  refine .ite ?_ ?_
  exact ownLoad_kept ..
  exact .refl _
  exact memberLoad_kept ..
  exact loadDone_kept ..

theorem nvmLoad_kept (n : Nat) (owing : Bool) (lsz : BitVec 3) (a : U32) (x : BitVec 5) (word : Nat)
    (s : State) : Kept s (nvmLoad n owing lsz a x word s) := by
  unfold nvmLoad
  dsimp only
  refine .ite ?_ ?_
  exact .refl _
  refine .ite ?_ ?_
  refine .trans ?_ (loadFault_kept ..)
  exact readLogical_kept ..
  refine .trans ?_ (loadDone_kept ..)
  exact readLogical_kept ..

theorem hostAnswer_kept (n : Nat) (owing : Bool) (kind : LoadKind) (a : U32) (x : BitVec 5) (word : Nat)
    (at_ : Nat) (resp : LoadResp) (s : State) : Kept s (hostAnswer n owing kind a x word at_ resp s) := by
  unfold hostAnswer
  dsimp only
  split
  refine .trans ?_ (loadFault_kept ..)
  refine .ite ?_ ?_
  exact .refl _
  exact State.modThr_kept ..
  refine .trans ?_ (loadFault_kept ..)
  refine .ite ?_ ?_
  exact .refl _
  exact State.modThr_kept ..
  split
  refine .trans ?_ (State.modCtx_kept ..)
  refine .trans ?_ (loadDone_kept ..)
  refine .ite ?_ ?_
  exact .refl _
  exact State.modThr_kept ..
  refine .trans ?_ (loadDone_kept ..)
  refine .ite ?_ ?_
  exact .refl _
  exact State.modThr_kept ..
  split
  refine .trans ?_ (loadDone_kept ..)
  refine .ite ?_ ?_
  exact .refl _
  exact State.modThr_kept ..
  refine .ite ?_ ?_
  refine .trans ?_ (loadDone_kept ..)
  refine .ite ?_ ?_
  exact .refl _
  exact State.modThr_kept ..
  refine .trans ?_ (State.modCtx_kept ..)
  refine .trans ?_ (loadDone_kept ..)
  refine .ite ?_ ?_
  exact .refl _
  exact State.modThr_kept ..
  refine .trans ?_ (State.modCtx_kept ..)
  refine .trans ?_ (loadDone_kept ..)
  refine .trans ?_ (dropResv_kept ..)
  refine .trans ?_ (hostWrite_kept ..)
  refine .ite ?_ ?_
  exact .refl _
  exact State.modThr_kept ..

theorem loadReturn_kept (n : Nat) (resp : LoadResp) (s : State) : Kept s (loadReturn n resp s) := by
  unfold loadReturn
  split
  exact .refl _
  split
  exact regLoad_kept ..
  exact nvmLoad_kept ..
  refine .ite ?_ ?_
  exact memberLoad_kept ..
  exact .refl _
  exact hostAnswer_kept ..
  exact .refl _

theorem storeError_kept (n : Nat) (addr : U32) (s : State) : Kept s (storeError n addr s) := by
  unfold storeError
  dsimp only
  split
  exact .refl _
  exact State.modThr_kept ..

theorem fenceComplete_kept (n : Nat) (s : State) : Kept s (fenceComplete n s) := by
  unfold fenceComplete
  split
  refine .ite ?_ ?_
  exact State.modThr_kept ..
  exact .refl _
  exact .refl _

theorem reservationExpiry_kept (n : Nat) (s : State) : Kept s (reservationExpiry n s) := by
  unfold reservationExpiry
  exact State.modCtx_kept ..

theorem endWait_kept (n : Nat) (timeout : Bool) (s : State) : Kept s (endWait n timeout s) := by
  unfold endWait
  exact State.modThr_kept ..

theorem waitEnd_kept (n : Nat) (s : State) : Kept s (waitEnd n s) := by
  unfold waitEnd
  split
  refine .ite ?_ ?_
  refine .trans ?_ (endWait_kept ..)
  exact .of (.refl _) rfl id id id
  exact .refl _
  exact .refl _

theorem waitTimeout_kept (n : Nat) (s : State) : Kept s (waitTimeout n s) := by
  unfold waitTimeout
  split
  split
  refine .ite ?_ ?_
  exact endWait_kept ..
  exact .refl _
  exact .refl _
  exact .refl _

theorem exceptionEntry_kept (n : Nat) (s : State) : Kept s (exceptionEntry n s) := by
  unfold exceptionEntry
  split
  refine .ite ?_ ?_
  exact enterSpillway_kept ..
  exact .refl _
  split
  refine .ite ?_ ?_
  exact takeImprecise_kept ..
  exact issue_kept ..
  exact issue_kept ..

theorem eventDispatch_kept (n : Nat) (s : State) : Kept s (eventDispatch n s) := by
  unfold eventDispatch
  split
  exact .refl _
  dsimp only
  refine .ite ?_ ?_
  exact .refl _
  refine .trans ?_ (dispatchClaim_kept ..)
  refine .trans ?_ (takeEntry_kept ..)
  exact applyRet_kept ..

end Sys2Proof.Machine
end

