-- ==== Sys2Proof/Laws/KeptCommands.lean ====
section
/-! SUPPORT. Every operation of Machine/Commands.lean leaves the command queue alone and keeps the memories canonical. -/

namespace Sys2Proof.Machine

set_option Elab.async false

theorem clearSlot_kept (k : Slot) (s : State) : Kept s (clearSlot k s) := by
  unfold clearSlot
  split
  exact .of (.refl _) rfl id id id
  exact .of (.refl _) rfl id id id

theorem done_kept (c : CmdSlot) (status : Byte) (result : U64) (s : State) : Kept s (done c status result s) := by
  unfold done
  exact setStage_kept ..

theorem doneDetail_kept (c : CmdSlot) (status : Byte) (detail : Nat) (s : State) :
    Kept s (doneDetail c status detail s) := by
  unfold doneDetail
  exact setStage_kept ..

theorem forwardCmd_kept (c : CmdSlot) (s : State) : Kept s (forwardCmd c s) := by
  unfold forwardCmd
  dsimp only
  refine .ite ?_ ?_
  exact done_kept ..
  refine .trans ?_ (setStage_kept ..)
  refine .trans ?_ (originate_kept ..)
  exact nextMsg_kept ..

theorem runCmd_kept (op : Nat) (k : Slot) (masks : BitVec 512 → List U32) (bad : BitVec 512 → List Bool)
    {f again : CmdSlot → State → State} (hf : ∀ c s, Kept s (f c s)) (ha : ∀ c s, Kept s (again c s)) (s : State) :
    Kept s (runCmd op k masks bad f again s) := by
  unfold runCmd
  split
  exact .refl _
  refine .ite ?_ ?_
  exact .refl _
  split
  refine .ite ?_ ?_
  exact .refl _
  refine .ite ?_ ?_
  exact forwardCmd_kept ..
  split
  exact doneDetail_kept ..
  refine .ite ?_ ?_
  exact .refl _
  refine .trans ?_ (by apply_assumption)
  exact .refl _
  refine .trans ?_ (by apply_assumption)
  exact .refl _
  exact .refl _

theorem runShort_kept (op : Nat) (k : Slot) (masks : BitVec 512 → List U32) (bad : BitVec 512 → List Bool)
    {f : CmdSlot → State → State} (hf : ∀ c s, Kept s (f c s)) (s : State) : Kept s (runShort op k masks bad f s) :=
  runCmd_kept op k masks bad hf (fun _ s => .refl s) s

theorem finishSlot_kept (k : Slot) (c : CmdSlot) (status : Byte) (detail : U16) (result : U64) (s : State) :
    Kept s (finishSlot k c status detail result s) := by
  unfold finishSlot
  dsimp only
  refine .trans ?_ (hgUpdate_kept ..)
  refine .trans ?_ (clearSlot_kept ..)
  refine .ite ?_ ?_
  exact .refl _
  split
  exact writeCompletion_kept ..
  exact sendResp_kept ..

theorem submissionFetch_kept (entry : BitVec 512) (s : State) : Kept s (submissionFetch entry s) := by
  unfold submissionFetch
  split
  exact .refl _
  refine .ite ?_ ?_
  exact .refl _
  dsimp only
  refine .trans ?_ (hgUpdate_kept ..)
  refine .of ?_ rfl id id id
  refine .trans ?_ (dirty_kept ..)
  exact setRing_kept ..

theorem completionWrite_kept (k : Slot) (s : State) : Kept s (completionWrite k s) := by
  unfold completionWrite
  split
  exact .refl _
  split
  refine .ite ?_ ?_
  exact finishSlot_kept ..
  exact .refl _
  exact .refl _

theorem loadFails_kept (c : CmdSlot) (status : Byte) (n : Nat) (s : State) :
    Kept s (loadFails c status n s) := by
  unfold loadFails
  refine .trans ?_ (done_kept ..)
  exact .of (.refl _) rfl id id id

theorem secondPass_kept (c : CmdSlot) (l1 : List Byte) (pass2 : HostRead) (s : State) :
    Kept s (secondPass c l1 pass2 s) := by
  unfold secondPass
  dsimp only
  split
  refine .trans ?_ (loadFails_kept ..)
  refine .trans ?_ (applyImage_kept ..)
  exact drawFree_kept ..
  refine .ite ?_ ?_
  refine .trans ?_ (loadFails_kept ..)
  exact applyImage_kept ..
  refine .ite ?_ ?_
  refine .trans ?_ (pump_kept ..)
  refine .trans ?_ (addJob_kept ..)
  refine .trans ?_ (setStage_kept ..)
  refine .of ?_ rfl id id id
  exact applyImage_kept ..
  refine .trans ?_ (imageDone_kept ..)
  refine .of ?_ rfl id id id
  exact applyImage_kept ..

theorem imageLoad_kept (pass1 : HostRead) (pass2 : HostRead) (c : CmdSlot) (s : State) :
    Kept s (imageLoad pass1 pass2 c s) := by
  unfold imageLoad
  dsimp only
  refine .ite ?_ ?_
  exact done_kept ..
  refine .ite ?_ ?_
  exact done_kept ..
  split
  exact done_kept ..
  split
  exact doneDetail_kept ..
  refine .ite ?_ ?_
  exact doneDetail_kept ..
  exact secondPass_kept ..

theorem imageActivate_kept (c : CmdSlot) (s : State) : Kept s (imageActivate c s) := by
  unfold imageActivate
  dsimp only
  refine .ite ?_ ?_
  exact done_kept ..
  refine .ite ?_ ?_
  exact done_kept ..
  refine .trans ?_ (done_kept ..)
  split
  refine .trans ?_ (pump_kept ..)
  refine .trans ?_ (addOption_kept ..)
  refine .trans ?_ (.foldl (fun s k => ?_) _ _)
  exact .of (.refl _) rfl id id id
  refine .ite ?_ ?_
  exact startThread_kept ..
  exact .refl _
  refine .trans ?_ (.foldl (fun s k => ?_) _ _)
  exact .of (.refl _) rfl id id id
  refine .ite ?_ ?_
  exact startThread_kept ..
  exact .refl _

theorem patchApply_kept (patch : HostRead) (c : CmdSlot) (s : State) : Kept s (patchApply patch c s) := by
  unfold patchApply
  split
  exact done_kept ..
  dsimp only
  refine .ite ?_ ?_
  exact done_kept ..
  refine .ite ?_ ?_
  exact done_kept ..
  refine .trans ?_ (done_kept ..)
  refine .of ?_ rfl id id id
  exact putMicro_kept ..

theorem threadStart_kept (c : CmdSlot) (s : State) : Kept s (threadStart c s) := by
  unfold threadStart
  dsimp only
  refine .ite ?_ ?_
  exact done_kept ..
  refine .trans ?_ (done_kept ..)
  exact startThread_kept ..

theorem threadStopOn_kept (c : CmdSlot) (s : State) : Kept s (threadStopOn c s) := by
  unfold threadStopOn
  dsimp only
  split
  refine .ite ?_ ?_
  refine .trans ?_ (done_kept ..)
  refine .trans ?_ (.each (fun s k => ?_) _ _)
  exact .refl _
  refine .ite ?_ ?_
  exact stopIfAsked_kept ..
  exact .refl _
  refine .trans ?_ (.each (fun s k => ?_) _ _)
  exact .refl _
  refine .ite ?_ ?_
  exact stopIfAsked_kept ..
  exact .refl _
  refine .trans ?_ (.each (fun s k => ?_) _ _)
  exact .refl _
  refine .ite ?_ ?_
  exact stopIfAsked_kept ..
  exact .refl _

theorem threadStop_kept (c : CmdSlot) (s : State) : Kept s (threadStop c s) := by
  unfold threadStop
  dsimp only
  refine .trans ?_ (threadStopOn_kept ..)
  refine .trans ?_ (setStage_kept ..)
  refine .trans ?_ (.each (fun s k => ?_) _ _)
  exact .refl _
  refine .ite ?_ ?_
  exact State.modThr_kept ..
  exact .refl _

theorem threadReset_kept (c : CmdSlot) (s : State) : Kept s (threadReset c s) := by
  unfold threadReset
  dsimp only
  refine .trans ?_ (done_kept ..)
  refine .trans ?_ (.each (fun s k => ?_) _ _)
  exact .refl _
  refine .ite ?_ ?_
  exact resetThread_kept ..
  exact .refl _

theorem coefCommand_kept (c : CmdSlot) (s : State) : Kept s (coefCommand c s) := by
  unfold coefCommand
  dsimp only
  refine .ite ?_ ?_
  refine .trans ?_ (done_kept ..)
  exact withBoundary_kept ..
  refine .trans ?_ (done_kept ..)
  refine .ite ?_ ?_
  refine .trans ?_ (sealBank_kept ..)
  refine .trans ?_ (.foldl (fun s k => ?_) _ _)
  exact withBoundary_kept ..
  exact writePend_kept ..
  refine .trans ?_ (.foldl (fun s k => ?_) _ _)
  exact withBoundary_kept ..
  exact writePend_kept ..

theorem setpointCommand_kept (c : CmdSlot) (s : State) : Kept s (setpointCommand c s) := by
  unfold setpointCommand
  dsimp only
  refine .ite ?_ ?_
  exact done_kept ..
  split
  refine .trans ?_ (done_kept ..)
  exact storeData_kept ..
  refine .trans ?_ (done_kept ..)
  refine .ite ?_ ?_
  refine .of ?_ rfl id id id
  exact storeData_kept ..
  exact storeData_kept ..

theorem armOne_kept (e : BitVec 512) (s : State) (nk : Nat × Nat) : Kept s (armOne e s nk) := by
  unfold armOne
  dsimp only
  refine .ite ?_ ?_
  exact .refl _
  refine .trans ?_ (writeFlCtl_kept ..)
  refine .trans ?_ (writeFlReg_kept ..)
  exact writeFlReg_kept ..

theorem armCommand_kept (c : CmdSlot) (s : State) : Kept s (armCommand c s) := by
  unfold armCommand
  refine .ite ?_ ?_
  exact done_kept ..
  dsimp only
  refine .trans ?_ (done_kept ..)
  refine .trans ?_ (.foldl (fun s k => ?_) _ _)
  exact .refl _
  exact armOne_kept ..

theorem disarmCommand_kept (c : CmdSlot) (s : State) : Kept s (disarmCommand c s) := by
  unfold disarmCommand
  dsimp only
  refine .trans ?_ (done_kept ..)
  refine .ite ?_ ?_
  refine .trans ?_ (.foldl (fun s k => ?_) _ _)
  refine .trans ?_ (.foldl (fun s k => ?_) _ _)
  exact .refl _
  exact disarm_kept ..
  refine .ite ?_ ?_
  exact flushOut_kept ..
  exact .refl _
  refine .trans ?_ (.foldl (fun s k => ?_) _ _)
  exact .refl _
  exact disarm_kept ..

theorem rearmCommand_kept (c : CmdSlot) (s : State) : Kept s (rearmCommand c s) := by
  unfold rearmCommand
  refine .ite ?_ ?_
  exact done_kept ..
  dsimp only
  refine .ite ?_ ?_
  refine .trans ?_ (setStage_kept ..)
  exact rearm_kept ..
  refine .trans ?_ (done_kept ..)
  exact rearm_kept ..

theorem rearmOn_kept (c : CmdSlot) (s : State) : Kept s (rearmOn c s) := by
  unfold rearmOn
  refine .ite ?_ ?_
  exact done_kept ..
  refine .ite ?_ ?_
  exact done_kept ..
  exact .refl _

theorem linkEnum_kept (c : CmdSlot) (s : State) : Kept s (linkEnum c s) := by
  unfold linkEnum
  dsimp only
  refine .ite ?_ ?_
  exact done_kept ..
  refine .ite ?_ ?_
  exact done_kept ..
  refine .trans ?_ (finishEnum_kept ..)
  refine .trans ?_ (setStage_kept ..)
  exact .of (.refl _) rfl id id id

theorem linkRole_kept (c : CmdSlot) (s : State) : Kept s (linkRole c s) := by
  unfold linkRole
  dsimp only
  refine .ite ?_ ?_
  exact done_kept ..
  refine .trans ?_ (done_kept ..)
  refine .ite ?_ ?_
  refine .trans ?_ (pump_kept ..)
  refine .trans ?_ (addOption_kept ..)
  exact .of (.refl _) rfl id id id
  exact .of (.refl _) rfl id id id

theorem linkSend_kept (payload : HostRead) (c : CmdSlot) (s : State) : Kept s (linkSend payload c s) := by
  unfold linkSend
  dsimp only
  refine .ite ?_ ?_
  exact done_kept ..
  split
  exact done_kept ..
  refine .ite ?_ ?_
  refine .trans ?_ (done_kept ..)
  refine .ite ?_ ?_
  refine .trans ?_ (originate_kept ..)
  refine .trans ?_ (originate_kept ..)
  refine .trans ?_ (setStage_kept ..)
  exact nextMsg_kept ..
  refine .trans ?_ (originate_kept ..)
  refine .trans ?_ (setStage_kept ..)
  exact nextMsg_kept ..
  refine .ite ?_ ?_
  refine .trans ?_ (originate_kept ..)
  refine .trans ?_ (originate_kept ..)
  refine .trans ?_ (setStage_kept ..)
  exact nextMsg_kept ..
  refine .trans ?_ (originate_kept ..)
  refine .trans ?_ (setStage_kept ..)
  exact nextMsg_kept ..

theorem ledgerRead_kept (err : Bool) (c : CmdSlot) (s : State) :
    Kept s (ledgerRead err c s) := by
  unfold ledgerRead
  dsimp only
  refine .ite ?_ ?_
  exact done_kept ..
  refine .trans ?_ (done_kept ..)
  exact hostWrite_kept ..

theorem ledgerBindCommand_kept (c : CmdSlot) (s : State) : Kept s (ledgerBindCommand c s) := by
  unfold ledgerBindCommand
  dsimp only
  refine .trans ?_ (done_kept ..)
  exact ledgerBind_kept ..

theorem nvmErase_kept (c : CmdSlot) (s : State) : Kept s (nvmErase c s) := by
  unfold nvmErase
  dsimp only
  refine .ite ?_ ?_
  exact doneDetail_kept ..
  refine .ite ?_ ?_
  refine .trans ?_ (done_kept ..)
  exact refuseProtected_kept ..
  refine .trans ?_ (pump_kept ..)
  refine .trans ?_ (addJob_kept ..)
  exact setStage_kept ..

theorem nvmProgram_kept (src : HostRead) (c : CmdSlot) (s : State) : Kept s (nvmProgram src c s) := by
  unfold nvmProgram
  dsimp only
  refine .ite ?_ ?_
  exact doneDetail_kept ..
  refine .ite ?_ ?_
  refine .trans ?_ (done_kept ..)
  exact refuseProtected_kept ..
  split
  exact done_kept ..
  refine .trans ?_ (pump_kept ..)
  refine .trans ?_ (addJob_kept ..)
  exact setStage_kept ..

theorem nvmRead_kept (err : Bool) (c : CmdSlot) (s : State) :
    Kept s (nvmRead err c s) := by
  unfold nvmRead
  dsimp only
  refine .ite ?_ ?_
  exact doneDetail_kept ..
  refine .ite ?_ ?_
  exact .refl _
  refine .ite ?_ ?_
  refine .trans ?_ (done_kept ..)
  exact readUnits_kept ..
  refine .trans ?_ (setStage_kept ..)
  refine .trans ?_ (hostWrite_kept ..)
  exact readUnits_kept ..

theorem abortLong_kept (s : State) : Kept s (abortLong s) := by
  unfold abortLong
  dsimp only
  refine .trans ?_ (pump_kept ..)
  refine .trans ?_ (.foldl (fun s k => ?_) _ _)
  refine .of ?_ rfl id id id
  refine .trans ?_ (.foldl (fun s k => ?_) _ _)
  refine .trans ?_ (.foldl (fun s k => ?_) _ _)
  refine .of ?_ rfl id id id
  exact .refl _
  split
  exact .refl _
  exact done_kept ..
  exact done_kept ..
  split
  exact cmdDone_kept ..
  exact .refl _
  split
  exact finishSlot_kept ..
  exact .refl _

theorem powerOnward_kept (k : Slot) (c : CmdSlot) (s : State) : Kept s (powerOnward k c s) := by
  unfold powerOnward
  refine .ite ?_ ?_
  refine .trans ?_ (enterSleep_kept ..)
  exact finishSlot_kept ..
  exact .refl _

theorem powerState_kept (k : Slot) (c : CmdSlot) (s : State) : Kept s (powerState k c s) := by
  unfold powerState
  dsimp only
  split
  exact done_kept ..
  refine .trans ?_ (enterDoze_kept ..)
  refine .trans ?_ (finishSlot_kept ..)
  exact .of (.refl _) rfl id id id
  refine .ite ?_ ?_
  exact done_kept ..
  refine .trans ?_ (powerOnward_kept ..)
  refine .trans ?_ (setStage_kept ..)
  refine .trans ?_ (pauseCulvert_kept ..)
  refine .trans ?_ (lgTrigger_kept ..)
  refine .trans ?_ (abortLong_kept ..)
  exact .of (.refl _) rfl id id id

end Sys2Proof.Machine
end

