-- ==== Sys2Proof/Laws/KeptBist.lean ====
section
/-! SUPPORT. Every operation of Machine/Bist.lean leaves the command queue alone and keeps the memories canonical. -/

namespace Sys2Proof.Machine

set_option Elab.async false

theorem enterSafe15_kept (s : State) :
    Kept s (enterSafe15 s) := by
  unfold enterSafe15
  refine .trans ?_ (State.modThr_kept ..)
  exact bootThread_kept ..

theorem bistEnter_kept (s : State) : Kept s (bistEnter s) := by
  unfold bistEnter
  dsimp only
  refine .of ?_ rfl id id id
  refine .trans ?_ (idleLanes_kept ..)
  refine .trans ?_ (holdPads_kept ..)
  exact enterSafe15_kept ..

theorem bistOnward_kept (s : State) : Kept s (bistOnward s) := by
  unfold bistOnward
  refine .ite ?_ ?_
  exact bistEnter_kept ..
  exact .refl _

theorem bistBegin_kept (logic : Bool) (memory : Bool) (s : State) : Kept s (bistBegin logic memory s) := by
  unfold bistBegin
  refine .trans ?_ (bistOnward_kept ..)
  refine .trans ?_ (pauseCulvert_kept ..)
  refine .trans ?_ (lgTrigger_kept ..)
  exact .of (.refl _) rfl id id id

theorem bistRun_kept (k : Slot) (c : CmdSlot) (s : State) : Kept s (bistRun k c s) := by
  unfold bistRun
  refine .ite ?_ ?_
  exact done_kept ..
  dsimp only
  refine .trans ?_ (bistBegin_kept ..)
  split
  refine .of ?_ rfl id id id
  refine .trans ?_ (abortLong_kept ..)
  exact clearSlot_kept ..
  refine .of ?_ rfl id id id
  refine .trans ?_ (abortLong_kept ..)
  exact clearSlot_kept ..

theorem bistByDebugger_kept (v : U32) (s : State) : Kept s (bistByDebugger v s) := by
  unfold bistByDebugger
  refine .ite ?_ ?_
  exact .refl _
  refine .ite ?_ ?_
  dsimp only
  refine .ite ?_ ?_
  refine .trans ?_ (hwSet_kept ..)
  refine .of ?_ rfl id id id
  exact .refl _
  refine .trans ?_ (raise_kept ..)
  refine .trans ?_ (hwSet_kept ..)
  refine .of ?_ rfl id id id
  exact .refl _
  refine .trans ?_ (bistBegin_kept ..)
  exact abortLong_kept ..

theorem bistOver_kept (time : Byte) (s : State) : Kept s (bistOver time s) := by
  unfold bistOver
  exact .of (.refl _) rfl id id id

theorem logicDone_kept (misr : U64) (s : State) : Kept s (logicDone misr s) := by
  unfold logicDone
  refine .ite ?_ ?_
  exact .refl _
  dsimp only
  refine .ite ?_ ?_
  exact .of (.refl _) rfl id id id
  refine .trans ?_ (bistOver_kept ..)
  refine .trans ?_ (drawFree_kept ..)
  exact .of (.refl _) rfl id id id

theorem memoryDone_kept (misr : U64) (mfail : Byte) (ms : Byte) (s : State) :
    Kept s (memoryDone misr mfail ms s) := by
  unfold memoryDone
  refine .ite ?_ ?_
  exact .refl _
  dsimp only
  refine .trans ?_ (bistOver_kept ..)
  exact .of (.refl _) rfl id id id

theorem postBist_kept (s : State) : Kept s (postBist s) := by
  unfold postBist
  refine .ite ?_ ?_
  exact .refl _
  dsimp only
  refine .ite ?_ ?_
  refine .trans ?_ (debugReset_kept ..)
  refine .of ?_ rfl id id id
  refine .trans ?_ (coldReset_kept ..)
  exact dropDebugAccess_kept ..
  refine .of ?_ rfl id id id
  refine .trans ?_ (coldReset_kept ..)
  exact dropDebugAccess_kept ..

theorem bistReply_kept (s : State) : Kept s (bistReply s) := by
  unfold bistReply
  dsimp only
  split
  exact .refl _
  refine .ite ?_ ?_
  refine .trans ?_ (originate_kept ..)
  exact bistPaid_kept ..
  exact .refl _

end Sys2Proof.Machine
end

