-- ==== Sys2Proof/Laws/KeptDebug.lean ====
section
/-! SUPPORT. Every operation of Machine/Debug.lean leaves the command queue alone and keeps the memories canonical. -/

namespace Sys2Proof.Machine

set_option Elab.async false

theorem respond_kept (status : BitVec 4) (data : U32) (s : State) : Kept s (respond status data s) := by
  unfold respond
  exact .of (.refl _) rfl id id id

theorem raiseOn_kept (src : Nat) (s : State) : Kept s (raiseOn src s) := by
  unfold raiseOn
  refine .ite ?_ ?_
  exact .refl _
  exact raise_kept ..

theorem setLevel_kept (l : BitVec 2) (s : State) : Kept s (setLevel l s) := by
  unfold setLevel
  dsimp only
  refine .ite ?_ ?_
  exact .refl _
  refine .ite ?_ ?_
  refine .trans ?_ (.each (fun s k => ?_) _ _)
  refine .of ?_ rfl id id id
  refine .trans ?_ (raiseOn_kept ..)
  exact .of (.refl _) rfl id id id
  exact releaseMonitor_kept ..
  refine .trans ?_ (raiseOn_kept ..)
  exact .of (.refl _) rfl id id id

theorem debugPolicy_kept (c : CmdSlot) (s : State) : Kept s (debugPolicy c s) := by
  unfold debugPolicy
  dsimp only
  refine .ite ?_ ?_
  exact done_kept ..
  refine .trans ?_ (done_kept ..)
  refine .ite ?_ ?_
  refine .trans ?_ (setLevel_kept ..)
  refine .trans ?_ (raiseIf_kept ..)
  exact .of (.refl _) rfl id id id
  refine .trans ?_ (raiseIf_kept ..)
  exact .of (.refl _) rfl id id id

theorem challenge_kept (l : BitVec 2) (noise : U32) (s : State) : Kept s (challenge l noise s) := by
  unfold challenge
  dsimp only
  refine .ite ?_ ?_
  exact .refl _
  refine .ite ?_ ?_
  exact .of (.refl _) rfl id id id
  exact .of (.refl _) rfl id id id

theorem checkTag_kept (s : State) : Kept s (checkTag s) := by
  unfold checkTag
  dsimp only
  refine .ite ?_ ?_
  refine .trans ?_ (setLevel_kept ..)
  exact .of (.refl _) rfl id id id
  refine .trans ?_ (raiseOn_kept ..)
  exact .of (.refl _) rfl id id id

theorem writeDauth_kept (v : U32) (noise : U32) (s : State) : Kept s (writeDauth v noise s) := by
  unfold writeDauth
  dsimp only
  refine .ite ?_ ?_
  refine .trans ?_ (challenge_kept ..)
  refine .ite ?_ ?_
  refine .trans ?_ (checkTag_kept ..)
  refine .ite ?_ ?_
  exact setLevel_kept ..
  exact .refl _
  refine .ite ?_ ?_
  exact setLevel_kept ..
  exact .refl _
  refine .ite ?_ ?_
  refine .trans ?_ (checkTag_kept ..)
  refine .ite ?_ ?_
  exact setLevel_kept ..
  exact .refl _
  refine .ite ?_ ?_
  exact setLevel_kept ..
  exact .refl _

theorem dbFail_kept (cause : BitVec 3) (s : State) : Kept s (dbFail cause s) := by
  unfold dbFail
  dsimp only
  refine .ite ?_ ?_
  refine .trans ?_ (respond_kept ..)
  refine .trans ?_ (raiseOn_kept ..)
  exact .of (.refl _) rfl id id id
  refine .trans ?_ (raiseOn_kept ..)
  exact .of (.refl _) rfl id id id

theorem dbDone_kept (v : U32) (s : State) : Kept s (dbDone v s) := by
  unfold dbDone
  dsimp only
  refine .ite ?_ ?_
  refine .trans ?_ (respond_kept ..)
  exact .of (.refl _) rfl id id id
  exact .of (.refl _) rfl id id id

theorem dbRegister_kept (off : Nat) (wr : Option U32) (s : State) : Kept s (dbRegister off wr s) := by
  unfold dbRegister
  split
  split
  refine .ite ?_ ?_
  refine .trans ?_ (dbFail_kept ..)
  refine .snd ?_ (by assumption)
  exact busRead_kept ..
  refine .trans ?_ (dbDone_kept ..)
  refine .snd ?_ (by assumption)
  exact busRead_kept ..
  dsimp only
  refine .ite ?_ ?_
  refine .trans ?_ (dbFail_kept ..)
  exact busWrite_kept ..
  refine .trans ?_ (dbDone_kept ..)
  exact busWrite_kept ..

theorem dbData_kept (a : Nat) (n : Nat) (wr : Option U32) (s : State) : Kept s (dbData a n wr s) := by
  unfold dbData
  split
  refine .ite ?_ ?_
  exact dbFail_kept ..
  split
  refine .trans ?_ (dbDone_kept ..)
  refine .snd ?_ (by assumption)
  exact seenData_kept ..
  refine .ite ?_ ?_
  exact dbFail_kept ..
  refine .trans ?_ (dbDone_kept ..)
  exact storeRow_kept ..

theorem dbHost_kept (a : U48) (n : Nat) (wr : Option U32) (resp : LoadResp) (s : State) :
    Kept s (dbHost a n wr resp s) := by
  unfold dbHost
  split
  exact dbFail_kept ..
  exact dbFail_kept ..
  exact dbDone_kept ..
  exact dbDone_kept ..
  refine .trans ?_ (dbDone_kept ..)
  exact storeHost_kept ..

theorem dbMember_kept (m : Nat) (off : Nat) (wr : Option U32) (s : State) : Kept s (dbMember m off wr s) := by
  unfold dbMember
  refine .ite ?_ ?_
  exact .refl _
  dsimp only
  refine .ite ?_ ?_
  refine .trans ?_ (dbFail_kept ..)
  exact forwardAccess_kept ..
  exact forwardAccess_kept ..

theorem dbWindow_kept (off : Nat) (wr : Option U32) (s : State) : Kept s (dbWindow off wr s) := by
  unfold dbWindow
  split
  exact dbRegister_kept ..
  exact dbMember_kept ..
  exact dbDone_kept ..

theorem dbStore_kept (a : U32) (nano : Bool) (wr : Option U32) (s : State) : Kept s (dbStore a nano wr s) := by
  unfold dbStore
  dsimp only
  split
  refine .ite ?_ ?_
  exact dbFail_kept ..
  exact dbDone_kept ..
  refine .trans ?_ (dbDone_kept ..)
  exact winMicro_kept ..
  refine .ite ?_ ?_
  exact dbFail_kept ..
  exact dbDone_kept ..
  refine .trans ?_ (dbDone_kept ..)
  exact stageNano_kept ..

theorem dbComplete_kept (resp : LoadResp) (s : State) : Kept s (dbComplete resp s) := by
  unfold dbComplete
  split
  exact .refl _
  split
  exact dbFail_kept ..
  dsimp only
  split
  split
  exact dbData_kept ..
  exact dbWindow_kept ..
  exact dbMember_kept ..
  refine .ite ?_ ?_
  exact .refl _
  refine .ite ?_ ?_
  refine .trans ?_ (dbFail_kept ..)
  exact readLogical_kept ..
  refine .trans ?_ (dbDone_kept ..)
  exact readLogical_kept ..
  exact dbHost_kept ..
  exact .refl _
  exact dbHost_kept ..
  exact dbStore_kept ..
  exact dbStore_kept ..

theorem readDbdata_kept (s : State) : Kept s (readDbdata s) := by
  unfold readDbdata
  dsimp only
  refine .ite ?_ ?_
  exact respond_kept ..
  refine .ite ?_ ?_
  exact respond_kept ..
  refine .ite ?_ ?_
  refine .trans ?_ (respond_kept ..)
  exact .of (.refl _) rfl id id id
  refine .ite ?_ ?_
  exact respond_kept ..
  refine .of ?_ rfl id id id
  refine .trans ?_ (respond_kept ..)
  exact .of (.refl _) rfl id id id

theorem writeDbdata_kept (v : U32) (s : State) : Kept s (writeDbdata v s) := by
  unfold writeDbdata
  dsimp only
  refine .ite ?_ ?_
  exact respond_kept ..
  refine .ite ?_ ?_
  exact respond_kept ..
  refine .ite ?_ ?_
  exact respond_kept ..
  refine .trans ?_ (respond_kept ..)
  exact .of (.refl _) rfl id id id

theorem serveResume_kept (n : Nat) (s : State) :
    Kept s (serveResume n s) := by
  unfold serveResume
  refine .ite ?_ ?_
  exact returnMonitor_kept ..
  exact .refl _

theorem writeDthr_kept (n : Nat) (v : U32) (s : State) : Kept s (writeDthr n v s) := by
  unfold writeDthr
  refine .trans ?_ (serveResume_kept ..)
  exact State.modThr_kept ..

theorem writeSaved_kept (n : Nat) (stat : Bool) (v : U32) (s : State) : Kept s (writeSaved n stat v s) := by
  unfold writeSaved
  dsimp only
  refine .ite ?_ ?_
  exact .refl _
  exact State.modThr_kept ..

theorem freezeBegin_kept (s : State) : Kept s (freezeBegin s) := by
  unfold freezeBegin
  refine .ite ?_ ?_
  refine .trans ?_ (raise_kept ..)
  exact .of (.refl _) rfl id id id
  exact .refl _

theorem thaw_kept (s : State) : Kept s (thaw s) := by
  unfold thaw
  refine .ite ?_ ?_
  dsimp only
  refine .ite ?_ ?_
  refine .trans ?_ (setatThaw_kept ..)
  refine .ite ?_ ?_
  refine .of ?_ rfl id id id
  refine .trans ?_ (raise_kept ..)
  exact .of (.refl _) rfl id id id
  refine .trans ?_ (raise_kept ..)
  exact .of (.refl _) rfl id id id
  refine .ite ?_ ?_
  refine .of ?_ rfl id id id
  refine .trans ?_ (raise_kept ..)
  exact .of (.refl _) rfl id id id
  refine .trans ?_ (raise_kept ..)
  exact .of (.refl _) rfl id id id
  exact .refl _

theorem writeDctl_kept (v : U32) (s : State) : Kept s (writeDctl v s) := by
  unfold writeDctl
  dsimp only
  refine .ite ?_ ?_
  refine .trans ?_ (pwrctlWake_kept ..)
  exact .of (.refl _) rfl id id id
  exact .of (.refl _) rfl id id id

theorem spaceWrite_kept (a : Nat) (v : U32) (noise : U32) (s : State) : Kept s (spaceWrite a v noise s) := by
  unfold spaceWrite
  dsimp only
  refine .ite ?_ ?_
  exact .refl _
  refine .ite ?_ ?_
  split
  exact writeDthr_kept ..
  exact writeSaved_kept ..
  exact writeSaved_kept ..
  exact .refl _
  refine .ite ?_ ?_
  exact .of (.refl _) rfl id id id
  refine .ite ?_ ?_
  exact .of (.refl _) rfl id id id
  split
  exact writeDauth_kept ..
  exact writeDctl_kept ..
  exact .of (.refl _) rfl id id id
  exact bistByDebugger_kept ..
  exact .of (.refl _) rfl id id id
  exact .of (.refl _) rfl id id id
  exact .of (.refl _) rfl id id id
  exact .of (.refl _) rfl id id id
  exact .refl _

theorem readFrame_kept (op : BitVec 4) (a : Nat) (s : State) : Kept s (readFrame op a s) := by
  unfold readFrame
  refine .ite ?_ ?_
  refine .ite ?_ ?_
  exact .refl _
  exact respond_kept ..
  refine .ite ?_ ?_
  exact readDbdata_kept ..
  refine .ite ?_ ?_
  exact respond_kept ..
  exact respond_kept ..

theorem writeSpace_kept (a : Nat) (v : U32) (noise : U32) (s : State) : Kept s (writeSpace a v noise s) := by
  unfold writeSpace
  refine .ite ?_ ?_
  exact writeDbdata_kept ..
  refine .ite ?_ ?_
  exact respond_kept ..
  refine .trans ?_ (respond_kept ..)
  exact spaceWrite_kept ..

theorem writeFrame_kept (op : BitVec 4) (a : BitVec 24) (v : U32) (crc : BitVec 4) (s : State) :
    Kept s (writeFrame op a v crc s) := by
  unfold writeFrame
  refine .ite ?_ ?_
  refine .ite ?_ ?_
  exact .refl _
  exact respond_kept ..
  refine .ite ?_ ?_
  exact respond_kept ..
  split
  refine .trans ?_ (writeSpace_kept ..)
  refine .snd ?_ (by assumption)
  exact drawFree_kept ..

theorem monitorEntry_kept (n : Nat) (s : State) : Kept s (monitorEntry n s) := by
  unfold monitorEntry
  refine .ite ?_ ?_
  refine .trans ?_ (enterMonitor_kept ..)
  exact applyRet_kept ..
  dsimp only
  split
  exact issue_kept ..
  exact .refl _

theorem stepEntry_kept (n : Nat) (s : State) : Kept s (stepEntry n s) := by
  unfold stepEntry
  refine .ite ?_ ?_
  refine .trans ?_ (enterMonitor_kept ..)
  exact applyRet_kept ..
  exact .refl _

theorem monitorRequest_kept (n : Nat) (s : State) : Kept s (monitorRequest n s) := by
  unfold monitorRequest
  dsimp only
  refine .ite ?_ ?_
  refine .trans ?_ (serveResume_kept ..)
  exact State.modThr_kept ..
  exact serveResume_kept ..

end Sys2Proof.Machine
end

