-- ==== Sys2Proof/Laws/KeptStores.lean ====
section
/-! SUPPORT. Every operation of Machine/Stores.lean leaves the command queue alone and keeps the memories canonical. -/

namespace Sys2Proof.Machine

set_option Elab.async false

theorem refuseWrite_kept (w : Who) (s : State) : Kept s (refuseWrite w s) := by
  unfold refuseWrite
  split
  · exact .refl _
  · exact .ite (.refl _) (takeFault_kept ..)
  · exact .ite (dbFail_kept ..) (.refl _)

theorem writeAnswer_kept (w : Who) {r : State × Resp} {s : State} (h : Kept s r.1) : Kept s (writeAnswer w r) := by
  unfold writeAnswer
  split
  · exact .trans h (answer_kept ..)
  · exact h
  · exact .ite (.trans h (refuseWrite_kept ..)) h

theorem regCommand_kept (w : Who) (off : Nat) {r : State × Resp} {s : State} (h : Kept s r.1) :
    Kept s (regCommand w off r s) := by
  unfold regCommand
  exact .ite (refuseWrite_kept ..) (onCore_kept _ (writeAnswer_kept _ h))

theorem aoCommand_kept (w : Who) (off : Nat) {r : State × Resp} {s : State} (h : Kept s r.1) :
    Kept s (aoCommand w off r s) := by
  unfold aoCommand
  exact .ite (.refl _) (.ite (refuseWrite_kept ..) (writeAnswer_kept _ h))

theorem lgmdataWrite_kept (w : Who) (v : U32) (s : State) : Kept s (lgmdataWrite w v s) := by
  unfold lgmdataWrite
  exact regCommand_kept _ _ (busWrite_kept ..)

end Sys2Proof.Machine
end

