-- ==== Sys2Proof/Laws/KeptGroup.lean ====
section
/-! SUPPORT. Every operation of Machine/Group.lean leaves the command queue alone and keeps the memories canonical. -/

namespace Sys2Proof.Machine

set_option Elab.async false

theorem readRow_kept (w : Who) (off : Nat) (s : State) : Kept s (readRow w off s) := by
  unfold readRow
  split
  dsimp only
  refine .ite ?_ ?_
  refine onCore_kept _ ?_
  refine .trans ?_ (answer_kept ..)
  exact busRead_kept ..
  exact .refl _
  refine .ite ?_ ?_
  exact loadReturn_kept ..
  exact .refl _
  refine .ite ?_ ?_
  exact dbComplete_kept ..
  exact .refl _

theorem storeFault_kept (n : Nat) (p : Posted) (s : State) : Kept s (storeFault n p s) := by
  unfold storeFault
  exact State.modThr_kept ..

theorem blockStore_kept (ag : Agent) (pc : U16) (a v : U32) (s : State) :
    Kept s (blockStore ag pc a v s) := by
  unfold blockStore
  exact State.modThr_kept ..

theorem boundaryFirst_kept (off : Nat) (s : State) :
    Kept s (boundaryFirst off s) := by
  unfold boundaryFirst
  refine .ite ?_ ?_
  exact withBoundary_kept ..
  exact .refl _

theorem memberStore_kept (ag : Agent) (pc : U16) (a : U32) (m : Nat) (off : Nat) (v : U32) (s : State) :
    Kept s (memberStore ag pc a m off v s) := by
  unfold memberStore
  dsimp only
  refine .ite ?_ ?_
  exact blockStore_kept ..
  refine .ite ?_ ?_
  refine .trans ?_ (storeFault_kept ..)
  exact forwardAccess_kept ..
  refine .trans ?_ (State.modThr_kept ..)
  exact forwardAccess_kept ..

theorem ownStore_kept (ag : Agent) (pc : U16) (a : U32) (off : Nat) (v : U32) (s : State) :
    Kept s (ownStore ag pc a off v s) := by
  unfold ownStore
  dsimp only
  refine .ite ?_ ?_
  refine .trans ?_ (storeFault_kept ..)
  refine .trans ?_ (State.modCtxBoth_kept ..)
  refine .trans ?_ (busWrite_kept ..)
  exact boundaryFirst_kept ..
  refine .trans ?_ (State.modCtxBoth_kept ..)
  refine .trans ?_ (busWrite_kept ..)
  exact boundaryFirst_kept ..

theorem postedStore_kept (ag : Agent) (pc : U16) (a v : U32) (s : State) :
    Kept s (postedStore ag pc a v s) := by
  unfold postedStore
  split
  exact ownStore_kept ..
  exact memberStore_kept ..
  exact .refl _

theorem registerStore_kept (ag : Agent) (pc : U16) (a : U32) (v : U32) (s : State) :
    Kept s (registerStore ag pc a v s) := by
  unfold registerStore
  refine .ite ?_ ?_
  exact postedStore_kept ..
  exact blockStore_kept ..

theorem retryStores_kept (s : State) (n : Nat) :
    Kept s (retryStores s n) := by
  unfold retryStores
  dsimp only
  refine .trans ?_ (.foldl (fun s k => ?_) _ _)
  exact State.modThr_kept ..
  exact registerStore_kept ..

theorem hostAperture_kept (off : Nat) (wr : Option U32) (strb : BitVec 4) (s : State) :
    Kept s (hostAperture off wr strb s) := by
  unfold hostAperture
  split
  dsimp only
  refine .trans ?_ (answer_kept ..)
  exact busWrite_kept ..
  dsimp only
  refine .ite ?_ ?_
  refine .trans ?_ (answer_kept ..)
  exact busRead_kept ..
  exact .refl _
  dsimp only
  refine .ite ?_ ?_
  refine .trans ?_ (answer_kept ..)
  exact forwardAccess_kept ..
  exact forwardAccess_kept ..
  exact answer_kept ..

theorem apertureAccess_kept (w : Who) (off : Nat) (wr : Option U32) (strb : BitVec 4) (s : State) :
    Kept s (apertureAccess w off wr strb s) := by
  unfold apertureAccess
  refine .ite ?_ ?_
  exact .refl _
  split
  refine onCore_kept _ ?_
  exact hostAperture_kept ..
  refine .ite ?_ ?_
  refine inCore_kept ?_
  exact loadReturn_kept ..
  exact .refl _
  refine .ite ?_ ?_
  exact refuseWrite_kept ..
  refine onCore_kept _ ?_
  exact registerStore_kept ..
  refine .ite ?_ ?_
  exact dbComplete_kept ..
  exact .refl _

theorem memberAccess_kept (off : Nat) (wr : Option U32) (strb : BitVec 4) (inspect : Bool) (s : State) :
    Kept s (memberAccess off wr strb inspect s).2 := by
  unfold memberAccess
  split
  dsimp only
  exact .refl _
  split
  dsimp only
  exact busWrite_kept ..
  exact busRead_kept ..
  dsimp only
  exact .refl _

theorem regRequest_kept (p : Nat) (s : State) : Kept s (regRequest p s) := by
  unfold regRequest
  split
  exact .refl _
  dsimp only
  refine .trans ?_ (originate_kept ..)
  refine .trans ?_ (memberAccess_kept ..)
  refine .trans ?_ (takeFrame_kept (by assumption))
  exact .refl _

theorem threadAnswered_kept (n : Nat) (r : Forwarded) (err : Bool) (v : U32) (s : State) :
    Kept s (threadAnswered n r err v s) := by
  unfold threadAnswered
  refine .ite ?_ ?_
  split
  exact .refl _
  dsimp only
  refine .ite ?_ ?_
  refine .trans ?_ (storeFault_kept ..)
  exact State.modThr_kept ..
  exact State.modThr_kept ..
  split
  refine .ite ?_ ?_
  exact loadFault_kept ..
  exact loadDone_kept ..
  exact .refl _

theorem regResponse_kept (p : Nat) (s : State) : Kept s (regResponse p s) := by
  unfold regResponse
  split
  exact .refl _
  split
  refine .trans ?_ (takeFrame_kept (by assumption))
  exact .refl _
  dsimp only
  split
  refine .trans ?_ (answer_kept ..)
  refine .of ?_ rfl id id id
  refine .trans ?_ (takeFrame_kept (by assumption))
  exact .refl _
  refine .ite ?_ ?_
  refine .trans ?_ (dbFail_kept ..)
  refine .of ?_ rfl id id id
  refine .trans ?_ (takeFrame_kept (by assumption))
  exact .refl _
  refine .trans ?_ (dbDone_kept ..)
  refine .of ?_ rfl id id id
  refine .trans ?_ (takeFrame_kept (by assumption))
  exact .refl _
  refine .trans ?_ (threadAnswered_kept ..)
  refine .of ?_ rfl id id id
  refine .trans ?_ (takeFrame_kept (by assumption))
  exact .refl _
  refine .trans ?_ (threadAnswered_kept ..)
  refine .of ?_ rfl id id id
  refine .trans ?_ (takeFrame_kept (by assumption))
  exact .refl _
  refine .trans ?_ (threadAnswered_kept ..)
  refine .of ?_ rfl id id id
  refine .trans ?_ (takeFrame_kept (by assumption))
  exact .refl _

end Sys2Proof.Machine
end

