-- ==== Sys2Proof/Laws/KeptClock.lean ====
section
/-! SUPPORT. Every operation of Machine/Clock.lean leaves the command queue alone and keeps the memories canonical. -/

namespace Sys2Proof.Machine

set_option Elab.async false

theorem sendTrap_kept (k : BitVec 9) (data : U32) (s : State) : Kept s (sendTrap k data s) := by
  unfold sendTrap
  refine .ite ?_ ?_
  dsimp only
  exact originate_kept ..
  exact .refl _

theorem fcEvents_kept (s : State) : Kept s (fcEvents s) := by
  unfold fcEvents
  dsimp only
  refine .of ?_ rfl id id id
  refine .trans ?_ (.foldl (fun s k => ?_) _ _)
  exact .refl _
  refine .ite ?_ ?_
  refine .trans ?_ (memberEvent_kept ..)
  refine .ite ?_ ?_
  refine .trans ?_ (appendEvent_kept ..)
  refine .ite ?_ ?_
  exact sendTrap_kept ..
  exact .refl _
  refine .ite ?_ ?_
  exact sendTrap_kept ..
  exact .refl _
  refine .ite ?_ ?_
  exact sendTrap_kept ..
  exact .refl _

theorem fcRoutes_kept (s : State) : Kept s (fcRoutes s) := by
  unfold fcRoutes
  dsimp only
  refine .ite ?_ ?_
  refine .trans ?_ (wakeRequest_kept ..)
  refine .ite ?_ ?_
  refine .trans ?_ (wakeRequest_kept ..)
  refine .trans ?_ (applyConfigs_kept ..)
  refine .of ?_ rfl id id id
  exact routeAll_kept ..
  refine .trans ?_ (applyConfigs_kept ..)
  refine .of ?_ rfl id id id
  exact routeAll_kept ..
  refine .ite ?_ ?_
  refine .trans ?_ (wakeRequest_kept ..)
  refine .trans ?_ (applyConfigs_kept ..)
  refine .of ?_ rfl id id id
  exact routeAll_kept ..
  refine .trans ?_ (applyConfigs_kept ..)
  refine .of ?_ rfl id id id
  exact routeAll_kept ..

theorem gaugeStep_kept (s : State) : Kept s (gaugeStep s) := by
  unfold gaugeStep
  dsimp only
  exact .of (.refl _) rfl id id id

theorem pinsAndTimers_kept (rdrI : U64) (s : State) : Kept s (pinsAndTimers rdrI s) := by
  unfold pinsAndTimers
  dsimp only
  refine .ite ?_ ?_
  refine .of ?_ rfl id id id
  refine .trans ?_ (.each (fun s k => ?_) _ _)
  refine .of ?_ rfl id id id
  exact .refl _
  exact lateCapture_kept ..
  refine .of ?_ rfl id id id
  refine .trans ?_ (.each (fun s k => ?_) _ _)
  refine .of ?_ rfl id id id
  exact .refl _
  exact lateCapture_kept ..

theorem riderEdge_kept (slotWas : BitVec 5) (s : State) : Kept s (riderEdge slotWas s) := by
  unfold riderEdge
  dsimp only
  refine .ite ?_ ?_
  exact .of (.refl _) rfl id id id
  refine .trans ?_ (.each (fun s k => ?_) _ _)
  exact .of (.refl _) rfl id id id
  exact channelEdge_kept ..

theorem ownersStep_kept (s : State) : Kept s (ownersStep s) := by
  unfold ownersStep
  refine .trans ?_ (.each (fun s k => ?_) _ _)
  exact .refl _
  split
  exact .refl _
  dsimp only
  refine .trans ?_ (State.modOut_kept ..)
  refine .ite ?_ ?_
  refine .ite ?_ ?_
  refine .trans ?_ (shadowFromLevel_kept ..)
  exact shadowFromLevel_kept ..
  exact shadowFromLevel_kept ..
  exact .refl _

theorem shutStep_kept (s : State) : Kept s (shutStep s) := by
  unfold shutStep
  refine .trans ?_ (shutRelease_kept ..)
  refine .ite ?_ ?_
  exact shutFlush_kept ..
  exact .refl _

theorem landEnd_kept (fc : Nat) (s : State) : Kept s (landEnd fc s) := by
  unfold landEnd
  exact .of (.refl _) rfl id id id

theorem threadsStep_kept (s : State) : Kept s (threadsStep s) := by
  unfold threadsStep
  dsimp only
  refine .of ?_ rfl ?_ ?_ ?_
  exact .refl _
  exact fun h => ⟨h.1, h.2.1, h.2.2.1, h.2.2.2.1, h.2.2.2.2.1, h.2.2.2.2.2⟩
  exact id
  exact id

theorem runAct_kept (s : State) (a : Act) : Kept s (runAct s a) := by
  unfold runAct
  split
  exact affine_kept ..
  exact flumeClamped_kept ..
  exact flumeCommitStage_kept ..
  exact startAction_kept ..
  exact flumePostTest_kept ..
  exact writePend_kept ..
  exact sealBank_kept ..
  exact post_kept ..
  exact postR_kept ..
  exact raise_kept ..
  exact registerStore_kept ..
  refine .ite ?_ ?_
  exact schedule_kept ..
  exact timerStop_kept ..
  refine .ite ?_ ?_
  exact schedule_kept ..
  exact timerRestart_kept ..
  exact State.modOut_kept ..
  exact shutAssertIf_kept ..

theorem runDue_kept (s : State) : Kept s (runDue s) := by
  unfold runDue
  dsimp only
  refine .trans ?_ (.foldl (fun s k => ?_) _ _)
  refine .trans ?_ (.each (fun s k => ?_) _ _)
  refine .of ?_ rfl id id id
  exact .refl _
  exact retryStores_kept ..
  exact runAct_kept ..

theorem gaugeAdvance_kept (rdrI : U64) (s : State) : Kept s (gaugeAdvance rdrI s) := by
  unfold gaugeAdvance
  dsimp only
  refine .trans ?_ (bistReply_kept ..)
  refine .trans ?_ (bistOnward_kept ..)
  refine .trans ?_ (runDue_kept ..)
  refine .trans ?_ (threadsStep_kept ..)
  refine .trans ?_ (shutStep_kept ..)
  refine .trans ?_ (riderEdge_kept ..)
  refine .trans ?_ (pinsAndTimers_kept ..)
  refine .trans ?_ (applyTaps_kept ..)
  refine .trans ?_ (gatesEdge_kept ..)
  refine .trans ?_ (disciplineFc_kept ..)
  refine .trans ?_ (gaugeStep_kept ..)
  refine .trans ?_ (gateEvaluate_kept ..)
  refine .trans ?_ (ownersStep_kept ..)
  refine .trans ?_ (landEnd_kept ..)
  refine .trans ?_ (fcRoutes_kept ..)
  refine .trans ?_ (fcEvents_kept ..)
  refine .trans ?_ (hgUpdate_kept ..)
  refine .trans ?_ (.each (fun s k => ?_) _ _)
  exact .refl _
  exact landFifos_kept ..

end Sys2Proof.Machine
end

