-- ==== Sys2Proof/Laws/KeptExec.lean ====
section
/-! SUPPORT. A command that completes leaves the rest of the queue alone and keeps the memories canonical. -/

namespace Sys2Proof.Machine

set_option Elab.async false

theorem execPowerOnReset_kept {s : State} {u : State} (h : execPowerOnReset s = .next u) : Kept s u := by
  injection h with h
  subst h
  exact powerOn_kept ..

theorem execWarmReset_kept {s : State} {u : State} (h : execWarmReset s = .next u) : Kept s u := by
  injection h with h
  subst h
  refine .ite ?_ ?_
  exact warmReset_kept ..
  exact .refl _

theorem execDebugReset_kept {s : State} {u : State} (h : execDebugReset s = .next u) : Kept s u := by
  injection h with h
  subst h
  refine .ite ?_ ?_
  exact debugReset_kept ..
  exact .of (.refl _) rfl id id id

theorem execRstNAssert_kept {s : State} {u : State} (h : execRstNAssert s = .next u) : Kept s u := by
  injection h with h
  subst h
  exact requestReset_kept ..

theorem execRstctlWarm_kept {w : Who} {v : U32} {s : State} {u : State} (h : execRstctlWarm w v s = .next u) :
    Kept s u := by
  injection h with h
  subst h
  refine aoCommand_kept _ _ ?_
  dsimp only
  exact writeRstctl_kept ..

theorem execPllLoss_kept {s : State} {u : State} (h : execPllLoss s = .next u) : Kept s u := by
  injection h with h
  subst h
  refine .ite ?_ ?_
  refine .trans ?_ (raise_kept ..)
  refine .trans ?_ (hwSet_kept ..)
  refine .of ?_ rfl id id id
  exact .refl _
  exact .refl _

theorem execPllLossResetRequest_kept {s : State} {u : State} (h : execPllLossResetRequest s = .next u) :
    Kept s u := by
  injection h with h
  subst h
  refine .ite ?_ ?_
  refine .trans ?_ (requestReset_kept ..)
  exact .of (.refl _) rfl id id id
  exact .refl _

theorem execBootStart_kept {s : State} {u : State} (h : execBootStart s = .next u) : Kept s u := by
  injection h with h
  subst h
  exact bootStart_kept ..

theorem execPllLock_kept {s : State} {u : State} (h : execPllLock s = .next u) : Kept s u := by
  injection h with h
  subst h
  exact pllLock_kept ..

theorem execBootctlGo_kept {w : Who} {v : U32} {s : State} {u : State} (h : execBootctlGo w v s = .next u) :
    Kept s u := by
  injection h with h
  subst h
  refine aoCommand_kept _ _ ?_
  dsimp only
  exact writeBootctl_kept ..

theorem execBootReady_kept {s : State} {u : State} (h : execBootReady s = .next u) : Kept s u := by
  injection h with h
  subst h
  exact bootReady_kept ..

theorem execPowerState_kept {k : Slot} {s : State} {u : State} (h : execPowerState k s = .next u) : Kept s u := by
  injection h with h
  subst h
  refine .trans ?_ (runCmd_kept _ _ _ _ (fun c s => ?_) (fun c s => ?_) _)
  exact .refl _
  exact powerState_kept ..
  exact powerOnward_kept ..

theorem execWakePin_kept {level : Bool} {s : State} {u : State} (h : execWakePin level s = .next u) : Kept s u := by
  injection h with h
  subst h
  refine .ite ?_ ?_
  dsimp only
  refine .ite ?_ ?_
  refine .trans ?_ (wakeRequest_kept ..)
  exact .of (.refl _) rfl id id id
  exact .of (.refl _) rfl id id id
  exact .refl _

theorem execTallyWake_kept {s : State} {u : State} (h : execTallyWake s = .next u) : Kept s u := by
  injection h with h
  subst h
  refine .ite ?_ ?_
  exact wakeRequest_kept ..
  exact .refl _

theorem execPwrctlWake_kept {w : Who} {v : U32} {s : State} {u : State} (h : execPwrctlWake w v s = .next u) :
    Kept s u := by
  injection h with h
  subst h
  refine aoCommand_kept _ _ ?_
  dsimp only
  exact writePwrctl_kept ..

theorem execDozeWake_kept {s : State} {u : State} (h : execDozeWake s = .next u) : Kept s u := by
  injection h with h
  subst h
  exact dozeWake_kept ..

theorem execSleepReturn_kept {s : State} {u : State} (h : execSleepReturn s = .next u) : Kept s u := by
  injection h with h
  subst h
  exact sleepReturn_kept ..

theorem execPadHoldRelease_kept {n : Fin 96} {s : State} {u : State} (h : execPadHoldRelease n s = .next u) :
    Kept s u := by
  injection h with h
  subst h
  exact padRelease_kept ..

theorem execHoldrel_kept {w : Who} {v : U32} {s : State} {u : State} (h : execHoldrel w v s = .next u) :
    Kept s u := by
  injection h with h
  subst h
  refine aoCommand_kept _ _ ?_
  dsimp only
  exact writePwrctl_kept ..

theorem execRatioWindow_kept {ratio : U48} {s : State} {u : State} (h : execRatioWindow ratio s = .next u) :
    Kept s u := by
  injection h with h
  subst h
  refine .ite ?_ ?_
  exact .of (.refl _) rfl id id id
  exact .refl _

theorem execSampleLanding_kept {port : Fin 32} {x : BitVec 24} {tag : BitVec 4} {s : State} {u : State} (h : execSampleLanding port x tag s = .next u) :
    Kept s u := by
  injection h with h
  subst h
  refine inCore_kept ?_
  refine .ite ?_ ?_
  exact landSample_kept ..
  exact .refl _

theorem execTripInputChange_kept {m : Fin 64} {level : Bool} {s : State} {u : State} (h : execTripInputChange m level s = .next u) :
    Kept s u := by
  injection h with h
  subst h
  refine inCore_kept ?_
  refine .ite ?_ ?_
  refine .trans ?_ (raiseData_kept ..)
  exact .of (.refl _) rfl id id id
  exact .refl _

theorem execShutInputChange_kept {level : Bool} {s : State} {u : State} (h : execShutInputChange level s = .next u) :
    Kept s u := by
  injection h with h
  subst h
  refine inCore_kept ?_
  refine .trans ?_ (shutAssertIf_kept ..)
  exact .of (.refl _) rfl id id id

theorem execGateEvaluate_kept {s : State} {u : State} (h : execGateEvaluate s = .next u) : Kept s u := by
  injection h with h
  subst h
  refine inCore_kept ?_
  refine .ite ?_ ?_
  exact gateEvaluate_kept ..
  exact .refl _

theorem execGateEnable_kept {w : Who} {k : Fin 8} {v : U32} {s : State} {u : State} (h : execGateEnable w k v s = .next u) :
    Kept s u := by
  injection h with h
  subst h
  refine regCommand_kept _ _ ?_
  exact gateStore_kept ..

theorem execGateRestart_kept {w : Who} {k : Fin 8} {v : U32} {s : State} {u : State} (h : execGateRestart w k v s = .next u) :
    Kept s u := by
  injection h with h
  subst h
  refine regCommand_kept _ _ ?_
  exact gateStore_kept ..

theorem execGateTableStore_kept {w : Who} {k : Fin 8} {g : GateReg} {v : U32} {s : State} {u : State} (h : execGateTableStore w k g v s = .next u) :
    Kept s u := by
  injection h with h
  subst h
  refine regCommand_kept _ _ ?_
  exact gateStore_kept ..

theorem execShutreqSet_kept {w : Who} {v : U32} {s : State} {u : State} (h : execShutreqSet w v s = .next u) :
    Kept s u := by
  injection h with h
  subst h
  refine regCommand_kept _ _ ?_
  dsimp only
  exact writeShutreq_kept ..

theorem execShutreqClear_kept {w : Who} {v : U32} {s : State} {u : State} (h : execShutreqClear w v s = .next u) :
    Kept s u := by
  injection h with h
  subst h
  refine regCommand_kept _ _ ?_
  dsimp only
  exact writeShutreq_kept ..

theorem execShutctlRearm_kept {w : Who} {v : U32} {s : State} {u : State} (h : execShutctlRearm w v s = .next u) :
    Kept s u := by
  injection h with h
  subst h
  refine regCommand_kept _ _ ?_
  exact shutWrite_kept ..

theorem execWatchdogEnable_kept {w : Who} {v : U32} {s : State} {u : State} (h : execWatchdogEnable w v s = .next u) :
    Kept s u := by
  injection h with h
  subst h
  refine regCommand_kept _ _ ?_
  dsimp only
  exact writeWdog_kept ..

theorem execWatchdogLock_kept {w : Who} {v : U32} {s : State} {u : State} (h : execWatchdogLock w v s = .next u) :
    Kept s u := by
  injection h with h
  subst h
  refine regCommand_kept _ _ ?_
  dsimp only
  exact writeWdog_kept ..

theorem execWatchdogService_kept {w : Who} {v : U32} {s : State} {u : State} (h : execWatchdogService w v s = .next u) :
    Kept s u := by
  injection h with h
  subst h
  refine regCommand_kept _ _ ?_
  dsimp only
  exact wdogService_kept ..

theorem execWatchdogWindowOpen_kept {s : State} {u : State} (h : execWatchdogWindowOpen s = .next u) : Kept s u := by
  injection h with h
  subst h
  refine inCore_kept ?_
  refine .ite ?_ ?_
  refine .trans ?_ (raise_kept ..)
  exact .of (.refl _) rfl id id id
  exact .refl _

theorem execWatchdogExpiry_kept {s : State} {u : State} (h : execWatchdogExpiry s = .next u) : Kept s u := by
  injection h with h
  subst h
  refine inCore_kept ?_
  refine .ite ?_ ?_
  exact wdogExpire_kept ..
  exact .refl _

theorem execWatchdogResetRequest_kept {s : State} {u : State} (h : execWatchdogResetRequest s = .next u) :
    Kept s u := by
  injection h with h
  subst h
  refine inCore_kept ?_
  split
  refine .ite ?_ ?_
  refine .trans ?_ (requestReset_kept ..)
  exact .of (.refl _) rfl id id id
  exact .refl _
  exact .refl _

theorem execOperationMicroword_kept {n : Fin 16} {s : State} {u : State} (h : execOperationMicroword n s = .next u) :
    Kept s u := by
  injection h with h
  subst h
  exact issue_kept ..

theorem execLoadDataReturn_kept {n : Fin 16} {resp : LoadResp} {s : State} {u : State} (h : execLoadDataReturn n resp s = .next u) :
    Kept s u := by
  injection h with h
  subst h
  refine inCore_kept ?_
  exact loadReturn_kept ..

theorem execPostedStoreError_kept {n : Fin 16} {addr : U32} {s : State} {u : State} (h : execPostedStoreError n addr s = .next u) :
    Kept s u := by
  injection h with h
  subst h
  refine inCore_kept ?_
  exact storeError_kept ..

theorem execBr_kept {n : Fin 16} {s : State} {u : State} (h : execBr n s = .next u) : Kept s u := by
  injection h with h
  subst h
  exact issue_kept ..

theorem execCall_kept {n : Fin 16} {s : State} {u : State} (h : execCall n s = .next u) : Kept s u := by
  injection h with h
  subst h
  exact issue_kept ..

theorem execRet_kept {n : Fin 16} {s : State} {u : State} (h : execRet n s = .next u) : Kept s u := by
  injection h with h
  subst h
  exact issue_kept ..

theorem execRetExc_kept {n : Fin 16} {s : State} {u : State} (h : execRetExc n s = .next u) : Kept s u := by
  injection h with h
  subst h
  exact issue_kept ..

theorem execRep_kept {n : Fin 16} {s : State} {u : State} (h : execRep n s = .next u) : Kept s u := by
  injection h with h
  subst h
  exact issue_kept ..

theorem execRepn_kept {n : Fin 16} {s : State} {u : State} (h : execRepn n s = .next u) : Kept s u := by
  injection h with h
  subst h
  exact issue_kept ..

theorem execLi_kept {n : Fin 16} {s : State} {u : State} (h : execLi n s = .next u) : Kept s u := by
  injection h with h
  subst h
  exact issue_kept ..

theorem execLr_kept {n : Fin 16} {s : State} {u : State} (h : execLr n s = .next u) : Kept s u := by
  injection h with h
  subst h
  exact issue_kept ..

theorem execSc_kept {n : Fin 16} {s : State} {u : State} (h : execSc n s = .next u) : Kept s u := by
  injection h with h
  subst h
  exact issue_kept ..

theorem execReservationExpiry_kept {n : Fin 16} {s : State} {u : State} (h : execReservationExpiry n s = .next u) :
    Kept s u := by
  injection h with h
  subst h
  refine inCore_kept ?_
  exact reservationExpiry_kept ..

theorem execSys_kept {n : Fin 16} {s : State} {u : State} (h : execSys n s = .next u) : Kept s u := by
  injection h with h
  subst h
  exact issue_kept ..

theorem execMode_kept {n : Fin 16} {s : State} {u : State} (h : execMode n s = .next u) : Kept s u := by
  injection h with h
  subst h
  exact issue_kept ..

theorem execWait_kept {n : Fin 16} {s : State} {u : State} (h : execWait n s = .next u) : Kept s u := by
  injection h with h
  subst h
  exact issue_kept ..

theorem execWaitEnd_kept {n : Fin 16} {s : State} {u : State} (h : execWaitEnd n s = .next u) : Kept s u := by
  injection h with h
  subst h
  refine inCore_kept ?_
  exact waitEnd_kept ..

theorem execWaitTimeout_kept {n : Fin 16} {s : State} {u : State} (h : execWaitTimeout n s = .next u) : Kept s u := by
  injection h with h
  subst h
  refine inCore_kept ?_
  exact waitTimeout_kept ..

theorem execFence_kept {n : Fin 16} {s : State} {u : State} (h : execFence n s = .next u) : Kept s u := by
  injection h with h
  subst h
  exact issue_kept ..

theorem execFenceComplete_kept {n : Fin 16} {s : State} {u : State} (h : execFenceComplete n s = .next u) :
    Kept s u := by
  injection h with h
  subst h
  refine inCore_kept ?_
  exact fenceComplete_kept ..

theorem execExceptionEntry_kept {n : Fin 16} {s : State} {u : State} (h : execExceptionEntry n s = .next u) :
    Kept s u := by
  injection h with h
  subst h
  refine inCore_kept ?_
  exact exceptionEntry_kept ..

theorem execEventDispatch_kept {n : Fin 16} {s : State} {u : State} (h : execEventDispatch n s = .next u) :
    Kept s u := by
  injection h with h
  subst h
  refine inCore_kept ?_
  exact eventDispatch_kept ..

theorem execThreadStart_kept {k : Slot} {s : State} {u : State} (h : execThreadStart k s = .next u) : Kept s u := by
  injection h with h
  subst h
  refine .trans ?_ (runShort_kept _ _ _ _ (fun c s => ?_) _)
  exact .refl _
  exact threadStart_kept ..

theorem execThreadStop_kept {k : Slot} {s : State} {u : State} (h : execThreadStop k s = .next u) : Kept s u := by
  injection h with h
  subst h
  refine .trans ?_ (runCmd_kept _ _ _ _ (fun c s => ?_) (fun c s => ?_) _)
  exact .refl _
  exact threadStop_kept ..
  exact threadStopOn_kept ..

theorem execThreadReset_kept {k : Slot} {s : State} {u : State} (h : execThreadReset k s = .next u) : Kept s u := by
  injection h with h
  subst h
  refine .trans ?_ (runShort_kept _ _ _ _ (fun c s => ?_) _)
  exact .refl _
  exact threadReset_kept ..

theorem execDoorbell_kept {w : Who} {r : Fin 4} {v : U32} {s : State} {u : State} (h : execDoorbell w r v s = .next u) :
    Kept s u := by
  injection h with h
  subst h
  refine regCommand_kept _ _ ?_
  dsimp only
  exact writeDoorbell_kept ..

theorem execRingEnable_kept {w : Who} {v : U32} {s : State} {u : State} (h : execRingEnable w v s = .next u) :
    Kept s u := by
  injection h with h
  subst h
  refine regCommand_kept _ _ ?_
  dsimp only
  exact writeHgctl_kept ..

theorem execHeadShadowEnable_kept {w : Who} {v : U32} {s : State} {u : State} (h : execHeadShadowEnable w v s = .next u) :
    Kept s u := by
  injection h with h
  subst h
  refine regCommand_kept _ _ ?_
  dsimp only
  exact writeHgctl_kept ..

theorem execHeadShadowWrite_kept {s : State} {u : State} (h : execHeadShadowWrite s = .next u) : Kept s u := by
  injection h with h
  subst h
  refine inCore_kept ?_
  refine .ite ?_ ?_
  dsimp only
  refine .of ?_ rfl id id id
  exact hostWrite_kept ..
  exact .refl _

theorem execCqHeadWrite_kept {w : Who} {eq : Bool} {v : U32} {s : State} {u : State} (h : execCqHeadWrite w eq v s = .next u) :
    Kept s u := by
  injection h with h
  subst h
  refine regCommand_kept _ _ ?_
  dsimp only
  exact writeRingHead_kept ..

theorem execRingResume_kept {w : Who} {v : U32} {s : State} {u : State} (h : execRingResume w v s = .next u) :
    Kept s u := by
  injection h with h
  subst h
  refine regCommand_kept _ _ ?_
  dsimp only
  exact writeHgstat_kept ..

theorem execSubmissionFetch_kept {entry : BitVec 512} {s : State} {u : State} (h : execSubmissionFetch entry s = .next u) :
    Kept s u := by
  injection h with h
  subst h
  exact submissionFetch_kept ..

theorem execEntryReadError_kept {s : State} {u : State} (h : execEntryReadError s = .next u) : Kept s u := by
  injection h with h
  subst h
  refine inCore_kept ?_
  split
  exact .refl _
  dsimp only
  refine .trans ?_ (hgUpdate_kept ..)
  refine .trans ?_ (raise_kept ..)
  refine .trans ?_ (cqWrite_kept ..)
  refine .trans ?_ (hwSet_kept ..)
  refine .of ?_ rfl id id id
  exact .refl _

theorem execCompletionWrite_kept {k : Slot} {s : State} {u : State} (h : execCompletionWrite k s = .next u) :
    Kept s u := by
  injection h with h
  subst h
  exact completionWrite_kept ..

theorem execNop_kept {k : Slot} {s : State} {u : State} (h : execNop k s = .next u) : Kept s u := by
  injection h with h
  subst h
  refine .trans ?_ (runShort_kept _ _ _ _ (fun c s => ?_) _)
  exact .refl _
  exact done_kept ..

theorem execQuery_kept {k : Slot} {s : State} {u : State} (h : execQuery k s = .next u) : Kept s u := by
  injection h with h
  subst h
  refine .trans ?_ (runShort_kept _ _ _ _ (fun c s => ?_) _)
  exact .refl _
  exact done_kept ..

theorem execImageLoad_kept {k : Slot} {pass1 : HostRead} {pass2 : HostRead} {s : State} {u : State} (h : execImageLoad k pass1 pass2 s = .next u) :
    Kept s u := by
  injection h with h
  subst h
  refine .trans ?_ (runShort_kept _ _ _ _ (fun c s => ?_) _)
  exact .refl _
  exact imageLoad_kept ..

theorem execImageActivate_kept {k : Slot} {s : State} {u : State} (h : execImageActivate k s = .next u) :
    Kept s u := by
  injection h with h
  subst h
  refine .trans ?_ (runShort_kept _ _ _ _ (fun c s => ?_) _)
  exact .refl _
  exact imageActivate_kept ..

theorem execPatchApply_kept {k : Slot} {patch : HostRead} {s : State} {u : State} (h : execPatchApply k patch s = .next u) :
    Kept s u := by
  injection h with h
  subst h
  refine .trans ?_ (runShort_kept _ _ _ _ (fun c s => ?_) _)
  exact .refl _
  exact patchApply_kept ..

theorem execCoefWrite_kept {k : Slot} {s : State} {u : State} (h : execCoefWrite k s = .next u) : Kept s u := by
  injection h with h
  subst h
  refine .trans ?_ (runShort_kept _ _ _ _ (fun c s => ?_) _)
  exact .refl _
  exact coefCommand_kept ..

theorem execSetpoint_kept {k : Slot} {s : State} {u : State} (h : execSetpoint k s = .next u) : Kept s u := by
  injection h with h
  subst h
  refine .trans ?_ (runShort_kept _ _ _ _ (fun c s => ?_) _)
  exact .refl _
  exact setpointCommand_kept ..

theorem execArm_kept {k : Slot} {s : State} {u : State} (h : execArm k s = .next u) : Kept s u := by
  injection h with h
  subst h
  refine .trans ?_ (runShort_kept _ _ _ _ (fun c s => ?_) _)
  exact .refl _
  exact armCommand_kept ..

theorem execDisarm_kept {k : Slot} {s : State} {u : State} (h : execDisarm k s = .next u) : Kept s u := by
  injection h with h
  subst h
  refine .trans ?_ (runShort_kept _ _ _ _ (fun c s => ?_) _)
  exact .refl _
  exact disarmCommand_kept ..

theorem execRearm_kept {k : Slot} {s : State} {u : State} (h : execRearm k s = .next u) : Kept s u := by
  injection h with h
  subst h
  refine .trans ?_ (runCmd_kept _ _ _ _ (fun c s => ?_) (fun c s => ?_) _)
  exact .refl _
  exact rearmCommand_kept ..
  exact rearmOn_kept ..

theorem execLinkEnum_kept {k : Slot} {s : State} {u : State} (h : execLinkEnum k s = .next u) : Kept s u := by
  injection h with h
  subst h
  refine .trans ?_ (runShort_kept _ _ _ _ (fun c s => ?_) _)
  exact .refl _
  exact linkEnum_kept ..

theorem execLinkRole_kept {k : Slot} {s : State} {u : State} (h : execLinkRole k s = .next u) : Kept s u := by
  injection h with h
  subst h
  refine .trans ?_ (runShort_kept _ _ _ _ (fun c s => ?_) _)
  exact .refl _
  exact linkRole_kept ..

theorem execLinkSend_kept {k : Slot} {payload : HostRead} {s : State} {u : State} (h : execLinkSend k payload s = .next u) :
    Kept s u := by
  injection h with h
  subst h
  refine .trans ?_ (runShort_kept _ _ _ _ (fun c s => ?_) _)
  exact .refl _
  exact linkSend_kept ..

theorem execLedgerRead_kept {k : CopySlot} {s : State} {u : State} (h : execLedgerRead k s = .next u) : Kept s u := by
  injection h with h
  subst h
  refine .trans ?_ (runShort_kept _ _ _ _ (fun c s => ?_) _)
  exact .refl _
  exact ledgerRead_kept ..

theorem execLedgerBind_kept {k : Slot} {s : State} {u : State} (h : execLedgerBind k s = .next u) : Kept s u := by
  injection h with h
  subst h
  refine .trans ?_ (runShort_kept _ _ _ _ (fun c s => ?_) _)
  exact .refl _
  exact ledgerBindCommand_kept ..

theorem execNvmErase_kept {k : Slot} {s : State} {u : State} (h : execNvmErase k s = .next u) : Kept s u := by
  injection h with h
  subst h
  refine .trans ?_ (runShort_kept _ _ _ _ (fun c s => ?_) _)
  exact .refl _
  exact nvmErase_kept ..

theorem execNvmProgram_kept {k : Slot} {src : HostRead} {s : State} {u : State} (h : execNvmProgram k src s = .next u) :
    Kept s u := by
  injection h with h
  subst h
  refine .trans ?_ (runShort_kept _ _ _ _ (fun c s => ?_) _)
  exact .refl _
  exact nvmProgram_kept ..

theorem execNvmRead_kept {k : CopySlot} {s : State} {u : State} (h : execNvmRead k s = .next u) : Kept s u := by
  injection h with h
  subst h
  refine .trans ?_ (runShort_kept _ _ _ _ (fun c s => ?_) _)
  exact .refl _
  exact nvmRead_kept ..

theorem execBistRun_kept {k : Slot} {s : State} {u : State} (h : execBistRun k s = .next u) : Kept s u := by
  injection h with h
  subst h
  refine .trans ?_ (runCmd_kept _ _ _ _ (fun c s => ?_) (fun c s => ?_) _)
  exact .refl _
  exact bistRun_kept ..
  exact bistOnward_kept ..

theorem execDebugPolicy_kept {k : Slot} {s : State} {u : State} (h : execDebugPolicy k s = .next u) : Kept s u := by
  injection h with h
  subst h
  refine .trans ?_ (runShort_kept _ _ _ _ (fun c s => ?_) _)
  exact .refl _
  exact debugPolicy_kept ..

theorem execLogicBistDone_kept {misr : U64} {s : State} {u : State} (h : execLogicBistDone misr s = .next u) :
    Kept s u := by
  injection h with h
  subst h
  exact logicDone_kept ..

theorem execMemoryBistDone_kept {misr : U64} {mfail : BitVec 8} {ms : BitVec 8} {s : State} {u : State} (h : execMemoryBistDone misr mfail ms s = .next u) :
    Kept s u := by
  injection h with h
  subst h
  exact memoryDone_kept ..

theorem execPostBistReset_kept {s : State} {u : State} (h : execPostBistReset s = .next u) : Kept s u := by
  injection h with h
  subst h
  exact postBist_kept ..

theorem execDbist_kept {v : U32} {s : State} {u : State} (h : execDbist v s = .next u) : Kept s u := by
  injection h with h
  subst h
  exact writeSpace_kept ..

theorem execPostlStage_kept {w : Who} {n : Fin 96} {v : U32} {s : State} {u : State} (h : execPostlStage w n v s = .next u) :
    Kept s u := by
  injection h with h
  subst h
  refine regCommand_kept _ _ ?_
  dsimp only
  exact stagePostl_kept ..

theorem execPosthPost_kept {w : Who} {n : Fin 96} {v : U32} {s : State} {u : State} (h : execPosthPost w n v s = .next u) :
    Kept s u := by
  injection h with h
  subst h
  refine regCommand_kept _ _ ?_
  dsimp only
  exact writePosth_kept ..

theorem execEntryMove_kept {n : Fin 96} {s : State} {u : State} (h : execEntryMove n s = .next u) : Kept s u := by
  injection h with h
  subst h
  refine inCore_kept ?_
  exact entryMove_kept ..

theorem execEdgeRetire_kept {n : Fin 96} {s : State} {u : State} (h : execEdgeRetire n s = .next u) : Kept s u := by
  injection h with h
  subst h
  refine inCore_kept ?_
  exact edgeRetire_kept ..

theorem execHoldRetire_kept {n : Fin 96} {s : State} {u : State} (h : execHoldRetire n s = .next u) : Kept s u := by
  injection h with h
  subst h
  refine inCore_kept ?_
  exact holdRetire_kept ..

theorem execFlush_kept {w : Who} {n : Fin 96} {s : State} {u : State} (h : execFlush w n s = .next u) : Kept s u := by
  injection h with h
  subst h
  refine regCommand_kept _ _ ?_
  dsimp only
  exact flushOut_kept ..

theorem execOwnerWrite_kept {w : Who} {n : Fin 96} {v : BitVec 2} {s : State} {u : State} (h : execOwnerWrite w n v s = .next u) :
    Kept s u := by
  injection h with h
  subst h
  refine regCommand_kept _ _ ?_
  dsimp only
  exact writeOwner_kept ..

theorem execStaticLevelWrite_kept {w : Who} {n : Fin 96} {v : Bool} {s : State} {u : State} (h : execStaticLevelWrite w n v s = .next u) :
    Kept s u := by
  injection h with h
  subst h
  refine regCommand_kept _ _ ?_
  dsimp only
  exact writeLvl_kept ..

theorem execOutputEnableWrite_kept {w : Who} {n : Fin 96} {v : Bool} {s : State} {u : State} (h : execOutputEnableWrite w n v s = .next u) :
    Kept s u := by
  injection h with h
  subst h
  refine regCommand_kept _ _ ?_
  dsimp only
  exact writeOen_kept ..

theorem execOutputEnableRaise_kept {n : Fin 96} {s : State} {u : State} (h : execOutputEnableRaise n s = .next u) :
    Kept s u := by
  injection h with h
  subst h
  refine inCore_kept ?_
  refine .ite ?_ ?_
  exact State.modOut_kept ..
  exact .refl _

theorem execPairWrite_kept {w : Who} {n : Fin 96} {v : Bool} {s : State} {u : State} (h : execPairWrite w n v s = .next u) :
    Kept s u := by
  injection h with h
  subst h
  refine regCommand_kept _ _ ?_
  dsimp only
  exact writePair_kept ..

theorem execCalibrationUpdate_kept {rawtap : BitVec 8} {trkerr : Bool} {s : State} {u : State} (h : execCalibrationUpdate rawtap trkerr s = .next u) :
    Kept s u := by
  injection h with h
  subst h
  refine inCore_kept ?_
  refine .ite ?_ ?_
  refine .trans ?_ (applyTaps_kept ..)
  refine .trans ?_ (hwSetIf_kept ..)
  refine .of ?_ rfl id id id
  exact .refl _
  exact .refl _

theorem execFlumeArm_kept {w : Who} {n : Fin 32} {v : U32} {s : State} {u : State} (h : execFlumeArm w n v s = .next u) :
    Kept s u := by
  injection h with h
  subst h
  refine regCommand_kept _ _ ?_
  dsimp only
  exact writeFlCtl_kept ..

theorem execFlumeDisarm_kept {w : Who} {n : Fin 32} {v : U32} {s : State} {u : State} (h : execFlumeDisarm w n v s = .next u) :
    Kept s u := by
  injection h with h
  subst h
  refine regCommand_kept _ _ ?_
  dsimp only
  exact writeFlCtl_kept ..

theorem execFlumeConfigWrite_kept {w : Who} {n : Fin 32} {r : FlumeReg} {v : U32} {s : State} {u : State} (h : execFlumeConfigWrite w n r v s = .next u) :
    Kept s u := by
  injection h with h
  subst h
  refine regCommand_kept _ _ ?_
  dsimp only
  exact writeFlReg_kept ..

theorem execPendingBankWrite_kept {w : Who} {n : Fin 32} {v : U32} {s : State} {u : State} (h : execPendingBankWrite w n v s = .next u) :
    Kept s u := by
  injection h with h
  subst h
  refine regCommand_kept _ _ ?_
  dsimp only
  exact writePbdata_kept ..

theorem execPbdataRead_kept {w : Who} {n : Fin 32} {s : State} {u : State} (h : execPbdataRead w n s = .next u) :
    Kept s u := by
  injection h with h
  subst h
  exact readRow_kept ..

theorem execBankSeal_kept {w : Who} {n : Fin 32} {v : U32} {s : State} {u : State} (h : execBankSeal w n v s = .next u) :
    Kept s u := by
  injection h with h
  subst h
  refine regCommand_kept _ _ ?_
  dsimp only
  exact flWrite_kept ..

theorem execCarrierBoundary_kept {n : Fin 32} {s : State} {u : State} (h : execCarrierBoundary n s = .next u) :
    Kept s u := by
  injection h with h
  subst h
  refine inCore_kept ?_
  exact withBoundary_kept ..

theorem execWindowCloseMiss_kept {n : Fin 32} {s : State} {u : State} (h : execWindowCloseMiss n s = .next u) :
    Kept s u := by
  injection h with h
  subst h
  refine inCore_kept ?_
  refine .ite ?_ ?_
  dsimp only
  refine .ite ?_ ?_
  refine .trans ?_ (finish_kept ..)
  refine .trans ?_ (flFlag_kept ..)
  refine .trans ?_ (gateFlag_kept ..)
  exact State.modFl_kept ..
  refine .ite ?_ ?_
  refine .trans ?_ (flFlag_kept ..)
  refine .trans ?_ (gateFlag_kept ..)
  exact State.modFl_kept ..
  refine .trans ?_ (startAction_kept ..)
  refine .trans ?_ (flFlag_kept ..)
  refine .trans ?_ (gateFlag_kept ..)
  exact State.modFl_kept ..
  exact .refl _

theorem execCrossingFallback_kept {n : Fin 32} {s : State} {u : State} (h : execCrossingFallback n s = .next u) :
    Kept s u := by
  injection h with h
  subst h
  refine inCore_kept ?_
  refine .ite ?_ ?_
  dsimp only
  refine .trans ?_ (commit_kept ..)
  refine .trans ?_ (flFlag_kept ..)
  refine .trans ?_ (gateFlag_kept ..)
  refine .trans ?_ (State.modFl_kept ..)
  refine .trans ?_ (dropActs_kept ..)
  exact withBoundary_kept ..
  exact .refl _

theorem execMailboxRead_kept {w : Who} {n : Fin 32} {m : Mailbox} {s : State} {u : State} (h : execMailboxRead w n m s = .next u) :
    Kept s u := by
  injection h with h
  subst h
  exact readRow_kept ..

theorem execSmpctlWrite_kept {w : Who} {v : U32} {s : State} {u : State} (h : execSmpctlWrite w v s = .next u) :
    Kept s u := by
  injection h with h
  subst h
  refine regCommand_kept _ _ ?_
  dsimp only
  exact smpctlWrite_kept ..

theorem execTimerTick_kept {n : Fin 32} {s : State} {u : State} (h : execTimerTick n s = .next u) : Kept s u := by
  injection h with h
  subst h
  refine inCore_kept ?_
  refine .ite ?_ ?_
  exact timerTick_kept ..
  exact .refl _

theorem execTimerWrap_kept {n : Fin 32} {s : State} {u : State} (h : execTimerWrap n s = .next u) : Kept s u := by
  injection h with h
  subst h
  refine inCore_kept ?_
  refine .ite ?_ ?_
  exact timerTick_kept ..
  exact .refl _

theorem execCompareMatch_kept {n : Fin 32} {ch : Chan} {s : State} {u : State} (h : execCompareMatch n ch s = .next u) :
    Kept s u := by
  injection h with h
  subst h
  refine inCore_kept ?_
  refine .ite ?_ ?_
  exact compareMatch_kept ..
  exact .refl _

theorem execTimerTrigger_kept {n : Fin 32} {s : State} {u : State} (h : execTimerTrigger n s = .next u) :
    Kept s u := by
  injection h with h
  subst h
  refine inCore_kept ?_
  refine .ite ?_ ?_
  dsimp only
  refine .ite ?_ ?_
  refine .trans ?_ (timerStart_kept ..)
  refine .ite ?_ ?_
  refine .trans ?_ (timerRestart_kept ..)
  exact State.modTmr_kept ..
  exact State.modTmr_kept ..
  refine .ite ?_ ?_
  refine .trans ?_ (timerRestart_kept ..)
  exact State.modTmr_kept ..
  exact State.modTmr_kept ..
  exact .refl _

theorem execTimerStart_kept {w : Who} {n : Fin 32} {s : State} {u : State} (h : execTimerStart w n s = .next u) :
    Kept s u := by
  injection h with h
  subst h
  refine regCommand_kept _ _ ?_
  dsimp only
  exact writeRun_kept ..

theorem execTimerStop_kept {w : Who} {n : Fin 32} {s : State} {u : State} (h : execTimerStop w n s = .next u) :
    Kept s u := by
  injection h with h
  subst h
  refine regCommand_kept _ _ ?_
  dsimp only
  exact writeRun_kept ..

theorem execCntWrite_kept {w : Who} {n : Fin 32} {v : U32} {s : State} {u : State} (h : execCntWrite w n v s = .next u) :
    Kept s u := by
  injection h with h
  subst h
  refine regCommand_kept _ _ ?_
  dsimp only
  exact writeCnt_kept ..

theorem execPreloadWrite_kept {x0 : Fin 16} {n : Fin 32} {r : TimerReg} {v : U32} {s : State} {u : State} (h : execPreloadWrite x0 n r v s = .next u) :
    Kept s u := by
  injection h with h
  subst h
  refine inCore_kept ?_
  exact writePreload_kept ..

theorem execLiveWrite_kept {w : Who} {n : Fin 32} {r : TimerReg} {v : U32} {s : State} {u : State} (h : execLiveWrite w n r v s = .next u) :
    Kept s u := by
  injection h with h
  subst h
  refine regCommand_kept _ _ ?_
  dsimp only
  exact writeTimerReg_kept ..

theorem execCapture_kept {n : Fin 32} {s : State} {u : State} (h : execCapture n s = .next u) : Kept s u := by
  injection h with h
  subst h
  refine inCore_kept ?_
  refine .ite ?_ ?_
  exact capture_kept ..
  exact .refl _

theorem execCapRead_kept {w : Who} {n : Fin 32} {s : State} {u : State} (h : execCapRead w n s = .next u) :
    Kept s u := by
  injection h with h
  subst h
  exact readRow_kept ..

theorem execAtenArm_kept {w : Who} {n : Fin 32} {s : State} {u : State} (h : execAtenArm w n s = .next u) :
    Kept s u := by
  injection h with h
  subst h
  refine regCommand_kept _ _ ?_
  dsimp only
  exact writeAten_kept ..

theorem execGaugeTimedStart_kept {n : Fin 32} {s : State} {u : State} (h : execGaugeTimedStart n s = .next u) :
    Kept s u := by
  injection h with h
  subst h
  refine inCore_kept ?_
  refine .ite ?_ ?_
  refine .trans ?_ (State.modTmr_kept ..)
  refine .trans ?_ (timerStart_kept ..)
  exact timerRestart_kept ..
  exact .refl _

theorem execRiderTurn_kept {n : Fin 32} {s : State} {u : State} (h : execRiderTurn n s = .next u) : Kept s u := by
  injection h with h
  subst h
  refine inCore_kept ?_
  refine .ite ?_ ?_
  exact riderTurn_kept ..
  exact .refl _

theorem execRiderBr_kept {n : Fin 32} {s : State} {u : State} (h : execRiderBr n s = .next u) : Kept s u := by
  injection h with h
  subst h
  refine inCore_kept ?_
  split
  dsimp only
  refine .trans ?_ (complete_kept ..)
  refine .ite ?_ ?_
  exact State.modRch_kept ..
  exact .refl _
  exact .refl _

theorem execLoop_kept {n : Fin 32} {s : State} {u : State} (h : execLoop n s = .next u) : Kept s u := by
  injection h with h
  subst h
  refine inCore_kept ?_
  split
  dsimp only
  refine .trans ?_ (complete_kept ..)
  exact State.modRch_kept ..
  exact .refl _

theorem execShift_kept {n : Fin 32} {s : State} {u : State} (h : execShift n s = .next u) : Kept s u := by
  injection h with h
  subst h
  refine inCore_kept ?_
  split
  dsimp only
  refine .ite ?_ ?_
  refine .trans ?_ (fillOsr_kept ..)
  exact State.modRch_kept ..
  refine .trans ?_ (setPhase_kept ..)
  exact State.modRch_kept ..
  exact .refl _

theorem execWaitpin_kept {n : Fin 32} {s : State} {u : State} (h : execWaitpin n s = .next u) : Kept s u := by
  injection h with h
  subst h
  refine inCore_kept ?_
  split
  refine .ite ?_ ?_
  exact complete_kept ..
  exact setPhase_kept ..
  exact .refl _

theorem execWaitt_kept {n : Fin 32} {s : State} {u : State} (h : execWaitt n s = .next u) : Kept s u := by
  injection h with h
  subst h
  refine inCore_kept ?_
  split
  exact setPhase_kept ..
  exact .refl _

theorem execSetat_kept {n : Fin 32} {s : State} {u : State} (h : execSetat n s = .next u) : Kept s u := by
  injection h with h
  subst h
  refine inCore_kept ?_
  split
  dsimp only
  refine .ite ?_ ?_
  refine .trans ?_ (setatDo_kept ..)
  exact State.modRch_kept ..
  exact State.modRch_kept ..
  exact .refl _

theorem execLd_kept {n : Fin 32} {s : State} {u : State} (h : execLd n s = .next u) : Kept s u := by
  injection h with h
  subst h
  refine inCore_kept ?_
  split
  dsimp only
  refine .trans ?_ (complete_kept ..)
  exact State.modRch_kept ..
  exact .refl _

theorem execMov_kept {n : Fin 32} {s : State} {u : State} (h : execMov n s = .next u) : Kept s u := by
  injection h with h
  subst h
  refine inCore_kept ?_
  split
  refine .ite ?_ ?_
  exact movDo_kept ..
  exact setPhase_kept ..
  exact .refl _

theorem execSig_kept {n : Fin 32} {s : State} {u : State} (h : execSig n s = .next u) : Kept s u := by
  injection h with h
  subst h
  refine inCore_kept ?_
  split
  dsimp only
  refine .ite ?_ ?_
  refine .trans ?_ (setPhase_kept ..)
  exact rchFlag_kept ..
  refine .trans ?_ (complete_kept ..)
  exact rchFlag_kept ..
  exact .refl _

theorem execRiderInstructionComplete_kept {n : Fin 32} {s : State} {u : State} (h : execRiderInstructionComplete n s = .next u) :
    Kept s u := by
  injection h with h
  subst h
  refine inCore_kept ?_
  refine .ite ?_ ?_
  exact .refl _
  split
  split
  refine .ite ?_ ?_
  refine .ite ?_ ?_
  refine .trans ?_ (complete_kept ..)
  exact State.modRch_kept ..
  exact .refl _
  exact complete_kept ..
  refine .ite ?_ ?_
  exact complete_kept ..
  exact .refl _
  refine .ite ?_ ?_
  exact complete_kept ..
  exact .refl _
  refine .ite ?_ ?_
  exact setatDo_kept ..
  exact .refl _
  refine .ite ?_ ?_
  exact movDo_kept ..
  exact .refl _
  refine .ite ?_ ?_
  exact .refl _
  exact complete_kept ..
  exact .refl _
  exact .refl _

theorem execSetatFire_kept {n : Fin 32} {s : State} {u : State} (h : execSetatFire n s = .next u) : Kept s u := by
  injection h with h
  subst h
  refine inCore_kept ?_
  refine .ite ?_ ?_
  exact .refl _
  split
  split
  exact setatFire_kept ..
  exact .refl _
  exact .refl _

theorem execTxdPush_kept {w : Who} {n : Fin 32} {v : U32} {s : State} {u : State} (h : execTxdPush w n v s = .next u) :
    Kept s u := by
  injection h with h
  subst h
  refine regCommand_kept _ _ ?_
  dsimp only
  exact pushTx_kept ..

theorem execRxdRead_kept {w : Who} {n : Fin 32} {s : State} {u : State} (h : execRxdRead w n s = .next u) :
    Kept s u := by
  injection h with h
  subst h
  exact readRow_kept ..

theorem execInjection_kept {w : Who} {n : Fin 32} {v : U32} {s : State} {u : State} (h : execInjection w n v s = .next u) :
    Kept s u := by
  injection h with h
  subst h
  refine regCommand_kept _ _ ?_
  dsimp only
  exact writeInj_kept ..

theorem execProgramMemoryWrite_kept {w : Who} {i : BitVec 11} {v : U32} {s : State} {u : State} (h : execProgramMemoryWrite w i v s = .next u) :
    Kept s u := by
  injection h with h
  subst h
  refine regCommand_kept _ _ ?_
  dsimp only
  exact writeProg_kept ..

theorem execChannelRun_kept {w : Who} {n : Fin 32} {v : U32} {s : State} {u : State} (h : execChannelRun w n v s = .next u) :
    Kept s u := by
  injection h with h
  subst h
  refine regCommand_kept _ _ ?_
  dsimp only
  exact writeRchCtl_kept ..

theorem execChannelStop_kept {w : Who} {n : Fin 32} {v : U32} {s : State} {u : State} (h : execChannelStop w n v s = .next u) :
    Kept s u := by
  injection h with h
  subst h
  refine regCommand_kept _ _ ?_
  dsimp only
  exact writeRchCtl_kept ..

theorem execChannelReset_kept {w : Who} {n : Fin 32} {v : U32} {s : State} {u : State} (h : execChannelReset w n v s = .next u) :
    Kept s u := by
  injection h with h
  subst h
  refine regCommand_kept _ _ ?_
  dsimp only
  exact writeRchCtl_kept ..

theorem execPinMapWrite_kept {w : Who} {n : Fin 32} {hi : Bool} {v : U32} {s : State} {u : State} (h : execPinMapWrite w n hi v s = .next u) :
    Kept s u := by
  injection h with h
  subst h
  refine regCommand_kept _ _ ?_
  dsimp only
  exact writeMap_kept ..

theorem execSyncArm_kept {w : Who} {v : U32} {s : State} {u : State} (h : execSyncArm w v s = .next u) :
    Kept s u := by
  injection h with h
  subst h
  refine regCommand_kept _ _ ?_
  dsimp only
  exact writeRider_kept ..

theorem execSynchronisedStart_kept {s : State} {u : State} (h : execSynchronisedStart s = .next u) : Kept s u := by
  injection h with h
  subst h
  refine inCore_kept ?_
  refine .ite ?_ ?_
  exact syncStart_kept ..
  exact .refl _

theorem execCulvertStart_kept {w : Who} {n : Fin 16} {v : U32} {s : State} {u : State} (h : execCulvertStart w n v s = .next u) :
    Kept s u := by
  injection h with h
  subst h
  refine regCommand_kept _ _ ?_
  dsimp only
  exact writeCulCtl_kept ..

theorem execDescriptorLoad_kept {n : Fin 16} {resp : HostRead} {s : State} {u : State} (h : execDescriptorLoad n resp s = .next u) :
    Kept s u := by
  injection h with h
  subst h
  refine inCore_kept ?_
  exact fetchDesc_kept ..

theorem execCulvertTrigger_kept {n : Fin 16} {s : State} {u : State} (h : execCulvertTrigger n s = .next u) :
    Kept s u := by
  injection h with h
  subst h
  refine inCore_kept ?_
  dsimp only
  refine .ite ?_ ?_
  exact .refl _
  refine .trans ?_ (hwSetIf_kept ..)
  exact State.modCul_kept ..

theorem execBurstGrant_kept {s : State} {u : State} (h : execBurstGrant s = .next u) : Kept s u := by
  injection h with h
  subst h
  refine inCore_kept ?_
  split
  exact grantBurst_kept ..
  exact .refl _

theorem execBurstComplete_kept {n : Fin 16} {resp : HostRead} {writeError : Option (Fin 16)} {s : State} {u : State} (h : execBurstComplete n resp writeError s = .next u) :
    Kept s u := by
  injection h with h
  subst h
  refine inCore_kept ?_
  exact completeBurst_kept ..

theorem execDescriptorComplete_kept {n : Fin 16} {s : State} {u : State} (h : execDescriptorComplete n s = .next u) :
    Kept s u := by
  injection h with h
  subst h
  refine inCore_kept ?_
  exact completeDesc_kept ..

theorem execCulvertError_kept {n : Fin 16} {code : BitVec 4} {s : State} {u : State} (h : execCulvertError n code s = .next u) :
    Kept s u := by
  injection h with h
  subst h
  refine inCore_kept ?_
  dsimp only
  refine .ite ?_ ?_
  exact culStop_kept ..
  exact .refl _

theorem execCulvertPause_kept {w : Who} {n : Fin 16} {v : U32} {s : State} {u : State} (h : execCulvertPause w n v s = .next u) :
    Kept s u := by
  injection h with h
  subst h
  refine regCommand_kept _ _ ?_
  dsimp only
  exact writeCulCtl_kept ..

theorem execPauseDrained_kept {n : Fin 16} {s : State} {u : State} (h : execPauseDrained n s = .next u) :
    Kept s u := by
  injection h with h
  subst h
  refine inCore_kept ?_
  dsimp only
  refine .ite ?_ ?_
  exact State.modCul_kept ..
  exact .refl _

theorem execCulvertResume_kept {w : Who} {n : Fin 16} {v : U32} {s : State} {u : State} (h : execCulvertResume w n v s = .next u) :
    Kept s u := by
  injection h with h
  subst h
  refine regCommand_kept _ _ ?_
  dsimp only
  exact writeCulCtl_kept ..

theorem execCulvertAbort_kept {w : Who} {n : Fin 16} {v : U32} {s : State} {u : State} (h : execCulvertAbort w n v s = .next u) :
    Kept s u := by
  injection h with h
  subst h
  refine regCommand_kept _ _ ?_
  dsimp only
  exact writeCulCtl_kept ..

theorem execEventRecordWritten_kept {s : State} {u : State} (h : execEventRecordWritten s = .next u) : Kept s u := by
  injection h with h
  subst h
  refine inCore_kept ?_
  refine .ite ?_ ?_
  exact .refl _
  refine .trans ?_ (raise_kept ..)
  exact .of (.refl _) rfl id id id

theorem execClaim_kept {w : Who} {t : Fin 8} {s : State} {u : State} (h : execClaim w t s = .next u) : Kept s u := by
  injection h with h
  subst h
  exact readRow_kept ..

theorem execComplete_kept {w : Who} {t : Fin 8} {v : U32} {s : State} {u : State} (h : execComplete w t v s = .next u) :
    Kept s u := by
  injection h with h
  subst h
  refine regCommand_kept _ _ ?_
  dsimp only
  exact completeWrite_kept ..

theorem execTdpoll_kept {n : Fin 16} {s : State} {u : State} (h : execTdpoll n s = .next u) : Kept s u := by
  injection h with h
  subst h
  exact readRow_kept ..

theorem execSwev_kept {w : Who} {v : U32} {s : State} {u : State} (h : execSwev w v s = .next u) : Kept s u := by
  injection h with h
  subst h
  refine regCommand_kept _ _ ?_
  dsimp only
  exact swevWrite_kept ..

theorem execSourceConfigWrite_kept {w : Who} {k : Fin 512} {v : U32} {s : State} {u : State} (h : execSourceConfigWrite w k v s = .next u) :
    Kept s u := by
  injection h with h
  subst h
  refine regCommand_kept _ _ ?_
  dsimp only
  exact sourceConfig_kept ..

theorem execScondset_kept {w : Who} {v : U32} {s : State} {u : State} (h : execScondset w v s = .next u) :
    Kept s u := by
  injection h with h
  subst h
  refine regCommand_kept _ _ ?_
  dsimp only
  exact writeScond_kept ..

theorem execScondclr_kept {w : Who} {v : U32} {s : State} {u : State} (h : execScondclr w v s = .next u) :
    Kept s u := by
  injection h with h
  subst h
  refine regCommand_kept _ _ ?_
  dsimp only
  exact writeScond_kept ..

theorem execLaneDetectLock_kept {l : Fin 4} {inverted : Bool} {s : State} {u : State} (h : execLaneDetectLock l inverted s = .next u) :
    Kept s u := by
  injection h with h
  subst h
  exact laneDetect_kept ..

theorem execTrainingReady_kept {l : Fin 4} {far : FarEnd} {ffe : BitVec 18} {s : State} {u : State} (h : execTrainingReady l far ffe s = .next u) :
    Kept s u := by
  injection h with h
  subst h
  exact trainReady_kept ..

theorem execPortUp_kept {p : Fin 4} {aseq : BitVec 8} {lidx : BitVec 8} {skew : U32} {s : State} {u : State} (h : execPortUp p aseq lidx skew s = .next u) :
    Kept s u := by
  injection h with h
  subst h
  exact portComesUp_kept ..

theorem execTrainingTimeout_kept {l : Fin 4} {s : State} {u : State} (h : execTrainingTimeout l s = .next u) :
    Kept s u := by
  injection h with h
  subst h
  exact trainingTimeout_kept ..

theorem execLossOfLock_kept {p : Fin 4} {s : State} {u : State} (h : execLossOfLock p s = .next u) : Kept s u := by
  injection h with h
  subst h
  exact lossOfLock_kept ..

theorem execRetrain_kept {w : Who} {l : Fin 4} {v : U32} {s : State} {u : State} (h : execRetrain w l v s = .next u) :
    Kept s u := by
  injection h with h
  subst h
  refine regCommand_kept _ _ ?_
  dsimp only
  exact writeLaneCtl_kept ..

theorem execLaneGroupWrite_kept {w : Who} {v : U32} {s : State} {u : State} (h : execLaneGroupWrite w v s = .next u) :
    Kept s u := by
  injection h with h
  subst h
  refine regCommand_kept _ _ ?_
  dsimp only
  exact writeLnkcfg_kept ..

theorem execCodewordReceive_kept {p : Fin 4} {bits : BitVec 680} {s : State} {u : State} (h : execCodewordReceive p bits s = .next u) :
    Kept s u := by
  injection h with h
  subst h
  exact codewordReceive_kept ..

theorem execCodewordSend_kept {p : Fin 4} {s : State} {u : State} (h : execCodewordSend p s = .next u) :
    Kept s u := by
  injection h with h
  subst h
  exact codewordSend_kept ..

theorem execOrderedSetReceive_kept {p : Fin 4} {sub : BitVec 6} {c0 : U64} {c1 : U64} {c2 : U64} {c3 : U64} {s : State} {u : State} (h : execOrderedSetReceive p sub c0 c1 c2 c3 s = .next u) :
    Kept s u := by
  injection h with h
  subst h
  exact orderedSet_kept ..

theorem execAlignSend_kept {p : Fin 4} {s : State} {u : State} (h : execAlignSend p s = .next u) : Kept s u := by
  injection h with h
  subst h
  exact alignSend_kept ..

theorem execShutOrderReceive_kept {p : Fin 4} {origin : BitVec 14} {seq : BitVec 8} {hops : BitVec 5} {s : State} {u : State} (h : execShutOrderReceive p origin seq hops s = .next u) :
    Kept s u := by
  injection h with h
  subst h
  exact shutOrder_kept ..

theorem execTrickleLock_kept {s : State} {u : State} (h : execTrickleLock s = .next u) : Kept s u := by
  injection h with h
  subst h
  exact trickleLock_kept ..

theorem execTimeExchange_kept {p : Fin 4} {sub : BitVec 6} {s : State} {u : State} (h : execTimeExchange p sub s = .next u) :
    Kept s u := by
  injection h with h
  subst h
  exact timeExchange_kept ..

theorem execTimeMarkerReply_kept {p : Fin 4} {sub : BitVec 6} {s : State} {u : State} (h : execTimeMarkerReply p sub s = .next u) :
    Kept s u := by
  injection h with h
  subst h
  exact timeReply_kept ..

theorem execTimeFrameReceive_kept {p : Fin 4} {s : State} {u : State} (h : execTimeFrameReceive p s = .next u) :
    Kept s u := by
  injection h with h
  subst h
  exact timeFrame_kept ..

theorem execAdvSend_kept {s : State} {u : State} (h : execAdvSend s = .next u) : Kept s u := by
  injection h with h
  subst h
  exact advSend_kept ..

theorem execAdv_kept {p : Fin 4} {s : State} {u : State} (h : execAdv p s = .next u) : Kept s u := by
  injection h with h
  subst h
  exact advReceive_kept ..

theorem execMasterElection_kept {s : State} {u : State} (h : execMasterElection s = .next u) : Kept s u := by
  injection h with h
  subst h
  exact masterElection_kept ..

theorem execElectionRestart_kept {s : State} {u : State} (h : execElectionRestart s = .next u) : Kept s u := by
  injection h with h
  subst h
  exact electionRestart_kept ..

theorem execCount_kept {p : Fin 4} {s : State} {u : State} (h : execCount p s = .next u) : Kept s u := by
  injection h with h
  subst h
  exact countReceive_kept ..

theorem execAssign_kept {p : Fin 4} {s : State} {u : State} (h : execAssign p s = .next u) : Kept s u := by
  injection h with h
  subst h
  exact assignReceive_kept ..

theorem execReroute_kept {p : Fin 4} {s : State} {u : State} (h : execReroute p s = .next u) : Kept s u := by
  injection h with h
  subst h
  exact reroute_kept ..

theorem execWake_kept {p : Fin 4} {s : State} {u : State} (h : execWake p s = .next u) : Kept s u := by
  injection h with h
  subst h
  exact wakeFrame_kept ..

theorem execRegreq_kept {p : Fin 4} {s : State} {u : State} (h : execRegreq p s = .next u) : Kept s u := by
  injection h with h
  subst h
  exact regRequest_kept ..

theorem execRegrsp_kept {p : Fin 4} {s : State} {u : State} (h : execRegrsp p s = .next u) : Kept s u := by
  injection h with h
  subst h
  exact regResponse_kept ..

theorem execCresync_kept {p : Fin 4} {s : State} {u : State} (h : execCresync p s = .next u) : Kept s u := by
  injection h with h
  subst h
  exact cresync_kept ..

theorem execCmdFrameReceive_kept {p : Fin 4} {s : State} {u : State} (h : execCmdFrameReceive p s = .next u) :
    Kept s u := by
  injection h with h
  subst h
  exact cmdFrame_kept ..

theorem execReceiveRingWrite_kept {p : Fin 4} {s : State} {u : State} (h : execReceiveRingWrite p s = .next u) :
    Kept s u := by
  injection h with h
  subst h
  refine inCore_kept ?_
  exact receiveRing_kept ..

theorem execSampFrameReceive_kept {p : Fin 4} {s : State} {u : State} (h : execSampFrameReceive p s = .next u) :
    Kept s u := by
  injection h with h
  subst h
  refine inCore_kept ?_
  exact sampFrame_kept ..

theorem execReceiveRingEnable_kept {w : Who} {v : U32} {s : State} {u : State} (h : execReceiveRingEnable w v s = .next u) :
    Kept s u := by
  injection h with h
  subst h
  refine regCommand_kept _ _ ?_
  dsimp only
  exact writeNrxcfg_kept ..

theorem execTemperatureWrite_kept {w : Who} {c : Fin 16} {v : U32} {s : State} {u : State} (h : execTemperatureWrite w c v s = .next u) :
    Kept s u := by
  injection h with h
  subst h
  refine regCommand_kept _ _ ?_
  dsimp only
  exact writeTj_kept ..

theorem execTemperatureProcess_kept {c : Fin 16} {s : State} {u : State} (h : execTemperatureProcess c s = .next u) :
    Kept s u := by
  injection h with h
  subst h
  refine inCore_kept ?_
  refine .ite ?_ ?_
  exact .refl _
  exact processTemp_kept ..

theorem execAgeingTick_kept {s : State} {u : State} (h : execAgeingTick s = .next u) : Kept s u := by
  injection h with h
  subst h
  refine inCore_kept ?_
  refine .ite ?_ ?_
  exact .refl _
  dsimp only
  refine .trans ?_ (.each (fun s k => ?_) _ _)
  exact .of (.refl _) rfl id id id
  exact ageChannel_kept ..

theorem execPersistenceStart_kept {s : State} {u : State} (h : execPersistenceStart s = .next u) : Kept s u := by
  injection h with h
  subst h
  refine inCore_kept ?_
  exact persistStart_kept ..

theorem execPersistenceCommit_kept {s : State} {u : State} (h : execPersistenceCommit s = .next u) : Kept s u := by
  injection h with h
  subst h
  refine inCore_kept ?_
  exact persistCommit_kept ..

theorem execLedgerLoad_kept {w : Who} {v : U32} {s : State} {u : State} (h : execLedgerLoad w v s = .next u) :
    Kept s u := by
  injection h with h
  subst h
  refine regCommand_kept _ _ ?_
  dsimp only
  exact writeLgcfg_kept ..

theorem execLgmdataAccess_kept {w : Who} {v : Option U32} {s : State} {u : State} (h : execLgmdataAccess w v s = .next u) :
    Kept s u := by
  injection h with h
  subst h
  split
  exact readRow_kept ..
  exact lgmdataWrite_kept ..

theorem execDmglRead_kept {w : Who} {c : Fin 16} {s : State} {u : State} (h : execDmglRead w c s = .next u) :
    Kept s u := by
  injection h with h
  subst h
  exact readRow_kept ..

theorem execErasePulseEnd_kept {pass : Bool} {s : State} {u : State} (h : execErasePulseEnd pass s = .next u) :
    Kept s u := by
  injection h with h
  subst h
  refine inCore_kept ?_
  exact erasePulse_kept ..

theorem execProgramPulseEnd_kept {pass : Bool} {s : State} {u : State} (h : execProgramPulseEnd pass s = .next u) :
    Kept s u := by
  injection h with h
  subst h
  refine inCore_kept ?_
  exact programPulse_kept ..

theorem execNvmSuspend_kept {s : State} {u : State} (h : execNvmSuspend s = .next u) : Kept s u := by
  injection h with h
  subst h
  refine inCore_kept ?_
  exact nvmSuspend_kept ..

theorem execNvmResume_kept {s : State} {u : State} (h : execNvmResume s = .next u) : Kept s u := by
  injection h with h
  subst h
  refine inCore_kept ?_
  exact nvmResume_kept ..

theorem execNvmSuspWrite_kept {w : Who} {v : U32} {s : State} {u : State} (h : execNvmSuspWrite w v s = .next u) :
    Kept s u := by
  injection h with h
  subst h
  refine regCommand_kept _ _ ?_
  dsimp only
  exact nvmWrite_kept ..

theorem execNvmcntRead_kept {w : Who} {s : State} {u : State} (h : execNvmcntRead w s = .next u) : Kept s u := by
  injection h with h
  subst h
  exact readRow_kept ..

theorem execHgevlostRead_kept {w : Who} {s : State} {u : State} (h : execHgevlostRead w s = .next u) : Kept s u := by
  injection h with h
  subst h
  exact readRow_kept ..

theorem execCerrRead_kept {w : Who} {l : Fin 4} {s : State} {u : State} (h : execCerrRead w l s = .next u) :
    Kept s u := by
  injection h with h
  subst h
  exact readRow_kept ..

theorem execCodewordCounterRead_kept {w : Who} {p : Fin 4} {which : Fin 3} {s : State} {u : State} (h : execCodewordCounterRead w p which s = .next u) :
    Kept s u := by
  injection h with h
  subst h
  exact readRow_kept ..

theorem execFrdropRead_kept {w : Who} {p : Fin 4} {s : State} {u : State} (h : execFrdropRead w p s = .next u) :
    Kept s u := by
  injection h with h
  subst h
  exact readRow_kept ..

theorem execNetdropRead_kept {w : Who} {s : State} {u : State} (h : execNetdropRead w s = .next u) : Kept s u := by
  injection h with h
  subst h
  exact readRow_kept ..

theorem execNrxlostRead_kept {w : Who} {s : State} {u : State} (h : execNrxlostRead w s = .next u) : Kept s u := by
  injection h with h
  subst h
  exact readRow_kept ..

theorem execRegisterWrite_kept {w : Who} {off : BitVec 20} {v : U32} {strb : BitVec 4} {s : State} {u : State} (h : execRegisterWrite w off v strb s = .next u) :
    Kept s u := by
  injection h with h
  subst h
  refine .ite ?_ ?_
  exact .refl _
  refine .ite ?_ ?_
  refine aoCommand_kept _ _ ?_
  exact busWrite_kept ..
  refine regCommand_kept _ _ ?_
  exact busWrite_kept ..

theorem execStoreWindowWrite_kept {w : Who} {off : BitVec 20} {v : U32} {strb : BitVec 4} {s : State} {u : State} (h : execStoreWindowWrite w off v strb s = .next u) :
    Kept s u := by
  injection h with h
  subst h
  refine .ite ?_ ?_
  refine regCommand_kept _ _ ?_
  exact busWrite_kept ..
  exact .refl _

theorem execGroupApertureAccess_kept {w : Who} {off : BitVec 20} {wr : Option U32} {strb : BitVec 4} {s : State} {u : State} (h : execGroupApertureAccess w off wr strb s = .next u) :
    Kept s u := by
  injection h with h
  subst h
  exact apertureAccess_kept ..

theorem execRd_kept {op : BitVec 4} {addr : BitVec 24} {s : State} {u : State} (h : execRd op addr s = .next u) :
    Kept s u := by
  injection h with h
  subst h
  exact readFrame_kept ..

theorem execWr_kept {op : BitVec 4} {addr : BitVec 24} {v : U32} {crc : BitVec 4} {s : State} {u : State} (h : execWr op addr v crc s = .next u) :
    Kept s u := by
  injection h with h
  subst h
  exact writeFrame_kept ..

theorem execChallenge_kept {v : U32} {noise : U32} {s : State} {u : State} (h : execChallenge v noise s = .next u) :
    Kept s u := by
  injection h with h
  subst h
  refine .trans ?_ (respond_kept ..)
  exact challenge_kept ..

theorem execCheck_kept {s : State} {u : State} (h : execCheck s = .next u) : Kept s u := by
  injection h with h
  subst h
  refine .trans ?_ (respond_kept ..)
  exact checkTag_kept ..

theorem execLockoutExpiry_kept {s : State} {u : State} (h : execLockoutExpiry s = .next u) : Kept s u := by
  injection h with h
  subst h
  exact .of (.refl _) rfl id id id

theorem execDrop_kept {s : State} {u : State} (h : execDrop s = .next u) : Kept s u := by
  injection h with h
  subst h
  refine .trans ?_ (respond_kept ..)
  exact setLevel_kept ..

theorem execDbdataRead_kept {s : State} {u : State} (h : execDbdataRead s = .next u) : Kept s u := by
  injection h with h
  subst h
  exact readDbdata_kept ..

theorem execDbdataWrite_kept {v : U32} {s : State} {u : State} (h : execDbdataWrite v s = .next u) : Kept s u := by
  injection h with h
  subst h
  exact writeDbdata_kept ..

theorem execDebugBusComplete_kept {resp : LoadResp} {s : State} {u : State} (h : execDebugBusComplete resp s = .next u) :
    Kept s u := by
  injection h with h
  subst h
  exact dbComplete_kept ..

theorem execHalt_kept {n : Fin 16} {s : State} {u : State} (h : execHalt n s = .next u) : Kept s u := by
  injection h with h
  subst h
  exact writeSpace_kept ..

theorem execMonitorEntry_kept {n : Fin 16} {s : State} {u : State} (h : execMonitorEntry n s = .next u) :
    Kept s u := by
  injection h with h
  subst h
  refine inCore_kept ?_
  exact monitorEntry_kept ..

theorem execMonitorRequest_kept {n : Fin 16} {s : State} {u : State} (h : execMonitorRequest n s = .next u) :
    Kept s u := by
  injection h with h
  subst h
  exact monitorRequest_kept ..

theorem execResume_kept {n : Fin 16} {s : State} {u : State} (h : execResume n s = .next u) : Kept s u := by
  injection h with h
  subst h
  exact writeSpace_kept ..

theorem execStepEntry_kept {n : Fin 16} {s : State} {u : State} (h : execStepEntry n s = .next u) : Kept s u := by
  injection h with h
  subst h
  refine inCore_kept ?_
  exact stepEntry_kept ..

theorem execFreezeBegin_kept {s : State} {u : State} (h : execFreezeBegin s = .next u) : Kept s u := by
  injection h with h
  subst h
  refine inCore_kept ?_
  exact freezeBegin_kept ..

theorem execThaw_kept {s : State} {u : State} (h : execThaw s = .next u) : Kept s u := by
  injection h with h
  subst h
  refine inCore_kept ?_
  exact thaw_kept ..

theorem execDctlWake_kept {s : State} {u : State} (h : execDctlWake s = .next u) : Kept s u := by
  injection h with h
  subst h
  exact writeSpace_kept ..

theorem execGaugeAdvance_kept {rdrI : U64} {s : State} {u : State} (h : execGaugeAdvance rdrI s = .next u) :
    Kept s u := by
  injection h with h
  subst h
  refine .ite ?_ ?_
  exact gaugeAdvance_kept ..
  exact .refl _

theorem execWatchdogCount_kept {s : State} {u : State} (h : execWatchdogCount s = .next u) : Kept s u := by
  injection h with h
  subst h
  refine inCore_kept ?_
  refine .ite ?_ ?_
  exact .of (.refl _) rfl id id id
  exact .refl _

theorem execTallyCount_kept {s : State} {u : State} (h : execTallyCount s = .next u) : Kept s u := by
  injection h with h
  subst h
  refine .ite ?_ ?_
  refine .ite ?_ ?_
  exact .of (.refl _) rfl id id id
  exact .of (.refl _) rfl id id id
  exact .refl _

theorem execTrickleLockLoss_kept {p : Fin 4} {s : State} {u : State} (h : execTrickleLockLoss p s = .next u) :
    Kept s u := by
  injection h with h
  subst h
  refine .ite ?_ ?_
  exact toDetect_kept ..
  exact .refl _

theorem execPortReturnToIdle_kept {s : State} {u : State} (h : execPortReturnToIdle s = .next u) : Kept s u := by
  injection h with h
  subst h
  exact .of (.refl _) rfl id id id

end Sys2Proof.Machine
end

