-- ==== Sys2Proof/Laws/Ledger.lean ====
section
/-! SUPPORT. What a field of ledger memory reads after a write, and what ageing adds to a record. -/

namespace Sys2Proof.Machine

theorem memRead_congr {m m' : List Host.Cell} {a n : Nat} (h : ∀ i, i < n → memByte m (a + i) = memByte m' (a + i)) :
    memRead m a n = memRead m' a n :=
  List.map_congr_left fun i hi => h i (List.mem_range.mp hi)

theorem memRead_memWrite_other (l : List Byte) {m : List Host.Cell} {a b n : Nat} (h : a + n ≤ b ∨ b + l.length ≤ a) :
    memRead (memWrite m b l) a n = memRead m a n :=
  memRead_congr fun i hi => memByte_memWrite_other l (by omega)

theorem memRead_memWrite (l : List Byte) {m : List Host.Cell} (a : Nat) (hw : Memory.wf 0 m = true) :
    memRead (memWrite m a l) a l.length = l := by
  unfold memRead
  refine List.ext_getElem (by simp) fun i h1 h2 => ?_
  rw [List.getElem_map, List.getElem_range]
  exact memByte_memWrite l a hw h2

theorem bytesLE_length {w : Nat} (v : BitVec w) (n : Nat) : (bytesLE v n).length = n := by simp [bytesLE]

theorem natLE_range (v n : Nat) : natLE ((List.range n).map (fun i => BitVec.ofNat 8 (v / 2 ^ (8 * i)))) = v % 2 ^ (8 * n) := by
  induction n generalizing v with
  | zero => simp [natLE, Nat.mod_one]
  | succ n ih =>
    rw [List.range_succ_eq_map, List.map_cons, List.map_map]
    have e : ((fun i => BitVec.ofNat 8 (v / 2 ^ (8 * i))) ∘ Nat.succ) = fun i => BitVec.ofNat 8 (v / 2 ^ 8 / 2 ^ (8 * i)) := by
      funext i
      show BitVec.ofNat 8 (v / 2 ^ (8 * (i + 1))) = _
      rw [Nat.div_div_eq_div_mul, ← Nat.pow_add, show 8 + 8 * i = 8 * (i + 1) by omega]
    rw [e]
    show natLE _ * 256 + (BitVec.ofNat 8 (v / 2 ^ (8 * 0))).toNat = _
    rw [ih, BitVec.toNat_ofNat, show 8 * 0 = 0 from rfl, Nat.pow_zero, Nat.div_one, show 8 * (n + 1) = 8 + 8 * n by omega, Nat.pow_add,
      Nat.mod_mul]
    omega

theorem natLE_bytesLE (v n : Nat) : natLE (bytesLE (BitVec.ofNat (8 * n) v) n) = v % 2 ^ (8 * n) := by
  rw [← natLE_range v n]
  unfold bytesLE
  congr 1
  refine List.map_congr_left fun i hi => ?_
  have hi := List.mem_range.mp hi
  unfold byteOf
  apply BitVec.eq_of_toNat_eq
  rw [BitVec.extractLsb'_toNat, BitVec.toNat_ofNat, BitVec.toNat_ofNat, Nat.shiftRight_eq_div_pow]
  rw [show 8 * n = 8 * i + (8 + (8 * n - 8 * i - 8)) by omega, Nat.pow_add, Nat.pow_add, Nat.mod_mul_right_div_self,
    Nat.mod_mod_of_dvd _ ⟨_, rfl⟩]

theorem lgGet_lgPut {s : State} (a n v : Nat) (hw : Memory.wf 0 s.mem.ledger = true) : lgGet (lgPut a n v s) a n = v % 2 ^ (8 * n) := by
  unfold lgGet lgPut
  dsimp only
  have := memRead_memWrite (bytesLE (BitVec.ofNat (8 * n) v) n) a hw
  rw [bytesLE_length] at this
  rw [this, natLE_bytesLE]

theorem lgGet_lgPut_other {a b n m : Nat} (v : Nat) (s : State) (h : a + n ≤ b ∨ b + m ≤ a) : lgGet (lgPut b m v s) a n = lgGet s a n := by
  unfold lgGet lgPut
  dsimp only
  rw [memRead_memWrite_other _ (by rw [bytesLE_length]; exact h)]

theorem lgGet_congr {s t : State} (h : t.mem.ledger = s.mem.ledger) (a n : Nat) : lgGet t a n = lgGet s a n := by
  unfold lgGet
  rw [h]

theorem lgFlag_ledger (c b : Nat) (s : State) : (lgFlag c b s).mem.ledger = s.mem.ledger := by
  unfold lgFlag
  dsimp only
  rw [raiseIf_mem, hwSet_mem]
  rfl

theorem drawFree_ledger (n : Nat) (s : State) : (drawFree n s).2.mem.ledger = s.mem.ledger := rfl

/-- Damage goes to bytes 8 to 19 of its record and nowhere else. -/
theorem addDamage_other (c r x : Nat) {a n : Nat} (h : a + n ≤ recAt r + 8 ∨ recAt r + 20 ≤ a) (s : State) :
    lgGet (addDamage c r x s) a n = lgGet s a n := by
  unfold addDamage State.each
  dsimp only
  have step : ∀ (L : List Nat) (d : Nat) (y : State), lgGet (L.foldl (fun s k =>
      if !bit (recFlags s r) k && decide ((thrLg s k).toNat * 2 ^ 36 ≤ d) then
        lgFlag c 0 (putFlags r (setBit (recFlags s r) k true) s)
      else s) y) a n = lgGet y a n := by
    intro L d
    induction L with
    | nil => exact fun _ => rfl
    | cons k L ih =>
      intro y
      rw [List.foldl_cons, ih]
      split
      · rw [lgGet_congr (lgFlag_ledger ..)]
        exact lgGet_lgPut_other _ _ (by omega)
      · rfl
  rw [step]
  split
  · rw [lgGet_lgPut_other _ _ (by omega), lgGet_lgPut_other _ _ (by omega)]
  · refine (lgGet_lgPut_other _ _ (by omega)).trans ((lgGet_lgPut_other _ _ (by omega)).trans ?_)
    exact lgGet_congr (drawFree_ledger ..) ..

theorem addBin_self (c r i h : Nat) {s : State} (hw : Memory.wf 0 s.mem.ledger = true) :
    lgGet (addBin c r i h s) (recAt r + 168 + 4 * i) 4 = min (lgGet s (recAt r + 168 + 4 * i) 4 + h) (2 ^ 32 - 1) := by
  unfold addBin
  dsimp only
  split
  · rw [lgGet_lgPut _ _ _ hw, Nat.mod_eq_of_lt (by omega), Nat.min_eq_left (by omega)]
  · rw [lgGet_congr (lgFlag_ledger ..)]
    refine (lgGet_lgPut_other _ _ (by omega)).trans ?_
    exact (lgGet_lgPut _ _ _ hw).trans ((Nat.mod_eq_of_lt (by decide)).trans (Nat.min_eq_right (by omega)).symm)

/-- A channel that ages adds 1 to its bin, up to the maximum (R744). -/
theorem ageChannel_bin {s : State} {c : Nat} {x : U16} (hl : (s.lgch c).last = some x)
    (ha : ((s.lgch c).en && (s.lgch c).bound && (s.lgch c).mode) = true) (hw : Memory.wf 0 s.mem.ledger = true) :
    lgGet (ageChannel s c) (recAt (s.lgch c).record.toNat + 168 + 4 * tempBin (s.lgch c) x.toInt 511) 4 =
      min (lgGet s (recAt (s.lgch c).record.toNat + 168 + 4 * tempBin (s.lgch c) x.toInt 511) 4 + 1) (2 ^ 32 - 1) := by
  unfold ageChannel
  dsimp only
  rw [hl]
  dsimp only
  rw [if_pos ha, addDamage_other _ _ _ (by omega), addBin_self _ _ _ _ hw]

theorem ageChannel_none {s : State} {c : Nat}
    (h : (s.lgch c).last = none ∨ ((s.lgch c).en && (s.lgch c).bound && (s.lgch c).mode) = false) : ageChannel s c = s := by
  unfold ageChannel
  dsimp only
  rcases h with h | h
  · rw [h]
  · rw [h]
    split
    · rfl
    · rfl

theorem lgFlag_lgch (c b d : Nat) (hd : d ≠ c) (s : State) : (lgFlag c b s).lgch d = s.lgch d := by
  unfold lgFlag
  dsimp only
  unfold State.lgch
  rw [raiseIf_lg, hwSet_lg]
  exact State.lgch_modLg_other s _ hd

theorem addDamage_lgch (c r x d : Nat) (hd : d ≠ c) (s : State) : (addDamage c r x s).lgch d = s.lgch d := by
  unfold addDamage State.each
  dsimp only
  have step : ∀ (L : List Nat) (m : Nat) (y : State), (L.foldl (fun s k =>
      if !bit (recFlags s r) k && decide ((thrLg s k).toNat * 2 ^ 36 ≤ m) then
        lgFlag c 0 (putFlags r (setBit (recFlags s r) k true) s)
      else s) y).lgch d = y.lgch d := by
    intro L m
    induction L with
    | nil => exact fun _ => rfl
    | cons k L ih =>
      intro y
      rw [List.foldl_cons, ih]
      split
      · rw [lgFlag_lgch _ _ _ hd]; rfl
      · rfl
  rw [step]
  split <;> rfl

theorem addBin_lgch (c r i h d : Nat) (hd : d ≠ c) (s : State) : (addBin c r i h s).lgch d = s.lgch d := by
  unfold addBin
  dsimp only
  split
  · rfl
  · rw [lgFlag_lgch _ _ _ hd]; rfl

theorem ageChannel_lgch {c d : Nat} (hd : d ≠ c) (s : State) : (ageChannel s c).lgch d = s.lgch d := by
  unfold ageChannel
  dsimp only
  split
  · split
    · rw [addDamage_lgch _ _ _ _ hd, addBin_lgch _ _ _ _ _ hd]
    · rfl
  · rfl

theorem lgGet_one (s : State) (a : Nat) : lgGet s a 1 = (memByte s.mem.ledger a).toNat := by
  unfold lgGet memRead
  rw [List.range_one, List.map_singleton]
  simp [natLE]

theorem recPos_lgPut (r v : Nat) {s : State} (hw : Memory.wf 0 s.mem.ledger = true) :
    recPos (lgPut (recAt r + 20) 1 v s) r = BitVec.ofNat 8 v := by
  have := lgGet_lgPut (s := s) (recAt r + 20) 1 v hw
  rw [lgGet_one] at this
  apply BitVec.eq_of_toNat_eq
  rw [BitVec.toNat_ofNat]
  exact this

/-- Direction, state and channel of the position byte. -/
theorem recPos_putPos (r : Nat) (ch : BitVec 4) (st dir : BitVec 2) {s : State} (hw : Memory.wf 0 s.mem.ledger = true) :
    recPos (putPos r ch st dir s) r = dir ++ st ++ ch := by
  unfold putPos
  rw [recPos_lgPut _ _ hw]
  simp

theorem recTemp_putPos (r off : Nat) (ch : BitVec 4) (st dir : BitVec 2) (s : State) (h : off + 2 ≤ 20 ∨ 21 ≤ off) :
    recTemp (putPos r ch st dir s) r off = recTemp s r off := by
  unfold recTemp putPos
  rw [lgGet_lgPut_other _ _ (by omega)]

theorem lgPut_wf (a n v : Nat) {s : State} (hw : Memory.wf 0 s.mem.ledger = true) : Memory.wf 0 (lgPut a n v s).mem.ledger = true :=
  memWrite_wf _ _ hw

theorem recTemp_lgPut (r off v : Nat) (x : U16) (hv : v = x.toNat) {s : State} (hw : Memory.wf 0 s.mem.ledger = true) :
    recTemp (lgPut (recAt r + off) 2 v s) r off = x.toInt := by
  unfold recTemp
  rw [lgGet_lgPut _ _ _ hw, hv]
  congr 1
  apply BitVec.eq_of_toNat_eq
  rw [BitVec.toNat_ofNat]
  omega

theorem lgFlag_lgch_self {c : Nat} (b : Nat) (hc : c < 16) (s : State) :
    (lgFlag c b s).lgch c = { s.lgch c with stat := setBit (s.lgch c).stat b true } := by
  unfold lgFlag
  dsimp only
  have : ∀ (q : Bool) (n : Nat) (x : State), (raiseIf q n x).lgch c = x.lgch c := fun q n x => by unfold State.lgch; rw [raiseIf_lg]
  rw [this, hwSet_lgch, State.lgch_modLg _ _ hc]

theorem bit_setBit5 (v : BitVec 5) : bit (setBit v 3 true) 3 = true := by
  revert v
  decide

theorem ofInt_toInt (x : U16) : BitVec.ofInt 16 x.toInt = x := by simp

theorem lgPut_lg (a n v : Nat) (s : State) : (lgPut a n v s).lg = s.lg := rfl

theorem drawFree_lg (n : Nat) (s : State) : (drawFree n s).2.lg = s.lg := rfl

theorem putPos_lg (r : Nat) (ch : BitVec 4) (st dir : BitVec 2) (s : State) : (putPos r ch st dir s).lg = s.lg ∧
    (putPos r ch st dir s).clk = s.clk := ⟨rfl, rfl⟩

/-- What a load leaves (R756). -/
theorem ledgerLoad_leaves (s : State) : (ledgerLoad s).lg.en = s.lg.en ∧ (ledgerLoad s).lg.shutp = s.lg.shutp ∧
    (ledgerLoad s).lg.slpp = s.lg.slpp ∧ (ledgerLoad s).lg.loaded = true ∧ (ledgerLoad s).lg.lastAt = s.clk.gauge ∧
    (ledgerLoad s).lg.skip = 0 ∧
    ∀ c : Fin 16, ((ledgerLoad s).lgch c).bound = false ∧ ((ledgerLoad s).lgch c).last = none ∧
      ((ledgerLoad s).lgch c).tj = none := by
  unfold ledgerLoad
  generalize hp : readCommits (lgAreas s) 0 s = p
  obtain ⟨areas, y⟩ := p
  dsimp only
  have yo : Only [.tur, .nvm, .free] s y := by
    have := readCommits_only (lgAreas s) 0 s
    rw [hp] at this
    exact .mono this
  generalize List.replicate 2304 (0 : Byte) = zeros
  generalize hz : y.each 64 _ = z
  have zl : z.lg.en = y.lg.en ∧ z.lg.shutp = y.lg.shutp ∧ z.lg.slpp = y.lg.slpp ∧ z.clk = y.clk := by
    rw [← hz]
    unfold State.each
    generalize List.range 64 = L
    clear hz hp yo
    induction L generalizing y with
    | nil => exact ⟨rfl, rfl, rfl, rfl⟩
    | cons r L ih =>
      rw [List.foldl_cons]
      have one : ∀ w : State, w.lg.en = y.lg.en → w.lg.shutp = y.lg.shutp → w.lg.slpp = y.lg.slpp → w.clk = y.clk →
          (L.foldl _ w).lg.en = y.lg.en ∧ (L.foldl _ w).lg.shutp = y.lg.shutp ∧ (L.foldl _ w).lg.slpp = y.lg.slpp ∧
            (L.foldl _ w).clk = y.clk := fun w h1 h2 h3 h4 => by
        have := ih w
        rw [h1, h2, h3, h4] at this
        exact this
      have o := loadRecord_only r (bySeq areas) y
      generalize loadRecord r (bySeq areas) y = q at o ⊢
      obtain ⟨a, x⟩ := q
      have ol : x.lg = y.lg := o.lg
      have oc : x.clk = y.clk := o.clk
      cases a with
      | none =>
        dsimp only
        refine one (hwSet _ _ { x with mem := _, lg := _ }) ?_ ?_ ?_ ?_ <;> simp [ol, oc]
      | some l =>
        dsimp only
        generalize hv : ({ x with mem := { x.mem with ledger := memWrite x.mem.ledger (recAt r) l } } : State) = v
        have vl : v.lg = y.lg := by rw [← hv, ← ol]
        have vc : v.clk = y.clk := by rw [← hv, ← oc]
        split
        · have e := putPos_lg r (fd (recPos v r) 0 4) 2 (fd (recPos v r) 6 2) v
          generalize putPos r (fd (recPos v r) 0 4) 2 (fd (recPos v r) 6 2) v = u at e ⊢
          exact one u (by rw [e.1, vl]) (by rw [e.1, vl]) (by rw [e.1, vl]) (e.2.trans vc)
        · exact one v (by rw [vl]) (by rw [vl]) (by rw [vl]) vc
  refine ⟨?_, ?_, ?_, rfl, ?_, rfl, fun c => ?_⟩
  · exact zl.1.trans (by rw [yo.lg])
  · exact zl.2.1.trans (by rw [yo.lg])
  · exact zl.2.2.1.trans (by rw [yo.lg])
  · show z.clk.gauge = _
    rw [zl.2.2.2, yo.clk]
  · have v := vget_vmap z.lg.ch c.isLt (fun _ (c : LgCh) => ({ c with bound := false, last := none, tj := none, dmgh := none } : LgCh)) {} {}
    unfold State.lgch
    dsimp only
    rw [v]
    exact ⟨rfl, rfl, rfl⟩

end Sys2Proof.Machine
end

