-- ==== Sys2Proof/Laws/LinkPorts.lean ====
section
/-! SUPPORT. What the operations of the link leave in its ports, its lanes and its other fields. -/

namespace Sys2Proof.Machine

/-- A port but for its queues, its ranges, its event bits and what it last put on its lanes. -/
def portCore (q : LinkPort) : LinkPort :=
  { q with txq := Vector.replicate 4 [], inbox := [], rlo := 0, rhi := 0, evt := 0, txSet := Vector.replicate 4 [], setLast := false, txUnits := 0 }

/-- The same, but for its role, its COUNT and the request of its training too. -/
def portFace (q : LinkPort) : LinkPort := { portCore q with prole := 0, count := none, tMod := 0, tNear := false }

/-- The lanes and how they are grouped and enabled. -/
def Link.wires (l : Link) : Vector Lane 4 × BitVec 3 × BitVec 4 × Bool := (l.lane, l.group, l.laneEn, l.cfgign)

/-- Every lane, and of every port what `f` shows, is in both states the same. -/
structure PortsKeep (f : LinkPort → LinkPort) (s t : State) : Prop where
  port : ∀ p, f (t.port p) = f (s.port p)
  wire : t.link.wires = s.link.wires

theorem PortsKeep.lane {f : LinkPort → LinkPort} {s t : State} (h : PortsKeep f s t) : t.link.lane = s.link.lane :=
  congrArg Prod.fst h.wire
theorem PortsKeep.group {f : LinkPort → LinkPort} {s t : State} (h : PortsKeep f s t) : t.link.group = s.link.group :=
  congrArg (fun x => x.2.1) h.wire
theorem PortsKeep.laneEn {f : LinkPort → LinkPort} {s t : State} (h : PortsKeep f s t) : t.link.laneEn = s.link.laneEn :=
  congrArg (fun x => x.2.2.1) h.wire
theorem PortsKeep.cfgign {f : LinkPort → LinkPort} {s t : State} (h : PortsKeep f s t) : t.link.cfgign = s.link.cfgign :=
  congrArg (fun x => x.2.2.2) h.wire

theorem PortsKeep.refl (f : LinkPort → LinkPort) (s : State) : PortsKeep f s s := ⟨fun _ => rfl, rfl⟩

theorem PortsKeep.trans {f : LinkPort → LinkPort} {s t u : State} (h : PortsKeep f s t) (k : PortsKeep f t u) :
    PortsKeep f s u := ⟨fun p => (k.port p).trans (h.port p), k.wire.trans h.wire⟩

theorem PortsKeep.face {s t : State} (h : PortsKeep portCore s t) : PortsKeep portFace s t :=
  ⟨fun p => congrArg (fun q : LinkPort => { q with prole := 0, count := none, tMod := 0, tNear := false }) (h.port p), h.wire⟩

theorem PortsKeep.of_link {f : LinkPort → LinkPort} {s t : State} (h : t.link.port = s.link.port)
    (hl : t.link.wires = s.link.wires) : PortsKeep f s t :=
  ⟨fun p => by unfold State.port; rw [h], hl⟩

theorem PortsKeep.modPort {f : LinkPort → LinkPort} (p : Nat) {g : LinkPort → LinkPort} (h : ∀ q, f (g q) = f q)
    (s : State) : PortsKeep f s (s.modPort p g) := by
  refine ⟨fun i => ?_, rfl⟩
  by_cases e : i = p
  · subst e
    by_cases hp : i < 4
    · rw [State.port_modPort _ _ hp, h]
    · have : (s.modPort i g).port i = s.port i := by
        unfold State.port State.modPort vget vmod
        simp [hp]
      rw [this]
  · rw [State.port_modPort_other _ _ e]

theorem foldl_keeps {α S : Type} {R : S → S → Prop} (hr : ∀ s, R s s) (ht : ∀ {s t u}, R s t → R t u → R s u) {g : S → α → S}
    (hg : ∀ s a, R s (g s a)) : ∀ (L : List α) (s : S), R s (L.foldl g s)
  | [], s => hr s
  | a :: L, s => ht (hg s a) (foldl_keeps hr ht hg L (g s a))

/-! ## Frames -/

theorem queueFrame_keep (p : Nat) (f : Frame) (cmd : Option Nat) (s : State) : PortsKeep portCore s (queueFrame p f cmd s) := by
  unfold queueFrame
  apply PortsKeep.modPort
  exact fun q => rfl

theorem keepFrame_keep (p : Nat) (f : Frame) (s : State) : PortsKeep portCore s (keepFrame p f s) := by
  unfold keepFrame
  apply PortsKeep.modPort
  exact fun q => rfl

theorem netFlag_link (b : Bool) (i : Nat) (s : State) : (netFlag b i s).link = s.link := (netFlag_only ..).link

theorem dropFrame_link (s : State) : (dropFrame s).link = { s.link with netdrop := satInc s.link.netdrop } := rcSet_link ..

theorem dropFrame_keep (f : LinkPort → LinkPort) (s : State) : PortsKeep f s (dropFrame s) :=
  .of_link (by rw [dropFrame_link]) (by rw [dropFrame_link]; rfl)

theorem netFlag_keep (f : LinkPort → LinkPort) (b : Bool) (i : Nat) (s : State) : PortsKeep f s (netFlag b i s) :=
  .of_link (by rw [netFlag_link]) (by rw [netFlag_link])

theorem forward_keep (at_ : Nat) (arrived : Option Nat) (f : Frame) (cmd : Option Nat) (s : State) :
    PortsKeep portCore s (forward at_ arrived f cmd s) := by
  unfold forward
  split
  · refine .trans (keepFrame_keep at_ f s) ?_
    exact foldl_keeps (R := PortsKeep portCore) (.refl _) (fun h k => h.trans k) (fun s p => queueFrame_keep p f none s) _ _
  · split
    · exact keepFrame_keep ..
    · split
      · exact queueFrame_keep ..
      · refine .trans ?_ (dropFrame_keep _ _)
        refine .trans ?_ (netFlag_keep _ _ _ _)
        exact .of_link rfl rfl

theorem originate_keep (f : Frame) (cmd : Option Nat) (s : State) : PortsKeep portCore s (originate f cmd s) := by
  unfold originate
  split
  · exact forward_keep ..
  · exact .refl _ _

theorem relay_keep (p : Nat) (f : Frame) (s : State) : PortsKeep portCore s (relay p f s) := by
  unfold relay
  split
  · exact dropFrame_keep ..
  · split
    · exact dropFrame_keep ..
    · exact forward_keep ..

theorem queueFrame_link (p : Nat) (f : Frame) (cmd : Option Nat) (s : State) :
    (queueFrame p f cmd s).link = { s.link with port := (queueFrame p f cmd s).link.port } := rfl

theorem forward_link (at_ : Nat) (arrived : Option Nat) (f : Frame) (cmd : Option Nat) (s : State) :
    (forward at_ arrived f cmd s).link = { s.link with
      port := (forward at_ arrived f cmd s).link.port, netdrop := (forward at_ arrived f cmd s).link.netdrop
      noroute := (forward at_ arrived f cmd s).link.noroute } := by
  have fold : ∀ (L : List Nat) (x : State), (L.foldl (fun s p => queueFrame p f none s) x).link =
      { x.link with port := (L.foldl (fun s p => queueFrame p f none s) x).link.port } := by
    intro L
    induction L with
    | nil => exact fun x => rfl
    | cons a L ih =>
      intro x
      rw [List.foldl_cons]
      have h := ih (queueFrame a f none x)
      rw [queueFrame_link] at h
      exact h
  unfold forward
  split
  · have h := fold ((treePorts s).filter (fun p => some p != arrived)) (keepFrame at_ f s)
    generalize (List.foldl (fun s p => queueFrame p f none s) (keepFrame at_ f s) _).link = x at h ⊢
    rw [h]
    rfl
  · split
    · rfl
    · split
      · rfl
      · rw [dropFrame_link, netFlag_link]

theorem originate_link (f : Frame) (cmd : Option Nat) (s : State) :
    (originate f cmd s).link = { s.link with
      port := (originate f cmd s).link.port, netdrop := (originate f cmd s).link.netdrop
      noroute := (originate f cmd s).link.noroute } := by
  unfold originate
  split
  · exact forward_link ..
  · rfl

theorem relay_link (p : Nat) (f : Frame) (s : State) :
    (relay p f s).link = { s.link with
      port := (relay p f s).link.port, netdrop := (relay p f s).link.netdrop, noroute := (relay p f s).link.noroute } := by
  unfold relay
  split
  · rw [dropFrame_link]
  · split
    · rw [dropFrame_link]
    · exact forward_link ..

theorem takeFrame_some {p : Nat} {want : Frame → Bool} {s : State} {f : Frame} (h : (s.port p).inbox.find? want = some f) :
    takeFrame p want s = some (f, s.modPort p (fun q => { q with inbox := (s.port p).inbox.erase f })) := by
  unfold takeFrame
  dsimp only
  rw [h]

/-! ## Roles and events -/

theorem setRoles_keep (s : State) : PortsKeep portFace s (setRoles s) := by
  unfold setRoles State.each
  exact foldl_keeps (R := PortsKeep portFace) (.refl _) (fun h k => h.trans k)
    (fun s p => by apply PortsKeep.modPort; exact fun q => rfl) _ _

/-- Of the link only its ports differ. -/
def OnlyPorts (s t : State) : Prop := t.link = { s.link with port := t.link.port }

theorem OnlyPorts.trans {s t u : State} (h : OnlyPorts s t) (k : OnlyPorts t u) : OnlyPorts s u := by
  unfold OnlyPorts at *
  rw [k, h]

theorem OnlyPorts.foldl {α : Type} {g : State → α → State} (hg : ∀ s a, OnlyPorts s (g s a)) :
    ∀ (L : List α) (s : State), OnlyPorts s (L.foldl g s)
  | [], _ => rfl
  | a :: L, s => (hg s a).trans (OnlyPorts.foldl hg L (g s a))

theorem OnlyPorts.modPort (p : Nat) (g : LinkPort → LinkPort) (s : State) : OnlyPorts s (s.modPort p g) := rfl

theorem setRoles_link (s : State) : OnlyPorts s (setRoles s) := by
  unfold setRoles State.each
  exact OnlyPorts.foldl (fun s p => OnlyPorts.modPort p _ s) _ _

theorem raiseIf_keep (b : Bool) (n : Nat) (s : State) : PortsKeep portCore s (raiseIf b n s) :=
  .of_link (by rw [raiseIf_link]) (by rw [raiseIf_link])

theorem raise_keep (n : Nat) (s : State) : PortsKeep portCore s (raise n s) := .of_link (by rw [raise_link]) (by rw [raise_link])

theorem setPresent_keep (s : State) : PortsKeep portCore s (setPresent s) := by
  unfold setPresent
  dsimp only
  refine .trans ?_ (raiseIf_keep ..)
  exact .of_link rfl rfl

theorem setPresent_link (s : State) : (setPresent s).link = { s.link with present := (setPresent s).link.present } := by
  unfold setPresent
  dsimp only
  rw [raiseIf_link]

theorem portEvent_keep (p e : Nat) (s : State) : PortsKeep portCore s (portEvent p e s) := by
  unfold portEvent
  refine .trans ?_ (raise_keep ..)
  refine .trans (t := s.modPort p (fun q => { q with evt := setBit q.evt e true })) ?_
    (.of_link (by rw [hwSet_link]) (by rw [hwSet_link]))
  apply PortsKeep.modPort
  exact fun q => rfl

theorem portEvent_link (p e : Nat) (s : State) :
    OnlyPorts s (portEvent p e s) := by
  unfold OnlyPorts
  unfold portEvent
  rw [raise_link, hwSet_link]
  rfl

theorem portEvent_raised (p e : Nat) (s : State) : SrcRaised (344 + 8 * p + e) (portEvent p e s) := raise_raised ..

theorem raiseIf_raised_mono {i : Nat} (b : Bool) (n : Nat) {s : State} (h : SrcRaised i s) : SrcRaised i (raiseIf b n s) := by
  cases b
  · exact h
  · exact raise_raised_mono _ h

theorem setPresent_tur (s : State) : ∃ b x, setPresent s = raiseIf b 376 x ∧ x.tur = s.tur := ⟨_, _, rfl, rfl⟩

theorem setPresent_raised {i : Nat} {s : State} (h : SrcRaised i s) : SrcRaised i (setPresent s) := by
  obtain ⟨b, x, e, hx⟩ := setPresent_tur s
  rw [e]
  exact raiseIf_raised_mono _ _ (h.congr hx)

theorem electUpdate_keep (s : State) : PortsKeep portFace s (electUpdate s) := by
  unfold electUpdate
  dsimp only
  refine .trans ?_ (setPresent_keep _).face
  refine .trans ?_ (setRoles_keep _)
  exact .of_link rfl rfl

/-! ## A port that leaves UP or TRICKLE -/

theorem failover_keep (s : State) : PortsKeep portFace s (failover s) := by
  unfold failover
  dsimp only
  split
  · refine .trans ?_ (originate_keep ..).face
    refine .trans (t := netFlag true 7 _) ?_ (.of_link rfl rfl)
    refine .trans ?_ (netFlag_keep ..)
    refine .trans ?_ (setRoles_keep _)
    exact .of_link rfl rfl
  · refine .trans ?_ (setRoles_keep _)
    exact .of_link rfl rfl

theorem foldl_fst_keeps {α B : Type} {R : State → State → Prop} (hr : ∀ s, R s s) (ht : ∀ {s t u}, R s t → R t u → R s u)
    {g : State × B → α → State × B} (hg : ∀ x a, R x.1 (g x a).1) : ∀ (L : List α) (x : State × B), R x.1 (L.foldl g x).1
  | [], x => hr x.1
  | a :: L, x => ht (hg x a) (foldl_fst_keeps hr ht hg L (g x a))

theorem queueFrame_ports (p : Nat) (f : Frame) (cmd : Option Nat) (s : State) : OnlyPorts s (queueFrame p f cmd s) := rfl

theorem assignDown_keep (s : State) : PortsKeep portCore s (assignDown s) := by
  unfold assignDown
  extract_lets step
  refine foldl_fst_keeps (R := PortsKeep portCore) (.refl _) (fun h k => h.trans k) (g := step) (fun x p => ?_) (downPorts s)
    (s, s.link.node.toNat + 1)
  obtain ⟨s, next⟩ := x
  dsimp only [step]
  split
  · exact .refl _ _
  · split
    · refine .trans ?_ (queueFrame_keep ..)
      apply PortsKeep.modPort
      exact fun q => rfl
    · apply PortsKeep.modPort
      exact fun q => rfl

theorem assignDown_link (s : State) : OnlyPorts s (assignDown s) := by
  unfold assignDown
  extract_lets step
  refine foldl_fst_keeps (R := OnlyPorts) (fun _ => rfl) (fun h k => h.trans k) (g := step) (fun x p => ?_) (downPorts s)
    (s, s.link.node.toNat + 1)
  obtain ⟨s, next⟩ := x
  dsimp only [step]
  split
  · rfl
  · split
    · exact (OnlyPorts.modPort ..).trans (queueFrame_ports ..)
    · rfl

theorem failSends_link (bs : List TxBlock) (s : State) : (failSends bs s).link = s.link := (failSends_only bs s).link (by decide)

/-- A port that has left for `st`, with its own events. -/
theorem portLeave_self {p : Nat} (hp : p < 4) (st : BitVec 3) (write : Bool) (s : State) :
    ((portLeave p st write s).port p).st = st ∧ ((portLeave p st write s).port p).pam4 = false ∧
    ((portLeave p st write s).port p).nearact = false := by
  have key : ∀ {s t : State}, PortsKeep portFace s t → (s.port p).st = st ∧ (s.port p).pam4 = false ∧ (s.port p).nearact = false →
      (t.port p).st = st ∧ (t.port p).pam4 = false ∧ (t.port p).nearact = false := by
    intro s t h k
    have hh := h.port p
    have e1 := congrArg LinkPort.st hh
    have e2 := congrArg LinkPort.pam4 hh
    have e3 := congrArg LinkPort.nearact hh
    exact ⟨e1.trans k.1, e2.trans k.2.1, e3.trans k.2.2⟩
  unfold portLeave
  split
  · rw [State.port_modPort _ _ hp]
    exact ⟨rfl, rfl, rfl⟩
  · dsimp only
    generalize failSends _ s = s0
    refine key (setPresent_keep _).face ?_
    generalize hg : s0.modPort p _ = s1
    have h1 : (s1.port p).st = st ∧ (s1.port p).pam4 = false ∧ (s1.port p).nearact = false := by
      rw [← hg, State.port_modPort _ _ hp]
      exact ⟨rfl, rfl, rfl⟩
    clear hg
    have h2 : ((if write then s1 else portEvent p 1 s1).port p).st = st ∧ ((if write then s1 else portEvent p 1 s1).port p).pam4 = false ∧
        ((if write then s1 else portEvent p 1 s1).port p).nearact = false := by
      cases write
      · exact key (portEvent_keep ..).face h1
      · exact h1
    generalize (if write then s1 else portEvent p 1 s1) = s2 at h2 ⊢
    split
    · exact key (failover_keep _) h2
    · exact key (setRoles_keep _) h2

/-- What leaving a port does to everything else of the link that training reads. -/
theorem portLeave_rest (p : Nat) (st : BitVec 3) (write : Bool) (s : State) :
    (portLeave p st write s).link.wires = s.link.wires ∧ ∀ i, i ≠ p → portFace ((portLeave p st write s).port i) = portFace (s.port i) := by
  have key : ∀ {s t u : State}, PortsKeep portFace t u →
      (t.link.wires = s.link.wires ∧ ∀ i, i ≠ p → portFace (t.port i) = portFace (s.port i)) →
      u.link.wires = s.link.wires ∧ ∀ i, i ≠ p → portFace (u.port i) = portFace (s.port i) :=
    fun h k => ⟨h.wire.trans k.1, fun i e => (h.port i).trans (k.2 i e)⟩
  unfold portLeave
  split
  · exact ⟨rfl, fun i e => by rw [State.port_modPort_other _ _ e]⟩
  · dsimp only
    have h0 := failSends_link ((s.port p).txq.toList.flatMap id) s
    generalize failSends _ s = s0 at h0 ⊢
    refine key (setPresent_keep _).face ?_
    generalize hg : s0.modPort p _ = s1
    have h1 : s1.link.wires = s.link.wires ∧ ∀ i, i ≠ p → portFace (s1.port i) = portFace (s.port i) := by
      rw [← hg]
      exact ⟨(show s0.link.wires = s.link.wires from congrArg Link.wires h0), fun i e => by rw [State.port_modPort_other _ _ e, port_eq i h0]⟩
    clear hg
    have h2 : (if write then s1 else portEvent p 1 s1).link.wires = s.link.wires ∧
        ∀ i, i ≠ p → portFace ((if write then s1 else portEvent p 1 s1).port i) = portFace (s.port i) := by
      cases write
      · exact key (portEvent_keep ..).face h1
      · exact h1
    generalize (if write then s1 else portEvent p 1 s1) = s2 at h2 ⊢
    split
    · exact key (failover_keep _) h2
    · exact key (setRoles_keep _) h2

theorem SrcRaised.of_raised {i : Nat} {s t : State} (h : SrcRaised i s) (e : t.tur.raised = s.tur.raised) : SrcRaised i t := by
  unfold SrcRaised at *
  rw [e]
  exact h

theorem originate_raises (f : Frame) (cmd : Option Nat) (s : State) : (originate f cmd s).tur.raised = s.tur.raised := by
  have fold : ∀ (f : Frame) (L : List Nat) (x : State), (L.foldl (fun s p => queueFrame p f none s) x).tur = x.tur := by
    intro f L
    induction L with
    | nil => exact fun _ => rfl
    | cons a L ih => exact fun x => ih (queueFrame a f none x)
  unfold originate
  split
  · unfold forward
    split
    · rw [fold]
      rfl
    · split
      · rfl
      · split
        · rfl
        · exact (rcSet_raised ..).trans (hwSetIf_raised ..)
  · rfl

theorem failover_raised {i : Nat} {s : State} (h : SrcRaised i s) : SrcRaised i (failover s) := by
  unfold failover
  dsimp only
  split
  · refine h.of_raised ((originate_raises ..).trans ?_)
    refine Eq.trans (hwSetIf_raised ..) ?_
    exact congrArg Turnout.raised ((setRoles_only _).tur (by decide))
  · exact h.of_raised (congrArg Turnout.raised ((setRoles_only _).tur (by decide)))

theorem setRoles_tur (s : State) : (setRoles s).tur = s.tur := (setRoles_only s).tur (by decide)

/-- A port in UP or TRICKLE that leaves by itself raises DOWN. -/
theorem portLeave_raised {p : Nat} {s : State} (h : portLive s p = true) (st : BitVec 3) :
    SrcRaised (344 + 8 * p + 1) (portLeave p st false s) := by
  unfold portLeave
  rw [if_neg (by simp [h])]
  dsimp only
  apply setPresent_raised
  generalize State.modPort _ p _ = s1
  simp only [Bool.false_eq_true, if_false]
  have h2 := portEvent_raised p 1 s1
  generalize portEvent p 1 s1 = s2 at h2 ⊢
  split
  · exact failover_raised h2
  · exact h2.congr (setRoles_tur _)

/-! ## The lanes of a port -/

theorem lanesOf_lt : ∀ (g : BitVec 3) (p : Fin 4), ∀ i ∈ lanesOf g p, i < 4 := by decide

theorem portOfLane_of (s : State) (l : Fin 4) :
    portOfLane s l < 4 ∧ (lanesOf s.link.group (portOfLane s l)).isEmpty = false := by
  unfold portOfLane
  generalize s.link.group = g
  revert l g
  decide

theorem map_fst_zipIdx {α : Type} : ∀ (L : List α) (k : Nat), (L.zipIdx k).map Prod.fst = L
  | [], _ => rfl
  | a :: L, k => by rw [List.zipIdx_cons, List.map_cons, map_fst_zipIdx L]

/-- Of equal faces, what a face shows is equal. -/
theorem face_st {a b : LinkPort} (h : portFace a = portFace b) : a.st = b.st := congrArg (fun q => q.st) h
theorem face_aseq {a b : LinkPort} (h : portFace a = portFace b) : a.aseq = b.aseq := congrArg (fun q => q.aseq) h
theorem face_cred {a b : LinkPort} (h : portFace a = portFace b) : a.cred = b.cred := congrArg (fun q => q.cred) h

/-- What a lane that enters DETECT changes of the ports and of the rest of the link. -/
structure StartsOnly (s t : State) : Prop where
  port : ∀ i, portFace (t.port i) = portFace (s.port i)
  laneEn : t.link.laneEn = s.link.laneEn
  group : t.link.group = s.link.group
  cfgign : t.link.cfgign = s.link.cfgign
  tur : t.tur = s.tur

theorem StartsOnly.refl (s : State) : StartsOnly s s := ⟨fun _ => rfl, rfl, rfl, rfl, rfl⟩

theorem StartsOnly.trans {s t u : State} (h : StartsOnly s t) (k : StartsOnly t u) : StartsOnly s u :=
  ⟨fun i => (k.port i).trans (h.port i), k.laneEn.trans h.laneEn, k.group.trans h.group, k.cfgign.trans h.cfgign,
    k.tur.trans h.tur⟩

theorem StartsOnly.modPort (p : Nat) {g : LinkPort → LinkPort} (h : ∀ q, portFace (g q) = portFace q) (s : State) :
    StartsOnly s (s.modPort p g) :=
  ⟨(PortsKeep.modPort p h s).port, rfl, rfl, rfl, rfl⟩

theorem StartsOnly.modLane (l : Nat) (g : Lane → Lane) (s : State) : StartsOnly s (s.modLane l g) :=
  ⟨fun _ => rfl, rfl, rfl, rfl, rfl⟩

theorem laneStart_starts (l : Nat) (s : State) : StartsOnly s (laneStart l s) :=
  (StartsOnly.modLane l _ s).trans (ite_both _ (P := StartsOnly _) (.modPort _ (g := fun q => { q with tMod := q.mod, tNear := q.near }) (fun _ => rfl) _) (.refl _))

theorem startPort_starts (p : Nat) (s : State) : StartsOnly s (startPort p s) := by
  unfold startPort
  refine foldl_keeps (R := StartsOnly) .refl (fun h k => h.trans k) (fun a l => ?_) _ _
  split
  · exact laneStart_starts ..
  · exact .refl _

theorem laneStart_lane (a : Nat) (s : State) (l : Nat) (hl : l < 4) :
    ((laneStart a s).lane l).st = if l = a then 1 else (s.lane l).st := by
  have h : ((s.modLane a (fun x => { x with st := 1, farPam4 := false, farNear := false, detAt := s.clk.fc })).lane l).st =
      if l = a then 1 else (s.lane l).st := by
    by_cases e : l = a
    · subst e
      rw [State.lane_modLane _ _ hl, if_pos rfl]
    · rw [State.lane_modLane_other _ _ e, if_neg e]
  unfold laneStart
  dsimp only
  split
  · exact h
  · exact h

/-- Every enabled lane of the port enters DETECT, and no other lane moves. -/
theorem startPort_lane (p : Nat) (s : State) (l : Nat) (hl : l < 4) :
    ((startPort p s).lane l).st = (if l ∈ lanesOf s.link.group p ∧ bit s.link.laneEn l = true then 1 else (s.lane l).st) := by
  unfold startPort
  generalize lanesOf s.link.group p = L
  have key : ∀ (L : List Nat) (x : State), x.link.laneEn = s.link.laneEn →
      ((L.foldl (fun y l => if bit y.link.laneEn l then laneStart l y else y) x).lane l).st =
        (if l ∈ L ∧ bit s.link.laneEn l = true then 1 else (x.lane l).st) := by
    intro L
    induction L with
    | nil => intro x _; simp
    | cons a L ih =>
      intro x hx
      rw [List.foldl_cons]
      by_cases ha : bit x.link.laneEn a = true
      · rw [if_pos ha]
        refine (ih (laneStart a x) ((laneStart_starts a x).laneEn.trans hx)).trans ?_
        rw [laneStart_lane _ _ _ hl]
        rw [hx] at ha
        by_cases e : l = a
        · subst e
          simp [ha]
        · simp [e]
      · rw [if_neg ha]
        refine (ih x hx).trans ?_
        rw [hx] at ha
        by_cases e : l = a
        · subst e
          simp [ha]
        · simp [e]
  exact key L s rfl

/-- A port sent back to DETECT with its lanes. -/
theorem toDetect_spec {p : Nat} (hp : p < 4) (write : Bool) (s : State) :
    ((toDetect p write s).port p).st = (if (lanesOf s.link.group p).any (fun l => bit s.link.laneEn l) then 1 else 0) ∧
    (∀ l, l < 4 → ((toDetect p write s).lane l).st =
      (if l ∈ lanesOf s.link.group p ∧ bit s.link.laneEn l = true then 1 else (s.lane l).st)) ∧
    (∀ i, i ≠ p → portFace ((toDetect p write s).port i) = portFace (s.port i)) ∧
    (toDetect p write s).link.laneEn = s.link.laneEn ∧ (toDetect p write s).link.group = s.link.group := by
  unfold toDetect
  have a := portLeave_self hp (if (lanesOf s.link.group p).any (fun l => bit s.link.laneEn l) then 1 else 0) write s
  have b := portLeave_rest p (if (lanesOf s.link.group p).any (fun l => bit s.link.laneEn l) then 1 else 0) write s
  generalize portLeave p _ write s = t at a b ⊢
  have hw : t.link.group = s.link.group ∧ t.link.laneEn = s.link.laneEn ∧ t.link.lane = s.link.lane :=
    ⟨congrArg (fun x => x.2.1) b.1, congrArg (fun x => x.2.2.1) b.1, congrArg Prod.fst b.1⟩
  have hs := startPort_starts p t
  refine ⟨(face_st (hs.port p)).trans a.1, fun l hl => ?_, fun i e => (hs.port i).trans (b.2 i e), hs.laneEn.trans hw.2.1,
    hs.group.trans hw.1⟩
  rw [startPort_lane _ _ _ hl, hw.1, hw.2.1]
  unfold State.lane
  rw [hw.2.2]

theorem toDetect_raised {p : Nat} {s : State} (h : portLive s p = true) : SrcRaised (344 + 8 * p + 1) (toDetect p false s) := by
  unfold toDetect
  exact (portLeave_raised h _).congr (startPort_starts _ _).tur

end Sys2Proof.Machine
end

