-- ==== Sys2Proof/Laws/Protect.lean ====
section
/-! SUPPORT. What the operations of the shut and the watchdog do. -/

namespace Sys2Proof.Machine

theorem handShut_shut (l : Bool) (s : State) : (handShut l s).shut = { s.shut with sent := (handShut l s).shut.sent } := by
  unfold handShut
  split
  · rw [(sendShut_only ..).shut]
  · rfl

theorem handShut_tur (l : Bool) (s : State) : (handShut l s).tur = s.tur := by
  unfold handShut
  split
  · rw [(sendShut_only ..).tur]
  · rfl

/-- A shut that a source begins: the shut registers, and source 426. -/
theorem shutAssert_begin (b : Nat) (loc : Bool) {s : State} (h : s.shut.active = false) :
    (shutAssert b loc s).shut = { s.shut with
      active := true, first := BitVec.ofNat 5 b, count := satInc s.shut.count, sAt := s.clk.fc
      sent := (shutAssert b loc s).shut.sent, releaseAt := none } ∧
    SrcRaised 426 (shutAssert b loc s) := by
  have e : shutAssert b loc s = handShut loc (raise 426 (lgTrigger s.lg.shutp { s with shut := { s.shut with
      active := true, first := BitVec.ofNat 5 b, count := satInc s.shut.count, sAt := s.clk.fc, sent := false
      releaseAt := none } })) := by
    unfold shutAssert
    rw [h]
    rfl
  rw [e]
  refine ⟨?_, (raise_raised ..).congr (handShut_tur ..)⟩
  rw [handShut_shut, raise_shut, (lgTrigger_only ..).shut]

/-- A source that asserts while a shut is active. -/
theorem shutAssert_during (b : Nat) (loc : Bool) {s : State} (h : s.shut.active = true) :
    (shutAssert b loc s).shut = { s.shut with
      first := if s.shut.sAt = s.clk.fc ∧ b < s.shut.first.toNat then BitVec.ofNat 5 b else s.shut.first
      sent := (shutAssert b loc s).shut.sent } := by
  unfold shutAssert
  rw [if_neg (by simp [h])]
  by_cases h1 : s.shut.sAt = s.clk.fc
  · rw [if_pos h1]
    dsimp only
    by_cases h2 : b < s.shut.first.toNat
    · rw [if_pos h2, if_pos ⟨h1, h2⟩, handShut_shut]
    · rw [if_neg h2, if_neg (fun h => h2 h.2), handShut_shut]
  · rw [if_neg h1, if_neg (fun h => h1 h.1)]

theorem shutAssert_active (b : Nat) (loc : Bool) (s : State) : (shutAssert b loc s).shut.active = true := by
  cases h : s.shut.active with
  | false => rw [(shutAssert_begin b loc h).1]
  | true => rw [shutAssert_during b loc h]; exact h

theorem shutAssert_req (b : Nat) (loc : Bool) (s : State) : (shutAssert b loc s).shut.req = s.shut.req := by
  cases h : s.shut.active with
  | false => rw [(shutAssert_begin b loc h).1]
  | true => rw [shutAssert_during b loc h]

theorem shutAssert_wdog (b : Nat) (loc : Bool) (s : State) : (shutAssert b loc s).shut.wdog = s.shut.wdog := by
  cases h : s.shut.active with
  | false => rw [(shutAssert_begin b loc h).1]
  | true => rw [shutAssert_during b loc h]

theorem shutAssert_raised {i : Nat} (b : Nat) (loc : Bool) {s : State} (h : SrcRaised i s) :
    SrcRaised i (shutAssert b loc s) := by
  have hh : ∀ (l : Bool) {x : State}, SrcRaised i x → SrcRaised i (handShut l x) := fun l x hx => hx.congr (handShut_tur l x)
  unfold shutAssert
  split
  · exact hh _ (raise_raised_mono _ (h.congr (lgTrigger_only ..).tur))
  · split
    · dsimp only
      split
      · exact hh _ (h.congr rfl)
      · exact hh _ h
    · exact h

/-- Only the freeze of the count touches the watchdog here. -/
theorem wdogFreeze_wdog (s : State) :
    (wdogFreeze s).wdog = { s.wdog with frozen := (wdogFreeze s).wdog.frozen, cnt := (wdogFreeze s).wdog.cnt } := by
  unfold wdogFreeze
  dsimp only
  split
  · rfl
  · split <;> rfl

/-- An expiry: the watchdog registers, its shut source, the shut and source 425. -/
theorem wdogExpire_spec (cause : BitVec 2) (s : State) :
    (wdogExpire cause s).wdog = { s.wdog with
      exp := true, cause := cause, stopped := true, armed := s.wdog.armed && cause = 0
      resetAt := if s.wdog.wrst then some (s.clk.fc + 64) else s.wdog.resetAt } ∧
    (wdogExpire cause s).shut.wdog = true ∧ (wdogExpire cause s).shut.active = true ∧
    SrcRaised 425 (wdogExpire cause s) := by
  unfold wdogExpire
  refine ⟨?_, ?_, shutAssert_active .., shutAssert_raised _ _ (raise_raised ..)⟩
  · rw [(shutAssert_only ..).wdog, raise_wdog, hwSet_wdog]
  · rw [shutAssert_wdog, raise_shut, hwSet_shut]

end Sys2Proof.Machine
end

