-- ==== Sys2Proof/Laws/LinkRx.lean ====
section
/-! SUPPORT. What receiving and sending a codeword, and a shut order, leave in a port. -/

namespace Sys2Proof.Machine

/-- What the flow control of a port counts. -/
def portFlow (q : LinkPort) : LinkPort :=
  { portCore q with asm := Vector.replicate 4 none, owed := Vector.replicate 4 0, freed := Vector.replicate 4 0
                    cwcor := 0, cwunc := 0, frrx := 0, frdrop := 0 }

theorem flow_rxSeq {a b : LinkPort} (h : portFlow a = portFlow b) : a.rxSeq = b.rxSeq := congrArg (fun q => q.rxSeq) h
theorem flow_uncRun {a b : LinkPort} (h : portFlow a = portFlow b) : a.uncRun = b.uncRun := congrArg (fun q => q.uncRun) h
theorem flow_cwtot {a b : LinkPort} (h : portFlow a = portFlow b) : a.cwtot = b.cwtot := congrArg (fun q => q.cwtot) h
theorem flow_cred {a b : LinkPort} (h : portFlow a = portFlow b) : a.cred = b.cred := congrArg (fun q => q.cred) h
theorem flow_st {a b : LinkPort} (h : portFlow a = portFlow b) : a.st = b.st := congrArg (fun q => q.st) h

theorem PortsKeep.flow {s t : State} (h : PortsKeep portCore s t) (i : Nat) : portFlow (t.port i) = portFlow (s.port i) :=
  congrArg (fun q : LinkPort => { q with
    asm := Vector.replicate 4 none, owed := Vector.replicate 4 0, freed := Vector.replicate 4 0
    cwcor := 0, cwunc := 0, frrx := 0, frdrop := 0 }) (h.port i)

theorem modPort_flow (p : Nat) {g : LinkPort → LinkPort} (h : ∀ q, portFlow (g q) = portFlow q) (s : State) (i : Nat) :
    portFlow ((s.modPort p g).port i) = portFlow (s.port i) :=
  (PortsKeep.modPort (f := portFlow) p h s).port i

theorem countCerr_link (l : Nat) (s : State) : (countCerr l s).link.port = s.link.port := by
  unfold countCerr
  rw [rcSet_link]
  rfl

theorem countCor_flow (p : Nat) (s : State) (i : Nat) : portFlow ((countCor p s).port i) = portFlow (s.port i) := by
  unfold countCor
  rw [rcSet_port]
  exact modPort_flow p (g := fun q => { q with cwcor := satInc q.cwcor }) (fun _ => rfl) s i

theorem countUnc_flow (p : Nat) (s : State) (i : Nat) : portFlow ((countUnc p s).port i) = portFlow (s.port i) := by
  unfold countUnc
  rw [rcSet_port]
  exact modPort_flow p (g := fun q => { q with cwunc := satInc q.cwunc }) (fun _ => rfl) s i

theorem countDrop_flow (p : Nat) (s : State) (i : Nat) : portFlow ((countDrop p s).port i) = portFlow (s.port i) := by
  unfold countDrop
  rw [rcSet_port]
  exact modPort_flow p (g := fun q => { q with frdrop := satInc q.frdrop }) (fun _ => rfl) s i

theorem countErrors_flow (p : Nat) (places : List Nat) (s : State) (i : Nat) :
    portFlow ((countErrors p places s).port i) = portFlow (s.port i) := by
  unfold countErrors
  extract_lets ls s1 n s2
  have h1 : s1.link.port = s.link.port := by
    refine foldl_keeps (R := fun a b : State => b.link.port = a.link.port) (fun _ => rfl) (fun h k => k.trans h) (fun x k => ?_) _ _
    split
    · exact countCerr_link ..
    · rfl
  have h1' : portFlow (s1.port i) = portFlow (s.port i) := by unfold State.port; rw [h1]
  have h2 : portFlow (s2.port i) = portFlow (s1.port i) := countCor_flow ..
  clear_value s1 s2
  split
  · exact h1'
  · split
    · exact ((portEvent_keep p 3 s2).flow i).trans (h2.trans h1')
    · exact h2.trans h1'

theorem arrive_flow (p : Nat) (f : Frame) (bad : Bool) (s : State) (i : Nat) :
    portFlow ((arrive p f bad s).port i) = portFlow (s.port i) := by
  have hf : portFlow ((s.modPort p fun q => { q with frrx := q.frrx + 1 }).port i) = portFlow (s.port i) := by
    apply modPort_flow
    exact fun q => rfl
  unfold arrive
  dsimp only
  split
  · exact countUnc_flow ..
  · generalize s.modPort p (fun q => { q with frrx := q.frrx + 1 }) = x at hf ⊢
    refine Eq.trans ?_ hf
    split
    · exact countUnc_flow ..
    · split
      · exact (keepFrame_keep p f x).flow i
      · split
        · exact (dropFrame_keep portCore x).flow i
        · split
          · exact (keepFrame_keep p f x).flow i
          · split
            · split
              · rw [port_eq i (memberEventIn_only f x).link]
              · split
                · rename_i t ht
                  have : t.link = x.link := by
                    unfold memberResp at ht
                    extract_lets hit e put at ht
                    split at ht
                    · cases ht; rfl
                    · cases ht
                  rw [port_eq i this]
                · exact (relay_keep p f x).flow i
            · exact (relay_keep p f x).flow i

theorem takeBlock_flow (p : Nat) (ftype : BitVec 3) (vl pos : BitVec 2) (payload : List Byte) (bad : Bool) (s : State) (i : Nat) :
    portFlow ((takeBlock p ftype vl pos payload bad s).port i) = portFlow (s.port i) := by
  unfold takeBlock
  extract_lets old setAsm broken first s1 fr s2 s3
  have hset : ∀ a x, portFlow ((setAsm a x).port i) = portFlow (x.port i) := by
    intro a x
    apply modPort_flow
    exact fun q => rfl
  have hbr : ∀ x, portFlow ((broken x).port i) = portFlow (x.port i) := by
    intro x
    exact (hset _ _).trans (countDrop_flow ..)
  have hfr : ∀ v x, portFlow ((portFreed p v x).port i) = portFlow (x.port i) := by
    intro v x
    apply modPort_flow
    exact fun q => rfl
  have h1 : portFlow (s1.port i) = portFlow (s.port i) := by
    dsimp only [s1]
    split
    · exact hbr s
    · rfl
  clear_value s1 setAsm broken
  refine Eq.trans ?_ h1
  split
  · split
    · exact (hbr _).trans (hfr _ _)
    · split
      · refine (arrive_flow ..).trans ?_
        dsimp only [s2]
        split
        · rfl
        · exact hfr _ _
      · exact (hset _ _).trans (hfr _ _)
  · dsimp only
    split
    · exact (arrive_flow ..).trans ((hset _ _).trans (hfr _ _))
    · split
      · exact (hbr _).trans (hfr _ _)
      · exact (hset _ _).trans (hfr _ _)

/-- What a codeword that a port sends does to it. -/
theorem sendCodeword_port {p : Nat} (hp : p < 4) (h0 : Byte) (payload : List Byte) (s : State) :
    ((sendCodeword p h0 payload s).port p).txSeq = (s.port p).txSeq + 1 ∧
    ((sendCodeword p h0 payload s).port p).txUnits = (s.port p).txUnits + 1 ∧
    ((sendCodeword p h0 payload s).port p).txq = (s.port p).txq ∧
    ((sendCodeword p h0 payload s).port p).cred = (s.port p).cred ∧
    ((sendCodeword p h0 payload s).port p).sent = (s.port p).sent ∧
    ((sendCodeword p h0 payload s).port p).resync = (s.port p).resync ∧
    ((sendCodeword p h0 payload s).port p).resyncWait = (s.port p).resyncWait := by
  unfold sendCodeword
  extract_lets q cvl give h1 m v
  rw [State.port_modPort _ _ hp]
  exact ⟨rfl, rfl, rfl, rfl, rfl, rfl, rfl⟩

theorem setStage_link (seq : Nat) (st : CmdStage) (s : State) : (setStage seq st s).link = s.link := rfl

theorem sendSet_keep (p : Nat) (w : U64) (s : State) : PortsKeep portCore s (sendSet p w s) := by
  unfold sendSet
  apply PortsKeep.modPort
  exact fun q => rfl

theorem core_shutrxn {a b : LinkPort} (h : portCore a = portCore b) : a.shutrxn = b.shutrxn := congrArg (fun q => q.shutrxn) h

theorem sendSet_ports (p : Nat) (w : U64) (s : State) : OnlyPorts s (sendSet p w s) := rfl

end Sys2Proof.Machine
end

