-- ==== Sys2Proof/Laws/LinkNet.lean ====
section
/-! SUPPORT. What election, enumeration, time and the routed management frames leave in the link. -/

namespace Sys2Proof.Machine

/-- What an election update changes of the link. -/
theorem electUpdate_link (s : State) : (electUpdate s).link = { s.link with
    bestRole := (bestKnown s).1, bestKey := (bestKnown s).2, changedAt := (electUpdate s).link.changedAt
    dist := (electUpdate s).link.dist, upport := (electUpdate s).link.upport, lostAt := (electUpdate s).link.lostAt
    master := (electUpdate s).link.master, disc := (electUpdate s).link.disc
    lockRun := (electUpdate s).link.lockRun, upDisc := (electUpdate s).link.upDisc
    port := (electUpdate s).link.port, present := (electUpdate s).link.present } := by
  unfold electUpdate
  dsimp only
  rw [setPresent_link, setRoles_link]

theorem memo_bestKnown {s t : State} (hr : t.link.eRole = s.link.eRole) (hk : t.link.eKey = s.link.eKey)
    (hp : ∀ p, portFace (t.port p) = portFace (s.port p)) : bestKnown t = bestKnown s := by
  have h : ∀ p, portLive t p = portLive s p ∧ (t.port p).nrole = (s.port p).nrole ∧ (t.port p).nkey = (s.port p).nkey := by
    intro p
    have e := hp p
    refine ⟨?_, congrArg (fun q => q.nrole) e, congrArg (fun q => q.nkey) e⟩
    unfold portLive portUp portTrickle
    rw [face_st e]
  unfold bestKnown
  simp only [hr, hk, h]

theorem sendMgmt_keep (p : Nat) (sub : BitVec 3) (content : List Byte) (s : State) :
    PortsKeep portCore s (sendMgmt p sub content s) := queueFrame_keep ..

theorem foldSlots_link {g : State → Option CmdSlot → State} (hg : ∀ s c, (g s c).link = s.link) (L : List (Option CmdSlot)) (s : State) :
    (L.foldl g s).link = s.link :=
  foldl_keeps (R := fun a b : State => b.link = a.link) (fun _ => rfl) (fun h k => k.trans h) hg L s

theorem finishEnum_keep (s : State) : PortsKeep portCore s (finishEnum s) ∧ (finishEnum s).link = { s.link with
    enumRun := (finishEnum s).link.enumRun, enumNodes := (finishEnum s).link.enumNodes, enumDepth := (finishEnum s).link.enumDepth
    node := (finishEnum s).link.node, valid := (finishEnum s).link.valid, depth := (finishEnum s).link.depth
    subhi := (finishEnum s).link.subhi, deep := (finishEnum s).link.deep, exc := (finishEnum s).link.exc
    port := (finishEnum s).link.port } := by
  unfold finishEnum
  split
  · exact ⟨.refl _ _, rfl⟩
  · extract_lets deep l0 s1 s2 result
    have h2 : PortsKeep portCore s s2 := by
      refine .trans (t := netFlag deep 3 s1) ?_ (assignDown_keep _)
      exact .of_link (by rw [netFlag_link]) (by rw [netFlag_link]; rfl)
    have h3 : s2.link = { s1.link with port := s2.link.port } := by
      have := assignDown_link (netFlag deep 3 s1)
      unfold OnlyPorts at this
      rw [netFlag_link] at this
      exact this
    clear_value s2
    have h4 : ∀ (L : List (Option CmdSlot)) (g : State → Option CmdSlot → State), (∀ s c, (g s c).link = s.link) →
        (L.foldl g s2).link = s2.link := fun L g hg => foldSlots_link hg L s2
    generalize hg : (fun (s : State) (c : Option CmdSlot) => match c with
      | some c => if (decide (cmdOp c.entry = 0x50) && match c.stage with | .running _ => true | _ => false) = true then
          setStage c.seq (.done (if deep = true then 0x12 else 0) 0 result) s else s
      | none => s) = g
    have hh : ((slots s2).foldl g s2).link = s2.link := by
      refine h4 _ g fun x c => ?_
      rw [← hg]
      cases c with
      | none => rfl
      | some c =>
        dsimp only
        generalize (decide (cmdOp c.entry = 0x50) && _) = b
        cases b <;> rfl
    refine ⟨.trans h2 (.of_link (by rw [hh]) (by rw [hh])), ?_⟩
    rw [hh, h3]

theorem finishEnum_root {s : State} (h : s.link.node = 0) (hv : s.link.valid = true) (hd : s.link.depth = 0) :
    (finishEnum s).link.node = 0 ∧ (finishEnum s).link.valid = true ∧ (finishEnum s).link.depth = 0 := by
  unfold finishEnum
  split
  · exact ⟨h, hv, hd⟩
  · extract_lets deep l0 s1 s2 result
    have h3 : s2.link = { s1.link with port := s2.link.port } := by
      have := assignDown_link (netFlag deep 3 s1)
      unfold OnlyPorts at this
      rw [netFlag_link] at this
      exact this
    clear_value s2
    generalize hg : (fun (s : State) (c : Option CmdSlot) => match c with
      | some c => if (decide (cmdOp c.entry = 0x50) && match c.stage with | .running _ => true | _ => false) = true then
          setStage c.seq (.done (if deep = true then 0x12 else 0) 0 result) s else s
      | none => s) = g
    have hh : ((slots s2).foldl g s2).link = s2.link := by
      refine foldSlots_link (fun x c => ?_) _ s2
      rw [← hg]
      cases c with
      | none => rfl
      | some c =>
        dsimp only
        generalize (decide (cmdOp c.entry = 0x50) && _) = b
        cases b <;> rfl
    rw [hh, h3]
    exact ⟨rfl, rfl, rfl⟩

theorem reportCount_keep (s : State) : PortsKeep portCore s (reportCount s) ∧ (reportCount s).link = { s.link with
    enumRun := (reportCount s).link.enumRun, enumNodes := (reportCount s).link.enumNodes, enumDepth := (reportCount s).link.enumDepth
    node := (reportCount s).link.node, valid := (reportCount s).link.valid, depth := (reportCount s).link.depth
    subhi := (reportCount s).link.subhi, deep := (reportCount s).link.deep, exc := (reportCount s).link.exc
    sentCount := (reportCount s).link.sentCount, port := (reportCount s).link.port } := by
  unfold reportCount
  split
  · split
    · have h := finishEnum_keep s
      refine ⟨h.1, ?_⟩
      rw [h.2]
    · exact ⟨.refl _ _, rfl⟩
  · split
    · split
      · exact ⟨.refl _ _, rfl⟩
      · refine ⟨.trans ?_ (sendMgmt_keep ..), rfl⟩
        exact .of_link rfl rfl
    · exact ⟨.refl _ _, rfl⟩

/-- A route exception: the table and RTXFULL, and nothing else of the link. -/
theorem addException_link (lo hi : BitVec 14) (port : BitVec 2) (keep : Bool) (s : State) :
    (addException lo hi port keep s).link = { s.link with
      exc := (addException lo hi port keep s).link.exc, rtxfull := (addException lo hi port keep s).link.rtxfull } := by
  unfold addException
  dsimp only
  split
  · split <;> rfl
  · split
    · rfl
    · rw [netFlag_link]

theorem takeFrame_none {p : Nat} {want : Frame → Bool} {s : State} (h : (s.port p).inbox.find? want = none) :
    takeFrame p want s = none := by
  unfold takeFrame
  dsimp only
  rw [h]

/-! ## Bytes that an engine stores -/

theorem memWrite_append : ∀ (l k : List Byte) (m : List Host.Cell) (a : Nat),
    memWrite m a (l ++ k) = memWrite (memWrite m a l) (a + l.length) k
  | [], _, _, _ => rfl
  | b :: l, k, m, a => by
    show memWrite (memPut m a b) (a + 1) (l ++ k) = memWrite (memWrite (memPut m a b) (a + 1) l) (a + (l.length + 1)) k
    rw [memWrite_append l k, show a + (l.length + 1) = a + 1 + l.length by omega]

theorem storeRowsF_data : ∀ (fuel a : Nat) (l : List Byte) (s : State), l.length < fuel →
    (storeRowsF fuel a l s).mem.data = memWrite s.mem.data a l ∧ (storeRowsF fuel a l s).link = s.link ∧
      (storeRowsF fuel a l s).tur = s.tur
  | 0, _, _, _, h => absurd h (by omega)
  | fuel + 1, a, l, s, h => by
    unfold storeRowsF
    split
    · rename_i e
      rw [List.isEmpty_iff] at e
      subst e
      exact ⟨rfl, rfl, rfl⟩
    · rename_i e
      have hl : 0 < l.length := by
        rw [List.length_pos_iff]
        intro c
        rw [c] at e
        exact e rfl
      dsimp only
      have hd : (l.drop (16 - a % 16)).length < fuel := by
        rw [List.length_drop]
        omega
      obtain ⟨i1, i2, i3⟩ := storeRowsF_data fuel (a + (16 - a % 16)) (l.drop (16 - a % 16)) (storeRow a (l.take (16 - a % 16)) s) hd
      refine ⟨i1.trans ?_, i2, i3⟩
      have e1 : (storeRow a (l.take (16 - a % 16)) s).mem.data = memWrite s.mem.data a (l.take (16 - a % 16)) := rfl
      rw [e1]
      by_cases c : l.length ≤ 16 - a % 16
      · rw [List.drop_of_length_le c, List.take_of_length_le c]
        rfl
      · have := memWrite_append (l.take (16 - a % 16)) (l.drop (16 - a % 16)) s.mem.data a
        rw [List.take_append_drop, List.length_take, show min (16 - a % 16) l.length = 16 - a % 16 by omega] at this
        exact this.symm

theorem storeData_spec (a : Nat) (l : List Byte) (s : State) :
    (storeData a l s).mem.data = memWrite s.mem.data a l ∧ (storeData a l s).link = s.link ∧ (storeData a l s).tur = s.tur :=
  storeRowsF_data _ _ _ _ (by omega)

end Sys2Proof.Machine
end

