-- ==== Sys2Proof/Laws/Nvm.lean ====
section
/-! SUPPORT. How the NVM controller begins and ends the steps of a job, and how the job's command ends. -/

namespace Sys2Proof.Machine

theorem pump_succ (s : State) : ∃ n, pump s = pumpF (n + 2) s :=
  ⟨14 + 8 * s.nvm.jobs.length, by unfold pump; congr 1; omega⟩

/-- While an operation runs, none begins. -/
theorem pump_running {s : State} (h : s.nvm.run.isSome = true) : pump s = s := by
  obtain ⟨n, e⟩ := pump_succ s
  rw [e]
  unfold pumpF
  rw [if_pos h]

theorem pumpF_empty {s : State} (hr : s.nvm.run = none) (hj : s.nvm.jobs = []) (n : Nat) : pumpF (n + 1) s = s := by
  unfold pumpF
  rw [hr, hj]
  rfl

theorem pump_empty {s : State} (hr : s.nvm.run = none) (hj : s.nvm.jobs = []) : pump s = s := by
  obtain ⟨n, e⟩ := pump_succ s
  rw [e, pumpF_empty hr hj]

/-- The first step of the first job is an erase of a sector that is not retired: it begins. -/
theorem pump_erase {s : State} {j : NvmJob} {js : List NvmJob} {p : Option NvmPlace} {sec : Nat} {ops : List NvmOp}
    (hr : s.nvm.run = none) (hj : s.nvm.jobs = j :: js) (ho : j.ops = .erase p sec :: ops)
    (hn : (p.isNone && roRetired s.nvm.opt sec) = false) : pump s = beginErase (opPlace s.nvm.opt p sec) s := by
  obtain ⟨n, e⟩ := pump_succ s
  rw [e]
  unfold pumpF
  rw [hr, hj]
  dsimp only
  rw [ho]
  dsimp only
  rw [hn]
  rfl

/-- The first step of the first job is a program of a unit that need not be blank, or is. -/
theorem pump_program {s : State} {j : NvmJob} {js : List NvmJob} {p : Option NvmPlace} {u : BitVec 9} {d : BitVec 256}
    {bad : Bool} {sec : Nat} {ops : List NvmOp} (hr : s.nvm.run = none) (hj : s.nvm.jobs = j :: js)
    (ho : j.ops = .program p u d false bad sec :: ops) (hn : (p.isNone && roRetired s.nvm.opt sec) = false) :
    pump s = beginProgram ((opPlace s.nvm.opt p sec).key u.toNat) s := by
  obtain ⟨n, e⟩ := pump_succ s
  rw [e]
  unfold pumpF
  rw [hr, hj]
  dsimp only
  rw [ho]
  dsimp only
  rw [hn]
  rfl

theorem pump_blank {s t : State} {j : NvmJob} {js : List NvmJob} {p : Option NvmPlace} {u : BitVec 9} {d : BitVec 256}
    {bad : Bool} {sec : Nat} {ops : List NvmOp} {r : UnitRead} (hr : s.nvm.run = none) (hj : s.nvm.jobs = j :: js)
    (ho : j.ops = .program p u d true bad sec :: ops) (hn : (p.isNone && roRetired s.nvm.opt sec) = false)
    (hu : readUnit (opPlace s.nvm.opt p sec) u.toNat s = (r, t)) (hb : r.erased = true) :
    pump s = beginProgram ((opPlace s.nvm.opt p sec).key u.toNat) t := by
  obtain ⟨n, e⟩ := pump_succ s
  rw [e]
  unfold pumpF
  rw [hr, hj]
  dsimp only
  rw [ho]
  dsimp only
  rw [hn]
  simp only [Bool.false_eq_true, if_false, if_true, Option.isSome_none, hu, hb]

/-- The first step names a retired sector: the job ends with status 0x11. -/
theorem pump_retired {s : State} {j : NvmJob} {o : NvmOp} {sec : Nat} {ops : List NvmOp}
    (hr : s.nvm.run = none) (hj : s.nvm.jobs = [j]) (ho : j.ops = o :: ops)
    (hs : o = .erase none sec ∨ ∃ u d b x, o = .program none u d b x sec) (hn : roRetired s.nvm.opt sec = true)
    (hw : ∃ q, j.who = .cmd q) : pump s = endJob 0x11 sec (setFail sec 4 0 s) := by
  obtain ⟨q, hq⟩ := hw
  obtain ⟨n, e⟩ := pump_succ s
  have step : pumpF (n + 2) s = pumpF (n + 1) (endJob 0x11 sec (setFail sec 4 0 s)) := by
    conv => lhs; unfold pumpF
    rw [hr, hj]
    dsimp only
    rw [ho]
    rcases hs with hs | ⟨u, d, b, x, hs⟩ <;> subst hs <;> dsimp only <;> rw [hn] <;> rfl
  rw [e, step]
  have hc : ∀ x : State, (cmdDone q j 0x11 sec x).nvm = x.nvm := by
    intro x
    unfold cmdDone
    split
    · rfl
    · dsimp only
      split
      · unfold imageDone
        rfl
      · rfl
  have h1 : (endJob 0x11 sec (setFail sec 4 0 s)).nvm.run = none ∧ (endJob 0x11 sec (setFail sec 4 0 s)).nvm.jobs = [] := by
    unfold endJob
    have : (setFail sec 4 0 s).nvm.jobs = [j] := hj
    rw [this]
    dsimp only
    rw [hq]
    dsimp only
    rw [hc]
    exact ⟨rfl, rfl⟩
  exact pumpF_empty h1.1 h1.2 n

/-! ## The command of a job -/

def seqSlot (seq : Nat) (c : Option CmdSlot) : Option CmdSlot :=
  match c with
  | some c => if c.seq = seq then some c else none
  | none => none

theorem slotOfSeq_eq (s : State) (seq : Nat) : slotOfSeq s seq =
    match s.hg.slot.toList.findSome? (seqSlot seq) with
    | some c => some c
    | none => seqSlot seq s.hg.linkSlot := by
  unfold slotOfSeq seqSlot
  rfl

def restage (seq : Nat) (st : CmdStage) (c : Option CmdSlot) : Option CmdSlot :=
  match c with
  | some c => if c.seq = seq then some { c with stage := st } else some c
  | none => none

theorem setStage_eq (seq : Nat) (st : CmdStage) (s : State) : setStage seq st s = { s with hg := { s.hg with
    slot := vmap s.hg.slot (fun _ c => restage seq st c), linkSlot := restage seq st s.hg.linkSlot } } := rfl

theorem toList_vmap {α β : Type} {n : Nat} (F : α → β) (v : Vector α n) : (vmap v (fun _ x => F x)).toList = v.toList.map F := by
  have z : ∀ (L : List α) (k : Nat), (L.zipIdx k).map (fun p => F p.1) = L.map F := by
    intro L
    induction L with
    | nil => exact fun _ => rfl
    | cons x L ih =>
      intro k
      rw [List.zipIdx_cons, List.map_cons, List.map_cons, ih]
  unfold vmap
  exact z _ _

theorem slotOfSeq_setStage {s : State} {c : CmdSlot} (h : slotOfSeq s c.seq = some c) (st : CmdStage) :
    slotOfSeq (setStage c.seq st s) c.seq = some { c with stage := st } := by
  have f1 : ∀ x : Option CmdSlot, seqSlot c.seq (restage c.seq st x) = (seqSlot c.seq x).map (fun d => { d with stage := st }) := by
    intro x
    cases x with
    | none => rfl
    | some d =>
      unfold seqSlot restage
      by_cases e : d.seq = c.seq
      · simp only [if_pos e, Option.map_some]
      · simp only [if_neg e, Option.map_none]
  have f2 : ∀ L : List (Option CmdSlot), (L.map (restage c.seq st)).findSome? (seqSlot c.seq) =
      (L.findSome? (seqSlot c.seq)).map (fun d => { d with stage := st }) := by
    intro L
    induction L with
    | nil => rfl
    | cons x L ih =>
      rw [List.map_cons, List.findSome?_cons, List.findSome?_cons, f1]
      cases hx : seqSlot c.seq x with
      | none => exact ih
      | some d => rfl
  rw [slotOfSeq_eq] at h ⊢
  rw [setStage_eq]
  dsimp only
  rw [toList_vmap, f2, f1]
  cases hx : s.hg.slot.toList.findSome? (seqSlot c.seq) with
  | none =>
    rw [hx] at h
    dsimp only at h
    rw [h]
    rfl
  | some d =>
    rw [hx] at h
    dsimp only at h
    injection h with h
    subst h
    rfl

/-- The job of a command ends, alone: what its command's stage becomes (R781, R782). -/
def jobEnd (c : CmdSlot) (j : NvmJob) (st : Byte) (sec : Nat) : CmdStage :=
  .done st (BitVec.ofNat 16 (if st != 0 then sec else j.excessAt)) (BitVec.ofNat 64
    (if (cmdOp c.entry).toNat = 0x70 then j.done % 2 ^ 16 + j.retired % 2 ^ 16 * 2 ^ 16 + j.excess % 2 ^ 16 * 2 ^ 32
     else j.done % 2 ^ 32 + j.retired % 2 ^ 16 * 2 ^ 32))

theorem endJob_cmd {s : State} {j : NvmJob} {c : CmdSlot} (hj : s.nvm.jobs = [j]) (hw : j.who = .cmd c.seq)
    (hs : slotOfSeq s c.seq = some c) (ho : (cmdOp c.entry).toNat ≠ 0x10) (st : Byte) (sec : Nat) :
    endJob st sec s = setStage c.seq (jobEnd c j st sec) { s with nvm := { s.nvm with jobs := [], run := none } } := by
  unfold endJob
  rw [hj]
  dsimp only
  rw [hw]
  dsimp only
  unfold cmdDone
  have : slotOfSeq { s with nvm := { s.nvm with jobs := [], run := none } } c.seq = some c := hs
  rw [this]
  dsimp only
  rw [if_neg ho]
  rfl

theorem pumpF_ended {s : State} (hr : s.nvm.run = none) (hj : s.nvm.jobs = []) (q : Nat) (st : CmdStage) (n : Nat) :
    pumpF (n + 1) (setStage q st s) = setStage q st s := pumpF_empty (s := setStage q st s) hr hj n

/-- The first step must find its unit erased and does not: the job ends with status 0x10. -/
theorem pump_notBlank {s t : State} {j : NvmJob} {u : BitVec 9} {d : BitVec 256} {c : CmdSlot}
    {bad : Bool} {sec : Nat} {ops : List NvmOp} {r : UnitRead} (hr : s.nvm.run = none) (hj : s.nvm.jobs = [j])
    (ho : j.ops = .program none u d true bad sec :: ops) (hn : roRetired s.nvm.opt sec = false)
    (hu : readUnit (placeOf s.nvm.opt sec) u.toNat s = (r, t)) (hb : r.erased = false)
    (hw : j.who = .cmd c.seq) (hs : slotOfSeq (setFail sec 3 0 (countUnit r t)) c.seq = some c)
    (hjt : (setFail sec 3 0 (countUnit r t)).nvm.jobs = [j]) (h10 : (cmdOp c.entry).toNat ≠ 0x10) :
    pump s = endJob 0x10 sec (setFail sec 3 0 (countUnit r t)) := by
  obtain ⟨n, e⟩ := pump_succ s
  have step : pumpF (n + 2) s = pumpF (n + 1) (endJob 0x10 sec (setFail sec 3 0 (countUnit r t))) := by
    conv => lhs; unfold pumpF
    rw [hr, hj]
    dsimp only
    rw [ho]
    dsimp only
    rw [hn]
    have hu' : readUnit (opPlace s.nvm.opt none sec) u.toNat s = (r, t) := hu
    simp only [Option.isNone_none, Bool.and_false, Bool.false_eq_true, if_false, if_true, Option.isSome_none, hu', hb]
  rw [e, step, endJob_cmd hjt hw hs h10]
  exact pumpF_ended rfl rfl ..

/-- The last step of a command's only job is over: the command ends with status 0. -/
theorem opDone_last {s : State} {j : NvmJob} {o : NvmOp} {c : CmdSlot} (n : Nat) (hj : s.nvm.jobs = [j]) (ho : j.ops = [o])
    (hw : j.who = .cmd c.seq) (hq : j.waits = false) (hr : j.retiring = none) (hs : slotOfSeq s c.seq = some c)
    (h1 : (cmdOp c.entry).toNat ≠ 0x10) :
    opDone n s = setStage c.seq (jobEnd c { j with done := j.done + n } 0 0)
      { s with nvm := { s.nvm with jobs := [], run := none } } := by
  cases j
  cases ho
  cases hw
  cases hq
  cases hr
  unfold opDone modJob
  rw [hj]
  dsimp only
  unfold popOp
  dsimp only
  generalize hx : ({ s with nvm := _ } : State) = x
  have xr : x.nvm.run = none := by rw [← hx]
  have xs : slotOfSeq x c.seq = some c := by rw [← hx]; exact hs
  have xj : ∃ k, x.nvm.jobs = [k] := by rw [← hx]; exact ⟨_, rfl⟩
  obtain ⟨k, xj⟩ := xj
  have xk : k.ops = [] ∧ k.who = .cmd c.seq := by
    rw [← hx] at xj
    cases xj
    exact ⟨rfl, rfl⟩
  obtain ⟨m, e⟩ := pump_succ x
  rw [e, pumpF, if_neg (by rw [xr]; decide), xj]
  dsimp only
  rw [xk.1, xk.2]
  dsimp only
  rw [endJob_cmd xj xk.2 xs h1, pumpF_ended rfl rfl]
  rw [← hx] at xj ⊢
  cases xj
  rfl

theorem programOps_cons (o : Nat) {l : List Byte} (h : l ≠ []) (blank : Bool) : ∃ rest, programOps o l blank =
    .program none (BitVec.ofNat 9 (o / 32 % 512)) (ofLE 256 (padTo 32 (l.take 32))) blank false (o / 32 / 512) :: rest := by
  have hc : ∃ t, chunks 32 l = l.take 32 :: t := by
    unfold chunks chunksF
    rw [if_neg (by simpa using h)]
    exact ⟨_, rfl⟩
  obtain ⟨t, hc⟩ := hc
  unfold programOps
  rw [hc, List.zipIdx_cons, List.map_cons]
  exact ⟨_, rfl⟩

theorem padTo_length (n : Nat) (l : List Byte) : (padTo n l).length = n := by
  unfold padTo
  rw [List.length_append, List.length_take, List.length_replicate]
  omega

theorem marked_mark (k : Nat) (l : List Nat) : marked k (mark k true l) = true := by
  unfold marked
  induction l with
  | nil => simp [mark]
  | cons a l ih =>
    unfold mark
    split
    · simp
    · split
      · rename_i h
        subst h
        simp
      · rw [List.contains_cons, ih, Bool.or_true]

theorem aget_filter_sector (x : Nat) : ∀ (l : List (Nat × BitVec 256)) (k : Nat), k / 512 = x →
    aget k (l.filter (fun e => e.1 / 512 != x)) = none
  | [], _, _ => rfl
  | e :: l, k, h => by
    by_cases he : e.1 / 512 = x
    · rw [List.filter_cons_of_neg (by simp [he])]
      exact aget_filter_sector x l k h
    · rw [List.filter_cons_of_pos (by simp [he])]
      unfold aget
      rw [if_neg (fun q : e.1 = k => he (q ▸ h))]
      exact aget_filter_sector x l k h

theorem aget_aput {β : Type} (k : Nat) (v : β) : ∀ l : List (Nat × β), aget k (aput k v l) = some v
  | [] => by unfold aput aget; rw [if_pos rfl]
  | (a, y) :: l => by
    unfold aput
    split
    · unfold aget; rw [if_pos rfl]
    · split
      · unfold aget; rw [if_pos rfl]
      · unfold aget
        rw [if_neg (by omega)]
        exact aget_aput k v l

end Sys2Proof.Machine
end

