-- ==== Sys2Proof/Laws/Power.lean ====
section
/-! SUPPORT. What the entry of SLEEP and DEEP leaves, and how BIST takes the block over. -/

namespace Sys2Proof.Machine

theorem modOut_safe (k m : Nat) (f : Outlet → Outlet) (hf : ∀ o, (f o).safe = o.safe) (s : State) (hm : m < 96) :
    ((s.modOut k f).outlet m).safe = (s.outlet m).safe := by
  by_cases e : k = m
  · subst e
    rw [State.outlet_modOut _ _ hm, hf]
  · rw [State.outlet_modOut_other _ _ (Ne.symm e)]

theorem flushOut_safe (k m : Nat) (s : State) (hm : m < 96) : ((flushOut k s).outlet m).safe = (s.outlet m).safe := by
  unfold flushOut
  dsimp only
  rw [modOut_safe _ _ _ (by intro o; rfl) _ hm]
  split
  · exact modOut_safe _ _ _ (by intro o; rfl) _ hm
  · split
    · exact modOut_safe _ _ _ (by intro o; rfl) _ hm
    · rfl

theorem holdPads_wakeen (s : State) : (holdPads s).pwr.wakeen = s.pwr.wakeen := by
  have h1 : ∀ x : State, (x.each 96 (fun s n => flushOut n s)).pwr = x.pwr := fun x =>
    (Only.each (ps := [.out]) (fun s k => flushOut_only k s) x 96).pwr
  have h2 : ∀ x : State, (x.each 32 (fun s n => disarm n s)).pwr = x.pwr := fun x =>
    (Only.each (ps := [.fl, .tmr, .due]) (fun s k => disarm_only k s) x 32).pwr
  unfold holdPads
  dsimp only
  rw [(riderStop_only ..).pwr, h2, h1]

theorem holdPads_padHold (s : State) (n : Nat) (hn : n < 96) : ((holdPads s).outlet n).padHold = some (s.outlet n).safe := by
  have h2 : ∀ x : State, (x.each 32 (fun s n => disarm n s)).out = x.out := fun x =>
    (Only.each (ps := [.fl, .tmr, .due]) (fun s k => disarm_only k s) x 32).out
  have h1 : ∀ x : State, ((x.each 96 (fun s n => flushOut n s)).outlet n).safe = (x.outlet n).safe := by
    intro x
    unfold State.each
    generalize List.range 96 = L
    induction L generalizing x with
    | nil => rfl
    | cons a L ih => rw [List.foldl_cons, ih, flushOut_safe _ _ _ hn]
  unfold holdPads
  dsimp only
  generalize hy : riderStop _ = y
  have yo : y.out = (s.each 96 (fun s n => flushOut n s)).out := by rw [← hy, (riderStop_only ..).out, h2]
  have := h1 s
  unfold State.outlet at this ⊢
  rw [vget_vmap _ hn]
  dsimp only
  rw [yo, this]

theorem powerState_sleep {k : Slot} (c : CmdSlot) {s : State}
    (h : (fd (cmdP c.entry 0) 0 2 : BitVec 2).toNat = 2 ∨ (fd (cmdP c.entry 0) 0 2 : BitVec 2).toNat = 3) :
    powerState k c s = if sleepRefused s then done c 3 0 s else
      powerOnward k c (setStage c.seq (.running 0) (pauseCulvert (lgTrigger s.lg.slpp (abortLong
        { s with pwr := { s.pwr with trans := true, wakeen := fd (cmdP c.entry 1) 0 6 } })))) := by
  unfold powerState
  dsimp only
  rcases h with h | h <;> rw [h] <;> rfl

theorem wakeRequest_does (b : Nat) (s : State) :
    wakeRequest b s = s ∨ ∃ w, wakeRequest b s =
      hwSet 0x100C (1#32 <<< b) { s with pwr := { s.pwr with wakesrc := w, waking := true } } := by
  unfold wakeRequest
  dsimp only
  generalize (bit s.pwr.wakeen b && _) = q
  cases q
  · exact .inl rfl
  · exact .inr ⟨_, rfl⟩

/-- What DOZE leaves (R807). -/
theorem enterDoze_leaves (s : State) :
    (enterDoze s).pwr.st = .doze ∧ (enterDoze s).pwr.trans = false ∧ (enterDoze s).pwr.wakeen = s.pwr.wakeen := by
  unfold enterDoze
  dsimp only
  split
  · rcases wakeRequest_does 0 { s with pwr := { s.pwr with st := .doze, trans := false } } with e | ⟨w, e⟩ <;> rw [e] <;>
      (try rw [hwSet_pwr]) <;> exact ⟨rfl, rfl, rfl⟩
  · exact ⟨rfl, rfl, rfl⟩

theorem powerState_doze {k : Slot} {c : CmdSlot} {s : State} (h : (fd (cmdP c.entry 0) 0 2 : BitVec 2) = 1) :
    powerState k c s = enterDoze (finishSlot k c 0 0 0 { s with pwr := { s.pwr with wakeen := fd (cmdP c.entry 1) 0 6 } }) := by
  unfold powerState
  dsimp only
  rw [h]
  rfl

/-- What SLEEP and DEEP leave (R808, R813). -/
theorem enterSleep_leaves (deep : Bool) (x : State) : (enterSleep deep x).clk.running = false ∧
    (enterSleep deep x).pwr.st = (if deep then .deep else .sleep) ∧ (enterSleep deep x).pwr.trans = false ∧
    (enterSleep deep x).pwr.plllock = false ∧ (enterSleep deep x).pwr.wakeen = x.pwr.wakeen ∧
    ∀ n : Fin 96, ((enterSleep deep x).outlet n).padHold = some (x.outlet n).safe := by
  have key : ∀ y : State, (if y.ports.wakeI = true then wakeRequest 0 y else y).clk = y.clk ∧
      (if y.ports.wakeI = true then wakeRequest 0 y else y).out = y.out ∧
      (if y.ports.wakeI = true then wakeRequest 0 y else y).pwr.st = y.pwr.st ∧
      (if y.ports.wakeI = true then wakeRequest 0 y else y).pwr.trans = y.pwr.trans ∧
      (if y.ports.wakeI = true then wakeRequest 0 y else y).pwr.plllock = y.pwr.plllock ∧
      (if y.ports.wakeI = true then wakeRequest 0 y else y).pwr.wakeen = y.pwr.wakeen := by
    intro y
    split
    · rcases wakeRequest_does 0 y with e | ⟨w, e⟩ <;> rw [e] <;> (try rw [hwSet_pwr, hwSet_clk, hwSet_out]) <;>
        exact ⟨rfl, rfl, rfl, rfl, rfl, rfl⟩
    · exact ⟨rfl, rfl, rfl, rfl, rfl, rfl⟩
  unfold enterSleep
  dsimp only
  generalize hz : idleLanes deep (holdPads x) = z
  have zp : z.pwr = (holdPads x).pwr := by rw [← hz]; exact (idleLanes_only ..).pwr (by decide)
  have zo : z.out = (holdPads x).out := by rw [← hz]; exact (idleLanes_only ..).out (by decide)
  have hp := holdPads_wakeen x
  have ho := holdPads_padHold x
  generalize holdPads x = w at zp zo hp ho
  obtain ⟨k1, k2, k3, k4, k5, k6⟩ := key { stopClocks z with pwr := { (stopClocks z).pwr with
    st := if deep then .deep else .sleep, trans := false, holdrel := false, oeHold := (stopClocks z).pwr.oeHold || deep
    riderHold := if deep then some (0, 0) else (stopClocks z).pwr.riderHold
    aoGauge := if deep then (stopClocks z).clk.gauge else (stopClocks z).pwr.aoGauge
    aoRatio := if deep then (stopClocks z).gp.ratio else (stopClocks z).pwr.aoRatio } }
  refine ⟨(congrArg (fun c => c.running) k1).trans rfl, k3.trans rfl, k4.trans rfl, k5.trans rfl, k6.trans ?_, fun n => ?_⟩
  · show z.pwr.wakeen = _
    rw [zp, hp]
  · have := ho n n.isLt
    unfold State.outlet at this ⊢
    rw [k2]
    show (vget z.out _ _).padHold = _
    rw [zo, this]

/-! ## BIST -/

/-- What the hand-over to the BIST controller leaves (R880, R882). -/
theorem bistEnter_leaves (s : State) : (bistEnter s).clk.running = false ∧ (bistEnter s).bist.starting = false ∧
    (bistEnter s).bist.valid = false ∧ (bistEnter s).bist.phase = (if s.bist.wantLogic then .logic else .memory) ∧
    ((bistCmd s).isSome = true → (bistEnter s).bist.pend = true ∧ (bistEnter s).bist.dbg = false) ∧
    ((bistCmd s).isSome = false → (bistEnter s).bist.dbg = true) ∧
    (bistEnter s).pwr.aoGauge = s.clk.gauge ∧ (bistEnter s).pwr.aoRatio = s.gp.ratio ∧
    ∀ n : Fin 96, ((bistEnter s).outlet n).padHold = some (s.outlet n).safe := by
  unfold bistEnter
  dsimp only
  have he := enterSafe15_only s
  generalize hx : enterSafe15 s = x at he ⊢
  generalize hz : idleLanes true (holdPads x) = z
  have hzo := idleLanes_only true (holdPads x)
  rw [hz] at hzo
  have hp := holdPads_only x
  have ho := holdPads_padHold x
  replace ho : ∀ n, n < 96 → ((holdPads x).outlet n).padHold = some (s.outlet n).safe := fun n hn => by
    rw [ho n hn, outlet_eq n (he.out (by decide))]
  have zo : z.out = (holdPads x).out := hzo.out (by decide)
  have zb : z.bist = s.bist := (hzo.bist (by decide)).trans ((hp.bist (by decide)).trans (he.bist (by decide)))
  have zc : z.clk = s.clk := (hzo.clk (by decide)).trans ((hp.clk (by decide)).trans (he.clk (by decide)))
  have zg : z.gp = s.gp := (hzo.gp (by decide)).trans ((hp.gp (by decide)).trans (he.gp (by decide)))
  generalize holdPads x = w at zo ho
  have hout : ∀ n : Fin 96, (vget z.out n.val {}).padHold = some (s.outlet n).safe := fun n => by
    have := ho n n.isLt
    unfold State.outlet at this ⊢
    rw [zo, this]
  rw [zb, zc, zg]
  generalize bistCmd s = m
  cases m with
  | none =>
    refine ⟨?_, ?_, ?_, ?_, ?_, ?_, ?_, ?_, hout⟩
    all_goals first | rfl | exact fun _ => rfl | exact fun h => by cases h
  | some p =>
    obtain ⟨k, c⟩ := p
    refine ⟨?_, ?_, ?_, ?_, ?_, ?_, ?_, ?_, hout⟩
    all_goals first | rfl | exact fun _ => ⟨rfl, rfl⟩ | exact fun h => by cases h

/-- A command in slot k that runs, with the opcode of BIST_RUN, is the one that BIST answers to. -/
theorem bistCmd_some {k : Slot} {c : CmdSlot} {s : State} {r : U64} (hk : slotAt s k = some { c with stage := .running r })
    (ho : (cmdOp c.entry).toNat = 0x90) : (bistCmd s).isSome = true := by
  unfold bistCmd
  rw [List.find?_isSome]
  refine ⟨(k, { c with stage := .running r }), ?_, by simp [ho]⟩
  unfold longSlots
  rw [List.mem_filterMap]
  refine ⟨k, ?_, ?_⟩
  · cases k with
    | link => decide
    | sq n =>
      clear hk
      revert n
      decide
  · rw [hk]
    dsimp only
    rw [if_pos (by unfold isLong; rw [ho]; decide)]

/-- What a start of BIST comes to at once (R254, R880): it waits for the block to be quiet and for no other thread to be in safe
mode, or BIST has begun. -/
theorem bistBegin_does (logic memory : Bool) (s : State) :
    ((bistBegin logic memory s).bist = { s.bist with starting := true, wantLogic := logic, wantMem := memory } ∧
      (quiet (bistBegin logic memory s) && (bistBegin logic memory s).seq.safeThr.isNone) = false ∧ (bistBegin logic memory s).clk = s.clk ∧ (bistBegin logic memory s).hg = s.hg) ∨
    ((bistBegin logic memory s).clk.running = false ∧ (bistBegin logic memory s).bist.starting = false ∧
      (bistBegin logic memory s).bist.valid = false ∧
      (bistBegin logic memory s).bist.phase = (if logic then .logic else .memory) ∧
      ((bistCmd s).isSome = true → (bistBegin logic memory s).bist.pend = true ∧ (bistBegin logic memory s).bist.dbg = false) ∧
      ((bistCmd s).isSome = false → (bistBegin logic memory s).bist.dbg = true) ∧
      (bistBegin logic memory s).pwr.aoGauge = s.clk.gauge ∧ (bistBegin logic memory s).pwr.aoRatio = s.gp.ratio ∧
      ∀ n : Fin 96, ((bistBegin logic memory s).outlet n).padHold = some (s.outlet n).safe) := by
  unfold bistBegin
  generalize hx : ({ s with bist := { s.bist with starting := true, wantLogic := logic, wantMem := memory } } : State) = x
  have xb : x.bist = { s.bist with starting := true, wantLogic := logic, wantMem := memory } := by rw [← hx]
  have yo : Only [.lg, .cul] x (pauseCulvert (lgTrigger true x)) := .of' (.mono (lgTrigger_only ..)) (.mono (pauseCulvert_only ..))
  generalize pauseCulvert (lgTrigger true x) = y at yo ⊢
  have yb : y.bist = { s.bist with starting := true, wantLogic := logic, wantMem := memory } := (yo.bist (by decide)).trans xb
  have yc : y.clk = s.clk := (yo.clk (by decide)).trans (by rw [← hx])
  have yh : y.hg = s.hg := (yo.hg (by decide)).trans (by rw [← hx])
  have yg : y.gp = s.gp := (yo.gp (by decide)).trans (by rw [← hx])
  have yu : y.out = s.out := (yo.out (by decide)).trans (by rw [← hx])
  have ym : bistCmd y = bistCmd s := by
    unfold bistCmd longSlots
    have : ∀ k, slotAt y k = slotAt s k := fun k => slotAt_hg k yh
    simp only [this]
  unfold bistOnward
  rw [show y.bist.starting = true by rw [yb], Bool.true_and]
  split
  · right
    have l := bistEnter_leaves y
    rw [yc, yg, ym, yb] at l
    have e : ∀ n, y.outlet n = s.outlet n := fun n => by unfold State.outlet; rw [yu]
    refine ⟨l.1, l.2.1, l.2.2.1, l.2.2.2.1, l.2.2.2.2.1, l.2.2.2.2.2.1, l.2.2.2.2.2.2.1, l.2.2.2.2.2.2.2.1, fun n => ?_⟩
    rw [l.2.2.2.2.2.2.2.2 n, e]
  · exact .inl ⟨yb, Bool.eq_false_iff.mpr ‹¬ (quiet y && y.seq.safeThr.isNone) = true›, yc, yh⟩

end Sys2Proof.Machine
end

