-- ==== Sys2Proof/Laws/Reads.lean ====
section
/-! SUPPORT. What a read of a register with a side effect answers and does. -/

namespace Sys2Proof.Machine

set_option linter.unusedSimpArgs false

theorem busRead_low {off : Nat} (h : off < 0x40000) (h4 : off % 4 = 0) (ag : Agent) (s : State) :
    busRead ag false off s = ({ data := regValue s ag off }, regEffect ag off s) := by
  have e : off / 4 * 4 = off := by omega
  unfold busRead
  dsimp only
  rw [e]
  exact if_neg (Nat.not_le.mpr h)

/-- Only a read of a CLAIM can come too late in its fc (R630). -/
theorem claimTurn_other {off : Nat} (h : off < 0x3000 ∨ 0x3080 ≤ off) (s : State) (k : Option Nat) : claimTurn s k off = true := by
  unfold claimTurn
  dsimp only
  rcases h with h | h
  · rw [decide_eq_false (Nat.not_le.mpr h)]; rfl
  · rw [decide_eq_false (Nat.not_lt.mpr h), Bool.and_false]; rfl

/-- A read by host software is answered with the register's value and has its side effect (R901). -/
theorem readRow_host {off : Nat} (h : off < 0x40000) (h4 : off % 4 = 0) {s : State} (hc : coreOff s = false)
    (ht : claimTurn s none off = true) :
    readRow .host off s = answer (regEffect .host off s) .host { data := regValue s .host off } := by
  unfold readRow
  dsimp only
  rw [busRead_low h h4, onCore_on _ hc]
  exact if_pos ht

/-- The answer that host software then finds. -/
theorem readRow_answer {off : Nat} (h : off < 0x40000) (h4 : off % 4 = 0) {s : State} (hc : coreOff s = false)
    (ht : claimTurn s none off = true) :
    (readRow .host off s).apb = { rdata := regValue s .host off, slverr := false } := by
  rw [readRow_host h h4 hc ht, answer_host]
  rw [if_neg Bool.false_ne_true]

theorem regRead_cap (ag : Agent) (n : Fin 32) (s : State) : regValue s ag (0x611C + 0x40 * n.val) = tmrRead s n 0x1C ∧
    regEffect ag (0x611C + 0x40 * n.val) s = (readCap n s).2 := by
  have ha : assigned (0x611C + 0x40 * n.val) = true := by decide +revert
  have e0 : ((0x611C + 0x40 * n.val) - 0x6100) / 0x40 = n.val := by omega
  have e1 : (0x611C + 0x40 * n.val) % 0x40 = 0x1C := by omega
  unfold regValue regEffect
  rw [ha, e0, e1]
  constructor
  · simp (disch := omega) only [Bool.not_true, Bool.false_eq_true, if_false, if_neg, if_pos]
    try rfl
  · simp (disch := omega) [if_neg, if_pos]
    try rfl

theorem regRead_rxd (ag : Agent) (n : Fin 32) (s : State) : regValue s ag (0xA02C + 0x40 * n.val) = (s.rch n).rx.headD 0 ∧
    regEffect ag (0xA02C + 0x40 * n.val) s = (popRx n s).2 := by
  have ha : assigned (0xA02C + 0x40 * n.val) = true := by decide +revert
  have e0 : ((0xA02C + 0x40 * n.val) - 0xA000) / 0x40 = n.val := by omega
  have e1 : (0xA02C + 0x40 * n.val) % 0x40 = 0x2C := by omega
  unfold regValue regEffect
  rw [ha, e0, e1]
  constructor
  · simp (disch := omega) only [Bool.not_true, Bool.false_eq_true, if_false, if_neg, if_pos]
    try rfl
  · simp (disch := omega) [if_neg, if_pos]
    try rfl

theorem regRead_pbdata (ag : Agent) (n : Fin 32) (s : State) : regValue s ag (0x9038 + 0x40 * n.val) = pbdata (s.flume n) ∧
    regEffect ag (0x9038 + 0x40 * n.val) s = bankOp ag n .read s := by
  have ha : assigned (0x9038 + 0x40 * n.val) = true := by decide +revert
  have e0 : ((0x9038 + 0x40 * n.val) - 0x9000) / 0x40 = n.val := by omega
  have e1 : (0x9038 + 0x40 * n.val) % 0x40 = 0x38 := by omega
  unfold regValue regEffect
  rw [ha, e0, e1]
  constructor
  · simp (disch := omega) only [Bool.not_true, Bool.false_eq_true, if_false, if_neg, if_pos]
    try rfl
  · simp (disch := omega) [if_neg, if_pos]
    try rfl

theorem regRead_mb1 (ag : Agent) (n : Fin 32) (s : State) : regValue s ag (0x9028 + 0x40 * n.val) = mbShown s n false ∧
    regEffect ag (0x9028 + 0x40 * n.val) s = mbClear n false s := by
  have ha : assigned (0x9028 + 0x40 * n.val) = true := by decide +revert
  have e0 : ((0x9028 + 0x40 * n.val) - 0x9000) / 0x40 = n.val := by omega
  have e1 : (0x9028 + 0x40 * n.val) % 0x40 = 0x28 := by omega
  unfold regValue regEffect
  rw [ha, e0, e1]
  constructor
  · simp (disch := omega) only [Bool.not_true, Bool.false_eq_true, if_false, if_neg, if_pos]
    try rfl
  · simp (disch := omega) [if_neg, if_pos]
    try rfl

theorem regRead_mb2 (ag : Agent) (n : Fin 32) (s : State) : regValue s ag (0x902C + 0x40 * n.val) = mbShown s n true ∧
    regEffect ag (0x902C + 0x40 * n.val) s = mbClear n true s := by
  have ha : assigned (0x902C + 0x40 * n.val) = true := by decide +revert
  have e0 : ((0x902C + 0x40 * n.val) - 0x9000) / 0x40 = n.val := by omega
  have e1 : (0x902C + 0x40 * n.val) % 0x40 = 0x2C := by omega
  unfold regValue regEffect
  rw [ha, e0, e1]
  constructor
  · simp (disch := omega) only [Bool.not_true, Bool.false_eq_true, if_false, if_neg, if_pos]
    try rfl
  · simp (disch := omega) [if_neg, if_pos]
    try rfl

theorem regRead_mbt (ag : Agent) (n : Fin 32) (s : State) : regValue s ag (0x9024 + 0x40 * n.val) = (s.flume n).mbt ∧
    regEffect ag (0x9024 + 0x40 * n.val) s = s := by
  have ha : assigned (0x9024 + 0x40 * n.val) = true := by decide +revert
  have e0 : ((0x9024 + 0x40 * n.val) - 0x9000) / 0x40 = n.val := by omega
  have e1 : (0x9024 + 0x40 * n.val) % 0x40 = 0x24 := by omega
  unfold regValue regEffect
  rw [ha, e0, e1]
  constructor
  · simp (disch := omega) only [Bool.not_true, Bool.false_eq_true, if_false, if_neg, if_pos]
    try rfl
  · simp (disch := omega) [if_neg, if_pos]
    try rfl

theorem regRead_claim (ag : Agent) (t : Fin 8) (s : State) : regValue s ag (0x3004 + 0x10 * t.val) = (claimTarget t s).1 ∧
    regEffect ag (0x3004 + 0x10 * t.val) s = claimRead ag.thread t s := by
  have ha : assigned (0x3004 + 0x10 * t.val) = true := by decide +revert
  have e0 : (0x3004 + 0x10 * t.val) - 0x3000 = 4 + 0x10 * t.val := by omega
  have e1 : (4 + 0x10 * t.val) / 0x10 = t.val := by omega
  have e2 : (4 + 0x10 * t.val) % 0x10 = 4 := by omega
  unfold regValue regEffect
  rw [ha, e0]
  constructor
  · simp (disch := omega) only [Bool.not_true, Bool.false_eq_true, if_false, if_neg, if_pos]
    unfold turnoutRead
    dsimp only
    rw [e1, e2]
    simp (disch := omega) only [Bool.not_true, Bool.false_eq_true, if_false, if_neg, if_pos]
  · simp (disch := omega) [if_neg, if_pos]
    unfold turnoutReadEffect
    rw [e1, e2, if_pos (by rw [decide_eq_true (by omega : 4 + 0x10 * t.val < 0x80)]; rfl)]

theorem regRead_hgevlost (ag : Agent) (s : State) : regValue s ag (0x200C) = rcShown s 0x200C s.hg.evlost ∧
    regEffect ag (0x200C) s =
      rcTaken 0x200C (dirty { s with hg := { s.hg with evlost := rcLeft s 0x200C } }) := by
  have ha : assigned (0x200C) = true := by decide
  unfold regValue regEffect
  rw [ha]
  constructor
  · simp (disch := omega) only [Bool.not_true, Bool.false_eq_true, if_false, if_neg, if_pos]
    try rfl
  · simp (disch := omega) [if_neg, if_pos]
    try rfl

theorem regRead_cerr (ag : Agent) (l : Fin 4) (s : State) : regValue s ag (0x2310C + 0x20 * l.val) = linkRead s (0x10C + 0x20 * l.val) ∧
    regEffect ag (0x2310C + 0x20 * l.val) s =
      rcTaken (0x23000 + (0x10C + 0x20 * l.val)) (s.modLane l (fun x => { x with cerr := rcLeft s (0x23000 + (0x10C + 0x20 * l.val)) })) := by
  have ha : assigned (0x2310C + 0x20 * l.val) = true := by decide +revert
  have e0 : (0x2310C + 0x20 * l.val) - 0x23000 = 0x10C + 0x20 * l.val := by omega
  have e1 : (0x10C + 0x20 * l.val - 0x100) / 0x20 = l.val := by omega
  have e2 : (0x10C + 0x20 * l.val) % 0x20 = 0xC := by omega
  unfold regValue regEffect
  rw [ha, e0]
  constructor
  · simp (disch := omega) only [Bool.not_true, Bool.false_eq_true, if_false, if_neg, if_pos]
  · simp (disch := omega) [if_neg, if_pos]
    unfold linkReadEffect
    dsimp only
    rw [e1, e2, if_neg (by omega), if_pos (by rw [decide_eq_true (by omega : 0x100 ≤ 0x10C + 0x20 * l.val), decide_eq_true (by omega : 0x10C + 0x20 * l.val < 0x180)]; rfl)]

theorem regRead_netdrop (ag : Agent) (s : State) : regValue s ag (0x23034) = rcShown s 0x23034 s.link.netdrop ∧
    regEffect ag (0x23034) s = rcTaken 0x23034 { s with link := { s.link with netdrop := rcLeft s 0x23034 } } := by
  have ha : assigned (0x23034) = true := by decide
  unfold regValue regEffect
  rw [ha]
  constructor
  · simp (disch := omega) only [Bool.not_true, Bool.false_eq_true, if_false, if_neg, if_pos]
    try rfl
  · simp (disch := omega) [if_neg, if_pos]
    try rfl

theorem regRead_nrxlost (ag : Agent) (s : State) : regValue s ag (0x2305C) = rcShown s 0x2305C s.link.nrxLost ∧
    regEffect ag (0x2305C) s = rcTaken 0x2305C { s with link := { s.link with nrxLost := rcLeft s 0x2305C } } := by
  have ha : assigned (0x2305C) = true := by decide
  unfold regValue regEffect
  rw [ha]
  constructor
  · simp (disch := omega) only [Bool.not_true, Bool.false_eq_true, if_false, if_neg, if_pos]
    try rfl
  · simp (disch := omega) [if_neg, if_pos]
    try rfl

theorem regRead_dmgl (ag : Agent) (c : Fin 16) (s : State) : regValue s ag (0x24118 + 0x20 * c.val) = lgRead s (0x118 + 0x20 * c.val) ∧
    regEffect ag (0x24118 + 0x20 * c.val) s = lgReadEffect (0x118 + 0x20 * c.val) s := by
  have ha : assigned (0x24118 + 0x20 * c.val) = true := by decide +revert
  have e0 : (0x24118 + 0x20 * c.val) - 0x24000 = 0x118 + 0x20 * c.val := by omega
  unfold regValue regEffect
  rw [ha, e0]
  constructor
  · simp (disch := omega) only [Bool.not_true, Bool.false_eq_true, if_false, if_neg, if_pos]
    try rfl
  · simp (disch := omega) [if_neg, if_pos]
    try rfl

theorem regRead_nvmcnt (ag : Agent) (s : State) : regValue s ag (0x25018) = nvmReg s 0x18 ∧
    regEffect ag (0x25018) s = rcTaken 0x25018
      { s with nvm := { s.nvm with corr := fd (rcLeft s 0x25018) 0 16, unc := fd (rcLeft s 0x25018) 16 16 } } := by
  have ha : assigned (0x25018) = true := by decide
  unfold regValue regEffect
  rw [ha]
  constructor
  · simp (disch := omega) only [Bool.not_true, Bool.false_eq_true, if_false, if_neg, if_pos]
    try rfl
  · simp (disch := omega) [if_neg, if_pos]
    try rfl

theorem regRead_lgmdata (ag : Agent) (s : State) : regValue s ag (0x24020) = lgRead s 0x20 ∧
    regEffect ag (0x24020) s = nextMaddr s := by
  have ha : assigned (0x24020) = true := by decide
  unfold regValue regEffect
  rw [ha]
  constructor
  · simp (disch := omega) only [Bool.not_true, Bool.false_eq_true, if_false, if_neg, if_pos]
    try rfl
  · simp (disch := omega) [if_neg, if_pos]
    try rfl

theorem regRead_cwcor (ag : Agent) (p : Fin 4) {s : State} (h : portFormed s p.val = true) :
    regValue s ag (0x2320C + 0x200 * p.val) = rcShown s (0x23200 + 0x200 * p.val + 0xC) (s.port p.val).cwcor ∧
    regEffect ag (0x2320C + 0x200 * p.val) s =
      rcTaken (0x23000 + (0x20C + 0x200 * p.val)) (s.modPort p.val (fun q => { q with cwcor := rcLeft s (0x23000 + (0x20C + 0x200 * p.val)) })) := by
  have ha : assigned (0x2320C + 0x200 * p.val) = true := by clear h; decide +revert
  have e0 : 0x2320C + 0x200 * p.val - 0x23000 = 0x20C + 0x200 * p.val := by omega
  have e1 : (0x20C + 0x200 * p.val - 0x200) / 0x200 = p.val := by omega
  have e2 : (0x20C + 0x200 * p.val - 0x200) % 0x200 = 0xC := by omega
  unfold regValue regEffect
  rw [ha, e0]
  constructor
  · simp (disch := omega) only [Bool.not_true, Bool.false_eq_true, if_false, if_neg, if_pos]
    unfold linkRead portRead
    rw [e1, e2]
    exact (if_pos (by omega)).trans ((if_neg (by simp [h])).trans rfl)
  · simp (disch := omega) [if_neg, if_pos]
    unfold linkReadEffect
    dsimp only
    rw [e1, e2, if_pos (by omega), if_neg (by simp [h])]
    rfl

theorem regRead_cwunc (ag : Agent) (p : Fin 4) {s : State} (h : portFormed s p.val = true) :
    regValue s ag (0x23210 + 0x200 * p.val) = rcShown s (0x23200 + 0x200 * p.val + 0x10) (s.port p.val).cwunc ∧
    regEffect ag (0x23210 + 0x200 * p.val) s =
      rcTaken (0x23000 + (0x210 + 0x200 * p.val)) (s.modPort p.val (fun q => { q with cwunc := rcLeft s (0x23000 + (0x210 + 0x200 * p.val)) })) := by
  have ha : assigned (0x23210 + 0x200 * p.val) = true := by clear h; decide +revert
  have e0 : 0x23210 + 0x200 * p.val - 0x23000 = 0x210 + 0x200 * p.val := by omega
  have e1 : (0x210 + 0x200 * p.val - 0x200) / 0x200 = p.val := by omega
  have e2 : (0x210 + 0x200 * p.val - 0x200) % 0x200 = 0x10 := by omega
  unfold regValue regEffect
  rw [ha, e0]
  constructor
  · simp (disch := omega) only [Bool.not_true, Bool.false_eq_true, if_false, if_neg, if_pos]
    unfold linkRead portRead
    rw [e1, e2]
    exact (if_pos (by omega)).trans ((if_neg (by simp [h])).trans rfl)
  · simp (disch := omega) [if_neg, if_pos]
    unfold linkReadEffect
    dsimp only
    rw [e1, e2, if_pos (by omega), if_neg (by simp [h])]
    rfl

theorem regRead_oserr (ag : Agent) (p : Fin 4) {s : State} (h : portFormed s p.val = true) :
    regValue s ag (0x23214 + 0x200 * p.val) = rcShown s (0x23200 + 0x200 * p.val + 0x14) (s.port p.val).oserr ∧
    regEffect ag (0x23214 + 0x200 * p.val) s =
      rcTaken (0x23000 + (0x214 + 0x200 * p.val)) (s.modPort p.val (fun q => { q with oserr := rcLeft s (0x23000 + (0x214 + 0x200 * p.val)) })) := by
  have ha : assigned (0x23214 + 0x200 * p.val) = true := by clear h; decide +revert
  have e0 : 0x23214 + 0x200 * p.val - 0x23000 = 0x214 + 0x200 * p.val := by omega
  have e1 : (0x214 + 0x200 * p.val - 0x200) / 0x200 = p.val := by omega
  have e2 : (0x214 + 0x200 * p.val - 0x200) % 0x200 = 0x14 := by omega
  unfold regValue regEffect
  rw [ha, e0]
  constructor
  · simp (disch := omega) only [Bool.not_true, Bool.false_eq_true, if_false, if_neg, if_pos]
    unfold linkRead portRead
    rw [e1, e2]
    exact (if_pos (by omega)).trans ((if_neg (by simp [h])).trans rfl)
  · simp (disch := omega) [if_neg, if_pos]
    unfold linkReadEffect
    dsimp only
    rw [e1, e2, if_pos (by omega), if_neg (by simp [h])]
    rfl

theorem regRead_frdrop (ag : Agent) (p : Fin 4) {s : State} (h : portFormed s p.val = true) :
    regValue s ag (0x23318 + 0x200 * p.val) = rcShown s (0x23200 + 0x200 * p.val + 0x118) (s.port p.val).frdrop ∧
    regEffect ag (0x23318 + 0x200 * p.val) s =
      rcTaken (0x23000 + (0x318 + 0x200 * p.val)) (s.modPort p.val (fun q => { q with frdrop := rcLeft s (0x23000 + (0x318 + 0x200 * p.val)) })) := by
  have ha : assigned (0x23318 + 0x200 * p.val) = true := by clear h; decide +revert
  have e0 : 0x23318 + 0x200 * p.val - 0x23000 = 0x318 + 0x200 * p.val := by omega
  have e1 : (0x318 + 0x200 * p.val - 0x200) / 0x200 = p.val := by omega
  have e2 : (0x318 + 0x200 * p.val - 0x200) % 0x200 = 0x118 := by omega
  unfold regValue regEffect
  rw [ha, e0]
  constructor
  · simp (disch := omega) only [Bool.not_true, Bool.false_eq_true, if_false, if_neg, if_pos]
    unfold linkRead portRead
    rw [e1, e2]
    exact (if_pos (by omega)).trans ((if_neg (by simp [h])).trans rfl)
  · simp (disch := omega) [if_neg, if_pos]
    unfold linkReadEffect
    dsimp only
    rw [e1, e2, if_pos (by omega), if_neg (by simp [h])]
    rfl

theorem threadAgent_thread (s : State) {n : Nat} (hn : n < 16) : (threadAgent s n).thread = some n := by
  have e : (BitVec.ofNat 4 n).toNat = n := by rw [BitVec.toNat_ofNat]; omega
  unfold threadAgent
  dsimp only
  split
  · exact congrArg some e
  · split <;> exact congrArg some e

theorem regRead_tdpoll (s : State) {n : Nat} (hn : n < 16) :
    regValue s (threadAgent s n) 0x3144 = (tdpoll n s).1 ∧ regEffect (threadAgent s n) 0x3144 s = (tdpoll n s).2 := by
  have ha : assigned 0x3144 = true := by decide
  unfold regValue regEffect
  rw [ha, threadAgent_thread s hn]
  constructor
  · simp (disch := omega) only [Bool.not_true, Bool.false_eq_true, if_false, if_neg, if_pos]
    rfl
  · simp (disch := omega) [if_neg, if_pos]
    rfl

end Sys2Proof.Machine
end

