-- ==== Sys2Proof/Laws/Units.lean ====
section
/-! SUPPORT. What the units of an operation word leave: flags and the results of the ALUs (R304, R307-R310). -/

namespace Sys2Proof.Machine

/-- Registers, flags and pc are the same, and only results outside safe mode are owed. -/
structure SameRegs (c d : Ctx) : Prop where
  g : d.g = c.g
  nzcv : d.nzcv = c.nzcv
  flow : d.pc = c.pc ∧ d.ds = c.ds ∧ d.rep = c.rep ∧ d.long = c.long ∧ d.prog = c.prog
  pw : (∀ p ∈ c.pw, p.safe = false) → ∀ p ∈ d.pw, p.safe = false

theorem SameRegs.refl (c : Ctx) : SameRegs c c := ⟨rfl, rfl, ⟨rfl, rfl, rfl, rfl, rfl⟩, id⟩

theorem SameRegs.trans {a b c : Ctx} (h : SameRegs a b) (k : SameRegs b c) : SameRegs a c :=
  ⟨k.g.trans h.g, k.nzcv.trans h.nzcv, ⟨k.flow.1.trans h.flow.1, k.flow.2.1.trans h.flow.2.1,
    k.flow.2.2.1.trans h.flow.2.2.1, k.flow.2.2.2.1.trans h.flow.2.2.2.1, k.flow.2.2.2.2.trans h.flow.2.2.2.2⟩,
    fun hp => k.pw (h.pw hp)⟩

theorem SameRegs.foldl {α : Type} {f : Ctx → α → Ctx} (h : ∀ c x, SameRegs c (f c x)) :
    ∀ (l : List α) (c : Ctx), SameRegs c (l.foldl f c)
  | [], c => .refl c
  | x :: l, c => (h c x).trans (SameRegs.foldl h l (f c x))

theorem SameRegs.produce (word dist : Nat) (what : Prod) (c : Ctx) : SameRegs c (produce word dist what c) :=
  ⟨rfl, rfl, ⟨rfl, rfl, rfl, rfl, rfl⟩, id⟩

theorem insPw_mem {p q : PendWrite} : ∀ {l : List PendWrite}, q ∈ insPw p l → q = p ∨ q ∈ l
  | [], h => .inl (List.mem_singleton.mp h)
  | r :: t, h => by
    unfold insPw at h
    split at h
    · rcases List.mem_cons.mp h with h | h
      · exact .inr (List.mem_cons.mpr (.inl h))
      · rcases insPw_mem h with h | h
        · exact .inl h
        · exact .inr (List.mem_cons_of_mem _ h)
    · exact List.mem_cons.mp h

theorem SameRegs.oweAt (now word dist : Nat) (what : Owed) (c : Ctx) : SameRegs c (oweAt false now word dist what c) := by
  unfold Machine.oweAt
  rw [if_neg Bool.false_ne_true]
  refine ⟨rfl, rfl, ⟨rfl, rfl, rfl, rfl, rfl⟩, fun h p hp => ?_⟩
  rcases insPw_mem hp with rfl | hp
  · rfl
  · exact h p hp

theorem SameRegs.oweLoad (now word : Nat) (what : Owed) (c : Ctx) : SameRegs c (oweLoad false now word what c) := by
  refine ⟨rfl, rfl, ⟨rfl, rfl, rfl, rfl, rfl⟩, fun h p hp => ?_⟩
  rcases insPw_mem hp with rfl | hp
  · rfl
  · exact h p hp

theorem SameRegs.ite {c d e : Ctx} (b : Prop) [Decidable b] (h : SameRegs c d) (k : SameRegs c e) :
    SameRegs c (if b then d else e) := by
  split
  · exact h
  · exact k

theorem seq_thr {s t : State} (n : Nat) (h : t.seq = s.seq) : t.thr n = s.thr n := by
  unfold State.thr; rw [h]

/-- The thread is as it was but for its reservation. -/
def ResvOnly (t u : Thread) : Prop := u = { t with ctx := { t.ctx with resv := u.ctx.resv } }

theorem ResvOnly.trans {t u v : Thread} (h : ResvOnly t u) (k : ResvOnly u v) : ResvOnly t v := by
  unfold ResvOnly at *
  generalize u.ctx.resv = r at h
  subst h
  exact k

theorem storeHost_resv {n : Nat} (hn : n < 16) (a : U48) (l : List Byte) (s : State) :
    ResvOnly (s.thr n) ((storeHost a l s).thr n) := by
  unfold storeHost
  refine foldl_stays (fun x : State => ResvOnly (s.thr n) (x.thr n)) (fun x g hx => hx.trans (dropResv_thr hn true g x)) _ _ ?_
  rw [seq_thr n (hostWrite_only ..).seq]
  rfl

theorem storeHost_mem (a : U48) (l : List Byte) (s : State) : (storeHost a l s).mem = (hostWrite s a l).mem := by
  unfold storeHost
  exact foldl_stays (fun x : State => x.mem = (hostWrite s a l).mem) (fun x g hx => (dropResv_only true g x).mem.trans hx) _ _ rfl

theorem ResvOnly.regs {t u : Thread} (h : ResvOnly t u) : SameRegs t.ctx u.ctx ∧ u.stopReq = t.stopReq ∧ u.issue = t.issue ∧
    u.words = t.words := by
  unfold ResvOnly at h
  generalize u.ctx.resv = r at h
  subst h
  exact ⟨⟨rfl, rfl, ⟨rfl, rfl, rfl, rfl, rfl⟩, id⟩, rfl, rfl, rfl⟩

/-- A posted store leaves registers, flags and flow as they are. -/
theorem postStore_regs {n : Nat} (hn : n < 16) (pc : U16) (a : U32) (l : List Byte) (s : State) :
    SameRegs (s.thr n).ctx ((postStore n pc a l s).thr n).ctx ∧
      ((postStore n pc a l s).thr n).stopReq = (s.thr n).stopReq ∧ ((postStore n pc a l s).thr n).issue = (s.thr n).issue ∧
      ((postStore n pc a l s).thr n).words = (s.thr n).words := by
  unfold postStore
  split
  · split
    · rw [State.thr_modThr _ _ hn]
      split <;> exact ⟨.refl _, rfl, rfl, rfl⟩
    · rw [storeThread_thr hn]
      exact ⟨⟨rfl, rfl, ⟨rfl, rfl, rfl, rfl, rfl⟩, id⟩, rfl, rfl, rfl⟩
  · rw [seq_thr n (schedule_only ..).seq]
    exact ⟨.refl _, rfl, rfl, rfl⟩
  · rw [seq_thr n (schedule_only ..).seq]
    exact ⟨.refl _, rfl, rfl, rfl⟩
  · dsimp only
    rw [State.thr_modThr _ _ hn]
    exact (storeHost_resv hn (hostAddr s a) l s).regs
  · exact ⟨.refl _, rfl, rfl, rfl⟩

/-- `t` is what units leave of `s` in thread n: the registers and flags of `c`, all counts as they were. -/
structure UnitsLeave (n : Nat) (c : Ctx) (s t : State) : Prop where
  regs : SameRegs c (t.thr n).ctx
  rest : (t.thr n).stopReq = (s.thr n).stopReq ∧ (t.thr n).issue = (s.thr n).issue ∧ (t.thr n).words = (s.thr n).words

theorem UnitsLeave.of_seq {n : Nat} {c : Ctx} {s t u : State} (h : UnitsLeave n c s t) (e : u.seq = t.seq) :
    UnitsLeave n c s u := by
  have : u.thr n = t.thr n := seq_thr n e
  exact ⟨by rw [this]; exact h.regs, by rw [this]; exact h.rest⟩

theorem UnitsLeave.of_ite {n : Nat} {c : Ctx} {s t u : State} {b : Prop} [Decidable b] (h : UnitsLeave n c s t)
    (k : UnitsLeave n c s u) : UnitsLeave n c s (if b then u else t) := by
  split
  · exact k
  · exact h

theorem UnitsLeave.of_ctx {n : Nat} (hn : n < 16) {c : Ctx} {s t : State} (h : UnitsLeave n c s t) {f : Ctx → Ctx}
    (hf : ∀ c, SameRegs c (f c)) : UnitsLeave n c s (t.modCtx n f) := by
  refine ⟨?_, ?_⟩ <;> rw [thr_modCtx hn]
  · exact h.regs.trans (hf _)
  · exact h.rest

theorem UnitsLeave.of_thr {n : Nat} (hn : n < 16) {c : Ctx} {s t : State} (h : UnitsLeave n c s t) {f : Thread → Thread}
    (hf : ∀ x, (f x).ctx = x.ctx ∧ (f x).stopReq = x.stopReq ∧ (f x).issue = x.issue ∧ (f x).words = x.words) :
    UnitsLeave n c s (t.modThr n f) := by
  refine ⟨?_, ?_⟩ <;> rw [State.thr_modThr _ _ hn]
  · rw [(hf _).1]; exact h.regs
  · rw [(hf _).2.1, (hf _).2.2.1, (hf _).2.2.2]; exact h.rest

theorem UnitsLeave.of_store {n : Nat} (hn : n < 16) {c : Ctx} {s t : State} (h : UnitsLeave n c s t) (pc : U16) (a : U32)
    (l : List Byte) : UnitsLeave n c s (postStore n pc a l t) := by
  have p := postStore_regs hn pc a l t
  exact ⟨h.regs.trans p.1, by rw [p.2.1, p.2.2.1, p.2.2.2]; exact h.rest⟩

theorem UnitsLeave.of_later {n : Nat} {c : Ctx} {s t : State} (h : UnitsLeave n c s t) (fc rank : Nat) (a : Act) :
    UnitsLeave n c s (schedule t fc rank a) := h.of_seq (schedule_only ..).seq

/-- What the ALUs, the base update and FLAGS leave at once (R304, R310). -/
def Op.atOnce (o : Op) (now : Nat) (c : Ctx) : Ctx :=
  let cin := bit o.c.nzcv 1
  let a0 := aluOp (fd o.nw 8 5) (o.src 0 (fd o.nw 13 3)) (o.src 1 (fd o.nw 16 3)) cin
  let a1 := aluOp (fd o.nw 21 5) (o.src 2 (fd o.nw 26 3)) (o.src 3 (fd o.nw 29 3)) cin
  let put (r : Option (BitVec 5)) (v : U32) (c : Ctx) : Ctx := match r with
    | some r => setG now r v c
    | none => c
  let c := put (o.destReg (fd o.nw 32 2)) a1.r (put (o.destReg (fd o.nw 19 2)) a0.r c)
  let c := match o.lsop != 0, o.newBase with
    | true, some b => put o.baseReg b c
    | _, _ => c
  { c with nzcv := if o.flags = 1 then nzcvOf a0 else if o.flags = 2 then nzcvOf a1 else c.nzcv }

/-- The units of an operation word outside safe mode leave at once what the ALUs, the base update and FLAGS give (R304). -/
theorem Op.run_regs {n : Nat} (hn : n < 16) (o : Op) (word : Nat) (s : State) :
    UnitsLeave n (o.atOnce s.clk.fc (s.thr n).ctx) s (o.run n word false s) := by
  unfold Op.run
  extract_lets now pc ag rank later cin a0 a1 d0 d1 lanes wb fop f fdst fexc a acc stored
  split
  rename_i q l v hq
  have hv : v.thr n = s.thr n := by
    revert hq
    split
    · intro hq
      have := (loadData_only o.addr.toNat (lsSize o.lsz) s).seq
      rw [show loadData o.addr.toNat (lsSize o.lsz) s = (l, v) from hq] at this
      exact seq_thr n this
    · intro hq
      cases hq; rfl
  extract_lets
  rename_i s1 s2 time s3 s4 s5 s6 s7
  have h1 : UnitsLeave n (o.atOnce s.clk.fc (s.thr n).ctx) s s1 := by
    refine ⟨?_, ?_⟩
    · show SameRegs _ ((v.modCtx n _).thr n).ctx
      rw [thr_modCtx hn, hv]
      exact .refl _
    · show ((v.modCtx n _).thr n).stopReq = _ ∧ ((v.modCtx n _).thr n).issue = _ ∧ ((v.modCtx n _).thr n).words = _
      rw [thr_modCtx hn, hv]
      exact ⟨rfl, rfl, rfl⟩
  have h2 : UnitsLeave n (o.atOnce s.clk.fc (s.thr n).ctx) s s2 := by
    refine h1.of_ctx hn fun c => ?_
    extract_lets c1 c2 c3 c4 c5 c6
    have k1 : SameRegs c c1 := SameRegs.foldl (fun c p => .ite _ (.refl _) ((SameRegs.oweLoad ..).trans (.produce ..))) _ _
    have k2 : SameRegs c c2 := k1.trans (SameRegs.foldl (fun c k => by
      split
      · exact .refl _
      · exact (((SameRegs.oweAt ..).trans (.oweAt ..)).trans (.produce ..)).trans (.produce ..)) _ _)
    have k3 : SameRegs c c3 := k2.trans (SameRegs.foldl (fun c k => by
      dsimp only
      exact .ite _ (((SameRegs.oweAt ..).trans (.produce ..)).trans ((SameRegs.oweAt ..).trans (.produce ..))) ((SameRegs.oweAt ..).trans (.produce ..))) _ _)
    have k4 : SameRegs c c4 := k3.trans (by
      have aux : ∀ r : Option (BitVec 5), SameRegs c3 (match r with
          | some r => produce word 5 (.g r) (oweAt false now word 5 (.g r f.r) c3)
          | none => c3) := by
        intro r
        cases r with
        | some r => exact (SameRegs.oweAt ..).trans (.produce ..)
        | none => exact .refl _
      exact aux fdst)
    have k5 : SameRegs c c5 := k4.trans (.ite _ (.oweAt ..) (.ite _ (.oweAt ..) (.refl _)))
    have k6 : SameRegs c c6 := k5.trans (.ite _ (.produce ..) (.refl _))
    exact k6.trans (.ite _ (.produce ..) (.refl _))
  have h3 : UnitsLeave n (o.atOnce s.clk.fc (s.thr n).ctx) s s3 := .of_ite h2 (h2.of_later ..)
  have h4 : UnitsLeave n (o.atOnce s.clk.fc (s.thr n).ctx) s s4 := .of_ite h3 (h3.of_later ..)
  have h5 : UnitsLeave n (o.atOnce s.clk.fc (s.thr n).ctx) s s5 := .of_ite h4 (h4.of_later ..)
  have h6 : UnitsLeave n (o.atOnce s.clk.fc (s.thr n).ctx) s s6 := .of_ite h5 (h5.of_later ..)
  have h7 : UnitsLeave n (o.atOnce s.clk.fc (s.thr n).ctx) s s7 := .of_ite h6 (h6.of_store hn ..)
  split
  · exact h7.of_thr hn fun x => ⟨rfl, rfl, rfl, rfl⟩
  · exact h7

/-- A load that parks leaves the flow of its thread. -/
theorem loadOut_thr {n : Nat} (hn : n < 16) (o : Op) (s : State) :
    ∃ pr, (loadOut n o s).thr n = { s.thr n with
      run := .parked (.load (.plain o.lsz) o.addr o.x (s.thr n).words s.clk.fc), before := some o.c, haddr := hostAddr s o.addr
      ctx := { (s.thr n).ctx with prod := pr } } := by
  have fold : ∀ (l : List (BitVec 5)) (w : Nat) (c : Ctx), ∃ pr,
      l.foldl (fun c r => produce w 3 (.g r) c) c = { c with prod := pr } := by
    intro l w
    induction l with
    | nil => exact fun c => ⟨c.prod, rfl⟩
    | cons r l ih =>
      intro c
      obtain ⟨pr, e⟩ := ih (produce w 3 (.g r) c)
      exact ⟨pr, e⟩
  have key : ∃ pr, ((parkLoad n (.plain o.lsz) o.addr o.x o.c s).modCtx n (fun c =>
      (lsRegs o.lsz o.x).foldl (fun c r => produce (s.thr n).words 3 (.g r) c) c)).thr n = { s.thr n with
        run := .parked (.load (.plain o.lsz) o.addr o.x (s.thr n).words s.clk.fc), before := some o.c, haddr := hostAddr s o.addr
        ctx := { (s.thr n).ctx with prod := pr } } := by
    unfold parkLoad
    rw [thr_modCtx hn, State.thr_modThr _ _ hn]
    obtain ⟨pr, e⟩ := fold (lsRegs o.lsz o.x) (s.thr n).words (s.thr n).ctx
    refine ⟨pr, ?_⟩
    dsimp only
    rw [e]
  unfold loadOut
  dsimp only
  split
  · rw [seq_thr n (forwardAccess_only ..).seq]
    exact key
  · exact key

theorem postStore_data (n : Nat) (pc : U16) (a : U32) (l : List Byte) (s : State) :
    (postStore n pc a l s).mem.data =
      if regionOf a = .data ∧ partBad s a.toNat l.length = false then memWrite s.mem.data a.toNat l else s.mem.data := by
  unfold postStore
  split
  · rename_i hr
    rw [hr]
    cases h : partBad s a.toNat l.length with
    | true => rw [if_pos rfl, if_neg (by simp)]; rfl
    | false => rw [if_neg (by simp), if_pos (by simp)]; rfl
  all_goals
    rename_i hr
    rw [if_neg (by simp_all)]
    try rfl
  dsimp only
  rw [State.modThr_mem, storeHost_mem]
  rfl

/-- The stores of the block are the same but for the fc of a thread's access (R604). -/
def AccOnly (m n : Stores) : Prop := n = { m with accAt := n.accAt }

/-- A load from data memory leaves its fc in memory and nothing else (R604). -/
theorem loadData_mem (a len : Nat) (s : State) : AccOnly s.mem (loadData a len s).2.mem := by
  unfold loadData
  rw [(seenData_only ..).mem]
  rfl

/-- An operation word changes memory by its store only, but for the fc of a load (R604). -/
theorem Op.run_mem (o : Op) (n word : Nat) (safe : Bool) (s : State) :
    ∃ x : State, AccOnly s.mem x.mem ∧ (o.run n word safe s).mem =
      if o.lsop = 2 then (postStore n o.c.pc o.addr o.storeBytes x).mem else x.mem := by
  unfold Op.run
  extract_lets now pc ag rank later cin a0 a1 d0 d1 lanes wb fop f fdst fexc a acc stored
  split
  rename_i q l v hq
  have hv : AccOnly s.mem v.mem := by
    revert hq
    split
    · intro hq
      have := loadData_mem o.addr.toNat (lsSize o.lsz) s
      rw [show loadData o.addr.toNat (lsSize o.lsz) s = (l, v) from hq] at this
      exact this
    · intro hq
      cases hq; rfl
  extract_lets
  rename_i s1 s2 time s3 s4 s5 s6 s7
  have ite : ∀ {b : Prop} [Decidable b] {x y : State}, x.mem = v.mem → y.mem = v.mem → (if b then x else y).mem = v.mem := by
    intro b _ x y hx hy
    split
    · exact hx
    · exact hy
  have h3 : s3.mem = v.mem := ite rfl rfl
  have h4 : s4.mem = v.mem := ite h3 h3
  have h5 : s5.mem = v.mem := ite h4 h4
  have h6 : s6.mem = v.mem := ite h5 h5
  refine ⟨s6, by rw [h6]; exact hv, ?_⟩
  have h7 : s7.mem = if o.lsop = 2 then (postStore n o.c.pc o.addr o.storeBytes s6).mem else s6.mem := by
    exact apply_ite State.mem _ _ _
  split <;> exact h7

/-- A raise leaves every other source as it is. -/
theorem raiseData_source_other {i src : Nat} (h : i ≠ src) (data : U32) (s : State) :
    (raiseData src data s).source i = s.source i := by
  unfold raiseData
  dsimp only
  split
  · rfl
  · split
    · rfl
    · exact State.source_modSrc_other _ _ h
    · exact State.source_modSrc_other _ _ h

end Sys2Proof.Machine
end

