-- ==== Sys2Proof/Tests/Slice0.lean ====
section
/-! SUPPORT. The author's own tests: an ill-formed command for each check of WellFormed, and for every statement that has
hypotheses a concrete state and operands that meet them, clause by clause (`wit_<statement>`). -/

namespace Sys2Proof.Tests

open Sys2Proof.Machine

/-! ## The small states the tests start from -/

/-- T15 waits for events in run mode and serves the rings. -/
def server : Thread :=
  { run := .waiting { cond := 0, inv := false, evt := true, deadline := none }, ctx := { priv := 3 } }

/-- A block that has booted: fast clock and PLL run, READY, T15 serves the rings, every other thread is stopped. -/
def live : State :=
  { State.reset with
    clk := { gauge := 6400000, fc := 100000, running := true }
    pwr := { plllock := true, stage := 9, rstSafe := false }
    ports := { live := true }
    hg := { ready := true, proch := false }
    seq := { safeThr := none, thr := (Vector.replicate 16 {}).set 15 server } }

def onPwr (f : Power → Power) : State := { live with pwr := f live.pwr }

/-- A state in which the pin por_n is low. -/
def low : State := { live with ports := { live := true, porN := false } }

/-! ## WellFormed -/

theorem test_wf_rd : (Instr.rd 2 0).wf = false := by decide
theorem test_wf_wr : (Instr.wr 1 0 0 0).wf = false := by decide
theorem test_wf_imageLoad_pass1 : (Instr.imageLoad (.sq 0) (.okay [0]) .error).wf = false := by decide
theorem test_wf_imageLoad_pass2 : (Instr.imageLoad (.sq 0) .error (.okay [0])).wf = false := by decide
theorem test_wf_patchApply : (Instr.patchApply .link (.okay [0, 0])).wf = false := by decide
theorem test_wf_nvmProgram : (Instr.nvmProgram .link (.okay [0])).wf = false := by decide
theorem test_wf_descriptorLoad_short : (Instr.descriptorLoad 0 (.okay [0])).wf = false := by decide
theorem test_wf_burstComplete_short : (Instr.burstComplete 0 (.okay [0]) none).wf = false := by decide
theorem test_wf_registerWrite_range : (Instr.registerWrite .host 0x40000 0 0xF).wf = false := by decide
theorem test_wf_registerWrite_aligned : (Instr.registerWrite .host 2 0 0xF).wf = false := by decide
theorem test_wf_storeWindow_below : (Instr.storeWindowWrite .host 0x3FFFC 0 0xF).wf = false := by decide
theorem test_wf_storeWindow_above : (Instr.storeWindowWrite .host 0x80000 0 0xF).wf = false := by decide
theorem test_wf_storeWindow_aligned : (Instr.storeWindowWrite .host 0x40001 0 0xF).wf = false := by decide
theorem test_wf_aperture_range : (Instr.groupApertureAccess .host 0x7FFFC none 0xF).wf = false := by decide
theorem test_wf_aperture_aligned : (Instr.groupApertureAccess .host 0x80002 none 0xF).wf = false := by decide

/-- A block longer than R567 and the like allow is refused, whatever bytes it holds. -/
theorem fits_long (m u : Nat) (l : List Byte) (h : m < l.length) : (HostRead.okay l).fits m u = false := by
  simp only [HostRead.fits, Bool.and_eq_false_iff, decide_eq_false_iff_not]
  exact .inl (by omega)

theorem test_wf_descriptorLoad_long (l : List Byte) (h : 32 < l.length) : (Instr.descriptorLoad 0 (.okay l)).wf = false :=
  fits_long 32 32 l h
theorem test_wf_burstComplete_long (l : List Byte) (h : 256 < l.length) : (Instr.burstComplete 0 (.okay l) none).wf = false :=
  fits_long 256 16 l h
theorem test_wf_linkSend (l : List Byte) (h : 1248 < l.length) : (Instr.linkSend (.sq 0) (.okay l)).wf = false :=
  fits_long 1248 1 l h
theorem test_wf_patchApply_long (l : List Byte) (h : 2052 < l.length) : (Instr.patchApply .link (.okay l)).wf = false :=
  fits_long 2052 4 l h
theorem test_wf_taken : (Instr.registerWrite .host 0x3FFFC 0 0xF).wf = true ∧ (Instr.rd 1 0).wf = true := by decide

/-! ## Power and reset -/

theorem wit_ResetsComplete :
    (∃ s : State, s.pwr.rstReq ≠ 0 ∧ s.bist.phase = .idle ∧ s.pwr.st ≠ .deep) ∧
    (∃ s : State, s.bist.phase = .idle ∧ s.pwr.dbgHeld = false) ∧
    (∃ s : State, s.bist.phase ≠ .idle) :=
  ⟨⟨onPwr ({ · with rstReq := 2 }), by decide⟩, ⟨live, by decide⟩, ⟨{ live with bist := { phase := .logic } }, by decide⟩⟩

theorem wit_ResetRequests :
    (∃ s, porLow s = false) ∧ (∃ w s, MayWriteAo w 0x1018 s) ∧
    (∃ s, s.pwr.plllock = true ∧ awake s = true) ∧ (∃ s : State, porLow s = false ∧ s.pwr.pllDue = true) ∧
    (∃ s f, coreOff s = false ∧ s.wdog.resetAt = some f ∧ f ≤ s.clk.fc) :=
  ⟨⟨live, by decide⟩, ⟨.host, live, by decide⟩, ⟨live, by decide⟩, ⟨onPwr ({ · with pllDue := true }), by decide⟩,
    ⟨{ live with wdog := { resetAt := some 100000 } }, 100000, by decide⟩⟩

theorem wit_BootSteps :
    (∃ s : State, s.pwr.stage = 1 ∧ s.bist.phase = .idle) ∧ (∃ s : State, s.pwr.stage = 2) ∧
    (∃ (w : Who) (s : State), MayWriteAo w 0x1024 s ∧ s.pwr.fwfail = true ∧ s.pwr.stage = 3) ∧
    (∃ s : State, s.pwr.stage = 7 ∧ s.outcal.valid = true ∧ s.clk.running = true) :=
  ⟨⟨State.reset, by decide⟩, ⟨onPwr ({ · with stage := 2 }), by decide⟩,
    ⟨.host, onPwr ({ · with fwfail := true, stage := 3 }), by decide⟩,
    ⟨{ onPwr ({ · with stage := 7 }) with outcal := { valid := true } }, by decide⟩⟩

theorem wit_WakesAndReturn :
    (∃ s : State, s.bist.phase = .idle ∧ porLow s = false ∧ bit s.pwr.wakeen 0 = true ∧ s.pwr.st ≠ .run) ∧
    (∃ (w : Who) (s : State), MayWriteAo w 0x1000 s ∧ s.pwr.st ≠ .run) ∧
    (∃ s : State, s.bist.phase = .idle ∧ s.pwr.wakeTally ≤ s.gp.tally ∧ bit s.pwr.wakeen 2 = true ∧
      (s.pwr.st = .sleep ∨ s.pwr.st = .deep)) ∧
    (∃ s : State, s.pwr.st = .doze ∧ s.pwr.waking = true) ∧
    (∃ s : State, s.pwr.st = .sleep ∧ s.pwr.waking = true ∧ s.bist.phase = .idle) :=
  ⟨⟨onPwr ({ · with wakeen := 1, st := .deep }), by decide⟩, ⟨.host, onPwr ({ · with st := .sleep }), by decide⟩,
    ⟨onPwr ({ · with wakeen := 4, st := .sleep }), by decide⟩,
    ⟨onPwr ({ · with st := .doze, waking := true }), by decide⟩,
    ⟨onPwr ({ · with st := .sleep, waking := true }), by decide⟩⟩

theorem wit_PadsAndRatio :
    (∃ (n : Fin 96) (s : State) (held : Bool), s.pwr.holdrel = true ∧ s.clk.running = true ∧
      (s.outlet n).padHold = some held ∧
      outLevel (s.modOut n fun o =>
        { o with
          padHold := none
          oe := if s.pwr.oeHold then o.oen && (o.oe || (o.oenLive && held == o.safe)) else o.oe }) n = held) ∧
    (∃ (w : Who) (s : State), MayWriteAo w 0x1000 s ∧ s.hg.ready = true ∧ (s.out.toList.any fun o => o.padHold.isSome) = true) ∧
    (∃ (r : U48) (s : State), awake s = true ∧ s.pwr.plllock = true ∧ r = BitVec.ofNat 48 (s.clk.fc - s.gp.winStart)) ∧
    (∃ s : State, s.clk.running = false ∧ s.pwr.st = .sleep) :=
  ⟨⟨95, (onPwr ({ · with holdrel := true })).modOut 95 ({ · with padHold := some false }), false, by decide⟩,
    ⟨.host, live.modOut 0 ({ · with padHold := some true }), by decide⟩, ⟨100000, live, by decide⟩,
    ⟨{ onPwr ({ · with st := .sleep }) with clk := {} }, by decide⟩⟩

theorem wit_InputsAndShut :
    (∃ (m : Fin 64) (b : Bool) (s : State), coreOff s = false ∧ bit s.ports.trip m ≠ b) ∧
    (∃ (w : Who) (s : State), MayWrite w 0xE400 s ∧ s.shut.req = false) ∧
    (∃ (w : Who) (s : State), MayWrite w 0xE400 s ∧ s.shut.req = true) ∧
    (∃ (w : Who) (v : U32) (s : State), MayWrite w 0xE40C s ∧ atMachine s (agentOf s w) = true ∧ bit v 0 = true ∧
      s.shut.active = true ∧ levelSources s = 0) ∧
    (∃ (w : Who) (v : U32) (s : State), MayWrite w 0xE40C s ∧ atMachine s (agentOf s w) = true ∧ bit v 0 = true ∧
      s.shut.active = true ∧ levelSources s ≠ 0) :=
  ⟨⟨63, true, live, by decide⟩, ⟨.host, live, by decide⟩, ⟨.host, { live with shut := { req := true } }, by decide⟩,
    ⟨.debugger, 1, { live with shut := { active := true }, dbg := { level := 3 } }, by decide⟩,
    ⟨.thread 15, 1, { live with shut := { active := true }, ports := { shutI := true } }, by decide⟩⟩

theorem wit_GatesComplete :
    (∃ (k : Fin 8) (s : State), coreOff s = false ∧ s.clk.running = true ∧ (s.getGate k).en = true ∧
      (s.getGate k).restart = false ∧ (s.getGate k).entry = none) ∧
    (∃ (k : Fin 8) (s : State), coreOff s = false ∧ s.clk.running = true ∧ (s.getGate k).entry ≠ none) ∧
    (∃ (g : Gate) (ins : Byte) (e : U16), g.en = true ∧ g.restart = false ∧ g.entry = some (ins, e)) ∧
    (∃ g : Gate, g.en = true ∧ g.restart = true) ∧
    (∃ (w : Who) (k : Fin 8) (s : State), MayWrite w (0xE000 + 0x40 * k.val) s ∧ (agentOf s w).isHeadworks = true ∧
      (s.getGate k).en = false) ∧
    (∃ (w : Who) (k : Fin 8) (v : U32) (s : State), MayWrite w (0xE000 + 0x40 * k.val) s ∧
      (agentOf s w).isHeadworks = true ∧ (s.getGate k).en = true ∧ bit v 0 = true) ∧
    (∃ (w : Who) (k : Fin 8) (x : BitVec 11) (s : State), MayWrite w (GateReg.off k (.table x)) s ∧
      (agentOf s w).isHeadworks = true ∧ Memory.wf 0 s.mem.gate = true) :=
  ⟨⟨7, live.modGate 7 ({ · with en := true }), by decide⟩,
    ⟨7, live.modGate 7 ({ · with en := true, entry := some (0, 0) }), by decide⟩,
    ⟨{ en := true, toInit := true, entry := some (1, 0xFFFC) }, 1, 0xFFFC, by decide⟩,
    ⟨{ en := true, restart := true }, by decide⟩, ⟨.thread 15, 7, live, by decide⟩,
    ⟨.thread 15, 7, 1, live.modGate 7 ({ · with en := true }), by decide⟩, ⟨.thread 15, 7, 2047, live, by decide⟩⟩

theorem wit_WatchdogComplete :
    (∃ (w : Who) (v : U32) (s : State), MayWrite w 0x26000 s ∧ (w = .debugger → s.dbg.level = 3) ∧ s.wdog.lock = false ∧
      s.wdog.per ≠ 0 ∧ s.wdog.cls < s.wdog.per ∧ (fd v 4 4 : BitVec 4) ≠ 15) ∧
    (∃ (w : Who) (v : U32) (s : State), w = .debugger ∧ MayWrite w 0x26000 s ∧ s.dbg.level = 3 ∧ s.wdog.lock = false ∧
      bit v 0 = false) ∧
    (∃ (w : Who) (s : State), MayWrite w 0x2600C s ∧ agentOf s w = .sup s.wdog.svcthr ∧ s.wdog.en = true ∧
      s.wdog.stopped = false) ∧
    (∃ s, coreOff s = false ∧ wdogCounts s = true ∧ s.wdog.opened = false ∧ s.wdog.cls ≤ s.wdog.cnt ∧
      s.wdog.cnt < s.wdog.per) ∧
    (∃ s, coreOff s = false ∧ wdogCounts s = true ∧ s.wdog.per ≤ s.wdog.cnt) :=
  ⟨⟨.host, 0, { live with wdog := { per := 1 } }, by decide⟩,
    ⟨.debugger, 2, { live with dbg := { level := 3 } }, by decide⟩,
    ⟨.thread 3, { live.modThr 3 (fun t => { t with ctx := { t.ctx with priv := 1 } }) with
      wdog := { en := true, svcthr := 3, per := 9 } }, by decide⟩,
    ⟨{ live with wdog := { en := true, per := 9, cls := 4, cnt := 4 } }, by decide⟩,
    ⟨{ live with wdog := { en := true, per := 9, cls := 4, cnt := 9 } }, by decide⟩⟩

/-! ## The sequencer -/

set_option maxRecDepth 4000

/-- Thread 0 at word `w` in the licensee's part of the microstore, with a descriptor of vectors 2, 11, 12, 17, 18 and 32 (PC
0x3000, law privilege, entry level 7). -/
def thrWord (w : U32) (t : Thread) : State :=
  { live with
    mem := {
      micro := [(8192, w)]
      data := [33, 177, 193, 273, 289, 513].flatMap (fun a => [(a, 0x30), (a + 1, 0xE0), (a + 2, 0x80)]) }
    seq := { live.seq with thr := live.seq.thr.set 0 { t with run := .ready, ctx := { t.ctx with pc := 8192 } } } }

/-- With no event counted, no source is claimed, offered or due. -/
theorem bestSource_none (s : State) (p : Source → Bool) (hp : p {} = false) (h : s.tur.src = Vector.replicate 512 {}) :
    bestSource s p = none := by
  have hs (k : Nat) : s.source k = {} := by
    unfold State.source
    rw [h]
    by_cases hk : k < 512
    · rw [vget, dif_pos hk, Vector.getElem_replicate]
    · rw [vget, dif_neg hk]
  unfold bestSource
  generalize List.range 512 = l
  rw [List.filter_eq_nil_iff.mpr (fun k _ => by rw [hs, hp]; simp), leastBy]

theorem eventDue_none (s : State) (n : Nat) (h : s.tur.src = Vector.replicate 512 {}) : eventDue s n = none := by
  have hd : dispatchable s n = none := by unfold dispatchable; exact bestSource_none s _ rfl h
  unfold eventDue offered
  rw [hd]

theorem thrWord_others (w : U32) (t : Thread) (n : Nat) (h : n ≠ 0) : mayIssue (thrWord w t) n = false := by
  have hr : ((thrWord w t).thr n).run ≠ .ready := by
    unfold State.thr vget thrWord live
    split
    · simp only [Vector.getElem_set, Vector.getElem_replicate]
      split
      · omega
      · split <;> simp [server]
    · simp
  simp [mayIssue, hr]

theorem thrWord_runs (w : U32) (t : Thread)
    (h : t.escal = none ∧ t.holdUntil ≤ 100000 ∧ t.imp5 = none ∧ t.imp11 = [] ∧ t.imp12 = none ∧ t.stopReq = false ∧
      debugDue t = false ∧ t.ctx.mask = 0) : selected (thrWord w t) = some 0 := by
  obtain ⟨h1, h2, h3, h4, h5, h6, h7, h8⟩ := h
  have h0 : mayIssue (thrWord w t) 0 = true := by
    have he := eventDue_none (thrWord w t) 0 rfl
    have ht : (thrWord w t).thr 0 = { t with run := .ready, ctx := { t.ctx with pc := 8192 } } := rfl
    have hf : (thrWord w t).clk.fc = 100000 := rfl
    have hd : debugDue ((thrWord w t).thr 0) = false := by rw [ht]; exact h7
    simp [mayIssue, boundaryTaken, he, hd]
    simp [ht, hf, h1, h2, impreciseDue, h3, h4, h5, h6]
  have hall (n : Nat) : mayIssue (thrWord w t) n = decide (n = 0) := by
    by_cases h : n = 0
    · subst h; simp [h0]
    · simp [h, thrWord_others w t n h]
  have hm : ((thrWord w t).thr 0).ctx.mask = 0 := h8
  have hg (m n : Nat) : (decide (n = 0) && decide (((thrWord w t).thr n).ctx.mask.toNat = m)) =
      (decide (n = 0) && decide (0 = m)) := by
    by_cases h : n = 0
    · subst h; simp [hm]
    · simp [h]
  have hs : (thrWord w t).seq.safeThr = none := rfl
  have hi : (!issuing (thrWord w t) || decide ((thrWord w t).seq.issuedAt = (thrWord w t).clk.fc + 1) ||
      decide ((thrWord w t).seq.idleAt = (thrWord w t).clk.fc + 1)) = false := by
    simp [issuing, thrWord, live, State.reset]
  have hl : (List.range 8).reverse.find? (fun m => (List.range 16).any fun n => decide (n = 0) && decide (0 = m)) =
      some 0 := by decide
  have hv : vget (thrWord w t).seq.last 0 15 = 15 := rfl
  unfold selected
  simp only [hall, hg, hs, hi, hl, hv]
  decide

/-- Word `w` issues on thread 0 `t`, so a statement about an issued word has a case. -/
theorem issues (w : U32) (t : Thread) {P : Fin 16 → State → U32 → Prop}
    (ht : t.escal = none ∧ t.holdUntil ≤ 100000 ∧ t.imp5 = none ∧ t.imp11 = [] ∧ t.imp12 = none ∧ t.stopReq = false ∧
      debugDue t = false ∧ t.ctx.mask = 0)
    (h : (microWord (applyRet 0 (thrWord w t)) ((applyRet 0 (thrWord w t)).thr 0).ctx.pc = w ∧
      (wordStop (applyRet 0 (thrWord w t)) 0 w).2 = none) ∧ P 0 (thrWord w t) w) :
    ∃ (n : Fin 16) (s : State) (w : U32), Issues s n w ∧ P n s w :=
  ⟨0, thrWord w t, w, ⟨thrWord_runs w t ht, h.1.1, h.1.2, ht.2.2.2.2.2.1⟩, h.2⟩

/-- A return stack of one entry, and a stack pointer to a status word of 0. -/
def returning : Ctx := { hw := [8200], g := (Vector.replicate 32 0).set 31 0x1000 }

/-- The word at issue takes its transfer. -/
def takes (n : Nat) (s : State) (w : U32) : Bool := taken (atIssue s n w) ((atIssue s n w).thr n).ctx w

theorem wit_TransferWords :
    (∃ (n : Fin 16) (s : State) (w : U32), Issues s n w ∧ rowOf w = 0 ∧ takes n s w = true) ∧
    (∃ (n : Fin 16) (s : State) (w : U32), Issues s n w ∧ rowOf w = 1 ∧ takes n s w = false) ∧
    (∃ (n : Fin 16) (s : State) (w : U32), Issues s n w ∧ rowOf w = 1 ∧ takes n s w = true) ∧
    (∃ (n : Fin 16) (s : State) (w : U32), Issues s n w ∧ rowOf w = 2 ∧ takes n s w = false) ∧
    (∃ (n : Fin 16) (s : State) (w : U32), Issues s n w ∧ rowOf w = 2 ∧ takes n s w = true) ∧
    (∃ (n : Fin 16) (s : State) (w : U32), Issues s n w ∧ rowOf w = 17 ∧ takes n s w = true ∧
      ((atIssue s n w).thr n).mon = false) ∧
    (∃ (n : Fin 16) (s : State) (w : U32), Issues s n w ∧ rowOf w = 17 ∧ takes n s w = true ∧
      ((atIssue s n w).thr n).mon = true ∧ ((atIssue s n w).thr n).spill = false) :=
  ⟨issues 0x80000010 {} (by decide) (by decide), issues 0x88040010 {} (by decide) (by decide), issues 0x88000010 {} (by decide) (by decide),
    issues 0x90040000 {} (by decide) (by decide), issues 0x90000000 { ctx := returning } (by decide) (by decide),
    issues 0x90020000 { depth := 1, ctx := returning } (by decide) (by decide),
    issues 0x90020000 { mon := true, ctx := { priv := 3 } } (by decide) (by decide)⟩

theorem wit_RepeatAndImmediateWords :
    (∃ (n : Fin 16) (s : State) (w : U32), Issues s n w ∧ rowOf w = 3) ∧
    (∃ (n : Fin 16) (s : State) (w : U32), Issues s n w ∧ rowOf w = 4) ∧
    (∀ k : Fin 3, ∃ (n : Fin 16) (s : State) (w : U32), Issues s n w ∧ rowOf w = 5 ∧ (fd w 20 2 : BitVec 2).toNat = k ∧
      ∀ p ∈ ((atIssue s n w).thr n).ctx.pw, p.safe = false) :=
  ⟨issues 0x98000003 {} (by decide) (by decide), issues 0xA0000003 {} (by decide) (by decide), fun k => match k with
    | 0 => issues 0xA80FFFFF {} (by decide) (by decide)
    | 1 => issues 0xA81FFFFF {} (by decide) (by decide)
    | 2 => issues 0xA820FFFF {} (by decide) (by decide)⟩

/-- g1 holds an address in host memory, and a reservation of that granule is held. -/
def hostReg : Ctx :=
  { g := (Vector.replicate 32 0).set 1 0x80000000, resv := some { host := true, granule := 0, fc := 100000 } }

/-- The address of the LR or SC at issue. -/
def atomicAt (n : Nat) (s : State) (w : U32) : U32 := aregOf (atIssue s n w) ((atIssue s n w).thr n).ctx w

/-- The granule of the SC at issue is held. -/
def granuleHeld (n : Nat) (s : State) (w : U32) : Bool :=
  holdsGranule (atIssue s n w) ((atIssue s n w).thr n).ctx (atomicAt n s w)

theorem wit_ReservedAndConditionalWords :
    (∃ (n : Fin 16) (s : State) (w : U32), Issues s n w ∧ rowOf w = 6 ∧ regionOf (atomicAt n s w) = .data) ∧
    (∃ (n : Fin 16) (s : State) (w : U32), Issues s n w ∧ rowOf w = 6 ∧ regionOf (atomicAt n s w) ≠ .data) ∧
    (∃ (n : Fin 16) (s : State) (w : U32), Issues s n w ∧ rowOf w = 7 ∧ ((atIssue s n w).thr n).safe = false ∧
      granuleHeld n s w = false) ∧
    (∃ (n : Fin 16) (s : State) (w : U32), Issues s n w ∧ rowOf w = 7 ∧ ((atIssue s n w).thr n).safe = false ∧
      granuleHeld n s w = true ∧ regionOf (atomicAt n s w) = .data) ∧
    (∃ (n : Fin 16) (s : State) (w : U32), Issues s n w ∧ rowOf w = 7 ∧ ((atIssue s n w).thr n).safe = false ∧
      granuleHeld n s w = true ∧ regionOf (atomicAt n s w) ≠ .data) :=
  ⟨issues 0xB0000000 {} (by decide) (by decide), issues 0xB0020000 { ctx := hostReg } (by decide) (by decide), issues 0xB8000000 {} (by decide) (by decide),
    issues 0xB8040000 { ctx := { g := (Vector.replicate 32 0).set 2 0x2000
                                 resv := some { host := false, granule := 0x200, fc := 100000 } } } (by decide) (by decide),
    issues 0xB8020000 { ctx := hostReg } (by decide) (by decide)⟩

theorem wit_ModeWaitFenceSysWords :
    (∃ (n : Fin 16) (s : State) (w : U32), Issues s n w ∧ rowOf w = 9) ∧
    (∃ (n : Fin 16) (s : State) (w : U32), Issues s n w ∧ rowOf w = 10) ∧
    (∃ (n : Fin 16) (s : State) (w : U32), Issues s n w ∧ rowOf w = 11) ∧
    (∃ (n : Fin 16) (s : State) (w : U32), Issues s n w ∧ rowOf w = 8 ∧
      ((finishWord n false nextPc id (atIssue s n w)).thr n).mon = false ∧
      ((finishWord n false nextPc id (atIssue s n w)).thr n).spill = false ∧
      (tableEntry n true
        { vec := 32 + (fd w 0 5 : BitVec 5).zeroExtend 6
          ret := (resumePoint ((finishWord n false nextPc id (atIssue s n w)).thr n).ctx).1
          status := (resumePoint ((finishWord n false nextPc id (atIssue s n w)).thr n).ctx).2
          xpc := ((atIssue s n w).thr n).ctx.pc, xaddr := 0 } (finishWord n false nextPc id (atIssue s n w))).isSome = true) :=
  ⟨issues 0xC8000000 {} (by decide) (by decide), issues 0xD0000001 {} (by decide) (by decide), issues 0xD8000002 {} (by decide) (by decide),
    issues 0xC0000000 { ctx := returning } (by decide) (by decide)⟩

theorem wit_OperationWord :
    (∃ (n : Fin 16) (s : State) (w : U32), Issues s n w ∧ isOp w = true ∧ ((atIssue s n w).thr n).safe = false ∧
      (opOf (applyRet n s) n w).acts (applyRet n s) = true ∧ (opOf (applyRet n s) n w).long ≠ 2 ∧
      (opOf (applyRet n s) n w).lsop ≠ 2 ∧ ∀ p ∈ (opOf (applyRet n s) n w).c.pw, p.safe = false) :=
  issues 0 {} (by decide) (by decide)

/-- Thread 4 in run state `r`. -/
def atRun (r : RunState) : State := live.modThr 4 ({ · with run := r })

theorem wit_LoadsFencesWaitsEnd :
    (∃ (n : Fin 16) (s : State) (a : U32) (lsz : BitVec 3) (x : BitVec 5) (word at_ : Nat) (v : BitVec 128) (r : BitVec 5)
      (z : U32), coreOff s = false ∧ (s.thr n).owing = none ∧ (s.thr n).safe = false ∧
      (s.thr n).run = .parked (.load (.plain lsz) a x word at_) ∧ regionOf a = .host ∧ loadVals lsz x v = [(r, z)]) ∧
    (∃ (n : Fin 16) (s : State) (a : U32) (x : BitVec 5) (word at_ : Nat), coreOff s = false ∧ (s.thr n).owing = none ∧
      (s.thr n).safe = false ∧ (s.thr n).run = .parked (.load .lr a x word at_) ∧ regionOf a = .host) ∧
    (∃ (n : Fin 16) (s : State) (a : U32) (x : BitVec 5) (word at_ : Nat) (d : U32), coreOff s = false ∧
      (s.thr n).owing = none ∧ (s.thr n).safe = false ∧ (s.thr n).run = .parked (.load (.sc d) a x word at_) ∧
      regionOf a = .host) ∧
    (∃ (n : Fin 16) (a : U32) (s : State) (p : Posted), coreOff s = false ∧
      (s.thr n).stores.find? (fun p => p.addr = a && regionOf p.addr = .host) = some p) ∧
    (∃ (n : Fin 16) (s : State) (r : Reservation), coreOff s = false ∧ (s.thr n).ctx.resv = some r ∧
      r.fc + 256 ≤ s.clk.fc) ∧
    (∃ (n : Fin 16) (s : State) (kind : BitVec 2), coreOff s = false ∧ (s.thr n).run = .parked (.fence kind) ∧
      fenceDone s n kind = true) ∧
    (∃ (n : Fin 16) (s : State) (w : Waiting), coreOff s = false ∧ (s.thr n).run = .waiting w ∧ issuing s = true ∧
      waitSeen s n w = true) ∧
    (∃ (n : Fin 16) (s : State) (w : Waiting) (d : Nat), coreOff s = false ∧ (s.thr n).run = .waiting w ∧
      issuing s = true ∧ w.deadline = some d ∧ d ≤ s.clk.fc) :=
  ⟨⟨4, atRun (.parked (.load (.plain 2) 0x80000000 7 0 0)), 0x80000000, 2, 7, 0, 0, 9, 7, 9, by decide⟩,
    ⟨4, atRun (.parked (.load .lr 0x80000000 7 0 0)), 0x80000000, 7, 0, 0, by decide⟩,
    ⟨4, atRun (.parked (.load (.sc 3) 0x80000000 7 0 0)), 0x80000000, 7, 0, 0, 3, by decide⟩,
    ⟨4, 0x80000010, live.modThr 4 ({ · with stores := [{ pc := 9000, addr := 0x80000010 }] }),
      { pc := 9000, addr := 0x80000010 }, by decide⟩,
    ⟨4, live.modThr 4 ({ · with ctx := { resv := some { host := false, granule := 0, fc := 99744 } } }),
      { host := false, granule := 0, fc := 99744 }, by decide⟩,
    ⟨4, atRun (.parked (.fence 0)), 0, by decide⟩,
    ⟨4, atRun (.waiting { cond := 0, inv := false, evt := false, deadline := none }), _, by decide, rfl, by decide⟩,
    ⟨4, atRun (.waiting { cond := 0, inv := true, evt := false, deadline := some 100000 }), _, 100000, by decide, rfl,
      by decide⟩⟩

theorem filter_one (k : Nat) (q : Nat → Bool) (hq : ∀ j, q j = decide (j = k)) :
    ∀ n, k < n → (List.range n).filter q = [k]
  | 0, h => absurd h (Nat.not_lt_zero k)
  | n + 1, h => by
    rw [List.range_succ, List.filter_append]
    by_cases hk : k = n
    · subst hk
      have : (List.range k).filter q = [] := List.filter_eq_nil_iff.mpr (fun j hj => by
        rw [hq]; simp only [List.mem_range] at hj; simp; omega)
      rw [this]; simp [hq]
    · rw [filter_one k q hq n (by omega)]
      simp [hq, Ne.symm hk]

/-- Source 448 is `c`, and every other source is as at reset. -/
def only448 (c : Source) (s : State) : Prop := s.tur.src = (Vector.replicate 512 {}).set 448 c

theorem source_only {c : Source} {s : State} (h : only448 c s) (k : Nat) : s.source k = if k = 448 then c else {} := by
  unfold State.source
  rw [h]
  by_cases hk : k < 512
  · rw [vget, dif_pos hk, Vector.getElem_set]
    by_cases h4 : k = 448
    · rw [if_pos h4.symm, if_pos h4]
    · rw [if_neg (Ne.symm h4), if_neg h4, Vector.getElem_replicate]
  · rw [vget, dif_neg hk, if_neg (by omega)]

theorem bestSource_448 {c : Source} {s : State} (h : only448 c s) (p : Source → Bool) (hc : p c = true)
    (h0 : p {} = false) : bestSource s p = some 448 := by
  have hq (j : Nat) : (fun k => p (s.source k)) j = decide (j = 448) := by
    show p (s.source j) = _
    rw [source_only h]
    by_cases hj : j = 448
    · rw [if_pos hj, hc, decide_eq_true hj]
    · rw [if_neg hj, h0, decide_eq_false hj]
  unfold bestSource
  have hl := filter_one 448 _ hq 512 (by decide)
  revert hl
  generalize List.range 512 = l
  intro hl
  rw [hl, leastBy, leastBy]

theorem offered_of (s : State) (n k : Nat) (h : dispatchable s n = some k)
    (hp : servicePri s n < (s.source k).pri.toNat) : offered s n = some k := by
  unfold offered
  rw [h]
  exact if_pos hp

theorem eventDue_of (s : State) (n k : Nat) (c : Source) (h : offered s n = some k) (hc : s.source k = c)
    (hm : (!(s.thr n).mon && decide ((s.thr n).ctx.mask < entryLevel s (16 + c.pri.zeroExtend 6))) = true) :
    eventDue s n = some (k, 16 + c.pri.zeroExtend 6) := by
  subst hc
  unfold eventDue
  rw [h]
  exact if_pos hm

/-- Source 448 has been counted at priority 1 and the dispatcher holds it for thread 0. -/
def offering (t : Thread) : State :=
  { thrWord 0 t with tur := { src := (Vector.replicate 512 {}).set 448 { pri := 1, cnt := 1, route := some 8 } } }

theorem offering_only (t : Thread) : only448 { pri := 1, cnt := 1, route := some 8 } (offering t) := rfl

theorem offering_offered (t : Thread) : offered (offering t) 0 = some 448 := by
  have hd : dispatchable (offering t) 0 = some 448 := by
    unfold dispatchable
    exact bestSource_448 (offering_only t) _ rfl rfl
  have hp : servicePri (offering t) 0 = 0 := by
    have hl (l : List Source) (a : Nat) (h : ∀ c ∈ l, c.service = none) : l.foldl (fun a c =>
        match c.service with
        | some (.thread k _) => if k.toNat = 0 then max a c.pri.toNat else a
        | _ => a) a = a := by
      induction l with
      | nil => rfl
      | cons c l ih =>
        rw [List.foldl_cons, h c List.mem_cons_self]
        exact ih (fun c hc => h c (List.mem_cons_of_mem _ hc))
    refine hl _ _ (fun c hc => ?_)
    obtain ⟨i, hi, rfl⟩ := Vector.getElem_of_mem (Vector.mem_toList_iff.mp hc)
    show (offering t).tur.src[i].service = none
    unfold offering
    rw [Vector.getElem_set]
    split
    · rfl
    · rw [Vector.getElem_replicate]
  exact offered_of _ _ _ hd (by rw [hp, source_only (offering_only t)]; decide)

theorem offering_due : eventDue (offering { ctx := returning }) 0 = some (448, 17) :=
  eventDue_of _ _ _ _ (offering_offered _) (source_only (offering_only _) 448) (by decide)

theorem wit_EntriesBetweenWords :
    (∃ (n : Fin 16) (s u : State) (vec : BitVec 6) (p : Posted) (e : Escalation), coreOff s = false ∧
      (s.thr n).escal = none ∧ impreciseDue s (s.thr n) = some (vec, p) ∧ entryOpen s n = true ∧
      u = (applyRet n s).modThr n (fun t => { t with
        imp5 := if vec = 5 then none else t.imp5
        imp11 := if vec = 11 then t.imp11.filter (fun p => decide ((applyRet n s).clk.fc < p.1)) else t.imp11
        imp12 := if vec = 12 then none else t.imp12 }) ∧
      e = { vec := vec, ret := (resumePoint ((applyRet n s).thr n).ctx).1
            status := (resumePoint ((applyRet n s).thr n).ctx).2, xpc := p.pc, xaddr := p.addr } ∧
      (u.thr n).mon = false ∧ (u.thr n).spill = false ∧ (tableEntry n true e u).isSome = true) ∧
    (∃ (n : Fin 16) (s u : State) (vec : BitVec 6) (a w : U32) (e : Escalation), coreOff s = false ∧
      (s.thr n).escal = none ∧ impreciseDue s (s.thr n) = none ∧ selected s = some n.val ∧
      w = microWord (applyRet n s) ((applyRet n s).thr n).ctx.pc ∧
      (wordStop (applyRet n s) n w).2 = some (.fault vec a) ∧ u = (atIssue s n w).modCtx n undoSlot ∧
      e = { vec := vec, ret := (faultPoint ((atIssue s n w).thr n).ctx).1
            status := (faultPoint ((atIssue s n w).thr n).ctx).2, xpc := ((atIssue s n w).thr n).ctx.pc, xaddr := a } ∧
      (u.thr n).mon = false ∧ (u.thr n).spill = false ∧ (tableEntry n true e u).isSome = true) ∧
    (∃ (n : Fin 16) (s u : State) (k : Fin 512) (vec : BitVec 6) (e : Escalation), coreOff s = false ∧
      eventDue s n = some (k.val, vec) ∧ entryOpen s n = true ∧ impreciseDue s (s.thr n) = none ∧
      debugDue (s.thr n) = false ∧ (s.thr n).stopReq = false ∧ wordFaults s n = false ∧ u = applyRet n s ∧
      e = { vec := vec, ret := (resumePoint (u.thr n).ctx).1, status := (resumePoint (u.thr n).ctx).2
            xpc := (u.thr n).xpc, xaddr := 0 } ∧
      (u.thr n).mon = false ∧ (u.thr n).spill = false ∧ (tableEntry n false e u).isSome = true) :=
  ⟨⟨0, thrWord 0 { imp11 := [(99999, 9000), (100001, 9001)], ctx := returning }, _, 11, { pc := 9000, addr := 0 }, _, by decide, by decide, by decide, by decide, rfl, rfl, by decide, by decide,
      by decide⟩,
    ⟨0, thrWord 0xE0000000 { ctx := returning }, _, 2, 0, 0xE0000000, _, by decide, by decide, by decide,
      thrWord_runs _ _ (by decide), by decide, by decide, rfl, rfl, by decide, by decide, by decide⟩,
    ⟨0, offering { ctx := returning }, _, 448, 17, _, by decide,
      offering_due, by decide, by decide, by decide, by decide, by decide, rfl, rfl, by decide, by decide, by decide⟩⟩

set_option maxRecDepth 512

/-! ## Outlets, flumes, timers -/

def onOut (n : Nat) (o : Outlet) : State := live.modOut n (fun _ => o)
def onFl (n : Nat) (f : Flume) : State := live.modFl n (fun _ => f)
def onTmr (n : Nat) (t : Timer) : State := live.modTmr n (fun _ => t)

theorem wit_PostsAndEdges :
    (∃ (w : Who) (n : Fin 96) (s : State), MayWrite w (0x8018 + 0x20 * n.val) s) ∧
    (∃ (w : Who) (n : Fin 96) (s : State), MayWrite w (0x801C + 0x20 * n.val) s ∧ (s.dbg.frozen && s.dbg.frzEdge) = false ∧
      (s.shut.active && (s.outlet n).shutg) = false ∧ isComplement s n = false ∧ (s.outlet n).owner ≠ 2 ∧
      isPrimary s n = false) ∧
    (∃ (w : Who) (n : Fin 96) (s : State), MayWrite w (0x801C + 0x20 * n.val) s ∧
      (s.shut.active && (s.outlet n).shutg) = true) ∧
    (∃ (w : Who) (n : Fin 96) (s : State), MayWrite w (0x801C + 0x20 * n.val) s ∧
      (s.dbg.frozen && s.dbg.frzEdge) = false ∧ (s.shut.active && (s.outlet n).shutg) = false ∧ isComplement s n = true) ∧
    (∃ (n : Fin 96) (s : State) (q : QEntry) (rest : List QEntry) (m : Nat) (tt : U40), coreOff s = false ∧
      firstMove (s.outlet n).queue = some (q, rest) ∧ m = edgeOutlet s n q.op ∧ tt = q.t + sx40 (s.outlet m).outtrim ∧
      moveDue s tt = true ∧ (nextAdvs s).1 + (nextAdvs s).2.1 ≤ lead40 tt s.clk.gauge ∧ lead40 tt s.clk.gauge < 2 ^ 39) ∧
    (∃ (n : Fin 96) (s : State) (q : QEntry) (rest : List QEntry) (m : Nat) (tt : U40), coreOff s = false ∧
      firstMove (s.outlet n).queue = some (q, rest) ∧ m = edgeOutlet s n q.op ∧ tt = q.t + sx40 (s.outlet m).outtrim ∧
      moveDue s tt = true ∧
      ¬((nextAdvs s).1 + (nextAdvs s).2.1 ≤ lead40 tt s.clk.gauge ∧ lead40 tt s.clk.gauge < 2 ^ 39)) ∧
    (∃ (n : Fin 96) (s : State) (e : LineEdge), coreOff s = false ∧
      leastBy (fun (e : LineEdge) => rank40 e.t s.clk.gauge)
        ((s.outlet n).line.filter fun e => reached40 e.t s.clk.gauge s.clk.adv.toNat) = some e) ∧
    (∃ (n : Fin 96) (s : State) (q : QEntry), coreOff s = false ∧ (s.outlet n).queue.find? (fun q => q.op = .hold &&
      reached40 (q.t + sx40 (s.outlet n).outtrim) s.clk.gauge s.clk.adv.toNat) = some q) ∧
    (∃ (w : Who) (n : Fin 96) (s : State), MayWrite w (0x8000 + 0x20 * n.val) s ∧ isPrimary s n = true) ∧
    (∃ (w : Who) (n : Fin 96) (s : State), MayWrite w (0x8000 + 0x20 * n.val) s ∧ isComplement s n = true) :=
  ⟨⟨.thread 15, 95, live, by decide⟩, ⟨.host, 95, live, by decide⟩,
    ⟨.host, 95, { live with shut := { active := true } }, by decide⟩, ⟨.host, 95, onOut 94 { pair := true }, by decide⟩,
    ⟨94, onOut 94 { queue := [{ t := 6400128, op := .set, tag := 0 }], pair := true },
      { t := 6400128, op := .set, tag := 0 }, [], 95, 6400128, by decide⟩,
    ⟨95, onOut 95 { queue := [{ t := 6400127, op := .clear, tag := 0 }] }, { t := 6400127, op := .clear, tag := 0 }, [],
      95, 6400127, by decide⟩,
    ⟨95, onOut 95 { line := [{ t := 6400063, op := .set, rise := none }] }, { t := 6400063, op := .set, rise := none },
      by decide⟩,
    ⟨95, onOut 95 { queue := [{ t := 6400000, op := .hold, tag := 0 }] }, { t := 6400000, op := .hold, tag := 0 },
      by decide⟩,
    ⟨.host, 94, onOut 94 { pair := true }, by decide⟩, ⟨.host, 95, onOut 94 { pair := true }, by decide⟩⟩

theorem wit_OutletRegisters :
    (∃ (w : Who) (n : Fin 96) (v : BitVec 2) (s : State), MayWrite w (0x8000 + 0x20 * n.val) s ∧ v ≠ 3 ∧
      (s.outlet (lead s n)).claimAt ≠ s.clk.fc + 1) ∧
    (∃ (w : Who) (n : Fin 96) (v : Bool) (s : State), MayWrite w (0x8000 + 0x20 * n.val) s ∧ v ≠ (s.outlet n).lvl ∧
      ownerOf s n = 0) ∧
    (∃ (w : Who) (n : Fin 96) (v : Bool) (s : State), MayWrite w (0x8000 + 0x20 * n.val) s ∧ v ≠ (s.outlet n).lvl ∧
      ownerOf s n ≠ 0 ∧ bit (s.outlet n).stat 3 = false) ∧
    (∃ (w : Who) (n : Fin 96) (s : State), MayWrite w (0x8000 + 0x20 * n.val) s ∧ (s.outlet n).oen = true) ∧
    (∃ (w : Who) (n : Fin 96) (s : State), MayWrite w (0x8000 + 0x20 * n.val) s ∧
      (s.outlet (lead s n)).claimAt = s.clk.fc + 1) ∧
    (∃ (n : Fin 96) (s : State), coreOff s = false ∧ (s.outlet n).oen = true ∧ (s.outlet n).oenLive = true ∧
      (s.outlet n).oe = false ∧ (s.outlet n).padHold = none ∧ (s.outlet n).oenAt ≠ s.clk.fc + 1 ∧
      edgeLevel s n = (s.outlet n).safe) ∧
    (∃ (w : Who) (n : Fin 96) (v : Bool) (s : State), MayWrite w (0x8000 + 0x20 * n.val) s ∧ n.val % 2 = 0 ∧
      v ≠ (s.outlet n).pair ∧ outIdle s n = true ∧ outIdle s (n + 1) = true) ∧
    (∃ (w : Who) (n : Fin 96) (v : Bool) (s : State), MayWrite w (0x8000 + 0x20 * n.val) s ∧ n.val % 2 = 0 ∧
      v ≠ (s.outlet n).pair ∧ outIdle s (n + 1) = false ∧ bit (s.outlet n).stat 5 = false) ∧
    (∃ s, coreOff s = false ∧ s.pwr.plllock = true) :=
  ⟨⟨.host, 95, 2, live, by decide⟩, ⟨.host, 95, true, live, by decide⟩, ⟨.host, 95, true, onOut 95 { owner := 2 }, by decide⟩,
    ⟨.host, 95, onOut 95 { oen := true }, by decide⟩, ⟨.host, 95, onOut 95 { claimAt := 100001 }, by decide⟩,
    ⟨95, onOut 95 { oen := true, oenLive := true }, by decide⟩, ⟨.host, 94, true, live, by decide⟩,
    ⟨.host, 94, true, onOut 95 { rises := [5] }, by decide⟩, ⟨live, by decide⟩⟩

theorem wit_FlumesArmAndBanks :
    (∃ (w : Who) (n : Fin 32) (v : U32) (s c : State), MayWrite w (0x9000 + 0x40 * n.val) s ∧ (s.flume n).arm = false ∧
      c = s.modFl n (fun f => { f with
        mode := fd v 1 2, sfmt := bit v 3, cpol := bit v 4, misspol := bit v 5, p2en := bit v 6, tmren := bit v 7
        port1 := fd v 8 5, port2 := fd v 13 5, out := fd v 18 7, tmr := fd v 25 5 }) ∧ canArm c (c.flume n) = true) ∧
    (∃ (w : Who) (n : Fin 32) (v : U32) (s : State), MayWrite w (0x9000 + 0x40 * n.val) s ∧ (s.flume n).arm = true ∧
      flCtl (s.flume n) = (v &&& 0x3FFFFFFE#32)) ∧
    (∃ (w : Who) (n : Fin 32) (s : State), coreOff s = false ∧
      (∀ r, writeRefused s w (0x9000 + 0x40 * n.val + FlumeReg.off r) = false) ∧ (s.flume n).arm = false) ∧
    (∃ (w : Who) (n : Fin 32) (s : State), coreOff s = false ∧
      (∀ r, writeRefused s w (0x9000 + 0x40 * n.val + FlumeReg.off r) = false) ∧ (s.flume n).arm = true) ∧
    (∃ (w : Who) (n : Fin 32) (s : State), MayWrite w (0x9038 + 0x40 * n.val) s ∧ boundaryDue s n = false ∧
      (s.flume n).pbAt ≠ s.clk.fc + 1 ∧ (s.flume n).pb.act = false ∧ (s.flume n).pb.rdy = false) ∧
    (∃ (w : Who) (n : Fin 32) (s : State), MayWrite w (0x9038 + 0x40 * n.val) s ∧ boundaryDue s n = false ∧
      (s.flume n).pbAt ≠ s.clk.fc + 1 ∧ (s.flume n).pb.act = false ∧ (s.flume n).pb.rdy = true) ∧
    (∃ (w : Who) (n : Fin 32) (s : State), MayWrite w (0x9038 + 0x40 * n.val) s ∧ boundaryDue s n = false ∧
      (s.flume n).pbAt ≠ s.clk.fc + 1 ∧ (s.flume n).pb.act = true) ∧
    (∃ (w : Who) (n : Fin 32) (s : State), MayWrite w (0x9038 + 0x40 * n.val) s ∧ boundaryDue s n = false ∧
      (s.flume n).pbAt = s.clk.fc + 1) ∧
    (∃ (w : Who) (n : Fin 32) (s : State), MayWrite w (0x903C + 0x40 * n.val) s ∧ boundaryDue s n = false ∧
      (s.flume n).pbAt ≠ s.clk.fc + 1) :=
  ⟨⟨.host, 31, 3, onFl 31 { pb := { rdy := true }, peri := 0x400, tref := 6401024 * 65536 }, _, by decide, by decide, rfl,
      by decide⟩,
    ⟨.host, 31, 3, onFl 31 { arm := true, mode := 1 }, by decide⟩, ⟨.host, 31, live, by decide, fun _ => rfl, by decide⟩,
    ⟨.host, 31, onFl 31 { arm := true }, by decide, fun _ => rfl, by decide⟩, ⟨.host, 31, live, by decide⟩,
    ⟨.host, 31, onFl 31 { pb := { rdy := true } }, by decide⟩, ⟨.host, 31, onFl 31 { pb := { act := true } }, by decide⟩,
    ⟨.thread 0, 31, onFl 31 { pbAt := 100001 }, by decide⟩, ⟨.thread 15, 31, live, by decide⟩⟩

/-- Flume 31 in a carrier period that began 10 fc ago; bank word 1 says that nothing is posted. -/
def carrying (f : Flume) : State :=
  onFl 31 { f with arm := true, inPeriod := true, boundaryFc := 99990, next := 7000000 * 65536 }

theorem wit_FlumePeriodsAndSamples :
    (∃ (n : Fin 32) (s : State), coreOff s = false ∧ boundaryDue s n = true ∧ (s.flume n).pb.rdy = true) ∧
    (∃ (n : Fin 32) (s : State), coreOff s = false ∧ boundaryDue s n = true ∧ (s.flume n).pb.rdy = false) ∧
    (∃ (n : Fin 32) (s : State), coreOff s = false ∧ (s.flume n).arm = true ∧ awake s = true ∧ (s.flume n).mode = 1 ∧
      (s.flume n).inPeriod = true ∧ (s.flume n).taken = false ∧ (s.flume n).closed = false ∧ boundaryDue s n = false ∧
      (s.flume n).wclose.toNat < periodFc s n ∧ (s.flume n).misspol = false ∧ startOf (s.flume n) = 3) ∧
    (∃ (n : Fin 32) (s : State), coreOff s = false ∧ (s.flume n).arm = true ∧ awake s = true ∧ (s.flume n).mode = 1 ∧
      (s.flume n).inPeriod = true ∧ (s.flume n).taken = false ∧ (s.flume n).closed = false ∧ boundaryDue s n = false ∧
      (s.flume n).wclose.toNat < periodFc s n ∧ (s.flume n).misspol = true) ∧
    (∃ (n : Fin 32) (s : State), coreOff s = false ∧ (s.flume n).arm = true ∧ awake s = true ∧ (s.flume n).mode = 2 ∧
      (s.flume n).inPeriod = true ∧ (s.flume n).closed = false ∧ boundaryDue s n = false ∧
      reached40 (addT (trefInt (s.flume n).tref) ((bankWord (s.flume n) 6).toInt - 192)) s.clk.gauge s.clk.adv.toNat = true) ∧
    (∃ (w : Who) (v : U32) (k : Fin 4) (s : State), MayWrite w 0x1800 s ∧
      (bit s.ports.smpEn k && bit (fd v 0 4 : BitVec 4) k) = true ∧ (fd v (8 + 4 * k) 3 : BitVec 3) ≠ vget s.ports.smpPh k 0) ∧
    (∃ (n : Fin 32) (s : State), coreOff s = false ∧ awake s = true ∧ bit s.ports.smpEn (n / 8) = true ∧
      (vget s.ports.smpClk (n / 8) {}).high = 4 ∧ bit s.ports.landed n = false) :=
  ⟨⟨31, onFl 31 { arm := true, passed := true, pb := { rdy := true } }, by decide⟩,
    ⟨31, onFl 31 { arm := true, tref := 6400063 * 65536 }, by decide⟩,
    ⟨31, carrying { mode := 1, wclose := 9, bank := Vector.replicate 8 0xFFFFFFFF }, by decide⟩,
    ⟨31, carrying { mode := 1, wclose := 9, misspol := true }, by decide⟩,
    ⟨31, carrying { mode := 2, tref := 6400000 * 65536, bank := (Vector.replicate 8 0xFFFFFFFF).set 6 192 }, by decide⟩,
    ⟨.host, 0x100008, 3, { live with ports := { smpEn := 8 } }, by decide⟩,
    ⟨31, { live with ports := { smpEn := 8, smpClk := (Vector.replicate 4 {}).set 3 { high := 4 } } }, by decide⟩⟩

theorem wit_TimerCounts :
    (∃ (n : Fin 32) (s : State), coreOff s = false ∧ canTick s n = true ∧ wouldWrap (s.timer n) = false) ∧
    (∃ (n : Fin 32) (s : State), coreOff s = false ∧ canTick s n = true ∧ wouldWrap (s.timer n) = true ∧
      (∀ i, i < 4 → vget (s.timer n).preAt i 0 ≠ s.clk.fc + 1) ∧ n.val + 1 < 32 ∧ (s.timer (n + 1)).src = 3 ∧
      (s.timer (n + 1)).run = true ∧ takesTick (s.timer (n + 1)) (s.clk.fc + 1) = true ∧ bit (s.timer n).acto 10 = true) ∧
    (∃ (n : Fin 32) (s : State), coreOff s = false ∧ awake s = true ∧ tmrFrozen s = false ∧ bit (s.timer n).hit 0 = true ∧
      bit (s.timer n).hit 1 = true ∧ bit (s.timer n).hit 2 = true) ∧
    (∃ (n : Fin 32) (s : State), coreOff s = false ∧ ((s.timer n).trigAt.any fun f => decide (f ≤ s.clk.fc)) = true) ∧
    (∃ (n : Fin 32) (s : State), coreOff s = false ∧ (s.timer n).capEv = true ∧ awake s = true ∧ tmrFrozen s = false ∧
      (s.timer n).capReadAt ≠ s.clk.fc + 1) ∧
    (∃ (n : Fin 32) (s : State), coreOff s = false ∧ (s.timer n).capEv = true ∧ awake s = true ∧ tmrFrozen s = false ∧
      (s.timer n).capReadAt = s.clk.fc + 1) :=
  ⟨⟨31, onTmr 31 { run := true, src := 1 }, by decide⟩,
    ⟨30, (onTmr 30 { run := true, tick := true, cnt := 5, per := 5, acto := 1024 }).modTmr 31 (fun t => { t with
      run := true, src := 3 }), by decide⟩,
    ⟨31, onTmr 31 { hit := 7 }, by decide⟩, ⟨31, onTmr 31 { trigAt := [100000] }, by decide⟩,
    ⟨31, onTmr 31 { capEv := true, capf := true, capIrq := true }, by decide⟩,
    ⟨31, onTmr 31 { capEv := true, capReadAt := 100001 }, by decide⟩⟩

theorem wit_TimerRegisters :
    (∃ (w : Who) (n : Fin 32) (s : State), MayWrite w (0x6100 + 0x40 * n.val) s ∧ (s.timer n).run = false ∧
      vget (s.timer n).preAt 0 0 ≠ s.clk.fc + 1) ∧
    (∃ (w : Who) (n : Fin 32) (s : State), MayWrite w (0x6100 + 0x40 * n.val) s ∧ (s.timer n).run = true ∧
      (s.timer n).startAt ≠ s.clk.fc + 1) ∧
    (∃ (w : Who) (n : Fin 32) (s : State), MayWrite w (0x6108 + 0x40 * n.val) s) ∧
    (∃ (w : Who) (n : Fin 32) (s : State), coreOff s = false ∧
      (∀ r, writeRefused s w (0x6100 + 0x40 * n.val + TimerReg.off r) = false) ∧ (w = .host ∨ w = .debugger)) ∧
    (∃ (j : Fin 16) (n : Fin 32) (r : TimerReg) (s : State),
      MayWrite (.thread j) (0x6100 + 0x40 * n.val + TimerReg.off r) s) ∧
    (∃ (w : Who) (n : Fin 32) (s : State), MayWrite w (0x6100 + 0x40 * n.val) s ∧ (s.timer n).aten = false ∧
      inFuture (s.timer n).synct s.clk.gauge = true) ∧
    (∃ (w : Who) (n : Fin 32) (s : State), MayWrite w (0x6100 + 0x40 * n.val) s ∧ (s.timer n).aten = false ∧
      inFuture (s.timer n).synct s.clk.gauge = false) ∧
    (∃ (n : Fin 32) (s : State), coreOff s = false ∧ (s.timer n).aten = true ∧ awake s = true ∧ tmrFrozen s = false ∧
      (s.timer n).passedAt = 0 ∧ inPast (s.timer n).synct s.clk.gauge = true) ∧
    (∃ (n : Fin 32) (s : State), coreOff s = false ∧ (s.timer n).aten = true ∧ awake s = true ∧ tmrFrozen s = false ∧
      (s.timer n).passedAt ≠ 0 ∧ (s.timer n).passedAt ≤ s.clk.fc) :=
  ⟨⟨.host, 31, live, by decide⟩, ⟨.host, 31, onTmr 31 { run := true }, by decide⟩, ⟨.host, 31, live, by decide⟩,
    ⟨.host, 31, live, by decide, fun _ => rfl, by decide⟩, ⟨15, 31, .cmpc, live, by decide⟩,
    ⟨.host, 31, onTmr 31 { synct := 6400001 }, by decide⟩, ⟨.host, 31, onTmr 31 { synct := 6400000 }, by decide⟩,
    ⟨31, onTmr 31 { aten := true, synct := 6399999 }, by decide⟩, ⟨31, onTmr 31 { aten := true, passedAt := 7 }, by decide⟩⟩

/-! ## Rider, Culvert, Turnout -/

def onRch (n : Nat) (c : RiderCh) : State := live.modRch n (fun _ => c)
def onCul (n : Nat) (c : CulCh) : State := live.modCul n (fun _ => c)

/-- An instruction that has been latched and has not executed. -/
def latched (w : U32) : RiderCh := { run := true, latch := some { word := w, phase := .fetched, exec := 100000, seen := false, time := 0 } }

/-- The same in phase `p`. -/
def phased (w : U32) (p : RiderPhase) (seen : Bool) : RiderCh :=
  { run := true, latch := some { word := w, phase := p, exec := 5, seen := seen, time := 0 } }

theorem wit_RiderInstructions :
    ∀ k : Fin 9, k.val ≠ 7 → ∃ (n : Fin 32) (s : State) (l : RiderLatch), coreOff s = false ∧ (s.rch n).latch = some l ∧
      l.phase = .fetched ∧ opcOf l.word = k ∧ (s.rch n).setat = none := fun k _ =>
  ⟨31, onRch 31 (latched (BitVec.ofNat 32 (k.val * 0x10000000))), _, rfl, rfl, rfl,
    by match k with
      | 0 | 1 | 2 | 3 | 4 | 5 | 6 | 7 | 8 => decide,
    rfl⟩

theorem wit_RiderTurnsAndMoves :
    (∃ (n : Fin 32) (s : State) (w : U32), coreOff s = false ∧ hasTurn s n = true ∧ (s.rch n).inj = some w ∧ legal w = true) ∧
    (∃ (n : Fin 32) (s : State) (w : U32), coreOff s = false ∧ hasTurn s n = true ∧ (s.rch n).inj = some w ∧ legal w = false) ∧
    (∃ (n : Fin 32) (s : State), coreOff s = false ∧ hasTurn s n = true ∧ (s.rch n).inj = none ∧
      marked (s.rch n).pc.toNat s.rider.bad = false ∧ legal (progWord s (s.rch n).pc.toNat) = true) ∧
    (∃ (n : Fin 32) (s : State), coreOff s = false ∧ hasTurn s n = true ∧ (s.rch n).inj = none ∧
      marked (s.rch n).pc.toNat s.rider.bad = false ∧ legal (progWord s (s.rch n).pc.toNat) = false) ∧
    (∃ (n : Fin 32) (s : State), coreOff s = false ∧ hasTurn s n = true ∧ (s.rch n).inj = none ∧
      marked (s.rch n).pc.toNat s.rider.bad = true) ∧
    (∃ (n : Fin 32) (s : State) (l : RiderLatch), coreOff s = false ∧ (s.rch n).latch = some l ∧ l.phase = .fetched ∧
      opcOf l.word = 7 ∧ movReady (s.rch n) l.word = false) ∧
    (∃ (n : Fin 32) (s : State) (l : RiderLatch), coreOff s = false ∧ (s.rch n).latch = some l ∧ l.phase = .fetched ∧
      opcOf l.word = 7 ∧ movReady (s.rch n) l.word = true ∧ (fd l.word 16 4 : BitVec 4) ≠ 4) ∧
    (∃ (n : Fin 32) (s : State) (l : RiderLatch) (j : Fin 8), coreOff s = false ∧ (s.rch n).latch = some l ∧
      l.phase = .fetched ∧ opcOf l.word = 7 ∧ movReady (s.rch n) l.word = true ∧ (fd l.word 16 4 : BitVec 4) = 4 ∧
      drives (rslot (s.rch n) j) = true ∧ (rslot (s.rch n) j).nextSide = false) ∧
    (∃ (n : Fin 32) (s : State) (l : RiderLatch), coreOff s = false ∧ riderFrozen s = false ∧ (s.rch n).latch = some l ∧
      opcOf l.word = 2 ∧ l.phase = .shifted ∧ bit l.word 16 = true ∧ rxRoom (s.rch n) = true) ∧
    (∃ (n : Fin 32) (s : State) (l : RiderLatch), coreOff s = false ∧ riderFrozen s = false ∧ (s.rch n).latch = some l ∧
      opcOf l.word = 7 ∧ l.phase = .waiting ∧ movReady (s.rch n) l.word = true) ∧
    (∃ (n : Fin 32) (s : State) (l : RiderLatch), coreOff s = false ∧ riderFrozen s = false ∧ (s.rch n).latch = some l ∧
      opcOf l.word = 2 ∧ l.phase = .shifted ∧ bit l.word 16 = false) ∧
    (∃ (n : Fin 32) (s : State) (l : RiderLatch), coreOff s = false ∧ riderFrozen s = false ∧ (s.rch n).latch = some l ∧
      opcOf l.word = 3 ∧ l.phase = .waiting ∧ l.seen = true) ∧
    (∃ (n : Fin 32) (s : State) (l : RiderLatch), coreOff s = false ∧ riderFrozen s = false ∧ (s.rch n).latch = some l ∧
      opcOf l.word = 4 ∧ l.phase = .waiting ∧ l.exec + (fd l.word 0 20 : BitVec 20).toNat + 1 ≤ s.clk.fc) ∧
    (∃ (n : Fin 32) (s : State) (l : RiderLatch), coreOff s = false ∧ riderFrozen s = false ∧ (s.rch n).latch = some l ∧
      opcOf l.word = 8 ∧ l.phase = .waiting ∧ bit (s.rch n).stat 0 = false) ∧
    (∃ (n : Fin 32) (s : State) (l : RiderLatch), coreOff s = false ∧ riderFrozen s = false ∧ (s.rch n).latch = some l ∧
      opcOf l.word = 5 ∧ l.phase = .waiting ∧ (s.rch n).setat = none) ∧
    (∃ (n : Fin 32) (s : State) (p : PendSet), coreOff s = false ∧ riderFrozen s = false ∧ (s.rch n).setat = some p ∧
      setatDue s p = some false ∧ drives (rslot (s.rch n) p.slot.toNat) = true) ∧
    (∃ (n : Fin 32) (s : State) (p : PendSet), coreOff s = false ∧ riderFrozen s = false ∧ (s.rch n).setat = some p ∧
      setatDue s p = some true) :=
  ⟨⟨0, onRch 0 { inj := some 0 }, 0, by decide⟩, ⟨0, onRch 0 { inj := some 0xF0000000 }, 0xF0000000, by decide⟩,
    ⟨0, onRch 0 { run := true }, by decide⟩,
    ⟨0, { onRch 0 { run := true } with rider := { (onRch 0 { run := true }).rider with prog := [(0, 0xF0000000)] } }, by decide⟩,
    ⟨0, { onRch 0 { run := true } with rider := { (onRch 0 { run := true }).rider with bad := [0] } }, by decide⟩,
    ⟨31, onRch 31 (latched 0x70007000), _, by decide, rfl, by decide⟩,
    ⟨31, onRch 31 (latched 0x70000000), _, by decide, rfl, by decide⟩,
    ⟨31, onRch 31 { latched 0x70040000 with slots := (Vector.replicate 8 {}).set 7 { mode := 2, held := true } }, _, 7,
      by decide, rfl, by decide⟩,
    ⟨31, onRch 31 (phased 0x20010000 .shifted false), _, by decide, by decide, rfl, by decide⟩,
    ⟨31, onRch 31 (phased 0x70000000 .waiting false), _, by decide, by decide, rfl, by decide⟩,
    ⟨31, onRch 31 (phased 0x20000000 .shifted false), _, by decide, by decide, rfl, by decide⟩,
    ⟨31, onRch 31 (phased 0x30000000 .waiting true), _, by decide, by decide, rfl, by decide⟩,
    ⟨31, onRch 31 (phased 0x4001869A .waiting false), _, by decide, by decide, rfl, by decide⟩,
    ⟨31, onRch 31 (phased 0x80000001 .waiting false), _, by decide, by decide, rfl, by decide⟩,
    ⟨31, onRch 31 (phased 0x50000000 .waiting false), _, by decide, by decide, rfl, by decide⟩,
    ⟨31, onRch 31 { setat := some { slot := 7, op := 2, t := 100000, e := 99990, fc := 99990 },
                    slots := (Vector.replicate 8 {}).set 7 { mode := 2, held := true } },
      { slot := 7, op := 2, t := 100000, e := 99990, fc := 99990 }, by decide⟩,
    ⟨31, onRch 31 { setat := some { slot := 7, op := 2, t := 99990, e := 99990, fc := 99990 } },
      { slot := 7, op := 2, t := 99990, e := 99990, fc := 99990 }, by decide⟩⟩

theorem wit_RiderRegisters :
    (∃ (w : Who) (n : Fin 32) (s : State), MayWrite w (0xA028 + 0x40 * n.val) s ∧ s.clk.running = true) ∧
    (∃ (w : Who) (n : Fin 32) (s : State), MayWrite w (0xA028 + 0x40 * n.val) s ∧ s.clk.running = false ∧
      (s.rch n).txIn = [] ∧ (s.rch n).rxIn = [] ∧ 4 ≤ (s.rch n).tx.length) ∧
    (∃ (w : Who) (n : Fin 32) (s : State), MayWrite w (0xA028 + 0x40 * n.val) s ∧ s.clk.running = false ∧
      (s.rch n).txIn = [] ∧ (s.rch n).rxIn = [] ∧ (s.rch n).tx.length < 4) ∧
    (∃ (n : Fin 32) (s : State), 4 - (s.rch n).tx.length < (s.rch n).txIn.length) ∧
    (∃ (w : Who) (n : Fin 32) (s : State) (x : U32), MayWrite w (0xA030 + 0x40 * n.val) s ∧ (s.rch n).inj = some x) ∧
    (∃ (w : Who) (n : Fin 32) (s : State), MayWrite w (0xA030 + 0x40 * n.val) s ∧ (s.rch n).inj = none ∧
      ((s.rch n).abortstall = false ∨ (s.rch n).latch = none)) ∧
    (∃ (w : Who) (n : Fin 32) (s : State) (l : RiderLatch), MayWrite w (0xA030 + 0x40 * n.val) s ∧ (s.rch n).inj = none ∧
      (s.rch n).abortstall = true ∧ (s.rch n).latch = some l) ∧
    (∃ (w : Who) (i : BitVec 11) (s : State), MayWrite w (0xC000 + 4 * i.toNat) s ∧ Memory.wf 0 s.rider.prog ∧
      s.rider.prog ≠ []) ∧
    (∃ (w : Who) (n : Fin 32) (v : U32) (s : State), MayWrite w (0xA000 + 0x40 * n.val) s ∧ (s.rch n).run = false ∧
      bit v 2 = false) ∧
    (∃ (w : Who) (n : Fin 32) (v : U32) (s : State), MayWrite w (0xA000 + 0x40 * n.val) s ∧ bit v 1 = false ∧
      (bit v 2 = false ∨ (s.rch n).run = true)) ∧
    (∃ (w : Who) (n : Fin 32) (v : U32) (s : State), MayWrite w (0xA000 + 0x40 * n.val) s ∧ bit v 1 = false ∧
      (s.rch n).run = false ∧ bit v 0 = false) ∧
    (∃ (w : Who) (n : Fin 32) (v : U32) (s : State), MayWrite w (0xA000 + 0x40 * n.val) s ∧ bit v 1 = false ∧
      (s.rch n).run = true ∧ bit v 0 = true) ∧
    (∃ (w : Who) (n : Fin 32) (hi : Bool) (v : U32) (i : Fin 4) (s : State) (j : Nat) (pin : BitVec 6) (mode : BitVec 2),
      MayWrite w (0xA010 + 0x40 * n.val + (if hi then 4 else 0)) s ∧ j = i.val + (if hi then 4 else 0) ∧
      pin = (fd v (8 * i) 6 : BitVec 6) ∧ mode = (fd v (8 * i + 6) 2 : BitVec 2) ∧ bit mode 1 = true ∧
      ¬(drives (rslot (s.rch n) j) = true ∧ (rslot (s.rch n) j).pin = pin) ∧ pinTaken s n pin.toNat = true) ∧
    (∃ (w : Who) (s : State), MayWrite w 0xB000 s ∧ s.rider.sync = false ∧ inFuture s.rider.synct s.clk.gauge = true) ∧
    (∃ (w : Who) (s : State), MayWrite w 0xB000 s ∧ s.rider.sync = false ∧ inFuture s.rider.synct s.clk.gauge = false) ∧
    (∃ s : State, coreOff s = false ∧ s.rider.sync = true ∧ awake s = true ∧ s.rider.passedAt = 0 ∧
      inPast s.rider.synct s.clk.gauge = true) ∧
    (∃ s : State, coreOff s = false ∧ s.rider.sync = true ∧ awake s = true ∧ s.rider.passedAt ≠ 0 ∧
      s.rider.passedAt ≤ s.clk.fc) :=
  ⟨⟨.host, 31, live, by decide⟩, ⟨.host, 31, { onRch 31 { tx := [1, 2, 3, 4] } with clk := {} }, by decide⟩,
    ⟨.host, 31, { live with clk := {} }, by decide⟩, ⟨31, onRch 31 { tx := [1, 2, 3], txIn := [4, 5] }, by decide⟩,
    ⟨.host, 31, onRch 31 { inj := some 7 }, 7, by decide⟩, ⟨.host, 31, live, by decide⟩,
    ⟨.host, 31, onRch 31 { latched 0 with abortstall := true }, _, by decide, by decide, by decide, rfl⟩,
    ⟨.host, 2047, { live with rider := { live.rider with prog := [(2047, 1)] } }, by decide⟩,
    ⟨.host, 31, 2, live, by decide⟩, ⟨.host, 31, 4, onRch 31 { run := true }, by decide⟩, ⟨.host, 31, 4, live, by decide⟩,
    ⟨.host, 31, 1, onRch 31 { run := true }, by decide⟩,
    ⟨.host, 31, true, 0xBF000000, 3, onRch 0 { slots := (Vector.replicate 8 {}).set 7 { pin := 63, mode := 2, held := true } },
      7, 63, 2, by decide⟩,
    ⟨.host, { live with rider := { live.rider with synct := 6400001 } }, by decide⟩, ⟨.host, live, by decide⟩,
    ⟨{ live with rider := { live.rider with sync := true, synct := 6399999 } }, by decide⟩,
    ⟨{ live with rider := { live.rider with sync := true, passedAt := 100000 } }, by decide⟩⟩

/-- A descriptor of 16 bytes from host memory to host memory. -/
def hostDesc : List Byte := (((List.replicate 32 0).set 8 1).set 16 1).set 24 16

def moving (c : CulCh) : State := onCul 15 { c with en := true, phase := .loaded, cur := some (parseDesc hostDesc) }

theorem wit_CulvertWalk :
    (∃ (n : Fin 16) (s : State) (l : List Byte), coreOff s = false ∧ fetching (s.culCh n) = true ∧
      (s.culCh n).asked = true ∧ (s.culCh n).nextSp = true ∧ descCause (padTo 32 l) = none) ∧
    (∃ (n : Fin 16) (s : State) (l : List Byte) (k : BitVec 4), coreOff s = false ∧ fetching (s.culCh n) = true ∧
      (s.culCh n).asked = true ∧ (s.culCh n).nextSp = true ∧ descCause (padTo 32 l) = some k) ∧
    (∃ (n : Fin 16) (s : State), coreOff s = false ∧ fetching (s.culCh n) = true ∧ (s.culCh n).asked = true ∧
      (s.culCh n).nextSp = false ∧ memFree s = true ∧ 2 ^ 20 ≤ (s.culCh n).next.toNat) ∧
    (∃ (n : Fin 16) (s : State), coreOff s = false ∧ fetching (s.culCh n) = true ∧ (s.culCh n).asked = true ∧
      (s.culCh n).nextSp = false ∧ memFree s = true ∧ (s.culCh n).next.toNat < 2 ^ 20 ∧
      rowsBad s (s.culCh n).next.toNat 32 = true) ∧
    (∃ (n : Fin 16) (s : State) (d : CulDesc), coreOff s = false ∧ (s.culCh n).pulses ≠ 0 ∧ (s.culCh n).cur = some d ∧
      (s.culCh n).en = true ∧ (s.culCh n).phase = .loaded ∧ (s.culCh n).done < d.len.toNat) ∧
    (∃ (n : Nat) (s : State) (d : CulDesc), n < 16 ∧ coreOff s = false ∧ granted s = some n ∧ dataReady s n = true ∧
      (s.culCh n).cur = some d ∧ d.ssp = true) ∧
    (∃ (n : Nat) (s : State), n < 16 ∧ coreOff s = false ∧ granted s = some n ∧ dataReady s n = false) ∧
    (∃ (n : Fin 16) (s : State) (d : CulDesc) (b : CulBurst) (rest : List CulBurst), coreOff s = false ∧
      (s.culCh n).cur = some d ∧ (s.culCh n).bursts = b :: rest ∧ d.dsp = true ∧ b.data = none ∧ d.crc = false) ∧
    (∃ (n : Fin 16) (s : State) (d : CulDesc) (b : CulBurst) (rest : List CulBurst) (w : Fin 16), coreOff s = false ∧
      (s.culCh n).cur = some d ∧ (s.culCh n).bursts = b :: rest ∧ d.dsp = true ∧
      beatsBefore d b.at_ (b.size / 16) w < b.size / 16) ∧
    (∃ (n : Fin 16) (s : State) (d : CulDesc), coreOff s = false ∧ (s.culCh n).cur = some d ∧
      completing (s.culCh n) = true ∧ culRuns s n = true ∧ (d.dsp = true ∨ memFree s = true) ∧ d.record = false ∧
      d.ends = false) ∧
    (∃ (n : Fin 16) (s : State) (code : BitVec 4), coreOff s = false ∧ (s.culCh n).en = true ∧ (s.culCh n).bursts = [] ∧
      (s.culCh n).fail = some code ∧ stopRecord (s.culCh n) code = true ∧ recordPlace s n = .ready) ∧
    (∃ (n : Fin 16) (s : State) (code : BitVec 4), coreOff s = false ∧ (s.culCh n).en = true ∧ (s.culCh n).bursts = [] ∧
      (s.culCh n).fail = some code ∧ stopRecord (s.culCh n) code = false) :=
  ⟨⟨15, onCul 15 { en := true, phase := .fetch, nextSp := true, asked := true }, hostDesc, by decide⟩,
    ⟨15, onCul 15 { en := true, phase := .fetch, nextSp := true, asked := true }, [], 3, by decide⟩,
    ⟨15, onCul 15 { en := true, phase := .fetch, next := 0x100000, asked := true }, by decide⟩,
    ⟨15, { onCul 15 { en := true, phase := .fetch, next := 0xFFFE0, asked := true } with mem := { badRow := [0xFFFF] } },
      by decide⟩,
    ⟨15, moving { pulses := 1 }, _, by decide, by decide, rfl, by decide⟩,
    ⟨15, moving {}, _, by decide, by decide, by decide, by decide, rfl, by decide⟩,
    ⟨15, onCul 15 { en := true, phase := .fetch }, by decide⟩,
    ⟨15, moving { issued := 16, bursts := [{ at_ := 0, size := 16, data := none }] }, _, _, _, by decide, rfl, rfl, by decide⟩,
    ⟨15, moving { issued := 16, bursts := [{ at_ := 0, size := 16, data := none }] }, _, _, _, 0, by decide, rfl, rfl,
      by decide⟩,
    ⟨15, moving { issued := 16, done := 16 }, _, by decide, rfl, by decide⟩,
    ⟨15, { onCul 15 { en := true, phase := .fetch, fail := some 8, asked := true } with
      hg := { live.hg with cq := { en := true } } }, 8, by decide⟩,
    ⟨15, moving { fail := some 9 }, 9, by decide⟩⟩

theorem wit_CulvertControl :
    (∃ (w : Who) (n : Fin 16) (v : U32) (s : State), MayWrite w (0x20000 + 0x40 * n.val) s ∧ bit v 2 = false ∧
      (s.culCh n).en = false) ∧
    (∃ (w : Who) (n : Fin 16) (v : U32) (s : State), MayWrite w (0x20000 + 0x40 * n.val) s ∧ bit v 2 = false ∧
      bit v 0 = true ∧ (s.culCh n).en = true) ∧
    (∃ (n : Fin 16) (s : State), coreOff s = false ∧ (s.culCh n).pause = true ∧ (s.culCh n).paused = false ∧
      (s.culCh n).bursts = [] ∧ (fetching (s.culCh n) = false ∨ (s.culCh n).asked = false)) ∧
    (∃ (w : Who) (n : Fin 16) (s : State), MayWrite w (0x20000 + 0x40 * n.val) s ∧ (s.culCh n).en = true ∧
      s.hg.cq.en = false) ∧
    (∃ (w : Who) (n : Fin 16) (s : State), MayWrite w (0x20000 + 0x40 * n.val) s ∧ (s.culCh n).en = true ∧
      s.hg.cq.en = true ∧ stopRecord (s.culCh n) 13 = true) ∧
    (∃ (w : Who) (n : Fin 16) (v : U32) (s : State), MayWrite w (0x20000 + 0x40 * n.val) s ∧ (s.culCh n).en = false ∧
      bit v 0 = false) ∧
    (∃ s : State, coreOff s = false ∧ s.hg.evOwed ≠ 0) :=
  ⟨⟨.host, 15, 1, live, by decide⟩, ⟨.host, 15, 1, moving {}, by decide⟩, ⟨15, moving { pause := true }, by decide⟩,
    ⟨.host, 15, moving {}, by decide⟩,
    ⟨.host, 15, { onCul 15 { en := true, phase := .loaded, cur := some (parseDesc (hostDesc.set 30 16)) } with
      hg := { live.hg with cq := { en := true } } }, by decide⟩,
    ⟨.host, 15, 4, live, by decide⟩, ⟨{ live with hg := { live.hg with evOwed := 1 } }, by decide⟩⟩

theorem wit_ReadsThatClear :
    (∃ (n : Fin 32) (s : State), coreOff s = false ∧ (s.timer n).capAt ≠ s.clk.fc + 1 ∧ (s.timer n).capf = true) ∧
    (∃ (n : Fin 32) (s : State), coreOff s = false ∧ (s.timer n).capAt ≠ s.clk.fc + 1 ∧ (s.timer n).capf = false) ∧
    (∃ (n : Fin 32) (s : State), coreOff s = false ∧ (s.timer n).capAt = s.clk.fc + 1 ∧ (s.timer n).capfOld = true) ∧
    (∃ (n : Fin 32) (s : State) (v : U32) (rest : List U32), coreOff s = false ∧ (s.rch n).rx = v :: rest) ∧
    (∃ (n : Fin 32) (s : State), coreOff s = false ∧ (s.rch n).rx = []) ∧
    (∃ (n : Fin 32) (s : State), coreOff s = false ∧ boundaryDue s n = false ∧ (s.flume n).pbAt ≠ s.clk.fc + 1) ∧
    (∃ (s : State) (off : Nat), s.tur.rcSet ≠ [] ∧ ∀ r ∈ s.tur.rcSet, r.off ≠ off) ∧
    (∃ (p : Fin 4) (s : State), coreOff s = false ∧ portFormed s p = true) ∧
    (∃ (c : Fin 16) (s : State), coreOff s = false ∧ (s.lgch c).bound = true) ∧
    (∃ s : State, coreOff s = false ∧ s.lg.en = false ∧ lgmAt s < 0x25000 ∧ hwFresh s 0x24020 = 0) :=
  ⟨⟨31, onTmr 31 { capf := true }, by decide⟩, ⟨31, live, by decide⟩,
    ⟨31, onTmr 31 { capAt := 100001, capfOld := true }, by decide⟩, ⟨31, onRch 31 { rx := [5] }, 5, [], by decide⟩,
    ⟨31, live, by decide⟩, ⟨31, live, by decide⟩, ⟨rcSet 0x200C 0 (· + 1) live, 0x23034, by decide⟩, ⟨3, live, by decide⟩,
    ⟨15, live.modLg 15 ({ · with bound := true }), by decide⟩, ⟨{ live with lg := { maddr := 0x24FFC } }, by decide⟩⟩

/-- Source 448 counted once and routed to `r`. -/
def routed (r : BitVec 4) (s : State) : State :=
  { s with tur := { src := (Vector.replicate 512 {}).set 448 { pri := 1, cnt := 1, route := some r } } }

theorem routed_only (r : BitVec 4) (s : State) : only448 { pri := 1, cnt := 1, route := some r } (routed r s) := rfl

theorem wit_TurnoutCommands :
    (∃ (t : Fin 8) (s : State), coreOff s = false ∧ claimTurn s none (0x3004 + 0x10 * t.val) = true ∧ claimFor s t = none) ∧
    (∃ (t : Fin 8) (s : State) (k : Fin 512), coreOff s = false ∧ claimTurn s none (0x3004 + 0x10 * t.val) = true ∧
      claimFor s t = some k.val ∧ ∀ r ∈ s.tur.raised, r.src ≠ BitVec.ofNat 9 k) ∧
    (∃ (w : Who) (t : Fin 8) (v : U32) (s : State), MayWrite w (0x3008 + 0x10 * t.val) s ∧
      (s.source (fd v 0 9 : BitVec 9).toNat).service = some (.target (BitVec.ofNat 3 t))) ∧
    (∃ (w : Who) (t : Fin 8) (v : U32) (s : State), MayWrite w (0x3008 + 0x10 * t.val) s ∧
      (s.source (fd v 0 9 : BitVec 9).toNat).service ≠ some (.target (BitVec.ofNat 3 t))) ∧
    (∃ (n : Fin 16) (s : State) (x : BitVec 5) (word at_ : Nat) (k : Fin 512), coreOff s = false ∧ (s.thr n).owing = none ∧
      (s.thr n).safe = false ∧ (s.thr n).run = .parked (.load (.plain 2) 0x10003144 x word at_) ∧ at_ + 4 ≤ s.clk.fc ∧
      storesTaken s n = true ∧ dispatchable s n = some k.val ∧ ∀ r ∈ s.tur.raised, r.src ≠ BitVec.ofNat 9 k) ∧
    (∃ (w : Who) (v : U32) (s : State), MayWrite w 0x3180 s ∧ 448 ≤ (fd v 0 9 : BitVec 9).toNat) ∧
    (∃ (w : Who) (v : U32) (s : State), MayWrite w 0x3180 s ∧ (fd v 0 9 : BitVec 9).toNat < 448) ∧
    (∃ (w : Who) (k : Fin 512) (s : State), MayWrite w (0x4000 + 8 * k.val) s) ∧
    (∃ (w : Who) (s : State), MayWrite w 0x22808 s ∧ MayWrite w 0x2280C s ∧ s.seq.scondAt ≠ s.clk.fc + 1) ∧
    (∃ (w : Who) (s : State), MayWrite w 0x22808 s ∧ MayWrite w 0x2280C s ∧ s.seq.scondAt = s.clk.fc + 1) :=
  ⟨⟨7, live, by decide, by decide, by unfold claimFor; exact bestSource_none _ _ rfl rfl⟩,
    ⟨7, routed 7 live, 448, by decide, by decide, by unfold claimFor; exact bestSource_448 (routed_only _ _) _ rfl rfl,
      by decide⟩,
    ⟨.host, 7, 3, live.modSrc 3 ({ · with service := some (.target 7) }), by decide⟩, ⟨.host, 7, 3, live, by decide⟩,
    ⟨0, routed 8 (live.modThr 0 ({ · with run := .parked (.load (.plain 2) 0x10003144 7 0 99996) })), 7, 0, 99996, 448,
      by decide, by decide, by decide, by decide, by decide, by decide,
      by unfold dispatchable; exact bestSource_448 (routed_only _ _) _ rfl rfl, by decide⟩,
    ⟨.host, 448, live, by decide⟩, ⟨.host, 447, live, by decide⟩, ⟨.host, 511, live, by decide⟩, ⟨.thread 15, live, by decide⟩,
    ⟨.thread 15, { live with seq := { live.seq with scondAt := 100001 } }, by decide⟩⟩

/-! ## Link -/

def onPort (p : Nat) (q : LinkPort) : State := live.modPort p (fun _ => q)
def onLane (l : Nat) (st : BitVec 3) : State :=
  { live.modLane l ({ · with st := st }) with link := { (live.modLane l ({ · with st := st })).link with laneEn := 0xF } }

/-- Port 3 in UP with a frame waiting. -/
def inboxed (f : Frame) : State := onPort 3 { st := 3, inbox := [f] }

def mgmt (sub : BitVec 3) : Frame := { ftype := 6, vl := 0, sub := sub }

theorem wit_LinkLanes :
    (∃ (l : Fin 4) (s : State), bit s.link.laneEn l = true ∧ (s.lane l).st = 1) ∧
    (∃ (l : Fin 4) (s : State) (p : Nat), p = portOfLane s l ∧ (s.lane l).st = 2 ∧ (s.port p).tMod = 0 ∧
      (s.lane l).ffeovr = false) ∧
    (∃ (l : Fin 4) (s : State), (s.lane l).st = 3 ∧ (s.lane l).ffeovr = true) ∧
    (∃ (p : Fin 4) (s : State), (s.port p).st = 2) ∧
    (∃ (l : Fin 4) (s : State), 1 ≤ (s.lane l).st.toNat ∧ (s.lane l).st.toNat ≤ 3 ∧ (s.lane l).detAt + 400000 ≤ s.clk.fc) ∧
    (∃ (l : Fin 4) (s : State), 1 ≤ (s.lane l).st.toNat ∧ (s.lane l).st.toNat ≤ 3 ∧ s.clk.fc < (s.lane l).detAt + 400000) ∧
    (∃ (p : Fin 4) (s : State), portLive s p = true ∧ 16 ≤ (s.port p).uncRun.toNat) ∧
    (∃ (p : Fin 4) (s : State), portLive s p = true ∧
      3 * 2 ^ ((if 8 < (s.port p).aint.toNat then 8 else (s.port p).aint.toNat) + 8) < (s.port p).rxUnits) ∧
    (∃ (w : Who) (l : Fin 4) (s : State), MayWrite w (0x23100 + 0x20 * l.val) s) ∧
    (∃ (w : Who) (s : State), MayWrite w 0x23000 s ∧ s.link.laneEn = 0) ∧
    (∃ (w : Who) (s : State), MayWrite w 0x23000 s ∧ s.link.laneEn ≠ 0) ∧
    (∃ s : State, bit s.link.laneEn 0 = true ∧ (s.lane 0).st = 1) ∧ (∃ (p : Fin 4) (s : State), (s.port p).st = 4) :=
  ⟨⟨3, onLane 3 1, by decide⟩, ⟨3, onLane 3 2, _, rfl, by decide⟩,
    ⟨3, live.modLane 3 ({ · with st := 3, ffeovr := true }), by decide⟩, ⟨3, onPort 3 { st := 2 }, by decide⟩,
    ⟨3, { onLane 3 3 with clk := { fc := 400000 } }, by decide⟩, ⟨3, { onLane 3 3 with clk := { fc := 399999 } }, by decide⟩,
    ⟨3, onPort 3 { st := 3, uncRun := 16 }, by decide⟩, ⟨3, onPort 3 { st := 3, rxUnits := 12289 }, by decide⟩,
    ⟨.host, 3, live, by decide⟩, ⟨.host, live, by decide⟩, ⟨.host, onLane 3 1, by decide⟩, ⟨onLane 0 1, by decide⟩,
    ⟨3, onPort 3 { st := 4 }, by decide⟩⟩

/-- The symbols of a codeword as port p sees them. -/
def symbols (s : State) (p : Nat) (bits : BitVec 680) : List Nat :=
  (List.range 68).map (fun k => (fd (scramble (s.port p).rxLfsr bits).1 (10 * k) 10 : BitVec 10).toNat)

/-- Four copies of an ordered set of type k. -/
def fourCopies (k : Nat) : List U64 := List.replicate 4 (BitVec.ofNat 64 (0xC396A5 + k * 2 ^ 24))

set_option maxRecDepth 20000 in
theorem wit_LinkUnits :
    (∃ (p : Fin 4) (s : State) (bits : BitVec 680), portLive s p = true ∧ (s.port p).nearact = false ∧
      rsDecode (symbols s p bits) = none) ∧
    (∃ (p : Fin 4) (s : State) (bits : BitVec 680) (sym errs : List Nat), portLive s p = true ∧ (s.port p).nearact = false ∧
      rsDecode (symbols s p bits) = some (sym, errs) ∧ fd (lget (symbolsBlock sym) 1) 5 3 = (s.port p).rxSeq) ∧
    (∃ (p : Fin 4) (s : State), portLive s p = true ∧ (s.port p).resync = false ∧ pickLane s p = none) ∧
    (∃ (p : Fin 4) (s : State) (v : Nat) (b : TxBlock) (rest : List TxBlock), portLive s p = true ∧
      (s.port p).resync = false ∧ pickLane s p = some v ∧ vget (s.port p).txq v [] = b :: rest) ∧
    (∃ (p : Fin 4) (s : State), portUp s p = true ∧ (s.port p).resync = true ∧ vget (s.port p).txq 0 [] = []) ∧
    (∀ k : Fin 5, ∃ (p : Fin 4) (s : State) (cs : List U64) (w : U64) (tie : Bool), majority cs = (w, tie) ∧ cs.length = 4 ∧
      portLive s p = true ∧ 3 ≤ (cs.filter (fun c => fd c 0 24 = 0xC396A5#24)).length ∧ tie = false ∧
      (fd w 24 4 : BitVec 4).toNat = k ∧ s.pwr.st ≠ .sleep ∧ (s.port p).exch = none) ∧
    (∃ (p : Fin 4) (s : State), (s.port p).st = 2) ∧
    (∃ (p : Fin 4) (s : State), portLive s p = true ∧
      2 ^ ((if 8 < (s.port p).aint.toNat then 8 else (s.port p).aint.toNat) + 8) ≤ (s.port p).txUnits) ∧
    (∃ (p : Fin 4) (origin : BitVec 14) (seq : Byte) (s : State), (shutPorts s).contains p.val = true ∧
      sameOrder (portEvent p 5 (s.modPort p fun q => { q with shutrxn := q.shutrxn + 1 })) origin seq = true) ∧
    (∃ (p : Fin 4) (origin : BitVec 14) (seq : Byte) (s : State), (shutPorts s).contains p.val = true ∧
      sameOrder (portEvent p 5 (s.modPort p fun q => { q with shutrxn := q.shutrxn + 1 })) origin seq = false ∧
      s.shut.accept = true) ∧
    (∃ (p : Fin 4) (origin : BitVec 14) (seq : Byte) (s : State), (shutPorts s).contains p.val = true ∧
      sameOrder (portEvent p 5 (s.modPort p fun q => { q with shutrxn := q.shutrxn + 1 })) origin seq = false ∧
      s.shut.accept = false) :=
  ⟨⟨3, onPort 3 { st := 3 }, 0x100401, by decide⟩,
    ⟨3, onPort 3 { st := 3 }, 0, List.replicate 68 0, [], by decide⟩,
    ⟨3, onPort 3 { st := 3 }, by decide⟩,
    ⟨3, onPort 3 { st := 3, cred := Vector.replicate 4 1,
                   txq := (Vector.replicate 4 []).set 1 [{ ftype := 2, pos := 0, payload := [], cmd := none }] }, 1,
      { ftype := 2, pos := 0, payload := [], cmd := none }, [], by decide⟩,
    ⟨3, onPort 3 { st := 3, resync := true }, by decide⟩,
    fun k => ⟨3, onPort 3 { st := 3 }, fourCopies k, BitVec.ofNat 64 (0xC396A5 + k.val * 2 ^ 24), false,
      by match k with
        | 0 | 1 | 2 | 3 | 4 => decide⟩,
    ⟨3, onPort 3 { st := 2 }, by decide⟩, ⟨3, onPort 3 { st := 3, txUnits := 4096 }, by decide⟩,
    ⟨3, 5, 7, { onPort 3 { st := 3 } with link := { (onPort 3 { st := 3 }).link with recentShut := [(5, 7, 6400000)] } },
      by decide⟩,
    ⟨3, 5, 7, onPort 3 { st := 3 }, by decide⟩,
    ⟨3, 5, 7, { onPort 3 { st := 3 } with shut := { accept := false } }, by decide⟩⟩

/-- A TIME frame of sequence number 0 that answers the exchange of port 3 of role `prole`, with t2 = t3 = `v`. -/
def timed (prole : BitVec 2) (v : U64) : State :=
  onPort 3 { st := 3, prole := prole, exch := some { s := 0, t1 := 0, t4 := some 0 },
             inbox := [{ ftype := 1, vl := 0, content := [0] ++ bytesLE v 8 ++ bytesLE v 8 ++ [0] }] }

/-- The TIME frame of port 3 completes an exchange with the offset `theta`. -/
def offsetOf (s : State) (theta : Int) : Prop :=
  ∃ (f : Frame) (seq : Byte) (t1 t2 t3 t4 : U64),
    (s.port 3).inbox.find? (fun f => f.ftype = 1) = some f ∧ s.pwr.st ≠ .sleep ∧
    (s.port 3).exch = some { s := seq, t1 := t1, t4 := some t4 } ∧ seq = lget f.content 0 ∧
    t2 = ofLE 64 ((f.content.drop 1).take 8) ∧ t3 = ofLE 64 ((f.content.drop 9).take 8) ∧
    theta = shrI ((t2 - t1) + (t3 - t4)).toInt 1

theorem wit_LinkTimeAndElection :
    (∃ (p : Fin 4) (s : State), portLive s p = true ∧ ((s.port p).prole = 1 ∨ (s.port p).prole = 3) ∧
      intervalOver s (s.port p).exchAt = true) ∧
    (∃ (p : Fin 4) (s : State), s.pwr.st ≠ .sleep ∧ intervalOver s (s.port p).exchAt = false) ∧
    (∃ s : State, intervalOver s s.link.advAt = true) ∧ (∃ s : State, intervalOver s s.link.advAt = false) ∧
    (∃ (p : Fin 4) (s : State) (f : Frame), (s.port p).inbox.find? (isMgmt 0) = some f ∧
      (fd (lget f.content 5) 0 5 = 0x1F#5 && (s.port p).ndist != 0x1F && s.link.upport.map (fun u => u.toNat) = some p.val) = true) ∧
    (∃ (p : Fin 4) (s : State) (seq : Byte) (t2 : U64), (s.port p).reply = some (seq, t2) ∧ portLive s p = true) ∧
    (∃ (p : Fin 4) (s : State) (f : Frame), (s.port p).inbox.find? (isMgmt 0) = some f ∧ candidate s.link.eRole = true) ∧
    (∃ s : State, candidate s.link.eRole = true ∧ s.link.master = false ∧ bestKnown s = (s.link.eRole, s.link.eKey) ∧
      equalCandidate s = false ∧ 128000000 ≤ (s.clk.gauge - s.link.changedAt).toNat) ∧
    (∃ (s : State) (t0 : U64), s.link.lostAt = some t0 ∧ s.link.dist = 0x1F ∧ 1280000000 ≤ (s.clk.gauge - t0).toNat) ∧
    (∃ (s : State) (theta : Int), offsetOf s theta ∧ (s.port 3).prole ≠ 1) ∧
    (∃ (s : State) (theta : Int), offsetOf s theta ∧ (s.port 3).prole = 1 ∧ (s.link.stepthr.toNat : Int) < theta.natAbs ∧
      steppable s = true) ∧
    (∃ (s : State) (theta : Int), offsetOf s theta ∧ (s.port 3).prole = 1 ∧
      ¬((s.link.stepthr.toNat : Int) < theta.natAbs ∧ steppable s = true)) :=
  ⟨⟨3, onPort 3 { st := 3, prole := 1 }, by decide⟩, ⟨3, onPort 3 { exchAt := some 0 }, by decide⟩, ⟨live, by decide⟩,
    ⟨{ live with link := { live.link with advAt := some 0 } }, by decide⟩,
    ⟨3, { onPort 3 { st := 3, ndist := 4, inbox := [{ mgmt 0 with content := [0, 0, 0, 0, 0, 0x1F, 0, 0] }] } with
          link := { (onPort 3 { st := 3, ndist := 4, inbox := [{ mgmt 0 with content := [0, 0, 0, 0, 0, 0x1F, 0, 0] }] }).link with
            upport := some 3 } }, { mgmt 0 with content := [0, 0, 0, 0, 0, 0x1F, 0, 0] }, by decide⟩,
    ⟨3, onPort 3 { st := 3, reply := some (7, 9) }, 7, 9, by decide⟩,
    ⟨3, { inboxed (mgmt 0) with link := { (inboxed (mgmt 0)).link with eRole := 2 } }, mgmt 0, by decide⟩,
    ⟨{ live with link := { live.link with eRole := 2 }, clk := { gauge := 128000000 } }, by decide⟩,
    ⟨{ live with link := { live.link with lostAt := some 0 }, clk := { gauge := 1280000000 } }, 0, by decide⟩,
    ⟨timed 3 5, 5, ⟨_, 0, 0, 5, 5, 0, rfl, by decide⟩, by decide⟩,
    ⟨timed 1 65537, 65537, ⟨_, 0, 0, 65537, 65537, 0, rfl, by decide⟩, by decide⟩,
    ⟨timed 1 (-5), -5, ⟨_, 0, 0, -5, -5, 0, rfl, by decide⟩, by decide⟩⟩

/-- A REROUTE of range 4 to 6, upward. -/
def rerouted (e : Vector RouteExc 8) : State :=
  { inboxed { mgmt 3 with content := [4, 0, 6, 0, 1, 0, 0] } with
    link := { (inboxed { mgmt 3 with content := [4, 0, 6, 0, 1, 0, 0] }).link with exc := e } }

theorem wit_LinkTreeFrames :
    (∀ k : Fin 8, ∃ (p : Fin 4) (s : State) (f : Frame), (s.port p).inbox.find? (isMgmt (BitVec.ofNat 3 k)) = some f) ∧
    (∃ (p : Fin 4) (s : State) (f : Frame), (s.port p).inbox.find? (isMgmt 1) = some f ∧ (s.port p).prole = 2) ∧
    (∃ (p : Fin 4) (s : State) (f : Frame), (s.port p).inbox.find? (isMgmt 2) = some f ∧ (s.port p).prole = 1) ∧
    (∃ (p : Fin 4) (s : State) (f : Frame) (lo hi : BitVec 14) (i : Nat), (s.port p).inbox.find? (isMgmt 3) = some f ∧
      bit (lget f.content 6) 0 = false ∧ lo = fd (ofLE 16 ((f.content.drop 0).take 2)) 0 14 ∧
      hi = fd (ofLE 16 ((f.content.drop 2).take 2)) 0 14 ∧
      s.link.exc.toList.findIdx? (fun e => e.v && e.lo = lo && e.hi = hi) = some i) ∧
    (∃ (p : Fin 4) (s : State) (f : Frame) (lo hi : BitVec 14) (i : Nat), (s.port p).inbox.find? (isMgmt 3) = some f ∧
      bit (lget f.content 6) 0 = false ∧ lo = fd (ofLE 16 ((f.content.drop 0).take 2)) 0 14 ∧
      hi = fd (ofLE 16 ((f.content.drop 2).take 2)) 0 14 ∧
      s.link.exc.toList.findIdx? (fun e => e.v && e.lo = lo && e.hi = hi) = none ∧
      s.link.exc.toList.findIdx? (fun e => !e.v) = some i) ∧
    (∃ (p : Fin 4) (s : State) (f : Frame) (lo hi : BitVec 14), (s.port p).inbox.find? (isMgmt 3) = some f ∧
      bit (lget f.content 6) 0 = false ∧ lo = fd (ofLE 16 ((f.content.drop 0).take 2)) 0 14 ∧
      hi = fd (ofLE 16 ((f.content.drop 2).take 2)) 0 14 ∧
      s.link.exc.toList.findIdx? (fun e => e.v && e.lo = lo && e.hi = hi) = none ∧
      s.link.exc.toList.findIdx? (fun e => !e.v) = none) ∧
    (∃ (p : Fin 4) (s : State) (f : Frame), (s.port p).inbox.find? (isMgmt 4) = some f ∧ s.link.valid = true ∧
      f.dst = s.link.node ∧ bit s.pwr.wakeen 1 = true ∧ (s.pwr.st = .sleep ∨ s.pwr.st = .doze)) ∧
    (∃ (p : Fin 4) (s : State) (f : Frame), (s.port p).inbox.find? (isMgmt 4) = some f ∧ s.pwr.st = .sleep ∧
      s.link.valid = true ∧ f.dst ≠ s.link.node) :=
  ⟨fun k => ⟨3, inboxed (mgmt (BitVec.ofNat 3 k)), mgmt (BitVec.ofNat 3 k), by
      match k with
      | 0 | 1 | 2 | 3 | 4 | 5 | 6 | 7 => decide⟩,
    ⟨3, onPort 3 { st := 3, prole := 2, inbox := [mgmt 1] }, mgmt 1, by decide⟩,
    ⟨3, onPort 3 { st := 3, prole := 1, inbox := [mgmt 2] }, mgmt 2, by decide⟩,
    ⟨3, rerouted ((Vector.replicate 8 {}).set 7 { lo := 4, hi := 6, v := true }), _, 4, 6, 7, rfl, by decide⟩,
    ⟨3, rerouted (Vector.replicate 8 {}), _, 4, 6, 0, rfl, by decide⟩,
    ⟨3, rerouted (Vector.replicate 8 { v := true }), _, 4, 6, rfl, by decide⟩,
    ⟨3, { inboxed (mgmt 4) with
          link := { (inboxed (mgmt 4)).link with valid := true }, pwr := { live.pwr with wakeen := 2, st := .doze } }, mgmt 4,
      by decide⟩,
    ⟨3, { inboxed (mgmt 4) with
          link := { (inboxed (mgmt 4)).link with valid := true, node := 9 }, pwr := { live.pwr with st := .sleep } }, mgmt 4,
      by decide⟩⟩

theorem ok_live : live.ok := by unfold State.ok Stores.ok; decide

def cmdIn : Frame := { ftype := 3, vl := 2, content := List.replicate 64 0 }
def dataIn (t : BitVec 3) : Frame := { ftype := t, vl := 2, content := [1, 2, 3] }
def ringOn (en : Bool) (node : BitVec 14) (f : Frame) : State :=
  { inboxed f with link := { (inboxed f).link with nrxEn := en, node := node } }

theorem wit_LinkRing :
    (∃ (p : Fin 4) (s : State) (f : Frame), (s.port p).inbox.find? (fun f => f.ftype = 3) = some f ∧ f.content.length ≠ 64) ∧
    (∃ (p : Fin 4) (s : State) (f : Frame), (s.port p).inbox.find? (fun f => f.ftype = 3) = some f ∧
      f.content.length = 64 ∧ linkMayRun s = false) ∧
    (∃ (p : Fin 4) (s : State) (f : Frame), (s.port p).inbox.find? (fun f => f.ftype = 3) = some f ∧
      f.content.length = 64 ∧ linkMayRun s = true) ∧
    (∃ (p : Fin 4) (s : State) (f : Frame), coreOff s = false ∧
      (s.port p).inbox.find? (fun f => f.ftype = 5 || f.ftype = 4 || f.ftype = 7) = some f ∧ f.ftype = 7 ∧ s.link.node ≠ 0) ∧
    (∃ (p : Fin 4) (s : State) (f : Frame), coreOff s = false ∧
      (s.port p).inbox.find? (fun f => f.ftype = 5 || f.ftype = 4 || f.ftype = 7) = some f ∧ f.ftype ≠ 7 ∧
      s.link.nrxEn = false) ∧
    (∃ (p : Fin 4) (s : State) (f : Frame) (next a : Nat) (l : List Byte), coreOff s = false ∧
      (s.port p).inbox.find? (fun f => f.ftype = 5 || f.ftype = 4 || f.ftype = 7) = some f ∧
      next = (s.link.nrxTail.toNat + 1) % nrxSlots s ∧ a = s.link.nrxBase.toNat * 16 + 1280 * s.link.nrxTail.toNat ∧
      l = frameHeader f ++ bytesLE f.came 6 ++ [byte0 f.ftype f.vl.toNat 0, 0] ++ f.content ∧
      f.ftype = 7 ∧ s.link.node = 0 ∧ s.link.nrxEn = true ∧ next ≠ s.link.nrxHead.toNat ∧
      a + (l ++ List.replicate ((16 - l.length % 16) % 16) 0).length ≤ 2 ^ 20) ∧
    (∃ (a : Nat) (l : List Byte) (s : State), s.ok ∧ 0 < l.length ∧ inExcTable s a 16 = true) ∧
    (∃ (a : Nat) (l : List Byte) (s : State), s.ok ∧ 0 < l.length ∧ inExcTable s a 16 = false) ∧
    (∃ s : State, coreOff s = false ∧ memFree s = false) ∧
    (∃ (w : Who) (s : State), MayWrite w 0x23050 s) ∧
    (∃ (p : Fin 4) (j : Fin 8) (s : State) (f : Frame), coreOff s = false ∧ s.ok ∧ memFree s = true ∧
      (s.port p).inbox.find? (fun f => f.ftype = 2) = some f ∧ (vget s.link.sub j {}).en = true ∧
      (vget s.link.sub j {}).chan = fd (ofLE 16 (f.content.take 2)) 0 12 ∧
      ((vget s.link.sub j {}).any = true ∨ (vget s.link.sub j {}).src = f.src) ∧ (vget s.link.sub j {}).sig = true ∧
      inExcTable s ((vget s.link.sub j {}).row.toNat * 16) 16 = false ∧
      ∀ i, i < 8 → i ≠ j.val → (vget s.link.sub i {}).row ≠ (vget s.link.sub j {}).row) :=
  ⟨⟨3, inboxed (dataIn 3), dataIn 3, by decide⟩,
    ⟨3, { inboxed cmdIn with hg := {} }, cmdIn, by decide⟩, ⟨3, inboxed cmdIn, cmdIn, by decide⟩,
    ⟨3, ringOn true 9 (dataIn 7), dataIn 7, by decide⟩, ⟨3, ringOn false 9 (dataIn 5), dataIn 5, by decide⟩,
    ⟨3, ringOn true 0 (dataIn 7), dataIn 7, 1, 0, _, by decide, by decide, by decide, by decide, rfl, by decide⟩,
    ⟨0, [1], live, ok_live, by decide⟩, ⟨0xFFFF0, [1], live, ok_live, by decide⟩,
    ⟨{ live with mem := { accAt := 100001 } }, by decide⟩, ⟨.host, live, by decide⟩,
    ⟨3, 7, { inboxed { ftype := 2, vl := 1, content := List.replicate 11 0 } with
      link := { (inboxed { ftype := 2, vl := 1, content := List.replicate 11 0 }).link with
        sub := (Vector.replicate 8 {}).set 7 { en := true, any := true, sig := true, row := 0xFFFF } } }, _,
      by decide, by unfold State.ok Stores.ok; decide, by decide, rfl, by decide⟩⟩

/-! ## Register access, rings, commands -/

set_option maxRecDepth 4000

/-- `live` with the APB store window on space `sp`. -/
def windowed (sp : BitVec 2) : State := { live with mem := { winApb := { space := sp } } }

theorem windowed_ok (sp : BitVec 2) : (windowed sp).ok := ok_live

theorem wit_RegisterAndWindowWrites :
    (∃ (off : BitVec 20) (s : State), coreOff s = false ∧ off.toNat < 0x40000 ∧ assigned (off.toNat / 4 * 4) = true) ∧
    (∃ (off : BitVec 20) (s : State), coreOff s = false ∧ off.toNat < 0x40000 ∧ hostRefused (off.toNat / 4 * 4) = true) ∧
    (∃ (off : BitVec 20) (s : State), coreOff s = false ∧ off.toNat < 0x40000 ∧ assigned (off.toNat / 4 * 4) = false ∧
      hostRefused (off.toNat / 4 * 4) = false) ∧
    (∃ (w : Who) (off : BitVec 20) (s : State), MayWrite w off.toNat s ∧ off.toNat < 0x40000 ∧ off.toNat / 4 * 4 = 0xC ∧
      hwFresh s 0xC = 0) ∧
    (∃ (w : Who) (off : BitVec 20) (strb : BitVec 4) (s : State) (k : Nat), MayWrite w off.toNat s ∧ s.ok ∧
      0x40000 ≤ off.toNat ∧ off.toNat < 0x80000 ∧ k = off.toNat / 4 * 4 - 0x40000 ∧
      (winSize (winOf s (agentOf s w)).space ≤ k ∨ strb = 0)) ∧
    (∀ sp : Fin 3, ∃ (w : Who) (off : BitVec 20) (strb : BitVec 4) (s : State) (k : Nat), MayWrite w off.toNat s ∧ s.ok ∧
      0x40000 ≤ off.toNat ∧ off.toNat < 0x80000 ∧ k = off.toNat / 4 * 4 - 0x40000 ∧ k < winSize (winOf s (agentOf s w)).space ∧
      strb ≠ 0 ∧ (winOf s (agentOf s w)).space = BitVec.ofNat 2 sp ∧ 8192 ≤ k / 4 ∧ marked (k / 4) s.mem.badMicro = false ∧
      k / 4 % 8 ≠ 7 ∧ (∀ q ∈ strobedBytes 0 strb, inExcTable s (k + q.1) 1 = false) ∧ partBad s k 4 = false) ∧
    (∃ (c : Instr) (off : Nat) (s : State), regWritten c = some (.debugger, off) ∧ porLow s = false ∧
      writeRefused s .debugger off = true ∧ s.dbg.access = none) ∧
    (∃ (c : Instr) (n : Fin 16) (off : Nat) (s : State), regWritten c = some (.thread n, off) ∧ porLow s = false ∧
      writeRefused s (.thread n) off = true ∧ coreOff s = false ∧ (s.thr n).run = .ready ∧ (s.thr n).escal = none) ∧
    (∃ (c : Instr) (n : Fin 16) (off : Nat) (s : State), regWritten c = some (.thread n, off) ∧ porLow s = false ∧
      writeRefused s (.thread n) off = true ∧ (s.thr n).run ≠ .ready) :=
  ⟨⟨0xC, live, by decide⟩, ⟨0x22000, live, by decide⟩, ⟨0x3FFFC, live, by decide⟩, ⟨.host, 0xC, live, by decide⟩,
    ⟨.host, 0x7FFFC, 0, live, _, by decide, ok_live, by decide, by decide, rfl, by decide⟩,
    fun sp => ⟨.host, 0x48000, 1, windowed (BitVec.ofNat 2 sp), _, ⟨rfl, rfl⟩, windowed_ok _, by decide, by decide, rfl, by
      match sp with
      | 0 | 1 | 2 => decide⟩,
    ⟨.flush .debugger 95, _, live, rfl, by decide⟩,
    ⟨.swev (.thread 4) 500, 4, _, live.modThr 4 ({ · with run := .ready }), rfl, by decide⟩,
    ⟨.swev (.thread 4) 500, 4, _, live, rfl, by decide⟩⟩

/-- A group master: GIDX 0, with window APER, and the members of `present` behind port 3. -/
def groupOf (aper : BitVec 4) (present : BitVec 8) (q : LinkPort) (fwd : List Forwarded) : State :=
  { onPort 3 { q with st := 3, nearact := true, ngidx := some 5, prole := 2, rlo := 9, rhi := 9 } with
    link := { (onPort 3 { q with st := 3, nearact := true, ngidx := some 5, prole := 2, rlo := 9, rhi := 9 }).link with
      grpen := true, valid := true, aper := BitVec.setWidth _ aper, present := BitVec.setWidth _ present, fwd := fwd } }

def forwarded (a : Agent) (wr : Option U32) : Forwarded :=
  { agent := a, member := 5, addr := 0xFFFFC, wr := wr, strb := 0xF, inspect := false, msgid := 0 }

theorem wit_GroupAccesses :
    (∃ (off : BitVec 20) (s : State), coreOff s = false ∧ 0x80000 ≤ off.toNat ∧ routeOff s off.toNat = .nowhere) ∧
    (∃ (off : BitVec 20) (s : State) (a : Nat), coreOff s = false ∧ 0x80000 ≤ off.toNat ∧ routeOff s off.toNat = .own a ∧
      claimTurn s none a = true) ∧
    (∃ (off : BitVec 20) (s : State) (a : Nat), coreOff s = false ∧ 0x80000 ≤ off.toNat ∧ routeOff s off.toNat = .own a ∧
      claimTurn s none a = false) ∧
    (∃ (off : BitVec 20) (s : State) (m a : Nat), coreOff s = false ∧ 0x80000 ≤ off.toNat ∧ routeOff s off.toNat = .member m a ∧
      memberPresent s m = false) ∧
    (∃ (off : BitVec 20) (s : State) (m a : Nat), coreOff s = false ∧ 0x80000 ≤ off.toNat ∧ routeOff s off.toNat = .member m a ∧
      memberPresent s m = true ∧ (s.link.fwd.filter (fun f => sameRequester f.agent .host)).length < 4) ∧
    (∃ (p : Fin 4) (s : State), (s.port p).inbox.find? (isMgmt 5) = none ∧ (s.port p).inbox.find? (isMgmt 6) = none) ∧
    (∃ (p q : Fin 4) (s x : State) (f : Frame), (s.port p).inbox.find? (isMgmt 5) = some f ∧
      natLE (f.content.take 4) % 0x100000 = 0 ∧ bit (lget f.content 4) 0 = false ∧
      x = (memberAccess 0 none (fd (lget f.content 4) 4 4) (bit (lget f.content 4) 1)
        (s.modPort p (fun q => { q with inbox := (s.port p).inbox.erase f }))).2 ∧
      x.link.valid = true ∧ f.src ≠ x.link.node ∧ routeOf x f.src = some q.val) ∧
    (∃ (p : Fin 4) (s : State) (f : Frame), (s.port p).inbox.find? (isMgmt 6) = some f ∧
      s.link.fwd.find? (fun (r : Forwarded) => r.msgid = f.msgid) = none) ∧
    (∃ (p : Fin 4) (s : State) (f : Frame) (r : Forwarded), (s.port p).inbox.find? (isMgmt 6) = some f ∧
      s.link.fwd.find? (fun (r : Forwarded) => r.msgid = f.msgid) = some r ∧ r.agent = .host) ∧
    (∃ (p : Fin 4) (s : State) (f : Frame) (r : Forwarded) (n : BitVec 4) (po : Posted),
      (s.port p).inbox.find? (isMgmt 6) = some f ∧
      s.link.fwd.find? (fun (r : Forwarded) => r.msgid = f.msgid) = some r ∧ r.agent = .mach n ∧ r.wr.isSome = true ∧
      bit (lget f.content 0) 0 = false ∧ answeredStore s n.toNat r.member.toNat r.addr.toNat = some po) :=
  ⟨⟨0xFFFFC, live, by decide⟩, ⟨0xFFFFC, groupOf 0 0 {} [], 0x7FFFC, by decide⟩,
    ⟨0x83004, { groupOf 0 0 {} [] with tur := { tgt := (Vector.replicate 8 {}).set 0 { claimAt := 100001, claimRank := 5 } } }, 0x3004,
      by decide⟩,
    ⟨0xFFFFC, groupOf 11 0 {} [], 5, 0xFFFFC, by decide⟩, ⟨0xFFFFC, groupOf 11 0x20 {} [], 5, 0xFFFFC, by decide⟩,
    ⟨3, live, by decide⟩,
    ⟨3, 3, groupOf 0 0 { inbox := [{ mgmt 5 with src := 9 }] } [], _, { mgmt 5 with src := 9 }, by decide, by decide, by decide,
      rfl, by decide⟩,
    ⟨3, inboxed (mgmt 6), mgmt 6, by decide⟩,
    ⟨3, groupOf 0 0 { inbox := [mgmt 6] } [forwarded .host none], mgmt 6, forwarded .host none, by decide⟩,
    ⟨3, (groupOf 0 0 { inbox := [mgmt 6] } [forwarded (.mach 4) (some 7)]).modThr 4
        ({ · with stores := [{ pc := 0, addr := 0x10000000 }] }), mgmt 6, forwarded (.mach 4) (some 7), 4, _, by decide, by decide,
      rfl, by decide, by decide, rfl⟩⟩

/-- A 64-byte entry: opcode and parameter words (R549). -/
def entryOf (op : Nat) (p : List U32) : BitVec 512 :=
  BitVec.ofNat 512 (op + natLE (p.flatMap (fun w => bytesLE w 4)) * 2 ^ 64)

def cmdOf (op : Nat) (p : List U32) : CmdSlot := { entry := entryOf op p, sqhead := 0, seq := 0, stage := .fetched }

/-- `s` with a command read from ring 0. -/
def holding (c : CmdSlot) (s : State) : State :=
  { s with hg := { s.hg with slot := (Vector.replicate 4 none).set 0 (some c) } }

theorem begins_of {op : Nat} {k : Slot} {c : CmdSlot} {s : State}
    (h : slotAt s k = some c ∧ inRun s = true ∧ serving s = true ∧ (cmdOp c.entry).toNat = op ∧ c.stage = .fetched ∧
      fenceFree s c = true ∧ goesOn c = false ∧ resourceBusy s c = false) : Begins op k c s :=
  ⟨h.1, h.2.1, h.2.2.1, h.2.2.2.1, h.2.2.2.2.1, h.2.2.2.2.2.1, h.2.2.2.2.2.2.1, h.2.2.2.2.2.2.2⟩

/-- The rings run, and ring 3 holds an entry. -/
def ringed : State :=
  { live with hg := { live.hg with
      cq := { en := true, k := 4 }
      sq := (Vector.replicate 4 {}).set 3 { en := true, k := 4, tail := 1 } } }

/-- The states in which each clause about a ring applies. -/
theorem wit_RingsAndCompletions :
    (∃ (r : Nat) (s : State), selectedRing s = some r ∧ inRun s = true ∧ (r = 0 ∨ linkPending s = false) ∧ r < 4 ∧
      coreOff s = false) ∧
    (∃ s : State, selectedRing s = none ∧ coreOff s = false) ∧
    (∃ (k : Slot) (c : CmdSlot) (s : State), slotAt s k = some c ∧ c.stage = .done 0 0 0 ∧ inRun s = true ∧
      serving s = true ∧ cmdQuiet c.entry = true) ∧
    (∃ (c : CmdSlot) (s : State), slotAt s (.sq 0) = some c ∧ c.stage = .done 2 8 0 ∧ inRun s = true ∧
      serving s = true ∧ s.hg.cq.en = true) ∧
    (∃ (c : CmdSlot) (s : State), slotAt s (.sq 0) = some c ∧ c.stage = .done 2 8 0 ∧ inRun s = true ∧
      serving s = true ∧ s.hg.cq.en = false) ∧
    (∃ (k : Slot) (c : CmdSlot) (s : State), Begins 1 k c s ∧ firstBad c.entry [] [] = none) ∧
    (∃ (k : Slot) (c : CmdSlot) (s : State), Begins 1 k c s ∧ firstBad c.entry [] [] = some 60) ∧
    (∃ (k : Slot) (c : CmdSlot) (s : State), Begins 2 k c s ∧
      firstBad c.entry [0xFF] [decide (5 < (cmdP c.entry 0).toNat)] = none ∧ cmdP c.entry 0 = 4) ∧
    (∃ (k : Slot) (c : CmdSlot) (s : State), Begins 2 k c s ∧
      firstBad c.entry [0xFF] [decide (5 < (cmdP c.entry 0).toNat)] = some 8) ∧
    (∃ (w : Who) (r : Fin 4) (v : U32) (s : State), MayWrite w (0x2100 + 4 * r.val) s ∧ (s.sqr r).en = true ∧
      (fd v 0 14 : BitVec 14).toNat < ringSize (s.sqr r)) ∧
    (∃ (w : Who) (r : Fin 4) (s : State), MayWrite w (0x2100 + 4 * r.val) s ∧ (s.sqr r).en = false) ∧
    (∃ (w : Who) (r : Fin 4) (v : U32) (s : State), MayWrite w (0x2100 + 4 * r.val) s ∧ (s.sqr r).en = true ∧
      ringSize (s.sqr r) ≤ (fd v 0 14 : BitVec 14).toNat) ∧
    (∃ (w : Who) (s : State) (j : Nat), MayWrite w 0x2004 s ∧ (j < 4 ∨ j = 5) ∧ (getRing s j).en = true) ∧
    (∃ (w : Who) (s : State) (j : Nat), MayWrite w 0x2004 s ∧ (j < 4 ∨ j = 5) ∧ (getRing s j).en = false ∧
      (getRing s j).base.toNat % (if j < 4 then 64 else 16) = 0 ∧ 4 ≤ (getRing s j).k.toNat ∧
      (getRing s j).k.toNat ≤ (if j < 4 then 12 else 14)) ∧
    (∃ (w : Who) (s : State) (j : Nat), MayWrite w 0x2004 s ∧ (j < 4 ∨ j = 5) ∧ (getRing s j).en = false ∧ (getRing s j).k.toNat < 4) ∧
    (∃ (w : Who) (s : State), MayWrite w 0x2004 s ∧ s.hg.shen = false ∧ fd s.hg.shad 0 5 = (0 : BitVec 5)) ∧
    (∃ (w : Who) (s : State), MayWrite w 0x2004 s ∧ s.hg.shen = false ∧ fd s.hg.shad 0 5 ≠ (0 : BitVec 5)) ∧
    (∃ s : State, coreOff s = false ∧ s.hg.shen = true ∧ s.hg.shadDirty = true ∧ s.hg.evOwed = 0) ∧
    (∃ (w : Who) (eq : Bool) (s : State), MayWrite w (if eq then 0x20EC else 0x20CC) s) ∧
    (∃ (w : Who) (v x : U32) (s : State), MayWrite w 0x2000 s ∧ x = v &&& ~~~(hwFresh s 0x2000) ∧ x ≠ v) ∧
    (∃ s : State, coreOff s = false ∧ s.hg.evOwed ≠ 0) :=
  ⟨⟨3, ringed, by decide⟩, ⟨live, by decide⟩,
    ⟨.sq 0, { cmdOf 0x401 [] with stage := .done 0 0 0 }, holding { cmdOf 0x401 [] with stage := .done 0 0 0 } live, by decide⟩,
    ⟨{ cmdOf 1 [] with stage := .done 2 8 0 }, holding { cmdOf 1 [] with stage := .done 2 8 0 } ringed, by decide⟩,
    ⟨{ cmdOf 1 [] with stage := .done 2 8 0 }, holding { cmdOf 1 [] with stage := .done 2 8 0 } live, by decide⟩,
    ⟨.sq 0, cmdOf 1 [], holding (cmdOf 1 []) live, begins_of (by decide), by decide⟩,
    ⟨.sq 0, cmdOf 1 [0,0,0,0,0,0,0,0,0,0,0,0,0,1], holding (cmdOf 1 [0,0,0,0,0,0,0,0,0,0,0,0,0,1]) live, begins_of (by decide), by decide⟩,
    ⟨.sq 0, cmdOf 2 [4], holding (cmdOf 2 [4]) live, begins_of (by decide), by decide⟩,
    ⟨.sq 0, cmdOf 2 [6], holding (cmdOf 2 [6]) live, begins_of (by decide), by decide⟩,
    ⟨.host, 3, 15, ringed, by decide⟩, ⟨.host, 2, ringed, by decide⟩, ⟨.host, 3, 16, ringed, by decide⟩,
    ⟨.host, ringed, 3, by decide⟩,
    ⟨.host, { live with hg := { live.hg with eq := { k := 14, base := 16 } } }, 5, by decide⟩,
    ⟨.host, { live with hg := { live.hg with eq := { k := 3, base := 16 } } }, 5, by decide⟩, ⟨.host, live, by decide⟩,
    ⟨.host, { live with hg := { live.hg with shad := 16 } }, by decide⟩,
    ⟨{ live with hg := { live.hg with shen := true, shadDirty := true } }, by decide⟩,
    ⟨.host, true, live, by decide⟩,
    ⟨.host, 0xFFFFFFFF, _, hwSet 0x2000 3 live, by decide, rfl, by decide⟩,
    ⟨{ live with hg := { live.hg with evOwed := 1 } }, by decide⟩⟩

/-- Thread 14 may be stopped, thread 13 is parked. -/
def stoppable : State := (live.modThr 14 ({ · with run := .ready })).modThr 13 ({ · with run := .parked (.until 200000) })

def startWords (p4 p5 : U32) : List U32 := [4, 0x2000, 0, 0, p4, p5]

theorem wit_ThreadCommands :
    (∃ (k : Slot) (c : CmdSlot) (s : State), Begins 0x20 k c s ∧ firstBad c.entry (wordsAfter [] 6) (startFaults (startParams c.entry)) = some 60) ∧
    (∃ (k : Slot) (c : CmdSlot) (s : State), Begins 0x20 k c s ∧
      firstBad c.entry (wordsAfter [] 6) (startFaults (startParams c.entry)) = some 28) ∧
    (∃ (k : Slot) (c : CmdSlot) (s : State), Begins 0x20 k c s ∧
      firstBad c.entry (wordsAfter [] 6) (startFaults (startParams c.entry)) = none ∧ (s.thr (startThreadNo (startParams c.entry))).run ≠ .stopped) ∧
    (∃ (k : Slot) (c : CmdSlot) (s : State), Begins 0x20 k c s ∧
      firstBad c.entry (wordsAfter [] 6) (startFaults (startParams c.entry)) = none ∧ (s.thr (startThreadNo (startParams c.entry))).run = .stopped ∧
      (s.thr (startThreadNo (startParams c.entry))).depth = 0) ∧
    (∃ (k : Slot) (c : CmdSlot) (s : State), Begins 0x21 k c s ∧ firstBad c.entry [0x7FFF] [] = some 8) ∧
    (∃ (k : Slot) (c : CmdSlot) (s : State), Begins 0x21 k c s ∧ firstBad c.entry [0x7FFF] [] = none ∧
      ∀ n, n < 15 → bit (cmdP c.entry 0) n = true → (s.thr n).run = .stopped ∨ (s.thr n).run = .dry ∨ MayStop s n) ∧
    (∃ (k : Slot) (c : CmdSlot) (s : State) (n : Nat) (p : Park), Begins 0x21 k c s ∧ firstBad c.entry [0x7FFF] [] = none ∧
      n < 15 ∧ bit (cmdP c.entry 0) n = true ∧ (s.thr n).run = .parked p) ∧
    (∃ (k : Slot) (c : CmdSlot) (s : State), Begins 0x22 k c s ∧ firstBad c.entry [0x7FFF] [] = some 8) ∧
    (∃ (k : Slot) (c : CmdSlot) (s : State), Begins 0x22 k c s ∧ firstBad c.entry [0x7FFF] [] = none) :=
  ⟨⟨.sq 0, cmdOf 0x20 (startWords 16 32 ++ [0, 0, 0, 0, 0, 0, 0, 1]), holding (cmdOf 0x20 (startWords 16 32 ++ [0, 0, 0, 0, 0, 0, 0, 1])) live,
      begins_of (by decide), by decide⟩,
    ⟨.sq 0, cmdOf 0x20 (startWords 16 16), holding (cmdOf 0x20 (startWords 16 16)) live, begins_of (by decide), by decide⟩,
    ⟨.sq 0, cmdOf 0x20 (startWords 16 32), holding (cmdOf 0x20 (startWords 16 32)) (live.modThr 4 ({ · with run := .ready })),
      begins_of (by decide), by decide⟩,
    ⟨.sq 0, cmdOf 0x20 (startWords 16 32), holding (cmdOf 0x20 (startWords 16 32)) live, begins_of (by decide), by decide⟩,
    ⟨.sq 0, cmdOf 0x21 [0x8000], holding (cmdOf 0x21 [0x8000]) live, begins_of (by decide), by decide⟩,
    ⟨.sq 0, cmdOf 0x21 [0x4001], holding (cmdOf 0x21 [0x4001]) stoppable, begins_of (by decide), by decide,
      by unfold MayStop
         intro n h hb
         by_cases h14 : n = 14
         · subst h14; exact .inr (.inr ⟨.inl (by decide), by decide⟩)
         · by_cases h0 : n = 0
           · subst h0; exact .inl (by decide)
           · have hf : ∀ m : Fin 15, m.val ≠ 14 → m.val ≠ 0 → bit (cmdP (cmdOf 0x21 [0x4001]).entry 0) m.val = false := by decide
             exact absurd hb (by rw [hf ⟨n, h⟩ h14 h0]; decide)⟩,
    ⟨.sq 0, cmdOf 0x21 [0x2000], holding (cmdOf 0x21 [0x2000]) stoppable, 13, .until 200000, begins_of (by decide), by decide⟩,
    ⟨.sq 0, cmdOf 0x22 [0x8000], holding (cmdOf 0x22 [0x8000]) live, begins_of (by decide), by decide⟩,
    ⟨.sq 0, cmdOf 0x22 [0x7FFF], holding (cmdOf 0x22 [0x7FFF]) live, begins_of (by decide), by decide⟩⟩

/-- An image of one section: its first 8 bytes lie past it. -/
def noImage : List Byte := List.replicate 8 0

/-- An image of one data section of 16 bytes for 0x40. -/
def anImage : List Byte :=
  [0x31, 0x4D, 0x47, 0x42, 1, 0, 1, 0, 96, 0, 0, 0] ++ List.replicate 52 0 ++
    [5, 0, 0, 0, 80, 0, 0, 0, 0x40, 0, 0, 0, 16, 0, 0, 0] ++ List.replicate 16 7

set_option maxRecDepth 50000 in
theorem wit_ImageCommands_loads :
    ∃ (k : Slot) (b l : List Byte) (c : CmdSlot) (s : State), Begins 0x10 k c s ∧ l = padTo (cmdP c.entry 2).toNat b ∧
      firstBad c.entry [all32, 0xFFFF, all32, all32, 3] [badAddr c.entry 0] = none ∧ lawStopped s = true ∧
      bit (cmdP c.entry 4) 0 = false ∧ imageFault l (cmdP c.entry 2).toNat (cmdP c.entry 3) s.seq.verLib = none ∧
      (crc32c l = cmdP c.entry 3 ∧ crc32c (padTo (cmdP c.entry 2).toNat []) ≠ cmdP c.entry 3) :=
  ⟨.sq 0, anImage, _, cmdOf 0x10 [0, 0, 96, crc32c anImage, 0], holding (cmdOf 0x10 [0, 0, 96, crc32c anImage, 0]) live,
    begins_of (by decide), rfl, by decide, by decide, by decide, by decide, by decide⟩

/-- A patch of level 1 with one word. -/
def aPatch (hw : Byte) : List Byte := [1, hw, 0, 0, 5, 0, 0, 0]

theorem wit_ImageCommands :
    (∃ (k : Slot) (c : CmdSlot) (s : State), Begins 0x10 k c s ∧
      firstBad c.entry [all32, 0xFFFF, all32, all32, 3] [badAddr c.entry 0] = some 8) ∧
    (∃ (k : Slot) (c : CmdSlot) (s : State), Begins 0x10 k c s ∧
      firstBad c.entry [all32, 0xFFFF, all32, all32, 3] [badAddr c.entry 0] = none ∧ lawStopped s = false) ∧
    (∃ (k : Slot) (c : CmdSlot) (s : State), Begins 0x10 k c s ∧
      firstBad c.entry [all32, 0xFFFF, all32, all32, 3] [badAddr c.entry 0] = none ∧ lawStopped s = true ∧
      bit (cmdP c.entry 4) 0 = true ∧ s.nvm.opt.actv = true ∧ s.nvm.opt.active = bit (cmdP c.entry 4) 1) ∧
    (∃ (k : Slot) (b : List Byte) (c : CmdSlot) (s : State) (l : List Byte), Begins 0x10 k c s ∧
      firstBad c.entry [all32, 0xFFFF, all32, all32, 3] [badAddr c.entry 0] = none ∧ lawStopped s = true ∧
      bit (cmdP c.entry 4) 0 = false ∧ l = padTo (cmdP c.entry 2).toNat b ∧
      imageFault l (cmdP c.entry 2).toNat (cmdP c.entry 3) s.seq.verLib = some (5, 0)) ∧
    (∃ (k : Slot) (c : CmdSlot) (s : State), Begins 0x11 k c s ∧ firstBad c.entry [1] [] = none ∧ s.hg.staged = false) ∧
    (∃ (k : Slot) (c : CmdSlot) (s : State) (p : StartParams), Begins 0x11 k c s ∧ firstBad c.entry [1] [] = none ∧
      s.hg.staged = true ∧ bit (cmdP c.entry 0) 0 = false ∧ s.hg.autostart = [p] ∧ startRefused s p = false ∧ startAllowed p = true) ∧
    (∃ (k : Slot) (c : CmdSlot) (s : State), Begins 0x12 k c s ∧
      firstBad c.entry [all32, 0xFFFF, all32, all32] [badAddr c.entry 0, false, (cmdP c.entry 2).toNat % 4 != 0 ||
        decide ((cmdP c.entry 2).toNat < 8) || decide (2052 < (cmdP c.entry 2).toNat)] = some 16) ∧
    (∃ (k : Slot) (b l : List Byte) (c : CmdSlot) (s : State), Begins 0x12 k c s ∧ l = padTo (cmdP c.entry 2).toNat b ∧
      firstBad c.entry [all32, 0xFFFF, all32, all32] [badAddr c.entry 0, false, (cmdP c.entry 2).toNat % 4 != 0 ||
        decide ((cmdP c.entry 2).toNat < 8) || decide (2052 < (cmdP c.entry 2).toNat)] = none ∧ crc32c l ≠ cmdP c.entry 3) ∧
    (∃ (k : Slot) (b l : List Byte) (c : CmdSlot) (s : State), Begins 0x12 k c s ∧ l = padTo (cmdP c.entry 2).toNat b ∧
      firstBad c.entry [all32, 0xFFFF, all32, all32] [badAddr c.entry 0, false, (cmdP c.entry 2).toNat % 4 != 0 ||
        decide ((cmdP c.entry 2).toNat < 8) || decide (2052 < (cmdP c.entry 2).toNat)] = none ∧ crc32c l = cmdP c.entry 3 ∧
      lget l 1 ≠ s.seq.verHw) ∧
    (∃ (k : Slot) (b l : List Byte) (c : CmdSlot) (s : State), Begins 0x12 k c s ∧ l = padTo (cmdP c.entry 2).toNat b ∧
      firstBad c.entry [all32, 0xFFFF, all32, all32] [badAddr c.entry 0, false, (cmdP c.entry 2).toNat % 4 != 0 ||
        decide ((cmdP c.entry 2).toNat < 8) || decide (2052 < (cmdP c.entry 2).toNat)] = none ∧ crc32c l = cmdP c.entry 3 ∧
      lget l 1 = s.seq.verHw ∧ s.seq.verPatch < lget l 0 ∧ Memory.wf 0 s.mem.micro = true) :=
  ⟨⟨.sq 0, cmdOf 0x10 [8], holding (cmdOf 0x10 [8]) live, begins_of (by decide), by decide⟩,
    ⟨.sq 0, cmdOf 0x10 [0], holding (cmdOf 0x10 [0]) stoppable, begins_of (by decide), by decide⟩,
    ⟨.sq 0, cmdOf 0x10 [0, 0, 0, 0, 3],
      holding (cmdOf 0x10 [0, 0, 0, 0, 3]) { live with nvm := { live.nvm with opt := { live.nvm.opt with actv := true, active := true } } },
      begins_of (by decide), by decide⟩,
    ⟨.sq 0, noImage, cmdOf 0x10 [0, 0, 8, 0, 0], holding (cmdOf 0x10 [0, 0, 8, 0, 0]) live, _, begins_of (by decide), by decide,
      by decide, by decide, rfl, by decide⟩,
    ⟨.sq 0, cmdOf 0x11 [0], holding (cmdOf 0x11 [0]) live, begins_of (by decide), by decide⟩,
    ⟨.sq 0, cmdOf 0x11 [0], holding (cmdOf 0x11 [0]) { live with hg := { live.hg with
        staged := true, autostart := [startParams (entryOf 0 (startWords 16 32))] } }, startParams (entryOf 0 (startWords 16 32)),
      begins_of (by decide), by decide⟩,
    ⟨.sq 0, cmdOf 0x12 [0, 0, 4], holding (cmdOf 0x12 [0, 0, 4]) live, begins_of (by decide), by decide⟩,
    ⟨.sq 0, aPatch 0, _, cmdOf 0x12 [0, 0, 8], holding (cmdOf 0x12 [0, 0, 8]) live, begins_of (by decide), rfl, by decide, by decide⟩,
    ⟨.sq 0, aPatch 0xFF, _, cmdOf 0x12 [0, 0, 8, crc32c (aPatch 0xFF)], holding (cmdOf 0x12 [0, 0, 8, crc32c (aPatch 0xFF)]) live,
      begins_of (by decide), rfl, by decide, by decide, by decide⟩,
    ⟨.sq 0, aPatch live.seq.verHw, _, cmdOf 0x12 [0, 0, 8, crc32c (aPatch live.seq.verHw)],
      holding (cmdOf 0x12 [0, 0, 8, crc32c (aPatch live.seq.verHw)]) live, begins_of (by decide), rfl, by decide, by decide, by decide⟩⟩

/-! ## Commands of control, link, ledger, NVM -/

/-- Flume 3 as R188 lets it arm. -/
def armable (tref : BitVec 56) : Flume := { mode := 1, pb := { rdy := true }, peri := 0x400, wopen := 0, wclose := 0, tref := tref }

/-- A masked word of `SETPOINT`, `ARM` and the like, as its statement has it. -/
def setpointBad (e : BitVec 512) : Option Nat :=
  firstBad e (wordsAfter [all32, 0xF1F] (fd (cmdP e 1) 0 4 : BitVec 4).toNat) [(cmdP e 0).toNat % 4 != 0 ||
    decide (0x100000 < (cmdP e 0).toNat + 4 * (fd (cmdP e 1) 0 4 : BitVec 4).toNat),
    (fd (cmdP e 1) 0 4 : BitVec 4).toNat = 0 || decide (12 < (fd (cmdP e 1) 0 4 : BitVec 4).toNat)]

def coefBad (e : BitVec 512) : Option Nat :=
  firstBad e (wordsAfter [0x1FFF] (coefCount e)) [coefCount e = 0 || decide (8 < coefCount e)]

theorem wit_ControlCommands_coef :
    (∃ (k : Slot) (c : CmdSlot) (s : State) (n : Nat), Begins 0x30 k c s ∧ n = (fd (cmdP c.entry 0) 0 5 : BitVec 5).toNat ∧
      boundaryDue (withBoundary n s) n = false ∧ ((withBoundary n s).flume n).pbAt ≠ (withBoundary n s).clk.fc + 1 ∧ coefBad c.entry = some 8) ∧
    (∃ (k : Slot) (c : CmdSlot) (s : State) (n : Nat), Begins 0x30 k c s ∧ n = (fd (cmdP c.entry 0) 0 5 : BitVec 5).toNat ∧
      boundaryDue (withBoundary n s) n = false ∧ ((withBoundary n s).flume n).pbAt ≠ (withBoundary n s).clk.fc + 1 ∧ coefBad c.entry = none ∧
      8 < (fd (cmdP c.entry 0) 5 3 : BitVec 3).toNat + coefCount c.entry) ∧
    (∃ (k : Slot) (c : CmdSlot) (s : State) (n : Nat), Begins 0x30 k c s ∧ n = (fd (cmdP c.entry 0) 0 5 : BitVec 5).toNat ∧
      boundaryDue (withBoundary n s) n = false ∧ ((withBoundary n s).flume n).pbAt ≠ (withBoundary n s).clk.fc + 1 ∧ coefBad c.entry = none ∧ ((withBoundary n s).flume n).pb.rdy = true) ∧
    (∃ (k : Slot) (c : CmdSlot) (s : State) (n : Nat), Begins 0x30 k c s ∧ n = (fd (cmdP c.entry 0) 0 5 : BitVec 5).toNat ∧
      boundaryDue (withBoundary n s) n = false ∧ ((withBoundary n s).flume n).pbAt ≠ (withBoundary n s).clk.fc + 1 ∧ coefBad c.entry = none ∧
      (fd (cmdP c.entry 0) 5 3 : BitVec 3).toNat + coefCount c.entry ≤ 8 ∧ ((withBoundary n s).flume n).pb.rdy = false) :=
  ⟨⟨.sq 0, cmdOf 0x30 [0x91F], holding (cmdOf 0x30 [0x91F]) live, _, begins_of (by decide), rfl, by decide, by decide⟩,
    ⟨.sq 0, cmdOf 0x30 [0x2FF], holding (cmdOf 0x30 [0x2FF]) live, _, begins_of (by decide), rfl, by decide, by decide⟩,
    ⟨.sq 0, cmdOf 0x30 [0x1FF], holding (cmdOf 0x30 [0x1FF]) (onFl 31 { pb := { rdy := true } }), _, begins_of (by decide), rfl, by decide,
      by decide⟩,
    ⟨.sq 0, cmdOf 0x30 [0x1FF], holding (cmdOf 0x30 [0x1FF]) live, _, begins_of (by decide), rfl, by decide, by decide⟩⟩

theorem wit_ControlCommands_setpoint :
    (∃ (k : Slot) (c : CmdSlot) (s : State), Begins 0x31 k c s ∧ setpointBad c.entry = some 8) ∧
    (∃ (k : Slot) (c : CmdSlot) (s : State), Begins 0x31 k c s ∧ setpointBad c.entry = none ∧
      inExcTable s (cmdP c.entry 0).toNat (setpointBytes c.entry).length = true) ∧
    (∃ (k : Slot) (c : CmdSlot) (s : State) (r : Nat), Begins 0x31 k c s ∧ setpointBad c.entry = none ∧
      inExcTable s (cmdP c.entry 0).toNat (setpointBytes c.entry).length = false ∧
      (granules (cmdP c.entry 0).toNat (setpointBytes c.entry).length).find? (fun r => marked r s.mem.badRow &&
        !(decide ((cmdP c.entry 0).toNat ≤ 16 * r) &&
          decide (16 * r + 16 ≤ (cmdP c.entry 0).toNat + (setpointBytes c.entry).length))) = some r) ∧
    (∃ (k : Slot) (c : CmdSlot) (s : State), Begins 0x31 k c s ∧ setpointBad c.entry = none ∧
      inExcTable s (cmdP c.entry 0).toNat (setpointBytes c.entry).length = false ∧
      partBad s (cmdP c.entry 0).toNat (setpointBytes c.entry).length = false ∧ bit (cmdP c.entry 1) 4 = true ∧
      s.seq.scondAt ≠ s.clk.fc + 1) ∧
    (∃ (k : Slot) (c : CmdSlot) (s : State), Begins 0x31 k c s ∧ setpointBad c.entry = none ∧
      inExcTable s (cmdP c.entry 0).toNat (setpointBytes c.entry).length = false ∧
      partBad s (cmdP c.entry 0).toNat (setpointBytes c.entry).length = false ∧ bit (cmdP c.entry 1) 4 = false) :=
  ⟨⟨.sq 0, cmdOf 0x31 [2, 1, 9], holding (cmdOf 0x31 [2, 1, 9]) live, begins_of (by decide), by decide⟩,
    ⟨.sq 0, cmdOf 0x31 [0, 1, 9], holding (cmdOf 0x31 [0, 1, 9]) live, begins_of (by decide), by decide⟩,
    ⟨.sq 0, cmdOf 0x31 [0xFFFFC, 1, 9], holding (cmdOf 0x31 [0xFFFFC, 1, 9]) { live with mem := { badRow := [0xFFFF] } }, 0xFFFF,
      begins_of (by decide), by decide⟩,
    ⟨.sq 0, cmdOf 0x31 [0xFFFFC, 0xF11, 9], holding (cmdOf 0x31 [0xFFFFC, 0xF11, 9]) live, begins_of (by decide), by decide⟩,
    ⟨.sq 0, cmdOf 0x31 [0xFFFFC, 1, 9], holding (cmdOf 0x31 [0xFFFFC, 1, 9]) live, begins_of (by decide), by decide⟩⟩

/-- A shut from SHUTREQ (`req`) or from the watchdog. -/
def shutBy (req : Bool) (rel : Option Nat) : State := { live with shut := { active := true, req := req, wdog := !req, releaseAt := rel } }

theorem wit_ControlCommands_arm :
    (∃ (k : Slot) (c : CmdSlot) (s : State), Begins 0x40 k c s ∧ firstBad c.entry [all32, all32, 0xFF, all32] [] = some 16) ∧
    (∃ (k : Slot) (c : CmdSlot) (s : State), Begins 0x40 k c s ∧ firstBad c.entry [all32, all32, 0xFF, all32] [] = none ∧
      s.shut.active = true) ∧
    (∃ (k : Slot) (c : CmdSlot) (s : State) (v : U40), Begins 0x40 k c s ∧
      firstBad c.entry [all32, all32, 0xFF, all32] [] = none ∧ s.shut.active = false ∧ flumesOf (cmdP c.entry 0) = [3, 31] ∧
      v = (fd (cmdP c.entry 2) 0 8 ++ cmdP c.entry 1) + BitVec.ofInt 40 (0 * (cmdP c.entry 3).toInt) ∧
      (!(s.flume 3).arm && canArm s { s.flume 3 with tref := v ++ fd (s.flume 3).tref 0 16 }) = true ∧ (s.flume 31).arm = true) ∧
    (∃ (k : Slot) (c : CmdSlot) (s : State), Begins 0x41 k c s ∧ firstBad c.entry [all32, 1] [] = some 12) ∧
    (∃ (k : Slot) (c : CmdSlot) (s : State) (n : Nat), Begins 0x41 k c s ∧ firstBad c.entry [all32, 1] [] = none ∧ n < 32 ∧
      bit (cmdP c.entry 0) n = true ∧ bit (cmdP c.entry 1) 0 = true ∧ (s.flume n).out.toNat < 96) ∧
    (∃ (k : Slot) (c : CmdSlot) (s : State), Begins 0x42 k c s ∧ firstBad c.entry [] [] = none ∧ s.shut.active = false) ∧
    (∃ (k : Slot) (c : CmdSlot) (s : State), Begins 0x42 k c s ∧ firstBad c.entry [] [] = none ∧ s.shut.active = true ∧
      levelSources { s with gate := vmap s.gate (fun _ g => if g.en && g.rar then { g with restart := true } else g) } = 0) ∧
    (∃ (k : Slot) (c : CmdSlot) (s : State), Begins 0x42 k c s ∧ firstBad c.entry [] [] = none ∧ s.shut.active = true ∧
      levelSources { s with gate := vmap s.gate (fun _ g => if g.en && g.rar then { g with restart := true } else g) } ≠ 0 ∧
      s.shut.releaseAt = none) ∧
    (∃ (k : Slot) (c : CmdSlot) (s : State) (a : U64), slotAt s k = some c ∧ inRun s = true ∧ serving s = true ∧
      (cmdOp c.entry).toNat = 0x42 ∧ c.stage = .running a ∧ s.shut.active = true ∧ s.shut.releaseAt.isSome = true) :=
  ⟨⟨.sq 0, cmdOf 0x40 [0, 0, 0x100], holding (cmdOf 0x40 [0, 0, 0x100]) live, begins_of (by decide), by decide⟩,
    ⟨.sq 0, cmdOf 0x40 [0], holding (cmdOf 0x40 [0]) (shutBy true none), begins_of (by decide), by decide⟩,
    ⟨.sq 0, cmdOf 0x40 [0x80000008, 6500000, 0, 64], holding (cmdOf 0x40 [0x80000008, 6500000, 0, 64])
        ((onFl 3 (armable 0)).modFl 31 ({ · with arm := true })), _, begins_of (by decide), by decide, by decide, by decide, rfl, by decide⟩,
    ⟨.sq 0, cmdOf 0x41 [1, 2], holding (cmdOf 0x41 [1, 2]) live, begins_of (by decide), by decide⟩,
    ⟨.sq 0, cmdOf 0x41 [0x80000000, 1], holding (cmdOf 0x41 [0x80000000, 1]) (onFl 31 { arm := true, out := 95 }), 31,
      begins_of (by decide), by decide⟩,
    ⟨.sq 0, cmdOf 0x42 [], holding (cmdOf 0x42 []) live, begins_of (by decide), by decide⟩,
    ⟨.sq 0, cmdOf 0x42 [], holding (cmdOf 0x42 []) (shutBy false none), begins_of (by decide), by decide⟩,
    ⟨.sq 0, cmdOf 0x42 [], holding (cmdOf 0x42 []) (shutBy true none), begins_of (by decide), by decide⟩,
    ⟨.sq 0, { cmdOf 0x42 [] with stage := .running 0 },
      holding { cmdOf 0x42 [] with stage := .running 0 } (shutBy false (some 100001)), 0, by decide⟩⟩

def onLink (f : Link → Link) : State := { live with link := f live.link }
def onNvm (f : Nvm → Nvm) : State := { live with nvm := f live.nvm }

theorem wit_LinkCommands :
    (∃ (k : Slot) (c : CmdSlot) (s : State), Begins 0x50 k c s ∧ firstBad c.entry [1] [] = some 8) ∧
    (∃ (k : Slot) (c : CmdSlot) (s : State), Begins 0x50 k c s ∧ firstBad c.entry [1] [] = none ∧ s.link.master = false) ∧
    (∃ (k : Slot) (c : CmdSlot) (s : State), Begins 0x50 k c s ∧ firstBad c.entry [1] [] = none ∧ s.link.master = true ∧
      bit (cmdP c.entry 0) 0 = false) ∧
    (∃ (k : Slot) (c : CmdSlot) (s : State), Begins 0x50 k c s ∧ firstBad c.entry [1] [] = none ∧ s.link.master = true ∧
      bit (cmdP c.entry 0) 0 = true ∧ subtree s = none) ∧
    (∃ (k : Slot) (c : CmdSlot) (s : State) (n h w : Nat), Begins 0x50 k c s ∧ firstBad c.entry [1] [] = none ∧
      s.link.master = true ∧ bit (cmdP c.entry 0) 0 = true ∧ subtree s = some (n, h, w)) ∧
    (∃ (k : Slot) (c : CmdSlot) (s : State), Begins 0x51 k c s ∧ firstBad c.entry [0x103] [] = some 8) ∧
    (∃ (k : Slot) (c : CmdSlot) (s : State), Begins 0x51 k c s ∧ firstBad c.entry [0x103] [] = none ∧
      bit (cmdP c.entry 0) 8 = true ∧ s.nvm.opt.rolelock = true) ∧
    (∃ (k : Slot) (c : CmdSlot) (s : State), Begins 0x51 k c s ∧ firstBad c.entry [0x103] [] = none ∧
      bit (cmdP c.entry 0) 8 = false) ∧
    (∃ (k : Slot) (c : CmdSlot) (s : State), Begins 0x51 k c s ∧ firstBad c.entry [0x103] [] = none ∧
      bit (cmdP c.entry 0) 8 = true ∧ s.nvm.opt.rolelock = false ∧ s.nvm.run.isSome = true) :=
  ⟨⟨.sq 0, cmdOf 0x50 [2], holding (cmdOf 0x50 [2]) live, begins_of (by decide), by decide⟩,
    ⟨.sq 0, cmdOf 0x50 [0], holding (cmdOf 0x50 [0]) live, begins_of (by decide), by decide⟩,
    ⟨.sq 0, cmdOf 0x50 [0], holding (cmdOf 0x50 [0]) (onLink ({ · with master := true })), begins_of (by decide), by decide⟩,
    ⟨.sq 0, cmdOf 0x50 [1], holding (cmdOf 0x50 [1])
        { onPort 3 { prole := 2 } with link := { (onPort 3 { prole := 2 }).link with master := true } },
      begins_of (by decide), by decide⟩,
    ⟨.sq 0, cmdOf 0x50 [1], holding (cmdOf 0x50 [1]) (onLink ({ · with master := true })), 1, 0, _, begins_of (by decide),
      by decide, by decide, by decide, rfl⟩,
    ⟨.sq 0, cmdOf 0x51 [4], holding (cmdOf 0x51 [4]) live, begins_of (by decide), by decide⟩,
    ⟨.sq 0, cmdOf 0x51 [0x102], holding (cmdOf 0x51 [0x102]) (onNvm fun n => { n with opt := { n.opt with rolelock := true } }),
      begins_of (by decide), by decide⟩,
    ⟨.sq 0, cmdOf 0x51 [3], holding (cmdOf 0x51 [3]) live, begins_of (by decide), by decide⟩,
    ⟨.sq 0, cmdOf 0x51 [0x102], holding (cmdOf 0x51 [0x102]) (onNvm ({ · with run := some { pulses := 0, since := 0, susp := false } })),
      begins_of (by decide), by decide⟩⟩

def sendBad (e : BitVec 512) : Option Nat :=
  firstBad e [0x373FFF, all32, 0xFFFF, all32] [(fd (cmdP e 0) 16 3 != (3 : BitVec 3) && fd (cmdP e 0) 16 3 != (5 : BitVec 3)) ||
    fd (cmdP e 0) 20 2 = (0 : BitVec 2), badAddr e 1, false, (cmdP e 3).toNat = 0 || decide (1248 < (cmdP e 3).toNat)]

/-- Node `n`, with a tree below port 3 that holds node 9. -/
def noded (n : BitVec 14) : State :=
  { onPort 3 { st := 3, prole := 2, rlo := 9, rhi := 9 } with
    link := { (onPort 3 { st := 3, prole := 2, rlo := 9, rhi := 9 }).link with valid := true, node := n } }

theorem wit_LinkSend :
    (∃ (k : Slot) (c : CmdSlot) (s : State), Begins 0x52 k c s ∧ sendBad c.entry = some 20) ∧
    (∃ (k : Slot) (c : CmdSlot) (s : State), Begins 0x52 k c s ∧ sendBad c.entry = none ∧ s.link.valid = false) ∧
    (∃ (k : Slot) (c : CmdSlot) (s : State), Begins 0x52 k c s ∧ sendBad c.entry = none ∧ fd (cmdP c.entry 0) 0 14 ≠ s.link.node ∧
      routeOf s (fd (cmdP c.entry 0) 0 14) = none) ∧
    (∃ (k : Slot) (c : CmdSlot) (s : State), Begins 0x52 k c s ∧ sendBad c.entry = none ∧ s.link.valid = true ∧
      fd (cmdP c.entry 0) 0 14 = s.link.node) ∧
    (∃ (k : Slot) (c : CmdSlot) (s : State), Begins 0x52 k c s ∧ sendBad c.entry = none ∧ s.link.valid = true ∧
      fd (cmdP c.entry 0) 0 14 ≠ s.link.node ∧ routeOf s (fd (cmdP c.entry 0) 0 14) = some 3) :=
  ⟨⟨.sq 0, cmdOf 0x52 [0x130009], holding (cmdOf 0x52 [0x130009]) live, begins_of (by decide), by decide⟩,
    ⟨.sq 0, cmdOf 0x52 [0x130009, 0, 0, 1248], holding (cmdOf 0x52 [0x130009, 0, 0, 1248]) live, begins_of (by decide), by decide⟩,
    ⟨.sq 0, cmdOf 0x52 [0x130008, 0, 0, 1], holding (cmdOf 0x52 [0x130008, 0, 0, 1]) (noded 0), begins_of (by decide), by decide⟩,
    ⟨.sq 0, cmdOf 0x52 [0x130009, 0, 0, 1], holding (cmdOf 0x52 [0x130009, 0, 0, 1]) (noded 9), begins_of (by decide), by decide⟩,
    ⟨.sq 0, cmdOf 0x52 [0x130009, 0, 0, 1], holding (cmdOf 0x52 [0x130009, 0, 0, 1]) (noded 0), begins_of (by decide), by decide⟩⟩

/-- A loaded ledger with record 1 in that state for identifier 7. -/
def ledgered (pos : Byte) : State :=
  { live with lg := { live.lg with loaded := true }, mem := { ledger := [(2304, 7), (2324, pos)] } }

theorem wit_LedgerCommands :
    (∃ (k : Slot) (c : CmdSlot) (s : State), Begins 0x60 k c s ∧ firstBad c.entry [0x3F, all32, 0xFFFF] [false, badAddr c.entry 1] = some 12) ∧
    (∃ (k : Slot) (c : CmdSlot) (s : State), Begins 0x60 k c s ∧ firstBad c.entry [0x3F, all32, 0xFFFF] [false, badAddr c.entry 1] = none) ∧
    (∃ (k : Slot) (c : CmdSlot) (s : State), Begins 0x61 k c s ∧ firstBad c.entry [0x10F, all32, all32] [] = some 8) ∧
    (∃ (k : Slot) (c : CmdSlot) (s : State), Begins 0x61 k c s ∧ firstBad c.entry [0x10F, all32, all32] [] = none ∧ s.lg.loaded = false) ∧
    (∃ (k : Slot) (c : CmdSlot) (s x : State) (n : Nat) (id : U64), Begins 0x61 k c s ∧ n = (fd (cmdP c.entry 0) 0 4 : BitVec 4).toNat ∧
      id = (cmdP c.entry 2 ++ cmdP c.entry 1 : BitVec 64) ∧ x = processTemp n s ∧ firstBad c.entry [0x10F, all32, all32] [] = none ∧
      s.lg.loaded = true ∧ (x.lgch n).bound = true ∧ recId x (x.lgch n).record.toNat = id ∧ bit (cmdP c.entry 0) 8 = false) ∧
    (∃ (k : Slot) (c : CmdSlot) (s x : State) (n : Nat) (id : U64), Begins 0x61 k c s ∧ n = (fd (cmdP c.entry 0) 0 4 : BitVec 4).toNat ∧
      id = (cmdP c.entry 2 ++ cmdP c.entry 1 : BitVec 64) ∧ x = processTemp n s ∧ firstBad c.entry [0x10F, all32, all32] [] = none ∧
      s.lg.loaded = true ∧ (x.lgch n).bound = false ∧ id = 0) ∧
    (∃ (k : Slot) (c : CmdSlot) (s x : State) (n : Nat) (id : U64), Begins 0x61 k c s ∧ n = (fd (cmdP c.entry 0) 0 4 : BitVec 4).toNat ∧
      id = (cmdP c.entry 2 ++ cmdP c.entry 1 : BitVec 64) ∧ x = processTemp n s ∧ firstBad c.entry [0x10F, all32, all32] [] = none ∧
      s.lg.loaded = true ∧ (x.lgch n).bound = false ∧ id ≠ 0 ∧ records.any (fun r => recState x r = 1 && recId x r = id) = true) ∧
    (∃ (k : Slot) (c : CmdSlot) (s x : State) (n r : Nat) (id : U64), Begins 0x61 k c s ∧ n = (fd (cmdP c.entry 0) 0 4 : BitVec 4).toNat ∧
      id = (cmdP c.entry 2 ++ cmdP c.entry 1 : BitVec 64) ∧ x = processTemp n s ∧ firstBad c.entry [0x10F, all32, all32] [] = none ∧
      s.lg.loaded = true ∧ (x.lgch n).bound = false ∧ id ≠ 0 ∧ records.any (fun r => recState x r = 1 && recId x r = id) = false ∧
      bit (cmdP c.entry 0) 8 = false ∧ records.filter (fun r => recState x r = 2 && recId x r = id) = [r] ∧
      bit (recFlags x r) 4 = (x.lgch n).mode) ∧
    (∃ (k : Slot) (c : CmdSlot) (s x : State) (n r : Nat) (id : U64), Begins 0x61 k c s ∧ n = (fd (cmdP c.entry 0) 0 4 : BitVec 4).toNat ∧
      id = (cmdP c.entry 2 ++ cmdP c.entry 1 : BitVec 64) ∧ x = processTemp n s ∧ firstBad c.entry [0x10F, all32, all32] [] = none ∧
      s.lg.loaded = true ∧ (x.lgch n).bound = false ∧ id ≠ 0 ∧ records.any (fun r => recState x r = 1 && recId x r = id) = false ∧
      bit (cmdP c.entry 0) 8 = false ∧ records.filter (fun r => recState x r = 2 && recId x r = id) = [] ∧
      newSlot x = some (r, false)) :=
  ⟨⟨.sq 0, cmdOf 0x60 [63, 8], holding (cmdOf 0x60 [63, 8]) live, begins_of (by decide), by decide⟩,
    ⟨.sq 0, cmdOf 0x60 [63, 16], holding (cmdOf 0x60 [63, 16]) live, begins_of (by decide), by decide⟩,
    ⟨.sq 0, cmdOf 0x61 [0x10], holding (cmdOf 0x61 [0x10]) live, begins_of (by decide), by decide⟩,
    ⟨.sq 0, cmdOf 0x61 [0xF], holding (cmdOf 0x61 [0xF]) live, begins_of (by decide), by decide⟩,
    ⟨.sq 0, cmdOf 0x61 [0xF, 7], holding (cmdOf 0x61 [0xF, 7]) ((ledgered 0x1F).modLg 15 ({ · with bound := true, record := 1 })), _, _, _,
      begins_of (by decide), rfl, rfl, rfl, by decide, by decide, by decide, by decide, by decide⟩,
    ⟨.sq 0, cmdOf 0x61 [0xF, 0], holding (cmdOf 0x61 [0xF, 0]) (ledgered 0), _, _, _,
      begins_of (by decide), rfl, rfl, rfl, by decide, by decide, by decide, by decide⟩,
    ⟨.sq 0, cmdOf 0x61 [0xF, 7], holding (cmdOf 0x61 [0xF, 7]) (ledgered 0x1F), _, _, _,
      begins_of (by decide), rfl, rfl, rfl, by decide, by decide, by decide, by decide, by decide⟩,
    ⟨.sq 0, cmdOf 0x61 [0xF, 7], holding (cmdOf 0x61 [0xF, 7]) (ledgered 0x2F), _, _, 1, _,
      begins_of (by decide), rfl, rfl, rfl, by decide, by decide, by decide, by decide, by decide, by decide, by decide, by decide⟩,
    ⟨.sq 0, cmdOf 0x61 [0xF, 8], holding (cmdOf 0x61 [0xF, 8]) (ledgered 0x2F), _, _, 0, _,
      begins_of (by decide), rfl, rfl, rfl, by decide, by decide, by decide, by decide, by decide, by decide, by decide, by decide⟩⟩

/-- A ledger whose records are all parked (2) or all bound (1), each with the identifier 0. -/
def full (pos : Byte) : State :=
  { live with lg := { live.lg with loaded := true }, mem := { ledger := (List.range 64).map (fun r => (2304 * r + 20, pos)) } }

theorem wit_LedgerBind_slots :
    (∃ (k : Slot) (c : CmdSlot) (s x : State) (r : Nat) (id : U64), Begins 0x61 k c s ∧
      id = (cmdP c.entry 2 ++ cmdP c.entry 1 : BitVec 64) ∧ x = processTemp 15 s ∧ (fd (cmdP c.entry 0) 0 4 : BitVec 4).toNat = 15 ∧
      firstBad c.entry [0x10F, all32, all32] [] = none ∧ s.lg.loaded = true ∧ (x.lgch 15).bound = false ∧ id ≠ 0 ∧
      records.any (fun r => recState x r = 1 && recId x r = id) = false ∧ bit (cmdP c.entry 0) 8 = false ∧
      records.filter (fun r => recState x r = 2 && recId x r = id) = [r] ∧ bit (recFlags x r) 4 ≠ (x.lgch 15).mode) ∧
    (∀ p : Bool, ∃ (k : Slot) (c : CmdSlot) (s x : State) (id : U64), Begins 0x61 k c s ∧
      id = (cmdP c.entry 2 ++ cmdP c.entry 1 : BitVec 64) ∧ x = processTemp 15 s ∧ (fd (cmdP c.entry 0) 0 4 : BitVec 4).toNat = 15 ∧
      firstBad c.entry [0x10F, all32, all32] [] = none ∧ s.lg.loaded = true ∧ (x.lgch 15).bound = false ∧ id ≠ 0 ∧
      records.any (fun r => recState x r = 1 && recId x r = id) = false ∧ bit (cmdP c.entry 0) 8 = false ∧
      records.filter (fun r => recState x r = 2 && recId x r = id) = [] ∧
      newSlot x = (if p then some (0, true) else none)) :=
  ⟨⟨.sq 0, cmdOf 0x61 [0xF, 7], holding (cmdOf 0x61 [0xF, 7]) ((ledgered 0x2F).modLg 15 ({ · with mode := true })), _, 1, _,
      begins_of (by decide), rfl, rfl, by decide, by decide, by decide, by decide, by decide, by decide, by decide, by decide, by decide⟩,
    fun p => by
      match p with
      | true => exact ⟨.sq 0, cmdOf 0x61 [0xF, 7], holding (cmdOf 0x61 [0xF, 7]) (full 0x2F), _, _, begins_of (by decide), rfl, rfl,
          by decide, by decide, by decide, by decide, by decide, by decide +kernel, by decide, by decide +kernel, by decide +kernel⟩
      | false => exact ⟨.sq 0, cmdOf 0x61 [0xF, 7], holding (cmdOf 0x61 [0xF, 7]) (full 0x1F), _, _, begins_of (by decide), rfl, rfl,
          by decide, by decide, by decide, by decide, by decide, by decide +kernel, by decide, by decide +kernel, by decide +kernel⟩⟩

def eraseBad (e : BitVec 512) : Option Nat :=
  firstBad e [all32, all32] [fd (cmdP e 0) 0 14 != (0 : BitVec 14), (cmdP e 1).toNat = 0 || decide (2048 < (cmdP e 1).toNat)]

def pulsing (susp : Bool) : NvmRun := { pulses := 0, since := 0, susp := susp }

/-- A part with valid option copies that counts as provisioned: no sector is protected. -/
def freeNvm (f : Nvm → Nvm) : State := onNvm fun n => f { n with prov := true }

theorem wit_NvmCommands_erase :
    (∃ (k : Slot) (c : CmdSlot) (s : State), Begins 0x70 k c s ∧ eraseBad c.entry = some 12) ∧
    (∃ (k : Slot) (c : CmdSlot) (s : State), Begins 0x70 k c s ∧ eraseBad c.entry = none ∧
      sectorsOf s.nvm.opt < (cmdP c.entry 0).toNat / 16384 + (cmdP c.entry 1).toNat) ∧
    (∃ (k : Slot) (c : CmdSlot) (s : State), Begins 0x70 k c s ∧ eraseBad c.entry = none ∧
      (cmdP c.entry 0).toNat / 16384 + (cmdP c.entry 1).toNat ≤ sectorsOf s.nvm.opt ∧
      protectedRange s ((cmdP c.entry 0).toNat / 16384) (cmdP c.entry 1).toNat = true) ∧
    (∃ (k : Slot) (c : CmdSlot) (s : State), Begins 0x70 k c s ∧ eraseBad c.entry = none ∧
      (cmdP c.entry 0).toNat / 16384 + (cmdP c.entry 1).toNat ≤ sectorsOf s.nvm.opt ∧
      protectedRange s ((cmdP c.entry 0).toNat / 16384) (cmdP c.entry 1).toNat = false ∧ s.nvm.run.isSome = true) ∧
    (∃ (k : Slot) (c : CmdSlot) (s : State), Begins 0x70 k c s ∧ eraseBad c.entry = none ∧
      (cmdP c.entry 0).toNat / 16384 + (cmdP c.entry 1).toNat ≤ sectorsOf s.nvm.opt ∧
      protectedRange s ((cmdP c.entry 0).toNat / 16384) (cmdP c.entry 1).toNat = false ∧ s.nvm.run = none ∧ s.nvm.jobs = [] ∧
      roRetired s.nvm.opt ((cmdP c.entry 0).toNat / 16384) = false) ∧
    (∃ (k : Slot) (c : CmdSlot) (s : State), Begins 0x70 k c s ∧ eraseBad c.entry = none ∧
      (cmdP c.entry 0).toNat / 16384 + (cmdP c.entry 1).toNat ≤ sectorsOf s.nvm.opt ∧
      protectedRange s ((cmdP c.entry 0).toNat / 16384) (cmdP c.entry 1).toNat = false ∧ s.nvm.run = none ∧ s.nvm.jobs = [] ∧
      roRetired s.nvm.opt ((cmdP c.entry 0).toNat / 16384) = true ∧ slotOfSeq s c.seq = some c) :=
  ⟨⟨.sq 0, cmdOf 0x70 [0x4000, 0], holding (cmdOf 0x70 [0x4000, 0]) live, begins_of (by decide), by decide⟩,
    ⟨.sq 0, cmdOf 0x70 [0x1FFC000, 2], holding (cmdOf 0x70 [0x1FFC000, 2]) live, begins_of (by decide), by decide⟩,
    ⟨.sq 0, cmdOf 0x70 [0x8000, 1], holding (cmdOf 0x70 [0x8000, 1]) live, begins_of (by decide), by decide⟩,
    ⟨.sq 0, cmdOf 0x70 [0x1FFC000, 1], holding (cmdOf 0x70 [0x1FFC000, 1]) (freeNvm ({ · with run := some (pulsing false) })),
      begins_of (by decide), by decide⟩,
    ⟨.sq 0, cmdOf 0x70 [0x1FFC000, 1], holding (cmdOf 0x70 [0x1FFC000, 1]) (freeNvm id), begins_of (by decide), by decide⟩,
    ⟨.sq 0, cmdOf 0x70 [0x1FFC000, 1], holding (cmdOf 0x70 [0x1FFC000, 1])
        (freeNvm fun n => { n with opt := { n.opt with spmap := n.opt.spmap.set 0 0x200007FF } }), begins_of (by decide), by decide⟩⟩

def progBad (e : BitVec 512) : Option Nat := firstBad e [all32, all32, 0xFFFF, all32] (badTransfer e)

def unprotected (c : CmdSlot) (s : State) : Prop :=
  (cmdP c.entry 0).toNat + (cmdP c.entry 3).toNat ≤ nvmBytes s ∧ protectedRange s ((cmdP c.entry 0).toNat / 16384)
    (((cmdP c.entry 0).toNat + (cmdP c.entry 3).toNat + 16383) / 16384 - (cmdP c.entry 0).toNat / 16384) = false

/-- The first unit of the command's range is written, or erased. -/
def unitErased (c : CmdSlot) (s : State) (e : Bool) : Prop :=
  ∃ r x, readUnit (placeOf s.nvm.opt ((cmdP c.entry 0).toNat / 32 / 512)) ((cmdP c.entry 0).toNat / 32 % 512) s = (r, x) ∧ r.erased = e

theorem wit_NvmCommands_program :
    (∃ (k : Slot) (c : CmdSlot) (s : State), Begins 0x71 k c s ∧ progBad c.entry = some 20) ∧
    (∃ (k : Slot) (c : CmdSlot) (s : State), Begins 0x71 k c s ∧ progBad c.entry = none ∧
      nvmBytes s < (cmdP c.entry 0).toNat + (cmdP c.entry 3).toNat) ∧
    (∃ (k : Slot) (c : CmdSlot) (s : State), Begins 0x71 k c s ∧ progBad c.entry = none ∧
      (cmdP c.entry 0).toNat + (cmdP c.entry 3).toNat ≤ nvmBytes s ∧ protectedRange s ((cmdP c.entry 0).toNat / 16384)
        (((cmdP c.entry 0).toNat + (cmdP c.entry 3).toNat + 16383) / 16384 - (cmdP c.entry 0).toNat / 16384) = true) ∧
    (∃ (k : Slot) (c : CmdSlot) (s : State), Begins 0x71 k c s ∧ progBad c.entry = none ∧ unprotected c s ∧ s.nvm.run.isSome = true) ∧
    (∃ (k : Slot) (c : CmdSlot) (s : State), Begins 0x71 k c s ∧ progBad c.entry = none ∧ unprotected c s ∧ s.nvm.run = none ∧
      s.nvm.jobs = [] ∧ roRetired s.nvm.opt ((cmdP c.entry 0).toNat / 32 / 512) = true ∧ slotOfSeq s c.seq = some c) ∧
    (∃ (k : Slot) (c : CmdSlot) (s : State), Begins 0x71 k c s ∧ progBad c.entry = none ∧ unprotected c s ∧ s.nvm.run = none ∧
      s.nvm.jobs = [] ∧ roRetired s.nvm.opt ((cmdP c.entry 0).toNat / 32 / 512) = false ∧ unitErased c s true) ∧
    (∃ (k : Slot) (c : CmdSlot) (s : State), Begins 0x71 k c s ∧ progBad c.entry = none ∧ unprotected c s ∧ s.nvm.run = none ∧
      s.nvm.jobs = [] ∧ roRetired s.nvm.opt ((cmdP c.entry 0).toNat / 32 / 512) = false ∧ unitErased c s false ∧
      slotOfSeq s c.seq = some c) :=
  ⟨⟨.sq 0, cmdOf 0x71 [0, 0, 0, 33], holding (cmdOf 0x71 [0, 0, 0, 33]) live, begins_of (by decide), by decide⟩,
    ⟨.sq 0, cmdOf 0x71 [0x1FFFFE0, 0, 0, 64], holding (cmdOf 0x71 [0x1FFFFE0, 0, 0, 64]) live, begins_of (by decide), by decide⟩,
    ⟨.sq 0, cmdOf 0x71 [0xBFE0, 0, 0, 32], holding (cmdOf 0x71 [0xBFE0, 0, 0, 32]) live, begins_of (by decide), by decide⟩,
    ⟨.sq 0, cmdOf 0x71 [0x1FFFFE0, 0, 0, 32], holding (cmdOf 0x71 [0x1FFFFE0, 0, 0, 32])
        (freeNvm ({ · with run := some (pulsing false) })), begins_of (by decide), by decide, ⟨by decide, by decide⟩, by decide⟩,
    ⟨.sq 0, cmdOf 0x71 [0x1FFFFE0, 0, 0, 32], holding (cmdOf 0x71 [0x1FFFFE0, 0, 0, 32])
        (freeNvm fun n => { n with opt := { n.opt with spmap := n.opt.spmap.set 0 0x200007FF } }), begins_of (by decide), by decide,
      ⟨by decide, by decide⟩, by decide⟩,
    ⟨.sq 0, cmdOf 0x71 [0x1FFFFE0, 0, 0, 32], holding (cmdOf 0x71 [0x1FFFFE0, 0, 0, 32]) (freeNvm id), begins_of (by decide),
      by decide, ⟨by decide, by decide⟩, rfl, rfl, by decide, ⟨_, _, rfl, rfl⟩⟩,
    ⟨.sq 0, cmdOf 0x71 [0x1FFFFE0, 0, 0, 32], holding (cmdOf 0x71 [0x1FFFFE0, 0, 0, 32])
        (freeNvm ({ · with units := [((placeOf {} 2047).key 511, 5)] })), begins_of (by decide),
      by decide, ⟨by decide, by decide⟩, rfl, rfl, by decide, ⟨_, _, rfl, by decide⟩, by decide⟩⟩

/-- A job of one step, under way. -/
def working (susp : Bool) (op : NvmOp) : State :=
  freeNvm ({ · with run := some (pulsing susp), jobs := [{ who := .cmd 0, ops := [op] }] })

theorem wit_NvmCommands_read :
    (∃ (k : Slot) (c : CmdSlot) (s : State), Begins 0x72 k c s ∧ progBad c.entry = some 8) ∧
    (∃ (k : Slot) (c : CmdSlot) (s : State), Begins 0x72 k c s ∧ progBad c.entry = none ∧
      nvmBytes s < (cmdP c.entry 0).toNat + (cmdP c.entry 3).toNat) ∧
    (∃ (k : Slot) (c : CmdSlot) (s : State), Begins 0x72 k c s ∧ progBad c.entry = none ∧
      (cmdP c.entry 0).toNat + (cmdP c.entry 3).toNat ≤ nvmBytes s ∧ rangeBusy s (cmdP c.entry 0).toNat (cmdP c.entry 3).toNat = true) ∧
    (∃ (k : Slot) (c : CmdSlot) (s : State), Begins 0x72 k c s ∧ progBad c.entry = none ∧
      (cmdP c.entry 0).toNat + (cmdP c.entry 3).toNat ≤ nvmBytes s ∧ rangeBusy s (cmdP c.entry 0).toNat (cmdP c.entry 3).toNat = false) ∧
    (∃ (s : State) (r : NvmRun), coreOff s = false ∧ s.nvm.run = some r ∧ r.susp = false ∧ s.nvm.suspReq = true ∧
      s.nvm.minrun.toNat * 2000 ≤ s.clk.fc - r.since) ∧
    (∃ (s : State) (r : NvmRun), coreOff s = false ∧ s.nvm.run = some r ∧ r.susp = true ∧ s.nvm.suspReq = false ∧
      nvmWaiting s (runBank s) = false) ∧
    (∃ (w : Who) (s : State), MayWrite w 0x25004 s) :=
  ⟨⟨.sq 0, cmdOf 0x72 [16, 0, 0, 32], holding (cmdOf 0x72 [16, 0, 0, 32]) live, begins_of (by decide), by decide⟩,
    ⟨.sq 0, cmdOf 0x72 [0x1FFFFE0, 0, 0, 64], holding (cmdOf 0x72 [0x1FFFFE0, 0, 0, 64]) live, begins_of (by decide), by decide⟩,
    ⟨.sq 0, cmdOf 0x72 [0x1FFFFE0, 0, 0, 32], holding (cmdOf 0x72 [0x1FFFFE0, 0, 0, 32]) (working false (.erase none 2047)),
      begins_of (by decide), by decide⟩,
    ⟨.sq 0, cmdOf 0x72 [0x1FFFFE0, 0, 0, 32], holding (cmdOf 0x72 [0x1FFFFE0, 0, 0, 32]) (working true (.erase none 2047)),
      begins_of (by decide), by decide⟩,
    ⟨{ working false (.erase none 2047) with
        nvm := { (working false (.erase none 2047)).nvm with suspReq := true }, clk := { live.clk with fc := 800000 } },
      pulsing false, by decide⟩,
    ⟨working true (.erase none 2047), pulsing true, by decide⟩, ⟨.host, live, by decide⟩⟩

/-- The command 0x70 or 0x71 of ring 0 whose one step is under way with `p` pulses. -/
def lastStep (op : Nat) (x : NvmOp) (p : Nat) : State :=
  holding { cmdOf op [] with stage := .running 0 }
    (freeNvm ({ · with run := some { pulses := p, since := 0, susp := false }, jobs := [{ who := .cmd 0, ops := [x] }] }))

theorem wit_NvmPulses :
    (∃ (s : State) (r : NvmRun) (j : NvmJob) (js : List NvmJob) (sec : Nat) (ops : List NvmOp), coreOff s = false ∧
      s.nvm.run = some r ∧ s.nvm.jobs = j :: js ∧ j.ops = .erase none sec :: ops ∧ r.susp = true) ∧
    (∃ (k : Slot) (c : CmdSlot) (s : State) (r : NvmRun) (j : NvmJob) (sec : Nat), coreOff s = false ∧
      s.nvm.run = some r ∧ s.nvm.jobs = [j] ∧ j.ops = [.erase none sec] ∧ r.susp = false ∧ j.who = .cmd c.seq ∧ j.waits = false ∧
      j.retiring = none ∧ slotOfSeq s c.seq = some c ∧ slotAt s k = some c ∧ (cmdOp c.entry).toNat = 0x70 ∧
      r.pulses + 1 ≤ s.nvm.wearthr.toNat ∧ r.pulses + 1 < s.nvm.opt.nemax.toNat) ∧
    (∃ (k : Slot) (c : CmdSlot) (s : State) (r : NvmRun) (j : NvmJob) (sec : Nat), coreOff s = false ∧
      s.nvm.run = some r ∧ s.nvm.jobs = [j] ∧ j.ops = [.erase none sec] ∧ r.susp = false ∧ j.who = .cmd c.seq ∧ j.waits = false ∧
      j.retiring = none ∧ slotOfSeq s c.seq = some c ∧ slotAt s k = some c ∧ (cmdOp c.entry).toNat = 0x70 ∧
      r.pulses + 1 ≤ s.nvm.wearthr.toNat ∧ s.nvm.opt.nemax.toNat ≤ r.pulses + 1 ∧ s.nvm.prov = true) ∧
    (∃ (k : Slot) (c : CmdSlot) (s : State) (r : NvmRun) (j : NvmJob) (d : BitVec 256) (sec : Nat), coreOff s = false ∧
      s.nvm.run = some r ∧ s.nvm.jobs = [j] ∧ j.ops = [.program none 511 d true false sec] ∧ r.susp = false ∧ j.who = .cmd c.seq ∧
      j.waits = false ∧ j.retiring = none ∧ slotOfSeq s c.seq = some c ∧ slotAt s k = some c ∧ (cmdOp c.entry).toNat = 0x71 ∧
      r.pulses + 1 < s.nvm.opt.npmax.toNat) ∧
    (∃ (k : Slot) (c : CmdSlot) (s : State) (r : NvmRun) (j : NvmJob) (d : BitVec 256) (sec : Nat), coreOff s = false ∧
      s.nvm.run = some r ∧ s.nvm.jobs = [j] ∧ j.ops = [.program none 511 d true false sec] ∧ r.susp = false ∧ j.who = .cmd c.seq ∧
      j.waits = false ∧ j.retiring = none ∧ slotOfSeq s c.seq = some c ∧ slotAt s k = some c ∧ (cmdOp c.entry).toNat = 0x71 ∧
      s.nvm.opt.npmax.toNat ≤ r.pulses + 1 ∧ s.nvm.prov = true) :=
  ⟨⟨working true (.erase none 2047), _, _, _, _, _, by decide, rfl, rfl, rfl, rfl⟩,
    ⟨.sq 0, _, lastStep 0x70 (.erase none 2047) 7, _, _, _, by decide, rfl, rfl, rfl, rfl, rfl, rfl, rfl, rfl, rfl, by decide⟩,
    ⟨.sq 0, _, { lastStep 0x70 (.erase none 2047) 7 with
        nvm := { (lastStep 0x70 (.erase none 2047) 7).nvm with opt := { live.nvm.opt with nemax := 8 } } }, _, _, _,
      by decide, rfl, rfl, rfl, rfl, rfl, rfl, rfl, rfl, rfl, by decide⟩,
    ⟨.sq 0, _, lastStep 0x71 (.program none 511 0 true false 2047) 6, _, _, _, _, by decide, rfl, rfl, rfl, rfl, rfl, rfl, rfl, rfl,
      rfl, by decide⟩,
    ⟨.sq 0, _, lastStep 0x71 (.program none 511 0 true false 2047) 7, _, _, _, _, by decide, rfl, rfl, rfl, rfl, rfl, rfl, rfl, rfl,
      rfl, by decide⟩⟩

/-! ## Power, policy, tests, ledger -/

def onDbg (f : Debug → Debug) : State := { live with dbg := f live.dbg }

/-- A shut block whose outlets all drive with the shut group. -/
def calm : State := { live with shut := { active := true } }

theorem wit_PowerStateAndPolicy :
    (∃ (k : Slot) (c : CmdSlot) (s : State), Begins 0x80 k c s ∧ firstBad c.entry [3, 0x3F] [] = some 12) ∧
    (∀ p : Fin 4, ∃ (k : Slot) (c : CmdSlot) (s : State), Begins 0x80 k c s ∧ firstBad c.entry [3, 0x3F] [] = none ∧
      (fd (cmdP c.entry 0) 0 2 : BitVec 2) = BitVec.ofNat 2 p ∧ sleepRefused s = false) ∧
    (∃ (k : Slot) (c : CmdSlot) (s : State), Begins 0x80 k c s ∧ firstBad c.entry [3, 0x3F] [] = none ∧
      (fd (cmdP c.entry 0) 0 2 : BitVec 2) = 2 ∧ sleepRefused s = true) ∧
    (∃ (k : Slot) (c : CmdSlot) (s : State), Begins 0xA0 k c s ∧ firstBad c.entry [0x103] [] = some 8) ∧
    (∃ (k : Slot) (c : CmdSlot) (s : State), Begins 0xA0 k c s ∧ firstBad c.entry [0x103] [] = none ∧ s.dbg.pollock = true ∧
      s.dbg.polmax < (fd (cmdP c.entry 0) 0 2 : BitVec 2)) ∧
    (∃ (k : Slot) (c : CmdSlot) (s : State), Begins 0xA0 k c s ∧ firstBad c.entry [0x103] [] = none ∧ s.dbg.pollock = true ∧
      ¬ s.dbg.polmax < (fd (cmdP c.entry 0) 0 2 : BitVec 2) ∧ ¬ (fd (cmdP c.entry 0) 0 2 : BitVec 2) < s.dbg.level ∧
      (fd (cmdP c.entry 0) 0 2 : BitVec 2) ≠ s.dbg.polmax) :=
  ⟨⟨.sq 0, cmdOf 0x80 [0, 0x40], holding (cmdOf 0x80 [0, 0x40]) live, begins_of (by decide), by decide⟩,
    fun p => by
      match p with
      | 0 => exact ⟨.sq 0, cmdOf 0x80 [0, 0x3F], holding (cmdOf 0x80 [0, 0x3F]) live, begins_of (by decide), by decide⟩
      | 1 => exact ⟨.sq 0, cmdOf 0x80 [1, 0x3F], holding (cmdOf 0x80 [1, 0x3F]) live, begins_of (by decide), by decide⟩
      | 2 => exact ⟨.sq 0, cmdOf 0x80 [2, 0x3F], holding (cmdOf 0x80 [2, 0x3F]) live, begins_of (by decide), by decide⟩
      | 3 => exact ⟨.sq 0, cmdOf 0x80 [3, 0x3F], holding (cmdOf 0x80 [3, 0x3F]) live, begins_of (by decide), by decide⟩,
    ⟨.sq 0, cmdOf 0x80 [2, 0], holding (cmdOf 0x80 [2, 0]) (onDbg ({ · with nosleep := true })), begins_of (by decide), by decide⟩,
    ⟨.sq 0, cmdOf 0xA0 [4], holding (cmdOf 0xA0 [4]) live, begins_of (by decide), by decide⟩,
    ⟨.sq 0, cmdOf 0xA0 [2], holding (cmdOf 0xA0 [2]) (onDbg ({ · with pollock := true, polmax := 1 })), begins_of (by decide), by decide⟩,
    ⟨.sq 0, cmdOf 0xA0 [1], holding (cmdOf 0xA0 [1]) (onDbg ({ · with pollock := true, polmax := 2 })), begins_of (by decide), by decide⟩⟩

theorem wit_BistComplete :
    (∃ (k : Slot) (c : CmdSlot) (s : State), Begins 0x90 k c s ∧
      firstBad c.entry [3] [decide (fd (cmdP c.entry 0) 0 2 = (0 : BitVec 2))] = some 8) ∧
    (∀ refused : Bool, ∃ (k : Slot) (c : CmdSlot) (s : State), Begins 0x90 k c s ∧
      firstBad c.entry [3] [decide (fd (cmdP c.entry 0) 0 2 = (0 : BitVec 2))] = none ∧ bistRefused s = refused) ∧
    (∃ (v : U32) (s : State), 2 ≤ s.dbg.level.toNat ∧ bit v 2 = true ∧ bistRefused s = true) ∧
    (∃ (v : U32) (s : State), 2 ≤ s.dbg.level.toNat ∧ bit v 2 = true ∧ bistRefused s = false ∧ bistCmd s = none ∧
      fd v 0 2 ≠ (0 : BitVec 2)) ∧
    (∃ s : State, s.bist.phase = .logic ∧ s.bist.wantMem = true) ∧ (∃ s : State, s.bist.phase = .logic ∧ s.bist.wantMem = false) ∧
    (∃ s : State, s.bist.phase = .memory) ∧ (∃ s : State, s.bist.phase = .reset) :=
  ⟨⟨.sq 0, cmdOf 0x90 [0], holding (cmdOf 0x90 [0]) live, begins_of (by decide), by decide⟩,
    fun r => by
      match r with
      | true => exact ⟨.sq 0, cmdOf 0x90 [3], holding (cmdOf 0x90 [3]) live, begins_of (by decide), by decide⟩
      | false => exact ⟨.sq 0, cmdOf 0x90 [3], holding (cmdOf 0x90 [3]) calm, begins_of (by decide), by decide⟩,
    ⟨7, onDbg ({ · with level := 2 }), by decide⟩, ⟨7, { calm with dbg := { calm.dbg with level := 2 } }, by decide⟩,
    ⟨{ live with bist := { phase := .logic, wantMem := true } }, by decide⟩, ⟨{ live with bist := { phase := .logic } }, by decide⟩,
    ⟨{ live with bist := { phase := .memory } }, by decide⟩, ⟨{ live with bist := { phase := .reset } }, by decide⟩⟩

/-- Channel 15 is bound to record 1 and has a temperature waiting. -/
def heated (mode : Bool) (tj : U16) (rec : List (Nat × Byte)) : State :=
  { live.modLg 15 (fun ch => { ch with en := true, bound := true, record := 1, mode := mode, tj := some tj, hyst := 4 }) with
    mem := { ledger := rec } }

/-- Record 1 with one residue point 0x10 and that position byte and extreme. -/
def residue (pos ext : Byte) : List (Nat × Byte) :=
  if pos = 0 then [(2325, 1), (2344, 0x10)] else [(2324, pos), (2325, 1), (2326, ext), (2344, 0x10)]

theorem heated_ok (mode : Bool) (tj : U16) (rec : List (Nat × Byte)) (h : Memory.wf 0 rec = true) : (heated mode tj rec).ok :=
  ⟨⟨rfl, rfl, rfl, rfl, h, rfl⟩, ok_live.2⟩

theorem wit_LedgerComplete_temps :
    (∃ (w : Who) (s : State), MayWrite w 0x24000 s ∧ s.lg.en = false) ∧
    (∃ (w : Who) (c : Fin 16) (s : State), MayWrite w (0x24104 + 0x20 * c.val) s ∧ (s.lgch c).en = false) ∧
    (∃ (w : Who) (c : Fin 16) (s : State), MayWrite w (0x24104 + 0x20 * c.val) s ∧ (s.lgch c).en = true ∧ (s.lgch c).bound = true ∧ (s.lgch c).tj.isSome = true) ∧
    (∃ s : State, coreOff s = false ∧ lgFrozen s = true) ∧
    (∃ (c : Fin 16) (s : State) (x : U16), coreOff s = false ∧ lgFrozen s = false ∧ (s.lgch c).tj = some x ∧ (s.lgch c).bound = false) ∧
    (∃ (c : Fin 16) (s : State) (x : U16), coreOff s = false ∧ s.ok ∧ lgFrozen s = false ∧ (s.lgch c).tj = some x ∧
      (s.lgch c).bound = true ∧ (s.lgch c).mode = true) ∧
    (∃ (c : Fin 16) (s : State) (x : U16), coreOff s = false ∧ s.ok ∧ lgFrozen s = false ∧ (s.lgch c).tj = some x ∧
      (s.lgch c).bound = true ∧ (s.lgch c).mode = false ∧ recRes s (s.lgch c).record.toNat = []) ∧
    (∀ k : Fin 3, ∃ (c : Fin 16) (s : State) (x : U16) (tp : Int) (r : Nat), coreOff s = false ∧ s.ok ∧ lgFrozen s = false ∧
      (s.lgch c).tj = some x ∧ (s.lgch c).bound = true ∧ r = (s.lgch c).record.toNat ∧ (s.lgch c).mode = false ∧
      (recRes s r).getLast? = some tp ∧ fd (recPos s r) 6 2 = (0 : BitVec 2) ∧
      (k = 0 → (x.toInt - tp).natAbs ≤ (s.lgch c).hyst.toNat) ∧ (k = 1 → (s.lgch c).hyst.toNat < x.toInt - tp) ∧
      (k = 2 → (s.lgch c).hyst.toNat < tp - x.toInt)) ∧
    (∀ k : Fin 2, ∃ (c : Fin 16) (s : State) (x : U16) (tp : Int) (r : Nat), coreOff s = false ∧ s.ok ∧ lgFrozen s = false ∧
      (s.lgch c).tj = some x ∧ (s.lgch c).bound = true ∧ r = (s.lgch c).record.toNat ∧ (s.lgch c).mode = false ∧
      (recRes s r).getLast? = some tp ∧ fd (recPos s r) 6 2 = (1 : BitVec 2) ∧
      (k = 0 → recTemp s r 22 < x.toInt) ∧
      (k = 1 → x.toInt ≤ recTemp s r 22 ∧ recTemp s r 22 - x.toInt ≤ (s.lgch c).hyst.toNat)) :=
  ⟨⟨.host, live, by decide⟩, ⟨.host, 15, live, by decide⟩, ⟨.thread 15, 15, heated false 5 [], by decide⟩,
    ⟨onDbg ({ · with frozen := true, frzLedger := true }), by decide⟩,
    ⟨15, live.modLg 15 ({ · with tj := some 5 }), 5, by decide⟩,
    ⟨15, heated true 5 [], 5, by decide, heated_ok _ _ _ rfl, by decide⟩,
    ⟨15, heated false 5 [], 5, by decide, heated_ok _ _ _ rfl, by decide⟩,
    fun k => by
      match k with
      | 0 => exact ⟨15, heated false 0x14 (residue 0 0), 0x14, 0x10, 1, by decide, heated_ok _ _ _ rfl, by decide⟩
      | 1 => exact ⟨15, heated false 0x15 (residue 0 0), 0x15, 0x10, 1, by decide, heated_ok _ _ _ rfl, by decide⟩
      | 2 => exact ⟨15, heated false 0x0B (residue 0 0), 0x0B, 0x10, 1, by decide, heated_ok _ _ _ rfl, by decide⟩,
    fun k => by
      match k with
      | 0 => exact ⟨15, heated false 0x31 (residue 0x5F 0x30), 0x31, 0x10, 1, by decide, heated_ok _ _ _ rfl, by decide⟩
      | 1 => exact ⟨15, heated false 0x2C (residue 0x5F 0x30), 0x2C, 0x10, 1, by decide, heated_ok _ _ _ rfl, by decide⟩⟩

def onLg (f : Ledger → Ledger) : State := { live with lg := f live.lg }

theorem wit_LedgerComplete_persist :
    (∃ s : State, coreOff s = false ∧ s.lg.ticks = 0) ∧
    (∃ s : State, coreOff s = false ∧ s.lg.ticks ≠ 0 ∧ (∀ d : Nat, d < 16 → (s.lgch d).last = none ∨
      ((s.lgch d).en && (s.lgch d).bound && (s.lgch d).mode) = false)) ∧
    (∃ (c : Fin 16) (s : State) (x : U16), coreOff s = false ∧ s.lg.ticks ≠ 0 ∧ s.ok ∧ (s.lgch c).last = some x ∧
      ((s.lgch c).en && (s.lgch c).bound && (s.lgch c).mode) = true ∧ (∀ d : Nat, d < 16 → d ≠ c.val → (s.lgch d).last = none)) ∧
    (∃ s : State, coreOff s = false ∧ pintDue s = false ∧ s.lg.en = false) ∧
    (∃ s : State, coreOff s = false ∧ pintDue s = false ∧ s.lg.en = true ∧ s.lg.loaded = true ∧ lgFrozen s = false ∧
      s.lg.persist = .idle ∧ s.lg.ppend = true ∧ s.nvm.run.isSome = true ∧ (∀ j ∈ s.nvm.jobs, j.who ≠ .ledgerErase)) ∧
    (∃ s : State, coreOff s = false ∧ ∀ a, s.lg.persist ≠ .writing a 64) ∧
    (∃ (s : State) (a : Nat), coreOff s = false ∧ s.lg.persist = .writing a 64 ∧ s.nvm.jobs.any (fun j => j.who = .persist) = false ∧
      s.nvm.run.isSome = true) :=
  ⟨⟨live, by decide⟩, ⟨onLg ({ · with ticks := 1 }), by decide, by decide, by decide⟩,
    ⟨15, { (heated true 5 []).modLg 15 ({ · with last := some 7 }) with lg := { ((heated true 5 []).modLg 15 ({ · with last := some 7 })).lg with
        ticks := 1 } }, 7, by decide, by decide, heated_ok true 5 [] rfl, by decide⟩,
    ⟨live, by decide⟩,
    ⟨{ working false (.erase none 2047) with lg := { live.lg with en := true, loaded := true, ppend := true } }, by decide⟩,
    ⟨live, by decide, fun _ h => by cases h⟩,
    ⟨{ working false (.erase none 2047) with lg := { live.lg with persist := .writing 3 64 } }, 3, by decide⟩⟩

/-! ## Inspection port, clock, debug, the machine -/

theorem wit_InspectionFrames :
    (∃ (a : BitVec 24) (s : State), a.toNat ≠ 0x4C ∧ s.dbg.level.toNat < readLevel s a.toNat) ∧
    (∃ (a : BitVec 24) (s : State), a.toNat ≠ 0x4C ∧ readLevel s a.toNat ≤ s.dbg.level.toNat) ∧
    (∃ (a : BitVec 24) (v : U32) (crc : BitVec 4), a.toNat ≠ 0x4C ∧ crc4 (msb (2 : BitVec 4) ++ msb a ++ msb v) ≠ crc) ∧
    (∃ (a : BitVec 24) (v : U32) (crc : BitVec 4) (s : State), a.toNat ≠ 0x4C ∧
      crc4 (msb (2 : BitVec 4) ++ msb a ++ msb v) = crc ∧ s.dbg.level.toNat < writeLevel s a.toNat v) ∧
    (∀ i : Fin 4, ∃ (a : BitVec 24) (v : U32) (crc : BitVec 4) (s : State), a.toNat ≠ 0x4C ∧
      crc4 (msb (2 : BitVec 4) ++ msb a ++ msb v) = crc ∧ 2 ≤ s.dbg.level.toNat ∧ a = [0x40, 0x44, 0x48, 0x34].getD i 0) ∧
    (∃ (v : U32) (s : State), (fd v 0 2 : BitVec 2) ≠ 0 ∧ s.dbg.polmax < (fd v 0 2 : BitVec 2)) ∧
    (∃ (v : U32) (s : State), (fd v 0 2 : BitVec 2) ≠ 0 ∧ ¬ s.dbg.polmax < (fd v 0 2 : BitVec 2) ∧ s.dbg.keyv = true ∧
      s.dbg.lockout = false) ∧
    (∃ s : State, s.dbg.noncev = false ∧ coreOff s = false) :=
  ⟨⟨0x40, live, by decide⟩, ⟨0x40, onDbg ({ · with level := 3 }), by decide⟩, ⟨0x40, 1, crc4 (msb (2 : BitVec 4) ++ msb (0x40 : BitVec 24) ++ msb (1 : U32)) + 1, by decide⟩,
    ⟨0x40, 1, _, live, by decide, rfl, by decide⟩,
    fun i => ⟨[0x40, 0x44, 0x48, 0x34].getD i 0, 1, _, onDbg ({ · with level := 2 }), by
      match i with
      | 0 | 1 | 2 | 3 => decide, rfl, by decide, rfl⟩,
    ⟨3, onDbg ({ · with polmax := 2 }), by decide⟩, ⟨3, onDbg ({ · with keyv := true }), by decide⟩, ⟨live, by decide⟩⟩

theorem wit_GaugeAdvances :
    (∃ s : State, s.clk.running = false) ∧ (∃ s : State, s.bist.phase ≠ .idle) ∧
    (∃ (s : State) (n : Fin 32) (t : Fin 16) (f : Nat), s.clk.running = true ∧ s.bist.phase = .idle ∧ s.due = [] ∧
      s.shut.active = false ∧ s.shut.releaseAt = none ∧ s.bist.starting = false ∧ s.bist.origin = none ∧
      (∀ k : Fin 8, (s.getGate k).en = false) ∧ (∀ m : Fin 16, (s.thr m).blocked = []) ∧ s.link.trapen = false ∧
      s.link.grpen = false ∧ (s.timer n).capLate = none ∧
      s.link.pend ≠ 0 ∧ lgFrozen s = false ∧ tmrFrozen s = false ∧ (s.timer n).run = true ∧ (s.timer n).src = 0 ∧
      (s.timer n).csrc ≠ 1 ∧ (s.thr t).run = .parked (.until f)) :=
  ⟨⟨State.reset, by decide⟩, ⟨{ live with bist := { phase := .logic } }, by decide⟩,
    ⟨{ (onTmr 31 { run := true, src := 0, csrc := 0 }).modThr 4 ({ · with run := .parked (.until 100001) }) with
        link := { live.link with trapen := false, pend := -1 } }, 31, 4, 100001, by decide⟩⟩

def debugging (a : Option DbAccess) : State := onDbg ({ · with level := 2, space := 1, access := a })

theorem wit_DebugBusMaster :
    (∃ s : State, s.dbg.level = 0) ∧ (∃ s : State, s.dbg.level ≠ 0 ∧ s.dbg.err = true) ∧
    (∃ s : State, s.dbg.level ≠ 0 ∧ s.dbg.err = false ∧ s.dbg.ready = true) ∧
    (∃ s : State, s.dbg.level ≠ 0 ∧ s.dbg.err = false ∧ s.dbg.ready = false ∧ s.dbg.access.isSome = true) ∧
    (∃ s : State, 2 ≤ s.dbg.level.toNat ∧ s.dbg.err = false ∧ s.dbg.ready = false ∧ s.dbg.access = none) ∧
    (∃ (s : State) (x : DbAccess) (c : BitVec 3), s.dbg.access = some x ∧ dbRefused s x.wr.isSome = some c ∧ coreOff s = false) ∧
    (∀ wr : Bool, ∃ (s : State) (x : DbAccess), s.dbg.access = some x ∧ dbRefused s x.wr.isSome = none ∧ s.dbg.space = 1 ∧
      x.wr.isSome = wr) :=
  ⟨⟨live, by decide⟩, ⟨onDbg ({ · with level := 3, err := true }), by decide⟩, ⟨onDbg ({ · with level := 1, ready := true }), by decide⟩,
    ⟨debugging (some { wr := none }), by decide⟩, ⟨debugging none, by decide⟩,
    ⟨onDbg ({ · with level := 1, space := 1, access := some { wr := some 5 } }), { wr := some 5 }, _, rfl, rfl, by decide⟩,
    fun wr => by
      match wr with
      | true => exact ⟨debugging (some { wr := some 5 }), { wr := some 5 }, by decide⟩
      | false => exact ⟨debugging (some { wr := none }), { wr := none }, by decide⟩⟩

theorem wit_MonitorAndFreezes :
    (∃ (n : Fin 16) (s : State), n.val = 15 ∧ s.dbg.level.toNat < 3) ∧
    (∃ (n : Fin 16) (s : State), n.val = 15 ∧ 3 ≤ s.dbg.level.toNat ∧ (s.thr n).mon = false) ∧
    (∃ (n : Fin 16) (s : State), n.val ≠ 15 ∧ 2 ≤ s.dbg.level.toNat ∧ issuing s = true ∧ (s.thr n).mon = true ∧ (s.thr n).spill = false) ∧
    (∃ (n : Fin 16) (s : State), coreOff s = false ∧ debugOpen s n = true ∧ (s.thr n).ctx.ret = none ∧ (s.thr n).halt = true) ∧
    (∃ (n : Fin 16) (s : State), coreOff s = false ∧ debugOpen s n = true ∧ (s.thr n).ctx.ret = none ∧ 2 ≤ (s.thr n).stepWords) ∧
    (∃ (n : Fin 16) (s : State), coreOff s = false ∧ (s.thr n).stepWords < 2) ∧
    (∃ (n : Fin 16) (s : State), issuing s = true ∧ (s.thr n).mon = true ∧ (s.thr n).spill = false ∧
      bit (s.thr n).monreq 0 = false ∧ (s.thr n).resume = true) ∧
    (∀ k : Fin 3, ∃ (n : Fin 16) (s : State), issuing s = true ∧ (s.thr n).mon = true ∧ (s.thr n).spill = false ∧
      bit (s.thr n).monreq 0 = true ∧ (s.thr n).resume = false ∧ fd (s.thr n).monreq 1 3 = [0, 1, 7].getD k (0 : BitVec 3)) ∧
    (∃ s : State, coreOff s = false ∧ freezeAsked s = true ∧ s.dbg.frozen = false) ∧
    (∃ (s : State) (n : Fin 32), coreOff s = false ∧ s.dbg.frozen = true ∧ freezeAsked s = false ∧ s.dbg.frzRider = false ∧
      s.dbg.frzTmr = true ∧ (s.timer n).aten = true ∧ inPast (s.timer n).synct s.clk.gauge = true) ∧
    (∃ s : State, 2 ≤ s.dbg.level.toNat) :=
  ⟨⟨15, onDbg ({ · with level := 2 }), by decide⟩, ⟨15, onDbg ({ · with level := 3 }), by decide⟩,
    ⟨14, (onDbg ({ · with level := 2 })).modThr 14 ({ · with run := .ready, mon := true }), by decide⟩,
    ⟨14, live.modThr 14 ({ · with run := .ready, halt := true }), by decide⟩,
    ⟨14, live.modThr 14 ({ · with run := .ready, stepWords := 2 }), by decide⟩,
    ⟨14, live.modThr 14 ({ · with run := .ready, stepWords := 1 }), by decide⟩,
    ⟨14, live.modThr 14 ({ · with run := .ready, mon := true, resume := true }), by decide⟩,
    fun k => ⟨14, live.modThr 14 ({ · with run := .ready, mon := true, monreq := [0x1F1, 0x1F3, 0x1FF].getD k 0 }), by
      match k with
      | 0 | 1 | 2 => decide⟩,
    ⟨onDbg ({ · with frzForce := true }), by decide⟩,
    ⟨{ onTmr 31 { aten := true, synct := 6399999 } with dbg := { live.dbg with frozen := true, frzTmr := true } }, 31, by decide⟩,
    ⟨onDbg ({ · with level := 2 }), by decide⟩⟩

theorem wit_MemoriesHoldWhatIsWritten :
    ∃ (l : List Byte) (m m' : List Host.Cell) (a b : Nat), Memory.wf 0 m = true ∧ Memory.wf 0 m' = true ∧ (b < a ∨ a + l.length ≤ b) ∧
      m = m' ∧ l ≠ [] :=
  ⟨[1, 0], [(4, 9)], [(4, 9)], 0xFFFFF, 0x100001, by decide⟩

theorem wit_SoftwareEvents :
    (∃ (w : Who) (v : U32) (s : State), MayWrite w 0x3180 s ∧ 448 ≤ (fd v 0 9 : BitVec 9).toNat) ∧
    (∃ (w : Who) (v : U32) (s : State), MayWrite w 0x3180 s ∧ (fd v 0 9 : BitVec 9).toNat < 448) :=
  ⟨⟨.host, 448, live, by decide⟩, ⟨.host, 447, live, by decide⟩⟩

theorem wit_WakeByDebugger : ∃ s : State, porLow s = false ∧ 2 ≤ s.dbg.level.toNat := ⟨debugging none, by decide⟩

theorem wit_RiderReceiveReads :
    (∃ (n : Fin 32) (s : State) (v : U32) (rest : List U32), coreOff s = false ∧ (s.rch n).rx = v :: rest) ∧
    (∃ (n : Fin 32) (s : State), coreOff s = false ∧ (s.rch n).rx = []) :=
  ⟨⟨31, live.modRch 31 ({ · with rx := [7] }), 7, [], by decide⟩, ⟨31, live, by decide⟩⟩

/-! ## One step each, from the rules -/

/-- What a field of the next state holds. -/
def after {α : Type} (f : State → α) (c : Instr) (s : State) : Option α :=
  match exec c s with | .next t => some (f t) | _ => none

/-- R478: 131,072 fc in a window of 65,536 sc are the ratio 2.0. -/
theorem test_ratio_counts_fc :
    after (fun t => t.gp.ratio) (.ratioWindow 0x20000) { live with gp := { winStart := 1 }, clk := { live.clk with fc := 131073 } }
      = some 0x20000 := by decide

/-- R299: in one fc a clear comes after a set, in whichever order they arrive. -/
theorem test_scond_clear_last :
    after (fun t => t.seq.scond) (.scondset .host 3) (writeScond none 0 1 live) = some 2 := by decide

/-- R400: an fc has one evaluation of a gate. -/
theorem test_gate_evaluates_once :
    after (fun t => (t.getGate 3).entry) .gateEvaluate (live.modGate 3 ({ · with en := true, entry := some (5, 9) }))
      = some (some (5, 9)) := by decide

/-- R653: a lane leaves training 200 us after it entered DETECT, and no earlier. -/
theorem test_training_timeout :
    after (fun t => (t.lane 2).st) (.trainingTimeout 2) { onLane 2 2 with clk := { fc := 399999 } } = some 2 ∧
    after (fun t => (t.lane 2).st) (.trainingTimeout 2) { onLane 2 2 with clk := { fc := 400000 } } = some 1 := by decide

/-- R855: the debugger below level 3 does not write a register of the watchdog's group; the access ends with cause 3. -/
theorem test_debugger_write_refused :
    after (fun t => (t.dbg.err, t.dbg.cause, t.wdog.cls)) (.registerWrite .debugger 0x26008 5 0xF) (onDbg ({ · with level := 1 }))
      = some (true, 3, 0) := by decide

theorem wit_Frames (s : State) (off : Nat) : writeRefused s .host off = false := rfl

theorem wit_StepRunsFront :
    (∃ (s : State) (c : Instr) (rest : List Instr), s.pending = c :: rest) ∧ (∃ s : State, s.pending = []) :=
  ⟨⟨{ live with pending := [.swev .host 448] }, _, _, rfl⟩, ⟨live, rfl⟩⟩

theorem wit_StepKeepsOk : ∃ s t : State, s.ok ∧ step s = .next t := ⟨live, live, ok_live, rfl⟩

/-- The AES-CMAC of eight zero bytes under the zero key, 49920A3D 19CB8C62 032B34BC E702735F as another implementation gives it. -/
def zeroTag : Vector U32 4 := #v[0x3D0A9249, 0x628CCB19, 0xBC342B03, 0x5F7302E7]

theorem wit_InspectionFrames_check : ∃ (s : State) (tag : List Nat),
    tag = s.dbg.mac.toList.flatMap (fun m => (bytesLE m 4).map (fun b => b.toNat)) ∧ s.dbg.noncev = true ∧ tag = expectedTag s.dbg :=
  ⟨onDbg ({ · with noncev := true, chal := 1, mac := zeroTag }), _, rfl, rfl, by decide +kernel⟩

end Sys2Proof.Tests
end

section
/-! What every command of the table owes: it answers a next state, whose queue is the rest of the queue (R11, R906). -/

namespace Sys2Proof.Machine

/-- Every arm of `exec` answers a next state. -/
theorem exec_next (c : Instr) (s : State) : ∃ t, exec c s = .next t := by
  cases c <;> exact ⟨_, rfl⟩

/-- A command keeps what every operation owes: the rest of the queue and the canonical form of the memories. -/
theorem exec_kept {c : Instr} {s t : State} (h : exec c s = .next t) : Kept s t := by
  cases c with
  | powerOnReset => exact execPowerOnReset_kept h
  | warmReset => exact execWarmReset_kept h
  | debugReset => exact execDebugReset_kept h
  | rstNAssert => exact execRstNAssert_kept h
  | rstctlWarm => exact execRstctlWarm_kept h
  | pllLoss => exact execPllLoss_kept h
  | pllLossResetRequest => exact execPllLossResetRequest_kept h
  | bootStart => exact execBootStart_kept h
  | pllLock => exact execPllLock_kept h
  | bootctlGo => exact execBootctlGo_kept h
  | bootReady => exact execBootReady_kept h
  | powerState => exact execPowerState_kept h
  | wakePin => exact execWakePin_kept h
  | tallyWake => exact execTallyWake_kept h
  | pwrctlWake => exact execPwrctlWake_kept h
  | dozeWake => exact execDozeWake_kept h
  | sleepReturn => exact execSleepReturn_kept h
  | padHoldRelease => exact execPadHoldRelease_kept h
  | holdrel => exact execHoldrel_kept h
  | ratioWindow => exact execRatioWindow_kept h
  | sampleLanding => exact execSampleLanding_kept h
  | tripInputChange => exact execTripInputChange_kept h
  | shutInputChange => exact execShutInputChange_kept h
  | gateEvaluate => exact execGateEvaluate_kept h
  | gateEnable => exact execGateEnable_kept h
  | gateRestart => exact execGateRestart_kept h
  | gateTableStore => exact execGateTableStore_kept h
  | shutreqSet => exact execShutreqSet_kept h
  | shutreqClear => exact execShutreqClear_kept h
  | shutctlRearm => exact execShutctlRearm_kept h
  | watchdogEnable => exact execWatchdogEnable_kept h
  | watchdogLock => exact execWatchdogLock_kept h
  | watchdogService => exact execWatchdogService_kept h
  | watchdogWindowOpen => exact execWatchdogWindowOpen_kept h
  | watchdogExpiry => exact execWatchdogExpiry_kept h
  | watchdogResetRequest => exact execWatchdogResetRequest_kept h
  | operationMicroword => exact execOperationMicroword_kept h
  | loadDataReturn => exact execLoadDataReturn_kept h
  | postedStoreError => exact execPostedStoreError_kept h
  | br => exact execBr_kept h
  | call => exact execCall_kept h
  | ret => exact execRet_kept h
  | retExc => exact execRetExc_kept h
  | rep => exact execRep_kept h
  | repn => exact execRepn_kept h
  | li => exact execLi_kept h
  | lr => exact execLr_kept h
  | sc => exact execSc_kept h
  | reservationExpiry => exact execReservationExpiry_kept h
  | sys => exact execSys_kept h
  | mode => exact execMode_kept h
  | wait => exact execWait_kept h
  | waitEnd => exact execWaitEnd_kept h
  | waitTimeout => exact execWaitTimeout_kept h
  | fence => exact execFence_kept h
  | fenceComplete => exact execFenceComplete_kept h
  | exceptionEntry => exact execExceptionEntry_kept h
  | eventDispatch => exact execEventDispatch_kept h
  | threadStart => exact execThreadStart_kept h
  | threadStop => exact execThreadStop_kept h
  | threadReset => exact execThreadReset_kept h
  | doorbell => exact execDoorbell_kept h
  | ringEnable => exact execRingEnable_kept h
  | headShadowEnable => exact execHeadShadowEnable_kept h
  | headShadowWrite => exact execHeadShadowWrite_kept h
  | cqHeadWrite => exact execCqHeadWrite_kept h
  | ringResume => exact execRingResume_kept h
  | submissionFetch => exact execSubmissionFetch_kept h
  | entryReadError => exact execEntryReadError_kept h
  | completionWrite => exact execCompletionWrite_kept h
  | nop => exact execNop_kept h
  | query => exact execQuery_kept h
  | imageLoad => exact execImageLoad_kept h
  | imageActivate => exact execImageActivate_kept h
  | patchApply => exact execPatchApply_kept h
  | coefWrite => exact execCoefWrite_kept h
  | setpoint => exact execSetpoint_kept h
  | arm => exact execArm_kept h
  | disarm => exact execDisarm_kept h
  | rearm => exact execRearm_kept h
  | linkEnum => exact execLinkEnum_kept h
  | linkRole => exact execLinkRole_kept h
  | linkSend => exact execLinkSend_kept h
  | ledgerRead => exact execLedgerRead_kept h
  | ledgerBind => exact execLedgerBind_kept h
  | nvmErase => exact execNvmErase_kept h
  | nvmProgram => exact execNvmProgram_kept h
  | nvmRead => exact execNvmRead_kept h
  | bistRun => exact execBistRun_kept h
  | debugPolicy => exact execDebugPolicy_kept h
  | logicBistDone => exact execLogicBistDone_kept h
  | memoryBistDone => exact execMemoryBistDone_kept h
  | postBistReset => exact execPostBistReset_kept h
  | dbist => exact execDbist_kept h
  | postlStage => exact execPostlStage_kept h
  | posthPost => exact execPosthPost_kept h
  | entryMove => exact execEntryMove_kept h
  | edgeRetire => exact execEdgeRetire_kept h
  | holdRetire => exact execHoldRetire_kept h
  | flush => exact execFlush_kept h
  | ownerWrite => exact execOwnerWrite_kept h
  | staticLevelWrite => exact execStaticLevelWrite_kept h
  | outputEnableWrite => exact execOutputEnableWrite_kept h
  | outputEnableRaise => exact execOutputEnableRaise_kept h
  | pairWrite => exact execPairWrite_kept h
  | calibrationUpdate => exact execCalibrationUpdate_kept h
  | flumeArm => exact execFlumeArm_kept h
  | flumeDisarm => exact execFlumeDisarm_kept h
  | flumeConfigWrite => exact execFlumeConfigWrite_kept h
  | pendingBankWrite => exact execPendingBankWrite_kept h
  | pbdataRead => exact execPbdataRead_kept h
  | bankSeal => exact execBankSeal_kept h
  | carrierBoundary => exact execCarrierBoundary_kept h
  | windowCloseMiss => exact execWindowCloseMiss_kept h
  | crossingFallback => exact execCrossingFallback_kept h
  | mailboxRead => exact execMailboxRead_kept h
  | smpctlWrite => exact execSmpctlWrite_kept h
  | timerTick => exact execTimerTick_kept h
  | timerWrap => exact execTimerWrap_kept h
  | compareMatch => exact execCompareMatch_kept h
  | timerTrigger => exact execTimerTrigger_kept h
  | timerStart => exact execTimerStart_kept h
  | timerStop => exact execTimerStop_kept h
  | cntWrite => exact execCntWrite_kept h
  | preloadWrite n => exact execPreloadWrite_kept (x0 := n) h
  | liveWrite => exact execLiveWrite_kept h
  | capture => exact execCapture_kept h
  | capRead => exact execCapRead_kept h
  | atenArm => exact execAtenArm_kept h
  | gaugeTimedStart => exact execGaugeTimedStart_kept h
  | riderTurn => exact execRiderTurn_kept h
  | riderBr => exact execRiderBr_kept h
  | loop => exact execLoop_kept h
  | shift => exact execShift_kept h
  | waitpin => exact execWaitpin_kept h
  | waitt => exact execWaitt_kept h
  | setat => exact execSetat_kept h
  | ld => exact execLd_kept h
  | mov => exact execMov_kept h
  | sig => exact execSig_kept h
  | riderInstructionComplete => exact execRiderInstructionComplete_kept h
  | setatFire => exact execSetatFire_kept h
  | txdPush => exact execTxdPush_kept h
  | rxdRead => exact execRxdRead_kept h
  | injection => exact execInjection_kept h
  | programMemoryWrite => exact execProgramMemoryWrite_kept h
  | channelRun => exact execChannelRun_kept h
  | channelStop => exact execChannelStop_kept h
  | channelReset => exact execChannelReset_kept h
  | pinMapWrite => exact execPinMapWrite_kept h
  | syncArm => exact execSyncArm_kept h
  | synchronisedStart => exact execSynchronisedStart_kept h
  | culvertStart => exact execCulvertStart_kept h
  | descriptorLoad => exact execDescriptorLoad_kept h
  | culvertTrigger => exact execCulvertTrigger_kept h
  | burstGrant => exact execBurstGrant_kept h
  | burstComplete => exact execBurstComplete_kept h
  | descriptorComplete => exact execDescriptorComplete_kept h
  | culvertError => exact execCulvertError_kept h
  | culvertPause => exact execCulvertPause_kept h
  | pauseDrained => exact execPauseDrained_kept h
  | culvertResume => exact execCulvertResume_kept h
  | culvertAbort => exact execCulvertAbort_kept h
  | eventRecordWritten => exact execEventRecordWritten_kept h
  | claim => exact execClaim_kept h
  | complete => exact execComplete_kept h
  | tdpoll => exact execTdpoll_kept h
  | swev => exact execSwev_kept h
  | sourceConfigWrite => exact execSourceConfigWrite_kept h
  | scondset => exact execScondset_kept h
  | scondclr => exact execScondclr_kept h
  | laneDetectLock => exact execLaneDetectLock_kept h
  | trainingReady => exact execTrainingReady_kept h
  | portUp => exact execPortUp_kept h
  | trainingTimeout => exact execTrainingTimeout_kept h
  | lossOfLock => exact execLossOfLock_kept h
  | retrain => exact execRetrain_kept h
  | laneGroupWrite => exact execLaneGroupWrite_kept h
  | codewordReceive => exact execCodewordReceive_kept h
  | codewordSend => exact execCodewordSend_kept h
  | orderedSetReceive => exact execOrderedSetReceive_kept h
  | alignSend => exact execAlignSend_kept h
  | shutOrderReceive => exact execShutOrderReceive_kept h
  | trickleLock => exact execTrickleLock_kept h
  | timeExchange => exact execTimeExchange_kept h
  | timeMarkerReply => exact execTimeMarkerReply_kept h
  | timeFrameReceive => exact execTimeFrameReceive_kept h
  | advSend => exact execAdvSend_kept h
  | adv => exact execAdv_kept h
  | masterElection => exact execMasterElection_kept h
  | electionRestart => exact execElectionRestart_kept h
  | count => exact execCount_kept h
  | assign => exact execAssign_kept h
  | reroute => exact execReroute_kept h
  | wake => exact execWake_kept h
  | regreq => exact execRegreq_kept h
  | regrsp => exact execRegrsp_kept h
  | cresync => exact execCresync_kept h
  | cmdFrameReceive => exact execCmdFrameReceive_kept h
  | receiveRingWrite => exact execReceiveRingWrite_kept h
  | sampFrameReceive => exact execSampFrameReceive_kept h
  | receiveRingEnable => exact execReceiveRingEnable_kept h
  | temperatureWrite => exact execTemperatureWrite_kept h
  | temperatureProcess => exact execTemperatureProcess_kept h
  | ageingTick => exact execAgeingTick_kept h
  | persistenceStart => exact execPersistenceStart_kept h
  | persistenceCommit => exact execPersistenceCommit_kept h
  | ledgerLoad => exact execLedgerLoad_kept h
  | lgmdataAccess => exact execLgmdataAccess_kept h
  | dmglRead => exact execDmglRead_kept h
  | erasePulseEnd => exact execErasePulseEnd_kept h
  | programPulseEnd => exact execProgramPulseEnd_kept h
  | nvmSuspend => exact execNvmSuspend_kept h
  | nvmResume => exact execNvmResume_kept h
  | nvmSuspWrite => exact execNvmSuspWrite_kept h
  | nvmcntRead => exact execNvmcntRead_kept h
  | hgevlostRead => exact execHgevlostRead_kept h
  | cerrRead => exact execCerrRead_kept h
  | codewordCounterRead => exact execCodewordCounterRead_kept h
  | frdropRead => exact execFrdropRead_kept h
  | netdropRead => exact execNetdropRead_kept h
  | nrxlostRead => exact execNrxlostRead_kept h
  | registerWrite => exact execRegisterWrite_kept h
  | storeWindowWrite => exact execStoreWindowWrite_kept h
  | groupApertureAccess => exact execGroupApertureAccess_kept h
  | rd => exact execRd_kept h
  | wr => exact execWr_kept h
  | challenge => exact execChallenge_kept h
  | check => exact execCheck_kept h
  | lockoutExpiry => exact execLockoutExpiry_kept h
  | drop => exact execDrop_kept h
  | dbdataRead => exact execDbdataRead_kept h
  | dbdataWrite => exact execDbdataWrite_kept h
  | debugBusComplete => exact execDebugBusComplete_kept h
  | halt => exact execHalt_kept h
  | monitorEntry => exact execMonitorEntry_kept h
  | monitorRequest => exact execMonitorRequest_kept h
  | resume => exact execResume_kept h
  | stepEntry => exact execStepEntry_kept h
  | freezeBegin => exact execFreezeBegin_kept h
  | thaw => exact execThaw_kept h
  | dctlWake => exact execDctlWake_kept h
  | gaugeAdvance => exact execGaugeAdvance_kept h
  | watchdogCount => exact execWatchdogCount_kept h
  | tallyCount => exact execTallyCount_kept h
  | trickleLockLoss => exact execTrickleLockLoss_kept h
  | portReturnToIdle => exact execPortReturnToIdle_kept h

/-- Settles O53: each arm of `exec` answers a next state (`exec_next`), and what it answers keeps the queue (`exec_kept`). -/
theorem everyCommandCompletes : Obligations.EveryCommandCompletes := by
  intro c s
  obtain ⟨t, ht⟩ := exec_next c s
  exact ⟨t, ht, (exec_kept ht).1⟩

end Sys2Proof.Machine
end

section
/-! Reads by host software of the registers whose reads have a side effect (R901): what each unit's read leaves in its own
registers, and O27. -/

namespace Sys2Proof.Machine

/-- A command whose next state is known completes with every property of that state. -/
theorem Runs.of_exec {c : Instr} {s t : State} {P : State → Prop} (h : exec c s = .next t) (hp : P t) : Runs c s P := ⟨t, h, hp⟩

theorem answer_read (s : State) (v : U32) : (answer s .host { data := v }).apb = { rdata := v, slverr := false } := rfl

/-- A command that is host software's read of the register at `off`: it is answered with the register's value, and the rest
holds where it holds of the read's side effect (R901). -/
theorem runs_hostRead {c : Instr} {off : Nat} {s e : State} {v : U32} {Q : State → Prop}
    (hx : exec c s = .next (readRow .host off s)) (hlt : off < 0x40000) (h4 : off % 4 = 0) (ho : off < 0x3000 ∨ 0x3080 ≤ off)
    (hc : coreOff s = false) (hr : regValue s .host off = v ∧ regEffect .host off s = e) (hq : Q (answer e .host { data := v })) :
    Runs c s fun t => t.apb = { rdata := v, slverr := false } ∧ Q t := by
  obtain ⟨rfl, rfl⟩ := hr
  rw [readRow_host hlt h4 hc (claimTurn_other ho ..)] at hx
  exact .of_exec hx ⟨answer_read .., hq⟩

/-! ## Fields that hardware sets and reads take (R11, R13) -/

/-- Where hardware has set nothing of a register in this fc, a read finds its value and leaves 0 (R13). -/
theorem rc_quiet {s : State} {off : Nat} (h : ∀ r ∈ s.tur.rcSet, r.off ≠ off) (cur : U32) :
    rcShown s off cur = cur ∧ rcLeft s off = 0 := by
  have hf : s.tur.rcSet.find? (fun r => r.off = off) = none := by
    simpa only [List.find?_eq_none, decide_eq_true_eq] using h
  unfold rcShown rcLeft
  rw [hf]
  exact ⟨rfl, rfl⟩

/-! ## CAP (R470) -/

/-- A read of a capture that is held. -/
theorem readCap_held {n : Nat} (hn : n < 32) {s : State} (hm : (s.timer n).capAt ≠ s.clk.fc + 1) (hf : (s.timer n).capf = true) :
    (readCap n s).1 = (s.timer n).cap ∧
    (readCap n s).2.timer n = { s.timer n with capReadAt := s.clk.fc + 1, capf := false } := by
  unfold readCap
  simp only [hm, hf, if_false, if_true, true_and]
  rw [State.timer_modTmr _ _ hn]

/-- A read where no capture is held. -/
theorem readCap_none {n : Nat} (hn : n < 32) {s : State} (hm : (s.timer n).capAt ≠ s.clk.fc + 1) (hf : (s.timer n).capf = false) :
    (readCap n s).1 = 0 ∧
    (readCap n s).2.timer n = { s.timer n with capReadAt := s.clk.fc + 1, capuf := true } := by
  unfold readCap tmrSet
  simp only [hm, hf, Bool.false_eq_true, if_false, true_and]
  rw [hwSet_timer, State.timer_modTmr _ _ hn, State.timer_modTmr _ _ hn, ← hf]

/-- A read that a capture of the same fc meets: the older value is answered and the newer one waits. -/
theorem readCap_met {n : Nat} (hn : n < 32) {s : State} (hm : (s.timer n).capAt = s.clk.fc + 1) :
    (readCap n s).1 = (if (s.timer n).capfOld then (s.timer n).capOld else 0) ∧
    ((readCap n s).2.timer n).capf = false ∧ ((readCap n s).2.timer n).capLate = some ((s.timer n).cap, false) := by
  unfold readCap tmrSet
  simp only [hm, if_true]
  cases (s.timer n).capfOld with
  | true =>
    rw [if_pos rfl, if_pos rfl, State.timer_modTmr _ _ hn]
    exact ⟨rfl, rfl, rfl⟩
  | false =>
    rw [if_neg Bool.false_ne_true, if_neg Bool.false_ne_true, hwSet_timer, State.timer_modTmr _ _ hn, State.timer_modTmr _ _ hn]
    exact ⟨rfl, rfl, rfl⟩

/-! ## RXD (R516) -/

theorem popRx_cons {n : Nat} (hn : n < 32) {s : State} {v : U32} {rest : List U32} (h : (s.rch n).rx = v :: rest) :
    (popRx n s).2.rch n = { s.rch n with rx := rest } := by
  unfold popRx
  rw [h]
  exact State.rch_modRch _ _ hn

theorem popRx_nil {n : Nat} (hn : n < 32) {s : State} (h : (s.rch n).rx = []) :
    (popRx n s).2.rch n = { s.rch n with stat := setBit (s.rch n).stat 2 true } := by
  unfold popRx
  rw [h]
  exact rchFlag_rch hn 2 s

/-! ## PBDATA and the mailboxes (R160, R205) -/

/-- The first read of a pending bank in an fc in which no boundary falls. -/
theorem bankOp_read {n : Nat} (hn : n < 32) (ag : Agent) {s : State} (hb : boundaryDue s n = false)
    (ha : (s.flume n).pbAt ≠ s.clk.fc + 1) :
    (bankOp ag n .read s).flume n = { s.flume n with
      pb := { (s.flume n).pb with idx := if (s.flume n).pb.ainc then (s.flume n).pb.idx + 1 else (s.flume n).pb.idx }
      pbAt := s.clk.fc + 1, pbOld := (s.flume n).pb, pbLog := [(agentRank ag, .read)] } := by
  have hw : withBoundary n s = s := if_neg (by rw [hb]; exact Bool.false_ne_true)
  have hr : bankReplay (s.flume n).pb [(agentRank ag, .read)] =
      ({ (s.flume n).pb with idx := if (s.flume n).pb.ainc then (s.flume n).pb.idx + 1 else (s.flume n).pb.idx }, false) := by
    unfold bankReplay bankStep
    cases (s.flume n).pb with | mk pend rdy idx act ainc => cases ainc <;> rfl
  unfold bankOp
  simp only [hw, if_neg ha, bankInsert, hr]
  exact State.flume_modFl s _ hn

theorem mbClear_first {n : Nat} (hn : n < 32) (s : State) : (mbClear n false s).flume n = { s.flume n with
    mb1 := { (s.flume n).mb1 with ovr := bit (rcLeft s (mbOff n false)) 30, new := bit (rcLeft s (mbOff n false)) 31 } } :=
  State.flume_modFl s _ hn

theorem mbClear_second {n : Nat} (hn : n < 32) (s : State) : (mbClear n true s).flume n = { s.flume n with
    mb2 := { (s.flume n).mb2 with ovr := bit (rcLeft s (mbOff n true)) 30, new := bit (rcLeft s (mbOff n true)) 31 } } :=
  State.flume_modFl s _ hn

/-! ## The link's counters (R681, R682) -/

/-- A read takes the CERR count of a lane. -/
theorem linkRead_cerr (l : Fin 4) (s : State) :
    linkRead s (0x10C + 0x20 * l.val) = rcShown s (0x2310C + 0x20 * l.val) (s.lane l).cerr := by
  have e1 : (0x10C + 0x20 * l.val - 0x100) / 0x20 = l.val := by omega
  have e2 : (0x10C + 0x20 * l.val) % 0x20 = 0xC := by omega
  have e3 : 0x23000 + (0x10C + 0x20 * l.val) = 0x2310C + 0x20 * l.val := by omega
  unfold linkRead
  simp only [e1, e2, e3]
  rw [if_neg (by omega), if_neg (by omega), if_pos (by omega)]

/-! ## The ledger (R763, R764) -/

theorem lgRead_dmgl (c : Fin 16) {s : State} (hb : (s.lgch c).bound = true) :
    lgRead s (0x118 + 0x20 * c.val) = BitVec.ofNat 32 (lgGet s (recAt (s.lgch c).record.toNat + 8) 4) := by
  have e1 : (0x118 + 0x20 * c.val - 0x100) / 0x20 = c.val := by omega
  have e2 : (0x118 + 0x20 * c.val) % 0x20 = 0x18 := by omega
  unfold lgRead
  simp only [e1, e2, hb]
  exact if_pos (by omega)

/-- A read of DMGL keeps the high half of the damage for DMGH (R764). -/
theorem lgReadEffect_dmgl (c : Fin 16) {s : State} (hb : (s.lgch c).bound = true) :
    (lgReadEffect (0x118 + 0x20 * c.val) s).lgch c =
      { s.lgch c with dmgh := some (BitVec.ofNat 32 (lgGet s (recAt (s.lgch c).record.toNat + 12) 4)) } := by
  have e1 : (0x118 + 0x20 * c.val - 0x100) / 0x20 = c.val := by omega
  have e2 : (0x118 + 0x20 * c.val) % 0x20 = 0x18 := by omega
  unfold lgReadEffect
  simp only [e1, e2]
  rw [if_neg (by omega), if_pos (by simp; omega), State.lgch_modLg _ _ c.isLt, if_pos hb]

theorem nextMaddr_mem (s : State) : (nextMaddr s).mem = s.mem := (nextMaddr_only s).mem

theorem nextMaddr_maddr (s : State) : (nextMaddr s).lg.maddr = if s.lg.mainc then s.lg.maddr + 4 else s.lg.maddr := by
  unfold nextMaddr
  split <;> rfl

/-- Without the ledger enabled, a write of LGMDATA stores the word at LGMADDR, which then moves on (R763). -/
theorem lgmWrite_idle {s : State} (he : s.lg.en = false) (ha : lgmAt s < 0x25000) (v : U32) :
    lgmWrite v s = nextMaddr (lgPut (lgmAt s) 4 v.toNat s) := by
  unfold lgmWrite lgmPut
  rw [if_neg (by omega), he, Bool.and_false]
  rfl

/-! ## O27, part by part -/

theorem capRead_reads (n : Fin 32) {s : State} (hc : coreOff s = false) :
    ((s.timer n).capAt ≠ s.clk.fc + 1 → (s.timer n).capf = true → Runs (.capRead .host n) s fun t =>
      t.apb = { rdata := (s.timer n).cap, slverr := false } ∧
      t.timer n = { s.timer n with capReadAt := s.clk.fc + 1, capf := false }) ∧
    ((s.timer n).capAt ≠ s.clk.fc + 1 → (s.timer n).capf = false → Runs (.capRead .host n) s fun t =>
      t.apb = { rdata := 0, slverr := false } ∧
      t.timer n = { s.timer n with capReadAt := s.clk.fc + 1, capuf := true }) ∧
    ((s.timer n).capAt = s.clk.fc + 1 → Runs (.capRead .host n) s fun t =>
      t.apb = { rdata := if (s.timer n).capfOld then (s.timer n).capOld else 0, slverr := false } ∧
      (t.timer n).capf = false ∧ (t.timer n).capLate = some ((s.timer n).cap, false)) := by
  have read {v : U32} {Q : State → Prop} (hv : (readCap n s).1 = v) (hq : Q (answer (readCap n s).2 .host { data := v })) :
      Runs (.capRead .host n) s fun t => t.apb = { rdata := v, slverr := false } ∧ Q t :=
    runs_hostRead rfl (by omega) (by omega) (.inr (by omega)) hc
      ((regRead_cap .host n s).imp_left (Eq.trans · hv)) hq
  refine ⟨fun hm hf => ?_, fun hm hf => ?_, fun hm => ?_⟩
  · obtain ⟨hv, ht⟩ := readCap_held n.isLt hm hf
    exact read hv ht
  · obtain ⟨hv, ht⟩ := readCap_none n.isLt hm hf
    exact read hv ht
  · obtain ⟨hv, ht⟩ := readCap_met n.isLt hm
    exact read hv ht

theorem rxdRead_reads (n : Fin 32) {s : State} (hc : coreOff s = false) :
    (∀ v rest, (s.rch n).rx = v :: rest → Runs (.rxdRead .host n) s fun t =>
      t.apb = { rdata := v, slverr := false } ∧ t.rch n = { s.rch n with rx := rest }) ∧
    ((s.rch n).rx = [] → Runs (.rxdRead .host n) s fun t =>
      t.apb = { rdata := 0, slverr := false } ∧ t.rch n = { s.rch n with stat := setBit (s.rch n).stat 2 true }) := by
  have read {v : U32} {Q : State → Prop} (hv : (s.rch n).rx.headD 0 = v) (hq : Q (answer (popRx n s).2 .host { data := v })) :
      Runs (.rxdRead .host n) s fun t => t.apb = { rdata := v, slverr := false } ∧ Q t :=
    runs_hostRead rfl (by omega) (by omega) (.inr (by omega)) hc
      ((regRead_rxd .host n s).imp_left (Eq.trans · hv)) hq
  exact ⟨fun v rest h => read (by rw [h]; rfl) (popRx_cons n.isLt h), fun h => read (by rw [h]; rfl) (popRx_nil n.isLt h)⟩

theorem pbdataRead_reads (n : Fin 32) {s : State} (hc : coreOff s = false) (hb : boundaryDue s n = false)
    (ha : (s.flume n).pbAt ≠ s.clk.fc + 1) : Runs (.pbdataRead .host n) s fun t =>
      t.apb = { rdata := pbdata (s.flume n), slverr := false } ∧
      t.flume n = { s.flume n with
        pb := { (s.flume n).pb with idx := if (s.flume n).pb.ainc then (s.flume n).pb.idx + 1 else (s.flume n).pb.idx }
        pbAt := s.clk.fc + 1, pbOld := (s.flume n).pb, pbLog := [(agentRank .host, .read)] } :=
  runs_hostRead rfl (by omega) (by omega) (.inr (by omega)) hc (regRead_pbdata .host n s) (bankOp_read n.isLt .host hb ha)

theorem mailboxRead_reads (n : Fin 32) {s : State} (hc : coreOff s = false) :
    (Runs (.mailboxRead .host n .mb1) s fun t => t.apb = { rdata := mbShown s n false, slverr := false } ∧
      t.flume n = { s.flume n with mb1 := { (s.flume n).mb1 with
        ovr := bit (rcLeft s (mbOff n false)) 30, new := bit (rcLeft s (mbOff n false)) 31 } }) ∧
    (Runs (.mailboxRead .host n .mb2) s fun t => t.apb = { rdata := mbShown s n true, slverr := false } ∧
      t.flume n = { s.flume n with mb2 := { (s.flume n).mb2 with
        ovr := bit (rcLeft s (mbOff n true)) 30, new := bit (rcLeft s (mbOff n true)) 31 } }) ∧
    (Runs (.mailboxRead .host n .mbt8) s fun t => t.apb = { rdata := (s.flume n).mbt, slverr := false } ∧ t.fl = s.fl) := by
  have at_ (m : Mailbox) {k : Nat} (hk : 0x9000 + Mailbox.off m = k) :
      exec (.mailboxRead .host n m) s = .next (readRow .host (k + 0x40 * n.val) s) := by
    rw [← hk, Nat.add_right_comm]
    rfl
  exact ⟨runs_hostRead (at_ .mb1 (k := 0x9028) rfl) (by omega) (by omega) (.inr (by omega)) hc (regRead_mb1 .host n s) (mbClear_first n.isLt s),
    runs_hostRead (at_ .mb2 (k := 0x902C) rfl) (by omega) (by omega) (.inr (by omega)) hc (regRead_mb2 .host n s) (mbClear_second n.isLt s),
    runs_hostRead (at_ .mbt8 (k := 0x9024) rfl) (by omega) (by omega) (.inr (by omega)) hc (regRead_mbt .host n s) (answer_fl ..)⟩

theorem blockCounters_read {s : State} (hc : coreOff s = false) :
    (Runs (.hgevlostRead .host) s fun t => t.apb = { rdata := rcShown s 0x200C s.hg.evlost, slverr := false } ∧
      t.hg = { s.hg with evlost := rcLeft s 0x200C, shadDirty := true }) ∧
    (Runs (.netdropRead .host) s fun t => t.apb = { rdata := rcShown s 0x23034 s.link.netdrop, slverr := false } ∧
      t.link = { s.link with netdrop := rcLeft s 0x23034 }) ∧
    (Runs (.nrxlostRead .host) s fun t => t.apb = { rdata := rcShown s 0x2305C s.link.nrxLost, slverr := false } ∧
      t.link = { s.link with nrxLost := rcLeft s 0x2305C }) ∧
    (Runs (.nvmcntRead .host) s fun t => t.apb = { rdata := nvmReg s 0x18, slverr := false } ∧
      t.nvm = { s.nvm with corr := fd (rcLeft s 0x25018) 0 16, unc := fd (rcLeft s 0x25018) 16 16 }) :=
  ⟨runs_hostRead rfl (by decide) (by decide) (.inl (by decide)) hc (regRead_hgevlost .host s) (answer_hg ..),
    runs_hostRead rfl (by decide) (by decide) (.inr (by decide)) hc (regRead_netdrop .host s) (answer_link ..),
    runs_hostRead rfl (by decide) (by decide) (.inr (by decide)) hc (regRead_nrxlost .host s) (answer_link ..),
    runs_hostRead rfl (by decide) (by decide) (.inr (by decide)) hc (regRead_nvmcnt .host s) (answer_nvm ..)⟩

/-- A read of the RC counter at port offset `k` of port `p`, which the read sets to what hardware has set in this fc. -/
theorem portCounter_reads {c : Instr} {p : Fin 4} {s : State} {o k : Nat} {v : U32} {f : LinkPort → LinkPort}
    (hx : exec c s = .next (readRow .host o s)) (ho : o = 0x23200 + 0x200 * p.val + k) (hk : k % 4 = 0 ∧ k < 0x200) (hc : coreOff s = false)
    (hr : regValue s .host (0x23200 + 0x200 * p.val + k) = v ∧
      regEffect .host (0x23200 + 0x200 * p.val + k) s = rcTaken (0x23200 + 0x200 * p.val + k) (s.modPort p f)) :
    Runs c s fun t => t.apb = { rdata := v, slverr := false } ∧ t.port p = f (s.port p) := by
  subst ho
  refine runs_hostRead hx (by omega) (by omega) (.inr (by omega)) hc hr ?_
  rw [port_eq p (answer_link ..), port_eq p (rcTaken_link ..), State.port_modPort _ _ p.isLt]

theorem portCounters_read (p : Fin 4) {s : State} (hc : coreOff s = false) (hf : portFormed s p = true) {o : Nat}
    (ho : o = 0x23200 + 0x200 * p.val) :
    (Runs (.codewordCounterRead .host p 0) s fun t =>
      t.apb = { rdata := rcShown s (o + 0x0C) (s.port p).cwcor, slverr := false } ∧
      t.port p = { s.port p with cwcor := rcLeft s (o + 0x0C) }) ∧
    (Runs (.codewordCounterRead .host p 1) s fun t =>
      t.apb = { rdata := rcShown s (o + 0x10) (s.port p).cwunc, slverr := false } ∧
      t.port p = { s.port p with cwunc := rcLeft s (o + 0x10) }) ∧
    (Runs (.codewordCounterRead .host p 2) s fun t =>
      t.apb = { rdata := rcShown s (o + 0x14) (s.port p).oserr, slverr := false } ∧
      t.port p = { s.port p with oserr := rcLeft s (o + 0x14) }) ∧
    (Runs (.frdropRead .host p) s fun t =>
      t.apb = { rdata := rcShown s (o + 0x118) (s.port p).frdrop, slverr := false } ∧
      t.port p = { s.port p with frdrop := rcLeft s (o + 0x118) }) := by
  subst ho
  have own (k : Nat) : 0x23000 + (0x200 + k + 0x200 * p.val) = 0x23200 + 0x200 * p.val + k := by omega
  have off (k : Nat) : 0x23200 + k + 0x200 * p.val = 0x23200 + 0x200 * p.val + k := by omega
  have h0 := regRead_cwcor .host p hf
  have h1 := regRead_cwunc .host p hf
  have h2 := regRead_oserr .host p hf
  have h3 := regRead_frdrop .host p hf
  rw [own 0xC, off 0xC] at h0
  rw [own 0x10, off 0x10] at h1
  rw [own 0x14, off 0x14] at h2
  rw [own 0x118, off 0x118] at h3
  have row (i : Fin 3) {k : Nat} (hk : 0xC + 4 * i.val = k) :
      exec (.codewordCounterRead .host p i) s = .next (readRow .host (0x23200 + 0x200 * p.val + k) s) := by
    rw [← hk, ← Nat.add_assoc, ← off]
    rfl
  exact ⟨portCounter_reads (row 0 rfl) rfl (by decide) hc h0, portCounter_reads (row 1 rfl) rfl (by decide) hc h1,
    portCounter_reads (row 2 rfl) rfl (by decide) hc h2, portCounter_reads rfl (off 0x118) (by decide) hc h3⟩

theorem cerrRead_reads (l : Fin 4) {s : State} (hc : coreOff s = false) {o : Nat} (ho : o = 0x2310C + 0x20 * l.val) :
    Runs (.cerrRead .host l) s fun t =>
      t.apb = { rdata := rcShown s o (s.lane l).cerr, slverr := false } ∧ t.lane l = { s.lane l with cerr := rcLeft s o } := by
  subst ho
  have own : 0x23000 + (0x10C + 0x20 * l.val) = 0x2310C + 0x20 * l.val := by omega
  have hr := regRead_cerr .host l s
  rw [own, linkRead_cerr] at hr
  refine runs_hostRead rfl (by omega) (by omega) (.inr (by omega)) hc hr ?_
  rw [lane_eq l (answer_link ..), lane_eq l (rcTaken_link ..), State.lane_modLane _ _ l.isLt]

theorem dmglRead_reads (c : Fin 16) {s : State} (hc : coreOff s = false) (hb : (s.lgch c).bound = true) :
    Runs (.dmglRead .host c) s fun t =>
      t.apb = { rdata := BitVec.ofNat 32 (lgGet s (recAt (s.lgch c).record.toNat + 8) 4), slverr := false } ∧
      t.lgch c = { s.lgch c with dmgh := some (BitVec.ofNat 32 (lgGet s (recAt (s.lgch c).record.toNat + 12) 4)) } := by
  have hr := regRead_dmgl .host c s
  rw [lgRead_dmgl c hb] at hr
  exact runs_hostRead rfl (by omega) (by omega) (.inr (by omega)) hc hr (lgReadEffect_dmgl c hb)

theorem lgmdata_reads {s : State} (hc : coreOff s = false) :
    Runs (.lgmdataAccess .host none) s fun t => t.apb = { rdata := lgmRead s, slverr := false } ∧ t.mem = s.mem ∧
      t.lg.maddr = if s.lg.mainc then s.lg.maddr + 4 else s.lg.maddr :=
  runs_hostRead rfl (by decide) (by decide) (.inr (by decide)) hc (regRead_lgmdata .host s)
    ⟨(answer_mem ..).trans (nextMaddr_mem s), nextMaddr_maddr s⟩

/-- LGMDATA is the register of `lgmWrite` (R763). -/
theorem regStore_lgmdata (ag : Agent) (v : U32) {s : State} (hw : hwFresh s 0x24020 = 0) :
    regStore ag 0x24020 v s = (lgmWrite v s, {}) := by
  have hv : v &&& ~~~(hwFresh s 0x24020) = v := by rw [hw]; exact BitVec.and_allOnes
  have ha : assigned 0x24020 = true := by decide
  have hh : hostRefused 0x24020 = false := by decide
  unfold regStore
  rw [hv, hh, ha, Bool.and_false]
  rfl

theorem lgmdata_writes {s : State} (hc : coreOff s = false) (v : U32) (he : s.lg.en = false) (ha : lgmAt s < 0x25000)
    (hw : hwFresh s 0x24020 = 0) : Runs (.lgmdataAccess .host (some v)) s fun t =>
      t.mem = (lgPut (lgmAt s) 4 v.toNat s).mem ∧ t.lg.maddr = if s.lg.mainc then s.lg.maddr + 4 else s.lg.maddr := by
  have hx : lgmdataWrite .host v s = answer (nextMaddr (lgPut (lgmAt s) 4 v.toNat s)) .host {} := by
    have hb : busWrite .host 0x24020 v 0xF s = (nextMaddr (lgPut (lgmAt s) 4 v.toNat s), {}) :=
      (regStore_lgmdata .host v hw).trans (by rw [lgmWrite_idle he ha])
    unfold lgmdataWrite regCommand agentOf
    rw [hb, onCore_on _ hc]
    rfl
  refine .of_exec (congrArg Host.Outcome.next hx) ⟨?_, ?_⟩
  · rw [answer_mem, nextMaddr_mem]
  · rw [answer_lg, nextMaddr_maddr, lgPut_lg]

/-- Settles O27, register by register: each read is `runs_hostRead` with what the unit's own read does. -/
theorem readsThatClear : Obligations.ReadsThatClear := by
  unfold Obligations.ReadsThatClear
  refine ⟨fun n s hc => capRead_reads n hc, fun n s hc => rxdRead_reads n hc, ?_, fun n s hc => mailboxRead_reads n hc,
    fun s off cur h => rc_quiet h cur, fun s hc => blockCounters_read hc, fun p s o hc hf ho => portCounters_read p hc hf ho,
    fun l s o hc ho => cerrRead_reads l hc ho, fun c s hc hb => dmglRead_reads c hc hb,
    fun s hc => ⟨lgmdata_reads hc, lgmdata_writes hc⟩⟩
  rintro n s _ hc hb ha rfl
  exact pbdataRead_reads n hc hb ha

end Sys2Proof.Machine
end

section
/-! Writes of the register window (R11, R892) and of the store windows (R893-R898), what a refused writer meets (R361, R855),
and O34. -/

namespace Sys2Proof.Machine

/-! ## Who writes, and the answer -/

theorem porLow_of_coreOn {s : State} (h : coreOff s = false) : porLow s = false := by
  unfold coreOff at h
  simp only [Bool.or_eq_false_iff] at h
  obtain ⟨⟨⟨hpor, -⟩, -⟩, -⟩ := h
  exact hpor

theorem regCommand_allowed {w : Who} {off : Nat} {s : State} (h : MayWrite w off s) (r : State × Resp) :
    regCommand w off r s = writeAnswer w r := by
  unfold regCommand
  rw [h.2, onCore_on w h.1]
  rfl

theorem aoCommand_allowed {w : Who} {off : Nat} {s : State} (h : MayWriteAo w off s) (r : State × Resp) :
    aoCommand w off r s = writeAnswer w r := by
  unfold aoCommand
  rw [h.1, h.2]
  rfl

theorem regCommand_refused {w : Who} {off : Nat} {s : State} (h : writeRefused s w off = true) (r : State × Resp) :
    regCommand w off r s = refuseWrite w s := if_pos h

theorem aoCommand_refused {w : Who} {off : Nat} {s : State} (hp : porLow s = false) (h : writeRefused s w off = true)
    (r : State × Resp) : aoCommand w off r s = refuseWrite w s := by
  unfold aoCommand
  rw [hp, h]
  rfl

/-- A write that ends well leaves of the writer's answer only what host software sees. -/
theorem writeAnswer_okay (w : Who) (t : State) : writeAnswer w (t, {}) = answer t w {} := by cases w <;> rfl

theorem registerWrite_allowed {w : Who} {off : BitVec 20} {s : State} (h : MayWrite w off.toNat s) (hlt : off.toNat < 0x40000)
    (v : U32) (strb : BitVec 4) : exec (.registerWrite w off v strb) s =
      .next (writeAnswer w (busWrite (agentOf s w) off.toNat v strb s)) := by
  have hao : MayWriteAo w off.toNat s := ⟨porLow_of_coreOn h.1, h.2⟩
  change execRegisterWrite w off v strb s = _
  unfold execRegisterWrite
  dsimp only
  rw [if_neg (by omega), regCommand_allowed h, aoCommand_allowed hao, ite_self]

theorem storeWindowWrite_allowed {w : Who} {off : BitVec 20} {s : State} (h : MayWrite w off.toNat s) (hlo : 0x40000 ≤ off.toNat)
    (hhi : off.toNat < 0x80000) (v : U32) (strb : BitVec 4) : exec (.storeWindowWrite w off v strb) s =
      .next (writeAnswer w (winWrite (agentOf s w) (off.toNat / 4 * 4 - 0x40000) v strb s)) := by
  have hb : busWrite (agentOf s w) off.toNat v strb s = winWrite (agentOf s w) (off.toNat / 4 * 4 - 0x40000) v strb s :=
    if_pos (by omega)
  change execStoreWindowWrite w off v strb s = _
  unfold execStoreWindowWrite
  rw [if_pos (by simp only [Bool.and_eq_true, decide_eq_true_eq]; exact ⟨hlo, hhi⟩), regCommand_allowed h, hb]

/-! ## The register window (R11, R37) -/

theorem busWrite_whole {off : Nat} (h : off < 0x40000) (ag : Agent) (v : U32) (s : State) :
    busWrite ag off v 0xF s = regStore ag (off / 4 * 4) v s := by
  unfold busWrite
  exact (if_neg (by omega)).trans (if_neg (by decide))

/-- A write of part of a word has no effect, and ends with an error where a register stands. -/
theorem busWrite_part {off : Nat} (h : off < 0x40000) (ag : Agent) (v : U32) {strb : BitVec 4} (hs : strb ≠ 0xF) (s : State) :
    busWrite ag off v strb s = (s, { err := assigned (off / 4 * 4) }) := by
  unfold busWrite
  exact (if_neg (by omega)).trans (if_pos (by simpa using hs))

theorem regStore_hostRefused {off : Nat} (h : hostRefused off = true) (v : U32) (s : State) :
    regStore .host off v s = (s, { err := true }) := by
  unfold regStore
  exact if_pos (by rw [h]; rfl)

theorem regStore_unassigned {off : Nat} (ha : assigned off = false) (hh : hostRefused off = false) (ag : Agent) (v : U32) (s : State) :
    regStore ag off v s = (s, {}) := by
  unfold regStore
  exact (if_neg (by rw [hh, Bool.and_false]; exact Bool.false_ne_true)).trans (if_pos (by rw [ha]; rfl))

theorem regStore_stwsel (ag : Agent) (v : U32) {s : State} (hw : hwFresh s 0xC = 0) : regStore ag 0xC v s =
    (modWin ag (fun w => { w with space := fd v 0 2, page := fd v 2 2 }) s, {}) := by
  have hv : v &&& ~~~(hwFresh s 0xC) = v := by rw [hw]; exact BitVec.and_allOnes
  have hh : hostRefused 0xC = false := by decide
  have ha : assigned 0xC = true := by decide
  unfold regStore
  rw [hv, hh, ha, Bool.and_false]
  rfl

theorem winOf_modWin (ag : Agent) (f : Window → Window) (s : State) : winOf (modWin ag f s) ag = f (winOf s ag) := by
  cases ag <;> rfl

theorem winOf_eq {s t : State} (ag : Agent) (h : t.mem = s.mem) : winOf t ag = winOf s ag := by
  unfold winOf
  rw [h]

theorem modWin_nano (ag : Agent) (f : Window → Window) (s : State) : (modWin ag f s).mem.nano = s.mem.nano := by
  cases ag <;> rfl

/-! ## The store windows (R895-R898) -/

/-- Outside the space, or without a strobe. -/
theorem winWrite_none {ag : Agent} {k : Nat} {strb : BitVec 4} {s : State} (h : winSize (winOf s ag).space ≤ k ∨ strb = 0) (v : U32) :
    winWrite ag k v strb s = (s, {}) := by
  unfold winWrite
  exact if_pos (by simpa using h)

theorem winOpen {n k : Nat} {strb : BitVec 4} (hk : k < n) (hs : strb ≠ 0) : ¬ (decide (n ≤ k) || decide (strb = 0)) = true := by
  rw [decide_eq_false (Nat.not_le.mpr hk), decide_eq_false hs]
  exact Bool.false_ne_true

theorem winWrite_micro {ag : Agent} {k : Nat} {strb : BitVec 4} {s : State} (hk : k < winSize (winOf s ag).space) (hs : strb ≠ 0)
    (hx : (winOf s ag).space = 0) (hi : 8192 ≤ k / 4) (hm : marked (k / 4) s.mem.badMicro = false) (v : U32) :
    winWrite ag k v strb s = (putMicro (k / 4) [strobed (microWord s (BitVec.ofNat 16 (k / 4))) v strb] s, {}) := by
  unfold winWrite winMicro
  dsimp only
  rw [if_neg (winOpen hk hs)]
  simp [hx, hm, hi]

theorem winWrite_nano {ag : Agent} {k : Nat} {strb : BitVec 4} {s : State} (hk : k < winSize (winOf s ag).space) (hs : strb ≠ 0)
    (hx : (winOf s ag).space = 1) (v : U32) : winWrite ag k v strb s = (stageNano ag (k / 32) (k / 4 % 8) v strb s, {}) := by
  unfold winWrite
  dsimp only
  rw [if_neg (winOpen hk hs)]
  simp [hx]

/-- The bytes `l`, each at its place from `a` on, stored one by one. -/
def storeBytes (a : Nat) (l : List (Nat × Byte)) (s : State) : State := l.foldl (fun s p => storeRow (a + p.1) [p.2] s) s

theorem winWrite_data {ag : Agent} {k : Nat} {strb : BitVec 4} {s : State} (hk : k < winSize (winOf s ag).space) (hs : strb ≠ 0)
    (hx : (winOf s ag).space = 2) (h4 : k / 4 * 4 = k) (v : U32)
    (hm : atMachine s ag = true ∨ ∀ q ∈ strobedBytes v strb, inExcTable s ((winOf s ag).page.toNat * 0x40000 + k + q.1) 1 = false)
    (hb : partBad s ((winOf s ag).page.toNat * 0x40000 + k) 4 = false) :
    winWrite ag k v strb s = (storeBytes ((winOf s ag).page.toNat * 0x40000 + k) (strobedBytes v strb) s, {}) := by
  have he : (!atMachine s ag && (strobedBytes v strb).any fun p =>
      inExcTable s ((winOf s ag).page.toNat * 0x40000 + k + p.1) 1) = false := by
    rcases hm with hm | hm
    · rw [hm]; rfl
    · rw [List.any_eq_false.mpr (fun q hq => by simp [hm q hq]), Bool.and_false]
  unfold winWrite storeBytes
  dsimp only
  rw [if_neg (winOpen hk hs)]
  simp only [h4, he, hb]
  simp [hx]

/-- A word of a nanoword other than the last is staged, and the nanostore stays (R896). -/
theorem stageNano_staged (ag : Agent) (i : Nat) {j : Nat} (h7 : j ≠ 7) (h8 : j < 8) (v : U32) (strb : BitVec 4) (s : State) :
    (∃ ws, (winOf (stageNano ag i j v strb s) ag).staged = some (BitVec.ofNat 12 i, ws) ∧
      vget ws j 0 = strobed (fd (nanoWord s i) (32 * j) 32) v strb) ∧ (stageNano ag i j v strb s).mem.nano = s.mem.nano := by
  unfold stageNano
  simp only [if_neg h7, winOf_modWin, modWin_nano, and_true]
  exact ⟨_, rfl, vget_vset_self _ h8 _ _⟩

/-- No place is strobed twice. -/
theorem strobedBytes_places (v : U32) (strb : BitVec 4) : ((strobedBytes v strb).map Prod.fst).Nodup := by
  have h : (strobedBytes v strb).map Prod.fst = (List.range 4).filter (fun i => bit strb i) := by
    unfold strobedBytes
    rw [List.map_filterMap, ← List.filterMap_eq_filter]
    congr 1
    funext i
    cases hb : bit strb i <;> simp [Option.guard, hb]
  rw [h]
  exact List.nodup_range.filter _

theorem storeRow_byte (a : Nat) (b : Byte) (s : State) : (storeRow a [b] s).mem.data = memPut s.mem.data a b := rfl

theorem storeBytes_cons (a : Nat) (p : Nat × Byte) (l : List (Nat × Byte)) (s : State) :
    storeBytes a (p :: l) s = storeBytes a l (storeRow (a + p.1) [p.2] s) := rfl

theorem storeBytes_other (a : Nat) {b : Nat} {l : List (Nat × Byte)} (s : State) (h : ∀ q ∈ l, b ≠ a + q.1) :
    memByte (storeBytes a l s).mem.data b = memByte s.mem.data b := by
  induction l generalizing s with
  | nil => rfl
  | cons p l ih =>
    obtain ⟨hp, hl⟩ := List.forall_mem_cons.mp h
    rw [storeBytes_cons, ih _ hl, storeRow_byte, memByte_memPut_other p.2 hp]

theorem storeBytes_at (a : Nat) {l : List (Nat × Byte)} {s : State} (hw : Memory.wf 0 s.mem.data = true)
    (hd : (l.map Prod.fst).Nodup) : ∀ q ∈ l, memByte (storeBytes a l s).mem.data (a + q.1) = q.2 := by
  induction l generalizing s with
  | nil => exact fun q hq => absurd hq List.not_mem_nil
  | cons p l ih =>
    rw [List.map_cons, List.nodup_cons] at hd
    obtain ⟨hp, hl⟩ := hd
    have hne : ∀ r ∈ l, a + p.1 ≠ a + r.1 := fun r hr e => hp (List.mem_map.mpr ⟨r, hr, (Nat.add_left_cancel e).symm⟩)
    have hw' : Memory.wf 0 (storeRow (a + p.1) [p.2] s).mem.data = true := by
      rw [storeRow_byte]
      exact memPut_wf _ _ hw
    rw [storeBytes_cons, List.forall_mem_cons]
    refine ⟨?_, ih hw' hl⟩
    rw [storeBytes_other a _ hne, storeRow_byte, memByte_memPut_self _ _ hw]

/-! ## Refused writers (R361, R855) -/

/-- A command of `regWritten` is the write of its register by its writer. -/
theorem exec_regWritten {c : Instr} {w : Who} {off : Nat} (h : regWritten c = some (w, off)) (s : State) :
    ∃ r, exec c s = .next (regCommand w off r s) ∨ exec c s = .next (aoCommand w off r s) := by
  cases c with
  | rstctlWarm | bootctlGo | pwrctlWake | holdrel =>
    cases h
    exact ⟨_, .inr rfl⟩
  | registerWrite w off v strb =>
    change (if off.toNat < 0x40000 then some (w, off.toNat) else none) = _ at h
    split at h
    · rename_i hlt
      cases h
      refine ⟨busWrite (agentOf s w) off.toNat v strb s, ?_⟩
      change execRegisterWrite w off v strb s = _ ∨ execRegisterWrite w off v strb s = _
      unfold execRegisterWrite
      dsimp only
      rw [if_neg (by omega)]
      split
      · exact .inr rfl
      · exact .inl rfl
    · cases h
  | storeWindowWrite w off v strb =>
    change (if 0x40000 ≤ off.toNat ∧ off.toNat < 0x80000 then some (w, off.toNat) else none) = _ at h
    split at h
    · rename_i hin
      cases h
      refine ⟨busWrite (agentOf s w) off.toNat v strb s, .inl (congrArg Host.Outcome.next (if_pos ?_))⟩
      simpa using hin
    · cases h
  | lgmdataAccess w v =>
    cases v with
    | none => cases h
    | some v => cases h; exact ⟨_, .inl rfl⟩
  | postlStage | posthPost | flush | ownerWrite | staticLevelWrite | outputEnableWrite | pairWrite | flumeArm | flumeDisarm
  | flumeConfigWrite | pendingBankWrite | bankSeal | smpctlWrite | complete | swev | sourceConfigWrite | scondset | scondclr
  | gateEnable | gateRestart | gateTableStore | shutreqSet | shutreqClear | shutctlRearm | watchdogEnable | watchdogLock
  | watchdogService | timerStart | timerStop | cntWrite | liveWrite | atenArm | txdPush | injection | programMemoryWrite
  | channelRun | channelStop | channelReset | pinMapWrite | syncArm | doorbell | ringEnable | headShadowEnable | cqHeadWrite
  | ringResume | culvertStart | culvertPause | culvertResume | culvertAbort | retrain | laneGroupWrite | receiveRingEnable
  | temperatureWrite | ledgerLoad | nvmSuspWrite =>
    cases h
    exact ⟨_, .inl rfl⟩
  | _ => cases h

theorem exec_refused {c : Instr} {w : Who} {off : Nat} {s : State} (h : regWritten c = some (w, off)) (hp : porLow s = false)
    (hr : writeRefused s w off = true) : exec c s = .next (refuseWrite w s) := by
  obtain ⟨r, hx | hx⟩ := exec_regWritten h s
  · rw [hx, regCommand_refused hr]
  · rw [hx, aoCommand_refused hp hr]

/-- A debugger with no access pending gets cause 3. -/
theorem refuseWrite_debugger {s : State} (h : s.dbg.access = none) : (refuseWrite .debugger s).dbg.err = true ∧
    (refuseWrite .debugger s).dbg.cause = 3 ∧ (refuseWrite .debugger s).seq = s.seq ∧ (refuseWrite .debugger s).mem = s.mem := by
  have he : refuseWrite .debugger s = dbFail 3 s := if_pos (by rw [h]; rfl)
  obtain ⟨-, herr, hcause, -, -, -, hframe⟩ := dbFail_leaves 3 s
  rw [he]
  exact ⟨herr, hcause, hframe.seq, hframe.mem⟩

/-- A thread takes vector 3 where it runs. -/
theorem refuseWrite_thread (n : Fin 16) (s : State) : refuseWrite (.thread n) s =
    if coreOff s = false ∧ (s.thr n).run = .ready ∧ (s.thr n).escal = none then takeFault n 3 0 s else s := by
  unfold refuseWrite
  dsimp only
  rw [← ite_not]
  congr 1
  simp [not_or, and_assoc]

/-! ## O34, part by part -/

theorem registerWrite_host (off : BitVec 20) (v : U32) (strb : BitVec 4) {s : State} (hc : coreOff s = false)
    (hlt : off.toNat < 0x40000) :
    (strb ≠ 0xF → Runs (.registerWrite .host off v strb) s fun t =>
      t.apb = { rdata := 0, slverr := assigned (off.toNat / 4 * 4) } ∧ Only [.apb] s t) ∧
    (hostRefused (off.toNat / 4 * 4) = true → Runs (.registerWrite .host off v 0xF) s fun t =>
      t.apb = { rdata := 0, slverr := true } ∧ Only [.apb] s t) ∧
    (assigned (off.toNat / 4 * 4) = false → hostRefused (off.toNat / 4 * 4) = false → Runs (.registerWrite .host off v 0xF) s fun t =>
      t.apb = { rdata := 0, slverr := false } ∧ Only [.apb] s t) := by
  have run {strb : BitVec 4} {e : Bool} (h : busWrite .host off.toNat v strb s = (s, { err := e })) :
      Runs (.registerWrite .host off v strb) s fun t => t.apb = { rdata := 0, slverr := e } ∧ Only [.apb] s t := by
    have hx := registerWrite_allowed (w := .host) ⟨hc, rfl⟩ hlt v strb
    rw [show agentOf s .host = .host from rfl, h] at hx
    have ho : Only [.apb] s (answer s .host { err := e }) := answer_only ..
    refine .of_exec hx ⟨?_, ho⟩
    cases e <;> rfl
  exact ⟨fun h => run (busWrite_part hlt .host v h s),
    fun h => run ((busWrite_whole hlt ..).trans (regStore_hostRefused h v s)),
    fun ha hh => run ((busWrite_whole hlt ..).trans (regStore_unassigned ha hh .host v s))⟩

theorem registerWrite_whole {w : Who} {off : BitVec 20} {s : State} (h : MayWrite w off.toNat s) (hlt : off.toNat < 0x40000) (v : U32) :
    (Runs (.registerWrite w off v 0xF) s fun t => t = writeAnswer w (regStore (agentOf s w) (off.toNat / 4 * 4) v s)) ∧
    (off.toNat / 4 * 4 = 0xC → hwFresh s 0xC = 0 → Runs (.registerWrite w off v 0xF) s fun t =>
      winOf t (agentOf s w) = { winOf s (agentOf s w) with space := fd v 0 2, page := fd v 2 2 }) := by
  have hx := registerWrite_allowed h hlt v 0xF
  rw [busWrite_whole hlt] at hx
  refine ⟨.of_exec hx rfl, fun ho hw => .of_exec hx ?_⟩
  rw [ho, regStore_stwsel _ _ hw, writeAnswer_okay, winOf_eq _ (answer_mem ..), winOf_modWin]

/-- What a permitted write of a store window leaves, from what `winWrite` leaves. -/
theorem runs_storeWindow {w : Who} {off : BitVec 20} {v : U32} {strb : BitVec 4} {s t : State} {k : Nat} {P : State → Prop}
    (h : MayWrite w off.toNat s) (hlo : 0x40000 ≤ off.toNat) (hhi : off.toNat < 0x80000) (hk : k = off.toNat / 4 * 4 - 0x40000)
    (hx : winWrite (agentOf s w) k v strb s = (t, {})) (hp : P (answer t w {})) : Runs (.storeWindowWrite w off v strb) s P := by
  refine .of_exec (storeWindowWrite_allowed h hlo hhi v strb) ?_
  rw [← hk, hx, writeAnswer_okay]
  exact hp

theorem storeWindowWrite_micro {w : Who} {off : BitVec 20} {v : U32} {strb : BitVec 4} {s : State} {k : Nat}
    (h : MayWrite w off.toNat s) (hok : s.ok) (hlo : 0x40000 ≤ off.toNat) (hhi : off.toNat < 0x80000)
    (hk : k = off.toNat / 4 * 4 - 0x40000) (hin : k < winSize (winOf s (agentOf s w)).space) (hs : strb ≠ 0)
    (hx : (winOf s (agentOf s w)).space = 0) (hi : 8192 ≤ k / 4) (hm : marked (k / 4) s.mem.badMicro = false) :
    Runs (.storeWindowWrite w off v strb) s fun t =>
      sget 0 (k / 4) t.mem.micro = strobed (microWord s (BitVec.ofNat 16 (k / 4))) v strb ∧
      ∀ i, i ≠ k / 4 → sget 0 i t.mem.micro = sget 0 i s.mem.micro := by
  obtain ⟨⟨hwf, -⟩, -⟩ := hok
  refine runs_storeWindow h hlo hhi hk (winWrite_micro hin hs hx hi hm v) ?_
  simp only [answer_mem, putMicro_micro _ _ _ _ hwf, List.length_singleton]
  refine ⟨?_, fun i hne => if_neg (by omega)⟩
  rw [if_pos (by omega), Nat.sub_self]
  rfl

theorem storeWindowWrite_nano {w : Who} {off : BitVec 20} {v : U32} {strb : BitVec 4} {s : State} {k : Nat}
    (h : MayWrite w off.toNat s) (hlo : 0x40000 ≤ off.toNat) (hhi : off.toNat < 0x80000)
    (hk : k = off.toNat / 4 * 4 - 0x40000) (hin : k < winSize (winOf s (agentOf s w)).space) (hs : strb ≠ 0)
    (hx : (winOf s (agentOf s w)).space = 1) (h7 : k / 4 % 8 ≠ 7) : Runs (.storeWindowWrite w off v strb) s fun t =>
      (∃ ws, (winOf t (agentOf s w)).staged = some (BitVec.ofNat 12 (k / 32), ws) ∧
        vget ws (k / 4 % 8) 0 = strobed (fd (nanoWord s (k / 32)) (32 * (k / 4 % 8)) 32) v strb) ∧ t.mem.nano = s.mem.nano := by
  refine runs_storeWindow h hlo hhi hk (winWrite_nano hin hs hx v) ?_
  rw [winOf_eq _ (answer_mem ..), answer_mem]
  exact stageNano_staged _ _ h7 (Nat.mod_lt _ (by decide)) v strb s

theorem storeWindowWrite_data {w : Who} {off : BitVec 20} {v : U32} {strb : BitVec 4} {s : State} {k a : Nat}
    (h : MayWrite w off.toNat s) (hok : s.ok) (hlo : 0x40000 ≤ off.toNat) (hhi : off.toNat < 0x80000)
    (hk : k = off.toNat / 4 * 4 - 0x40000) (hin : k < winSize (winOf s (agentOf s w)).space) (hs : strb ≠ 0)
    (hx : (winOf s (agentOf s w)).space = 2) (ha : a = (winOf s (agentOf s w)).page.toNat * 0x40000 + k)
    (hm : atMachine s (agentOf s w) = true ∨ ∀ q ∈ strobedBytes v strb, inExcTable s (a + q.1) 1 = false)
    (hb : partBad s a 4 = false) : Runs (.storeWindowWrite w off v strb) s fun t =>
      (∀ q ∈ strobedBytes v strb, memByte t.mem.data (a + q.1) = q.2) ∧
      ∀ b, (∀ q ∈ strobedBytes v strb, b ≠ a + q.1) → memByte t.mem.data b = memByte s.mem.data b := by
  obtain ⟨⟨-, -, hwf, -⟩, -⟩ := hok
  subst ha
  refine runs_storeWindow h hlo hhi hk (winWrite_data hin hs hx (by omega) v hm hb) ?_
  rw [answer_mem]
  exact ⟨storeBytes_at _ hwf (strobedBytes_places v strb), fun b hb => storeBytes_other _ s hb⟩

theorem refusedCommand {c : Instr} {w : Who} {off : Nat} {s : State} (h : regWritten c = some (w, off)) (hp : porLow s = false)
    (hr : writeRefused s w off = true) :
    Runs c s fun t => t = refuseWrite w s ∧ Only [.tur, .seq, .mem, .dbg, .due] s t ∧
      (w = .debugger → s.dbg.access = none → t.dbg.err = true ∧ t.dbg.cause = 3 ∧ t.seq = s.seq ∧ t.mem = s.mem) ∧
      (∀ n, w = .thread n → t = (if coreOff s = false ∧ (s.thr n).run = .ready ∧ (s.thr n).escal = none then takeFault n 3 0 s else s)) := by
  refine .of_exec (exec_refused h hp hr) ⟨rfl, refuseWrite_only .., ?_, ?_⟩
  · rintro rfl ha
    exact refuseWrite_debugger ha
  · rintro n rfl
    exact refuseWrite_thread n s

/-- Settles O34: a permitted write is what `busWrite` makes of it, register or window; a refused one is `refuseWrite`. -/
theorem registerAndWindowWrites : Obligations.RegisterAndWindowWrites := by
  unfold Obligations.RegisterAndWindowWrites
  refine ⟨fun off v strb s hc hlt => registerWrite_host off v strb hc hlt, fun w off v s h hlt => registerWrite_whole h hlt v, ?_,
    fun c w off s h hp hr => refusedCommand h hp hr⟩
  intro w off v strb s k h hok hlo hhi hk
  refine ⟨fun hn => runs_storeWindow h hlo hhi hk (winWrite_none hn v) rfl, fun hin hs => ⟨?_, ?_, ?_⟩⟩
  · exact storeWindowWrite_micro h hok hlo hhi hk hin hs
  · exact storeWindowWrite_nano h hlo hhi hk hin hs
  · exact fun a hx ha => storeWindowWrite_data h hok hlo hhi hk hin hs hx ha

end Sys2Proof.Machine
end

section
/-! The answer to a REGREQ where no route leads to its requester (R698, R730), and the refutation of O35. -/

namespace Sys2Proof.Machine

/-- A REGREQ that is there: the access is performed, and its REGRSP sets out to where it came from (R687, R726). -/
theorem regRequest_some {p : Nat} {s x : State} {f : Frame} {off : Nat} {wr : Option U32} {r : Resp × State}
    (hf : (s.port p).inbox.find? (isMgmt 5) = some f)
    (hx : x = s.modPort p (fun q => { q with inbox := (s.port p).inbox.erase f })) (ho : off = natLE (f.content.take 4) % 0x100000)
    (hw : wr = (if bit (lget f.content 4) 0 then some (ofLE 32 ((f.content.drop 5).take 4)) else none))
    (hr : memberAccess off wr (fd (lget f.content 4) 4 4) (bit (lget f.content 4) 1) x = r) :
    ∃ answer : Frame, answer.bc = false ∧ answer.dst = f.src ∧ regRequest p s = originate answer none r.2 := by
  subst hx ho hw hr
  unfold regRequest
  rw [takeFrame_some hf]
  exact ⟨_, rfl, rfl, rfl⟩

theorem rcSet_w1cSet (off : Nat) (b : U32) (f : U32 → U32) (s : State) : (rcSet off b f s).tur.w1cSet = s.tur.w1cSet := by
  unfold rcSet
  split
  · rfl
  · split <;> rfl

theorem hwSet_w1cSet (off : Nat) (bits : U32) {s : State} (h : s.clk.running = true) :
    (hwSet off bits s).tur.w1cSet = (off, bits) :: s.tur.w1cSet := by
  unfold hwSet
  rw [if_pos h]

/-- A frame for which there is no route is discarded: where the fast clock runs, NOROUTE is marked among the bits that hardware
has set in this fc (R12, R698, R730). -/
theorem originate_unrouted {f : Frame} {cmd : Option Nat} {s : State} (hv : s.link.valid = true) (hb : f.bc = false)
    (hd : f.dst ≠ s.link.node) (hr : routeOf s f.dst = none) (hc : s.clk.running = true) :
    (originate f cmd s).tur.w1cSet = (0x23030, 1#32 <<< 6) :: s.tur.w1cSet := by
  have he : originate f cmd s = dropFrame (netFlag true 6 { s with link := { s.link with noroute := true } }) := by
    unfold originate forward
    dsimp only
    rw [if_pos hv, hb, if_neg Bool.false_ne_true, if_neg hd, hr]
  have hn : netFlag true 6 { s with link := { s.link with noroute := true } } =
    hwSet 0x23030 (1#32 <<< 6) { s with link := { s.link with noroute := true } } := rfl
  rw [he, hn]
  unfold dropFrame
  rw [rcSet_w1cSet]
  exact hwSet_w1cSet _ _ hc

/-- A REGREQ of node 2 that reads the register at offset 0. -/
def strayRequest : Frame := { ftype := 6, vl := 0, dst := 1, src := 2, sub := 5, content := List.replicate 9 0 }

/-- A block with a node ID whose fast clock runs and whose tree has no port: the REGREQ of a node waits at its port 0. -/
def strayed : State :=
  { State.reset with
    clk := { running := true }
    link := { node := 1, valid := true, port := (Vector.replicate 4 {}).set 0 { inbox := [strayRequest] } } }

/-- The block as the access of that REGREQ finds it. -/
def strayTaken : State := strayed.modPort 0 (fun q => { q with inbox := [] })

/-- A read of offset 0 has no effect beside its answer. -/
theorem strayTaken_read (strb : BitVec 4) (inspect : Bool) : (memberAccess 0 none strb inspect strayTaken).2 = strayTaken := by
  have hc : coreOff strayTaken = false := by decide
  have ha : assigned 0 = true := by decide
  have he : regEffect .host 0 strayTaken = strayTaken := by
    unfold regEffect
    rw [ha]
    rfl
  unfold memberAccess
  rw [hc]
  exact (ite_congr rfl (fun _ => rfl) (fun _ => he)).trans (ite_self _)

/-- Refutes O35: no route leads back to the requester of `strayed`, so its REGRSP is discarded, and with it NOROUTE is marked
among what hardware has set in this fc: the Turnout's bookkeeping changes beside the link. -/
theorem not_groupAccesses : ¬ Obligations.GroupAccesses := by
  unfold Obligations.GroupAccesses
  rintro ⟨-, regreq, -⟩
  have hf : (strayed.port 0).inbox.find? (isMgmt 5) = some strayRequest := by decide
  have hx : strayTaken = strayed.modPort 0 (fun q => { q with inbox := (strayed.port 0).inbox.erase strayRequest }) := rfl
  have ho : 0 = natLE (strayRequest.content.take 4) % 0x100000 := by decide
  have hw : none = (if bit (lget strayRequest.content 4) 0 then
      some (ofLE 32 ((strayRequest.content.drop 5).take 4)) else (none : Option U32)) := by decide
  obtain ⟨⟨t, ht, hframe⟩, -⟩ := (regreq 0 strayed).2 strayRequest strayTaken 0 none _ hf hx ho hw rfl
  obtain ⟨a, hb, hd, ha⟩ := regRequest_some hf hx ho hw rfl
  rw [strayTaken_read] at hframe ha
  have hroute : routeOf strayTaken a.dst = none := by
    rw [hd]
    decide
  have hmarked := originate_unrouted (f := a) (cmd := none) (s := strayTaken) rfl hb (by rw [hd]; decide) hroute rfl
  have hsame : (regRequest 0 strayed).tur = strayTaken.tur := by
    cases ht
    exact hframe.tur
  rw [← ha, hsame] at hmarked
  exact List.cons_ne_self _ _ hmarked.symm

end Sys2Proof.Machine
end

section
/-! The fc edge with nothing due (R85, R452, R705, R744, R868): what the Gauge, the ledger and the discipline make of it before
the pins are sampled, what the timers and threads make of it after, and O47. -/

namespace Sys2Proof.Machine

/-- The state of an fc edge at which the Gauge has moved and the Rider pins have not taken their levels yet. -/
def edgeMoved (s : State) : State := applyTaps (gatesEdge (disciplineFc (gaugeStep (edgeEnd s))))

theorem disciplined_only (s : State) : Only [.clk, .ports, .lg, .link] s (disciplineFc (gaugeStep s)) :=
  .of' (.mono (gaugeStep_only s)) (.mono (disciplineFc_only _))

theorem disciplined_fc (s : State) : (disciplineFc (gaugeStep s)).clk.fc = s.clk.fc + 1 := rfl

theorem disciplined_rdrI (s : State) : (disciplineFc (gaugeStep s)).ports.rdrI = s.ports.rdrI := rfl

theorem gatedEdge_only (s : State) : Only [.tur, .gate, .shut, .link, .lg, .out] s (applyTaps (gatesEdge s)) :=
  .of' (.mono (gatesEdge_only s)) (.mono (applyTaps_only _))

/-- Neither a timer nor the debugger's freezes change before the pins are sampled. -/
theorem edgeMoved_only (s : State) :
    Only [.clk, .ports, .out, .tur, .gate, .shut, .rider, .hg, .seq, .mem, .link, .lg, .pwr] s (edgeMoved s) :=
  .of' (.mono (edgeEnd_keeps s).1) (.of' (.mono (disciplined_only _)) (.mono (gatedEdge_only _)))

theorem edgeMoved_fc (s : State) : (edgeMoved s).clk.fc = s.clk.fc + 1 := by
  obtain ⟨hend, -⟩ := edgeEnd_keeps s
  rw [edgeMoved, (gatedEdge_only _).clk, disciplined_fc, hend.clk]

theorem edgeMoved_rdrI (s : State) : (edgeMoved s).ports.rdrI = s.ports.rdrI := by
  obtain ⟨-, -, hpins, -⟩ := edgeEnd_keeps s
  rw [edgeMoved, (gatedEdge_only _).ports, disciplined_rdrI, hpins]

theorem edgeMoved_run (s : State) (n : Nat) : ((edgeMoved s).thr n).run = (s.thr n).run := by
  obtain ⟨-, -, -, hthreads, -⟩ := edgeEnd_keeps s
  rw [edgeMoved, thr_eq n (gatedEdge_only _).seq, thr_eq n (disciplined_only _).seq, (hthreads n).1]

/-- With every gate off the ledger and the link stand as the Gauge and its discipline left them. -/
theorem edgeMoved_gatesOff {s : State} (h : ∀ k : Fin 8, (s.getGate k.val).en = false) :
    (edgeMoved s).lg = (gaugeStep (edgeEnd s)).lg ∧ (edgeMoved s).link = (disciplineFc (gaugeStep (edgeEnd s))).link := by
  obtain ⟨-, -, -, -, hgates⟩ := edgeEnd_keeps s
  have hoff : ∀ k : Fin 8, ((disciplineFc (gaugeStep (edgeEnd s))).getGate k.val).en = false := fun k => by
    rw [State.getGate, (disciplined_only _).gate]
    exact (hgates k).trans (h k)
  have hgated : Only [.gate, .out] (disciplineFc (gaugeStep (edgeEnd s))) (edgeMoved s) :=
    .of' (.mono (gatesEdge_off hoff)) (.mono (applyTaps_only _))
  exact ⟨hgated.lg.trans (disciplineFc_only _).lg, hgated.link⟩

/-- The ledger counts the multiples of 2^27 that the Gauge passes (R744). -/
theorem edgeMoved_lg {s : State} (hg : ∀ k : Fin 8, (s.getGate k.val).en = false) (hf : lgFrozen s = false) :
    (edgeMoved s).lg = { s.lg with ticks := s.lg.ticks +
      ((s.clk.gauge + s.clk.adv.zeroExtend 64).toNat / 2 ^ 27 + 2 ^ 37 - s.clk.gauge.toNat / 2 ^ 27) % 2 ^ 37 } := by
  obtain ⟨hend, -⟩ := edgeEnd_keeps s
  have hf' : lgFrozen (edgeEnd s) = false := by
    rw [lgFrozen, hend.dbg]
    exact hf
  rw [(edgeMoved_gatesOff hg).1, gaugeStep_lg hf', hend.lg, hend.clk]

/-- The correction of an fc: freq goes into the fraction and a pending count moves one towards 0 (R705). -/
theorem edgeMoved_link {s : State} (hg : ∀ k : Fin 8, (s.getGate k.val).en = false) (h1 : s.link.trapen = false)
    (h2 : s.link.grpen = false) :
    (edgeMoved s).link.frac = BitVec.ofInt 32 (s.link.frac.toNat + s.link.freq.toInt) ∧ (edgeMoved s).link.freq = s.link.freq ∧
    (s.link.pend ≠ 0 → (edgeMoved s).link.pend = s.link.pend - BitVec.ofInt 64 (signOf s.link.pend.toInt)) := by
  obtain ⟨-, hlink, -⟩ := edgeEnd_keeps s
  have hs : (gaugeStep (edgeEnd s)).link = s.link := (gaugeStep_only _).link.trans (hlink h1 h2)
  rw [(edgeMoved_gatesOff hg).2, ← hs]
  exact disciplineFc_link _

/-! ## From the pins on -/

/-- What the edge does once the pins take the levels `r`, with nothing due. -/
def edgeSampled (r : U64) (slot : BitVec 5) (s : State) : State := threadsStep (riderEdge slot (pinsAndTimers r s))

theorem edgeSampled_only (r : U64) (slot : BitVec 5) (s : State) :
    Only [.ports, .tur, .tmr, .out, .rider, .seq, .mem] s (edgeSampled r slot s) :=
  .of' (.mono (pinsAndTimers_only r s)) (.of' (.mono (riderEdge_only ..)) (.mono (threadsStep_only _)))

theorem edgeSampled_pins (r : U64) (slot : BitVec 5) (s : State) :
    (edgeSampled r slot s).ports.rdrI = r ∧ (edgeSampled r slot s).ports.rdrIPrev = s.ports.rdrI := by
  rw [edgeSampled, (threadsStep_only _).ports, (riderEdge_only ..).ports]
  exact pinsAndTimers_ports r s

theorem edgeSampled_timer (r : U64) (slot : BitVec 5) {s : State} {n : Fin 32} (hf : tmrFrozen s = false)
    (hc : (s.timer n.val).capLate = none) : (edgeSampled r slot s).timer n = timerEdge s.ports.rdrI r (s.timer n) := by
  rw [edgeSampled, timer_eq n (threadsStep_only _).tmr, timer_eq n (riderEdge_only ..).tmr]
  exact pinsAndTimers_timer r s n hf hc

theorem edgeSampled_until (r : U64) (slot : BitVec 5) {s : State} {n : Fin 16} {f : Nat}
    (h : (s.thr n.val).run = .parked (.until f)) :
    ((edgeSampled r slot s).thr n).run = (if f ≤ s.clk.fc then .ready else .parked (.until f)) := by
  have hbefore : Only [.ports, .tur, .tmr, .out, .rider] s (riderEdge slot (pinsAndTimers r s)) :=
    .of' (.mono (pinsAndTimers_only r s)) (.mono (riderEdge_only ..))
  rw [← thr_eq n.val hbefore.seq] at h
  rw [edgeSampled, threadsStep_until n.isLt h, hbefore.clk]

/-! ## GAUGE_ADVANCE -/

theorem exec_gaugeAdvance_stopped {r : U64} {s : State} (h : s.clk.running = false ∨ s.bist.phase ≠ .idle) :
    exec (.gaugeAdvance r) s = .next s := by
  refine congrArg Host.Outcome.next (if_neg fun hgo => ?_)
  obtain ⟨hrun, hidle⟩ := (Bool.and_eq_true _ _).mp hgo
  rcases h with h | h
  · rw [h] at hrun
    cases hrun
  · exact h (of_decide_eq_true hidle)

theorem exec_gaugeAdvance_running {r : U64} {s : State} (h1 : s.clk.running = true) (h2 : s.bist.phase = .idle) :
    exec (.gaugeAdvance r) s = .next (gaugeAdvance r s) :=
  congrArg Host.Outcome.next (if_pos (by rw [h1, h2]; rfl))

/-- Settles O47: an fc edge with nothing due is `edgeMoved` and then `edgeSampled`, and each part of the state that the
statement speaks of is set by one of the two. -/
theorem gaugeAdvances : Obligations.GaugeAdvances := by
  unfold Obligations.GaugeAdvances
  refine ⟨fun r s => ⟨fun h => .of_exec (exec_gaugeAdvance_stopped h) rfl,
    fun hrun hidle => .of_exec (exec_gaugeAdvance_running hrun hidle) (gaugeAdvance_clk r s)⟩, ?_⟩
  intro r s hrun hidle hdue hshut hrelease hstart horigin hgates hblocked
  have hquiet : gaugeAdvance r s = edgeSampled r (slotNow s) (edgeMoved s) :=
    gaugeAdvance_quiet r s hdue hshut hrelease hstart horigin hgates hblocked
  refine .of_exec (exec_gaugeAdvance_running hrun hidle) ?_
  rw [hquiet]
  have hmoved := edgeMoved_only s
  have hsampled := edgeSampled_only r (slotNow s) (edgeMoved s)
  obtain ⟨hpins, hpinsPrev⟩ := edgeSampled_pins r (slotNow s) (edgeMoved s)
  refine ⟨hpins, hpinsPrev.trans (edgeMoved_rdrI s), fun hf => hsampled.lg.trans (edgeMoved_lg hgates hf), fun h1 h2 => ?_,
    fun n hf h1 h2 h3 hc => ?_, fun n f h => ?_⟩
  · rw [hsampled.link]
    exact edgeMoved_link hgates h1 h2
  · have ht : (edgeMoved s).timer n = s.timer n := timer_eq n hmoved.tmr
    have hf' : tmrFrozen (edgeMoved s) = false := by
      rw [tmrFrozen, hmoved.dbg]
      exact hf
    rw [edgeSampled_timer r _ hf' (by rw [ht]; exact hc), ht]
    exact timerEdge_plain h1 h2 h3
  · rw [edgeSampled_until r _ ((edgeMoved_run s n).trans h), edgeMoved_fc]

end Sys2Proof.Machine
end

section
/-! Permitted register-write commands and events of CORE (R361, R830), the requests of a warm reset (R76, R819, R821, R430),
and O2. -/

namespace Sys2Proof.Machine

/-! ## Commands that are made -/

/-- A permitted write of a CORE register that ends well is answered, and leaves what the write leaves. -/
theorem exec_write {c : Instr} {w : Who} {off : Nat} {s e : State} (hx : exec c s = .next (regCommand w off (e, {}) s))
    (h : MayWrite w off s) : exec c s = .next (answer e w {}) := by
  rw [hx, regCommand_allowed h, writeAnswer_okay]

/-- A write that leaves its register as it was is only answered. -/
theorem exec_writeSame {c : Instr} {w : Who} {off : Nat} {s e : State} (hx : exec c s = .next (regCommand w off (e, {}) s))
    (h : MayWrite w off s) (he : e = s) : exec c s = .next (answer s w {}) := by
  subst he
  exact exec_write hx h

/-- A permitted write of an AO register that ends well. -/
theorem exec_writeAo {c : Instr} {w : Who} {off : Nat} {s e : State} (hx : exec c s = .next (aoCommand w off (e, {}) s))
    (h : MayWriteAo w off s) : exec c s = .next (answer e w {}) := by
  rw [hx, aoCommand_allowed h, writeAnswer_okay]

/-- An event of CORE logic while CORE is on. -/
theorem exec_event {c : Instr} {s e : State} (hx : exec c s = .next (inCore s e)) (h : coreOff s = false) :
    exec c s = .next e := by
  rw [hx, inCore_on h]

theorem answer_outlet (s : State) (w : Who) (r : Resp) (n : Nat) : (answer s w r).outlet n = s.outlet n :=
  outlet_eq n (answer_out ..)

theorem SrcRaised.answered {i : Nat} {s : State} (h : SrcRaised i s) (w : Who) (r : Resp) : SrcRaised i (answer s w r) :=
  h.congr (answer_tur ..)

/-! ## Requests of a warm reset -/

theorem requestReset_on (b : Nat) {s : State} (h : porLow s = false) :
    requestReset b s = { s with pwr := { s.pwr with rstReq := setBit s.pwr.rstReq b true } } :=
  if_neg (by rw [h]; exact Bool.false_ne_true)

/-- RSTCTL stores LINKEN, and WARM with its key requests a reset (R819, R834). -/
theorem writeRstctl_pwr (v : U32) {s : State} (h : porLow s = false) : (writeRstctl v s).pwr = { s.pwr with
    linken := bit v 1
    rstReq := if bit v 0 = true ∧ fd v 16 16 = (0x5AA5 : BitVec 16) then setBit s.pwr.rstReq 2 true else s.pwr.rstReq } := by
  unfold writeRstctl
  dsimp only
  by_cases hk : bit v 0 = true ∧ fd v 16 16 = (0x5AA5 : BitVec 16)
  · rw [if_pos (by simpa using hk), if_pos hk]
    exact congrArg State.pwr (requestReset_on 2 (s := { s with pwr := { s.pwr with linken := bit v 1 } }) h)
  · rw [if_neg (by simpa using hk), if_neg hk]

theorem exec_pllLoss {s : State} (hl : s.pwr.plllock = true) (ha : awake s = true) :
    exec .pllLoss s = .next (raise 417 (hwSet 0x1004 0x20
      { s with pwr := { s.pwr with plllock := false, pllloss := true, pllDue := true } })) :=
  congrArg Host.Outcome.next (if_pos (by rw [hl, ha]; rfl))

theorem exec_pllLossResetRequest {s : State} (h : porLow s = false) (hd : s.pwr.pllDue = true) :
    exec .pllLossResetRequest s =
      .next { s with pwr := { s.pwr with pllDue := false, rstReq := setBit s.pwr.rstReq 5 true } } :=
  congrArg Host.Outcome.next ((if_pos hd).trans (requestReset_on 5 h))

theorem exec_watchdogResetRequest {s : State} {f : Nat} (hc : coreOff s = false) (hr : s.wdog.resetAt = some f)
    (hf : f ≤ s.clk.fc) : exec .watchdogResetRequest s =
      .next { s with
        wdog := { s.wdog with resetAt := none }
        pwr := { s.pwr with rstReq := setBit s.pwr.rstReq 3 true } } := by
  rw [exec_event rfl hc, hr]
  exact congrArg Host.Outcome.next ((if_pos hf).trans (requestReset_on 3 (porLow_of_coreOn hc)))

/-- Settles O2: every source ends in `requestReset` with its own bit, which sets that bit while por_n is high. -/
theorem resetRequests : Obligations.ResetRequests := by
  unfold Obligations.ResetRequests
  refine ⟨fun s h => congrArg Host.Outcome.next (requestReset_on 1 h), fun w v s h => .of_exec (exec_writeAo rfl h) ?_,
    fun s hl ha => .of_exec (exec_pllLoss hl ha) ⟨?_, raise_raised ..⟩, fun s h hd => exec_pllLossResetRequest h hd,
    fun s f hc hr hf => exec_watchdogResetRequest hc hr hf⟩
  · rw [answer_pwr, writeRstctl_pwr v h.1]
  · rw [raise_pwr, hwSet_pwr]

end Sys2Proof.Machine
end

section
/-! Trip and shut inputs, SHUTREQ and REARM (R53-R57, R413-R415, R422), and O6. -/

namespace Sys2Proof.Machine

/-! ## Inputs (R53-R57) -/

theorem exec_tripInputChange {m : Fin 64} {b : Bool} {s : State} (hc : coreOff s = false) (hb : bit s.ports.trip m ≠ b) :
    exec (.tripInputChange m b) s = .next (raiseData (32 + m) (pk [(0, b1 b)])
      { s with ports := { s.ports with trip := setBit s.ports.trip m b } }) :=
  (exec_event rfl hc).trans (congrArg Host.Outcome.next (if_pos (bne_iff_ne.mpr hb)))

/-- A source that asserts has a shut active; where none was, it is FIRST and the shut is an event (R415). -/
theorem shutAssert_has (b : Nat) (loc : Bool) (s : State) : (shutAssert b loc s).shut.active = true ∧
    (s.shut.active = false → (shutAssert b loc s).shut.first = BitVec.ofNat 5 b ∧ SrcRaised 426 (shutAssert b loc s)) := by
  refine ⟨shutAssert_active .., fun h => ?_⟩
  obtain ⟨hshut, hraised⟩ := shutAssert_begin b loc h
  exact ⟨by rw [hshut], hraised⟩

/-! ## SHUTREQ (R414) -/

theorem bit_orOne (v : U32) : bit (v ||| 1) 0 = true := by
  rw [bit_or]
  exact Bool.or_true _

theorem bit_andNotOne (v : U32) : bit (v &&& ~~~1) 0 = false := by
  rw [bit_andNot _ _ (by decide)]
  exact Bool.and_false _

theorem fd_andNotOne (v : U32) : (fd (v &&& ~~~1) 16 16 : BitVec 16) = fd v 16 16 := fd_andNot (by decide) (by decide)

theorem writeShutreq_rise (v : U32) {s : State} (h : s.shut.req = false) :
    writeShutreq (v ||| 1) s = shutAssert 1 true { s with shut := { s.shut with req := true } } := by
  unfold writeShutreq
  rw [if_pos (bit_orOne v), h]
  rfl

theorem writeShutreq_again (v : U32) {s : State} (h : s.shut.req = true) : writeShutreq (v ||| 1) s = s := by
  unfold writeShutreq
  rw [if_pos (bit_orOne v), h]
  exact congrArg (fun q => { s with shut := { s.shut with req := q } }) h.symm

theorem writeShutreq_clear (v : U32) (s : State) : (writeShutreq (v &&& ~~~1) s).shut =
    { s.shut with req := if fd v 16 16 = (0xA55A : BitVec 16) then false else s.shut.req } := by
  unfold writeShutreq
  rw [bit_andNotOne, if_neg Bool.false_ne_true, fd_andNotOne]
  split <;> rfl

/-! ## REARM (R422) -/

theorem exec_shutctlRearm {w : Who} {v : U32} {s : State} (h : MayWrite w 0xE40C s) (hm : atMachine s (agentOf s w) = true)
    (hv : bit v 0 = true) : exec (.shutctlRearm w v) s = .next (answer (rearm s) w {}) := by
  have hw : shutWrite (agentOf s w) 0x0C v s = (rearm s, {}) :=
    (if_pos hm).trans (congrArg (fun t : State => (t, ({} : Resp))) (if_pos hv))
  exact exec_write (congrArg (fun r => Host.Outcome.next (regCommand w 0xE40C r s)) hw) h

/-- The gates once a REARM has restarted those that are enabled with RAR. -/
def State.rearmedGates (s : State) : Vector Gate 8 :=
  vmap s.gate (fun _ g => if g.en && g.rar then { g with restart := true } else g)

/-- The shut registers of a shut that is to be released: latched sources that assert in this fc are kept. -/
def State.releasingShut (s : State) : Shut :=
  { s.shut with
    link := s.shut.link && s.shut.linkAt = s.clk.fc + 1, wdog := s.shut.wdog && s.shut.wdogAt = s.clk.fc + 1
    releaseAt := some (max (s.clk.fc + 1) (s.shut.sAt + 2)) }

theorem rearm_active {s : State} (ha : s.shut.active = true) :
    rearm s = if levelSources { s with gate := s.rearmedGates } = 0 then
      { s with gate := s.rearmedGates, shut := s.releasingShut }
    else raise 428 (hwSet 0xE408 2 { s with gate := s.rearmedGates, shut := { s.shut with rfail := true } }) := by
  unfold rearm
  rw [ha]
  rfl

/-- A REARM of an active shut restarts gates, and then has the shut released or fails. -/
theorem rearm_leaves {s : State} (ha : s.shut.active = true) : (rearm s).gate = s.rearmedGates ∧
    (levelSources { s with gate := s.rearmedGates } = 0 → (rearm s).shut = s.releasingShut) ∧
    (levelSources { s with gate := s.rearmedGates } ≠ 0 →
      (rearm s).shut = { s.shut with rfail := true } ∧ SrcRaised 428 (rearm s)) := by
  rw [rearm_active ha]
  by_cases hl : levelSources { s with gate := s.rearmedGates } = 0
  · rw [if_pos hl]
    exact ⟨rfl, fun _ => rfl, fun hn => absurd hl hn⟩
  · rw [if_neg hl]
    refine ⟨?_, fun h0 => absurd h0 hl, fun _ => ⟨?_, raise_raised ..⟩⟩
    · rw [raise_gate, hwSet_gate]
    · rw [raise_shut, hwSet_shut]

/-! ## O6, part by part -/

theorem shutInputChange_runs (b : Bool) {s : State} (hc : coreOff s = false) : Runs (.shutInputChange b) s fun t =>
    t.ports.shutI = b ∧ (b = true → s.ports.shutI = false →
      t.shut.active = true ∧ (s.shut.active = false → t.shut.first = 0 ∧ SrcRaised 426 t)) := by
  refine .of_exec (exec_event rfl hc) ⟨by rw [(shutAssertIf_only ..).ports], ?_⟩
  rintro rfl hlow
  rw [hlow]
  exact shutAssert_has 0 true { s with ports := { s.ports with shutI := true } }

theorem shutreqSet_runs {w : Who} (v : U32) {s : State} (h : MayWrite w 0xE400 s) (hr : s.shut.req = false) :
    Runs (.shutreqSet w v) s fun t =>
      t.shut.req = true ∧ t.shut.active = true ∧ (s.shut.active = false → t.shut.first = 1 ∧ SrcRaised 426 t) := by
  refine .of_exec (exec_write rfl h) ?_
  rw [writeShutreq_rise v hr, answer_shut]
  obtain ⟨hactive, hfirst⟩ := shutAssert_has 1 true { s with shut := { s.shut with req := true } }
  refine ⟨shutAssert_req .., hactive, fun ha => ?_⟩
  obtain ⟨hone, hraised⟩ := hfirst ha
  exact ⟨hone, hraised.answered ..⟩

theorem shutctlRearm_runs {w : Who} {v : U32} {s : State} (h : MayWrite w 0xE40C s) (hm : atMachine s (agentOf s w) = true)
    (hv : bit v 0 = true) (ha : s.shut.active = true) : Runs (.shutctlRearm w v) s fun t => t.gate = s.rearmedGates ∧
      (levelSources { s with gate := s.rearmedGates } = 0 → t.shut = s.releasingShut) ∧
      (levelSources { s with gate := s.rearmedGates } ≠ 0 → t.shut = { s.shut with rfail := true } ∧ SrcRaised 428 t) := by
  obtain ⟨hgate, hrelease, hfail⟩ := rearm_leaves ha
  refine .of_exec (exec_shutctlRearm h hm hv) ?_
  rw [answer_gate, answer_shut]
  refine ⟨hgate, hrelease, fun hl => ?_⟩
  obtain ⟨hshut, hraised⟩ := hfail hl
  exact ⟨hshut, hraised.answered ..⟩

/-- Settles O6: the inputs and SHUTREQ assert their shut source (`shutAssert_has`), and a REARM is `rearm_leaves`. -/
theorem inputsAndShut : Obligations.InputsAndShut := by
  unfold Obligations.InputsAndShut
  refine ⟨fun m b s hc hb => .of_exec (exec_tripInputChange hc hb) ⟨?_, raiseData_raised ..⟩,
    fun b s hc => shutInputChange_runs b hc, fun w v s h hr => shutreqSet_runs v h hr,
    fun w v s h hr => exec_writeSame rfl h (writeShutreq_again v hr), fun w v s h => .of_exec (exec_write rfl h) ?_, ?_⟩
  · rw [raiseData_ports]
  · rw [answer_shut, writeShutreq_clear]
  · rintro w v s _ h hm hv ha rfl
    exact shutctlRearm_runs h hm hv ha

end Sys2Proof.Machine
end

section
/-! The fields of OUT[n].CTL, the rise of out_oe_o and the calibration of the delay lines (R62, R120-R125, R131, R135), and O17. -/

namespace Sys2Proof.Machine

/-! ## OWNER (R122, R123, R125) -/

theorem writeOwner_free {n : Nat} {v : BitVec 2} {s : State} (hv : v ≠ 3) (hc : (s.outlet (lead s n)).claimAt ≠ s.clk.fc + 1) :
    writeOwner n v s = s.modOut n (fun o => { o with ownerNext := if v = o.owner then none else some v }) :=
  if_neg (by simpa [hc] using hv)

/-- A claim of this fc outlives a write of OWNER (log entry 15). -/
theorem writeOwner_claimed {n : Nat} {s : State} (v : BitVec 2) (hc : (s.outlet (lead s n)).claimAt = s.clk.fc + 1) :
    writeOwner n v s = s :=
  if_pos (by simp [hc])

theorem writeOwner_three (n : Nat) (s : State) : writeOwner n 3 s = s :=
  if_pos (by simp)

/-! ## LVL (R121, R122, R124, R125) -/

/-- The outlet with a level that drives from the next fc (log entry 34). -/
def Outlet.newLevel (o : Outlet) (s : State) (v : Bool) : Outlet :=
  { o with lvl := v, lvlOld := lvlNow s o, lvlAt := s.clk.fc + 1 }

theorem writeLvl_same (n : Nat) (s : State) : writeLvl n (s.outlet n).lvl s = s := if_pos rfl

theorem writeLvl_changed {n : Nat} {v : Bool} {s : State} (h : v ≠ (s.outlet n).lvl) :
    writeLvl n v s = outFlagIf (ownerOf s n != 0) n 3 (s.modOut n (·.newLevel s v)) := if_neg h

theorem writeLvl_owner {n : Nat} {v : Bool} {s : State} (hn : n < 96) (h : v ≠ (s.outlet n).lvl) (ho : ownerOf s n = 0) :
    (writeLvl n v s).outlet n = (s.outlet n).newLevel s v := by
  rw [writeLvl_changed h, ho]
  exact State.outlet_modOut _ _ hn

/-- Where another owner has the outlet a changed LVL is a conflict (R125, R129). -/
theorem writeLvl_conflict {n : Nat} {v : Bool} {s : State} (hn : n < 96) (h : v ≠ (s.outlet n).lvl) (ho : ownerOf s n ≠ 0) :
    (writeLvl n v s).outlet n = { (s.outlet n).newLevel s v with stat := setBit (s.outlet n).stat 3 true } ∧
    (bit (s.outlet n).stat 3 = false → SrcRaised (160 + n / 2) (writeLvl n v s)) := by
  have hl : (s.modOut n (·.newLevel s v)).outlet n = (s.outlet n).newLevel s v := State.outlet_modOut _ _ hn
  have hw : writeLvl n v s = outFlag n 3 (s.modOut n (·.newLevel s v)) :=
    (writeLvl_changed h).trans (if_pos (bne_iff_ne.mpr ho))
  rw [hw]
  refine ⟨?_, fun hb => outFlag_raised ?_⟩
  · rw [outFlag_outlet hn, hl]
    rfl
  · rw [hl]
    exact hb

/-! ## OEN (R80, R131) -/

/-- The outlet with a written OEN: an enable counts only from READY on (R80, log entry 34). -/
def Outlet.newEnable (o : Outlet) (s : State) (v : Bool) : Outlet :=
  { o with
    oen := v, oenAt := if v && !o.oen then s.clk.fc + 1 else o.oenAt
    oenLive := v && (o.oenLive || s.ports.live) }

theorem writeOen_outlet {n : Nat} (hn : n < 96) (v : Bool) (s : State) :
    (writeOen n v s).outlet n = (s.outlet n).newEnable s v := by
  unfold writeOen
  dsimp only
  split
  · rw [outlet_eq n (schedule_only ..).out]
    exact State.outlet_modOut _ _ hn
  · exact State.outlet_modOut _ _ hn

/-- The clearing of OEN lowers out_oe_o at the next fc edge. -/
theorem writeOen_clear {n : Nat} {s : State} (h : (s.outlet n).oen = true) :
    { at_ := s.clk.fc + 1, rank := 90, act := .oeLower (BitVec.ofNat 7 n) } ∈ (writeOen n false s).due := by
  unfold writeOen
  dsimp only
  rw [h]
  exact mem_schedule ..

/-! ## PAIR (R120) -/

theorem writePair_ignored {n : Nat} {v : Bool} {s : State} (h : n % 2 = 1 ∨ v = (s.outlet n).pair) : writePair n v s = s :=
  if_pos (by simpa using h)

theorem writePair_taken {n : Nat} {v : Bool} {s : State} (he : n % 2 = 0) (hv : v ≠ (s.outlet n).pair) (h0 : outIdle s n = true)
    (h1 : outIdle s (n + 1) = true) : writePair n v s = s.modOut n (fun o => { o with pair := v }) := by
  unfold writePair
  rw [if_neg (by simp [he, hv]), if_pos (by rw [h0, h1]; rfl)]

theorem writePair_busy {n : Nat} {v : Bool} {s : State} (he : n % 2 = 0) (hv : v ≠ (s.outlet n).pair)
    (h : outIdle s n = false ∨ outIdle s (n + 1) = false) : writePair n v s = outFlag n 5 s := by
  unfold writePair
  rw [if_neg (by simp [he, hv]), if_neg]
  rcases h with h | h <;> simp [h]

/-! ## out_oe_o and the calibration (R62, R131, R135) -/

theorem exec_outputEnableRaise {n : Fin 96} {s : State} (hc : coreOff s = false) (h : mayRaise s n = true) :
    exec (.outputEnableRaise n) s = .next (s.modOut n fun o => { o with oe := true }) :=
  (exec_event rfl hc).trans (congrArg Host.Outcome.next (if_pos h))

theorem exec_calibrationUpdate {r : BitVec 8} {e : Bool} {s : State} (hc : coreOff s = false) (hl : s.pwr.plllock = true) :
    exec (.calibrationUpdate r e) s = .next (applyTaps (hwSetIf e 0x8C00 2
      { s with outcal := { valid := true, trkerr := s.outcal.trkerr || e, rawtap := r } })) :=
  (exec_event rfl hc).trans (congrArg Host.Outcome.next (if_pos hl))

theorem applyTaps_outlet {n : Nat} (hn : n < 96) (s : State) : (applyTaps s).outlet n =
    if (s.outlet n).line.isEmpty then { s.outlet n with tap := s.outcal.rawtap } else s.outlet n :=
  vget_vmap _ hn _ _ _

/-! ## O17, part by part -/

theorem ownerWrite_runs {w : Who} {n : Fin 96} {v : BitVec 2} {s : State} (h : MayWrite w (0x8000 + 0x20 * n.val) s) (hv : v ≠ 3)
    (hc : (s.outlet (lead s n)).claimAt ≠ s.clk.fc + 1) : Runs (.ownerWrite w n v) s fun t =>
      t.outlet n = { s.outlet n with ownerNext := if v = (s.outlet n).owner then none else some v } ∧
      ∀ m, m ≠ n.val → t.outlet m = s.outlet m := by
  refine .of_exec (exec_write rfl h) ?_
  rw [writeOwner_free hv hc]
  simp only [answer_outlet]
  exact ⟨State.outlet_modOut _ _ n.isLt, fun m hm => State.outlet_modOut_other _ _ hm⟩

theorem staticLevelWrite_runs {w : Who} {n : Fin 96} {v : Bool} {s : State} (h : MayWrite w (0x8000 + 0x20 * n.val) s)
    (hv : v ≠ (s.outlet n).lvl) : Runs (.staticLevelWrite w n v) s fun t =>
      (ownerOf s n = 0 → t.outlet n = (s.outlet n).newLevel s v) ∧
      (ownerOf s n ≠ 0 → t.outlet n = { (s.outlet n).newLevel s v with stat := setBit (s.outlet n).stat 3 true } ∧
        (bit (s.outlet n).stat 3 = false → SrcRaised (160 + n / 2) t)) := by
  refine .of_exec (exec_write rfl h) ?_
  rw [answer_outlet]
  refine ⟨writeLvl_owner n.isLt hv, fun ho => ?_⟩
  obtain ⟨hout, hraised⟩ := writeLvl_conflict n.isLt hv ho
  exact ⟨hout, fun hb => (hraised hb).answered ..⟩

theorem outputEnableWrite_runs {w : Who} {n : Fin 96} (v : Bool) {s : State} (h : MayWrite w (0x8000 + 0x20 * n.val) s) :
    Runs (.outputEnableWrite w n v) s fun t =>
      t.outlet n = (s.outlet n).newEnable s v ∧ ((s.outlet n).oen = true → v = false →
        { at_ := s.clk.fc + 1, rank := 90, act := .oeLower (BitVec.ofNat 7 n) } ∈ t.due) := by
  refine .of_exec (exec_write rfl h) ?_
  rw [answer_outlet, answer_due]
  refine ⟨writeOen_outlet n.isLt v s, ?_⟩
  rintro ho rfl
  exact writeOen_clear ho

theorem pairWrite_runs {w : Who} {n : Fin 96} {v : Bool} {s : State} (h : MayWrite w (0x8000 + 0x20 * n.val) s)
    (he : n.val % 2 = 0) (hv : v ≠ (s.outlet n).pair) : Runs (.pairWrite w n v) s fun t =>
      (outIdle s n = true → outIdle s (n + 1) = true → t.outlet n = { s.outlet n with pair := v }) ∧
      ((outIdle s n = false ∨ outIdle s (n + 1) = false) →
        t.outlet n = { s.outlet n with stat := setBit (s.outlet n).stat 5 true } ∧
        (bit (s.outlet n).stat 5 = false → SrcRaised (160 + n / 2) t)) := by
  refine .of_exec (exec_write rfl h) ?_
  rw [answer_outlet]
  refine ⟨fun h0 h1 => ?_, fun hb => ?_⟩
  · rw [writePair_taken he hv h0 h1, State.outlet_modOut _ _ n.isLt]
  · rw [writePair_busy he hv hb]
    exact ⟨outFlag_outlet n.isLt 5 s, fun hf => (outFlag_raised hf).answered ..⟩

theorem calibrationUpdate_runs (r : BitVec 8) (e : Bool) {s : State} (hc : coreOff s = false) (hl : s.pwr.plllock = true) :
    Runs (.calibrationUpdate r e) s fun t =>
      t.outcal = { valid := true, trkerr := s.outcal.trkerr || e, rawtap := r } ∧
      ∀ n : Fin 96, t.outlet n = if (s.outlet n).line.isEmpty then { s.outlet n with tap := r } else s.outlet n := by
  refine .of_exec (exec_calibrationUpdate hc hl) ⟨?_, fun n => ?_⟩
  · rw [(applyTaps_only _).outcal, hwSetIf_outcal]
  · rw [applyTaps_outlet n.isLt, hwSetIf_outlet, hwSetIf_outcal]
    rfl

/-- Settles O17: each field of CTL by the lemmas of its write, out_oe_o by `mayRaise`, and a calibration by `applyTaps`. -/
theorem outletRegisters : Obligations.OutletRegisters := by
  unfold Obligations.OutletRegisters
  refine ⟨fun w n v s h hv hc => ownerWrite_runs h hv hc, fun w n v s h hv => staticLevelWrite_runs h hv,
    fun w n v s h => outputEnableWrite_runs v h, fun w n s h => ⟨fun hc v => ?_, ?_, ?_, fun v hv => ?_⟩,
    fun n s hc hoen hlive hoe hpad hat hedge => exec_outputEnableRaise hc ?_, fun w n v s h he hv => pairWrite_runs h he hv,
    fun r e s hc hl => calibrationUpdate_runs r e hc hl⟩
  · exact exec_writeSame rfl h (writeOwner_claimed v hc)
  · exact exec_writeSame rfl h (writeOwner_three n s)
  · exact exec_writeSame rfl h (writeLvl_same n s)
  · exact exec_writeSame rfl h (writePair_ignored hv)
  · simp [mayRaise, hoen, hlive, hoe, hpad, hat, hedge]

end Sys2Proof.Machine
end

section
/-! Posts, moves, retirements and flushes of an edge queue (R96-R98, R104, R105, R107, R108, R123, R903), and O16. -/

namespace Sys2Proof.Machine

/-! ## A change of one outlet -/

/-- A field that a change keeps is kept in every outlet. -/
theorem State.outlet_modOut_field {α : Type} (g : Outlet → α) {f : Outlet → Outlet} (h : ∀ o, g (f o) = g o) {n : Nat}
    (hn : n < 96) (m : Nat) (s : State) : g ((s.modOut n f).outlet m) = g (s.outlet m) := by
  by_cases e : m = n
  · rw [e, State.outlet_modOut _ _ hn, h]
  · rw [State.outlet_modOut_other _ _ e]

/-- A flag of an outlet keeps every field but STAT of every outlet. -/
theorem outFlag_field {α : Type} (g : Outlet → α) (h : ∀ o v, g { o with stat := v } = g o) {n : Nat} (hn : n < 96) (b m : Nat)
    (s : State) : g ((outFlag n b s).outlet m) = g (s.outlet m) := by
  by_cases e : m = n
  · rw [e, outFlag_outlet hn, h]
  · rw [outFlag_other e]

theorem bit_setBit_self {w i : Nat} (v : BitVec w) (h : i < w) : bit (setBit v i true) i = true := by
  simp [bit, setBit, h]

theorem bit_setBit_keeps {w i j : Nat} {v : BitVec w} (h : bit v j = true) : bit (setBit v i true) j = true := by
  unfold bit at h
  simp [bit, setBit, h]

/-! ## The outlets of a pair (R114) -/

theorem odd_of_isComplement {s : State} {n : Nat} (h : isComplement s n = true) : n % 2 = 1 :=
  of_decide_eq_true (Bool.and_eq_true_iff.mp h).1

theorem even_of_isPrimary {s : State} {n : Nat} (h : isPrimary s n = true) : n % 2 = 0 :=
  of_decide_eq_true (Bool.and_eq_true_iff.mp h).1

/-- A pair has one complement and one primary. -/
theorem isPrimary_of_isComplement {s : State} {n : Nat} (h : isComplement s n = true) : isPrimary s n = false := by
  have hodd := odd_of_isComplement h
  simp [isPrimary, hodd]

/-! ## Staging and posting (R97, R98, R118, R419, R868) -/

/-- The post of both words that a write of POSTH makes (R97). -/
theorem writePosth_posts (ag : Agent) (n : Nat) (v : U32) (s : State) : writePosth ag n v s =
    post ag n (fd v 8 2) ((fd v 0 8 : Byte) ++ vget (s.outlet n).postl ag.postl 0) s := rfl

/-- A post that is not discarded claims the outlet and is tested one fc later (R98, R123). -/
theorem post_claims {n : Nat} (hn : n < 96) {s : State} (hfrozen : (s.dbg.frozen && s.dbg.frzEdge) = false)
    (hshut : (s.shut.active && (s.outlet n).shutg) = false) (hc : isComplement s n = false) (ag : Agent) (op : BitVec 2) (t : U40) :
    post ag n op t s = schedule (queueClaim n s) (s.clk.fc + 1) (agentRank ag)
      (.outPost ag (BitVec.ofNat 7 n) op t s.clk.fc) := by
  unfold post postClaim
  simp [Nat.not_le.mpr hn, hfrozen, hshut, hc]

theorem post_discarded {n : Nat} {s : State} (h : (s.dbg.frozen && s.dbg.frzEdge) = true ∨
    (s.shut.active && (s.outlet n).shutg) = true) (ag : Agent) (op : BitVec 2) (t : U40) : post ag n op t s = s := by
  have hr : postClaim n s = (s, false) := by
    unfold postClaim
    rcases h with h | h <;> simp [h]
  unfold post
  rw [hr]
  rfl

/-- A post to the complement of a pair only sets CONF (R118). -/
theorem post_complement {n : Nat} (hn : n < 96) {s : State} (hfrozen : (s.dbg.frozen && s.dbg.frzEdge) = false)
    (hshut : (s.shut.active && (s.outlet n).shutg) = false) (hc : isComplement s n = true) (ag : Agent) (op : BitVec 2) (t : U40) :
    post ag n op t s = outFlag n 3 s := by
  unfold post postClaim
  simp [Nat.not_le.mpr hn, hfrozen, hshut, hc]

/-! ## The claim of a post (R123, R125, R903) -/

theorem shadowFromLevel_outlet {n : Nat} (hn : n < 96) (s : State) :
    (shadowFromLevel n s).outlet n = { s.outlet n with shadow := outLevel s n, retAt := 0 } :=
  State.outlet_modOut _ _ hn

theorem isPrimary_shadowFromLevel {n : Nat} (hn : n < 96) (s : State) : isPrimary (shadowFromLevel n s) n = isPrimary s n := by
  unfold isPrimary
  rw [shadowFromLevel_outlet hn]

theorem outFlagIf_outlet {n : Nat} (hn : n < 96) (c : Bool) (b : Nat) (s : State) : (outFlagIf c n b s).outlet n =
    { s.outlet n with stat := if c then setBit (s.outlet n).stat b true else (s.outlet n).stat } := by
  cases c
  · rfl
  · exact outFlag_outlet hn b s

theorem queueClaim_owned {n : Nat} {s : State} (h : (s.outlet n).owner = 2) : queueClaim n s = s := if_pos h

/-- The queue takes an outlet of no pair from a lower owner. -/
theorem queueClaim_taken {n : Nat} {s : State} (hn : n < 96) (ho : (s.outlet n).owner ≠ 2) (hp : isPrimary s n = false) :
    ((queueClaim n s).outlet n).owner = 2 ∧ ((queueClaim n s).outlet n).shadow = outLevel s n ∧
      bit ((queueClaim n s).outlet n).stat 4 = true := by
  unfold queueClaim
  rw [if_neg ho]
  dsimp only
  rw [isPrimary_shadowFromLevel hn, hp, if_neg Bool.false_ne_true, outFlagIf_outlet hn, outFlag_outlet hn,
    State.outlet_modOut _ _ hn, shadowFromLevel_outlet hn]
  refine ⟨rfl, rfl, ?_⟩
  dsimp only
  have h4 : bit (setBit (s.outlet n).stat 4 true) 4 = true := bit_setBit_self _ (by decide)
  split
  · exact bit_setBit_keeps h4
  · exact h4

/-! ## Moving into the delay line (R99, R104, R106) -/

/-- A trimmed time still has the sub-ticks of two fc before it (R104). -/
def inTime (s : State) (t : U40) : Prop :=
  (nextAdvs s).1 + (nextAdvs s).2.1 ≤ lead40 t s.clk.gauge ∧ lead40 t s.clk.gauge < 2 ^ 39

/-- An edge added to the delay line of outlet m. -/
def State.lineEdge (s : State) (m : Nat) (e : LineEdge) : State := s.modOut m (fun o => { o with line := o.line ++ [e] })

theorem State.lineEdge_field {α : Type} (g : Outlet → α) (h : ∀ o l, g { o with line := l } = g o) {m : Nat} (hm : m < 96)
    (e : LineEdge) (k : Nat) (s : State) : g ((s.lineEdge m e).outlet k) = g (s.outlet k) :=
  State.outlet_modOut_field g (fun o => h o _) hm k s

theorem State.lineEdge_line {m : Nat} (hm : m < 96) (e : LineEdge) (s : State) :
    ((s.lineEdge m e).outlet m).line = (s.outlet m).line ++ [e] :=
  congrArg Outlet.line (State.outlet_modOut _ _ hm)

theorem intoLine_inTime (n : Nat) {m : Nat} (op : EdgeOp) {t : U40} (rise : Option U40) {s : State}
    (h : inTime s (t + sx40 (s.outlet m).outtrim)) :
    intoLine n m op t rise s = s.lineEdge m { t := t + sx40 (s.outlet m).outtrim, op := op, rise := rise } :=
  if_pos (by simpa [inTime] using h)

theorem intoLine_late (n : Nat) {m : Nat} (op : EdgeOp) {t : U40} (rise : Option U40) {s : State}
    (h : ¬ inTime s (t + sx40 (s.outlet m).outtrim)) :
    intoLine n m op t rise s = outFlag n 0 (s.lineEdge m { t := now40 s + 128, op := op, rise := rise }) :=
  if_neg (by simpa [inTime] using h)

/-- What moves into the delay line of outlet m leaves every field but the line and STAT. -/
theorem intoLine_field {α : Type} (g : Outlet → α) (hl : ∀ o l, g { o with line := l } = g o)
    (hs : ∀ o v, g { o with stat := v } = g o) {n m : Nat} (hn : n < 96) (hm : m < 96) (op : EdgeOp) (t : U40) (rise : Option U40)
    (k : Nat) (s : State) : g ((intoLine n m op t rise s).outlet k) = g (s.outlet k) := by
  by_cases h : inTime s (t + sx40 (s.outlet m).outtrim)
  · rw [intoLine_inTime n op rise h, State.lineEdge_field g hl hm]
  · rw [intoLine_late n op rise h, outFlag_field g hs hn, State.lineEdge_field g hl hm]

/-- The state whose outlet n has the rest of its queue. -/
def State.unqueued (s : State) (n : Nat) (rest : List QEntry) : State := s.modOut n (fun o => { o with queue := rest })

theorem State.unqueued_field {α : Type} (g : Outlet → α) (h : ∀ o l, g { o with queue := l } = g o) {n : Nat} (hn : n < 96)
    (rest : List QEntry) (m : Nat) (s : State) : g ((s.unqueued n rest).outlet m) = g (s.outlet m) :=
  State.outlet_modOut_field g (fun o => h o _) hn m s

theorem State.unqueued_queue {n : Nat} (hn : n < 96) (rest : List QEntry) (s : State) :
    ((s.unqueued n rest).outlet n).queue = rest :=
  congrArg Outlet.queue (State.outlet_modOut _ _ hn)

theorem inTime_unqueued (s : State) (n : Nat) (rest : List QEntry) (t : U40) : inTime (s.unqueued n rest) t ↔ inTime s t := Iff.rfl

theorem edgeOutlet_lt {n : Nat} (hn : n < 96) (s : State) (op : EdgeOp) : edgeOutlet s n op < 96 := by
  unfold edgeOutlet
  split
  next h =>
    have heven := even_of_isPrimary (Bool.and_eq_true_iff.mp h).1
    omega
  next => exact hn

/-- The operation that a queue entry has in the delay line: the undelayed edge of a pair clears (R114). -/
def lineOp (s : State) (n : Nat) (op : EdgeOp) : EdgeOp := if isPrimary s n then .clear else op

theorem entryMove_queued {n : Nat} {s : State} {q : QEntry} {rest : List QEntry} (hq : firstMove (s.outlet n).queue = some (q, rest))
    (hd : moveDue s (q.t + sx40 (s.outlet (edgeOutlet s n q.op)).outtrim) = true) :
    entryMove n s = intoLine n (edgeOutlet s n q.op) (lineOp s n q.op) q.t none (s.unqueued n rest) := by
  unfold entryMove
  simp only [hq, hd, if_true]
  rfl

/-- An entry that leaves the queue of outlet n for the delay line of outlet m. -/
theorem moved_leaves {n m : Nat} (hn : n < 96) (hm : m < 96) (op : EdgeOp) (t : U40) (rest : List QEntry) (s : State) {tt : U40}
    (ht : tt = t + sx40 (s.outlet m).outtrim) {u : State} (hu : u = intoLine n m op t none (s.unqueued n rest)) :
    (u.outlet n).queue = rest ∧ (u.outlet n).shadow = (s.outlet n).shadow ∧
    (inTime s tt → (u.outlet m).line = (s.outlet m).line ++ [{ t := tt, op := op, rise := none }]) ∧
    (¬ inTime s tt → (u.outlet m).line = (s.outlet m).line ++ [{ t := now40 s + 128, op := op, rise := none }] ∧
      (u.outlet n).stat = setBit (s.outlet n).stat 0 true) := by
  subst hu
  have htrim : t + sx40 ((s.unqueued n rest).outlet m).outtrim = tt := by
    rw [ht, State.unqueued_field (·.outtrim) (fun _ _ => rfl) hn]
  have hline : ((s.unqueued n rest).outlet m).line = (s.outlet m).line := State.unqueued_field (·.line) (fun _ _ => rfl) hn ..
  refine ⟨?_, ?_, fun hin => ?_, fun hlate => ?_⟩
  · rw [intoLine_field (·.queue) (fun _ _ => rfl) (fun _ _ => rfl) hn hm, State.unqueued_queue hn]
  · rw [intoLine_field (·.shadow) (fun _ _ => rfl) (fun _ _ => rfl) hn hm, State.unqueued_field (·.shadow) (fun _ _ => rfl) hn]
  · rw [intoLine_inTime n op none (by rwa [htrim, inTime_unqueued]), State.lineEdge_line hm, hline, htrim]
  · rw [intoLine_late n op none (by rwa [htrim, inTime_unqueued])]
    refine ⟨?_, ?_⟩
    · rw [outFlag_field (·.line) (fun _ _ => rfl) hn, State.lineEdge_line hm, hline]
      rfl
    · rw [outFlag_outlet hn]
      dsimp only
      rw [State.lineEdge_field (·.stat) (fun _ _ => rfl) hm, State.unqueued_field (·.stat) (fun _ _ => rfl) hn]

/-! ## Leaving the delay line and the queue (R96, R105, R903) -/

/-- The level after an edge of this operation (R96). -/
def EdgeOp.levelFrom (op : EdgeOp) (l : Bool) : Bool :=
  match op with | .set => true | .clear => false | .toggle => !l | .hold => l

/-- The earliest edge of the fc leaves the delay line with its level. -/
theorem edgeRetire_edge {n : Nat} (hn : n < 96) {s : State} {e : LineEdge} (h : leastBy (fun (e : LineEdge) => rank40 e.t s.clk.gauge)
    ((s.outlet n).line.filter fun e => reached40 e.t s.clk.gauge s.clk.adv.toNat) = some e) :
    ((edgeRetire n s).outlet n = { s.outlet n with
      shadow := e.op.levelFrom (s.outlet n).shadow, line := (s.outlet n).line.erase e
      retAt := ((edgeRetire n s).outlet n).retAt, retOld := ((edgeRetire n s).outlet n).retOld }) ∧
    ∀ m, m ≠ n → (edgeRetire n s).outlet m = s.outlet m := by
  unfold edgeRetire
  simp only [h]
  refine ⟨?_, fun m hm => State.outlet_modOut_other _ _ hm⟩
  rw [State.outlet_modOut _ _ hn]
  rfl

theorem holdRetire_hold {n : Nat} (hn : n < 96) {s : State} {q : QEntry} (h : (s.outlet n).queue.find? (fun q => q.op = .hold &&
      reached40 (q.t + sx40 (s.outlet n).outtrim) s.clk.gauge s.clk.adv.toNat) = some q) :
    (holdRetire n s).outlet n = { s.outlet n with queue := (s.outlet n).queue.erase q } := by
  unfold holdRetire
  rw [State.outlet_modOut _ _ hn]
  simp only [h]

/-! ## Flushing (R107, R108) -/

/-- The state once the delayed rises of the other outlet of n's pair are discarded. -/
def State.matesRisesDropped (s : State) (n : Nat) : State :=
  if isPrimary s n then s.modOut (n + 1) dropRises else if isComplement s n then s.modOut (n - 1) dropRises else s

theorem State.matesRisesDropped_primary {s : State} {n : Nat} (h : isPrimary s n = true) :
    s.matesRisesDropped n = s.modOut (n + 1) dropRises := if_pos h

theorem State.matesRisesDropped_complement {s : State} {n : Nat} (h : isComplement s n = true) :
    s.matesRisesDropped n = s.modOut (n - 1) dropRises := by
  unfold State.matesRisesDropped
  rw [isPrimary_of_isComplement h, if_neg Bool.false_ne_true, if_pos h]

/-- Only the other outlet of the pair is touched. -/
theorem State.matesRisesDropped_other {s : State} {n m : Nat} (hp : m ≠ n + 1 ∨ isPrimary s n = false)
    (hc : m + 1 ≠ n ∨ isComplement s n = false) : (s.matesRisesDropped n).outlet m = s.outlet m := by
  unfold State.matesRisesDropped
  split
  next h => exact State.outlet_modOut_other _ _ (hp.resolve_right (by simp [h]))
  next =>
    split
    next h =>
      have hodd := odd_of_isComplement h
      have hm := hc.resolve_right (by simp [h])
      exact State.outlet_modOut_other _ _ (by omega)
    next => rfl

theorem State.matesRisesDropped_fc (s : State) (n : Nat) : (s.matesRisesDropped n).clk.fc = s.clk.fc := by
  unfold State.matesRisesDropped
  split
  · rfl
  · split <;> rfl

/-- An outlet once it is flushed: its line is empty at once (R107, log entry 34). -/
def Outlet.flushed (o : Outlet) (s : State) : Outlet := { o with queue := [], rises := [], line := [], flushAt := s.clk.fc + 1 }

theorem flushOut_self {n : Nat} (hn : n < 96) (s : State) : (flushOut n s).outlet n = (s.outlet n).flushed s := by
  have hmate : (s.matesRisesDropped n).outlet n = s.outlet n :=
    State.matesRisesDropped_other (.inl (by omega)) (.inl (by omega))
  refine (State.outlet_modOut (s.matesRisesDropped n) _ hn).trans ?_
  rw [hmate]
  exact congrArg (fun fc => { s.outlet n with queue := [], rises := [], line := [], flushAt := fc + 1 })
    (s.matesRisesDropped_fc n)

theorem flushOut_other {n m : Nat} (h : m ≠ n) (s : State) : (flushOut n s).outlet m = (s.matesRisesDropped n).outlet m :=
  State.outlet_modOut_other _ _ h

/-! ## O16, part by part -/

theorem postlStage_runs {w : Who} {n : Fin 96} (v : U32) {s : State} (h : MayWrite w (0x8018 + 0x20 * n.val) s) :
    Runs (.postlStage w n v) s fun t =>
      t.outlet n = { s.outlet n with postl := vset (s.outlet n).postl (agentOf s w).postl v } ∧
      ∀ m, m ≠ n.val → t.outlet m = s.outlet m := by
  refine .of_exec (exec_write rfl h) ?_
  simp only [answer_outlet]
  exact ⟨State.outlet_modOut _ _ n.isLt, fun m hm => State.outlet_modOut_other _ _ hm⟩

theorem posthPost_runs {w : Who} {n : Fin 96} (v : U32) {s : State} (h : MayWrite w (0x801C + 0x20 * n.val) s)
    (hfrozen : (s.dbg.frozen && s.dbg.frzEdge) = false) (hshut : (s.shut.active && (s.outlet n).shutg) = false)
    (hc : isComplement s n = false) : Runs (.posthPost w n v) s fun t =>
      { at_ := s.clk.fc + 1, rank := agentRank (agentOf s w)
        act := .outPost (agentOf s w) (BitVec.ofNat 7 n) (fd v 8 2)
          ((fd v 0 8 : Byte) ++ vget (s.outlet n).postl (agentOf s w).postl 0) s.clk.fc } ∈ t.due ∧
      ((s.outlet n).owner = 2 → t.out = s.out) ∧
      ((s.outlet n).owner ≠ 2 → isPrimary s n = false → (t.outlet n).owner = 2 ∧ (t.outlet n).shadow = outLevel s n ∧
        bit (t.outlet n).stat 4 = true) := by
  refine .of_exec (exec_write rfl h) ?_
  rw [answer_due, answer_out, answer_outlet, writePosth_posts, post_claims n.isLt hfrozen hshut hc, (schedule_only ..).out,
    outlet_eq n.val (schedule_only ..).out]
  refine ⟨mem_schedule .., fun ho => ?_, fun ho hp => queueClaim_taken n.isLt ho hp⟩
  rw [queueClaim_owned ho]

theorem posthPost_discarded {w : Who} {n : Fin 96} (v : U32) {s : State} (h : MayWrite w (0x801C + 0x20 * n.val) s)
    (hd : (s.dbg.frozen && s.dbg.frzEdge) = true ∨ (s.shut.active && (s.outlet n).shutg) = true) :
    exec (.posthPost w n v) s = .next (answer s w {}) :=
  exec_writeSame rfl h (post_discarded hd ..)

theorem posthPost_complement {w : Who} {n : Fin 96} (v : U32) {s : State} (h : MayWrite w (0x801C + 0x20 * n.val) s)
    (hfrozen : (s.dbg.frozen && s.dbg.frzEdge) = false) (hshut : (s.shut.active && (s.outlet n).shutg) = false)
    (hc : isComplement s n = true) : exec (.posthPost w n v) s = .next (answer (outFlag n 3 s) w {}) := by
  have hp := post_complement n.isLt hfrozen hshut hc (agentOf s w) (fd v 8 2)
    ((fd v 0 8 : Byte) ++ vget (s.outlet n).postl (agentOf s w).postl 0)
  rw [← hp]
  exact exec_write rfl h

/-- The next entry of outlet n moves into the delay line of the outlet on which its undelayed edge lies. -/
theorem entryMove_runs {n : Fin 96} {s : State} {q : QEntry} {rest : List QEntry} {m : Nat} {tt : U40} (hc : coreOff s = false)
    (hq : firstMove (s.outlet n).queue = some (q, rest)) (hm : m = edgeOutlet s n q.op)
    (ht : tt = q.t + sx40 (s.outlet m).outtrim) (hd : moveDue s tt = true) : Runs (.entryMove n) s fun t =>
      (t.outlet n).queue = rest ∧ (t.outlet n).shadow = (s.outlet n).shadow ∧
      (inTime s tt → (t.outlet m).line = (s.outlet m).line ++ [{ t := tt, op := lineOp s n q.op, rise := none }]) ∧
      (¬ inTime s tt → (t.outlet m).line = (s.outlet m).line ++ [{ t := now40 s + 128, op := lineOp s n q.op, rise := none }] ∧
        (t.outlet n).stat = setBit (s.outlet n).stat 0 true) := by
  subst hm
  have hmove := entryMove_queued hq (ht ▸ hd)
  exact .of_exec (exec_event rfl hc) (moved_leaves n.isLt (edgeOutlet_lt n.isLt s q.op) _ q.t rest s ht hmove)

theorem edgeRetire_runs {n : Fin 96} {s : State} {e : LineEdge} (hc : coreOff s = false)
    (he : leastBy (fun (e : LineEdge) => rank40 e.t s.clk.gauge)
      ((s.outlet n).line.filter fun e => reached40 e.t s.clk.gauge s.clk.adv.toNat) = some e) :
    Runs (.edgeRetire n) s fun t => t.outlet n = { s.outlet n with
      shadow := e.op.levelFrom (s.outlet n).shadow, line := (s.outlet n).line.erase e
      retAt := (t.outlet n).retAt, retOld := (t.outlet n).retOld } ∧ ∀ m, m ≠ n.val → t.outlet m = s.outlet m :=
  .of_exec (exec_event rfl hc) (edgeRetire_edge n.isLt he)

theorem holdRetire_runs {n : Fin 96} {s : State} {q : QEntry} (hc : coreOff s = false)
    (hq : (s.outlet n).queue.find? (fun q => q.op = .hold &&
      reached40 (q.t + sx40 (s.outlet n).outtrim) s.clk.gauge s.clk.adv.toNat) = some q) :
    Runs (.holdRetire n) s fun t => t.outlet n = { s.outlet n with queue := (s.outlet n).queue.erase q } ∧
      ∀ m, m ≠ n.val → t.outlet m = s.outlet m :=
  .of_exec (exec_event rfl hc) ⟨holdRetire_hold n.isLt hq, fun _ hm => State.outlet_modOut_other _ _ hm⟩

theorem flush_runs {w : Who} {n : Fin 96} {s : State} (h : MayWrite w (0x8000 + 0x20 * n.val) s) : Runs (.flush w n) s fun t =>
    t.outlet n = (s.outlet n).flushed s ∧
    (isPrimary s n = true → t.outlet (n + 1) = dropRises (s.outlet (n + 1))) ∧
    (isComplement s n = true → t.outlet (n - 1) = dropRises (s.outlet (n - 1))) ∧
    ∀ m, m ≠ n.val → (m ≠ n.val + 1 ∨ isPrimary s n = false) → (m + 1 ≠ n.val ∨ isComplement s n = false) →
      t.outlet m = s.outlet m := by
  refine .of_exec (exec_write rfl h) ?_
  simp only [answer_outlet]
  have hn := n.isLt
  refine ⟨flushOut_self hn s, fun hp => ?_, fun hc => ?_, fun m hm hp hc => ?_⟩
  · have heven := even_of_isPrimary hp
    rw [flushOut_other (by omega), State.matesRisesDropped_primary hp, State.outlet_modOut _ _ (by omega)]
  · have hodd := odd_of_isComplement hc
    rw [flushOut_other (by omega), State.matesRisesDropped_complement hc, State.outlet_modOut _ _ (by omega)]
  · rw [flushOut_other hm, State.matesRisesDropped_other hp hc]

/-- Settles O16: a post by the branches of `post`, a move by `moved_leaves`, and a flush by the queue itself and the rises of
the pair's other outlet. -/
theorem postsAndEdges : Obligations.PostsAndEdges := by
  unfold Obligations.PostsAndEdges
  refine ⟨fun w n v s h => postlStage_runs v h, fun w n v s h hfrozen hshut hc => posthPost_runs v h hfrozen hshut hc,
    fun w n v s h => ⟨posthPost_discarded v h, posthPost_complement v h⟩, ?_, fun n s e hc he => edgeRetire_runs hc he,
    fun n s q hc hq => holdRetire_runs hc hq, fun w n s h => flush_runs h⟩
  rintro n s q rest m tt a hc rfl hq hm ht hd
  obtain ⟨t, hrun, hqueue, hshadow, htimely, hlate⟩ := entryMove_runs hc hq hm ht hd
  exact ⟨t, hrun, hqueue, hshadow, fun hlead hfuture => htimely ⟨hlead, hfuture⟩, hlate⟩

end Sys2Proof.Machine
end

section
/-! What every step keeps (R257, R523, R747), the canonical form of a memory as its only form (R895), and the state after a
power-on reset (R213, R818). -/

namespace Sys2Proof.Machine

/-! ## Steps -/

/-- Settles O52: a step takes a command off the queue, which holds no memory, and the command keeps them canonical. -/
theorem stepKeepsOk : Obligations.StepKeepsOk := by
  intro s t hs h
  unfold step at h
  split at h
  · injection h with h
    exact h ▸ hs
  · exact (exec_kept h).2 hs

/-! ## Memories -/

theorem sget_head {β : Type} (d : β) (k : Nat) (x : β) (l : List (Nat × β)) : sget d k ((k, x) :: l) = x := if_pos rfl

theorem sget_below {β : Type} [DecidableEq β] {d : β} {k : Nat} :
    ∀ {l : List (Nat × β)} {lo : Nat}, k < lo → swfFrom d lo l = true → sget d k l = d
  | [], _, _, _ => rfl
  | (a, x) :: t, lo, hk, hw => by
    simp only [swfFrom, Bool.and_eq_true, decide_eq_true_eq] at hw
    have ha : a ≠ k := by omega
    rw [sget, if_neg ha]
    exact sget_below (by omega) hw.2

/-- Two canonical memories that list their first place at `a` and at `b`, `a` first, hold different values there. -/
theorem sget_first_ne {β : Type} [DecidableEq β] {d : β} {a b : Nat} {x y : β} {l m : List (Nat × β)} {lo : Nat} (h : a < b)
    (hl : swfFrom d lo ((a, x) :: l) = true) (hm : swfFrom d lo ((b, y) :: m) = true) :
    sget d a ((a, x) :: l) ≠ sget d a ((b, y) :: m) := by
  simp only [swfFrom, Bool.and_eq_true, decide_eq_true_eq] at hl hm
  have hb : b ≠ a := by omega
  rw [sget_head, sget, if_neg hb, sget_below (by omega) hm.2]
  exact hl.1.2

/-- What a memory holds settles its canonical list. -/
theorem swfFrom_unique {β : Type} [DecidableEq β] {d : β} :
    ∀ {l m : List (Nat × β)} {lo : Nat}, swfFrom d lo l = true → swfFrom d lo m = true → (∀ k, sget d k l = sget d k m) → l = m
  | [], [], _, _, _, _ => rfl
  | [], (b, y) :: m, lo, _, hm, h => by
    simp only [swfFrom, Bool.and_eq_true, decide_eq_true_eq] at hm
    exact absurd ((sget_head d b y m).symm.trans (h b).symm) hm.1.2
  | (a, x) :: l, [], lo, hl, _, h => by
    simp only [swfFrom, Bool.and_eq_true, decide_eq_true_eq] at hl
    exact absurd ((sget_head d a x l).symm.trans (h a)) hl.1.2
  | (a, x) :: l, (b, y) :: m, lo, hl, hm, h => by
    rcases Nat.lt_trichotomy a b with hab | rfl | hba
    · exact absurd (h a) (sget_first_ne hab hl hm)
    · have hx : x = y := by simpa only [sget_head] using h a
      simp only [swfFrom, Bool.and_eq_true, decide_eq_true_eq] at hl hm
      have ht : l = m := swfFrom_unique hl.2 hm.2 fun k => by
        by_cases hk : a = k
        · subst hk
          rw [sget_below (Nat.lt_succ_self a) hl.2, sget_below (Nat.lt_succ_self a) hm.2]
        · simpa only [sget, if_neg hk] using h k
      rw [hx, ht]
    · exact absurd (h b).symm (sget_first_ne hba hm hl)

/-- Settles O54. -/
theorem memoriesHoldWhatIsWritten : Obligations.MemoriesHoldWhatIsWritten :=
  ⟨fun l _ a h => memRead_memWrite l a h, fun l _ _ _ h => memByte_memWrite_other l h, fun l _ a h => memWrite_wf l a h,
    fun _ _ h h' e => swfFrom_unique h h' e⟩

/-! ## Reset -/

theorem vget_replicate {α : Type} (n i : Nat) (d : α) : vget (Vector.replicate n d) i d = d := by
  unfold vget
  split
  · exact Vector.getElem_replicate _
  · rfl

theorem reset_thr (n : Nat) : State.reset.thr n = {} := vget_replicate ..
theorem reset_source (k : Nat) : State.reset.source k = {} := vget_replicate ..
theorem reset_outlet (n : Nat) : State.reset.outlet n = {} := vget_replicate ..
theorem reset_rch (r : Nat) : State.reset.rch r = {} := vget_replicate ..
theorem reset_port (p : Nat) : State.reset.port p = {} := vget_replicate ..

theorem reset_ok : State.reset.ok := ⟨⟨rfl, rfl, rfl, rfl, rfl, rfl⟩, rfl, rfl⟩

/-- Settles O51: every table of the reset state holds its entry's reset value everywhere. -/
theorem resetState : Obligations.ResetState := by
  refine ⟨reset_ok, rfl, rfl, rfl, rfl, rfl, rfl, rfl, fun n => ?_, fun k => ?_, fun n => ?_, reset_rch, fun p => ?_, rfl, rfl, rfl, rfl⟩
  · rw [reset_thr]
    exact ⟨rfl, rfl⟩
  · rw [reset_source]
    exact ⟨rfl, rfl⟩
  · rw [reset_outlet]
    exact ⟨rfl, rfl⟩
  · rw [reset_port]

end Sys2Proof.Machine
end

section
/-! Transfer words: BR, CALL, RET and the exception return (R223-R227, R233, R234, R379), and O9. -/

namespace Sys2Proof.Machine

/-! ## Control words that issue -/

theorem rowOf_control {w : U32} {r : Nat} (h : rowOf w = r) (hr : r < 16) :
    isOp w = false ∧ (fd w 27 4 : BitVec 4).toNat = r ∧ (r = 2 → bit w 17 = false) := by
  unfold rowOf at h
  split at h
  · omega
  · rename_i ho
    split at h
    · omega
    · rename_i hx
      refine ⟨Bool.not_eq_true _ ▸ ho, h, fun h2 => ?_⟩
      subst h2
      have hs : (fd w 27 4 : BitVec 4) = 2 := BitVec.eq_of_toNat_eq h
      simpa [hs] using hx

theorem rowOf_return {w : U32} (h : rowOf w = 17) :
    isOp w = false ∧ (fd w 27 4 : BitVec 4).toNat = 2 ∧ bit w 17 = true := by
  unfold rowOf at h
  split at h
  · omega
  · rename_i ho
    split at h
    · rename_i hx
      simp only [Bool.and_eq_true, decide_eq_true_eq] at hx
      exact ⟨Bool.not_eq_true _ ▸ ho, congrArg BitVec.toNat hx.1, hx.2⟩
    · have := (fd w 27 4 : BitVec 4).isLt
      omega

/-- No stop is asked of the thread whose word issues (R573). -/
theorem Issues.stopReq {s : State} {n : Nat} {w : U32} (h : Issues s n w) (hn : n < 16) :
    ((atIssue s n w).thr n).stopReq = false := by
  rw [atIssue_thr, applyRet_stopReq hn]
  exact h.goesOn

/-- The command of a control word that issues does what the word does in the state of its issue. -/
theorem Issues.runs {s : State} {n r : Nat} {w : U32} {c : Instr} {P : State → Prop} (h : Issues s n w)
    (hx : exec c s = .next (issue n (some r) s)) (hr : rowOf w = r) (ho : isOp w = false)
    (hp : P (runControl n w (atIssue s n w))) : Runs c s P :=
  .of_exec (hx.trans (congrArg Host.Outcome.next (issue_control h ho hr))) hp

/-! ## The place of a transfer (R225) -/

/-- A transfer leaves its slot pending behind it, and the return stack as its own part `f` leaves it. -/
theorem finishWord_branch {n : Nat} (hn : n < 16) (target : Option U16) (undo : SlotUndo) (f : State → State) {s : State} {x : Thread}
    (hx : (f { s with free := s.free + 4096 }).thr n = x) (hs : x.stopReq = false) {t : Thread}
    (ht : (finishWord n false (branchTo target undo) f s).thr n = t) :
    t.ctx.pc = x.ctx.pc + 1 ∧ t.issue = x.issue + 1 ∧ t.ctx.ds = some { branch := x.ctx.pc, target := target, undo := undo } ∧
      t.ctx.hw = x.ctx.hw ∧ t.ctx.rsp = x.ctx.rsp := by
  obtain ⟨g, a, sat, scf, fmax, pw, e⟩ := finishWord_flow hn false (branchTo target undo) f s hx hs
  rw [← ht, e]
  simp [branchTo]

/-- The place of an exception return: a transfer with the status word behind it (R379). -/
def returnTo (target : Option U16) (undo : SlotUndo) (status : U32) (c : Ctx) : Ctx :=
  { branchTo target undo c with ret := some { status := status, slot := true } }

theorem finishWord_return {n : Nat} (hn : n < 16) (target : Option U16) (undo : SlotUndo) (status : U32) (f : State → State) {s : State}
    {x : Thread} (hx : (f { s with free := s.free + 4096 }).thr n = x) (hs : x.stopReq = false) {t : Thread}
    (ht : (finishWord n false (returnTo target undo status) f s).thr n = t) :
    t.ctx.pc = x.ctx.pc + 1 ∧ t.issue = x.issue + 1 ∧ t.ctx.ds = some { branch := x.ctx.pc, target := target, undo := undo } ∧
      t.ctx.hw = x.ctx.hw ∧ t.ctx.ret = some { status := status, slot := true } := by
  obtain ⟨g, a, sat, scf, fmax, pw, e⟩ := finishWord_flow hn false (returnTo target undo status) f s hx hs
  rw [← ht, e]
  simp [returnTo, branchTo]

/-! ## What each transfer does -/

/-- A transfer that is not taken only leaves its slot pending (R224). -/
def runUntaken (n : Nat) (s : State) : State := finishWord n false (branchTo none .nothing) id s

/-- What a taken CALL does to its thread's stack (R226, R235). -/
def callPush (n : Nat) (c : Ctx) (s : State) : State := parkStack (needsSpill c) n (pushRet n (c.pc + 2) s)

/-- What a taken RET, or an exception return outside the monitor, does to its thread's stack (R227, R234, R235). -/
def retPop (n : Nat) (c c' : Ctx) (s : State) : State :=
  parkStack (needsFill c) n (s.modCtx n (fun _ => { c' with hw := c'.hw.dropLast }))

theorem runControl_br {n : Nat} {w : U32} {s : State} (h : (fd w 27 4 : BitVec 4).toNat = 0) : runControl n w s =
    finishWord n false (branchTo (if taken s (s.thr n).ctx w then some (target s (s.thr n).ctx w) else none) .nothing) id s := by
  unfold runControl
  rw [h]
  rfl

theorem runControl_call {n : Nat} {w : U32} {s : State} (h : (fd w 27 4 : BitVec 4).toNat = 1) : runControl n w s =
    if taken s (s.thr n).ctx w then
      finishWord n false (branchTo (some (target s (s.thr n).ctx w)) .pushed) (callPush n (s.thr n).ctx) s
    else runUntaken n s := by
  unfold runControl
  rw [h]
  rfl

theorem runControl_untaken {n : Nat} {w : U32} {s : State} (h : (fd w 27 4 : BitVec 4).toNat = 2)
    (ht : taken s (s.thr n).ctx w = false) : runControl n w s = runUntaken n s := by
  unfold runControl
  rw [h]
  simp only [ht]
  rfl

theorem runControl_ret {n : Nat} {w : U32} {s : State} (h : (fd w 27 4 : BitVec 4).toNat = 2) (hb : bit w 17 = false)
    (ht : taken s (s.thr n).ctx w = true) {c' : Ctx} (hc : filled s (s.thr n).ctx = c') : runControl n w s =
    finishWord n false (branchTo (some ((c'.hw.getLast?).getD 0)) (.popped ((c'.hw.getLast?).getD 0)))
      (retPop n (s.thr n).ctx c') s := by
  subst hc
  unfold runControl
  rw [h]
  simp only [ht, hb]
  rfl

/-- An exception return outside the monitor pops its return address (R379). -/
theorem runControl_retExc {n : Nat} {w : U32} {s : State} (h : (fd w 27 4 : BitVec 4).toNat = 2) (hb : bit w 17 = true)
    (ht : taken s (s.thr n).ctx w = true) (hm : ((s.thr n).mon && !(s.thr n).spill) = false) {c' : Ctx}
    (hc : filled (retStatus s n).2 (s.thr n).ctx = c') : runControl n w s =
    finishWord n false (returnTo (some ((c'.hw.getLast?).getD 0)) (.popped ((c'.hw.getLast?).getD 0)) (retStatus s n).1)
      (retPop n (s.thr n).ctx c') (retStatus s n).2 := by
  subst hc
  unfold runControl
  rw [h]
  simp only [ht, hb, hm, Bool.true_and]
  rfl

/-- A return from the monitor goes on at MPC (R863). -/
theorem runControl_retMonitor {n : Nat} {w : U32} {s : State} (h : (fd w 27 4 : BitVec 4).toNat = 2) (hb : bit w 17 = true)
    (ht : taken s (s.thr n).ctx w = true) (hm : ((s.thr n).mon && !(s.thr n).spill) = true) : runControl n w s =
    finishWord n false (returnTo (some (s.thr n).mpc) .nothing (retStatus s n).1) id (retStatus s n).2 := by
  unfold runControl
  rw [h]
  simp only [ht, hb, hm, Bool.true_and]
  rfl

theorem retStatus_thr (s : State) (n : Nat) : (retStatus s n).2.thr n = s.thr n := thr_of_seq (retStatus_only ..).seq n

/-- A push leaves the pc and what `finishWord` counts. -/
theorem callPush_thr {n : Nat} (hn : n < 16) {s : State} {c : Ctx} (hc : (s.thr n).ctx = c) {t : Thread} (ht : (callPush n c s).thr n = t) :
    t.ctx.pc = c.pc ∧ t.issue = (s.thr n).issue ∧ t.stopReq = (s.thr n).stopReq ∧
      t.ctx.hw = (if needsSpill c then c.hw.drop 8 else c.hw) ++ [c.pc + 2] := by
  subst hc
  unfold callPush at ht
  rw [parkStack_thr hn, pushRet_thr hn] at ht
  subst ht
  exact ⟨rfl, rfl, rfl, rfl⟩

theorem retPop_thr {n : Nat} (hn : n < 16) (c c' : Ctx) (s : State) {t : Thread} (ht : (retPop n c c' s).thr n = t) :
    t.ctx = { c' with hw := c'.hw.dropLast } ∧ t.issue = (s.thr n).issue ∧ t.stopReq = (s.thr n).stopReq := by
  unfold retPop at ht
  rw [parkStack_thr hn, thr_modCtx hn] at ht
  subst ht
  exact ⟨rfl, rfl, rfl⟩

/-- A fill changes the stack and RSP only (R234). -/
theorem filled_pc (s : State) (c : Ctx) : (filled s c).pc = c.pc := by
  unfold filled
  split <;> rfl

/-! ## O9, word by word -/

/-- What is left by a transfer that is not taken. -/
theorem runUntaken_thr {n : Nat} (hn : n < 16) {s : State} (hs : (s.thr n).stopReq = false) {t : Thread} (ht : (runUntaken n s).thr n = t) :
    t.ctx.pc = (s.thr n).ctx.pc + 1 ∧ t.issue = (s.thr n).issue + 1 ∧
      t.ctx.ds = some { branch := (s.thr n).ctx.pc, target := none, undo := .nothing } ∧ t.ctx.hw = (s.thr n).ctx.hw := by
  obtain ⟨hpc, hissue, hds, hhw, _⟩ := finishWord_branch hn none .nothing id (x := s.thr n) rfl hs ht
  exact ⟨hpc, hissue, hds, hhw⟩

theorem br_runs {n : Fin 16} {s : State} {w : U32} (h : Issues s n w) (hr : rowOf w = 0) {u : State} (hu : u = atIssue s n w)
    {c : Ctx} (hc : c = (u.thr n).ctx) : Runs (.br n) s fun t =>
      (t.thr n).ctx.pc = c.pc + 1 ∧ (t.thr n).ctx.ds = some {
        branch := c.pc, undo := .nothing, target := if taken u c w then some (target u c w) else none } ∧
      (t.thr n).issue = (u.thr n).issue + 1 := by
  subst hu hc
  obtain ⟨ho, hsub, _⟩ := rowOf_control hr (by decide)
  refine h.runs rfl hr ho ?_
  rw [runControl_br hsub]
  obtain ⟨hpc, hissue, hds, _⟩ := finishWord_branch n.isLt _ .nothing id rfl (h.stopReq n.isLt) rfl
  exact ⟨hpc, hds, hissue⟩

theorem call_runs {n : Fin 16} {s : State} {w : U32} (h : Issues s n w) (hr : rowOf w = 1) {u : State} (hu : u = atIssue s n w)
    {c : Ctx} (hc : c = (u.thr n).ctx) : Runs (.call n) s fun t =>
      (t.thr n).ctx.pc = c.pc + 1 ∧ (t.thr n).issue = (u.thr n).issue + 1 ∧
      (taken u c w = false → (t.thr n).ctx.ds = some { branch := c.pc, target := none, undo := .nothing } ∧
        (t.thr n).ctx.hw = c.hw) ∧
      (taken u c w = true → (t.thr n).ctx.ds = some { branch := c.pc, target := some (target u c w), undo := .pushed } ∧
        (t.thr n).ctx.hw = (if needsSpill c then c.hw.drop 8 else c.hw) ++ [c.pc + 2]) := by
  subst hu hc
  obtain ⟨ho, hsub, _⟩ := rowOf_control hr (by decide)
  have hstop := h.stopReq n.isLt
  refine h.runs rfl hr ho ?_
  rw [runControl_call hsub]
  generalize atIssue s n w = u at hstop ⊢
  cases ht : taken u (u.thr n).ctx w with
  | false =>
    obtain ⟨hpc, hissue, hds, hhw⟩ := runUntaken_thr n.isLt hstop rfl
    exact ⟨hpc, hissue, fun _ => ⟨hds, hhw⟩, nofun⟩
  | true =>
    obtain ⟨ppc, pissue, pstop, phw⟩ := callPush_thr n.isLt (s := { u with free := u.free + 4096 }) (c := (u.thr n).ctx) rfl rfl
    obtain ⟨hpc, hissue, hds, hhw, _⟩ := finishWord_branch n.isLt (some (target u (u.thr n).ctx w)) .pushed
      (callPush n (u.thr n).ctx) rfl (pstop.trans hstop) rfl
    rw [ppc] at hpc hds
    exact ⟨hpc, hissue.trans (congrArg (· + 1) pissue), nofun, fun _ => ⟨hds, hhw.trans phw⟩⟩

theorem ret_runs {n : Fin 16} {s : State} {w : U32} (h : Issues s n w) (hr : rowOf w = 2) {u : State} (hu : u = atIssue s n w)
    {c : Ctx} (hc : c = (u.thr n).ctx) : Runs (.ret n) s fun t =>
      (t.thr n).ctx.pc = c.pc + 1 ∧ (t.thr n).issue = (u.thr n).issue + 1 ∧
      (taken u c w = false → (t.thr n).ctx.ds = some { branch := c.pc, target := none, undo := .nothing } ∧
        (t.thr n).ctx.hw = c.hw) ∧
      (taken u c w = true → ∀ a, a = ((filled u c).hw.getLast?).getD 0 →
        (t.thr n).ctx.ds = some { branch := c.pc, target := some a, undo := .popped a } ∧
        (t.thr n).ctx.hw = (filled u c).hw.dropLast ∧ (t.thr n).ctx.rsp = (filled u c).rsp) := by
  subst hu hc
  obtain ⟨ho, hsub, hplain⟩ := rowOf_control hr (by decide)
  have hstop := h.stopReq n.isLt
  refine h.runs rfl hr ho ?_
  generalize atIssue s n w = u at hstop ⊢
  cases ht : taken u (u.thr n).ctx w with
  | false =>
    rw [runControl_untaken hsub ht]
    obtain ⟨hpc, hissue, hds, hhw⟩ := runUntaken_thr n.isLt hstop rfl
    exact ⟨hpc, hissue, fun _ => ⟨hds, hhw⟩, nofun⟩
  | true =>
    rw [runControl_ret hsub (hplain rfl) ht rfl]
    obtain ⟨pctx, pissue, pstop⟩ := retPop_thr n.isLt (u.thr n).ctx (filled u (u.thr n).ctx) { u with free := u.free + 4096 } rfl
    obtain ⟨hpc, hissue, hds, hhw, hrsp⟩ := finishWord_branch n.isLt _ (.popped _)
      (retPop n (u.thr n).ctx (filled u (u.thr n).ctx)) rfl (pstop.trans hstop) rfl
    rw [pctx] at hpc hds hhw hrsp
    rw [filled_pc] at hpc hds
    refine ⟨hpc, hissue.trans (congrArg (· + 1) pissue), nofun, ?_⟩
    rintro _ a rfl
    exact ⟨hds, hhw, hrsp⟩

theorem retExc_runs {n : Fin 16} {s : State} {w : U32} (h : Issues s n w) (hr : rowOf w = 17) {u : State} (hu : u = atIssue s n w)
    {c : Ctx} (hc : c = (u.thr n).ctx) : Runs (.retExc n) s fun t =>
      (t.thr n).ctx.pc = c.pc + 1 ∧ (t.thr n).issue = (u.thr n).issue + 1 ∧
      (taken u c w = false → (t.thr n).ctx.ds = some { branch := c.pc, target := none, undo := .nothing } ∧
        (t.thr n).ctx.hw = c.hw) ∧
      (taken u c w = true →
        (t.thr n).ctx.ret = some { status := (retStatus u n).1, slot := true } ∧
        ((u.thr n).mon = true → (u.thr n).spill = false →
          (t.thr n).ctx.ds = some { branch := c.pc, target := some (u.thr n).mpc, undo := .nothing }) ∧
        ((u.thr n).mon = false → ∀ a, a = ((filled (retStatus u n).2 c).hw.getLast?).getD 0 →
          (t.thr n).ctx.ds = some { branch := c.pc, target := some a, undo := .popped a } ∧
          (t.thr n).ctx.hw = (filled (retStatus u n).2 c).hw.dropLast)) := by
  subst hu hc
  obtain ⟨ho, hsub, hexc⟩ := rowOf_return hr
  have hstop := h.stopReq n.isLt
  refine h.runs rfl hr ho ?_
  generalize atIssue s n w = u at hstop ⊢
  have hthr := retStatus_thr u n
  cases ht : taken u (u.thr n).ctx w with
  | false =>
    rw [runControl_untaken hsub ht]
    obtain ⟨hpc, hissue, hds, hhw⟩ := runUntaken_thr n.isLt hstop rfl
    exact ⟨hpc, hissue, fun _ => ⟨hds, hhw⟩, nofun⟩
  | true =>
    cases hm : ((u.thr n).mon && !(u.thr n).spill) with
    | true =>
      rw [runControl_retMonitor hsub hexc ht hm]
      obtain ⟨hpc, hissue, hds, _, hret⟩ := finishWord_return n.isLt (some (u.thr n).mpc) .nothing (retStatus u n).1 id
        (s := (retStatus u n).2) hthr hstop rfl
      refine ⟨hpc, hissue, nofun, fun _ => ⟨hret, fun _ _ => hds, fun h0 => ?_⟩⟩
      rw [h0] at hm
      cases hm
    | false =>
      rw [runControl_retExc hsub hexc ht hm rfl]
      obtain ⟨pctx, pissue, pstop⟩ := retPop_thr n.isLt (u.thr n).ctx (filled (retStatus u n).2 (u.thr n).ctx)
        { (retStatus u n).2 with free := (retStatus u n).2.free + 4096 } rfl
      obtain ⟨hpc, hissue, hds, hhw, hret⟩ := finishWord_return n.isLt _ (.popped _) (retStatus u n).1
        (retPop n (u.thr n).ctx (filled (retStatus u n).2 (u.thr n).ctx)) rfl (pstop.trans ((congrArg Thread.stopReq hthr).trans hstop)) rfl
      rw [pctx] at hpc hds hhw
      rw [filled_pc] at hpc hds
      refine ⟨hpc, hissue.trans (congrArg (· + 1) (pissue.trans (congrArg Thread.issue hthr))), nofun, fun _ => ⟨hret, fun h1 h2 => ?_, ?_⟩⟩
      · rw [h1, h2] at hm
        cases hm
      · rintro _ a rfl
        exact ⟨hds, hhw⟩

/-- Settles O9, word by word: each transfer is `finishWord` with its own part of the return stack. -/
theorem transferWords : Obligations.TransferWords :=
  ⟨fun _ _ _ _ h hr hc => br_runs h hr rfl hc, fun _ _ _ _ h hr hc => call_runs h hr rfl hc,
    fun _ _ _ _ h hr hc => ret_runs h hr rfl hc, fun _ _ _ _ h hr hc => retExc_runs h hr rfl hc⟩

end Sys2Proof.Machine
end

section
/-! REP, REPN and LI (R221, R239, R245), and O10. -/

namespace Sys2Proof.Machine

/-! ## The place of a word -/

theorem nextPc_pc_congr {c d : Ctx} (hpc : d.pc = c.pc) (hds : d.ds = c.ds) (hrep : d.rep = c.rep) : (nextPc d).pc = (nextPc c).pc := by
  unfold nextPc
  rw [hpc, hds, hrep]
  split
  · rfl
  · split
    · split <;> rfl
    · rfl

/-- The next place changes neither registers nor privilege nor mask. -/
theorem nextPc_keeps (c : Ctx) : (nextPc c).g = c.g ∧ (nextPc c).priv = c.priv ∧ (nextPc c).mask = c.mask := by
  unfold nextPc
  split
  · exact ⟨rfl, rfl, rfl⟩
  · split
    · split <;> exact ⟨rfl, rfl, rfl⟩
    · exact ⟨rfl, rfl, rfl⟩

/-- Where no result of safe mode is owed, the registers are as the word's own units leave them (R255). -/
theorem finishWord_g {n : Nat} (hn : n < 16) (isPrefix : Bool) {f : State → State} {s : State} {x : Thread}
    (hx : (f { s with free := s.free + 4096 }).thr n = x) (hs : x.stopReq = false) (hp : ∀ p ∈ x.ctx.pw, p.safe = false) :
    ((finishWord n isPrefix nextPc f s).thr n).ctx.g = x.ctx.g ∧ ((finishWord n isPrefix nextPc f s).thr n).issue = x.issue + 1 := by
  rw [finishWord_thr hn isPrefix nextPc hx hs, landWhere_none fun p h => by rw [hp p h]; rfl]
  refine ⟨?_, rfl⟩
  unfold afterCtx
  rw [modeStep_g]
  exact (nextPc_keeps _).1

/-! ## REP, REPN and LI -/

/-- The place after a REP or REPN: the word that it repeats (R239). -/
def repeatNext (r : Repeat) (c : Ctx) : Ctx := { c with rep := some r, pc := c.pc + 1 }

theorem runControl_repeat (repn : Bool) {n : Nat} {w : U32} {s : State} (h : (fd w 27 4 : BitVec 4).toNat = if repn then 4 else 3) :
    runControl n w s = finishWord n true (repeatNext {
      repn := repn, addr := (s.thr n).ctx.pc, left := repCount s (s.thr n).ctx w, first := true }) id s := by
  unfold runControl
  rw [h]
  cases repn <;> rfl

theorem finishWord_repeat {n : Nat} (hn : n < 16) (r : Repeat) {s : State} (hs : (s.thr n).stopReq = false) {t : Thread}
    (ht : (finishWord n true (repeatNext r) id s).thr n = t) :
    t.ctx.pc = (s.thr n).ctx.pc + 1 ∧ t.ctx.rep = some r ∧ t.issue = (s.thr n).issue + 1 := by
  obtain ⟨g, a, sat, scf, fmax, pw, e⟩ := finishWord_flow hn true (repeatNext r) id s (x := s.thr n) rfl hs
  rw [← ht, e]
  simp [repeatNext]

/-- The repeat of `c`'s row issues: REP where `repn` is false, REPN where it is true. -/
theorem repeat_runs (repn : Bool) {i : Instr} {n : Fin 16} {s : State} {w : U32} (h : Issues s n w)
    (hx : exec i s = .next (issue n (some (if repn then 4 else 3)) s)) (hr : rowOf w = if repn then 4 else 3) {c : Ctx}
    (hc : c = ((atIssue s n w).thr n).ctx) : Runs i s fun t =>
      (t.thr n).ctx.pc = c.pc + 1 ∧ (t.thr n).ctx.rep = some {
        repn := repn, addr := c.pc, left := repCount (atIssue s n w) c w, first := true } ∧
      (t.thr n).issue = ((atIssue s n w).thr n).issue + 1 := by
  subst hc
  obtain ⟨ho, hsub, _⟩ := rowOf_control hr (by cases repn <;> decide)
  refine h.runs hx hr ho ?_
  rw [runControl_repeat repn hsub]
  exact finishWord_repeat n.isLt _ (h.stopReq n.isLt) rfl

/-- The value that an LI leaves, by its LM (R221). -/
def liValue (w old : U32) : U32 :=
  match (fd w 20 2 : BitVec 2).toNat with
  | 0 => (fd w 0 20 : BitVec 20).signExtend 32
  | 1 => (fd w 0 20 : BitVec 20).zeroExtend 32
  | _ => (fd w 0 16 : BitVec 16) ++ (fd old 0 16 : BitVec 16)

theorem fd_fd_low (w : U32) : (fd (fd w 0 20 : BitVec 20) 0 16 : BitVec 16) = fd w 0 16 := by
  unfold fd
  rw [BitVec.extractLsb'_extractLsb'_of_le (by decide)]

/-- General register `r` of thread `n` takes `v`. -/
def writeG (n : Nat) (r : BitVec 5) (v : U32) (s : State) : State := s.modCtx n (fun c => setG s.clk.fc r v c)

theorem runControl_li {n : Nat} {w : U32} {s : State} (h : (fd w 27 4 : BitVec 4).toNat = 5) : runControl n w s =
    finishWord n false nextPc (writeG n (wDst w) (liValue w (readG s.free 58 (s.thr n).ctx (wDst w)))) s := by
  unfold runControl liValue
  rw [h, ← fd_fd_low]
  rfl

theorem setG_g (now : Nat) (r : BitVec 5) (v : U32) (c : Ctx) : vget (setG now r v c).g r.toNat 0 = v := vget_vset_self _ r.isLt _ _

theorem setG_pw {now : Nat} {r : BitVec 5} {v : U32} {c : Ctx} {p : PendWrite} (h : p ∈ (setG now r v c).pw) : p ∈ c.pw :=
  (List.mem_filter.mp h).1

theorem li_runs {n : Fin 16} {s : State} {w : U32} (h : Issues s n w) (hr : rowOf w = 5) {c : Ctx} (hc : c = ((atIssue s n w).thr n).ctx)
    (hp : ∀ p ∈ c.pw, p.safe = false) : Runs (.li n) s fun t =>
      vget (t.thr n).ctx.g (wDst w).toNat 0 = liValue w (readG (atIssue s n w).free 58 c (wDst w)) ∧
      (t.thr n).issue = ((atIssue s n w).thr n).issue + 1 := by
  subst hc
  obtain ⟨ho, hsub, _⟩ := rowOf_control hr (by decide)
  refine h.runs rfl hr ho ?_
  rw [runControl_li hsub]
  obtain ⟨hg, hissue⟩ := finishWord_g n.isLt false (f := writeG n (wDst w) _) (s := atIssue s n w) (thr_modCtx n.isLt _ _)
    (h.stopReq n.isLt) fun p hm => hp p (setG_pw hm)
  exact ⟨(congrArg (vget · (wDst w).toNat 0) hg).trans (setG_g ..), hissue⟩

/-- Settles O10. -/
theorem repeatAndImmediateWords : Obligations.RepeatAndImmediateWords := by
  refine ⟨fun n s w c h hr hc => repeat_runs false h rfl hr hc, fun n s w c h hr hc => repeat_runs true h rfl hr hc, ?_⟩
  rintro n s w c _ h hr hc rfl hp
  obtain ⟨t, hrun, hg, hissue⟩ := li_runs h hr hc hp
  refine ⟨t, hrun, fun h0 => ?_, fun h1 => ?_, fun h2 => ?_, hissue⟩
  · rw [hg, liValue, h0]; rfl
  · rw [hg, liValue, h1]; rfl
  · rw [hg, liValue, h2]; rfl

end Sys2Proof.Machine
end

section
/-! LR and SC (R268, R269, R271), and O11. -/

namespace Sys2Proof.Machine

/-! ## LR -/

/-- The reservation that an LR in data memory makes (R268). -/
def dataResv (s : State) (a : U32) : Reservation := { host := false, granule := BitVec.ofNat 64 (a.toNat / 16), fc := s.clk.fc }

theorem runLr_data {n : Nat} (hn : n < 16) {w : U32} {s0 : State} (s : State) {a : U32} (ha : aregOf s0 (s0.thr n).ctx w = a)
    (hd : regionOf a = .data) : ∃ pr, (runLr n w s0 s).thr n = { s.thr n with ctx := { (s.thr n).ctx with
      resv := some (dataResv s a)
      pw := insPw { what := .g (wDst w) (ofLE 32 (loadData a.toNat 4 s).1), due := s.clk.fc + 2, word := (s.thr n).words
                    safe := (s.thr n).safe, load := true } (s.thr n).ctx.pw
      prod := pr } } := by
  subst ha
  have only := loadData_only (aregOf s0 (s0.thr n).ctx w).toNat 4 s
  unfold runLr
  simp only [hd, if_true]
  generalize loadData (aregOf s0 (s0.thr n).ctx w).toNat 4 s = r at only ⊢
  obtain ⟨l, s'⟩ := r
  have hthr : s'.thr n = s.thr n := thr_of_seq only.seq n
  have hclk : s'.clk = s.clk := only.clk
  unfold atomicResult
  simp only [if_true]
  rw [thr_modCtx hn, thr_modCtx hn, hthr, State.modCtx_clk, hclk]
  exact ⟨_, rfl⟩

theorem runLr_parked {n : Nat} (hn : n < 16) {w : U32} {s0 : State} (s : State) {a : U32} (ha : aregOf s0 (s0.thr n).ctx w = a)
    (hd : regionOf a ≠ .data) : ∃ pr, (runLr n w s0 s).thr n = { s.thr n with
      run := .parked (.load .lr a (wDst w) (s.thr n).words s.clk.fc), before := some (s0.thr n).ctx, haddr := hostAddr s a
      ctx := { (s.thr n).ctx with resv := none, prod := pr } } := by
  subst ha
  unfold runLr
  simp only [if_neg hd]
  unfold parkLoad
  rw [thr_modCtx hn, State.thr_modThr _ _ hn]
  exact ⟨_, rfl⟩

theorem lr_runs {n : Fin 16} {s : State} {w : U32} (h : Issues s n w) (hr : rowOf w = 6) {u : State} (hu : u = atIssue s n w)
    {c : Ctx} (hc : c = (u.thr n).ctx) {a : U32} (ha : a = aregOf u c w) : Runs (.lr n) s fun t =>
      (regionOf a = .data → (t.thr n).ctx.resv = some (dataResv u a) ∧
        ∃ p ∈ (t.thr n).ctx.pw, p.what = .g (wDst w) (ofLE 32 (loadData a.toNat 4 { u with free := u.free + 4096 }).1)) ∧
      (regionOf a ≠ .data → (t.thr n).ctx.resv = none ∧
        (t.thr n).run = .parked (.load .lr a (wDst w) (u.thr n).words u.clk.fc) ∧ (t.thr n).before = some c) ∧
      (t.thr n).ctx.pc = (nextPc c).pc ∧ (t.thr n).issue = (u.thr n).issue + 1 := by
  subst hu hc
  obtain ⟨ho, hsub, _⟩ := rowOf_control hr (by decide)
  have hstop := h.stopReq n.isLt
  refine h.runs rfl hr ho ?_
  have hrun : runControl n w (atIssue s n w) = finishWord n false nextPc (runLr n w (atIssue s n w)) (atIssue s n w) := by
    unfold runControl
    rw [hsub]
    rfl
  rw [hrun]
  generalize atIssue s n w = u at hstop ha ⊢
  by_cases hd : regionOf a = .data
  · obtain ⟨pr, hx⟩ := runLr_data n.isLt { u with free := u.free + 4096 } ha.symm hd
    obtain ⟨y, rfl, -, -, hissue, hpc, hresv, -, -, hpw⟩ := finishWord_next n.isLt false _ u hx hstop
    refine ⟨fun _ => ⟨hresv, _, hpw _ (mem_insPw ..) (Nat.le_refl _), rfl⟩, absurd hd, hpc.trans ?_, hissue⟩
    exact nextPc_pc_congr rfl rfl rfl
  · obtain ⟨pr, hx⟩ := runLr_parked n.isLt { u with free := u.free + 4096 } ha.symm hd
    obtain ⟨y, rfl, hpark, hbefore, hissue, hpc, hresv, -⟩ := finishWord_next n.isLt false _ u hx hstop
    refine ⟨(absurd · hd), fun _ => ⟨hresv, hpark, hbefore⟩, hpc.trans ?_, hissue⟩
    exact nextPc_pc_congr rfl rfl rfl

/-! ## SC -/

/-- A thread's reservation ends. -/
def endResv (n : Nat) (s : State) : State := s.modCtx n (fun c => { c with resv := none })

theorem runSc_lost {n : Nat} {w : U32} {s0 : State} (s : State)
    (hh : holdsGranule s0 (s0.thr n).ctx (aregOf s0 (s0.thr n).ctx w) = false) :
    runSc n w s0 s = scAnswer n (wDst w) true (endResv n s) := by
  unfold runSc
  simp only [hh, Bool.not_false, if_true]
  rfl

/-- The store of an SC whose granule is held in data memory, and its answer (R269). -/
def scStore (n : Nat) (w : U32) (c : Ctx) (a d : U32) (s : State) : State :=
  scAnswer n (wDst w) false (postStore n c.pc a (bytesLE d 4) (endResv n s))

theorem runSc_stored {n : Nat} {w : U32} {s0 : State} (s : State) {c : Ctx} (hc : (s0.thr n).ctx = c) {a : U32} (ha : aregOf s0 c w = a)
    (hh : holdsGranule s0 c a = true) (hd : regionOf a = .data) : runSc n w s0 s =
    (scStore n w c a (sregOf s0 c w) s).modCtx n
      (fun c => produce ((endResv n s).thr n).words 2 (.row (BitVec.ofNat 16 (a.toNat / 16))) c) := by
  subst ha hc
  unfold runSc
  simp only [hh, hd, Bool.not_true, if_true]
  rfl

theorem runSc_parked {n : Nat} {w : U32} {s0 : State} (s : State) {c : Ctx} (hc : (s0.thr n).ctx = c) {a : U32}
    (ha : aregOf s0 c w = a) (hh : holdsGranule s0 c a = true) (hd : regionOf a ≠ .data) : runSc n w s0 s =
    (parkLoad n (.sc (sregOf s0 c w)) a (wDst w) c (endResv n s)).modCtx n (fun c =>
      produce ((endResv n s).thr n).words 3 .scf (produce ((endResv n s).thr n).words 3 (.g (wDst w)) c)) := by
  subst ha hc
  unfold runSc
  simp only [hh, if_neg hd, Bool.not_true, Bool.false_eq_true, if_false]
  rfl

theorem endResv_thr {n : Nat} (hn : n < 16) (s : State) :
    (endResv n s).thr n = { s.thr n with ctx := { (s.thr n).ctx with resv := none } } := thr_modCtx hn _ _

theorem runSc_parked_thr {n : Nat} (hn : n < 16) {w : U32} {s0 : State} (s : State) {c : Ctx} (hc : (s0.thr n).ctx = c) {a : U32}
    (ha : aregOf s0 c w = a) (hh : holdsGranule s0 c a = true) (hd : regionOf a ≠ .data) : ∃ pr, (runSc n w s0 s).thr n = { s.thr n with
      run := .parked (.load (.sc (sregOf s0 c w)) a (wDst w) (s.thr n).words s.clk.fc), before := some c, haddr := hostAddr s a
      ctx := { (s.thr n).ctx with resv := none, prod := pr } } := by
  rw [runSc_parked s hc ha hh hd, thr_modCtx hn]
  unfold parkLoad
  rw [State.thr_modThr _ _ hn, endResv_thr hn]
  exact ⟨_, rfl⟩


/-- A store to data memory leaves a thread that holds no reservation as it is, but for an imprecise cause (R262, R366). -/
theorem postStore_thr {n : Nat} (hn : n < 16) (pc : U16) {a : U32} (hd : regionOf a = .data) (l : List Byte) {s : State}
    (hr : (s.thr n).ctx.resv = none) : ∃ i, (postStore n pc a l s).thr n = { s.thr n with imp5 := i } := by
  unfold postStore
  rw [hd]
  dsimp only
  split
  · rw [State.thr_modThr _ _ hn]
    split
    · exact ⟨_, rfl⟩
    · exact ⟨_, rfl⟩
  · refine ⟨(s.thr n).imp5, ?_⟩
    rw [storeThread_thr hn, storeThread_none hn _ _ hr, ← hr]

/-- What the answer of an SC leaves for the word's place: the flow of `x`, no reservation, both results owed. -/
structure ScAnswered (w : U32) (fail : Bool) (x y : Thread) : Prop where
  counts : y.stopReq = x.stopReq ∧ y.issue = x.issue ∧ y.words = x.words
  place : y.ctx.pc = x.ctx.pc ∧ y.ctx.ds = x.ctx.ds ∧ y.ctx.rep = x.ctx.rep
  resv : y.ctx.resv = none
  dst : ∃ p ∈ y.ctx.pw, p.what = .g (wDst w) (if fail then 1 else 0) ∧ x.words ≤ p.word
  scf : ∃ p ∈ y.ctx.pw, p.what = .scf fail ∧ x.words ≤ p.word

theorem scAnswer_answers {n : Nat} (hn : n < 16) (w : U32) (fail : Bool) {s : State} (hs : (s.thr n).safe = false)
    (hr : (s.thr n).ctx.resv = none) : ScAnswered w fail (s.thr n) ((scAnswer n (wDst w) fail s).thr n) := by
  obtain ⟨pr, hx⟩ := scAnswer_thr hn (wDst w) fail hs
  rw [hx]
  exact ⟨⟨rfl, rfl, rfl⟩, ⟨rfl, rfl, rfl⟩, hr, ⟨_, mem_insPw_of _ _ _ (mem_insPw ..), rfl, Nat.le_refl _⟩, ⟨_, mem_insPw .., rfl, Nat.le_refl _⟩⟩

theorem scLost_answers {n : Nat} (hn : n < 16) (w : U32) {s : State} (hs : (s.thr n).safe = false) :
    ScAnswered w true (s.thr n) ((scAnswer n (wDst w) true (endResv n s)).thr n) := by
  have he := endResv_thr hn s
  have h := scAnswer_answers hn w true (s := endResv n s) (by rw [he]; exact hs) (by rw [he])
  rw [he] at h
  exact ⟨h.counts, h.place, h.resv, h.dst, h.scf⟩

theorem scStore_answers {n : Nat} (hn : n < 16) (w : U32) (c : Ctx) {a : U32} (hd : regionOf a = .data) (d : U32) {s : State}
    (hs : (s.thr n).safe = false) : ScAnswered w false (s.thr n) ((scStore n w c a d s).thr n) := by
  have he := endResv_thr hn s
  obtain ⟨i, hp⟩ := postStore_thr hn c.pc hd (bytesLE d 4) (s := endResv n s) (by rw [he])
  rw [he] at hp
  have h := scAnswer_answers hn w false (s := postStore n c.pc a (bytesLE d 4) (endResv n s)) (by rw [hp]; exact hs) (by rw [hp])
  rw [hp] at h
  exact ⟨h.counts, h.place, h.resv, h.dst, h.scf⟩

theorem ScAnswered.produced {n : Nat} (hn : n < 16) {w : U32} {fail : Bool} {x : Thread} {s : State} (h : ScAnswered w fail x (s.thr n))
    (word dist : Nat) (what : Prod) : ScAnswered w fail x ((s.modCtx n (fun c => produce word dist what c)).thr n) := by
  rw [thr_modCtx hn]
  exact ⟨h.counts, h.place, h.resv, h.dst, h.scf⟩

theorem scStore_data (n : Nat) (w : U32) (c : Ctx) {a : U32} (hd : regionOf a = .data) (d : U32) (s : State) :
    (scStore n w c a d s).mem.data =
      if partBad s a.toNat 4 then s.mem.data else memWrite s.mem.data a.toNat (bytesLE d 4) := by
  have hm : (scStore n w c a d s).mem = (postStore n c.pc a (bytesLE d 4) (endResv n s)).mem := (scAnswer_only ..).mem
  have hb : partBad (endResv n s) a.toNat 4 = partBad s a.toNat 4 := rfl
  rw [hm, postStore_data, hd, bytesLE_length, hb]
  cases partBad s a.toNat 4 <;> rfl

/-- An answered SC, finished: it goes on with no reservation, and both of its results are owed (R247, R269). -/
theorem ScAnswered.finished {n : Nat} (hn : n < 16) {w : U32} {fail : Bool} {f : State → State} {s : State}
    (h : ScAnswered w fail (s.thr n) ((f { s with free := s.free + 4096 }).thr n)) (hs : (s.thr n).stopReq = false) {y : Thread}
    (hy : (finishWord n false nextPc f s).thr n = y) :
    y.ctx.resv = none ∧ y.ctx.pc = (nextPc (s.thr n).ctx).pc ∧ y.issue = (s.thr n).issue + 1 ∧
      (∃ p ∈ y.ctx.pw, p.what = .g (wDst w) (if fail then 1 else 0)) ∧ ∃ p ∈ y.ctx.pw, p.what = .scf fail := by
  obtain ⟨⟨cstop, cissue, cwords⟩, ⟨ppc, pds, prep⟩, resv, ⟨p, hp, pwhat, pword⟩, ⟨q, hq, qwhat, qword⟩⟩ := h
  obtain ⟨z, hz, -, -, hissue, hpc, hresv, -, -, hpw⟩ := finishWord_next hn false f s rfl (cstop.trans hs)
  obtain rfl : z = y := hz.symm.trans hy
  exact ⟨hresv.trans resv, hpc.trans (nextPc_pc_congr ppc pds prep), hissue.trans (congrArg (· + 1) cissue),
    ⟨p, hpw p hp (cwords ▸ pword), pwhat⟩, ⟨q, hpw q hq (cwords ▸ qword), qwhat⟩⟩

theorem sc_runs {n : Fin 16} {s : State} {w : U32} (h : Issues s n w) (hr : rowOf w = 7) {u : State} (hu : u = atIssue s n w)
    {c : Ctx} (hc : c = (u.thr n).ctx) {a : U32} (ha : a = aregOf u c w) (hs : (u.thr n).safe = false) : Runs (.sc n) s fun t =>
      (t.thr n).ctx.resv = none ∧ (t.thr n).ctx.pc = (nextPc c).pc ∧ (t.thr n).issue = (u.thr n).issue + 1 ∧
      (holdsGranule u c a = false → t.mem = u.mem ∧
        (∃ p ∈ (t.thr n).ctx.pw, p.what = .g (wDst w) 1) ∧ ∃ p ∈ (t.thr n).ctx.pw, p.what = .scf true) ∧
      (holdsGranule u c a = true → regionOf a = .data →
        t.mem.data = (if partBad u a.toNat 4 then u.mem.data else memWrite u.mem.data a.toNat (bytesLE (sregOf u c w) 4)) ∧
        (∃ p ∈ (t.thr n).ctx.pw, p.what = .g (wDst w) 0) ∧ ∃ p ∈ (t.thr n).ctx.pw, p.what = .scf false) ∧
      (holdsGranule u c a = true → regionOf a ≠ .data →
        t.mem = u.mem ∧ (t.thr n).run = .parked (.load (.sc (sregOf u c w)) a (wDst w) (u.thr n).words u.clk.fc)) := by
  subst hu hc
  obtain ⟨ho, hsub, _⟩ := rowOf_control hr (by decide)
  have hstop := h.stopReq n.isLt
  refine h.runs rfl hr ho ?_
  have hrun : runControl n w (atIssue s n w) = finishWord n false nextPc (runSc n w (atIssue s n w)) (atIssue s n w) := by
    unfold runControl
    rw [hsub]
    rfl
  rw [hrun]
  generalize atIssue s n w = u at hstop ha hs ⊢
  have hmem := finishWord_mem n false nextPc (runSc n w u) u
  cases hh : holdsGranule u (u.thr n).ctx a with
  | false =>
    have hx := runSc_lost { u with free := u.free + 4096 } (ha ▸ hh)
    have ans : ScAnswered w true (u.thr n) ((runSc n w u { u with free := u.free + 4096 }).thr n) := by
      rw [hx]
      exact scLost_answers n.isLt w hs
    obtain ⟨hresv, hpc, hissue, hdst, hscf⟩ := ans.finished n.isLt hstop rfl
    refine ⟨hresv, hpc, hissue, fun _ => ⟨?_, hdst, hscf⟩, nofun, nofun⟩
    rw [hmem, hx, (scAnswer_only ..).mem]
    rfl
  | true =>
    by_cases hd : regionOf a = .data
    · have hx := runSc_stored { u with free := u.free + 4096 } rfl ha.symm hh hd
      have ans : ScAnswered w false (u.thr n) ((runSc n w u { u with free := u.free + 4096 }).thr n) := by
        rw [hx]
        exact (scStore_answers (s := { u with free := u.free + 4096 }) n.isLt w (u.thr n).ctx hd _ hs).produced n.isLt ..
      obtain ⟨hresv, hpc, hissue, hdst, hscf⟩ := ans.finished n.isLt hstop rfl
      refine ⟨hresv, hpc, hissue, nofun, fun _ _ => ⟨?_, hdst, hscf⟩, fun _ k => absurd hd k⟩
      rw [hmem, hx, (State.modCtx_only ..).mem, scStore_data n w _ hd]
      rfl
    · obtain ⟨pr, hx⟩ := runSc_parked_thr n.isLt { u with free := u.free + 4096 } rfl ha.symm hh hd
      obtain ⟨y, rfl, hpark, -, hissue, hpc, hresv, -⟩ := finishWord_next n.isLt false _ u hx hstop
      exact ⟨hresv, hpc.trans (nextPc_pc_congr rfl rfl rfl), hissue, nofun, fun _ k => absurd k hd,
        fun _ _ => ⟨hmem.trans ((congrArg State.mem (runSc_parked _ rfl ha.symm hh hd)).trans rfl), hpark⟩⟩

/-- Settles O11. -/
theorem reservedAndConditionalWords : Obligations.ReservedAndConditionalWords :=
  ⟨fun _ _ _ _ _ _ h hr hu hc ha => lr_runs h hr hu hc ha, fun _ _ _ _ _ _ h hr hu hc ha hs => sc_runs h hr hu hc ha hs⟩

end Sys2Proof.Machine
end

section
/-! MODE, WAIT, FENCE and SYS (R266, R273, R276-R278, R375), and O12. -/

namespace Sys2Proof.Machine

/-! ## MODE (R273) -/

/-- The place of a MODE: the next word, with its shadow over the two words behind it. -/
def modeNext (m : ModeShadow) (c : Ctx) : Ctx := { nextPc c with msh := some m }

/-- A shadow with words to go moves on and changes nothing else. -/
theorem modeStep_left {c : Ctx} {m : ModeShadow} (h : c.msh = some m) (hl : ¬m.left ≤ 1) :
    modeStep c = { c with msh := some { m with left := m.left - 1 } } := by
  unfold modeStep
  rw [h]
  exact if_neg hl

theorem finishWord_mode {n : Nat} (hn : n < 16) {m : ModeShadow} (hm : m.left = 3) {s : State} (hs : (s.thr n).stopReq = false)
    {t : Thread} (ht : (finishWord n false (modeNext m) id s).thr n = t) :
    t.ctx.msh = some { m with left := 2 } ∧ t.ctx.priv = (s.thr n).ctx.priv ∧ t.ctx.mask = (s.thr n).ctx.mask ∧
      t.ctx.pc = (nextPc (s.thr n).ctx).pc ∧ t.issue = (s.thr n).issue + 1 := by
  obtain ⟨g, a, sat, scf, fmax, pw, e⟩ := finishWord_flow hn false (modeNext m) id s (x := s.thr n) rfl hs
  obtain ⟨-, hpriv, hmask⟩ := nextPc_keeps (s.thr n).ctx
  rw [← ht, e, modeStep_left (m := m) rfl (by rw [hm]; decide), hm]
  refine ⟨rfl, ?_, ?_, ?_, rfl⟩
  all_goals
    unfold modeNext
    dsimp only [id]
    rw [nextPc_eq]
  · exact hpriv
  · exact hmask

theorem mode_runs {n : Fin 16} {s : State} {w : U32} (h : Issues s n w) (hr : rowOf w = 9) {u : State} (hu : u = atIssue s n w)
    {c : Ctx} (hc : c = (u.thr n).ctx) : Runs (.mode n) s fun t =>
      (t.thr n).ctx.msh = some { modeShadow w 3 with left := 2 } ∧
      (t.thr n).ctx.priv = c.priv ∧ (t.thr n).ctx.mask = c.mask ∧ (t.thr n).ctx.pc = (nextPc c).pc ∧ (t.thr n).issue = (u.thr n).issue + 1 := by
  subst hu hc
  obtain ⟨ho, hsub, _⟩ := rowOf_control hr (by decide)
  refine h.runs rfl hr ho ?_
  have hrun : runControl n w (atIssue s n w) = finishWord n false (modeNext (modeShadow w 3)) id (atIssue s n w) := by
    unfold runControl
    rw [hsub]
    rfl
  rw [hrun]
  exact finishWord_mode n.isLt rfl (h.stopReq n.isLt) rfl

/-! ## WAIT and FENCE (R266, R277, R278) -/

/-- Thread `n` stops issuing and is in run state `r`. -/
def suspend (n : Nat) (r : RunState) (s : State) : State := s.modThr n (fun t => { t with run := r })

theorem suspend_thr {n : Nat} (hn : n < 16) (r : RunState) (s : State) : (suspend n r s).thr n = { s.thr n with run := r } :=
  State.thr_modThr _ _ hn

/-- The wait that a WAIT issued in `s` begins. -/
def waitOf (s : State) (w : U32) : Waiting :=
  { cond := wCond w, inv := bit w 18, evt := bit w 17
    deadline := if (fd w 0 16 : BitVec 16).toNat = 0 then none else some (s.clk.fc + 16 * (fd w 0 16 : BitVec 16).toNat) }

theorem wait_runs {n : Fin 16} {s : State} {w : U32} (h : Issues s n w) (hr : rowOf w = 10) {u : State} (hu : u = atIssue s n w)
    {c : Ctx} (hc : c = (u.thr n).ctx) : Runs (.wait n) s fun t =>
      (t.thr n).run = .waiting (waitOf u w) ∧ (t.thr n).ctx.pc = c.pc ∧ (t.thr n).issue = (u.thr n).issue + 1 := by
  subst hu hc
  obtain ⟨ho, hsub, _⟩ := rowOf_control hr (by decide)
  have hstop := h.stopReq n.isLt
  refine h.runs rfl hr ho ?_
  have hrun : runControl n w (atIssue s n w) =
      finishWord n false id (suspend n (.waiting (waitOf (atIssue s n w) w))) (atIssue s n w) := by
    unfold runControl
    rw [hsub]
    rfl
  rw [hrun]
  generalize atIssue s n w = u at hstop ⊢
  obtain ⟨g, a, sat, scf, fmax, pw, e⟩ := finishWord_flow n.isLt false id _ u (suspend_thr n.isLt (.waiting (waitOf u w)) _) hstop
  rw [e]
  exact ⟨rfl, modeStep_pc _, rfl⟩

theorem fence_runs {n : Fin 16} {s : State} {w : U32} (h : Issues s n w) (hr : rowOf w = 11) {u : State} (hu : u = atIssue s n w)
    {c : Ctx} (hc : c = (u.thr n).ctx) : Runs (.fence n) s fun t =>
      (t.thr n).run = .parked (.fence (fd w 0 2)) ∧ (t.thr n).ctx.pc = (nextPc c).pc ∧ (t.thr n).issue = (u.thr n).issue + 1 := by
  subst hu hc
  obtain ⟨ho, hsub, _⟩ := rowOf_control hr (by decide)
  have hstop := h.stopReq n.isLt
  refine h.runs rfl hr ho ?_
  have hrun : runControl n w (atIssue s n w) =
      finishWord n false nextPc (suspend n (.parked (.fence (fd w 0 2)))) (atIssue s n w) := by
    unfold runControl
    rw [hsub]
    rfl
  rw [hrun]
  generalize atIssue s n w = u at hstop ⊢
  obtain ⟨y, rfl, hpark, -, hissue, hpc, -⟩ := finishWord_next n.isLt false _ u (suspend_thr n.isLt (.parked (.fence (fd w 0 2))) _) hstop
  exact ⟨hpark, hpc, hissue⟩

/-! ## SYS (R276, R375) -/

/-- A park of an entry decided one fc later ends one fc later. -/
def RunState.oneLater : RunState → RunState
  | .parked (.until f) => .parked (.until (f + 1))
  | r => r

/-- The entry of `s` for thread `n`, decided one fc later (R366, R375). -/
def enteredLater (n : Nat) (s : State) : State :=
  s.modThr n (fun t => { t with holdUntil := t.holdUntil + 1, run := t.run.oneLater })

/-- The entry that a SYS makes from the boundary behind it (R276, R377). -/
def sysEntry (w : U32) (pc : U16) (t : Thread) : Escalation :=
  { vec := 32 + (fd w 0 5 : BitVec 5).zeroExtend 6, ret := (resumePoint t.ctx).1, status := (resumePoint t.ctx).2, xpc := pc, xaddr := 0 }

theorem runControl_sys {n : Nat} {w : U32} {s v : State} (h : (fd w 27 4 : BitVec 4).toNat = 8) (hv : finishWord n false nextPc id s = v) :
    runControl n w s = enteredLater n (takeEntry n true (sysEntry w (s.thr n).ctx.pc (v.thr n)) v) := by
  subst hv
  unfold runControl
  rw [h]
  rfl

theorem sys_runs {n : Fin 16} {s : State} {w : U32} (h : Issues s n w) (hr : rowOf w = 8) {u : State} (hu : u = atIssue s n w)
    {v : State} (hv : v = finishWord n false nextPc id u) (hm : (v.thr n).mon = false) (hsp : (v.thr n).spill = false)
    {e : Escalation} (he : e = sysEntry w (u.thr n).ctx.pc (v.thr n)) {v2 : State} (h2 : tableEntry n true e v = some v2) :
    Runs (.sys n) s fun t =>
      (t.thr n).xvec = e.vec ∧ (t.thr n).xpc = e.xpc ∧ (t.thr n).xaddr = e.xaddr ∧ (t.thr n).depth = (u.thr n).depth + 1 ∧
      (t.thr n).ctx.pc = fd (descriptor v e.vec) 0 16 ∧ (t.thr n).ctx.priv = fd (descriptor v e.vec) 16 2 ∧ t.mem = v2.mem ∧
      (t.thr n).run = (v2.thr n).run.oneLater := by
  subst hu
  obtain ⟨ho, hsub, _⟩ := rowOf_control hr (by decide)
  have hstop := h.stopReq n.isLt
  refine h.runs rfl hr ho ?_
  rw [runControl_sys hsub hv.symm, ← he, takeEntry_table hm hsp h2]
  obtain ⟨hvec, hxpc, hxaddr, hdepth, hpc, hpriv, -⟩ := tableEntry_thr n.isLt h2
  have hd : (v.thr n).depth = ((atIssue s n w).thr n).depth := by rw [hv, finishWord_id_thr n.isLt false nextPc hstop]
  unfold enteredLater
  rw [State.thr_modThr _ _ n.isLt, ← hd]
  exact ⟨hvec, hxpc, hxaddr, hdepth, hpc, hpriv, rfl, rfl⟩

/-- Settles O12. -/
theorem modeWaitFenceSysWords : Obligations.ModeWaitFenceSysWords := by
  refine ⟨fun n s w u c h hr hu hc => mode_runs h hr hu hc, fun n s w u c h hr hu hc => wait_runs h hr hu hc,
    fun n s w u c h hr hu hc => fence_runs h hr hu hc, ?_⟩
  rintro n s w u _ v e v2 h hr hu rfl hv hm hsp he h2
  obtain ⟨t, hrun, hvec, hxpc, hxaddr, hdepth, hpc, hpriv, hmem, hstate⟩ := sys_runs h hr hu hv hm hsp he h2
  subst he
  exact ⟨t, hrun, hvec, hxpc, hxaddr, hdepth, hpc, hpriv, hmem, hstate⟩

end Sys2Proof.Machine
end

section
/-! What ends a park, a reservation or a wait (R263, R266, R270, R271, R277, R278, R366), and O14. -/

namespace Sys2Proof.Machine

/-! ## Values that return (R247, R255, R263) -/

/-- Outside safe mode loaded values are in their registers at once (R247, R255). -/
theorem writeLoaded_plain {n : Nat} (kind : LoadKind) (word : Nat) (vals : List (BitVec 5 × U32)) {s : State}
    (hs : (s.thr n).safe = false) : writeLoaded n kind false word vals s =
      s.modCtx n (fun c => vals.foldl (fun c v => setG s.clk.fc v.1 v.2 c) c) := by
  unfold writeLoaded
  simp only [hs, Bool.false_and, Bool.false_eq_true, if_false]

theorem unpark_thr {n : Nat} (hn : n < 16) (s : State) : (unpark n s).thr n = { s.thr n with
    run := .ready, before := none, holdUntil := s.clk.fc + 1, heldActs := [], imp11 := (s.thr n).imp11 ++ (s.thr n).heldImp
    heldImp := [] } := State.thr_modThr { s with due := s.due ++ (s.thr n).heldActs } _ hn

/-- A parked thread whose one value has come goes on from the next fc, with that value in its register (R263). -/
theorem loadDone_one {n : Nat} (hn : n < 16) (kind : LoadKind) (word : Nat) (r : BitVec 5) (z : U32) {s : State}
    (hs : (s.thr n).safe = false) {t : Thread} (ht : (loadDone n kind false word [(r, z)] s).thr n = t) :
    t.run = .ready ∧ t.holdUntil = s.clk.fc + 1 ∧ t.ctx = setG s.clk.fc r z (s.thr n).ctx := by
  unfold loadDone at ht
  dsimp only at ht
  rw [writeLoaded_plain kind word _ hs, if_neg Bool.false_ne_true, unpark_thr hn, thr_modCtx hn] at ht
  subst ht
  exact ⟨rfl, rfl, rfl⟩

/-! ## Answers of host memory (R263, R271) -/

/-- The answer to a load or LR ends the stores that it waited behind (R264, R265). -/
def answeredStores (n : Nat) (s : State) : State := s.modThr n (fun t => { t with stores := hostStoresDone t })

theorem answeredStores_thr {n : Nat} (hn : n < 16) (s : State) :
    (answeredStores n s).thr n = { s.thr n with stores := hostStoresDone (s.thr n) } := State.thr_modThr _ _ hn

/-- The access that a parked thread awaits gets its answer from host memory. -/
theorem loadReturn_host {n : Nat} {kind : LoadKind} {a : U32} {x : BitVec 5} {word at_ : Nat} {s : State} (ho : (s.thr n).owing = none)
    (hr : (s.thr n).run = .parked (.load kind a x word at_)) (ha : regionOf a = .host) (resp : LoadResp) :
    loadReturn n resp s = hostAnswer n false kind a x word at_ resp s := by
  unfold loadReturn awaited
  simp only [ho, hr, ha]

theorem hostAnswer_plain {n : Nat} (lsz : BitVec 3) (a : U32) (x : BitVec 5) (word at_ : Nat) (v : BitVec 128) (s : State) :
    hostAnswer n false (.plain lsz) a x word at_ (.okay v) s =
      loadDone n (.plain lsz) false word (loadVals lsz x v) (answeredStores n s) := rfl

theorem hostAnswer_lr {n : Nat} (a : U32) (x : BitVec 5) (word at_ : Nat) (v : BitVec 128) (s : State) :
    hostAnswer n false .lr a x word at_ (.exokay v) s =
      (loadDone n .lr false word [(x, v.truncate 32)] (answeredStores n s)).modCtx n (fun c => { c with
        resv := some { host := true, granule := BitVec.ofNat 64 ((s.thr n).haddr.toNat / 16), fc := at_ } }) := rfl

/-- The exclusive store of an SC to host memory, which ends every reservation of its granule (R270, R271). -/
def scWrite (h : U48) (d : U32) (s : State) : State := dropResv true (h.toNat / 16) (hostWrite s h (bytesLE d 4))

theorem hostAnswer_sc {n : Nat} (d : U32) (a : U32) (x : BitVec 5) (word at_ : Nat) (v : BitVec 128) (s : State) :
    hostAnswer n false (.sc d) a x word at_ (.exokay v) s =
      (loadDone n (.sc d) false word [(x, 0)] (scWrite (s.thr n).haddr d s)).modCtx n (fun c => { c with scf := false }) := rfl

/-- What the data of a host load leave. -/
theorem loadDataReturn_runs {n : Fin 16} {s : State} {a : U32} {lsz : BitVec 3} {x : BitVec 5} {word at_ : Nat} {v : BitVec 128}
    {r : BitVec 5} {z : U32} (hc : coreOff s = false) (ho : (s.thr n).owing = none) (hs : (s.thr n).safe = false)
    (hr : (s.thr n).run = .parked (.load (.plain lsz) a x word at_)) (ha : regionOf a = .host) (hv : loadVals lsz x v = [(r, z)]) :
    Runs (.loadDataReturn n (.okay v)) s fun t =>
      (t.thr n).run = .ready ∧ (t.thr n).holdUntil = s.clk.fc + 1 ∧ vget (t.thr n).ctx.g r.toNat 0 = z ∧
        (t.thr n).ctx.pc = (s.thr n).ctx.pc ∧ t.mem = s.mem := by
  refine .of_exec (exec_event rfl hc) ?_
  rw [loadReturn_host ho hr ha, hostAnswer_plain, hv]
  have hthr := answeredStores_thr n.isLt s
  obtain ⟨hready, hhold, hctx⟩ := loadDone_one n.isLt (.plain lsz) word r z (s := answeredStores n s) (by rw [hthr]; exact hs) rfl
  rw [hthr] at hctx
  exact ⟨hready, hhold, by rw [hctx, setG_g], by rw [hctx]; rfl, (loadDone_only ..).mem⟩

theorem lrReturn_runs {n : Fin 16} {s : State} {a : U32} {x : BitVec 5} {word at_ : Nat} (v : BitVec 128)
    (hc : coreOff s = false) (ho : (s.thr n).owing = none) (hs : (s.thr n).safe = false)
    (hr : (s.thr n).run = .parked (.load .lr a x word at_)) (ha : regionOf a = .host) :
    Runs (.loadDataReturn n (.exokay v)) s fun t =>
      (t.thr n).run = .ready ∧ vget (t.thr n).ctx.g x.toNat 0 = v.truncate 32 ∧
        (t.thr n).ctx.resv = some { host := true, granule := BitVec.ofNat 64 ((s.thr n).haddr.toNat / 16), fc := at_ } ∧
        t.mem = s.mem := by
  refine .of_exec (exec_event rfl hc) ?_
  rw [loadReturn_host ho hr ha, hostAnswer_lr, thr_modCtx n.isLt, State.modCtx_mem]
  have hthr := answeredStores_thr n.isLt s
  obtain ⟨hready, -, hctx⟩ := loadDone_one n.isLt .lr word x (v.truncate 32) (s := answeredStores n s) (by rw [hthr]; exact hs) rfl
  rw [hctx]
  exact ⟨hready, setG_g s.clk.fc _ _ _, rfl, (loadDone_only ..).mem⟩

theorem scReturn_runs {n : Fin 16} {s : State} {a : U32} {x : BitVec 5} {word at_ : Nat} (v : BitVec 128) {d : U32}
    (hc : coreOff s = false) (ho : (s.thr n).owing = none) (hs : (s.thr n).safe = false)
    (hr : (s.thr n).run = .parked (.load (.sc d) a x word at_)) (ha : regionOf a = .host) :
    Runs (.loadDataReturn n (.exokay v)) s fun t =>
      (t.thr n).run = .ready ∧ vget (t.thr n).ctx.g x.toNat 0 = 0 ∧ (t.thr n).ctx.scf = false ∧
        t.mem = (hostWrite s (s.thr n).haddr (bytesLE d 4)).mem := by
  refine .of_exec (exec_event rfl hc) ?_
  rw [loadReturn_host ho hr ha, hostAnswer_sc, thr_modCtx n.isLt, State.modCtx_mem]
  have hsafe : ((scWrite (s.thr n).haddr d s).thr n).safe = false := by
    unfold scWrite
    rw [dropResv_thr n.isLt, thr_of_seq (hostWrite_only ..).seq]
    exact hs
  obtain ⟨hready, -, hctx⟩ := loadDone_one n.isLt (.sc d) word x 0 hsafe rfl
  rw [hctx]
  exact ⟨hready, setG_g s.clk.fc _ _ _, rfl, (loadDone_only ..).mem.trans (dropResv_only ..).mem⟩

/-! ## Posted stores and reservations (R270, R366) -/

theorem postedStoreError_runs {n : Fin 16} {a : U32} {s : State} {p : Posted} (hc : coreOff s = false)
    (hp : (s.thr n).stores.find? (fun p => p.addr = a && regionOf p.addr = .host) = some p) :
    Runs (.postedStoreError n a) s fun t => t.thr n = { s.thr n with
      stores := (s.thr n).stores.erase p
      imp12 := if (s.thr n).imp12.isSome then (s.thr n).imp12 else some p } := by
  refine .of_exec (exec_event rfl hc) ?_
  unfold storeError
  dsimp only
  rw [hp]
  exact State.thr_modThr _ _ n.isLt

theorem reservationExpiry_runs {n : Fin 16} {s : State} {r : Reservation} (hc : coreOff s = false) (hr : (s.thr n).ctx.resv = some r)
    (hd : r.fc + 256 ≤ s.clk.fc) : Runs (.reservationExpiry n) s fun t =>
      t.thr n = { s.thr n with ctx := { (s.thr n).ctx with resv := none } } := by
  refine .of_exec (exec_event rfl hc) ?_
  unfold reservationExpiry
  rw [thr_modCtx n.isLt]
  dsimp only
  rw [hr]
  dsimp only
  rw [if_pos hd]

/-! ## FENCE and WAIT (R266, R277, R278) -/

theorem fenceComplete_runs {n : Fin 16} {s : State} {kind : BitVec 2} (hc : coreOff s = false)
    (hr : (s.thr n).run = .parked (.fence kind)) (hd : fenceDone s n kind = true) :
    Runs (.fenceComplete n) s fun t => (t.thr n).run = .ready ∧
      (t.thr n).ctx = { (s.thr n).ctx with stale := if kind = 1 then (s.thr n).ctx.stale else [] } ∧
      (kind ≠ 2 → (t.thr n).stores = hostStoresDone (s.thr n)) := by
  refine .of_exec (exec_event rfl hc) ?_
  unfold fenceComplete
  rw [hr]
  dsimp only
  rw [if_pos hd, State.thr_modThr _ _ n.isLt]
  exact ⟨rfl, rfl, fun hk => if_neg hk⟩

theorem endWait_thr {n : Nat} (hn : n < 16) (timeout : Bool) (s : State) : (endWait n timeout s).thr n = { s.thr n with
    ctx := { (s.thr n).ctx with pc := (s.thr n).ctx.pc + 1, wto := timeout }, run := .ready
    holdUntil := if timeout then s.clk.fc else s.clk.fc + 1 } := State.thr_modThr _ _ hn

theorem waitEnd_runs {n : Fin 16} {s : State} {w : Waiting} (hc : coreOff s = false) (hr : (s.thr n).run = .waiting w)
    (hi : issuing s = true) (hw : waitSeen s n w = true) : Runs (.waitEnd n) s fun t =>
      (t.thr n).run = .ready ∧ (t.thr n).ctx.pc = (s.thr n).ctx.pc + 1 ∧ (t.thr n).ctx.wto = false ∧
        (t.thr n).holdUntil = s.clk.fc + 1 := by
  refine .of_exec (exec_event rfl hc) ?_
  unfold waitEnd
  rw [hr]
  dsimp only
  rw [hi, hw, Bool.true_and, if_pos rfl, endWait_thr n.isLt]
  exact ⟨rfl, rfl, rfl, rfl⟩

theorem waitTimeout_runs {n : Fin 16} {s : State} {w : Waiting} {d : Nat} (hc : coreOff s = false) (hr : (s.thr n).run = .waiting w)
    (hi : issuing s = true) (hd : w.deadline = some d) (hf : d ≤ s.clk.fc) : Runs (.waitTimeout n) s fun t =>
      (t.thr n).run = .ready ∧ (t.thr n).ctx.pc = (s.thr n).ctx.pc + 1 ∧ (t.thr n).ctx.wto = true := by
  refine .of_exec (exec_event rfl hc) ?_
  unfold waitTimeout
  rw [hr]
  dsimp only
  rw [hd]
  dsimp only
  rw [hi, decide_eq_true hf, Bool.true_and, if_pos rfl, endWait_thr n.isLt]
  exact ⟨rfl, rfl, rfl⟩

/-- Settles O14. -/
theorem loadsFencesWaitsEnd : Obligations.LoadsFencesWaitsEnd :=
  ⟨fun _ _ _ _ _ _ _ _ _ _ hc ho hs hr ha hv => loadDataReturn_runs hc ho hs hr ha hv,
    fun _ _ _ _ _ _ v hc ho hs hr ha => lrReturn_runs v hc ho hs hr ha,
    fun _ _ _ _ _ _ v _ hc ho hs hr ha => scReturn_runs v hc ho hs hr ha,
    fun _ _ _ _ hc hp => postedStoreError_runs hc hp, fun _ _ _ hc hr hd => reservationExpiry_runs hc hr hd,
    fun _ _ _ hc hr hd => fenceComplete_runs hc hr hd, fun _ _ _ hc hr hi hw => waitEnd_runs hc hr hi hw,
    fun _ _ _ _ hc hr hi hd hf => waitTimeout_runs hc hr hi hd hf⟩

end Sys2Proof.Machine
end

section
/-! The Turnout's claims, completions, polls and writes, and SCOND (R298, R627, R629-R631, R639, R640), and O28. -/

namespace Sys2Proof.Machine

/-! ## Claims (R622, R629, R630) -/

/-- A claim takes one event of a source that is not raised in this fc (R622, R629). -/
theorem takeCount_quiet {k : Nat} {s : State} (h : ∀ r ∈ s.tur.raised, r.src ≠ BitVec.ofNat 9 k) :
    takeCount k s = s.modSrc k (fun c => { c with cnt := c.cnt - 1, route := none }) := by
  have hf : s.tur.raised.find? (fun r => r.src = BitVec.ofNat 9 k) = none :=
    List.find?_eq_none.mpr fun r hr => by simpa using h r hr
  unfold takeCount
  dsimp only
  rw [hf]

theorem claimTarget_some {t k : Nat} {s : State} (hk : claimFor s t = some k) (h : ∀ r ∈ s.tur.raised, r.src ≠ BitVec.ofNat 9 k) :
    claimTarget t s = (claimWord s false (some k),
      (s.modSrc k (fun c => { c with cnt := c.cnt - 1, route := none })).modSrc k (fun c =>
        { c with service := some (.target (BitVec.ofNat 3 t)) })) := by
  unfold claimTarget
  rw [hk]
  dsimp only
  rw [takeCount_quiet h]

theorem claimTarget_none {t : Nat} {s : State} (h : claimFor s t = none) : claimTarget t s = (0xFFFF, s) := by
  unfold claimTarget
  rw [h]

theorem claimRead_none {t : Nat} {s : State} (h : claimFor s t = none) (thread : Option Nat) : claimRead thread t s = s := by
  unfold claimRead
  rw [h]
  rfl

/-- A read of CLAIM that claims a source changes no source beside what the claim changes. -/
theorem claimRead_source {t k : Nat} {s : State} (h : claimFor s t = some k) (thread : Option Nat) (j : Nat) :
    (claimRead thread t s).source j = (claimTarget t s).2.source j := by
  unfold claimRead State.source
  rw [h, if_neg (by exact Bool.false_ne_true)]

theorem exec_claim {t : Fin 8} {s : State} (hc : coreOff s = false) (ht : claimTurn s none (0x3004 + 0x10 * t.val) = true) :
    exec (.claim .host t) s = .next (answer (claimRead none t s) .host { data := (claimTarget t s).1 }) := by
  have hx : exec (.claim .host t) s = .next (readRow .host (0x3004 + 0x10 * t.val) s) := rfl
  obtain ⟨hv, he⟩ := regRead_claim .host t s
  rw [hx, readRow_host (by omega) (by omega) hc ht, hv, he]
  rfl

theorem claim_runs {t : Fin 8} {s : State} (hc : coreOff s = false) (ht : claimTurn s none (0x3004 + 0x10 * t.val) = true) :
    (claimFor s t = none → Runs (.claim .host t) s fun u => u.apb = { rdata := 0xFFFF, slverr := false } ∧ u.tur = s.tur) ∧
    (∀ k : Fin 512, claimFor s t = some k.val → (∀ r ∈ s.tur.raised, r.src ≠ BitVec.ofNat 9 k) →
      Runs (.claim .host t) s fun u => u.apb = { rdata := claimWord s false (some k), slverr := false } ∧
        u.source k = { s.source k with
          cnt := (s.source k).cnt - 1, route := none, service := some (.target (BitVec.ofNat 3 t)) } ∧
        ∀ j, j ≠ k.val → u.source j = s.source j) := by
  refine ⟨fun h0 => .of_exec (exec_claim hc ht) ?_, fun k hk hq => .of_exec (exec_claim hc ht) ?_⟩
  · rw [claimRead_none h0, claimTarget_none h0]
    exact ⟨rfl, rfl⟩
  · have hs (j : Nat) : (answer (claimRead none t s) .host { data := (claimTarget t s).1 }).source j = (claimTarget t s).2.source j :=
      (source_eq j (answer_tur ..)).trans (claimRead_source hk none j)
    have hclaim := claimTarget_some hk hq
    refine ⟨by rw [hclaim]; rfl, ?_, fun j hj => ?_⟩
    · rw [hs, hclaim, State.source_modSrc _ _ k.isLt, State.source_modSrc _ _ k.isLt]
    · rw [hs, hclaim, State.source_modSrc_other _ _ hj, State.source_modSrc_other _ _ hj]

/-! ## COMPLETE (R631) -/

theorem hwSet_tgt (off : Nat) (bits : U32) (s : State) : (hwSet off bits s).tur.tgt = s.tur.tgt := by
  unfold hwSet
  split <;> rfl

theorem completeWrite_ends {t : Nat} {v : U32} {s : State}
    (h : (s.source (fd v 0 9 : BitVec 9).toNat).service = some (.target (BitVec.ofNat 3 t))) :
    completeWrite t v s = s.modSrc (fd v 0 9 : BitVec 9).toNat (fun c => { c with service := none, route := none }) := if_pos h

theorem completeWrite_error {t : Fin 8} {v : U32} {s : State}
    (h : (s.source (fd v 0 9 : BitVec 9).toNat).service ≠ some (.target (BitVec.ofNat 3 t))) :
    (vget (completeWrite t v s).tur.tgt t {}).cerr = true ∧ (completeWrite t v s).tur.src = s.tur.src := by
  unfold completeWrite
  rw [if_neg h, hwSet_tgt, hwSet_src]
  exact ⟨congrArg Target.cerr (vget_vmod_self _ t.isLt _ _), rfl⟩

theorem complete_runs {w : Who} {t : Fin 8} {v : U32} {s : State} {k : Nat} (h : MayWrite w (0x3008 + 0x10 * t.val) s)
    (hk : k = (fd v 0 9 : BitVec 9).toNat) :
    ((s.source k).service = some (.target (BitVec.ofNat 3 t)) → Runs (.complete w t v) s fun u =>
      u.source k = { s.source k with service := none, route := none } ∧ (∀ j, j ≠ k → u.source j = s.source j) ∧
      u.tur.tgt = s.tur.tgt) ∧
    ((s.source k).service ≠ some (.target (BitVec.ofNat 3 t)) → Runs (.complete w t v) s fun u =>
      (vget u.tur.tgt t {}).cerr = true ∧ u.tur.src = s.tur.src) := by
  subst hk
  refine ⟨fun hs => .of_exec (exec_write rfl h) ?_, fun hs => .of_exec (exec_write rfl h) ?_⟩
  · rw [completeWrite_ends hs, answer_tur]
    refine ⟨?_, fun j hj => ?_, rfl⟩
    · rw [source_eq _ (answer_tur ..), State.source_modSrc _ _ (fd v 0 9 : BitVec 9).isLt]
    · rw [source_eq _ (answer_tur ..), State.source_modSrc_other _ _ hj]
  · rw [answer_tur]
    exact completeWrite_error hs

/-! ## TDPOLL (R302, R639) -/

theorem tdpoll_some {n k : Nat} {s : State} (hk : dispatchable s n = some k) (h : ∀ r ∈ s.tur.raised, r.src ≠ BitVec.ofNat 9 k) :
    tdpoll n s = (claimWord s true (some k), s.modSrc k (fun c => { c with cnt := c.cnt - 1, route := none })) := by
  unfold tdpoll
  rw [hk]
  dsimp only
  rw [takeCount_quiet h]

/-- A parked load of TDPOLL whose fc has come gets what TDPOLL answers (R302). -/
theorem exec_tdpoll {n : Fin 16} {s : State} {x : BitVec 5} {word at_ : Nat} (ho : (s.thr n).owing = none)
    (hr : (s.thr n).run = .parked (.load (.plain 2) 0x10003144 x word at_)) (hf : at_ + 4 ≤ s.clk.fc) (ht : storesTaken s n = true) :
    exec (.tdpoll n) s = .next (loadDone n (.plain 2) false word [(x, (tdpoll n s).1)] (tdpoll n s).2) := by
  have haw : awaited (s.thr n) = some (false, .plain 2, 0x10003144, x, word, at_) := by
    unfold awaited
    rw [ho, hr]
  have hreg : awaitsReg s n 0x3144 = true := by
    unfold awaitsReg
    rw [haw]
    exact decide_eq_true (by decide)
  have hown : ownLoad n false 2 0x10003144 0x3144 x word s =
      loadDone n (.plain 2) false word [(x, (tdpoll n s).1)] (tdpoll n s).2 := by
    obtain ⟨hv, he⟩ := regRead_tdpoll s n.isLt
    have hb : busRead (threadAgent s n) false 0x3144 s = ({ data := (tdpoll n s).1 }, (tdpoll n s).2) := by
      rw [busRead_low (by decide) (by decide), hv, he]
    unfold ownLoad
    rw [if_neg (by decide)]
    dsimp only
    rw [hb]
    dsimp only
    exact if_neg Bool.false_ne_true
  have hload : regLoad n false 2 0x10003144 x word at_ s = ownLoad n false 2 0x10003144 0x3144 x word s := by
    have hroute : routeOff s ((0x10003144 : U32).toNat - 0x10000000) = .own 0x3144 := if_pos (by decide)
    unfold regLoad
    rw [ht, decide_eq_false (by omega), hroute]
    dsimp only
    rw [claimTurn_other (.inr (by decide))]
    rfl
  have hx : exec (.tdpoll n) s = .next (readRow (.thread n) 0x3144 s) := rfl
  have hrow : readRow (.thread n) 0x3144 s = loadReturn n (.okay 0) s := if_pos hreg
  rw [hx, hrow]
  refine congrArg Host.Outcome.next ?_
  unfold loadReturn
  rw [haw]
  exact hload.trans hown

theorem tdpoll_runs {n : Fin 16} {s : State} {x : BitVec 5} {word at_ : Nat} {k : Fin 512} (ho : (s.thr n).owing = none)
    (hs : (s.thr n).safe = false) (hr : (s.thr n).run = .parked (.load (.plain 2) 0x10003144 x word at_)) (hf : at_ + 4 ≤ s.clk.fc)
    (ht : storesTaken s n = true) (hk : dispatchable s n = some k.val) (hq : ∀ r ∈ s.tur.raised, r.src ≠ BitVec.ofNat 9 k) :
    Runs (.tdpoll n) s fun u =>
      vget (u.thr n).ctx.g x.toNat 0 = claimWord s true (some k) ∧ (u.thr n).run = .ready ∧
      u.source k = { s.source k with cnt := (s.source k).cnt - 1, route := none } := by
  refine .of_exec (exec_tdpoll ho hr hf ht) ?_
  have hsafe : ((tdpoll n s).2.thr n).safe = false := (congrArg Thread.safe (thr_of_seq (tdpoll_only ..).seq n)).trans hs
  obtain ⟨hready, -, hctx⟩ := loadDone_one n.isLt (.plain 2) word x (tdpoll n s).1 hsafe rfl
  refine ⟨?_, hready, ?_⟩
  · rw [hctx, setG_g, tdpoll_some hk hq]
  · rw [source_eq _ (loadDone_only ..).tur, tdpoll_some hk hq, State.source_modSrc _ _ k.isLt]

/-! ## SWEV, CFG and SCOND (R298, R299, R627, R640) -/

theorem swevWrite_raises {v : U32} (h : 448 ≤ (fd v 0 9 : BitVec 9).toNat) (s : State) :
    swevWrite v s = raise (fd v 0 9 : BitVec 9).toNat s := if_pos h

theorem swevWrite_other {v : U32} (h : (fd v 0 9 : BitVec 9).toNat < 448) (s : State) : swevWrite v s = s := if_neg (by omega)

theorem swev_runs {w : Who} {v : U32} {s : State} (h : MayWrite w 0x3180 s) :
    (448 ≤ (fd v 0 9 : BitVec 9).toNat → Runs (.swev w v) s fun t => SrcRaised (fd v 0 9 : BitVec 9).toNat t) ∧
    ((fd v 0 9 : BitVec 9).toNat < 448 → exec (.swev w v) s = .next (answer s w {})) := by
  refine ⟨fun hv => .of_exec (exec_write rfl h) ?_, fun hv => exec_writeSame rfl h (swevWrite_other hv s)⟩
  rw [swevWrite_raises hv]
  exact (raise_raised ..).answered ..

theorem sourceConfigWrite_runs {w : Who} {k : Fin 512} (v : U32) {s : State} (h : MayWrite w (0x4000 + 8 * k.val) s) :
    Runs (.sourceConfigWrite w k v) s fun t =>
      t.tur.cfgw = s.tur.cfgw ++ [(BitVec.ofNat 9 k, v)] ∧ t.tur.src = s.tur.src ∧ t.tur.tgt = s.tur.tgt := by
  refine .of_exec (exec_write rfl h) ?_
  rw [answer_tur]
  exact ⟨rfl, rfl, rfl⟩

/-- The first write of SCONDSET or SCONDCLR in an fc starts from SCOND as it stands. -/
theorem writeScond_first {s : State} (h : s.seq.scondAt ≠ s.clk.fc + 1) (set clr : U16) : (writeScond none set clr s).seq =
    { s.seq with scond := (s.seq.scond ||| set) &&& ~~~clr, scondAt := s.clk.fc + 1, scondBase := s.seq.scond
                 scondSet := set, scondClr := clr } := by
  simp [writeScond, h]

/-- A later one adds to what the fc sets and clears, the sets before the clears (R298). -/
theorem writeScond_again {s : State} (h : s.seq.scondAt = s.clk.fc + 1) (set clr : U16) : (writeScond none set clr s).seq.scond =
    (s.seq.scondBase ||| (set ||| s.seq.scondSet)) &&& ~~~(clr ||| s.seq.scondClr) := by
  simp [writeScond, h]

theorem scond_runs {w : Who} (v : U32) {s : State} (hset : MayWrite w 0x22808 s) (hclr : MayWrite w 0x2280C s) :
    (s.seq.scondAt ≠ s.clk.fc + 1 →
      (Runs (.scondset w v) s fun t => t.seq = { s.seq with
        scond := s.seq.scond ||| fd v 0 16, scondAt := s.clk.fc + 1, scondBase := s.seq.scond, scondSet := fd v 0 16
        scondClr := 0 }) ∧
      (Runs (.scondclr w v) s fun t => t.seq = { s.seq with
        scond := s.seq.scond &&& ~~~(fd v 0 16), scondAt := s.clk.fc + 1, scondBase := s.seq.scond, scondSet := 0
        scondClr := fd v 0 16 })) ∧
    (s.seq.scondAt = s.clk.fc + 1 →
      (Runs (.scondset w v) s fun t =>
        t.seq.scond = (s.seq.scondBase ||| (fd v 0 16 ||| s.seq.scondSet)) &&& ~~~s.seq.scondClr) ∧
      (Runs (.scondclr w v) s fun t =>
        t.seq.scond = (s.seq.scondBase ||| s.seq.scondSet) &&& ~~~(fd v 0 16 ||| s.seq.scondClr))) := by
  refine ⟨fun h => ⟨.of_exec (exec_write rfl hset) ?_, .of_exec (exec_write rfl hclr) ?_⟩,
    fun h => ⟨.of_exec (exec_write rfl hset) ?_, .of_exec (exec_write rfl hclr) ?_⟩⟩
  all_goals rw [answer_seq]
  · have hall : ~~~(0 : U16) = BitVec.allOnes 16 := rfl
    rw [writeScond_first h, hall, BitVec.and_allOnes]
  · have hzero : s.seq.scond ||| (0 : U16) = s.seq.scond := BitVec.or_zero
    rw [writeScond_first h, hzero]
  · rw [writeScond_again h]
    simp
  · rw [writeScond_again h]
    simp

/-- Settles O28. -/
theorem turnoutCommands : Obligations.TurnoutCommands :=
  ⟨fun _ _ hc ht => claim_runs hc ht, fun _ _ _ _ _ h hk => complete_runs h hk,
    fun _ _ _ _ _ _ _ ho hs hr hf ht hk hq => tdpoll_runs ho hs hr hf ht hk hq, fun _ _ _ h => swev_runs h,
    fun _ _ v _ h => sourceConfigWrite_runs v h, fun _ v _ hset hclr => scond_runs v hset hclr⟩

end Sys2Proof.Machine
end

section
/-! The commands on the threads of the law sequencer (O37): the start of a thread from its parameters, the stop that
waits for the threads of its mask, and the reset of a mask's threads. -/

namespace Sys2Proof.Machine

theorem vget_startParams {i : Nat} (e : BitVec 512) (h : i < 6) : vget (startParams e) i 0 = cmdP e i := vget_vgen h _ _

/-! ## A loop over the threads of a mask -/

/-- `f` for each thread of the mask, in the order of their numbers. -/
def eachMasked (m : U32) (f : Nat → State → State) (s : State) : State := s.each 15 (fun s n => if bit m n then f n s else s)

section
variable {m : U32} {f : Nat → State → State} {s : State} {i : Nat}

theorem eachMasked_skips (other : ∀ n x, i ≠ n → (f n x).thr i = x.thr i) (h : 15 ≤ i ∨ bit m i = false) :
    (eachMasked m f s).thr i = s.thr i := by
  have apart : ∀ n, n < 15 → bit m n = true → i ≠ n := by
    rintro n hn hb rfl
    rcases h with h | h
    · exact absurd hn (by omega)
    · exact absurd (h.symm.trans hb) (by decide)
  have step : ∀ n x, n < 15 → x.thr i = s.thr i → (if bit m n then f n x else x).thr i = s.thr i := by
    intro n x hn hx
    by_cases hb : bit m n = true
    · rw [if_pos hb, other n x (apart n hn hb), hx]
    · rw [if_neg hb, hx]
  unfold eachMasked State.each
  exact List.foldlRecOn (motive := fun x => x.thr i = s.thr i) _ _ rfl fun x hx n hn => step n x (List.mem_range.mp hn) hx

/-- What `f` leaves in its own thread is what the loop leaves in it. -/
theorem eachMasked_visits (other : ∀ n x, i ≠ n → (f n x).thr i = x.thr i) (clk : ∀ n x, (f n x).clk = x.clk)
    (P : Thread → Prop) (hi : i < 15) (hb : bit m i = true)
    (own : ∀ x, x.clk = s.clk → x.thr i = s.thr i → P ((f i x).thr i)) : P ((eachMasked m f s).thr i) := by
  unfold eachMasked State.each
  refine foldl_range_visits 15 _ i hi (fun x => x.clk = s.clk ∧ x.thr i = s.thr i) (fun x => P (x.thr i)) ?_ ?_ ?_ s ⟨rfl, rfl⟩
  · rintro n x - hn ⟨hc, ht⟩
    split
    · exact ⟨(clk n x).trans hc, (other n x hn.symm).trans ht⟩
    · exact ⟨hc, ht⟩
  · rintro x ⟨hc, ht⟩
    rw [if_pos hb]
    exact own x hc ht
  · intro n x _ hn hx
    split
    · rw [other n x hn.symm]
      exact hx
    · exact hx

theorem eachMasked_only {ps : List Part} (h : ∀ n x, Only ps x (f n x)) : Only ps s (eachMasked m f s) := by
  unfold eachMasked
  refine .each (fun x n => ?_) _ _
  exact .ite (h n x) (.refl _ _)

end

/-! ## THREAD_START -/

theorem startRefused_iff (s : State) (p : StartParams) :
    startRefused s p = true ↔ (s.thr (startThreadNo p)).run ≠ .stopped ∨ (s.thr (startThreadNo p)).depth ≠ 0 := by
  unfold startRefused
  simp

theorem threadStart_refused {c : CmdSlot} {s : State} (h : startRefused s (startParams c.entry) = true) :
    threadStart c s = done c 3 0 s := by
  unfold threadStart
  exact if_pos h

theorem threadStart_starts {c : CmdSlot} {s : State} (hr : (s.thr (startThreadNo (startParams c.entry))).run = .stopped)
    (hd : (s.thr (startThreadNo (startParams c.entry))).depth = 0) :
    threadStart c s = done c 0 0 (startThread (startParams c.entry) s) := by
  unfold threadStart
  exact if_neg (mt (startRefused_iff s _).mp (by simp [hr, hd]))

theorem done_thr (c : CmdSlot) (st : Byte) (r : U64) (s : State) (n : Nat) : (done c st r s).thr n = s.thr n :=
  thr_of_seq (done_only c st r s).seq n

/-! ## THREAD_STOP -/

/-- The thread that is asked to stop, unless it stands still or has run dry. -/
def askStop (n : Nat) (s : State) : State :=
  s.modThr n (fun t => { t with stopReq := t.run != .stopped && t.run != .dry })

/-- The state in which THREAD_STOP looks whether a thread of its mask still runs. -/
def stopTried (c : CmdSlot) (s : State) : State :=
  eachMasked (cmdP c.entry 0) stopIfAsked
    (setStage c.seq (.running (maskOf s (cmdP c.entry 0) (fun t => t.run != .stopped))) (eachMasked (cmdP c.entry 0) askStop s))

theorem threadStop_eq (c : CmdSlot) (s : State) :
    threadStop c s = if maskOf (stopTried c s) (cmdP c.entry 0) (fun t => t.run != .stopped && t.run != .dry) = 0
      then setStage c.seq (.done 0 0 (maskOf s (cmdP c.entry 0) (fun t => t.run != .stopped))) (stopTried c s)
      else stopTried c s := rfl

theorem askStop_only (n : Nat) (s : State) : Only [.seq] s (askStop n s) := State.modThr_only ..

theorem askStop_other {i : Nat} (n : Nat) (s : State) (h : i ≠ n) : (askStop n s).thr i = s.thr i :=
  State.thr_modThr_other _ _ h

theorem stopTried_slot {k : Slot} {c : CmdSlot} {s : State} (h : slotAt s k = some c) :
    slotAt (stopTried c s) k =
      some { c with stage := .running (maskOf s (cmdP c.entry 0) (fun t => t.run != .stopped)) } := by
  unfold stopTried
  rw [slotAt_hg k (eachMasked_only stopIfAsked_only).hg]
  exact slotAt_setStage ((slotAt_hg k (eachMasked_only askStop_only).hg).trans h) _

/-- What one attempt to stop leaves in a thread of the mask that asks it, in any state with this clock. -/
theorem stopTried_thr {c : CmdSlot} {s : State} {n : Nat} (hn : n < 15) (hb : bit (cmdP c.entry 0) n = true) (P : Thread → Prop)
    (h : ∀ x, x.clk = s.clk →
      x.thr n = { s.thr n with stopReq := (s.thr n).run != .stopped && (s.thr n).run != .dry } →
      P ((stopIfAsked n x).thr n)) : P ((stopTried c s).thr n) := by
  unfold stopTried
  refine eachMasked_visits (fun a x ha => stopIfAsked_other ha x) (fun a x => (stopIfAsked_only a x).clk) P hn hb fun x hc ht => ?_
  refine h x (hc.trans ((setStage_only ..).clk.trans (eachMasked_only askStop_only).clk)) (ht.trans ?_)
  rw [thr_of_seq (setStage_only ..).seq]
  refine eachMasked_visits (fun a x ha => askStop_other a x ha) (fun a x => (askStop_only a x).clk)
    (· = { s.thr n with stopReq := (s.thr n).run != .stopped && (s.thr n).run != .dry }) hn hb fun y _ hy => ?_
  unfold askStop
  rw [State.thr_modThr _ _ (by omega), hy]

theorem stopTried_still {c : CmdSlot} {s : State} {n : Nat} (hn : n < 15) (hb : bit (cmdP c.entry 0) n = true)
    (h : (s.thr n).run = .stopped ∨ (s.thr n).run = .dry) : ((stopTried c s).thr n).run = (s.thr n).run := by
  refine stopTried_thr hn hb (fun t => t.run = (s.thr n).run) fun x _ hx => ?_
  rw [stopIfAsked_not, hx]
  rw [hx]
  rcases h with h | h
  · rw [h]
    rfl
  · rw [h]
    rfl

theorem stopTried_stops {c : CmdSlot} {s : State} {n : Nat} (hn : n < 15) (hb : bit (cmdP c.entry 0) n = true)
    (h : MayStop s n) : ((stopTried c s).thr n).run = .stopped := by
  refine stopTried_thr hn hb (fun t => t.run = .stopped) fun x hc hx => stopIfAsked_stops (by omega) ?_ ?_
  · unfold MayStop
    rw [hx, hc]
    exact h
  · rw [hx]
    rcases h.1 with ⟨h, -, -⟩ | ⟨w, h⟩
    · rw [h]
      rfl
    · rw [h]
      rfl

theorem stopTried_parked {c : CmdSlot} {s : State} {n : Nat} {p : Park} (hn : n < 15) (hb : bit (cmdP c.entry 0) n = true)
    (h : (s.thr n).run = .parked p) : (stopTried c s).thr n = { s.thr n with stopReq := true } := by
  refine stopTried_thr hn hb (· = { s.thr n with stopReq := true }) fun x _ hx => ?_
  rw [stopIfAsked_parked (p := p) (by rw [hx]; exact h), hx, h]
  rfl

theorem maskOf_bit (s : State) (m : U32) (p : Thread → Bool) {n : Nat} (hn : n < 15) :
    bit (maskOf s m p) n = (bit m n && p (s.thr n)) := by
  unfold maskOf
  rw [bitsFrom_bit _ (by omega), decide_eq_true hn, Bool.true_and]

theorem maskOf_zero {s : State} {m : U32} {p : Thread → Bool} (h : ∀ n, n < 15 → bit m n = true → p (s.thr n) = false) :
    maskOf s m p = 0 := by
  refine bitsFrom_none fun n _ => ?_
  by_cases hn : n < 15
  · by_cases hb : bit m n = true
    · rw [h n hn hb, Bool.and_false]
    · rw [eq_false_of_ne_true hb, Bool.and_false, Bool.false_and]
  · rw [decide_eq_false hn, Bool.false_and, Bool.false_and]

/-- A thread of the mask that the attempt left stopped, or dry if it was dry before. -/
theorem stopTried_stands {c : CmdSlot} {s : State} {n : Nat} (hn : n < 15) (hb : bit (cmdP c.entry 0) n = true)
    (h : (s.thr n).run = .stopped ∨ (s.thr n).run = .dry ∨ MayStop s n) :
    ((stopTried c s).thr n).run = .stopped ∨ (s.thr n).run = .dry ∧ ((stopTried c s).thr n).run = .dry := by
  rcases h with h | h | h
  · exact .inl ((stopTried_still hn hb (.inl h)).trans h)
  · exact .inr ⟨h, (stopTried_still hn hb (.inr h)).trans h⟩
  · exact .inl (stopTried_stops hn hb h)

theorem threadStop_ends {k : Slot} {c : CmdSlot} {s : State} (hk : slotAt s k = some c)
    (h : ∀ n, n < 15 → bit (cmdP c.entry 0) n = true → (s.thr n).run = .stopped ∨ (s.thr n).run = .dry ∨ MayStop s n) :
    Ended k c 0 0 (maskOf s (cmdP c.entry 0) (fun x => x.run != .stopped)) (threadStop c s) ∧
    ∀ n, n < 15 → bit (cmdP c.entry 0) n = true → (s.thr n).run ≠ .dry → ((threadStop c s).thr n).run = .stopped := by
  have live : maskOf (stopTried c s) (cmdP c.entry 0) (fun t => t.run != .stopped && t.run != .dry) = 0 := by
    refine maskOf_zero fun n hn hb => ?_
    rcases stopTried_stands hn hb (h n hn hb) with e | ⟨-, e⟩
    · rw [e]
      rfl
    · rw [e]
      rfl
  rw [threadStop_eq, if_pos live]
  refine ⟨slotAt_setStage (stopTried_slot hk) _, fun n hn hb hd => ?_⟩
  rw [thr_of_seq (setStage_only ..).seq]
  rcases stopTried_stands hn hb (h n hn hb) with e | ⟨e, -⟩
  · exact e
  · exact absurd e hd

theorem threadStop_waits {c : CmdSlot} {s : State} {n : Nat} {p : Park} (hn : n < 15) (hb : bit (cmdP c.entry 0) n = true)
    (h : (s.thr n).run = .parked p) : threadStop c s = stopTried c s := by
  rw [threadStop_eq, if_neg]
  intro live
  have e := maskOf_bit (stopTried c s) (cmdP c.entry 0) (fun t => t.run != .stopped && t.run != .dry) hn
  rw [live, hb, stopTried_parked hn hb h, h] at e
  simp [bit] at e

/-! ## THREAD_RESET -/

theorem threadReset_eq (c : CmdSlot) (s : State) :
    threadReset c s = done c 0 (maskOf s (cmdP c.entry 0) (fun t => t.run = .dry)) (eachMasked (cmdP c.entry 0) resetThread s) := rfl

/-- What THREAD_RESET leaves in a thread that was `t`. -/
structure ThreadCleared (t u : Thread) : Prop where
  run : u.run = .stopped
  depth : u.depth = 0
  safe : u.safe = false
  spill : u.spill = false
  mon : u.mon = false
  ctx : u.ctx = { clearFlow t.ctx with
    hw := [], prod := [], pc := pcShown t, pw := t.ctx.pw.map (fun (p : PendWrite) => { p with safe := false }) }

theorem threadReset_thr {c : CmdSlot} {s : State} {n : Nat} (hn : n < 15) (hb : bit (cmdP c.entry 0) n = true) :
    ThreadCleared (s.thr n) ((threadReset c s).thr n) := by
  rw [threadReset_eq, done_thr]
  refine eachMasked_visits (fun a x ha => resetThread_other ha x) (fun a x => (resetThread_only a x).clk)
    (ThreadCleared (s.thr n)) hn hb fun x _ hx => ?_
  obtain ⟨hrun, hdepth, hctx, hsafe, hspill, hmon⟩ := resetThread_thr (n := n) (by omega) x
  rw [hx] at hctx
  exact ⟨hrun, hdepth, hsafe, hspill, hmon, hctx⟩

theorem threadReset_skips {c : CmdSlot} {s : State} {n : Nat} (h : 15 ≤ n ∨ bit (cmdP c.entry 0) n = false) :
    (threadReset c s).thr n = s.thr n := by
  rw [threadReset_eq, done_thr, eachMasked_skips (fun a x ha => resetThread_other ha x) h]

theorem threadReset_ended {k : Slot} {c : CmdSlot} {s : State} (hk : slotAt s k = some c) :
    Ended k c 0 0 (maskOf s (cmdP c.entry 0) (fun x => x.run = .dry)) (threadReset c s) := by
  rw [threadReset_eq]
  exact done_ended ((slotAt_hg k (eachMasked_only resetThread_only).hg).trans hk) _ _

/-! ## The three commands -/

theorem exec_threadStart (k : Slot) (s : State) : exec (.threadStart k) s =
    .next (runShort 0x20 k (fun _ => wordsAfter [] 6) (fun e => startFaults (startParams e)) threadStart s) := rfl

theorem exec_threadStop (k : Slot) (s : State) : exec (.threadStop k) s =
    .next (runCmd 0x21 k (fun _ => [0x7FFF]) noBad threadStop threadStopOn s) := rfl

theorem exec_threadReset (k : Slot) (s : State) : exec (.threadReset k) s =
    .next (runShort 0x22 k (fun _ => [0x7FFF]) noBad threadReset s) := rfl

section
variable {k : Slot} {c : CmdSlot} {s : State} {P : State → Prop}

theorem threadStart_runs (h : Begins 0x20 k c s)
    (e : firstBad c.entry (wordsAfter [] 6) (startFaults (startParams c.entry)) = none) (hp : P (threadStart c s)) :
    Runs (.threadStart k) s P :=
  .of_exec (exec_threadStart k s) (by
    rw [runShort_runs h (masks := fun _ => wordsAfter [] 6) (bad := fun e => startFaults (startParams e)) e]
    exact hp)

theorem threadStop_runs (h : Begins 0x21 k c s) (e : firstBad c.entry [0x7FFF] [] = none) (hp : P (threadStop c s)) :
    Runs (.threadStop k) s P :=
  .of_exec (exec_threadStop k s) (by
    rw [runCmd_runs h (masks := fun _ => [0x7FFF]) (bad := noBad) e]
    exact hp)

theorem threadReset_runs (h : Begins 0x22 k c s) (e : firstBad c.entry [0x7FFF] [] = none) (hp : P (threadReset c s)) :
    Runs (.threadReset k) s P :=
  .of_exec (exec_threadReset k s) (by
    rw [runShort_runs h (masks := fun _ => [0x7FFF]) (bad := noBad) e]
    exact hp)

end

/-- Settles O37: the parameters decide a THREAD_START before the thread does, and both loops over a mask leave in each
thread what they do to it alone. -/
theorem threadCommands : Obligations.ThreadCommands := by
  unfold Obligations.ThreadCommands
  refine ⟨?_, ?_, ?_⟩
  · rintro k c s h _ rfl
    refine ⟨fun d e => .of_exec (exec_threadStart k s)
        (runCmd_refused h (masks := fun _ => wordsAfter [] 6) (bad := fun e => startFaults (startParams e)) e _ _), fun e hr => threadStart_runs h e ?_,
      fun e hr hd => threadStart_runs h e ⟨?_, threadStart_only c s, fun i hi => ?_, ?_⟩⟩
    · rw [threadStart_refused ((startRefused_iff ..).mpr hr)]
      exact ⟨done_ended h.held _ _, done_only ..⟩
    · rw [threadStart_starts hr hd]
      exact done_ended ((slotAt_hg k (startThread_only ..).hg).trans h.held) _ _
    · rw [threadStart_starts hr hd, done_thr, startThread_other hi]
    · rw [threadStart_starts hr hd, done_thr, startThread_thr, vget_startParams c.entry (i := 0) (by decide),
        vget_startParams c.entry (i := 1) (by decide), vget_startParams c.entry (i := 2) (by decide),
        vget_startParams c.entry (i := 3) (by decide), vget_startParams c.entry (i := 4) (by decide),
        vget_startParams c.entry (i := 5) (by decide)]
  · rintro k c s _ h rfl
    refine ⟨fun d e => .of_exec (exec_threadStop k s)
        (runCmd_refused h (masks := fun _ => [0x7FFF]) (bad := noBad) e _ _), fun e hs => threadStop_runs h e (threadStop_ends h.held hs),
      fun n p e hn hb hp => threadStop_runs h e ?_⟩
    rw [threadStop_waits hn hb hp]
    exact ⟨stopTried_slot h.held, stopTried_parked hn hb hp⟩
  · rintro k c s _ h rfl
    refine ⟨fun d e => .of_exec (exec_threadReset k s)
        (runCmd_refused h (masks := fun _ => [0x7FFF]) (bad := noBad) e _ _), fun e => threadReset_runs h e
      ⟨threadReset_ended h.held, threadReset_only c s, fun n _ hb => threadReset_skips (.inr hb),
        threadReset_skips (.inl (Nat.le_refl 15)), fun n hn hb => ?_⟩⟩
    have t := threadReset_thr (s := s) hn hb
    exact ⟨t.run, t.depth, t.safe, t.spill, t.mon, t.ctx⟩

end Sys2Proof.Machine
end

section
/-! Operation words (R301, R304, R307-R310, R343-R349), and O13. -/

namespace Sys2Proof.Machine

/-! ## Whether a word acts (R343) -/

/-- No condition input reads the Turnout (R230). -/
theorem condInput_same {s t : State} (h : Only [.tur] s t) (k slot : Nat) (c : Ctx) (cond : BitVec 8) :
    condInput t k slot c cond = condInput s k slot c cond := by
  unfold condInput heldResv shownInput unitInput State.flume State.timer State.rch State.getGate State.culCh
  rw [h.clk, h.fl, h.tmr, h.rider, h.gate, h.cul, h.seq, h.shut, h.outcal, h.link]

theorem Op.acts_same (o : Op) {s t : State} (h : Only [.tur] s t) : o.acts t = o.acts s := by
  unfold Op.acts
  rw [condInput_same h]

/-- The state in which the units of a word that issues in `s` work: its free values are drawn. -/
def drawn (s : State) : State := { s with free := s.free + 4096 }

theorem Op.acts_drawn (o : Op) (s : State) : o.acts (drawn s) = o.acts s := rfl

/-- At issue the predicate is what it was when the word was looked at: between the two only events are raised (R859). -/
theorem Op.acts_atIssue (o : Op) (s : State) (n : Nat) (w : U32) : o.acts (drawn (atIssue s n w)) = o.acts (applyRet n s) :=
  (o.acts_drawn _).trans (o.acts_same (foldl_raise_only ..))

/-! ## The place of an operation word (R344, R347) -/

/-- The place in the stream of words is the same: pc, slot, repeat, and the steps of a long word. -/
abbrev SameFlow (c d : Ctx) : Prop := d.pc = c.pc ∧ d.ds = c.ds ∧ d.rep = c.rep ∧ d.long = c.long ∧ d.prog = c.prog

theorem SameFlow.trans {c d e : Ctx} : SameFlow c d → SameFlow d e → SameFlow c e := by
  rintro ⟨pc, ds, rep, long, prog⟩ ⟨pc', ds', rep', long', prog'⟩
  exact ⟨pc'.trans pc, ds'.trans ds, rep'.trans rep, long'.trans long, prog'.trans prog⟩

theorem nextPc_nzcv (c : Ctx) : (nextPc c).nzcv = c.nzcv := by
  unfold nextPc
  split
  · rfl
  · split
    · split <;> rfl
    · rfl

theorem wordPlace_pc {c d : Ctx} (h : SameFlow c d) (acts : Bool) (o : Op) : (wordPlace acts o d).pc = (wordPlace acts o c).pc := by
  obtain ⟨pc, ds, rep, -, prog⟩ := h
  unfold wordPlace
  rw [prog]
  split
  · exact pc
  · exact nextPc_pc_congr pc ds rep

/-- The place of an operation word changes neither registers nor flags. -/
theorem wordPlace_keeps (acts : Bool) (o : Op) (c : Ctx) : (wordPlace acts o c).g = c.g ∧ (wordPlace acts o c).nzcv = c.nzcv := by
  unfold wordPlace
  split
  · exact ⟨rfl, rfl⟩
  · exact ⟨(nextPc_keeps _).1, nextPc_nzcv _⟩

/-- What an operation word leaves in its thread, once its units have left `x`. -/
theorem finishWord_op {n : Nat} (hn : n < 16) (acts : Bool) (o : Op) {f : State → State} {s : State} {x y : Thread}
    (hx : (f { s with free := s.free + 4096 }).thr n = x) (hs : x.stopReq = false)
    (hy : (finishWord n false (wordPlace acts o) f s).thr n = y) :
    y.issue = x.issue + 1 ∧ y.ctx.pc = (wordPlace acts o x.ctx).pc ∧ y.ctx.nzcv = x.ctx.nzcv ∧
      ((∀ p ∈ x.ctx.pw, p.safe = false) → y.ctx.g = x.ctx.g) := by
  subst hy
  obtain ⟨g, a, sat, scf, fmax, pw, e⟩ := finishWord_flow hn false (wordPlace acts o) f s hx hs
  refine ⟨?_, ?_, ?_, fun hp => ?_⟩
  · rw [e]
  · rw [e]
    exact (modeStep_pc _).trans (wordPlace_pc (c := x.ctx) (d := { x.ctx with g := g, a := a, sat := sat, scf := scf, fmax := fmax, pw := pw })
      ⟨rfl, rfl, rfl, rfl, rfl⟩ acts o)
  · rw [e]
    exact (modeStep_nzcv _).trans (wordPlace_keeps acts o _).2
  · rw [finishWord_thr hn false _ hx hs, landWhere_none fun p h => by rw [hp p h]; rfl]
    exact (modeStep_g _).trans (wordPlace_keeps acts o _).1

/-! ## The ALUs, the base update and FLAGS (R304, R307-R310, R330) -/

def Op.alu0 (o : Op) : AluOut := aluOp (fd o.nw 8 5) (o.src 0 (fd o.nw 13 3)) (o.src 1 (fd o.nw 16 3)) (bit o.c.nzcv 1)

def Op.alu1 (o : Op) : AluOut := aluOp (fd o.nw 21 5) (o.src 2 (fd o.nw 26 3)) (o.src 3 (fd o.nw 29 3)) (bit o.c.nzcv 1)

/-- A result that may have no destination. -/
def putG (now : Nat) (r : Option (BitVec 5)) (v : U32) (c : Ctx) : Ctx :=
  match r with
  | some r => setG now r v c
  | none => c

/-- Both ALUs write, ALU1 last (R304). -/
def Op.putAlus (o : Op) (now : Nat) (c : Ctx) : Ctx :=
  putG now (o.destReg (fd o.nw 32 2)) o.alu1.r (putG now (o.destReg (fd o.nw 19 2)) o.alu0.r c)

/-- The base register takes its new value, where the access changes it (R330). -/
def Op.putBase (o : Op) (now : Nat) (c : Ctx) : Ctx :=
  match o.lsop != 0, o.newBase with
  | true, some b => putG now o.baseReg b c
  | _, _ => c

theorem Op.atOnce_eq (o : Op) (now : Nat) (c : Ctx) : o.atOnce now c = { o.putBase now (o.putAlus now c) with
    nzcv := if o.flags = 1 then nzcvOf o.alu0 else if o.flags = 2 then nzcvOf o.alu1 else (o.putBase now (o.putAlus now c)).nzcv } := rfl

/-- A write of a register leaves flags and flow, and owes nothing new. -/
structure WritesG (c d : Ctx) : Prop where
  nzcv : d.nzcv = c.nzcv
  flow : SameFlow c d
  pw : ∀ p ∈ d.pw, p ∈ c.pw

theorem WritesG.refl (c : Ctx) : WritesG c c := ⟨rfl, ⟨rfl, rfl, rfl, rfl, rfl⟩, fun _ => id⟩

theorem WritesG.trans {c d e : Ctx} (h : WritesG c d) (k : WritesG d e) : WritesG c e :=
  ⟨k.nzcv.trans h.nzcv, h.flow.trans k.flow, fun p hp => h.pw p (k.pw p hp)⟩

theorem WritesG.setG (now : Nat) (r : BitVec 5) (v : U32) (c : Ctx) : WritesG c (setG now r v c) :=
  ⟨rfl, ⟨rfl, rfl, rfl, rfl, rfl⟩, fun _ => setG_pw⟩

theorem WritesG.putG (now : Nat) (r : Option (BitVec 5)) (v : U32) (c : Ctx) : WritesG c (putG now r v c) := by
  cases r with
  | none => exact .refl c
  | some r => exact .setG now r v c

theorem Op.putAlus_writes (o : Op) (now : Nat) (c : Ctx) : WritesG c (o.putAlus now c) :=
  (WritesG.putG ..).trans (.putG ..)

theorem Op.putBase_writes (o : Op) (now : Nat) (c : Ctx) : WritesG c (o.putBase now c) := by
  unfold Op.putBase
  split
  · exact .putG ..
  · exact .refl c

theorem Op.atOnce_writes (o : Op) (now : Nat) (c : Ctx) : SameFlow c (o.atOnce now c) ∧ ∀ p ∈ (o.atOnce now c).pw, p ∈ c.pw := by
  have h := (o.putAlus_writes now c).trans (o.putBase_writes now _)
  rw [o.atOnce_eq]
  exact ⟨h.flow, h.pw⟩

/-- FLAGS names the ALU that NZCV come from (R310). -/
theorem Op.atOnce_nzcv (o : Op) (now : Nat) (c : Ctx) : (o.atOnce now c).nzcv =
    if o.flags = 1 then nzcvOf o.alu0 else if o.flags = 2 then nzcvOf o.alu1 else c.nzcv := by
  have h := (o.putAlus_writes now c).trans (o.putBase_writes now _)
  rw [o.atOnce_eq, ← h.nzcv]

/-- Without an access the registers are as the ALUs leave them. -/
theorem Op.atOnce_g (o : Op) (now : Nat) (c : Ctx) (h : o.lsop = 0) : (o.atOnce now c).g = (o.putAlus now c).g := by
  rw [o.atOnce_eq]
  unfold Op.putBase
  rw [h]
  rfl

theorem Op.putAlus_alu1 (o : Op) (now : Nat) (c : Ctx) {r : BitVec 5} (h : o.destReg (fd o.nw 32 2) = some r) :
    vget (o.putAlus now c).g r.toNat 0 = o.alu1.r := by
  unfold Op.putAlus
  rw [h]
  exact setG_g ..

theorem Op.putAlus_alu0 (o : Op) (now : Nat) (c : Ctx) {r : BitVec 5} (h : o.destReg (fd o.nw 19 2) = some r)
    (h1 : o.destReg (fd o.nw 32 2) = none) : vget (o.putAlus now c).g r.toNat 0 = o.alu0.r := by
  unfold Op.putAlus
  rw [h, h1]
  exact setG_g ..

/-! ## The units of a word that acts (R301, R349) -/

/-- The row that a block move copies in this step, and after its last step its addresses (R349). -/
def Op.move (o : Op) (n : Nat) (s : State) : State :=
  let s := if o.long = 2 then o.moveRow n s else s
  if o.long = 2 && decide (o.steps ≤ o.c.prog.toNat + 1) then o.moveEnd n s else s

/-- A load outside data memory parks the thread on it (R263); `s0` is the state before the word. -/
def Op.park (o : Op) (n : Nat) (s0 s : State) : State :=
  if o.lsop = 1 && regionOf o.addr != .data then loadOut n o (holdActs n s0 s) else s

theorem runOp_idle {n : Nat} {o : Op} {s : State} (h : o.acts s = false) : runOp n o s = s := by
  unfold runOp
  rw [h]
  rfl

theorem runOp_acts {n : Nat} {o : Op} {s : State} (h : o.acts s = true) :
    runOp n o s = o.park n s (o.move n (o.run n (s.thr n).words (s.thr n).safe s)) := by
  unfold runOp
  rw [h]
  rfl

theorem Op.move_none (o : Op) (n : Nat) (s : State) (h : o.long ≠ 2) : o.move n s = s := by
  unfold Op.move
  simp only [h, if_false, decide_false, Bool.false_and, Bool.false_eq_true]

theorem UnitsLeave.of_park {n : Nat} (hn : n < 16) {c : Ctx} {s t : State} (h : UnitsLeave n c s t) (o : Op) (s0 : State) :
    UnitsLeave n c s (o.park n s0 t) := by
  refine .of_ite h ?_
  have held : UnitsLeave n c s (holdActs n s0 t) := by
    unfold holdActs
    refine .of_thr hn (h.of_seq ?_) fun _ => ⟨?_, ?_, ?_, ?_⟩ <;> rfl
  obtain ⟨pr, e⟩ := loadOut_thr hn o (holdActs n s0 t)
  refine ⟨?_, ?_⟩ <;> rw [e]
  · exact held.regs.trans ⟨rfl, rfl, ⟨rfl, rfl, rfl, rfl, rfl⟩, id⟩
  · exact held.rest

theorem UnitsLeave.of_moveRow {n : Nat} (hn : n < 16) {c : Ctx} {s t : State} (h : UnitsLeave n c s t) (o : Op) :
    UnitsLeave n c s (o.moveRow n t) := by
  have seq := (loadData_only o.moveFrom 16 t).seq
  unfold Op.moveRow
  generalize loadData o.moveFrom 16 t = r at seq ⊢
  exact ((h.of_seq seq).of_store hn ..).of_ctx hn fun c => .produce ..

/-- A step of a block move leaves the flow of its thread, and what is counted (R349). -/
theorem UnitsLeave.of_move {n : Nat} (hn : n < 16) {c : Ctx} {s t : State} (h : UnitsLeave n c s t) (o : Op) :
    ∃ d, SameFlow c d ∧ UnitsLeave n d s (o.move n t) := by
  have row : UnitsLeave n c s (if o.long = 2 then o.moveRow n t else t) := .of_ite h (h.of_moveRow hn o)
  unfold Op.move
  dsimp only
  generalize (if o.long = 2 then o.moveRow n t else t) = r at row ⊢
  split
  · refine ⟨((o.moveEnd n r).thr n).ctx, SameFlow.trans row.regs.flow ?_, .refl _, ?_⟩
    all_goals
      unfold Op.moveEnd
      rw [thr_modCtx hn]
    · exact ((WritesG.setG ..).trans (.setG ..)).flow
    · exact row.rest
  · exact ⟨c, ⟨rfl, rfl, rfl, rfl, rfl⟩, row⟩

/-- An operation word leaves the flow of its thread to `wordPlace`, and what is counted to `finishWord`. -/
theorem runOp_flow {n : Nat} (hn : n < 16) (o : Op) {s : State} (hs : (s.thr n).safe = false) :
    ∃ c, SameFlow (s.thr n).ctx c ∧ UnitsLeave n c s (runOp n o s) := by
  cases h : o.acts s with
  | false =>
    rw [runOp_idle h]
    exact ⟨_, ⟨rfl, rfl, rfl, rfl, rfl⟩, .refl _, rfl, rfl, rfl⟩
  | true =>
    rw [runOp_acts h, hs]
    obtain ⟨c, flow, moved⟩ := (o.run_regs hn (s.thr n).words s).of_move hn o
    exact ⟨c, (o.atOnce_writes ..).1.trans flow, moved.of_park hn o s⟩

/-- A word that acts and is no block move leaves in its thread what its units give at once (R304). -/
theorem runOp_regs {n : Nat} (hn : n < 16) {o : Op} {s : State} (hs : (s.thr n).safe = false) (h : o.acts s = true) (hl : o.long ≠ 2) :
    UnitsLeave n (o.atOnce s.clk.fc (s.thr n).ctx) s (runOp n o s) := by
  rw [runOp_acts h, hs, o.move_none n _ hl]
  exact (o.run_regs hn ..).of_park hn o s

theorem Op.park_mem (o : Op) (n : Nat) (s0 s : State) : (o.park n s0 s).mem = s.mem := by
  unfold Op.park
  split
  · exact (loadOut_only ..).mem.trans (holdActs_only ..).mem
  · rfl

/-- A load's mark of its fc leaves data memory and its bad rows. -/
theorem AccOnly.data {m k : Stores} (h : AccOnly m k) : k.data = m.data ∧ k.badRow = m.badRow := by
  unfold AccOnly at h
  rw [h]
  exact ⟨rfl, rfl⟩

/-- The bytes of data memory that a word stores: those of its posted store there, in rows that it may change (R261, R262). -/
theorem Op.run_data (o : Op) (n word : Nat) (safe : Bool) (s : State) : (o.run n word safe s).mem.data =
    if o.lsop = 2 ∧ regionOf o.addr = .data ∧ partBad s o.addr.toNat o.storeBytes.length = false then
      memWrite s.mem.data o.addr.toNat o.storeBytes
    else s.mem.data := by
  obtain ⟨x, hx, e⟩ := o.run_mem n word safe s
  obtain ⟨data, badRow⟩ := hx.data
  have bad : partBad x o.addr.toNat o.storeBytes.length = partBad s o.addr.toNat o.storeBytes.length := by
    unfold partBad
    rw [badRow]
  rw [e]
  split
  · rename_i h
    rw [postStore_data, data, bad]
    simp only [h, true_and]
  · rename_i h
    rw [data, if_neg fun k => h k.1]

theorem runOp_data {n : Nat} {o : Op} {s : State} (h : o.acts s = true) (hl : o.long ≠ 2) : (runOp n o s).mem.data =
    if o.lsop = 2 ∧ regionOf o.addr = .data ∧ partBad s o.addr.toNat o.storeBytes.length = false then
      memWrite s.mem.data o.addr.toNat o.storeBytes
    else s.mem.data := by
  rw [runOp_acts h, o.park_mem, o.move_none n _ hl, o.run_data]

/-! ## A word that has issued -/

/-- What the operation word `o` of thread `n` leaves of the state `u` in which it issues. -/
def Op.finished (o : Op) (n : Nat) (u : State) : State := finishWord n false (wordPlace (o.acts (drawn u)) o) (runOp n o) u

theorem Op.finished_mem (o : Op) (n : Nat) (u : State) : (o.finished n u).mem = (runOp n o (drawn u)).mem := finishWord_mem ..

theorem Op.finished_data {o : Op} (n : Nat) {u : State} (hacts : o.acts (drawn u) = true) (hlong : o.long ≠ 2) :
    (o.finished n u).mem.data =
      if o.lsop = 2 ∧ regionOf o.addr = .data ∧ partBad u o.addr.toNat o.storeBytes.length = false then
        memWrite u.mem.data o.addr.toNat o.storeBytes
      else u.mem.data :=
  (congrArg Stores.data (o.finished_mem n u)).trans (runOp_data hacts hlong)

section
variable {n : Nat} (hn : n < 16) {o : Op} {u : State} (hsafe : (u.thr n).safe = false) (hstop : (u.thr n).stopReq = false)
include hn hsafe hstop

theorem Op.finished_place : ((o.finished n u).thr n).issue = (u.thr n).issue + 1 ∧
    ((o.finished n u).thr n).ctx.pc = (wordPlace (o.acts (drawn u)) o (u.thr n).ctx).pc := by
  obtain ⟨c, flow, ⟨regs, stop, count, -⟩⟩ := runOp_flow hn o (s := drawn u) hsafe
  obtain ⟨hissue, hpc, -⟩ := finishWord_op hn (o.acts (drawn u)) o rfl (stop.trans hstop) rfl
  exact ⟨hissue.trans (congrArg (· + 1) count), hpc.trans (wordPlace_pc (flow.trans regs.flow) ..)⟩

theorem Op.finished_regs : ((o.finished n u).thr n).ctx.nzcv = ((runOp n o (drawn u)).thr n).ctx.nzcv ∧
    ((∀ p ∈ ((runOp n o (drawn u)).thr n).ctx.pw, p.safe = false) →
      ((o.finished n u).thr n).ctx.g = ((runOp n o (drawn u)).thr n).ctx.g) := by
  obtain ⟨_, -, ⟨-, stop, -⟩⟩ := runOp_flow hn o (s := drawn u) hsafe
  obtain ⟨-, -, hregs⟩ := finishWord_op hn (o.acts (drawn u)) o rfl (stop.trans hstop) rfl
  exact hregs

theorem Op.finished_idle (h : o.acts (drawn u) = false) :
    (o.finished n u).mem = u.mem ∧ ((o.finished n u).thr n).ctx.nzcv = (u.thr n).ctx.nzcv := by
  have hmem := o.finished_mem n u
  obtain ⟨hnzcv, -⟩ := o.finished_regs hn hsafe hstop
  rw [runOp_idle h] at hmem hnzcv
  exact ⟨hmem, hnzcv⟩

variable (hacts : o.acts (drawn u) = true) (hlong : o.long ≠ 2)
include hacts hlong

theorem Op.finished_nzcv : ((o.finished n u).thr n).ctx.nzcv =
    if o.flags = 1 then nzcvOf o.alu0 else if o.flags = 2 then nzcvOf o.alu1 else (u.thr n).ctx.nzcv := by
  obtain ⟨hnzcv, -⟩ := o.finished_regs hn hsafe hstop
  obtain ⟨⟨-, unzcv, -⟩, -⟩ := runOp_regs hn (s := drawn u) hsafe hacts hlong
  exact hnzcv.trans (unzcv.trans (o.atOnce_nzcv ..))

/-- Where no result of safe mode is owed, the registers of a word without an access are as the ALUs leave them (R255, R304). -/
theorem Op.finished_g (hp : ∀ p ∈ (u.thr n).ctx.pw, p.safe = false) (hz : o.lsop = 0) :
    ((o.finished n u).thr n).ctx.g = (o.putAlus u.clk.fc (u.thr n).ctx).g := by
  obtain ⟨-, hg⟩ := o.finished_regs hn hsafe hstop
  obtain ⟨⟨ug, -, -, upw⟩, -⟩ := runOp_regs hn (s := drawn u) hsafe hacts hlong
  have owed := upw fun p k => hp p ((o.atOnce_writes ..).2 p k)
  exact (hg owed).trans (ug.trans (o.atOnce_g _ _ hz))

end

/-- Settles O13: the place and the counts come from `finishWord`, flags and registers from what the units give at once
(`Op.atOnce`), and data memory from the posted store. -/
theorem operationWord : Obligations.OperationWord := by
  rintro n s w _ o _ _ h ho rfl he hsafe (rfl : _ = o.alu0) (rfl : _ = o.alu1)
  have hctx : o.c = ((atIssue s n w).thr n).ctx := by rw [he, atIssue_thr]; rfl
  have hrun : exec (.operationMicroword n) s = .next (o.finished n (atIssue s n w)) := by
    unfold Op.finished
    rw [o.acts_atIssue, he]
    exact congrArg Host.Outcome.next (issue_op h ho)
  have hstop := h.stopReq n.isLt
  rw [← o.acts_atIssue s n w, hctx]
  generalize atIssue s n w = u at hsafe hstop hrun ⊢
  obtain ⟨hissue, hpc⟩ := o.finished_place n.isLt hsafe hstop
  refine .of_exec hrun ⟨hissue, hpc, o.finished_idle n.isLt hsafe hstop, fun acts long => ?_⟩
  have hnzcv := o.finished_nzcv n.isLt hsafe hstop acts long
  have hdata := Op.finished_data n acts long
  have hg := o.finished_g n.isLt hsafe hstop acts long
  refine ⟨fun h1 => ?_, fun h2 => ?_, fun h1 h2 => ?_, fun hst hd hb => ?_, fun hno => ?_, fun hp hz r hr => ?_, fun hp hz r hr h1 => ?_⟩
  · rw [hnzcv, if_pos h1]
  · simp [hnzcv, h2]
  · rw [hnzcv, if_neg h1, if_neg h2]
  · rw [hdata, if_pos ⟨hst, hd, hb⟩]
  · rw [hdata, if_neg fun ⟨hst, hd, _⟩ => hno.elim (· hst) (· hd)]
  · rw [hg hp hz, o.putAlus_alu1 _ _ hr]
  · rw [hg hp hz, o.putAlus_alu0 _ _ hr h1]

end Sys2Proof.Machine
end

section
/-! Entries between words: imprecise causes, the fault of the next word, and events (R365, R366, R368, R374-R376, R634), and O15. -/

namespace Sys2Proof.Machine

/-- An entry through a valid descriptor leaves the cause in its thread, which goes on at the descriptor's pc and privilege one
level deeper (R375, R376). -/
theorem Runs.entered {c : Instr} {n : Fin 16} {s u v : State} {isFault : Bool} {e : Escalation}
    (hx : exec c s = .next (takeEntry n isFault e u)) (hm : (u.thr n).mon = false) (hs : (u.thr n).spill = false)
    (hv : tableEntry n isFault e u = some v) : Runs c s fun t =>
      (t.thr n).xvec = e.vec ∧ (t.thr n).xpc = e.xpc ∧ (t.thr n).xaddr = e.xaddr ∧ (t.thr n).depth = (u.thr n).depth + 1 ∧
        (t.thr n).ctx.pc = fd (descriptor u e.vec) 0 16 ∧ (t.thr n).ctx.priv = fd (descriptor u e.vec) 16 2 ∧ t.mem = v.mem := by
  refine .of_exec hx ?_
  rw [takeEntry_table hm hs hv]
  obtain ⟨hvec, hxpc, hxaddr, hdepth, hpc, hpriv, -⟩ := tableEntry_thr n.isLt hv
  exact ⟨hvec, hxpc, hxaddr, hdepth, hpc, hpriv, rfl⟩

/-! ## Exceptions (R366, R368) -/

section
variable {n : Fin 16} {s : State} (hc : coreOff s = false) (he : (s.thr n).escal = none)
include hc he

theorem exec_exceptionEntry_imprecise {vec : BitVec 6} {p : Posted} (hi : impreciseDue s (s.thr n) = some (vec, p))
    (ho : entryOpen s n = true) : exec (.exceptionEntry n) s = .next (takeImprecise n vec p s) := by
  have hx : exceptionEntry n s = takeImprecise n vec p s := by
    unfold exceptionEntry
    rw [he]
    dsimp only
    rw [hi]
    exact if_pos ho
  exact hx ▸ exec_event rfl hc

theorem exec_exceptionEntry_precise (hi : impreciseDue s (s.thr n) = none) :
    exec (.exceptionEntry n) s = .next (issue n none s) := by
  have hx : exceptionEntry n s = issue n none s := by
    unfold exceptionEntry
    rw [he]
    dsimp only
    rw [hi]
  exact hx ▸ exec_event rfl hc

end

/-- A word that a fault stops is not issued: the fault enters from the state of its issue (R366, R368). -/
theorem issue_fault {s : State} {n : Nat} {w : U32} {vec : BitVec 6} {a : U32} (ht : selected s = some n)
    (hw : microWord (applyRet n s) ((applyRet n s).thr n).ctx.pc = w)
    (hf : (wordStop (applyRet n s) n w).2 = some (.fault vec a)) : issue n none s = takeFault n vec a (atIssue s n w) := by
  unfold issue
  rw [if_neg (by simp [ht])]
  dsimp only
  rw [hw, if_neg (by simp)]
  unfold atIssue
  generalize wordStop (applyRet n s) n w = p at hf ⊢
  obtain ⟨events, stop⟩ := p
  subst hf
  rfl

/-! ## Events (R365, R634) -/

/-- Nothing at the boundary of thread `n` comes before the event of source `k` with vector `vec` (R368, R373). -/
structure EventEnters (s : State) (n k : Nat) (vec : BitVec 6) : Prop where
  due : eventDue s n = some (k, vec)
  boundary : entryOpen s n = true
  imprecise : impreciseDue s (s.thr n) = none
  debug : debugDue (s.thr n) = false
  stop : (s.thr n).stopReq = false
  word : wordFaults s n = false

/-- The entry that an event with vector `vec` makes from the boundary of thread `n` (R375, R377). -/
def eventEntry (vec : BitVec 6) (t : Thread) : Escalation :=
  { vec := vec, ret := (resumePoint t.ctx).1, status := (resumePoint t.ctx).2, xpc := t.xpc, xaddr := 0 }

theorem eventDispatch_enters {s v : State} {n k : Nat} {vec : BitVec 6} (h : EventEnters s n k vec)
    (hv : takeEntry n false (eventEntry vec ((applyRet n s).thr n)) (applyRet n s) = v) :
    eventDispatch n s = dispatchClaim n k (v.thr n).depth v := by
  subst hv
  unfold eventDispatch
  rw [h.due]
  dsimp only
  rw [if_neg (by simp [h.boundary, h.imprecise, h.debug, h.stop, h.word])]
  rfl

theorem dispatchClaim_service {k : Nat} (hk : k < 512) (n : Nat) (depth : Byte) (s : State) :
    ((dispatchClaim n k depth s).source k).service = some (.thread (BitVec.ofNat 4 n) depth) := by
  unfold dispatchClaim
  rw [State.source_modSrc _ _ hk]

theorem eventDispatch_runs {n : Fin 16} {s u v : State} {k : Fin 512} {vec : BitVec 6} (hc : coreOff s = false)
    (h : EventEnters s n k vec) (hu : u = applyRet n s) (hm : (u.thr n).mon = false) (hs : (u.thr n).spill = false)
    (hv : tableEntry n false (eventEntry vec (u.thr n)) u = some v) : Runs (.eventDispatch n) s fun t =>
      (t.thr n).xvec = vec ∧ (t.thr n).xaddr = 0 ∧ (t.thr n).depth = (u.thr n).depth + 1 ∧
        (t.thr n).ctx.pc = fd (descriptor u vec) 0 16 ∧ (t.thr n).ctx.priv = fd (descriptor u vec) 16 2 ∧
        (t.source k).service = some (.thread (BitVec.ofNat 4 n) ((u.thr n).depth + 1)) ∧ t.mem = v.mem := by
  subst hu
  refine .of_exec (exec_event rfl hc) ?_
  rw [eventDispatch_enters h (takeEntry_table hm hs hv)]
  have claim := dispatchClaim_only n k (v.thr n).depth v
  have service := dispatchClaim_service k.isLt n (v.thr n).depth v
  obtain ⟨hvec, -, hxaddr, hdepth, hpc, hpriv, -⟩ := tableEntry_thr n.isLt hv
  rw [thr_eq n claim.seq, claim.mem, service]
  exact ⟨hvec, hxaddr, hdepth, hpc, hpriv, by rw [hdepth], rfl⟩

/-- Settles O15: all three entries are `takeEntry` from the state in which the boundary's return is applied. -/
theorem entriesBetweenWords : Obligations.EntriesBetweenWords := by
  refine ⟨?_, ?_, ?_⟩
  · rintro n s _ v2 vec p _ hc he hi ho rfl rfl hm hs h2
    exact .entered (exec_exceptionEntry_imprecise hc he hi ho) hm hs h2
  · rintro n s _ v2 vec a w _ hc he hi ht hw hf rfl rfl hm hs h2
    refine .entered ?_ hm hs h2
    rw [exec_exceptionEntry_precise hc he hi, issue_fault ht hw.symm hf]
    rfl
  · rintro n s u v2 k vec _ hc hdue hopen himp hdbg hstop hword hu rfl hm hs h2
    exact eventDispatch_runs hc ⟨hdue, hopen, himp, hdbg, hstop, hword⟩ hu hm hs h2

end Sys2Proof.Machine
end

section
/-! The check gates (R400-R411): evaluation, the fc edge, CTL and the table words, and O7. -/

namespace Sys2Proof.Machine

/-! ## Evaluation (R400, R404) -/

/-- The inputs that gate `g` sees with the values of this fc (R404). -/
def gateInputs (s : State) (g : Gate) : Byte := bitsFrom 8 fun i => gateInput s (vget g.isel i 0xFE).toNat

/-- Gate `k` once it has read the entry that its state and its inputs index. -/
def gateWithEntry (s : State) (k : Nat) (g : Gate) : Gate :=
  { g with
    inputs := gateInputs s g
    entry := some (gateInputs s g, gateEntry s k (g.state.toNat * 256 + (gateInputs s g).toNat)) }

theorem gateLook_reads {s : State} {k : Nat} {g : Gate} (he : g.en = true) (hr : g.restart = false) (hn : g.entry = none) :
    gateLook s k g = gateWithEntry s k g :=
  if_pos (by rw [he, hr, hn]; rfl)

theorem gateLook_keeps {s : State} {k : Nat} {g : Gate} (h : g.en = false ∨ g.restart = true ∨ g.entry ≠ none) :
    gateLook s k g = g :=
  if_neg (by rcases h with h | h | h <;> simp [h])

theorem gateEvaluate_getGate {k : Nat} (hk : k < 8) (s : State) : (gateEvaluate s).getGate k = gateLook s k (s.getGate k) :=
  vget_vmap _ hk _ _ _

theorem exec_gateEvaluate {s : State} (hc : coreOff s = false) (hrun : s.clk.running = true) :
    exec .gateEvaluate s = .next (gateEvaluate s) :=
  (exec_event rfl hc).trans (congrArg Host.Outcome.next (if_pos hrun))

/-! ## The fc edge (R400, R401, R406, R412) -/

theorem gateApply_entry {g : Gate} {ins : Byte} {e : U16} (he : g.en = true) (hr : g.restart = false)
    (hn : g.entry = some (ins, e)) : (gateApply g).1 = { g with
      state := if g.toInit then g.init else fd e 12 4
      fen := fd e 4 8, fsafe := bit e 3, ev := bit e 2, evf := g.evf || bit e 2 && !g.ev, toInit := false, entry := none } := by
  unfold gateApply
  rw [he, hr, hn]
  rfl

theorem gateApply_restart {g : Gate} (he : g.en = true) (hr : g.restart = true) : gateApply g = ({ g with
    state := g.init, fen := 0, fsafe := false, ev := false, restart := false, toInit := false, entry := none }, false) := by
  unfold gateApply
  rw [he, hr]
  rfl

/-! ## CTL (R406, R441) -/

/-- The gate with the fields of a word written to its CTL. -/
def Gate.withCtl (g : Gate) (v : U32) : Gate := { g with en := bit v 0, shuten := bit v 1, rar := bit v 2, init := fd v 4 4 }

theorem writeGateCtl_other {j k : Nat} (h : j ≠ k) (v : U32) (s : State) :
    (writeGateCtl k v s).getGate j = s.getGate j := by
  unfold writeGateCtl
  dsimp only
  rw [getGate_eq j (shutAssertIf_only ..).gate, State.getGate_modGate_other _ _ h]

/-- EN from 0 to 1 puts the gate in INIT. -/
theorem writeGateCtl_start {k : Nat} (hk : k < 8) {v : U32} {s : State} (hv : bit v 0 = true) (he : (s.getGate k).en = false) :
    (writeGateCtl k v s).getGate k = { (s.getGate k).withCtl v with state := fd v 4 4, restart := true } := by
  unfold writeGateCtl
  dsimp only
  rw [getGate_eq k (shutAssertIf_only ..).gate, State.getGate_modGate _ _ hk, hv, he]
  exact congrArg (fun b => { (s.getGate k).withCtl v with en := b, state := fd v 4 4, restart := true }) hv.symm

/-- RESTART on an enabled gate. -/
theorem writeGateCtl_restart {k : Nat} (hk : k < 8) {v : U32} {s : State} (hv : bit v 0 = true) (hr : bit v 3 = true)
    (he : (s.getGate k).en = true) :
    (writeGateCtl k v s).getGate k = { (s.getGate k).withCtl v with restart := true } := by
  unfold writeGateCtl
  dsimp only
  rw [getGate_eq k (shutAssertIf_only ..).gate, State.getGate_modGate _ _ hk, hv, he, hr]
  exact congrArg (fun b => { (s.getGate k).withCtl v with en := b, restart := true }) hv.symm

/-! ## Stores (R411) -/

theorem gateStore_denied {ag : Agent} (h : ag.isHeadworks = false) (k : Nat) (r : GateReg) (v : U32) (s : State) :
    gateStore ag k r v s = (s, { err := true }) :=
  if_pos (by rw [h]; rfl)

theorem gateStore_ctl {ag : Agent} (h : ag.isHeadworks = true) (k : Nat) (v : U32) (s : State) :
    gateStore ag k .ctl v s = (writeGateCtl k v s, {}) :=
  if_neg (by rw [h]; decide)

/-- Word `x` of gate `k`'s table holds the two entries of `v`, bits [1:0] of each clear (R401, R410). -/
def State.putGateWord (s : State) (k x : Nat) (v : U32) : State :=
  { s with mem := { s.mem with
      gate := sput 0 (4096 * k + 2 * x + 1) (fd v 16 16 &&& 0xFFFC) (sput 0 (4096 * k + 2 * x) (fd v 0 16 &&& 0xFFFC) s.mem.gate) } }

theorem gateStore_table_off {ag : Agent} (h : ag.isHeadworks = true) {k : Nat} {s : State} (he : (s.getGate k).en = false)
    (x : BitVec 11) (v : U32) : gateStore ag k (.table x) v s = (s.putGateWord k x.toNat v, {}) :=
  (if_neg (by rw [h]; decide)).trans (if_neg (by rw [he]; decide))

theorem gateStore_table_on {ag : Agent} (h : ag.isHeadworks = true) {k : Nat} {s : State} (he : (s.getGate k).en = true)
    (x : BitVec 11) (v : U32) : gateStore ag k (.table x) v s =
      (hwSet (0xE014 + 0x40 * k) 0x20000 (s.modGate k (fun g => { g with wign := true })), {}) :=
  (if_neg (by rw [h]; decide)).trans (if_pos he)

section
variable (k x : Nat) (v : U32) {s : State}

theorem gateEntry_putGateWord_low (hw : Memory.wf 0 s.mem.gate = true) :
    gateEntry (s.putGateWord k x v) k (2 * x) = (fd v 0 16 : U16) &&& 0xFFFC :=
  (sget_sput_other _ _ (by omega)).trans (sget_sput_self _ _ _ hw)

theorem gateEntry_putGateWord_high (hw : Memory.wf 0 s.mem.gate = true) :
    gateEntry (s.putGateWord k x v) k (2 * x + 1) = (fd v 16 16 : U16) &&& 0xFFFC :=
  sget_sput_self _ _ _ (sput_wf _ _ hw)

theorem putGateWord_other {a : Nat} (h0 : a ≠ 4096 * k + 2 * x) (h1 : a ≠ 4096 * k + 2 * x + 1) :
    sget 0 a (s.putGateWord k x v).mem.gate = sget 0 a s.mem.gate :=
  (sget_sput_other _ _ h1).trans (sget_sput_other _ _ h0)

end

/-- A store of R411 that ends well is answered, and leaves what the store leaves. -/
theorem exec_gateStore {c : Instr} {w : Who} {off k : Nat} {r : GateReg} {v : U32} {s e : State}
    (hx : exec c s = .next (regCommand w off (gateStore (agentOf s w) k r v s) s)) (h : MayWrite w off s)
    (he : gateStore (agentOf s w) k r v s = (e, {})) : exec c s = .next (answer e w {}) :=
  exec_write (he ▸ hx) h

theorem exec_gateTableStore_host (k : Fin 8) (r : GateReg) (v : U32) {s : State} (hc : coreOff s = false) :
    exec (.gateTableStore .host k r v) s = .next (answer s .host { err := true }) :=
  congrArg Host.Outcome.next ((regCommand_allowed ⟨hc, rfl⟩ _).trans
    (congrArg (writeAnswer .host) (gateStore_denied rfl k r v s)))

/-- The debugger is refused by its level, or by the gate itself. -/
theorem exec_gateTableStore_debugger (k : Fin 8) (r : GateReg) (v : U32) {s : State} (hc : coreOff s = false) :
    exec (.gateTableStore .debugger k r v) s = .next (refuseWrite .debugger s) := by
  refine congrArg Host.Outcome.next ?_
  cases hw : writeRefused s .debugger (GateReg.off k r) with
  | true => exact regCommand_refused hw _
  | false => exact (regCommand_allowed ⟨hc, hw⟩ _).trans (congrArg (writeAnswer .debugger) (gateStore_denied rfl k r v s))

/-! ## A field of a written word beside the bit that its command forces -/

theorem bit_or_forced (v : U32) {m : U32} {k : Nat} (h : bit m k = true) : bit (v ||| m) k = true := by
  rw [bit_or, h, Bool.or_true]

theorem bit_or_beside (v : U32) {m : U32} {k : Nat} (h : bit m k = false) : bit (v ||| m) k = bit v k := by
  rw [bit_or, h, Bool.or_false]

/-! ## O7, part by part -/

theorem gateEvaluate_runs (k : Fin 8) {s : State} (hc : coreOff s = false) (hrun : s.clk.running = true) :
    Runs .gateEvaluate s fun t =>
      ((s.getGate k).en = true → (s.getGate k).restart = false → (s.getGate k).entry = none →
        t.getGate k = gateWithEntry s k (s.getGate k)) ∧
      ((s.getGate k).en = false ∨ (s.getGate k).restart = true ∨ (s.getGate k).entry ≠ none →
        t.getGate k = s.getGate k) := by
  refine .of_exec (exec_gateEvaluate hc hrun) ?_
  rw [gateEvaluate_getGate k.isLt]
  exact ⟨gateLook_reads, gateLook_keeps⟩

theorem gateEnable_runs {w : Who} {k : Fin 8} (v : U32) {s : State} (h : MayWrite w (0xE000 + 0x40 * k.val) s)
    (hh : (agentOf s w).isHeadworks = true) (he : (s.getGate k).en = false) : Runs (.gateEnable w k v) s fun t =>
      (t.getGate k).en = true ∧ (t.getGate k).state = fd v 4 4 ∧ (t.getGate k).restart = true ∧
        ∀ j, j ≠ k.val → t.getGate j = s.getGate j := by
  refine .of_exec (exec_gateStore rfl h (gateStore_ctl hh ..)) ?_
  have hen : bit (v ||| 1) 0 = true := bit_or_forced v (by decide)
  simp only [getGate_eq _ (answer_gate ..)]
  rw [writeGateCtl_start k.isLt hen he]
  exact ⟨hen, fd_or (by decide), rfl, fun j hj => writeGateCtl_other hj ..⟩

theorem gateRestart_runs {w : Who} {k : Fin 8} {v : U32} {s : State} (h : MayWrite w (0xE000 + 0x40 * k.val) s)
    (hh : (agentOf s w).isHeadworks = true) (he : (s.getGate k).en = true) (hv : bit v 0 = true) :
    Runs (.gateRestart w k v) s fun t =>
      t.getGate k = { s.getGate k with
        en := true, shuten := bit v 1, rar := bit v 2, init := fd v 4 4, restart := true } ∧
        ∀ j, j ≠ k.val → t.getGate j = s.getGate j := by
  refine .of_exec (exec_gateStore rfl h (gateStore_ctl hh ..)) ?_
  have hen : bit (v ||| 8) 0 = true := (bit_or_beside v (by decide)).trans hv
  simp only [getGate_eq _ (answer_gate ..)]
  refine ⟨?_, fun j hj => writeGateCtl_other hj ..⟩
  rw [writeGateCtl_restart k.isLt hen (bit_or_forced v (by decide)) he, Gate.withCtl, hen, bit_or_beside v (k := 1) (by decide),
    bit_or_beside v (k := 2) (by decide), fd_or (by decide)]

theorem gateTableStore_runs {w : Who} {k : Fin 8} {x : BitVec 11} (v : U32) {s : State}
    (h : MayWrite w (GateReg.off k (.table x)) s) (hh : (agentOf s w).isHeadworks = true)
    (hw : Memory.wf 0 s.mem.gate = true) : Runs (.gateTableStore w k (.table x) v) s fun t =>
      ((s.getGate k).en = true → t.mem = s.mem ∧ (t.getGate k).wign = true) ∧
      ((s.getGate k).en = false →
        gateEntry t k (2 * x.toNat) = (fd v 0 16 : U16) &&& 0xFFFC ∧
          gateEntry t k (2 * x.toNat + 1) = (fd v 16 16 : U16) &&& 0xFFFC ∧
          ∀ a, a ≠ 4096 * k + 2 * x.toNat → a ≠ 4096 * k + 2 * x.toNat + 1 →
            sget 0 a t.mem.gate = sget 0 a s.mem.gate) := by
  cases he : (s.getGate k).en with
  | true =>
    refine .of_exec (exec_gateStore rfl h (gateStore_table_on hh he ..)) ⟨fun _ => ⟨?_, ?_⟩, nofun⟩
    · rw [answer_mem, hwSet_mem, State.modGate_mem]
    · rw [getGate_eq _ (answer_gate ..), hwSet_getGate, State.getGate_modGate _ _ k.isLt]
  | false =>
    refine .of_exec (exec_gateStore rfl h (gateStore_table_off hh he ..)) ⟨nofun, fun _ => ?_⟩
    simp only [gateEntry, answer_mem]
    exact ⟨gateEntry_putGateWord_low k _ v hw, gateEntry_putGateWord_high k _ v hw,
      fun a h0 h1 => putGateWord_other k _ v h0 h1⟩

/-- Settles O7: an evaluation is `gateLook` gate by gate, the edge is `gateApply`, and a store is `gateStore`, which takes CTL
and table words of the headworks alone. -/
theorem gatesComplete : Obligations.GatesComplete := by
  unfold Obligations.GatesComplete
  refine ⟨?_, fun g ins e he hr hn => ?_, fun g he hr => ?_, fun w k v s h hh he => gateEnable_runs v h hh he,
    fun w k v s h hh he hv => gateRestart_runs h hh he hv, fun w k x v s h hh hw => gateTableStore_runs v h hh hw,
    fun k r v s hc => ⟨exec_gateTableStore_host k r v hc, exec_gateTableStore_debugger k r v hc⟩⟩
  · rintro k s _ hc hrun rfl
    exact gateEvaluate_runs k hc hrun
  · rw [gateApply_entry he hr hn]
    exact ⟨rfl, rfl, rfl, rfl, rfl⟩
  · rw [gateApply_restart he hr]
    exact ⟨rfl, rfl, rfl, rfl, rfl⟩

end Sys2Proof.Machine
end

section
/-! The watchdog (R426-R433, R449): the write of WDOG, the service, the count, and O8. -/

namespace Sys2Proof.Machine

/-! ## The write of WDOG (R432, R433, R449) -/

theorem agentOf_debugger {s : State} {w : Who} (h : agentOf s w = .debugger) : w = .debugger := by
  cases w with
  | host => nomatch h
  | debugger => rfl
  | thread n =>
    have hthread : (threadAgent s n).thread = none := congrArg Agent.thread h
    rw [threadAgent_thread s n.isLt] at hthread
    nomatch hthread

/-- The watchdog with the fields of a word written to WDOG: EN is never cleared. -/
def Wdog.written (w : Wdog) (v : U32) : Wdog :=
  { w with en := w.en || bit v 0, lock := bit v 1, wrst := bit v 2, dbgfrz := bit v 3, svcthr := fd v 4 4 }

/-- A write of `v` to WDOG does not start an invalid watchdog (R433). -/
def Wdog.takes (w : Wdog) (v : U32) : Prop :=
  w.en = true ∨ bit v 0 = false ∨ w.per ≠ 0 ∧ w.cls < w.per ∧ (fd v 4 4 : BitVec 4) ≠ 15

theorem writeWdog_taken {ag : Agent} {v : U32} {s : State} (hd : ag = .debugger → s.dbg.level = 3) (hl : s.wdog.lock = false) (hok : s.wdog.takes v) : writeWdog ag v s = wdogFreeze { s with wdog := s.wdog.written v } := by
  unfold writeWdog
  dsimp only
  rw [if_neg (by simpa [hl] using hd), hl, if_neg Bool.false_ne_true, if_neg]
  · rfl
  · rcases hok with h | h | ⟨hper, hcls, hthr⟩
    · simp [h]
    · simp [h]
    · rw [bne_iff_ne.mpr hper, decide_eq_true hcls, bne_iff_ne.mpr hthr]
      simp

/-- A permitted write of WDOG that is taken. -/
theorem exec_writeWdog {c : Instr} {w : Who} {v : U32} {s : State}
    (hx : exec c s = .next (regCommand w 0x26000 (writeWdog (agentOf s w) v s, {}) s)) (h : MayWrite w 0x26000 s)
    (hd : w = .debugger → s.dbg.level = 3) (hl : s.wdog.lock = false) (hok : s.wdog.takes v) :
    exec c s = .next (answer (wdogFreeze { s with wdog := s.wdog.written v }) w {}) := by
  rw [exec_write hx h, writeWdog_taken (fun ha => hd (agentOf_debugger ha)) hl hok]

theorem watchdogEnable_runs {w : Who} {v : U32} {s : State} (h : MayWrite w 0x26000 s) (hd : w = .debugger → s.dbg.level = 3)
    (hl : s.wdog.lock = false) (hper : s.wdog.per ≠ 0) (hcls : s.wdog.cls < s.wdog.per) (hthr : (fd v 4 4 : BitVec 4) ≠ 15) :
    Runs (.watchdogEnable w v) s fun t =>
      t.wdog.en = true ∧ t.wdog.lock = bit v 1 ∧ t.wdog.wrst = bit v 2 ∧ t.wdog.dbgfrz = bit v 3 ∧
        t.wdog.svcthr = fd v 4 4 := by
  have hf : (fd (v ||| 1) 4 4 : BitVec 4) = fd v 4 4 := fd_or (by decide)
  refine .of_exec (exec_writeWdog rfl h hd hl (.inr (.inr ⟨hper, hcls, hf ▸ hthr⟩))) ?_
  rw [answer_wdog, wdogFreeze_wdog]
  exact ⟨by rw [Wdog.written, bit_or_forced v (by decide), Bool.or_true], bit_or_beside v (by decide),
    bit_or_beside v (by decide), bit_or_beside v (by decide), hf⟩

theorem watchdogLock_runs {w : Who} {v : U32} {s : State} (h : MayWrite w 0x26000 s) (hd : w = .debugger → s.dbg.level = 3)
    (hl : s.wdog.lock = false) (hok : s.wdog.takes v) :
    Runs (.watchdogLock w v) s fun t => t.wdog.lock = true ∧ t.wdog.per = s.wdog.per ∧ t.wdog.cls = s.wdog.cls := by
  have hen : bit (v ||| 2) 0 = bit v 0 := bit_or_beside v (by decide)
  have hf : (fd (v ||| 2) 4 4 : BitVec 4) = fd v 4 4 := fd_or (by decide)
  refine .of_exec (exec_writeWdog rfl h hd hl (by simpa only [Wdog.takes, hen, hf] using hok)) ?_
  rw [answer_wdog, wdogFreeze_wdog]
  exact ⟨bit_or_forced v (by decide), rfl, rfl⟩

/-! ## The service (R427-R429) -/

section
variable {v : U32} {s : State} (he : s.wdog.en = true) (hs : s.wdog.stopped = false)
include he hs

/-- What a store to WDSVC does for the serviced thread while the watchdog runs. -/
theorem wdogService_serviced (v : U32) : wdogService (.sup s.wdog.svcthr) v s =
    if (fd v 0 8 : Byte) = 0x5A ∧ s.wdog.armed = false then { s with wdog := { s.wdog with armed := true } }
    else if (fd v 0 8 : Byte) = 0xA5 ∧ s.wdog.armed = true then
      if s.wdog.cnt < s.wdog.cls then wdogExpire 1 s else { s with wdog := { wdogZero s.wdog with armed := false } }
    else wdogExpire 2 s := by
  unfold wdogService
  simp [he, hs]

theorem wdogService_arms (hk : (fd v 0 8 : Byte) = 0x5A) (ha : s.wdog.armed = false) :
    wdogService (.sup s.wdog.svcthr) v s = { s with wdog := { s.wdog with armed := true } } := by
  rw [wdogService_serviced he hs, if_pos ⟨hk, ha⟩]

theorem wdogService_closes (hk : (fd v 0 8 : Byte) = 0xA5) (ha : s.wdog.armed = true) :
    wdogService (.sup s.wdog.svcthr) v s =
      if s.wdog.cnt < s.wdog.cls then wdogExpire 1 s else { s with wdog := { wdogZero s.wdog with armed := false } } := by
  rw [wdogService_serviced he hs, if_neg (by simp [ha]), if_pos ⟨hk, ha⟩]

theorem wdogService_wrong (h5 : ¬((fd v 0 8 : Byte) = 0x5A ∧ s.wdog.armed = false))
    (hA : ¬((fd v 0 8 : Byte) = 0xA5 ∧ s.wdog.armed = true)) :
    wdogService (.sup s.wdog.svcthr) v s = wdogExpire 2 s := by
  rw [wdogService_serviced he hs, if_neg h5, if_neg hA]

end

/-- What an expiry leaves once its access has been answered. -/
theorem wdogExpire_answered (cause : BitVec 2) (s : State) (w : Who) :
    (answer (wdogExpire cause s) w {}).wdog.exp = true ∧ (answer (wdogExpire cause s) w {}).wdog.cause = cause ∧
      (answer (wdogExpire cause s) w {}).shut.active = true ∧ SrcRaised 425 (answer (wdogExpire cause s) w {}) := by
  obtain ⟨hwdog, -, hactive, hraised⟩ := wdogExpire_spec cause s
  rw [answer_wdog, answer_shut, hwdog]
  exact ⟨rfl, rfl, hactive, hraised.answered ..⟩

theorem watchdogService_runs {w : Who} (v : U32) {s : State} (h : MayWrite w 0x2600C s)
    (hag : agentOf s w = .sup s.wdog.svcthr) (he : s.wdog.en = true) (hs : s.wdog.stopped = false) :
    Runs (.watchdogService w v) s fun t =>
      (fd v 0 8 = (0x5A : Byte) → s.wdog.armed = false → t.wdog = { s.wdog with armed := true }) ∧
      (fd v 0 8 = (0xA5 : Byte) → s.wdog.armed = true → s.wdog.cls ≤ s.wdog.cnt →
        t.wdog = { s.wdog with cnt := 0, armed := false, opened := s.wdog.opened && s.wdog.cls = 0 }) ∧
      (fd v 0 8 = (0xA5 : Byte) → s.wdog.armed = true → s.wdog.cnt < s.wdog.cls →
        t.wdog.exp = true ∧ t.wdog.cause = 1 ∧ t.shut.active = true ∧ SrcRaised 425 t) ∧
      (¬(fd v 0 8 = (0x5A : Byte) ∧ s.wdog.armed = false) → ¬(fd v 0 8 = (0xA5 : Byte) ∧ s.wdog.armed = true) →
        t.wdog.exp = true ∧ t.wdog.cause = 2 ∧ t.shut.active = true ∧ SrcRaised 425 t) := by
  refine .of_exec (exec_write rfl h) ?_
  rw [hag]
  refine ⟨fun hk ha => ?_, fun hk ha hc => ?_, fun hk ha hc => ?_, fun h5 hA => ?_⟩
  · rw [wdogService_arms he hs hk ha, answer_wdog]
  · rw [wdogService_closes he hs hk ha, if_neg (BitVec.not_lt.mpr hc), answer_wdog]
    rfl
  · rw [wdogService_closes he hs hk ha, if_pos hc]
    exact wdogExpire_answered 1 s w
  · rw [wdogService_wrong he hs h5 hA]
    exact wdogExpire_answered 2 s w

/-! ## The count (R426, R430) -/

section
variable {s : State} (hc : coreOff s = false) (hrun : wdogCounts s = true)
include hc hrun

theorem exec_watchdogCount (hlt : s.wdog.cnt < s.wdog.per) :
    exec .watchdogCount s = .next { s with wdog := { s.wdog with cnt := s.wdog.cnt + 1 } } :=
  (exec_event rfl hc).trans (congrArg Host.Outcome.next (if_pos (by rw [hrun, decide_eq_true hlt]; rfl)))

theorem exec_watchdogWindowOpen (ho : s.wdog.opened = false) (hle : s.wdog.cls ≤ s.wdog.cnt) :
    exec .watchdogWindowOpen s = .next (raise 424 { s with wdog := { s.wdog with opened := true } }) :=
  (exec_event rfl hc).trans (congrArg Host.Outcome.next (if_pos (by rw [hrun, ho, decide_eq_true hle]; rfl)))

theorem exec_watchdogExpiry (hle : s.wdog.per ≤ s.wdog.cnt) : exec .watchdogExpiry s = .next (wdogExpire 0 s) :=
  (exec_event rfl hc).trans (congrArg Host.Outcome.next (if_pos (by rw [hrun, decide_eq_true hle]; rfl)))

theorem watchdogExpiry_runs (hle : s.wdog.per ≤ s.wdog.cnt) : Runs .watchdogExpiry s fun t =>
    t.wdog.exp = true ∧ t.wdog.cause = 0 ∧ t.wdog.stopped = true ∧ t.shut.wdog = true ∧ t.shut.active = true ∧
      SrcRaised 425 t ∧ (s.wdog.wrst = true → t.wdog.resetAt = some (s.clk.fc + 64)) := by
  obtain ⟨hwdog, hsource, hactive, hraised⟩ := wdogExpire_spec 0 s
  refine .of_exec (exec_watchdogExpiry hc hrun hle) ?_
  rw [hwdog]
  exact ⟨rfl, rfl, rfl, hsource, hactive, hraised, fun hwrst => if_pos hwrst⟩

end

/-- Settles O8: WDOG by `writeWdog_taken`, WDSVC by `wdogService_serviced`, and every expiry by `wdogExpire_spec`. -/
theorem watchdogComplete : Obligations.WatchdogComplete := by
  unfold Obligations.WatchdogComplete
  refine ⟨fun w v s h hd hl hper hcls hthr => watchdogEnable_runs h hd hl hper hcls hthr,
    fun w v s h hd hl hok => watchdogLock_runs h hd hl hok, fun w v s h hag he hs => watchdogService_runs v h hag he hs,
    fun s hc hrun ho hle => .of_exec (exec_watchdogWindowOpen hc hrun ho hle) ⟨by rw [raise_wdog], raise_raised ..⟩,
    fun s hc hrun hle => watchdogExpiry_runs hc hrun hle, fun s hc hrun hlt => exec_watchdogCount hc hrun hlt⟩

end Sys2Proof.Machine
end

section
/-! The Rider instructions as the turn of a channel has latched them (R502, R507-R510, R513, R529), and O22. -/

namespace Sys2Proof.Machine

set_option Elab.async false

/-! ## Phases of a latched instruction (R502, R509) -/

/-- The latched instruction goes on in phase `p` after a change of its channel that keeps it latched. -/
theorem setPhase_modRch {n : Nat} (hn : n < 32) (p : RiderPhase) {f : RiderCh → RiderCh} {s : State} {l : RiderLatch}
    (hf : (f (s.rch n)).latch = some l) :
    (setPhase n p (s.modRch n f)).rch n = { f (s.rch n) with latch := some { l with phase := p } } := by
  have hm : (s.modRch n f).rch n = f (s.rch n) := State.rch_modRch _ _ hn
  rw [setPhase_rch hn p (by rw [hm, hf]), hm]

theorem fillOsr_empty {n : Nat} (hn : n < 32) {s : State} {l : RiderLatch} (hl : (s.rch n).latch = some l)
    (ht : (s.rch n).tx = []) : (fillOsr n s).rch n = { s.rch n with latch := some { l with phase := .fill } } := by
  unfold fillOsr
  rw [ht]
  exact setPhase_rch hn .fill hl

theorem fillOsr_word {n : Nat} (hn : n < 32) {s : State} {l : RiderLatch} (hl : (s.rch n).latch = some l) {v : U32}
    {rest : List U32} (ht : (s.rch n).tx = v :: rest) :
    (fillOsr n s).rch n = { s.rch n with osr := v, tx := rest, latch := some { l with phase := .align } } := by
  unfold fillOsr
  rw [ht]
  exact setPhase_modRch hn .align hl

theorem rchFlag_raised {n b : Nat} {s : State} (hstat : bit (s.rch n).stat b = false) (hien : bit (s.rch n).ien b = true) :
    SrcRaised (240 + n) (rchFlag n b s) := by
  unfold rchFlag
  exact raiseIf_raised (by rw [hstat, hien]; rfl) _ _

/-! ## The instructions, one by one -/

section
variable {n : Fin 32} {s : State} {l : RiderLatch} (hc : coreOff s = false) (hl : (s.rch n).latch = some l) (hp : l.phase = .fetched)
include hc hl hp

theorem riderBr_runs (ho : opcOf l.word = 0) : Runs (.riderBr n) s fun t => t.rch n = { s.rch n with
    latch := none
    pc := if riderCond s (s.rch n) (fd l.word 16 4).toNat (fd l.word 13 3).toNat then fd l.word 0 11 else (s.rch n).pc } := by
  refine .of_exec (exec_event rfl hc) ?_
  rw [fetchedOp_some hl hp ho]
  dsimp only
  rw [complete_rch n.isLt]
  split
  · rw [State.rch_modRch _ _ n.isLt]
  · rfl

theorem loop_runs (ho : opcOf l.word = 1) : Runs (.loop n) s fun t => t.rch n = { s.rch n with
    latch := none, lc := (s.rch n).lc - 1, pc := if (s.rch n).lc - 1 = 0 then (s.rch n).pc else fd l.word 0 11 } := by
  refine .of_exec (exec_event rfl hc) ?_
  rw [fetchedOp_some hl hp ho]
  dsimp only
  rw [complete_rch n.isLt, State.rch_modRch _ _ n.isLt]

theorem shift_runs (ho : opcOf l.word = 2) : Runs (.shift n) s fun t =>
    t.rch n = match bit l.word 17, (s.rch n).tx with
      | false, _ => { s.rch n with scnt := 0, latch := some { l with phase := .align } }
      | true, [] => { s.rch n with scnt := 0, latch := some { l with phase := .fill } }
      | true, v :: rest => { s.rch n with scnt := 0, osr := v, tx := rest, latch := some { l with phase := .align } } := by
  refine .of_exec (exec_event rfl hc) ?_
  rw [fetchedOp_some hl hp ho]
  dsimp only
  have hm : (s.modRch n fun c => { c with scnt := 0 }).rch n = { s.rch n with scnt := 0 } := State.rch_modRch _ _ n.isLt
  have hl' : ((s.modRch n fun c => { c with scnt := 0 }).rch n).latch = some l := by rw [hm]; exact hl
  cases bit l.word 17 with
  | false => exact setPhase_modRch n.isLt .align hl
  | true =>
    rw [if_pos rfl]
    cases ht : (s.rch n).tx with
    | nil =>
      rw [fillOsr_empty n.isLt hl' (by rw [hm]; exact ht), hm]
      dsimp only
      rw [ht]
    | cons v rest => rw [fillOsr_word n.isLt hl' (by rw [hm]; exact ht), hm]

theorem waitpin_runs (ho : opcOf l.word = 3) : Runs (.waitpin n) s fun t => t.rch n = { s.rch n with
    latch := if bit l.word 11 = false ∧ slotReads s (s.rch n) (fd l.word 13 3).toNat = bit l.word 12 then none
      else some { l with phase := .waiting } } := by
  refine .of_exec (exec_event rfl hc) ?_
  rw [fetchedOp_some hl hp ho]
  dsimp only
  by_cases h : bit l.word 11 = false ∧ slotReads s (s.rch n) (fd l.word 13 3).toNat = bit l.word 12
  · rw [if_pos h, if_pos (by simpa using h), complete_rch n.isLt]
  · rw [if_neg h, if_neg (by simpa using h), setPhase_rch n.isLt _ hl]

theorem waitt_runs (ho : opcOf l.word = 4) : Runs (.waitt n) s fun t =>
    t.rch n = { s.rch n with latch := some { l with phase := .waiting } } := by
  refine .of_exec (exec_event rfl hc) ?_
  rw [fetchedOp_some hl hp ho]
  exact setPhase_rch n.isLt _ hl

theorem setat_runs (ho : opcOf l.word = 5) : Runs (.setat n) s fun t =>
    (t.rch n).x = (if bit l.word 10 then (s.rch n).x + (s.rch n).y else (s.rch n).x) ∧
    ((s.rch n).setat = none → (t.rch n).latch = none ∧ (t.rch n).setat =
      some { slot := fd l.word 13 3, op := fd l.word 11 2, t := (s.rch n).x, e := fcTime s, fc := s.clk.fc }) ∧
    (∀ p, (s.rch n).setat = some p →
      (t.rch n).latch = some { l with time := (s.rch n).x, phase := .waiting } ∧ (t.rch n).setat = some p) := by
  refine .of_exec (exec_event rfl hc) ?_
  rw [fetchedOp_some hl hp ho, hl]
  dsimp only
  rw [State.rch_modRch _ _ n.isLt]
  cases hset : (s.rch n).setat with
  | none =>
    rw [Option.isNone_none, if_pos rfl, setatDo_rch n.isLt, State.rch_modRch _ _ n.isLt]
    exact ⟨rfl, fun _ => ⟨rfl, rfl⟩, nofun⟩
  | some q =>
    rw [Option.isNone_some, if_neg Bool.false_ne_true, State.rch_modRch _ _ n.isLt]
    exact ⟨rfl, nofun, fun p h => ⟨rfl, hset.trans h⟩⟩

theorem ld_runs (ho : opcOf l.word = 6) : Runs (.ld n) s fun t =>
    t.rch n = match (fd l.word 17 3).toNat with
      | 0 => { s.rch n with latch := none, x := (fd l.word 0 16 : U16).zeroExtend 32 }
      | 1 => { s.rch n with latch := none, y := (fd l.word 0 16 : U16).zeroExtend 32 }
      | 2 => { s.rch n with latch := none, x := (fd l.word 0 16 : U16) ++ (fd (s.rch n).x 0 16 : U16) }
      | 3 => { s.rch n with latch := none, y := (fd l.word 0 16 : U16) ++ (fd (s.rch n).y 0 16 : U16) }
      | _ => { s.rch n with latch := none, lc := fd l.word 0 16 } := by
  refine .of_exec (exec_event rfl hc) ?_
  rw [fetchedOp_some hl hp ho]
  dsimp only
  rw [complete_rch n.isLt, State.rch_modRch _ _ n.isLt]
  generalize (fd l.word 17 3).toNat = d
  match d with
  | 0 | 1 | 2 | 3 | _ + 4 => rfl

theorem sig_runs (ho : opcOf l.word = 8) : Runs (.sig n) s fun t =>
    t.rch n = { s.rch n with
      stat := setBit (s.rch n).stat 0 true, latch := if bit l.word 0 then some { l with phase := .waiting } else none } ∧
    (bit (s.rch n).stat 0 = false → bit (s.rch n).ien 0 = true → SrcRaised (240 + n) t) := by
  refine .of_exec (exec_event rfl hc) ?_
  rw [fetchedOp_some hl hp ho]
  dsimp only
  have hf : (rchFlag n 0 s).rch n = { s.rch n with stat := setBit (s.rch n).stat 0 true } := rchFlag_rch n.isLt ..
  have hl' : ((rchFlag n 0 s).rch n).latch = some l := by rw [hf]; exact hl
  cases bit l.word 0 with
  | true =>
    rw [if_pos rfl, setPhase_rch n.isLt _ hl', hf]
    exact ⟨rfl, fun hstat hien => (rchFlag_raised hstat hien).congr rfl⟩
  | false =>
    rw [if_neg Bool.false_ne_true, complete_rch n.isLt, hf]
    exact ⟨rfl, fun hstat hien => (rchFlag_raised hstat hien).congr rfl⟩

end

/-- Settles O22: what a turn has latched is what each instruction finds (`fetchedOp_some`), and it then ends (`complete_rch`)
or waits (`setPhase_rch`). -/
theorem riderInstructions : Obligations.RiderInstructions := by
  unfold Obligations.RiderInstructions
  exact ⟨fun n s l => riderBr_runs, fun n s l => loop_runs, fun n s l => shift_runs, fun n s l => waitpin_runs,
    fun n s l => waitt_runs, fun n s l => setat_runs, fun n s l => ld_runs, fun n s l => sig_runs⟩

end Sys2Proof.Machine
end

section
/-! The turn of a Rider channel, MOV, the end of a stall and the firing of a SETAT (R490-R519, R523), and O23. -/

namespace Sys2Proof.Machine

set_option Elab.async false

/-! ## The level that an output slot takes at the next fc edge (R499) -/

theorem modSlot_same {n j : Nat} (hn : n < 32) (hj : j < 8) (f : RiderSlot → RiderSlot) (s : State) :
    rslot ((modSlot n j f s).rch n) j = f (rslot (s.rch n) j) := by
  unfold modSlot rslot
  rw [State.rch_modRch _ _ hn]
  exact vget_vmod_self _ hj _ _

theorem modSlot_other {n j k : Nat} (hn : n < 32) (h : k ≠ j) (f : RiderSlot → RiderSlot) (s : State) :
    rslot ((modSlot n j f s).rch n) k = rslot (s.rch n) k := by
  unfold modSlot rslot
  rw [State.rch_modRch _ _ hn]
  exact vget_vmod_other _ h _ _

/-- Whatever the claim of its pin does to the outlets, the slots of the channel are what `nextLevel` has written. -/
theorem nextLevel_rslot (n j k : Nat) (b claim : Bool) (s : State) : rslot ((nextLevel n j b claim s).rch n) k =
    if drives (rslot (s.rch n) j) then rslot ((modSlot n j (fun sl => { sl with next := some b, nextSide := claim }) s).rch n) k
    else rslot (s.rch n) k := by
  unfold nextLevel
  dsimp only
  split
  · split
    · rw [rch_eq n (riderClaim_only ..).rider]
    · rfl
  · rfl

theorem nextLevel_same {n j : Nat} (hn : n < 32) (hj : j < 8) {s : State} (hd : drives (rslot (s.rch n) j) = true) (b claim : Bool) :
    rslot ((nextLevel n j b claim s).rch n) j = { rslot (s.rch n) j with next := some b, nextSide := claim } := by
  rw [nextLevel_rslot, if_pos hd, modSlot_same hn hj]

theorem nextLevel_other {n j k : Nat} (hn : n < 32) (h : k ≠ j) (b claim : Bool) (s : State) :
    rslot ((nextLevel n j b claim s).rch n) k = rslot (s.rch n) k := by
  rw [nextLevel_rslot, modSlot_other hn h, ite_self]

/-- MOV to the output slots: each slot that drives its pin and has no side-set in this fc takes its bit (R499, R511). -/
def movSlots (n : Nat) (v : U32) (s : State) : State :=
  (List.range 8).foldl (fun s j => if (rslot (s.rch n) j).nextSide then s else nextLevel n j (bit v j) false s) s

theorem movSlots_next {n j : Nat} (hn : n < 32) (hj : j < 8) (v : U32) {s : State} (hd : drives (rslot (s.rch n) j) = true)
    (hs : (rslot (s.rch n) j).nextSide = false) : (rslot ((movSlots n v s).rch n) j).next = some (bit v j) := by
  refine foldl_range_visits 8 _ j hj (fun x => rslot (x.rch n) j = rslot (s.rch n) j)
    (fun x => (rslot (x.rch n) j).next = some (bit v j)) (fun a x _ hne hx => ?_) (fun x hx => ?_) (fun a x _ hne hx => ?_) s rfl
  · split
    · exact hx
    · rw [nextLevel_other hn hne.symm, hx]
  · rw [if_neg (by rw [hx, hs]; exact Bool.false_ne_true), nextLevel_same hn hj (by rw [hx]; exact hd)]
  · split
    · exact hx
    · rw [nextLevel_other hn hne.symm, hx]

/-! ## MOV (R511) -/

/-- The state once the source of MOV has been read: where that is the TX FIFO, its oldest word is taken. -/
def movTaken (n : Nat) (l : RiderLatch) (s : State) : State :=
  if fd l.word 12 4 = (7 : BitVec 4) then s.modRch n (fun c => { c with tx := c.tx.tail }) else s

theorem movTaken_rch {n : Nat} (hn : n < 32) {l : RiderLatch} {s : State} {tx : List U32}
    (ht : tx = if fd l.word 12 4 = (7 : BitVec 4) then (s.rch n).tx.tail else (s.rch n).tx) :
    (movTaken n l s).rch n = { s.rch n with tx := tx } := by
  unfold movTaken
  subst ht
  split
  · exact State.rch_modRch _ _ hn
  · rfl

/-- MOV to its destination: a register of the channel, the output slots, the RX FIFO or PC (R511). -/
def movPut (n d : Nat) (v : U32) (s : State) : State :=
  match d with
  | 0 => s.modRch n (fun c => { c with x := v })
  | 1 => s.modRch n (fun c => { c with y := v })
  | 2 => s.modRch n (fun c => { c with isr := v, icnt := 0 })
  | 3 => s.modRch n (fun c => { c with osr := v })
  | 4 => movSlots n v s
  | 5 => s.modRch n (pushRx v)
  | 6 => s.modRch n (fun c => { c with pc := fd v 0 11 })
  | 8 => s.modRch n (fun c => { c with lc := fd v 0 16 })
  | _ => s

theorem movDo_eq (n : Nat) (l : RiderLatch) (s : State) : movDo n l s = complete n
    (movPut n (fd l.word 16 4 : BitVec 4).toNat (xform (fd l.word 9 3).toNat (movSource s (s.rch n) l)) (movTaken n l s)) := rfl

/-- A channel with MOV's value at a destination of its own other than the output slots. -/
def RiderCh.moved (c : RiderCh) (d : Nat) (v : U32) : RiderCh :=
  match d with
  | 0 => { c with x := v }
  | 1 => { c with y := v }
  | 2 => { c with isr := v, icnt := 0 }
  | 3 => { c with osr := v }
  | 5 => pushRx v c
  | 6 => { c with pc := fd v 0 11 }
  | 8 => { c with lc := fd v 0 16 }
  | _ => c

theorem movPut_rch {n : Nat} (hn : n < 32) {d : Nat} (hd : d ≠ 4) (v : U32) (s : State) :
    (movPut n d v s).rch n = (s.rch n).moved d v := by
  match d, hd with
  | 4, h => exact absurd rfl h
  | 0, _ | 1, _ | 2, _ | 3, _ | 5, _ | 6, _ | 8, _ => exact State.rch_modRch _ _ hn
  | 7, _ | _ + 9, _ => rfl

/-- The channel when MOV has ended, with what is left of its TX FIFO. -/
theorem RiderCh.moved_ended (c : RiderCh) (tx : List U32) (d : Nat) (v : U32) :
    { RiderCh.moved { c with tx := tx } d v with latch := none } = match d with
      | 0 => { c with latch := none, tx := tx, x := v }
      | 1 => { c with latch := none, tx := tx, y := v }
      | 2 => { c with latch := none, tx := tx, isr := v, icnt := 0 }
      | 3 => { c with latch := none, tx := tx, osr := v }
      | 5 => { c with latch := none, tx := tx, rxIn := c.rxIn ++ [v] }
      | 6 => { c with latch := none, tx := tx, pc := fd v 0 11 }
      | 8 => { c with latch := none, tx := tx, lc := fd v 0 16 }
      | _ => { c with latch := none, tx := tx } := by
  match d with
  | 0 | 1 | 2 | 3 | 4 | 5 | 6 | 7 | 8 | _ + 9 => rfl

section
variable {n : Fin 32} {s : State} {l : RiderLatch} {v : U32} (hc : coreOff s = false) (hl : (s.rch n).latch = some l)
  (hp : l.phase = .fetched) (ho : opcOf l.word = 7)
include hc hl hp ho

theorem exec_mov : exec (.mov n) s = .next (if movReady (s.rch n) l.word then movDo n l s else setPhase n .waiting s) := by
  refine (exec_event rfl hc).trans ?_
  rw [fetchedOp_some hl hp ho, hl]

theorem mov_waits (hr : movReady (s.rch n) l.word = false) : Runs (.mov n) s fun t =>
    t.rch n = { s.rch n with latch := some { l with phase := .waiting } } := by
  refine .of_exec (exec_mov hc hl hp ho) ?_
  rw [hr, if_neg Bool.false_ne_true, setPhase_rch n.isLt _ hl]

variable (hv : v = xform (fd l.word 9 3).toNat (movSource s (s.rch n) l)) (hr : movReady (s.rch n) l.word = true)
include hv hr

theorem mov_transfers (hd : fd l.word 16 4 ≠ (4 : BitVec 4)) : Runs (.mov n) s fun t =>
    ∀ tx, tx = (if fd l.word 12 4 = (7 : BitVec 4) then (s.rch n).tx.tail else (s.rch n).tx) →
      t.rch n = match (fd l.word 16 4).toNat with
        | 0 => { s.rch n with latch := none, tx := tx, x := v }
        | 1 => { s.rch n with latch := none, tx := tx, y := v }
        | 2 => { s.rch n with latch := none, tx := tx, isr := v, icnt := 0 }
        | 3 => { s.rch n with latch := none, tx := tx, osr := v }
        | 5 => { s.rch n with latch := none, tx := tx, rxIn := (s.rch n).rxIn ++ [v] }
        | 6 => { s.rch n with latch := none, tx := tx, pc := fd v 0 11 }
        | 8 => { s.rch n with latch := none, tx := tx, lc := fd v 0 16 }
        | _ => { s.rch n with latch := none, tx := tx } := by
  refine .of_exec (exec_mov hc hl hp ho) ?_
  intro tx ht
  have h4 : (fd l.word 16 4 : BitVec 4).toNat ≠ 4 := fun h => hd (BitVec.eq_of_toNat_eq h)
  rw [hr, if_pos rfl, movDo_eq, ← hv, complete_rch n.isLt, movPut_rch n.isLt h4, movTaken_rch n.isLt ht]
  exact RiderCh.moved_ended ..

theorem mov_toSlots (hd : fd l.word 16 4 = (4 : BitVec 4)) : Runs (.mov n) s fun t =>
    (t.rch n).latch = none ∧ ∀ j : Fin 8, drives (rslot (s.rch n) j) = true → (rslot (s.rch n) j).nextSide = false →
      (rslot (t.rch n) j).next = some (bit v j) := by
  refine .of_exec (exec_mov hc hl hp ho) ?_
  rw [hr, if_pos rfl, movDo_eq, ← hv, complete_rch n.isLt]
  refine ⟨rfl, fun j hdrives hside => ?_⟩
  have hslots : rslot ((movTaken n l s).rch n) j = rslot (s.rch n) j := by rw [movTaken_rch n.isLt rfl]; rfl
  rw [hd]
  exact movSlots_next n.isLt j.isLt v (by rw [hslots]; exact hdrives) (by rw [hslots]; exact hside)

end

/-! ## The turn (R490-R493, R506, R512, R519, R523) -/

/-- The side-set and the latch of a legal word (R506-R508). -/
def latchWord (n : Nat) (w : U32) (s : State) : State :=
  sideSet n w (s.modRch n (fun c => { c with
    latch := some { word := w, phase := .fetched, exec := s.clk.fc, seen := false, time := fcTime s } }))

theorem latchWord_rch {n : Nat} (hn : n < 32) (w : U32) (s : State) :
    (latchWord n w s).rch n = { s.rch n with
      latch := some { word := w, phase := .fetched, exec := s.clk.fc, seen := false, time := fcTime s }
      slots := ((latchWord n w s).rch n).slots } ∧ (latchWord n w s).rider.turnDone = s.rider.turnDone := by
  obtain ⟨hch, hturn⟩ := sideSet_rch hn w (s.modRch n (fun c => { c with
    latch := some { word := w, phase := .fetched, exec := s.clk.fc, seen := false, time := fcTime s } }))
  refine ⟨?_, hturn⟩
  rw [State.rch_modRch _ _ hn] at hch
  exact hch

/-- Channel `n` stops with bit `b` of its STAT set: ILL or PERR (R512, R523). -/
def stopWith (n b : Nat) (s : State) : State := rchFlag n b (s.modRch n (fun c => { c with run := false }))

theorem stopWith_rch {n : Nat} (hn : n < 32) (b : Nat) (s : State) :
    (stopWith n b s).rch n = { s.rch n with run := false, stat := setBit (s.rch n).stat b true } := by
  unfold stopWith
  rw [rchFlag_rch hn, State.rch_modRch _ _ hn]

/-- The turn is used up. -/
def turnTaken (s : State) : State := { s with rider := { s.rider with turnDone := true } }

theorem riderTurn_injection {n : Nat} {s : State} {w : U32} (hi : (s.rch n).inj = some w) : riderTurn n s =
    if legal w then latchWord n w ((turnTaken s).modRch n (fun c => { c with inj := none }))
    else stopWith n 6 ((turnTaken s).modRch n (fun c => { c with inj := none })) := by
  unfold riderTurn
  dsimp only
  rw [hi]
  rfl

theorem riderTurn_fetch {n : Nat} {s : State} (hi : (s.rch n).inj = none) : riderTurn n s =
    if marked (s.rch n).pc.toNat s.rider.bad then stopWith n 7 ((turnTaken s).modRch n (fun c => { c with pc := c.pc + 1 }))
    else if legal (progWord s (s.rch n).pc.toNat) then
      latchWord n (progWord s (s.rch n).pc.toNat) ((turnTaken s).modRch n (fun c => { c with pc := c.pc + 1 }))
    else stopWith n 6 ((turnTaken s).modRch n (fun c => { c with pc := c.pc + 1 })) := by
  unfold riderTurn
  dsimp only
  rw [hi]
  rfl

/-- A channel that has a turn has latched nothing (R506). -/
theorem latch_of_hasTurn {s : State} {n : Nat} (h : hasTurn s n = true) : (s.rch n).latch = none := by
  unfold hasTurn at h
  simp only [Bool.and_eq_true, Option.isNone_iff_eq_none] at h
  exact h.1.2

section
variable {n : Fin 32} {s : State} (hc : coreOff s = false) (ht : hasTurn s n = true)
include hc ht

theorem exec_riderTurn : exec (.riderTurn n) s = .next (riderTurn n s) :=
  (exec_event rfl hc).trans (congrArg Host.Outcome.next (if_pos ht))

theorem riderTurn_injects {w : U32} (hi : (s.rch n).inj = some w) (hw : legal w = true) : Runs (.riderTurn n) s fun t =>
    (t.rch n).latch = some { word := w, phase := .fetched, exec := s.clk.fc, seen := false, time := fcTime s } ∧
    (t.rch n).inj = none ∧ (t.rch n).pc = (s.rch n).pc ∧ t.rider.turnDone = true := by
  refine .of_exec (exec_riderTurn hc ht) ?_
  rw [riderTurn_injection hi, if_pos hw]
  obtain ⟨hch, hturn⟩ := latchWord_rch n.isLt w ((turnTaken s).modRch n (fun c => { c with inj := none }))
  rw [hch, hturn, State.rch_modRch _ _ n.isLt]
  exact ⟨rfl, rfl, rfl, rfl⟩

theorem riderTurn_illegalInjection {w : U32} (hi : (s.rch n).inj = some w) (hw : legal w = false) : Runs (.riderTurn n) s fun t =>
    (t.rch n).run = false ∧ bit (t.rch n).stat 6 = true ∧ (t.rch n).inj = none := by
  refine .of_exec (exec_riderTurn hc ht) ?_
  rw [riderTurn_injection hi, hw, if_neg Bool.false_ne_true, stopWith_rch n.isLt, State.rch_modRch _ _ n.isLt]
  exact ⟨rfl, bit_setBit_self _ (by decide), rfl⟩

/-- A fetch of an illegal word or of a word marked uncorrectable. -/
theorem riderTurn_stops {b : Nat} (hb : b < 9) (h : riderTurn n s = stopWith n b ((turnTaken s).modRch n (fun c => { c with pc := c.pc + 1 }))) :
    Runs (.riderTurn n) s fun t => (t.rch n).run = false ∧ bit (t.rch n).stat b = true ∧ (t.rch n).latch = none := by
  refine .of_exec (exec_riderTurn hc ht) ?_
  rw [h, stopWith_rch n.isLt, State.rch_modRch _ _ n.isLt]
  exact ⟨rfl, bit_setBit_self _ hb, (latch_of_hasTurn ht :)⟩

variable (hi : (s.rch n).inj = none)
include hi

theorem riderTurn_fetches (hm : marked (s.rch n).pc.toNat s.rider.bad = false)
    (hw : legal (progWord s (s.rch n).pc.toNat) = true) : Runs (.riderTurn n) s fun t =>
      (t.rch n).latch = some { word := progWord s (s.rch n).pc.toNat, phase := .fetched, exec := s.clk.fc, seen := false, time := fcTime s } ∧
      (t.rch n).pc = (s.rch n).pc + 1 ∧ t.rider.turnDone = true := by
  refine .of_exec (exec_riderTurn hc ht) ?_
  rw [riderTurn_fetch hi, hm, if_neg Bool.false_ne_true, if_pos hw]
  obtain ⟨hch, hturn⟩ := latchWord_rch n.isLt (progWord s (s.rch n).pc.toNat)
    ((turnTaken s).modRch n (fun c => { c with pc := c.pc + 1 }))
  rw [hch, hturn, State.rch_modRch _ _ n.isLt]
  exact ⟨rfl, rfl, rfl⟩

theorem riderTurn_illegalFetch (hm : marked (s.rch n).pc.toNat s.rider.bad = false)
    (hw : legal (progWord s (s.rch n).pc.toNat) = false) : Runs (.riderTurn n) s fun t =>
      (t.rch n).run = false ∧ bit (t.rch n).stat 6 = true ∧ (t.rch n).latch = none :=
  riderTurn_stops hc ht (by decide) (by
    rw [riderTurn_fetch hi, hm, if_neg Bool.false_ne_true, hw, if_neg Bool.false_ne_true])

theorem riderTurn_uncorrectable (hm : marked (s.rch n).pc.toNat s.rider.bad = true) : Runs (.riderTurn n) s fun t =>
    (t.rch n).run = false ∧ bit (t.rch n).stat 7 = true ∧ (t.rch n).latch = none :=
  riderTurn_stops hc ht (by decide) (by rw [riderTurn_fetch hi, if_pos hm])

end

/-! ## The end of a stall (R506, R509) -/

/-- What RIDER_INSTRUCTION_COMPLETE makes of the latched instruction, by its opcode and phase. -/
def endStall (n : Nat) (l : RiderLatch) (s : State) : State :=
  match opcOf l.word, l.phase with
  | 2, .shifted =>
    if bit l.word 16 then
      if rxRoom (s.rch n) then complete n (s.modRch n (fun c => { pushRx c.isr c with isr := 0, icnt := 0 })) else s
    else complete n s
  | 3, .waiting => if l.seen then complete n s else s
  | 4, .waiting => if l.exec + (fd l.word 0 20 : BitVec 20).toNat + 1 ≤ s.clk.fc then complete n s else s
  | 5, .waiting => if (s.rch n).setat.isNone then setatDo n l s else s
  | 7, .waiting => if movReady (s.rch n) l.word then movDo n l s else s
  | 8, .waiting => if bit (s.rch n).stat 0 then s else complete n s
  | _, _ => s

theorem exec_riderInstructionComplete {n : Fin 32} {s : State} {l : RiderLatch} (hc : coreOff s = false)
    (hf : riderFrozen s = false) (hl : (s.rch n).latch = some l) :
    exec (.riderInstructionComplete n) s = .next (endStall n l s) := by
  refine (exec_event rfl hc).trans (congrArg Host.Outcome.next ?_)
  rw [hf, if_neg Bool.false_ne_true, hl]
  rfl

section
variable {n : Nat} {l : RiderLatch} {s : State}

theorem endStall_push (ho : opcOf l.word = 2) (hp : l.phase = .shifted) (hb : bit l.word 16 = true) (hr : rxRoom (s.rch n) = true) :
    endStall n l s = complete n (s.modRch n (fun c => { pushRx c.isr c with isr := 0, icnt := 0 })) := by
  unfold endStall
  rw [ho, hp]
  exact (if_pos hb).trans (if_pos hr)

theorem endStall_mov (ho : opcOf l.word = 7) (hp : l.phase = .waiting) (hr : movReady (s.rch n) l.word = true) :
    endStall n l s = movDo n l s := by
  unfold endStall
  rw [ho, hp]
  exact if_pos hr

theorem endStall_setat (ho : opcOf l.word = 5) (hp : l.phase = .waiting) (hn : (s.rch n).setat = none) :
    endStall n l s = setatDo n l s := by
  unfold endStall
  rw [ho, hp]
  exact if_pos (by rw [hn]; rfl)

/-- A stall that leaves nothing but its end: SHIFT without a push, WAITPIN, WAITT and SIG. -/
def StallOver (n : Nat) (l : RiderLatch) (s : State) : Prop :=
  (opcOf l.word = 2 ∧ l.phase = .shifted ∧ bit l.word 16 = false) ∨ (opcOf l.word = 3 ∧ l.phase = .waiting ∧ l.seen = true) ∨
    (opcOf l.word = 4 ∧ l.phase = .waiting ∧ l.exec + (fd l.word 0 20).toNat + 1 ≤ s.clk.fc) ∨
    (opcOf l.word = 8 ∧ l.phase = .waiting ∧ bit (s.rch n).stat 0 = false)

theorem endStall_over (h : StallOver n l s) : endStall n l s = complete n s := by
  unfold endStall
  rcases h with ⟨ho, hp, h⟩ | ⟨ho, hp, h⟩ | ⟨ho, hp, h⟩ | ⟨ho, hp, h⟩ <;> rw [ho, hp]
  · exact if_neg (by rw [h]; exact Bool.false_ne_true)
  · exact if_pos h
  · exact if_pos h
  · exact if_neg (by rw [h]; exact Bool.false_ne_true)

end

/-! ## The firing of a SETAT (R513, R514) -/

/-- The level that a SETAT's operation gives a slot (R513). -/
def setatLevel (op : BitVec 2) (level : Bool) : Bool :=
  match op.toNat with
  | 0 => true
  | 1 => false
  | _ => !level

/-- The pending SETAT taken off, and its slot driven. -/
def setatDriven (n : Nat) (p : PendSet) (s : State) : State :=
  driveSlot n p.slot.toNat (setatLevel p.op (rslot (s.rch n) p.slot.toNat).level) (s.modRch n (fun c => { c with setat := none }))

theorem setatFire_eq {n : Nat} {s : State} {p : PendSet} (hp : (s.rch n).setat = some p) (late : Bool) :
    setatFire n late s = if late then rchFlag n 5 (setatDriven n p s) else setatDriven n p s := by
  unfold setatFire
  rw [hp]
  rfl

theorem setatDriven_rch {n : Nat} (hn : n < 32) (p : PendSet) (s : State) :
    ((setatDriven n p s).rch n).setat = none ∧ (drives (rslot (s.rch n) p.slot.toNat) = true →
      (rslot ((setatDriven n p s).rch n) p.slot.toNat).level = setatLevel p.op (rslot (s.rch n) p.slot.toNat).level) := by
  have hm : (s.modRch n (fun c => { c with setat := none })).rch n = { s.rch n with setat := none } := State.rch_modRch _ _ hn
  obtain ⟨hch, hlevel⟩ := driveSlot_rch hn p.slot.isLt (setatLevel p.op (rslot (s.rch n) p.slot.toNat).level)
    (s.modRch n (fun c => { c with setat := none }))
  rw [hm] at hch hlevel
  exact ⟨(congrArg RiderCh.setat hch :), hlevel⟩

theorem setatFire_rch {n : Nat} (hn : n < 32) {s : State} {p : PendSet} (hp : (s.rch n).setat = some p) (late : Bool) :
    ((setatFire n late s).rch n).setat = none ∧ (late = true → bit ((setatFire n late s).rch n).stat 5 = true) ∧
      (drives (rslot (s.rch n) p.slot.toNat) = true → (rslot ((setatFire n late s).rch n) p.slot.toNat).level =
        setatLevel p.op (rslot (s.rch n) p.slot.toNat).level) := by
  obtain ⟨hset, hlevel⟩ := setatDriven_rch hn p s
  rw [setatFire_eq hp]
  cases late with
  | false =>
    rw [if_neg Bool.false_ne_true]
    exact ⟨hset, nofun, hlevel⟩
  | true =>
    rw [if_pos rfl, rchFlag_rch hn]
    exact ⟨hset, fun _ => bit_setBit_self _ (by decide), hlevel⟩

theorem exec_setatFire {n : Fin 32} {s : State} {p : PendSet} {late : Bool} (hc : coreOff s = false) (hf : riderFrozen s = false)
    (hp : (s.rch n).setat = some p) (hd : setatDue s p = some late) : exec (.setatFire n) s = .next (setatFire n late s) := by
  refine (exec_event rfl hc).trans (congrArg Host.Outcome.next ?_)
  rw [hf, if_neg Bool.false_ne_true, hp]
  dsimp only
  rw [hd]

/-! ## O23, part by part -/

theorem stall_ends {n : Fin 32} {s : State} {l : RiderLatch} (hc : coreOff s = false) (hf : riderFrozen s = false)
    (hl : (s.rch n).latch = some l) :
    (opcOf l.word = 2 → l.phase = .shifted → bit l.word 16 = true → rxRoom (s.rch n) = true →
      Runs (.riderInstructionComplete n) s fun t =>
        t.rch n = { s.rch n with latch := none, rxIn := (s.rch n).rxIn ++ [(s.rch n).isr], isr := 0, icnt := 0 }) ∧
    (opcOf l.word = 7 → l.phase = .waiting → movReady (s.rch n) l.word = true →
      Runs (.riderInstructionComplete n) s fun t => (t.rch n).latch = none) ∧
    (StallOver n l s → Runs (.riderInstructionComplete n) s fun t => t.rch n = { s.rch n with latch := none }) ∧
    (opcOf l.word = 5 → l.phase = .waiting → (s.rch n).setat = none → Runs (.riderInstructionComplete n) s fun t =>
      t.rch n = { s.rch n with
        latch := none
        setat := some { slot := fd l.word 13 3, op := fd l.word 11 2, t := l.time, e := fcTime s, fc := s.clk.fc } }) := by
  have hx := exec_riderInstructionComplete hc hf hl
  refine ⟨fun ho hp hb hr => .of_exec hx ?_, fun ho hp hr => .of_exec hx ?_, fun h => .of_exec hx ?_,
    fun ho hp hn => .of_exec hx ?_⟩
  · rw [endStall_push ho hp hb hr, complete_rch n.isLt, State.rch_modRch _ _ n.isLt]
    rfl
  · rw [endStall_mov ho hp hr, movDo_eq, complete_rch n.isLt]
  · rw [endStall_over h, complete_rch n.isLt]
  · rw [endStall_setat ho hp hn, setatDo_rch n.isLt]

/-- Settles O23: a turn is `riderTurn_injection` or `riderTurn_fetch`, MOV is `movDo_eq`, the end of a stall is `endStall`, and
the firing of a SETAT is `setatFire_rch`. -/
theorem riderTurnsAndMoves : Obligations.RiderTurnsAndMoves := by
  unfold Obligations.RiderTurnsAndMoves
  refine ⟨fun n s hc ht => ⟨fun w => riderTurn_injects hc ht, fun w => riderTurn_illegalInjection hc ht,
      riderTurn_fetches hc ht, riderTurn_illegalFetch hc ht, riderTurn_uncorrectable hc ht⟩,
    fun n s l v hc hl hp ho hv => ⟨mov_waits hc hl hp ho, mov_transfers hc hl hp ho hv, mov_toSlots hc hl hp ho hv⟩,
    fun n s l hc hf hl => stall_ends hc hf hl,
    fun n s p late hc hf hp hd => .of_exec (exec_setatFire hc hf hp hd) (setatFire_rch n.isLt hp late)⟩

end Sys2Proof.Machine
end

section
/-! The registers of the Rider (R496, R501, R515-R518, R521-R527, R536): its FIFOs, INJ, CTL, the pin map, the program memory
and RIDER, the synchronised start, and O24. -/

namespace Sys2Proof.Machine

set_option Elab.async false

theorem answer_rch (s : State) (w : Who) (r : Resp) (n : Nat) : (answer s w r).rch n = s.rch n := rch_eq n (answer_rider ..)

/-! ## TXD and the end of an fc (R515, R517) -/

/-- What the pushes of an fc leave in a channel: the TX FIFO takes those that it has room for. -/
def RiderCh.landed (c : RiderCh) : RiderCh :=
  { c with tx := c.tx ++ c.txIn.take (4 - c.tx.length), rx := c.rx ++ c.rxIn, txIn := [], rxIn := [] }

section
variable {c : RiderCh} (htx : c.txIn = []) (hrx : c.rxIn = [])
include htx hrx

theorem RiderCh.landed_idle : c.landed = c := by
  cases c
  subst htx hrx
  simp [landed]

theorem RiderCh.landed_full (v : U32) (h : 4 ≤ c.tx.length) : landed { c with txIn := c.txIn ++ [v] } = c := by
  cases c
  subst htx hrx
  simp [landed, Nat.sub_eq_zero_of_le h]

theorem RiderCh.landed_room (v : U32) (h : c.tx.length < 4) :
    landed { c with txIn := c.txIn ++ [v] } = { c with tx := c.tx ++ [v] } := by
  cases c
  subst htx hrx
  simp only [landed, List.nil_append, List.append_nil]
  rw [List.take_of_length_le (Nat.sub_pos_of_lt h)]

end

theorem landFifos_rch {n : Nat} (hn : n < 32) (s : State) : (landFifos s n).rch n =
    if 4 - (s.rch n).tx.length < (s.rch n).txIn.length then
      { (s.rch n).landed with stat := setBit (s.rch n).stat 1 true }
    else (s.rch n).landed := by
  unfold landFifos
  dsimp only
  by_cases he : ((s.rch n).txIn.isEmpty && (s.rch n).rxIn.isEmpty) = true
  · obtain ⟨htx, hrx⟩ : (s.rch n).txIn = [] ∧ (s.rch n).rxIn = [] := by simpa using he
    rw [if_pos he, if_neg (by simp [htx]), RiderCh.landed_idle htx hrx]
  · rw [if_neg he]
    split
    · rw [rchFlag_rch hn, State.rch_modRch _ _ hn]
      rfl
    · exact State.rch_modRch _ _ hn

theorem landFifos_lands {n : Nat} (hn : n < 32) (s : State) :
    ((landFifos s n).rch n).tx = (s.rch n).tx ++ (s.rch n).txIn.take (4 - (s.rch n).tx.length) ∧
    ((landFifos s n).rch n).rx = (s.rch n).rx ++ (s.rch n).rxIn ∧ ((landFifos s n).rch n).txIn = [] ∧
    ((landFifos s n).rch n).rxIn = [] ∧
    (4 - (s.rch n).tx.length < (s.rch n).txIn.length → bit ((landFifos s n).rch n).stat 1 = true) := by
  rw [landFifos_rch hn]
  split
  · exact ⟨rfl, rfl, rfl, rfl, fun _ => bit_setBit_self _ (by decide)⟩
  · rename_i h
    exact ⟨rfl, rfl, rfl, rfl, fun hlt => absurd hlt h⟩

theorem pushTx_waits {n : Nat} (hn : n < 32) (v : U32) {s : State} (hr : s.clk.running = true) :
    (pushTx n v s).rch n = { s.rch n with txIn := (s.rch n).txIn ++ [v] } := by
  unfold pushTx
  dsimp only
  rw [State.modRch_clk, if_pos hr, State.rch_modRch _ _ hn]

section
variable {n : Nat} (hn : n < 32) (v : U32) {s : State} (hr : s.clk.running = false) (htx : (s.rch n).txIn = [])
  (hrx : (s.rch n).rxIn = [])
include hn hr htx

/-- While the fast clock stands, a word written to TXD lands at once. -/
theorem pushTx_lands : (pushTx n v s).rch n =
    if 4 ≤ (s.rch n).tx.length then
      { RiderCh.landed { s.rch n with txIn := (s.rch n).txIn ++ [v] } with stat := setBit (s.rch n).stat 1 true }
    else RiderCh.landed { s.rch n with txIn := (s.rch n).txIn ++ [v] } := by
  unfold pushTx
  dsimp only
  rw [State.modRch_clk, hr, if_neg Bool.false_ne_true, landFifos_rch hn, State.rch_modRch _ _ hn]
  have hfull : 4 - (s.rch n).tx.length < ((s.rch n).txIn ++ [v]).length ↔ 4 ≤ (s.rch n).tx.length := by
    rw [htx, List.nil_append, List.length_singleton]
    omega
  by_cases h : 4 ≤ (s.rch n).tx.length
  · rw [if_pos h]
    exact if_pos (hfull.mpr h)
  · rw [if_neg h]
    exact if_neg fun hlt => h (hfull.mp hlt)

include hrx

theorem pushTx_full (h : 4 ≤ (s.rch n).tx.length) : (pushTx n v s).rch n = { s.rch n with stat := setBit (s.rch n).stat 1 true } := by
  rw [pushTx_lands hn v hr htx, if_pos h, RiderCh.landed_full htx hrx v h]

theorem pushTx_room (h : (s.rch n).tx.length < 4) : (pushTx n v s).rch n = { s.rch n with tx := (s.rch n).tx ++ [v] } := by
  rw [pushTx_lands hn v hr htx, if_neg (Nat.not_le.mpr h), RiderCh.landed_room htx hrx v h]

end

/-! ## INJ (R518, R521) -/

theorem abortStall_abandons {n : Nat} (hn : n < 32) {s : State} (ha : (s.rch n).abortstall = true)
    (hi : (s.rch n).inj.isSome = true) (hl : (s.rch n).latch.isSome = true) :
    (abortStall n s).rch n = { s.rch n with latch := none, stat := setBit (s.rch n).stat 8 true } := by
  unfold abortStall abandon
  dsimp only
  rw [if_pos (by rw [ha, hi, hl]; rfl), rchFlag_rch hn, State.rch_modRch _ _ hn]

theorem abortStall_unstalled {n : Nat} {s : State} (h : (s.rch n).latch = none) : abortStall n s = s := by
  unfold abortStall
  exact if_neg (by simp [h])

theorem abortStall_other {n k : Nat} (h : k ≠ n) (s : State) : (abortStall n s).rch k = s.rch k := by
  unfold abortStall abandon
  dsimp only
  split
  · rw [rchFlag_other h, State.rch_modRch_other _ _ h]
  · rfl

theorem abortStall_abortstall {n : Nat} (hn : n < 32) (s : State) :
    ((abortStall n s).rch n).abortstall = (s.rch n).abortstall := by
  unfold abortStall abandon
  dsimp only
  split
  · rw [rchFlag_rch hn, State.rch_modRch _ _ hn]
  · rfl

section
variable {n : Nat} (hn : n < 32) (v : U32) {s : State}
include hn

theorem writeInj_pending {x : U32} (hi : (s.rch n).inj = some x) :
    (writeInj n v s).rch n = { s.rch n with stat := setBit (s.rch n).stat 3 true } := by
  unfold writeInj
  rw [hi, Option.isSome_some, if_pos rfl, rchFlag_rch hn]

theorem writeInj_taken (hi : (s.rch n).inj = none) (h : (s.rch n).abortstall = false ∨ (s.rch n).latch = none) :
    (writeInj n v s).rch n = { s.rch n with inj := some v } := by
  have hm : (s.modRch n (fun c => { c with inj := some v })).rch n = { s.rch n with inj := some v } := State.rch_modRch _ _ hn
  unfold writeInj
  rw [hi, Option.isSome_none, if_neg Bool.false_ne_true]
  rcases h with h | h
  · rw [abortStall_idle (by rw [hm]; exact h), hm]
  · rw [abortStall_unstalled (by rw [hm]; exact h), hm]

theorem writeInj_abandons {l : RiderLatch} (hi : (s.rch n).inj = none) (ha : (s.rch n).abortstall = true)
    (hl : (s.rch n).latch = some l) : (writeInj n v s).rch n =
      { s.rch n with inj := some v, latch := none, stat := setBit (s.rch n).stat 8 true } := by
  have hm : (s.modRch n (fun c => { c with inj := some v })).rch n = { s.rch n with inj := some v } := State.rch_modRch _ _ hn
  unfold writeInj
  rw [hi, Option.isSome_none, if_neg Bool.false_ne_true,
    abortStall_abandons hn (by rw [hm]; exact ha) (by rw [hm]; rfl) (by rw [hm]; exact congrArg Option.isSome hl), hm]

end

/-! ## The program memory (R522, R540) -/

theorem writeProg_progWord {s : State} (hw : Memory.wf 0 s.rider.prog = true) (i : Nat) (v : U32) :
    progWord (writeProg i v s) i = v ∧ ∀ k, k ≠ i → progWord (writeProg i v s) k = progWord s k :=
  ⟨sget_sput_self 0 i v hw, fun _ hk => sget_sput_other 0 v hk⟩

/-! ## CTL (R501, R521, R526, R527) -/

/-- The write of CTL up to RUN: RST empties a stopped channel, and ABORTSTALL is stored. -/
def ctlStored (n : Nat) (v : U32) (s : State) : State :=
  (if bit v 2 && !(s.rch n).run then s.modRch n emptyChannel else s).modRch n (fun c => { c with abortstall := bit v 1 })

/-- RUN as it is written starts a stopped channel or stops one. -/
def ctlSwitched (n : Nat) (v : U32) (run : Bool) (s : State) : State :=
  if bit v 0 && !run then s.modRch n (fun c => { c with run := true, div := 0 })
  else if !bit v 0 then stopChannel n s
  else s

theorem writeRchCtl_eq (n : Nat) (v : U32) (s : State) :
    writeRchCtl n v s = ctlSwitched n v (s.rch n).run (abortStall n (ctlStored n v s)) := rfl

theorem ctlStored_rch {n : Nat} (hn : n < 32) (v : U32) (s : State) : (ctlStored n v s).rch n =
    { (if bit v 2 && !(s.rch n).run then emptyChannel (s.rch n) else s.rch n) with abortstall := bit v 1 } := by
  unfold ctlStored
  rw [State.rch_modRch _ _ hn]
  split
  · rw [State.rch_modRch _ _ hn]
  · rfl

theorem writeRchCtl_other {n k : Nat} (h : k ≠ n) (v : U32) (s : State) : (writeRchCtl n v s).rch k = s.rch k := by
  have hstored : (ctlStored n v s).rch k = s.rch k := by
    unfold ctlStored
    rw [State.rch_modRch_other _ _ h]
    split
    · exact State.rch_modRch_other _ _ h
    · rfl
  have hswitched (x : State) : (ctlSwitched n v (s.rch n).run x).rch k = x.rch k := by
    unfold ctlSwitched stopChannel
    split
    · exact State.rch_modRch_other _ _ h
    · split
      · exact State.rch_modRch_other _ _ h
      · rfl
  rw [writeRchCtl_eq, hswitched, abortStall_other h, hstored]

section
variable {n : Nat} (hn : n < 32) {v : U32} {s : State}
include hn

/-- Without RST only ABORTSTALL is stored. -/
theorem ctlStored_kept (h2 : bit v 2 = false ∨ (s.rch n).run = true) :
    (ctlStored n v s).rch n = { s.rch n with abortstall := bit v 1 } := by
  rw [ctlStored_rch hn, if_neg (by rcases h2 with h | h <;> simp [h])]

theorem writeRchCtl_starts (h0 : bit v 0 = true) (hr : (s.rch n).run = false) :
    (writeRchCtl n v s).rch n = { (abortStall n (ctlStored n v s)).rch n with run := true, div := 0 } := by
  rw [writeRchCtl_eq, hr]
  unfold ctlSwitched
  rw [h0, Bool.not_false, Bool.and_self, if_pos rfl, State.rch_modRch _ _ hn]

theorem writeRchCtl_goesOn (h0 : bit v 0 = true) (h1 : bit v 1 = false) (hr : (s.rch n).run = true) :
    (writeRchCtl n v s).rch n = { s.rch n with abortstall := false } := by
  have hst := ctlStored_kept hn (v := v) (.inr hr)
  rw [writeRchCtl_eq, abortStall_idle (by rw [hst]; exact h1), hr]
  unfold ctlSwitched
  rw [h0, Bool.not_true, Bool.and_false, if_neg Bool.false_ne_true, if_neg Bool.false_ne_true, hst, h1]

theorem writeRchCtl_stops (h0 : bit v 0 = false) (h1 : bit v 1 = false) : (writeRchCtl n v s).rch n =
    { (if bit v 2 && !(s.rch n).run then emptyChannel (s.rch n) else s.rch n) with
      run := false, latch := none, setat := none, abortstall := false } := by
  have hst := ctlStored_rch hn v s
  rw [writeRchCtl_eq, abortStall_idle (by rw [hst]; exact h1)]
  unfold ctlSwitched stopChannel
  rw [h0, Bool.false_and, if_neg Bool.false_ne_true, Bool.not_false, if_pos rfl, State.rch_modRch _ _ hn, hst, h1]

end

/-! ## The pin map (R496, R536) -/

/-- What a claim of another channel can do to a channel: drop claims, with PINCONF. -/
def RiderCh.Conflicted (c d : RiderCh) : Prop :=
  d = c ∨ bit d.stat 4 = true ∧ d = { c with slots := d.slots, stat := d.stat }

theorem RiderCh.Conflicted.refl (c : RiderCh) : c.Conflicted c := .inl rfl

theorem RiderCh.Conflicted.trans {c d e : RiderCh} (h : c.Conflicted d) (k : d.Conflicted e) : c.Conflicted e := by
  rcases h with rfl | ⟨hstat, hd⟩
  · exact k
  · rcases k with rfl | ⟨he, hk⟩
    · exact .inr ⟨hstat, hd⟩
    · refine .inr ⟨he, hk.trans ?_⟩
      rw [hd]

theorem rch_past {k : Nat} (h : 32 ≤ k) (s : State) : s.rch k = {} := vget_past _ h _

theorem dropClaims_conflicted (n p k : Nat) (s : State) : (s.rch k).Conflicted ((dropClaims n p s).rch k) := by
  by_cases hk : k < 32
  · unfold dropClaims State.each
    refine foldl_stays (fun x : State => (s.rch k).Conflicted (x.rch k)) (fun x m hx => ?_) _ _ (.refl _)
    split
    · refine hx.trans ?_
      by_cases e : k = m
      · subst e
        rw [rchFlag_rch hk, State.rch_modRch _ _ hk]
        exact .inr ⟨bit_setBit_self _ (by decide), rfl⟩
      · rw [rchFlag_other e, State.rch_modRch_other _ _ e]
        exact .refl _
    · exact hx
  · rw [rch_past (Nat.le_of_not_lt hk), rch_past (Nat.le_of_not_lt hk)]
    exact .refl _

theorem mapSlot_conflicted {n k : Nat} (h : k ≠ n) (j : Nat) (pin : BitVec 6) (mode : BitVec 2) (s : State) :
    (s.rch k).Conflicted ((mapSlot n j pin mode s).rch k) := by
  have hm (f : RiderSlot → RiderSlot) : (modSlot n j f s).rch k = s.rch k := State.rch_modRch_other _ _ h
  unfold mapSlot
  dsimp only
  split
  · rw [rchFlag_other h, hm]
    exact .refl _
  · split
    · refine .trans ?_ (dropClaims_conflicted ..)
      rw [hm]
      exact .refl _
    · rw [hm]
      exact .refl _

theorem writeMap_conflicted {n k : Nat} (h : k ≠ n) (hi : Bool) (v : U32) (s : State) :
    (s.rch k).Conflicted ((writeMap n hi v s).rch k) := by
  unfold writeMap
  exact foldl_stays (fun x : State => (s.rch k).Conflicted (x.rch k)) (fun x _ hx => hx.trans (mapSlot_conflicted h ..)) _ _ (.refl _)

/-! ## RIDER and the synchronised start (R524, R525) -/

section
variable {v : U32} {s : State} (hv : bit v 0 = true) (hs : s.rider.sync = false)
include hv hs

theorem writeRider_arms (hf : inFuture s.rider.synct s.clk.gauge = true) : (writeRider v s).rider =
    { s.rider with serr := s.rider.serr && !bit v 1, sync := true, passedAt := 0 } := by
  unfold writeRider
  dsimp only
  rw [hv, hs, if_pos (by rfl), if_pos hf]

theorem writeRider_past (hf : inFuture s.rider.synct s.clk.gauge = false) :
    (writeRider v s).rider = { s.rider with serr := true } := by
  unfold writeRider
  dsimp only
  rw [hv, hs, if_pos (by rfl), hf, if_neg Bool.false_ne_true, hwSet_rider]

end

theorem syncStart_rch {n : Nat} (hn : n < 32) (s : State) : (syncStart s).rch n =
    if bit s.rider.mask n then { s.rch n with latch := none, setat := none, pc := (s.rch n).entry, div := 0, run := true }
    else s.rch n :=
  vget_vmap _ hn _ _ _

/-! ## O24, part by part -/

section
variable {w : Who} {n : Fin 32} {v : U32} {s : State}

theorem txdPush_runs (h : MayWrite w (0xA028 + 0x40 * n.val) s) :
    (s.clk.running = true → Runs (.txdPush w n v) s fun t => t.rch n = { s.rch n with txIn := (s.rch n).txIn ++ [v] }) ∧
    (s.clk.running = false → (s.rch n).txIn = [] → (s.rch n).rxIn = [] →
      (4 ≤ (s.rch n).tx.length → Runs (.txdPush w n v) s fun t =>
        t.rch n = { s.rch n with stat := setBit (s.rch n).stat 1 true }) ∧
      ((s.rch n).tx.length < 4 → Runs (.txdPush w n v) s fun t => t.rch n = { s.rch n with tx := (s.rch n).tx ++ [v] })) := by
  have hx : exec (.txdPush w n v) s = .next (answer (pushTx n v s) w {}) := exec_write rfl h
  refine ⟨fun hr => .of_exec hx ?_, fun hr htx hrx => ⟨fun hlen => .of_exec hx ?_, fun hlen => .of_exec hx ?_⟩⟩
  · rw [answer_rch, pushTx_waits n.isLt v hr]
  · rw [answer_rch, pushTx_full n.isLt v hr htx hrx hlen]
  · rw [answer_rch, pushTx_room n.isLt v hr htx hrx hlen]

theorem injection_runs (h : MayWrite w (0xA030 + 0x40 * n.val) s) :
    (∀ x, (s.rch n).inj = some x → Runs (.injection w n v) s fun t =>
      t.rch n = { s.rch n with stat := setBit (s.rch n).stat 3 true }) ∧
    ((s.rch n).inj = none → (s.rch n).abortstall = false ∨ (s.rch n).latch = none → Runs (.injection w n v) s fun t =>
      t.rch n = { s.rch n with inj := some v }) ∧
    (∀ l, (s.rch n).inj = none → (s.rch n).abortstall = true → (s.rch n).latch = some l → Runs (.injection w n v) s fun t =>
      t.rch n = { s.rch n with inj := some v, latch := none, stat := setBit (s.rch n).stat 8 true }) := by
  have hx : exec (.injection w n v) s = .next (answer (writeInj n v s) w {}) := exec_write rfl h
  refine ⟨fun x hi => .of_exec hx ?_, fun hi ha => .of_exec hx ?_, fun l hi ha hl => .of_exec hx ?_⟩
  · rw [answer_rch, writeInj_pending n.isLt v hi]
  · rw [answer_rch, writeInj_taken n.isLt v hi ha]
  · rw [answer_rch, writeInj_abandons n.isLt v hi ha hl]

theorem programMemoryWrite_runs {i : BitVec 11} (h : MayWrite w (0xC000 + 4 * i.toNat) s) (hw : Memory.wf 0 s.rider.prog = true) :
    Runs (.programMemoryWrite w i v) s fun t => progWord t i.toNat = v ∧ t.rider.bad = mark i.toNat false s.rider.bad ∧
      (∀ k, k ≠ i.toNat → progWord t k = progWord s k) ∧ t.rider.ch = s.rider.ch := by
  have hp (x : State) (k : Nat) : progWord (answer x w {}) k = progWord x k := by rw [progWord, answer_rider, progWord]
  obtain ⟨hsame, hother⟩ := writeProg_progWord hw i.toNat v
  refine .of_exec (exec_write rfl h) ⟨(hp ..).trans hsame, ?_, fun k hk => (hp ..).trans (hother k hk), ?_⟩
  · rw [answer_rider, writeProg]
  · rw [answer_rider, writeProg]

section
variable (h : MayWrite w (0xA000 + 0x40 * n.val) s)
include h

theorem channelRun_runs (hr : (s.rch n).run = false) (h2 : bit v 2 = false) : Runs (.channelRun w n v) s fun t =>
    (t.rch n).run = true ∧ (t.rch n).div = 0 ∧ (t.rch n).abortstall = bit v 1 ∧
    (bit v 1 = false → t.rch n = { s.rch n with run := true, div := 0, abortstall := false }) ∧
    ∀ k, k ≠ n.val → t.rch k = s.rch k := by
  have h1 : bit (v ||| 1) 1 = bit v 1 := bit_or_beside v (by decide)
  have hst : (ctlStored n (v ||| 1) s).rch n = { s.rch n with abortstall := bit v 1 } :=
    (ctlStored_kept n.isLt (.inl ((bit_or_beside v (by decide)).trans h2))).trans (by rw [h1])
  refine .of_exec (exec_write rfl h) ?_
  simp only [answer_rch]
  rw [writeRchCtl_starts n.isLt (bit_or_forced v (by decide)) hr]
  refine ⟨rfl, rfl, (abortStall_abortstall n.isLt _).trans (by rw [hst]), fun h0 => ?_, fun k hk => writeRchCtl_other hk ..⟩
  rw [abortStall_idle (by rw [hst]; exact h0), hst, h0]

theorem channelStop_runs (h1 : bit v 1 = false) (h2 : bit v 2 = false ∨ (s.rch n).run = true) :
    Runs (.channelStop w n v) s fun t =>
      t.rch n = { s.rch n with run := false, latch := none, setat := none, abortstall := false } ∧
      ∀ k, k ≠ n.val → t.rch k = s.rch k := by
  have hb (k : Nat) (hk : k < 32) (h0 : bit (1 : U32) k = false) : bit (v &&& ~~~1) k = bit v k := by
    rw [bit_andNot v 1 hk, h0, Bool.not_false, Bool.and_true]
  refine .of_exec (exec_write rfl h) ?_
  simp only [answer_rch]
  rw [writeRchCtl_stops n.isLt (bit_andNotOne v) ((hb 1 (by decide) (by decide)).trans h1), hb 2 (by decide) (by decide),
    if_neg (by rcases h2 with h2 | h2 <;> simp [h2])]
  exact ⟨rfl, fun k hk => writeRchCtl_other hk ..⟩

theorem channelReset_runs (h1 : bit v 1 = false) :
    ((s.rch n).run = false → bit v 0 = false → Runs (.channelReset w n v) s fun t =>
      t.rch n = { s.rch n with
        tx := [], rx := [], txIn := [], rxIn := [], osr := 0, isr := 0, icnt := 0, scnt := 0, setat := none, inj := none
        abortstall := false, latch := none }) ∧
    ((s.rch n).run = true → bit v 0 = true → Runs (.channelReset w n v) s fun t =>
      t.rch n = { s.rch n with abortstall := false }) := by
  have hx : exec (.channelReset w n v) s = .next (answer (writeRchCtl n (v ||| 4) s) w {}) := exec_write rfl h
  have h0 : bit (v ||| 4) 0 = bit v 0 := bit_or_beside v (by decide)
  have h1 : bit (v ||| 4) 1 = false := (bit_or_beside v (by decide)).trans h1
  refine ⟨fun hr hv => .of_exec hx ?_, fun hr hv => .of_exec hx ?_⟩
  · rw [answer_rch, writeRchCtl_stops n.isLt (h0.trans hv) h1, bit_or_forced v (by decide), hr, Bool.not_false, Bool.and_self,
      if_pos rfl, ← hr]
    rfl
  · rw [answer_rch, writeRchCtl_goesOn n.isLt (h0.trans hv) h1 hr]

end

theorem pinMapWrite_runs {hi : Bool} {i : Fin 4} {j : Nat} {pin : BitVec 6} {mode : BitVec 2}
    (h : MayWrite w (0xA010 + 0x40 * n.val + (if hi then 4 else 0)) s) (hj : j = i.val + (if hi then 4 else 0))
    (hp : pin = (fd v (8 * i) 6 : BitVec 6)) (hm : mode = (fd v (8 * i + 6) 2 : BitVec 2)) : Runs (.pinMapWrite w n hi v) s fun t =>
      (rslot (t.rch n) j).pin = pin ∧ (rslot (t.rch n) j).mode = mode ∧
      (rslot (t.rch n) j).held = (bit mode 1 &&
        ((drives (rslot (s.rch n) j) && (rslot (s.rch n) j).pin = pin) || !pinTaken s n pin.toNat)) ∧
      (bit mode 1 = true → ¬ (drives (rslot (s.rch n) j) = true ∧ (rslot (s.rch n) j).pin = pin) →
        pinTaken s n pin.toNat = true → bit (t.rch n).stat 4 = true) ∧
      ∀ k, k ≠ n.val → (s.rch k).Conflicted (t.rch k) := by
  obtain ⟨hpin, hmode, hheld, hconf⟩ := writeMap_slot n.isLt i.isLt hi v s hj hp hm
  refine .of_exec (exec_write rfl h) ?_
  simp only [answer_rch]
  exact ⟨hpin, hmode, hheld, hconf, fun k hk => writeMap_conflicted hk ..⟩

theorem syncArm_runs (h : MayWrite w 0xB000 s) (hs : s.rider.sync = false) :
    (inFuture s.rider.synct s.clk.gauge = true → Runs (.syncArm w v) s fun t =>
      t.rider.sync = true ∧ t.rider.serr = (s.rider.serr && !bit v 1) ∧ t.rider.ch = s.rider.ch) ∧
    (inFuture s.rider.synct s.clk.gauge = false → Runs (.syncArm w v) s fun t =>
      t.rider.sync = false ∧ t.rider.serr = true ∧ t.rider.ch = s.rider.ch) := by
  have hx : exec (.syncArm w v) s = .next (answer (writeRider (v ||| 1) s) w {}) := exec_write rfl h
  have h0 : bit (v ||| 1) 0 = true := bit_or_forced v (by decide)
  refine ⟨fun hf => .of_exec hx ?_, fun hf => .of_exec hx ?_⟩
  · rw [answer_rider, writeRider_arms h0 hs hf, bit_or_beside v (by decide)]
    exact ⟨rfl, rfl, rfl⟩
  · rw [answer_rider, writeRider_past h0 hs hf]
    exact ⟨hs, rfl, rfl⟩

theorem exec_synchronisedStart (hc : coreOff s = false) (hs : s.rider.sync = true) (ha : awake s = true)
    (ho : s.rider.passedAt = 0 ∧ inPast s.rider.synct s.clk.gauge = true ∨ s.rider.passedAt ≠ 0 ∧ s.rider.passedAt ≤ s.clk.fc) :
    exec .synchronisedStart s = .next (syncStart s) := by
  refine (exec_event rfl hc).trans (congrArg Host.Outcome.next (if_pos ?_))
  rcases ho with ⟨h0, hp⟩ | ⟨h0, hp⟩
  · rw [if_pos h0, hs, hp, ha]
    rfl
  · rw [if_neg h0, hs, decide_eq_true hp, ha]
    rfl

end

/-- Settles O24: TXD by `landFifos_rch`, INJ by `abortStall`, CTL by `writeRchCtl_eq`, the pin map by `writeMap_slot` and, for
the other channels, `writeMap_conflicted`, and RIDER by `writeRider` and `syncStart_rch`. -/
theorem riderRegisters : Obligations.RiderRegisters := by
  unfold Obligations.RiderRegisters
  refine ⟨fun w n v s h => txdPush_runs h, ?_, fun w n v s h => injection_runs h, fun w i v s h hw => programMemoryWrite_runs h hw,
    fun w n v s h hr h2 => channelRun_runs h hr h2, fun w n v s h h1 h2 => channelStop_runs h h1 h2,
    fun w n v s h h1 => channelReset_runs h h1, fun w n hi v i s j pin mode h hj hp hm => pinMapWrite_runs h hj hp hm,
    fun w v s h hs => syncArm_runs h hs, fun s hc hs ha ho => ?_⟩
  · rintro n s t rfl
    exact landFifos_lands n.isLt s
  · exact .of_exec (exec_synchronisedStart hc hs ha ho) ⟨rfl, fun n => syncStart_rch n.isLt s⟩

end Sys2Proof.Machine
end

section
/-! Reads of RXD by any agent (R516), and O57. -/

namespace Sys2Proof.Machine

set_option Elab.async false

theorem popRx_other {n k : Nat} (h : k ≠ n) (s : State) : (popRx n s).2.rch k = s.rch k := by
  unfold popRx
  split
  · exact State.rch_modRch_other _ _ h
  · exact rchFlag_other h ..

/-- What a read of RXD answers and does, for whichever agent reads without the inspect attribute. -/
theorem busRead_rxd (ag : Agent) (n : Fin 32) (s : State) :
    busRead ag false (0xA02C + 0x40 * n.val) s = ({ data := (s.rch n).rx.headD 0 }, (popRx n s).2) := by
  obtain ⟨hvalue, heffect⟩ := regRead_rxd ag n s
  rw [busRead_low (by omega) (by omega), hvalue, heffect]

/-- Host software's read command, which is answered with the word that the read has taken. -/
theorem rxdRead_pops (n : Fin 32) {s : State} (hc : coreOff s = false) {v : U32} {c : RiderCh} (hv : (s.rch n).rx.headD 0 = v)
    (hch : (popRx n s).2.rch n = c) : Runs (.rxdRead .host n) s fun t =>
      t.apb = { rdata := v, slverr := false } ∧ t.rch n = c ∧ ∀ m : Nat, m ≠ n.val → t.rch m = s.rch m :=
  runs_hostRead rfl (by omega) (by omega) (.inr (by omega)) hc ((regRead_rxd .host n s).imp_left (Eq.trans · hv))
    ⟨hch, fun _ hm => popRx_other hm s⟩

theorem rxd_read (ag : Agent) (n : Fin 32) {s : State} (hc : coreOff s = false) {v : U32} {c : RiderCh}
    (hv : (s.rch n).rx.headD 0 = v) (hch : (popRx n s).2.rch n = c) :
    (busRead ag false (0xA02C + 0x40 * n.val) s).1 = { data := v } ∧
    (busRead ag false (0xA02C + 0x40 * n.val) s).2.rch n = c ∧
    Runs (.rxdRead .host n) s fun t =>
      t.apb = { rdata := v, slverr := false } ∧ t.rch n = c ∧ ∀ m : Nat, m ≠ n.val → t.rch m = s.rch m := by
  rw [busRead_rxd, hv]
  exact ⟨rfl, hch, rxdRead_pops n hc hv hch⟩

/-- Settles O57: by the bus and by host software's command a read of RXD is `popRx`. -/
theorem riderReceiveReads : Obligations.RiderReceiveReads := by
  unfold Obligations.RiderReceiveReads
  exact fun ag n s hc => ⟨fun v rest h => rxd_read ag n hc (by rw [h]; rfl) (popRx_cons n.isLt h),
    fun h => rxd_read ag n hc (by rw [h]; rfl) (popRx_nil n.isLt h)⟩

end Sys2Proof.Machine
end
